-- ==== Sys2Proof/Word.lean ====
section
/-! DEFINITION. Word types of the block: registers are 32-bit words, memories hold bytes, counters are 64-bit. -/

namespace Sys2Proof

/-- A register word (R367: BAR0 takes 32-bit accesses). -/
abbrev Word := BitVec 32

/-- A byte of any memory. -/
abbrev Byte := BitVec 8

/-- A 64-bit count, such as a sync counter (R251). -/
abbrev DWord := BitVec 64

end Sys2Proof
end

