-- ==== Sys2Proof/Syntax.lean ====
section
/-! DEFINITION. The commands of the block: one constructor per row of spec/opcode_table.json, and the operand types they carry.
A command stands for one step of the part (95_what_each_step_holds.md). -/

namespace Sys2Proof

/-- The identity an access carries (R269). -/
inductive Ident where
  | host | mgmt | pair | cp (k : Fin 4) | debug
  deriving DecidableEq, Repr

/-- What faults of an M-gate make its compares find in one tile of a leg (R96, R97): nothing; one failed compare; a failed column that
isolation finds; a compare that fails twice though no column differs. The tile's number names the array. -/
inductive MgCheck where
  | pass | transient (tile : Nat) | column (tile : Nat) (col : Fin 256) | checker (tile : Nat)
  deriving DecidableEq, Repr

/-- What a checksum compare or a mod-3 residue finds (R145, R149, R331): nothing; one mismatch; a second mismatch. The number is the tile of a
V-gate leg, or the addition among those of a drift leg, that mismatches. -/
inductive HwCheck where
  | pass | transient (at_ : Nat) | persistent (at_ : Nat)
  deriving DecidableEq, Repr

/-- An error that SECDED finds in on-die storage while a step reads it (R21, R332): corrected, in an island's storage; uncorrectable in a
scratchpad beat (128 B, by number), an operand-cache line, a drift entry (set and way), an accumulator or weight plane or V-gate tile
register of a tile (with whether a second error in the same pass follows), the piste's map memory, or an island's control storage. With them stands
an access to a host page (by number) that the host completes with an error (R238), and an atomic add whose residue does not match at a stack's
adder, by HBM address, with whether it mismatches again (R331). -/
inductive SramErr where
  | corrected (island : Nat) | beat (b : Nat) | line (k : Nat) | drift (set way : Nat) | plane (tile : Nat) (again : Bool) | map | control (island : Nat)
  | host (page : Nat) | adder (addr : Nat) (again : Bool)
  deriving DecidableEq, Repr

/-- A Baond message: the header fields of R289 and its data bytes. -/
structure Msg where
  cls : Nat
  op : Nat
  dst : Nat
  src : Nat
  len : Nat
  vl : Nat
  resp : Bool
  poison : Bool
  space : Nat
  detoured : Bool
  hops : Nat
  addr : Nat
  tag : Nat
  data : List Byte
  deriving DecidableEq, Repr

/-- A link record (R280): the sender's node, port, state, role, rate and 28 pool sizes. -/
structure LinkRec where
  node : Nat
  port : Nat
  state : Nat
  role : Nat
  rate : Nat
  pools : List Nat
  deriving DecidableEq, Repr

/-- The code of a SIGNAL's or an arrival's source (R265). -/
inductive Source where
  | remote (node : Nat)
  | sigGo (id : Ident)
  | die (island queue : Nat)
  deriving DecidableEq, Repr

/-- Who asks for attestation: HOST on channel 0, MGMT on channel 2 (R410). -/
inductive Requester where
  | host | mgmt
  deriving DecidableEq, Repr

/-- How firmware gets on with an attestation request (R410): it is served; a key operation it needs fails; firmware is busy with another request. -/
inductive Served where
  | done | keyFails | busy
  deriving DecidableEq, Repr

/-- The error a base die finds in a 64 B codeword (R222): how many of its bytes are wrong. -/
abbrev ErrBytes := Nat

/-- Why power-down begins (R450). -/
inductive DownCause where
  | pwrEn | vinLimit | shutdown
  deriving DecidableEq, Repr

/-- What a checker of the sweep finds (R340): agreement; a difference, and which of target and checker the third run sides
against; three different results; a check that did not complete in time. -/
inductive SweepResult where
  | agree | targetMinority | checkerMinority | unresolved | deferred
  deriving DecidableEq, Repr

/-- The commands. An operand with a default stands for what the plain case lacks: an error found, a second access size, a base address register other
than BAR0. -/
inductive Instr where
  -- command rings (R376 to R379): ring and the operands of the descriptor
  | loadMap (r : Fin 64) (addr space slot mask : Nat)
  | run (r : Fin 64) (mask slot epoch iter : Nat) (ram : List SramErr)
  | copy (r : Fin 64) (src dst len srcSpace dstSpace : Nat)
  | fill (r : Fin 64) (dst len space : Nat) (pattern : DWord)
  | modeChange (r : Fin 64) (epoch word : Nat)
  | layoutChange (r : Fin 64) (epoch : Nat) (relayout : Bool) (slot mask iter : Nat)
  | snapshotSave (r : Fin 64) (space mask addr len : Nat)
  | snapshotRestore (r : Fin 64) (space mask addr len : Nat)
  | tableMigrate (r : Fin 64) (region table tier row offset newSlot : Nat)
  | fence (r : Fin 64) (scope : Nat)
  | signal (r : Fin 64) (counter : Fin 4096) (round amount : Nat)
  | wait (r : Fin 64) (counter : Fin 4096) (target : DWord) (limit : Nat) (core : Option (Fin 4) := none)
  | flush (r : Fin 64) (off len : Nat)
  | sqTailDoorbell (id : Ident) (r : Fin 64) (tail : Word)
  | descriptorAccept (r : Fin 64) (readFails : Bool)
  | commandCompletion (r : Fin 64) (elapsedNs : DWord) (writeFails : Bool)
  | cqHeadWrite (id : Ident) (r : Fin 64) (head : Word)
  | ringEnable (id : Ident) (r : Fin 64) (v : Word)
  | ringAbort (id : Ident) (r : Fin 64) (v : Word)
  -- legs of M-gates, A-gates, V-gates, the G-gate and the X-gate
  | matmul (p : Fin 64) (m : Fin 5) (chk : MgCheck) (ram : List SramErr)
  | matmulInspect (p : Fin 64) (m : Fin 5) (chk : MgCheck) (ram : List SramErr)
  | attend (p : Fin 64) (a : Fin 2) (chk : HwCheck) (ram : List SramErr)
  | attendPaged (p : Fin 64) (a : Fin 2) (chk : HwCheck) (ram : List SramErr)
  | attendBwd (p : Fin 64) (a : Fin 2) (chk : HwCheck) (ram : List SramErr)
  | kvAppend (p : Fin 64) (a : Fin 2) (ram : List SramErr)
  | ropeLoad (p : Fin 64) (a : Fin 2) (ram : List SramErr)
  | rotate (p : Fin 64) (a : Fin 2) (ram : List SramErr)
  | elemwise (p : Fin 64) (v : Fin 3) (chk : HwCheck) (ram : List SramErr)
  | reduceVector (p : Fin 64) (v : Fin 3) (chk : HwCheck) (ram : List SramErr)
  | norm (p : Fin 64) (v : Fin 3) (chk : HwCheck) (ram : List SramErr)
  | smNormalise (p : Fin 64) (v : Fin 3) (chk : HwCheck) (ram : List SramErr)
  | smMerge (p : Fin 64) (v : Fin 3) (chk : HwCheck) (ram : List SramErr)
  | kl (p : Fin 64) (v : Fin 3) (chk : HwCheck) (ram : List SramErr)
  | optUpdate (p : Fin 64) (v : Fin 3) (chk : HwCheck) (ram : List SramErr)
  | convert (p : Fin 64) (v : Fin 3) (chk : HwCheck) (ram : List SramErr)
  | compress24 (p : Fin 64) (v : Fin 3) (chk : HwCheck) (ram : List SramErr)
  | cacheFill (p : Fin 64) (v : Fin 3) (chk : HwCheck) (ram : List SramErr)
  | cacheSpill (p : Fin 64) (v : Fin 3) (chk : HwCheck) (ram : List SramErr)
  | sketch (p : Fin 64) (v : Fin 3) (chk : HwCheck) (ram : List SramErr)
  | sample (p : Fin 64) (ram : List SramErr)
  | gather (p : Fin 64) (ram : List SramErr)
  | scatterAdd (p : Fin 64) (chk : HwCheck) (ram : List SramErr)
  | aggregate (p : Fin 64) (chk : HwCheck) (ram : List SramErr)
  | embGather (p : Fin 64) (ram : List SramErr)
  | embScatter (p : Fin 64) (chk : HwCheck) (ram : List SramErr)
  | embRefresh (p : Fin 64) (ram : List SramErr)
  | store (p : Fin 64) (ram : List SramErr)
  | atomicAdd (p : Fin 64) (ram : List SramErr)
  | reduce (p : Fin 64) (chk : HwCheck) (ram : List SramErr)
  | normPack (p : Fin 64) (ram : List SramErr)
  | normUnpack (p : Fin 64) (ram : List SramErr)
  | normReturn (p : Fin 64) (ram : List SramErr)
  | gatherShard (p : Fin 64) (ram : List SramErr)
  | offload (p : Fin 64) (ram : List SramErr)
  | kvSend (p : Fin 64) (ram : List SramErr)
  | stageSend (p : Fin 64) (ram : List SramErr)
  -- runs, boundaries, limits
  | legSignal (p : Fin 64) (g : Fin 12)
  | pisteBoundary (p : Fin 64)
  | runStart (n : Nat)
  | runEnd (p : Fin 64)
  | runModeStall (n : Nat)
  | modeStall
  | relayoutStart
  | layoutStall
  | staleReplay (n : Nat)
  | forerunnerFetch (p : Fin 64) (f : Fin 4) (ram : List SramErr := [])
  | forerunnerWriteback (p : Fin 64) (ram : List SramErr := [])
  | waitExpiry (island queue : Nat)
  | fifoStallExpiry (p : Fin 64) (g : Fin 12) (upstream : Bool)
  | stageTimeout (p : Fin 64) (f : Fin 4)
  | reduceCloseLimit (p : Fin 64)
  | datapathGate (p : Fin 64) (g : Fin 12)
  -- sync counters, pairs, barriers, regions, weight sets
  | signalApply (ram : List SramErr := [])
  | sigGo (id : Ident) (amount : Word)
  | zero (id : Ident) (v : Word)
  | counterCfgWrite (id : Ident) (counter : Fin 4096) (v : Word)
  | pairEntryWrite (id : Ident) (e : Fin 256) (high : Bool) (v : Word)
  | participantsWrite (id : Ident) (b : Fin 256) (v : Word)
  | barrierReset (id : Ident) (v : Word)
  | synCountRead (id : Ident) (counter : Fin 4096) (size : Nat := 4)
  | regionCommit (id : Ident) (v : Word)
  | wsetWrite (id : Ident) (w : Fin 16) (v : Word)
  | publish (id : Ident) (v : Word)
  -- mailboxes and attestation
  | mbxLockRead (id : Ident) (c : Fin 32) (off : Nat := 0) (size : Nat := 4)
  | mbxLockRelease (id : Ident) (c : Fin 32) (v : Word)
  | mbxDoorbell (id : Ident) (c : Fin 32) (v : Word)
  | mbxDataRead (id : Ident) (c : Fin 32) (j : Fin 8) (ecc : Bool) (off : Nat := 0) (size : Nat := 4)
  | mbxStatusRead (id : Ident) (c : Fin 32) (off : Nat := 0) (size : Nat := 4)
  | mbxForce (id : Ident) (v : Word)
  | bindWrite (id : Ident) (c : Fin 32) (v : Word)
  | report (q : Requester) (how : Served := .done)
  | aliasCert (q : Requester) (how : Served := .done)
  | deviceCert (q : Requester) (how : Served := .done)
  | extend (q : Requester) (how : Served := .done)
  | ownerKey (q : Requester) (how : Served := .done)
  -- fault records, events, rights
  | frTailWrite (id : Ident) (v : Word)
  | frSelectWrite (id : Ident) (v : Word) (ecc : Bool)
  | dropClear (id : Ident) (v : Word)
  | faultFirstRead (id : Ident) (page : Nat) (off : Nat := 0) (size : Nat := 4) (reg : Nat := 0x60) (bar : Nat := 0)
  | countClear (id : Ident) (page : Nat) (v : Word)
  | eventEnableWrite (id : Ident) (page : Nat) (v : Word)
  | portAccessWrite (id : Ident) (page : Nat) (v : Word)
  -- register writes of single blocks
  | spareMapWrite (id : Ident) (p : Fin 64) (m : Fin 5) (reg : Fin 5) (v : Word)
  | dropCtrlClear (id : Ident) (p : Fin 64) (v : Fin 3) (x : Word)
  | chanReset (id : Ident) (p : Fin 64) (v : Word)
  | groomPause (id : Ident) (st : Fin 12) (v : Word)
  | maxClear (id : Ident) (st : Fin 12) (v : Word)
  | dieMaxClear (id : Ident) (v : Word)
  | tlmSnap (id : Ident) (v : Word)
  | softCapWrite (id : Ident) (v : Word)
  | retrain (id : Ident) (port : Fin 7) (v : Word)
  | aliveRelease (id : Ident) (v : Word)
  | snapNow (id : Ident)
  | endTakeover (id : Ident) (regAck : Bool)
  | join (id : Ident)
  | startAlone (id : Ident)
  | rollbackCommit (id : Ident) (v : Word)
  | hostImgGo (id : Ident) (readFails : Bool)
  | dbgToken (last : Word)
  | dbgRelock (id : Ident) (v : Word)
  | holdContinue (id : Ident)
  | cpHalt (id : Ident) (v : Word)
  | cpStep (id : Ident) (v : Word)
  | registerWrite (id : Ident) (addr size : Nat) (v : DWord) (bar : Nat := 0)
  | smbusTransaction (pecOk isWrite : Bool) (off v : Word) (ecc : Bool := false) (dev : Nat := 0x6C)
  -- Baond
  | flitReceive (port : Fin 7) (flit : List Byte)
  | idleAck (port : Fin 7)
  | keepalive (port : Fin 7)
  | linkSilent (port : Fin 7)
  | lossOfSignal (port : Fin 7)
  | retrainRetry (port : Fin 7) (peer : LinkRec)
  | portBringup (port : Fin 7) (peer : LinkRec)
  | laneFailure (port : Fin 7) (lane : Fin 9)
  | lane (port : Fin 7) (confirm : Bool) (lane : Fin 8) (seq : Nat)
  | peerCoreReset (port : Fin 7)
  | statusReady (port : Fin 7) (peer : LinkRec)
  | messageRoute (msg : Msg)
  | syncSignalMessage (port : Fin 7) (msg : Msg)
  | kvWrite (port : Fin 7) (msg : Msg)
  | reducePartial (port : Fin 7) (msg : Msg)
  | arrivalMark (port : Fin 7) (msg : Msg)
  | finalAdd (port : Fin 7) (msg : Msg) (adders : List (Nat × Bool) := [])
  | put (port : Fin 7) (msg : Msg)
  | get (port : Fin 7) (msg : Msg)
  | atomicAddMessage (port : Fin 7) (msg : Msg) (adders : List (Nat × Bool) := [])
  | regRead (port : Fin 7) (msg : Msg) (ecc : Bool := false)
  | regWrite (port : Fin 7) (msg : Msg)
  | mailWake (port : Fin 7) (msg : Msg)
  | mirrorWrite (port : Fin 7) (msg : Msg)
  | remoteResponse (port : Fin 7) (msg : Msg)
  | nak (port : Fin 7) (msg : Msg)
  | peerTimeout (tag : Nat)
  -- stacks
  | hbmAccess (addr : Nat) (isWrite : Bool) (data : List Byte) (island source : Nat) (err : ErrBytes)
  | atomicAddRequest (piste : Option (Fin 64)) (addr mask : Nat) (lanes : List Word) (island : Nat) (err : ErrBytes) (chk : HwCheck)
  | groomStep (st : Fin 12) (errs : List (Nat × ErrBytes))
  | rowRepair (st : Fin 12) (errs : List (Nat × ErrBytes))
  | stackTempRead (st : Fin 12) (t : Nat)
  -- power, sensors, reset, boot
  | dieSensorRead (temps : List Nat)
  | powerEvaluation (rails : List (Nat × Nat))
  | frequencyMeasure (island khz : Nat)
  | railFault (rail : Fin 24) (volts amps : Nat)
  | refclkLoss
  | pwrEnRise (railsHold : Bool)
  | powerUpTimeout
  | powerDown (cause : DownCause) (vin : Nat := 0)
  | powerOnReset
  | coreReset
  | systemReset
  | coreResetExit (imageOk : Bool)
  | boot (samples : List Nat) (fuseError : Bool) (badStacks : List Nat) (links : List (Option LinkRec)) (lanes speed : Nat)
  | cxlLinkTrain (lanes speed : Nat)
  | cxlLinkDown
  | cxlMemRequest (isWrite : Bool) (off : Nat) (data : List Byte)
  | h2dSnoop (addr : Nat)
  | hdmCommit (units : Nat)
  -- records, traces, log, sweep, fallback, mirror, pair
  | faultRecordArrival (island : Nat)
  | alarmIncrement (island cls : Nat)
  | traceWrite
  | logWrite
  | sweepCheck (p : Fin 64) (g : Fin 12) (result : SweepResult)
  | fallback
  | mirrorSnapshot (holdUs : Nat)
  | pairSenseChange (level : Bool)
  | pairBringup (peer : LinkRec) (partnerTakeover : Bool) (mirBase mirSize : Nat) (seq0 seq1 : Nat := 0)
  | pairTakeover
  | tableMigrateCopy (differs : Bool)
  | refclkReturn
  | vsbApply
  | vsbLoss (mv : Nat := 0)
  | atsInvalidation (page count : Nat) (refuse : Bool)
  deriving DecidableEq, Repr

end Sys2Proof
end

