-- ==== Sys2Proof/Machine/Bits.lean ====
section
/-! DEFINITION. Bit fields, byte order (R5: little-endian) and the signed reading of codes, all over plain numbers. -/

namespace Sys2Proof.Machine

/-- The field of `w` bits at bit `lo` of `v`. -/
def bits (v lo w : Nat) : Nat := v / 2 ^ lo % 2 ^ w

/-- `v` with the field of `w` bits at bit `lo` replaced by `x` (its low `w` bits). -/
def putBits (v lo w x : Nat) : Nat :=
  v % 2 ^ lo + (x % 2 ^ w) * 2 ^ lo + (v / 2 ^ (lo + w)) * 2 ^ (lo + w)

/-- Bit `i` of `v`. -/
def bit (v i : Nat) : Bool := v / 2 ^ i % 2 == 1

/-- A truth value as a bit. -/
def ofBool (b : Bool) : Nat := if b then 1 else 0

/-- The number that a list of bytes holds, lowest byte first (R5). -/
def leNat : List Byte → Nat
  | [] => 0
  | b :: r => b.toNat + 256 * leNat r

/-- The `n` lowest bytes of `v`, lowest first (R5). -/
def leBytes : Nat → Nat → List Byte
  | 0, _ => []
  | n + 1, v => BitVec.ofNat 8 v :: leBytes n (v / 256)

/-- `n` bytes of the list from offset `off`, bytes past its end reading as 0. -/
def sliceBytes (l : List Byte) (off n : Nat) : List Byte :=
  let t := (l.drop off).take n
  t ++ List.replicate (n - t.length) 0

/-- The `n`-byte little-endian number at offset `off` of a byte list. -/
def leAt (l : List Byte) (off n : Nat) : Nat := leNat ((l.drop off).take n)

/-- The two's-complement reading of a `w`-bit code. -/
def toSigned (w v : Nat) : Int :=
  let x := v % 2 ^ w
  if x < 2 ^ (w - 1) then (x : Int) else (x : Int) - (2 ^ w : Nat)

/-- The `w`-bit two's-complement code of an integer. -/
def ofSigned (w : Nat) (i : Int) : Nat := (i % ((2 ^ w : Nat) : Int)).toNat

/-- The smallest multiple count covering `a`: `a / b` rounded up. -/
def ceilDiv (a b : Nat) : Nat := (a + b - 1) / b

/-- `v` capped at the largest `w`-bit value: the saturating registers of the spec. -/
def satBits (w v : Nat) : Nat := if v < 2 ^ w then v else 2 ^ w - 1

/-- One bit of a square root, highest first. -/
def isqrtGo (n : Nat) : Nat → Nat → Nat
  | 0, r => r
  | k + 1, r => if (r + 2 ^ k) * (r + 2 ^ k) ≤ n then isqrtGo n k (r + 2 ^ k) else isqrtGo n k r

/-- The square root, rounded down. -/
def isqrt (n : Nat) : Nat := isqrtGo n (n.log2 / 2 + 1) 0

/-- The indices below `n` whose bit is set in a mask, ascending. -/
def maskList (n mask : Nat) : List Nat := (List.range n).filter (bit mask)

/-- The mask with the bits of a list of indices set. -/
def listMask (l : List Nat) : Nat := l.foldl (fun m i => if bit m i then m else m + 2 ^ i) 0

/-- A list cut into pieces of `k` items, at most `fuel` pieces. -/
def piecesGo {α : Type} (k : Nat) : Nat → List α → List (List α)
  | 0, _ => []
  | _ + 1, [] => []
  | n + 1, l => l.take k :: piecesGo k n (l.drop k)

/-- A list cut into pieces of `k` items, the last one short. -/
def pieces {α : Type} (k : Nat) (l : List α) : List (List α) := piecesGo k (l.length + 1) l

/-- A list padded with `x` to `n` items and cut there. -/
def padTo {α : Type} (n : Nat) (x : α) (l : List α) : List α :=
  l.take n ++ List.replicate (n - l.length) x

/-- The item of a list at `i`, or `d`. -/
def nth {α : Type} (l : List α) (i : Nat) (d : α) : α := (l[i]?).getD d

/-- A list with item `i` changed by `f`. -/
def modAt {α : Type} : List α → Nat → (α → α) → List α
  | [], _, _ => []
  | x :: r, 0, f => f x :: r
  | x :: r, i + 1, f => x :: modAt r i f

end Sys2Proof.Machine
end

