-- ==== Sys2Proof/Machine/Keccak.lean ====
section
/-! DEFINITION. SHAKE256, which the spec names for generator keys, image hashes and measurements (R76, R404, R408). Its construction is the
published one (PRESUMED, log entry 7). -/

namespace Sys2Proof.Machine

open Sys2Proof

/-- A 64-bit lane turned left. -/
def rotl64 (x n : Nat) : Nat := (x * 2 ^ n + x / 2 ^ (64 - n)) % 2 ^ 64

/-- The rotation of each lane, by lane number x + 5 y. -/
def keccakRot : List Nat :=
  [0, 1, 62, 28, 27] ++ [36, 44, 6, 55, 20] ++ [3, 10, 43, 25, 39] ++ [41, 45, 15, 21, 8] ++ [18, 2, 61, 56, 14]

/-- The round constants. -/
def keccakRc : List Nat :=
  [0x0000000000000001, 0x0000000000008082, 0x800000000000808A, 0x8000000080008000, 0x000000000000808B, 0x0000000080000001] ++
  [0x8000000080008081, 0x8000000000008009, 0x000000000000008A, 0x0000000000000088, 0x0000000080008009, 0x000000008000000A] ++
  [0x000000008000808B, 0x800000000000008B, 0x8000000000008089, 0x8000000000008003, 0x8000000000008002, 0x8000000000000080] ++
  [0x000000000000800A, 0x800000008000000A, 0x8000000080008081, 0x8000000000008080, 0x0000000080000001, 0x8000000080008008]

/-- One round of the permutation on 25 lanes. -/
def keccakRound (a : List Nat) (rc : Nat) : List Nat :=
  let l := fun i => nth a i 0
  let c := (List.range 5).map fun x => ((((l x).xor (l (x + 5))).xor (l (x + 10))).xor (l (x + 15))).xor (l (x + 20))
  let d := (List.range 5).map fun x => (nth c ((x + 4) % 5) 0).xor (rotl64 (nth c ((x + 1) % 5) 0) 1)
  let r := (List.range 25).map fun i => rotl64 ((l i).xor (nth d (i % 5) 0)) (nth keccakRot i 0)
  -- lane (x, y) of the turned state comes from ((x + 3 y) mod 5, x)
  let b := (List.range 25).map fun i => let x := i % 5; let y := i / 5; nth r ((x + 3 * y) % 5 + 5 * x) 0
  let g := (List.range 25).map fun i =>
    let y := i / 5 * 5
    (nth b i 0).xor ((2 ^ 64 - 1 - nth b (y + (i + 1) % 5) 0).land (nth b (y + (i + 2) % 5) 0))
  modAt g 0 fun v => v.xor rc

/-- The permutation. -/
def keccakF (a : List Nat) : List Nat := keccakRc.foldl keccakRound a

/-- A rate block of 136 bytes mixed into the state. -/
def keccakAbsorb (a : List Nat) (blk : List Byte) : List Nat :=
  keccakF ((List.range 25).map fun i => if i < 17 then (nth a i 0).xor (leAt blk (8 * i) 8) else nth a i 0)

/-- Blocks of output, as many as `n` says. -/
def keccakSqueeze : Nat → List Nat → List Byte
  | 0, _ => []
  | n + 1, a => (a.take 17).flatMap (leBytes 8) ++ keccakSqueeze n (keccakF a)

/-- SHAKE256 of a byte list, `n` bytes of output. -/
def shake256 (l : List Byte) (n : Nat) : List Byte :=
  let pad := 136 - l.length % 136
  let p := if pad = 1 then [BitVec.ofNat 8 0x9F] else BitVec.ofNat 8 0x1F :: (List.replicate (pad - 2) 0 ++ [BitVec.ofNat 8 0x80])
  (keccakSqueeze (n / 136 + 1) ((pieces 136 (l ++ p)).foldl keccakAbsorb (List.replicate 25 0))).take n

end Sys2Proof.Machine
end

