-- ==== Sys2Proof/Machine/Codes.lean ====
section
/-! DEFINITION. Status codes (R389), their classes (R345) and the severity a fault record of each carries (R454). -/

namespace Sys2Proof.Machine

/-- R389 -/
def Code.MG_REPLAY : Nat := 0x0001
/-- R389 -/
def Code.AG_REPLAY : Nat := 0x0002
/-- R389 -/
def Code.VG_RECOMPUTE : Nat := 0x0003
/-- R389 -/
def Code.ADDER_RECOMPUTE : Nat := 0x0004
/-- R389 -/
def Code.AG_CHECK : Nat := 0x0005
/-- R389 -/
def Code.VG_RESIDUE : Nat := 0x0006
/-- R389 -/
def Code.XG_RESIDUE : Nat := 0x0007
/-- R389 -/
def Code.DRIFT_RESIDUE : Nat := 0x0008
/-- R389 -/
def Code.ATOMIC_RESIDUE : Nat := 0x0009
/-- R389 -/
def Code.MG_CHECKER : Nat := 0x000A
/-- R389 -/
def Code.SWEEP_MISMATCH : Nat := 0x000B
/-- R389 -/
def Code.SWEEP_UNRESOLVED : Nat := 0x000C
/-- R389 -/
def Code.MG_SPARE_MAP : Nat := 0x0101
/-- R389 -/
def Code.MG_NO_SPARE : Nat := 0x0102
/-- R389 -/
def Code.MG_SPARE_WRITE : Nat := 0x0103
/-- R389 -/
def Code.PISTE_FENCE : Nat := 0x0104
/-- R389 -/
def Code.PISTE_FENCED : Nat := 0x0105
/-- R389 -/
def Code.FALLBACK : Nat := 0x0106
/-- R389 -/
def Code.FALLBACK_FAIL : Nat := 0x0107
/-- R389 -/
def Code.STK_RETIRE_PENDING : Nat := 0x0108
/-- R389 -/
def Code.HBM_FATAL : Nat := 0x0109
/-- R389 -/
def Code.MEM_UE : Nat := 0x0201
/-- R389 -/
def Code.SRAM_UE : Nat := 0x0202
/-- R389 -/
def Code.MAP_ECC : Nat := 0x0203
/-- R389 -/
def Code.STK_NO_SPARE_ROW : Nat := 0x0204
/-- R389 -/
def Code.DRIFT_ECC : Nat := 0x0205
/-- R389 -/
def Code.VG_CACHE_ECC : Nat := 0x0206
/-- R389 -/
def Code.BND_LINK_DOWN : Nat := 0x0301
/-- R389 -/
def Code.BND_LANE_SPARED : Nat := 0x0302
/-- R389 -/
def Code.BND_DEGRADED : Nat := 0x0303
/-- R389 -/
def Code.PEER_REFUSED : Nat := 0x0304
/-- R389 -/
def Code.PEER_UNREACHABLE : Nat := 0x0305
/-- R389 -/
def Code.PEER_CORE_RESET : Nat := 0x0306
/-- R389 -/
def Code.PEER_TIMEOUT : Nat := 0x0307
/-- R389 -/
def Code.HOST_XLATE : Nat := 0x0401
/-- R389 -/
def Code.CXL_LINK_DOWN : Nat := 0x0402
/-- R389 -/
def Code.CXL_LINK_DEGRADED : Nat := 0x0403
/-- R389 -/
def Code.CXL_LINK_SLOW : Nat := 0x0404
/-- R389 -/
def Code.CMD_OPCODE : Nat := 0x0405
/-- R389 -/
def Code.CMD_FIELD : Nat := 0x0406
/-- R389 -/
def Code.CMD_RANGE : Nat := 0x0407
/-- R389 -/
def Code.CMD_ABORTED : Nat := 0x0408
/-- R389 -/
def Code.CMD_CORE_RESET : Nat := 0x0409
/-- R389 -/
def Code.RING_READ : Nat := 0x040A
/-- R389 -/
def Code.RING_WRITE : Nat := 0x040B
/-- R389 -/
def Code.SNAP_SIZE : Nat := 0x040C
/-- R389 -/
def Code.SNAP_FORMAT : Nat := 0x040D
/-- R389 -/
def Code.SYNC_TIMEOUT : Nat := 0x0501
/-- R389 -/
def Code.SYNC_SATURATE : Nat := 0x0502
/-- R389 -/
def Code.SYNC_PROXY : Nat := 0x0503
/-- R389 -/
def Code.SYNC_UNDERFLOW : Nat := 0x0504
/-- R389 -/
def Code.SYNC_OVERFLOW : Nat := 0x0505
/-- R389 -/
def Code.SYNC_UNDELIVERED : Nat := 0x0506
/-- R389 -/
def Code.BARRIER_OVERRUN : Nat := 0x0507
/-- R389 -/
def Code.BARRIER_STALE : Nat := 0x0508
/-- R389 -/
def Code.BARRIER_LIST : Nat := 0x0509
/-- R389 -/
def Code.MODE_EPOCH_ORDER : Nat := 0x0601
/-- R389 -/
def Code.MODE_FIELD : Nat := 0x0602
/-- R389 -/
def Code.MODE_STALL : Nat := 0x0603
/-- R389 -/
def Code.LAYOUT_ORDER : Nat := 0x0604
/-- R389 -/
def Code.LAYOUT_BUSY : Nat := 0x0605
/-- R389 -/
def Code.LAYOUT_EPOCH_OLD : Nat := 0x0606
/-- R389 -/
def Code.LAYOUT_EPOCH_AHEAD : Nat := 0x0607
/-- R389 -/
def Code.LAYOUT_STALL : Nat := 0x0608
/-- R389 -/
def Code.STALE_SHARD : Nat := 0x0609
/-- R389 -/
def Code.REDUCE_LATE : Nat := 0x060A
/-- R389 -/
def Code.REDUCE_OVERRUN : Nat := 0x060B
/-- R389 -/
def Code.REDUCE_ORDER : Nat := 0x060C
/-- R389 -/
def Code.GNS_STALE : Nat := 0x060D
/-- R389 -/
def Code.MAP_SIZE : Nat := 0x0701
/-- R389 -/
def Code.MAP_HEADER : Nat := 0x0702
/-- R389 -/
def Code.MAP_PISTE_KIND : Nat := 0x0703
/-- R389 -/
def Code.MAP_LEG : Nat := 0x0704
/-- R389 -/
def Code.DESC_FORMAT : Nat := 0x0705
/-- R389 -/
def Code.DESC_REGION : Nat := 0x0706
/-- R389 -/
def Code.DESC_RIGHTS : Nat := 0x0707
/-- R389 -/
def Code.DESC_BOUNDS : Nat := 0x0708
/-- R389 -/
def Code.RUN_SLOT_EMPTY : Nat := 0x0709
/-- R389 -/
def Code.RUN_CHAIN : Nat := 0x070A
/-- R389 -/
def Code.RGN_FIELD : Nat := 0x070B
/-- R389 -/
def Code.IDX_RANGE : Nat := 0x070C
/-- R389 -/
def Code.KV_FORMAT : Nat := 0x070D
/-- R389 -/
def Code.ATT_POS : Nat := 0x070E
/-- R389 -/
def Code.ATT_ROPE : Nat := 0x070F
/-- R389 -/
def Code.XG_AXIS : Nat := 0x0710
/-- R389 -/
def Code.VG_OPT_RECORD : Nat := 0x0711
/-- R389 -/
def Code.EMB_TABLE : Nat := 0x0712
/-- R389 -/
def Code.EMB_COLD : Nat := 0x0713
/-- R389 -/
def Code.EMB_MIGRATE : Nat := 0x0714
/-- R389 -/
def Code.EMB_MIGRATE_BUSY : Nat := 0x0715
/-- R389 -/
def Code.COMPRESS_DROP : Nat := 0x0716
/-- R389 -/
def Code.INSPECT_MISS : Nat := 0x0717
/-- R389 -/
def Code.GEN_REALIGN : Nat := 0x0718
/-- R389 -/
def Code.GEN_WRAP : Nat := 0x0719
/-- R389 -/
def Code.GEN_SEED : Nat := 0x071A
/-- R389 -/
def Code.SM_RISE : Nat := 0x071B
/-- R389 -/
def Code.STK_WARN : Nat := 0x0801
/-- R389 -/
def Code.STK_THROTTLE : Nat := 0x0802
/-- R389 -/
def Code.STK_CRIT : Nat := 0x0803
/-- R389 -/
def Code.DIE_THERMAL : Nat := 0x0804
/-- R389 -/
def Code.RAIL_FAULT : Nat := 0x0901
/-- R389 -/
def Code.POWER_CAP : Nat := 0x0902
/-- R389 -/
def Code.PAIR_TAKEOVER : Nat := 0x0A01
/-- R389 -/
def Code.PAIR_CONFLICT : Nat := 0x0A02
/-- R389 -/
def Code.PAIR_MIRROR_SKIP : Nat := 0x0A03
/-- R389 -/
def Code.PAIR_LIST : Nat := 0x0A04
/-- R389 -/
def Code.PAIR_MIR_FULL : Nat := 0x0A05
/-- R389 -/
def Code.PAIR_DUAL : Nat := 0x0A06
/-- R389 -/
def Code.RESYNC_FAIL : Nat := 0x0A07
/-- R389 -/
def Code.PAIR_SNAP_ABANDON : Nat := 0x0A08
/-- R389 -/
def Code.PAIR_ROLE_KIND : Nat := 0x0A09
/-- R389 -/
def Code.SEC_IMAGE : Nat := 0x0B01
/-- R389 -/
def Code.SEC_ROLLBACK : Nat := 0x0B02
/-- R389 -/
def Code.SEC_TOKEN : Nat := 0x0B03
/-- R389 -/
def Code.SEC_ATTEST : Nat := 0x0B04
/-- R389 -/
def Code.FW_FAULT : Nat := 0x0C01
/-- R389 -/
def Code.RECORD_DROP : Nat := 0x0D01
/-- R389 -/
def Code.RECORD_ECC : Nat := 0x0D02

/-- The class of a code: bits [11:8] (R389). -/
def codeClass (c : Nat) : Nat := c / 256 % 16

/-- Codes whose record is a NOTE (R454). -/
def notes : List Nat :=
  [Code.MG_REPLAY, Code.AG_REPLAY, Code.VG_RECOMPUTE, Code.ADDER_RECOMPUTE, Code.MG_SPARE_MAP, Code.MG_SPARE_WRITE] ++
  [Code.FALLBACK, Code.BND_LANE_SPARED, Code.REDUCE_LATE, Code.GNS_STALE, Code.RGN_FIELD, Code.EMB_COLD] ++
  [Code.COMPRESS_DROP, Code.INSPECT_MISS, Code.GEN_REALIGN, Code.GEN_WRAP, Code.SM_RISE, Code.STK_WARN] ++
  [Code.STK_THROTTLE, Code.DIE_THERMAL, Code.POWER_CAP, Code.PAIR_MIRROR_SKIP, Code.PAIR_LIST, Code.PAIR_SNAP_ABANDON] ++
  [Code.SEC_TOKEN, Code.SEC_ATTEST]
/-- Codes whose record is DEGRADED, or has it as the lower of two severities (R454). -/
def degraded : List Nat :=
  [Code.MG_CHECKER, Code.SWEEP_MISMATCH, Code.SWEEP_UNRESOLVED, Code.PISTE_FENCE, Code.FALLBACK_FAIL, Code.STK_RETIRE_PENDING] ++
  [Code.STK_NO_SPARE_ROW, Code.BND_LINK_DOWN, Code.BND_DEGRADED, Code.CXL_LINK_DOWN, Code.CXL_LINK_DEGRADED, Code.CXL_LINK_SLOW] ++
  [Code.RING_READ, Code.RING_WRITE, Code.SYNC_SATURATE, Code.SYNC_PROXY, Code.SYNC_UNDERFLOW, Code.SYNC_OVERFLOW] ++
  [Code.SYNC_UNDELIVERED, Code.BARRIER_OVERRUN, Code.BARRIER_STALE, Code.BARRIER_LIST, Code.REDUCE_OVERRUN, Code.STK_CRIT] ++
  [Code.RAIL_FAULT, Code.PAIR_TAKEOVER, Code.PAIR_CONFLICT, Code.PAIR_MIR_FULL, Code.PAIR_DUAL, Code.RESYNC_FAIL] ++
  [Code.PAIR_ROLE_KIND, Code.SEC_IMAGE, Code.SEC_ROLLBACK, Code.FW_FAULT, Code.RECORD_ECC]

/-- The severity of a code's record (R454): 0 NOTE, 1 DEGRADED, 2 RUN, 3 FATAL. A code listed under two severities takes the lower here;
the rules that raise the higher one give it themselves. -/
def severityOf (c : Nat) : Nat :=
  if notes.contains c then 0 else if degraded.contains c then 1 else if c = Code.HBM_FATAL then 3 else 2

end Sys2Proof.Machine
end

