-- ==== Sys2Proof/Config.lean ====
section
/-! DEFINITION. What the spec leaves open: free values (constants with no body) and constants of one implementation. -/

namespace Sys2Proof.Config

/-- Fresh free values, drawn by the model's counter `freeCount` (log entry 4): nothing constrains them. -/
opaque freeWord : Nat → BitVec 64

/-- The error of the table functions of R134 (EXP2, LOG2, RECIP, RSQRT by function code and operand), in units of 2^-40 of the
result; it is held to the tolerance of R134 where it is used (log entry 9). -/
opaque tableError : Nat → Int → Int → Int

/-- Whether a Falcon-1024 signature (third) over a message (second) verifies under a public key (first) (R406, R413; log entry 8). -/
opaque falconVerify : List Byte → List Byte → List Byte → Bool

/-- A Falcon-1024 signature by the key of an identifier over a message (R409, R411; log entry 8). -/
opaque falconSign : List Byte → List Byte → List Byte

/-- The Falcon-1024 public key derived from a seed (R409; log entry 8). -/
opaque falconPublic : List Byte → List Byte

/-- The public key whose hash a fuse holds (R406, R413; log entry 8). -/
opaque keyOfHash : List Byte → List Byte

/-- Spare rows of each HBM bank beyond the first. -/
opaque moreSpareRows : Nat

/-- Spare rows of each HBM bank (R227 names them and gives no number; log entry 23): at least one. -/
def spareRowsPerBank : Nat := moreSpareRows + 1

/-- The item of a SRAM_UE record that names the storage (R332 gives it no code): 0 scratchpad, 1 accumulator, plane or tile register, 2 control
storage, 3 always-on SRAM, as the model numbers them (log entry 26). -/
opaque storageCode : Nat → BitVec 32

/-- The item of a SYNC_TIMEOUT record that names a FIFO, upstream or not (R41 gives it no code; log entry 26). -/
opaque fifoCode : Bool → BitVec 32

/-- The item of a SEC_IMAGE record that names the check of R406 that failed, by its place in that list, or R407's (no code is given; log entry 26). -/
opaque imageCheck : Nat → BitVec 32

/-- The detail REFCLK of a RAIL_FAULT record (R416 gives it no code; log entry 26). -/
opaque refclkDetail : BitVec 32

/-- The data measurement register 0 is extended by, from the strap code and the fuse shadow less DEVICE_SECRET (R408 names its parts, the ROM digest
among them, and no layout; log entry 27). -/
opaque measure0 : Nat → List Byte → List Byte

/-- The data measurement register 3 is extended by, from the rights, bindings, node identity and HDM window (R408; log entry 27). -/
opaque measure3 : List Nat → List Byte

/-- What firmware chooses at boot (log entry 28): 0 LOG_BASE, 1 TRACE_BASE, 2 SWEEP_BASE, 3 MIR_BASE, 4 MIR_SIZE, 5 and 6 the HDM window's base and
units, 7 NODE_ID, 8 DIMS, 9 the window over the mirror area. -/
opaque firmwareChoice : Nat → BitVec 64

/-- The PCI class code of the function, processing accelerator (R364). -/
def classCode : Nat := 0x120000

/-- The vendor and device identities in the configuration space, which the spec does not give (log entry 99). -/
opaque pciIdentity : BitVec 32

/-- The revision in the configuration space, which the spec does not give (log entry 99). -/
opaque pciRevision : BitVec 8

end Sys2Proof.Config
end

