-- ==== Sys2Proof/Machine/RegMap.lean ====
section
/-! DEFINITION. The register fields of every page (19_register_map.md R426, R427 and the field tables of the chapters): offset in the
page, lowest bit, width, access code (R8), value after power-on reset, instances and their stride. -/

namespace Sys2Proof.Machine

/-- The access codes of R8. -/
inductive Acc where
  | ro | rw | w1c | w1s | rc | wo | rwl
  deriving DecidableEq, Repr

/-- One register field. `sincePowerOn` marks the fields whose description says "since power-on" (R431). -/
structure Fld where
  off : Nat
  lo : Nat
  w : Nat
  acc : Acc
  rst : Nat
  cnt : Nat
  stride : Nat
  sincePowerOn : Bool
  deriving DecidableEq, Repr

/-! ### RGNE -/

/-- 02 R47 -/
def Reg.RGNE.ENTRY_BASE_LO : Fld := ⟨0x200, 0, 32, .rw, 0, 128, 16, false⟩
/-- 02 R47 -/
def Reg.RGNE.ENTRY_BASE_HI : Fld := ⟨0x204, 0, 16, .rw, 0, 128, 16, false⟩
/-- 02 R47 -/
def Reg.RGNE.ENTRY_LOC : Fld := ⟨0x204, 16, 2, .rw, 0, 128, 16, false⟩
/-- 02 R47 -/
def Reg.RGNE.ENTRY_RD : Fld := ⟨0x204, 18, 1, .rw, 0, 128, 16, false⟩
/-- 02 R47 -/
def Reg.RGNE.ENTRY_WR : Fld := ⟨0x204, 19, 1, .rw, 0, 128, 16, false⟩
/-- 02 R47 -/
def Reg.RGNE.ENTRY_AT : Fld := ⟨0x204, 20, 1, .rw, 0, 128, 16, false⟩
/-- 02 R47 -/
def Reg.RGNE.ENTRY_FROZEN : Fld := ⟨0x204, 21, 1, .rw, 0, 128, 16, false⟩
/-- 02 R47 -/
def Reg.RGNE.ENTRY_PF : Fld := ⟨0x204, 22, 1, .rw, 0, 128, 16, false⟩
/-- 02 R47 -/
def Reg.RGNE.ENTRY_VALID : Fld := ⟨0x204, 23, 1, .rw, 0, 128, 16, false⟩
/-- 02 R47 -/
def Reg.RGNE.ENTRY_LENGTH_M1_LO : Fld := ⟨0x208, 0, 32, .rw, 0, 128, 16, false⟩
/-- 02 R47 -/
def Reg.RGNE.ENTRY_LENGTH_M1_HI : Fld := ⟨0x20c, 0, 16, .rw, 0, 128, 16, false⟩
/-- 02 R47 -/
def Reg.RGNE.ENTRY_NODE : Fld := ⟨0x20c, 16, 16, .rw, 0, 128, 16, false⟩
/-- The fields of a RGNE page. -/
def fieldsRGNE : List Fld :=
  [Reg.RGNE.ENTRY_BASE_LO, Reg.RGNE.ENTRY_BASE_HI, Reg.RGNE.ENTRY_LOC, Reg.RGNE.ENTRY_RD, Reg.RGNE.ENTRY_WR, Reg.RGNE.ENTRY_AT, Reg.RGNE.ENTRY_FROZEN, Reg.RGNE.ENTRY_PF] ++
  [Reg.RGNE.ENTRY_VALID, Reg.RGNE.ENTRY_LENGTH_M1_LO, Reg.RGNE.ENTRY_LENGTH_M1_HI, Reg.RGNE.ENTRY_NODE]

/-! ### PST -/

/-- 02 R52 -/
def Reg.PST.RUN_CTRL_ARM : Fld := ⟨0x100, 0, 1, .rw, 1, 1, 4, false⟩
/-- 02 R52 -/
def Reg.PST.RUN_CTRL_FENCED : Fld := ⟨0x100, 1, 1, .ro, 0, 1, 4, false⟩
/-- 02 R336 -/
def Reg.PST.RUN_CTRL_FENCE_PENDING : Fld := ⟨0x100, 2, 1, .ro, 0, 1, 4, false⟩
/-- 02 R340 -/
def Reg.PST.RUN_CTRL_FENCE_CAUSE : Fld := ⟨0x100, 8, 8, .ro, 0, 1, 4, false⟩
/-- 02 R52 -/
def Reg.PST.RUN_STATUS_STATE : Fld := ⟨0x104, 0, 2, .ro, 0, 1, 4, false⟩
/-- 02 R52 -/
def Reg.PST.RUN_STATUS_SLOT : Fld := ⟨0x104, 2, 2, .ro, 0, 1, 4, false⟩
/-- 02 R52 -/
def Reg.PST.RUN_STATUS_QUEUED : Fld := ⟨0x104, 16, 16, .ro, 0, 1, 4, false⟩
/-- 02 R52 -/
def Reg.PST.RUN_ITER : Fld := ⟨0x108, 0, 32, .ro, 0, 1, 4, false⟩
/-- 02 R52 -/
def Reg.PST.REGION_SEQ : Fld := ⟨0x10c, 0, 32, .ro, 0, 1, 4, false⟩
/-- 02 R41 -/
def Reg.PST.WAIT_LIMIT : Fld := ⟨0x110, 0, 32, .rw, 1000000000, 1, 4, false⟩
/-- 02 R52 -/
def Reg.PST.SLOT_ID : Fld := ⟨0x120, 0, 32, .ro, 0, 4, 4, false⟩
/-- 13 R326 -/
def Reg.PST.FOOT_SCRATCH : Fld := ⟨0x130, 0, 25, .ro, 0, 1, 4, false⟩
/-- 13 R326 -/
def Reg.PST.FOOT_HBM_LO : Fld := ⟨0x134, 0, 32, .ro, 0, 1, 4, false⟩
/-- 13 R52 -/
def Reg.PST.FOOT_HBM_HI : Fld := ⟨0x138, 0, 32, .ro, 0, 1, 4, false⟩
/-- 19 R430 -/
def Reg.PST.MAP_WINDOW_SLOT : Fld := ⟨0x140, 0, 2, .rw, 0, 1, 4, false⟩
/-- The fields of a PST page. -/
def fieldsPST : List Fld :=
  [Reg.PST.RUN_CTRL_ARM, Reg.PST.RUN_CTRL_FENCED, Reg.PST.RUN_CTRL_FENCE_PENDING, Reg.PST.RUN_CTRL_FENCE_CAUSE, Reg.PST.RUN_STATUS_STATE, Reg.PST.RUN_STATUS_SLOT, Reg.PST.RUN_STATUS_QUEUED, Reg.PST.RUN_ITER] ++
  [Reg.PST.REGION_SEQ, Reg.PST.WAIT_LIMIT, Reg.PST.SLOT_ID, Reg.PST.FOOT_SCRATCH, Reg.PST.FOOT_HBM_LO, Reg.PST.FOOT_HBM_HI, Reg.PST.MAP_WINDOW_SLOT]

/-! ### GATE -/

/-- 02 R81 -/
def Reg.GATE.EPOCH : Fld := ⟨0x100, 0, 32, .ro, 0, 1, 4, false⟩
/-- 02 R81 -/
def Reg.GATE.STATUS_STATE : Fld := ⟨0x104, 0, 2, .ro, 0, 1, 4, false⟩
/-- 02 R81 -/
def Reg.GATE.STATUS_LEG : Fld := ⟨0x104, 16, 14, .ro, 0, 1, 4, false⟩
/-- 03 R82 -/
def Reg.GATE.SV_STATUS_SEEN : Fld := ⟨0x140, 0, 1, .w1c, 0, 1, 4, false⟩
/-- 03 R81 -/
def Reg.GATE.SV_STATUS_KIND : Fld := ⟨0x140, 1, 2, .ro, 0, 1, 4, false⟩
/-- 03 R81 -/
def Reg.GATE.SV_STATUS_TILES : Fld := ⟨0x140, 16, 16, .ro, 0, 1, 4, false⟩
/-- 03 R81 -/
def Reg.GATE.SV_ITER : Fld := ⟨0x144, 0, 32, .ro, 0, 1, 4, false⟩
/-- 03 R81 -/
def Reg.GATE.SV_LEG : Fld := ⟨0x148, 0, 14, .ro, 0, 1, 4, false⟩
/-- 03 R81 -/
def Reg.GATE.SV_ROW : Fld := ⟨0x14c, 0, 32, .ro, 0, 1, 4, false⟩
/-- 03 R81 -/
def Reg.GATE.SV_COL : Fld := ⟨0x150, 0, 24, .ro, 0, 1, 4, false⟩
/-- 03 R81 -/
def Reg.GATE.SV_MAP : Fld := ⟨0x800, 0, 32, .ro, 0, 128, 4, false⟩
/-- The fields of a GATE page. -/
def fieldsGATE : List Fld :=
  [Reg.GATE.EPOCH, Reg.GATE.STATUS_STATE, Reg.GATE.STATUS_LEG, Reg.GATE.SV_STATUS_SEEN, Reg.GATE.SV_STATUS_KIND, Reg.GATE.SV_STATUS_TILES, Reg.GATE.SV_ITER, Reg.GATE.SV_LEG] ++
  [Reg.GATE.SV_ROW, Reg.GATE.SV_COL, Reg.GATE.SV_MAP]

/-! ### MODE -/

/-- 02 R53 -/
def Reg.MODE.EPOCH_CMD : Fld := ⟨0x100, 0, 32, .ro, 0, 1, 4, false⟩
/-- 02 R53 -/
def Reg.MODE.EPOCH_LOW : Fld := ⟨0x104, 0, 32, .ro, 0, 1, 4, false⟩
/-- 02 R53 -/
def Reg.MODE.EPOCH_HIGH : Fld := ⟨0x108, 0, 32, .ro, 0, 1, 4, false⟩
/-- 02 R55 -/
def Reg.MODE.LIMIT : Fld := ⟨0x10c, 0, 32, .rw, 100000000, 1, 4, false⟩
/-- 02 R53 -/
def Reg.MODE.STALL_ISLAND : Fld := ⟨0x110, 0, 10, .ro, 0, 1, 4, false⟩
/-- 02 R53 -/
def Reg.MODE.STALL_COUNT : Fld := ⟨0x110, 16, 10, .ro, 0, 1, 4, false⟩
/-- 02 R53 -/
def Reg.MODE.MODE_WORD_STOCH_BITS : Fld := ⟨0x120, 0, 2, .ro, 1, 1, 4, false⟩
/-- 02 R53 -/
def Reg.MODE.MODE_WORD_FORMAT_POLICY : Fld := ⟨0x120, 2, 2, .ro, 0, 1, 4, false⟩
/-- 02 R53 -/
def Reg.MODE.MODE_WORD_THROTTLE_POLICY : Fld := ⟨0x120, 4, 4, .ro, 0, 1, 4, false⟩
/-- 02 R53 -/
def Reg.MODE.MODE_WORD_INSPECT_POLICY : Fld := ⟨0x120, 8, 2, .ro, 0, 1, 4, false⟩
/-- 02 R53 -/
def Reg.MODE.MODE_WORD_SAMPLING_POLICY : Fld := ⟨0x120, 10, 2, .ro, 0, 1, 4, false⟩
/-- 03 R79 -/
def Reg.MODE.SEED_LO : Fld := ⟨0x130, 0, 32, .rw, 0, 1, 4, false⟩
/-- 03 R53 -/
def Reg.MODE.SEED_HI : Fld := ⟨0x134, 0, 32, .rw, 0, 1, 4, false⟩
/-- 03 R80 -/
def Reg.MODE.REALIGN : Fld := ⟨0x138, 0, 32, .ro, 0, 1, 4, false⟩
/-- 13 R53 -/
def Reg.MODE.LAYOUT_CMD : Fld := ⟨0x150, 0, 32, .ro, 0, 1, 4, false⟩
/-- 13 R53 -/
def Reg.MODE.LAYOUT_APPLIED : Fld := ⟨0x154, 0, 32, .ro, 0, 1, 4, false⟩
/-- 13 R53 -/
def Reg.MODE.LAYOUT_LIMIT : Fld := ⟨0x158, 0, 32, .rw, 4000000000, 1, 4, false⟩
/-- 13 R53 -/
def Reg.MODE.LAYOUT_STATE_STATE : Fld := ⟨0x15c, 0, 2, .ro, 0, 1, 4, false⟩
/-- 13 R325 -/
def Reg.MODE.LAYOUT_STALL_ISLAND : Fld := ⟨0x160, 0, 10, .ro, 0, 1, 4, false⟩
/-- The fields of a MODE page. -/
def fieldsMODE : List Fld :=
  [Reg.MODE.EPOCH_CMD, Reg.MODE.EPOCH_LOW, Reg.MODE.EPOCH_HIGH, Reg.MODE.LIMIT, Reg.MODE.STALL_ISLAND, Reg.MODE.STALL_COUNT, Reg.MODE.MODE_WORD_STOCH_BITS, Reg.MODE.MODE_WORD_FORMAT_POLICY] ++
  [Reg.MODE.MODE_WORD_THROTTLE_POLICY, Reg.MODE.MODE_WORD_INSPECT_POLICY, Reg.MODE.MODE_WORD_SAMPLING_POLICY, Reg.MODE.SEED_LO, Reg.MODE.SEED_HI, Reg.MODE.REALIGN, Reg.MODE.LAYOUT_CMD, Reg.MODE.LAYOUT_APPLIED] ++
  [Reg.MODE.LAYOUT_LIMIT, Reg.MODE.LAYOUT_STATE_STATE, Reg.MODE.LAYOUT_STALL_ISLAND]

/-! ### RGN0 -/

/-- 02 R49 -/
def Reg.RGN0.COMMIT_GO : Fld := ⟨0x100, 0, 1, .wo, 0, 1, 4, false⟩
/-- 02 R49 -/
def Reg.RGN0.COMMIT_SEQ : Fld := ⟨0x100, 16, 16, .ro, 0, 1, 4, false⟩
/-- 02 R49 -/
def Reg.RGN0.APPLIED_LOW : Fld := ⟨0x104, 0, 16, .ro, 0, 1, 4, false⟩
/-- The fields of a RGN0 page. -/
def fieldsRGN0 : List Fld :=
  [Reg.RGN0.COMMIT_GO, Reg.RGN0.COMMIT_SEQ, Reg.RGN0.APPLIED_LOW]

/-! ### GATEM -/

/-- 04 R97 -/
def Reg.GATEM.MG_STATUS_OPMODE : Fld := ⟨0x200, 0, 8, .ro, 0, 1, 4, false⟩
/-- 04 R97 -/
def Reg.GATEM.MG_STATUS_T_M1 : Fld := ⟨0x200, 8, 7, .ro, 0, 1, 4, false⟩
/-- 04 R97 -/
def Reg.GATEM.MG_STATUS_KPASS : Fld := ⟨0x200, 15, 3, .ro, 0, 1, 4, false⟩
/-- 04 R97 -/
def Reg.GATEM.MG_STATUS_RAMP : Fld := ⟨0x200, 18, 2, .ro, 0, 1, 4, false⟩
/-- 04 R97 -/
def Reg.GATEM.CHECK_MISMATCH : Fld := ⟨0x204, 0, 1, .w1c, 0, 1, 4, false⟩
/-- 04 R97 -/
def Reg.GATEM.CHECK_ISOLATING : Fld := ⟨0x204, 1, 1, .ro, 0, 1, 4, false⟩
/-- 04 R97 -/
def Reg.GATEM.CHECK_CHECKER : Fld := ⟨0x204, 2, 1, .w1c, 0, 1, 4, false⟩
/-- 04 R97 -/
def Reg.GATEM.CHECK_NO_SPARE : Fld := ⟨0x204, 3, 1, .w1c, 0, 1, 4, false⟩
/-- 04 R98 -/
def Reg.GATEM.CHECK_SPARE_WRITE : Fld := ⟨0x204, 4, 1, .w1c, 0, 1, 4, false⟩
/-- 04 R97 -/
def Reg.GATEM.MISMATCH_COUNT : Fld := ⟨0x208, 0, 32, .ro, 0, 1, 4, false⟩
/-- 04 R97 -/
def Reg.GATEM.REPLAY_COUNT : Fld := ⟨0x20c, 0, 32, .ro, 0, 1, 4, false⟩
/-- 04 R97 -/
def Reg.GATEM.EXCLUDED_COUNT : Fld := ⟨0x210, 0, 32, .ro, 0, 1, 4, false⟩
/-- 04 R97 -/
def Reg.GATEM.SPARE_MAP_COL0 : Fld := ⟨0x220, 0, 8, .rwl, 0, 4, 4, false⟩
/-- 04 R97 -/
def Reg.GATEM.SPARE_MAP_COL1 : Fld := ⟨0x220, 8, 8, .rwl, 0, 4, 4, false⟩
/-- 04 R97 -/
def Reg.GATEM.SPARE_MAP_COL2 : Fld := ⟨0x220, 16, 8, .rwl, 0, 4, 4, false⟩
/-- 04 R97 -/
def Reg.GATEM.SPARE_MAP_COL3 : Fld := ⟨0x220, 24, 8, .rwl, 0, 4, 4, false⟩
/-- 04 R97 -/
def Reg.GATEM.SPARE_VALID : Fld := ⟨0x230, 0, 16, .rwl, 0, 1, 4, false⟩
/-- 04 R97 -/
def Reg.GATEM.SPARE_TEMP : Fld := ⟨0x234, 0, 16, .ro, 0, 1, 4, false⟩
/-- 04 R97 -/
def Reg.GATEM.SPARE_LOCK_LOCK : Fld := ⟨0x238, 0, 1, .w1s, 0, 1, 4, false⟩
/-- 04 R97 -/
def Reg.GATEM.MISMATCH_LEG : Fld := ⟨0x240, 0, 14, .ro, 0, 1, 4, false⟩
/-- 04 R90 -/
def Reg.GATEM.MISMATCH_TILE : Fld := ⟨0x244, 0, 32, .ro, 0, 1, 4, false⟩
/-- 04 R97 -/
def Reg.GATEM.ISOLATE_COLUMN : Fld := ⟨0x248, 0, 8, .ro, 0, 1, 4, false⟩
/-- 04 R97 -/
def Reg.GATEM.ISOLATE_ARRAY : Fld := ⟨0x248, 8, 2, .ro, 0, 1, 4, false⟩
/-- 04 R97 -/
def Reg.GATEM.ISOLATE_FOUND : Fld := ⟨0x248, 10, 1, .ro, 0, 1, 4, false⟩
/-- 09 R213 -/
def Reg.GATEM.SP_STATUS_INSPECT_MISS : Fld := ⟨0x260, 0, 1, .w1c, 0, 1, 4, false⟩
/-- 09 R217 -/
def Reg.GATEM.SP_STATUS_IDX_RANGE : Fld := ⟨0x260, 1, 1, .w1c, 0, 1, 4, false⟩
/-- 09 R97 -/
def Reg.GATEM.CHECKED_COUNT : Fld := ⟨0x264, 0, 32, .ro, 0, 1, 4, false⟩
/-- 09 R97 -/
def Reg.GATEM.MISS_COUNT : Fld := ⟨0x268, 0, 32, .ro, 0, 1, 4, false⟩
/-- 09 R97 -/
def Reg.GATEM.MISS_LEG : Fld := ⟨0x26c, 0, 14, .ro, 0, 1, 4, false⟩
/-- 09 R214 -/
def Reg.GATEM.MISS_TILE : Fld := ⟨0x270, 0, 32, .ro, 0, 1, 4, false⟩
/-- 09 R97 -/
def Reg.GATEM.MISS_BLOCK : Fld := ⟨0x274, 0, 3, .ro, 0, 1, 4, false⟩
/-- 09 R97 -/
def Reg.GATEM.IDX_LEG : Fld := ⟨0x278, 0, 14, .ro, 0, 1, 4, false⟩
/-- 09 R97 -/
def Reg.GATEM.IDX_ELEM_LO : Fld := ⟨0x27c, 0, 32, .ro, 0, 1, 4, false⟩
/-- 09 R97 -/
def Reg.GATEM.IDX_ELEM_HI : Fld := ⟨0x280, 0, 32, .ro, 0, 1, 4, false⟩
/-- The fields of a GATEM page. -/
def fieldsGATEM : List Fld :=
  [Reg.GATEM.MG_STATUS_OPMODE, Reg.GATEM.MG_STATUS_T_M1, Reg.GATEM.MG_STATUS_KPASS, Reg.GATEM.MG_STATUS_RAMP, Reg.GATEM.CHECK_MISMATCH, Reg.GATEM.CHECK_ISOLATING, Reg.GATEM.CHECK_CHECKER, Reg.GATEM.CHECK_NO_SPARE] ++
  [Reg.GATEM.CHECK_SPARE_WRITE, Reg.GATEM.MISMATCH_COUNT, Reg.GATEM.REPLAY_COUNT, Reg.GATEM.EXCLUDED_COUNT, Reg.GATEM.SPARE_MAP_COL0, Reg.GATEM.SPARE_MAP_COL1, Reg.GATEM.SPARE_MAP_COL2, Reg.GATEM.SPARE_MAP_COL3] ++
  [Reg.GATEM.SPARE_VALID, Reg.GATEM.SPARE_TEMP, Reg.GATEM.SPARE_LOCK_LOCK, Reg.GATEM.MISMATCH_LEG, Reg.GATEM.MISMATCH_TILE, Reg.GATEM.ISOLATE_COLUMN, Reg.GATEM.ISOLATE_ARRAY, Reg.GATEM.ISOLATE_FOUND] ++
  [Reg.GATEM.SP_STATUS_INSPECT_MISS, Reg.GATEM.SP_STATUS_IDX_RANGE, Reg.GATEM.CHECKED_COUNT, Reg.GATEM.MISS_COUNT, Reg.GATEM.MISS_LEG, Reg.GATEM.MISS_TILE, Reg.GATEM.MISS_BLOCK, Reg.GATEM.IDX_LEG] ++
  [Reg.GATEM.IDX_ELEM_LO, Reg.GATEM.IDX_ELEM_HI]

/-! ### GATEA -/

/-- 05 R114 -/
def Reg.GATEA.SM_STATUS_RISE_OVER : Fld := ⟨0x300, 0, 1, .w1c, 0, 1, 4, false⟩
/-- 05 R149 -/
def Reg.GATEA.SM_RISE_COUNT : Fld := ⟨0x304, 0, 32, .ro, 0, 1, 4, false⟩
/-- 05 R149 -/
def Reg.GATEA.SM_RISE_LEG : Fld := ⟨0x308, 0, 14, .ro, 0, 1, 4, false⟩
/-- 05 R149 -/
def Reg.GATEA.SM_RISE_ROW : Fld := ⟨0x30c, 0, 32, .ro, 0, 1, 4, false⟩
/-- 07 R149 -/
def Reg.GATEA.AG_STATUS_OP : Fld := ⟨0x200, 0, 12, .ro, 0, 1, 4, false⟩
/-- 07 R149 -/
def Reg.GATEA.AG_STATUS_T_M1 : Fld := ⟨0x200, 12, 7, .ro, 0, 1, 4, false⟩
/-- 07 R149 -/
def Reg.GATEA.AG_STATUS_ROPE : Fld := ⟨0x200, 19, 1, .ro, 0, 1, 4, false⟩
/-- 07 R149 -/
def Reg.GATEA.CHECK_MISMATCH : Fld := ⟨0x204, 0, 1, .w1c, 0, 1, 4, false⟩
/-- 07 R149 -/
def Reg.GATEA.CHECK_CHECK_RUN : Fld := ⟨0x204, 1, 1, .w1c, 0, 1, 4, false⟩
/-- 07 R149 -/
def Reg.GATEA.CHECK_KV_FORMAT : Fld := ⟨0x204, 2, 1, .w1c, 0, 1, 4, false⟩
/-- 07 R158 -/
def Reg.GATEA.CHECK_ATT_POS : Fld := ⟨0x204, 3, 1, .w1c, 0, 1, 4, false⟩
/-- 07 R149 -/
def Reg.GATEA.CHECK_ATT_ROPE : Fld := ⟨0x204, 4, 1, .w1c, 0, 1, 4, false⟩
/-- 07 R149 -/
def Reg.GATEA.CHECK_KV_RANGE : Fld := ⟨0x204, 5, 1, .w1c, 0, 1, 4, false⟩
/-- 07 R149 -/
def Reg.GATEA.CHECK_KEY_NARROW : Fld := ⟨0x204, 6, 1, .w1c, 0, 1, 4, false⟩
/-- 07 R149 -/
def Reg.GATEA.CHECK_VAL_NARROW : Fld := ⟨0x204, 7, 1, .w1c, 0, 1, 4, false⟩
/-- 07 R149 -/
def Reg.GATEA.MISMATCH_COUNT : Fld := ⟨0x208, 0, 32, .ro, 0, 1, 4, false⟩
/-- 07 R149 -/
def Reg.GATEA.REPLAY_COUNT : Fld := ⟨0x20c, 0, 32, .ro, 0, 1, 4, false⟩
/-- 07 R149 -/
def Reg.GATEA.EXCLUDED_COUNT : Fld := ⟨0x210, 0, 32, .ro, 0, 1, 4, false⟩
/-- 07 R149 -/
def Reg.GATEA.NARROW_COUNT : Fld := ⟨0x214, 0, 32, .ro, 0, 1, 4, false⟩
/-- 07 R149 -/
def Reg.GATEA.KV_LEG : Fld := ⟨0x218, 0, 14, .ro, 0, 1, 4, false⟩
/-- 07 R149 -/
def Reg.GATEA.KV_SEQ : Fld := ⟨0x21c, 0, 8, .ro, 0, 1, 4, false⟩
/-- 07 R149 -/
def Reg.GATEA.KV_BLOCK : Fld := ⟨0x220, 0, 17, .ro, 0, 1, 4, false⟩
/-- 07 R149 -/
def Reg.GATEA.KV_TAGS_STORED : Fld := ⟨0x224, 0, 2, .ro, 0, 1, 4, false⟩
/-- 07 R149 -/
def Reg.GATEA.KV_TAGS_DECLARED : Fld := ⟨0x224, 2, 2, .ro, 0, 1, 4, false⟩
/-- 07 R149 -/
def Reg.GATEA.POS_LEG : Fld := ⟨0x228, 0, 14, .ro, 0, 1, 4, false⟩
/-- 07 R149 -/
def Reg.GATEA.POS_SEQ : Fld := ⟨0x22c, 0, 8, .ro, 0, 1, 4, false⟩
/-- 07 R149 -/
def Reg.GATEA.ROPE_STATUS_LOADED : Fld := ⟨0x230, 0, 1, .ro, 0, 1, 4, false⟩
/-- 07 R149 -/
def Reg.GATEA.ROPE_STATUS_FREQS : Fld := ⟨0x230, 8, 8, .ro, 0, 1, 4, false⟩
/-- The fields of a GATEA page. -/
def fieldsGATEA : List Fld :=
  [Reg.GATEA.SM_STATUS_RISE_OVER, Reg.GATEA.SM_RISE_COUNT, Reg.GATEA.SM_RISE_LEG, Reg.GATEA.SM_RISE_ROW, Reg.GATEA.AG_STATUS_OP, Reg.GATEA.AG_STATUS_T_M1, Reg.GATEA.AG_STATUS_ROPE, Reg.GATEA.CHECK_MISMATCH] ++
  [Reg.GATEA.CHECK_CHECK_RUN, Reg.GATEA.CHECK_KV_FORMAT, Reg.GATEA.CHECK_ATT_POS, Reg.GATEA.CHECK_ATT_ROPE, Reg.GATEA.CHECK_KV_RANGE, Reg.GATEA.CHECK_KEY_NARROW, Reg.GATEA.CHECK_VAL_NARROW, Reg.GATEA.MISMATCH_COUNT] ++
  [Reg.GATEA.REPLAY_COUNT, Reg.GATEA.EXCLUDED_COUNT, Reg.GATEA.NARROW_COUNT, Reg.GATEA.KV_LEG, Reg.GATEA.KV_SEQ, Reg.GATEA.KV_BLOCK, Reg.GATEA.KV_TAGS_STORED, Reg.GATEA.KV_TAGS_DECLARED] ++
  [Reg.GATEA.POS_LEG, Reg.GATEA.POS_SEQ, Reg.GATEA.ROPE_STATUS_LOADED, Reg.GATEA.ROPE_STATUS_FREQS]

/-! ### GATEV -/

/-- 06 R145 -/
def Reg.GATEV.VG_STATUS_OP : Fld := ⟨0x200, 0, 12, .ro, 0, 1, 4, false⟩
/-- 06 R145 -/
def Reg.GATEV.VG_STATUS_FUNC : Fld := ⟨0x200, 12, 8, .ro, 0, 1, 4, false⟩
/-- 06 R145 -/
def Reg.GATEV.CHECK_RESIDUE : Fld := ⟨0x204, 0, 1, .w1c, 0, 1, 4, false⟩
/-- 06 R145 -/
def Reg.GATEV.CHECK_RESIDUE_RUN : Fld := ⟨0x204, 1, 1, .w1c, 0, 1, 4, false⟩
/-- 06 R138 -/
def Reg.GATEV.CHECK_CACHE_ECC : Fld := ⟨0x204, 2, 1, .w1c, 0, 1, 4, false⟩
/-- 06 R145 -/
def Reg.GATEV.CHECK_OPT_RECORD : Fld := ⟨0x204, 3, 1, .w1c, 0, 1, 4, false⟩
/-- 06 R145 -/
def Reg.GATEV.RESIDUE_COUNT : Fld := ⟨0x208, 0, 32, .ro, 0, 1, 4, false⟩
/-- 06 R145 -/
def Reg.GATEV.RECOMPUTE_COUNT : Fld := ⟨0x20c, 0, 32, .ro, 0, 1, 4, false⟩
/-- 06 R138 -/
def Reg.GATEV.CACHE_ECC_COUNT : Fld := ⟨0x210, 0, 32, .ro, 0, 1, 4, false⟩
/-- 06 R145 -/
def Reg.GATEV.RESIDUE_LEG : Fld := ⟨0x214, 0, 14, .ro, 0, 1, 4, false⟩
/-- 06 R131 -/
def Reg.GATEV.RESIDUE_TILE : Fld := ⟨0x218, 0, 32, .ro, 0, 1, 4, false⟩
/-- 06 R145 -/
def Reg.GATEV.DROP_COUNT : Fld := ⟨0x220, 0, 32, .ro, 0, 1, 4, false⟩
/-- 06 R145 -/
def Reg.GATEV.DROP_LEG : Fld := ⟨0x224, 0, 14, .ro, 0, 1, 4, false⟩
/-- 06 R145 -/
def Reg.GATEV.DROP_ROW : Fld := ⟨0x228, 0, 32, .ro, 0, 1, 4, false⟩
/-- 06 R145 -/
def Reg.GATEV.DROP_COL : Fld := ⟨0x22c, 0, 24, .ro, 0, 1, 4, false⟩
/-- 06 R145 -/
def Reg.GATEV.DROP_CTRL_CLEAR : Fld := ⟨0x230, 0, 1, .wo, 0, 1, 4, false⟩
/-- The fields of a GATEV page. -/
def fieldsGATEV : List Fld :=
  [Reg.GATEV.VG_STATUS_OP, Reg.GATEV.VG_STATUS_FUNC, Reg.GATEV.CHECK_RESIDUE, Reg.GATEV.CHECK_RESIDUE_RUN, Reg.GATEV.CHECK_CACHE_ECC, Reg.GATEV.CHECK_OPT_RECORD, Reg.GATEV.RESIDUE_COUNT, Reg.GATEV.RECOMPUTE_COUNT] ++
  [Reg.GATEV.CACHE_ECC_COUNT, Reg.GATEV.RESIDUE_LEG, Reg.GATEV.RESIDUE_TILE, Reg.GATEV.DROP_COUNT, Reg.GATEV.DROP_LEG, Reg.GATEV.DROP_ROW, Reg.GATEV.DROP_COL, Reg.GATEV.DROP_CTRL_CLEAR]

/-! ### GATEG -/

/-- 08 R175 -/
def Reg.GATEG.GG_STATUS_OP : Fld := ⟨0x200, 0, 12, .ro, 0, 1, 4, false⟩
/-- 08 R175 -/
def Reg.GATEG.GG_STATUS_TABLE : Fld := ⟨0x200, 12, 8, .ro, 0, 1, 4, false⟩
/-- 08 R175 -/
def Reg.GATEG.GG_STATUS_DRIFT_BOUND : Fld := ⟨0x200, 20, 1, .ro, 0, 1, 4, false⟩
/-- 08 R175 -/
def Reg.GATEG.CHECK_IDX_RANGE : Fld := ⟨0x204, 0, 1, .w1c, 0, 1, 4, false⟩
/-- 08 R194 -/
def Reg.GATEG.CHECK_EMB_COLD : Fld := ⟨0x204, 1, 1, .w1c, 0, 1, 4, false⟩
/-- 08 R186 -/
def Reg.GATEG.CHECK_DRIFT_ECC : Fld := ⟨0x204, 2, 1, .w1c, 0, 1, 4, false⟩
/-- 08 R175 -/
def Reg.GATEG.CHECK_EMB_TABLE : Fld := ⟨0x204, 3, 1, .w1c, 0, 1, 4, false⟩
/-- 08 R175 -/
def Reg.GATEG.IDX_COUNT : Fld := ⟨0x208, 0, 32, .ro, 0, 1, 4, false⟩
/-- 08 R175 -/
def Reg.GATEG.IDX_LEG : Fld := ⟨0x20c, 0, 14, .ro, 0, 1, 4, false⟩
/-- 08 R175 -/
def Reg.GATEG.IDX_ELEM_LO : Fld := ⟨0x210, 0, 32, .ro, 0, 1, 4, false⟩
/-- 08 R175 -/
def Reg.GATEG.IDX_ELEM_HI : Fld := ⟨0x214, 0, 32, .ro, 0, 1, 4, false⟩
/-- 08 R175 -/
def Reg.GATEG.IDX_ITER : Fld := ⟨0x218, 0, 32, .ro, 0, 1, 4, false⟩
/-- 08 R194 -/
def Reg.GATEG.COLD_COUNT : Fld := ⟨0x220, 0, 32, .ro, 0, 1, 4, false⟩
/-- 08 R175 -/
def Reg.GATEG.COLD_TABLE : Fld := ⟨0x224, 0, 8, .ro, 0, 1, 4, false⟩
/-- 08 R175 -/
def Reg.GATEG.COLD_ROW : Fld := ⟨0x228, 0, 32, .ro, 0, 1, 4, false⟩
/-- 08 R175 -/
def Reg.GATEG.DRIFT_ECC_COUNT : Fld := ⟨0x230, 0, 32, .ro, 0, 1, 4, false⟩
/-- 08 R175 -/
def Reg.GATEG.DRIFT_ECC_SET : Fld := ⟨0x234, 0, 11, .ro, 0, 1, 4, false⟩
/-- The fields of a GATEG page. -/
def fieldsGATEG : List Fld :=
  [Reg.GATEG.GG_STATUS_OP, Reg.GATEG.GG_STATUS_TABLE, Reg.GATEG.GG_STATUS_DRIFT_BOUND, Reg.GATEG.CHECK_IDX_RANGE, Reg.GATEG.CHECK_EMB_COLD, Reg.GATEG.CHECK_DRIFT_ECC, Reg.GATEG.CHECK_EMB_TABLE, Reg.GATEG.IDX_COUNT] ++
  [Reg.GATEG.IDX_LEG, Reg.GATEG.IDX_ELEM_LO, Reg.GATEG.IDX_ELEM_HI, Reg.GATEG.IDX_ITER, Reg.GATEG.COLD_COUNT, Reg.GATEG.COLD_TABLE, Reg.GATEG.COLD_ROW, Reg.GATEG.DRIFT_ECC_COUNT] ++
  [Reg.GATEG.DRIFT_ECC_SET]

/-! ### STK -/

/-- 10 R222 -/
def Reg.STK.STK_STATUS_STATE : Fld := ⟨0x100, 0, 2, .ro, 0, 1, 4, false⟩
/-- 10 R222 -/
def Reg.STK.STK_STATUS_THERM : Fld := ⟨0x100, 2, 2, .ro, 0, 1, 4, false⟩
/-- 10 R222 -/
def Reg.STK.STK_STATUS_ADMIT : Fld := ⟨0x100, 4, 2, .ro, 0, 1, 4, false⟩
/-- 10 R222 -/
def Reg.STK.TEMP_NOW : Fld := ⟨0x104, 0, 8, .ro, 0, 1, 4, false⟩
/-- 10 R222 -/
def Reg.STK.TEMP_MAX : Fld := ⟨0x104, 8, 8, .ro, 0, 1, 4, false⟩
/-- 10 R222 -/
def Reg.STK.MAX_CLEAR : Fld := ⟨0x108, 0, 1, .wo, 0, 1, 4, false⟩
/-- 10 R248 -/
def Reg.STK.THERM_CTRL_THERM_MODE : Fld := ⟨0x10c, 0, 2, .rw, 2, 1, 4, false⟩
/-- 10 R222 -/
def Reg.STK.ECC_STATUS_CE : Fld := ⟨0x110, 0, 1, .w1c, 0, 1, 4, false⟩
/-- 10 R223 -/
def Reg.STK.ECC_STATUS_UE : Fld := ⟨0x110, 1, 1, .w1c, 0, 1, 4, false⟩
/-- 10 R222 -/
def Reg.STK.ECC_STATUS_POISON_READ : Fld := ⟨0x110, 2, 1, .w1c, 0, 1, 4, false⟩
/-- 10 R227 -/
def Reg.STK.ECC_STATUS_NO_SPARE_ROW : Fld := ⟨0x110, 3, 1, .w1c, 0, 1, 4, false⟩
/-- 10 R222 -/
def Reg.STK.CE_COUNT : Fld := ⟨0x114, 0, 32, .ro, 0, 1, 4, false⟩
/-- 10 R222 -/
def Reg.STK.UE_COUNT : Fld := ⟨0x118, 0, 32, .ro, 0, 1, 4, false⟩
/-- 10 R222 -/
def Reg.STK.POISON_COUNT : Fld := ⟨0x11c, 0, 32, .ro, 0, 1, 4, false⟩
/-- 10 R223 -/
def Reg.STK.UE_ADDR_LO : Fld := ⟨0x120, 6, 26, .ro, 0, 1, 4, false⟩
/-- 10 R222 -/
def Reg.STK.UE_ADDR_HI : Fld := ⟨0x124, 0, 16, .ro, 0, 1, 4, false⟩
/-- 10 R222 -/
def Reg.STK.UE_SOURCE_SOURCE : Fld := ⟨0x128, 0, 3, .ro, 0, 1, 4, false⟩
/-- 10 R13 -/
def Reg.STK.UE_SOURCE_ISLAND : Fld := ⟨0x128, 8, 10, .ro, 0, 1, 4, false⟩
/-- 10 R222 -/
def Reg.STK.ROWS_REPAIRED : Fld := ⟨0x130, 0, 32, .ro, 0, 1, 4, true⟩
/-- 10 R222 -/
def Reg.STK.SPARES_LOW : Fld := ⟨0x134, 0, 8, .ro, 0, 1, 4, false⟩
/-- 10 R222 -/
def Reg.STK.GROOM_PERIOD : Fld := ⟨0x140, 0, 32, .rw, 86400, 1, 4, false⟩
/-- 10 R222 -/
def Reg.STK.GROOM_POS : Fld := ⟨0x144, 0, 24, .ro, 0, 1, 4, false⟩
/-- 10 R222 -/
def Reg.STK.GROOM_PASSES : Fld := ⟨0x148, 0, 32, .ro, 0, 1, 4, true⟩
/-- 10 R229 -/
def Reg.STK.GROOM_CTRL_PAUSE : Fld := ⟨0x14c, 0, 1, .rw, 0, 1, 4, false⟩
/-- The fields of a STK page. -/
def fieldsSTK : List Fld :=
  [Reg.STK.STK_STATUS_STATE, Reg.STK.STK_STATUS_THERM, Reg.STK.STK_STATUS_ADMIT, Reg.STK.TEMP_NOW, Reg.STK.TEMP_MAX, Reg.STK.MAX_CLEAR, Reg.STK.THERM_CTRL_THERM_MODE, Reg.STK.ECC_STATUS_CE] ++
  [Reg.STK.ECC_STATUS_UE, Reg.STK.ECC_STATUS_POISON_READ, Reg.STK.ECC_STATUS_NO_SPARE_ROW, Reg.STK.CE_COUNT, Reg.STK.UE_COUNT, Reg.STK.POISON_COUNT, Reg.STK.UE_ADDR_LO, Reg.STK.UE_ADDR_HI] ++
  [Reg.STK.UE_SOURCE_SOURCE, Reg.STK.UE_SOURCE_ISLAND, Reg.STK.ROWS_REPAIRED, Reg.STK.SPARES_LOW, Reg.STK.GROOM_PERIOD, Reg.STK.GROOM_POS, Reg.STK.GROOM_PASSES, Reg.STK.GROOM_CTRL_PAUSE]

/-! ### FRN -/

/-- 10 R238 -/
def Reg.FRN.FRN_STATUS_ENTRY : Fld := ⟨0x100, 0, 14, .ro, 0, 4, 4, false⟩
/-- 10 R238 -/
def Reg.FRN.FRN_STATUS_STATE : Fld := ⟨0x100, 14, 2, .ro, 0, 4, 4, false⟩
/-- 10 R238 -/
def Reg.FRN.CHECK_XLATE : Fld := ⟨0x110, 0, 1, .w1c, 0, 1, 4, false⟩
/-- 10 R239 -/
def Reg.FRN.CHECK_STAGE_TIMEOUT : Fld := ⟨0x110, 1, 1, .w1c, 0, 1, 4, false⟩
/-- 10 R238 -/
def Reg.FRN.XLATE_ADDR_LO : Fld := ⟨0x114, 0, 32, .ro, 0, 1, 4, false⟩
/-- 10 R238 -/
def Reg.FRN.XLATE_ADDR_HI : Fld := ⟨0x118, 0, 32, .ro, 0, 1, 4, false⟩
/-- 10 R238 -/
def Reg.FRN.XLATE_LEG_LEG : Fld := ⟨0x11c, 0, 14, .ro, 0, 1, 4, false⟩
/-- 10 R238 -/
def Reg.FRN.XLATE_LEG_GATE : Fld := ⟨0x11c, 14, 4, .ro, 0, 1, 4, false⟩
/-- The fields of a FRN page. -/
def fieldsFRN : List Fld :=
  [Reg.FRN.FRN_STATUS_ENTRY, Reg.FRN.FRN_STATUS_STATE, Reg.FRN.CHECK_XLATE, Reg.FRN.CHECK_STAGE_TIMEOUT, Reg.FRN.XLATE_ADDR_LO, Reg.FRN.XLATE_ADDR_HI, Reg.FRN.XLATE_LEG_LEG, Reg.FRN.XLATE_LEG_GATE]

/-! ### SYN -/

/-- 11 R251 -/
def Reg.SYN.COUNT_LO : Fld := ⟨0x100, 0, 32, .ro, 0, 256, 8, false⟩
/-- 11 R251 -/
def Reg.SYN.COUNT_HI : Fld := ⟨0x104, 0, 32, .ro, 0, 256, 8, false⟩
/-- 11 R253 -/
def Reg.SYN.CFG_MODE : Fld := ⟨0x900, 0, 2, .rw, 0, 256, 4, false⟩
/-- 11 R251 -/
def Reg.SYN.CFG_INDEX : Fld := ⟨0x900, 8, 8, .rw, 0, 256, 4, false⟩
/-- The fields of a SYN page. -/
def fieldsSYN : List Fld :=
  [Reg.SYN.COUNT_LO, Reg.SYN.COUNT_HI, Reg.SYN.CFG_MODE, Reg.SYN.CFG_INDEX]

/-! ### SYN16 -/

/-- 11 R259 -/
def Reg.SYN16.SIG_SEL_INDEX : Fld := ⟨0x100, 0, 12, .rw, 0, 1, 4, false⟩
/-- 11 R259 -/
def Reg.SYN16.SIG_SEL_ROUND : Fld := ⟨0x100, 16, 16, .rw, 0, 1, 4, false⟩
/-- 11 R259 -/
def Reg.SYN16.SIG_GO : Fld := ⟨0x104, 0, 32, .wo, 0, 1, 4, false⟩
/-- 11 R260 -/
def Reg.SYN16.ZERO : Fld := ⟨0x108, 0, 12, .wo, 0, 1, 4, false⟩
/-- 11 R259 -/
def Reg.SYN16.SYN_STATUS_ZERO_REFUSED : Fld := ⟨0x10c, 0, 1, .w1c, 0, 1, 4, false⟩
/-- 11 R263 -/
def Reg.SYN16.SYN_STATUS_PAIR_REFUSED : Fld := ⟨0x10c, 1, 1, .w1c, 0, 1, 4, false⟩
/-- 11 R259 -/
def Reg.SYN16.SYN_STATUS_CFG_BUSY : Fld := ⟨0x10c, 2, 1, .w1c, 0, 1, 4, false⟩
/-- 11 R259 -/
def Reg.SYN16.TO_STATUS_SEEN : Fld := ⟨0x110, 0, 1, .w1c, 0, 1, 4, false⟩
/-- 11 R259 -/
def Reg.SYN16.TO_COUNTER_INDEX : Fld := ⟨0x114, 0, 12, .ro, 0, 1, 4, false⟩
/-- 11 R259 -/
def Reg.SYN16.TO_COUNTER_LOCAL : Fld := ⟨0x114, 12, 1, .ro, 0, 1, 4, false⟩
/-- 11 R259 -/
def Reg.SYN16.TO_WAITER_ISLAND : Fld := ⟨0x118, 0, 10, .ro, 0, 1, 4, false⟩
/-- 11 R256 -/
def Reg.SYN16.TO_WAITER_QUEUE : Fld := ⟨0x118, 16, 6, .ro, 0, 1, 4, false⟩
/-- 11 R259 -/
def Reg.SYN16.TO_TARGET_LO : Fld := ⟨0x11c, 0, 32, .ro, 0, 1, 4, false⟩
/-- 11 R259 -/
def Reg.SYN16.TO_TARGET_HI : Fld := ⟨0x120, 0, 32, .ro, 0, 1, 4, false⟩
/-- 11 R259 -/
def Reg.SYN16.TO_COUNT : Fld := ⟨0x124, 0, 32, .ro, 0, 1, 4, false⟩
/-- 11 R262 -/
def Reg.SYN16.PAIR_STATUS_UNDERFLOW : Fld := ⟨0x130, 0, 1, .w1c, 0, 1, 4, false⟩
/-- 11 R262 -/
def Reg.SYN16.PAIR_STATUS_OVERFLOW : Fld := ⟨0x130, 1, 1, .w1c, 0, 1, 4, false⟩
/-- 11 R259 -/
def Reg.SYN16.PAIR_STATUS_FIRST : Fld := ⟨0x130, 8, 8, .ro, 0, 1, 4, false⟩
/-- 11 R262 -/
def Reg.SYN16.PAIR_FAULT_COUNT : Fld := ⟨0x134, 0, 32, .ro, 0, 1, 4, false⟩
/-- 11 R259 -/
def Reg.SYN16.HOST_WAIT_LIMIT : Fld := ⟨0x140, 0, 32, .rw, 1000000000, 1, 4, false⟩
/-- The fields of a SYN16 page. -/
def fieldsSYN16 : List Fld :=
  [Reg.SYN16.SIG_SEL_INDEX, Reg.SYN16.SIG_SEL_ROUND, Reg.SYN16.SIG_GO, Reg.SYN16.ZERO, Reg.SYN16.SYN_STATUS_ZERO_REFUSED, Reg.SYN16.SYN_STATUS_PAIR_REFUSED, Reg.SYN16.SYN_STATUS_CFG_BUSY, Reg.SYN16.TO_STATUS_SEEN] ++
  [Reg.SYN16.TO_COUNTER_INDEX, Reg.SYN16.TO_COUNTER_LOCAL, Reg.SYN16.TO_WAITER_ISLAND, Reg.SYN16.TO_WAITER_QUEUE, Reg.SYN16.TO_TARGET_LO, Reg.SYN16.TO_TARGET_HI, Reg.SYN16.TO_COUNT, Reg.SYN16.PAIR_STATUS_UNDERFLOW] ++
  [Reg.SYN16.PAIR_STATUS_OVERFLOW, Reg.SYN16.PAIR_STATUS_FIRST, Reg.SYN16.PAIR_FAULT_COUNT, Reg.SYN16.HOST_WAIT_LIMIT]

/-! ### SYN17 -/

/-- 11 R263 -/
def Reg.SYN17.PAIR_PRODUCER : Fld := ⟨0x100, 0, 12, .rw, 0, 256, 8, false⟩
/-- 11 R263 -/
def Reg.SYN17.PAIR_CONSUMER : Fld := ⟨0x100, 16, 12, .rw, 0, 256, 8, false⟩
/-- 11 R263 -/
def Reg.SYN17.PAIR_EN : Fld := ⟨0x100, 31, 1, .rw, 0, 256, 8, false⟩
/-- 11 R263 -/
def Reg.SYN17.PAIR_DEPTH : Fld := ⟨0x104, 0, 32, .rw, 0, 256, 8, false⟩
/-- The fields of a SYN17 page. -/
def fieldsSYN17 : List Fld :=
  [Reg.SYN17.PAIR_PRODUCER, Reg.SYN17.PAIR_CONSUMER, Reg.SYN17.PAIR_EN, Reg.SYN17.PAIR_DEPTH]

/-! ### SYN18 -/

/-- 11 R254 -/
def Reg.SYN18.PROXY_NODE : Fld := ⟨0x100, 0, 16, .rw, 0, 256, 4, false⟩
/-- 11 R254 -/
def Reg.SYN18.PROXY_COUNTER : Fld := ⟨0x100, 16, 12, .rw, 0, 256, 4, false⟩
/-- 11 R254 -/
def Reg.SYN18.PROXY_VALID : Fld := ⟨0x100, 31, 1, .rw, 0, 256, 4, false⟩
/-- The fields of a SYN18 page. -/
def fieldsSYN18 : List Fld :=
  [Reg.SYN18.PROXY_NODE, Reg.SYN18.PROXY_COUNTER, Reg.SYN18.PROXY_VALID]

/-! ### BAR -/

/-- 11 R268 -/
def Reg.BAR.BARRIER_W0_PARTICIPANTS : Fld := ⟨0x100, 0, 13, .rw, 0, 128, 16, false⟩
/-- 11 R264 -/
def Reg.BAR.BARRIER_W0_ROUND : Fld := ⟨0x100, 16, 16, .ro, 0, 128, 16, false⟩
/-- 11 R264 -/
def Reg.BAR.BARRIER_W1_CUR : Fld := ⟨0x104, 0, 13, .ro, 0, 128, 16, false⟩
/-- 11 R264 -/
def Reg.BAR.BARRIER_W1_NEXT : Fld := ⟨0x104, 16, 13, .ro, 0, 128, 16, false⟩
/-- 11 R264 -/
def Reg.BAR.BARRIER_W1_CFG_REFUSED : Fld := ⟨0x104, 31, 1, .w1c, 0, 128, 16, false⟩
/-- 11 R264 -/
def Reg.BAR.BARRIER_W2_RELEASE_INDEX : Fld := ⟨0x108, 0, 12, .rw, 0, 128, 16, false⟩
/-- 11 R264 -/
def Reg.BAR.BARRIER_W2_NODE_COUNT : Fld := ⟨0x108, 12, 10, .rw, 0, 128, 16, false⟩
/-- 11 R264 -/
def Reg.BAR.BARRIER_W2_LIST_REGION : Fld := ⟨0x108, 24, 8, .rw, 0, 128, 16, false⟩
/-- 11 R264 -/
def Reg.BAR.BARRIER_W3_LIST_OFFSET : Fld := ⟨0x10c, 0, 32, .rw, 0, 128, 16, false⟩
/-- 11 R268 -/
def Reg.BAR.RESET : Fld := ⟨0x900, 0, 8, .wo, 0, 1, 4, false⟩
/-- 11 R264 -/
def Reg.BAR.SEEN : Fld := ⟨0x904, 0, 1, .w1c, 0, 1, 4, false⟩
/-- 11 R264 -/
def Reg.BAR.FIRST_BARRIER : Fld := ⟨0x908, 0, 8, .ro, 0, 1, 4, false⟩
/-- 11 R264 -/
def Reg.BAR.FIRST_ROUND : Fld := ⟨0x90c, 0, 16, .ro, 0, 1, 4, false⟩
/-- 11 R265 -/
def Reg.BAR.FIRST_SOURCE : Fld := ⟨0x910, 0, 32, .ro, 0, 1, 4, false⟩
/-- The fields of a BAR page. -/
def fieldsBAR : List Fld :=
  [Reg.BAR.BARRIER_W0_PARTICIPANTS, Reg.BAR.BARRIER_W0_ROUND, Reg.BAR.BARRIER_W1_CUR, Reg.BAR.BARRIER_W1_NEXT, Reg.BAR.BARRIER_W1_CFG_REFUSED, Reg.BAR.BARRIER_W2_RELEASE_INDEX, Reg.BAR.BARRIER_W2_NODE_COUNT, Reg.BAR.BARRIER_W2_LIST_REGION] ++
  [Reg.BAR.BARRIER_W3_LIST_OFFSET, Reg.BAR.RESET, Reg.BAR.SEEN, Reg.BAR.FIRST_BARRIER, Reg.BAR.FIRST_ROUND, Reg.BAR.FIRST_SOURCE]

/-! ### MBX0 -/

/-- 11 R271 -/
def Reg.MBX0.LOCK : Fld := ⟨0x100, 0, 4, .rw, 0, 32, 64, false⟩
/-- 11 R271 -/
def Reg.MBX0.DOORBELL_LENGTH : Fld := ⟨0x104, 0, 4, .wo, 0, 32, 64, false⟩
/-- 11 R271 -/
def Reg.MBX0.DOORBELL_RELEASE : Fld := ⟨0x104, 8, 1, .wo, 0, 32, 64, false⟩
/-- 11 R272 -/
def Reg.MBX0.STATUS_FULL : Fld := ⟨0x108, 0, 1, .ro, 0, 32, 64, false⟩
/-- 11 R271 -/
def Reg.MBX0.STATUS_LOCKED : Fld := ⟨0x108, 1, 1, .ro, 0, 32, 64, false⟩
/-- 11 R271 -/
def Reg.MBX0.STATUS_OWNER : Fld := ⟨0x108, 4, 4, .ro, 0, 32, 64, false⟩
/-- 11 R271 -/
def Reg.MBX0.STATUS_LEN : Fld := ⟨0x108, 8, 4, .ro, 0, 32, 64, false⟩
/-- 11 R271 -/
def Reg.MBX0.STATUS_EMPTY : Fld := ⟨0x108, 16, 1, .w1c, 0, 32, 64, false⟩
/-- 11 R271 -/
def Reg.MBX0.STATUS_REFUSED : Fld := ⟨0x108, 17, 1, .w1c, 0, 32, 64, false⟩
/-- 11 R271 -/
def Reg.MBX0.DATA0 : Fld := ⟨0x120, 0, 32, .rw, 0, 32, 64, false⟩
/-- 11 R271 -/
def Reg.MBX0.DATA1 : Fld := ⟨0x124, 0, 32, .rw, 0, 32, 64, false⟩
/-- 11 R271 -/
def Reg.MBX0.DATA2 : Fld := ⟨0x128, 0, 32, .rw, 0, 32, 64, false⟩
/-- 11 R271 -/
def Reg.MBX0.DATA3 : Fld := ⟨0x12c, 0, 32, .rw, 0, 32, 64, false⟩
/-- 11 R271 -/
def Reg.MBX0.DATA4 : Fld := ⟨0x130, 0, 32, .rw, 0, 32, 64, false⟩
/-- 11 R271 -/
def Reg.MBX0.DATA5 : Fld := ⟨0x134, 0, 32, .rw, 0, 32, 64, false⟩
/-- 11 R271 -/
def Reg.MBX0.DATA6 : Fld := ⟨0x138, 0, 32, .rw, 0, 32, 64, false⟩
/-- 11 R271 -/
def Reg.MBX0.DATA7 : Fld := ⟨0x13c, 0, 32, .rw, 0, 32, 64, false⟩
/-- The fields of a MBX0 page. -/
def fieldsMBX0 : List Fld :=
  [Reg.MBX0.LOCK, Reg.MBX0.DOORBELL_LENGTH, Reg.MBX0.DOORBELL_RELEASE, Reg.MBX0.STATUS_FULL, Reg.MBX0.STATUS_LOCKED, Reg.MBX0.STATUS_OWNER, Reg.MBX0.STATUS_LEN, Reg.MBX0.STATUS_EMPTY] ++
  [Reg.MBX0.STATUS_REFUSED, Reg.MBX0.DATA0, Reg.MBX0.DATA1, Reg.MBX0.DATA2, Reg.MBX0.DATA3, Reg.MBX0.DATA4, Reg.MBX0.DATA5, Reg.MBX0.DATA6] ++
  [Reg.MBX0.DATA7]

/-! ### MBX1 -/

/-- 11 R269 -/
def Reg.MBX1.BIND_SENDER : Fld := ⟨0x100, 0, 4, .rwl, 0, 32, 4, false⟩
/-- 11 R270 -/
def Reg.MBX1.BIND_RECEIVER : Fld := ⟨0x100, 4, 4, .rwl, 0, 32, 4, false⟩
/-- 11 R270 -/
def Reg.MBX1.BIND_VALID : Fld := ⟨0x100, 8, 1, .rwl, 0, 32, 4, false⟩
/-- 11 R270 -/
def Reg.MBX1.BIND_LOCK_LOCK : Fld := ⟨0x180, 0, 1, .w1s, 0, 1, 4, false⟩
/-- 11 R270 -/
def Reg.MBX1.FORCE : Fld := ⟨0x184, 0, 5, .wo, 0, 1, 4, false⟩
/-- The fields of a MBX1 page. -/
def fieldsMBX1 : List Fld :=
  [Reg.MBX1.BIND_SENDER, Reg.MBX1.BIND_RECEIVER, Reg.MBX1.BIND_VALID, Reg.MBX1.BIND_LOCK_LOCK, Reg.MBX1.FORCE]

/-! ### BND -/

/-- 12 R298 -/
def Reg.BND.PORT_STATUS_STATE : Fld := ⟨0x100, 0, 3, .ro, 0, 1, 4, false⟩
/-- 12 R298 -/
def Reg.BND.PORT_STATUS_WIDTH : Fld := ⟨0x100, 3, 4, .ro, 0, 1, 4, false⟩
/-- 12 R298 -/
def Reg.BND.PORT_STATUS_SPARE_USED : Fld := ⟨0x100, 7, 1, .ro, 0, 1, 4, false⟩
/-- 12 R298 -/
def Reg.BND.PORT_STATUS_RATE : Fld := ⟨0x100, 8, 1, .ro, 0, 1, 4, false⟩
/-- 12 R298 -/
def Reg.BND.PORT_STATUS_USABLE : Fld := ⟨0x100, 9, 1, .ro, 0, 1, 4, false⟩
/-- 12 R298 -/
def Reg.BND.PEER_NODE : Fld := ⟨0x104, 0, 16, .ro, 0, 1, 4, false⟩
/-- 12 R298 -/
def Reg.BND.PEER_PORT : Fld := ⟨0x104, 16, 3, .ro, 0, 1, 4, false⟩
/-- 12 R298 -/
def Reg.BND.PEER_ROLE : Fld := ⟨0x104, 20, 2, .ro, 0, 1, 4, false⟩
/-- 12 R298 -/
def Reg.BND.PEER_VALID : Fld := ⟨0x104, 24, 1, .ro, 0, 1, 4, false⟩
/-- 12 R298 -/
def Reg.BND.PORT_CTRL_ROUTE_EN : Fld := ⟨0x108, 0, 1, .rw, 0, 1, 4, false⟩
/-- 12 R301 -/
def Reg.BND.PORT_CTRL_RETRAIN_EN : Fld := ⟨0x108, 1, 1, .rw, 1, 1, 4, false⟩
/-- 12 R298 -/
def Reg.BND.PORT_CTRL_RETRAIN : Fld := ⟨0x108, 2, 1, .wo, 0, 1, 4, false⟩
/-- 12 R287 -/
def Reg.BND.PORT_CTRL_SPARE_EN : Fld := ⟨0x108, 3, 1, .rw, 1, 1, 4, false⟩
/-- 12 R298 -/
def Reg.BND.DETOUR_PORT : Fld := ⟨0x10c, 0, 3, .rw, 0, 1, 4, false⟩
/-- 12 R298 -/
def Reg.BND.DETOUR_VALID : Fld := ⟨0x10c, 3, 1, .rw, 0, 1, 4, false⟩
/-- 12 R298 -/
def Reg.BND.CHECK_DOWN : Fld := ⟨0x110, 0, 1, .w1c, 0, 1, 4, false⟩
/-- 12 R298 -/
def Reg.BND.CHECK_LOS : Fld := ⟨0x110, 1, 1, .w1c, 0, 1, 4, false⟩
/-- 12 R298 -/
def Reg.BND.CHECK_SILENT : Fld := ⟨0x110, 2, 1, .w1c, 0, 1, 4, false⟩
/-- 12 R282 -/
def Reg.BND.CHECK_REPLAY_FAIL : Fld := ⟨0x110, 3, 1, .w1c, 0, 1, 4, false⟩
/-- 12 R287 -/
def Reg.BND.CHECK_LANE_SPARED : Fld := ⟨0x110, 4, 1, .w1c, 0, 1, 4, false⟩
/-- 12 R288 -/
def Reg.BND.CHECK_DEGRADED : Fld := ⟨0x110, 5, 1, .w1c, 0, 1, 4, false⟩
/-- 12 R302 -/
def Reg.BND.CHECK_PEER_CORE_RESET : Fld := ⟨0x110, 6, 1, .w1c, 0, 1, 4, false⟩
/-- 12 R279 -/
def Reg.BND.CHECK_WIRING : Fld := ⟨0x110, 7, 1, .w1c, 0, 1, 4, false⟩
/-- 12 R298 -/
def Reg.BND.CHECK_RATE_MISMATCH : Fld := ⟨0x110, 8, 1, .w1c, 0, 1, 4, false⟩
/-- 12 R280 -/
def Reg.BND.CHECK_PROTO : Fld := ⟨0x110, 9, 1, .w1c, 0, 1, 4, false⟩
/-- 12 R298 -/
def Reg.BND.DOWN_COUNT : Fld := ⟨0x114, 0, 32, .ro, 0, 1, 4, false⟩
/-- 12 R298 -/
def Reg.BND.CRC_COUNT : Fld := ⟨0x118, 0, 32, .ro, 0, 1, 4, false⟩
/-- 12 R298 -/
def Reg.BND.REPLAY_COUNT : Fld := ⟨0x11c, 0, 32, .ro, 0, 1, 4, false⟩
/-- 12 R298 -/
def Reg.BND.PROTO_COUNT : Fld := ⟨0x120, 0, 32, .ro, 0, 1, 4, false⟩
/-- 12 R298 -/
def Reg.BND.LANE_MAP_SPARED : Fld := ⟨0x124, 0, 3, .ro, 0, 1, 4, false⟩
/-- 12 R298 -/
def Reg.BND.LANE_MAP_IN_USE : Fld := ⟨0x124, 3, 1, .ro, 0, 1, 4, false⟩
/-- 12 R298 -/
def Reg.BND.LANE_MAP_FAILED : Fld := ⟨0x124, 8, 8, .ro, 0, 1, 4, false⟩
/-- 12 R298 -/
def Reg.BND.SYM_ERR : Fld := ⟨0x140, 0, 32, .ro, 0, 9, 4, false⟩
/-- The fields of a BND page. -/
def fieldsBND : List Fld :=
  [Reg.BND.PORT_STATUS_STATE, Reg.BND.PORT_STATUS_WIDTH, Reg.BND.PORT_STATUS_SPARE_USED, Reg.BND.PORT_STATUS_RATE, Reg.BND.PORT_STATUS_USABLE, Reg.BND.PEER_NODE, Reg.BND.PEER_PORT, Reg.BND.PEER_ROLE] ++
  [Reg.BND.PEER_VALID, Reg.BND.PORT_CTRL_ROUTE_EN, Reg.BND.PORT_CTRL_RETRAIN_EN, Reg.BND.PORT_CTRL_RETRAIN, Reg.BND.PORT_CTRL_SPARE_EN, Reg.BND.DETOUR_PORT, Reg.BND.DETOUR_VALID, Reg.BND.CHECK_DOWN] ++
  [Reg.BND.CHECK_LOS, Reg.BND.CHECK_SILENT, Reg.BND.CHECK_REPLAY_FAIL, Reg.BND.CHECK_LANE_SPARED, Reg.BND.CHECK_DEGRADED, Reg.BND.CHECK_PEER_CORE_RESET, Reg.BND.CHECK_WIRING, Reg.BND.CHECK_RATE_MISMATCH] ++
  [Reg.BND.CHECK_PROTO, Reg.BND.DOWN_COUNT, Reg.BND.CRC_COUNT, Reg.BND.REPLAY_COUNT, Reg.BND.PROTO_COUNT, Reg.BND.LANE_MAP_SPARED, Reg.BND.LANE_MAP_IN_USE, Reg.BND.LANE_MAP_FAILED] ++
  [Reg.BND.SYM_ERR]

/-! ### BND7 -/

/-- 12 R296 -/
def Reg.BND7.NODE_ID : Fld := ⟨0x100, 0, 16, .rwl, 0, 1, 4, false⟩
/-- 12 R296 -/
def Reg.BND7.DIMS_DX_M1 : Fld := ⟨0x104, 0, 5, .rwl, 0, 1, 4, false⟩
/-- 12 R296 -/
def Reg.BND7.DIMS_DY_M1 : Fld := ⟨0x104, 5, 5, .rwl, 0, 1, 4, false⟩
/-- 12 R296 -/
def Reg.BND7.DIMS_DZ_M1 : Fld := ⟨0x104, 10, 5, .rwl, 0, 1, 4, false⟩
/-- 12 R296 -/
def Reg.BND7.FAB_CTRL_LOCK : Fld := ⟨0x108, 0, 1, .w1s, 0, 1, 4, false⟩
/-- 12 R298 -/
def Reg.BND7.FAB_CTRL_PAIR_REDIRECT : Fld := ⟨0x108, 1, 1, .rw, 1, 1, 4, false⟩
/-- 12 R296 -/
def Reg.BND7.FAB_CTRL_TAKEOVER : Fld := ⟨0x108, 2, 1, .ro, 0, 1, 4, false⟩
/-- 12 R294 -/
def Reg.BND7.RESP_LIMIT : Fld := ⟨0x10c, 0, 32, .rw, 10000000, 1, 4, false⟩
/-- 12 R296 -/
def Reg.BND7.FAB_CHECK_UNREACHABLE : Fld := ⟨0x110, 0, 1, .w1c, 0, 1, 4, false⟩
/-- 12 R292 -/
def Reg.BND7.FAB_CHECK_REFUSED_IN : Fld := ⟨0x110, 1, 1, .w1c, 0, 1, 4, false⟩
/-- 12 R294 -/
def Reg.BND7.FAB_CHECK_PEER_TIMEOUT : Fld := ⟨0x110, 2, 1, .w1c, 0, 1, 4, false⟩
/-- 12 R298 -/
def Reg.BND7.UNREACH_COUNT : Fld := ⟨0x114, 0, 32, .ro, 0, 1, 4, false⟩
/-- 12 R292 -/
def Reg.BND7.REFUSED_COUNT : Fld := ⟨0x118, 0, 32, .ro, 0, 1, 4, false⟩
/-- 12 R294 -/
def Reg.BND7.TIMEOUT_COUNT : Fld := ⟨0x11c, 0, 32, .ro, 0, 1, 4, false⟩
/-- 12 R296 -/
def Reg.BND7.FIRST_NODE : Fld := ⟨0x120, 0, 16, .ro, 0, 1, 4, false⟩
/-- 12 R296 -/
def Reg.BND7.FIRST_CLASS : Fld := ⟨0x120, 16, 3, .ro, 0, 1, 4, false⟩
/-- 12 R296 -/
def Reg.BND7.WINDOW_BASE_LO : Fld := ⟨0x200, 0, 32, .rw, 0, 16, 16, false⟩
/-- 12 R296 -/
def Reg.BND7.WINDOW_BASE_HI : Fld := ⟨0x204, 0, 16, .rw, 0, 16, 16, false⟩
/-- 12 R296 -/
def Reg.BND7.WINDOW_RD : Fld := ⟨0x204, 16, 1, .rw, 0, 16, 16, false⟩
/-- 12 R296 -/
def Reg.BND7.WINDOW_WR : Fld := ⟨0x204, 17, 1, .rw, 0, 16, 16, false⟩
/-- 12 R296 -/
def Reg.BND7.WINDOW_AT : Fld := ⟨0x204, 18, 1, .rw, 0, 16, 16, false⟩
/-- 12 R296 -/
def Reg.BND7.WINDOW_SPACE : Fld := ⟨0x204, 19, 1, .rw, 0, 16, 16, false⟩
/-- 12 R296 -/
def Reg.BND7.WINDOW_VALID : Fld := ⟨0x204, 20, 1, .rw, 0, 16, 16, false⟩
/-- 12 R296 -/
def Reg.BND7.WINDOW_LENGTH_M1_LO : Fld := ⟨0x208, 0, 32, .rw, 0, 16, 16, false⟩
/-- 12 R296 -/
def Reg.BND7.WINDOW_LENGTH_M1_HI : Fld := ⟨0x20c, 0, 16, .rw, 0, 16, 16, false⟩
/-- The fields of a BND7 page. -/
def fieldsBND7 : List Fld :=
  [Reg.BND7.NODE_ID, Reg.BND7.DIMS_DX_M1, Reg.BND7.DIMS_DY_M1, Reg.BND7.DIMS_DZ_M1, Reg.BND7.FAB_CTRL_LOCK, Reg.BND7.FAB_CTRL_PAIR_REDIRECT, Reg.BND7.FAB_CTRL_TAKEOVER, Reg.BND7.RESP_LIMIT] ++
  [Reg.BND7.FAB_CHECK_UNREACHABLE, Reg.BND7.FAB_CHECK_REFUSED_IN, Reg.BND7.FAB_CHECK_PEER_TIMEOUT, Reg.BND7.UNREACH_COUNT, Reg.BND7.REFUSED_COUNT, Reg.BND7.TIMEOUT_COUNT, Reg.BND7.FIRST_NODE, Reg.BND7.FIRST_CLASS] ++
  [Reg.BND7.WINDOW_BASE_LO, Reg.BND7.WINDOW_BASE_HI, Reg.BND7.WINDOW_RD, Reg.BND7.WINDOW_WR, Reg.BND7.WINDOW_AT, Reg.BND7.WINDOW_SPACE, Reg.BND7.WINDOW_VALID, Reg.BND7.WINDOW_LENGTH_M1_LO] ++
  [Reg.BND7.WINDOW_LENGTH_M1_HI]

/-! ### GATEX -/

/-- 13 R314 -/
def Reg.GATEX.XG_STATUS_OP : Fld := ⟨0x200, 0, 12, .ro, 0, 1, 4, false⟩
/-- 13 R314 -/
def Reg.GATEX.CHECK_LATE : Fld := ⟨0x204, 0, 1, .w1c, 0, 1, 4, false⟩
/-- 13 R312 -/
def Reg.GATEX.CHECK_OVERRUN : Fld := ⟨0x204, 1, 1, .w1c, 0, 1, 4, false⟩
/-- 13 R314 -/
def Reg.GATEX.CHECK_AXIS : Fld := ⟨0x204, 2, 1, .w1c, 0, 1, 4, false⟩
/-- 13 R317 -/
def Reg.GATEX.CHECK_STALE : Fld := ⟨0x204, 3, 1, .w1c, 0, 1, 4, false⟩
/-- 13 R314 -/
def Reg.GATEX.OVERRUN_COUNT : Fld := ⟨0x208, 0, 32, .ro, 0, 1, 4, false⟩
/-- 13 R314 -/
def Reg.GATEX.STALE_LEG : Fld := ⟨0x20c, 0, 14, .ro, 0, 1, 4, false⟩
/-- 13 R314 -/
def Reg.GATEX.STALE_SEEN : Fld := ⟨0x210, 0, 32, .ro, 0, 1, 4, false⟩
/-- 13 R314 -/
def Reg.GATEX.STALE_HELD : Fld := ⟨0x214, 0, 32, .ro, 0, 1, 4, false⟩
/-- 13 R314 -/
def Reg.GATEX.CLOSED : Fld := ⟨0x400, 0, 32, .ro, 0, 16, 32, false⟩
/-- 13 R314 -/
def Reg.GATEX.USED : Fld := ⟨0x404, 0, 7, .ro, 0, 16, 32, false⟩
/-- 13 R314 -/
def Reg.GATEX.CARRIED : Fld := ⟨0x404, 8, 7, .ro, 0, 16, 32, false⟩
/-- 13 R314 -/
def Reg.GATEX.DROPPED : Fld := ⟨0x404, 16, 7, .ro, 0, 16, 32, false⟩
/-- 13 R314 -/
def Reg.GATEX.CLOSED_VALID : Fld := ⟨0x404, 31, 1, .ro, 0, 16, 32, false⟩
/-- 13 R314 -/
def Reg.GATEX.LATE_MASK_LO : Fld := ⟨0x408, 0, 32, .ro, 0, 16, 32, false⟩
/-- 13 R314 -/
def Reg.GATEX.LATE_MASK_HI : Fld := ⟨0x40c, 0, 32, .ro, 0, 16, 32, false⟩
/-- 13 R312 -/
def Reg.GATEX.PENDING_LO : Fld := ⟨0x410, 0, 32, .ro, 0, 16, 32, false⟩
/-- 13 R312 -/
def Reg.GATEX.PENDING_HI : Fld := ⟨0x414, 0, 32, .ro, 0, 16, 32, false⟩
/-- 13 R314 -/
def Reg.GATEX.CHAN_RESET : Fld := ⟨0x600, 0, 4, .wo, 0, 1, 4, false⟩
/-- The fields of a GATEX page. -/
def fieldsGATEX : List Fld :=
  [Reg.GATEX.XG_STATUS_OP, Reg.GATEX.CHECK_LATE, Reg.GATEX.CHECK_OVERRUN, Reg.GATEX.CHECK_AXIS, Reg.GATEX.CHECK_STALE, Reg.GATEX.OVERRUN_COUNT, Reg.GATEX.STALE_LEG, Reg.GATEX.STALE_SEEN] ++
  [Reg.GATEX.STALE_HELD, Reg.GATEX.CLOSED, Reg.GATEX.USED, Reg.GATEX.CARRIED, Reg.GATEX.DROPPED, Reg.GATEX.CLOSED_VALID, Reg.GATEX.LATE_MASK_LO, Reg.GATEX.LATE_MASK_HI] ++
  [Reg.GATEX.PENDING_LO, Reg.GATEX.PENDING_HI, Reg.GATEX.CHAN_RESET]

/-! ### GNS -/

/-- 13 R320 -/
def Reg.GNS.NORM_EXP : Fld := ⟨0x100, 0, 16, .rw, 0, 1, 4, false⟩
/-- 13 R320 -/
def Reg.GNS.ACC_ITER : Fld := ⟨0x104, 0, 32, .ro, 0, 1, 4, false⟩
/-- 13 R320 -/
def Reg.GNS.ACC_G : Fld := ⟨0x110, 0, 32, .ro, 0, 4, 4, false⟩
/-- 13 R320 -/
def Reg.GNS.ACC_S : Fld := ⟨0x120, 0, 32, .ro, 0, 4, 4, false⟩
/-- 13 R320 -/
def Reg.GNS.ACC_KIND_G : Fld := ⟨0x130, 0, 2, .ro, 0, 1, 4, false⟩
/-- 13 R320 -/
def Reg.GNS.ACC_KIND_S : Fld := ⟨0x130, 2, 2, .ro, 0, 1, 4, false⟩
/-- 13 R320 -/
def Reg.GNS.RESULT_ITER : Fld := ⟨0x140, 0, 32, .ro, 0, 1, 4, false⟩
/-- 13 R320 -/
def Reg.GNS.SQ_G : Fld := ⟨0x150, 0, 32, .ro, 0, 4, 4, false⟩
/-- 13 R320 -/
def Reg.GNS.SQ_S : Fld := ⟨0x160, 0, 32, .ro, 0, 4, 4, false⟩
/-- 13 R320 -/
def Reg.GNS.RESULT_KIND : Fld := ⟨0x170, 0, 4, .ro, 0, 1, 4, false⟩
/-- 13 R320 -/
def Reg.GNS.B_SMALL : Fld := ⟨0x174, 0, 32, .rw, 0, 1, 4, false⟩
/-- 13 R320 -/
def Reg.GNS.B_BIG : Fld := ⟨0x178, 0, 32, .rw, 0, 1, 4, false⟩
/-- 13 R320 -/
def Reg.GNS.MAX_NORM : Fld := ⟨0x180, 0, 16, .rw, 0, 1, 4, false⟩
/-- 13 R320 -/
def Reg.GNS.MAX_NORM_EXP : Fld := ⟨0x180, 16, 16, .rw, 0, 1, 4, false⟩
/-- 13 R322 -/
def Reg.GNS.CLIP : Fld := ⟨0x184, 0, 16, .ro, 0, 1, 4, false⟩
/-- 13 R320 -/
def Reg.GNS.CLIP_MASK_LO : Fld := ⟨0x188, 0, 32, .rw, 0, 1, 4, false⟩
/-- 13 R320 -/
def Reg.GNS.CLIP_MASK_HI : Fld := ⟨0x18c, 0, 32, .rw, 0, 1, 4, false⟩
/-- 13 R320 -/
def Reg.GNS.CLIP_OFFSET : Fld := ⟨0x190, 5, 20, .rw, 0, 1, 4, false⟩
/-- 13 R320 -/
def Reg.GNS.STALE_CTRL_POLICY : Fld := ⟨0x1a0, 0, 1, .rw, 0, 1, 4, false⟩
/-- 13 R320 -/
def Reg.GNS.STALE_COUNT : Fld := ⟨0x1a4, 0, 32, .ro, 0, 1, 4, false⟩
/-- 13 R320 -/
def Reg.GNS.REPLAY_COUNT : Fld := ⟨0x1a8, 0, 32, .ro, 0, 1, 4, false⟩
/-- 13 R320 -/
def Reg.GNS.GNS_CHECK_GNS_STALE : Fld := ⟨0x1b0, 0, 1, .w1c, 0, 1, 4, false⟩
/-- The fields of a GNS page. -/
def fieldsGNS : List Fld :=
  [Reg.GNS.NORM_EXP, Reg.GNS.ACC_ITER, Reg.GNS.ACC_G, Reg.GNS.ACC_S, Reg.GNS.ACC_KIND_G, Reg.GNS.ACC_KIND_S, Reg.GNS.RESULT_ITER, Reg.GNS.SQ_G] ++
  [Reg.GNS.SQ_S, Reg.GNS.RESULT_KIND, Reg.GNS.B_SMALL, Reg.GNS.B_BIG, Reg.GNS.MAX_NORM, Reg.GNS.MAX_NORM_EXP, Reg.GNS.CLIP, Reg.GNS.CLIP_MASK_LO] ++
  [Reg.GNS.CLIP_MASK_HI, Reg.GNS.CLIP_OFFSET, Reg.GNS.STALE_CTRL_POLICY, Reg.GNS.STALE_COUNT, Reg.GNS.REPLAY_COUNT, Reg.GNS.GNS_CHECK_GNS_STALE]

/-! ### RGN1 -/

/-- 13 R328 -/
def Reg.RGN1.WSET_FRONT : Fld := ⟨0x100, 0, 8, .rw, 0, 16, 16, false⟩
/-- 13 R328 -/
def Reg.RGN1.WSET_BANK0 : Fld := ⟨0x100, 8, 8, .rw, 0, 16, 16, false⟩
/-- 13 R328 -/
def Reg.RGN1.WSET_BANK1 : Fld := ⟨0x100, 16, 8, .rw, 0, 16, 16, false⟩
/-- 13 R328 -/
def Reg.RGN1.WSET_PUB_BANK : Fld := ⟨0x100, 24, 1, .ro, 0, 16, 16, false⟩
/-- 13 R328 -/
def Reg.RGN1.WSET_VALID : Fld := ⟨0x100, 31, 1, .rw, 0, 16, 16, false⟩
/-- 13 R328 -/
def Reg.RGN1.PUB_VERSION : Fld := ⟨0x104, 0, 32, .ro, 0, 16, 16, false⟩
/-- 13 R328 -/
def Reg.RGN1.APPLIED_LOW : Fld := ⟨0x108, 0, 32, .ro, 0, 16, 16, false⟩
/-- 13 R329 -/
def Reg.RGN1.PUBLISH_SET : Fld := ⟨0xa00, 0, 4, .wo, 0, 1, 4, false⟩
/-- 13 R328 -/
def Reg.RGN1.PUBLISH_BANK : Fld := ⟨0xa00, 4, 1, .wo, 0, 1, 4, false⟩
/-- 13 R328 -/
def Reg.RGN1.PUB_VERSION_STAGE : Fld := ⟨0xa04, 0, 32, .rw, 0, 1, 4, false⟩
/-- 13 R328 -/
def Reg.RGN1.REFUSED : Fld := ⟨0xa08, 0, 1, .w1c, 0, 1, 4, false⟩
/-- The fields of a RGN1 page. -/
def fieldsRGN1 : List Fld :=
  [Reg.RGN1.WSET_FRONT, Reg.RGN1.WSET_BANK0, Reg.RGN1.WSET_BANK1, Reg.RGN1.WSET_PUB_BANK, Reg.RGN1.WSET_VALID, Reg.RGN1.PUB_VERSION, Reg.RGN1.APPLIED_LOW, Reg.RGN1.PUBLISH_SET] ++
  [Reg.RGN1.PUBLISH_BANK, Reg.RGN1.PUB_VERSION_STAGE, Reg.RGN1.REFUSED]

/-! ### MOD1 -/

/-- 14 R345 -/
def Reg.MOD1.ALARM_SMB : Fld := ⟨0x100, 0, 16, .rw, 2305, 1, 4, false⟩
/-- 14 R345 -/
def Reg.MOD1.SRAM_CE_COUNT : Fld := ⟨0x104, 0, 32, .ro, 0, 1, 4, false⟩
/-- 14 R345 -/
def Reg.MOD1.SRAM_UE_COUNT : Fld := ⟨0x108, 0, 32, .ro, 0, 1, 4, false⟩
/-- The fields of a MOD1 page. -/
def fieldsMOD1 : List Fld :=
  [Reg.MOD1.ALARM_SMB, Reg.MOD1.SRAM_CE_COUNT, Reg.MOD1.SRAM_UE_COUNT]

/-! ### MOD2 -/

/-- 14 R347 -/
def Reg.MOD2.FR_HEAD : Fld := ⟨0x100, 0, 12, .ro, 0, 1, 4, false⟩
/-- 14 R347 -/
def Reg.MOD2.FR_TAIL : Fld := ⟨0x104, 0, 12, .rw, 0, 1, 4, false⟩
/-- 14 R347 -/
def Reg.MOD2.FR_HELD : Fld := ⟨0x108, 0, 13, .ro, 0, 1, 4, false⟩
/-- 14 R347 -/
def Reg.MOD2.FR_STATUS_FULL : Fld := ⟨0x10c, 0, 1, .ro, 0, 1, 4, false⟩
/-- 14 R347 -/
def Reg.MOD2.FR_STATUS_SUMMARY : Fld := ⟨0x10c, 1, 1, .w1c, 0, 1, 4, false⟩
/-- 14 R347 -/
def Reg.MOD2.FR_STATUS_TAIL_REFUSED : Fld := ⟨0x10c, 2, 1, .w1c, 0, 1, 4, false⟩
/-- 14 R347 -/
def Reg.MOD2.FR_SEQ : Fld := ⟨0x110, 0, 32, .ro, 0, 1, 4, false⟩
/-- 14 R347 -/
def Reg.MOD2.FR_SELECT : Fld := ⟨0x114, 0, 12, .rw, 0, 1, 4, false⟩
/-- 14 R347 -/
def Reg.MOD2.FR_WINDOW : Fld := ⟨0x120, 0, 32, .ro, 0, 8, 4, false⟩
/-- 14 R347 -/
def Reg.MOD2.DROP_COUNT : Fld := ⟨0x140, 0, 32, .ro, 0, 16, 4, false⟩
/-- 14 R347 -/
def Reg.MOD2.DROP_CLEAR : Fld := ⟨0x180, 0, 1, .wo, 0, 1, 4, false⟩
/-- The fields of a MOD2 page. -/
def fieldsMOD2 : List Fld :=
  [Reg.MOD2.FR_HEAD, Reg.MOD2.FR_TAIL, Reg.MOD2.FR_HELD, Reg.MOD2.FR_STATUS_FULL, Reg.MOD2.FR_STATUS_SUMMARY, Reg.MOD2.FR_STATUS_TAIL_REFUSED, Reg.MOD2.FR_SEQ, Reg.MOD2.FR_SELECT] ++
  [Reg.MOD2.FR_WINDOW, Reg.MOD2.DROP_COUNT, Reg.MOD2.DROP_CLEAR]

/-! ### MOD3 -/

/-- 14 R348 -/
def Reg.MOD3.LOG_BASE_LO : Fld := ⟨0x100, 0, 32, .rwl, 0, 1, 8, false⟩
/-- 14 R348 -/
def Reg.MOD3.LOG_BASE_HI : Fld := ⟨0x104, 0, 16, .rwl, 0, 1, 8, false⟩
/-- 14 R348 -/
def Reg.MOD3.LOG_SIZE : Fld := ⟨0x108, 0, 32, .rwl, 16777216, 1, 4, false⟩
/-- 14 R348 -/
def Reg.MOD3.LOG_COUNT_LO : Fld := ⟨0x110, 0, 32, .ro, 0, 1, 8, false⟩
/-- 14 R348 -/
def Reg.MOD3.LOG_COUNT_HI : Fld := ⟨0x114, 0, 32, .ro, 0, 1, 8, false⟩
/-- 14 R348 -/
def Reg.MOD3.TRACE_BASE_LO : Fld := ⟨0x120, 0, 32, .rwl, 0, 1, 8, false⟩
/-- 14 R348 -/
def Reg.MOD3.TRACE_BASE_HI : Fld := ⟨0x124, 0, 16, .rwl, 0, 1, 8, false⟩
/-- 14 R348 -/
def Reg.MOD3.TRACE_HEAD : Fld := ⟨0x128, 0, 21, .ro, 0, 1, 4, false⟩
/-- 14 R348 -/
def Reg.MOD3.TRACE_TAIL : Fld := ⟨0x12c, 0, 21, .rw, 0, 1, 4, false⟩
/-- 14 R348 -/
def Reg.MOD3.TRACE_EN : Fld := ⟨0x130, 0, 16, .rw, 1, 1, 4, false⟩
/-- 14 R348 -/
def Reg.MOD3.TRACE_GAPS : Fld := ⟨0x134, 0, 32, .ro, 0, 1, 4, false⟩
/-- 14 R348 -/
def Reg.MOD3.SWEEP_BASE_LO : Fld := ⟨0x140, 0, 32, .rwl, 0, 1, 8, false⟩
/-- 14 R348 -/
def Reg.MOD3.SWEEP_BASE_HI : Fld := ⟨0x144, 0, 16, .rwl, 0, 1, 8, false⟩
/-- 14 R348 -/
def Reg.MOD3.SWEEP_CTRL_EN : Fld := ⟨0x148, 0, 1, .rw, 1, 1, 4, false⟩
/-- 14 R339 -/
def Reg.MOD3.SWEEP_STEP : Fld := ⟨0x14c, 0, 32, .ro, 0, 1, 4, false⟩
/-- 14 R348 -/
def Reg.MOD3.SWEEP_CHECKS : Fld := ⟨0x150, 0, 32, .ro, 0, 1, 4, false⟩
/-- 14 R348 -/
def Reg.MOD3.SWEEP_DEFERRED : Fld := ⟨0x154, 0, 32, .ro, 0, 1, 4, false⟩
/-- 14 R348 -/
def Reg.MOD3.SWEEP_MISMATCHES : Fld := ⟨0x158, 0, 32, .ro, 0, 1, 4, false⟩
/-- 14 R337 -/
def Reg.MOD3.FALLBACK_BASE_LO : Fld := ⟨0x160, 0, 32, .rw, 0, 1, 8, false⟩
/-- 14 R337 -/
def Reg.MOD3.FALLBACK_BASE_HI : Fld := ⟨0x164, 0, 16, .rw, 0, 1, 8, false⟩
/-- 14 R348 -/
def Reg.MOD3.FALLBACK_CTRL_VALID : Fld := ⟨0x168, 0, 1, .rw, 0, 1, 4, false⟩
/-- 14 R348 -/
def Reg.MOD3.FENCED_LO : Fld := ⟨0x16c, 0, 32, .ro, 0, 1, 4, false⟩
/-- 14 R348 -/
def Reg.MOD3.FENCED_HI : Fld := ⟨0x170, 0, 32, .ro, 0, 1, 4, false⟩
/-- 14 R348 -/
def Reg.MOD3.MIR_CTRL_EN : Fld := ⟨0x180, 0, 1, .rw, 0, 1, 4, false⟩
/-- 14 R343 -/
def Reg.MOD3.MIR_FIXED : Fld := ⟨0x184, 0, 32, .rw, 0, 1, 4, false⟩
/-- 14 R348 -/
def Reg.MOD3.MIR_MIN : Fld := ⟨0x188, 0, 32, .rw, 60, 1, 4, false⟩
/-- 14 R348 -/
def Reg.MOD3.MIR_MAX : Fld := ⟨0x18c, 0, 32, .rw, 86400, 1, 4, false⟩
/-- 14 R348 -/
def Reg.MOD3.MIR_PRIOR : Fld := ⟨0x190, 0, 32, .rw, 2592000, 1, 4, false⟩
/-- 14 R343 -/
def Reg.MOD3.MIR_EVENTS : Fld := ⟨0x194, 0, 32, .ro, 0, 1, 4, false⟩
/-- 14 R342 -/
def Reg.MOD3.MIR_COST : Fld := ⟨0x198, 0, 32, .ro, 0, 1, 4, false⟩
/-- 14 R348 -/
def Reg.MOD3.MIR_INTERVAL : Fld := ⟨0x19c, 0, 32, .ro, 0, 1, 4, false⟩
/-- 14 R348 -/
def Reg.MOD3.MIR_SNAP_SEQ : Fld := ⟨0x1a0, 0, 32, .ro, 0, 1, 4, false⟩
/-- 14 R431 -/
def Reg.MOD3.CFG_LOCK_LOCK : Fld := ⟨0x1a4, 0, 1, .w1s, 0, 1, 4, false⟩
/-- The fields of a MOD3 page. -/
def fieldsMOD3 : List Fld :=
  [Reg.MOD3.LOG_BASE_LO, Reg.MOD3.LOG_BASE_HI, Reg.MOD3.LOG_SIZE, Reg.MOD3.LOG_COUNT_LO, Reg.MOD3.LOG_COUNT_HI, Reg.MOD3.TRACE_BASE_LO, Reg.MOD3.TRACE_BASE_HI, Reg.MOD3.TRACE_HEAD] ++
  [Reg.MOD3.TRACE_TAIL, Reg.MOD3.TRACE_EN, Reg.MOD3.TRACE_GAPS, Reg.MOD3.SWEEP_BASE_LO, Reg.MOD3.SWEEP_BASE_HI, Reg.MOD3.SWEEP_CTRL_EN, Reg.MOD3.SWEEP_STEP, Reg.MOD3.SWEEP_CHECKS] ++
  [Reg.MOD3.SWEEP_DEFERRED, Reg.MOD3.SWEEP_MISMATCHES, Reg.MOD3.FALLBACK_BASE_LO, Reg.MOD3.FALLBACK_BASE_HI, Reg.MOD3.FALLBACK_CTRL_VALID, Reg.MOD3.FENCED_LO, Reg.MOD3.FENCED_HI, Reg.MOD3.MIR_CTRL_EN] ++
  [Reg.MOD3.MIR_FIXED, Reg.MOD3.MIR_MIN, Reg.MOD3.MIR_MAX, Reg.MOD3.MIR_PRIOR, Reg.MOD3.MIR_EVENTS, Reg.MOD3.MIR_COST, Reg.MOD3.MIR_INTERVAL, Reg.MOD3.MIR_SNAP_SEQ] ++
  [Reg.MOD3.CFG_LOCK_LOCK]

/-! ### MOD4 -/

/-- 15 R354 -/
def Reg.MOD4.PAIR_STATUS_ROLE : Fld := ⟨0x100, 0, 2, .ro, 0, 1, 4, false⟩
/-- 15 R353 -/
def Reg.MOD4.PAIR_STATUS_SENSE : Fld := ⟨0x100, 2, 1, .ro, 0, 1, 4, false⟩
/-- 15 R354 -/
def Reg.MOD4.PAIR_STATUS_STATE : Fld := ⟨0x100, 4, 3, .ro, 0, 1, 4, false⟩
/-- 15 R362 -/
def Reg.MOD4.PAIR_STATUS_JOINED : Fld := ⟨0x100, 8, 1, .ro, 0, 1, 4, false⟩
/-- 15 R352 -/
def Reg.MOD4.PAIR_CTRL_ALIVE_RELEASE : Fld := ⟨0x104, 0, 1, .rw, 0, 1, 4, false⟩
/-- 15 R354 -/
def Reg.MOD4.PAIR_CTRL_SNAP_NOW : Fld := ⟨0x104, 1, 1, .wo, 0, 1, 4, false⟩
/-- 15 R362 -/
def Reg.MOD4.PAIR_CTRL_END_TAKEOVER : Fld := ⟨0x104, 2, 1, .wo, 0, 1, 4, false⟩
/-- 15 R354 -/
def Reg.MOD4.PAIR_CTRL_JOIN : Fld := ⟨0x104, 3, 1, .wo, 0, 1, 4, false⟩
/-- 15 R355 -/
def Reg.MOD4.PAIR_CTRL_START_ALONE : Fld := ⟨0x104, 4, 1, .wo, 0, 1, 4, false⟩
/-- 15 R354 -/
def Reg.MOD4.PAIR_CHECK_TAKEOVER : Fld := ⟨0x108, 0, 1, .w1c, 0, 1, 4, false⟩
/-- 15 R354 -/
def Reg.MOD4.PAIR_CHECK_SPLIT : Fld := ⟨0x108, 1, 1, .w1c, 0, 1, 4, false⟩
/-- 15 R351 -/
def Reg.MOD4.PAIR_CHECK_CONFLICT : Fld := ⟨0x108, 2, 1, .w1c, 0, 1, 4, false⟩
/-- 15 R361 -/
def Reg.MOD4.PAIR_CHECK_DUAL : Fld := ⟨0x108, 3, 1, .w1c, 0, 1, 4, false⟩
/-- 15 R363 -/
def Reg.MOD4.PAIR_CHECK_RESYNC_FAIL : Fld := ⟨0x108, 4, 1, .w1c, 0, 1, 4, false⟩
/-- 15 R358 -/
def Reg.MOD4.PAIR_CHECK_MIR_FULL : Fld := ⟨0x108, 5, 1, .w1c, 0, 1, 4, false⟩
/-- 15 R354 -/
def Reg.MOD4.MIR_BASE_LO : Fld := ⟨0x110, 0, 32, .rwl, 0, 1, 8, false⟩
/-- 15 R354 -/
def Reg.MOD4.MIR_BASE_HI : Fld := ⟨0x114, 0, 16, .rwl, 0, 1, 8, false⟩
/-- 15 R354 -/
def Reg.MOD4.MIR_SIZE_LO : Fld := ⟨0x118, 0, 32, .rwl, 0, 1, 8, false⟩
/-- 15 R354 -/
def Reg.MOD4.MIR_SIZE_HI : Fld := ⟨0x11c, 0, 16, .rwl, 0, 1, 8, false⟩
/-- 15 R358 -/
def Reg.MOD4.LIST_BASE_LO : Fld := ⟨0x120, 0, 32, .rw, 0, 1, 8, false⟩
/-- 15 R358 -/
def Reg.MOD4.LIST_BASE_HI : Fld := ⟨0x124, 0, 16, .rw, 0, 1, 8, false⟩
/-- 15 R354 -/
def Reg.MOD4.LIST_COUNT : Fld := ⟨0x128, 0, 8, .rw, 0, 1, 4, false⟩
/-- 15 R354 -/
def Reg.MOD4.TAKE_HOLD : Fld := ⟨0x130, 0, 32, .rw, 100000, 1, 4, false⟩
/-- 15 R354 -/
def Reg.MOD4.TAKE_SNAP_SEQ_LO : Fld := ⟨0x138, 0, 32, .ro, 0, 1, 8, false⟩
/-- 15 R354 -/
def Reg.MOD4.TAKE_SNAP_SEQ_HI : Fld := ⟨0x13c, 0, 32, .ro, 0, 1, 8, false⟩
/-- 15 R354 -/
def Reg.MOD4.TAKE_ITER : Fld := ⟨0x140, 0, 32, .ro, 0, 1, 4, false⟩
/-- 15 R354 -/
def Reg.MOD4.TAKE_COUNT : Fld := ⟨0x144, 0, 32, .ro, 0, 1, 4, false⟩
/-- 15 R354 -/
def Reg.MOD4.MIR_LOCK_LOCK : Fld := ⟨0x148, 0, 1, .w1s, 0, 1, 4, false⟩
/-- The fields of a MOD4 page. -/
def fieldsMOD4 : List Fld :=
  [Reg.MOD4.PAIR_STATUS_ROLE, Reg.MOD4.PAIR_STATUS_SENSE, Reg.MOD4.PAIR_STATUS_STATE, Reg.MOD4.PAIR_STATUS_JOINED, Reg.MOD4.PAIR_CTRL_ALIVE_RELEASE, Reg.MOD4.PAIR_CTRL_SNAP_NOW, Reg.MOD4.PAIR_CTRL_END_TAKEOVER, Reg.MOD4.PAIR_CTRL_JOIN] ++
  [Reg.MOD4.PAIR_CTRL_START_ALONE, Reg.MOD4.PAIR_CHECK_TAKEOVER, Reg.MOD4.PAIR_CHECK_SPLIT, Reg.MOD4.PAIR_CHECK_CONFLICT, Reg.MOD4.PAIR_CHECK_DUAL, Reg.MOD4.PAIR_CHECK_RESYNC_FAIL, Reg.MOD4.PAIR_CHECK_MIR_FULL, Reg.MOD4.MIR_BASE_LO] ++
  [Reg.MOD4.MIR_BASE_HI, Reg.MOD4.MIR_SIZE_LO, Reg.MOD4.MIR_SIZE_HI, Reg.MOD4.LIST_BASE_LO, Reg.MOD4.LIST_BASE_HI, Reg.MOD4.LIST_COUNT, Reg.MOD4.TAKE_HOLD, Reg.MOD4.TAKE_SNAP_SEQ_LO] ++
  [Reg.MOD4.TAKE_SNAP_SEQ_HI, Reg.MOD4.TAKE_ITER, Reg.MOD4.TAKE_COUNT, Reg.MOD4.MIR_LOCK_LOCK]

/-! ### COMMON -/

/-- 16 R384 -/
def Reg.COMMON.PAGE_ID_TYPE : Fld := ⟨0x0, 0, 8, .ro, 0, 1, 4, false⟩
/-- 16 R13 -/
def Reg.COMMON.PAGE_ID_INSTANCE : Fld := ⟨0x0, 8, 16, .ro, 0, 1, 4, false⟩
/-- 16 R384 -/
def Reg.COMMON.PAGE_REV_MINOR : Fld := ⟨0x4, 0, 8, .ro, 0, 1, 4, false⟩
/-- 16 R384 -/
def Reg.COMMON.PAGE_REV_MAJOR : Fld := ⟨0x4, 8, 8, .ro, 1, 1, 4, false⟩
/-- 16 R269 -/
def Reg.COMMON.PORT_ACCESS_RIGHTS : Fld := ⟨0x8, 0, 10, .rwl, 964, 1, 4, false⟩
/-- 16 R431 -/
def Reg.COMMON.PORT_ACCESS_LOCK : Fld := ⟨0x8, 31, 1, .w1s, 0, 1, 4, false⟩
/-- 16 R384 -/
def Reg.COMMON.PAGE_STATUS_READY : Fld := ⟨0xc, 0, 1, .ro, 0, 1, 4, false⟩
/-- 16 R384 -/
def Reg.COMMON.PAGE_STATUS_OFFLINE : Fld := ⟨0xc, 1, 1, .ro, 0, 1, 4, false⟩
/-- 16 R384 -/
def Reg.COMMON.PAGE_STATUS_LOCKED : Fld := ⟨0xc, 2, 1, .ro, 0, 1, 4, false⟩
/-- 16 R384 -/
def Reg.COMMON.EVENT : Fld := ⟨0x10, 0, 16, .w1c, 0, 1, 4, false⟩
/-- 16 R384 -/
def Reg.COMMON.EVENT_ENABLE : Fld := ⟨0x14, 0, 16, .rw, 0, 1, 4, false⟩
/-- 16 R384 -/
def Reg.COMMON.EVENT_COUNT : Fld := ⟨0x20, 0, 32, .ro, 0, 16, 4, false⟩
/-- 16 R384 -/
def Reg.COMMON.FAULT_FIRST_SEQ : Fld := ⟨0x60, 0, 31, .rc, 0, 1, 4, false⟩
/-- 16 R384 -/
def Reg.COMMON.FAULT_FIRST_VALID : Fld := ⟨0x60, 31, 1, .rc, 0, 1, 4, false⟩
/-- 16 R384 -/
def Reg.COMMON.COUNT_CLEAR : Fld := ⟨0x64, 0, 16, .wo, 0, 1, 4, false⟩
/-- The fields of a COMMON page. -/
def fieldsCOMMON : List Fld :=
  [Reg.COMMON.PAGE_ID_TYPE, Reg.COMMON.PAGE_ID_INSTANCE, Reg.COMMON.PAGE_REV_MINOR, Reg.COMMON.PAGE_REV_MAJOR, Reg.COMMON.PORT_ACCESS_RIGHTS, Reg.COMMON.PORT_ACCESS_LOCK, Reg.COMMON.PAGE_STATUS_READY, Reg.COMMON.PAGE_STATUS_OFFLINE] ++
  [Reg.COMMON.PAGE_STATUS_LOCKED, Reg.COMMON.EVENT, Reg.COMMON.EVENT_ENABLE, Reg.COMMON.EVENT_COUNT, Reg.COMMON.FAULT_FIRST_SEQ, Reg.COMMON.FAULT_FIRST_VALID, Reg.COMMON.COUNT_CLEAR]

/-! ### HIF -/

/-- 16 R365 -/
def Reg.HIF.LINK_STATUS_UP : Fld := ⟨0x100, 0, 1, .ro, 0, 1, 4, false⟩
/-- 16 R365 -/
def Reg.HIF.LINK_STATUS_WIDTH : Fld := ⟨0x100, 1, 2, .ro, 0, 1, 4, false⟩
/-- 16 R365 -/
def Reg.HIF.LINK_STATUS_SPEED : Fld := ⟨0x100, 3, 2, .ro, 0, 1, 4, false⟩
/-- 16 R365 -/
def Reg.HIF.HIF_CHECK_LINK_DOWN : Fld := ⟨0x104, 0, 1, .w1c, 0, 1, 4, false⟩
/-- 16 R365 -/
def Reg.HIF.HIF_CHECK_DEGRADED : Fld := ⟨0x104, 1, 1, .w1c, 0, 1, 4, false⟩
/-- 16 R365 -/
def Reg.HIF.HIF_CHECK_SLOW : Fld := ⟨0x104, 2, 1, .w1c, 0, 1, 4, false⟩
/-- 16 R387 -/
def Reg.HIF.HIF_CHECK_DENIED : Fld := ⟨0x104, 3, 1, .w1c, 0, 1, 4, false⟩
/-- 16 R367 -/
def Reg.HIF.HIF_CHECK_NARROW : Fld := ⟨0x104, 4, 1, .w1c, 0, 1, 4, false⟩
/-- 16 R365 -/
def Reg.HIF.DENIED_COUNT : Fld := ⟨0x108, 0, 32, .ro, 0, 1, 4, false⟩
/-- 16 R0 -/
def Reg.HIF.DENIED_ADDR : Fld := ⟨0x10c, 0, 26, .ro, 0, 1, 4, false⟩
/-- 16 R269 -/
def Reg.HIF.DENIED_PORT_IDENTITY : Fld := ⟨0x110, 0, 4, .ro, 0, 1, 4, false⟩
/-- 16 R365 -/
def Reg.HIF.DENIED_PORT_WRITE : Fld := ⟨0x110, 4, 1, .ro, 0, 1, 4, false⟩
/-- 16 R365 -/
def Reg.HIF.HDM_HBM_BASE_LO : Fld := ⟨0x120, 28, 4, .rwl, 0, 1, 8, false⟩
/-- 16 R365 -/
def Reg.HIF.HDM_HBM_BASE_HI : Fld := ⟨0x124, 0, 16, .rwl, 0, 1, 8, false⟩
/-- 16 R365 -/
def Reg.HIF.HDM_UNITS : Fld := ⟨0x128, 0, 11, .rwl, 0, 1, 4, false⟩
/-- 16 R365 -/
def Reg.HIF.HDM_LOCK_LOCK : Fld := ⟨0x12c, 0, 1, .w1s, 0, 1, 4, false⟩
/-- The fields of a HIF page. -/
def fieldsHIF : List Fld :=
  [Reg.HIF.LINK_STATUS_UP, Reg.HIF.LINK_STATUS_WIDTH, Reg.HIF.LINK_STATUS_SPEED, Reg.HIF.HIF_CHECK_LINK_DOWN, Reg.HIF.HIF_CHECK_DEGRADED, Reg.HIF.HIF_CHECK_SLOW, Reg.HIF.HIF_CHECK_DENIED, Reg.HIF.HIF_CHECK_NARROW] ++
  [Reg.HIF.DENIED_COUNT, Reg.HIF.DENIED_ADDR, Reg.HIF.DENIED_PORT_IDENTITY, Reg.HIF.DENIED_PORT_WRITE, Reg.HIF.HDM_HBM_BASE_LO, Reg.HIF.HDM_HBM_BASE_HI, Reg.HIF.HDM_UNITS, Reg.HIF.HDM_LOCK_LOCK]

/-! ### RING -/

/-- 16 R370 -/
def Reg.RING.CTRL_EN : Fld := ⟨0x100, 0, 1, .rw, 0, 1, 4, false⟩
/-- 16 R374 -/
def Reg.RING.CTRL_ABORT : Fld := ⟨0x100, 1, 1, .wo, 0, 1, 4, false⟩
/-- 16 R370 -/
def Reg.RING.STATUS_IDLE : Fld := ⟨0x104, 0, 1, .ro, 1, 1, 4, false⟩
/-- 16 R370 -/
def Reg.RING.STATUS_STALLED : Fld := ⟨0x104, 1, 1, .ro, 0, 1, 4, false⟩
/-- 16 R374 -/
def Reg.RING.STATUS_HELD : Fld := ⟨0x104, 2, 1, .ro, 0, 1, 4, false⟩
/-- 16 R370 -/
def Reg.RING.CFG_SQ_SPACE : Fld := ⟨0x108, 0, 1, .rw, 0, 1, 4, false⟩
/-- 16 R370 -/
def Reg.RING.CFG_CQ_SPACE : Fld := ⟨0x108, 1, 1, .rw, 0, 1, 4, false⟩
/-- 16 R370 -/
def Reg.RING.CFG_SQ_LOG2 : Fld := ⟨0x108, 2, 5, .rw, 4, 1, 4, false⟩
/-- 16 R370 -/
def Reg.RING.CFG_CQ_LOG2 : Fld := ⟨0x108, 7, 5, .rw, 4, 1, 4, false⟩
/-- 16 R370 -/
def Reg.RING.CFG_VECTOR : Fld := ⟨0x108, 12, 6, .rw, 0, 1, 4, false⟩
/-- 16 R370 -/
def Reg.RING.SQ_BASE_LO : Fld := ⟨0x110, 0, 32, .rw, 0, 1, 8, false⟩
/-- 16 R370 -/
def Reg.RING.SQ_BASE_HI : Fld := ⟨0x114, 0, 32, .rw, 0, 1, 8, false⟩
/-- 16 R370 -/
def Reg.RING.CQ_BASE_LO : Fld := ⟨0x118, 0, 32, .rw, 0, 1, 8, false⟩
/-- 16 R370 -/
def Reg.RING.CQ_BASE_HI : Fld := ⟨0x11c, 0, 32, .rw, 0, 1, 8, false⟩
/-- 16 R371 -/
def Reg.RING.SQ_TAIL : Fld := ⟨0x120, 0, 16, .rw, 0, 1, 4, false⟩
/-- 16 R370 -/
def Reg.RING.SQ_HEAD : Fld := ⟨0x124, 0, 16, .ro, 0, 1, 4, false⟩
/-- 16 R370 -/
def Reg.RING.CQ_TAIL : Fld := ⟨0x128, 0, 16, .ro, 0, 1, 4, false⟩
/-- 16 R372 -/
def Reg.RING.CQ_HEAD : Fld := ⟨0x12c, 0, 16, .rw, 0, 1, 4, false⟩
/-- 16 R371 -/
def Reg.RING.CHECK_TAIL_REFUSED : Fld := ⟨0x130, 0, 1, .w1c, 0, 1, 4, false⟩
/-- 16 R372 -/
def Reg.RING.CHECK_HEAD_REFUSED : Fld := ⟨0x130, 1, 1, .w1c, 0, 1, 4, false⟩
/-- 16 R370 -/
def Reg.RING.CHECK_CFG_REFUSED : Fld := ⟨0x130, 2, 1, .w1c, 0, 1, 4, false⟩
/-- 16 R374 -/
def Reg.RING.CHECK_READ_ERR : Fld := ⟨0x130, 3, 1, .w1c, 0, 1, 4, false⟩
/-- 16 R374 -/
def Reg.RING.CHECK_WRITE_ERR : Fld := ⟨0x130, 4, 1, .w1c, 0, 1, 4, false⟩
/-- 16 R370 -/
def Reg.RING.OUTSTANDING : Fld := ⟨0x134, 0, 17, .ro, 0, 1, 4, false⟩
/-- The fields of a RING page. -/
def fieldsRING : List Fld :=
  [Reg.RING.CTRL_EN, Reg.RING.CTRL_ABORT, Reg.RING.STATUS_IDLE, Reg.RING.STATUS_STALLED, Reg.RING.STATUS_HELD, Reg.RING.CFG_SQ_SPACE, Reg.RING.CFG_CQ_SPACE, Reg.RING.CFG_SQ_LOG2] ++
  [Reg.RING.CFG_CQ_LOG2, Reg.RING.CFG_VECTOR, Reg.RING.SQ_BASE_LO, Reg.RING.SQ_BASE_HI, Reg.RING.CQ_BASE_LO, Reg.RING.CQ_BASE_HI, Reg.RING.SQ_TAIL, Reg.RING.SQ_HEAD] ++
  [Reg.RING.CQ_TAIL, Reg.RING.CQ_HEAD, Reg.RING.CHECK_TAIL_REFUSED, Reg.RING.CHECK_HEAD_REFUSED, Reg.RING.CHECK_CFG_REFUSED, Reg.RING.CHECK_READ_ERR, Reg.RING.CHECK_WRITE_ERR, Reg.RING.OUTSTANDING]

/-! ### RST -/

/-- 17 R397 -/
def Reg.RST.RESET_CAUSE_POR : Fld := ⟨0x100, 0, 1, .w1c, 1, 1, 4, false⟩
/-- 17 R397 -/
def Reg.RST.RESET_CAUSE_PIN : Fld := ⟨0x100, 1, 1, .w1c, 0, 1, 4, false⟩
/-- 17 R397 -/
def Reg.RST.RESET_CAUSE_LAST_LEVEL : Fld := ⟨0x100, 2, 2, .ro, 0, 1, 4, false⟩
/-- 17 R397 -/
def Reg.RST.CORE_COUNT : Fld := ⟨0x104, 0, 32, .ro, 0, 1, 4, true⟩
/-- 17 R397 -/
def Reg.RST.SYSTEM_COUNT : Fld := ⟨0x108, 0, 32, .ro, 0, 1, 4, true⟩
/-- 17 R398 -/
def Reg.RST.STRAP_CODE : Fld := ⟨0x110, 0, 4, .ro, 15, 1, 4, false⟩
/-- 17 R397 -/
def Reg.RST.STRAP_UNSTABLE : Fld := ⟨0x110, 4, 1, .ro, 0, 1, 4, false⟩
/-- 17 R400 -/
def Reg.RST.STRAP_RESERVED_CODE : Fld := ⟨0x110, 5, 1, .ro, 0, 1, 4, false⟩
/-- 17 R397 -/
def Reg.RST.STRAP_RAW : Fld := ⟨0x114, 0, 8, .ro, 0, 1, 4, false⟩
/-- 17 R401 -/
def Reg.RST.BOOT_STATUS_STEP : Fld := ⟨0x120, 0, 4, .ro, 0, 1, 4, false⟩
/-- 17 R397 -/
def Reg.RST.BOOT_STATUS_READY : Fld := ⟨0x120, 4, 1, .ro, 0, 1, 4, false⟩
/-- 17 R397 -/
def Reg.RST.BOOT_STATUS_SLOT : Fld := ⟨0x120, 5, 1, .ro, 0, 1, 4, false⟩
/-- 17 R405 -/
def Reg.RST.BOOT_STATUS_FALLBACK : Fld := ⟨0x120, 6, 1, .ro, 0, 1, 4, false⟩
/-- 17 R400 -/
def Reg.RST.BOOT_STATUS_RECOVERY : Fld := ⟨0x120, 7, 1, .ro, 0, 1, 4, false⟩
/-- The fields of a RST page. -/
def fieldsRST : List Fld :=
  [Reg.RST.RESET_CAUSE_POR, Reg.RST.RESET_CAUSE_PIN, Reg.RST.RESET_CAUSE_LAST_LEVEL, Reg.RST.CORE_COUNT, Reg.RST.SYSTEM_COUNT, Reg.RST.STRAP_CODE, Reg.RST.STRAP_UNSTABLE, Reg.RST.STRAP_RESERVED_CODE] ++
  [Reg.RST.STRAP_RAW, Reg.RST.BOOT_STATUS_STEP, Reg.RST.BOOT_STATUS_READY, Reg.RST.BOOT_STATUS_SLOT, Reg.RST.BOOT_STATUS_FALLBACK, Reg.RST.BOOT_STATUS_RECOVERY]

/-! ### SEC0 -/

/-- 17 R407 -/
def Reg.SEC0.FUSE_STATE_OWNER_EN : Fld := ⟨0x100, 0, 1, .ro, 0, 1, 4, false⟩
/-- 17 R407 -/
def Reg.SEC0.FUSE_STATE_MFG_CLOSED : Fld := ⟨0x100, 1, 1, .ro, 0, 1, 4, false⟩
/-- 17 R407 -/
def Reg.SEC0.FUSE_STATE_DEBUG_DISABLE : Fld := ⟨0x100, 2, 1, .ro, 0, 1, 4, false⟩
/-- 17 R407 -/
def Reg.SEC0.FUSE_STATE_ORDERING : Fld := ⟨0x100, 3, 1, .ro, 0, 1, 4, false⟩
/-- 17 R407 -/
def Reg.SEC0.FUSE_STATE_ROLLBACK : Fld := ⟨0x100, 8, 7, .ro, 0, 1, 4, false⟩
/-- 17 R407 -/
def Reg.SEC0.IMAGE_VERSION : Fld := ⟨0x104, 0, 32, .ro, 0, 1, 4, false⟩
/-- 17 R407 -/
def Reg.SEC0.IMAGE_ROLLBACK : Fld := ⟨0x108, 0, 7, .ro, 0, 1, 4, false⟩
/-- 17 R407 -/
def Reg.SEC0.ROLLBACK_COMMIT : Fld := ⟨0x10c, 0, 1, .wo, 0, 1, 4, false⟩
/-- 17 R407 -/
def Reg.SEC0.SERIAL_LO : Fld := ⟨0x110, 0, 32, .ro, 0, 1, 8, false⟩
/-- 17 R407 -/
def Reg.SEC0.SERIAL_HI : Fld := ⟨0x114, 0, 32, .ro, 0, 1, 8, false⟩
/-- 17 R402 -/
def Reg.SEC0.HOST_IMG_ADDR_LO : Fld := ⟨0x120, 0, 32, .rw, 0, 1, 8, false⟩
/-- 17 R402 -/
def Reg.SEC0.HOST_IMG_ADDR_HI : Fld := ⟨0x124, 0, 32, .rw, 0, 1, 8, false⟩
/-- 17 R407 -/
def Reg.SEC0.HOST_IMG_SIZE : Fld := ⟨0x128, 0, 23, .rw, 0, 1, 4, false⟩
/-- 17 R407 -/
def Reg.SEC0.HOST_IMG_CTRL_GO : Fld := ⟨0x12c, 0, 1, .wo, 0, 1, 4, false⟩
/-- 17 R407 -/
def Reg.SEC0.HOST_IMG_CTRL_DONE : Fld := ⟨0x12c, 1, 1, .ro, 0, 1, 4, false⟩
/-- 17 R407 -/
def Reg.SEC0.HOST_IMG_CTRL_ERR : Fld := ⟨0x12c, 2, 1, .w1c, 0, 1, 4, false⟩
/-- 17 R407 -/
def Reg.SEC0.MEAS : Fld := ⟨0x200, 0, 32, .ro, 0, 128, 4, false⟩
/-- 17 R407 -/
def Reg.SEC0.DBG_CHALLENGE : Fld := ⟨0x400, 0, 32, .ro, 0, 4, 4, false⟩
/-- 17 R413 -/
def Reg.SEC0.DBG_STATUS_UNLOCKED : Fld := ⟨0x410, 0, 1, .ro, 0, 1, 4, false⟩
/-- 17 R407 -/
def Reg.SEC0.DBG_STATUS_SCOPE : Fld := ⟨0x410, 1, 3, .ro, 0, 1, 4, false⟩
/-- 17 R407 -/
def Reg.SEC0.DBG_STATUS_FAILS : Fld := ⟨0x410, 4, 4, .ro, 0, 1, 4, false⟩
/-- 17 R407 -/
def Reg.SEC0.DBG_RELOCK : Fld := ⟨0x414, 0, 1, .wo, 0, 1, 4, false⟩
/-- 17 R407 -/
def Reg.SEC0.DBG_TOKEN : Fld := ⟨0x800, 0, 32, .wo, 0, 328, 4, false⟩
/-- The fields of a SEC0 page. -/
def fieldsSEC0 : List Fld :=
  [Reg.SEC0.FUSE_STATE_OWNER_EN, Reg.SEC0.FUSE_STATE_MFG_CLOSED, Reg.SEC0.FUSE_STATE_DEBUG_DISABLE, Reg.SEC0.FUSE_STATE_ORDERING, Reg.SEC0.FUSE_STATE_ROLLBACK, Reg.SEC0.IMAGE_VERSION, Reg.SEC0.IMAGE_ROLLBACK, Reg.SEC0.ROLLBACK_COMMIT] ++
  [Reg.SEC0.SERIAL_LO, Reg.SEC0.SERIAL_HI, Reg.SEC0.HOST_IMG_ADDR_LO, Reg.SEC0.HOST_IMG_ADDR_HI, Reg.SEC0.HOST_IMG_SIZE, Reg.SEC0.HOST_IMG_CTRL_GO, Reg.SEC0.HOST_IMG_CTRL_DONE, Reg.SEC0.HOST_IMG_CTRL_ERR] ++
  [Reg.SEC0.MEAS, Reg.SEC0.DBG_CHALLENGE, Reg.SEC0.DBG_STATUS_UNLOCKED, Reg.SEC0.DBG_STATUS_SCOPE, Reg.SEC0.DBG_STATUS_FAILS, Reg.SEC0.DBG_RELOCK, Reg.SEC0.DBG_TOKEN]

/-! ### PWR -/

/-- 18 R422 -/
def Reg.PWR.LEVEL : Fld := ⟨0x100, 0, 32, .ro, 0, 8, 4, false⟩
/-- 18 R422 -/
def Reg.PWR.CAP_C : Fld := ⟨0x120, 0, 4, .ro, 0, 1, 4, false⟩
/-- 18 R422 -/
def Reg.PWR.CAP_FAST : Fld := ⟨0x120, 4, 1, .ro, 0, 1, 4, false⟩
/-- 18 R422 -/
def Reg.PWR.FLOOR : Fld := ⟨0x124, 0, 16, .rw, 0, 1, 4, false⟩
/-- 18 R423 -/
def Reg.PWR.SOFT_CAP : Fld := ⟨0x128, 0, 12, .rw, 2400, 1, 4, false⟩
/-- 18 R422 -/
def Reg.PWR.BUCKET_IN : Fld := ⟨0x12c, 0, 16, .ro, 0, 1, 4, false⟩
/-- 18 R422 -/
def Reg.PWR.BUCKET_DIE : Fld := ⟨0x130, 0, 16, .ro, 0, 1, 4, false⟩
/-- 18 R422 -/
def Reg.PWR.PWR_CHECK_CAP_ACTIVE : Fld := ⟨0x134, 0, 1, .w1c, 0, 1, 4, false⟩
/-- 18 R423 -/
def Reg.PWR.PWR_CHECK_CAP_REFUSED : Fld := ⟨0x134, 1, 1, .w1c, 0, 1, 4, false⟩
/-- 18 R422 -/
def Reg.PWR.PWR_CHECK_DIE_WARN : Fld := ⟨0x134, 2, 1, .w1c, 0, 1, 4, false⟩
/-- 18 R422 -/
def Reg.PWR.PWR_CHECK_DIE_CRIT : Fld := ⟨0x134, 3, 1, .w1c, 0, 1, 4, false⟩
/-- 18 R422 -/
def Reg.PWR.PWR_CHECK_RAIL : Fld := ⟨0x134, 4, 1, .w1c, 0, 1, 4, false⟩
/-- 18 R416 -/
def Reg.PWR.PWR_CHECK_REFCLK : Fld := ⟨0x134, 5, 1, .w1c, 0, 1, 4, false⟩
/-- 18 R422 -/
def Reg.PWR.CAP_COUNT : Fld := ⟨0x138, 0, 32, .ro, 0, 1, 4, false⟩
/-- 18 R422 -/
def Reg.PWR.RAIL_COUNT : Fld := ⟨0x13c, 0, 32, .ro, 0, 1, 4, false⟩
/-- The fields of a PWR page. -/
def fieldsPWR : List Fld :=
  [Reg.PWR.LEVEL, Reg.PWR.CAP_C, Reg.PWR.CAP_FAST, Reg.PWR.FLOOR, Reg.PWR.SOFT_CAP, Reg.PWR.BUCKET_IN, Reg.PWR.BUCKET_DIE, Reg.PWR.PWR_CHECK_CAP_ACTIVE] ++
  [Reg.PWR.PWR_CHECK_CAP_REFUSED, Reg.PWR.PWR_CHECK_DIE_WARN, Reg.PWR.PWR_CHECK_DIE_CRIT, Reg.PWR.PWR_CHECK_RAIL, Reg.PWR.PWR_CHECK_REFCLK, Reg.PWR.CAP_COUNT, Reg.PWR.RAIL_COUNT]

/-! ### TLM -/

/-- 18 R425 -/
def Reg.TLM.SNAP : Fld := ⟨0x100, 0, 1, .wo, 0, 1, 4, false⟩
/-- 18 R425 -/
def Reg.TLM.P_IN : Fld := ⟨0x104, 0, 16, .ro, 0, 1, 4, false⟩
/-- 18 R425 -/
def Reg.TLM.P_DIE : Fld := ⟨0x108, 0, 16, .ro, 0, 1, 4, false⟩
/-- 18 R425 -/
def Reg.TLM.P_HBM : Fld := ⟨0x10c, 0, 16, .ro, 0, 1, 4, false⟩
/-- 18 R425 -/
def Reg.TLM.DIE_TEMP : Fld := ⟨0x110, 0, 32, .ro, 0, 24, 4, false⟩
/-- 18 R425 -/
def Reg.TLM.STACK_TEMP : Fld := ⟨0x170, 0, 32, .ro, 0, 3, 4, false⟩
/-- 18 R425 -/
def Reg.TLM.DIE_MAX : Fld := ⟨0x180, 0, 8, .ro, 0, 1, 4, false⟩
/-- 18 R425 -/
def Reg.TLM.DIE_MAX_CLEAR : Fld := ⟨0x184, 0, 1, .wo, 0, 1, 4, false⟩
/-- 18 R425 -/
def Reg.TLM.RAIL_V : Fld := ⟨0x200, 0, 16, .ro, 0, 24, 8, false⟩
/-- 18 R425 -/
def Reg.TLM.RAIL_I : Fld := ⟨0x204, 0, 16, .ro, 0, 24, 8, false⟩
/-- The fields of a TLM page. -/
def fieldsTLM : List Fld :=
  [Reg.TLM.SNAP, Reg.TLM.P_IN, Reg.TLM.P_DIE, Reg.TLM.P_HBM, Reg.TLM.DIE_TEMP, Reg.TLM.STACK_TEMP, Reg.TLM.DIE_MAX, Reg.TLM.DIE_MAX_CLEAR] ++
  [Reg.TLM.RAIL_V, Reg.TLM.RAIL_I]

/-! ### MOD0 -/

/-- 19 R435 -/
def Reg.MOD0.PART : Fld := ⟨0x100, 0, 16, .ro, 0, 1, 4, false⟩
/-- 19 R435 -/
def Reg.MOD0.STEPPING_MINOR : Fld := ⟨0x104, 0, 4, .ro, 0, 1, 4, false⟩
/-- 19 R435 -/
def Reg.MOD0.STEPPING_MAJOR : Fld := ⟨0x104, 4, 4, .ro, 0, 1, 4, false⟩
/-- 19 R435 -/
def Reg.MOD0.CONFIG_ORDERING : Fld := ⟨0x108, 0, 1, .ro, 0, 1, 4, false⟩
/-- 19 R338 -/
def Reg.MOD0.CONFIG_ACTIVE_STACKS : Fld := ⟨0x108, 1, 4, .ro, 0, 1, 4, false⟩
/-- 19 R435 -/
def Reg.MOD0.CONFIG_RETIRED_STACK : Fld := ⟨0x108, 8, 8, .ro, 0, 1, 4, false⟩
/-- 19 R435 -/
def Reg.MOD0.CONFIG_HBM_GB : Fld := ⟨0x108, 16, 16, .ro, 0, 1, 4, false⟩
/-- 19 R435 -/
def Reg.MOD0.PISTES : Fld := ⟨0x10c, 0, 7, .ro, 0, 1, 4, false⟩
/-- 19 R13 -/
def Reg.MOD0.ISLANDS : Fld := ⟨0x110, 0, 10, .ro, 0, 1, 4, false⟩
/-- The fields of a MOD0 page. -/
def fieldsMOD0 : List Fld :=
  [Reg.MOD0.PART, Reg.MOD0.STEPPING_MINOR, Reg.MOD0.STEPPING_MAJOR, Reg.MOD0.CONFIG_ORDERING, Reg.MOD0.CONFIG_ACTIVE_STACKS, Reg.MOD0.CONFIG_RETIRED_STACK, Reg.MOD0.CONFIG_HBM_GB, Reg.MOD0.PISTES] ++
  [Reg.MOD0.ISLANDS]

/-! ### DBG -/

/-- 19 R400 -/
def Reg.DBG.HOLD_HELD : Fld := ⟨0x100, 0, 1, .ro, 0, 1, 4, false⟩
/-- 19 R437 -/
def Reg.DBG.HOLD_HOLD_CONTINUE : Fld := ⟨0x100, 1, 1, .wo, 0, 1, 4, false⟩
/-- 19 R437 -/
def Reg.DBG.CP_HALT_HALT : Fld := ⟨0x104, 0, 4, .rw, 0, 1, 4, false⟩
/-- 19 R437 -/
def Reg.DBG.CP_STEP_STEP : Fld := ⟨0x108, 0, 4, .wo, 0, 1, 4, false⟩
/-- 19 R437 -/
def Reg.DBG.CP_STATE_HALTED : Fld := ⟨0x10c, 0, 4, .ro, 0, 1, 4, false⟩
/-- 19 R437 -/
def Reg.DBG.CP_PC_LO : Fld := ⟨0x110, 0, 32, .ro, 0, 4, 8, false⟩
/-- 19 R437 -/
def Reg.DBG.CP_PC_HI : Fld := ⟨0x114, 0, 32, .ro, 0, 4, 8, false⟩
/-- The fields of a DBG page. -/
def fieldsDBG : List Fld :=
  [Reg.DBG.HOLD_HELD, Reg.DBG.HOLD_HOLD_CONTINUE, Reg.DBG.CP_HALT_HALT, Reg.DBG.CP_STEP_STEP, Reg.DBG.CP_STATE_HALTED, Reg.DBG.CP_PC_LO, Reg.DBG.CP_PC_HI]

end Sys2Proof.Machine
end

