-- ==== Sys2Proof/Machine/SMap.lean ====
section
/-! DEFINITION. Sparse maps in one canonical form: keys strictly rising, no entry equal to what an unlisted key reads as.
Memories, the register file and every numbered piece of state are held this way, so equal contents are equal data. -/

namespace Sys2Proof.Machine

/-- Key and value pairs, in canonical form (`SMap.Canon`). -/
abbrev SMap (α : Type) := List (Nat × α)

/-- What a key reads as: its entry, or `d` of the key where it has none. -/
def smGet {α : Type} (d : Nat → α) : SMap α → Nat → α
  | [], k => d k
  | (j, v) :: r, k => if j = k then v else smGet d r k

/-- The entry placed before the first larger key. -/
def smInsert {α : Type} (k : Nat) (v : α) : SMap α → SMap α
  | [] => [(k, v)]
  | (j, w) :: r => if k < j then (k, v) :: (j, w) :: r else (j, w) :: smInsert k v r

/-- The map without key `k`. -/
def smErase {α : Type} (k : Nat) (m : SMap α) : SMap α := m.filter (fun e => e.1 != k)

/-- The map with key `k` reading as `v`; a value equal to the default leaves no entry. -/
def smSet {α : Type} [DecidableEq α] (d : Nat → α) (m : SMap α) (k : Nat) (v : α) : SMap α :=
  if v = d k then smErase k m else smInsert k v (smErase k m)

/-- The canonical form: keys strictly rising and no entry equal to the default of its key. -/
abbrev SMapCanon {α : Type} (d : Nat → α) (m : SMap α) : Prop :=
  List.Pairwise (fun x y => x.1 < y.1) m ∧ ∀ e ∈ m, e.2 ≠ d e.1

/-- Consecutive keys from `k` written in turn with the values of a list. -/
def smSetList {α : Type} [DecidableEq α] (d : Nat → α) (m : SMap α) (k : Nat) : List α → SMap α
  | [] => m
  | v :: r => smSetList d (smSet d m k v) (k + 1) r

/-- The values of `n` consecutive keys from `k`. -/
def smList {α : Type} (d : Nat → α) (m : SMap α) (k n : Nat) : List α :=
  (List.range n).map fun i => smGet d m (k + i)

/-- The map without the keys that `p` holds of. -/
def smDrop {α : Type} (p : Nat → Bool) (m : SMap α) : SMap α := m.filter (fun e => !p e.1)

end Sys2Proof.Machine
end

