-- ==== Sys2Proof/Machine/Pages.lean ====
section
/-! DEFINITION. The pages of BAR0: where each lies, its type and instance codes, the island that serves it, its fields, and what a
register word reads as after power-on reset (19_register_map.md R426 to R428, 16_host_interface_and_control.md R384). -/

namespace Sys2Proof.Machine

/-- A page of BAR0 with its instance. -/
inductive Page where
  | mod (k : Nat) | rst | pwr | sec (k : Nat) | mbx (k : Nat) | syn (k : Nat) | bar (k : Nat) | hif | ring (r : Nat)
  | stk (s : Nat) | bnd (p : Nat) | tlm | mode | gns | rgn (k : Nat) | pst (p : Nat) | gate (p g : Nat) | frn (p : Nat) | dbg
  deriving DecidableEq, Repr

/-- The BAR0 byte offset of a page (R426, R427). -/
def pageBase : Page → Nat
  | .mod k => 0x1000 * k
  | .rst => 0x10000
  | .pwr => 0x11000
  | .sec k => 0x20000 + 0x1000 * k
  | .mbx k => 0x40000 + 0x1000 * k
  | .syn k => 0x80000 + 0x1000 * k
  | .bar k => 0xC0000 + 0x1000 * k
  | .hif => 0x100000
  | .ring r => 0x101000 + 0x1000 * r
  | .stk s => 0x200000 + 0x10000 * s
  | .bnd p => 0x400000 + 0x10000 * p
  | .tlm => 0x800000
  | .mode => 0x810000
  | .gns => 0x820000
  | .rgn k => 0x830000 + 0x1000 * k
  | .pst p => 0x1000000 + 0x40000 * p
  | .gate p g => 0x1000000 + 0x40000 * p + 0x1000 * (g + 1)
  | .frn p => 0x1000000 + 0x40000 * p + 0xD000
  | .dbg => 0x2000000

/-- The page a 4 KB frame of a piste block holds (R427). -/
def pisteFrame (p f : Nat) : Option Page :=
  if f = 0 then some (.pst p)
  else if f ≤ 12 then some (.gate p (f - 1))
  else if f = 13 then some (.frn p)
  else none

/-- One of `n` pages at `base` with `stride` frames between them, from a frame number. -/
def pageRow (frame base stride n : Nat) (mk : Nat → Page) : Option Page :=
  if base ≤ frame ∧ frame < base + stride * n ∧ (frame - base) % stride = 0 then some (mk ((frame - base) / stride)) else none

/-- The page that holds a BAR0 byte offset; none where R426 and R427 assign nothing (R428). -/
def pageAt (a : Nat) : Option Page :=
  let f := a / 4096
  if 0x1000 ≤ f ∧ f < 0x2000 then pisteFrame ((f - 0x1000) / 64) ((f - 0x1000) % 64)
  else if f = 0x2000 then some .dbg
  else if f < 0x100 then
    (pageRow f 0 1 5 .mod).orElse fun _ => (pageRow f 0x10 1 1 fun _ => .rst).orElse fun _ => (pageRow f 0x11 1 1 fun _ => .pwr).orElse fun _ =>
    (pageRow f 0x20 1 3 .sec).orElse fun _ => (pageRow f 0x40 1 2 .mbx).orElse fun _ => (pageRow f 0x80 1 19 .syn).orElse fun _ =>
    pageRow f 0xC0 1 2 .bar
  else
    (pageRow f 0x100 1 1 fun _ => .hif).orElse fun _ => (pageRow f 0x101 1 64 .ring).orElse fun _ => (pageRow f 0x200 16 12 .stk).orElse fun _ =>
    (pageRow f 0x400 16 8 .bnd).orElse fun _ => (pageRow f 0x800 1 1 fun _ => .tlm).orElse fun _ => (pageRow f 0x810 1 1 fun _ => .mode).orElse fun _ =>
    (pageRow f 0x820 1 1 fun _ => .gns).orElse fun _ => pageRow f 0x830 1 2 .rgn

/-- The piste and byte offset of a map window address (R436); none elsewhere. -/
def mapWindowAt (a : Nat) : Option (Nat × Nat) :=
  if 0x1000000 ≤ a ∧ a < 0x2000000 ∧ bits a 16 2 = 1 then some ((a - 0x1000000) / 0x40000, a % 0x10000) else none

/-- PAGE_ID.TYPE (R384). -/
def pageType : Page → Nat
  | .mod _ => 0x01 | .rst => 0x02 | .pwr => 0x03 | .sec _ => 0x04 | .mbx _ => 0x05 | .syn _ => 0x06 | .bar _ => 0x07 | .hif => 0x08
  | .ring _ => 0x09 | .stk _ => 0x0A | .bnd _ => 0x0B | .tlm => 0x0C | .mode => 0x0D | .gns => 0x0E | .rgn _ => 0x0F | .pst _ => 0x10
  | .gate _ _ => 0x11 | .frn _ => 0x12 | .dbg => 0x13

/-- PAGE_ID.INSTANCE (R428). -/
def pageInstance : Page → Nat
  | .mod k => k | .sec k => k | .mbx k => k | .syn k => k | .bar k => k | .ring r => r | .stk s => s | .bnd p => p | .rgn k => k
  | .pst p => p | .gate p g => 12 * p + g | .frn p => p | .rst => 0 | .pwr => 0 | .hif => 0 | .tlm => 0 | .mode => 0 | .gns => 0 | .dbg => 0

/-- The island that serves a page (R426, R427). -/
def pageIsland : Page → Nat
  | .mod 3 => 852 | .mod _ => 853 | .rst => 853 | .pwr => 853 | .sec _ => 853 | .mbx _ => 853 | .syn _ => 852 | .bar _ => 852
  | .hif => 851 | .ring _ => 851 | .stk s => 832 + s | .bnd 7 => 852 | .bnd p => 844 + p | .tlm => 853 | .mode => 852 | .gns => 852
  | .rgn _ => 852 | .pst p => 768 + p | .gate p g => 12 * p + g | .frn p => 768 + p | .dbg => 853

/-- The kinds of gate by index (R23): 0 G, 1 M, 2 A, 3 V, 4 X. -/
def gateKind (g : Nat) : Nat :=
  if g = 0 then 0 else if g = 2 ∨ g = 6 then 2 else if g = 4 ∨ g = 7 ∨ g = 9 then 3 else if g = 11 then 4 else 1

/-- Gate index of M-gate m (R23). -/
def mGate (m : Fin 5) : Nat := nth [1, 3, 5, 8, 10] m.val 0
/-- Gate index of A-gate a (R23). -/
def aGate (a : Fin 2) : Nat := nth [2, 6] a.val 0
/-- Gate index of V-gate v (R23). -/
def vGate (v : Fin 3) : Nat := nth [4, 7, 9] v.val 0

/-- The block registers of a page, without the common layout. -/
def blockFields : Page → List Fld
  | .mod 0 => fieldsMOD0 | .mod 1 => fieldsMOD1 | .mod 2 => fieldsMOD2 | .mod 3 => fieldsMOD3 | .mod 4 => fieldsMOD4
  | .mod _ => []
  | .rst => fieldsRST | .pwr => fieldsPWR | .sec 0 => fieldsSEC0 | .sec _ => []
  | .mbx 0 => fieldsMBX0 | .mbx _ => fieldsMBX1
  | .syn 16 => fieldsSYN16 | .syn 17 => fieldsSYN17 | .syn 18 => fieldsSYN18 | .syn _ => fieldsSYN
  | .bar _ => fieldsBAR | .hif => fieldsHIF | .ring _ => fieldsRING | .stk _ => fieldsSTK
  | .bnd 7 => fieldsBND7 | .bnd _ => fieldsBND | .tlm => fieldsTLM | .mode => fieldsMODE | .gns => fieldsGNS
  | .rgn 0 => fieldsRGN0 ++ fieldsRGNE | .rgn _ => fieldsRGN1 ++ fieldsRGNE
  | .pst _ => fieldsPST
  | .gate _ g => fieldsGATE ++
      (if g = 0 then fieldsGATEG else if g = 11 then fieldsGATEX else if gateKind g = 2 then fieldsGATEA
       else if gateKind g = 3 then fieldsGATEV else fieldsGATEM)
  | .frn _ => fieldsFRN | .dbg => fieldsDBG

/-- Whether a field has an instance in the word at page offset `o`. -/
def fldIn (f : Fld) (o : Nat) : Bool := f.off ≤ o && (o - f.off) % f.stride == 0 && (o - f.off) / f.stride < f.cnt

/-- The fields in the word at page offset `o`: block registers from 0x100, the common layout below (R384). EVENT and EVENT_ENABLE
of `MBX[0]` are 32 bits wide (R429). -/
def wordFields (pg : Page) (o : Nat) : List Fld :=
  if o < 0x100 then
    (fieldsCOMMON.filter (fldIn · o)).map fun f =>
      if pg = .mbx 0 ∧ (f = Reg.COMMON.EVENT ∨ f = Reg.COMMON.EVENT_ENABLE) then { f with w := 32 } else f
  else (blockFields pg).filter (fldIn · o)

/-- Reset values that depend on the instance: PAGE_ID (R384, R428), `RING.CFG.VECTOR` (R370), `BND.DETOUR` (R298). -/
def specialReset (pg : Page) (o : Nat) : Nat :=
  if o = 0 then pageType pg + 256 * pageInstance pg
  else match pg with
    | .ring r => if o = 0x108 then (4 + r % 60) * 2 ^ 12 else 0
    | .bnd p => if o = 0x10C ∧ p < 6 then (if p < 2 then 2 else if p < 4 then 4 else 0) + 8 else 0
    | _ => 0

/-- What a word of the register file reads as after power-on reset: the field tables' reset values. -/
def regReset (a : Nat) : Word :=
  match pageAt a with
  | none => 0
  | some pg =>
    let o := a % 4096
    BitVec.ofNat 32 ((wordFields pg o).foldl (fun v f => v + f.rst % 2 ^ f.w * 2 ^ f.lo) 0 + specialReset pg o)

end Sys2Proof.Machine
end

