-- ==== Sys2Proof/Machine/State.lean ====
section
/-! DEFINITION. The state of the module: the register file, the memories, the counters, queues, rings, links and units the spec names, and
the queue of waiting commands. Plain data throughout; numbered state is held in sparse maps in canonical form. -/

namespace Sys2Proof.Machine

open Sys2Proof

/-- An item of a fault record's detail: a value of one 32-bit word, or of two (R453). -/
structure Item where
  v : Nat
  wide : Bool
  deriving DecidableEq, Repr

/-- A fault record as its source makes it (R346): the fixed fields and every named item. `uid` is the model's own number of the record, by
which a completion finds the record that explains it. -/
structure FaultRec where
  code : Nat
  cls : Nat
  sev : Nat
  island : Nat
  iter : Nat
  leg : Nat
  unit : Nat
  items : List Item
  uid : Nat
  deriving DecidableEq, Repr

/-- An entry of the fault record ring (R346, R347). `live` marks the summary of its class in the present FULL period; `first`, `last`, `count`
and `lastCode` are a summary's words 4 to 7. -/
structure Entry where
  frec : FaultRec
  seq : Nat
  dropped : Nat
  live : Bool
  first : Nat
  last : Nat
  count : Nat
  lastCode : Nat
  deriving DecidableEq, Repr

/-- The fault record ring (R347): entries held, oldest first; the index of the oldest; the next SEQ; FULL; and words already written at
ring places that FR_SELECT may still show. -/
structure FaultRing where
  held : List Entry
  tail : Nat
  seq : Nat
  full : Bool
  deriving DecidableEq, Repr

/-- A source's queue for the collector (R347): at most two records, each with its DROPPED_BEFORE, and the records dropped since. -/
structure SrcQueue where
  recs : List (FaultRec × Nat)
  dropped : Nat
  deriving DecidableEq, Repr

/-- A trace waiting in the trace unit (R349), whose detail the spec leaves open. -/
structure Trace where
  kind : Nat
  island : Nat
  seq : Nat
  deriving DecidableEq, Repr

/-- A log entry firmware has still to write (R348): a copy of a fault record, or an entry of its own, whose content the spec leaves to firmware. -/
inductive LogItem where
  | copy (e : Entry)
  | own
  deriving DecidableEq, Repr

/-- The paths of incident records ahead of the ring (R344 to R349). -/
structure RecSt where
  srcQ : SMap SrcQueue
  alarmPend : SMap Nat
  nextUid : Nat
  logQ : List LogItem
  traceQ : List Trace
  traceSeq : Nat
  lost : Nat
  firstLost : Nat
  deriving DecidableEq, Repr

/-- A registered wait (R255): a counter or a local event of a piste, the target, the waiter (R256), and the limit firmware set for a wait of its own. -/
structure WaitRec where
  localOf : Option Nat
  counter : Nat
  target : Nat
  island : Nat
  queue : Nat
  cmd : Option Nat
  limit : Nat := 0
  deriving DecidableEq, Repr

/-- A SIGNAL on its way to the counter block (R252), with the run or command that a fault of R262 or R265 ends. -/
structure SigRec where
  counter : Nat
  amount : Nat
  round : Nat
  src : Source
  run : Option Nat
  cmd : Option Nat
  leg : Nat
  deriving DecidableEq, Repr

/-- Waits, local events (key piste x 256 + event), SIGNALs on their way, and gated gate islands (R251 to R258). -/
structure SyncSt where
  events : SMap Nat
  waits : List WaitRec
  sigQ : List SigRec
  gated : SMap Bool
  deriving DecidableEq, Repr

/-- A map load that a piste has still to take (R37): the command, the first slot and the image. -/
structure Load where
  cmd : Option Nat
  order : Nat
  slot : Nat
  image : List Byte
  deriving DecidableEq, Repr

/-- A spare-column mapping waiting for the run boundary (R97): M-gate index, array, column, spare. -/
structure Repair where
  gate : Nat
  arr : Nat
  col : Nat
  spare : Nat
  deriving DecidableEq, Repr

/-- A piste control block beside its registers: the run in progress or waited for, pending loads and repairs, the region table applied, the
published version applied per weight set, the mode word and job seed in force, and whether a fault is ending the run. -/
structure PisteSt where
  run : Option Nat
  waiting : Option Nat
  loads : List Load
  repairs : List Repair
  applied : SMap (BitVec 128)
  versions : SMap Nat
  word : Nat
  seed : Nat
  footScratch : Nat
  footHbm : List (Nat × Nat × Nat)
  failed : Bool
  deriving DecidableEq, Repr

/-- A gate beside its registers: its next leg, whether that leg's wait has been found satisfied, its tile base and the tiles flagged in
its run (R81); the entries of its upstream
FIFO, each 32 words of 32 bits (R15); the entries that the leg it stands at has taken from there, and how many it still waits for; the entries of
that leg's result that have found no place downstream, and whether the leg has been carried out and is not complete; the run's inspection misses,
with leg, tile and block of the first (R215); where the free words of a V-gate's cache bytes begin that this run has not written (R137); what its
storage holds, by the numbers of `planeKey`, `accKey` and `tileKey`, nothing listed being zeros (R84, R126, R146); and whether its present leg has
recorded an index out of range (R175) or a cold update (R194). DESIGN CHOICE: R394 leaves data SRAM undefined after a reset, and the planes,
accumulators and tile registers hold zeros then (log entry 108). -/
structure GateSt where
  next : Nat
  waitOk : Bool
  tiles : Nat
  flagged : List Nat
  up : List (List Nat)
  took : List (List Nat)
  need : Nat
  held : List (List Nat)
  busy : Bool
  misses : Nat
  firstMiss : Option (Nat × Nat × Nat)
  cacheBase : Nat
  store : SMap (List (List Nat))
  rangeSeen : Bool
  coldSeen : Bool
  deriving DecidableEq, Repr

/-- One entry of a drift accumulator (R172, R183): its row key, 32 lanes as I32 codes (none for an invalid entry), whether its lanes leave as NaR
(R186, R331), and when it was last updated. -/
structure DriftEntry where
  key : Nat
  lanes : List Nat
  poison : Bool
  ecc : Bool := false
  elem : Nat := 0
  age : Nat
  deriving DecidableEq, Repr

/-- A rotary table as ROPE_LOAD takes it (R155): frequencies and the step codes. -/
structure RopeTable where
  pairs : Nat
  data : List Int
  deriving DecidableEq, Repr

/-- A reduce channel of an X-gate (R312): per arrival set its tag and contributor bits; the run waiting on it. -/
structure ChanSt where
  tags : List (Option Nat)
  marks : List Nat
  waiting : Option Nat
  expired : Bool
  deriving DecidableEq, Repr

/-- A write an output forerunner has still to perform (R234): the leg's operand, its location, address, bytes, whether they are
poison, and whether it stands in its staging ring or waits in the gate for room there. -/
structure StagedWrite where
  piste : Nat
  gate : Nat
  leg : Nat
  operand : Nat
  loc : Nat
  node : Nat
  cls : Nat
  addr : Nat
  bytes : List Byte
  poison : Bool
  inRing : Bool := false
  deriving DecidableEq, Repr

/-- Bytes that a leg will read as they were fetched for it (R234, R294): the leg, the location (as a region's LOC) with node and SPACE of a peer's,
the address, the bytes, and whether they came poisoned. -/
structure Fetched where
  piste : Nat
  gate : Nat
  leg : Nat
  loc : Nat
  node : Nat
  space : Nat
  addr : Nat
  bytes : List Byte
  poison : Bool
  deriving DecidableEq, Repr

/-- A leg whose SIGNAL is due once its writes are accepted (R29). -/
structure SignalDue where
  piste : Nat
  gate : Nat
  leg : Nat
  sync : Nat
  deriving DecidableEq, Repr

/-- An arrival mark that a leg sends once its PARTIALs are acknowledged (R311). -/
structure MarkDue where
  piste : Nat
  gate : Nat
  leg : Nat
  msg : Msg
  deriving DecidableEq, Repr

/-- A mode epoch with the mode word and seed it captured (R53, R79). -/
structure ModeSt where
  cmd : Nat
  word : Nat
  seed : Nat
  deriving DecidableEq, Repr

/-- A LAYOUT_CHANGE in progress (R324): its command, epoch, the acceptance order it fences, its relayout run (slot, mask, ITERATION) and
whether that run has started, or the command has been completed by a stall. -/
structure LayoutChange where
  cmd : Nat
  epoch : Nat
  order : Nat
  relayout : Option (Nat × Nat × Nat)
  run : Option Nat
  reported : Bool
  deriving DecidableEq, Repr

/-- The layout epochs (R323): commanded, applied, and the change in progress. -/
structure LayoutSt where
  cmd : Nat
  applied : Nat
  pend : Option LayoutChange
  deriving DecidableEq, Repr

/-- A run (R50 to R54): its command, acceptance order, whole mask, pistes still to report, slot, required epoch, ITERATION, the pistes standing
at their boundary, the fixed epoch, whether it has started, and the first failure; the layout epoch of its maps (R323); the run a replay run
serves, and how many replays a run has had (R318). -/
structure RunRec where
  id : Nat
  cmd : Option Nat
  order : Nat
  mask : Nat
  left : Nat
  slot : Nat
  epoch : Nat
  layout : Nat
  iter : Nat
  atBoundary : Nat
  fixed : Option Nat
  started : Bool
  status : Nat
  island : Nat
  leg : Nat
  recUid : Option Nat
  replay : Bool
  relayout : Bool
  replays : Nat
  held : Option Nat
  deriving DecidableEq, Repr

/-- Runs accepted and not completed, in acceptance order. -/
structure RunSt where
  runs : List RunRec
  nextId : Nat
  topIter : Option Nat
  deriving DecidableEq, Repr

/-- The committed region table (R49). -/
structure RgnSt where
  committed : SMap (BitVec 128)
  deriving DecidableEq, Repr

/-- An open granule of an atomic-add unit (R230): its 64 B address, its bytes, and its poison mark. -/
structure Granule where
  addr : Nat
  bytes : List Byte
  poison : Bool
  deriving DecidableEq, Repr

/-- Stacks beside their registers: open granules (least recently used first), rows listed for repair, rows that have returned corrected
errors (row key, word, groomer pass), spare rows used per bank, stacks marked for retirement and retired, atomic residue events. -/
structure StkSt where
  granules : List Granule
  repairList : List (Nat × Nat)
  rowSeen : List (Nat × Nat × Option Nat)
  spareRows : SMap Nat
  retireMark : SMap Bool
  retired : Option Nat
  atomicResidues : SMap Nat
  periodUes : SMap Nat
  noSpare : SMap Bool
  deriving DecidableEq, Repr

/-- The bodies of descriptors (R378). -/
inductive CmdBody where
  | loadMap (addr space slot mask : Nat)
  | run (mask slot epoch iter : Nat)
  | copy (src dst len srcSpace dstSpace : Nat)
  | fill (dst len space : Nat) (pattern : DWord)
  | modeChange (epoch word : Nat)
  | layoutChange (epoch : Nat) (relayout : Bool) (slot mask iter : Nat)
  | snapshotSave (space mask addr len : Nat)
  | snapshotRestore (space mask addr len : Nat)
  | tableMigrate (region table tier row offset newSlot : Nat)
  | fence (scope : Nat)
  | signal (counter round amount : Nat)
  | wait (counter target limit : Nat)
  | flush (off len : Nat)
  deriving DecidableEq, Repr

/-- How far a long command has come in its steps (R383): bytes moved or pistes done; the pistes it was begun for; of a load the image read; and of a restore
the number of streams whose saved counter differed, with the first of them (island, stream, lane, saved and recomputed counter). -/
structure CmdPart where
  moved : Nat := 0
  mask : Nat := 0
  image : List Byte := []
  bad : Nat := 0
  first : List Nat := []
  deriving DecidableEq, Repr

/-- An accepted command (R371): the model's number, acceptance order, ring, descriptor index, TAG, flags, the identity of the doorbell that made
it visible, its body, whether it has started, and how far it has come. -/
structure Cmd where
  id : Nat
  ring : Nat
  index : Nat
  tag : Nat
  ordered : Bool
  irq : Bool
  ident : Ident
  body : Option CmdBody
  started : Bool
  part : CmdPart := {}
  deriving DecidableEq, Repr

/-- A command that has finished and whose completion record is to be written (R372, R381). -/
structure Done where
  cmd : Cmd
  status : Nat
  recUid : Option Nat
  detail : Nat
  deriving DecidableEq, Repr

/-- A table migration in progress (R197): its command, what the copy needs, and the pistes that have passed no boundary since step 3. -/
structure Migration where
  cmd : Nat
  region : Nat
  offset : Nat
  table : Nat
  row : Nat
  tier : Nat
  newSlot : Nat
  busy : List Nat
  deriving DecidableEq, Repr

/-- The host interface beside its registers: accepted and finished commands, the acceptance counter, the ring whose turn is next, doorbell
identities, completion records written and not released per ring and the rings whose PHASE is 0 (R372), migrations, MSI-X messages raised (oldest
first), whether an uncorrectable error in control storage ends every command accepted (R332), the host's HDM decoder (0 not committed, 1
committed, 2 Commit Error, R368), the window's size as the CXL DVSEC range registers report it (R368), the lines of host snoops answered RspIHitI (R364), the
words of the configuration space (R364) and of BAR2 (R366) by number, the MSI-X vectors whose pending bit is set (R366), and what the last CXL.mem read returned, with whether it was marked poisoned (R369). -/
structure HostSt where
  accepted : List Cmd
  finished : List Done
  nextCmd : Nat
  turn : Nat
  doorbell : SMap Nat
  unreleased : SMap Nat
  phaseZero : SMap Bool
  migrations : List Migration
  msix : List Nat
  sramFatal : Bool
  hdmCommit : Nat
  dvsecSize : Nat
  snooped : List Nat
  config : SMap Word
  bar2 : SMap Word
  msixPend : SMap Bool
  memData : List Byte
  memPoison : Bool
  deriving DecidableEq, Repr

/-- A sequenced flit in a replay buffer: its SEQ, its type and its payload; a replay gives it a fresh header (R281, R284). -/
structure TxFlit where
  seq : Nat
  ftype : Nat
  payload : List Byte
  deriving DecidableEq, Repr

/-- A Baond port beside its registers (R278 to R288): the last SEQ accepted, the next SEQ to send, flits sent and not acknowledged, replays
in a row without ACK advancing, a NAK to send and whether the gap has been marked, freed counts per receive pool, credits held and the last
freed count seen per pool of the peer, the pool named next, the class served last for responses and for requests, the message being
received with the flits it has taken, a failed lane whose sparing is asked, the lane whose data this receiver takes from the spare and the SEQ from
which it does, the lane whose stream this transmitter copies onto its spare (R287), whether the receiving spare itself has failed, the
symbols corrected in each lane within its last 2^20 codewords (R286), and whether the peer is READY. -/
structure LinkSt where
  rxSeq : Nat
  txSeq : Nat
  replay : List TxFlit
  replays : Nat
  nakDue : Bool
  gap : Bool
  freed : SMap Nat
  credits : SMap Nat
  seen : SMap Nat
  poolTurn : Nat
  lastResp : Nat
  lastReq : Nat
  partialMsg : Option Msg
  partialFlits : Nat
  pendingLane : Option Nat
  rxSpare : Option Nat
  switchSeq : Option Nat
  txSpare : Option Nat
  spareBad : Bool
  symWin : SMap Nat
  peerReady : Bool
  deriving DecidableEq, Repr

/-- A request tag outstanding (R294): the tag, where it went, its class, the leg whose run a refusal ends with that run, and what it serves: 0 a
leg's write or add, 1 its GET, 2 its PARTIAL, 3 a mail wake, 4 a mirror write, 5 the JOIN of a rejoin; of a GET its SPACE, address and byte count,
and the bytes of it that have come. -/
structure TagRec where
  tag : Nat
  node : Nat
  cls : Nat
  piste : Option Nat
  run : Option Nat
  gate : Nat
  leg : Nat
  purpose : Nat
  space : Nat
  addr : Nat
  len : Nat
  came : Nat
  deriving DecidableEq, Repr

/-- A message received and not yet served (R283): its port (7 for the node itself), the flits of its receive pool it holds, and the message. -/
structure Arrived where
  port : Nat
  flits : Nat
  msg : Msg
  deriving DecidableEq, Repr

/-- The Baond fabric beside its registers: links, messages to send with their port, messages received and not served, flits sent, tags, and requests that wait for a free tag. -/
structure BndSt where
  links : SMap LinkSt
  msgOut : List (Nat × Msg)
  inbox : List Arrived
  flitOut : List (Nat × List Byte)
  tags : List TagRec
  tagWait : List (Msg × TagRec)
  nextTag : Nat
  deriving DecidableEq, Repr

/-- The pins of the module (R438, R352): levels as the module drives or sees them, and whether its regulators are on (R447, R448). -/
structure Pins where
  vsb : Bool
  vin : Bool
  pwrEn : Bool
  regsOn : Bool
  pwrOk : Bool
  rstN : Bool
  refclk : Bool
  pairSense : Bool
  aliveLow : Bool
  thermN : Bool
  smbAlertN : Bool
  deriving DecidableEq, Repr

/-- The power manager and sensors beside their registers (R417 to R425): excess buckets in units of 10^-10 J; evaluations since each meter's last
raise, since the last fall of C, under 95 % of both caps, and since a fast limit acted; per piste the level and the evaluations left before it
may rise again; the rails marked out of their window; per die sensor its contribution, its levels (bit 0 WARN, 1 THROTTLE, 2 CRIT) and the
readings below its exit temperature; the stack contributions; and the measured frequencies in kHz. -/
structure PwrSt where
  bucketIn : Nat
  bucketDie : Nat
  sinceIn : Nat
  sinceDie : Nat
  sinceFall : Nat
  under : Nat
  sinceFast : Nat
  level : SMap Nat
  rise : SMap Nat
  railOut : SMap Bool
  dieContrib : SMap Nat
  dieLevel : SMap Nat
  dieBelow : SMap Nat
  stackContrib : SMap Nat
  freq : SMap Nat
  deriving DecidableEq, Repr

/-- The fuses (R407). -/
structure Fuses where
  vendorKeyHash : List Byte
  ownerKeyHash : List Byte
  ownerEn : Bool
  rollback : Nat
  deviceSecret : List Byte
  serial : Nat
  mfgClosed : Bool
  debugDisable : Bool
  ordering : Bool
  deriving DecidableEq, Repr

/-- How far a reset has come (R391 to R396): running, held in a reset level, waiting for a boot step, or halted. -/
inductive Phase where
  | off | held (level : Nat) | booting | hold | waitHost | ready | halted
  deriving DecidableEq, Repr

/-- Boot and security beside their registers (R393 to R413): the phase, the level of the boot in progress (0 power-on, 1 system), the fuses as boot step 3
last read them into their shadow registers, the digest of the booted image's header, its ROLLBACK, slot and
whether the slot is confirmed, whether firmware has reported ready since system reset, the measurement registers, the debug challenge and
token words, and the seed of the alias key. -/
structure SecSt where
  phase : Phase
  bootLevel : Nat
  shadow : Fuses
  digest : List Byte
  bootRollback : Nat
  fromHost : Bool
  confirmed : Bool
  everReady : Bool
  meas : List (List Byte)
  aliasSeed : List Byte
  hostImage : List Byte
  tokenWords : SMap Word
  deriving DecidableEq, Repr

/-- A capture of the sweep (R340): target piste, gate, step, ITERATION; whether its check is over, and whether the check must be done before the checker
runs again. -/
structure Capture where
  piste : Nat
  gate : Nat
  step : Nat
  iter : Nat
  checked : Bool
  due : Bool
  deriving DecidableEq, Repr

/-- A snapshot in progress (R342): its half of the partner's area, SEQ, the highest ITERATION accepted when the hold began (none before it begins), the copy list's entries as its
start found them (the four words of each, R358), and whether its items have been written. -/
structure SnapSt where
  half : Nat
  seq : Nat
  iter : Option Nat
  listed : List (List Nat)
  written : Bool
  deriving DecidableEq, Repr

/-- Firmware's own state (R52, R318, R336 to R343, R354 to R362): pistes it holds and the reason, the fence waiting for its fallback, captures, the
piste to sample, the gates of a sampling step that its captures found idle, the snapshot in progress, the SEQ of each half of the partner's mirror area as its
header gives them, and the area's base and size, a snapshot that waits for the partner, the live half of a takeover, whether the mirror tap was open, a takeover (1) or rejoin (2) whose pistes are
not yet held, whether the partner is in takeover, the operating time, the repair log, the configuration of counters, pairs, proxies and
barriers that firmware restores after a core reset (R275), whether a fallback load has failed (R337), and the status each of firmware's own waits ended with, by
queue (one more than the status, R259), and the interrupts that doorbells have raised at the cores, oldest first, each a core and its channel (R274). -/
structure FwSt where
  holds : List (Nat × Nat)
  fencing : List Nat
  captures : List Capture
  sampling : Option Nat
  sweepIdle : Nat
  snap : Option SnapSt
  mirSeq0 : Nat
  mirSeq1 : Nat
  partnerBase : Nat
  partnerSize : Nat
  snapshotDue : Bool
  liveHalf : Option Nat
  tapWas : Bool
  pairStep : Nat
  partnerTakeover : Bool
  opTime : Nat
  repairLog : List (Nat × Nat)
  saved : SMap Word
  fallbackFailed : Bool
  waitStatus : SMap Nat
  coreIrq : List (Nat × Nat)
  deriving DecidableEq, Repr

/-- What each identity's port holds for itself (R430), keyed by the code of R269: SIG_SEL, the COUNT high-word latch, MAP_WINDOW (key identity x
64 + piste), the TLM latch (key identity x 4096 + page offset), and the model's response latch (log entry 19). -/
structure PortSt where
  sigSel : SMap Nat
  countLatch : SMap Nat
  mapWindow : SMap Nat
  snapLatch : SMap Word
  snapped : SMap Bool
  response : SMap Nat
  smbOffset : Nat
  mgmtAlert : SMap Bool
  deriving DecidableEq, Repr

/-- The memories, byte by byte, and the poison marks of their words, beats and lines. Keys: HBM and host byte addresses; scratchpad piste x
2^40 + offset; operand cache island x 2^18 + offset; map memory piste x 2^18 + slot x 2^16 + offset; flash offset. Poison keys are the
address divided by 64 (HBM, host) or 128 (scratchpad, cache); `vcacheSet` marks the cache bytes the present run has written (R137); refused and cached host pages are addresses divided by 4,096. -/
structure Mem where
  hbm : SMap Byte
  host : SMap Byte
  scratch : SMap Byte
  vcache : SMap Byte
  mapMem : SMap Byte
  flash : SMap Byte
  hbmPoison : SMap Bool
  hostPoison : SMap Bool
  scratchPoison : SMap Bool
  vcachePoison : SMap Bool
  vcacheSet : SMap Bool
  hostRefused : SMap Bool
  atc : SMap Bool
  deriving DecidableEq, Repr

/-- The gate units that keep state between legs: drift accumulators (key piste x 16384 + set x 8 + way), rotary tables (island), reduce channels
(key piste x 16 + channel), generator positions (key (island x 2 + stream) x 256 + lane), bytes fetched for legs, staged writes, signals due, and the place of each
piste's last path record. -/
structure UnitSt where
  drift : SMap DriftEntry
  driftAge : Nat
  rope : SMap RopeTable
  chans : SMap ChanSt
  genPos : SMap Nat
  fetched : List Fetched
  outStage : List StagedWrite
  signalsDue : List SignalDue
  marksDue : List MarkDue
  pathRec : SMap (Nat × Nat)
  deriving DecidableEq, Repr

/-- The whole module. -/
structure State where
  regs : SMap Word
  mem : Mem
  counts : SMap Nat
  sync : SyncSt
  fr : FaultRing
  recs : RecSt
  pistes : SMap PisteSt
  gates : SMap GateSt
  units : UnitSt
  runs : RunSt
  rgn : RgnSt
  mode : ModeSt
  layout : LayoutSt
  stk : StkSt
  host : HostSt
  bnd : BndSt
  pins : Pins
  pwr : PwrSt
  fuses : Fuses
  sec : SecSt
  fw : FwSt
  ports : PortSt
  freeCount : Nat
  pending : List Instr
  deriving DecidableEq, Repr

/-- Faults of the model. -/
inductive Fault where
  /-- Never raised by a command of the table: every command has an effect the spec gives. Safe. -/
  | none
  deriving DecidableEq, Repr

/-- Refusals of the model. -/
inductive Refusal where
  /-- Raised by `exec` for a command that has no meaning yet. Safe: the machine stops. -/
  | notModelled (mnemonic : String)
  deriving DecidableEq, Repr

/-- A piste control block with nothing queued, under mode word 1 and job seed 0 (R53, R79). -/
def PisteSt.idle : PisteSt :=
  { run := none, waiting := none, loads := [], repairs := [], applied := [], versions := [], word := 1, seed := 0, footScratch := 0,
    footHbm := [], failed := false }

/-- A gate with no leg taken and an empty FIFO. -/
def GateSt.idle : GateSt :=
  { next := 0, waitOk := false, tiles := 0, flagged := [], up := [], took := [], need := 0, held := [], busy := false, misses := 0, firstMiss := none, cacheBase := 0,
    store := [], rangeSeen := false, coldSeen := false }

/-- A free reduce channel (R312). -/
def ChanSt.free : ChanSt :=
  { tags := [none, none, none], marks := [0, 0, 0], waiting := none, expired := false }

/-- A port that is down: no flit accepted or sent. SEQ counts from 0, so the last accepted is 4,095. -/
def LinkSt.down : LinkSt :=
  { rxSeq := 4095, txSeq := 0, replay := [], replays := 0, nakDue := false, gap := false, freed := [], credits := [], seen := [], poolTurn := 0,
    lastResp := 0, lastReq := 0, partialMsg := none, partialFlits := 0, pendingLane := none, rxSpare := none, switchSeq := none, txSpare := none, spareBad := false, symWin := [],
    peerReady := false }

/-- An empty drift entry. -/
def DriftEntry.none : DriftEntry := { key := 0, lanes := [], poison := false, age := 0 }

/-- No rotary table. -/
def RopeTable.none : RopeTable := { pairs := 0, data := [] }

/-- A source with nothing waiting. -/
def SrcQueue.empty : SrcQueue := { recs := [], dropped := 0 }

/-- Memories with nothing written. -/
def Mem.empty : Mem :=
  { hbm := [], host := [], scratch := [], vcache := [], mapMem := [], flash := [], hbmPoison := [], hostPoison := [], scratchPoison := [],
    vcachePoison := [], vcacheSet := [], hostRefused := [], atc := [] }

/-- Counters' surroundings at reset. -/
def SyncSt.empty : SyncSt := { events := [], waits := [], sigQ := [], gated := [] }
/-- The incident paths at reset. -/
def RecSt.empty : RecSt :=
  { srcQ := [], alarmPend := [], nextUid := 0, logQ := [], traceQ := [], traceSeq := 0, lost := 0, firstLost := 0 }
/-- The gate units at reset. -/
def UnitSt.empty : UnitSt :=
  { drift := [], driftAge := 0, rope := [], chans := [], genPos := [], fetched := [], outStage := [], signalsDue := [], marksDue := [], pathRec := [] }
/-- No run. -/
def RunSt.empty : RunSt := { runs := [], nextId := 0, topIter := none }
/-- No region. -/
def RgnSt.empty : RgnSt := { committed := [] }
/-- Mode epoch 0 with mode word 1 and seed 0 (R53, R79). -/
def ModeSt.zero : ModeSt := { cmd := 0, word := 1, seed := 0 }
/-- Layout epoch 0. -/
def LayoutSt.zero : LayoutSt := { cmd := 0, applied := 0, pend := none }
/-- Stacks with nothing open or listed. -/
def StkSt.empty : StkSt :=
  { granules := [], repairList := [], rowSeen := [], spareRows := [], retireMark := [], retired := none, atomicResidues := [], periodUes := [], noSpare := [] }
/-- A host interface with nothing accepted. -/
def HostSt.empty : HostSt :=
  { accepted := [], finished := [], nextCmd := 0, turn := 0, doorbell := [], unreleased := [], phaseZero := [], migrations := [], msix := [], sramFatal := false, hdmCommit := 0,
    dvsecSize := 0, snooped := [], config := [], bar2 := [], msixPend := [], memData := [], memPoison := false }
/-- A fabric with every link down. -/
def BndSt.empty : BndSt := { links := [], msgOut := [], inbox := [], flitOut := [], tags := [], tagWait := [], nextTag := 0 }
/-- A power manager at rest. -/
def PwrSt.zero : PwrSt :=
  { bucketIn := 0, bucketDie := 0, sinceIn := 20, sinceDie := 20, sinceFall := 1000, under := 0, sinceFast := 1000, level := [], rise := [],
    railOut := [], dieContrib := [], dieLevel := [], dieBelow := [], stackContrib := [], freq := [] }
/-- Fuses as the model presumes them at manufacture (log entry 22). -/
def Fuses.unblown : Fuses :=
  { vendorKeyHash := List.replicate 32 0, ownerKeyHash := List.replicate 32 0, ownerEn := false, rollback := 0,
    deviceSecret := List.replicate 32 0, serial := 0, mfgClosed := false, debugDisable := false, ordering := false }
/-- Boot state before boot step 1. -/
def SecSt.cleared : SecSt :=
  { phase := .booting, bootLevel := 0, shadow := Fuses.unblown, digest := [], bootRollback := 0, fromHost := false, confirmed := false, everReady := false,
    meas := List.replicate 8 (List.replicate 64 0), aliasSeed := [], hostImage := [], tokenWords := [] }
/-- Firmware before it runs. -/
def FwSt.empty : FwSt :=
  { holds := [], fencing := [], captures := [], sampling := none, sweepIdle := 0, snap := none, mirSeq0 := 0, mirSeq1 := 0, partnerBase := 0, partnerSize := 0,
    snapshotDue := false, liveHalf := none, tapWas := false, pairStep := 0, partnerTakeover := false, opTime := 0, repairLog := [],
    saved := [], fallbackFailed := false, waitStatus := [], coreIrq := [] }
/-- Ports with nothing latched. -/
def PortSt.empty : PortSt :=
  { sigSel := [], countLatch := [], mapWindow := [], snapLatch := [], snapped := [], response := [], smbOffset := 0, mgmtAlert := [] }

/-- The module right after power-on reset has ended (R392, R447 step 5): every register at its reset value, no memory written, the pins as
R447 leaves them and RST_N high, before boot step 1. The queue is empty. -/
def State.reset : State :=
  { regs := [], mem := Mem.empty, counts := [], sync := SyncSt.empty, fr := { held := [], tail := 0, seq := 0, full := false },
    recs := RecSt.empty, pistes := [], gates := [], units := UnitSt.empty, runs := RunSt.empty, rgn := RgnSt.empty, mode := ModeSt.zero,
    layout := LayoutSt.zero, stk := StkSt.empty, host := HostSt.empty, bnd := BndSt.empty,
    pins := { vsb := true, vin := true, pwrEn := true, regsOn := true, pwrOk := true, rstN := true, refclk := true, pairSense := true, aliveLow := false,
              thermN := true, smbAlertN := true },
    pwr := PwrSt.zero, fuses := Fuses.unblown, sec := SecSt.cleared, fw := FwSt.empty, ports := PortSt.empty, freeCount := 0, pending := [] }

end Sys2Proof.Machine
end

