-- ==== Sys2Proof/Machine/Prog.lean ====
section
/-! DEFINITION. Effects as programs over a few primitive changes of state. Every command but a reset runs a `Prog`, so what no primitive change
can do, no command can do: the guarded changes here carry R53, R251, R323, R347 and R407. -/

namespace Sys2Proof.Machine

open Sys2Proof

/-- The byte memories. -/
inductive MemId where
  | hbm | host | scratch | vcache | mapMem | flash
  deriving DecidableEq, Repr

/-- The marks of words, beats, lines and pages. -/
inductive FlagId where
  | hbmPoison | hostPoison | scratchPoison | vcachePoison | vcacheSet | hostRefused | atc
  deriving DecidableEq, Repr

/-- What a byte that nothing has written reads as (log entry 1). -/
def byteDefault : Nat → Byte := fun _ => 0
/-- A mark that nothing has set is clear. -/
def flagDefault : Nat → Bool := fun _ => false
/-- A number that nothing has set is 0. -/
def zeroDefault : Nat → Nat := fun _ => 0

/-- One memory of the module. -/
def memOf (m : Mem) : MemId → SMap Byte
  | .hbm => m.hbm | .host => m.host | .scratch => m.scratch | .vcache => m.vcache | .mapMem => m.mapMem | .flash => m.flash

/-- One memory replaced. -/
def memPut (m : Mem) (i : MemId) (x : SMap Byte) : Mem :=
  match i with
  | .hbm => { m with hbm := x } | .host => { m with host := x } | .scratch => { m with scratch := x }
  | .vcache => { m with vcache := x } | .mapMem => { m with mapMem := x } | .flash => { m with flash := x }

/-- One set of marks. -/
def flagOf (m : Mem) : FlagId → SMap Bool
  | .hbmPoison => m.hbmPoison | .hostPoison => m.hostPoison | .scratchPoison => m.scratchPoison
  | .vcachePoison => m.vcachePoison | .vcacheSet => m.vcacheSet | .hostRefused => m.hostRefused | .atc => m.atc

/-- One set of marks replaced. -/
def flagPut (m : Mem) (i : FlagId) (x : SMap Bool) : Mem :=
  match i with
  | .hbmPoison => { m with hbmPoison := x } | .hostPoison => { m with hostPoison := x }
  | .scratchPoison => { m with scratchPoison := x } | .vcachePoison => { m with vcachePoison := x }
  | .vcacheSet => { m with vcacheSet := x }
  | .hostRefused => { m with hostRefused := x } | .atc => { m with atc := x }

/-- The largest count of a sync counter (R251). -/
def countMax : Nat := 2 ^ 64 - 1

/-- The summary entry of a class at its first drop (R347). -/
def summaryOf (r : FaultRec) (seq : Nat) : Entry :=
  { frec := { code := 0x0D01, cls := r.cls, sev := r.sev, island := 853, iter := 0, leg := 0x3FFF, unit := 0, items := [], uid := r.uid },
    seq := seq, dropped := 0, live := true, first := seq, last := seq, count := 1, lastCode := r.code }

/-- A summary after one more drop of its class (R347). -/
def summaryMore (e : Entry) (r : FaultRec) (seq : Nat) : Entry :=
  { e with frec := { e.frec with sev := max e.frec.sev r.sev }, last := seq, count := e.count + 1, lastCode := r.code }

/-- Whether an entry is the summary of a class in the present FULL period. -/
def isSummary (cls : Nat) (e : Entry) : Bool := e.live && e.frec.cls == cls

/-- The ring after a record arrives at the collector (R347): the record takes a SEQ; it is placed while FULL is clear, and FULL is set at 4,080
entries; while FULL is set it is dropped into the summary of its class. -/
def ringArrive (f : FaultRing) (r : FaultRec) (dropped : Nat) : FaultRing :=
  let g := { f with seq := (f.seq + 1) % 2 ^ 32 }
  if f.full then
    if f.held.any (isSummary r.cls) then
      { g with held := f.held.map fun e => if isSummary r.cls e then summaryMore e r f.seq else e }
    else if f.held.length < 4096 then { g with held := f.held ++ [summaryOf r f.seq] }
    else g
  else
    { g with
      held := f.held ++ [{ frec := r, seq := f.seq, dropped := dropped, live := false, first := 0, last := 0, count := 0, lastCode := 0 }],
      full := decide (4080 ≤ f.held.length + 1) }

/-- The ring after software releases its `k` oldest entries (R347): FULL clears below 4,080 held, and summaries then stand as ordinary
entries. -/
def ringRelease (f : FaultRing) (k : Nat) : FaultRing :=
  if k ≤ f.held.length then
    let h := f.held.drop k
    let full := f.full && decide (4080 ≤ h.length)
    { f with held := if full then h else h.map fun e => { e with live := false }, tail := (f.tail + k) % 4096, full := full }
  else f

/-- The primitive changes of state. -/
inductive Act where
  | reg (a : Nat) (v : Word)
  | bytes (m : MemId) (a : Nat) (l : List Byte)
  | flag (f : FlagId) (k : Nat) (b : Bool)
  | count (i n : Nat)
  | modeCmd (epoch word seed : Nat)
  | layoutCmd (epoch : Nat) (p : LayoutChange)
  | layoutApply (epoch : Nat)
  | layoutPend (p : Option LayoutChange)
  | ringIn (r : FaultRec) (dropped : Nat)
  | ringOut (k : Nat)
  | rollback (n : Nat)
  | ownerKey (h : List Byte)
  | sync (x : SyncSt)
  | recs (x : RecSt)
  | piste (p : Nat) (x : PisteSt)
  | gate (i : Nat) (x : GateSt)
  | units (x : UnitSt)
  | runs (x : RunSt)
  | rgn (x : RgnSt)
  | stk (x : StkSt)
  | host (x : HostSt)
  | bnd (x : BndSt)
  | pins (x : Pins)
  | pwr (x : PwrSt)
  | sec (x : SecSt)
  | fw (x : FwSt)
  | ports (x : PortSt)
  | free (n : Nat)

/-- What one primitive change does. EPOCH_CMD and LAYOUT_CMD only rise (R53, R323), LAYOUT_APPLIED stays at or below LAYOUT_CMD and does not
fall, a count only rises and stops at 2^64 - 1 (R251), the ring changes by arrival and release (R347), rollback fuses only blow, to at
most 64, and the owner key once (R407). -/
def Act.apply (a : Act) (s : State) : State :=
  match a with
  | .reg a v => { s with regs := smSet regReset s.regs a v }
  | .bytes m a l => { s with mem := memPut s.mem m (smSetList byteDefault (memOf s.mem m) a l) }
  | .flag f k b => { s with mem := flagPut s.mem f (smSet flagDefault (flagOf s.mem f) k b) }
  | .count i n => { s with counts := smSet zeroDefault s.counts i (min countMax (smGet zeroDefault s.counts i + n)) }
  | .modeCmd e w d => if s.mode.cmd < e then { s with mode := { cmd := e, word := w, seed := d } } else s
  | .layoutCmd e p => if s.layout.cmd < e then { s with layout := { s.layout with cmd := e, pend := some p } } else s
  | .layoutApply e => if s.layout.applied ≤ e ∧ e ≤ s.layout.cmd then { s with layout := { s.layout with applied := e } } else s
  | .layoutPend p => { s with layout := { s.layout with pend := p } }
  | .ringIn r d => { s with fr := ringArrive s.fr r d }
  | .ringOut k => { s with fr := ringRelease s.fr k }
  | .rollback n => { s with fuses := { s.fuses with rollback := max s.fuses.rollback (min n 64) } }
  | .ownerKey h => if s.fuses.ownerEn then s else { s with fuses := { s.fuses with ownerKeyHash := h, ownerEn := true } }
  | .sync x => { s with sync := x }
  | .recs x => { s with recs := x }
  | .piste p x => { s with pistes := smSet (fun _ => PisteSt.idle) s.pistes p x }
  | .gate i x => { s with gates := smSet (fun _ => GateSt.idle) s.gates i x }
  | .units x => { s with units := x }
  | .runs x => { s with runs := x }
  | .rgn x => { s with rgn := x }
  | .stk x => { s with stk := x }
  | .host x => { s with host := x }
  | .bnd x => { s with bnd := x }
  | .pins x => { s with pins := x }
  | .pwr x => { s with pwr := x }
  | .sec x => { s with sec := x }
  | .fw x => { s with fw := x }
  | .ports x => { s with ports := x }
  | .free n => { s with freeCount := s.freeCount + n }

/-- A program of primitive changes; `look` chooses by the state reached. -/
inductive Prog where
  | skip
  | prim (a : Act)
  | seq (p q : Prog)
  | look (f : State → Prog)

/-- The state a program leaves. -/
def Prog.run : Prog → State → State
  | .skip, s => s
  | .prim a, s => a.apply s
  | .seq p q, s => q.run (p.run s)
  | .look f, s => (f s).run s

/-- Programs in turn. -/
def progs : List Prog → Prog
  | [] => .skip
  | p :: r => .seq p (progs r)

/-- A program for every item of a list in turn. -/
def forEach {α : Type} (l : List α) (f : α → Prog) : Prog := progs (l.map f)

/-- A program under a condition. -/
def whenP (b : Bool) (p : Prog) : Prog := if b then p else .skip

/-- A program repeated. -/
def repeatP : Nat → Prog → Prog
  | 0, _ => .skip
  | n + 1, p => .seq p (repeatP n p)

/-- A command whose effect is a program completes with the state the program leaves. -/
def done (p : Prog) (s : State) : Host.Outcome State Fault Refusal := .next (p.run s)

end Sys2Proof.Machine
end

