-- ==== Sys2Proof/Machine/Ops.lean ====
section
/-! DEFINITION. The named operations over registers, page events, fault records, alarms, traces, completions and the memories. -/

namespace Sys2Proof.Machine

open Sys2Proof

/-! ### Registers -/

/-- The BAR0 address of a field's word. -/
def fldAddr (pg : Page) (f : Fld) (i : Nat) : Nat := pageBase pg + f.off + f.stride * i

/-- The ring's accepted commands and the finished ones whose records are not written. -/
def ringAccepted (s : State) (r : Nat) : List Cmd := s.host.accepted.filter (·.ring == r)
/-- The ring's finished commands whose completion records are not written. -/
def ringFinished (s : State) (r : Nat) : List Done := s.host.finished.filter (·.cmd.ring == r)

/-- Whether a ring is held by WAIT, FENCE or ORDERED (R373). -/
def ringStalled (s : State) (r : Nat) : Bool :=
  match ringAccepted s r with
  | [] => false
  | c :: l => (c :: l).any fun d =>
      (d.started && match d.body with | some (.wait _ _ _) => true | some (.fence _) => true | _ => false) || (!d.started && d.ordered)

/-- The word of the register file at a BAR0 address. -/
def regWord (s : State) (a : Nat) : Word := smGet regReset s.regs a

/-- A field of the register file alone. -/
def rdRaw (s : State) (pg : Page) (f : Fld) (i : Nat := 0) : Nat := bits (regWord s (fldAddr pg f i)).toNat f.lo f.w

/-- A unit that has stopped: a fenced piste, a retired stack, a port that is down (R432). -/
def offline (s : State) : Page → Bool
  | .pst p => rdRaw s (.pst p) Reg.PST.RUN_CTRL_FENCED == 1
  | .gate p _ => rdRaw s (.pst p) Reg.PST.RUN_CTRL_FENCED == 1
  | .frn p => rdRaw s (.pst p) Reg.PST.RUN_CTRL_FENCED == 1
  | .stk k => s.stk.retired == some k
  | .bnd p => p != 7 && rdRaw s (.bnd p) Reg.BND.PORT_STATUS_STATE == 0
  | _ => false

/-- The pages a core reset clears (R431). -/
def coreCleared : Page → Bool
  | .mod 3 => true | .syn _ => true | .bar _ => true | .stk _ => true | .mode => true | .gns => true | .rgn _ => true | .pst _ => true
  | .gate _ _ => true | .frn _ => true | _ => false

/-- PAGE_STATUS.READY (R384, R431): a page that core reset clears is in service while firmware is ready, every other page from when firmware has
first reported ready since system reset. -/
def pageReady (s : State) (pg : Page) : Bool := if coreCleared pg then s.sec.phase == .ready else s.sec.everReady

/-- Whether firmware is served: no control-processor core is halted through the debug port (R437). -/
def fwRuns (s : State) : Bool := rdRaw s .dbg Reg.DBG.CP_STATE_HALTED == 0

/-- The common layout's word with RIGHTS[9:8] reading as 1, READY, LOCKED and OFFLINE put in (R384, R431, R432). -/
def viewCommon (s : State) (pg : Page) (o : Nat) (w : Word) : Word :=
  if o = 0x8 then BitVec.ofNat 32 (putBits w.toNat 8 2 3)
  else if o = 0xC then
    BitVec.ofNat 32 (putBits (putBits (putBits w.toNat 0 1 (ofBool (pageReady s pg))) 1 1 (ofBool (offline s pg))) 2 1 (rdRaw s pg Reg.COMMON.PORT_ACCESS_LOCK))
  else w

/-- Port `p`'s link. -/
def linkOf (s : State) (p : Nat) : LinkSt := smGet (fun _ => LinkSt.down) s.bnd.links p

/-- The x, y and z of a node identity (R296). -/
def nodeAxis (n axis : Nat) : Nat := bits n (5 * axis) 5
/-- The size of the torus along an axis (R296). -/
def dimOf (s : State) (axis : Nat) : Nat :=
  1 + rdRaw s (.bnd 7) (if axis = 0 then Reg.BND7.DIMS_DX_M1 else if axis = 1 then Reg.BND7.DIMS_DY_M1 else Reg.BND7.DIMS_DZ_M1)
/-- The module's own node identity. -/
def ownNode (s : State) : Nat := rdRaw s (.bnd 7) Reg.BND7.NODE_ID

/-- A port is usable when it is UP, its peer is not in core reset (which its STATE then shows), and ROUTE_EN is 1 (R298). -/
def usable (s : State) (p : Nat) : Bool :=
  rdRaw s (.bnd p) Reg.BND.PORT_STATUS_STATE == 2 && rdRaw s (.bnd p) Reg.BND.PORT_CTRL_ROUTE_EN == 1

/-- Messages cross a usable port only once NODE_ID is locked at both ends, with own coordinates below the torus size (bring-up step 5, R296). -/
def mayCross (s : State) (p : Nat) : Bool :=
  usable s p && rdRaw s (.bnd 7) Reg.BND7.FAB_CTRL_LOCK == 1 && (linkOf s p).peerReady &&
  (List.range 3).all fun a => decide (nodeAxis (ownNode s) a < dimOf s a)

/-- Words that protected or listed state shows: MODE (R53, R323), the fault record page (R347), `SYN.COUNT` (R251), the measurement
registers (R408), a ring's STATUS and OUTSTANDING (R370), and the queued runs of a piste in service (R432). The value of a word is its register file value with these fields put in. -/
def viewWord (s : State) (a : Nat) (w : Word) : Word :=
  match pageAt a with
  | some .mode =>
    let o := a % 4096
    if o = 0x100 then BitVec.ofNat 32 s.mode.cmd else if o = 0x120 then BitVec.ofNat 32 s.mode.word
    else if o = 0x150 then BitVec.ofNat 32 s.layout.cmd else if o = 0x154 then BitVec.ofNat 32 s.layout.applied else w
  | some (.mod 2) =>
    let o := a % 4096
    if o = 0x100 then BitVec.ofNat 32 ((s.fr.tail + s.fr.held.length) % 4096) else if o = 0x104 then BitVec.ofNat 32 s.fr.tail
    else if o = 0x108 then BitVec.ofNat 32 s.fr.held.length
    else if o = 0x10C then BitVec.ofNat 32 (putBits w.toNat 0 1 (ofBool s.fr.full))
    else if o = 0x110 then BitVec.ofNat 32 s.fr.seq else w
  | some (.syn k) =>
    let o := a % 4096
    if k < 16 ∧ 0x100 ≤ o ∧ o < 0x900 then
      let c := smGet zeroDefault s.counts (256 * k + (o - 0x100) / 8)
      BitVec.ofNat 32 (if o % 8 = 0 then c else c / 2 ^ 32)
    else w
  | some (.sec 0) =>
    let o := a % 4096
    if 0x200 ≤ o ∧ o < 0x400 then BitVec.ofNat 32 (leAt (nth s.sec.meas ((o - 0x200) / 64) []) (o % 64) 4) else w
  | some (.bnd p) =>
    if p < 7 ∧ a % 4096 = 0x100 then BitVec.ofNat 32 (putBits w.toNat 9 1 (ofBool (usable s p))) else w
  | some (.pst p) =>
    if a % 4096 = 0x104 ∧ offline s (.pst p) = false then
      BitVec.ofNat 32 (putBits w.toNat 16 16 (min 65535 (s.runs.runs.filter fun r => !r.started && bit r.left p).length))
    else w
  | some (.ring r) =>
    let o := a % 4096
    let acc := (ringAccepted s r).length + (ringFinished s r).length
    if o = 0x104 then BitVec.ofNat 32 (putBits (putBits w.toNat 0 1 (ofBool (acc == 0))) 1 1 (ofBool (ringStalled s r)))
    else if o = 0x134 then
      BitVec.ofNat 32 (if bit (smGet regReset s.regs (a - 0x30)).toNat 2 then (ringAccepted s r).length else acc) else w
  | _ => w

/-- What a register word holds. -/
def wordAt (s : State) (a : Nat) : Word :=
  match pageAt a with
  | none => 0
  | some pg => if a % 4096 < 0x100 then viewCommon s pg (a % 4096) (regWord s a) else viewWord s a (regWord s a)

/-- The value of a field, instance `i`. -/
def rd (s : State) (pg : Page) (f : Fld) (i : Nat := 0) : Nat := bits (wordAt s (fldAddr pg f i)).toNat f.lo f.w

/-- A field set by the hardware. -/
def wr (pg : Page) (f : Fld) (v : Nat) (i : Nat := 0) : Prog :=
  .look fun s => .prim (.reg (fldAddr pg f i) (BitVec.ofNat 32 (putBits (regWord s (fldAddr pg f i)).toNat f.lo f.w v)))

/-- A counting field raised by `n`, stopping at its largest value. -/
def addSat (pg : Page) (f : Fld) (n : Nat) (i : Nat := 0) : Prog :=
  .look fun s => wr pg f (satBits f.w (rd s pg f i + n)) i

/-- A 64-bit value over two words, the low one at `lo`. -/
def wr64 (pg : Page) (lo hi : Fld) (v : Nat) : Prog := .seq (wr pg lo (v % 2 ^ 32)) (wr pg hi (v / 2 ^ 32))

/-- A value over two words. -/
def rd64 (s : State) (pg : Page) (lo hi : Fld) (i : Nat := 0) : Nat :=
  rd s pg lo i * 2 ^ lo.lo + 2 ^ 32 * rd s pg hi i

/-! ### Sub-states -/

/-- A change of a sub-state as a function of it. -/
def modSync (f : SyncSt → SyncSt) : Prog := .look fun s => .prim (.sync (f s.sync))
/-- As `modSync`. -/
def modRecs (f : RecSt → RecSt) : Prog := .look fun s => .prim (.recs (f s.recs))
/-- As `modSync`. -/
def modUnits (f : UnitSt → UnitSt) : Prog := .look fun s => .prim (.units (f s.units))
/-- As `modSync`. -/
def modRuns (f : RunSt → RunSt) : Prog := .look fun s => .prim (.runs (f s.runs))
/-- As `modSync`. -/
def modStk (f : StkSt → StkSt) : Prog := .look fun s => .prim (.stk (f s.stk))
/-- As `modSync`. -/
def modHost (f : HostSt → HostSt) : Prog := .look fun s => .prim (.host (f s.host))
/-- As `modSync`. -/
def modBnd (f : BndSt → BndSt) : Prog := .look fun s => .prim (.bnd (f s.bnd))
/-- As `modSync`. -/
def modPins (f : Pins → Pins) : Prog := .look fun s => .prim (.pins (f s.pins))
/-- As `modSync`. -/
def modPwr (f : PwrSt → PwrSt) : Prog := .look fun s => .prim (.pwr (f s.pwr))
/-- As `modSync`. -/
def modSec (f : SecSt → SecSt) : Prog := .look fun s => .prim (.sec (f s.sec))
/-- As `modSync`. -/
def modFw (f : FwSt → FwSt) : Prog := .look fun s => .prim (.fw (f s.fw))
/-- As `modSync`. -/
def modPorts (f : PortSt → PortSt) : Prog := .look fun s => .prim (.ports (f s.ports))

/-- Piste `p`'s control block. -/
def pisteOf (s : State) (p : Nat) : PisteSt := smGet (fun _ => PisteSt.idle) s.pistes p
/-- The gate of an island. -/
def gateOf (s : State) (i : Nat) : GateSt := smGet (fun _ => GateSt.idle) s.gates i
/-- A change of a piste control block. -/
def modPiste (p : Nat) (f : PisteSt → PisteSt) : Prog := .look fun s => .prim (.piste p (f (pisteOf s p)))
/-- A change of a gate. -/
def modGate (i : Nat) (f : GateSt → GateSt) : Prog := .look fun s => .prim (.gate i (f (gateOf s i)))

/-- A fresh free value (log entry 4), of which nothing is known. -/
def withFree (k : Nat → Prog) : Prog := .look fun s => .seq (.prim (.free 1)) (k (Config.freeWord s.freeCount).toNat)

/-- `n` fresh free bytes (log entry 4). -/
def withFreeBytes (n : Nat) (k : List Byte → Prog) : Prog :=
  .look fun s =>
    let w := (n + 7) / 8
    .seq (.prim (.free w)) (k (((List.range w).flatMap fun i => leBytes 8 (Config.freeWord (s.freeCount + i)).toNat).take n))

/-! ### Identities -/

/-- The code of an identity (R269). -/
def identCode : Ident → Nat
  | .host => 1 | .mgmt => 2 | .pair => 3 | .cp k => 4 + k.val | .debug => 8

/-- Whether an identity is a control-processor core. -/
def isCp : Ident → Bool
  | .cp _ => true
  | _ => false

/-! ### Page events, fault records and alarms -/

/-- The MSI-X vector of a page's EVENT (R382). -/
def pageVector : Page → Nat
  | .mbx 0 => 1 | .mod 1 => 2 | .hif => 3 | _ => 0

/-! The configuration space and BAR2 (R364, R366): the layouts are those of PCI Express and CXL 2.0, and the places of the capabilities the model's
(log entry 99). -/

/-- Words of the configuration space after reset, by word number: identities, class code, the base address registers (0 and 2 are 64-bit memory, not
prefetchable; 4 and 5 read 0), and the MSI-X, AER, ATS and CXL device capabilities, with no others. -/
def configReset (i : Nat) : Word :=
  match i with
  | 0 => Config.pciIdentity
  | 2 => BitVec.ofNat 32 (Config.classCode * 256 + Config.pciRevision.toNat)
  | 4 => 4
  | 6 => 4
  | 13 => 0x40
  | 16 => BitVec.ofNat 32 (0x11 + 63 * 2 ^ 16)
  | 17 => 2
  | 18 => 0x8002
  | 64 => BitVec.ofNat 32 (1 + 2 * 2 ^ 16 + 0x150 * 2 ^ 20)
  | 84 => BitVec.ofNat 32 (0xF + 2 ^ 16 + 0x200 * 2 ^ 20)
  | 128 => BitVec.ofNat 32 (0x23 + 2 ^ 16)
  | _ => 0

/-- Words of BAR2 after reset: every vector of the MSI-X table masked, the decoder and the RAS capability at 0. -/
def bar2Reset (k : Nat) : Word := if k < 256 ∧ k % 4 = 3 then 1 else 0

/-- MSI-X message control: bit 31 enables, bit 30 masks every vector. -/
def msixControl (h : HostSt) : Nat := (smGet configReset h.config 16).toNat

/-- Whether a vector's messages are held: MSI-X is enabled, and the function or the vector is masked. -/
def msixHeld (h : HostSt) (v : Nat) : Bool :=
  bit (msixControl h) 31 && (bit (msixControl h) 30 || bit (smGet bar2Reset h.bar2 (4 * v + 3)).toNat 0)

/-- A message is raised on an MSI-X vector; a vector that is held shows it in its pending bit. -/
def sendMsix (v : Nat) : Prog :=
  modHost fun h => { h with
    msix := h.msix ++ [v]
    msixPend := if msixHeld h v then smSet flagDefault h.msixPend v true else h.msixPend }

/-- The pending bits of the vectors that are held no longer clear, as their messages go. -/
def msixRelease (h : HostSt) : HostSt := { h with msixPend := smDrop (fun v => !msixHeld h v) h.msixPend }

/-- The EVENT field's width: 32 bits on `MBX[0]` (R429). -/
def eventMask (pg : Page) : Nat := if pg = .mbx 0 then 2 ^ 32 else 2 ^ 16

/-- EVENT AND EVENT_ENABLE of a page (R386). -/
def eventLive (s : State) (pg : Page) : Nat :=
  ((wordAt s (pageBase pg + 0x10)) &&& (wordAt s (pageBase pg + 0x14))).toNat % eventMask pg

/-- The hardware sets EVENT bit `e` of a page: the count of the bit rises (R385, R429), and the page's message is sent when EVENT AND
EVENT_ENABLE leaves 0 (R386). -/
def setEvent (pg : Page) (e : Nat) : Prog :=
  .look fun s =>
    let a := pageBase pg + 0x10
    let was := eventLive s pg
    progs [
      .prim (.reg a (regWord s a ||| BitVec.ofNat 32 (2 ^ e))),
      addSat pg Reg.COMMON.EVENT_COUNT 1 (e % 16),
      .look fun t => whenP (was == 0 && eventLive t pg != 0) (sendMsix (pageVector pg))]

/-- The page of the block an island serves, for FAULT_FIRST (log entry 14). -/
def islandPage (i : Nat) : Page :=
  if i < 768 then .gate (i / 12) (i % 12) else if i < 832 then .pst (i - 768) else if i < 844 then .stk (i - 832)
  else if i < 851 then .bnd (i - 844) else if i = 851 then .hif else if i = 852 then .mod 3 else .mod 1

/-- The page of the block that a record concerns, for FAULT_FIRST (R384, log entry 14): that of its island, or where an island serves several
blocks, that of the block whose rule raises the code. -/
def recordPage (r : FaultRec) : Page :=
  let c := r.code
  let n := (r.items.map (·.v)).headD 0
  if r.island < 768 then islandPage r.island
  else if c = Code.HOST_XLATE ∨ (c = Code.SYNC_TIMEOUT ∧ r.island < 832) then .frn (r.island - 768)
  else if r.island < 851 then islandPage r.island
  else if c = Code.RING_READ then .ring r.unit
  else if c = Code.SYNC_SATURATE ∨ c = Code.SYNC_PROXY then .syn (n / 256)
  else if c / 256 = 5 then if c = Code.BARRIER_OVERRUN ∨ c = Code.BARRIER_STALE ∨ c = Code.BARRIER_LIST then .bar (n / 128) else .syn 16
  else if c = Code.MODE_STALL ∨ c = Code.LAYOUT_STALL ∨ c = Code.GEN_REALIGN then .mode
  else if c = Code.GNS_STALE then .gns
  else if c = Code.RGN_FIELD then .rgn (n / 128)
  else if c / 256 = 10 then .mod 4
  else if c / 256 = 11 then .sec 0
  else if c = Code.RAIL_FAULT ∨ c = Code.POWER_CAP ∨ c = Code.DIE_THERMAL then .pwr
  else if c = Code.RECORD_DROP then .mod 2
  else islandPage r.island

/-- An alarm increment that a source block keeps until it is taken, up to 255 (R345). -/
def alarm (island cls : Nat) : Prog :=
  modRecs fun r =>
    let k := island * 16 + cls
    { r with alarmPend := smSet zeroDefault r.alarmPend k (min 255 (smGet zeroDefault r.alarmPend k + 1)) }

/-- A record entering its source's queue of two; a record that finds it full is dropped at the source and counted (R347). -/
def enqueueRecord (r : FaultRec) : Prog :=
  .look fun s =>
    let q := smGet (fun _ => SrcQueue.empty) s.recs.srcQ r.island
    if q.recs.length < 2 then
      modRecs fun x =>
        { x with srcQ := smSet (fun _ => SrcQueue.empty) x.srcQ r.island { recs := q.recs ++ [(r, min 255 q.dropped)], dropped := 0 } }
    else
      .seq (modRecs fun x => { x with srcQ := smSet (fun _ => SrcQueue.empty) x.srcQ r.island { q with dropped := q.dropped + 1 } })
        (addSat (.mod 2) Reg.MOD2.DROP_COUNT 1 r.cls)

/-- A trace (R349): a kind that is not enabled leaves none; a trace that finds 64 queued is lost, and its sequence is used. -/
def trace (kind island : Nat) : Prog :=
  .look fun s => whenP (bit (rd s (.mod 3) Reg.MOD3.TRACE_EN) kind)
    (if s.recs.traceQ.length < 64 then
      modRecs fun x => { x with traceSeq := x.traceSeq + 1, traceQ := x.traceQ ++ [{ kind := kind, island := island, seq := x.traceSeq }] }
    else
      .seq (modRecs fun x =>
          { x with
            traceSeq := x.traceSeq + 1
            lost := x.lost + 1
            firstLost := if x.lost = 0 then x.traceSeq else x.firstLost })
        (addSat (.mod 3) Reg.MOD3.TRACE_GAPS 1))

/-- The codes that tell of a rung of the repair ladder taken (R335): each leaves a REPAIR trace. -/
def rungCodes : List Nat :=
  [Code.MG_REPLAY, Code.AG_REPLAY, Code.VG_RECOMPUTE, Code.ADDER_RECOMPUTE, Code.MG_SPARE_MAP, Code.PISTE_FENCE, Code.FALLBACK,
   Code.BND_LANE_SPARED, Code.BND_DEGRADED, Code.STK_RETIRE_PENDING]

/-- A fault record made by an island with its severity given: it is numbered, queued for the collector, and raises the alarm of its class
(R345, R346, R453). The continuation learns the record's number. -/
def raiseSev (sev code island iter leg unit : Nat) (items : List Item) (k : Nat → Prog) : Prog :=
  .look fun s =>
    let u := s.recs.nextUid
    progs [
      modRecs fun x => { x with nextUid := u + 1 },
      enqueueRecord { code := code, cls := codeClass code, sev := sev, island := island, iter := iter, leg := leg, unit := unit, items := items, uid := u },
      alarm island (codeClass code),
      whenP (rungCodes.contains code) (trace 5 island),
      k u]

/-- A fault record with the severity of its code (R454). -/
def raise (code island iter leg unit : Nat) (items : List Item) : Prog :=
  raiseSev (severityOf code) code island iter leg unit items fun _ => .skip

/-- Firmware recomputes the mirror interval (R343) with the operating time of its repair log, which is free and never less than before; MIR_FIXED
replaces it. The root is rounded down (log entry 95). -/
def mirInterval : Prog :=
  withFree fun dt => .look fun s =>
    let t := s.fw.opTime + dt % 2 ^ 32
    let x := 2 * rd s (.mod 3) Reg.MOD3.MIR_COST * (t + rd s (.mod 3) Reg.MOD3.MIR_PRIOR)
    let d := (rd s (.mod 3) Reg.MOD3.MIR_EVENTS + 1) * 1000000
    let i := isqrt (x / d)
    .seq (modFw fun f => { f with opTime := t })
      (wr (.mod 3) Reg.MOD3.MIR_INTERVAL (if rd s (.mod 3) Reg.MOD3.MIR_FIXED ≠ 0 then rd s (.mod 3) Reg.MOD3.MIR_FIXED
        else min (max i (rd s (.mod 3) Reg.MOD3.MIR_MIN)) (rd s (.mod 3) Reg.MOD3.MIR_MAX)))

/-- An event counted for the mirror interval (R343). -/
def mirEvent : Prog := .seq (addSat (.mod 3) Reg.MOD3.MIR_EVENTS 1) mirInterval

/-- No leg (R346). -/
def noLeg : Nat := 0x3FFF

/-- A 32-bit item. -/
def w32 (v : Nat) : Item := ⟨v % 2 ^ 32, false⟩
/-- An item wider than 32 bits. -/
def w64 (v : Nat) : Item := ⟨v % 2 ^ 64, true⟩

/-- Items placed in `n` words: an item takes one word or two, and the first that does not fit whole is left out with every item after it
(R453). The words used so far come with the items left. -/
def placeItems : Nat → List Item → List Nat × List Item
  | _, [] => ([], [])
  | n, i :: r =>
    if i.wide then
      if 2 ≤ n then let (w, l) := placeItems (n - 2) r; (i.v % 2 ^ 32 :: i.v / 2 ^ 32 :: w, l) else ([], i :: r)
    else if 1 ≤ n then let (w, l) := placeItems (n - 1) r; (i.v :: w, l) else ([], i :: r)

/-- The eight words of a ring entry (R346, R347). -/
def entryWords (e : Entry) : List Nat :=
  let r := e.frec
  let tail := if r.code = Code.RECORD_DROP then [e.count % 2 ^ 32, e.first, e.last, e.lastCode % 2 ^ 16]
    else padTo 4 0 (placeItems 4 r.items).1
  [r.code % 2 ^ 16 + r.cls % 16 * 2 ^ 16 + r.sev % 4 * 2 ^ 20 + r.island % 1024 * 2 ^ 22, e.seq, r.iter % 2 ^ 32,
   r.leg % 2 ^ 14 + r.unit % 256 * 2 ^ 14 + min 255 e.dropped * 2 ^ 22] ++ tail

/-- An entry firmware adds of its own to its log (R348). -/
def logOwn : Prog := modRecs fun x => { x with logQ := x.logQ ++ [.own] }

/-! ### Commands -/

/-- The accepted command of a number. -/
def findCmd (s : State) (id : Nat) : Option Cmd := s.host.accepted.find? (·.id == id)

/-- Whether a started FENCE has nothing left to wait for (R373): earlier commands of its ring, under SCOPE 1 of every ring. -/
def fenceReady (l : List Cmd) (c : Cmd) : Bool :=
  c.started && (match c.body with
    | some (.fence scope) => l.all fun d => decide (c.id ≤ d.id) || (scope == 0 && d.ring != c.ring)
    | _ => false)

/-- A command moved from the accepted to the finished ones. -/
def completeCmd (h : HostSt) (d : Done) : HostSt :=
  { h with accepted := h.accepted.filter (·.id != d.cmd.id), finished := h.finished ++ [d] }

/-- The fences that a completion lets complete, at most `n`. -/
def settleFences : Nat → HostSt → HostSt
  | 0, h => h
  | n + 1, h => match h.accepted.find? (fenceReady h.accepted) with
    | none => h
    | some c => settleFences n (completeCmd h { cmd := c, status := 0, recUid := none, detail := 0 })

/-- A command completes: it leaves the accepted ones, its completion record waits to be written (R372, R381), and fences it held complete. -/
def finish (id status detail : Nat) (recUid : Option Nat := none) : Prog :=
  .look fun s =>
    match findCmd s id with
    | none => .skip
    | some c => modHost fun h => settleFences 64 (completeCmd h { cmd := c, status := status, recUid := recUid, detail := detail })

/-- A command that may be none of the host's: firmware's own runs have no completion. -/
def finishOpt (id : Option Nat) (status detail : Nat) (recUid : Option Nat := none) : Prog :=
  match id with
  | none => .skip
  | some i => finish i status detail recUid

/-- A change of an accepted command. -/
def modCmd (id : Nat) (f : Cmd → Cmd) : Prog := modHost fun h => { h with accepted := h.accepted.map fun c => if c.id = id then f c else c }

/-- A command is handed to the block that carries it out (R373). -/
def markStarted (id : Nat) : Prog := modCmd id fun c => { c with started := true }

/-- The detail word of RUN, LOAD_MAP, SNAPSHOT and LAYOUT_CHANGE completions (R381): the island and leg of the first failure. -/
def failDetail (island leg : Nat) : Nat := island % 1024 + leg % 2 ^ 14 * 2 ^ 16

/-! ### Stacks and memories -/

/-- The active stacks, ascending (R221, R338). -/
def activeStacks (s : State) : List Nat := (List.range 12).filter fun i => s.stk.retired != some i

/-- The stack of an HBM byte address (R221). -/
def stackOf (s : State) (a : Nat) : Nat :=
  let act := activeStacks s
  nth act (a / 4096 % act.length) 0

/-- The granule of an address within its stack (R221, R228). -/
def stackGranule (s : State) (a : Nat) : Nat := a / 4096 / (activeStacks s).length

/-- The module-wide address of granule `h` of a stack (R221, R223). -/
def granuleAddr (s : State) (st h : Nat) : Nat :=
  let act := activeStacks s
  (h * act.length + act.findIdx (· == st)) * 4096

/-- The bank of an HBM address, as stack, pseudo-channel and bank in one number (R221). -/
def bankOf (s : State) (a : Nat) : Nat :=
  let h := stackGranule s a
  (stackOf s a * 64 + h % 64) * 64 + (h / 64).xor (h / 4096) % 64

/-- Whether a stack is at CRIT: it admits no access, and what would access it waits (R247). -/
def stackHot (s : State) (st : Nat) : Bool := rd s (.stk st) Reg.STK.STK_STATUS_THERM == 3

/-- HBM capacity in use in bytes (R221, R435). -/
def hbmBytes (s : State) : Nat := rd s (.mod 0) Reg.MOD0.CONFIG_HBM_GB * 2 ^ 30

/-- The open granule that holds an HBM address (R230). -/
def openAt (s : State) (a : Nat) : Option Granule := s.stk.granules.find? (·.addr == a / 64 * 64)

/-- A byte of HBM as a read sees it: from the open copy of its granule where there is one (R230). -/
def hbmByte (s : State) (a : Nat) : Byte :=
  match openAt s a with
  | some g => nth g.bytes (a % 64) 0
  | none => smGet byteDefault s.mem.hbm a

/-- Whether the 64 B word of an HBM address reads as poisoned (R223, R230). -/
def hbmPoisoned (s : State) (a : Nat) : Bool :=
  match openAt s a with
  | some g => g.poison
  | none => smGet flagDefault s.mem.hbmPoison (a / 64)

/-- `n` bytes of HBM. -/
def hbmRead (s : State) (a n : Nat) : List Byte :=
  if s.stk.granules.isEmpty then smList byteDefault s.mem.hbm a n else (List.range n).map fun i => hbmByte s (a + i)

/-- A run of bytes cut at multiples of `u`. -/
def cutAt (u : Nat) : Nat → Nat → List Byte → List (Nat × List Byte)
  | 0, _, _ => []
  | f + 1, a, l =>
    match l with
    | [] => []
    | _ => (a, l.take (u - a % u)) :: cutAt u f (a + (u - a % u)) (l.drop (u - a % u))

/-- A run of bytes cut at multiples of `u`, with enough fuel. -/
def cut (u a : Nat) (l : List Byte) : List (Nat × List Byte) := cutAt u (l.length / u + 2) a l

/-- Part of a list replaced from place `i`. -/
def patch (old : List Byte) (i : Nat) (new : List Byte) : List Byte := old.take i ++ new ++ old.drop (i + new.length)

/-- A write within one 64 B word of HBM (R223, R230): into the open copy, or to the DRAM. A whole word clears its poison; part of one leaves
it. Poisoned bytes give the word the poison code (R225). -/
def hbmWordWrite (a : Nat) (l : List Byte) (poison : Bool) : Prog :=
  .look fun s =>
    let full := l.length == 64
    match openAt s a with
    | some _ =>
      modStk fun k => { k with granules := k.granules.map fun g =>
        if g.addr = a / 64 * 64 then
          { g with bytes := patch g.bytes (a % 64) l, poison := if full then poison else g.poison || poison }
        else g }
    | none =>
      .seq (.prim (.bytes .hbm a l)) (whenP (full || poison) (.prim (.flag .hbmPoison (a / 64) poison)))

/-- A write to HBM, word by word. -/
def hbmWrite (a : Nat) (l : List Byte) : Prog := forEach (cut 64 a l) fun w => hbmWordWrite w.1 w.2 false

/-- A host page that translation refuses (R238). -/
def hostRefuses (s : State) (a : Nat) : Bool := smGet flagDefault s.mem.hostRefused (a / 4096)

/-- A byte of host memory. -/
def hostByte (s : State) (a : Nat) : Byte := smGet byteDefault s.mem.host a

/-- The pages of a range. -/
def pagesOf (a n : Nat) : List Nat := if n = 0 then [] else (List.range ((a + n - 1) / 4096 - a / 4096 + 1)).map (a / 4096 + ·)

/-- Whether a range of HBM lies in part on a stack at CRIT (R247). -/
def hotRange (s : State) (a n : Nat) : Bool :=
  (List.range 12).any (stackHot s) && (pagesOf a n).any fun k => stackHot s (stackOf s (4096 * k))

/-- Translations held for the pages of a range (R249). -/
def cacheTranslation (a n : Nat) : Prog := forEach (pagesOf a n) fun p => .prim (.flag .atc p true)

/-- A write to host memory; whole 64 B words lose the poisoned indication. -/
def hostWrite (a : Nat) (l : List Byte) : Prog :=
  forEach (cut 64 a l) fun w =>
    .seq (.prim (.bytes .host w.1 w.2)) (whenP (w.2.length == 64) (.prim (.flag .hostPoison (w.1 / 64) false)))

/-- Scratchpad size of a piste (R28): 24 MB on pistes 15, 31, 47 and 63, else 8 MB. -/
def scratchSize (p : Nat) : Nat := if p % 16 = 15 then 24 * 2 ^ 20 else 8 * 2 ^ 20

/-- The key of a scratchpad byte. -/
def scratchKey (p off : Nat) : Nat := p * 2 ^ 40 + off

/-- A write to a scratchpad: a whole 128 B beat replaces its poison (R332). -/
def scratchWrite (p off : Nat) (l : List Byte) : Prog :=
  forEach (cut 128 (scratchKey p off) l) fun w =>
    .seq (.prim (.bytes .scratch w.1 w.2)) (whenP (w.2.length == 128) (.prim (.flag .scratchPoison (w.1 / 128) false)))

/-- A write to an operand cache (key island x 2^18 + offset): a whole 128 B line replaces its poison (R332). -/
def cacheWrite (island off : Nat) (l : List Byte) : Prog :=
  forEach (cut 128 (island * 2 ^ 18 + off) l) fun w =>
    progs [.prim (.bytes .vcache w.1 w.2), forEach (List.range w.2.length) fun i => .prim (.flag .vcacheSet (w.1 + i) true),
      whenP (w.2.length == 128) (.prim (.flag .vcachePoison (w.1 / 128) false))]

/-- What a leg writes to its operand cache, by offset: lines of which it writes all 128 bytes are poisoned no longer (R138). -/
def cacheWrites (island : Nat) (l : List (Nat × List Byte)) : Prog :=
  .seq (forEach l fun x => cacheWrite island x.1 x.2) (.look fun s =>
    let full := fun c => (List.range 128).all fun i => l.any fun x => decide (x.1 ≤ 128 * c + i) && decide (128 * c + i < x.1 + x.2.length)
    forEach ((s.mem.vcachePoison.map (·.1)).filter fun k => k / 2048 == island && full (k % 2048)) fun k => .prim (.flag .vcachePoison k false))

/-- A byte of a V-gate's operand cache: one that the present run has not written is free (R137). -/
def cacheByte (s : State) (island off : Nat) : Byte :=
  let k := island * 2 ^ 18 + off
  if smGet flagDefault s.mem.vcacheSet k then smGet byteDefault s.mem.vcache k
  else nth (leBytes 8 (Config.freeWord ((gateOf s island).cacheBase + off / 8)).toNat) (off % 8) 0

/-- The key of a map memory byte. -/
def mapKey (p slot off : Nat) : Nat := p * 2 ^ 18 + slot * 2 ^ 16 + off

/-- `n` bytes of the map that begins in a slot. -/
def mapRead (s : State) (p slot off n : Nat) : List Byte := smList byteDefault s.mem.mapMem (mapKey p slot off) n

/-- The poisoned words of HBM that a read of `n` bytes delivers: each stack's status and count (R223, register table of chapter 10). -/
def deliverPoison (a n : Nat) : Prog :=
  .look fun s =>
    let words := if n = 0 then [] else (List.range ((a + n - 1) / 64 - a / 64 + 1)).map (a / 64 + ·)
    whenP (!(s.mem.hbmPoison.isEmpty && s.stk.granules.isEmpty)) (forEach (words.filter fun w => hbmPoisoned s (w * 64)) fun w =>
      .seq (wr (.stk (stackOf s (w * 64))) Reg.STK.ECC_STATUS_POISON_READ 1) (addSat (.stk (stackOf s (w * 64))) Reg.STK.POISON_COUNT 1))

end Sys2Proof.Machine
end

