-- ==== Sys2Proof/Machine/Access.lean ====
section
/-! DEFINITION. Register accesses: who may reach a page (R387, R430 to R434, R437), what a refused access does, and the effect of the access
codes of R8. -/

namespace Sys2Proof.Machine

open Sys2Proof

/-- The bit pair of an identity in PORT_ACCESS.RIGHTS (R384): the four cores are one port. -/
def rightsPort : Ident → Nat
  | .host => 0 | .mgmt => 1 | .pair => 2 | .debug => 3 | .cp _ => 4

/-- Whether the module answers an identity's port at all: never while PWR_OK is low or a reset above core level is held (R392, R394); MGMT
from boot step 2 (R401); HOST while its link is up, and before boot step 8 on the SEC pages alone (R402). -/
def answers (s : State) (id : Ident) (pg : Page) : Bool :=
  s.pins.pwrOk &&
  (match s.sec.phase with | .off => false | .held l => l == 2 | _ => true) &&
  (match id with
   | .host => rd s .hif Reg.HIF.LINK_STATUS_UP == 1 &&
      (decide (8 ≤ rd s .rst Reg.RST.BOOT_STATUS_STEP) || (match pg with | .sec _ => true | _ => false))
   | .mgmt => decide (2 ≤ rd s .rst Reg.RST.BOOT_STATUS_STEP)
   | _ => true)

/-- Whether the module holds for manufacturing test, where the debug port needs no token (R400). -/
def mfgHold (s : State) : Bool := s.sec.phase == .hold && rd s .rst Reg.RST.STRAP_CODE == 1

/-- The scope a DEBUG access needs (R412, R437): bit 0 for registers, bit 1 for CP_HALT and CP_STEP; any unlock for the rest of DBG. -/
def debugScope (s : State) (pg : Page) (o : Nat) : Bool :=
  mfgHold s ||
  rd s (.sec 0) Reg.SEC0.DBG_STATUS_UNLOCKED == 1 &&
  (let sc := rd s (.sec 0) Reg.SEC0.DBG_STATUS_SCOPE
   if pg = .dbg then (if o = 0x104 ∨ o = 0x108 then bit sc 1 else true) else bit sc 0)

/-- Whether PORT_ACCESS and the port itself allow an access (R387, R433, R437). -/
def allowed (s : State) (id : Ident) (pg : Page) (o : Nat) (write : Bool) : Bool :=
  let r := rd s pg Reg.COMMON.PORT_ACCESS_RIGHTS
  (isCp id || bit r (2 * rightsPort id + ofBool write)) &&
  (match id with | .debug => debugScope s pg o | _ => pg != .dbg)

/-- A denied access: counted, and the first since DENIED was cleared is kept (R387). -/
def denied (id : Ident) (a : Nat) (write : Bool) : Prog :=
  .look fun s => progs [
    addSat .hif Reg.HIF.DENIED_COUNT 1,
    whenP (rd s .hif Reg.HIF.HIF_CHECK_DENIED == 0) (progs [
      wr .hif Reg.HIF.DENIED_ADDR a, wr .hif Reg.HIF.DENIED_PORT_IDENTITY (identCode id),
      wr .hif Reg.HIF.DENIED_PORT_WRITE (ofBool write), wr .hif Reg.HIF.HIF_CHECK_DENIED 1])]

/-- A cleared page ignores writes from HOST, MGMT and PAIR until firmware reports ready (R431). -/
def closed (s : State) (id : Ident) (pg : Page) : Bool :=
  coreCleared pg && (match id with | .host => true | .mgmt => true | .pair => true | _ => false) && s.sec.phase != .ready

/-- An access that the rules of R387 and R431 let through runs `p`; one they deny is counted; one to a port that does not answer does
nothing. A write to a block register of a stopped unit is ignored (R432) unless `live`. -/
def access (id : Ident) (a : Nat) (write live : Bool) (p : Prog) : Prog :=
  .look fun s =>
    match pageAt a with
    | none => .skip
    | some pg =>
      if !answers s id pg then .skip
      else if !allowed s id pg (a % 4096) write then denied id a write
      else if write && closed s id pg then .skip
      else if write && !live && decide (0x100 ≤ a % 4096) && offline s pg then .skip
      else p

/-- A write to a register with a rule of its own, by page and field. -/
def writeTo (id : Ident) (pg : Page) (f : Fld) (p : Prog) (i : Nat := 0) : Prog := access id (fldAddr pg f i) true false p

/-- The lock that an RWL field of a page's block registers follows (R8). -/
def pageLocked (s : State) : Page → Bool
  | .gate p g => gateKind g == 1 && rd s (.gate p g) Reg.GATEM.SPARE_LOCK_LOCK == 1
  | .mbx 1 => rd s (.mbx 1) Reg.MBX1.BIND_LOCK_LOCK == 1
  | .bnd 7 => rd s (.bnd 7) Reg.BND7.FAB_CTRL_LOCK == 1
  | .mod 3 => rd s (.mod 3) Reg.MOD3.CFG_LOCK_LOCK == 1
  | .mod 4 => rd s (.mod 4) Reg.MOD4.MIR_LOCK_LOCK == 1
  | .hif => rd s .hif Reg.HIF.HDM_LOCK_LOCK == 1
  | _ => false

/-- A field after a write under its access code (R8): `locked` for RWL, `stopped` when only W1C bits still accept writes (R432). -/
def writeField (locked stopped : Bool) (old v : Nat) (f : Fld) : Nat :=
  let x := bits v f.lo f.w
  let cur := bits old f.lo f.w
  match f.acc with
  | .rw => if stopped then old else putBits old f.lo f.w x
  | .w1c => putBits old f.lo f.w (cur - (cur.land x))
  | .w1s => if stopped then old else putBits old f.lo f.w (cur.lor x)
  | .rwl => if locked || stopped then old else putBits old f.lo f.w x
  | _ => old

/-- A word after a write of all its fields. -/
def writeWordFields (fs : List Fld) (locked stopped : Bool) (old v : Nat) : Nat := fs.foldl (fun o f => writeField locked stopped o v f) old

/-- The plain write of a register word, by the access codes of its fields (R8). -/
def plainWrite (pg : Page) (o v : Nat) : Prog :=
  .look fun s =>
    let a := pageBase pg + o
    .prim (.reg a (BitVec.ofNat 32 (writeWordFields (wordFields pg o) (pageLocked s pg) (decide (0x100 ≤ o) && offline s pg) (regWord s a).toNat v)))

/-- SMB_ALERT_N is low while an enabled alarm class is set (R345) or a doorbell to MGMT waits for its STATUS read (R274). -/
def alertCause (s : State) : Bool :=
  ((wordAt s (pageBase (.mod 1) + 0x10)).toNat % 2 ^ 16).land (rd s (.mod 1) Reg.MOD1.ALARM_SMB) != 0 || !s.ports.mgmtAlert.isEmpty

/-- The pin driven by its causes. -/
def driveAlert : Prog := .look fun s => modPins fun p => { p with smbAlertN := !alertCause s }

/-- Whether a write of the common layout changes nothing: PAIR writes of `MOD[4]` change JOIN alone (R434). -/
def pairReadOnly (id : Ident) (pg : Page) : Bool := id == .pair && pg == .mod 4

/-- A value returned to an identity's port (log entry 19). -/
def respond (id : Ident) (v : Nat) : Prog :=
  modPorts fun p => { p with response := smSet zeroDefault p.response (identCode id) v }

/-- A read that is denied, or of no page, returns 0 (R387, R428). -/
def readAccess (id : Ident) (a : Nat) (p : Page → Prog) : Prog :=
  .look fun s =>
    match pageAt a with
    | none => respond id 0
    | some pg =>
      if !answers s id pg then .skip
      else if !allowed s id pg (a % 4096) false then .seq (respond id 0) (denied id a false)
      else p pg

/-- The operation on the page whose frame number is given. -/
def onPage (page : Nat) (p : Page → Prog) : Prog :=
  match pageAt (page * 4096) with
  | none => .skip
  | some pg => p pg

end Sys2Proof.Machine
end

