-- ==== Sys2Proof/Machine/Crc.lean ====
section
/-! DEFINITION. The CRC-32C of map images (R34) and the CRC-64 of flits (R280). The spec names the codes; their bit order, start value and final
value are the published ones (PRESUMED, log entry 7). -/

namespace Sys2Proof.Machine

open Sys2Proof

/-- One bit of a reflected CRC-32C step. -/
def crc32Bit (c : Nat) : Nat := if c % 2 = 1 then (c / 2).xor 0x82F63B78 else c / 2

/-- One byte into CRC-32C. -/
def crc32Byte (c : Nat) (b : Byte) : Nat :=
  crc32Bit (crc32Bit (crc32Bit (crc32Bit (crc32Bit (crc32Bit (crc32Bit (crc32Bit (c.xor b.toNat))))))))

/-- CRC-32C of a byte list. -/
def crc32c (l : List Byte) : Nat := (l.foldl crc32Byte 0xFFFFFFFF).xor 0xFFFFFFFF

/-- One bit of a CRC-64 step with the polynomial of ECMA-182, most significant bit first. -/
def crc64Bit (c : Nat) : Nat :=
  if c / 2 ^ 63 % 2 = 1 then (c * 2 % 2 ^ 64).xor 0x42F0E1EBA9EA3693 else c * 2 % 2 ^ 64

/-- One byte into CRC-64. -/
def crc64Byte (c : Nat) (b : Byte) : Nat :=
  crc64Bit (crc64Bit (crc64Bit (crc64Bit (crc64Bit (crc64Bit (crc64Bit (crc64Bit (c.xor (b.toNat * 2 ^ 56)))))))))

/-- CRC-64 of a byte list. -/
def crc64 (l : List Byte) : Nat := l.foldl crc64Byte 0

end Sys2Proof.Machine
end

