-- ==== Sys2Proof/Machine/BaondTx.lean ====
section
/-! DEFINITION. Sending over Baond: message and flit layout (R280, R289 to R291), credits and replay (R281 to R285), routing (R296 to R298) and
request tags (R294). -/

namespace Sys2Proof.Machine

open Sys2Proof

/-- Whether the module answers for its partner's identity (R359). -/
def inTakeover (s : State) : Bool := rd s (.bnd 7) Reg.BND7.FAB_CTRL_TAKEOVER == 1

/-- The partner's node identity (R296). -/
def partnerNode (s : State) : Nat := putBits (ownNode s) 15 1 (1 - bits (ownNode s) 15 1)

/-- A change of port `p`'s link. -/
def modLink (p : Nat) (f : LinkSt → LinkSt) : Prog :=
  modBnd fun b => { b with links := smSet (fun _ => LinkSt.down) b.links p (f (smGet (fun _ => LinkSt.down) b.links p)) }

/-- Word 0 of a message header (R289). -/
def msgWord0 (m : Msg) : Nat :=
  m.cls % 8 + m.op % 32 * 2 ^ 3 + m.dst % 2 ^ 16 * 2 ^ 8 + m.src % 2 ^ 16 * 2 ^ 24 + m.len % 2 ^ 13 * 2 ^ 40 + m.vl % 2 * 2 ^ 53 +
  ofBool m.resp * 2 ^ 54 + ofBool m.poison * 2 ^ 55 + m.space % 2 * 2 ^ 56 + ofBool m.detoured * 2 ^ 57 + m.hops % 64 * 2 ^ 58

/-- Word 1 of a message header (R289). -/
def msgWord1 (m : Msg) : Nat := m.addr % 2 ^ 50 + m.tag % 2 ^ 14 * 2 ^ 50

/-- The 16 header bytes. -/
def msgHeader (m : Msg) : List Byte := leBytes 8 (msgWord0 m) ++ leBytes 8 (msgWord1 m)

/-- A message header read from its words, with no data yet. -/
def msgOfWords (w0 w1 : Nat) : Msg :=
  { cls := bits w0 0 3, op := bits w0 3 5, dst := bits w0 8 16, src := bits w0 24 16, len := bits w0 40 13, vl := bits w0 53 1, resp := bit w0 54,
    poison := bit w0 55, space := bits w0 56 1, detoured := bit w0 57, hops := bits w0 58 6, addr := bits w1 0 50, tag := bits w1 50 14, data := [] }

/-- The mirror tap sends only while the pair is PAIRED and port P is UP with its peer READY (R355). -/
def tapOpen (s : State) : Bool :=
  rd s (.mod 4) Reg.MOD4.PAIR_STATUS_STATE == 1 && rd s (.bnd 6) Reg.BND.PORT_STATUS_STATE == 2 && (linkOf s 6).peerReady

/-- The receive pool of a message (R280). -/
def msgPool (m : Msg) : Nat := m.cls * 4 + m.vl * 2 + ofBool m.resp

/-- The payloads of a message's flits: the header and 224 bytes, then 240 bytes each; a payload with room left ends with LEN 8,191 (R291). -/
def msgPayloads (m : Msg) : List (List Byte) :=
  let all := msgHeader m ++ m.data
  let used := ceilDiv all.length 16 * 16
  if all.length ≤ 240 then
    let body := padTo used 0 all
    [padTo 240 0 (if used < 240 then body ++ leBytes 8 (8191 * 2 ^ 40) ++ leBytes 8 0 else body)]
  else (pieces 240 all).map (padTo 240 0)

/-- A flit (R280): header fields, payload, CRC. -/
def flitBytes (ftype seq ack pool count : Nat) (nak : Bool) (payload : List Byte) : List Byte :=
  let h := ftype % 16 + seq % 4096 * 2 ^ 4 + ack % 4096 * 2 ^ 16 + pool % 32 * 2 ^ 28 + count % 256 * 2 ^ 33 + ofBool nak * 2 ^ 41
  let body := leBytes 8 h ++ padTo 240 0 payload
  body ++ leBytes 8 (crc64 body)

/-- A flit leaves port `p` under a SEQ: it carries ACK, the next pool's freed count in rotation and a NAK that is due (R280 to R284). -/
def putFlit (p ftype seq : Nat) (payload : List Byte) : Prog :=
  .look fun s =>
    let l := linkOf s p
    let f := flitBytes ftype seq l.rxSeq l.poolTurn (smGet zeroDefault l.freed l.poolTurn) l.nakDue payload
    .seq (modLink p fun k => { k with poolTurn := (k.poolTurn + 1) % 28, nakDue := false })
      (modBnd fun b => { b with flitOut := b.flitOut ++ [(p, f)] })

/-- A new flit leaves port `p`: a sequenced one takes the next SEQ and stays in the replay buffer until acknowledged (R280, R282). -/
def emitFlit (p ftype : Nat) (payload : List Byte) (sequenced : Bool) : Prog :=
  .look fun s =>
    let n := (linkOf s p).txSeq
    if sequenced then
      .seq (putFlit p ftype n payload)
        (modLink p fun k => { k with txSeq := (n + 1) % 4096, replay := k.replay ++ [{ seq := n, ftype := ftype, payload := payload }] })
    else putFlit p ftype 0 payload

/-- The peer's pool has room for every flit of a message, and the replay buffer too (R282, R284). -/
def canSend (l : LinkSt) (m : Msg) : Bool :=
  let n := (msgPayloads m).length
  decide (n ≤ smGet zeroDefault l.credits (msgPool m)) && decide (l.replay.length + n ≤ 1024)

/-- How far a class is behind the class served last, in rotation. -/
def turnDistance (last c : Nat) : Nat := (c + 8 - (last + 1) % 8) % 8

/-- The message with the nearest turn of those given. -/
def nearestTurn (last : Nat) (l : List Msg) : Option Msg :=
  l.foldl (fun b m => match b with
    | none => some m
    | some x => if turnDistance last m.cls < turnDistance last x.cls then some m else some x) none

/-- Messages that keep their order: of the same source, destination and class (R299), and of one direction, since R285 sends responses ahead of
requests. DEDUCED (log entry 92). -/
def sameKind (x m : Msg) : Bool := x.src == m.src && x.dst == m.dst && x.cls == m.cls && x.resp == m.resp

/-- Whether a message is the first of its kind among messages in order. -/
def firstOfKind (ms : List Msg) (m : Msg) : Bool := ms.find? (sameKind m) == some m

/-- The next message a port sends (R285): SYNC first, then responses, then requests, each in rotation of class, among those that no earlier message
of their kind waits before (R299) and that have credits. -/
def nextMsg (l : LinkSt) (ms : List Msg) : Option Msg :=
  let ok := ms.filter fun m => firstOfKind ms m && canSend l m
  let sync := ok.filter (·.cls == 0)
  let resp := ok.filter fun m => m.cls != 0 && m.resp
  let req := ok.filter fun m => m.cls != 0 && !m.resp
  match sync.head? with
  | some m => some m
  | none => match nearestTurn l.lastResp resp with
    | some m => some m
    | none => nearestTurn l.lastReq req

/-- A list without its first item equal to `x`. -/
def eraseFirst {α : Type} [DecidableEq α] (x : α) : List α → List α
  | [] => []
  | y :: r => if y = x then r else y :: eraseFirst x r

/-- One message sent on port `p`: its flits back to back, one credit each (R284). -/
def sendOne (p : Nat) (m : Msg) : Prog :=
  let fl := msgPayloads m
  progs [
    modBnd fun b => { b with msgOut := eraseFirst (p, m) b.msgOut },
    modLink p fun l =>
      { l with
        credits := smSet zeroDefault l.credits (msgPool m) (smGet zeroDefault l.credits (msgPool m) - fl.length)
        lastResp := if m.cls != 0 && m.resp then m.cls else l.lastResp
        lastReq := if m.cls != 0 && !m.resp then m.cls else l.lastReq },
    forEach (List.range fl.length) fun i => emitFlit p (if i = 0 then 1 else 2) (nth fl i []) true]

/-- Port `p` sends what its credits allow, at most `n` messages. -/
def pump (p : Nat) : Nat → Prog
  | 0 => .skip
  | n + 1 => .look fun s =>
    whenP (mayCross s p) (match nextMsg (linkOf s p) ((s.bnd.msgOut.filter (·.1 == p)).map (·.2)) with
      | none => .skip
      | some m => .seq (sendOne p m) (pump p n))

/-- Port `p` sends what it can. -/
def pumpPort (p : Nat) : Prog := .look fun s => pump p s.bnd.msgOut.length

/-- A message put on port `p`. -/
def queueOn (p : Nat) (m : Msg) : Prog := .seq (modBnd fun b => { b with msgOut := b.msgOut ++ [(p, m)] }) (pumpPort p)

/-- A message for this node reaches its inbox, with the flits of the port's pool it holds; port 7 stands for the node itself. -/
def deliver (p flits : Nat) (m : Msg) : Prog := modBnd fun b => { b with inbox := b.inbox ++ [{ port := p, flits := flits, msg := m }] }

/-- The first UNREACHABLE or PEER_TIMEOUT since FAB_CHECK was cleared (register table of chapter 12). -/
def fabFirst (node cls : Nat) : Prog :=
  .look fun s => whenP (rd s (.bnd 7) Reg.BND7.FAB_CHECK_UNREACHABLE == 0 && rd s (.bnd 7) Reg.BND7.FAB_CHECK_PEER_TIMEOUT == 0)
    (.seq (wr (.bnd 7) Reg.BND7.FIRST_NODE node) (wr (.bnd 7) Reg.BND7.FIRST_CLASS cls))

/-- The NAK of a request (R293): reasons 1 REFUSED, 2 UNREACHABLE, 3 CORE_RESET; its data is the request's header. -/
def nakOf (s : State) (m : Msg) (reason : Nat) : Msg :=
  { cls := m.cls, op := 31, dst := m.src, src := ownNode s, len := 16, vl := 0, resp := true, poison := false, space := 0, detoured := false, hops := 0,
    addr := reason, tag := m.tag, data := msgHeader m }

/-- The axis and direction of the next hop (R297): `none` to deliver, an error for a coordinate outside the torus, else a port. -/
def routePort (s : State) (dst : Nat) : Option (Option Nat) :=
  let own := ownNode s
  if dst = own then none
  else
    match (List.range 3).find? fun a => nodeAxis dst a != nodeAxis own a with
    | none => some (some 6)
    | some a =>
      let d := dimOf s a
      if d ≤ nodeAxis dst a then some none
      else
        let delta := (nodeAxis dst a + d - nodeAxis own a % d) % d
        some (some (2 * a + if 2 * delta ≤ d then 0 else 1))

/-- The virtual lane of a hop (R297): 1 once the route from the source along this axis has crossed between coordinates D - 1 and 0, this hop
included, or when the message is detoured; 0 on P. -/
def hopLane (s : State) (m : Msg) (p : Nat) : Nat :=
  if m.detoured then 1 else if p = 6 then 0
  else
    let a := p / 2
    let d := dimOf s a
    let from_ := nodeAxis m.src a
    let own := nodeAxis (ownNode s) a
    if p % 2 = 0 then (if d ≤ from_ + ((own + d - from_ % d) % d + 1) then 1 else 0)
    else (if from_ < (from_ + d - own % d) % d + 1 then 1 else 0)

/-- The node across port `p`. -/
def nextNode (s : State) (p : Nat) : Nat :=
  let own := ownNode s
  if p = 6 then putBits own 15 1 (1 - bits own 15 1)
  else
    let a := p / 2
    let d := dimOf s a
    putBits own (5 * a) 5 ((nodeAxis own a + (if p % 2 = 0 then 1 else d - 1)) % d)

/-- What becomes of a message that cannot be routed: a request is answered with a NAK, through `back`, and a response is discarded; NAK UNREACHABLE
and a discard are counted (R298, R302). -/
def unreachable (m : Msg) (reason : Nat) (back : Msg → Prog) : Prog :=
  .look fun s => progs [
    whenP (reason == 2 || m.resp) (progs [
      addSat (.bnd 7) Reg.BND7.UNREACH_COUNT 1, fabFirst m.dst m.cls, wr (.bnd 7) Reg.BND7.FAB_CHECK_UNREACHABLE 1]),
    whenP (!m.resp) (back (nakOf s m reason))]

/-- Whether the node across a port has a partner, as its link record said (R280), or as a pair across port P. -/
def peerPaired (s : State) (p : Nat) : Bool :=
  rd s (.bnd p) Reg.BND.PEER_ROLE != 0 || (p == 6 && rd s (.mod 4) Reg.MOD4.PAIR_STATUS_ROLE != 0)

/-- A message on its way from this node (R297, R298), at most `n` redirections. A request for a peer in core reset is answered NAK CORE_RESET (R302). A NAK for this node's own request comes to its inbox. A message for the
partner that R298 redirects here is served under R360 in takeover, and else answered NAK UNREACHABLE. -/
def routeMsg : Nat → Msg → Prog
  | 0, _ => .skip
  | n + 1, m => .look fun s =>
    match routePort s m.dst with
    | none => deliver 7 0 m
    | some none => unreachable m 2 (routeMsg n)
    | some (some p) =>
      if 63 ≤ m.hops then unreachable m 2 (routeMsg n)
      else if usable s p then queueOn p { m with hops := m.hops + 1, vl := hopLane s m p }
      else if rd s (.bnd p) Reg.BND.PORT_STATUS_STATE == 3 && nextNode s p == m.dst && !m.resp then unreachable m 3 (routeMsg n)
      else if nextNode s p == m.dst && rd s (.bnd 7) Reg.BND7.FAB_CTRL_PAIR_REDIRECT == 1 && peerPaired s p then
        (if p = 6 then (if inTakeover s then deliver 7 0 { m with detoured := true } else unreachable m 2 (routeMsg n))
        else routeMsg n { m with dst := putBits m.dst 15 1 (1 - bits m.dst 15 1), detoured := true })
      else
        let d := rd s (.bnd p) Reg.BND.DETOUR_PORT
        if rd s (.bnd p) Reg.BND.DETOUR_VALID == 1 && d != 7 && usable s d then
          queueOn d { m with detoured := true, vl := 1, hops := m.hops + 1 }
        else unreachable m 2 (routeMsg n)

/-- A message sent by this node. -/
def sendMsg (m : Msg) : Prog := .look fun s => routeMsg 8 { m with src := ownNode s }

/-- A message of this node with its common fields. -/
def mkMsg (cls op dst space addr : Nat) (data : List Byte) (poison : Bool) : Msg :=
  { cls := cls, op := op, dst := dst, src := 0, len := data.length, vl := 0, resp := false, poison := poison, space := space, detoured := false,
    hops := 0, addr := addr, tag := 0, data := data }

/-- The first free tag from `t` on, at most `n` tried. -/
def freeTag (l : List TagRec) : Nat → Nat → Nat
  | 0, t => t
  | n + 1, t => if l.any (·.tag == t) then freeTag l n ((t + 1) % 16384) else t

/-- A request sent under a free tag (R294). -/
def sendTagged (m : Msg) (r : TagRec) : Prog :=
  .look fun s =>
    let t := freeTag s.bnd.tags s.bnd.tags.length s.bnd.nextTag
    .seq (modBnd fun b => { b with nextTag := (t + 1) % 16384, tags := b.tags ++ [{ r with tag := t }] }) (sendMsg { m with tag := t })

/-- Whether a request may take a tag: one of the module's 16,384 (R294), and of its piste's 256 (R241). -/
def tagFree (s : State) (r : TagRec) : Bool :=
  decide (s.bnd.tags.length < 16384) && (r.piste.isNone || decide ((s.bnd.tags.filter (·.piste == r.piste)).length < 256))

/-- A request with a response (R241, R294): it takes a tag and is sent, or waits while none is free, behind earlier ones of its piste. -/
def request (m : Msg) (piste : Option Nat) (gate leg purpose : Nat) (len space : Nat := 0) : Prog :=
  .look fun s =>
    let r : TagRec :=
      { tag := 0, node := m.dst, cls := m.cls, piste := piste, run := piste.bind fun p => (pisteOf s p).run, gate := gate, leg := leg, purpose := purpose,
        space := space, addr := m.addr, len := len, came := 0 }
    if tagFree s r && s.bnd.tagWait.all (·.2.piste != piste) then sendTagged m r
    else modBnd fun b => { b with tagWait := b.tagWait ++ [(m, r)] }

/-- A tag freed (R241, R294), and the oldest waiting request that may have one sent. -/
def freeTagOf (t : Nat) : Prog :=
  .seq (modBnd fun b => { b with tags := b.tags.filter (·.tag != t) }) (.look fun s =>
    match s.bnd.tagWait.find? fun x => tagFree s x.2 with
    | none => .skip
    | some x => .seq (modBnd fun b => { b with tagWait := eraseFirst x b.tagWait }) (sendTagged x.1 x.2))

/-- Whether a leg, or with `leg` none any leg of a piste, has requests of its present run without a response. -/
def tagsOpen (s : State) (p : Nat) (g leg : Option Nat) : Bool :=
  let hit := fun (r : TagRec) => r.piste == some p && r.run == (pisteOf s p).run && (g.isNone || g == some r.gate) && (leg.isNone || leg == some r.leg)
  s.bnd.tags.any hit || s.bnd.tagWait.any fun x => hit x.2

/-- A SIGNAL message (R290): counter, round and amount in word 1, the source's island and queue in its data. -/
def signalMsg (node counter round amount island queue : Nat) : Msg :=
  let w1 := counter % 4096 + round % 65536 * 2 ^ 12 + amount % 2 ^ 32 * 2 ^ 32
  { mkMsg 0 0 node 0 (w1 % 2 ^ 50) (leBytes 8 (island % 1024 + queue % 64 * 2 ^ 16)) false with tag := w1 / 2 ^ 50 }

end Sys2Proof.Machine
end

