-- ==== Sys2Proof/Machine/RunCore.lean ====
section
/-! DEFINITION. Runs as every other part sees them: finding a piste's run, ending a run by a fault (R46, R50), and marking a piste for a fence
(R336). -/

namespace Sys2Proof.Machine

open Sys2Proof

/-- A run by its number. -/
def findRun (s : State) (id : Nat) : Option RunRec := s.runs.runs.find? (·.id == id)

/-- A change of one run. -/
def modRun (id : Nat) (f : RunRec → RunRec) : Prog :=
  modRuns fun r => { r with runs := r.runs.map fun x => if x.id = id then f x else x }

/-- An uncorrectable SRAM error counted (R332). -/
def countUe : Prog := addSat (.mod 1) Reg.MOD1.SRAM_UE_COUNT 1

/-- An uncorrectable error in an island's control storage (R332): FATAL, after which every command accepted completes with SRAM_UE. -/
def controlUe (island : Nat) : Prog :=
  progs [countUe, raiseSev 3 Code.SRAM_UE island 0 noLeg 0 [w32 (Config.storageCode 2).toNat] fun _ => .skip, modHost fun h => { h with sramFatal := true }]

/-- An error found in on-die storage outside legs (R332): corrected and counted, or in control storage. -/
def ramFound : SramErr → Prog
  | .corrected _ => addSat (.mod 1) Reg.MOD1.SRAM_CE_COUNT 1
  | .control i => controlUe i
  | _ => .skip

/-- The run in progress on a piste. -/
def runOn (s : State) (p : Nat) : Option RunRec := (pisteOf s p).run.bind (findRun s)

/-- ITERATION of the run in progress on a piste, 0 with none (R346). -/
def iterOn (s : State) (p : Nat) : Nat := match runOn s p with | some r => r.iter | none => 0

/-- The island of a gate (R23). -/
def gateIsland (p g : Nat) : Nat := 12 * p + g

/-- A status kept as the run's first failure. -/
def runFailure (id status island leg : Nat) (uid : Option Nat) : Prog :=
  modRun id fun r => if r.status = 0 then { r with status := status, island := island, leg := leg, recUid := uid } else r

/-- A gate without the leg it stands at, whose entries and results are discarded (R50). -/
def dropLeg (x : GateSt) : GateSt := { x with took := [], need := 0, held := [], busy := false }

/-- A fault ends the run on a piste (R50): its gates issue no further legs, its legs' results and due SIGNALs are discarded, its waits are
withdrawn, with which no datapath of it stays stopped (R257), and the run keeps the first failure. -/
def failRun (p status island leg : Nat) (uid : Option Nat) : Prog :=
  .look fun s =>
    match (pisteOf s p).run with
    | none => .skip
    | some id => progs [
        runFailure id status island leg uid,
        modPiste p fun x => { x with failed := true },
        wr (.pst p) Reg.PST.RUN_STATUS_STATE 3,
        modUnits fun u =>
          { u with
            fetched := u.fetched.filter (·.piste != p)
            outStage := u.outStage.filter (·.piste != p)
            signalsDue := u.signalsDue.filter (·.piste != p)
            marksDue := u.marksDue.filter (·.piste != p)
            chans := u.chans.map fun e => if e.1 / 16 = p then (e.1, { e.2 with waiting := none, expired := false }) else e },
        forEach (List.range 12) fun g => modGate (gateIsland p g) dropLeg,
        modSync fun y =>
          { y with
            waits := y.waits.filter fun w => !(w.island / 12 == p && decide (w.island < 768))
            gated := smDrop (fun k => k / 12 == p && decide (k < 768)) y.gated }]

/-- A fault record of a gate that also ends its piste's run (R46, R50). -/
def faultLeg (p g leg code unit : Nat) (items : List Item) : Prog :=
  .look fun s => raiseSev 2 code (gateIsland p g) (iterOn s p) leg unit items fun u => failRun p code (gateIsland p g) leg (some u)

/-- A cause under rung 3 marks the piste, which the record names by its island (R13), for a fence at its next run boundary, unless it is marked or
fenced already (R336 step 1). -/
def fenceCause (p cause : Nat) : Prog :=
  .look fun s =>
    whenP (rd s (.pst p) Reg.PST.RUN_CTRL_FENCE_PENDING == 0 && rd s (.pst p) Reg.PST.RUN_CTRL_FENCED == 0) (progs [
      wr (.pst p) Reg.PST.RUN_CTRL_FENCE_PENDING 1, wr (.pst p) Reg.PST.RUN_CTRL_FENCE_CAUSE cause,
      raise Code.PISTE_FENCE (768 + p) (iterOn s p) noLeg 0 [w32 (768 + p), w32 cause]])

end Sys2Proof.Machine
end

