-- ==== Sys2Proof/Machine/Sync.lean ====
section
/-! DEFINITION. Sync counters, waits, producer-consumer pairs and barriers (R251 to R268). -/

namespace Sys2Proof.Machine

open Sys2Proof

/-- The count of a global counter (R251). -/
def countOf (s : State) (i : Nat) : Nat := smGet zeroDefault s.counts i
/-- The count of a local event (R41). -/
def eventOf (s : State) (p e : Nat) : Nat := smGet zeroDefault s.sync.events (p * 256 + e)

/-- A counter's MODE (R253). -/
def counterMode (s : State) (i : Nat) : Nat := rd s (.syn (i / 256)) Reg.SYN.CFG_MODE (i % 256)
/-- A counter's INDEX (R253). -/
def counterIndex (s : State) (i : Nat) : Nat := rd s (.syn (i / 256)) Reg.SYN.CFG_INDEX (i % 256)

/-- The source word of a SIGNAL or arrival (R265). -/
def sourceWord : Source → Nat
  | .remote n => 2 ^ 31 + n % 2 ^ 16
  | .sigGo id => 2 ^ 30 + identCode id
  | .die i q => i % 1024 + q % 64 * 2 ^ 16

/-- A firmware core receives the status that its wait ended with (R259). -/
def fwStatus (w : WaitRec) (status : Nat) : Prog :=
  whenP (w.island == 852) (modFw fun f => { f with waitStatus := smSet zeroDefault f.waitStatus w.queue (status + 1) })

/-- A satisfied wait is removed and its waiter woken (R258): a gate's wait stands satisfied and its datapath runs again; a WAIT command completes
with the count; a firmware core receives its status. -/
def wake (w : WaitRec) (count : Nat) : Prog :=
  progs [
    modSync fun y => { y with waits := eraseFirst w y.waits, gated := smSet flagDefault y.gated w.island false },
    whenP (decide (w.island < 768)) (modGate w.island fun g => { g with waitOk := true }),
    finishOpt w.cmd 0 count,
    fwStatus w 0]

/-- The waits on a counter or local event compared with its count (R255). -/
def testWaits (localOf : Option Nat) (i count : Nat) : Prog :=
  .look fun s => forEach (s.sync.waits.filter fun w => w.localOf == localOf && w.counter == i && decide (w.target ≤ count)) fun w => wake w count

/-- A SIGNAL to a local event (R41). -/
def signalEvent (p e amount : Nat) : Prog :=
  .look fun s =>
    let c := min countMax (eventOf s p e + amount)
    .seq (modSync fun y => { y with events := smSet zeroDefault y.events (p * 256 + e) c }) (testWaits (some p) e c)

/-- A count rises; past 2^64 - 1 it stops there and SYNC_SATURATE names the counter (R251). -/
def addCount (i amount : Nat) : Prog :=
  .look fun s => progs [
    whenP (decide (countMax < countOf s i + amount)) (raise Code.SYNC_SATURATE 852 0 noLeg 0 [w32 i]),
    .prim (.count i amount),
    .look fun t => testWaits none i (countOf t i)]

/-- The enabled pair entries, from the words of `SYN[17]` that hold something (R261). -/
def enabledPairs (s : State) : List Nat :=
  (s.regs.filter fun e => decide (0x91100 ≤ e.1) && decide (e.1 < 0x91900) && e.1 % 8 == 0 && bit e.2.toNat 31).map fun e => (e.1 - 0x91100) / 8

/-- Whether an enabled pair entry names a counter. -/
def inPair (s : State) (i : Nat) : Bool :=
  (enabledPairs s).any fun e => rd s (.syn 17) Reg.SYN17.PAIR_PRODUCER e == i || rd s (.syn 17) Reg.SYN17.PAIR_CONSUMER e == i

/-- The counters in ARRIVAL mode that name a barrier, from the CFG words that hold something (R266). -/
def arrivalCounters (s : State) (b : Nat) : List Nat :=
  (s.regs.filter fun e => decide (0x80000 ≤ e.1) && decide (e.1 < 0x90000) && decide (0x900 ≤ e.1 % 4096) && decide (e.1 % 4096 < 0xD00) &&
    bits e.2.toNat 0 2 == 2 && bits e.2.toNat 8 8 == b).map fun e => (e.1 - 0x80000) / 4096 * 256 + (e.1 % 4096 - 0x900) / 4

/-- What a fault of a SIGNAL does to its source (R262): a leg's run ends, a SIGNAL command's status; in every other case the record is the only
report. The severity follows (R454). -/
def sourceFault (x : SigRec) (code island unit : Nat) (items : List Item) (report : Bool) : Prog :=
  let hard := x.run.isSome || x.cmd.isSome
  let after := fun (u : Option Nat) => match x.run, x.src with
    | some id, .die i _ => .look fun s => whenP ((pisteOf s (i / 12)).run == some id) (failRun (i / 12) code i x.leg u)
    | _, _ => .skip
  if report then raiseSev (if hard then 2 else 1) code island 0 noLeg unit items fun u => after (some u) else after none

/-- A SIGNAL command completes, with the status that the check of a pair or barrier gives and the count of its own counter (R262, R381). -/
def finishSignal (x : SigRec) (status : Nat) : Prog :=
  .look fun s =>
    let own := match x.cmd.bind (findCmd s) with
      | some c => (match c.body with
        | some (.signal i _ _) => i
        | _ => x.counter)
      | none => x.counter
    finishOpt x.cmd status (countOf s own)

/-- The fault of a pair entry after a SIGNAL (R261): SYNC_UNDERFLOW, SYNC_OVERFLOW, or 0. -/
def pairFault (s : State) (e : Nat) : Nat :=
  let p := countOf s (rd s (.syn 17) Reg.SYN17.PAIR_PRODUCER e)
  let c := countOf s (rd s (.syn 17) Reg.SYN17.PAIR_CONSUMER e)
  if p < c then Code.SYNC_UNDERFLOW
  else if rd s (.syn 17) Reg.SYN17.PAIR_DEPTH e < p - c then Code.SYNC_OVERFLOW else 0

/-- A faulting pair entry is latched, counted and, for the first since its bit was cleared, recorded (R262). -/
def pairReport (x : SigRec) (e code : Nat) : Prog :=
  .look fun s =>
    let under := code == Code.SYNC_UNDERFLOW
    let f := if under then Reg.SYN16.PAIR_STATUS_UNDERFLOW else Reg.SYN16.PAIR_STATUS_OVERFLOW
    let first := rd s (.syn 16) f == 0
    let none_ := rd s (.syn 16) Reg.SYN16.PAIR_STATUS_UNDERFLOW == 0 && rd s (.syn 16) Reg.SYN16.PAIR_STATUS_OVERFLOW == 0
    progs [
      addSat (.syn 16) Reg.SYN16.PAIR_FAULT_COUNT 1,
      wr (.syn 16) f 1,
      whenP none_ (wr (.syn 16) Reg.SYN16.PAIR_STATUS_FIRST e),
      sourceFault x code 852 0
        [w32 e, w64 (countOf s (rd s (.syn 17) Reg.SYN17.PAIR_PRODUCER e)), w64 (countOf s (rd s (.syn 17) Reg.SYN17.PAIR_CONSUMER e)), w32 (sourceWord x.src)]
        first]

/-- The pair entry that names a counter, if any. -/
def pairOf (s : State) (i : Nat) : Option Nat :=
  (enabledPairs s).find? fun e => rd s (.syn 17) Reg.SYN17.PAIR_PRODUCER e == i || rd s (.syn 17) Reg.SYN17.PAIR_CONSUMER e == i

/-- A SIGNAL to a PLAIN counter: the count rises, registered waits and the pair entry are tested, and a command completes (R252, R261, R262). -/
def signalPlain (x : SigRec) : Prog :=
  .seq (addCount x.counter x.amount) (.look fun s =>
    match pairOf s x.counter with
    | none => finishSignal x 0
    | some e =>
      let f := pairFault s e
      if f = 0 then finishSignal x 0 else .seq (pairReport x e f) (finishSignal x f))

/-- The page and index of a barrier (R264). -/
def barPage (b : Nat) : Page := .bar (b / 128)

/-- A region entry's fields (R47). -/
def rgnBase (e : BitVec 128) : Nat := bits e.toNat 0 48
/-- LOC -/
def rgnLoc (e : BitVec 128) : Nat := bits e.toNat 48 2
/-- RD -/
def rgnRd (e : BitVec 128) : Bool := bit e.toNat 50
/-- WR -/
def rgnWr (e : BitVec 128) : Bool := bit e.toNat 51
/-- AT -/
def rgnAt (e : BitVec 128) : Bool := bit e.toNat 52
/-- FROZEN -/
def rgnFrozen (e : BitVec 128) : Bool := bit e.toNat 53
/-- PF -/
def rgnPf (e : BitVec 128) : Bool := bit e.toNat 54
/-- VALID -/
def rgnValid (e : BitVec 128) : Bool := bit e.toNat 55
/-- LENGTH_M1 + 1 -/
def rgnLen (e : BitVec 128) : Nat := bits e.toNat 64 48 + 1
/-- NODE -/
def rgnNode (e : BitVec 128) : Nat := bits e.toNat 112 16

/-- A region nobody has committed. -/
def rgnDefault : Nat → BitVec 128 := fun _ => 0

/-- An entry of the committed region table (R49). -/
def committedRgn (s : State) (n : Nat) : BitVec 128 := smGet rgnDefault s.rgn.committed n

/-- The nodes of a release list that can be read, and the index of the first entry skipped (R267). -/
def releaseNodes (s : State) (b : Nat) : List Nat × Option Nat :=
  let pg := barPage b
  let j := b % 128
  let n := rd s pg Reg.BAR.BARRIER_W2_NODE_COUNT j
  let r := committedRgn s (rd s pg Reg.BAR.BARRIER_W2_LIST_REGION j)
  let off := rd s pg Reg.BAR.BARRIER_W3_LIST_OFFSET j
  let ok := fun i =>
    rgnValid r && rgnRd r && decide (rgnLoc r < 2) && decide (off + 4 * (i + 1) ≤ rgnLen r) &&
    (let a := rgnBase r + off + 4 * i
     if rgnLoc r = 0 then !hbmPoisoned s a else !smGet flagDefault s.mem.hostPoison (a / 64) && !hostRefuses s a)
  let node := fun i =>
    let a := rgnBase r + off + 4 * i
    leNat (if rgnLoc r = 0 then hbmRead s a 2 else smList byteDefault s.mem.host a 2)
  ((((List.range n).filter ok).map node), (List.range n).find? fun i => !ok i)

/-- One release of a barrier's round (R266): ROUND advances, CUR takes NEXT, every ARRIVAL counter naming it rises by 1, and the nodes of the
release list are signalled. -/
def releaseOnce (b : Nat) : Prog :=
  .look fun s =>
    let pg := barPage b
    let j := b % 128
    let round := rd s pg Reg.BAR.BARRIER_W0_ROUND j
    let (nodes, skipped) := releaseNodes s b
    progs [
      wr pg Reg.BAR.BARRIER_W0_ROUND ((round + 1) % 65536) j,
      wr pg Reg.BAR.BARRIER_W1_CUR (rd s pg Reg.BAR.BARRIER_W1_NEXT j) j,
      wr pg Reg.BAR.BARRIER_W1_NEXT 0 j,
      forEach (arrivalCounters s b) fun i => addCount i 1,
      match skipped with
      | none => .skip
      | some i => raise Code.BARRIER_LIST 852 0 noLeg 0 [w32 b, w32 i],
      forEach nodes fun n => sendMsg (signalMsg n (rd s pg Reg.BAR.BARRIER_W2_RELEASE_INDEX j) round 1 852 0)]

/-- Releases for as long as CUR reaches N: at most one more after the first, since NEXT is then 0 (R266). -/
def releaseLoop (b : Nat) : Nat → Prog
  | 0 => .skip
  | n + 1 => .look fun s =>
    let np := rd s (barPage b) Reg.BAR.BARRIER_W0_PARTICIPANTS (b % 128)
    whenP (np != 0 && decide (np ≤ rd s (barPage b) Reg.BAR.BARRIER_W1_CUR (b % 128))) (.seq (releaseOnce b) (releaseLoop b n))

/-- An arrival count raised; past the 13 bits of its field the spec gives no value, and it is free (log entry 24). -/
def addArrivals (b : Nat) (f : Fld) (amount : Nat) : Prog :=
  .look fun s =>
    let c := rd s (barPage b) f (b % 128) + amount
    if c < 2 ^ 13 then wr (barPage b) f c (b % 128) else withFree fun v => wr (barPage b) f v (b % 128)

/-- An overrun or stale arrival is recorded, and the first is kept on the page (R265). -/
def arrivalFault (x : SigRec) (b code : Nat) : Prog :=
  .look fun s =>
    let pg := barPage b
    let round := rd s pg Reg.BAR.BARRIER_W0_ROUND (b % 128)
    .seq (whenP (rd s pg Reg.BAR.SEEN == 0) (progs [
        wr pg Reg.BAR.SEEN 1, wr pg Reg.BAR.FIRST_BARRIER b, wr pg Reg.BAR.FIRST_ROUND x.round, wr pg Reg.BAR.FIRST_SOURCE (sourceWord x.src)]))
      (sourceFault x code 852 0 [w32 b, w32 round, w32 x.round, w32 (sourceWord x.src)] true)

/-- A SIGNAL to an ARRIVAL counter (R265, R266, R268). CUR reaching N counts even where its field cannot hold the sum. -/
def signalArrival (x : SigRec) : Prog :=
  .look fun s =>
    let b := counterIndex s x.counter
    let pg := barPage b
    let n := rd s pg Reg.BAR.BARRIER_W0_PARTICIPANTS (b % 128)
    let d := (x.round + 65536 - rd s pg Reg.BAR.BARRIER_W0_ROUND (b % 128)) % 65536
    if n = 0 then .seq (arrivalFault x b Code.BARRIER_STALE) (finishSignal x Code.BARRIER_STALE)
    else if d = 0 then
      .seq (if n ≤ rd s pg Reg.BAR.BARRIER_W1_CUR (b % 128) + x.amount then .seq (releaseOnce b) (releaseLoop b 2)
        else addArrivals b Reg.BAR.BARRIER_W1_CUR x.amount) (finishSignal x 0)
    else if d = 1 then .seq (addArrivals b Reg.BAR.BARRIER_W1_NEXT x.amount) (finishSignal x 0)
    else if d < 32768 then .seq (arrivalFault x b Code.BARRIER_OVERRUN) (finishSignal x Code.BARRIER_OVERRUN)
    else .seq (arrivalFault x b Code.BARRIER_STALE) (finishSignal x Code.BARRIER_STALE)

/-- The island and queue a forwarded SIGNAL carries (R290): a source that is none of the die's sends its counter block. -/
def sourceIsland : Source → Nat × Nat
  | .die i q => (i, q)
  | _ => (852, 0)

/-- A SIGNAL to a PROXY counter: the count rises and the amount is forwarded to the entry's node, or applied here where that is the own node, with the
command that waits for it; an entry that is not VALID sends nothing and is recorded (R254). -/
def signalProxy (x : SigRec) : Prog :=
  .seq (addCount x.counter x.amount) (.look fun s =>
    let e := counterIndex s x.counter
    let node := rd s (.syn 18) Reg.SYN18.PROXY_NODE e
    let c := rd s (.syn 18) Reg.SYN18.PROXY_COUNTER e
    if rd s (.syn 18) Reg.SYN18.PROXY_VALID e = 0 then .seq (finishSignal x 0) (raise Code.SYNC_PROXY 852 0 noLeg 0 [w32 x.counter])
    else if node = ownNode s then modSync fun y => { y with sigQ := { x with counter := c } :: y.sigQ }
    else .seq (finishSignal x 0) (sendMsg (signalMsg node c x.round x.amount (sourceIsland x.src).1 (sourceIsland x.src).2)))

/-- Whether a SIGNAL arrived over Baond. -/
def remoteSource : Source → Bool
  | .remote _ => true
  | _ => false

/-- One SIGNAL applied by the counter block (R252, R253): one that arrived over Baond is a plain add to a PROXY counter (R254). -/
def applySignal (x : SigRec) : Prog :=
  .look fun s =>
    if counterMode s x.counter = 1 then (if remoteSource x.src then signalPlain x else signalProxy x)
    else if counterMode s x.counter = 2 then signalArrival x
    else signalPlain x

/-- SIGNAL_APPLY: the oldest SIGNAL that has reached the counter block is applied; `ram` is what SECDED finds in the storage read for it (R332). -/
def progSignalApply (ram : List SramErr) : Prog :=
  .look fun s =>
    match s.sync.sigQ with
    | [] => .skip
    | x :: r => progs [forEach ram ramFound, modSync fun y => { y with sigQ := r }, applySignal x]

/-- SIGNAL_APPLY (R252). -/
def execSignalApply (s : State) (ram : List SramErr := []) : Host.Outcome State Fault Refusal := done (progSignalApply ram) s

/-- A SIGNAL on its way to the counter block. -/
def sendSignal (x : SigRec) : Prog := modSync fun y => { y with sigQ := y.sigQ ++ [x] }

/-- A write of SIG_GO (R253): the counter and round of the identity's own SIG_SEL, with the amount written; 0 is ignored. -/
def opSigGo (id : Ident) (amount : Nat) : Prog :=
  .look fun s =>
    let sel := smGet zeroDefault s.ports.sigSel (identCode id)
    whenP (amount != 0) (sendSignal
      { counter := bits sel 0 12, amount := amount, round := bits sel 16 16, src := .sigGo id, run := none, cmd := none, leg := noLeg })

/-- SIG_GO (R253). -/
def execSigGo (id : Ident) (amount : Word) (s : State) : Host.Outcome State Fault Refusal :=
  done (writeTo id (.syn 16) Reg.SYN16.SIG_GO (opSigGo id amount.toNat)) s

/-- Whether a counter holds a registration. -/
def registered (s : State) (i : Nat) : Bool := s.sync.waits.any fun w => w.localOf == none && w.counter == i

/-- The conditions of R260. -/
def zeroAllowed (s : State) (i : Nat) : Bool := !registered s i && counterMode s i == 0 && !inPair s i

/-- Whether an access is let through to its register (R387, R431, R432). -/
def granted (s : State) (id : Ident) (a : Nat) (write : Bool) : Bool :=
  match pageAt a with
  | none => false
  | some pg =>
    answers s id pg && allowed s id pg (a % 4096) write && !(write && closed s id pg) &&
    !(write && decide (0x100 ≤ a % 4096) && offline s pg)

/-- The address of `SYN[16].ZERO`. -/
def zeroAddr : Nat := 0x90108

/-- A write of ZERO as it changes the state (R260): the count becomes 0, or ZERO_REFUSED is set. Beside a reset, this alone lowers a count. -/
def zeroWrite (id : Ident) (v : Nat) (s : State) : State :=
  if granted s id zeroAddr true then
    if zeroAllowed s (v % 4096) then { s with counts := smErase (v % 4096) s.counts }
    else (wr (.syn 16) Reg.SYN16.SYN_STATUS_ZERO_REFUSED 1).run s
  else (writeTo id (.syn 16) Reg.SYN16.ZERO .skip).run s

/-- ZERO (R260). -/
def execZero (id : Ident) (v : Word) (s : State) : Host.Outcome State Fault Refusal := .next (zeroWrite id v.toNat s)

/-- A write of a counter's CFG (R253): ignored while the counter is busy; a MODE of 3 leaves MODE as it is. -/
def opCounterCfg (i v : Nat) : Prog :=
  .look fun s =>
    if registered s i || inPair s i then wr (.syn 16) Reg.SYN16.SYN_STATUS_CFG_BUSY 1
    else progs [
      whenP (bits v 0 2 != 3) (wr (.syn (i / 256)) Reg.SYN.CFG_MODE (bits v 0 2) (i % 256)),
      wr (.syn (i / 256)) Reg.SYN.CFG_INDEX (bits v 8 8) (i % 256)]

/-- COUNTER_CFG_WRITE (R253). -/
def execCounterCfgWrite (id : Ident) (counter : Fin 4096) (v : Word) (s : State) : Host.Outcome State Fault Refusal :=
  done (writeTo id (.syn (counter / 256)) Reg.SYN.CFG_MODE (opCounterCfg counter v.toNat) (counter % 256)) s

/-- Whether an entry may stay enabled (R263): two distinct PLAIN counters that no other enabled entry names, and a DEPTH that is not 0. -/
def pairAllowed (s : State) (e : Nat) : Bool :=
  let p := rd s (.syn 17) Reg.SYN17.PAIR_PRODUCER e
  let c := rd s (.syn 17) Reg.SYN17.PAIR_CONSUMER e
  p != c && counterMode s p == 0 && counterMode s c == 0 && rd s (.syn 17) Reg.SYN17.PAIR_DEPTH e != 0 &&
  ((enabledPairs s).filter (· != e)).all fun f =>
    let q := rd s (.syn 17) Reg.SYN17.PAIR_PRODUCER f
    let d := rd s (.syn 17) Reg.SYN17.PAIR_CONSUMER f
    q != p && q != c && d != p && d != c

/-- A write of a word of a pair entry, checked whenever it leaves EN at 1 (R263). -/
def opPairEntry (e : Nat) (high : Bool) (v : Nat) : Prog :=
  .seq (plainWrite (.syn 17) (0x100 + 8 * e + if high then 4 else 0) v) (.look fun s =>
    whenP (rd s (.syn 17) Reg.SYN17.PAIR_EN e == 1 && !pairAllowed s e)
      (.seq (wr (.syn 17) Reg.SYN17.PAIR_EN 0 e) (wr (.syn 16) Reg.SYN16.SYN_STATUS_PAIR_REFUSED 1)))

/-- PAIR_ENTRY_WRITE (R263). -/
def execPairEntryWrite (id : Ident) (e : Fin 256) (high : Bool) (v : Word) (s : State) : Host.Outcome State Fault Refusal :=
  done (writeTo id (.syn 17) Reg.SYN17.PAIR_PRODUCER (opPairEntry e high v.toNat) e) s

/-- A write of PARTICIPANTS takes effect only while CUR and NEXT are 0 (R268). -/
def opParticipants (b v : Nat) : Prog :=
  .look fun s =>
    let pg := barPage b
    let j := b % 128
    if rd s pg Reg.BAR.BARRIER_W1_CUR j = 0 ∧ rd s pg Reg.BAR.BARRIER_W1_NEXT j = 0 then wr pg Reg.BAR.BARRIER_W0_PARTICIPANTS v j
    else wr pg Reg.BAR.BARRIER_W1_CFG_REFUSED 1 j

/-- PARTICIPANTS_WRITE (R268). -/
def execParticipantsWrite (id : Ident) (b : Fin 256) (v : Word) (s : State) : Host.Outcome State Fault Refusal :=
  done (writeTo id (barPage b) Reg.BAR.BARRIER_W0_PARTICIPANTS (opParticipants b v.toNat) (b % 128)) s

/-- A write of a barrier's number to RESET (R268). -/
def opBarrierReset (v : Nat) : Prog :=
  let b := v % 256
  progs [wr (barPage b) Reg.BAR.BARRIER_W0_ROUND 0 (b % 128), wr (barPage b) Reg.BAR.BARRIER_W1_CUR 0 (b % 128),
    wr (barPage b) Reg.BAR.BARRIER_W1_NEXT 0 (b % 128)]

/-- BARRIER_RESET (R268). -/
def execBarrierReset (id : Ident) (v : Word) (s : State) : Host.Outcome State Fault Refusal :=
  done (writeTo id (.bar 0) Reg.BAR.RESET (opBarrierReset v.toNat)) s

/-- A 32-bit read of a count's low word latches the high word for the same identity (R430). -/
def opCountRead (id : Ident) (i : Nat) : Prog :=
  .look fun s => .seq (respond id (countOf s i % 2 ^ 32))
    (modPorts fun p => { p with countLatch := smSet zeroDefault p.countLatch (identCode id) ((i + 1) * 2 ^ 32 + countOf s i / 2 ^ 32) })

/-- A read of a count from its first byte: 64 bits are one indivisible read, 32 latch the high word, fewer return their bytes (R367, R430). -/
def opCountSized (id : Ident) (i size : Nat) : Prog :=
  if size = 4 then opCountRead id i else .look fun s => respond id (countOf s i % 2 ^ (8 * size))

/-- SYN_COUNT_READ (R430), of 1, 2, 4 or 8 bytes. -/
def execSynCountRead (id : Ident) (counter : Fin 4096) (s : State) (size : Nat := 4) : Host.Outcome State Fault Refusal :=
  done (readAccess id (fldAddr (.syn (counter / 256)) Reg.SYN.COUNT_LO (counter % 256)) fun _ => opCountSized id counter size) s

/-- The wait a waiter has registered. -/
def waitAt (s : State) (island queue : Nat) : Option WaitRec := s.sync.waits.find? fun w => w.island == island && w.queue == queue

/-- The limit of a registered wait, 0 for none (R256): WAIT_LIMIT of a gate's piste; what firmware set; a WAIT command's own limit or HOST_WAIT_LIMIT. -/
def waitLimit (s : State) (w : WaitRec) : Nat :=
  if w.island < 768 then rd s (.pst (w.island / 12)) Reg.PST.WAIT_LIMIT
  else if w.island = 852 then w.limit
  else match w.cmd.bind (findCmd s) with
    | some c => (match c.body with
      | some (.wait _ _ l) => if l = 0 then rd s (.syn 16) Reg.SYN16.HOST_WAIT_LIMIT else l
      | _ => rd s (.syn 16) Reg.SYN16.HOST_WAIT_LIMIT)
    | none => rd s (.syn 16) Reg.SYN16.HOST_WAIT_LIMIT

/-- The first expired wait since SEEN was cleared is kept in the TO registers, and every one counted (R259). -/
def keepTimeout (w : WaitRec) : Prog :=
  .look fun s => .seq (addSat (.syn 16) Reg.SYN16.TO_COUNT 1)
    (whenP (rd s (.syn 16) Reg.SYN16.TO_STATUS_SEEN == 0) (progs [
      wr (.syn 16) Reg.SYN16.TO_STATUS_SEEN 1, wr (.syn 16) Reg.SYN16.TO_COUNTER_INDEX w.counter,
      wr (.syn 16) Reg.SYN16.TO_COUNTER_LOCAL (ofBool w.localOf.isSome), wr (.syn 16) Reg.SYN16.TO_WAITER_ISLAND w.island,
      wr (.syn 16) Reg.SYN16.TO_WAITER_QUEUE w.queue, wr (.syn 16) Reg.SYN16.TO_TARGET_LO (w.target % 2 ^ 32),
      wr (.syn 16) Reg.SYN16.TO_TARGET_HI (w.target / 2 ^ 32)]))

/-- WAIT_EXPIRY: the registration still held is withdrawn, SYNC_TIMEOUT is recorded, and the leg's run ends, the WAIT command completes or the core
receives the status (R259). A limit of 0 never expires. -/
def progWaitExpiry (island queue : Nat) : Prog :=
  .look fun s =>
    match waitAt s island queue with
    | none => .skip
    | some w =>
      whenP (waitLimit s w != 0) (progs [
        modSync fun y => { y with waits := eraseFirst w y.waits, gated := smSet flagDefault y.gated island false },
        keepTimeout w,
        (let p := island / 12
         let leg := if island < 768 then (gateOf s island).next else noLeg
         raiseSev 2 Code.SYNC_TIMEOUT island (if island < 768 then iterOn s p else 0) leg queue
           [w32 (w.counter + 4096 * ofBool w.localOf.isSome), w64 w.target] fun u =>
           progs [whenP (decide (island < 768)) (failRun p Code.SYNC_TIMEOUT island leg (some u)), fwStatus w Code.SYNC_TIMEOUT,
             finishOpt w.cmd Code.SYNC_TIMEOUT (countOf s w.counter) (some u)])])

/-- WAIT_EXPIRY (R259). -/
def execWaitExpiry (island queue : Nat) (s : State) : Host.Outcome State Fault Refusal := done (progWaitExpiry island queue) s

/-- DATAPATH_GATE: a gate island stalled on a registered wait, with no earlier leg in progress, gates its datapath clock (R257). -/
def progDatapathGate (p g : Nat) : Prog :=
  .look fun s =>
    let i := gateIsland p g
    let x := gateOf s i
    whenP ((waitAt s i 0).isSome && !x.busy && x.held.isEmpty && s.units.signalsDue.all (fun d => !(d.piste == p && d.gate == g)) &&
      s.units.outStage.all (fun d => !(d.piste == p && d.gate == g)) && s.units.marksDue.all (fun d => !(d.piste == p && d.gate == g)) &&
      !tagsOpen s p (some g) none)
      (modSync fun y => { y with gated := smSet flagDefault y.gated i true })

/-- DATAPATH_GATE (R257). -/
def execDatapathGate (p : Fin 64) (g : Fin 12) (s : State) : Host.Outcome State Fault Refusal := done (progDatapathGate p g) s

end Sys2Proof.Machine
end

