-- ==== Sys2Proof/Machine/Value.lean ====
section
/-! DEFINITION. Numbers as the module holds them: integers with special values (R56, R67 to R70), alignment and rounding (R71, R72, R75), blocks
and their narrowing (R59 to R63, R73, R74), embedding rows (R64 to R66). -/

namespace Sys2Proof.Machine

/-- A value of an integer format: finite, or one of the special values (R56). -/
inductive SV where
  | fin (i : Int)
  | pinf
  | ninf
  | nan
  deriving DecidableEq, Repr

/-- The largest finite I32 value (R56). -/
def i32Max : Int := 2147483646
/-- The largest finite I16 value (R56). -/
def i16Max : Int := 32766

/-- The infinity of an integer's sign. -/
def infOf (i : Int) : SV := if 0 ≤ i then .pinf else .ninf

/-- A result held to a finite range, INF outside it (R67). -/
def svClamp (m : Int) (i : Int) : SV := if i > m then .pinf else if i < -m then .ninf else .fin i

/-- Negation (R67). -/
def svNeg : SV → SV
  | .fin i => .fin (-i)
  | .pinf => .ninf
  | .ninf => .pinf
  | .nan => .nan

/-- Exact addition (R67), with no range. -/
def svAdd : SV → SV → SV
  | .nan, _ => .nan
  | _, .nan => .nan
  | .pinf, .ninf => .nan
  | .ninf, .pinf => .nan
  | .pinf, _ => .pinf
  | _, .pinf => .pinf
  | .ninf, _ => .ninf
  | _, .ninf => .ninf
  | .fin a, .fin b => .fin (a + b)

/-- A value held to the I32 range (R67). -/
def svI32 : SV → SV
  | .fin i => svClamp i32Max i
  | x => x

/-- I32 addition (R67). -/
def add32 (a b : SV) : SV := svI32 (svAdd a b)

/-- The sum of a list, exact (R67). -/
def svSum (l : List SV) : SV := l.foldl svAdd (.fin 0)

/-- Exact multiplication (R68). -/
def svMul : SV → SV → SV
  | .nan, _ => .nan
  | _, .nan => .nan
  | .fin a, .fin b => .fin (a * b)
  | .fin a, x => if a = 0 then .fin 0 else if 0 < a then x else svNeg x
  | x, .fin b => if b = 0 then .fin 0 else if 0 < b then x else svNeg x
  | .pinf, .pinf => .pinf
  | .ninf, .ninf => .pinf
  | .pinf, .ninf => .ninf
  | .ninf, .pinf => .ninf

/-- a < b (R70). -/
def svLt : SV → SV → Bool
  | .fin a, .fin b => decide (a < b)
  | .ninf, .fin _ => true
  | .ninf, .pinf => true
  | .fin _, .pinf => true
  | _, _ => false

/-- a = b (R70). -/
def svEq : SV → SV → Bool
  | .nan, _ => false
  | _, .nan => false
  | a, b => decide (a = b)

/-- The maximum (R70). -/
def svMax (a b : SV) : SV := if a = .nan ∨ b = .nan then .nan else if svLt a b then b else a
/-- The minimum (R70). -/
def svMin (a b : SV) : SV := if a = .nan ∨ b = .nan then .nan else if svLt b a then b else a

/-- The magnitude. -/
def svAbs : SV → SV
  | .fin i => .fin i.natAbs
  | .ninf => .pinf
  | x => x

/-- Whether a value is NaR or INF (R81). -/
def svSpecial : SV → Bool
  | .fin _ => false
  | _ => true

/-- How a narrowing rounds (R71): to odd, to nearest even, or with a draw of `b` bits. -/
inductive Rnd where
  | odd | nearest | stoch (b r : Nat)
  deriving DecidableEq, Repr

/-- v / 2^s rounded (R72). -/
def roundShift (m : Rnd) (v : Int) (s : Nat) : Int :=
  let d : Int := (2 ^ s : Nat)
  let q := v / d
  let f := v - q * d
  if f = 0 then q
  else match m with
    | .odd => if q % 2 = 0 then q + 1 else q
    | .nearest => if d < 2 * f ∨ (2 * f = d ∧ q % 2 = 1) then q + 1 else q
    | .stoch b r => if (2 ^ b : Nat) ≤ f * (2 ^ b : Nat) / d + r then q + 1 else q

/-- v × 2^eFrom brought to exponent eTo, with no range: a right shift rounds, a left shift is exact (R75). -/
def rescale (m : Rnd) (v eFrom eTo : Int) : Int :=
  if eTo ≤ eFrom then v * (2 ^ (eFrom - eTo).toNat : Nat) else roundShift m v (eTo - eFrom).toNat

/-- A value brought to an accumulator exponent in I32 (R75, R91 step 4): to odd on the right, INF on the left. -/
def svAlign (v : SV) (eFrom eTo : Int) : SV :=
  match v with
  | .fin i => svClamp i32Max (rescale .odd i eFrom eTo)
  | x => x

/-- The value a `w`-bit element code stands for, outside a block (R56). -/
def codeSV (w c : Nat) : SV :=
  let i := toSigned w c
  let top : Int := (2 ^ (w - 1) : Nat) - 1
  if i = -top - 1 then .nan
  else if 16 ≤ w ∧ i = top then .pinf
  else if 16 ≤ w ∧ i = -top then .ninf
  else .fin i

/-- The code of a value in a `w`-bit element format; a value the format cannot hold is NaR where it has no INF (R56, R67). -/
def svCode (w : Nat) (v : SV) : Nat :=
  let top : Int := (2 ^ (w - 1) : Nat) - 1
  let nanC := 2 ^ (w - 1)
  let pos := top.toNat
  let neg := 2 ^ w - pos
  if 16 ≤ w then
    match v with
    | .fin i => if top ≤ i then pos else if i ≤ -top then neg else ofSigned w i
    | .pinf => pos
    | .ninf => neg
    | .nan => nanC
  else
    match v with
    | .fin i => if top < i ∨ i < -top then nanC else ofSigned w i
    | _ => nanC

/-! ### Formats -/

/-- The element width of a format code in bits (R43). -/
def fmtBits (f : Nat) : Nat :=
  match f with
  | 0x00 => 2 | 0x01 => 4 | 0x02 => 8 | 0x03 => 16 | 0x04 => 32 | 0x08 => 32 | 0x09 => 64
  | 0x10 => 2 | 0x11 => 4 | 0x12 => 8 | 0x13 => 16 | 0x14 => 3 | 0x20 => 8 | 0x21 => 4 | _ => 0

/-- Defined format codes (R43). -/
def fmtDefined (f : Nat) : Bool := fmtBits f != 0
/-- Block formats (R43). -/
def isBlock (f : Nat) : Bool := decide (0x10 ≤ f) && decide (f ≤ 0x14)
/-- Dense block formats, without 2:4 groups. -/
def isDenseBlock (f : Nat) : Bool := decide (0x10 ≤ f) && decide (f ≤ 0x13)
/-- Element formats I2 to I32. -/
def isI (f : Nat) : Bool := decide (f ≤ 0x04)
/-- Index formats. -/
def isIX (f : Nat) : Bool := f == 0x08 || f == 0x09
/-- Embedding row formats. -/
def isER (f : Nat) : Bool := f == 0x20 || f == 0x21

/-- row_bytes of R44 (and R216). -/
def rowBytes (f ext0 : Nat) : Nat :=
  if isBlock f then ceilDiv ext0 32 * (32 * fmtBits f / 8)
  else if isER f then 8 + ceilDiv (ext0 * fmtBits f) 8
  else ceilDiv (ext0 * fmtBits f) 8

/-- Code `i` of a row packed under R58. -/
def codeAt (w : Nat) (row : List Byte) (i : Nat) : Nat :=
  if w < 8 then bits (leAt row (i * w / 8) 1) (i * w % 8) w else leAt row (i * w / 8) (w / 8)

/-- Codes packed into bytes (R58), unused bits 0. -/
def packCodes (w : Nat) (codes : List Nat) : List Byte :=
  if w < 8 then (pieces (8 / w) codes).map fun g => BitVec.ofNat 8 ((g.zipIdx.map fun x => x.1 % 2 ^ w * 2 ^ (w * x.2)).foldl (· + ·) 0)
  else codes.flatMap (leBytes (w / 8))

/-! ### Blocks -/

/-- A decoded block: its values within the row, all under exponent `e`, its E8 but in a zero block; whether it is a zero block; whether it takes the special path of R91; and
for outliers, which elements are outliers. -/
structure Block where
  vals : List SV
  e : Int
  zero : Bool
  special : Bool
  outliers : List Nat
  deriving DecidableEq, Repr

/-- The finite bound F and top code T of a block format (R61). -/
def blockTop (w : Nat) : Int := (2 ^ (w - 1) : Nat) - 1
/-- F of R61. -/
def blockF (w : Nat) : Int := if w = 16 then i16Max else blockTop w

/-- Whether a side-list entry is bad for a block of `n` elements in use (R63). -/
def sideBad (side : Nat) (n : Nat) : Bool :=
  let c := bits side 0 2
  c == 3 || (decide (1 ≤ c) && (bits side 13 3 != 0 || decide (n ≤ bits side 8 5))) ||
  (c == 2 && (bits side 21 3 != 0 || bits side 8 5 == bits side 16 5 || decide (n ≤ bits side 16 5)))

/-- A normal block's outliers, as index and value (R62). -/
def sideList (side : Nat) : List (Nat × SV) :=
  let c := bits side 0 2
  (if 1 ≤ c then [(bits side 8 5, codeSV 16 (bits side 32 16))] else []) ++ (if c = 2 then [(bits side 16 5, codeSV 16 (bits side 48 16))] else [])

/-- A block decoded (R60 to R63): `n` elements in use of width `w`; `bad` marks a poisoned side list or other cause by which the whole block reads
as NaR; elements in `badEl` read as NaR (R224). -/
def decodeBlock (w n : Nat) (e8 : Int) (codes : List Nat) (side : Option Nat) (bad : Bool) (badEl : List Nat) : Block :=
  let nans := List.replicate n SV.nan
  if e8 = -128 then { vals := nans, e := -128, zero := false, special := true, outliers := [] }
  else if e8 = -127 then { vals := List.replicate n (.fin 0), e := 0, zero := true, special := false, outliers := [] }
  else if e8 = 127 then
    { vals := (codes.take n).zipIdx.map fun x =>
        let i := toSigned w x.1
        if badEl.contains x.2 then .nan
        else if i = 0 then .fin 0 else if i = blockTop w then .pinf else if i = -blockTop w then .ninf else .nan
      e := 127, zero := false, special := true, outliers := [] }
  else
    let o := match side with | some x => sideList x | none => []
    let isBad := bad || (match side with | some x => sideBad x n | none => false)
    if isBad then { vals := nans, e := e8, zero := false, special := true, outliers := [] }
    else
      let vs := (codes.take n).zipIdx.map fun x =>
        if badEl.contains x.2 then .nan
        else match o.find? (·.1 == x.2) with
          | some y => y.2
          | none => codeSV w x.1
      { vals := vs, e := e8, zero := false, special := vs.any svSpecial, outliers := o.map (·.1) }

/-- A 2:4 block decoded (R217): stored codes add at their positions, and one at or beyond the extent reads as NaR there, whatever its code; those
positions come with the block. -/
def decode24 (n : Nat) (e8 : Int) (bytes : List Byte) (badEl : Bool) : Block × List Nat :=
  let pos := (List.range 16).map fun i => (i / 2 * 4 + bits (leAt bytes 8 4) (2 * i) 2, codeAt 4 bytes i)
  let beyond := (pos.filter fun x => decide (n ≤ x.1)).map (·.1)
  let val := fun (c : Nat) => if badEl then SV.nan else
    if e8 = 127 then (let i := toSigned 4 c; if i = 0 then .fin 0 else if i = 7 then .pinf else if i = -7 then .ninf else .nan) else codeSV 4 c
  if e8 = -128 then ({ vals := List.replicate n .nan, e := -128, zero := false, special := true, outliers := [] }, [])
  else if e8 = -127 then ({ vals := List.replicate n (.fin 0), e := 0, zero := true, special := false, outliers := [] }, [])
  else
    let vs := (List.range (if beyond.isEmpty then n else 32)).map fun i =>
      if beyond.contains i then SV.nan else if n ≤ i then .fin 0 else svSum ((pos.filter (·.1 == i)).map fun x => val x.2)
    ({ vals := vs, e := e8, zero := false, special := vs.any svSpecial || e8 == 127 || !beyond.isEmpty, outliers := [] },
      beyond)

/-! ### Narrowing into a block (R73) -/

/-- A block as written: E8, codes, and the side-list entry. -/
structure BlockOut where
  e8 : Int
  codes : List Nat
  side : Nat
  deriving DecidableEq, Repr

/-- The magnitude of a finite value, 0 otherwise. -/
def mag : SV → Nat
  | .fin i => i.natAbs
  | _ => 0

/-- The smallest j from -40 with m ≤ F × 2^j, for m > 0. -/
def coverShift (m : Nat) (f : Int) : Int :=
  (((List.range 560).map fun (k : Nat) => (k : Int) - 40).find? fun j =>
    if 0 ≤ j then decide ((m : Int) ≤ f * (2 ^ j.toNat : Nat)) else decide ((m : Int) * (2 ^ (-j).toNat : Nat) ≤ f)).getD 520

/-- The covering exponent e[k] of what remains after taking outliers out: -126 when nothing remains (R73). -/
def coverExp (f ea : Int) (vals : List SV) (out : List Nat) : Int :=
  let m := (vals.zipIdx.filter fun x => !out.contains x.2).foldl (fun a x => max a (mag x.1)) 0
  if m = 0 then -126 else max (-126) (coverShift m f + ea)

/-- The index of the largest magnitude among finite non-zero values not in `out`, ties to the lower index. -/
def largest (vals : List SV) (out : List Nat) : Option Nat :=
  (vals.zipIdx.foldl (fun (a : Option (Nat × Nat)) x =>
    if mag x.1 = 0 ∨ out.contains x.2 then a
    else match a with
      | none => some (x.2, mag x.1)
      | some b => if b.2 < mag x.1 then some (x.2, mag x.1) else some b) none).map (·.1)

/-- The outliers allowed: none, the largest, the two largest. -/
def outlierSets (vals : List SV) (allow : Bool) : List (List Nat) :=
  if !allow then [[]]
  else match largest vals [] with
    | none => [[]]
    | some a => match largest vals [a] with
      | none => [[], [a]]
      | some b => [[], [a], [a, b]]

/-- The set with the smallest covering exponent, ties to the smaller count. -/
def bestSet (f ea : Int) (vals : List SV) (sets : List (List Nat)) : List Nat :=
  (sets.foldl (fun (a : Option (List Nat × Int)) k =>
    let e := coverExp f ea vals k
    match a with
    | none => some (k, e)
    | some b => if e < b.2 then some (k, e) else some b) none).elim [] (·.1)

/-- A special block (R73). -/
def specialBlock (w : Nat) (vals : List SV) : BlockOut :=
  { e8 := 127
    codes := vals.map fun v => match v with
      | .pinf => (blockTop w).toNat
      | .ninf => ofSigned w (-blockTop w)
      | .nan => 2 ^ (w - 1)
      | .fin i => if i = 0 then 0 else 2 ^ (w - 1)
    side := 0 }

/-- A side-list entry (R62). -/
def sideEntry (o : List (Nat × Nat)) : Nat :=
  match o with
  | [] => 0
  | [a] => 1 + a.1 * 2 ^ 8 + a.2 % 2 ^ 16 * 2 ^ 32
  | a :: b :: _ => 2 + a.1 * 2 ^ 8 + b.1 * 2 ^ 16 + a.2 % 2 ^ 16 * 2 ^ 32 + b.2 % 2 ^ 16 * 2 ^ 48

/-- 32 values under exponent ea narrowed into a block of `w`-bit codes (R73); `rnd i` rounds element i; padding is given as 0. -/
def narrowBlock (w : Nat) (ea : Int) (allow headroom : Bool) (rnd : Nat → Rnd) (vals : List SV) : BlockOut :=
  let f := blockF w
  if vals.any (fun v => v = .pinf ∨ v = .ninf) then specialBlock w vals
  else if vals.all (fun v => mag v == 0) then
    if vals.all (fun v => v != .nan) then { e8 := -127, codes := vals.map fun _ => 0, side := 0 }
    else { e8 := 0, codes := vals.map fun v => if v = .nan then 2 ^ (w - 1) else 0, side := 0 }
  else
    let out := bestSet f ea vals (outlierSets vals allow)
    let cover := coverExp f ea vals out
    if 126 < cover then
      let big := fun (v : SV) => match v with
        | .fin i => if i ≠ 0 ∧ 126 - ea < coverShift i.natAbs f then infOf i else .fin i
        | x => x
      specialBlock w (vals.map big)
    else
      let e := if headroom then min (cover + 1) 126 else cover
      let r := fun (i : Nat) (v : SV) => match v with | .fin x => rescale (rnd i) x ea e | _ => 0
      let codes := vals.zipIdx.map fun x =>
        if x.1 = .nan then 2 ^ (w - 1) else if out.contains x.2 then 0 else ofSigned w (r x.2 x.1)
      let so := (List.range 32).filter out.contains
      let ov := so.map fun i => (i, svCode 16 (svClamp i16Max (r i (nth vals i (.fin 0)))))
      if codes.all (· == 0) && ov.all (·.2 == 0) then { e8 := -127, codes := codes, side := 0 }
      else { e8 := e, codes := codes, side := sideEntry ov }

/-- The values a written block reads back as. -/
def readBack (w n : Nat) (b : BlockOut) : List SV := (decodeBlock w n b.e8 b.codes (some b.side) false []).vals

/-- A value under exponent `eo` taken at exponent 0 into a `w`-bit element format (R127). -/
def narrowElem (w : Nat) (eo : Int) (rnd : Rnd) (v : SV) : Nat :=
  svCode w (match v with | .fin i => .fin (rescale rnd i eo 0) | x => x)

/-! ### Embedding rows -/

/-- A working row decoded (R65): values and their exponent. DESIGN CHOICE: a row with EXP -127 and a SCALE or OFFSET of NaR or INF, for which R65
states zeros and NaR both, reads as zeros (log entry 83). -/
def decodeER (w n : Nat) (row : List Byte) (bad : Bool) : List SV × Int :=
  let sc := codeSV 16 (leAt row 0 2)
  let off := codeSV 16 (leAt row 2 2)
  let e := toSigned 8 (leAt row 4 1)
  if bad ∨ e = -128 ∨ e = 127 then (List.replicate n .nan, 0)
  else if e = -127 then (List.replicate n (.fin 0), 0)
  else if svSpecial sc || svSpecial off then (List.replicate n .nan, 0)
  else ((List.range n).map fun i =>
    let c := codeAt w (row.drop 8) i
    if c = 2 ^ w - 1 then .nan else svAdd (svMul (.fin c) sc) off, e)

end Sys2Proof.Machine
end

