-- ==== Sys2Proof/Machine/MapImage.lean ====
section
/-! DEFINITION. Piste map images: header, leg descriptors, sync table, tensor descriptors, forerunner programs (R34, R38, R39, R42, R232), and the
checks that LOAD_MAP makes (R35) with the rules of each operation. -/

namespace Sys2Proof.Machine

open Sys2Proof

/-- An image as a function from offset and length to bytes. -/
abbrev Img := Nat → Nat → List Byte

/-- The little-endian number of `n` bytes at an offset of an image. -/
def imgNat (g : Img) (off n : Nat) : Nat := leNat (g off n)

/-- The map that begins in a slot of a piste's map memory. -/
def residentImg (s : State) (p slot : Nat) : Img := mapRead s p slot

/-! ### Header (R34) -/

/-- SIZE -/
def imgSize (g : Img) : Nat := imgNat g 0x08 4
/-- MAP_ID -/
def imgMapId (g : Img) : Nat := imgNat g 0x0C 4
/-- LAYOUT_EPOCH -/
def imgLayout (g : Img) : Nat := imgNat g 0x10 4
/-- CHAIN_EN -/
def imgChainEn (g : Img) : Bool := bit (imgNat g 0x07 1) 0
/-- CHAIN_TO -/
def imgChainTo (g : Img) : Nat := imgNat g 0x16 1
/-- BYPASS -/
def imgBypass (g : Img) : Nat := imgNat g 0x14 2
/-- SCRATCH_NEED -/
def imgScratch (g : Img) : Nat := imgNat g 0x18 4
/-- DESC_COUNT -/
def imgDescCount (g : Img) : Nat := imgNat g 0x1C 2
/-- SYNC_COUNT -/
def imgSyncCount (g : Img) : Nat := imgNat g 0x1E 2
/-- The leg count of gate `i`; forerunners follow as 12 to 14. -/
def imgCount (g : Img) (i : Nat) : Nat := bits (imgNat g (0x20 + 4 * i) 4) 18 14
/-- The program offset of gate `i`; forerunners follow as 12 to 14. -/
def imgProg (g : Img) (i : Nat) : Nat := bits (imgNat g (0x20 + 4 * i) 4) 0 18
/-- Slots a map of a size occupies (R36). -/
def slotsOf (size : Nat) : Nat := ceilDiv size 65536

/-! ### Legs (R38) -/

/-- A leg descriptor. -/
structure Leg where
  kind : Nat
  op : Nat
  waitEn : Bool
  sigEn : Bool
  crit : Bool
  flagsRsv : Nat
  round : Nat
  a : Nat
  b : Nat
  c : Nat
  dst : Nat
  wsync : Nat
  ssync : Nat
  opmode : Nat
  rsv : Nat
  expd : Nat
  p0 : Nat
  p1 : Nat
  p2 : Nat
  deriving DecidableEq, Repr

/-- No operand. -/
def NONE : Nat := 0xFFFF
/-- A FIFO as an operand. -/
def FIFO : Nat := 0xFFFE

/-- A leg descriptor read from its 32 bytes. -/
def legOf (b : List Byte) : Leg :=
  let f := leAt b 2 1
  { kind := bits (leAt b 0 2) 12 4, op := bits (leAt b 0 2) 0 12, waitEn := bit f 0, sigEn := bit f 1, crit := bit f 2, flagsRsv := bits f 3 5,
    round := leAt b 3 1, a := leAt b 4 2, b := leAt b 6 2, c := leAt b 8 2, dst := leAt b 10 2, wsync := leAt b 12 1, ssync := leAt b 13 1,
    opmode := leAt b 14 1, rsv := leAt b 15 1 + leAt b 0x12 2, expd := leAt b 0x10 2, p0 := leAt b 0x14 4, p1 := leAt b 0x18 4, p2 := leAt b 0x1C 4 }

/-- Leg `i` of gate `gi`. -/
def imgLeg (g : Img) (gi i : Nat) : Leg := legOf (g (imgProg g gi + 32 * i) 32)

/-! ### Sync entries (R39) -/

/-- A sync table entry. -/
structure SyncEnt where
  global : Bool
  rsv : Nat
  counter : Nat
  amount : Nat
  step : Nat
  offset : Nat
  deriving DecidableEq, Repr

/-- Sync table entry `i`. -/
def imgSync (g : Img) (i : Nat) : SyncEnt :=
  let v := imgNat g (imgNat g 0x60 4 + 16 * i) 16
  { global := bit v 127, rsv := bits v 124 3 + bits v 64 32, counter := bits v 112 12, amount := bits v 96 16, step := bits v 32 32, offset := bits v 0 32 }

/-! ### Tensor descriptors (R42) -/

/-- A tensor descriptor. -/
structure Desc where
  region : Nat
  fmt : Nat
  offset : Nat
  scaleRegion : Nat
  scaleMode : Nat
  scaleOffset : Nat
  e0 : Nat
  e1 : Nat
  e2 : Nat
  e3 : Nat
  s0 : Nat
  s1 : Nat
  s2 : Nat
  s3 : Nat
  posBase : Nat
  posEn : Bool
  posRsv : Nat
  outRegion : Nat
  outEn : Nat
  outOffset : Nat
  deriving DecidableEq, Repr

/-- A tensor descriptor read from its 64 bytes. -/
def descOf (b : List Byte) : Desc :=
  let x := fun i => leAt b (0x10 + 8 * i) 8
  { region := leAt b 0 1, fmt := leAt b 1 1, offset := leAt b 2 6, scaleRegion := leAt b 8 1, scaleMode := leAt b 9 1, scaleOffset := leAt b 10 6,
    e0 := bits (x 0) 0 24, e1 := bits (x 1) 0 24, e2 := bits (x 2) 0 24, e3 := bits (x 3) 0 24,
    s0 := bits (x 0) 24 40, s1 := bits (x 1) 24 40, s2 := bits (x 2) 24 40, s3 := bits (x 3) 24 40,
    posBase := bits (leAt b 0x30 8) 0 24, posEn := bit (leAt b 0x30 8) 24, posRsv := bits (leAt b 0x30 8) 25 39,
    outRegion := leAt b 0x38 1, outEn := leAt b 0x39 1, outOffset := leAt b 0x3A 6 }

/-- Tensor descriptor `i` of an image. -/
def imgDesc (g : Img) (i : Nat) : Desc := descOf (g (imgNat g 0x5C 4 + 64 * i) 64)

/-- The rows of a tensor: its dimensions 1 to 3. -/
def rowsOf (d : Desc) : Nat := d.e1 * d.e2 * d.e3
/-- The elements of a tensor. -/
def elemsOf (d : Desc) : Nat := d.e0 * rowsOf d
/-- The byte offset of row `r` in loop order, dimension 1 innermost. -/
def rowOff (d : Desc) (r : Nat) : Nat := d.offset + r % d.e1 * d.s1 + r / d.e1 % d.e2 * d.s2 + r / (d.e1 * d.e2) * d.s3
/-- Where the footprint of a tensor ends (R44). -/
def footEnd (d : Desc) : Nat := d.offset + rowBytes d.fmt d.e0 + (d.e1 - 1) * d.s1 + (d.e2 - 1) * d.s2 + (d.e3 - 1) * d.s3
/-- Blocks of a tensor (R44). -/
def blocksOf (d : Desc) : Nat := ceilDiv d.e0 32 * rowsOf d
/-- Whether a tensor has an extent of 0 (R45). -/
def descEmpty (d : Desc) : Bool := d.e0 == 0 || d.e1 == 0 || d.e2 == 0 || d.e3 == 0

/-! ### Forerunner entries (R232) -/

/-- A forerunner program entry. -/
structure FrnEnt where
  gate : Nat
  operand : Nat
  leg : Nat
  stageOff : Nat
  stageSize : Nat
  hold : Bool
  early : Bool
  rsv : Nat
  deriving DecidableEq, Repr

/-- Entry `i` of forerunner `f` (0 A, 1 B, 2 output). -/
def imgFrn (g : Img) (f i : Nat) : FrnEnt :=
  let o := imgProg g (12 + f) + 16 * i
  let w := fun k => imgNat g (o + 4 * k) 4
  { gate := bits (w 0) 0 4, operand := bits (w 0) 4 3, leg := bits (w 0) 8 14, stageOff := w 1, stageSize := bits (w 2) 0 23,
    hold := bit (w 3) 0, early := bit (w 3) 1, rsv := bits (w 0) 7 1 + bits (w 0) 22 10 + bits (w 2) 23 9 + bits (w 3) 2 30 }

/-- The entries of a forerunner. -/
def imgFrns (g : Img) (f : Nat) : List FrnEnt := (List.range (imgCount g (12 + f))).map (imgFrn g f)

/-- The descriptor index an operand code of a forerunner entry names for a leg (R232). -/
def frnOperand (l : Leg) (k : Nat) : Nat :=
  match k with
  | 0 => l.a | 1 => l.b | 2 => l.c | 3 => l.dst | 4 => l.b + 1 | 5 => l.c + 1 | 6 => l.dst + 1 | _ => NONE

/-! ### The rules of operations that a load judges -/

/-- A descriptor operand of a leg: none for NONE and FIFO. -/
def opDesc (g : Img) (i : Nat) : Option Desc := if i < imgDescCount g then some (imgDesc g i) else none

/-- A condition on a descriptor that must be there. -/
def needs (g : Img) (i : Nat) (p : Desc → Bool) : Bool := match opDesc g i with | some d => p d | none => false

/-- Equal extents of dimensions 1 to 3. -/
def sameRows (d e : Desc) : Bool := d.e1 == e.e1 && d.e2 == e.e2 && d.e3 == e.e3
/-- Equal extents. -/
def sameShape (d e : Desc) : Bool := d.e0 == e.e0 && sameRows d e

/-- The three formats and depth of an operand mode (R86): activations, weights, K blocks a step. -/
def modeOf (m : Nat) : Option (Nat × Nat × Nat) :=
  match m with
  | 0 => some (0x11, 0x11, 4) | 1 => some (0x12, 0x11, 4) | 2 => some (0x12, 0x12, 4) | 3 => some (0x11, 0x10, 8) | 4 => some (0x11, 0x14, 8)
  | 5 => some (0x13, 0x11, 4) | 6 => some (0x13, 0x12, 4) | _ => none

/-- EXP_DESC holds one I16 code for each of `n` rows (R102). -/
def expRule (g : Img) (l : Leg) (n : Nat) : Bool := needs g l.expd fun d => d.fmt == 3 && elemsOf d == n
/-- EXP_DESC is absent, or as `expRule` (R127). -/
def expOpt (g : Img) (l : Leg) (n : Nat) : Bool := l.expd == NONE || expRule g l n

/-- Row statistics (R105, R106): enables in `x`; the record tensor at EXP_DESC + 1 has the rows of `d`. -/
def statsRule (g : Img) (l : Leg) (x : Nat) (d : Desc) : Bool :=
  bits x 3 5 == 0 && (bits x 0 3 == 0 || needs g (l.expd + 1) fun t => t.fmt == 4 && t.e0 == 4 && sameRows t d)

/-- A destination of a final narrowing: an I or dense block format. -/
def narrowFmt (f : Nat) : Bool := isI f || isDenseBlock f

/-- The fields of MATMUL that MATMUL_INSPECT shares (R90, R100, R102, R208). DESIGN CHOICE: a SRC_A longer in K than SRC_B, and a SRC_B with an EXTENT2
or EXTENT3 other than 1, fail with MAP_LEG (log entry 74); where SRC_A and DST are both the FIFO, rows are counted by EXP_DESC and have no
statistics (log entry 75). -/
def matmulCommon (g : Img) (l : Leg) : Bool :=
  match modeOf l.opmode, opDesc g l.b with
  | some (fa, fb, deep), some w =>
    let kpass := (bits l.p0 7 3 + 1) * 128
    w.fmt == fb && w.e2 == 1 && w.e3 == 1 &&
    (l.a == FIFO || needs g l.a fun a => a.fmt == fa && decide (a.e0 ≤ w.e0)) &&
    (l.dst == FIFO || needs g l.dst fun o => o.e0 == w.e1 && (if bit l.p1 0 then narrowFmt o.fmt else o.fmt == 4) &&
      (match opDesc g l.a with | some a => sameRows o a | none => true)) &&
    (match (if l.a = FIFO then opDesc g l.dst else opDesc g l.a) with
     | some r => expRule g l (rowsOf r) && statsRule g l (bits l.p1 8 8) r
     | none => needs g l.expd fun d => d.fmt == 3 && bits l.p1 8 8 == 0) &&
    (deep == 4 || kpass % 256 == 0) &&
    bits l.p1 1 7 == 0 && l.p2 % 128 == 0 && decide (l.p2 + (bits l.p0 0 7 + 1) * 4096 ≤ imgScratch g)
  | _, _ => false

/-- M-gate operations (R90, R208). -/
def ruleM (g : Img) (l : Leg) : Bool :=
  match l.op with
  | 1 =>
    matmulCommon g l && bits l.p0 10 22 == 0 && bits l.p1 16 16 == 0 &&
    (match opDesc g l.b with
     | some w => needs g l.c fun c => c.fmt == 4 && c.e0 == w.e0 && c.e1 == ceilDiv w.e1 256 && c.e2 == 1 && c.e3 == 1
     | none => false)
  | 2 =>
    matmulCommon g l && bits l.p0 11 21 == 0 && l.c == NONE && (l.opmode == 0 || l.opmode == 1 || l.opmode == 4) &&
    (match opDesc g l.b with
     | some w => decide (w.e1 ≤ 65536) && needs g (l.b + 1) fun k => k.fmt == 0x10 && k.e0 == ceilDiv w.e0 4 && k.e1 == w.e1 && k.e2 == 1 && k.e3 == 1
     | none => false)
  | _ => false

/-- A head dimension (R147). -/
def headDim (d : Nat) : Bool := decide (32 ≤ d) && decide (d ≤ 256) && d % 32 == 0

/-- BI4 or BI8. -/
def bi48 (f : Nat) : Bool := f == 0x11 || f == 0x12

/-- The O, state and statistics outputs of a forward attention leg (R151, R154). -/
def attendOut (g : Img) (l : Leg) (q : Desc) : Bool :=
  let final := bit l.p1 0
  let stateIn := bit l.p0 23
  (l.dst == FIFO && !stateIn || needs g l.dst fun o => sameShape o q && (if final then narrowFmt o.fmt else o.fmt == 4)) &&
  (!stateIn || !final) && expRule g l (rowsOf q) && statsRule g l (bits l.p1 8 8) q &&
  (needs g (l.expd + 2) fun t => t.fmt == 4 && t.e0 == 8 && sameRows t q)

/-- The partial area of an attention leg (R151). -/
def attendArea (g : Img) (l : Leg) : Bool := l.p2 % 128 == 0 && decide (l.p2 + (bits l.p0 0 7 + 1) * 1152 ≤ imgScratch g)

/-- PAIRING is a field of legs that rotate (R151). -/
def pairingOk (l : Leg) : Bool := !bit l.p0 12 || bit l.p0 10 || bit l.p0 11

/-- Declared formats, pairing and mask within their encodings (R151). -/
def attendEnc (l : Leg) : Bool :=
  decide (bits l.p0 8 2 < 2) && decide (bits l.p0 13 2 < 2) && decide (bits l.p0 15 2 < 2) && bits l.p0 7 1 == 0 && pairingOk l

/-- Queries, keys and values of a dense leg (R152). -/
def denseShapes (g : Img) (l : Leg) (q : Desc) : Bool :=
  match opDesc g l.b, opDesc g (l.b + 1) with
  | some k, some v =>
    headDim q.e0 && bi48 q.fmt && bi48 k.fmt && bi48 v.fmt && k.e0 == q.e0 && sameShape v k && k.e3 == q.e3 && k.e2 != 0 && q.e2 % k.e2 == 0 &&
    ((bits l.p0 8 2 == 0 && bits l.p0 10 2 == 0) || (q.posEn && k.posEn))
  | _, _ => false

/-- Sequence table at SRC_C and block table at SRC_C + 1 for `n` sequences (R160, R161). -/
def pagedTables (g : Img) (l : Leg) (n : Nat) : Bool :=
  (needs g l.c fun t => t.fmt == 8 && t.e0 == 2 && t.e1 == n) && (needs g (l.c + 1) fun t => t.fmt == 8 && t.e1 == n)

/-- A-gate operations (R150 to R168). -/
def ruleA (g : Img) (l : Leg) : Bool :=
  match l.op with
  | 1 => needs g l.a fun q =>
    denseShapes g l q && l.c == NONE && attendEnc l && bits l.p0 24 8 == 0 && attendOut g l q && attendArea g l
  | 2 => needs g l.a fun q =>
    let w := q.e0 * q.e2
    let qtok := bits l.p0 24 8 + 1
    headDim q.e0 && bi48 q.fmt && attendEnc l && bits l.p0 11 1 == 0 && attendOut g l q && attendArea g l && decide (q.e3 ≤ 256) &&
    q.e1 % qtok == 0 && pagedTables g l q.e3 &&
    (needs g l.b fun t => t.fmt == 2 && t.e0 == 264 * w && decide (32 ≤ w) && decide (w ≤ 4096))
  | 3 => needs g l.a fun q =>
    denseShapes g l q && attendEnc l && bits l.p0 17 15 == 0 && bits l.p1 0 1 == 0 && bits l.p1 28 4 == 0 && attendArea g l && expRule g l (rowsOf q) &&
    (needs g (l.expd + 2) fun t => t.fmt == 4 && t.e0 == 8 && sameRows t q) &&
    (needs g l.c fun o => sameShape o q && bi48 o.fmt) && (needs g (l.c + 1) fun t => t.fmt == 4 && t.e0 == 1 && sameRows t q) &&
    (match opDesc g l.b with
     | some k => (needs g l.dst fun t => t.fmt == 4 && sameShape t k) && needs g (l.dst + 1) fun t => t.fmt == 4 && sameShape t k
     | none => false) &&
    (needs g (l.dst + 2) fun t => t.fmt == 4 && sameShape t q) &&
    (let e := fun lo => toSigned 10 (bits l.p1 lo 10)
     decide (-384 ≤ e 8) && decide (e 8 ≤ 384) && decide (-384 ≤ e 18) && decide (e 18 ≤ 384))
  | 4 => needs g l.a fun k =>
    let qtok := bits l.p0 24 8 + 1
    (k.fmt == 4 || isDenseBlock k.fmt) && k.e1 == qtok && decide (32 ≤ k.e0) && decide (k.e0 ≤ 4096) && k.e0 % 32 == 0 &&
    decide (bits l.p0 13 2 < 2) && decide (bits l.p0 15 2 < 2) && bits l.p0 0 11 == 0 && pairingOk l && bits l.p0 17 7 == 0 && l.p1 == 0 && l.p2 == 0 &&
    l.expd == NONE &&
    (needs g l.b fun v => (v.fmt == 4 || isDenseBlock v.fmt) && sameShape v k) && pagedTables g l (k.e2 * k.e3) &&
    (needs g l.dst fun t => t.fmt == 2 && t.e0 == 264 * k.e0)
  | 5 => (needs g l.a fun t => t.fmt == 3 && t.e0 == 48 && decide (1 ≤ t.e1) && decide (t.e1 ≤ 128) && t.e2 == 1 && t.e3 == 1) &&
    l.b == NONE && l.c == NONE && l.dst == NONE && l.expd == NONE && l.p0 == 0 && l.p1 == 0 && l.p2 == 0
  | 6 => needs g l.a fun t =>
    headDim t.e0 && (t.fmt == 4 || isDenseBlock t.fmt) && l.b == NONE && l.c == NONE && expOpt g l (rowsOf t) &&
    (l.dst == FIFO || needs g l.dst fun o => sameShape o t && narrowFmt o.fmt) &&
    l.p0 % 2 ^ 12 == 0 && l.p0 / 2 ^ 13 == 0 && bits l.p1 16 16 == 0 && l.p2 == 0
  | _ => false

/-- A memory or cached source of an elementwise shape: DST's extents, or EXTENT0 1 (R128); the FIFO delivers I32. Cached operands are I32. -/
def vSource (g : Img) (i : Nat) (cached : Bool) (o : Desc) : Bool :=
  (i == FIFO && !cached) || needs g i fun d => (d.e0 == o.e0 || d.e0 == 1) && sameRows d o && !isIX d.fmt && (!cached || d.fmt == 4)

/-- A V-gate destination for results of a shape: the FIFO, or an I or dense block tensor; a cached one is I32. -/
def vDest (g : Img) (i : Nat) (cached : Bool) (p : Desc → Bool) : Bool :=
  (i == FIFO && !cached) || needs g i fun o => narrowFmt o.fmt && p o && (!cached || o.fmt == 4)

/-- The shape a V-gate leg works over: DST's, or SRC_A's when DST is the FIFO. -/
def vShape (g : Img) (l : Leg) : Option Desc := if l.dst = FIFO then opDesc g l.a else opDesc g l.dst

/-- Sources a function of ELEMWISE uses (R133). -/
def funcArity (f : Nat) : Nat := if f = 8 then 3 else if f = 9 ∨ 0x0D ≤ f then 1 else 2

/-- The parameter bits of ELEMWISE's functions (R133). -/
def funcParams (l : Leg) : Bool :=
  let f := bits l.p0 0 8
  decide (f ≤ 0x16) && bits l.p0 8 24 == 0 &&
  (if f = 2 then bits l.p1 26 6 == 0 else if f = 9 then bits l.p1 22 10 == 0 else bits l.p1 16 16 == 0)

/-- A checksum vector's descriptor for weights (R144). -/
def chkRule (g : Img) (i : Nat) (w : Desc) : Bool :=
  w.e2 == 1 && w.e3 == 1 && needs g i fun t => t.fmt == 4 && t.e0 == w.e0 && t.e1 == ceilDiv w.e1 256 && t.e2 == 1 && t.e3 == 1

/-- V-gate operations (R128 to R144, R207, R218). DESIGN CHOICE, where the rules do not say (log entry 117): a leg whose SRC_A and DST are both the FIFO
has no extents and is rejected, and so is a REDUCE, KL, OPT_UPDATE or SM_MERGE with the FIFO as a source or as DST, an SM_MERGE whose O sources are not I32,
and CHK_EN without WORK_EN; SM_NORMALISE takes state rows of EXTENT0 4 or 8 and reads the first record. -/
def ruleV (g : Img) (l : Leg) : Bool :=
  let ca := bit l.p2 0
  let cb := bit l.p2 1
  let cc := bit l.p2 2
  let cd := bit l.p2 3
  let p2ok := bits l.p2 4 28 == 0
  match l.op with
  | 1 => match vShape g l with
    | none => false
    | some o =>
      let n := funcArity (bits l.p0 0 8)
      funcParams l && p2ok && expOpt g l (rowsOf o) && vDest g l.dst cd (fun _ => true) && vSource g l.a ca o &&
      (if 2 ≤ n then vSource g l.b cb o else l.b == NONE) && (if n = 3 then vSource g l.c cc o else l.c == NONE)
  | 2 => needs g l.a fun a =>
    let dim := bits l.p0 0 2
    bits l.p0 4 28 == 0 && p2ok && bits l.p1 16 16 == 0 && l.b == NONE && l.c == NONE && !isIX a.fmt && (!ca || a.fmt == 4) &&
    needs g l.dst fun o =>
      narrowFmt o.fmt && (!cd || o.fmt == 4) && expOpt g l (rowsOf o) &&
      o.e0 == (if dim = 0 then 1 else a.e0) && o.e1 == (if dim = 1 then 1 else a.e1) && o.e2 == (if dim = 2 then 1 else a.e2) &&
      o.e3 == (if dim = 3 then 1 else a.e3)
  | 3 => match vShape g l with
    | none => false
    | some o =>
      decide (bits l.p0 0 2 < 2) && bits l.p0 3 29 == 0 && bits l.p1 16 16 == 0 && expOpt g l (rowsOf o) && vDest g l.dst cd (fun _ => true) &&
      (l.a == FIFO && !ca || needs g l.a fun a => sameShape a o && !isIX a.fmt && (!ca || a.fmt == 4)) &&
      (l.b == NONE || vSource g l.b cb o) &&
      (if bit l.p0 2 then needs g l.c fun t => t.fmt == 4 && t.e0 == 4 && sameRows t o else l.c == NONE)
  | 4 => match vShape g l with
    | none => false
    | some o =>
      bits l.p0 1 31 == 0 && p2ok && l.c == NONE && expOpt g l (rowsOf o) && vDest g l.dst cd (fun _ => true) &&
      (l.a == FIFO && !ca || needs g l.a fun a => sameShape a o && !isIX a.fmt && (!ca || a.fmt == 4)) &&
      (needs g l.b fun t => t.fmt == 4 && (t.e0 == 4 || t.e0 == 8) && sameRows t o)
  | 5 => needs g l.a fun a =>
    l.p0 == 0 && p2ok && expOpt g l (rowsOf a) && a.fmt == 4 && (needs g l.b fun b => b.fmt == 4 && sameShape b a) &&
    (needs g l.c fun t => t.fmt == 4 && t.e0 == 8 && sameRows t a) && (needs g l.dst fun o => narrowFmt o.fmt && sameShape o a && (!cd || o.fmt == 4)) &&
    (needs g (l.dst + 1) fun t => t.fmt == 4 && t.e0 == 4 && sameRows t a)
  | 6 => needs g l.a fun a =>
    bits l.p0 2 30 == 0 && p2ok && bits l.p1 16 16 == 0 && l.c == NONE && expOpt g l (rowsOf a) && !isIX a.fmt && (!ca || a.fmt == 4) &&
    (needs g l.b fun b => sameShape b a && !isIX b.fmt && (!cb || b.fmt == 4)) &&
    (needs g l.dst fun o => narrowFmt o.fmt && o.e0 == 1 && sameRows o a && (!cd || o.fmt == 4)) &&
    (!bit l.p0 1 || needs g (l.dst + 1) fun o => narrowFmt o.fmt && sameShape o a)
  | 7 => needs g l.a fun a =>
    p2ok && bits l.p1 18 14 == 0 && l.c == NONE && expOpt g l (rowsOf a) && !isIX a.fmt && (!ca || a.fmt == 4) &&
    l.dst == l.b && (needs g l.b fun b => b.fmt == 4 && b.e0 == 3 * a.e0 && sameRows b a) &&
    l.p0 % 32 == 0 && decide (l.p0 + 32 ≤ imgScratch g) &&
    (!bit l.p1 16 || needs g (l.dst + 1) fun w => narrowFmt w.fmt && sameShape w a) &&
    (!bit l.p1 17 || (bit l.p1 16 && needs g (l.dst + 1) fun w => chkRule g (l.dst + 2) w))
  | 8 => match vShape g l with
    | none => false
    | some o =>
      bits l.p0 1 31 == 0 && p2ok && bits l.p1 16 16 == 0 && l.b == NONE && l.c == NONE && expOpt g l (rowsOf o) && vDest g l.dst cd (fun _ => true) &&
      (l.a == FIFO && !ca || needs g l.a fun a => sameShape a o && !isIX a.fmt && (!ca || a.fmt == 4)) &&
      (!bit l.p0 0 || needs g l.dst fun w => isBlock w.fmt && chkRule g (l.dst + 1) w)
  | 9 => needs g l.a fun a =>
    bits l.p0 1 31 == 0 && l.p1 == 0 && p2ok && !ca && !cd && l.b == NONE && l.c == NONE && l.expd == NONE && a.fmt == 0x11 &&
    needs g l.dst fun o => o.fmt == 0x14 && sameShape o a && (!bit l.p0 0 || chkRule g (l.dst + 1) o)
  | 10 => needs g l.a fun a =>
    l.p0 == 0 && bits l.p1 16 16 == 0 && p2ok && !ca && cd && l.b == NONE && l.c == NONE && expOpt g l (rowsOf a) && !isIX a.fmt &&
    needs g l.dst fun o => o.fmt == 4 && sameShape o a
  | 11 => needs g l.a fun a =>
    l.p0 == 0 && bits l.p1 16 16 == 0 && p2ok && ca && !cd && l.b == NONE && l.c == NONE && expOpt g l (rowsOf a) && a.fmt == 4 &&
    needs g l.dst fun o => narrowFmt o.fmt && sameShape o a
  | 12 => needs g l.a fun a =>
    l.p0 == 0 && l.p1 == 0 && l.p2 == 0 && l.b == NONE && l.c == NONE && l.expd == NONE && (a.fmt == 0x11 || a.fmt == 0x12 || a.fmt == 0x14) &&
    a.e2 == 1 && a.e3 == 1 && needs g l.dst fun o => o.fmt == 0x10 && o.e0 == ceilDiv a.e0 4 && o.e1 == a.e1 && o.e2 == 1 && o.e3 == 1
  | _ => false

/-- Entries of a seed's path record (R176). -/
def sampleSize (p0 : Nat) : Nat :=
  let f1 := bits p0 2 6 + 1
  let f2 := bits p0 8 6 + 1
  let f3 := bits p0 14 6 + 1
  match bits p0 0 2 with
  | 1 => f1
  | 2 => f1 + f1 * f2
  | _ => f1 + f1 * f2 + f1 * f2 * f3

/-- A target of drift adds (R119, R120, R187). -/
def driftTarget (g : Img) (i : Nat) : Bool :=
  needs g i fun o => o.fmt == 4 && decide (1 ≤ o.e0) && decide (o.e0 ≤ 32) && o.e2 == 1 && o.e3 == 1 && o.offset % 4 == 0 && o.s1 % 4 == 0 && o.s2 % 4 == 0 && o.s3 % 4 == 0

/-- Row numbers or seeds of an embedding or sampling leg: IX32. -/
def ix32 (d : Desc) : Bool := d.fmt == 8

/-- The table records of an embedding leg (R190). -/
def tableRule (g : Img) (i table : Nat) : Bool :=
  needs g i fun t => t.fmt == 9 && t.e0 == 8 && decide (1 ≤ t.e1) && decide (t.e1 ≤ 256) && decide (table < t.e1)

/-- G-gate operations (R173 to R196). -/
def ruleG (g : Img) (l : Leg) : Bool :=
  match l.op with
  | 1 => needs g l.a fun a =>
    let hops := bits l.p0 0 2
    ix32 a && a.e1 == 1 && a.e2 == 1 && a.e3 == 1 && hops != 0 && bits l.p0 21 11 == 0 && l.p1 == 0 && l.p2 == 0 && l.expd == NONE &&
    (decide (2 ≤ hops) || bits l.p0 8 6 == 0) && (hops == 3 || bits l.p0 14 6 == 0) &&
    (needs g l.b fun o => o.fmt == 9 && decide (1 ≤ o.e0)) && (needs g (l.b + 1) ix32) &&
    (if bit l.p0 20 then (match opDesc g (l.b + 1) with | some c => needs g l.c fun t => t.fmt == 9 && t.e0 == c.e0 | none => false) else l.c == NONE) &&
    needs g l.dst fun o => ix32 o && o.e0 == sampleSize l.p0 && o.e1 == a.e0 && o.e2 == 1 && o.e3 == 1
  | 2 => needs g l.a fun a =>
    a.e2 == 1 && a.e3 == 1 && l.c == NONE && l.expd == NONE && l.p0 == 0 && l.p1 == 0 && l.p2 == 0 &&
    (needs g l.b fun i => isIX i.fmt && (l.dst == FIFO && a.fmt != 0x14 || needs g l.dst fun o => o.e0 == a.e0 && o.fmt == a.fmt && rowsOf o == elemsOf i && o.outEn == a.outEn))
  | 3 =>
    bits l.p0 0 31 == 0 && l.p1 == 0 && l.p2 == 0 && l.c == NONE && l.expd == NONE && driftTarget g l.dst &&
    (needs g l.b fun i => ix32 i && (l.a == FIFO || match opDesc g l.dst with
      | some o => needs g l.a fun a => a.fmt == 4 && a.e0 == o.e0 && rowsOf a == elemsOf i
      | none => false))
  | 4 =>
    bits l.p0 0 31 == 0 && bits l.p2 16 16 == 0 && l.expd == NONE && driftTarget g l.dst &&
    (needs g l.b fun o => o.fmt == 9 && decide (1 ≤ o.e0)) && (needs g l.c ix32) &&
    (match opDesc g l.dst with
     | some o => needs g l.a fun a => (a.fmt == 4 || isBlock a.fmt) && a.e0 == o.e0 && a.e2 == 1 && a.e3 == 1
     | none => false)
  | 5 =>
    bits l.p0 9 23 == 0 && l.p1 == 0 && bits l.p2 16 16 == 0 && (bit l.p0 8 || l.p2 == 0) && l.c == NONE && l.expd == NONE &&
    tableRule g l.a (bits l.p0 0 8) &&
    (needs g l.b fun i => ix32 i && (l.dst == FIFO && bit l.p0 8 || needs g l.dst fun o => rowsOf o == elemsOf i && (if bit l.p0 8 then o.fmt == 4 else isER o.fmt)))
  | 6 =>
    bits l.p0 8 1 == 0 && bits l.p0 16 15 == 0 && l.p1 == 0 && l.p2 == 0 && l.expd == NONE && l.dst == NONE && tableRule g l.c (bits l.p0 0 8) &&
    (needs g l.b fun i => ix32 i && (l.a == FIFO || needs g l.a fun a => a.fmt == 4 && decide (1 ≤ a.e0) && decide (a.e0 ≤ 32) && rowsOf a == elemsOf i))
  | 7 =>
    bits l.p0 8 24 == 0 && l.p1 == 0 && l.p2 == 0 && l.c == NONE && l.expd == NONE && l.dst == NONE && tableRule g l.a (bits l.p0 0 8) && needs g l.b ix32
  | _ => false

/-- No operand or parameter beside SRC_A and DST. -/
def plainCopy (l : Leg) : Bool := l.b == NONE && l.c == NONE && l.expd == NONE && l.p0 == 0 && l.p1 == 0 && l.p2 == 0

/-- A source or the FIFO with DST's format and extents (R168, R170, R305). -/
def copyShape (g : Img) (l : Leg) : Bool :=
  needs g l.dst fun o => l.a == FIFO || needs g l.a fun a => a.fmt == o.fmt && sameShape a o && a.outEn == o.outEn

/-- X-gate operations (R119, R168, R170, R305 to R322). -/
def ruleX (g : Img) (l : Leg) : Bool :=
  match l.op with
  | 1 =>
    l.b == NONE && l.c == NONE && bits l.p0 16 16 == 0 && bits l.p1 0 8 == 0 && bits l.p1 16 16 == 0 && l.p2 == 0 &&
    (l.a == FIFO || needs g l.a fun a => isI a.fmt || isBlock a.fmt) &&
    (match (if l.dst = FIFO then opDesc g l.a else opDesc g l.dst) with
     | some o => expOpt g l (rowsOf o) && (l.dst == FIFO || narrowFmt o.fmt) && (match opDesc g l.a with | some a => sameShape a o | none => true) &&
        (bits l.p1 8 8 == 0 || (l.expd != NONE && statsRule g l (bits l.p1 8 8) o))
     | none => false)
  | 2 =>
    plainCopy l && (needs g l.dst fun o => o.fmt == 4 && o.offset % 4 == 0 && o.s1 % 4 == 0 && o.s2 % 4 == 0 && o.s3 % 4 == 0 &&
      (l.a == FIFO || needs g l.a fun a => a.fmt == 4 && elemsOf a == elemsOf o))
  | 3 => needs g l.dst fun o =>
    let chEn := bit l.p0 0
    let out := bits l.p0 11 2
    o.fmt == 4 && bits l.p0 19 13 == 0 && bits l.p1 22 10 == 0 && l.p2 == 0 && l.c == NONE &&
    (out % 2 == 0 || (o.offset % 4 == 0 && o.s1 % 4 == 0 && o.s2 % 4 == 0 && o.s3 % 4 == 0)) &&
    (l.a == FIFO || (l.a == NONE && chEn) || needs g l.a fun a => a.fmt == 4 && elemsOf a == elemsOf o) &&
    (if chEn then needs g l.b fun b => b.fmt == 4 && elemsOf b == elemsOf o else l.b == NONE) && expOpt g l (rowsOf o)
  | 4 =>
    let lanes := fun i => needs g i fun t => t.fmt == 4 && t.e0 == 32
    l.b == NONE && l.c == NONE && l.expd == NONE && bits l.p0 2 30 == 0 && l.p1 == 0 && l.p2 == 0 &&
    (match bits l.p0 0 2 with
     | 0 => lanes l.dst && l.a == NONE
     | 3 => false
     | _ => lanes l.a && l.dst == NONE)
  | 5 => needs g l.dst fun o =>
    (needs g l.a fun a => a.fmt == o.fmt && sameShape a o && a.outEn == o.outEn) && (needs g l.b fun h => h.fmt == 8 && h.e0 == 2) && l.c == NONE && l.expd == NONE &&
    (needs g (l.dst + 1) fun t => t.fmt == 8 && t.e0 == 2) && bits l.p0 4 4 == 0 && bits l.p0 16 16 == 0 &&
    l.p1 == 0 && l.p2 == 0
  | 6 => plainCopy l && copyShape g l
  | 7 => plainCopy l && copyShape g l
  | 8 => plainCopy l && copyShape g l
  | _ => false

/-- A leg's operand indices within the tables (R35 check 5). -/
def indexOk (g : Img) (i : Nat) : Bool := decide (i < imgDescCount g) || i == FIFO || i == NONE

/-- One leg under check 5 of R35, with the FIFOs of R24: the G-gate's upstream FIFO is not judged, the X-gate's downstream one needs CHAIN_EN. -/
def legOk (g : Img) (gi : Nat) (l : Leg) : Bool :=
  l.kind == gateKind gi && l.flagsRsv == 0 && decide (l.round < 2) && l.rsv == 0 && (l.kind == 1 || l.opmode == 0) &&
  indexOk g l.a && indexOk g l.b && indexOk g l.c && indexOk g l.dst && (decide (l.expd < imgDescCount g) || l.expd == NONE) &&
  (!l.waitEn || decide (l.wsync < imgSyncCount g)) && (!l.sigEn || decide (l.ssync < imgSyncCount g)) &&
  !(gi == 11 && l.dst == FIFO && !imgChainEn g) &&
  (match l.kind with | 0 => ruleG g l | 1 => ruleM g l | 2 => ruleA g l | 3 => ruleV g l | 4 => ruleX g l | _ => false)

/-- The legs of gate `gi`. -/
def imgLegs (g : Img) (gi : Nat) : List Leg := (List.range (imgCount g gi)).map (imgLeg g gi)

/-- The target that binds drift legs (R184): operation, DST, and for EMB_SCATTER the table and slice. -/
def driftKey (l : Leg) : Nat × Nat × Nat × Nat := (l.op, l.dst, if l.op = 6 then l.c else 0, if l.op = 6 then bits l.p0 0 16 else 0)

/-- Whether a leg is a drift leg (R183). -/
def isDrift (l : Leg) : Bool := l.op == 3 || l.op == 4 || l.op == 6

/-- Drift legs are bound until one flushes, and the last one flushes (R184). -/
def driftOk : Option (Nat × Nat × Nat × Nat) → List Leg → Bool
  | open_, [] => open_.isNone
  | open_, l :: r =>
    if !isDrift l then driftOk open_ r
    else (match open_ with | none => true | some k => k == driftKey l) && driftOk (if bit l.p0 31 then none else some (driftKey l)) r

/-- Hops of all SAMPLE legs together (R176). -/
def hopsOk (ls : List Leg) : Bool := decide (((ls.filter (·.op == 1)).map fun l => bits l.p0 0 2).foldl (· + ·) 0 ≤ 3)

/-- A sync table entry under check 5 (R35, R39). -/
def syncOk (e : SyncEnt) : Bool := e.rsv == 0 && e.amount != 0 && (e.global || decide (e.counter < 256))

/-- A forerunner entry under R233. -/
def frnOk (g : Img) (f : Nat) (e : FrnEnt) : Bool :=
  decide (e.gate < 12) && decide (e.operand < 7) && e.rsv == 0 && e.stageOff % 128 == 0 && decide (4096 ≤ e.stageSize) && decide (e.stageSize ≤ 4194304) &&
  e.stageSize % 4096 == 0 && decide (e.leg < imgCount g e.gate) && decide (e.stageOff + e.stageSize ≤ imgScratch g) &&
  ((e.operand == 3 || e.operand == 6) == (f == 2)) &&
  (let l := imgLeg g e.gate e.leg
   let base := frnOperand l (if e.operand = 4 then 1 else if e.operand = 5 then 2 else if e.operand = 6 then 3 else e.operand)
   base != NONE && base != FIFO)

/-- Whether two entries of a list name one operand of one leg. -/
def frnDup : List FrnEnt → Bool
  | [] => false
  | e :: r => r.any (fun x => x.gate == e.gate && x.leg == e.leg && x.operand == e.operand) || frnDup r

/-- The forerunner programs under R233. -/
def frnsOk (g : Img) : Bool :=
  (List.range 3).all (fun f => (imgFrns g f).all (frnOk g f)) && !frnDup ((List.range 3).flatMap (imgFrns g))

/-- A tensor descriptor under check 6 (R43, R216). -/
def descOk (d : Desc) : Bool :=
  fmtDefined d.fmt && decide (d.scaleMode < 2) && (isBlock d.fmt == (d.scaleMode == 1)) && decide (d.outEn < 2) && (d.outEn == 0 || isDenseBlock d.fmt) &&
  d.s0 == 0 && d.posRsv == 0

/-- Whether a program or table of `n` bytes at an offset lies in the image. -/
def inside (g : Img) (off n : Nat) : Bool := n == 0 || decide (off + n ≤ imgSize g)

/-- The image's CHECK: CRC-32C over it with the field read as 0 (R34). -/
def imgCheck (g : Img) : Bool :=
  let b := g 0 (imgSize g)
  crc32c (b.take 0x64 ++ [0, 0, 0, 0] ++ b.drop 0x68) == imgNat g 0x64 4

/-- Check 2 of R35. -/
def headerOk (g : Img) : Bool :=
  imgNat g 0 4 == 0x50414D50 && imgNat g 4 2 == 1 && imgCheck g && decide (imgNat g 6 1 < 2) && imgMapId g != 0 && decide (imgDescCount g ≤ 2048) &&
  decide (imgSyncCount g ≤ 64) && decide (imgScratch g ≤ 24 * 2 ^ 20) && bits (imgNat g 7 1) 1 7 == 0 && bits (imgBypass g) 12 4 == 0 &&
  imgNat g 0x17 1 == 0 && imgNat g 0x68 24 == 0 &&
  (List.range 12).all (fun i => inside g (imgProg g i) (32 * imgCount g i)) &&
  (List.range 3).all (fun f => inside g (imgProg g (12 + f)) (16 * imgCount g (12 + f))) &&
  inside g (imgNat g 0x5C 4) (64 * imgDescCount g) && inside g (imgNat g 0x60 4) (16 * imgSyncCount g)

/-- M-gate legs that a standard piste does not take (R12). -/
def wideOnly (g : Img) : Bool :=
  [1, 3, 5, 8, 10].any fun gi =>
    let ms := (imgLegs g gi).map (·.opmode)
    ms.any (fun m => m == 5 || m == 6) || (match ms with | [] => false | m :: r => r.any (· != m))

/-- The wide pistes (R12). -/
def wide (p : Nat) : Bool := p % 16 == 15

/-- Check 4 of R35 (R26, R27). -/
def chainOk (g : Img) (p : Nat) : Bool :=
  (if imgChainEn g then imgChainTo g / 16 == p / 16 && imgChainTo g != p else imgChainTo g == 0) &&
  (List.range 12).all fun gi => !(bit (imgBypass g) gi && imgCount g gi != 0)

/-- The status of an image of a piste from a slot on: the first check of R35 that fails, or 0. -/
def imageStatus (g : Img) (p slot : Nat) : Nat :=
  let sz := imgSize g
  if !(decide (128 ≤ sz) && decide (sz ≤ 262144) && sz % 64 == 0 && decide (slot + slotsOf sz ≤ 4)) then Code.MAP_SIZE
  else if !headerOk g then Code.MAP_HEADER
  else if !wide p && (imgNat g 6 1 == 1 || decide (8 * 2 ^ 20 < imgScratch g) || wideOnly g) then Code.MAP_PISTE_KIND
  else if !chainOk g p then Code.MAP_HEADER
  else if !((List.range 12).all (fun gi => (imgLegs g gi).all (legOk g gi)) && driftOk none (imgLegs g 0) && hopsOk (imgLegs g 0) &&
      (List.range (imgSyncCount g)).all (fun i => syncOk (imgSync g i)) && frnsOk g) then Code.MAP_LEG
  else if !(List.range (imgDescCount g)).all (fun i => descOk (imgDesc g i)) then Code.DESC_FORMAT
  else 0

end Sys2Proof.Machine
end

