-- ==== Sys2Proof/Machine/Operands.lean ====
section
/-! DEFINITION. Operands of legs: the checks of R44, reading tensors with poison (R224) and from peers, lane generators (R76 to R79), narrowing
into a destination (R127) and writing it. -/

namespace Sys2Proof.Machine

open Sys2Proof

/-! ### Checks at issue (R44, R45, R48) -/

/-- The use a leg makes of a descriptor. -/
inductive Use where
  | rd | wr | at | idx
  deriving DecidableEq, Repr

/-- A region entry of the table applied to a piste. -/
def rgnOf (s : State) (p n : Nat) : BitVec 128 := smGet rgnDefault (pisteOf s p).applied n

/-- The rights a use needs (R44, R48, R118); `idx` reads rows chosen by data. -/
def rightsOk (u : Use) (r : BitVec 128) : Bool :=
  match u with
  | .rd => rgnRd r
  | .idx => rgnRd r
  | .wr => rgnWr r && !rgnFrozen r
  | .at => rgnAt r && !rgnFrozen r && rgnLoc r != 1

/-- The length of a region as a piste may use it (R48). -/
def rgnBound (p : Nat) (r : BitVec 128) : Nat := if rgnLoc r = 2 then min (rgnLen r) (scratchSize p - rgnBase r) else rgnLen r

/-- The regions a descriptor uses. -/
def descRegions (d : Desc) : List Nat := d.region :: (if d.scaleMode = 1 then [d.scaleRegion] else []) ++ (if d.outEn = 1 then [d.outRegion] else [])

/-- The checks of R44 on one descriptor: the status of the first that fails, or 0. -/
def descStatus (s : State) (p : Nat) (d : Desc) (u : Use) : Nat :=
  if !(descRegions d).all (fun n => rgnValid (rgnOf s p n)) then Code.DESC_REGION
  else if descEmpty d then 0
  else if !(descRegions d).all (fun n => rightsOk u (rgnOf s p n)) then Code.DESC_RIGHTS
  else if rgnBound p (rgnOf s p d.region) < footEnd d then Code.DESC_BOUNDS
  else if d.scaleMode = 1 ∧ rgnBound p (rgnOf s p d.scaleRegion) < d.scaleOffset + blocksOf d then Code.DESC_BOUNDS
  else if d.outEn = 1 ∧ rgnBound p (rgnOf s p d.outRegion) < d.outOffset + 8 * blocksOf d then Code.DESC_BOUNDS
  else 0

/-! ### Reading -/

/-- What a leg reads from: the state it finds, its piste, and the bytes fetched for it, from peers or ahead of it. -/
structure View where
  s : State
  p : Nat
  got : List Fetched

/-- The fetched bytes that hold an address of a location, the latest first. -/
def fetchedAt (l : List Fetched) (loc node space a : Nat) : Option Fetched :=
  l.reverse.find? fun f => f.loc == loc && f.node == node && f.space == space && decide (f.addr ≤ a) && decide (a < f.addr + f.bytes.length)

/-- A byte of memory with no bytes fetched ahead: HBM, host memory, the piste's scratchpad; a peer's bytes are only those fetched. -/
def placeByte (s : State) (p loc a : Nat) : Byte :=
  match loc with
  | 0 => hbmByte s a
  | 1 => hostByte s a
  | 2 => smGet byteDefault s.mem.scratch (scratchKey p a)
  | _ => 0

/-- Whether a byte of memory lies in a poisoned word or beat (R223, R332). -/
def placePoison (s : State) (p loc a : Nat) : Bool :=
  match loc with
  | 0 => hbmPoisoned s a
  | 1 => smGet flagDefault s.mem.hostPoison (a / 64)
  | 2 => smGet flagDefault s.mem.scratchPoison (scratchKey p a / 128)
  | _ => false

/-- `n` bytes at a location of a leg's reads: as they were fetched, else as they stand in memory. -/
def viewBytes (v : View) (loc node space a n : Nat) : List Byte :=
  if v.got.all (fun f => f.loc != loc) then
    match loc with
    | 0 => hbmRead v.s a n
    | 1 => smList byteDefault v.s.mem.host a n
    | 2 => smList byteDefault v.s.mem.scratch (scratchKey v.p a) n
    | _ => List.replicate n 0
  else (List.range n).map fun i => match fetchedAt v.got loc node space (a + i) with
    | some f => nth f.bytes (a + i - f.addr) 0
    | none => placeByte v.s v.p loc (a + i)

/-- Whether a byte that a leg reads is poisoned (R223, R224, R295, R332). -/
def viewPoison (v : View) (loc node space a : Nat) : Bool :=
  match fetchedAt v.got loc node space a with
  | some f => f.poison
  | none => placePoison v.s v.p loc a

/-- The peer a region names, 0 for a region of this module. -/
def rgnPeer (r : BitVec 128) : Nat := if rgnLoc r = 3 then rgnNode r else 0

/-- `n` bytes of a region. -/
def rgnBytes (v : View) (r : BitVec 128) (off n : Nat) : List Byte := viewBytes v (rgnLoc r) (rgnPeer r) 0 (rgnBase r + off) n

/-- Whether a byte of a region lies in a poisoned word or beat (R223, R224, R332). -/
def rgnPoison (v : View) (r : BitVec 128) (off : Nat) : Bool := viewPoison v (rgnLoc r) (rgnPeer r) 0 (rgnBase r + off)

/-- Whether a location of a leg's reads holds no poison at all. -/
def rgnQuiet (v : View) (r : BitVec 128) : Bool :=
  v.got.all (fun f => !f.poison) &&
  match rgnLoc r with
  | 0 => v.s.mem.hbmPoison.isEmpty && v.s.stk.granules.isEmpty
  | 1 => v.s.mem.hostPoison.isEmpty
  | 2 => v.s.mem.scratchPoison.isEmpty
  | _ => true

/-- The byte offsets, of `n` from `off`, that read as poisoned. -/
def poisonOffs (v : View) (r : BitVec 128) (off n : Nat) : List Nat :=
  if rgnQuiet v r then [] else (List.range n).filter fun i => rgnPoison v r (off + i)

/-- Whether element `i` of width `w` holds a poisoned byte. -/
def elemBad (bad : List Nat) (w i : Nat) : Bool := bad.any fun b => decide (i * w / 8 ≤ b) && decide (b ≤ ((i + 1) * w - 1) / 8)

/-- Bytes and poisoned offsets of part of a tensor's own region. -/
def descBytes (v : View) (d : Desc) (off n : Nat) : List Byte × List Nat :=
  let r := rgnOf v.s v.p d.region
  (rgnBytes v r off n, poisonOffs v r off n)

/-- The E8 code of block `k` of a tensor, blocks counted over its rows: a poisoned one reads as invalid (R60, R224). -/
def e8Of (v : View) (d : Desc) (k : Nat) : Int :=
  let sr := rgnOf v.s v.p d.scaleRegion
  if poisonOffs v sr (d.scaleOffset + k) 1 = [] then toSigned 8 (leNat (rgnBytes v sr (d.scaleOffset + k) 1)) else -128

/-- Block `b` of a row (R59 to R63, R216, R224). The second part lists the dense positions of stored 2:4 codes beyond the extent (R217). -/
def blockOf (v : View) (d : Desc) (row b : Nat) : Block × List Nat :=
  let w := fmtBits d.fmt
  let nb := ceilDiv d.e0 32
  let n := min 32 (d.e0 - 32 * b)
  let k := row * nb + b
  let e8 := e8Of v d k
  let (bytes, bad) := descBytes v d (rowOff d row + b * (32 * w / 8)) (32 * w / 8)
  if d.fmt = 0x14 then
    let (x, l) := decode24 n e8 bytes (!bad.isEmpty)
    (x, l.map (32 * b + ·))
  else
    let orr := rgnOf v.s v.p d.outRegion
    let side := if d.outEn = 1 then some (leNat (rgnBytes v orr (d.outOffset + 8 * k) 8)) else none
    let sbad := d.outEn == 1 && !(poisonOffs v orr (d.outOffset + 8 * k) 8).isEmpty
    let badEl := if bad.isEmpty then [] else (List.range n).filter (elemBad bad w)
    (decodeBlock w n e8 ((List.range n).map (codeAt w bytes)) side sbad badEl, [])

/-- The blocks of a row. -/
def rowBlocks (v : View) (d : Desc) (row : Nat) : List (Block × List Nat) := (List.range (ceilDiv d.e0 32)).map (blockOf v d row)

/-- The values of a row with their exponents (R56, R59, R65). -/
def rowVals (v : View) (d : Desc) (row : Nat) : List (SV × Int) :=
  if isBlock d.fmt then ((rowBlocks v d row).flatMap fun x => x.1.vals.map fun y => (y, x.1.e)).take d.e0
  else
    let w := fmtBits d.fmt
    let (bytes, bad) := descBytes v d (rowOff d row) (rowBytes d.fmt d.e0)
    if isER d.fmt then let (l, e) := decodeER w d.e0 bytes (!bad.isEmpty); l.map fun x => (x, e)
    else (List.range d.e0).map fun i => (if elemBad bad w i then .nan else codeSV w (codeAt w bytes i), 0)

/-- An index (R174). -/
inductive Idx where
  | none | bad | val (n : Nat)
  deriving DecidableEq, Repr

/-- The index that a code of width `w` holds. -/
def idxOf (w c : Nat) : Idx := if c = 2 ^ w - 1 then .none else if c = 2 ^ w - 2 then .bad else .val c

/-- Element `i` of row `row` of an index tensor; poisoned indices read as BAD (R224). -/
def idxAt (v : View) (d : Desc) (row i : Nat) : Idx :=
  let w := fmtBits d.fmt
  let (bytes, bad) := descBytes v d (rowOff d row + i * w / 8) (w / 8)
  if bad = [] then idxOf w (leNat bytes) else .bad

/-- Element `j` of an index tensor in loop order. -/
def idxLin (v : View) (d : Desc) (j : Nat) : Idx := idxAt v d (j / d.e0) (j % d.e0)

/-- A raw word of an index tensor. -/
def wordLin (v : View) (d : Desc) (j : Nat) : Nat :=
  let w := fmtBits d.fmt
  leNat (descBytes v d (rowOff d (j / d.e0) + j % d.e0 * w / 8) (w / 8)).1

/-- The I16 exponent of a row from an EXP_DESC tensor (R92, R127): none for a code outside -384 to +384. -/
def expAt (v : View) (d : Desc) (r : Nat) : Option Int :=
  let (bytes, bad) := descBytes v d (rowOff d (r / d.e0) + r % d.e0 * 2) 2
  let e := toSigned 16 (leNat bytes)
  if bad = [] ∧ -384 ≤ e ∧ e ≤ 384 then some e else none

/-! ### Lane generators (R76 to R79) -/

/-- The schuss mixer (R77): one draw from key words and counter. -/
def mixer (k0 k1 counter : Nat) : Nat :=
  (List.range 6).foldl (fun x i =>
    let a := x.xor (if i % 2 = 0 then k0 else k1)
    let b := (a + (a * 2 ^ 23 % 2 ^ 64 + a / 2 ^ 41)) % 2 ^ 64
    let c := b.xor (b / 2 ^ 29)
    c * 0xA3B195C42D7FE60B % 2 ^ 64) (counter % 2 ^ 64)

/-- The key of a stream of a lane (R76). -/
def laneKey (seed stream island lane : Nat) : Nat × Nat :=
  let h := shake256 (leBytes 8 seed ++ leBytes 4 (stream * 2 ^ 24 + island * 256 + lane)) 16
  (leAt h 0 8, leAt h 8 8)

/-- One draw of a stream at a counter. -/
def drawAt (seed stream island lane counter : Nat) : Nat :=
  let k := laneKey seed stream island lane
  mixer k.1 k.2 counter

/-- The key of a data position. -/
def posKey (island stream lane : Nat) : Nat := (island * 2 + stream) * 256 + lane
/-- The data position of a stream (R78). -/
def posOf (s : State) (island stream lane : Nat) : Nat := smGet zeroDefault s.units.genPos (posKey island stream lane)

/-- Positions of an island's rounding lanes advanced by `n lane` (R78). -/
def advanceLanes (island : Nat) (n : Nat → Nat) : Prog :=
  modUnits fun u =>
    { u with genPos := (List.range 256).foldl (fun m l =>
        if n l = 0 then m else smSet zeroDefault m (posKey island 0 l) ((smGet zeroDefault m (posKey island 0 l) + n l) % 2 ^ 64)) u.genPos }

/-- STOCH_BITS of a mode word (R72). -/
def stochBits (word : Nat) : Nat := 4 * (bits word 0 2 + 1)

/-- The rounding of a leg's final narrowing (R71, R72) for the element whose place in its lane is `off`, column `c`. -/
def finalRnd (s : State) (p g round : Nat) (c off : Nat) : Rnd :=
  if round = 1 then .nearest
  else
    let b := stochBits (pisteOf s p).word
    let i := gateIsland p g
    .stoch b (drawAt (pisteOf s p).seed 0 i (c % 256) (posOf s i 0 (c % 256) + off) / 2 ^ (64 - b))

/-- Chunks of 256 columns that hold lane `l` (R130). -/
def laneChunks (n l : Nat) : Nat := (n + 255 - l % 256) / 256

/-- The place in its lane of element (r, c) of R rows and N columns taken in row groups of 32 and chunks of 256 (R130). -/
def tilePlace (rows n r c : Nat) : Nat :=
  let grp := r / 32
  grp * 32 * laneChunks n c + c / 256 * min 32 (rows - 32 * grp) + r % 32

/-! ### Destinations -/

/-- A row as written: plain codes, or blocks. -/
inductive RowOut where
  | codes (l : List Nat)
  | blocks (l : List BlockOut)
  deriving DecidableEq, Repr

/-- A row of values under `eo` narrowed for a destination (R73, R74, R127); the values it reads back as come with it. -/
def narrowRow (word : Nat) (d : Desc) (rnd : Nat → Rnd) (eo : Int) (vals : List SV) : RowOut × List SV :=
  let w := fmtBits d.fmt
  if isBlock d.fmt then
    let pol := bits word 2 2
    let bs := (pieces 32 vals).zipIdx.map fun x =>
      (narrowBlock w eo (d.outEn == 1 && decide (pol < 2)) (pol % 2 == 1) (fun i => rnd (32 * x.2 + i)) (padTo 32 (.fin 0) x.1), x.1.length)
    (.blocks (bs.map (·.1)), bs.flatMap fun b => readBack w b.2 b.1)
  else if d.fmt = 4 then
    let l := vals.map svI32
    (.codes (l.map (svCode 32)), l)
  else
    let l := vals.zipIdx.map fun x => narrowElem w eo (rnd x.2) x.1
    (.codes l, l.map (codeSV w))

/-- The pieces of memory a written row fills: region number, offset and bytes. -/
def rowPieces (d : Desc) (row : Nat) (o : RowOut) : List (Nat × Nat × List Byte) :=
  match o with
  | .codes l => [(d.region, rowOff d row, packCodes (fmtBits d.fmt) l)]
  | .blocks bs =>
    let nb := ceilDiv d.e0 32
    [(d.region, rowOff d row, bs.flatMap fun b => packCodes (fmtBits d.fmt) b.codes),
     (d.scaleRegion, d.scaleOffset + row * nb, bs.map fun b => BitVec.ofInt 8 b.e8)] ++
    (if d.outEn = 1 then [(d.outRegion, d.outOffset + 8 * row * nb, bs.flatMap fun b => leBytes 8 b.side)] else [])

end Sys2Proof.Machine
end

