-- ==== Sys2Proof/Machine/Flags.lean ====
section
/-! DEFINITION. Special-value flags of gates (R81, R82). -/

namespace Sys2Proof.Machine

open Sys2Proof

/-- A special value written: its tile within the leg, row, column and kind. -/
structure Flag where
  tile : Nat
  row : Nat
  col : Nat
  v : SV
  deriving DecidableEq, Repr

/-- The KIND code of a special value (R82). -/
def flagKind : SV → Nat
  | .pinf => 1
  | .ninf => 2
  | _ => 0

/-- "First" of R82: the first tile, then the lowest row, then the lowest column. -/
def flagBefore (a b : Flag) : Bool :=
  decide (a.tile < b.tile) || (a.tile == b.tile && (decide (a.row < b.row) || (a.row == b.row && decide (a.col < b.col))))

/-- The first of a list of flags. -/
def firstFlag (l : List Flag) : Option Flag :=
  l.foldl (fun b f => match b with | none => some f | some x => if flagBefore f x then some f else some x) none

/-- The distinct items of a list. -/
def distinct (l : List Nat) : List Nat := l.foldl (fun a f => if a.contains f then a else a ++ [f]) []

/-- The flags of rows read back, tile (r, c) given by `tile`. -/
def rowFlags (tile : Nat → Nat → Nat) (rows : List (List SV)) : List Flag :=
  rows.zipIdx.flatMap fun x => (x.1.zipIdx.filter fun y => svSpecial y.1).map fun y => { tile := tile x.2 y.2, row := x.2, col := y.2, v := y.1 }

/-- The tiles, of those a leg flags, that no earlier leg of the run has flagged: a drift spill flags a tile that the flush writes (R182). -/
def newTiles (x : GateSt) (ts : List Nat) : List Nat := (ts.map (x.tiles + ·)).filter fun t => !x.flagged.contains t

/-- A leg of `n` output tiles flags those in which it wrote a special value (R81) and the tiles `also` (R96), each counted once in its run, and the
first flagged write while SEEN is 0 is recorded (R82). -/
def putFlags (p g leg iter n : Nat) (l : List Flag) (also : List Nat := []) : Prog :=
  .look fun s =>
    let ts := distinct (l.map (·.tile) ++ also)
    let pg := Page.gate p g
    let i := gateIsland p g
    let base := (gateOf s i).tiles
    progs [
      forEach ts fun t => .look fun u =>
        let b := (base + t) % 4096
        wr pg Reg.GATE.SV_MAP ((rd u pg Reg.GATE.SV_MAP (b / 32)).lor (2 ^ (b % 32))) (b / 32),
      addSat pg Reg.GATE.SV_STATUS_TILES (newTiles (gateOf s i) ts).length,
      (match firstFlag l with
       | none => .skip
       | some f => whenP (rd s pg Reg.GATE.SV_STATUS_SEEN == 0) (progs [
          wr pg Reg.GATE.SV_STATUS_SEEN 1, wr pg Reg.GATE.SV_STATUS_KIND (flagKind f.v), wr pg Reg.GATE.SV_ITER iter, wr pg Reg.GATE.SV_LEG leg,
          wr pg Reg.GATE.SV_ROW f.row, wr pg Reg.GATE.SV_COL f.col])),
      modGate i fun x => { x with tiles := x.tiles + n, flagged := x.flagged ++ newTiles (gateOf s i) ts }]

end Sys2Proof.Machine
end

