-- ==== Sys2Proof/Machine/Adder.lean ====
section
/-! DEFINITION. Atomic adds in order of arrival (R118 to R124, R230, R331), stack error records (R222, R223, R226, R338), and writes to any location. -/

namespace Sys2Proof.Machine

open Sys2Proof

/-! ### Errors of HBM words -/

/-- A stack marked for retirement (R338). -/
def markRetire (st : Nat) : Prog :=
  .look fun s => whenP (!smGet flagDefault s.stk.retireMark st) (progs [
    modStk fun k => { k with retireMark := smSet flagDefault k.retireMark st true },
    raise Code.STK_RETIRE_PENDING (832 + st) 0 noLeg st [],
    mirEvent, logOwn])

/-- A row of the repair list, by the 1 KB row that holds an address (R226). -/
def rowKey (a : Nat) : Nat := a / 1024

/-- A row entered in its stack's repair list once. -/
def listRow (st a : Nat) : Prog :=
  modStk fun k => if k.repairList.any (fun x => x.2 == rowKey a) then k else { k with repairList := k.repairList ++ [(st, rowKey a)] }

/-- A corrected word (R222, R226): counted; its row is listed when it has returned errors at two words, or on two groomer passes. -/
def correctedWord (st a : Nat) (pass : Option Nat) : Prog :=
  .look fun s =>
    let seen := s.stk.rowSeen.filter (·.1 == rowKey a)
    progs [
      wr (.stk st) Reg.STK.ECC_STATUS_CE 1, addSat (.stk st) Reg.STK.CE_COUNT 1,
      whenP (seen.any fun x => x.2.1 != a / 64 || (pass.isSome && x.2.2.isSome && x.2.2 != pass)) (listRow st a),
      modStk fun k => if k.rowSeen.contains (rowKey a, a / 64, pass) then k else { k with rowSeen := k.rowSeen ++ [(rowKey a, a / 64, pass)] }]

/-- An uncorrectable word (R223, R226, R338): left poisoned, counted, recorded with its source code and requesting island, its row listed. -/
def uncorrectableWord (st a source island : Nat) : Prog :=
  .look fun s =>
    let w := a / 64 * 64
    let n := smGet zeroDefault s.stk.periodUes st + 1
    progs [
      .prim (.flag .hbmPoison (a / 64) true),
      addSat (.stk st) Reg.STK.UE_COUNT 1,
      whenP (rd s (.stk st) Reg.STK.ECC_STATUS_UE == 0) (progs [
        wr (.stk st) Reg.STK.ECC_STATUS_UE 1, wr (.stk st) Reg.STK.UE_ADDR_LO (w / 64), wr (.stk st) Reg.STK.UE_ADDR_HI (w / 2 ^ 32),
        wr (.stk st) Reg.STK.UE_SOURCE_SOURCE source, wr (.stk st) Reg.STK.UE_SOURCE_ISLAND island]),
      raise Code.MEM_UE (832 + st) 0 noLeg st [w64 w, w32 source, w32 island],
      modStk fun k => { k with periodUes := smSet zeroDefault k.periodUes st n },
      listRow st a,
      whenP (rd s (.stk st) Reg.STK.ECC_STATUS_NO_SPARE_ROW == 1 || smGet flagDefault s.stk.noSpare st || decide (64 < n)) (markRetire st)]

/-! ### Open granules (R230) -/

/-- A granule written back (R230): poisoned granules with the poison code. -/
def writeBack (g : Granule) : Prog :=
  .seq (.prim (.bytes .hbm g.addr g.bytes)) (.prim (.flag .hbmPoison (g.addr / 64) g.poison))

/-- The granule of an address evicted. -/
def evict (g : Granule) : Prog :=
  .seq (writeBack g) (modStk fun k => { k with granules := k.granules.filter (·.addr != g.addr) })

/-- Open granules of a stack, least recently used first. -/
def openOf (s : State) (st : Nat) : List Granule := s.stk.granules.filter fun g => stackOf s g.addr == st

/-- The lanes of a granule's bytes. -/
def granLanes (b : List Byte) : List SV := (List.range 16).map fun i => codeSV 32 (leAt b (4 * i) 4)

/-- Lanes as bytes. -/
def lanesBytes (l : List SV) : List Byte := l.flatMap fun x => leBytes 4 (svCode 32 x)

/-- A request applied to lanes: the lanes of the mask added under R67; the whole granule NaR when its word is bad (R124). -/
def addLanes (bad : Bool) (old : List SV) (adds : List (Nat × SV)) : List SV :=
  if bad then List.replicate 16 .nan
  else old.zipIdx.map fun x => match adds.find? (·.1 == x.2) with | some a => add32 x.1 a.2 | none => x.1

/-- Whether a residue check finds a second mismatch. -/
def isPersistent : HwCheck → Bool
  | .persistent _ => true
  | _ => false

/-- One atomic request at the adder of its stack (R120, R124, R230, R331): `adds` gives lane and addend, `err` the erroneous bytes of the word it
reads, `chk` what the residue finds. -/
def atomicRequest (a island : Nat) (adds : List (Nat × SV)) (err : ErrBytes) (chk : HwCheck) : Prog :=
  .look fun s =>
    let ga := a / 64 * 64
    let st := stackOf s ga
    let opened := openAt s ga
    let ue := opened.isNone && decide (2 < err) && !hbmPoisoned s ga
    let bad := ue || hbmPoisoned s ga || isPersistent chk
    let old := match opened with | some g => g.bytes | none => smList byteDefault s.mem.hbm ga 64
    let new : Granule := { addr := ga, bytes := lanesBytes (addLanes bad (granLanes old) adds), poison := false }
    progs [
      whenP (opened.isNone && decide (1 ≤ err) && decide (err ≤ 2)) (correctedWord st ga none),
      whenP ue (uncorrectableWord st ga 2 island),
      whenP (chk != .pass) (raise Code.ADDER_RECOMPUTE (832 + st) 0 noLeg st []),
      whenP (isPersistent chk) (progs [
        raise Code.ATOMIC_RESIDUE (832 + st) 0 noLeg st [],
        modStk fun k => { k with atomicResidues := smSet zeroDefault k.atomicResidues st (smGet zeroDefault k.atomicResidues st + 1) },
        .look fun t => whenP (decide (16 ≤ smGet zeroDefault t.stk.atomicResidues st)) (markRetire st)]),
      (match opened, openOf s st with
       | none, g :: r => whenP (decide (256 ≤ (g :: r).length)) (evict g)
       | _, _ => .skip),
      modStk fun k => { k with granules := k.granules.filter (·.addr != ga) ++ [new] }]

/-- What the residue of an add at an HBM address finds, of the mismatches given by address with whether they come again (R331). -/
def adderChk (l : List (Nat × Bool)) (a : Nat) : HwCheck :=
  match l.find? fun x => x.1 / 64 == a / 64 with
  | none => .pass
  | some x => if x.2 then .persistent 0 else .transient 0

/-- Addends at consecutive I32 lanes from an HBM address, granule by granule; `bad` are the mismatches of residues. -/
def atomicHbm (a island : Nat) (bad : List (Nat × Bool)) (l : List SV) : Prog :=
  forEach (cut 64 a (lanesBytes l)) fun w =>
    atomicRequest w.1 island ((List.range (w.2.length / 4)).map fun i => (w.1 % 64 / 4 + i, codeSV 32 (leAt w.2 (4 * i) 4))) 0 (adderChk bad w.1)

/-- Addends at an address of a scratchpad, by the piste control block (R118). -/
def atomicScratch (p off : Nat) (l : List SV) : Prog :=
  .look fun s =>
    let old := smList byteDefault s.mem.scratch (scratchKey p off) (4 * l.length)
    let bad (i : Nat) : Bool := smGet flagDefault s.mem.scratchPoison ((scratchKey p off + 4 * i) / 128)
    scratchWrite p off (lanesBytes (l.zipIdx.map fun x => if bad x.2 then .nan else add32 (codeSV 32 (leAt old (4 * x.2) 4)) x.1))

/-- An ATOMIC ADD message's data: 16 addends and the lane mask (R290). -/
def atomicData (adds : List (Nat × SV)) : List Byte :=
  lanesBytes ((List.range 16).map fun i => match adds.find? (·.1 == i) with | some a => a.2 | none => .fin 0) ++
  leBytes 8 (listMask (adds.map (·.1)))

/-- Addends sent to a peer as ATOMIC messages (R118, R290). -/
def atomicPeer (node a p g leg : Nat) (l : List SV) : Prog :=
  forEach (cut 64 a (lanesBytes l)) fun w =>
    request (mkMsg 4 0 node 0 (w.1 / 64 * 64)
      (atomicData ((List.range (w.2.length / 4)).map fun i => (w.1 % 64 / 4 + i, codeSV 32 (leAt w.2 (4 * i) 4)))) false) (some p) g leg 0

/-- Adds of a leg at a byte offset of a target region (R118). -/
def atomicAt (p g leg : Nat) (bad : List (Nat × Bool)) (r : BitVec 128) (off : Nat) (l : List SV) : Prog :=
  let a := rgnBase r + off
  match rgnLoc r with
  | 0 => atomicHbm a (gateIsland p g) bad l
  | 2 => atomicScratch p a l
  | 3 => atomicPeer (rgnNode r) a p g leg l
  | _ => .skip

/-! ### Writes -/

/-- A write of a leg performed at its location: HBM, host memory, the piste's scratchpad, or a peer by a message of class `cls` (R292, R295).
A poisoned word takes the poison of its target (R225). -/
def performWrite (p g leg loc node cls a : Nat) (l : List Byte) (poison : Bool) : Prog :=
  match loc with
  | 0 => forEach (cut 64 a l) fun w => hbmWordWrite w.1 w.2 poison
  | 1 => .seq (hostWrite a l) (whenP poison (forEach (cut 64 a l) fun w => .prim (.flag .hostPoison (w.1 / 64) true)))
  | 2 => scratchWrite p a l
  | _ => forEach (cut 4096 a l) fun w => request (mkMsg cls 0 node 0 w.1 w.2 poison) (some p) g leg 0

end Sys2Proof.Machine
end

