-- ==== Sys2Proof/Machine/Legs.lean ====
section
/-! DEFINITION. What every leg does (R24 to R30, R38 to R46): finding a gate's next leg, its wait, the checks at issue, FIFOs, reads from peers,
writes and their staging, errors found in SRAM, and completion. -/

namespace Sys2Proof.Machine

open Sys2Proof

/-- A leg in its place: the state it finds, its piste, gate, run, map and index, the bytes fetched for it, the FIFO entries it takes, the host pages
whose accesses the host completes with an error, the atomic adds whose residues do not match, and the places of the drift accumulator in which
entries are uncorrectable. -/
structure Env where
  s : State
  p : Nat
  g : Nat
  run : RunRec
  img : Img
  idx : Nat
  leg : Leg
  got : List Fetched
  fifo : List (List Nat)
  hostErr : List Nat := []
  adders : List (Nat × Bool) := []
  driftErr : List (Nat × Nat) := []

/-- What the leg reads from. -/
def Env.view (e : Env) : View := { s := e.s, p := e.p, got := e.got }
/-- A tensor descriptor of the leg's map. -/
def Env.desc (e : Env) (i : Nat) : Desc := imgDesc e.img i
/-- The gate's island. -/
def Env.island (e : Env) : Nat := gateIsland e.p e.g
/-- A descriptor operand that names memory. -/
def named (i : Nat) : Bool := i != NONE && i != FIFO

/-- A use of a descriptor by a leg: the index, the use, the locations its rule allows, whether it is held in the operand cache (R129), whether its
positions are judged (R158), whether a tensor that is read is read whole or in the parts its operation says, and how many tensors of its size
stand one after another, each at a multiple of 4,096 bytes from the first (R310). -/
structure OpUse where
  idx : Nat
  use : Use
  locs : List Nat := [0, 1, 2, 3]
  cached : Bool := false
  pos : Bool := false
  whole : Bool := true
  slots : Nat := 1

/-- The status of one use at leg issue, or 0 (R44, R129, R158). DESIGN CHOICE: the spec does not order the locations an operation allows, which fail
with DESC_RIGHTS, among the checks of R44; the model judges them after the bounds (log entry 69). -/
def useStatus (s : State) (p : Nat) (d : Desc) (u : OpUse) : Nat :=
  if u.cached then (if !descEmpty d && decide (262144 < footEnd d) then Code.DESC_BOUNDS else 0)
  else
    let st := descStatus s p d u.use
    if st != 0 then st
    else if descEmpty d then 0
    else if !u.locs.contains (rgnLoc (rgnOf s p d.region)) then Code.DESC_RIGHTS
    else if u.pos && d.posEn && decide (16777215 < d.posBase + d.e1 - 1) then Code.ATT_POS
    else 0

/-- The first use that fails, with its status. DESIGN CHOICE: R44 orders the checks of one descriptor and no rule the descriptors of a leg, of which the
first in the operation's operand order is reported (log entry 109). -/
def firstBad (e : Env) : List OpUse → Option (Nat × Nat)
  | [] => none
  | u :: r => if useStatus e.s e.p (e.desc u.idx) u != 0 then some (u.idx, useStatus e.s e.p (e.desc u.idx) u) else firstBad e r

/-! ### Places -/

/-- The pieces of memory that a tensor's rows occupy: region, offset and length of each row, and of its scale array and side list. -/
def descPieces (d : Desc) : List (Nat × Nat × Nat) :=
  ((List.range (rowsOf d)).map fun r => (d.region, rowOff d r, rowBytes d.fmt d.e0)) ++
  (if d.scaleMode = 1 then [(d.scaleRegion, d.scaleOffset, blocksOf d)] else []) ++
  (if d.outEn = 1 then [(d.outRegion, d.outOffset, 8 * blocksOf d)] else [])

/-- Consecutive bytes of one place: the location (as a region's LOC), the node and SPACE of a peer's (with 2 added where the leg reads the same bytes
a second time), the address and the length. -/
structure Span where
  loc : Nat
  node : Nat
  space : Nat
  addr : Nat
  len : Nat
  deriving DecidableEq, Repr

/-- A piece of a region as a span. -/
def spanOf (s : State) (p : Nat) (x : Nat × Nat × Nat) : Span :=
  let r := rgnOf s p x.1
  { loc := rgnLoc r, node := rgnPeer r, space := 0, addr := rgnBase r + x.2.1, len := x.2.2 }

/-- The first host page a list of spans touches that translation refuses or whose access the host completes with an error, as an address
(R237, R238). -/
def refusedIn (s : State) (errs : List Nat) (l : List Span) : Option Nat :=
  ((l.filter (·.loc == 1)).flatMap fun x => pagesOf x.addr x.len).find? (fun a => hostRefuses s (a * 4096) || errs.contains a) |>.map (· * 4096)

/-- A demand access that translation refuses, or that the host completes with an error, ends the run with HOST_XLATE, and the first such address
is kept (R238). -/
def xlateFaultAt (p g leg a : Nat) : Prog :=
  .look fun s => progs [
    whenP (rd s (.frn p) Reg.FRN.CHECK_XLATE == 0) (progs [
      wr (.frn p) Reg.FRN.CHECK_XLATE 1, wr (.frn p) Reg.FRN.XLATE_ADDR_LO (a % 2 ^ 32), wr (.frn p) Reg.FRN.XLATE_ADDR_HI (a / 2 ^ 32),
      wr (.frn p) Reg.FRN.XLATE_LEG_LEG leg, wr (.frn p) Reg.FRN.XLATE_LEG_GATE g]),
    raiseSev 2 Code.HOST_XLATE (768 + p) (iterOn s p) leg 0 [w32 (gateIsland p g), w64 a] fun u => failRun p Code.HOST_XLATE (768 + p) leg (some u)]

/-- As `xlateFaultAt`, of a leg. -/
def xlateFault (e : Env) (a : Nat) : Prog := xlateFaultAt e.p e.g e.idx a

/-- Translations of the host pages of spans, held (R249). -/
def holdPages (l : List Span) : Prog := forEach (l.filter (·.loc == 1)) fun x => cacheTranslation x.addr x.len

/-- Poisoned words delivered by reads of the spans of a leg in HBM. -/
def countPoison (l : List Span) : Prog := forEach (l.filter (·.loc == 0)) fun x => deliverPoison x.addr x.len

/-! ### Remote reads -/

/-- A GET of bytes of a peer (R290, R292): at most 4,096 bytes a request. -/
def sendGet (p g leg : Nat) (x : Span) : Prog :=
  forEach (cut 4096 x.addr (List.replicate x.len 0)) fun w =>
    request { mkMsg 3 1 x.node (x.space % 2) w.1 (leBytes 8 w.2.length) false with len := 8 } (some p) g leg 1 w.2.length x.space

/-- Whether every byte of a span has been fetched. -/
def spanHere (l : List Fetched) (x : Span) : Bool :=
  (List.range x.len).all fun i => (fetchedAt l x.loc x.node x.space (x.addr + i)).isSome

/-- The spans on peers that have still to be fetched. -/
def missingOf (l : List Fetched) (xs : List Span) : List Span := xs.filter fun x => x.loc == 3 && !spanHere l x

/-- Whether GETs of a leg are without their data. -/
def getsOpen (s : State) (p g leg : Nat) : Bool :=
  let hit := fun (r : TagRec) => r.purpose == 1 && r.piste == some p && r.gate == g && r.leg == leg && r.run == (pisteOf s p).run
  s.bnd.tags.any hit || s.bnd.tagWait.any fun x => hit x.2

/-- The bytes fetched for a leg. -/
def fetchedFor (s : State) (p g leg : Nat) : List Fetched := s.units.fetched.filter fun f => f.piste == p && f.gate == g && f.leg == leg

/-- The bytes fetched for a leg let go. -/
def dropFetched (p g leg : Nat) : Prog :=
  modUnits fun u => { u with fetched := u.fetched.filter fun f => !(f.piste == p && f.gate == g && f.leg == leg) }

/-! ### FIFOs (R15, R24 to R27) -/

/-- The map of a piste's run. -/
def runImg (s : State) (p : Nat) (r : RunRec) : Img := residentImg s p r.slot

/-- The map of the run in progress on a piste. -/
def imgOn (s : State) (p : Nat) : Option Img := (runOn s p).bind fun r => if r.started then some (runImg s p r) else none

/-- The island whose upstream FIFO is a gate's downstream one (R23, R27): the next gate, or for an X-gate under a map that chains, the G-gate of
CHAIN_TO. -/
def below (img : Img) (p g : Nat) : Option Nat :=
  if g < 11 then some (gateIsland p (g + 1)) else if imgChainEn img then some (gateIsland (imgChainTo img) 0) else none

/-- Room in a gate's upstream FIFO of 8 entries (R15). -/
def roomAt (s : State) (i : Nat) : Nat := 8 - (gateOf s i).up.length

/-- A gate that takes entries for the leg it stands at: as many as it wants and the FIFO has. -/
def takeEntries (x : GateSt) : GateSt :=
  { x with took := x.took ++ x.up.take x.need, up := x.up.drop x.need, need := x.need - x.up.length }

/-- Whether a gate can move an entry: into its leg, or down. A bypassed gate passes its upstream entries on (R26). -/
def canMove (s : State) (p : Nat) (img : Img) (g : Nat) : Bool :=
  let x := gateOf s (gateIsland p g)
  let room := match below img p g with | some j => decide (0 < roomAt s j) | none => false
  if bit (imgBypass img) g then !x.up.isEmpty && room
  else (decide (0 < x.need) && !x.up.isEmpty) || (!x.held.isEmpty && room)

/-- One gate moves what it can. DESIGN CHOICE: where two running maps chain to one piste, their entries meet in its G-gate's upstream FIFO in the
order in which they are placed there, the piste of lower number first (log entry 70). -/
def moveGate (p : Nat) (img : Img) (g : Nat) : Prog :=
  let i := gateIsland p g
  .look fun s => whenP (canMove s p img g) (
    if bit (imgBypass img) g then
      match below img p g with
      | none => .skip
      | some j =>
        let n := roomAt s j
        let l := (gateOf s i).up.take n
        .seq (modGate i fun x => { x with up := x.up.drop n }) (modGate j fun x => { x with up := x.up ++ l })
    else
      .seq (modGate i takeEntries) (match below img p g with
        | none => .skip
        | some j => .look fun t =>
          let n := roomAt t j
          let l := (gateOf t i).held.take n
          .seq (modGate i fun x => { x with held := x.held.drop n }) (modGate j fun x => { x with up := x.up ++ l })))

/-- The gates of the pistes of a quarter with a run in progress, the last gate first. -/
def movers (s : State) (quarter : Nat) : List (Nat × Img × Nat) :=
  (List.range 16).flatMap fun k => match imgOn s (16 * quarter + k) with
    | none => []
    | some img => (List.range 12).reverse.map fun g => (16 * quarter + k, img, g)

/-- Entries move as far as they can, in at most `n` rounds. -/
def moveAll (quarter : Nat) : Nat → Prog
  | 0 => .skip
  | n + 1 => .look fun s =>
    let l := movers s quarter
    whenP (l.any fun x => canMove s x.1 x.2.1 x.2.2) (.seq (forEach l fun x => moveGate x.1 x.2.1 x.2.2) (moveAll quarter n))

/-- Rounds enough for every entry to come as far as it can: each round moves an entry or the last. -/
def moveRounds (s : State) : Nat := (s.gates.map fun x => x.2.up.length + x.2.held.length).foldl (· + ·) 0 * 192 + 192

/-- Values as FIFO entries of 32 I32 codes (R119), the last one filled with 0. -/
def entriesOf (l : List SV) : List (List Nat) := (pieces 32 (l.map (svCode 32))).map (padTo 32 0)

/-- Bytes as FIFO entries of 128 bytes, the last one filled with 0. -/
def byteEntries (l : List Byte) : List (List Nat) := (pieces 128 l).map fun b => (List.range 32).map fun i => leAt b (4 * i) 4

/-- The values entries hold. -/
def entryVals (l : List (List Nat)) : List SV := l.flatten.map (codeSV 32)

/-- The bytes entries hold. -/
def entryBytes (l : List (List Nat)) : List Byte := l.flatten.flatMap (leBytes 4)

/-- Entries for a number of I32 elements (R119). -/
def entriesFor (n : Nat) : Nat := ceilDiv n 32

/-- The tile height T of a matrix leg (R90). -/
def matT (l : Leg) : Nat := bits l.p0 0 7 + 1

/-- The width of activation codes of an operand mode. -/
def actWidth (l : Leg) : Nat := match modeOf l.opmode with | some m => fmtBits m.1 | none => 4

/-- The matrix leg that takes a leg's entries, if an M-gate does: of the next gate that is not bypassed, the one whose place among its legs that
read the FIFO is this leg's among those that write it. DEDUCED (log entry 79). -/
def matReader (e : Env) : Option Leg :=
  match (List.range 12).find? fun g => decide (e.g < g) && !bit (imgBypass e.img) g with
  | none => none
  | some g =>
    if gateKind g != 1 then none
    else ((imgLegs e.img g).filter fun l => l.a == FIFO)[((List.range e.idx).filter fun i => (imgLeg e.img e.g i).dst == FIFO).length]?

/-- Rows of blocks as entries: of each tile of `t` rows the E8 bytes, then the codes (R203). -/
def tileBlocks (t : Nat) (rows : List (List Byte × List Byte)) : List (List Nat) :=
  (pieces t rows).flatMap fun x => byteEntries (x.flatMap (·.1)) ++ byteEntries (x.flatMap (·.2))

/-- Rows of values, each under an exponent, as a leg sends them downstream, with the values sent: I32 codes, or blocks of the reader's activation
format where an M-gate takes them, narrowed to odd (R71, R203). -/
def fifoRows (e : Env) (rows : List (Int × List SV)) : List (List Nat) × List (List SV) :=
  match matReader e with
  | none => (entriesOf (rows.flatMap (·.2)), rows.map fun r => r.2.map svI32)
  | some l =>
    let w := actWidth l
    let bs := rows.map fun r => (pieces 32 r.2).map fun v =>
      (narrowBlock w r.1 false (bits (pisteOf e.s e.p).word 2 2 % 2 == 1) (fun _ => .odd) (padTo 32 (.fin 0) v), v.length)
    (tileBlocks (matT l) (bs.map fun r => (r.map fun b => BitVec.ofInt 8 b.1.e8, r.flatMap fun b => packCodes w b.1.codes)),
      bs.map fun r => r.flatMap fun b => readBack w b.2 b.1)

/-! ### Results -/

/-- The output forerunner's entry for an operand of a leg, if any (R232, R234). -/
def stagedBy (e : Env) (operand : Nat) : Bool :=
  (imgFrns e.img 2).any fun x => x.gate == e.g && x.leg == e.idx && x.operand == operand

/-- Whether two staged results are of one operand of one leg, and so of one ring. -/
def sameRing (w v : StagedWrite) : Bool := w.piste == v.piste && w.gate == v.gate && w.leg == v.leg && w.operand == v.operand

/-- The bytes of staged results. -/
def stagedBytes (l : List StagedWrite) : Nat := (l.map (·.bytes.length)).foldl (· + ·) 0

/-- The size of the ring that a staged result stands in. -/
def ringSize (img : Img) (w : StagedWrite) : Nat :=
  match (imgFrns img 2).find? fun x => x.gate == w.gate && x.leg == w.leg && x.operand == w.operand with | some x => x.stageSize | none => 0

/-- A piste's results that wait in their gates enter their rings, oldest first, where they find room (R234): a ring holds at most
its STAGE_SIZE, all of the piste's at most 4 MB, and no result of an operand overtakes an earlier one. -/
def enterRings (img : Img) (p : Nat) : List StagedWrite → List StagedWrite → List StagedWrite
  | acc, [] => acc
  | acc, w :: r =>
    let ins := (acc ++ r).filter (·.inRing)
    let fits := w.piste == p && acc.all (fun v => !sameRing w v || v.inRing) &&
      decide (stagedBytes (ins.filter (sameRing w)) + w.bytes.length ≤ ringSize img w) &&
      decide (stagedBytes (ins.filter (·.piste == p)) + w.bytes.length ≤ 2 ^ 22)
    enterRings img p (acc ++ [if fits then { w with inRing := true } else w]) r

/-- One write of a leg: staged where an output forerunner serves the operand, in pieces of at most 4,096 bytes, else performed (R234, R235). To a peer it
travels in class `cls`. -/
def emitAs (e : Env) (cls operand : Nat) (r : BitVec 128) (off : Nat) (l : List Byte) (poison : Bool) : Prog :=
  let a := rgnBase r + off
  .look fun s =>
  if (pisteOf s e.p).failed then .skip
  else if stagedBy e operand then
    modUnits fun u =>
      { u with outStage := enterRings e.img e.p [] (u.outStage ++ (cut 4096 a l).map fun x =>
        { piste := e.p, gate := e.g, leg := e.idx, operand := operand, loc := rgnLoc r, node := rgnNode r, cls := cls, addr := x.1, bytes := x.2, poison := poison }) }
  else match refusedIn s e.hostErr [{ loc := rgnLoc r, node := 0, space := 0, addr := a, len := l.length }] with
    | some x => xlateFault e x
    | none => performWrite e.p e.g e.idx (rgnLoc r) (rgnNode r) cls a l poison

/-- As `emitAs`, in class BULK. -/
def emitBytes (e : Env) (operand : Nat) (r : BitVec 128) (off : Nat) (l : List Byte) (poison : Bool) : Prog := emitAs e 3 operand r off l poison

/-- Entries put into the downstream FIFO: those that find no place there wait in the gate (R15). -/
def putDown (e : Env) (l : List (List Nat)) : Prog := modGate e.island fun x => { x with held := x.held ++ l }

/-- A row written to a tensor. -/
def emitRow (e : Env) (operand : Nat) (d : Desc) (row : Nat) (o : RowOut) : Prog :=
  forEach (rowPieces d row o) fun x => emitBytes e operand (rgnOf e.s e.p x.1) x.2.1 x.2.2 false

/-- A row of I32 words written to a tensor. -/
def emitWords (e : Env) (operand : Nat) (d : Desc) (row : Nat) (l : List Nat) : Prog :=
  emitRow e operand d row (.codes l)

/-! ### SRAM -/

/-- A piste fenced for a cause and its run ended by a fault of a gate (R145, R149, R331, R332, R335). -/
def faultAndFence (e : Env) (code cause : Nat) (items : List Item) : Prog :=
  .seq (faultLeg e.p e.g e.idx code 0 items) (fenceCause e.p cause)

/-- The slots of the map that covers a slot of a piste. -/
def mapSlots (s : State) (p slot : Nat) : List Nat :=
  (List.range 4).filter fun j => decide (slot ≤ j) && decide (j < slot + slotsOf (imgSize (residentImg s p slot)))

/-- A resident map removed (R36): its `SLOT_ID` entries clear. -/
def removeMap (p slot : Nat) : Prog := .look fun s => forEach (mapSlots s p slot) fun j => wr (.pst p) Reg.PST.SLOT_ID 0 j

/-- One error found in SRAM while a leg runs (R138, R186, R332). -/
def ramError (e : Env) : SramErr → Prog
  | .corrected _ => addSat (.mod 1) Reg.MOD1.SRAM_CE_COUNT 1
  | .beat b =>
    .look fun s =>
      let k := scratchKey e.p (128 * b) / 128
      whenP (decide (128 * b < scratchSize e.p) && !smGet flagDefault s.mem.scratchPoison k) (progs [
        .prim (.flag .scratchPoison k true), countUe,
        raise Code.SRAM_UE (768 + e.p) e.run.iter e.idx 0 [w32 (Config.storageCode 0).toNat]])
  | .line c =>
    .look fun s =>
      let k := (e.island * 2 ^ 18 + 128 * c) / 128
      whenP (gateKind e.g == 3 && decide (c < 2048) && !smGet flagDefault s.mem.vcachePoison k) (progs [
        .prim (.flag .vcachePoison k true), countUe,
        wr (.gate e.p e.g) Reg.GATEV.CHECK_CACHE_ECC 1, addSat (.gate e.p e.g) Reg.GATEV.CACHE_ECC_COUNT 1,
        raise Code.VG_CACHE_ECC e.island e.run.iter e.idx 0 [w32 (128 * c)]])
  | .drift set way =>
    .look fun s =>
      let k := e.p * 16384 + set * 8 + way
      whenP (gateKind e.g == 0 && decide (set < 2048) && decide (way < 8) && smGet (fun _ => DriftEntry.none) s.units.drift k != DriftEntry.none) (.seq countUe
        (modUnits fun u =>
          { u with drift := smSet (fun _ => DriftEntry.none) u.drift k { smGet (fun _ => DriftEntry.none) u.drift k with ecc := true } }))
  | .plane _ _ =>
    whenP (gateKind e.g == 1 || gateKind e.g == 2 || gateKind e.g == 3) (progs [
      countUe, raise Code.SRAM_UE e.island e.run.iter e.idx 0 [w32 (Config.storageCode 1).toNat]])
  | .map => progs [countUe, faultLeg e.p e.g e.idx Code.MAP_ECC 0 [w32 e.run.slot], removeMap e.p e.run.slot]
  | .host _ => .skip
  | .adder _ _ => .skip
  | .control i => controlUe i

/-- The tiles in which an accumulator, plane or tile register error is cleared by a replay or a recompute (R332). -/
def planeTiles (l : List SramErr) : List Nat := l.filterMap fun x => match x with | .plane t false => some t | _ => none

/-- The tiles in which such an error comes again. -/
def planeAgain (l : List SramErr) : List Nat := l.filterMap fun x => match x with | .plane t true => some t | _ => none

/-- A second error of an accumulator or plane in the same pass (R332): the run ends and the piste is fenced. -/
def planeEnds (e : Env) : Prog := .seq countUe (faultAndFence e Code.SRAM_UE 7 [w32 (Config.storageCode 1).toNat])

/-- The first rung of the repair ladder taken, with no event of its own since the replay fails too (R335, R349). -/
def firstRung (e : Env) : Prog := trace 5 e.island

/-! ### What a gate's storage holds (R84, R126, R146) -/

/-- The number of a weight plane of array `a`: the active one, or the shadow. -/
def planeKey (a : Nat) (shadow : Bool) : Nat := 2 * a + ofBool shadow
/-- The number of the accumulator registers of array `a`. -/
def accKey (a : Nat) : Nat := 8 + a
/-- The number of a V-gate's tile register: of source 0 to 2, or 3 of the result. DESIGN CHOICE: R126 does not say which register holds which tile (log
entry 108). -/
def tileKey (k : Nat) : Nat := 12 + k

/-- Contents put into a gate's storage. -/
def putStore (e : Env) (k : Nat) (v : List (List Nat)) : Prog := modGate e.island fun x => { x with store := smSet (fun _ => []) x.store k v }

/-- The planes of array `a` after loads in order: each load goes to the shadow plane, and the planes swap (R87). -/
def loadPlanes (e : Env) (a : Nat) (loads : List (List (List Nat))) : Prog :=
  modGate e.island fun x =>
    let put := fun (act sh : List (List Nat)) =>
      { x with store := smSet (fun _ => []) (smSet (fun _ => []) x.store (planeKey a false) act) (planeKey a true) sh }
    match loads.reverse with
    | [] => x
    | [l] => put l (smGet (fun _ => []) x.store (planeKey a false))
    | l :: k :: _ => put l k

/-! ### Arrival marks (R311) -/

/-- Whether a leg has PARTIALs without a response. -/
def partialsOpen (s : State) (p g leg : Nat) : Bool :=
  let hit := fun (r : TagRec) => r.purpose == 2 && r.piste == some p && r.gate == g && r.leg == leg
  s.bnd.tags.any hit || s.bnd.tagWait.any fun x => hit x.2

/-- Marks sent whose PARTIALs have all been acknowledged. -/
def sendMarks : Prog :=
  .look fun s =>
    let ready := fun (m : MarkDue) => !partialsOpen s m.piste m.gate m.leg
    .seq (modUnits fun u => { u with marksDue := u.marksDue.filter fun m => !ready m })
      (forEach (s.units.marksDue.filter ready) fun m => request m.msg (some m.piste) m.gate m.leg 0)

/-! ### Issue and completion -/

/-- The next leg of a gate, if the piste has a started, unfailed run, the leg is of the operation asked for and has not been carried out yet, and
the gate's datapath is not stopped (R19, R257). -/
def legReady (s : State) (p g op : Nat) : Option Env :=
  match runOn s p with
  | none => none
  | some r =>
    let img := runImg s p r
    let i := (gateOf s (gateIsland p g)).next
    let l := imgLeg img g i
    if r.started && !(pisteOf s p).failed && bit r.left p && !bit (imgBypass img) g && decide (i < imgCount img g) && l.op == op &&
        !(gateOf s (gateIsland p g)).busy && !smGet flagDefault s.sync.gated (gateIsland p g) then
      some { s := s, p := p, g := g, run := r, img := img, idx := i, leg := l, got := fetchedFor s p g i, fifo := [] }
    else none

/-- The count a sync entry names. -/
def syncCount (s : State) (p : Nat) (x : SyncEnt) : Nat := if x.global then countOf s x.counter else eventOf s p (x.counter % 256)

/-- The target of a wait (R40), in 64 bits. -/
def syncTarget (x : SyncEnt) (iter : Nat) : Nat := (x.step * iter + x.offset) % 2 ^ 64

/-- Whether the leg's wait is satisfied (R40, R255). -/
def waitDone (e : Env) : Bool :=
  let x := imgSync e.img e.leg.wsync
  !e.leg.waitEn || (gateOf e.s e.island).waitOk || decide (syncTarget x e.run.iter ≤ syncCount e.s e.p x)

/-- A leg's wait registered once (R255), and the gate shown waiting. -/
def registerWait (e : Env) : Prog :=
  let x := imgSync e.img e.leg.wsync
  .seq (wr (.gate e.p e.g) Reg.GATE.STATUS_STATE 1) (.seq (wr (.gate e.p e.g) Reg.GATE.STATUS_LEG e.idx)
    (whenP (e.s.sync.waits.all fun w => !(w.island == e.island && w.queue == 0)) (modSync fun y =>
      { y with waits := y.waits ++
        [{ localOf := if x.global then none else some e.p, counter := if x.global then x.counter else x.counter % 256,
           target := syncTarget x e.run.iter, island := e.island, queue := 0, cmd := none }] })))

/-- The measures of R326 after the footprint of `n` tensors that stand one after another. -/
def footOf (s : State) (p : Nat) (x : PisteSt) (d : Desc) (n : Nat) : PisteSt :=
  if descEmpty d then x
  else
    let spans := [(d.region, d.offset, if n ≤ 1 then footEnd d else d.offset + n * (ceilDiv (footEnd d - d.offset) 4096 * 4096))] ++
      (if d.scaleMode = 1 then [(d.scaleRegion, d.scaleOffset, d.scaleOffset + blocksOf d)] else []) ++
      (if d.outEn = 1 then [(d.outRegion, d.outOffset, d.outOffset + 8 * blocksOf d)] else [])
    spans.foldl (fun y z =>
      let r := rgnOf s p z.1
      if rgnLoc r = 2 then { y with footScratch := max y.footScratch (rgnBase r + z.2.2) }
      else if rgnLoc r = 0 then
        { y with footHbm := match y.footHbm.find? (·.1 == z.1) with
            | none => y.footHbm ++ [(z.1, z.2.1, z.2.2)]
            | some _ => y.footHbm.map fun w => if w.1 = z.1 then (w.1, min w.2.1 z.2.1, max w.2.2 z.2.2) else w }
      else y) x

/-- The forerunner entries that name operands of a leg (R232). -/
def legRings (e : Env) : List FrnEnt := ((List.range 3).flatMap (imgFrns e.img)).filter fun x => x.gate == e.g && x.leg == e.idx

/-- The footprints of a leg taken into the measures (R326), with the end of its partial area and of its staging rings. -/
def measure (e : Env) (us : List OpUse) (area : Nat) : Prog :=
  modPiste e.p fun x =>
    let y := (us.filter fun u => !u.cached).foldl (fun y u => footOf e.s e.p y (e.desc u.idx) u.slots) x
    { y with footScratch := (legRings e).foldl (fun m r => max m (r.stageOff + r.stageSize)) (max y.footScratch area) }

/-- The staging rings of a leg's forerunner entries hold its tiles in a layout the spec does not give: their bytes are free (R232, R234). -/
def useRings (e : Env) : Prog := forEach (legRings e) fun x => withFreeBytes x.stageSize (scratchWrite e.p x.stageOff)

/-- The next leg of a gate of a piste's started, unfailed run. -/
def nextLeg (s : State) (p g : Nat) : Option Env :=
  (runOn s p).bind fun r => legReady s p g (imgLeg (runImg s p r) g (gateOf s (gateIsland p g)).next).op

/-- Whether all the results of a leg stand in their output rings (R234, R239). -/
def ringsHold (s : State) (p g leg : Nat) : Bool :=
  s.units.outStage.all fun w => w.piste != p || w.gate != g || w.leg != leg || w.inRing

/-- A leg complete: the gate's next leg is the following one, and its SIGNAL is due once its writes are accepted (R29, R38). -/
def finishLeg (e : Env) : Prog :=
  progs [
    modGate e.island fun x => { x with next := e.idx + 1, waitOk := false, busy := false, took := [], need := 0, rangeSeen := false, coldSeen := false },
    wr (.gate e.p e.g) Reg.GATE.STATUS_STATE 0,
    dropFetched e.p e.g e.idx,
    whenP e.leg.sigEn (modUnits fun u => { u with signalsDue := u.signalsDue ++ [{ piste := e.p, gate := e.g, leg := e.idx, sync := e.leg.ssync }] })]

/-- A leg that has been carried out, in its place. -/
def carriedOut (s : State) (p g : Nat) : Option Env :=
  (runOn s p).bind fun r =>
    let x := gateOf s (gateIsland p g)
    let img := runImg s p r
    if x.busy && x.held.isEmpty && r.started && !(pisteOf s p).failed && ringsHold s p g x.next then
      some { s := s, p := p, g := g, run := r, img := img, idx := x.next, leg := imgLeg img g x.next, got := [], fifo := [] }
    else none

/-- A leg carried out is complete once its entries stand downstream (R15, R50) and its staged results in their rings (R234, R239). -/
def settleLeg (p g : Nat) : Prog := .look fun s => match carriedOut s p g with | none => .skip | some e => finishLeg e

/-- Entries of a quarter move, and legs whose results have all found their place are complete. -/
def settle (quarter : Nat) : Prog :=
  .look fun s => .seq (moveAll quarter (moveRounds s)) (forEach (movers s quarter) fun x => settleLeg x.1 x.2.2)

/-- A program under the condition that the piste's run has not failed. -/
def unlessFailed (p : Nat) (q : Prog) : Prog := .look fun s => whenP (!(pisteOf s p).failed) q

/-- What an operation says of itself: the descriptors it uses in operand order; the entries it takes upstream, and what it reads to know their
number, with the fault that the check of it ends the run with; the end of its partial area; what holds or rejects it at issue, beside its
descriptors; what it reads of tensors it does not read whole, in stages that each depend on the bytes of those before; what it reads of this module before it asks peers for anything; what it writes or adds to at
places its data choose; its status registers; its effect. -/
structure LegOp where
  uses : Env → List OpUse
  takes : Env → Nat := fun _ => 0
  pre : Env → List Span := fun _ => []
  check : Env → Option Prog := fun _ => none
  hold : Env → Option Prog := fun _ => none
  area : Env → Nat := fun _ => 0
  reads : List (Env → List Span) := []
  keeps : Env → List Span := fun _ => []
  sends : Env → List Span := fun _ => []
  status : Env → Prog
  body : Env → Prog

/-- The uses of a leg that lie in memory and are not empty. -/
def legMem (o : LegOp) (e : Env) : List OpUse := (o.uses e).filter fun u => !u.cached && !descEmpty (e.desc u.idx)

/-- The spans of a tensor. -/
def descSpans (e : Env) (i : Nat) : List Span := (descPieces (e.desc i)).map (spanOf e.s e.p)

/-- Consecutive numbers of a rising list as first number and count. -/
def runsOf : List Nat → List (Nat × Nat)
  | [] => []
  | k :: r => match runsOf r with
    | (j, n) :: l => if j = k + 1 then (k, n + 1) :: l else (k, 1) :: (j, n) :: l
    | [] => [(k, 1)]

/-- The spans of the E8 codes of the blocks asked for, by row and block. -/
def scaleSpans (e : Env) (d : Desc) (want : Nat → Nat → Bool) : List Span :=
  let nb := ceilDiv d.e0 32
  (runsOf ((List.range (blocksOf d)).filter fun k => want (k / nb) (k % nb))).map fun x => spanOf e.s e.p (d.scaleRegion, d.scaleOffset + x.1, x.2)

/-- The spans of the elements of the blocks of a row asked for, and of their side-list entries: zero and invalid blocks have neither read, special
blocks no side-list entry (R60, R61, R204). -/
def rowElemSpans (e : Env) (d : Desc) (r : Nat) (want : Nat → Bool) : List Span :=
  let nb := ceilDiv d.e0 32
  let w := 32 * fmtBits d.fmt / 8
  let read := (List.range nb).filter fun b => want b && e8Of e.view d (r * nb + b) != -127 && e8Of e.view d (r * nb + b) != -128
  ((runsOf read).map fun x => spanOf e.s e.p (d.region, rowOff d r + x.1 * w, x.2 * w)) ++
  (if d.outEn = 1 then
    (runsOf (read.filter fun b => e8Of e.view d (r * nb + b) != 127)).map fun x => spanOf e.s e.p (d.outRegion, d.outOffset + 8 * (r * nb + x.1), 8 * x.2)
  else [])

/-- As `rowElemSpans`, of all rows. -/
def elemSpans (e : Env) (d : Desc) (want : Nat → Nat → Bool) : List Span := (List.range (rowsOf d)).flatMap fun r => rowElemSpans e d r (want r)

/-- A row read by its number, first stage: its E8 codes, or the row itself. -/
def rowFirst (e : Env) (d : Desc) (r : Nat) : List Span :=
  let nb := ceilDiv d.e0 32
  [if isBlock d.fmt then spanOf e.s e.p (d.scaleRegion, d.scaleOffset + r * nb, nb) else spanOf e.s e.p (d.region, rowOff d r, rowBytes d.fmt d.e0)]

/-- A row read by its number, second stage: the elements of its blocks. -/
def rowNext (e : Env) (d : Desc) (r : Nat) : List Span := if isBlock d.fmt then rowElemSpans e d r fun _ => true else []

/-- The tensors a leg reads whole. -/
def legWhole (o : LegOp) (e : Env) : List Desc := ((legMem o e).filter fun u => u.use == .rd && u.whole).map fun u => e.desc u.idx

/-- The first spans a leg reads of its whole tensors: plain rows, and the E8 codes of blocks. -/
def legFirst (o : LegOp) (e : Env) : List Span :=
  (legWhole o e).flatMap fun d => if isBlock d.fmt then scaleSpans e d fun _ _ => true else (descPieces d).map (spanOf e.s e.p)

/-- The elements of its whole tensors in blocks, once their E8 codes are here. -/
def legElems (o : LegOp) (e : Env) : List Span := (legWhole o e).flatMap fun d => if isBlock d.fmt then elemSpans e d fun _ _ => true else []

/-- Whether the output forerunner writes a tensor for a leg (R232, R234). -/
def servedOut (e : Env) (i : Nat) : Bool := (imgFrns e.img 2).any fun x => x.gate == e.g && x.leg == e.idx && frnOperand e.leg x.operand == i

/-- The spans of the tensors a leg itself writes or adds to: not those that the output forerunner writes for it. -/
def legWrites (o : LegOp) (e : Env) : List Span :=
  ((legMem o e).filter fun u => (u.use == .wr && !servedOut e u.idx) || u.use == .at).flatMap fun u => descSpans e u.idx

/-- The spans of a leg that a stage of its reads has still to fetch from peers: none once everything it reads is here. -/
def stageMissing (e : Env) : List (Env → List Span) → List Span
  | [] => []
  | f :: r => if (missingOf e.got (f e)).isEmpty then stageMissing e r else missingOf e.got (f e)

/-- The stages of a leg's reads. -/
def legStages (o : LegOp) : List (Env → List Span) := legFirst o :: legElems o :: o.reads

/-- The spans a leg has still to fetch. -/
def legMissing (o : LegOp) (e : Env) : List Span := stageMissing e (legStages o)


/-- The reads of a leg that were not made ahead of it (R236). -/
def legDemand (o : LegOp) (e : Env) : List Span := ((legStages o).flatMap (· e)).filter fun x => !(x.len != 0 && spanHere e.got x)

/-- The demand accesses of a leg (R235, R236): what it reads that was not fetched ahead of it, and what it writes itself. -/
def legAccess (o : LegOp) (e : Env) : List Span := legDemand o e ++ legWrites o e ++ o.sends e

/-- Whether a leg would access a stack at CRIT (R247). -/
def legHot (o : LegOp) (e : Env) : Bool :=
  (List.range 12).any (stackHot e.s) && (legAccess o e).any fun x => x.loc == 0 && hotRange e.s x.addr x.len

/-- Whether a piste has no stream tag free: of its 256, or of the module's 16,384 (R241). -/
def tagless (s : State) (p : Nat) : Bool :=
  decide (16384 ≤ s.bnd.tags.length) || decide (256 ≤ (s.bnd.tags.filter (·.piste == some p)).length)

/-- Whether spans are accessed in streams: all but those in the scratchpad. -/
def streams (l : List Span) : Bool := l.any fun x => x.loc != 2 && x.len != 0

/-- Whether a leg's demand accesses wait: for a stack at CRIT (R247), or for a stream tag (R241). -/
def legWaits (o : LegOp) (e : Env) : Bool := legHot o e || (tagless e.s e.p && streams (legAccess o e))

/-- A leg's entries of the upstream FIFO as it holds them. -/
def legInputs (e : Env) : Env := { e with fifo := (gateOf e.s e.island).took }

/-- What a leg shows and measures once it issues (R326). -/
def showLeg (o : LegOp) (e : Env) : Prog :=
  progs [
    wr (.gate e.p e.g) Reg.GATE.STATUS_STATE 2, wr (.gate e.p e.g) Reg.GATE.STATUS_LEG e.idx,
    o.status e, measure e (o.uses e) (o.area e)]

/-- What a leg does before its effect: translations, poison delivered, its entries used, its rings. -/
def beginLeg (o : LegOp) (e : Env) : Prog :=
  progs [
    showLeg o e, holdPages (legAccess o e), countPoison (legDemand o e), useRings e,
    modGate e.island (fun x => { x with took := [], need := 0, busy := true, rangeSeen := false, coldSeen := false })]

/-- Whether any byte of a span is poisoned. -/
def spanPoison (e : Env) (x : Span) : Bool := (List.range x.len).any fun i => viewPoison e.view x.loc x.node x.space (x.addr + i)

/-- A span as it is kept: whole, or where part of it is poisoned, by the 64 B words each with its own poison (R224, R225). -/
def spanWords (e : Env) (x : Span) : List Span :=
  if spanPoison e x then (cut 64 x.addr (List.replicate x.len 0)).map fun w => { x with addr := w.1, len := w.2.length } else [x]

/-- Bytes of this module that a leg has read before it asks peers for others. -/
def keepSpans (e : Env) (l : List Span) : Prog :=
  modUnits fun u => { u with fetched := u.fetched ++ (((l.filter fun x => x.loc != 3 && !spanHere e.got x).flatMap (spanWords e)).map fun x =>
    { piste := e.p, gate := e.g, leg := e.idx, loc := x.loc, node := x.node, space := x.space, addr := x.addr,
      bytes := viewBytes e.view x.loc x.node x.space x.addr x.len
      poison := spanPoison e x }) }

/-- A gate shown stalled at a leg. -/
def stallLeg (e : Env) : Prog := .seq (wr (.gate e.p e.g) Reg.GATE.STATUS_STATE 1) (wr (.gate e.p e.g) Reg.GATE.STATUS_LEG e.idx)

/-- Bytes of peers that a leg asks for before it goes on (R294). -/
def fetchFirst (o : LegOp) (e : Env) (l : List Span) : Prog :=
  .seq (showLeg o e) (whenP (!getsOpen e.s e.p e.g e.idx && !(tagless e.s e.p && streams (o.keeps e))) (.seq (keepSpans e (o.keeps e)) (forEach l (sendGet e.p e.g e.idx))))

/-- A leg with its entries: what it reads from peers is fetched first (R294), and it is carried out once all of it is here, unless host pages refuse
a demand access (R238), a stack is too hot (R247) or no stream tag is free (R241). -/
def carryOut (o : LegOp) (e : Env) : Prog :=
  if !(legMissing o e).isEmpty then fetchFirst o e (legMissing o e)
  else match refusedIn e.s e.hostErr (legAccess o e) with
    | some a => xlateFault e a
    | none =>
      if legWaits o e then stallLeg e
      else progs [beginLeg o e, o.body e, unlessFailed e.p (.seq (stallLeg e) (settle (e.p / 16)))]

/-- A leg that takes entries wants those it has not taken yet. -/
def wantEntries (o : LegOp) (e : Env) : Prog := modGate e.island fun x => { x with need := o.takes e - x.took.length }

/-- A leg issued (R38, R41, R44 to R46, R158, R238): rejected, empty, held, stalled at its upstream FIFO, or carried out. DESIGN CHOICE: an empty leg
leaves GATE.STATUS.LEG, the leg "last issued", as it was (log entry 110). -/
def issueLeg (o : LegOp) (e : Env) : Prog :=
  match firstBad e (o.uses e) with
  | some (i, st) =>
    .seq (whenP (st == Code.ATT_POS && gateKind e.g == 2) (progs [
        wr (.gate e.p e.g) Reg.GATEA.CHECK_ATT_POS 1, wr (.gate e.p e.g) Reg.GATEA.POS_LEG e.idx, wr (.gate e.p e.g) Reg.GATEA.POS_SEQ 0]))
      (faultLeg e.p e.g e.idx st 0 [w32 i])
  | none =>
    if (o.uses e).any fun u => descEmpty (e.desc u.idx) then finishLeg e
    else match o.hold e with
      | some q => q
      | none =>
        if !(missingOf e.got (o.pre e)).isEmpty then fetchFirst o e (missingOf e.got (o.pre e))
        else match o.check e with
        | some q => progs [showLeg o e, countPoison (o.pre e), q]
        | none =>
        if o.takes e = 0 then carryOut o e
        else progs [
          wantEntries o e, stallLeg e, settle (e.p / 16),
          .look fun t => whenP (decide ((gateOf t e.island).took.length = o.takes e)) (carryOut o (legInputs { e with s := t }))]

/-- The host pages whose accesses the host completes with an error (R238). -/
def hostErrors (l : List SramErr) : List Nat := l.filterMap fun x => match x with | .host k => some k | _ => none

/-- The places of the drift accumulator in which entries are uncorrectable (R186). -/
def driftErrors (l : List SramErr) : List (Nat × Nat) :=
  l.filterMap fun x => match x with | .drift set way => if set < 2048 ∧ way < 8 then some (set, way) else none | _ => none

/-- The atomic adds whose residues do not match (R331). -/
def adderErrors (l : List SramErr) : List (Nat × Bool) := l.filterMap fun x => match x with | .adder a b => some (a, b) | _ => none

/-- One leg of gate `g` of piste `p` with operation `op`: nothing where it is not the gate's next leg; its wait; the errors its reads of SRAM
find; then its issue. -/
def runLeg (p g op : Nat) (ram : List SramErr) (o : LegOp) : Prog :=
  .look fun s => match legReady s p g op with
    | none => .skip
    | some e =>
      if waitDone e then
        .seq (forEach ram (fun x => unlessFailed p (ramError e x)))
          (unlessFailed p (.look fun t =>
            issueLeg o { e with s := t, hostErr := hostErrors ram, adders := adderErrors ram, driftErr := driftErrors ram }))
      else registerWait e

end Sys2Proof.Machine
end

