-- ==== Sys2Proof/Machine/Stats.lean ====
section
/-! DEFINITION. Fused row statistics (R105 to R110). -/

namespace Sys2Proof.Machine

open Sys2Proof

/-- The smallest shift from 0 to 63 that brings an exact sum within 2,147,483,645 (R108). -/
def sumShift (v : Int) : Nat := ((List.range 64).find? fun x => decide ((v.natAbs : Int) ≤ 2147483645 * (2 ^ x : Nat))).getD 63

/-- A sum narrowed to an I32 code with its shift (R108, R109). -/
def narrowSum : SV → Nat × Nat
  | .fin v => let x := sumShift v; (svCode 32 (.fin (roundShift .odd v x)), x)
  | v => (svCode 32 v, 0)

/-- The row maximum (R70, R107). -/
def svMaxOf : List SV → SV
  | [] => .ninf
  | v :: r => r.foldl svMax v

/-- The four words of a row's record (R107, R109): `en` is MAX_EN, SUM_EN, SUMSQ_EN; `bad` marks a row whose exponent code is out of range. -/
def rowStats (en : Nat) (vals : List SV) (bad : Bool) : List Nat :=
  let nan := bad || vals.any fun v => v = .nan
  let inf := vals.any svSpecial
  let mx := if nan then .nan else svMaxOf vals
  let sm := if nan then .nan else svSum vals
  let sq := if nan then .nan else if inf then .pinf else svSum (vals.map fun v => svMul v v)
  let (s, sx) := if bit en 1 then narrowSum sm else (0, 0)
  let (q, qx) := if bit en 2 then narrowSum sq else (0, 0)
  [if bit en 0 then svCode 32 mx else 0, s, q, sx + 256 * qx]

/-- The use of the statistics tensor, where a leg writes one (R106). -/
def statsUse (e : Env) : List OpUse := if bits e.leg.p1 8 3 = 0 then [] else [{ idx := e.leg.expd + 1, use := .wr }]

/-- The statistics records of a leg's rows (R110). -/
def putStats (e : Env) (rows : List (List SV × Bool)) : Prog :=
  let en := bits e.leg.p1 8 3
  whenP (en != 0) (forEach rows.zipIdx fun x => emitWords e 7 (e.desc (e.leg.expd + 1)) x.2 (rowStats en x.1.1 x.1.2))

end Sys2Proof.Machine
end

