-- ==== Sys2Proof/Machine/Table.lean ====
section
/-! DEFINITION. The table functions of R134 over exact numbers: each result is the function's value to at least 48 bits with a free error held to
the tolerance R134 gives (log entry 9). -/

namespace Sys2Proof.Machine

open Sys2Proof

/-- The number m × 2^e. -/
structure Bin where
  m : Int
  e : Int
  deriving DecidableEq, Repr

/-- 2^(2^-k) for k = 1, 2, …, scaled by 2^64. -/
def expRootsGo : Nat → Nat → List Nat
  | 0, _ => []
  | n + 1, r => r :: expRootsGo n (isqrt (r * 2 ^ 64))

/-- The 64 roots. -/
def expRoots : List Nat := expRootsGo 64 (isqrt (2 * 2 ^ 128))

/-- 2^(f / 2^64) scaled by 2^64, for f below 2^64. -/
def expFrac (f : Nat) : Nat := expRoots.zipIdx.foldl (fun a r => if bit f (63 - r.2) then a * r.1 / 2 ^ 64 else a) (2 ^ 64)

/-- An error held to a bound. -/
def errBound (b x : Int) : Int := max (-b) (min b x)

/-- A value with a relative error of `err` × 2^-40. -/
def withErr (err : Int) (x : Bin) : Bin := { m := x.m * 2 ^ 40 + x.m * err, e := x.e - 40 }

/-- Integers kept where a power of two of them can be written. -/
def clampExp (i : Int) : Int := max (-80000) (min 80000 i)

/-- EXP2 of v × 2^e: exact for an integer (log entry 9), else within 2^-22 of the value. -/
def exp2 (v e : Int) : Bin :=
  if 0 ≤ e ∨ v = 0 then { m := 1, e := clampExp (v * (2 ^ (min e.toNat 40) : Nat)) }
  else
    let d : Int := (2 ^ (-e).toNat : Nat)
    let i := v / d
    let f := v - i * d
    if f = 0 then { m := 1, e := clampExp i }
    else withErr (errBound (2 ^ 18 - 1) (Config.tableError 0x10 v e)) { m := expFrac (f * 2 ^ 64 / d).toNat, e := clampExp i - 64 }

/-- Fraction bits of a logarithm by repeated squaring; `y` is a mantissa from 2^63 to 2^64 - 1. -/
def logBits : Nat → Nat → Nat → Nat
  | 0, _, acc => acc
  | n + 1, y, acc =>
    let z := y * y / 2 ^ 63
    if 2 ^ 64 ≤ z then logBits n (z / 2) (2 * acc + 1) else logBits n z (2 * acc)

/-- LOG2 of v × 2^e, for v > 0, within 2^-22. -/
def log2Of (v e : Int) : Bin :=
  let x := v.toNat
  let n := x.log2
  let y := if n ≤ 63 then x * 2 ^ (63 - n) else x / 2 ^ (n - 63)
  { m := ((n : Int) + e) * 2 ^ 48 + logBits 48 y 0 + errBound (2 ^ 18 - 1) (Config.tableError 0x11 v e) * 2 ^ 8, e := -48 }

/-- RECIP of v × 2^e, for v ≠ 0, within 2^-15 of the value. -/
def recipOf (v e : Int) : Bin :=
  let x := v.natAbs
  let n := x.log2 + 64
  let q : Int := (2 ^ n / x : Nat)
  withErr (errBound (2 ^ 25 - 2) (Config.tableError 0x12 v e)) { m := if v < 0 then -q else q, e := -(n : Int) - e }

/-- RSQRT of v × 2^e, for v > 0, within 2^-15 of the value. -/
def rsqrtOf (v e : Int) : Bin :=
  let x := if e % 2 = 0 then v.toNat else 2 * v.toNat
  let h := if e % 2 = 0 then e / 2 else (e - 1) / 2
  withErr (errBound (2 ^ 25 - 2) (Config.tableError 0x13 v e)) { m := (2 ^ (192 + x.log2) / isqrt (x * 2 ^ 160) : Nat), e := -112 - (x.log2 : Int) - h }

/-- SIGMOID of v × 2^e from EXP2 and RECIP: 1 ÷ (1 + u), or u ÷ (1 + u), with u = 2^-|a|. -/
def sigmoidOf (v e : Int) : Bin :=
  let u := exp2 (-(v.natAbs : Int)) e
  let r := recipOf ((2 ^ 128 : Nat) + rescale .odd u.m u.e (-128)) (-128)
  if 0 ≤ v then r else { m := u.m * r.m, e := u.e + r.e }

/-- The value at exponent `eo`, rounding to odd, with no range. -/
def Bin.at (x : Bin) (eo : Int) : Int := rescale .odd x.m x.e eo

/-- The ceiling of v × 2^e. -/
def ceilAt (v e : Int) : Int := if 0 ≤ e then v * (2 ^ e.toNat : Nat) else -((-v) / (2 ^ (-e).toNat : Nat))

end Sys2Proof.Machine
end

