-- ==== Sys2Proof/Machine/GateV.lean ====
section
/-! DEFINITION. V-gate legs: elementwise functions, reductions, norms, softmax states, KL, the optimiser, conversion, 2:4 compression, sketches
and the operand cache (R126 to R145, R207, R217 to R219). -/

namespace Sys2Proof.Machine

open Sys2Proof

/-! ### Operands (R127 to R130, R136 to R138) -/

/-- The descriptor whose shape a leg works over: DST's, or SRC_A's where DST is the FIFO. -/
def vShapeOf (e : Env) : Desc := if e.leg.dst = FIFO then e.desc e.leg.a else e.desc e.leg.dst

/-- The working exponent of a row (R127): none for a code out of range. -/
def vEa (e : Env) (r : Nat) : Option Int := if e.leg.expd = NONE then some 0 else expAt e.view (e.desc e.leg.expd) r

/-- EXP_SHIFT (R127). -/
def vShift (e : Env) : Int := toSigned 16 (bits e.leg.p1 0 16)

/-- A row of a tensor in the operand cache (R129): I32 codes; the 32 elements of a poisoned line read as NaR (R138). -/
def cacheRow (s : State) (island : Nat) (d : Desc) (row : Nat) : List SV :=
  (List.range d.e0).map fun i =>
    let o := rowOff d row + 4 * i
    if smGet flagDefault s.mem.vcachePoison ((island * 2 ^ 18 + o) / 128) then .nan
    else codeSV 32 (leNat ((List.range 4).map fun j => cacheByte s island (o + j)))

/-- Source `k` of a leg as its descriptor index. -/
def vIdx (l : Leg) (k : Nat) : Nat := match k with | 0 => l.a | 1 => l.b | _ => l.c

/-- The entries of the upstream FIFO that each FIFO source of a leg takes. -/
def vEntries (e : Env) : Nat := entriesFor (elemsOf (vShapeOf e))

/-- The entries a leg takes: those of its FIFO sources. -/
def vTakes (e : Env) : Nat := ((List.range 3).filter fun k => vIdx e.leg k == FIFO).length * vEntries e

/-- Where the values of source `k` begin among those of the FIFO. -/
def vFifoBase (e : Env) (k : Nat) : Nat := ((List.range k).filter fun j => vIdx e.leg j == FIFO).length * vEntries e * 32

/-- Row `r` of source `k`, `n` columns, in I32 under `ea` (R127, R128). -/
def vRow (e : Env) (k r n : Nat) (ea : Int) : List SV :=
  let i := vIdx e.leg k
  let l :=
    if i = FIFO then ((entryVals e.fifo).drop (vFifoBase e k + r * n)).take n
    else if bit e.leg.p2 k then cacheRow e.s e.island (e.desc i) r
    else (rowVals e.view (e.desc i) r).map fun x => if (e.desc i).fmt = 4 then x.1 else svAlign x.1 x.2 ea
  match l with
  | [x] => List.replicate n x
  | l => l

/-- The use of source `k`. -/
def vSrcUse (e : Env) (k : Nat) : List OpUse :=
  if named (vIdx e.leg k) then [{ idx := vIdx e.leg k, use := .rd, cached := bit e.leg.p2 k }] else []

/-- The use of DST. -/
def vDstUse (e : Env) : List OpUse := if named e.leg.dst then [{ idx := e.leg.dst, use := .wr, cached := bit e.leg.p2 3 }] else []

/-- The use of EXP_DESC. -/
def vExpUse (e : Env) : List OpUse := if named e.leg.expd then [{ idx := e.leg.expd, use := .rd }] else []

/-- The uses of a leg with sources 0 to 2, DST and EXP_DESC, and more. -/
def vUses (more : Env → List OpUse) (e : Env) : List OpUse := vSrcUse e 0 ++ vSrcUse e 1 ++ vSrcUse e 2 ++ vDstUse e ++ vExpUse e ++ more e

/-! ### Results (R127, R130, R131) -/

/-- The tile of element (r, c) of `n` columns (R131). -/
def vTile (n r c : Nat) : Nat := r / 32 * ceilDiv n 256 + c / 256
/-- The tiles of a tensor (R131). -/
def vTiles (d : Desc) : Nat := ceilDiv (rowsOf d) 32 * ceilDiv d.e0 256

/-- A row of results: exact values under `ex`, to be written under `eo`. -/
structure VRow where
  ex : Int
  eo : Int
  vals : List SV
  deriving DecidableEq, Repr

/-- A row of NaR. -/
def VRow.nan (n : Nat) : VRow := { ex := 0, eo := 0, vals := List.replicate n .nan }

/-- A row for a destination: an I32 element takes the code under eo, any other format a final narrowing. -/
def vNarrow (word : Nat) (d : Desc) (rnd : Nat → Rnd) (x : VRow) : RowOut × List SV :=
  if d.fmt = 4 then
    let l := x.vals.zipIdx.map fun v => match v.1 with | .fin i => svClamp i32Max (rescale (rnd v.2) i x.ex x.eo) | y => y
    (.codes (l.map (svCode 32)), l)
  else narrowRow word d rnd x.ex x.vals

/-- Results written: the rows as stored, the values they read back as, the writes, and the lane positions taken. -/
structure VOut where
  rows : List RowOut
  back : List (List SV)
  prog : Prog
  lanes : Nat → Nat

/-- The last tile of rows of `n` columns (R131). -/
def lastTile (n : Nat) (rows : List (List SV)) : List (List Nat) :=
  (rows.drop ((rows.length - 1) / 32 * 32)).map fun l => (l.drop ((n - 1) / 256 * 256)).map (svCode 32)

/-- The result tile a leg leaves in its register, in I32 under eo (R126). -/
def resultTile (e : Env) (n : Nat) (rows : List VRow) : Prog :=
  putStore e (tileKey 3) (lastTile n (rows.map fun x => x.vals.map fun v => svAlign v x.ex x.eo))

/-- The tile of source `k` that a leg leaves in its register, in I32 under ea (R126, R127). -/
def sourceTile (e : Env) (k : Nat) : Prog :=
  let d := if vIdx e.leg k = FIFO then vShapeOf e else e.desc (vIdx e.leg k)
  whenP (vIdx e.leg k != NONE) (putStore e (tileKey k) (lastTile d.e0 ((List.range (rowsOf d)).map fun r => vRow e k r d.e0 ((vEa e r).getD 0))))

/-- Rows of results for descriptor `idx`, written as operand `operand` of the leg. `draws` makes I32 elements final narrowings; `base` is the number
of lane positions taken before; `keep` gives elements whose code in a plain format stands as it was (R143). -/
def vOut (e : Env) (operand idx : Nat) (cached draws : Bool) (base : Nat → Nat) (rows : List VRow) (keep : Nat → Nat → Option Nat := fun _ _ => none) :
    VOut :=
  if idx = FIFO then
    let sent := fifoRows e (rows.map fun x => (x.eo, x.vals.map fun v => svAlign v x.ex x.eo))
    { rows := [], back := sent.2, prog := .seq (resultTile e (vShapeOf e).e0 rows) (putDown e sent.1), lanes := fun _ => 0 }
  else
    let d := e.desc idx
    let word := (pisteOf e.s e.p).word
    let dr := draws || d.fmt != 4
    let outs := rows.zipIdx.map fun x =>
      let (o, back) := vNarrow word d (fun c => if dr then finalRnd e.s e.p e.g e.leg.round c (base c + tilePlace rows.length d.e0 x.2 c) else .odd) x.1
      ((match o with | .codes l => RowOut.codes (l.zipIdx.map fun (c : Nat × Nat) => (keep x.2 c.2).getD c.1) | .blocks l => .blocks l), back)
    { rows := outs.map (·.1), back := outs.map (·.2)
      prog := .seq (whenP (operand == 3) (resultTile e d.e0 rows)) <|
        if cached then cacheWrites e.island (outs.zipIdx.filterMap fun x => match x.1.1 with
          | .codes l => some (rowOff d x.2, packCodes 32 l)
          | .blocks _ => none)
        else forEach outs.zipIdx fun x => emitRow e operand d x.2 x.1.1
      lanes := fun c => if dr then rows.length * laneChunks d.e0 c else 0 }

/-- VG_STATUS of a leg (register table of chapter 06). -/
def vStatus (e : Env) : Prog :=
  .seq (wr (.gate e.p e.g) Reg.GATEV.VG_STATUS_OP e.leg.op) (wr (.gate e.p e.g) Reg.GATEV.VG_STATUS_FUNC (if e.leg.op = 1 then bits e.leg.p0 0 8 else 0))

/-- What a residue mismatch does (R145): a tile row recomputed and counted; a second mismatch ends the run and fences the piste. A tile register
error is recomputed alike (R332). -/
def vChecks (e : Env) (chk : HwCheck) (ram : List SramErr) : Prog :=
  let pg := Page.gate e.p e.g
  let once := fun t => progs [wr pg Reg.GATEV.CHECK_RESIDUE 1, addSat pg Reg.GATEV.RESIDUE_COUNT 1, wr pg Reg.GATEV.RESIDUE_LEG e.idx,
    wr pg Reg.GATEV.RESIDUE_TILE t, addSat pg Reg.GATEV.RECOMPUTE_COUNT 1]
  let again := fun t => .seq (once t) (raise Code.VG_RECOMPUTE e.island e.run.iter e.idx 0 [])
  let twice := fun t => progs [once t, firstRung e, addSat pg Reg.GATEV.RESIDUE_COUNT 1, wr pg Reg.GATEV.CHECK_RESIDUE_RUN 1, faultAndFence e Code.VG_RESIDUE 4 []]
  .seq (forEach (planeTiles ram) again) (match planeAgain ram, chk with
    | t :: _, _ => twice t
    | [], .pass => .skip
    | [], .transient t => again t
    | [], .persistent t => twice t)

/-- Draws and flags of a leg once its results are written: `back` are the values DST reads back as. -/
def vEnd (e : Env) (lanes : Nat → Nat) (d : Desc) (back : List (List SV)) (more : List Flag := []) : Prog :=
  .seq (advanceLanes e.island lanes) (putFlags e.p e.g e.idx e.run.iter (vTiles d) (rowFlags (vTile d.e0) back ++ more))

/-- A leg with one result tensor: DST. -/
def vSimple (e : Env) (draws : Bool) (rows : List VRow) : Prog :=
  let o := vOut e 3 e.leg.dst (bit e.leg.p2 3) draws (fun _ => 0) rows
  .seq o.prog (vEnd e o.lanes (vShapeOf e) o.back)

/-- The first stored 2:4 code at or beyond the extent that a leg reads of its sources, as its element, recorded (R217). -/
def note24 (e : Env) : Prog :=
  let srcs := ((List.range 3).filter fun k => named (vIdx e.leg k) && !bit e.leg.p2 k && (e.desc (vIdx e.leg k)).fmt == 0x14).map fun k => e.desc (vIdx e.leg k)
  match srcs.findSome? fun d => (List.range (rowsOf d)).findSome? fun r => ((rowBlocks e.view d r).flatMap (·.2)).head?.map fun i => i + d.e0 * r with
  | none => .skip
  | some el => raiseSev 2 Code.IDX_RANGE e.island e.run.iter e.idx 0 [w64 el] fun _ => .skip

/-- A leg's effect behind its residue check; `covered` tells whether its arithmetic carries residues. -/
def vBody (covered : Env → Bool) (chk : HwCheck) (ram : List SramErr) (f : Env → Prog) (e : Env) : Prog :=
  .seq (.seq (forEach (List.range 3) (sourceTile e)) (vChecks e (if covered e then chk else .pass) ram)) (unlessFailed e.p (.seq (note24 e) (f e)))

/-- An operation of a V-gate leg. -/
def vOp (uses : Env → List OpUse) (body : Env → Prog) : LegOp := { uses := uses, takes := vTakes, status := vStatus, body := body }

/-- A V-gate command. -/
def execV (p : Fin 64) (v : Fin 3) (op : Nat) (ram : List SramErr) (o : LegOp) (s : State) : Host.Outcome State Fault Refusal :=
  done (runLeg p (vGate v) op ram o) s

/-! ### Element functions (R133, R134) -/

/-- An operand of MUL shifted right into I16 (R133). -/
def mulOperand (v : SV) (s : Nat) : SV := match v with | .fin i => svClamp i16Max (roundShift .odd i s) | x => x

/-- A table function's value as an I32 code under `eo`. -/
def Bin.code (x : Bin) (eo : Int) : SV := svClamp i32Max (x.at eo)

/-- The table functions (R133, R134). -/
def tableFn (f : Nat) (a : SV) (ea eo : Int) : SV :=
  match f, a with
  | _, .nan => .nan
  | 0x10, .ninf => .fin 0
  | 0x10, .pinf => .pinf
  | 0x10, .fin v => (exp2 v ea).code eo
  | 0x11, .pinf => .pinf
  | 0x11, .ninf => .nan
  | 0x11, .fin v => if v = 0 then .ninf else if v < 0 then .nan else (log2Of v ea).code eo
  | 0x12, .fin v => if v = 0 then .nan else (recipOf v ea).code eo
  | 0x12, _ => .fin 0
  | 0x13, .pinf => .fin 0
  | 0x13, .ninf => .nan
  | 0x13, .fin v => if v = 0 then .pinf else if v < 0 then .nan else (rsqrtOf v ea).code eo
  | 0x14, .pinf => ({ m := 1, e := 0 } : Bin).code eo
  | 0x14, .fin v => (sigmoidOf v ea).code eo
  | 0x15, .fin v => let x := sigmoidOf v ea; ({ m := v * x.m, e := ea + x.e } : Bin).code eo
  | 0x16, .fin v => let x := sigmoidOf (v * 24554 * (2 ^ 40 : Nat) / 10000) (ea - 40); ({ m := v * x.m, e := ea + x.e } : Bin).code eo
  | 0x15, .pinf => .pinf
  | 0x16, .pinf => .pinf
  | _, _ => .fin 0

/-- One lane of ELEMWISE: the code under `eo` (R133). -/
def elemFn (f p1 : Nat) (ea eo : Int) (a b c : SV) : SV :=
  let put := fun v => svAlign (svI32 v) ea eo
  let logic := fun (g : Nat → Nat → Nat) => codeSV 32 (g (svCode 32 a) (svCode 32 b))
  match f with
  | 0x00 => put (svAdd a b)
  | 0x01 => put (svAdd a (svNeg b))
  | 0x02 =>
    let sa := bits p1 16 5
    let sb := bits p1 21 5
    svAlign (svMul (mulOperand a sa) (mulOperand b sb)) (2 * ea + sa + sb) eo
  | 0x03 => put (svMax a b)
  | 0x04 => put (svMin a b)
  | 0x05 => .fin (ofBool (svLt a b))
  | 0x06 => .fin (ofBool (svLt a b || svEq a b))
  | 0x07 => .fin (ofBool (svEq a b))
  | 0x08 => if a = .nan ∨ b = .nan ∨ c = .nan then .nan else put (if c = .fin 0 then b else a)
  | 0x09 => put (svAlign a (toSigned 6 (bits p1 16 6)) 0)
  | 0x0A => logic Nat.land
  | 0x0B => logic Nat.lor
  | 0x0C => logic Nat.xor
  | 0x0D => put (svNeg a)
  | 0x0E => put (svAbs a)
  | 0x0F => put (svMax a (.fin 0))
  | f => tableFn f a ea eo

/-- Whether a leg's lanes shift to bring sources to ea (R127) or results to a format that is not I32. -/
def vAligns (e : Env) : Bool :=
  ((List.range 3).any fun k => named (vIdx e.leg k) && !bit e.leg.p2 k && (e.desc (vIdx e.leg k)).fmt != 4) ||
  (if e.leg.dst = FIFO then (matReader e).isSome else (e.desc e.leg.dst).fmt != 4)

/-- Whether an ELEMWISE function's arithmetic carries residues (R145): add, subtract, negate, multiply and shift, the multiply of SILU and GELU
among them, the shift that brings another result to eo, and the shifts of sources and of results. -/
def elemCovered (e : Env) : Bool :=
  let f := bits e.leg.p0 0 8
  [0x00, 0x01, 0x02, 0x09, 0x0D, 0x15, 0x16].contains f || ([0x03, 0x04, 0x08, 0x0E, 0x0F].contains f && vShift e != 0) || vAligns e

/-- ELEMWISE's effect. -/
def elemwiseBody (e : Env) : Prog :=
  let d := vShapeOf e
  let f := bits e.leg.p0 0 8
  vSimple e false ((List.range (rowsOf d)).map fun r => match vEa e r with
    | none => .nan d.e0
    | some ea =>
      let eo := ea + vShift e
      let src := fun k => if vIdx e.leg k = NONE then List.replicate d.e0 (SV.fin 0) else vRow e k r d.e0 ea
      { ex := eo, eo := eo, vals := (List.zip (src 0) (List.zip (src 1) (src 2))).map fun x => elemFn f e.leg.p1 ea eo x.1 x.2.1 x.2.2 })

/-- ELEMWISE as an operation of a leg. -/
def opElemwise (chk : HwCheck) (ram : List SramErr) : LegOp :=
  vOp (vUses fun _ => []) (vBody elemCovered chk ram elemwiseBody)

/-- ELEMWISE (R128, R133). -/
def execElemwise (p : Fin 64) (v : Fin 3) (chk : HwCheck) (ram : List SramErr) (s : State) : Host.Outcome State Fault Refusal :=
  execV p v 1 ram (opElemwise chk ram) s

/-! ### REDUCE (R135) -/

/-- The source rows that reduce into row `r` of DST along dimension `dim` of 1 to 3. -/
def reduceRows (a o : Desc) (dim r : Nat) : List Nat :=
  let i := [r % o.e1, r / o.e1 % o.e2, r / (o.e1 * o.e2)]
  let n := if dim = 1 then a.e1 else if dim = 2 then a.e2 else a.e3
  (List.range n).map fun k =>
    let j := fun x => if x + 1 = dim then k else nth i x 0
    j 0 + a.e1 * (j 1 + a.e2 * j 2)

/-- A list reduced (R135). -/
def reduceList (f : Nat) (l : List SV) : SV :=
  match f with
  | 0 => svSum l
  | 1 => svSum (l.map fun v => svMul v v)
  | 2 => svMaxOf l
  | _ => match l with | [] => .pinf | v :: r => r.foldl svMin v

/-- REDUCE's effect. -/
def reduceBody (e : Env) : Prog :=
  let a := e.desc e.leg.a
  let o := e.desc e.leg.dst
  let dim := bits e.leg.p0 0 2
  let f := bits e.leg.p0 2 2
  vSimple e (decide (f < 2)) ((List.range (rowsOf o)).map fun r => match vEa e r with
    | none => .nan o.e0
    | some ea =>
      let cols : List (List SV) :=
        if dim = 0 then [vRow e 0 r a.e0 ea]
        else
          let rows := (reduceRows a o dim r).map fun i => vRow e 0 i a.e0 ea
          (List.range a.e0).map fun c => rows.map fun l => nth l c (.fin 0)
      { ex := if f = 1 then 2 * ea else ea, eo := ea + vShift e, vals := cols.map (reduceList f) })

/-- REDUCE of the V-gate as an operation of a leg. -/
def opReduceVector (chk : HwCheck) (ram : List SramErr) : LegOp :=
  vOp (vUses fun _ => []) (vBody (fun e => decide (bits e.leg.p0 2 2 < 2) || vShift e != 0 || vAligns e) chk ram reduceBody)

/-- REDUCE of the V-gate (R135). -/
def execReduceVector (p : Fin 64) (v : Fin 3) (chk : HwCheck) (ram : List SramErr) (s : State) : Host.Outcome State Fault Refusal :=
  execV p v 2 ram (opReduceVector chk ram) s

/-! ### NORM (R139) -/

/-- Σx and Σx² of a row under ea and 2 × ea: formed, or taken from the row's statistics record; a NaR or INF in a used field comes as the
third part, and the sum that RMS does not use as 0. DESIGN CHOICE: where both fields that LAYER uses are special and differ, R139's "that value" is
their sum (log entry 112). -/
def normSums (e : Env) (layer : Bool) (r : Nat) (x : List SV) : SV × SV × Option SV :=
  if bit e.leg.p0 2 then
    let w := if bit e.leg.p2 2 then (cacheRow e.s e.island (e.desc e.leg.c) r) else (rowVals e.view (e.desc e.leg.c) r).map (·.1)
    let sh := svCode 32 (nth w 3 (.fin 0))
    let up := fun (v : SV) k => svMul v (.fin (2 ^ k : Nat))
    let s := up (nth w 1 (.fin 0)) (bits sh 0 8)
    let q := up (nth w 2 (.fin 0)) (bits sh 8 8)
    (if layer then s else .fin 0, q, if layer then (if svSpecial s || svSpecial q then some (match s, q with | .fin _, y => y | y, .fin _ => y | y, z => svAdd y z) else none)
      else if svSpecial q then some q else none)
  else (if layer then svSum x else .fin 0, svSum (x.map fun v => svMul v v), none)

/-- A row of NORM: y = (x - μ) × RSQRT(σ² + EPS) × g, as codes under `eo`. Where σ² + EPS is 0, R139 has NaR or INF: NaR where x - μ or g is 0
(log entry 52). -/
def normRow (layer : Bool) (eps : Nat) (ea eo : Int) (x g : List SV) (gOne : Bool) (s q : SV) : List SV :=
  let n : Int := x.length
  let scale : Int := (2 ^ 128 : Nat)
  -- σ² + EPS in units of 2^(2 ea - 128)
  let var : SV := match s, q with
    | .fin a, .fin b => .fin ((if layer then n * b - a * a + n * n * eps else n * b + n * n * eps) * scale / (n * n))
    | a, b => if layer then svAdd b (svNeg (svMul a a)) else b
  (List.zip x g).map fun xg =>
    -- x - μ in units of 2^ea ÷ N
    let d := if layer then svAdd (svMul xg.1 (.fin n)) (svNeg s) else svMul xg.1 (.fin n)
    let gain := if gOne then SV.fin 1 else xg.2
    let ge := if gOne then (0 : Int) else ea
    match var with
    | .nan => .nan
    | .ninf => .nan
    | .pinf => svMul (svMul d (.fin 0)) gain
    | .fin v =>
      if v < 0 then .nan
      else if v = 0 then match svMul (svMul d .pinf) gain with | .fin _ => .nan | y => y
      else
        let k := rsqrtOf v (2 * ea - 128)
        match svMul (svMul d (.fin k.m)) gain with
        | .fin m => ({ m := m * (2 ^ 64 : Nat) / n, e := ea + k.e + ge - 64 } : Bin).code eo
        | y => y

/-- NORM's effect. -/
def normBody (e : Env) : Prog :=
  let d := vShapeOf e
  let layer := bits e.leg.p0 0 2 == 1
  vSimple e false ((List.range (rowsOf d)).map fun r => match vEa e r with
    | none => .nan d.e0
    | some ea =>
      let eo := ea + vShift e
      let x := vRow e 0 r d.e0 ea
      let gOne := e.leg.b == NONE
      let g := if gOne then List.replicate d.e0 (SV.fin 1) else vRow e 1 r d.e0 ea
      let (s, q, special) := normSums e layer r x
      { ex := eo, eo := eo, vals := match special with
          | some y => List.replicate d.e0 y
          | none => normRow layer (bits e.leg.p2 4 28) ea eo x g gOne s q })

/-- NORM as an operation of a leg. -/
def opNorm (chk : HwCheck) (ram : List SramErr) : LegOp :=
  vOp (vUses fun _ => []) (vBody (fun _ => true) chk ram normBody)

/-- NORM (R139). -/
def execNorm (p : Fin 64) (v : Fin 3) (chk : HwCheck) (ram : List SramErr) (s : State) : Host.Outcome State Fault Refusal :=
  execV p v 3 ram (opNorm chk ram) s

/-! ### Softmax states (R115, R117, R140) -/

/-- A softmax state's record. -/
structure SmRec where
  m : SV
  l : SV
  d : Nat
  over_ : Bool
  masked : Bool
  deriving DecidableEq, Repr

/-- Record `k` of a row of state words from source `src`. -/
def smRec (e : Env) (src r k : Nat) : SmRec :=
  let i := vIdx e.leg src
  let w := (if bit e.leg.p2 src then cacheRow e.s e.island (e.desc i) r else (rowVals e.view (e.desc i) r).map (·.1)).drop (4 * k)
  let c := fun j => svCode 32 (nth w j (.fin 0))
  { m := nth w 0 .nan, l := nth w 1 .nan, d := c 2, over_ := bit (c 3) 0, masked := bit (c 3) 1 }

/-- LDIFF (R140). -/
def vLdiff (e : Env) : Int := toSigned 16 (bits e.leg.p1 16 16)

/-- SM_NORMALISE's effect. -/
def smNormaliseBody (e : Env) : Prog :=
  let d := vShapeOf e
  vSimple e false ((List.range (rowsOf d)).map fun r => match vEa e r with
    | none => .nan d.e0
    | some ea =>
      let eo := ea + vShift e
      let t := smRec e 1 r 0
      let o := vRow e 0 r d.e0 ea
      { ex := eo, eo := eo, vals :=
          if t.m = .nan then o.map fun _ => .nan
          else if t.masked then o.map fun _ => if bit e.leg.p0 0 then .nan else .fin 0
          else match t.l with
            | .nan => o.map fun _ => .nan
            | .fin l =>
              if l = 0 then o.map fun _ => .nan
              else
                let k := recipOf l (ea + vLdiff e)
                o.map fun v => match svMul v (.fin k.m) with
                  | .fin m => ({ m := m, e := ea + k.e } : Bin).code eo
                  | y => y
            | _ => o.map fun v => svMul v (.fin 0) })

/-- SM_NORMALISE as an operation of a leg. -/
def opSmNormalise (chk : HwCheck) (ram : List SramErr) : LegOp :=
  vOp (vUses fun _ => []) (vBody (fun _ => true) chk ram smNormaliseBody)

/-- SM_NORMALISE (R140). -/
def execSmNormalise (p : Fin 64) (v : Fin 3) (chk : HwCheck) (ram : List SramErr) (s : State) : Host.Outcome State Fault Refusal :=
  execV p v 4 ram (opSmNormalise chk ram) s

/-- Two states of a row merged (R117): the shifts that bring the two to the lower exponent, none for a state that contributes nothing, and the
merged M and D. -/
def smShifts (a b : SmRec) : Option Nat × Option Nat × SV × Nat :=
  match a.m, b.m with
  | .ninf, .ninf => (none, none, .ninf, max a.d b.d)
  | .ninf, m => (none, some 0, m, b.d)
  | m, .ninf => (some 0, none, m, a.d)
  | .fin x, .fin y =>
    let da := a.d + (max x y - x).toNat
    let db := b.d + (max x y - y).toNat
    (some (max da db - da), some (max da db - db), .fin (max x y), max da db)
  | m, _ => (none, none, m, max a.d b.d)

/-- A mantissa shifted left, or nothing. -/
def smLeft (k : Option Nat) (v : SV) : SV := match k with | some n => svAlign v n 0 | none => .fin 0

/-- SM_MERGE's effect: the merged O under e_O0 - D, and the merged record. -/
def smMergeBody (e : Env) : Prog :=
  let d := e.desc e.leg.a
  let rows := (List.range (rowsOf d)).map fun r =>
    let a := smRec e 2 r 0
    let b := smRec e 2 r 1
    let (ka, kb, m, rise) := smShifts a b
    let ea := vEa e r
    let low := match ea with | none => true | some x => decide (x - rise < -384) || decide (x + vLdiff e - rise < -384)
    let nan := low || m = SV.nan || a.m = SV.nan || b.m = SV.nan || m = SV.pinf
    let x := ea.getD 0
    let w := if nan then [svCode 32 .nan, svCode 32 .nan] else [svCode 32 m, svCode 32 (add32 (smLeft ka a.l) (smLeft kb b.l))]
    (({ ex := x - rise, eo := x - rise, vals :=
        if nan then List.replicate d.e0 .nan
        else List.zipWith (fun u v => add32 (smLeft ka u) (smLeft kb v)) (vRow e 0 r d.e0 x) (vRow e 1 r d.e0 x) } : VRow),
     w ++ [min rise 2147483646, ofBool (a.over_ || b.over_) + 2 * ofBool (a.masked && b.masked)])
  .seq (vSimple e false (rows.map (·.1))) (forEach rows.zipIdx fun x => emitWords e 6 (e.desc (e.leg.dst + 1)) x.2 x.1.2)

/-- SM_MERGE as an operation of a leg. -/
def opSmMerge (chk : HwCheck) (ram : List SramErr) : LegOp :=
  vOp (vUses fun e => [{ idx := e.leg.dst + 1, use := .wr }]) (vBody (fun _ => true) chk ram smMergeBody)

/-- SM_MERGE (R117, R140). -/
def execSmMerge (p : Fin 64) (v : Fin 3) (chk : HwCheck) (ram : List SramErr) (s : State) : Host.Outcome State Fault Refusal :=
  execV p v 5 ram (opSmMerge chk ram) s

/-! ### KL (R141) -/

/-- Fraction bits the KL leg's terms are held to (log entry 9). -/
def klFrac : Nat := 48

/-- The base-2 log-sum-exp of a row under `ea`, in units of 2^-48; the row holds a finite logit and no NaR or +INF. -/
def logSumExp (ea : Int) (l : List SV) : Int :=
  let m := match svMaxOf l with | .fin v => ceilAt v ea | _ => 0
  let s := l.foldl (fun (a : Int) v => match v with
    | .fin x => a + (exp2 (rescale .odd x ea (-klFrac) - m * (2 ^ klFrac : Nat)) (-klFrac)).at (-klFrac)
    | _ => a) 0
  (log2Of s (-klFrac)).at (-klFrac) + m * (2 ^ klFrac : Nat)

/-- KL of a row and its gradient, in units of 2^-48 (R141). -/
def klRow (dir : Bool) (ea : Int) (a b : List SV) : SV × List SV :=
  let bad := fun (l : List SV) => l.any (fun v => v = .nan || v = .pinf) || l.all (· = .ninf)
  if bad a || bad b then (.nan, a.map fun _ => .nan)
  else
    let la := logSumExp ea a
    let lb := logSumExp ea b
    let logp := fun (v : SV) (lz : Int) => match v with | .fin x => some (rescale .odd x ea (-klFrac) - lz) | _ => none
    let prob := fun (x : Option Int) => match x with | some y => (exp2 y (-klFrac)).at (-klFrac) | none => 0
    let ps := (List.zip a b).map fun x => (logp x.1 la, logp x.2 lb)
    let term := fun (x : Option Int × Option Int) => match x.1, x.2 with
      | some y, some z => SV.fin (if dir then -(prob x.2 * (y - z)) else prob x.1 * (y - z))
      | some _, none => if dir then .fin 0 else .pinf
      | none, some _ => if dir then .pinf else .fin 0
      | none, none => .fin 0
    let kl : SV := match svSum (ps.map term) with | .fin v => .fin (roundShift .odd v klFrac) | y => y
    (kl, ps.map fun x =>
      if dir then .fin (prob x.1 - prob x.2)
      else match x.1, x.2 with
        | some y, some z => (match svMul (.fin (prob x.1)) (svAdd (.fin (y - z)) (svNeg kl)) with | .fin v => .fin (roundShift .odd v klFrac) | w => w)
        | some _, none => svAdd .pinf (svNeg kl)
        | none, _ => .fin 0)

/-- KL's effect. -/
def klBody (e : Env) : Prog :=
  let d := e.desc e.leg.a
  let grad := bit e.leg.p0 1
  let rows := (List.range (rowsOf d)).map fun r => match vEa e r with
    | none => (VRow.nan 1, VRow.nan d.e0)
    | some ea =>
      let eo := ea + vShift e
      let (k, g) := klRow (bit e.leg.p0 0) ea (vRow e 0 r d.e0 ea) (vRow e 1 r d.e0 ea)
      (({ ex := eo, eo := eo, vals := [svAlign k (-klFrac) eo] } : VRow), ({ ex := eo, eo := eo, vals := g.map fun v => svAlign v (-klFrac) eo } : VRow))
  let o := vOut e 3 e.leg.dst (bit e.leg.p2 3) false (fun _ => 0) (rows.map (·.1))
  let h := vOut e 6 (e.leg.dst + 1) false false o.lanes (rows.map (·.2))
  progs [o.prog, whenP grad h.prog, vEnd e (fun c => o.lanes c + if grad then h.lanes c else 0) (e.desc e.leg.dst) o.back]

/-- KL as an operation of a leg. -/
def opKl (chk : HwCheck) (ram : List SramErr) : LegOp :=
  vOp (vUses fun e => if bit e.leg.p0 1 then [{ idx := e.leg.dst + 1, use := .wr }] else []) (vBody (fun _ => true) chk ram klBody)

/-- KL (R141). -/
def execKl (p : Fin 64) (v : Fin 3) (chk : HwCheck) (ram : List SramErr) (s : State) : Host.Outcome State Fault Refusal :=
  execV p v 6 ram (opKl chk ram) s

/-! ### Checksum vectors (R144) -/

/-- The codes of a written block as R89 loads them, an outlier's VAL in place of its code. -/
def loadedCodes (w : Nat) (b : BlockOut) : List Int :=
  if b.e8 = -128 ∨ b.e8 = -127 ∨ b.e8 = 127 then List.replicate 32 0
  else
    let n := bits b.side 0 2
    b.codes.zipIdx.map fun c =>
      if 1 ≤ n ∧ bits b.side 8 5 = c.2 then toSigned 16 (bits b.side 32 16)
      else if n = 2 ∧ bits b.side 16 5 = c.2 then toSigned 16 (bits b.side 48 16)
      else toSigned w c.1

/-- The words of a checksum vector: `cols` gives each column's loaded codes along K. -/
def checksumWords (k : Nat) (cols : List (List Int)) : List (List Nat) :=
  (pieces 256 cols).map fun l => (List.range k).map fun i => ofSigned 24 (l.foldl (fun a c => a + nth c i 0) 0)

/-- A checksum vector written to descriptor `idx`. -/
def emitChecksum (e : Env) (operand idx k : Nat) (cols : List (List Int)) : Prog :=
  forEach (checksumWords k cols).zipIdx fun x => emitWords e operand (e.desc idx) x.2 x.1

/-- The loaded codes of stored rows. -/
def rowsLoaded (w : Nat) (rows : List RowOut) : List (List Int) :=
  rows.map fun r => match r with | .blocks l => l.flatMap (loadedCodes w) | .codes l => l.map (toSigned w)

/-! ### OPT_UPDATE (R142, R143) -/

/-- The scalar record. -/
structure OptRec where
  lr : SV
  lrExp : Int
  clip : SV
  clipExp : Int
  eps : SV
  b1 : Nat
  b2 : Nat
  wd : Nat
  ew : Int
  em : Int
  ev : Int
  rsv : Bool
  deriving DecidableEq, Repr

/-- The scalar record read from its 32 bytes. -/
def optRec (b : List Byte) : OptRec :=
  let i16 := fun o => toSigned 16 (leAt b o 2)
  { lr := codeSV 16 (leAt b 0 2), lrExp := i16 2, clip := codeSV 16 (leAt b 4 2), clipExp := i16 6, eps := codeSV 32 (leAt b 8 4),
    b1 := leAt b 12 1, b2 := leAt b 13 1, wd := leAt b 14 1, ew := i16 16, em := i16 18, ev := i16 20,
    rsv := leAt b 15 1 != 0 || (b.drop 22).any (· != 0) }

/-- Whether the record passes (R143). -/
def optRecOk (x : OptRec) : Bool :=
  let exp := fun (v : Int) => decide (-384 ≤ v) && decide (v ≤ 384)
  decide (1 ≤ x.b1) && decide (x.b1 ≤ 31) && decide (1 ≤ x.b2) && decide (x.b2 ≤ 31) && decide (x.wd ≤ 31) &&
  exp x.lrExp && exp x.clipExp && exp x.ew && exp x.em && exp x.ev && !svSpecial x.lr && !svSpecial x.clip && !svSpecial x.eps && !x.rsv

/-- A value narrowed to I16 by the smallest right shift that fits it, rounding to odd (R142). -/
def to16 (v : SV) (e : Int) : SV × Int :=
  match v with
  | .fin i =>
    let s := ((List.range 400).find? fun s => decide ((roundShift .odd i s).natAbs ≤ 32766)).getD 400
    (.fin (roundShift .odd i s), e + s)
  | x => (x, e)

/-- A product of two values narrowed to I16, with its exponent. -/
def mul16 (a : SV) (ea : Int) (b : SV) (eb : Int) : SV × Int :=
  let (x, ex) := to16 a ea
  let (y, ey) := to16 b eb
  (svMul x y, ex + ey)

/-- An arithmetic right shift, rounding to odd (R68). -/
def shiftRight (v : SV) (n : Nat) : SV := match v with | .fin i => .fin (roundShift .odd i n) | x => x

/-- The reciprocal square root of v + EPS as a value with an exponent. -/
def optRsqrt (v : SV) (e : Int) : SV × Int :=
  match v with
  | .nan => (.nan, 0)
  | .ninf => (.nan, 0)
  | .pinf => (.fin 0, 0)
  | .fin i => if i = 0 then (.pinf, 0) else if i < 0 then (.nan, 0) else let k := rsqrtOf i e; (.fin k.m, k.e)

/-- One element: w, m and v after the update, or none for a gradient that is NaR or INF after clipping, which comes with it. -/
def optElem (x : OptRec) (ea : Int) (g w m v : SV) : (SV × SV × SV) × Option SV :=
  let gc := mul16 g ea x.clip x.clipExp
  let g := svAlign gc.1 gc.2 x.em
  if svSpecial g then ((w, m, v), some g)
  else
    let m' := add32 m (shiftRight (add32 g (svNeg m)) x.b1)
    let gg := mul16 g x.em g x.em
    let v' := add32 v (shiftRight (add32 (svAlign gg.1 gg.2 x.ev) (svNeg v)) x.b2)
    let r := optRsqrt (add32 v' x.eps) x.ev
    let u := mul16 m' x.em r.1 r.2
    let step := mul16 x.lr x.lrExp u.1 u.2
    let w1 := add32 w (svNeg (svAlign step.1 step.2 x.ew))
    ((add32 w1 (svNeg (if x.wd = 0 then .fin 0 else shiftRight w x.wd)), m', v'), none)

/-- The scalar record of an OPT_UPDATE. -/
def optScalars (e : Env) : OptRec := optRec (smList byteDefault e.s.mem.scratch (scratchKey e.p e.leg.p0) 32)

/-- The check of the scalar record at issue (R143). -/
def optHold (e : Env) : Option Prog :=
  if smGet flagDefault e.s.mem.scratchPoison (scratchKey e.p e.leg.p0 / 128) || !optRecOk (optScalars e) then
    some (.seq (wr (.gate e.p e.g) Reg.GATEV.CHECK_OPT_RECORD 1) (faultLeg e.p e.g e.idx Code.VG_OPT_RECORD 0 []))
  else none

/-- The elements of an OPT_UPDATE row by row: w, m and v after the update, with a gradient that is NaR or INF after clipping. -/
def optRows (e : Env) : List (List ((SV × SV × SV) × Option SV)) :=
  let n := (e.desc e.leg.a).e0
  (List.range (rowsOf (e.desc e.leg.a))).map fun r =>
    let st := if bit e.leg.p2 1 then cacheRow e.s e.island (e.desc e.leg.b) r else (rowVals e.view (e.desc e.leg.b) r).map (·.1)
    let g := match vEa e r with | some ea => (vRow e 0 r n ea).map fun v => (v, ea) | none => List.replicate n (SV.nan, 0)
    g.zipIdx.map fun v => optElem (optScalars e) v.1.2 v.1.1 (nth st (3 * v.2) .nan) (nth st (3 * v.2 + 1) .nan) (nth st (3 * v.2 + 2) .nan)

/-- Whether element `c` of row `r` is skipped (R143). -/
def optSkips (rows : List (List ((SV × SV × SV) × Option SV))) (r c : Nat) : Bool := (nth (nth rows r []) c ((.nan, .nan, .nan), none)).2.isSome

/-- A previous working weight as it stands (R143): in a plain format its code, in a block its value under EW. -/
def optPrevious (e : Env) (r : Nat) : List (Nat × SV) :=
  let d := e.desc (e.leg.dst + 1)
  (rowVals e.view d r).map fun v => (svCode (fmtBits d.fmt) v.1, if d.fmt = 4 then v.1 else svAlign v.1 v.2 (optScalars e).ew)

/-- OPT_UPDATE's effect. A skipped element writes its previous working weight: in a plain format the same code, in a block the same value, narrowed
with the block's others. -/
def optUpdateBody (e : Env) : Prog :=
  let l := e.leg
  let x := optScalars e
  let n := (e.desc l.a).e0
  let rows := optRows e
  let workEn := bit l.p1 16
  let kept := rows.zipIdx.flatMap fun y => y.1.zipIdx.filterMap fun z => z.1.2.map fun v =>
    ({ tile := vTile (3 * n) y.2 (3 * z.2), row := y.2, col := 3 * z.2, v := v } : Flag)
  let state := vOut e 3 l.dst (bit l.p2 3) true (fun _ => 0)
    (rows.map fun y => { ex := 0, eo := 0, vals := y.flatMap fun z => [z.1.1, z.1.2.1, z.1.2.2] })
  let prev := if workEn && kept.length != 0 then (List.range rows.length).map (optPrevious e) else []
  let old := fun r c => if optSkips rows r c then (nth prev r [])[c]? else none
  let work := vOut e 6 (l.dst + 1) false true state.lanes
    (rows.zipIdx.map fun y => { ex := x.ew, eo := x.ew, vals := y.1.zipIdx.map fun z => match old y.2 z.2 with | some o => o.2 | none => z.1.1.1 })
    (fun r c => (old r c).map (·.1))
  progs [
    state.prog, whenP workEn work.prog,
    whenP (bit l.p1 17) (emitChecksum e 7 (l.dst + 2) n (rowsLoaded (fmtBits (e.desc (l.dst + 1)).fmt) work.rows)),
    vEnd e (fun c => state.lanes c + if workEn then work.lanes c else 0) (e.desc l.dst) state.back kept]

/-- What an OPT_UPDATE reads of its previous working weights: rows with an element that is skipped, once its gradients are here (R143). -/
def optOld (f : Env → Desc → Nat → List Span) (e : Env) : List Span :=
  if bit e.leg.p1 16 then ((optRows e).zipIdx.filter fun y => y.1.any fun z => z.2.isSome).flatMap fun y => f e (e.desc (e.leg.dst + 1)) y.2 else []

/-- OPT_UPDATE as an operation of a leg. -/
def opOptUpdate (chk : HwCheck) (ram : List SramErr) : LegOp :=
  { vOp (vUses fun e =>
      (if bit e.leg.p1 16 then [({ idx := e.leg.dst + 1, use := .wr } : OpUse)] else []) ++ if bit e.leg.p1 17 then [{ idx := e.leg.dst + 2, use := .wr }] else [])
      (vBody (fun _ => true) chk ram optUpdateBody) with
    hold := optHold, reads := [optOld rowFirst, optOld rowNext] }

/-- OPT_UPDATE (R142). -/
def execOptUpdate (p : Fin 64) (v : Fin 3) (chk : HwCheck) (ram : List SramErr) (s : State) : Host.Outcome State Fault Refusal :=
  execV p v 7 ram (opOptUpdate chk ram) s

/-! ### CONVERT, CACHE_FILL, CACHE_SPILL (R136, R144) -/

/-- SRC_A's rows under ea, to be written under eo. -/
def convertRows (e : Env) : List VRow :=
  let d := vShapeOf e
  (List.range (rowsOf d)).map fun r => match vEa e r with
    | none => .nan d.e0
    | some ea => let eo := ea + vShift e; { ex := eo, eo := eo, vals := (vRow e 0 r d.e0 ea).map fun v => svAlign v ea eo }

/-- CONVERT's effect, with the checksum vector that CHK_EN asks for. -/
def convertBody (e : Env) : Prog :=
  let o := vOut e 3 e.leg.dst (bit e.leg.p2 3) false (fun _ => 0) (convertRows e)
  let d := vShapeOf e
  progs [o.prog, whenP (bit e.leg.p0 0) (emitChecksum e 6 (e.leg.dst + 1) d.e0 (rowsLoaded (fmtBits d.fmt) o.rows)), vEnd e o.lanes d o.back]

/-- CONVERT as an operation of a leg. -/
def opConvert (chk : HwCheck) (ram : List SramErr) : LegOp :=
  vOp (vUses fun e => if bit e.leg.p0 0 then [{ idx := e.leg.dst + 1, use := .wr }] else []) (vBody (fun _ => true) chk ram convertBody)

/-- CONVERT (R144). -/
def execConvert (p : Fin 64) (v : Fin 3) (chk : HwCheck) (ram : List SramErr) (s : State) : Host.Outcome State Fault Refusal :=
  execV p v 8 ram (opConvert chk ram) s

/-- CACHE_FILL as an operation of a leg. -/
def opCacheFill (chk : HwCheck) (ram : List SramErr) : LegOp :=
  vOp (vUses fun _ => []) (vBody (fun _ => true) chk ram fun e => vSimple e false (convertRows e))

/-- CACHE_FILL (R136). -/
def execCacheFill (p : Fin 64) (v : Fin 3) (chk : HwCheck) (ram : List SramErr) (s : State) : Host.Outcome State Fault Refusal :=
  execV p v 10 ram (opCacheFill chk ram) s

/-- CACHE_SPILL's effect: one final narrowing, into I32 too. -/
def spillBody (e : Env) : Prog :=
  let d := e.desc e.leg.dst
  if d.fmt = 4 then
    vSimple e true ((List.range (rowsOf d)).map fun r => match vEa e r with
      | none => .nan d.e0
      | some ea => { ex := ea, eo := ea + vShift e, vals := vRow e 0 r d.e0 ea })
  else vSimple e false (convertRows e)

/-- CACHE_SPILL as an operation of a leg. -/
def opCacheSpill (chk : HwCheck) (ram : List SramErr) : LegOp :=
  vOp (vUses fun _ => []) (vBody (fun _ => true) chk ram spillBody)

/-- CACHE_SPILL (R136). -/
def execCacheSpill (p : Fin 64) (v : Fin 3) (chk : HwCheck) (ram : List SramErr) (s : State) : Host.Outcome State Fault Refusal :=
  execV p v 11 ram (opCacheSpill chk ram) s

/-! ### COMPRESS_24 (R218, R219) -/

/-- A BI4 block as stored: E8 with poison taken in (R224), codes (a poisoned element as the NaR code), decoded values, outlier places. -/
structure Raw4 where
  e8 : Int
  codes : List Nat
  blk : Block
  deriving DecidableEq, Repr

/-- Block `b` of a row of BI4 as stored. -/
def raw4 (v : View) (d : Desc) (row b : Nat) : Raw4 :=
  let nb := ceilDiv d.e0 32
  let k := row * nb + b
  let n := min 32 (d.e0 - 32 * b)
  let sr := rgnOf v.s v.p d.scaleRegion
  let (bytes, bad) := descBytes v d (rowOff d row + b * 16) 16
  let e8 := if poisonOffs v sr (d.scaleOffset + k) 1 = [] then toSigned 8 (leNat (rgnBytes v sr (d.scaleOffset + k) 1)) else -128
  let orr := rgnOf v.s v.p d.outRegion
  let off := d.outOffset + 8 * k
  let sbad := d.outEn == 1 && (!(poisonOffs v orr off 8).isEmpty || sideBad (leNat (rgnBytes v orr off 8)) n)
  { e8 := if sbad && e8 != 127 && e8 != -127 then -128 else e8
    codes := (List.range n).map fun i => if elemBad bad 4 i then 8 else codeAt 4 bytes i
    blk := (blockOf v d row b).1 }

/-- The rank of a value for COMPRESS_24 (R218). -/
def rank24 : SV → Nat
  | .nan => 2 ^ 20 + 1
  | .pinf => 2 ^ 20
  | .ninf => 2 ^ 20
  | .fin i => i.natAbs

/-- The positions of a group of four that it keeps, ascending, and those it drops (R218); positions without a value are not given. -/
def keep24 (g : List (Nat × SV)) : List Nat × List Nat :=
  let nz := g.filter fun x => x.2 != .fin 0
  if nz.length ≤ 2 then (nz.map (·.1), [])
  else
    let better := fun (x y : Nat × SV) => decide (rank24 y.2 < rank24 x.2) || (rank24 x.2 == rank24 y.2 && decide (x.1 < y.1))
    let kept := nz.filter fun x => decide ((nz.filter fun y => better y x).length < 2)
    (kept.map (·.1), (nz.filter fun x => !(kept.map (·.1)).contains x.1).map (·.1))

/-- The two stored places of a group of `n` in-range positions, as position and whether it holds a kept value. -/
def places24 (n : Nat) (kept : List Nat) : List (Nat × Bool) :=
  match kept with
  | a :: b :: _ => [(a, true), (b, true)]
  | [a] =>
    match (List.range n).find? (· != a) with
    | some b => if a < b then [(a, true), (b, false)] else [(b, false), (a, true)]
    | none => [(a, true), (a, false)]
  | [] => if 2 ≤ n then [(0, false), (1, false)] else if n = 1 then [(0, false), (0, false)] else [(0, false), (1, false)]

/-- A compressed block: E8, the 32 dense codes kept, the stored positions, elements dropped, and elements narrowed. -/
structure Comp24 where
  e8 : Int
  codes : List Nat
  places : List (Nat × Bool)
  dropped : List Nat
  narrowed : List Nat
  deriving DecidableEq, Repr

/-- A block compressed (R218); `rnd i` rounds element i where the kept values are narrowed again. -/
def compress24 (x : Raw4) (rnd : Nat → Rnd) : Comp24 :=
  let n := x.codes.length
  let per := (List.range 8).map fun g =>
    let ps := ((List.range 4).map (4 * g + ·)).filter (· < n)
    (g, ps.length, keep24 (ps.map fun i => (i % 4, nth x.blk.vals i (.fin 0))))
  if x.e8 = -128 then
    { e8 := -128, codes := List.replicate 32 0, places := per.flatMap fun p => [(4 * p.1, false), (4 * p.1 + 1, false)], dropped := [], narrowed := [] }
  else
    let kept := per.flatMap fun p => p.2.2.1.map (4 * p.1 + ·)
    let dropped := per.flatMap fun p => p.2.2.2.map (4 * p.1 + ·)
    let places := per.flatMap fun p => (places24 p.2.1 p.2.2.1).map fun y => (4 * p.1 + y.1, y.2)
    if kept.any x.blk.outliers.contains then
      let b := narrowBlock 4 x.blk.e false false rnd ((List.range 32).map fun i => if kept.contains i then nth x.blk.vals i (.fin 0) else .fin 0)
      { e8 := b.e8, codes := b.codes, places := places, dropped := dropped, narrowed := kept }
    else { e8 := x.e8, codes := (List.range 32).map fun i => if kept.contains i then nth x.codes i 0 else 0, places := places, dropped := dropped, narrowed := [] }

/-- The 12 bytes of a compressed block (R216). -/
def bytes24 (x : Comp24) : List Byte :=
  packCodes 4 (x.places.map fun y => if y.2 then nth x.codes y.1 0 else 0) ++
  leBytes 4 ((x.places.zipIdx.map fun y => y.1.1 % 4 * 2 ^ (2 * y.2)).foldl (· + ·) 0)

/-- The values a compressed block reads back as. -/
def back24 (n : Nat) (x : Comp24) : List SV := (decode24 n x.e8 (bytes24 x) false).1.vals.take n

/-- COMPRESS_24's effect. -/
def compress24Body (e : Env) : Prog :=
  let l := e.leg
  let a := e.desc l.a
  let d := e.desc l.dst
  let pg := Page.gate e.p e.g
  let n := a.e0
  let rows := rowsOf a
  let nb := ceilDiv n 32
  let raw := (List.range rows).map fun r => (List.range nb).map (raw4 e.view a r)
  -- elements that are narrowed, with their place in the order of the leg
  let nar := raw.zipIdx.flatMap fun y => y.1.zipIdx.flatMap fun z => (compress24 z.1 fun _ => .nearest).narrowed.map fun i =>
    (y.2, 32 * z.2 + i, tilePlace rows n y.2 (32 * z.2 + i))
  let place := fun r c => (nar.filter fun x => x.2.1 % 256 == c % 256 && decide (x.2.2 < tilePlace rows n r c)).length
  let outs := raw.zipIdx.map fun y => y.1.zipIdx.map fun z =>
    compress24 z.1 fun i => finalRnd e.s e.p e.g l.round (32 * z.2 + i) (place y.2 (32 * z.2 + i))
  let drops := outs.zipIdx.flatMap fun y => y.1.zipIdx.flatMap fun z => z.1.dropped.map fun i => (y.2, 32 * z.2 + i)
  let first := drops.foldl (fun (b : Option (Nat × Nat)) x => match b with
    | none => some x
    | some y => if flagBefore { tile := vTile n x.1 x.2, row := x.1, col := x.2, v := .nan } { tile := vTile n y.1 y.2, row := y.1, col := y.2, v := .nan }
        then some x else some y) none
  let r := fun i => rgnOf e.s e.p i
  progs [
    forEach outs.zipIdx fun y => .seq (emitBytes e 3 (r d.region) (rowOff d y.2) (y.1.flatMap bytes24) false)
      (emitBytes e 3 (r d.scaleRegion) (d.scaleOffset + y.2 * nb) (y.1.map fun b => BitVec.ofInt 8 b.e8) false),
    whenP (bit l.p0 0) (emitChecksum e 6 (l.dst + 1) n
      (outs.map fun y => y.flatMap fun b => loadedCodes 4
        { e8 := b.e8, side := 0, codes := (List.range 32).map fun i => if b.places.contains (i, true) then nth b.codes i 0 else 0 })),
    (match first with
     | none => .skip
     | some f => .look fun s => progs [
        whenP (rd s pg Reg.GATEV.DROP_COUNT == 0) (progs [
          wr pg Reg.GATEV.DROP_LEG e.idx, wr pg Reg.GATEV.DROP_ROW f.1, wr pg Reg.GATEV.DROP_COL f.2]),
        addSat pg Reg.GATEV.DROP_COUNT drops.length,
        raise Code.COMPRESS_DROP e.island e.run.iter e.idx 0 [w32 drops.length, w32 f.1, w32 f.2]]),
    vEnd e (fun c => (nar.filter fun x => x.2.1 % 256 == c).length) d
      (outs.map fun y => y.zipIdx.flatMap fun z => back24 (min 32 (n - 32 * z.2)) z.1)]

/-- COMPRESS_24 as an operation of a leg. -/
def opCompress24 (chk : HwCheck) (ram : List SramErr) : LegOp :=
  vOp (vUses fun e => if bit e.leg.p0 0 then [{ idx := e.leg.dst + 1, use := .wr }] else []) (vBody (fun _ => true) chk ram compress24Body)

/-- COMPRESS_24 (R218). -/
def execCompress24 (p : Fin 64) (v : Fin 3) (chk : HwCheck) (ram : List SramErr) (s : State) : Host.Outcome State Fault Refusal :=
  execV p v 9 ram (opCompress24 chk ram) s

/-! ### SKETCH (R207) -/

/-- One sketch block of up to 32 elements over the weight blocks it covers (R207). -/
def sketchBlock (n : Nat) (ws : List Block) : BlockOut :=
  let none_ : BlockOut := { e8 := -128, codes := List.replicate 32 0, side := 0 }
  if ws.any (·.special) then none_
  else
    let live := ws.filter fun b => !b.zero
    let e0 := live.foldl (fun m b => min m b.e) 127
    let vs : List Int := (List.range n).map fun j =>
      let b := nth ws (j / 8) { vals := [], e := 0, zero := true, special := false, outliers := [] }
      if b.zero then 0
      else match svSum ((List.range 4).map fun i => nth b.vals (j % 8 * 4 + i) (.fin 0)) with
        | .fin v => rescale .odd v b.e e0
        | _ => 0
    let m := vs.foldl (fun a v => max a v.natAbs) 0
    if m = 0 then { e8 := -127, codes := List.replicate 32 0, side := 0 }
    else
      let e : Int := m.log2 + e0
      if 126 < e then none_
      else { e8 := max e (-126), codes := padTo 32 0 (vs.map fun v => if 2 ^ m.log2 ≤ 2 * v.natAbs then (if v < 0 then 3 else 1) else 0), side := 0 }

/-- SKETCH's effect. -/
def sketchBody (e : Env) : Prog :=
  let a := e.desc e.leg.a
  let d := e.desc e.leg.dst
  let rows := (List.range a.e1).map (rowBlocks e.view a)
  let outs := rows.map fun l => (pieces 4 (l.map (·.1))).zipIdx.map fun x => sketchBlock (min 32 (d.e0 - 32 * x.2)) x.1
  progs [
    forEach outs.zipIdx fun x => emitRow e 3 d x.2 (.blocks x.1),
    vEnd e (fun _ => 0) d (outs.map fun y => y.zipIdx.flatMap fun z => readBack 2 (min 32 (d.e0 - 32 * z.2)) z.1)]

/-- SKETCH as an operation of a leg. -/
def opSketch (chk : HwCheck) (ram : List SramErr) : LegOp :=
  vOp (vUses fun _ => []) (vBody (fun _ => true) chk ram sketchBody)

/-- SKETCH (R207). -/
def execSketch (p : Fin 64) (v : Fin 3) (chk : HwCheck) (ram : List SramErr) (s : State) : Host.Outcome State Fault Refusal :=
  execV p v 12 ram (opSketch chk ram) s

end Sys2Proof.Machine
end

