-- ==== Sys2Proof/Machine/GateX.lean ====
section
/-! DEFINITION. X-gate legs: stores, atomic adds, reductions on the fabric, norms between modules, shards and copies (R119, R168, R170, R305 to
R322). -/

namespace Sys2Proof.Machine

open Sys2Proof

/-- XG_STATUS of a leg. -/
def xStatus (e : Env) : Prog := wr (.gate e.p e.g) Reg.GATEX.XG_STATUS_OP e.leg.op

/-- An X-gate command. -/
def execX (p : Fin 64) (op : Nat) (ram : List SramErr) (o : LegOp) (s : State) : Host.Outcome State Fault Refusal :=
  done (runLeg p 11 op ram o) s

/-- Flags over rows of DST (R308). -/
def xFlags (e : Env) (d : Desc) (rows : List (List SV)) : Prog := putFlags e.p e.g e.idx e.run.iter (vTiles d) (rowFlags (vTile d.e0) rows)

/-! ### STORE (R307) -/

/-- STORE's effect. -/
def storeBody (e : Env) : Prog :=
  let d := vShapeOf e
  let shift := toSigned 16 (bits e.leg.p0 0 16)
  let rows := (List.range (rowsOf d)).map fun r => match vEa e r with
    | none => (VRow.nan d.e0, List.replicate d.e0 SV.nan, true)
    | some ea =>
      let l := vRow e 0 r d.e0 ea
      (({ ex := ea + shift, eo := ea + shift, vals := l.map fun v => svAlign v ea (ea + shift) } : VRow), l, false)
  let o := vOut e 3 e.leg.dst false false (fun _ => 0) (rows.map (·.1))
  progs [o.prog, putStats e (rows.map (·.2)), vEnd e o.lanes d o.back]

/-- STORE as an operation of a leg. -/
def opStore : LegOp :=
  { uses := fun e => vSrcUse e 0 ++ (if named e.leg.dst then [({ idx := e.leg.dst, use := .wr } : OpUse)] else []) ++ vExpUse e ++ statsUse e
    takes := vTakes, status := xStatus, body := storeBody }

/-- STORE (R307). -/
def execStore (p : Fin 64) (ram : List SramErr) (s : State) : Host.Outcome State Fault Refusal :=
  execX p 1 ram opStore s

/-! ### ATOMIC_ADD (R119) -/

/-- The elements of source A in loop order. -/
def xElems (e : Env) : List SV :=
  if e.leg.a = FIFO then entryVals e.fifo
  else if e.leg.a = NONE then []
  else let a := e.desc e.leg.a; (List.range (rowsOf a)).flatMap fun r => (rowVals e.view a r).map (·.1)

/-- The entries of DST's elements, where source A is the FIFO. -/
def xTakes (e : Env) : Nat := if e.leg.a = FIFO then entriesFor (elemsOf (e.desc e.leg.dst)) else 0

/-- Elements in loop order cut into rows of DST. -/
def dstRows (d : Desc) (l : List SV) : List (List SV) := (List.range (rowsOf d)).map fun r => (l.drop (r * d.e0)).take d.e0

/-- ATOMIC_ADD's effect. -/
def atomicBody (e : Env) : Prog :=
  let d := e.desc e.leg.dst
  let rows := dstRows d (xElems e)
  .seq (forEach rows.zipIdx fun x => atomicAt e.p e.g e.idx e.adders (rgnOf e.s e.p d.region) (rowOff d x.2) x.1) (xFlags e d rows)

/-- ATOMIC_ADD as an operation of a leg. -/
def opAtomicAdd : LegOp :=
  { uses := fun e => vSrcUse e 0 ++ [{ idx := e.leg.dst, use := .at }], takes := xTakes, status := xStatus, body := atomicBody }

/-- ATOMIC_ADD (R119). -/
def execAtomicAdd (p : Fin 64) (ram : List SramErr) (s : State) : Host.Outcome State Fault Refusal :=
  execX p 2 ram opAtomicAdd s

/-! ### The GNS accumulators (R320) -/

/-- A sum of squares: finite up to 2^120 - 1, +INF or NaR. -/
def gnsCap (v : SV) : SV := match v with | .fin i => if 2 ^ 120 ≤ i then .pinf else .fin i | x => x

/-- An accumulator of the GNS page. -/
def gnsRead (s : State) (val kind : Fld) : SV :=
  match rd s .gns kind with
  | 0 => .fin ((List.range 4).foldl (fun a i => a + rd s .gns val i * 2 ^ (32 * i)) 0 : Nat)
  | 1 => .pinf
  | _ => .nan

/-- The code of a kind (register table of chapter 13). -/
def gnsKind : SV → Nat
  | .fin _ => 0
  | .nan => 2
  | _ => 1

/-- The magnitude of a GNS value, 0 where it is not finite. -/
def gnsMag : SV → Nat
  | .fin i => i.toNat
  | _ => 0

/-- An accumulator of the GNS page set. -/
def gnsWrite (val kind : Fld) (v : SV) : Prog :=
  .seq (wr .gns kind (gnsKind v)) (forEach (List.range 4) fun i => wr .gns val (gnsMag v / 2 ^ (32 * i)) i)

/-- A leg's sums of squares added to the accumulators (R320): the G sum, the S sum. A new ITERATION restarts both. -/
def gnsAdd (e : Env) (g sq : Option SV) : Prog :=
  .look fun s =>
    let i := e.run.iter
    let cur := rd s .gns Reg.GNS.ACC_ITER
    if g.isNone && sq.isNone then .skip
    else if i < cur then .seq (wr .gns Reg.GNS.GNS_CHECK_GNS_STALE 1) (raise Code.GNS_STALE 852 i noLeg 0 [])
    else
      let old := fun v k => if cur < i then SV.fin 0 else gnsRead s v k
      let one := fun v k (x : Option SV) => gnsWrite v k (match x with | some y => gnsCap (svAdd (old v k) y) | none => old v k)
      progs [wr .gns Reg.GNS.ACC_ITER i, one Reg.GNS.ACC_G Reg.GNS.ACC_KIND_G g, one Reg.GNS.ACC_S Reg.GNS.ACC_KIND_S sq]

/-- The squares of elements in rows of `n` under the rows' exponents, at NORM_EXP (R320). -/
def squares (ne : Int) (exps : List (Option Int)) (n : Nat) (l : List SV) : SV :=
  gnsCap (svSum (l.zipIdx.map fun x => match nth exps (x.2 / n) none with
    | none => SV.nan
    | some ex => match x.1 with
      | .fin c => .fin (rescale .odd (c * c) (2 * ex) ne)
      | .nan => .nan
      | _ => .pinf))

/-! ### REDUCE (R309 to R314) -/

/-- Fields of a REDUCE leg. -/
structure RedLeg where
  chEn : Bool
  ch : Nat
  k : Nat
  out : Nat
  drop : Bool
  all : Bool
  sqG : Bool
  sqS : Bool
  axis : Nat
  kself : Nat
  kd : Nat
  dch : Nat
  dpiste : Nat
  deriving DecidableEq, Repr

/-- The fields of a leg (R309). -/
def redOf (l : Leg) : RedLeg :=
  { chEn := bit l.p0 0, ch := bits l.p0 1 4, k := bits l.p0 5 6 + 1, out := bits l.p0 11 2, drop := bit l.p0 13, all := bit l.p0 14,
    sqG := bit l.p0 15, sqS := bit l.p0 16, axis := bits l.p0 17 2, kself := bits l.p1 0 6, kd := bits l.p1 6 6 + 1, dch := bits l.p1 12 4,
    dpiste := bits l.p1 16 6 }

/-- The size of a landing slot (R310). -/
def slotSize (d : Desc) : Nat := ceilDiv (footEnd d - d.offset) 4096 * 4096

/-- The descriptor of slot (i, k) (R310). -/
def slotDesc (d : Desc) (kn i k : Nat) : Desc := { d with offset := d.offset + (i % 3 * kn + k) * slotSize d }

/-- Whether two nodes differ on an axis alone, or for 3 in the pair bit alone (R310). -/
def differsOn (axis a b : Nat) : Bool :=
  let w := fun (x : Nat) i => if i = 3 then bits x 15 1 else bits x (5 * i) 5
  (List.range 4).all fun i => (w a i != w b i) == (i == axis)

/-- A leg rejected with XG_AXIS (R46, R305, R310). -/
def axisFault (e : Env) : Prog := .seq (wr (.gate e.p e.g) Reg.GATEX.CHECK_AXIS 1) (faultLeg e.p e.g e.idx Code.XG_AXIS 0 [w32 e.leg.dst])

/-- Channel `c` of a piste's X-gate. -/
def chanOf (s : State) (p c : Nat) : ChanSt := smGet (fun _ => ChanSt.free) s.units.chans (p * 16 + c)
/-- A change of a channel. -/
def modChan (p c : Nat) (f : ChanSt → ChanSt) : Prog :=
  modUnits fun u => { u with chans := smSet (fun _ => ChanSt.free) u.chans (p * 16 + c) (f (smGet (fun _ => ChanSt.free) u.chans (p * 16 + c))) }

/-- The contributor bits that have arrived for an iteration (R312). -/
def arrivedOf (c : ChanSt) (i : Nat) : Nat := if nth c.tags (i % 3) none = some i then nth c.marks (i % 3) 0 else 0

/-- PENDING of a channel. -/
def pendingOf (s : State) (p c : Nat) : Nat := rd s (.gate p 11) Reg.GATEX.PENDING_LO c + 2 ^ 32 * rd s (.gate p 11) Reg.GATEX.PENDING_HI c

/-- Whether the wait of a closing leg is satisfied (R313). -/
def closeReady (c : ChanSt) (x : RedLeg) (i : Nat) : Bool :=
  let got := (List.range x.k).filter (bit (arrivedOf c i))
  got.length == x.k || (!x.all && c.expired && !got.isEmpty)

/-- What holds or rejects a REDUCE at issue: the slots' bounds and the axis (R310), the order of iterations and the wait of the channel (R313), none of
these in a replay run (R319). -/
def reduceHold (e : Env) : Option Prog :=
  let x := redOf e.leg
  let d := e.desc e.leg.dst
  let b := e.desc e.leg.b
  let over_ := fun (t : Desc) n => decide (rgnBound e.p (rgnOf e.s e.p t.region) < t.offset + 3 * n * slotSize t)
  let pg := Page.gate e.p e.g
  let i := e.run.iter
  let c := chanOf e.s e.p x.ch
  if x.chEn && over_ b x.k then some (faultLeg e.p e.g e.idx Code.DESC_BOUNDS 0 [w32 e.leg.b])
  else if x.out == 2 && over_ d x.kd then some (faultLeg e.p e.g e.idx Code.DESC_BOUNDS 0 [w32 e.leg.dst])
  else if decide (2 ≤ x.out) && !differsOn x.axis (rgnNode (rgnOf e.s e.p d.region)) (ownNode e.s) then some (axisFault e)
  else if !x.chEn || e.run.replay then none
  else if rd e.s pg Reg.GATEX.CLOSED_VALID x.ch == 1 && i != (rd e.s pg Reg.GATEX.CLOSED x.ch + 1) % 2 ^ 32 then
    some (faultLeg e.p e.g e.idx Code.REDUCE_ORDER 0 [])
  else if closeReady c x i then none
  else some (progs [
    wr pg Reg.GATE.STATUS_STATE 1, wr pg Reg.GATE.STATUS_LEG e.idx,
    whenP (c.waiting != some e.run.id) (modChan e.p x.ch fun y => { y with waiting := some e.run.id, expired := false })])

/-- The slots added at a close: those arrived for i, and the pending ones under CARRY. -/
def closeSlots (e : Env) (x : RedLeg) : List (Nat × Nat) :=
  let i := e.run.iter
  let got := (List.range x.k).filter (bit (arrivedOf (chanOf e.s e.p x.ch) i))
  let closed := rd e.s (.gate e.p e.g) Reg.GATEX.CLOSED x.ch
  let pend := (List.range x.k).filter (bit (pendingOf e.s e.p x.ch))
  got.map (fun k => (i, k)) ++ if x.drop then [] else pend.map fun k => (closed, k)

/-- The channel after a close (R314). -/
def closeChannel (e : Env) (x : RedLeg) : Prog :=
  let pg := Page.gate e.p e.g
  let i := e.run.iter
  let c := chanOf e.s e.p x.ch
  let arr := arrivedOf c i
  let pend := pendingOf e.s e.p x.ch
  let used := ((List.range x.k).filter (bit arr)).length
  let late := listMask ((List.range x.k).filter fun k => !bit arr k)
  let pn := ((List.range x.k).filter (bit pend)).length
  let beyond := ((List.range 64).filter fun k => decide (x.k ≤ k) && bit arr k).length + ((List.range 64).filter fun k => decide (x.k ≤ k) && bit pend k).length
  progs [
    wr pg Reg.GATEX.CLOSED i x.ch, wr pg Reg.GATEX.CLOSED_VALID 1 x.ch,
    modChan e.p x.ch fun y =>
      { y with
        tags := if nth y.tags (i % 3) none = some i then modAt y.tags (i % 3) fun _ => none else y.tags
        marks := if nth y.tags (i % 3) none = some i then modAt y.marks (i % 3) fun _ => 0 else y.marks
        waiting := none
        expired := false },
    wr pg Reg.GATEX.PENDING_LO 0 x.ch, wr pg Reg.GATEX.PENDING_HI 0 x.ch,
    wr pg Reg.GATEX.USED used x.ch, wr pg Reg.GATEX.CARRIED (if x.drop then 0 else pn) x.ch, wr pg Reg.GATEX.DROPPED (if x.drop then pn else 0) x.ch,
    wr pg Reg.GATEX.LATE_MASK_LO (late % 2 ^ 32) x.ch, wr pg Reg.GATEX.LATE_MASK_HI (late / 2 ^ 32) x.ch,
    whenP (beyond != 0) (.seq (wr pg Reg.GATEX.CHECK_OVERRUN 1) (addSat pg Reg.GATEX.OVERRUN_COUNT beyond)),
    whenP (late != 0) (.seq (wr pg Reg.GATEX.CHECK_LATE 1)
      (raise Code.REDUCE_LATE e.island e.run.iter e.idx x.ch [w32 used, w64 late]))]

/-- Output bytes by address: of rows that lie over one another the later row's. -/
def outputBytes (rows : List (Nat × List Byte)) : SMap (Option Byte) :=
  rows.foldl (fun m y => y.2.zipIdx.foldl (fun m b => smSet (fun _ => none) m (y.1 + b.2) (some b.1)) m) []

/-- Bytes by rising address as runs that begin at multiples of 64 and hold every 64-byte block with a byte of them; a place between them is `none`. -/
def alignedRuns (m : SMap (Option Byte)) : List (Nat × List (Option Byte)) :=
  m.foldl (fun acc x => match acc.getLast? with
    | some (a, l) =>
      if x.1 < ceilDiv (a + l.length) 64 * 64 + 64 then acc.dropLast ++ [(a, l ++ List.replicate (x.1 - (a + l.length)) none ++ [x.2])]
      else acc ++ [(x.1 / 64 * 64, List.replicate (x.1 % 64) none ++ [x.2])]
    | none => [(x.1 / 64 * 64, List.replicate (x.1 % 64) none ++ [x.2])]) []

/-- Places without a byte filled in order. -/
def fillGaps : List (Option Byte) → List Byte → List Byte
  | [], _ => []
  | some b :: r, f => b :: fillGaps r f
  | none :: r, f => f.headD 0 :: fillGaps r f.tail

/-- PARTIALs of a leg and the arrival mark that follows them (R311): the output in address order, in messages that begin at multiples of 64. DESIGN CHOICE:
bytes that a message carries between rows that are not whole 64-byte blocks are free (log entry 118). -/
def sendPartials (e : Env) (x : RedLeg) (rows : List (List SV)) : Prog :=
  let d := slotDesc (e.desc e.leg.dst) x.kd e.run.iter x.kself
  let r := rgnOf e.s e.p d.region
  let addr := fun a => a % 2 ^ 40 + x.dch * 2 ^ 40 + x.dpiste * 2 ^ 44
  let mark := { mkMsg 2 0 (rgnNode r) 0 (addr (x.kself + e.run.iter % 2 ^ 32 * 2 ^ 6)) [] false with len := 0 }
  progs [
    forEach (alignedRuns (outputBytes (rows.zipIdx.map fun y => (rgnBase r + rowOff d y.2, lanesBytes y.1)))) fun x =>
      withFreeBytes (x.2.filter (·.isNone)).length fun f => forEach (cut 4096 x.1 (fillGaps x.2 f)) fun w =>
        request (mkMsg 2 0 (rgnNode r) 0 (addr w.1) w.2 false) (some e.p) e.g e.idx 2,
    modUnits fun u => { u with marksDue := u.marksDue ++ [{ piste := e.p, gate := e.g, leg := e.idx, msg := mark }] },
    sendMarks]

/-- FINAL_ADDs of a leg (R311). -/
def sendFinals (e : Env) (rows : List (List SV)) : Prog :=
  let d := e.desc e.leg.dst
  let r := rgnOf e.s e.p d.region
  forEach rows.zipIdx fun y => forEach (cut 4096 (rgnBase r + rowOff d y.2) (lanesBytes y.1)) fun w =>
    request (mkMsg 2 1 (rgnNode r) 0 (w.1 % 2 ^ 40) w.2 false) (some e.p) e.g e.idx 0

/-- What a residue mismatch of the X-gate's adders does (R331): it is counted, and a second one ends the run. -/
def xChecks (e : Env) (chk : HwCheck) : Prog :=
  match chk with
  | .pass => .skip
  | .transient _ => raise Code.ADDER_RECOMPUTE e.island e.run.iter e.idx 0 []
  | .persistent _ => .seq (raise Code.ADDER_RECOMPUTE e.island e.run.iter e.idx 0 []) (faultAndFence e Code.XG_RESIDUE 5 [])

/-- REDUCE's effect. DESIGN CHOICE: in a replay run a leg that would close a channel completes with no effect; the spec says that it completes without
sending, and its channel is closed already (R319; log entry 77). -/
def reduceXBody (chk : HwCheck) (e : Env) : Prog :=
  let x := redOf e.leg
  let d := e.desc e.leg.dst
  let own := if e.leg.a = NONE then List.replicate (elemsOf d) (SV.fin 0) else (xElems e).take (elemsOf d)
  let slot := fun (ik : Nat × Nat) =>
    let b := slotDesc (e.desc e.leg.b) x.k ik.1 ik.2
    (List.range (rowsOf b)).flatMap fun r => (rowVals e.view b r).map (·.1)
  let sum := if x.chEn then (closeSlots e x).foldl (fun acc ik => List.zipWith add32 acc (slot ik)) own else own
  let rows := dstRows d sum
  let exps := (List.range (rowsOf d)).map (vEa e)
  let ne := toSigned 16 (rd e.s .gns Reg.GNS.NORM_EXP)
  if e.run.replay && x.chEn then .skip
  else .seq (xChecks e chk) (unlessFailed e.p (progs [
    (match x.out with
     | 0 => forEach rows.zipIdx fun y => emitWords e 3 d y.2 (y.1.map (svCode 32))
     | 1 => forEach rows.zipIdx fun y => atomicAt e.p e.g e.idx e.adders (rgnOf e.s e.p d.region) (rowOff d y.2) y.1
     | 2 => whenP (!e.run.replay) (sendPartials e x rows)
     | _ => whenP (!e.run.replay) (sendFinals e rows)),
    whenP x.chEn (closeChannel e x),
    gnsAdd e (if x.sqG then some (squares ne exps d.e0 sum) else none)
      (if x.sqS then some (squares ne exps d.e0 (if e.leg.a = NONE then [] else own)) else none),
    xFlags e d rows]))

/-- Uses of a REDUCE leg. -/
def reduceUses (e : Env) : List OpUse :=
  let x := redOf e.leg
  vSrcUse e 0 ++ (if x.chEn then [({ idx := e.leg.b, use := .rd, locs := [0], whole := false, slots := 3 * x.k } : OpUse), { idx := e.leg.b, use := .wr, locs := [0] }] else []) ++
  [{ idx := e.leg.dst, use := if x.out % 2 = 0 then .wr else .at, locs := [if x.out < 2 then 0 else 3] }] ++ vExpUse e

/-- The slots a REDUCE reads (R314). -/
def slotSpans (e : Env) : List Span :=
  let x := redOf e.leg
  if x.chEn && !e.run.replay then (closeSlots e x).flatMap fun ik => (descPieces (slotDesc (e.desc e.leg.b) x.k ik.1 ik.2)).map (spanOf e.s e.p) else []

/-- REDUCE of the X-gate as an operation of a leg. -/
def opReduce (chk : HwCheck) : LegOp :=
  { uses := reduceUses, takes := xTakes, hold := reduceHold, reads := [slotSpans], status := xStatus, body := reduceXBody chk }

/-- REDUCE of the X-gate (R309). -/
def execReduce (p : Fin 64) (chk : HwCheck) (ram : List SramErr) (s : State) : Host.Outcome State Fault Refusal :=
  execX p 3 ram (opReduce chk) s

/-! ### NORM (R321, R322) -/

/-- An accumulator as 16 lanes. -/
def gnsLanes (v : SV) : List Nat :=
  ((List.range 15).map fun i => gnsMag v / 2 ^ (8 * i) % 256) ++ [match v with | .fin _ => 0 | .nan => 1 | _ => 65536]

/-- An accumulator from 16 lanes, the last its kind; a NaR, INF or negative lane, the kind's too, gives NaR (R321). -/
def lanesGns (l : List SV) : SV :=
  let kind := svCode 32 (nth l 15 (.fin 0))
  if (l.take 16).any (fun v => match v with | .fin i => decide (i < 0) | _ => true) || kind % 65536 != 0 then .nan
  else if kind != 0 then .pinf
  else gnsCap (.fin ((l.take 15).zipIdx.foldl (fun a v => match v.1 with | .fin i => a + i * (2 ^ (8 * v.2) : Nat) | _ => a) 0))

/-- The lanes of SRC_A. -/
def normLanes (e : Env) : List SV := (rowVals e.view (e.desc e.leg.a) 0).map (·.1)

/-- A NORM leg of a phase. -/
def normUses (phase : Nat) (e : Env) : List OpUse :=
  if phase = 0 then [{ idx := e.leg.dst, use := .wr }] else [{ idx := e.leg.a, use := .rd }]

/-- NORM in phase PACK (R321). -/
def packBody (e : Env) : Prog :=
  emitWords e 3 (e.desc e.leg.dst) 0
    (gnsLanes (gnsRead e.s Reg.GNS.ACC_G Reg.GNS.ACC_KIND_G) ++ gnsLanes (gnsRead e.s Reg.GNS.ACC_S Reg.GNS.ACC_KIND_S))

/-- Both accumulators and ACC_ITER set from the lanes (R321). -/
def unpackBody (e : Env) : Prog :=
  let l := normLanes e
  progs [
    gnsWrite Reg.GNS.ACC_G Reg.GNS.ACC_KIND_G (lanesGns (l.take 16)), gnsWrite Reg.GNS.ACC_S Reg.GNS.ACC_KIND_S (lanesGns (l.drop 16)),
    wr .gns Reg.GNS.ACC_ITER e.run.iter]

/-- The clip code (R322). -/
def clipCode (g : SV) (ne : Int) (m : Nat) (me : Int) : Nat :=
  let mi := toSigned 16 m
  match g with
  | .fin i =>
    if mi ≤ 0 ∨ i = 0 ∨ m = 0x7FFF then 16384
    else
      let k := rsqrtOf i ne
      let c := ({ m := mi * k.m, e := me + k.e } : Bin).at (-14)
      if 16384 ≤ c then 16384 else c.toNat
  | _ => 0x8000

/-- RETURN (R321, R322): UNPACK, the clip written to every scalar record of CLIP_MASK, and the result registers. -/
def returnBody (e : Env) : Prog :=
  .seq (unpackBody e) (.look fun s =>
    let g := gnsRead s Reg.GNS.ACC_G Reg.GNS.ACC_KIND_G
    let q := gnsRead s Reg.GNS.ACC_S Reg.GNS.ACC_KIND_S
    let c := clipCode g (toSigned 16 (rd s .gns Reg.GNS.NORM_EXP)) (rd s .gns Reg.GNS.MAX_NORM) (toSigned 16 (rd s .gns Reg.GNS.MAX_NORM_EXP))
    let mask := rd64 s .gns Reg.GNS.CLIP_MASK_LO Reg.GNS.CLIP_MASK_HI
    let off := 32 * rd s .gns Reg.GNS.CLIP_OFFSET
    progs [
      forEach (maskList 64 mask) fun p => whenP (decide (off + 8 ≤ scratchSize p)) (scratchWrite p (off + 4) (leBytes 2 c ++ leBytes 2 (ofSigned 16 (-14)))),
      wr .gns Reg.GNS.CLIP c, wr .gns Reg.GNS.RESULT_ITER e.run.iter,
      wr .gns Reg.GNS.RESULT_KIND (gnsKind g + 4 * gnsKind q),
      forEach (List.range 4) fun i => .seq (wr .gns Reg.GNS.SQ_G (gnsMag g / 2 ^ (32 * i)) i) (wr .gns Reg.GNS.SQ_S (gnsMag q / 2 ^ (32 * i)) i)])

/-- NORM in a phase, as an operation of a leg. -/
def opNormX (phase : Nat) (body : Env → Prog) : LegOp := { uses := normUses phase, status := xStatus, body := body }

/-- A NORM command of a phase: nothing where the gate's next leg is of another phase. -/
def execNormPhase (p : Fin 64) (phase : Nat) (ram : List SramErr) (body : Env → Prog) (s : State) : Host.Outcome State Fault Refusal :=
  done (.look fun t => match legReady t p 11 4 with
    | none => .skip
    | some e => whenP (bits e.leg.p0 0 2 == phase) (runLeg p 11 4 ram (opNormX phase body))) s

/-- NORM, phase PACK (R321). -/
def execNormPack (p : Fin 64) (ram : List SramErr) (s : State) : Host.Outcome State Fault Refusal := execNormPhase p 0 ram packBody s
/-- NORM, phase UNPACK (R321). -/
def execNormUnpack (p : Fin 64) (ram : List SramErr) (s : State) : Host.Outcome State Fault Refusal := execNormPhase p 1 ram unpackBody s
/-- NORM, phase RETURN (R322). -/
def execNormReturn (p : Fin 64) (ram : List SramErr) (s : State) : Host.Outcome State Fault Refusal := execNormPhase p 2 ram returnBody s

/-! ### Copies (R168, R170, R225, R305, R316, R317) -/

/-- `n` bytes copied from a place to a place, in class `cls` where it goes to a peer; poisoned words of the target travel alone (R225, R295). -/
def copyPiece (e : Env) (cls operand : Nat) (src : BitVec 128) (off : Nat) (dst : BitVec 128) (to_ n : Nat) : Prog :=
  let bytes := rgnBytes e.view src off n
  let bad := poisonOffs e.view src off n
  if bad.isEmpty then emitAs e cls operand dst to_ bytes false
  else
    let base := rgnBase dst
    forEach (cut 64 (base + to_) bytes) fun w =>
      let k := w.1 - base - to_
      emitAs e cls operand dst (w.1 - base) w.2 (bad.any fun i => decide (k ≤ i) && decide (i < k + w.2.length))

/-- The pieces of a copy from tensor `a` to tensor `d` of one shape: source and target region, offsets and length. -/
def copyPieces (a d : Desc) : List (Nat × Nat × Nat × Nat × Nat) :=
  let nb := ceilDiv a.e0 32
  ((List.range (rowsOf a)).flatMap fun r =>
    [(a.region, rowOff a r, d.region, rowOff d r, rowBytes a.fmt a.e0)] ++
    (if a.scaleMode = 1 then [(a.scaleRegion, a.scaleOffset + r * nb, d.scaleRegion, d.scaleOffset + r * nb, nb)] else []) ++
    (if a.outEn = 1 then [(a.outRegion, a.outOffset + 8 * r * nb, d.outRegion, d.outOffset + 8 * r * nb, 8 * nb)] else []))

/-- SRC_A copied byte for byte to DST, to a peer in class `cls`. -/
def copyTensor (e : Env) (cls : Nat) : Prog :=
  let d := e.desc e.leg.dst
  if e.leg.a = FIFO then
    let nb := ceilDiv d.e0 32
    let n := rowBytes d.fmt d.e0
    let k := if isBlock d.fmt then ceilDiv (blocksOf d) 128 else 0
    let sc := entryBytes (e.fifo.take k)
    let body := entryBytes (e.fifo.drop k)
    forEach (List.range (rowsOf d)) fun r => progs [
      emitAs e cls 3 (rgnOf e.s e.p d.region) (rowOff d r) (sliceBytes body (r * n) n) false,
      whenP (isBlock d.fmt) (emitAs e cls 3 (rgnOf e.s e.p d.scaleRegion) (d.scaleOffset + r * nb) (sliceBytes sc (r * nb) nb) false),
      whenP (d.outEn == 1) (emitAs e cls 3 (rgnOf e.s e.p d.outRegion) (d.outOffset + 8 * r * nb) (List.replicate (8 * nb) 0) false)]
  else forEach (copyPieces (e.desc e.leg.a) d) fun x =>
    copyPiece e cls 3 (rgnOf e.s e.p x.1) x.2.1 (rgnOf e.s e.p x.2.2.1) x.2.2.2.1 x.2.2.2.2

/-- The entries a copy takes from the upstream FIFO. -/
def copyTakes (e : Env) : Nat :=
  let d := e.desc e.leg.dst
  if e.leg.a = FIFO then (if isBlock d.fmt then ceilDiv (blocksOf d) 128 else 0) + ceilDiv (rowsOf d * rowBytes d.fmt d.e0) 128 else 0

/-- Uses of a copy whose DST lies at some locations. -/
def copyUses (locs : List Nat) (e : Env) : List OpUse := vSrcUse e 0 ++ [{ idx := e.leg.dst, use := .wr, locs := locs }]

/-- OFFLOAD as an operation of a leg. -/
def opOffload : LegOp :=
  { uses := copyUses [0, 1], takes := copyTakes, status := xStatus, body := fun e => copyTensor e 3 }

/-- OFFLOAD (R168). -/
def execOffload (p : Fin 64) (ram : List SramErr) (s : State) : Host.Outcome State Fault Refusal :=
  execX p 6 ram opOffload s

/-- KV_SEND as an operation of a leg. -/
def opKvSend : LegOp :=
  { uses := copyUses [3], takes := copyTakes, status := xStatus, body := fun e => whenP (!e.run.replay) (copyTensor e 1) }

/-- KV_SEND (R170): in class KV, and nothing sent in a replay run (R319). -/
def execKvSend (p : Fin 64) (ram : List SramErr) (s : State) : Host.Outcome State Fault Refusal :=
  execX p 7 ram opKvSend s

/-- STAGE_SEND as an operation of a leg. -/
def opStageSend : LegOp :=
  { uses := copyUses [3], takes := copyTakes
    hold := fun e => if differsOn 1 (rgnNode (rgnOf e.s e.p (e.desc e.leg.dst).region)) (ownNode e.s) then none else some (axisFault e)
    status := xStatus, body := fun e => whenP (!e.run.replay) (copyTensor e 3) }

/-- STAGE_SEND (R305): as KV_SEND in class BULK, to a module that differs in y alone. -/
def execStageSend (p : Fin 64) (ram : List SramErr) (s : State) : Host.Outcome State Fault Refusal :=
  execX p 8 ram opStageSend s

/-! ### GATHER_SHARD (R316, R317) -/

/-- The span of VERSION in a shard's header (R315) for the leg's first or second reading of it. -/
def versionSpan (e : Env) (second : Bool) : Span :=
  let h := e.desc e.leg.b
  let x := spanOf e.s e.p (h.region, h.offset, 4)
  if second then { x with space := 2 } else x

/-- VERSION as a reading of it gives it. -/
def versionOf (e : Env) (second : Bool) : Nat :=
  let x := versionSpan e second
  leNat (viewBytes e.view x.loc x.node x.space x.addr 4)

/-- The version record of a GATHER_SHARD (R316). -/
def versionRec (e : Env) : Desc := e.desc (e.leg.dst + 1)

/-- The version that the record holds. -/
def versionHeld (e : Env) : Nat := leNat (descBytes e.view (versionRec e) (rowOff (versionRec e) 0) 4).1

/-- Whether the copy begins: v1 even, and under BWD the version held (R317). -/
def shardFresh (e : Env) : Bool := versionOf e false % 2 == 0 && (!bit e.leg.p0 0 || versionOf e false == versionHeld e)

/-- The run ends with STALE_SHARD (R317). -/
def staleShard (e : Env) (v seen held : Nat) : Prog :=
  let pg := Page.gate e.p e.g
  progs [
    wr pg Reg.GATEX.CHECK_STALE 1, wr pg Reg.GATEX.STALE_LEG e.idx, wr pg Reg.GATEX.STALE_SEEN seen, wr pg Reg.GATEX.STALE_HELD held,
    addSat .gns Reg.GNS.STALE_COUNT 1, faultLeg e.p e.g e.idx Code.STALE_SHARD 0 [w32 v, w32 held]]

/-- The mirror tap (R317): the bytes of DST sent to the same offset of MIRROR_REGION, while the tap is open (R355). -/
def mirrorTap (e : Env) : Prog :=
  let m := rgnOf e.s e.p (bits e.leg.p0 8 8)
  .look fun s => whenP (tapOpen s)
    (forEach (copyPieces (e.desc e.leg.a) (e.desc e.leg.dst)) fun x => copyPiece e 6 7 (rgnOf e.s e.p x.1) x.2.1 m x.2.2.2.1 x.2.2.2.2)

/-- What rejects a GATHER_SHARD at issue: its mirror region. -/
def shardHold (e : Env) : Option Prog :=
  let m := rgnOf e.s e.p (bits e.leg.p0 8 8)
  let d := e.desc e.leg.dst
  let st :=
    if !bit e.leg.p0 1 then 0
    else if !rgnValid m then Code.DESC_REGION
    else if rgnLoc m != 3 || !rightsOk .wr m then Code.DESC_RIGHTS
    else if decide (rgnLen m < footEnd d) then Code.DESC_BOUNDS
    else 0
  if st = 0 then none else some (faultLeg e.p e.g e.idx st 0 [w32 e.leg.dst])

/-- GATHER_SHARD's effect (R317). -/
def gatherShardBody (e : Env) : Prog :=
  let v1 := versionOf e false
  let v2 := versionOf e true
  let held := versionHeld e
  if !shardFresh e then staleShard e v1 v1 held
  else progs [
    copyTensor e 3, whenP (bit e.leg.p0 1 && !e.run.replay) (mirrorTap e),
    unlessFailed e.p (
      if v2 ≠ v1 then staleShard e v1 v2 held
      else whenP (!bit e.leg.p0 0) (emitBytes e 7 (rgnOf e.s e.p (versionRec e).region) (rowOff (versionRec e) 0) (leBytes 4 v1 ++ leBytes 4 e.run.iter) false))]

/-- GATHER_SHARD as an operation of a leg: VERSION, then the shard, then VERSION again, each read before the next begins (R317). -/
def opGatherShard : LegOp :=
  { uses := fun e => [{ idx := e.leg.a, use := .rd, locs := [0, 3], whole := false }, { idx := e.leg.b, use := .rd, locs := [0, 3], whole := false },
      { idx := e.leg.dst, use := .wr, locs := [0] },
      { idx := e.leg.dst + 1, use := if bit e.leg.p0 0 then .rd else .wr, locs := [0, 2], whole := false }]
    hold := shardHold
    keeps := fun e => [versionSpan e false, spanOf e.s e.p ((versionRec e).region, rowOff (versionRec e) 0, 4)]
    reads := [fun e => versionSpan e false :: (if bit e.leg.p0 0 then [spanOf e.s e.p ((versionRec e).region, rowOff (versionRec e) 0, 4)] else []),
      fun e => if shardFresh e then descSpans e e.leg.a else [],
      fun e => if shardFresh e then [versionSpan e true] else []]
    status := xStatus, body := gatherShardBody }

/-- GATHER_SHARD (R316). -/
def execGatherShard (p : Fin 64) (ram : List SramErr) (s : State) : Host.Outcome State Fault Refusal :=
  execX p 5 ram opGatherShard s

end Sys2Proof.Machine
end

