-- ==== Sys2Proof/Machine/Mailbox.lean ====
section
/-! DEFINITION. Mailboxes (R269 to R275) and the attestation requests firmware serves through them (R408 to R411). -/

namespace Sys2Proof.Machine

open Sys2Proof

/-- The mailbox page. -/
def mb : Page := .mbx 0
/-- A channel's sender (R270). -/
def chanSender (s : State) (c : Nat) : Nat := rd s (.mbx 1) Reg.MBX1.BIND_SENDER c
/-- A channel's receiver (R270). -/
def chanReceiver (s : State) (c : Nat) : Nat := rd s (.mbx 1) Reg.MBX1.BIND_RECEIVER c
/-- Whether a channel is in use. -/
def chanValid (s : State) (c : Nat) : Bool := rd s (.mbx 1) Reg.MBX1.BIND_VALID c == 1
/-- A channel's lock owner, 0 for none. -/
def lockOwner (s : State) (c : Nat) : Nat := rd s mb Reg.MBX0.STATUS_OWNER c

/-- An access refused by a channel (R270, R272). -/
def refuse (c : Nat) : Prog := wr mb Reg.MBX0.STATUS_REFUSED 1 c

/-- A lock taken. -/
def takeLock (c owner : Nat) : Prog := .seq (wr mb Reg.MBX0.STATUS_LOCKED 1 c) (wr mb Reg.MBX0.STATUS_OWNER owner c)
/-- A lock released. -/
def dropLock (c : Nat) : Prog := .seq (wr mb Reg.MBX0.STATUS_LOCKED 0 c) (wr mb Reg.MBX0.STATUS_OWNER 0 c)

/-- A lock released without a write: REFUSED is set (R275). -/
def forceLock (c : Nat) : Prog :=
  .look fun s => whenP (rd s mb Reg.MBX0.STATUS_LOCKED c == 1) (.seq (dropLock c) (refuse c))

/-- The locks an identity owns released (R275). -/
def forceLocksOf (owner : Nat → Bool) : Prog :=
  .look fun s => forEach ((List.range 32).filter fun c => rd s mb Reg.MBX0.STATUS_LOCKED c == 1 && owner (lockOwner s c)) forceLock

/-- A read of LOCK (R271): the sender takes a free lock and reads 0, or reads the owner; any other identity reads 15. -/
def opLockRead (id : Ident) (c : Nat) : Prog :=
  .look fun s =>
    if !chanValid s c then .seq (respond id 0) (refuse c)
    else if identCode id = chanSender s c then
      (if rd s mb Reg.MBX0.STATUS_LOCKED c = 0 then .seq (takeLock c (identCode id)) (respond id 0) else respond id (lockOwner s c))
    else respond id 15

/-- A write of LOCK (R271): 0 from the owner releases it; any other write is ignored. -/
def opLockWrite (id : Ident) (c v : Nat) : Prog :=
  .look fun s =>
    if !chanValid s c then refuse c
    else whenP (rd s mb Reg.MBX0.STATUS_LOCKED c == 1 && lockOwner s c == identCode id && v % 16 == 0) (dropLock c)

/-- MBX_LOCK_RELEASE (R271). -/
def execMbxLockRelease (id : Ident) (c : Fin 32) (v : Word) (s : State) : Host.Outcome State Fault Refusal :=
  done (writeTo id mb Reg.MBX0.LOCK (opLockWrite id c v.toNat) c) s

/-- The wake event of a doorbell, by its receiver (R274): an event bit for HOST and DEBUG, SMB_ALERT_N for MGMT, a MAIL_WAKE message on port P for
PAIR, and an interrupt of the core for a CP identity, none of which the rules ever put in a low-power state (log entry 106). -/
def wakeReceiver (c : Nat) : Prog :=
  .look fun s =>
    let r := chanReceiver s c
    if r = 1 ∨ r = 8 then setEvent mb c
    else if r = 2 then .seq (modPorts fun p => { p with mgmtAlert := smSet flagDefault p.mgmtAlert c true }) driveAlert
    else if r = 3 then request (mkMsg 5 2 (putBits (ownNode s) 15 1 (1 - bits (ownNode s) 15 1)) 0 c [] false) none 0 noLeg 3
    else if 4 ≤ r ∧ r ≤ 7 then modFw fun f => { f with coreIrq := f.coreIrq ++ [(r - 4, c)] }
    else .skip

/-- A message of `len` words put in a channel (R272). -/
def ring (c len : Nat) : Prog :=
  progs [wr mb Reg.MBX0.STATUS_FULL 1 c, wr mb Reg.MBX0.STATUS_LEN len c, wakeReceiver c]

/-- A write of DOORBELL (R272): from the lock owner, with FULL 0 and LENGTH 1 to 8; else it is ignored and sets REFUSED. -/
def opDoorbell (id : Ident) (c v : Nat) : Prog :=
  .look fun s =>
    let len := bits v 0 4
    if chanValid s c && rd s mb Reg.MBX0.STATUS_LOCKED c == 1 && lockOwner s c == identCode id && rd s mb Reg.MBX0.STATUS_FULL c == 0 &&
        decide (1 ≤ len) && decide (len ≤ 8) then
      .seq (ring c len) (whenP (bit v 8) (dropLock c))
    else refuse c

/-- MBX_DOORBELL (R272). -/
def execMbxDoorbell (id : Ident) (c : Fin 32) (v : Word) (s : State) : Host.Outcome State Fault Refusal :=
  done (writeTo id mb Reg.MBX0.DOORBELL_LENGTH (opDoorbell id c v.toNat) c) s

/-- The BAR0 address of data word `j` of a channel. -/
def dataAddr (c j : Nat) : Nat := fldAddr mb Reg.MBX0.DATA0 c + 4 * j
/-- Data word `j` of a channel. -/
def dataWord (s : State) (c j : Nat) : Nat := (regWord s (dataAddr c j)).toNat

/-- A write of a data word: from the lock owner while FULL is 0 (R272); else it is refused. -/
def opDataWrite (id : Ident) (c j v : Nat) : Prog :=
  .look fun s =>
    if chanValid s c && rd s mb Reg.MBX0.STATUS_LOCKED c == 1 && lockOwner s c == identCode id && rd s mb Reg.MBX0.STATUS_FULL c == 0 then
      .prim (.reg (dataAddr c j) (BitVec.ofNat 32 v))
    else refuse c

/-- A message taken: FULL clears and EMPTY is set (R273). -/
def takeMail (c : Nat) : Prog := .seq (wr mb Reg.MBX0.STATUS_FULL 0 c) (wr mb Reg.MBX0.STATUS_EMPTY 1 c)

/-- An uncorrectable error in always-on SRAM (R332): counted and recorded. -/
def alwaysOnUe : Prog :=
  .seq countUe (raise Code.SRAM_UE 853 0 noLeg 0 [w32 (Config.storageCode 3).toNat])

/-- A read of a data word (R273): the receiver reads it while FULL is 1, and its read of the last word clears FULL; every other read returns 0. A
word found uncorrectable (`ecc`) reads as 0 (R332). -/
def opDataRead (id : Ident) (c j : Nat) (ecc : Bool) : Prog :=
  .look fun s =>
    if !chanValid s c then .seq (respond id 0) (refuse c)
    else if identCode id = chanReceiver s c ∧ rd s mb Reg.MBX0.STATUS_FULL c = 1 then
      .seq (.seq (respond id (if ecc then 0 else dataWord s c j)) (whenP ecc alwaysOnUe)) (whenP (rd s mb Reg.MBX0.STATUS_LEN c == j + 1) (takeMail c))
    else respond id 0

/-- A read of STATUS; MGMT's read ends the channel's hold on SMB_ALERT_N (R274). -/
def opStatusRead (id : Ident) (c : Nat) : Prog :=
  .look fun s => .seq (respond id (regWord s (fldAddr mb Reg.MBX0.STATUS_FULL c)).toNat)
    (whenP (id == .mgmt) (.seq (modPorts fun p => { p with mgmtAlert := smSet flagDefault p.mgmtAlert c false }) driveAlert))

/-- A write of STATUS clears REFUSED and EMPTY by W1C; a channel that is not VALID refuses it (R270). -/
def opStatusWrite (c v : Nat) : Prog :=
  .look fun s => if chanValid s c then plainWrite mb (0x108 + 64 * c) v else refuse c

/-- A read of DOORBELL: it holds nothing to read, and a channel that is not VALID refuses it (R270). -/
def opDoorbellRead (id : Ident) (c : Nat) : Prog :=
  .look fun s => .seq (respond id 0) (whenP (!chanValid s c) (refuse c))

/-- A CP identity's write of FORCE releases any lock of the channel (R275). -/
def opForce (id : Ident) (v : Nat) : Prog := whenP (isCp id) (forceLock (v % 32))

/-- MBX_FORCE (R275). -/
def execMbxForce (id : Ident) (v : Word) (s : State) : Host.Outcome State Fault Refusal :=
  done (writeTo id (.mbx 1) Reg.MBX1.FORCE (opForce id v.toNat)) s

/-- A write of a binding: ignored once locked, or naming a reserved identity, or one identity twice (R270). -/
def opBind (c v : Nat) : Prog :=
  .look fun s =>
    whenP (rd s (.mbx 1) Reg.MBX1.BIND_LOCK_LOCK == 0 && decide (bits v 0 4 ≤ 8) && decide (bits v 4 4 ≤ 8) && bits v 0 4 != bits v 4 4)
      (plainWrite (.mbx 1) (0x100 + 4 * c) v)

/-- BIND_WRITE (R270). -/
def execBindWrite (id : Ident) (c : Fin 32) (v : Word) (s : State) : Host.Outcome State Fault Refusal :=
  done (writeTo id (.mbx 1) Reg.MBX1.BIND_SENDER (opBind c v.toNat) c) s

/-! ### Attestation -/

/-- The request channel of a requester; its reply channel is the next (R410). -/
def reqChan : Requester → Nat
  | .host => 0 | .mgmt => 2

/-- The response window of a requester (R410). -/
def window : Requester → Page
  | .host => .sec 1 | .mgmt => .sec 2

/-- Bytes placed in a requester's window from 0x100. -/
def putWindow (q : Requester) (l : List Byte) : Prog :=
  let n := ceilDiv (min l.length 3840) 4
  forEach (List.range n) fun i => .prim (.reg (pageBase (window q) + 0x100 + 4 * i) (BitVec.ofNat 32 (leAt l (4 * i) 4)))

/-- The first `n` bytes of a requester's window. -/
def getWindow (s : State) (q : Requester) (n : Nat) : List Byte :=
  ((List.range (ceilDiv n 4)).flatMap fun i => leBytes 4 (regWord s (pageBase (window q) + 0x100 + 4 * i)).toNat).take n

/-- Firmware's reply: status and length in the reply channel (R410). -/
def reply (q : Requester) (status len : Nat) : Prog :=
  let c := reqChan q + 1
  progs [.prim (.reg (dataAddr c 0) (BitVec.ofNat 32 status)), .prim (.reg (dataAddr c 1) (BitVec.ofNat 32 len)), ring c 2]

/-- A refused request writes SEC_ATTEST (R410). -/
def refuseRequest (q : Requester) : Prog := .seq (raise Code.SEC_ATTEST 852 0 noLeg 0 []) (reply q 1 0)

/-- Firmware serves the request waiting in the requester's channel: of the code given by `body`, and a reserved code by refusal. A request that comes while
firmware is busy with another is answered with status 2, and one whose key operation fails as a refused one (log entry 104). Without firmware
ready, without a request of eight words, or with the last reply not taken, nothing happens. -/
def serve (q : Requester) (code : Nat) (how : Served) (keyOp : Bool) (body : Prog) : Prog :=
  .look fun s =>
    let c := reqChan q
    whenP (s.sec.phase == .ready && fwRuns s && rd s mb Reg.MBX0.STATUS_FULL c == 1 && rd s mb Reg.MBX0.STATUS_LEN c == 8 &&
        rd s mb Reg.MBX0.STATUS_FULL (c + 1) == 0)
      (let w := dataWord s c 0
       if w = code then .seq (takeMail c) (if how = .busy then reply q 2 0 else if how = .keyFails ∧ keyOp = true then refuseRequest q else body)
       else if w = 0 ∨ 6 ≤ w then .seq (takeMail c) (refuseRequest q)
       else .skip)

/-- The device identity key's seed (R409). -/
def identitySeed (s : State) : List Byte :=
  shake256 (s.fuses.deviceSecret ++ [0x54, 0x31, 0x32, 0x2D, 0x44, 0x49, 0x4B]) 48

/-- A public key of 1,793 bytes and a signature of 1,280 (R404). -/
def falconKey (seed : List Byte) : List Byte := padTo 1793 0 (Config.falconPublic seed)
/-- A signature of 1,280 bytes (R404). -/
def falconSig (seed msg : List Byte) : List Byte := padTo 1280 0 (Config.falconSign seed msg)

/-- The report (R411). -/
def reportBytes (s : State) (nonce : List Byte) : List Byte :=
  let body :=
    leBytes 4 0x54524154 ++ leBytes 4 1 ++ padTo 24 0 nonce ++ leBytes 8 s.fuses.serial ++ leBytes 2 (ownNode s) ++
    leBytes 1 (rd s (.mod 4) Reg.MOD4.PAIR_STATUS_ROLE) ++ leBytes 1 (rd s .rst Reg.RST.STRAP_CODE) ++
    leBytes 4 (rd s (.sec 0) Reg.SEC0.IMAGE_VERSION) ++ leBytes 1 s.fuses.rollback ++
    leBytes 1 ((regWord s (fldAddr (.sec 0) Reg.SEC0.FUSE_STATE_OWNER_EN 0)).toNat % 256) ++
    leBytes 1 (rd s (.sec 0) Reg.SEC0.DBG_STATUS_SCOPE) ++ List.replicate 13 0 ++ s.sec.meas.flatten
  body ++ falconSig s.sec.aliasSeed body

/-- REPORT: a signed report of the measurements with the request's nonce, words 2 to 7. -/
def progReport (q : Requester) (how : Served) : Prog :=
  serve q 1 how true (.look fun s =>
    let nonce := (List.range 6).flatMap fun j => leBytes 4 (dataWord s (reqChan q) (j + 2))
    .seq (putWindow q (reportBytes s nonce)) (reply q 0 1856))

/-- REPORT (R411). -/
def execReport (q : Requester) (s : State) (how : Served := .done) : Host.Outcome State Fault Refusal := done (progReport q how) s

/-- ALIAS_CERT: the alias public key and its identity-key signature. -/
def progAliasCert (q : Requester) (how : Served) : Prog :=
  serve q 2 how true (.look fun s =>
    let pub := falconKey s.sec.aliasSeed
    .seq (putWindow q (pub ++ falconSig (identitySeed s) pub)) (reply q 0 3073))

/-- ALIAS_CERT (R410). -/
def execAliasCert (q : Requester) (s : State) (how : Served := .done) : Host.Outcome State Fault Refusal := done (progAliasCert q how) s

/-- DEVICE_CERT: the certificate from flash (R403), as much of it as the window holds. -/
def progDeviceCert (q : Requester) (how : Served) : Prog :=
  serve q 3 how false (.look fun s => .seq (putWindow q (smList byteDefault s.mem.flash 0x02101000 3840)) (reply q 0 3840))

/-- DEVICE_CERT (R410). -/
def execDeviceCert (q : Requester) (s : State) (how : Served := .done) : Host.Outcome State Fault Refusal := done (progDeviceCert q how) s

/-- Measurement register `i` extended by data (R408). -/
def extendMeas (i : Nat) (d : List Byte) : Prog :=
  modSec fun x => { x with meas := modAt x.meas i fun m => shake256 (m ++ shake256 d 64) 64 }

/-- EXTEND: register 5, 6 or 7 by 64 bytes of the window; a choice of 3 names no register and is refused. -/
def progExtend (q : Requester) (how : Served) : Prog :=
  serve q 4 how false (.look fun s =>
    let r := dataWord s (reqChan q) 1 % 4
    if r = 3 then refuseRequest q else .seq (extendMeas (5 + r) (getWindow s q 64)) (reply q 0 0))

/-- EXTEND (R408). -/
def execExtend (q : Requester) (s : State) (how : Served := .done) : Host.Outcome State Fault Refusal := done (progExtend q how) s

/-- OWNER_KEY: blows the owner key hash once and sets OWNER_EN; a second request is refused. -/
def progOwnerKey (q : Requester) (how : Served) : Prog :=
  serve q 5 how true (.look fun s =>
    if s.fuses.ownerEn then refuseRequest q
    else progs [.prim (.ownerKey (getWindow s q 32)), wr (.sec 0) Reg.SEC0.FUSE_STATE_OWNER_EN 1, reply q 0 0])

/-- OWNER_KEY (R410). -/
def execOwnerKey (q : Requester) (s : State) (how : Served := .done) : Host.Outcome State Fault Refusal := done (progOwnerKey q how) s

end Sys2Proof.Machine
end

