-- ==== Sys2Proof/Machine/HostLink.lean ====
section
/-! DEFINITION. The CXL link of the host: training, loss, requests to the HDM window, snoops, decoder commits and translation invalidations (R275,
R364, R365, R368, R369). -/

namespace Sys2Proof.Machine

open Sys2Proof

/-- The link is down: recorded, and HOST's mailbox locks are released (R275, R365). -/
def hostLinkDown : Prog :=
  progs [
    wr .hif Reg.HIF.LINK_STATUS_UP 0, wr .hif Reg.HIF.LINK_STATUS_WIDTH 0, wr .hif Reg.HIF.LINK_STATUS_SPEED 0,
    wr .hif Reg.HIF.HIF_CHECK_LINK_DOWN 1, raise Code.CXL_LINK_DOWN 851 0 noLeg 0 [],
    forceLocksOf (· == 1)]

/-- Whether all 16 lanes train: bit n of `lanes` tells that lane n of the host trains with lane n of the module. A reversed lane does not train (R439). -/
def lanes16 (lanes : Nat) : Bool := bits lanes 0 16 == 65535

/-- Whether the lanes of the ×8 link train: lanes 0 to 7 (R439). -/
def lanes8 (lanes : Nat) : Bool := bits lanes 0 8 == 255

/-- The link trained on the lanes given at a speed (0 is 8 GT/s, 1 is 16, 2 is 32): ×16, ×8 on lanes 0 to 7, or down (R365, R439). -/
def hostLinkTrain (lanes speed : Nat) : Prog :=
  if !lanes8 lanes then hostLinkDown
  else progs [
    wr .hif Reg.HIF.LINK_STATUS_UP 1, wr .hif Reg.HIF.LINK_STATUS_WIDTH (if lanes16 lanes then 2 else 1), wr .hif Reg.HIF.LINK_STATUS_SPEED (min 2 speed),
    whenP (!lanes16 lanes) (.seq (wr .hif Reg.HIF.HIF_CHECK_DEGRADED 1) (raise Code.CXL_LINK_DEGRADED 851 0 noLeg 0 [])),
    whenP (decide (speed < 2)) (.seq (wr .hif Reg.HIF.HIF_CHECK_SLOW 1) (raise Code.CXL_LINK_SLOW 851 0 noLeg 0 []))]

/-- CXL_LINK_TRAIN (R365): a link that is down trains, from boot step 8 or while the ROM waits for a host image, then with CXL.io only (R402). -/
def execCxlLinkTrain (lanes speed : Nat) (s : State) : Host.Outcome State Fault Refusal :=
  done (whenP (s.pins.pwrOk && rd s .hif Reg.HIF.LINK_STATUS_UP == 0 &&
    (decide (8 ≤ rd s .rst Reg.RST.BOOT_STATUS_STEP) || s.sec.phase == .waitHost)) (hostLinkTrain lanes speed)) s

/-- Whether the link is up in full, with CXL.cache and CXL.mem: from boot step 8 on (R401, R402). -/
def cxlFull (s : State) : Bool := rd s .hif Reg.HIF.LINK_STATUS_UP == 1 && decide (8 ≤ rd s .rst Reg.RST.BOOT_STATUS_STEP)

/-- CXL_LINK_DOWN (R275). -/
def execCxlLinkDown (s : State) : Host.Outcome State Fault Refusal :=
  done (whenP (rd s .hif Reg.HIF.LINK_STATUS_UP == 1) hostLinkDown) s

/-- The HDM window: base and size in HBM (R368). -/
def hdmWindow (s : State) : Nat × Nat :=
  (rd64 s .hif Reg.HIF.HDM_HBM_BASE_LO Reg.HIF.HDM_HBM_BASE_HI, rd s .hif Reg.HIF.HDM_UNITS * 2 ^ 28)

/-- CXL_MEM_REQUEST at byte `off` of the decoded range: it goes to the DRAM and not to an open granule (R369). A write of a whole line replaces
poison; a read returns the line, marked poisoned where the word is. -/
def progCxlMemRequest (isWrite : Bool) (off : Nat) (data : List Byte) : Prog :=
  .look fun s =>
    let w := hdmWindow s
    let a := w.1 + off
    let st := stackOf s a
    whenP (cxlFull s && s.host.hdmCommit == 1 && decide (off < w.2) && decide (a < hbmBytes s) &&
        rd s (.stk st) Reg.STK.STK_STATUS_STATE == 1 && rd s (.stk st) Reg.STK.STK_STATUS_THERM != 3)
      (if isWrite then
        whenP (decide (a % 64 + data.length ≤ 64) && !data.isEmpty)
          (.seq (.prim (.bytes .hbm a data)) (whenP (data.length == 64) (.prim (.flag .hbmPoison (a / 64) false))))
      else
        let bad := smGet flagDefault s.mem.hbmPoison (a / 64)
        .seq (modHost fun h => { h with memData := smList byteDefault s.mem.hbm (a / 64 * 64) 64, memPoison := bad })
          (whenP bad (.seq (wr (.stk st) Reg.STK.ECC_STATUS_POISON_READ 1) (addSat (.stk st) Reg.STK.POISON_COUNT 1))))

/-- CXL_MEM_REQUEST (R369). -/
def execCxlMemRequest (isWrite : Bool) (off : Nat) (data : List Byte) (s : State) : Host.Outcome State Fault Refusal :=
  done (progCxlMemRequest isWrite off data) s

/-- H2D_SNOOP (R364): answered RspIHitI, since no line is kept. -/
def execH2dSnoop (addr : Nat) (s : State) : Host.Outcome State Fault Refusal :=
  done (whenP (cxlFull s) (modHost fun h => { h with snooped := h.snooped ++ [addr / 64 * 64] })) s

/-- A commit of the decoder (R368): one whose size, in units of 256 MB, is the window's commits it; any other fails with Commit Error. -/
def commitDecoder (units : Nat) : Prog :=
  .look fun s => whenP (cxlFull s) (modHost fun h => { h with hdmCommit := if units = rd s .hif Reg.HIF.HDM_UNITS then 1 else 2 })

/-- HDM_COMMIT (R368). -/
def execHdmCommit (units : Nat) (s : State) : Host.Outcome State Fault Refusal := done (commitDecoder units) s

/-- ATS_INVALIDATION (R364): the translations held for the pages are dropped and the request completes; what the host's translation answers for them
from then on is the host's (`refuse`). -/
def execAtsInvalidation (page count : Nat) (refuse : Bool) (s : State) : Host.Outcome State Fault Refusal :=
  done (whenP (rd s .hif Reg.HIF.LINK_STATUS_UP == 1) (forEach (List.range count) fun i =>
    .seq (.prim (.flag .atc (page + i) false)) (.prim (.flag .hostRefused (page + i) refuse)))) s

end Sys2Proof.Machine
end

