-- ==== Sys2Proof/Machine/GateM.lean ====
section
/-! DEFINITION. M-gate legs: MATMUL and MATMUL_INSPECT (R84 to R104, R199 to R217). -/

namespace Sys2Proof.Machine

open Sys2Proof

/-! ### Values -/

/-- A row of blocks. -/
abbrev BRow := List Block

/-- Block `b` of a row; past its end a zero block (R90). -/
def blkAt (r : BRow) (b : Nat) : Block := nth r b { vals := [], e := 0, zero := true, special := false, outliers := [] }

/-- The block value of an activation and a weight block aligned to the row's exponent (R91 steps 1 to 4, R69). -/
def blockValue (ea : Int) (a w : Block) : SV :=
  if a.zero || w.zero then .fin 0
  else svAlign (svSum (List.zipWith svMul (padTo 32 (.fin 0) a.vals) (padTo 32 (.fin 0) w.vals))) (a.e + w.e) ea

/-- The step tree (R91 step 5) over 4 or 8 aligned blocks. -/
def stepTree : List SV → SV
  | [a, b, c, d] => add32 (add32 a b) (add32 c d)
  | [a, b, c, d, e, f, g, h] => add32 (add32 (add32 a b) (add32 c d)) (add32 (add32 e f) (add32 g h))
  | l => l.foldl add32 (.fin 0)

/-- The value of an output (R91): steps of `bs` blocks add into the accumulator of a pass of `sp` steps, and passes add in order. -/
def outputValue (bs sp nb : Nat) (ea : Int) (a w : BRow) : SV :=
  let step := fun s => stepTree ((List.range bs).map fun i => blockValue ea (blkAt a (s * bs + i)) (blkAt w (s * bs + i)))
  let steps := List.range (ceilDiv nb bs)
  match (pieces sp steps).map (fun l => l.foldl (fun acc s => add32 acc (step s)) (.fin 0)) with
  | [] => .fin 0
  | p :: r => r.foldl add32 p

/-! ### A leg's operands -/

/-- A matrix leg with its operands read. -/
structure MatLeg where
  e : Env
  rows : Nat
  n : Nat
  t : Nat
  nb : Nat
  bs : Nat
  sp : Nat
  acts : List BRow
  weights : List (BRow × List Nat)
  exps : List (Option Int)
  final : Bool

/-- The tensor whose rows a leg has: SRC_A's, or DST's where SRC_A is the FIFO. -/
def matRowsDesc (e : Env) : Option Desc :=
  if named e.leg.a then some (e.desc e.leg.a) else if named e.leg.dst then some (e.desc e.leg.dst) else none

/-- The rows of a matrix leg. -/
def matRows (e : Env) : Nat := match matRowsDesc e with | some d => rowsOf d | none => elemsOf (e.desc e.leg.expd)

/-- The entries of one row tile of `r` rows and `nb` blocks from the upstream FIFO: E8 bytes, then codes (R203). -/
def tileEntries (w nb r : Nat) : Nat := ceilDiv (r * nb) 128 + ceilDiv (r * nb * 4 * w) 128

/-- The heights of the row tiles. -/
def tileHeights (rows t : Nat) : List Nat := (pieces t (List.range rows)).map List.length

/-- The entries a matrix leg takes. -/
def matTakes (e : Env) : Nat :=
  if e.leg.a = FIFO then
    ((tileHeights (matRows e) (matT e.leg)).map (tileEntries (actWidth e.leg) (ceilDiv (e.desc e.leg.b).e0 32))).foldl (· + ·) 0
  else 0

/-- The activation rows that entries hold, tile by tile (R203). -/
def fifoActs (w k nb : Nat) : List Nat → List (List Nat) → List BRow
  | [], _ => []
  | r :: hs, l =>
    let m := tileEntries w nb r
    let b := entryBytes (l.take m)
    let off := 128 * ceilDiv (r * nb) 128
    (List.range r).map (fun i => (List.range nb).map fun j =>
      let n := min 32 (k - 32 * j)
      let c := sliceBytes b (off + (i * nb + j) * 4 * w) (4 * w)
      decodeBlock w n (toSigned 8 (leAt b (i * nb + j) 1)) ((List.range n).map (codeAt w c)) none false []) ++ fifoActs w k nb hs (l.drop m)

/-- A matrix leg's operands (R86, R90, R92). -/
def matLeg (e : Env) : MatLeg :=
  let l := e.leg
  let wd := e.desc l.b
  let nb := ceilDiv wd.e0 32
  let rows := matRows e
  let deep := match modeOf l.opmode with | some m => m.2.2 | none => 4
  { e := e, rows := rows, n := wd.e1, t := matT l, nb := nb, bs := deep, sp := (bits l.p0 7 3 + 1) * 4 / deep
    acts := if named l.a then (List.range rows).map fun r => (rowBlocks e.view (e.desc l.a) r).map (·.1)
      else fifoActs (actWidth l) wd.e0 nb (tileHeights rows (matT l)) e.fifo
    weights := (List.range wd.e1).map fun n => let x := rowBlocks e.view wd n; (x.map (·.1), x.flatMap (·.2))
    exps := (List.range rows).map fun r => expAt e.view (e.desc l.expd) r
    final := bit l.p1 0 }

/-- The I32 results of a row (R91, R92), for the columns that `want` asks for; others are 0. -/
def matRow (m : MatLeg) (r : Nat) (want : Nat → Bool) : List SV :=
  match nth m.exps r none with
  | none => List.replicate m.n .nan
  | some ea => m.weights.zipIdx.map fun w => if want w.2 then outputValue m.bs m.sp m.nb ea (nth m.acts r []) w.1.1 else .fin 0

/-! ### Checks (R96, R97) -/

/-- Whether a K block is active in a row tile (R199). -/
def blockActive (rows : List BRow) (b : Nat) : Bool := rows.any fun r => !(blkAt r b).zero

/-- The compacted steps of a pass of dense blocks (R200): active blocks, `bs` a step. -/
def compactSteps (rows : List BRow) (bs : Nat) (blocks : List Nat) : List (List Nat) := pieces bs (blocks.filter (blockActive rows))

/-- The dense blocks of each pass. -/
def passBlocks (m : MatLeg) : List (List Nat) := pieces (m.bs * m.sp) (List.range m.nb)

/-- A cell's value as the checksum takes it (R96): 0 throughout zero and special blocks. -/
def cellInt (w : Block) (i : Nat) : Int :=
  if w.zero || w.special then 0 else match nth w.vals i (.fin 0) with | .fin v => v | _ => 0

/-- An array of a column group as it is loaded for a row tile: its columns in place order, as columns of the leg (R90, R212). -/
structure Place where
  rt : Nat
  grp : Nat
  arr : Nat
  cols : List Nat
  deriving DecidableEq, Repr

/-- The number of a place among those of the leg: row tile, column group, array. -/
def placeNo (ncg : Nat) (x : Place) : Nat := (x.rt * ncg + x.grp) * 4 + x.arr

/-- The columns of a block of 32 output columns. -/
def blockCols (m : MatLeg) (c : Nat) : List Nat := (List.range (min 32 (m.n - 32 * c))).map (32 * c + ·)

/-- The places of a row tile's column blocks: 32 to a group, 8 to an array. An array with no block loads nothing (R90, R212). -/
def placesOf (m : MatLeg) (rt : Nat) (blocks : List Nat) : List Place :=
  (pieces 32 blocks).zipIdx.flatMap fun g => (pieces 8 g.1).zipIdx.map fun a => { rt := rt, grp := g.2, arr := a.2, cols := a.1.flatMap (blockCols m) }

/-- The rows of each row tile. -/
def rowTiles (m : MatLeg) : List (List Nat) := pieces m.t (List.range m.rows)

/-- Every column block of a row tile. -/
def allBlocks (m : MatLeg) (_ : Nat) : List Nat := List.range (ceilDiv m.n 32)

/-- The places of a leg whose row tiles compute the column blocks given. -/
def placesFor (m : MatLeg) (blocks : Nat → List Nat) : List Place := (List.range (rowTiles m).length).flatMap fun rt => placesOf m rt (blocks rt)

/-- The tile of output (r, c): row tile, column group, array (R90). DESIGN CHOICE: every column group counts four arrays, also where the last one's
lie wholly beyond N (log entry 71). -/
def matTile (m : MatLeg) (r c : Nat) : Nat := (r / m.t * ceilDiv m.n 1024 + c / 1024) * 4 + c % 1024 / 256

/-- The tiles, in the uncompacted numbering (R214), of the columns of a place. -/
def placeTiles (m : MatLeg) (x : Place) : List Nat := distinct (x.cols.map fun c => matTile m (x.rt * m.t) c)

/-- The tile by which a failed compare of a place is kept: that of its first column (log entry 71). -/
def placeTile (m : MatLeg) (x : Place) : Nat := (placeTiles m x).headD 0

/-- The weights of a place. -/
def placeCols (m : MatLeg) (x : Place) : List BRow := x.cols.map fun c => (nth m.weights c ([], [])).1

/-- Whether a row's compare over a step is excluded (R96): a special-path block. -/
def rowExcluded (cols : List BRow) (a : BRow) (step : List Nat) : Bool :=
  step.any fun b => (blkAt a b).special || (!(blkAt a b).zero && cols.any fun w => (blkAt w b).special)

/-- Whether a row's two totals over a step differ modulo 2^24, with the checksum words of array `j` given (R96). -/
def rowDiffers (cols : List BRow) (cs : Nat → Nat) (a : BRow) (step : List Nat) : Bool :=
  let tot := step.foldl (fun acc b =>
    let x := blkAt a b
    if x.zero then acc
    else x.vals.zipIdx.foldl (fun acc v => match v.1 with
      | .fin i => acc + i * ((cols.foldl (fun c w => c + cellInt (blkAt w b) v.2) 0) - (cs (32 * b + v.2) : Int))
      | _ => acc) acc) (0 : Int)
  tot % (2 ^ 24 : Nat) != 0

/-- What the compares of a leg find over its places: the tiles and number of the row compares excluded at each place (R96), and the places whose
passes fail against the checksum vector, in order. -/
def compares (m : MatLeg) (cs : Option (Nat → Nat → Nat)) (l : List Place) : List (List Nat × Nat) × List Place :=
  let one := fun (x : Place) (pass : List Nat) =>
    let rows := (nth (rowTiles m) x.rt []).map fun r => nth m.acts r []
    let cols := placeCols m x
    let steps := compactSteps rows m.bs pass
    let ex := (steps.map fun st => (rows.filter fun a => rowExcluded cols a st).length).foldl (· + ·) 0
    let bad := match cs with
      | none => false
      | some f => steps.any fun st => rows.any fun a => !rowExcluded cols a st && rowDiffers cols (f (4 * x.grp + x.arr)) a st
    ((if ex = 0 then [] else placeTiles m x, ex), if bad then [x] else [])
  let all := l.flatMap fun x => (passBlocks m).map (one x)
  (all.map (·.1), all.flatMap (·.2))

/-- The row compares excluded. -/
def excludedIn (l : List (List Nat × Nat)) : Nat := (l.map (·.2)).foldl (· + ·) 0

/-- Free spares of an array of an M-gate: neither mapped nor substituting (R97). -/
def freeSpares (s : State) (p g a : Nat) : List Nat :=
  let used := (rd s (.gate p g) Reg.GATEM.SPARE_VALID).lor (rd s (.gate p g) Reg.GATEM.SPARE_TEMP)
  (List.range 4).filter fun j => !bit used (4 * a + j)

/-- Whether a column is carried by a spare, mapped or substituting (R98). -/
def spareCarries (s : State) (p g a col : Nat) : Bool :=
  (List.range 4).any (fun j =>
    bit (rd s (.gate p g) Reg.GATEM.SPARE_VALID) (4 * a + j) && bits (regWord s (fldAddr (.gate p g) Reg.GATEM.SPARE_MAP_COL0 a)).toNat (8 * j) 8 == col) ||
  (pisteOf s p).repairs.any fun x => x.gate == g && x.arr == a && x.col == col

/-- A failed compare counted (register table of chapter 04). -/
def mismatch (e : Env) (tile n : Nat) : Prog :=
  let pg := Page.gate e.p e.g
  progs [wr pg Reg.GATEM.CHECK_MISMATCH 1, addSat pg Reg.GATEM.MISMATCH_COUNT n, wr pg Reg.GATEM.MISMATCH_LEG e.idx, wr pg Reg.GATEM.MISMATCH_TILE tile]

/-- A compare that failed once (R97): a replay, recorded. -/
def replayed (e : Env) (tile : Nat) : Prog :=
  progs [mismatch e tile 1, addSat (.gate e.p e.g) Reg.GATEM.REPLAY_COUNT 1, raise Code.MG_REPLAY e.island e.run.iter e.idx 0 []]

/-- A compare that failed twice (R97): isolation in array `a`, which finds physical column `col` or none. DESIGN CHOICE: R97 says what follows where the
compare passes once the column's values are taken from its spare copy, and nothing of one that fails still: the pass commits (log entry 111). -/
def isolate (e : Env) (tile a : Nat) (col : Option Nat) : Prog :=
  .look fun s =>
    let pg := Page.gate e.p e.g
    .seq (.seq (mismatch e tile 2) (firstRung e)) (match freeSpares s e.p e.g a with
      | [] => .seq (wr pg Reg.GATEM.CHECK_NO_SPARE 1) (.seq (addSat pg Reg.GATEM.REPLAY_COUNT 1) (faultAndFence e Code.MG_NO_SPARE 1 []))
      | j :: r => progs [
          addSat pg Reg.GATEM.REPLAY_COUNT (1 + ceilDiv 256 (j :: r).length),
          wr pg Reg.GATEM.ISOLATE_ARRAY a, wr pg Reg.GATEM.ISOLATE_FOUND (ofBool col.isSome),
          match col with
          | none => progs [
              wr pg Reg.GATEM.CHECK_CHECKER 1, raise Code.MG_CHECKER e.island e.run.iter e.idx 0 [], fenceCause e.p 2]
          | some c => progs [
              wr pg Reg.GATEM.ISOLATE_COLUMN c,
              wr pg Reg.GATEM.SPARE_TEMP ((rd s pg Reg.GATEM.SPARE_TEMP).lor (2 ^ (4 * a + j))),
              modPiste e.p fun x => { x with repairs := x.repairs ++ [{ gate := e.g, arr := a, col := c, spare := j }] },
              raise Code.MG_SPARE_MAP e.island e.run.iter e.idx 0 []]])

/-- What the faults of the arrays do in a leg (R97, R214); an operand's number names a place among those loaded, and nothing happens in an array that
loads nothing. `bad` are the places whose compare fails by the checksum vector itself. DESIGN CHOICE: where a fault ends the run with MG_NO_SPARE,
no tile of the leg is written, those before the failing one included (log entry 72). -/
def matChecks (m : MatLeg) (chk : MgCheck) (ram : List SramErr) (l bad : List Place) : Prog :=
  let e := m.e
  let at_ := fun (t : Nat) (k : Place → Prog) => match l.find? fun x => placeNo (ceilDiv m.n 1024) x == t with | none => Prog.skip | some x => k x
  progs [
    forEach (planeTiles ram) fun t => at_ t fun x => replayed e (placeTile m x),
    forEach (planeAgain ram) fun t => at_ t fun x => unlessFailed e.p (progs [
      mismatch e (placeTile m x) 1, addSat (.gate e.p e.g) Reg.GATEM.REPLAY_COUNT 1, firstRung e, planeEnds e]),
    (match chk with
     | .pass => .skip
     | .transient t => at_ t fun x => replayed e (placeTile m x)
     | .column t c => at_ t fun x => .look fun s => whenP (!spareCarries s e.p e.g x.arr c) (isolate e (placeTile m x) x.arr (some c))
     | .checker t => at_ t fun x => isolate e (placeTile m x) x.arr none),
    forEach bad fun x => unlessFailed e.p (isolate e (placeTile m x) x.arr none)]

/-! ### Draws and the output stage -/

/-- Whether output column 1,024 cg + 256 a + l is computed and below N. -/
def drawn (m : MatLeg) (act : Nat → Nat → Bool) (rt cg a l : Nat) : Bool :=
  let c := 1024 * cg + 256 * a + l
  decide (c < m.n) && act rt (c / 32)

/-- Elements of lane `l` among the first `k` arrays of a row of a column group. -/
def laneGroup (m : MatLeg) (act : Nat → Nat → Bool) (rt cg l k : Nat) : Nat := ((List.range k).filter fun a => drawn m act rt cg a l).length

/-- Elements of lane `l` in one row. -/
def laneRow (m : MatLeg) (act : Nat → Nat → Bool) (rt l : Nat) : Nat :=
  ((List.range (ceilDiv m.n 1024)).map fun cg => laneGroup m act rt cg l 4).foldl (· + ·) 0

/-- Rows of row tile `rt`. -/
def tileRows (m : MatLeg) (rt : Nat) : Nat := min m.t (m.rows - rt * m.t)

/-- The place in its lane of output (r, c): row tiles, column groups, rows, arrays (R78, R90). -/
def matPlace (m : MatLeg) (act : Nat → Nat → Bool) (r c : Nat) : Nat :=
  let rt := r / m.t
  let cg := c / 1024
  let l := c % 256
  ((List.range rt).map fun i => tileRows m i * laneRow m act i l).foldl (· + ·) 0 +
  ((List.range cg).map fun i => tileRows m rt * laneGroup m act rt i l 4).foldl (· + ·) 0 +
  r % m.t * laneGroup m act rt cg l 4 + laneGroup m act rt cg l (c % 1024 / 256)

/-- Elements of lane `l` that a leg narrows. -/
def matLane (m : MatLeg) (act : Nat → Nat → Bool) (l : Nat) : Nat :=
  ((List.range (ceilDiv m.rows m.t)).map fun i => tileRows m i * laneRow m act i l).foldl (· + ·) 0

/-- Whether a destination takes a final narrowing that draws. -/
def drawsFor (d : Desc) : Bool := d.fmt != 4

/-- The rounding of output (r, c). -/
def matRnd (m : MatLeg) (act : Nat → Nat → Bool) (r c : Nat) : Rnd :=
  if act (r / m.t) (c / 32) then finalRnd m.e.s m.e.p m.e.g m.e.leg.round c (matPlace m act r c) else .nearest

/-- The output stage (R71 to R74, R81, R90, R106, R110): rows narrowed and written, or sent downstream. -/
def matOut (m : MatLeg) (ex : List (List Nat × Nat)) (act : Nat → Nat → Bool) (vals : List (List SV)) : Prog :=
  let e := m.e
  let l := e.leg
  let tiles := ceilDiv m.rows m.t * ceilDiv m.n 1024 * 4
  let word := (pisteOf e.s e.p).word
  let dst := e.desc l.dst
  let sent := fifoRows e (vals.zipIdx.map fun v => ((nth m.exps v.2 none).getD 0, v.1))
  let outs : List (Option RowOut × List SV) :=
    if l.dst = FIFO then sent.2.map fun v => (none, v)
    else vals.zipIdx.map fun v =>
      let (o, b) := narrowRow word dst (matRnd m act v.2) ((nth m.exps v.2 none).getD 0) v.1
      (some o, b)
  progs [
    if l.dst = FIFO then putDown e sent.1
    else forEach outs.zipIdx fun x => match x.1.1 with | some o => emitRow e 3 dst x.2 o | none => .skip,
    whenP (l.dst != FIFO && drawsFor dst) (advanceLanes e.island (matLane m act)),
    putStats e (vals.zipIdx.map fun v => (v.1, (nth m.exps v.2 none).isNone)),
    putFlags e.p e.g e.idx e.run.iter tiles (rowFlags (matTile m) (outs.map (·.2))) (ex.flatMap (·.1))]

/-- The steps that load weights at a place, pass by pass (R87, R90, R200). -/
def placeSteps (m : MatLeg) (x : Place) : List (List (List Nat)) :=
  let rows := (nth (rowTiles m) x.rt []).map fun r => nth m.acts r []
  (passBlocks m).map (compactSteps rows m.bs)

/-- The cells of an array for a step, by column, as codes (R89): outlier elements load as 0. `part` takes the slices of wide weights (R84). -/
def stepCells (m : MatLeg) (x : Place) (part : Int → Nat) (step : List Nat) : List (List Nat) :=
  (placeCols m x).map fun w => step.flatMap fun b => (List.range 32).map fun i =>
    if (blkAt w b).outliers.contains i then 0 else part (cellInt (blkAt w b) i)

/-- What array `a` is left with: in its planes the last weights loaded, the two slices of wide ones (R88), and in its accumulators the sums of its last
pass (R90, R91). -/
def leaveArray (m : MatLeg) (l : List Place) (a : Nat) : Prog :=
  let mine := l.filter (·.arr == a)
  match mine.getLast? with
  | none => .skip
  | some x =>
    let e := m.e
    let o := (ceilDiv m.nb (m.bs * m.sp) - 1) * (m.bs * m.sp)
    let last := ((placeSteps m x).flatten).getLast?.getD []
    .seq (if e.leg.opmode = 2 ∨ e.leg.opmode = 6 then
        .seq (putStore e (planeKey a false) (stepCells m x (fun v => (v % 16).toNat) last)) (putStore e (planeKey a true) (stepCells m x (fun v => ofSigned 4 (v / 16)) last))
      else loadPlanes e a (mine.flatMap fun y => (placeSteps m y).flatten.map (stepCells m y (ofSigned 8))))
    (putStore e (accKey a) ((nth (rowTiles m) x.rt []).map fun r => (placeCols m x).map fun w => svCode 32 (match nth m.exps r none with
      | none => .nan
      | some ea => outputValue m.bs m.sp (m.nb - o) ea ((nth m.acts r []).drop o) (w.drop o))))

/-- The partial-sum area, whose contents are not defined after the leg (R101): free bytes (log entry 4) at the columns the leg has, and none at or
beyond N (R99). DESIGN CHOICE: a leg's sums are those of its own operands, also where another leg's area overlaps its own, for which R100 defines no
sums (log entry 73). -/
def matFree (m : MatLeg) : Prog :=
  forEach (List.range (min m.t m.rows)) fun r => withFreeBytes (4 * min m.n 1024) fun l => scratchWrite m.e.p (m.e.leg.p2 + 4096 * r) l

/-- The inspection policy of a leg (R205). -/
def policyOf (e : Env) : Nat := bits (pisteOf e.s e.p).word 8 2

/-- Whether a leg is inspected: a MATMUL_INSPECT under a policy other than OFF (R205). -/
def inspected (e : Env) : Bool := e.leg.op == 2 && policyOf e != 0

/-- Whether the blocks that row tile `rt` computes are decided: of SRC_A = FIFO once the entries of its E8 bytes have come (R203), and for an inspected leg
those of its codes too. -/
def tileKnown (m : MatLeg) (rt : Nat) : Bool :=
  let hs := tileHeights m.rows m.t
  let need := fun r => tileEntries (actWidth m.e.leg) m.nb r
  let mine := nth hs rt 0
  named m.e.leg.a ||
    decide (((hs.take rt).map need).foldl (· + ·) 0 + (if inspected m.e then need mine else ceilDiv (mine * m.nb) 128) ≤ m.e.fifo.length)

/-- Whether the blocks of all row tiles are decided. -/
def tilesKnown (m : MatLeg) : Bool := (List.range (rowTiles m).length).all (tileKnown m)

/-- Whether the weights of block `b` of column `n` are read: the column is computed in a row tile where the block is known to be active (R200, R203,
R212). -/
def weightRead (m : MatLeg) (blocks : Nat → List Nat) (n b : Nat) : Bool :=
  (rowTiles m).zipIdx.any fun x => tileKnown m x.2 && (blocks x.2).contains (n / 32) && blockActive (x.1.map fun r => nth m.acts r []) b

/-- The first stored 2:4 code beyond the extents that a leg reads, as its element (R217). -/
def firstBeyond (m : MatLeg) (blocks : Nat → List Nat) : Option Nat :=
  m.weights.zipIdx.findSome? fun w => (w.1.2.find? fun i => weightRead m blocks w.2 (i / 32)).map fun i => i + (m.e.desc m.e.leg.b).e0 * w.2

/-- The record of R217, and the registers of the first one since cleared. -/
def beyond (m : MatLeg) (blocks : Nat → List Nat) : Prog :=
  match firstBeyond m blocks with
  | none => .skip
  | some el =>
    let e := m.e
    let pg := Page.gate e.p e.g
    .look fun s => .seq (whenP (rd s pg Reg.GATEM.SP_STATUS_IDX_RANGE == 0) (progs [
        wr pg Reg.GATEM.SP_STATUS_IDX_RANGE 1, wr pg Reg.GATEM.IDX_LEG e.idx, wr pg Reg.GATEM.IDX_ELEM_LO (el % 2 ^ 32), wr pg Reg.GATEM.IDX_ELEM_HI (el / 2 ^ 32)]))
      (raiseSev 2 Code.IDX_RANGE e.island e.run.iter e.idx 0 [w64 el] fun _ => .skip)

/-- Uses of a matrix leg. The sketch is read under an inspection policy alone (R205). -/
def matUses (inspect : Bool) (e : Env) : List OpUse :=
  let l := e.leg
  (if named l.a then [({ idx := l.a, use := .rd } : OpUse)] else []) ++ [{ idx := l.b, use := .rd, whole := false }] ++
  (if inspect then [({ idx := l.b + 1, use := .rd, whole := policyOf e != 0 } : OpUse)] else [{ idx := l.c, use := .rd }]) ++
  (if named l.dst then [({ idx := l.dst, use := .wr } : OpUse)] else []) ++ [{ idx := l.expd, use := .rd }] ++ statsUse e

/-- MG_STATUS of a leg. The arrays stand stopped once it is complete (R95). -/
def matStatus (e : Env) : Prog :=
  let pg := Page.gate e.p e.g
  progs [wr pg Reg.GATEM.MG_STATUS_OPMODE e.leg.opmode, wr pg Reg.GATEM.MG_STATUS_T_M1 (bits e.leg.p0 0 7), wr pg Reg.GATEM.MG_STATUS_KPASS (bits e.leg.p0 7 3),
    wr pg Reg.GATEM.MG_STATUS_RAMP 0]

/-- The end of a leg's partial-sum area (R99). -/
def matArea (e : Env) : Nat := e.leg.p2 + 4096 * matT e.leg

/-- The checksum words of a leg (R90): bits [23:0] of word (k, array). -/
def checkWords (e : Env) (j k : Nat) : Nat :=
  let d := e.desc e.leg.c
  leNat (descBytes e.view d (rowOff d j + 4 * k) 4).1 % 2 ^ 24

/-- Everything computed and written (R90). -/
def matDense (m : MatLeg) (ex : List (List Nat × Nat)) : Prog :=
  .seq (matOut m ex (fun _ _ => true) ((List.range m.rows).map fun r => matRow m r fun _ => true)) (beyond m (allBlocks m))

/-- The E8 codes, then the elements, of the weights a leg reads (R200, R204). -/
def weightStages (want : MatLeg → Nat → Nat → Bool) : List (Env → List Span) :=
  [fun e => scaleSpans e (e.desc e.leg.b) (want (matLeg e)), fun e => elemSpans e (e.desc e.leg.b) (want (matLeg e))]

/-- MATMUL's effect. A leg that ends with MG_NO_SPARE writes no tile (log entry 72), and its sums are those of its own operands alone (log entry 73). -/
def matBody (chk : MgCheck) (ram : List SramErr) (e : Env) : Prog :=
  let m := matLeg e
  let l := placesFor m (allBlocks m)
  let c := compares m (some (checkWords e)) l
  progs [
    matFree m,
    addSat (.gate e.p e.g) Reg.GATEM.EXCLUDED_COUNT (excludedIn c.1),
    forEach (List.range 4) (leaveArray m l),
    matChecks m chk ram l c.2,
    unlessFailed e.p (matDense m c.1)]

/-- MATMUL as an operation of a leg. -/
def opMatmul (chk : MgCheck) (ram : List SramErr) : LegOp :=
  { uses := matUses false, takes := matTakes, area := matArea, reads := weightStages fun m => weightRead m (allBlocks m), status := matStatus, body := matBody chk ram }

/-- MATMUL (R90). -/
def execMatmul (p : Fin 64) (m : Fin 5) (chk : MgCheck) (ram : List SramErr) (s : State) : Host.Outcome State Fault Refusal :=
  done (runLeg p (mGate m) 1 ram (opMatmul chk ram)) s

/-! ### Inspection -/

/-- The pooled values of an activation block (R209): eight, with their exponent; none for a block that pools to NaR. -/
def pooled (w : Nat) (b : Block) : Option (List Int × Int) :=
  if b.special then none
  else
    let x := b.vals.map fun v => match v with
      | .fin i => if w = 8 then (i - i % 16) / 16 else i
      | _ => 0
    some ((List.range 8).map (fun j => roundShift .odd ((List.range 4).foldl (fun a i => a + nth x (4 * j + i) 0) 0) 2), if w = 8 then b.e + 4 else b.e)

/-- The estimate of an output (R209). -/
def estimate (w : Nat) (nb : Nat) (ea : Option Int) (a sk : BRow) : SV :=
  match ea with
  | none => .nan
  | some x => (List.range nb).foldl (fun acc b =>
      let act := blkAt a b
      let s := blkAt sk (b / 4)
      let sv := (List.range 8).map fun j => nth s.vals (b % 4 * 8 + j) (.fin 0)
      if act.zero || s.zero then acc
      else match pooled w act with
        | none => .nan
        | some (v, pe) => add32 acc (svAlign (svSum (List.zipWith svMul (v.map SV.fin) sv)) (pe + s.e) x)) (.fin 0)

/-- Whether a value lies below the threshold under SIDE (R208, R210). -/
def belowTheta (l : Leg) (v : SV) : Bool := svLt (if bit l.p0 10 then svAbs v else v) (codeSV 16 (bits l.p1 16 16))

/-- The inactive column blocks of each row tile (R210), ascending. -/
def inactiveBlocks (m : MatLeg) : List (List Nat) :=
  let e := m.e
  let sk := (List.range m.n).map fun n => (rowBlocks e.view (e.desc (e.leg.b + 1)) n).map (·.1)
  (rowTiles m).map fun rows =>
    (List.range (ceilDiv m.n 32)).filter fun c =>
      rows.all fun r => (List.range (min 32 (m.n - 32 * c))).all fun i =>
        belowTheta e.leg (estimate (actWidth e.leg) m.nb (nth m.exps r none) (nth m.acts r []) (nth sk (32 * c + i) []))

/-- Blocks of the leg as (row tile, column block), inactive ones in the order of R211. -/
def inactiveList (l : List (List Nat)) : List (Nat × Nat) := l.zipIdx.flatMap fun x => x.1.map fun c => (x.2, c)

/-- The checked blocks (R211). -/
def checkedBlocks (iter : Nat) (l : List (Nat × Nat)) : List (Nat × Nat) := (l.zipIdx.filter fun x => (x.2 + iter) % 64 == 0).map (·.1)

/-- The tile of a column block. -/
def blockTile (m : MatLeg) (b : Nat × Nat) : Nat := matTile m (b.1 * m.t) (32 * b.2)

/-- Whether a checked block misses (R213): an exact output on the active side of the threshold. -/
def misses (m : MatLeg) (vals : List (List SV)) (b : Nat × Nat) : Bool :=
  (List.range (tileRows m b.1)).any fun i => ((List.range (min 32 (m.n - 32 * b.2))).any fun j =>
    !belowTheta m.e.leg (nth (nth vals (b.1 * m.t + i) []) (32 * b.2 + j) (.fin 0)))

/-- The run's misses of a gate (R215), kept for the record at run end: count, leg, tile and block of the first. -/
def noteMisses (m : MatLeg) (checked : Nat) (ms : List (Nat × Nat)) : Prog :=
  let e := m.e
  let pg := Page.gate e.p e.g
  .look fun s => progs [
    addSat pg Reg.GATEM.CHECKED_COUNT checked, addSat pg Reg.GATEM.MISS_COUNT ms.length,
    match ms with
    | [] => .skip
    | b :: _ => .seq (whenP (rd s pg Reg.GATEM.SP_STATUS_INSPECT_MISS == 0) (progs [
          wr pg Reg.GATEM.SP_STATUS_INSPECT_MISS 1, wr pg Reg.GATEM.MISS_LEG e.idx, wr pg Reg.GATEM.MISS_TILE (blockTile m b), wr pg Reg.GATEM.MISS_BLOCK (b.2 % 8)]))
        (modGate e.island fun x =>
          { x with
            misses := x.misses + ms.length
            firstMiss := match x.firstMiss with | some y => some y | none => some (e.idx, blockTile m b, b.2 % 8) })]

/-- The column blocks a row tile computes at first, in the order of R212: checked ones, active ones, and under RECOMPUTE further inactive ones that
fill the empty places of the first group of 32, those of tiles that hold a checked block first. -/
def firstBlocks (m : MatLeg) (policy : Nat) (checked : List (Nat × Nat)) (rt : Nat) (ina : List Nat) : List Nat :=
  let ck := ina.filter fun c => checked.contains (rt, c)
  let act := (List.range (ceilDiv m.n 32)).filter fun c => !ina.contains c
  let rest := ina.filter fun c => !ck.contains c
  let near := rest.filter fun c => ck.any fun d => d / 8 == c / 8
  let fill := if policy = 2 then (near ++ rest.filter fun c => !near.contains c).take (32 - (ck ++ act).length) else []
  if (ck ++ act).length < 32 then ck ++ act ++ fill else ck ++ act

/-- An inspection: the inactive blocks of each row tile, the blocks checked, and the blocks each row tile computes at first. -/
structure Inspect where
  ina : List (List Nat)
  checked : List (Nat × Nat)
  first : List (List Nat)

/-- What the sketch pass decides (R209 to R212). -/
def inspectPlan (m : MatLeg) (policy : Nat) : Inspect :=
  let ina := inactiveBlocks m
  let checked := checkedBlocks m.e.run.iter (inactiveList ina)
  { ina := ina, checked := checked, first := ina.zipIdx.map fun x => firstBlocks m policy checked x.2 x.1 }

/-- The checked blocks that miss (R213). -/
def missed (m : MatLeg) (x : Inspect) : List (Nat × Nat) :=
  x.checked.filter (misses m ((List.range m.rows).map fun r => matRow m r fun c => (nth x.first (r / m.t) []).contains (c / 32)))

/-- The column blocks of a row tile computed after the checks: under RECOMPUTE those of missed tiles not computed yet (R213). -/
def laterBlocks (m : MatLeg) (x : Inspect) (policy rt : Nat) : List Nat :=
  if policy = 2 then
    let tiles := (missed m x).map (blockTile m)
    (nth x.ina rt []).filter fun c => !(nth x.first rt []).contains c && tiles.contains (blockTile m (rt, c))
  else []

/-- All the column blocks a row tile computes, in the order in which they are placed (R212, R213). -/
def computedBlocks (m : MatLeg) (x : Inspect) (policy rt : Nat) : List Nat := nth x.first rt [] ++ laterBlocks m x policy rt

/-- The column blocks that an inspected leg computes by the plan, at first or in all; all blocks under OFF. -/
def inspectBlocks (later : Bool) (m : MatLeg) : Nat → List Nat :=
  let policy := policyOf m.e
  if policy = 0 then allBlocks m
  else let x := inspectPlan m policy; if later then computedBlocks m x policy else fun rt => nth x.first rt []

/-- MATMUL_INSPECT's effect under an inspection policy (R205, R210 to R215). -/
def inspectOn (m : MatLeg) (ex : List (List Nat × Nat)) (policy : Nat) : Prog :=
  let x := inspectPlan m policy
  let blocks := computedBlocks m x policy
  let exact := (List.range m.rows).map fun r => matRow m r fun c => (blocks (r / m.t)).contains (c / 32)
  let ms := missed m x
  let redo := if policy = 2 then ms.map (blockTile m) else []
  let act := fun rt c => !(nth x.ina rt []).contains c || redo.contains (blockTile m (rt, c))
  let vals := exact.zipIdx.map fun x => x.1.zipIdx.map fun v => if act (x.2 / m.t) (v.2 / 32) then v.1 else .fin 0
  progs [noteMisses m x.checked.length ms, matOut m ex act vals, beyond m blocks]

/-- MATMUL_INSPECT's effect: its columns in the groups they are placed in (R212), checked there (R214). -/
def inspectBody (chk : MgCheck) (ram : List SramErr) (e : Env) : Prog :=
  let m := matLeg e
  let policy := policyOf e
  let l := placesFor m (inspectBlocks true m)
  let ex := (compares m none l).1
  progs [
    matFree m,
    addSat (.gate e.p e.g) Reg.GATEM.EXCLUDED_COUNT (excludedIn ex),
    forEach (List.range 4) (leaveArray m l),
    matChecks m chk ram l [],
    unlessFailed e.p (if policy = 0 then matDense m ex else inspectOn m ex policy)]

/-- The weights that an inspected leg reads at first, and those it reads after its checks: no block is read twice (R212, R213). -/
def inspectReads (later : Bool) (m : MatLeg) (n b : Nat) : Bool :=
  let first := weightRead m (inspectBlocks false m) n b
  if later then weightRead m (inspectBlocks true m) n b && !first else first

/-- MATMUL_INSPECT as an operation of a leg. -/
def opMatmulInspect (chk : MgCheck) (ram : List SramErr) : LegOp :=
  { uses := matUses true, takes := matTakes, area := matArea, reads := weightStages (inspectReads false) ++ weightStages (inspectReads true)
    status := matStatus, body := inspectBody chk ram }

/-- MATMUL_INSPECT (R208). -/
def execMatmulInspect (p : Fin 64) (m : Fin 5) (chk : MgCheck) (ram : List SramErr) (s : State) : Host.Outcome State Fault Refusal :=
  done (runLeg p (mGate m) 2 ram (opMatmulInspect chk ram)) s

end Sys2Proof.Machine
end

