-- ==== Sys2Proof/Machine/GateA.lean ====
section
/-! DEFINITION. A-gate legs: attention over dense and paged keys, its backward pass, KV_APPEND, rotary codes (R111 to R117, R146 to R167). -/

namespace Sys2Proof.Machine

open Sys2Proof

/-! ### Rotary position codes (R155 to R157) -/

/-- The rotary table of an A-gate. -/
def ropeOf (s : State) (island : Nat) : RopeTable := smGet (fun _ => RopeTable.none) s.units.rope island

/-- A sum of two products in I32 under exponent -28, brought back to -14 (R156). -/
def rotSum (a b c d : SV) : SV :=
  match add32 (svI32 (svMul a b)) (svI32 (svMul c d)) with
  | .fin i => .fin (roundShift .odd i 14)
  | x => x

/-- The composed rotation of frequency `f` at position `p` (R156); `neg` uses -s_k. -/
def rotation (t : RopeTable) (f p : Nat) (neg : Bool) : SV × SV :=
  (List.range 24).foldl (fun (cs : SV × SV) k =>
    if bit p k then
      let ck := SV.fin (nth t.data (48 * f + 2 * k) 0)
      let sk := nth t.data (48 * f + 2 * k + 1) 0
      let sk := SV.fin (if neg then -sk else sk)
      (rotSum cs.1 ck (svNeg cs.2) sk, rotSum cs.2 ck cs.1 sk)
    else cs) (.fin 16384, .fin 0)

/-- The element paired with element `i` of a head of `d` elements, its frequency, and whether `i` is the pair's first (R151). -/
def pairOfElem (halves : Bool) (d i : Nat) : Nat × Nat × Bool :=
  if halves then (if i < d / 2 then (i + d / 2, i, true) else (i - d / 2, i - d / 2, false))
  else if i % 2 = 0 then (i + 1, i / 2, true) else (i - 1, i / 2, false)

/-- Values with exponents brought to their smallest exponent, exactly; that exponent comes with them. -/
def common (l : List (SV × Int)) : List SV × Int :=
  let e := l.foldl (fun m x => match x.1 with | .fin i => if i = 0 then m else min m x.2 | _ => m) 1000
  let e := if e = 1000 then 0 else e
  (l.map fun x => match x.1 with | .fin i => .fin (if i = 0 then 0 else rescale .odd i x.2 e) | y => y, e)

/-- A row of heads of `d` elements rotated at a position: exact values under the exponent that comes with them (R156). -/
def rotateRow (t : RopeTable) (halves neg : Bool) (d p : Nat) (l : List (SV × Int)) : List SV × Int :=
  let (v, e) := common l
  let rot := (List.range (d / 2)).map fun f => rotation t f p neg
  let at_ := fun i => nth v i (.fin 0)
  ((List.range v.length).map fun i =>
      let h := i / d * d
      let (j, f, first) := pairOfElem halves d (i - h)
      let (c, s) := nth rot f (.fin 16384, .fin 0)
      if first then svAdd (svMul (at_ i) c) (svNeg (svMul (at_ (h + j)) s))
      else svAdd (svMul (at_ (h + j)) s) (svMul (at_ i) c), e - 14)

/-- A rotated row narrowed back to I8 blocks (R156): TIGHT, no outliers, rounding to odd. -/
def rotatedBlocks (t : RopeTable) (halves neg : Bool) (d p : Nat) (l : List (SV × Int)) : BRow :=
  let (v, e) := rotateRow t halves neg d p l
  (pieces 32 v).map fun x =>
    let b := narrowBlock 8 e false false (fun _ => .odd) (padTo 32 (.fin 0) x)
    decodeBlock 8 x.length b.e8 b.codes none false []

/-- The values of blocks with their exponents. -/
def blockVals (r : BRow) : List (SV × Int) := r.flatMap fun b => b.vals.map fun v => (v, b.e)

/-- Whether a rotation of heads of `d` elements is possible (R155). -/
def ropeReady (s : State) (island d : Nat) : Bool := let t := ropeOf s island; t.pairs != 0 && decide (d / 2 ≤ t.pairs)

/-- The ATT_ROPE fault (R155). -/
def ropeFault (e : Env) : Prog := .seq (wr (.gate e.p e.g) Reg.GATEA.CHECK_ATT_ROPE 1) (faultLeg e.p e.g e.idx Code.ATT_ROPE 0 [])

/-! ### Online softmax (R111 to R116) -/

/-- The state of a query row: M (none before any finite score), NaR, the mantissas of ℓ and O, the rise D, whether it passed the budget (in
this leg: `rose`), and the flags and count of R154. -/
structure RowState where
  m : Option Int
  nan : Bool
  l : SV
  o : List SV
  d : Nat
  rises : Bool
  rose : Bool
  masked : Bool
  keyNarrow : Bool
  valNarrow : Bool
  range : Bool
  keys : Nat

/-- A row at its start. -/
def RowState.start (d : Nat) : RowState :=
  { m := none, nan := false, l := .fin 0, o := List.replicate d (.fin 0), d := 0, rises := false, rose := false, masked := true, keyNarrow := false,
    valNarrow := false, range := false, keys := 0 }

/-- A row turned NaR; it is not MASKED, whose O and ℓ are 0 (R116). -/
def RowState.toNan (r : RowState) : RowState := { r with nan := true, masked := false, l := .nan, o := r.o.map fun _ => .nan }

/-- A block of up to 128 key positions: per position its place, its key and value blocks; whether its keys or values are narrower than declared;
whether it reads as NaR for want of a slot. -/
structure KeyBlock where
  pos : List Nat
  keys : List BRow
  vals : List BRow
  keyNarrow : Bool
  valNarrow : Bool
  range : Bool

/-- The P code of a score under M' (R112 step 5): I8 under exponent -6, rounding to odd, at most 64, and at least 32 for a score above M' - 1. -/
def pCode (se m : Int) (s : Int) : Int :=
  let d : Int := if se < 0 then m * (2 ^ (-se).toNat : Nat) else m
  let v := if se < 0 then s - d else s * (2 ^ se.toNat : Nat) - d
  let c := min 64 ((exp2 v (min se 0)).at (-6))
  if ceilAt s se = m then max 32 c else c

/-- The largest value E8 of element block `j` among the positions of a step (R147), of blocks that have a scale: not zero, invalid or special. -/
def stepTop (vals : List BRow) (j : Nat) : Int :=
  vals.foldl (fun a r => let b := blkAt r j; if b.zero || b.e == 127 || b.e == -128 then a else max a b.e) (-127)

/-- The P·V contribution of element `i` (R147): each product brought to the step's exponent for the column block, then summed exactly. -/
def pvElem (ps : List (Option Int)) (vals : List BRow) (i : Nat) : SV × Int :=
  let t := stepTop vals (i / 32)
  (svSum (List.zipWith (fun (p : Option Int) r => match p with
    | none => SV.fin 0
    | some c =>
      let b := blkAt r (i / 32)
      if b.zero then .fin 0
      else match svMul (.fin c) (nth b.vals (i % 32) (.fin 0)) with
        | .fin x => .fin (rescale .odd x b.e t)
        | y => y) ps vals), t)

/-- The exponents of a leg's row: e_O0 and e_ℓ0 - e_O0, the score exponent, the rise budget. -/
structure RowExp where
  eo : Int
  ld : Int
  se : Int
  budget : Nat

/-- One key block taken into a row (R112, R113, R114): `masked i` masks position i of the block. -/
def takeBlock (x : RowExp) (q : BRow) (masked : Nat → Bool) (k : KeyBlock) (r : RowState) : RowState :=
  let n := k.pos.length
  let open_ := (List.range n).filter fun i => !masked i
  let r := if open_.isEmpty then r else
    { r with keyNarrow := r.keyNarrow || k.keyNarrow, valNarrow := r.valNarrow || k.valNarrow }
  let score := fun i => outputValue 4 (q.length + 1) q.length x.se q (nth k.keys i [])
  let ss : List (Option SV) := (List.range n).map fun i =>
    if masked i then none else let v := score i; if v = .ninf then none else some v
  let live := ss.filterMap id
  let r := { r with keys := min (2 ^ 24) (r.keys + live.length) }
  if live.isEmpty || r.nan then r
  else match svMaxOf live with
    | .fin mb =>
      let c := ceilAt mb x.se
      let m' := match r.m with | none => c | some m => max m c
      let d : Nat := match r.m with | none => r.d | some m => r.d + (m' - m).toNat
      let r := { r with m := some m', d := d, masked := false, rises := r.rises || decide (x.budget < d), rose := r.rose || decide (x.budget < d) }
      if x.eo - d < -384 ∨ x.eo + x.ld - d < -384 then r.toNan
      else
        let ps : List (Option Int) := ss.map fun s => s.map fun v => match v with | .fin i => pCode x.se m' i | _ => 0
        let lsum := ps.foldl (fun a p => a + p.getD 0) (0 : Int)
        { r with
          l := add32 r.l (svAlign (.fin lsum) (-6) (x.eo + x.ld - d))
          o := r.o.zipIdx.map fun (o : SV × Nat) => let (v, t) := pvElem ps k.vals o.2; add32 o.1 (svAlign v (t - 6) (x.eo - d)) }
    | _ => { r.toNan with masked := false }

/-- The state record of a row and its row result (R115, R154). -/
def stateWords (r : RowState) : List Nat :=
  [svCode 32 (if r.nan then .nan else match r.m with | none => .ninf | some m => svI32 (.fin m)), svCode 32 r.l, min r.d 2147483646,
   ofBool r.rises + 2 * ofBool r.masked, ofBool r.keyNarrow + 2 * ofBool r.valNarrow + 4 * ofBool r.range, min r.keys (2 ^ 24), 0, 0]

/-- A row's starting state read from its record and O (R154). -/
def startState (w : List Nat) (o : List SV) : RowState :=
  let m := codeSV 32 (nth w 0 0)
  let r : RowState :=
    { m := match m with | .fin i => some i | _ => none, nan := false, l := codeSV 32 (nth w 1 0), o := o, d := nth w 2 0, rises := bit (nth w 3 0) 0, rose := false,
      masked := bit (nth w 3 0) 1, keyNarrow := bit (nth w 4 0) 0, valNarrow := bit (nth w 4 0) 1, range := bit (nth w 4 0) 2,
      keys := bits (nth w 5 0) 0 25 }
  if m = .nan ∨ m = .pinf then r.toNan else r

/-! ### Operands of attention legs -/

/-- The use of a tensor by an A-gate, with its positions judged (R158). -/
def aUse (i : Nat) (u : Use) : OpUse := { idx := i, use := u, pos := true }

/-- The row's exponents (R127, R151); none where its EXP_DESC code is out of range. -/
def rowExp (e : Env) (r : Nat) : Option RowExp :=
  (expAt e.view (e.desc e.leg.expd) r).map fun x =>
    { eo := x, ld := toSigned 16 (bits e.leg.p1 16 16), se := toSigned 7 (bits e.leg.p1 1 7), budget := bits e.leg.p0 17 6 }

/-- The blocks of a query or key row, rotated where asked (R157). -/
def aRow (e : Env) (rotate : Bool) (d : Desc) (pos r : Nat) : BRow :=
  let b := (rowBlocks e.view d r).map (·.1)
  if rotate then rotatedBlocks (ropeOf e.s e.island) (bit e.leg.p0 12) false d.e0 pos (blockVals b) else b

/-- The rows of a tensor in one batch and KV head, as a first row and a count: `g` query heads of each KV head. -/
def groupRows (q : Desc) (g : Nat) : List (Nat × Nat) :=
  let n := q.e1 * g
  (List.range (rowsOf q / n)).map fun k => (k * n, n)

/-- The query tiles of a leg, as lists of rows. -/
def queryTiles (t : Nat) (gs : List (Nat × Nat)) : List (List Nat) := gs.flatMap fun x => pieces t ((List.range x.2).map (x.1 + ·))

/-- The tile of each row of a leg. -/
def tileOfRow (tiles : List (List Nat)) (r : Nat) : Nat := tiles.findIdx fun l => l.contains r

/-- The key blocks of a dense leg for a batch and KV head (R152): 128 positions each. -/
def denseBlocks (e : Env) (rotK : Bool) (k v : Desc) (grp : Nat) : List KeyBlock :=
  (pieces 128 (List.range k.e1)).map fun l =>
    { pos := l.map (k.posBase + ·)
      keys := l.map fun i => aRow e rotK k (k.posBase + i) (grp * k.e1 + i)
      vals := l.map fun i => (rowBlocks e.view v (grp * k.e1 + i)).map (·.1)
      keyNarrow := k.fmt == 0x11 && bits e.leg.p0 13 2 == 1, valNarrow := v.fmt == 0x11 && bits e.leg.p0 15 2 == 1, range := false }

/-- The slices of 128 dimensions of a row of blocks. -/
def slices (n : Nat) : List (List Nat) := (List.range (ceilDiv n 4)).map fun s => (List.range 4).map (4 * s + ·)

/-- Whether two blocks form products one of which has a special value: a zero block forms none (R69). -/
def meetsSpecial (a b : Block) : Bool := !a.zero && !b.zero && (a.special || b.special)

/-- Compares of a row with rows of positions that are excluded for special values, one for each slice of dimensions (R96, R149); positions that are
masked form no product (R147), nor do zero blocks (R69). -/
def sliceExcluded (q : BRow) (live : List BRow) : Nat :=
  ((slices q.length).filter fun s => s.any fun b => live.any fun r => meetsSpecial (blkAt q b) (blkAt r b)).length

/-- The rows of positions that are not masked in key blocks. -/
def liveRows (rows : KeyBlock → List BRow) (masked : KeyBlock → Nat → Bool) (ks : List KeyBlock) : List BRow :=
  ks.flatMap fun k => ((rows k).zipIdx.filter fun x => !masked k x.2).map (·.1)

/-- Whether position `i` of a block is masked, or its score is −INF and counts as masked (R112). -/
def noScore (se : Int) (q : BRow) (masked : KeyBlock → Nat → Bool) (k : KeyBlock) (i : Nat) : Bool :=
  masked k i || outputValue 4 (q.length + 1) q.length se q (nth k.keys i []) == .ninf

/-- Row compares excluded in a query row's key tiles (R149): of the score array one for each slice and tile of 256 positions, of the P·V array one
for each step of 128, where a product has a special value. -/
def attnExcluded (se : Int) (q : BRow) (masked : KeyBlock → Nat → Bool) (ks : List KeyBlock) : Nat :=
  ((pieces 2 ks).map fun t =>
    sliceExcluded q (liveRows (·.keys) masked t) +
    (t.filter fun k => (liveRows (·.vals) (noScore se q masked) [k]).any fun r => r.any fun b => !b.zero && b.special).length).foldl (· + ·) 0

/-- What faults of the arrays do in a leg (R149): a replay, recorded; or a second failure, which ends the run and fences the piste. -/
def attnChecks (e : Env) (chk : HwCheck) (ram : List SramErr) : Prog :=
  let pg := Page.gate e.p e.g
  let once := progs [wr pg Reg.GATEA.CHECK_MISMATCH 1, addSat pg Reg.GATEA.MISMATCH_COUNT 1, addSat pg Reg.GATEA.REPLAY_COUNT 1]
  let replay := .seq once (raise Code.AG_REPLAY e.island e.run.iter e.idx 0 [])
  progs [forEach (planeTiles ram) fun _ => replay, whenP (!(planeAgain ram).isEmpty) (progs [once, firstRung e, planeEnds e]), match chk with
    | .pass => .skip
    | .transient _ => replay
    | .persistent _ => progs [once, firstRung e, addSat pg Reg.GATEA.MISMATCH_COUNT 1, wr pg Reg.GATEA.CHECK_CHECK_RUN 1, faultAndFence e Code.AG_CHECK 3 []]]

/-! ### What the arrays are left with (R146) -/

/-- The score array's loads for key blocks: the keys of each tile of 256 positions, slice by slice; by position, as codes. -/
def scoreLoads (d : Nat) (ks : List KeyBlock) : List (List (List Nat)) :=
  (pieces 2 ks).flatMap fun t => (slices (d / 32)).map fun s => (t.flatMap (·.keys)).map fun r => s.flatMap fun b =>
    (List.range 32).map fun i => ofSigned 8 (cellInt (blkAt r b) i)

/-- The P·V array's loads for key blocks: the values of each step of 128 positions, by head dimension, as codes. -/
def valueLoads (d : Nat) (ks : List KeyBlock) : List (List (List Nat)) :=
  ks.map fun k => (List.range d).map fun c => k.vals.map fun r => ofSigned 8 (cellInt (blkAt r (c / 32)) (c % 32))

/-- What the last step of a row's P·V array adds to its O, as I32 codes (R112 step 6). -/
def stepSums (q : BRow) (masked : KeyBlock → Nat → Bool) (ks : List KeyBlock) (ex : Option RowExp) (r : RowState) : List Nat :=
  match ks.getLast?, ex, r.m with
  | some k, some x, some m =>
    let ps := (List.range k.pos.length).map fun i => if masked k i then none else
      match outputValue 4 (q.length + 1) q.length x.se q (nth k.keys i []) with | .ninf => none | .fin v => some (pCode x.se m v) | _ => some 0
    (List.range r.o.length).map fun i => svCode 32 (if r.nan then .nan else let (v, t) := pvElem ps k.vals i; svAlign v (t - 6) (x.eo - r.d))
  | _, _, _ => r.o.map fun _ => svCode 32 (if r.nan then .nan else .fin 0)

/-- What a forward leg leaves in its arrays, taken from the key blocks of its last query tile and the sums of each row's last step. DEDUCED: the
accumulators of the P·V array hold the sums of a step as they are added to O (log entry 108). -/
def leaveArrays (e : Env) (d : Nat) (tiles : List (List Nat)) (ks : List KeyBlock) (sums : List (List Nat)) : Prog :=
  progs [loadPlanes e 0 (scoreLoads d ks), loadPlanes e 1 (valueLoads d ks), putStore e (accKey 1) ((tiles.getLast?.getD []).map fun r => nth sums r [])]

/-- AG_STATUS of a leg. -/
def attnStatus (rope : Bool) (e : Env) : Prog :=
  let pg := Page.gate e.p e.g
  progs [wr pg Reg.GATEA.AG_STATUS_OP e.leg.op, wr pg Reg.GATEA.AG_STATUS_T_M1 (if e.leg.op ≤ 3 then bits e.leg.p0 0 7 else 0),
    wr pg Reg.GATEA.AG_STATUS_ROPE (ofBool rope)]

/-- Rows over their rise budget (R114): counted, and the first of the leg recorded. -/
def riseOver (e : Env) (rows : List Nat) : Prog :=
  let pg := Page.gate e.p e.g
  match rows with
  | [] => .skip
  | r :: _ => .look fun s => progs [
      whenP (rd s pg Reg.GATEA.SM_STATUS_RISE_OVER == 0) (progs [
        wr pg Reg.GATEA.SM_STATUS_RISE_OVER 1, wr pg Reg.GATEA.SM_RISE_LEG e.idx, wr pg Reg.GATEA.SM_RISE_ROW r]),
      addSat pg Reg.GATEA.SM_RISE_COUNT rows.length,
      raise Code.SM_RISE e.island e.run.iter e.idx 0 [w32 r]]

/-- The place in its lane of element (r, c) of `n` columns taken row by row. DESIGN CHOICE: no rule orders the elements of an A-gate's output within a
lane (log entry 113). -/
def rowPlace (n r c : Nat) : Nat := r * laneChunks n c + c / 256

/-- The rows of a leg's partial area once it ends (R115, R151): the record, ℓ and O in this order, and padding the spec gives no contents (log entry
4). Row i holds the last query tile that has a row i. -/
def partialRows (e : Env) (tiles : List (List Nat)) (rows : List (RowState × Option RowExp)) : Prog :=
  forEach (List.range (bits e.leg.p0 0 7 + 1)) fun i =>
    match (tiles.filterMap fun t => t[i]?).getLast?.bind (rows[·]?) with
    | none => .skip
    | some x => scratchWrite e.p (e.leg.p2 + 1152 * i) ((((stateWords x.1).take 4) ++ (x.1.l :: x.1.o).map (svCode 32)).flatMap (leBytes 4))

/-- The outputs of a forward leg (R116, R154): O, row statistics, state records, flags. `rows` gives each row's final state and exponents, `ex` the
compares excluded in it. -/
def attnOut (e : Env) (tiles : List (List Nat)) (rows : List (RowState × Option RowExp)) (ex : List Nat) : Prog :=
  let l := e.leg
  let q := e.desc l.a
  let final := bit l.p1 0
  let word := (pisteOf e.s e.p).word
  let expo := fun (x : RowState × Option RowExp) => match x.2 with | some y => y.eo - x.1.d | none => 0
  let dst := e.desc l.dst
  let draws := final && l.dst != FIFO && drawsFor dst
  let sent := fifoRows e (rows.map fun x => (expo x, x.1.o))
  let outs : List (Option RowOut × List SV) :=
    if l.dst = FIFO then sent.2.map fun v => (none, v)
    else rows.zipIdx.map fun x =>
      let (o, b) := narrowRow word dst (fun c => finalRnd e.s e.p e.g l.round c (rowPlace q.e0 x.2 c)) (expo x.1) x.1.1.o
      (some o, b)
  let risen := (rows.zipIdx.filter fun x => x.1.1.rose).map (·.2)
  let narrow := (rows.filter fun x => x.1.keyNarrow || x.1.valNarrow).length
  let pg := Page.gate e.p e.g
  progs [
    partialRows e tiles rows,
    addSat pg Reg.GATEA.EXCLUDED_COUNT (ex.foldl (· + ·) 0),
    if l.dst = FIFO then putDown e sent.1
    else forEach outs.zipIdx fun x => match x.1.1 with | some o => emitRow e 3 dst x.2 o | none => .skip,
    whenP draws (advanceLanes e.island fun c => rows.length * laneChunks q.e0 c),
    putStats e (rows.map fun x => (x.1.o, x.2.isNone)),
    forEach rows.zipIdx fun x => emitWords e 7 (e.desc (l.expd + 2)) x.2 (stateWords x.1.1),
    riseOver e risen,
    addSat pg Reg.GATEA.NARROW_COUNT narrow,
    whenP (rows.any fun x => x.1.keyNarrow) (wr pg Reg.GATEA.CHECK_KEY_NARROW 1),
    whenP (rows.any fun x => x.1.valNarrow) (wr pg Reg.GATEA.CHECK_VAL_NARROW 1),
    putFlags e.p e.g e.idx e.run.iter tiles.length (rowFlags (fun r _ => tileOfRow tiles r) (outs.map (·.2)))
      ((ex.zipIdx.filter fun x => x.1 != 0).map fun x => tileOfRow tiles x.2)]

/-- A row's state at the start of a forward leg (R111, R154): fresh, or from its record and DST; NaR where its exponent code is out of range, and OVER
where the RISE it comes with exceeds this leg's budget (R114). -/
def firstState (e : Env) (r : Nat) (x : Option RowExp) : RowState :=
  let l := e.leg
  let d := (e.desc l.a).e0
  let s := if bit l.p0 23 then
      let t := e.desc (l.expd + 2)
      startState ((List.range 6).map fun i => leNat (descBytes e.view t (rowOff t r + 4 * i) 4).1) ((rowVals e.view (e.desc l.dst) r).map (·.1))
    else RowState.start d
  let past := decide (bits l.p0 17 6 < s.d)
  let s := { s with rises := s.rises || past, rose := past }
  match x with
  | none => s.toNan
  | some y => if y.eo - s.d < -384 ∨ y.eo + y.ld - s.d < -384 then s.toNan else s

/-- Uses with their positions judged: R158 judges every descriptor of a leg. -/
def judged (l : List OpUse) : List OpUse := l.map fun u => { u with pos := true }

/-- Uses of a forward leg beside its keys and values. -/
def attnUses (e : Env) : List OpUse :=
  let l := e.leg
  judged <| (if named l.dst then (if bit l.p0 23 then [aUse l.dst .rd] else []) ++ [aUse l.dst .wr] else []) ++ [({ idx := l.expd, use := .rd } : OpUse)] ++ statsUse e ++
  (if bit l.p0 23 then [({ idx := l.expd + 2, use := .rd } : OpUse)] else []) ++ [{ idx := l.expd + 2, use := .wr }]

/-- Scratchpad bytes with contents the spec does not give (log entry 4). -/
def areaFree (p off n : Nat) : Prog := withFreeBytes n (scratchWrite p off)

/-- The end of the partial area of an attention leg. -/
def attnArea (e : Env) : Nat := e.leg.p2 + 1152 * (bits e.leg.p0 0 7 + 1)

/-! ### ATTEND -/

/-- ATTEND's effect. -/
def attendBody (chk : HwCheck) (ram : List SramErr) (e : Env) : Prog :=
  let l := e.leg
  let q := e.desc l.a
  let k := e.desc l.b
  let v := e.desc (l.b + 1)
  let rotQ := bit l.p0 10
  let rotK := bit l.p0 11
  if (rotQ || rotK) && !ropeReady e.s e.island q.e0 then ropeFault e
  else
    let g := q.e2 / k.e2
    let gs := groupRows q g
    let tiles := queryTiles (bits l.p0 0 7 + 1) gs
    let causal := bits l.p0 8 2 == 1
    let res := gs.zipIdx.flatMap fun x =>
      let ks := denseBlocks e rotK k v x.2
      (List.range x.1.2).map fun i =>
        let r := x.1.1 + i
        let qp := q.posBase + r % q.e1
        let qb := aRow e rotQ q qp r
        let ex := rowExp e r
        let s0 := firstState e r ex
        let hide := fun (kb : KeyBlock) (j : Nat) => causal && decide (qp < nth kb.pos j 0)
        let s1 := match ex with
          | none => s0
          | some y => ks.foldl (fun s kb => takeBlock y qb (hide kb) kb s) s0
        ((s1, ex), attnExcluded (toSigned 7 (bits l.p1 1 7)) qb hide ks, stepSums qb hide ks ex s1)
    progs [
      areaFree e.p l.p2 (1152 * (bits l.p0 0 7 + 1)),
      leaveArrays e q.e0 tiles (gs.zipIdx.getLast?.elim [] fun x => denseBlocks e rotK k v x.2) (res.map (·.2.2)),
      attnChecks e chk ram,
      unlessFailed e.p (attnOut e tiles (res.map (·.1)) (res.map (·.2.1)))]

/-- The key positions of a dense leg that are fetched, as rows of the keys: those of key tiles of which some query row of their KV head has a
position unmasked (R148). -/
def denseFetched (e : Env) : List Nat :=
  let q := e.desc e.leg.a
  let k := e.desc e.leg.b
  let last := q.posBase + q.e1 - 1
  (List.range (k.e2 * k.e3)).flatMap fun grp => ((List.range k.e1).filter fun i =>
    bits e.leg.p0 8 2 != 1 || decide (k.posBase + i / 256 * 256 ≤ last)).map (grp * k.e1 + ·)

/-- What a dense leg reads of its keys and values. -/
def denseReads : List (Env → List Span) :=
  [rowFirst, rowNext].map fun f e => [e.leg.b, e.leg.b + 1].flatMap fun i => (denseFetched e).flatMap (f e (e.desc i))

/-- The uses of keys and values of a dense leg. -/
def denseUses (e : Env) : List OpUse := [{ aUse e.leg.b .rd with whole := false }, { aUse (e.leg.b + 1) .rd with whole := false }]

/-- ATTEND as an operation of a leg. -/
def opAttend (chk : HwCheck) (ram : List SramErr) : LegOp :=
  { uses := fun e => aUse e.leg.a .rd :: denseUses e ++ attnUses e, area := attnArea, reads := denseReads,
    status := fun e => attnStatus (bit e.leg.p0 10 || bit e.leg.p0 11) e, body := attendBody chk ram }

/-- ATTEND (R147, R150 to R154). -/
def execAttend (p : Fin 64) (a : Fin 2) (chk : HwCheck) (ram : List SramErr) (s : State) : Host.Outcome State Fault Refusal :=
  done (runLeg p (aGate a) 1 ram (opAttend chk ram)) s

/-! ### The paged cache (R158 to R164) -/

/-- A word of an index tensor, BAD where it is poisoned (R224). -/
def tableWord (v : View) (d : Desc) (row i : Nat) : Nat :=
  let (b, bad) := descBytes v d (rowOff d row + 4 * i) 4
  if bad = [] then leNat b else 2 ^ 32 - 2

/-- A block-table entry: SLOT, KTAG and VTAG; none where the table has no such entry or the pool no such slot (R162). -/
def tableEntry (v : View) (table pool : Desc) (seq blk : Nat) : Option (Nat × Nat × Nat) :=
  if table.e0 ≤ blk then none
  else
    let w := tableWord v table seq blk
    if pool.e1 ≤ bits w 0 24 then none else some (bits w 0 24, bits w 24 2, bits w 26 2)

/-- The LENGTH of a sequence (R161). -/
def seqLength (v : View) (t : Desc) (seq : Nat) : Nat := tableWord v t seq 0

/-- Whether a sequence's LENGTH lies within its limits (R158). -/
def lengthOk (len qtok : Nat) : Bool := decide (len ≤ 16777216) && decide (qtok ≤ len)

/-- One position's blocks from a slot (R159): codes at `co`, scales at `so`, for elements `first` to `first + d - 1` of W. -/
def slotRow (v : View) (pool : Desc) (slot tag w co so i first d : Nat) : BRow :=
  let b := if tag = 0 then 4 else 8
  let base := pool.offset + slot * pool.s1
  (List.range (d / 32)).map fun j =>
    let el := first + 32 * j
    let (c, cb) := descBytes v pool (base + co + (i * w + el) * b / 8) (4 * b)
    let (s, sb) := descBytes v pool (base + so + i * w / 32 + el / 32) 1
    decodeBlock b 32 (if sb = [] then toSigned 8 (leNat s) else -128) ((List.range 32).map (codeAt b c)) none false
      (if cb.isEmpty then [] else (List.range 32).filter (elemBad cb b))

/-- A position that reads as NaR. -/
def nanRow (d : Nat) : BRow := List.replicate (d / 32) { vals := List.replicate 32 .nan, e := 0, zero := false, special := true, outliers := [] }

/-- The key blocks of a sequence for one KV head (R162, R163), each with its 128 positions; those at or beyond LENGTH are masked. -/
def pagedBlocks (e : Env) (seq head : Nat) : List KeyBlock :=
  let l := e.leg
  let q := e.desc l.a
  let pool := e.desc l.b
  let w := q.e0 * q.e2
  let len := seqLength e.view (e.desc l.c) seq
  (List.range (ceilDiv len 128)).map fun b =>
    let n := 128
    let pos := (List.range n).map (128 * b + ·)
    match tableEntry e.view (e.desc (l.c + 1)) pool seq b with
    | none => { pos := pos, keys := pos.map fun _ => nanRow q.e0, vals := pos.map fun _ => nanRow q.e0, keyNarrow := false, valNarrow := false, range := true }
    | some (slot, kt, vt) =>
      { pos := pos
        keys := (List.range n).map fun i => slotRow e.view pool slot kt w 0 (128 * w) i (head * q.e0) q.e0
        vals := (List.range n).map fun i => slotRow e.view pool slot vt w (132 * w) (260 * w) i (head * q.e0) q.e0
        keyNarrow := kt == 0 && bits l.p0 13 2 == 1, valNarrow := vt == 0 && bits l.p0 15 2 == 1, range := false }

/-- A block of a sequence read or written out of range, or with a tag that faults. -/
structure KvEvent where
  seq : Nat
  blk : Nat
  stored : Nat
  declared : Nat

/-- The registers of the last KV_FORMAT or KV_RANGE event. -/
def kvRegs (e : Env) (x : KvEvent) : Prog :=
  let pg := Page.gate e.p e.g
  progs [wr pg Reg.GATEA.KV_LEG e.idx, wr pg Reg.GATEA.KV_SEQ x.seq, wr pg Reg.GATEA.KV_BLOCK x.blk, wr pg Reg.GATEA.KV_TAGS_STORED x.stored,
    wr pg Reg.GATEA.KV_TAGS_DECLARED x.declared]

/-- Blocks out of range (R162, R164): KV_RANGE, and the first of the leg recorded with its block table index. -/
def kvRange (e : Env) (xs : List KvEvent) : Prog :=
  match xs with
  | [] => .skip
  | x :: _ => progs [
      wr (.gate e.p e.g) Reg.GATEA.CHECK_KV_RANGE 1, forEach xs (kvRegs e),
      raise Code.IDX_RANGE e.island e.run.iter e.idx 0 [w64 (x.blk + (e.desc (e.leg.c + 1)).e0 * x.seq)]]

/-- The KV_FORMAT fault (R163, R164). -/
def kvFormat (e : Env) (x : KvEvent) : Prog :=
  progs [wr (.gate e.p e.g) Reg.GATEA.CHECK_KV_FORMAT 1, kvRegs e x,
    faultLeg e.p e.g e.idx Code.KV_FORMAT 0 [w32 x.seq, w32 x.blk, w32 x.stored, w32 x.declared]]

/-- Sequences whose LENGTH breaks R158: the first of the leg is recorded. -/
def badLengths (e : Env) (seqs : List Nat) : Prog :=
  let pg := Page.gate e.p e.g
  match seqs with
  | [] => .skip
  | q :: _ => progs [
      wr pg Reg.GATEA.CHECK_ATT_POS 1, wr pg Reg.GATEA.POS_LEG e.idx, wr pg Reg.GATEA.POS_SEQ q,
      raise Code.ATT_POS e.island e.run.iter e.idx 0 [w32 q]]

/-- The tag of a read block that faults against what the leg declares (R163). -/
def readTagBad (l : Leg) (kt vt : Nat) : Option (Nat × Nat) :=
  let bad := fun t d => decide (2 ≤ t) || (t == 1 && d == 0)
  if bad kt (bits l.p0 13 2) then some (kt, bits l.p0 13 2) else if bad vt (bits l.p0 15 2) then some (vt, bits l.p0 15 2) else none

/-- The sequences of a paged leg with the blocks it reads. -/
def pagedScan (e : Env) (seqs : List Nat) : List KvEvent × List KvEvent :=
  let l := e.leg
  let evs := seqs.flatMap fun q =>
    (List.range (ceilDiv (seqLength e.view (e.desc l.c) q) 128)).filterMap fun b =>
      match tableEntry e.view (e.desc (l.c + 1)) (e.desc l.b) q b with
      | none =>
        let w := if (e.desc (l.c + 1)).e0 ≤ b then 0 else tableWord e.view (e.desc (l.c + 1)) q b
        some (true, ({ seq := q, blk := b, stored := bits w 24 2, declared := bits l.p0 13 2 } : KvEvent))
      | some (_, kt, vt) => (readTagBad l kt vt).map fun t => (false, { seq := q, blk := b, stored := t.1, declared := t.2 })
  ((evs.filter (·.1)).map (·.2), (evs.filter fun x => !x.1).map (·.2))

/-- The sequences of a paged leg whose LENGTH allows it (R158). -/
def pagedGood (e : Env) : List Nat :=
  (List.range (e.desc e.leg.a).e3).filter fun i => lengthOk (seqLength e.view (e.desc e.leg.c) i) (bits e.leg.p0 24 8 + 1)

/-- ATTEND_PAGED's effect. -/
def attendPagedBody (chk : HwCheck) (ram : List SramErr) (e : Env) : Prog :=
  let l := e.leg
  let q := e.desc l.a
  let rotQ := bit l.p0 10
  let qtok := bits l.p0 24 8 + 1
  let causal := bits l.p0 8 2 == 1
  let len := seqLength e.view (e.desc l.c)
  let bad := (List.range q.e3).filter fun i => !lengthOk (len i) qtok
  let (ranges, faults) := pagedScan e (pagedGood e)
  if rotQ && !ropeReady e.s e.island q.e0 then ropeFault e
  else match faults with
    | x :: _ => kvFormat e x
    | [] =>
      let gs := groupRows q 1
      let tiles := queryTiles (bits l.p0 0 7 + 1) gs
      let res := gs.zipIdx.flatMap fun x =>
        let seq := x.2 / q.e2
        let isGood := lengthOk (len seq) qtok
        let ks := if isGood then pagedBlocks e seq (x.2 % q.e2) else []
        (List.range x.1.2).map fun i =>
          let r := x.1.1 + i
          let qp := len seq - qtok + i % qtok
          let ex := rowExp e r
          let s0 := firstState e r ex
          if !isGood then ((s0.toNan, ex), 0, [])
          else
            let qb := aRow e rotQ q qp r
            let hide := fun (kb : KeyBlock) (j : Nat) => decide (len seq ≤ nth kb.pos j 0) || (causal && decide (qp < nth kb.pos j 0))
            let s1 := match ex with
              | none => s0
              | some y => ks.foldl (fun s kb => takeBlock y qb (hide kb) kb s) s0
            (({ s1 with range := s1.range || ks.any (·.range) }, ex), attnExcluded (toSigned 7 (bits l.p1 1 7)) qb hide ks, stepSums qb hide ks ex s1)
      progs [
        areaFree e.p l.p2 (1152 * (bits l.p0 0 7 + 1)),
        badLengths e bad, kvRange e ranges,
        leaveArrays e q.e0 tiles (((gs.zipIdx.map (·.2)).filter fun i => lengthOk (len (i / q.e2)) qtok).getLast?.elim [] fun i =>
          pagedBlocks e (i / q.e2) (i % q.e2)) (res.map (·.2.2)),
        attnChecks e chk ram,
        unlessFailed e.p (attnOut e tiles (res.map (·.1)) (res.map (·.2.1)))]

/-- The slots a paged leg reads, with their tags: none where a tag or the rotary table ends the run. -/
def pagedSlots (e : Env) : List (Nat × Nat × Nat) :=
  if !(pagedScan e (pagedGood e)).2.isEmpty || (bit e.leg.p0 10 && !ropeReady e.s e.island (e.desc e.leg.a).e0) then []
  else (pagedGood e).flatMap fun q => (List.range (ceilDiv (seqLength e.view (e.desc e.leg.c) q) 128)).filterMap fun b =>
    tableEntry e.view (e.desc (e.leg.c + 1)) (e.desc e.leg.b) q b

/-- A piece of a slot as a span. -/
def slotSpan (e : Env) (slot off n : Nat) : Span :=
  let pool := e.desc e.leg.b
  spanOf e.s e.p (pool.region, pool.offset + slot * pool.s1 + off, n)

/-- What a paged leg reads of its pool: the E8 bytes of its slots, then the codes of blocks that are not zero or invalid (R60, R159, R162). -/
def pagedReads : List (Env → List Span) :=
  let w := fun (e : Env) => (e.desc e.leg.a).e0 * (e.desc e.leg.a).e2
  let codes := fun (e : Env) (slot tag co so : Nat) =>
    let n := if tag = 0 then 16 else 32
    let e8 := slotSpan e slot so (4 * w e)
    let b := viewBytes e.view e8.loc e8.node e8.space e8.addr e8.len
    (runsOf ((List.range (4 * w e)).filter fun k =>
      leAt b k 1 != 128 && leAt b k 1 != 129 && !viewPoison e.view e8.loc e8.node e8.space (e8.addr + k))).map fun x => slotSpan e slot (co + n * x.1) (n * x.2)
  [fun e => (pagedSlots e).flatMap fun x => [slotSpan e x.1 (128 * w e) (4 * w e), slotSpan e x.1 (260 * w e) (4 * w e)],
   fun e => (pagedSlots e).flatMap fun x => codes e x.1 x.2.1 0 (128 * w e) ++ codes e x.1 x.2.2 (132 * w e) (260 * w e)]

/-- Uses of a paged leg's tables and pool. -/
def pagedUses (pool : Use) (table : List Use) (e : Env) (poolIdx : Nat) : List OpUse :=
  [aUse poolIdx pool, aUse e.leg.c .rd] ++ table.map fun u => aUse (e.leg.c + 1) u

/-- ATTEND_PAGED as an operation of a leg. -/
def opAttendPaged (chk : HwCheck) (ram : List SramErr) : LegOp :=
  { uses := fun e => [aUse e.leg.a .rd] ++ pagedUses .idx [.rd] e e.leg.b ++ attnUses e, area := attnArea, reads := pagedReads,
    status := fun e => attnStatus (bit e.leg.p0 10) e, body := attendPagedBody chk ram }

/-- ATTEND_PAGED (R162). -/
def execAttendPaged (p : Fin 64) (a : Fin 2) (chk : HwCheck) (ram : List SramErr) (s : State) : Host.Outcome State Fault Refusal :=
  done (runLeg p (aGate a) 2 ram (opAttendPaged chk ram)) s

/-! ### KV_APPEND -/

/-- A position's row narrowed for a slot (R164): codes, E8 bytes and the values it reads back as; `off` counts narrowed rows before it. DESIGN CHOICE:
a token's key row takes its positions before its value row, tokens in order (log entry 113). -/
def appendRow (e : Env) (tag off : Nat) (vals : List SV) (ea : Int) : List Byte × List Byte × List SV :=
  let b := if tag = 0 then 4 else 8
  let pol := bits (pisteOf e.s e.p).word 2 2
  let bs := (pieces 32 vals).zipIdx.map fun x =>
    narrowBlock b ea false (pol % 2 == 1) (fun i => finalRnd e.s e.p e.g e.leg.round (32 * x.2 + i) (off * laneChunks vals.length (32 * x.2 + i) + (32 * x.2 + i) / 256))
      (padTo 32 (.fin 0) x.1)
  (bs.flatMap fun y => packCodes b y.codes, bs.map fun y => BitVec.ofInt 8 y.e8, bs.flatMap (readBack b 32))

/-- A new token's row of keys or values as values under one exponent: I32 codes stand at exponent 0, block elements under their scales. -/
def tokenRow (e : Env) (d : Desc) (r : Nat) : List SV × Int := common (rowVals e.view d r)

/-- One token to write: its sequence, block, slot, the formats written, its position in the block, and the row it comes from. -/
structure Token where
  seq : Nat
  blk : Nat
  slot : Nat
  kt : Nat
  vt : Nat
  unset : Bool
  pos : Nat
  row : Nat

/-- The tokens of a sequence with their slots, or the event that keeps the sequence from being written (R164). -/
def tokensOf (e : Env) (seq qtok len : Nat) : List (Token ⊕ (Bool × KvEvent)) :=
  let l := e.leg
  (List.range qtok).map fun i =>
    let p := len - qtok + i
    let b := p / 128
    match tableEntry e.view (e.desc (l.c + 1)) (e.desc l.dst) seq b with
    | none =>
      let w := if (e.desc (l.c + 1)).e0 ≤ b then 0 else tableWord e.view (e.desc (l.c + 1)) seq b
      .inr (true, { seq := seq, blk := b, stored := bits w 24 2, declared := bits l.p0 13 2 })
    | some (slot, kt, vt) =>
      if kt = 2 then .inr (false, { seq := seq, blk := b, stored := kt, declared := bits l.p0 13 2 })
      else if vt = 2 then .inr (false, { seq := seq, blk := b, stored := vt, declared := bits l.p0 15 2 })
      else .inl { seq := seq, blk := b, slot := slot, kt := if kt = 3 then bits l.p0 13 2 else kt, vt := if vt = 3 then bits l.p0 15 2 else vt,
                  unset := kt == 3 || vt == 3, pos := p, row := seq * qtok + i }

/-- The first event of a list of tokens. -/
def firstEvent : List (Token ⊕ (Bool × KvEvent)) → Option (Bool × KvEvent)
  | [] => none
  | .inl _ :: r => firstEvent r
  | .inr x :: _ => some x

/-- The head dimension of keys that KV_APPEND rotates, which no field gives: the largest that divides W and that the table serves (log entry 53). -/
def appendHead (e : Env) : Nat :=
  let w := (e.desc e.leg.a).e0
  ((List.range 9).reverse.map (32 * ·)).find? (fun d => d != 0 && decide (d / 2 ≤ (ropeOf e.s e.island).pairs) && w % d == 0) |>.getD 32

/-- The rows of keys and values written for a token (R156, R164); `n` counts the tokens written before it. -/
def tokenRows (e : Env) (n : Nat) (t : Token) : (List Byte × List Byte × List SV) × (List Byte × List Byte × List SV) :=
  let kd := e.desc e.leg.a
  let keys := if bit e.leg.p0 11
    then common (blockVals (rotatedBlocks (ropeOf e.s e.island) (bit e.leg.p0 12) false (appendHead e) t.pos (rowVals e.view kd t.row)))
    else tokenRow e kd t.row
  let vals := tokenRow e (e.desc e.leg.b) t.row
  (appendRow e t.kt (2 * n) keys.1 keys.2, appendRow e t.vt (2 * n + 1) vals.1 vals.2)

/-- A token written to its slot, and its table entry's tags where they were UNSET (R164); `n` counts the tokens written before it. -/
def writeToken (e : Env) (n : Nat) (t : Token) : Prog :=
  let l := e.leg
  let pool := e.desc l.dst
  let w := (e.desc l.a).e0
  let i := t.pos % 128
  let (k, v) := tokenRows e n t
  let r := rgnOf e.s e.p pool.region
  let base := pool.offset + t.slot * pool.s1
  let kb := if t.kt = 0 then 4 else 8
  let vb := if t.vt = 0 then 4 else 8
  let table := e.desc (l.c + 1)
  progs [
    emitBytes e 3 r (base + i * w * kb / 8) k.1 false, emitBytes e 3 r (base + 128 * w + i * w / 32) k.2.1 false,
    emitBytes e 3 r (base + 132 * w + i * w * vb / 8) v.1 false, emitBytes e 3 r (base + 260 * w + i * w / 32) v.2.1 false,
    whenP t.unset (emitBytes e 7 (rgnOf e.s e.p table.region) (rowOff table t.seq + 4 * t.blk) (leBytes 4 (t.slot + t.kt * 2 ^ 24 + t.vt * 2 ^ 26)) false)]

/-- The special values written for a token, by their tile (R81): each sequence is a tile of the leg. DESIGN CHOICE: the row and the column that
R82 records are those of SRC_A and SRC_B, the pool's own dimensions being bytes and slots (log entry 82). -/
def tokenFlags (e : Env) (n : Nat) (t : Token) : List Flag :=
  let f := fun (l : List SV) => (l.zipIdx.filter fun y => svSpecial y.1).map fun y => ({ tile := t.seq, row := t.row, col := y.2, v := y.1 } : Flag)
  let (k, v) := tokenRows e n t
  f k.2.2 ++ f v.2.2

/-- The sequences of an appending leg whose LENGTH allows it, with their tokens. -/
def appendTokens (e : Env) : List (Nat × List (Token ⊕ (Bool × KvEvent))) :=
  let l := e.leg
  let qtok := bits l.p0 24 8 + 1
  let len := seqLength e.view (e.desc l.c)
  ((List.range ((e.desc l.a).e2 * (e.desc l.a).e3)).filter fun i => lengthOk (len i) qtok).map fun q => (q, tokensOf e q qtok (len q))

/-- The first block of an appending leg whose tag ends the run (R164). -/
def appendFault (e : Env) : Option (Bool × KvEvent) :=
  ((appendTokens e).filterMap fun x => firstEvent (x.2.filter fun y => match y with | .inr (false, _) => true | _ => false)).head?

/-- KV_APPEND's effect. No head dimension allowed is below 32, so that a table of fewer than 16 frequencies serves none (R155). -/
def kvAppendBody (e : Env) : Prog :=
  let l := e.leg
  let kd := e.desc l.a
  let qtok := bits l.p0 24 8 + 1
  let seqs := List.range (kd.e2 * kd.e3)
  let bad := seqs.filter fun i => !lengthOk (seqLength e.view (e.desc l.c) i) qtok
  if bit l.p0 11 && decide ((ropeOf e.s e.island).pairs < 16) then ropeFault e
  else
    let all := appendTokens e
    match appendFault e with
    | some x => kvFormat e x.2
    | none =>
      let ranges := all.filterMap fun x => (firstEvent x.2).map (·.2)
      let toks := all.flatMap fun x => if (firstEvent x.2).isSome then [] else x.2.filterMap fun y => match y with | .inl t => some t | .inr _ => none
      progs [
        badLengths e bad, kvRange e ranges,
        forEach toks.zipIdx fun t => writeToken e t.2 t.1,
        advanceLanes e.island fun c => 2 * toks.length * laneChunks kd.e0 c,
        putFlags e.p e.g e.idx e.run.iter seqs.length (toks.zipIdx.flatMap fun t => tokenFlags e t.2 t.1)]

/-- KV_APPEND as an operation of a leg. -/
def opKvAppend : LegOp :=
  { uses := fun e => [aUse e.leg.a .rd, aUse e.leg.b .rd, aUse e.leg.c .rd, aUse (e.leg.c + 1) .rd, aUse (e.leg.c + 1) .wr, aUse e.leg.dst .wr],
    status := fun e => attnStatus (bit e.leg.p0 11) e, body := kvAppendBody }

/-- KV_APPEND (R164). -/
def execKvAppend (p : Fin 64) (a : Fin 2) (ram : List SramErr) (s : State) : Host.Outcome State Fault Refusal :=
  done (runLeg p (aGate a) 4 ram opKvAppend) s

/-! ### ROPE_LOAD and ROTATE -/

/-- The step codes of a rotary table, in row order. -/
def ropeVals (e : Env) : List SV := let d := e.desc e.leg.a; (List.range d.e1).flatMap fun r => (rowVals e.view d r).map (·.1)

/-- A step code as ROPE_LOAD takes it (R155): none for a special value or one beyond 16,384 in magnitude. -/
def ropeStep (v : SV) : Option Int :=
  match v with
  | .fin i => if 16384 < i.natAbs then none else some i
  | _ => none

/-- ROPE_LOAD's effect (R155). -/
def ropeLoadBody (e : Env) : Prog :=
  let d := e.desc e.leg.a
  if (ropeVals e).any fun v => (ropeStep v).isNone then ropeFault e
  else progs [
    modUnits fun u =>
      { u with rope := smSet (fun _ => RopeTable.none) u.rope e.island ({ pairs := d.e1, data := (ropeVals e).filterMap ropeStep } : RopeTable) },
    wr (.gate e.p e.g) Reg.GATEA.ROPE_STATUS_LOADED 1, wr (.gate e.p e.g) Reg.GATEA.ROPE_STATUS_FREQS d.e1]

/-- ROPE_LOAD as an operation of a leg. -/
def opRopeLoad : LegOp :=
  { uses := fun e => [aUse e.leg.a .rd], status := attnStatus false, body := ropeLoadBody }

/-- ROPE_LOAD (R155). -/
def execRopeLoad (p : Fin 64) (a : Fin 2) (ram : List SramErr) (s : State) : Host.Outcome State Fault Refusal :=
  done (runLeg p (aGate a) 5 ram opRopeLoad) s

/-- ROTATE's effect (R157): rotated by plus or minus each row's position, narrowed back to I8 blocks (R156), written under R127. DESIGN CHOICE: the
leg is one output tile, which R149 gives only for query tiles (log entry 81). -/
def rotateBody (e : Env) : Prog :=
  let l := e.leg
  let d := e.desc l.a
  let neg := bit l.p1 0
  let shift := toSigned 16 (bits l.p1 0 16)
  let word := (pisteOf e.s e.p).word
  let n := rowsOf d
  if !ropeReady e.s e.island d.e0 then ropeFault e
  else
    let rows := (List.range n).map fun r =>
      match (if l.expd = NONE then some 0 else expAt e.view (e.desc l.expd) r) with
      | none => (List.replicate d.e0 SV.nan, (0 : Int))
      | some ea =>
        let src := (rowVals e.view d r).map fun (x : SV × Int) => if d.fmt = 4 then (x.1, ea) else x
        let v : List (SV × Int) := blockVals (rotatedBlocks (ropeOf e.s e.island) (bit l.p0 12) neg d.e0 (d.posBase + r % d.e1) src)
        (v.map fun (x : SV × Int) => svAlign (svAlign x.1 x.2 ea) ea (ea + shift), ea + shift)
    let sent := fifoRows e (rows.map fun x => (x.2, x.1))
    let outs : List (Option RowOut × List SV) :=
      if l.dst = FIFO then sent.2.map fun v => (none, v)
      else rows.zipIdx.map fun x =>
        let (o, b) := narrowRow word (e.desc l.dst) (fun c => finalRnd e.s e.p e.g l.round c (rowPlace d.e0 x.2 c)) x.1.2 x.1.1
        (some o, b)
    progs [
      if l.dst = FIFO then putDown e sent.1
      else forEach outs.zipIdx fun x => match x.1.1 with | some o => emitRow e 3 (e.desc l.dst) x.2 o | none => .skip,
      whenP (l.dst != FIFO && drawsFor (e.desc l.dst)) (advanceLanes e.island fun c => n * laneChunks d.e0 c),
      putFlags e.p e.g e.idx e.run.iter 1 (rowFlags (fun _ _ => 0) (outs.map (·.2)))]

/-- ROTATE as an operation of a leg. -/
def opRotate : LegOp :=
  { uses := fun e => [aUse e.leg.a .rd] ++ (if named e.leg.dst then [aUse e.leg.dst .wr] else []) ++
      (if e.leg.expd = NONE then [] else [aUse e.leg.expd .rd]),
    status := attnStatus true, body := rotateBody }

/-- ROTATE (R157). -/
def execRotate (p : Fin 64) (a : Fin 2) (ram : List SramErr) (s : State) : Host.Outcome State Fault Refusal :=
  done (runLeg p (aGate a) 6 ram opRotate) s

/-! ### ATTEND_BWD (R167) -/

/-- Values narrowed to I8 per block of 32 under R73 with rounding to odd, as values with exponents; `head` is the headroom of R74. -/
def toI8 (head : Bool) (ea : Int) (l : List SV) : BRow :=
  (pieces 32 l).map fun x =>
    let b := narrowBlock 8 ea false head (fun _ => .odd) (padTo 32 (.fin 0) x)
    decodeBlock 8 x.length b.e8 b.codes none false []

/-- The dot product of two rows of blocks, exact, under the smallest exponent met. -/
def dotBlocks (a b : BRow) : SV × Int :=
  let ps := (List.range (max a.length b.length)).filterMap fun j =>
    let x := blkAt a j
    let y := blkAt b j
    if x.zero || y.zero then none else some (svSum (List.zipWith svMul x.vals y.vals), x.e + y.e)
  let (v, e) := common ps
  (svSum v, e)

/-- Element `i` of a row of blocks with its exponent; none of a zero block, which forms no products (R69). -/
def elemOf (r : BRow) (i : Nat) : Option (SV × Int) := let b := blkAt r (i / 32); if b.zero then none else some (nth b.vals (i % 32) (.fin 0), b.e)

/-- The pairs of elements that form products. -/
def formed (l : List (Option (SV × Int) × Option (SV × Int))) : List ((SV × Int) × (SV × Int)) :=
  l.filterMap fun x => match x.1, x.2 with | some a, some b => some (a, b) | _, _ => none

/-- A sum of products of elements, exact, aligned to an output exponent. -/
def sumProducts (l : List (Option (SV × Int) × Option (SV × Int))) (eo : Int) : SV :=
  let (v, e) := common ((formed l).map fun x => (svMul x.1.1 x.2.1, x.1.2 + x.2.2))
  svAlign (svSum v) e eo

/-- Whether a product of a pair has a special value. -/
def pairSpecial (l : List (Option (SV × Int) × Option (SV × Int))) : Bool := (formed l).any fun x => svSpecial x.1.1 || svSpecial x.2.1

/-- One query row against a key block in the backward pass: P̃ and dS per position (none where masked), exact values with exponents. -/
structure BwdRow where
  p : List (Option (SV × Int))
  ds : List (Option (SV × Int))

/-- What a row of the backward pass takes: its state record, its exponents, the score exponent, Q and dO blocks and Δ. -/
structure BwdIn where
  rec_ : List Nat
  ex : Option RowExp
  se : Int
  q : BRow
  d : BRow
  delta : SV
  pos : Nat

/-- No row. -/
def BwdIn.none : BwdIn := { rec_ := [], ex := Option.none, se := 0, q := [], d := [], delta := .fin 0, pos := 0 }

/-- P̃ and dS of a row over a key block (R167): P̃ = 2^(s - MRUN), dS = P̃ ∘ (dP - Δ), both times 1 ÷ ℓ. Masked positions and MASKED rows have none, and a
row whose exponent code is out of range has NaR at the others. -/
def bwdRow (x : BwdIn) (masked : Nat → Bool) (k : KeyBlock) : BwdRow :=
  let n := k.pos.length
  let m := codeSV 32 (nth x.rec_ 0 0)
  let lsum := codeSV 32 (nth x.rec_ 1 0)
  let rise := nth x.rec_ 2 0
  let nan := m = .nan || m = .pinf || lsum = .nan
  let none_ := bit (nth x.rec_ 3 0) 1
  match x.ex with
  | none =>
    let one := fun i => if none_ || masked i || outputValue 4 (x.q.length + 1) x.q.length x.se x.q (nth k.keys i []) == .ninf then none
      else some (SV.nan, (0 : Int))
    { p := (List.range n).map one, ds := (List.range n).map one }
  | some ex =>
    let inv : SV × Int := match lsum with
      | .fin l => if l = 0 then (.nan, 0) else let r := recipOf l (ex.eo + ex.ld - rise); (.fin (roundShift .odd r.m (r.m.natAbs.log2 + 1 - 32)), r.e + (r.m.natAbs.log2 + 1 - 32))
      | .nan => (.nan, 0)
      | _ => (.fin 0, 0)
    let one := fun i =>
      if none_ || masked i then (none, none)
      else if nan then (some (SV.nan, (0 : Int)), some (SV.nan, (0 : Int)))
      else
        let s := outputValue 4 (x.q.length + 1) x.q.length ex.se x.q (nth k.keys i [])
        match s, m with
        | .ninf, _ => (none, none)
        | .fin v, .fin mi =>
          let pc : Int := pCode ex.se mi v
          let (dp, de) := dotBlocks x.d (nth k.vals i [])
          let diff := common [(dp, de), (svNeg x.delta, ex.eo)]
          let t := svAdd (nth diff.1 0 (.fin 0)) (nth diff.1 1 (.fin 0))
          (some (svMul (.fin pc) inv.1, inv.2 - 6), some (svMul (svMul (.fin pc) t) inv.1, diff.2 + inv.2 - 6))
        | _, _ => (some (SV.nan, (0 : Int)), some (SV.nan, (0 : Int)))
    let l := (List.range n).map one
    { p := l.map (·.1), ds := l.map (·.2) }

/-- A row's entries narrowed to I8 blocks; masked positions enter as 0. -/
def bwdI8 (head : Bool) (l : List (Option (SV × Int))) : BRow :=
  let (v, e) := common (l.map fun x => x.getD (.fin 0, 0))
  toI8 head e v

/-- The headroom of FORMAT_POLICY (R74) in a leg's run. -/
def headOf (e : Env) : Bool := bits (pisteOf e.s e.p).word 2 2 % 2 == 1

/-- What ATTEND_BWD has added so far: per output (0 dK, 1 dV, 2 dQ) the rows it has added into, and the special values written, each in the query tile
at work. -/
structure BwdAcc where
  rows : List (SMap (List SV))
  flags : List Flag

/-- Contributions added into row `row` of output `k` (R67), read once from memory. -/
def addRow (e : Env) (tile k row : Nat) (l : List SV) (x : BwdAcc) : BwdAcc :=
  let m := nth x.rows k []
  let old := match m.find? (·.1 == row) with
    | some y => y.2
    | none => (rowVals e.view (e.desc (e.leg.dst + k)) row).map (·.1)
  let new := List.zipWith add32 old l
  { rows := x.rows.set k (smSet (fun _ => []) m row new)
    flags := x.flags ++ (new.zipIdx.filter fun y => svSpecial y.1).map fun y => { tile := tile, row := row, col := y.2, v := y.1 } }

/-- P̃ and dS of the rows of a query tile over a key block, with their I8 blocks. -/
def bwdTile (e : Env) (hide : BwdIn → KeyBlock → Nat → Bool) (rows : List BwdIn) (kb : KeyBlock) : List BwdRow × List BRow × List BRow :=
  let per := rows.map fun x => bwdRow x (hide x kb) kb
  (per, per.map fun y => bwdI8 (headOf e) y.p, per.map fun y => bwdI8 (headOf e) y.ds)

/-- A key block of 128 positions against the rows of query tile `tile` (R167): each row's dQ, and each position's dK and dV summed over the rows of
the tile, added into the outputs. `first` is the block's first row of keys, `at_` are the rows' numbers. -/
def bwdBlock (e : Env) (edk edv : Int) (hide : BwdIn → KeyBlock → Nat → Bool) (tile : Nat) (at_ : List Nat) (rows : List BwdIn) (first : Nat) (kb : KeyBlock)
    (acc : BwdAcc) : BwdAcc :=
  let n := (e.desc e.leg.a).e0
  let (per, p8, s8) := bwdTile e hide rows kb
  let open_ := fun (i j : Nat) => ((nth per i { p := [], ds := [] }).p[j]?).join.isSome
  let acc := rows.zipIdx.foldl (fun acc x =>
    let js := (List.range kb.pos.length).filter (open_ x.2)
    if js.isEmpty then acc
    else addRow e tile 2 (nth at_ x.2 0) ((List.range n).map fun c => match x.1.ex with
      | none => .nan
      | some y => sumProducts (js.map fun j => (elemOf (nth s8 x.2 []) j, elemOf (nth kb.keys j []) c)) y.eo) acc) acc
  (List.range kb.pos.length).foldl (fun acc j =>
    let live := (List.range rows.length).filter fun i => open_ i j
    let sum := fun (w : List BRow) (f : BwdIn → BRow) (eo : Int) => (List.range n).map fun c =>
      sumProducts (live.map fun i => (elemOf (nth w i []) j, elemOf (f (nth rows i .none)) c)) eo
    if live.isEmpty then acc
    else addRow e tile 1 (first + j) (sum p8 (·.d) edv) (addRow e tile 0 (first + j) (sum s8 (·.q) edk) acc)) acc

/-- Row compares excluded in a query tile of the backward pass (R96, R149, R167), where a product has a special value: of phase 1, S and dP, one for
each row, slice and key tile; of phase 2, dQ, one for each row and step of 128 positions, and of dV and dK one for each position (log entry 84). -/
def bwdExcluded (e : Env) (hide : BwdIn → KeyBlock → Nat → Bool) (rows : List BwdIn) (ks : List KeyBlock) : Nat :=
  let cols := fun (r : BRow) => List.range (32 * r.length)
  let one := fun (x : BwdIn) => ((pieces 2 ks).map fun t =>
    sliceExcluded x.q (liveRows (·.keys) (hide x) t) + sliceExcluded x.d (liveRows (·.vals) (hide x) t)).foldl (· + ·) 0
  let block := fun (k : KeyBlock) =>
    let (per, p8, s8) := bwdTile e hide rows k
    let open_ := fun (i j : Nat) => ((nth per i { p := [], ds := [] }).p[j]?).join.isSome
    let js := List.range k.pos.length
    let is := List.range rows.length
    let pair := fun (w : List BRow) (i j : Nat) (r : BRow) => open_ i j && pairSpecial ((cols r).map fun c => (elemOf (nth w i []) j, elemOf r c))
    (is.filter fun i => js.any fun j => pair s8 i j (nth k.keys j [])).length +
    (js.filter fun j => is.any fun i => pair p8 i j (nth rows i .none).d).length +
    (js.filter fun j => is.any fun i => pair s8 i j (nth rows i .none).q).length
  (rows.map one).foldl (· + ·) 0 + (ks.map block).foldl (· + ·) 0

/-- The rows of ATTEND_BWD's partial area once it ends: of row i of the last query tile that has one the state record and ℓ (R115, R151); no other
contents are given. -/
def bwdPartials (e : Env) (tiles : List (List BwdIn)) : Prog :=
  forEach (List.range (bits e.leg.p0 0 7 + 1)) fun i =>
    match (tiles.filterMap fun t => t[i]?).getLast? with
    | none => .skip
    | some x => scratchWrite e.p (e.leg.p2 + 1152 * i) ((x.rec_ ++ [nth x.rec_ 1 0]).flatMap (leBytes 4))

/-- What ATTEND_BWD leaves in its arrays (R167): in the score array K in value orientation and the stationary Q, in the P·V array V in key orientation and
the stationary dO, of the last query tile and its last key blocks. -/
def leaveBackward (e : Env) (d : Nat) (rows : List BwdIn) (ks : List KeyBlock) : Prog :=
  let last := ks.drop (ks.length - 1)
  let rowCells := fun (l : List BRow) => (List.range d).map fun c => l.map fun r => ofSigned 8 (cellInt (blkAt r (c / 32)) (c % 32))
  .seq (loadPlanes e 0 [rowCells (last.flatMap (·.keys)), rowCells (rows.map (·.q))])
    (loadPlanes e 1 [rowCells (last.flatMap (·.vals)), rowCells (rows.map (·.d))])

/-- ATTEND_BWD's effect: contributions to dQ, dK and dV added into the outputs. `ld` is e_ℓ0 - e_O0, which no field of the leg gives: a free value.
DESIGN CHOICE: a special value written to any of the three outputs flags the query tile whose contribution is added, and is recorded by its row and
column in that output (log entry 114). -/
def attendBwdWith (chk : HwCheck) (ram : List SramErr) (e : Env) (ld : Int) : Prog :=
  let l := e.leg
  let q := e.desc l.a
  let k := e.desc l.b
  let v := e.desc (l.b + 1)
  let rotQ := bit l.p0 10
  let rotK := bit l.p0 11
  let edk := toSigned 10 (bits l.p1 8 10)
  let edv := toSigned 10 (bits l.p1 18 10)
  let st := e.desc (l.expd + 2)
  let causal := bits l.p0 8 2 == 1
  if (rotQ || rotK) && !ropeReady e.s e.island q.e0 then ropeFault e
  else
    let g := q.e2 / k.e2
    let gs := groupRows q g
    let rowIn := fun r =>
      let qp := q.posBase + r % q.e1
      ({ rec_ := (List.range 4).map fun i => leNat (descBytes e.view st (rowOff st r + 4 * i) 4).1, ex := (rowExp e r).map (fun x => { x with ld := ld }),
         se := toSigned 7 (bits l.p1 1 7), q := aRow e rotQ q qp r, d := (rowBlocks e.view (e.desc l.c) r).map (·.1),
         delta := ((rowVals e.view (e.desc (l.c + 1)) r).map (·.1)).headD (.fin 0), pos := qp } : BwdIn)
    let tiles := gs.zipIdx.flatMap fun x => (pieces (bits l.p0 0 7 + 1) ((List.range x.1.2).map (x.1.1 + ·))).map fun y => (x.2, y)
    let hide := fun (x : BwdIn) (kb : KeyBlock) (j : Nat) => causal && decide (x.pos < nth kb.pos j 0)
    let ex := tiles.map fun t => bwdExcluded e hide (t.2.map rowIn) (denseBlocks e rotK k v t.1)
    let acc := tiles.zipIdx.foldl (fun acc t => (denseBlocks e rotK k v t.1.1).zipIdx.foldl (fun acc kb =>
      bwdBlock e edk edv hide t.2 t.1.2 (t.1.2.map rowIn) (t.1.1 * k.e1 + 128 * kb.2) kb.1 acc) acc) { rows := [[], [], []], flags := [] }
    progs [
      areaFree e.p l.p2 (1152 * (bits l.p0 0 7 + 1)),
      tiles.getLast?.elim .skip fun t => leaveBackward e q.e0 (t.2.map rowIn) (denseBlocks e rotK k v t.1),
      attnChecks e chk ram,
      unlessFailed e.p (progs [
        bwdPartials e (tiles.map fun t => t.2.map rowIn),
        addSat (.gate e.p e.g) Reg.GATEA.EXCLUDED_COUNT (ex.foldl (· + ·) 0),
        forEach (List.range 3) fun i => forEach (nth acc.rows i []) fun y => emitWords e (if i = 0 then 3 else if i = 1 then 6 else 7) (e.desc (l.dst + i)) y.1 (y.2.map (svCode 32)),
        putFlags e.p e.g e.idx e.run.iter tiles.length acc.flags ((ex.zipIdx.filter fun x => x.1 != 0).map (·.2))])]

/-- ATTEND_BWD's effect with its free value (log entry 4). -/
def attendBwdBody (chk : HwCheck) (ram : List SramErr) (e : Env) : Prog :=
  withFree fun w => attendBwdWith chk ram e (toSigned 16 (w % 65536))

/-- ATTEND_BWD as an operation of a leg. -/
def opAttendBwd (chk : HwCheck) (ram : List SramErr) : LegOp :=
  { uses := fun e =>
      let l := e.leg
      aUse l.a .rd :: denseUses e ++ [aUse l.c .rd, aUse (l.c + 1) .rd] ++
      ([l.dst, l.dst + 1, l.dst + 2].flatMap fun i => [aUse i .rd, aUse i .wr]) ++ [aUse l.expd .rd, aUse (l.expd + 2) .rd],
    area := attnArea, reads := denseReads, status := fun e => attnStatus (bit e.leg.p0 10 || bit e.leg.p0 11) e, body := attendBwdBody chk ram }

/-- ATTEND_BWD (R167). -/
def execAttendBwd (p : Fin 64) (a : Fin 2) (chk : HwCheck) (ram : List SramErr) (s : State) : Host.Outcome State Fault Refusal :=
  done (runLeg p (aGate a) 3 ram (opAttendBwd chk ram)) s

end Sys2Proof.Machine
end

