-- ==== Sys2Proof/Machine/GateG.lean ====
section
/-! DEFINITION. G-gate legs: sampling, gathers, the drift accumulator and its legs, embedding tables (R172 to R196). -/

namespace Sys2Proof.Machine

open Sys2Proof

/-! ### Indices out of range (R174, R175) -/

/-- Indices of a leg that are out of range, by element, in order (R175): counted; the first since cleared kept in the registers; the first of the
leg recorded. -/
def noteRange (e : Env) (els : List Nat) : Prog :=
  let pg := Page.gate e.p e.g
  match els with
  | [] => .skip
  | el :: _ => .look fun s => progs [
      whenP (rd s pg Reg.GATEG.CHECK_IDX_RANGE == 0) (progs [
        wr pg Reg.GATEG.CHECK_IDX_RANGE 1, wr pg Reg.GATEG.IDX_LEG e.idx, wr pg Reg.GATEG.IDX_ELEM_LO (el % 2 ^ 32),
        wr pg Reg.GATEG.IDX_ELEM_HI (el / 2 ^ 32), wr pg Reg.GATEG.IDX_ITER e.run.iter]),
      whenP (!(gateOf s e.island).rangeSeen) (.seq (modGate e.island fun x => { x with rangeSeen := true })
        (raise Code.IDX_RANGE e.island e.run.iter e.idx 0 [w64 el])),
      addSat pg Reg.GATEG.IDX_COUNT els.length]

/-- GG_STATUS of a leg; whether the accumulator holds entries is put in at its end. -/
def gStatus (table : Nat) (e : Env) : Prog :=
  .seq (wr (.gate e.p e.g) Reg.GATEG.GG_STATUS_OP e.leg.op) (wr (.gate e.p e.g) Reg.GATEG.GG_STATUS_TABLE table)

/-- A G-gate command. -/
def execG (p : Fin 64) (op : Nat) (ram : List SramErr) (o : LegOp) (s : State) : Host.Outcome State Fault Refusal :=
  done (runLeg p 0 op ram o) s

/-! ### SAMPLE (R176 to R180) -/

/-- A 64-bit or 32-bit word of a one-dimensional index tensor; a poisoned one reads as BAD (R224). -/
def sampleWord (v : View) (d : Desc) (i : Nat) : Nat :=
  match idxAt v d 0 i with
  | .bad => 2 ^ fmtBits d.fmt - 2
  | .none => 2 ^ fmtBits d.fmt - 1
  | .val n => n

/-- The place in memory of element `i` of a one-dimensional tensor. -/
def samplePiece (d : Desc) (i : Nat) : Nat × Nat × Nat := (d.region, rowOff d 0 + i * fmtBits d.fmt / 8, fmtBits d.fmt / 8)

/-- An entry of a path record: the index, the places read to draw it, each with its level (offsets, alias table, column array), and for a BAD one the
place of the offending index in its own tensor (R175). -/
structure Drawn where
  idx : Idx
  reads : List (Nat × Nat × Nat × Nat)
  elem : Nat := 0

/-- One entry drawn from a parent (R178), which stands at element `at_` of its tensor: of SRC_A, or of the path record for a later hop. DEDUCED: of a row
of edges that R178 rejects the offending index is the offset of its end (log entry 115). -/
def sampleEntry (e : Env) (x : Nat) (parent : Idx) (at_ : Nat) : Drawn :=
  let off := e.desc e.leg.b
  let col := e.desc (e.leg.b + 1)
  let nodes := off.e0 - 1
  match parent with
  | .none => { idx := .none, reads := [] }
  | .bad => { idx := .bad, reads := [], elem := at_ }
  | .val n =>
    if nodes ≤ n then { idx := .bad, reads := [], elem := at_ }
    else
      let lo := sampleWord e.view off n
      let hi := sampleWord e.view off (n + 1)
      let ps := [(0, samplePiece off n), (0, samplePiece off (n + 1))]
      let pick := fun (j : Nat) (q : List (Nat × Nat × Nat × Nat)) =>
        let c := sampleWord e.view col (lo + j)
        ({ idx := if nodes ≤ c then .bad else .val c, reads := ps ++ q ++ [(2, samplePiece col (lo + j))], elem := lo + j } : Drawn)
      if hi < lo ∨ col.e0 < hi then { idx := .bad, reads := ps, elem := n + 1 }
      else
        let deg := hi - lo
        if deg = 0 then { idx := .none, reads := ps }
        else if !bit e.leg.p0 20 then pick (x * deg / 2 ^ 64) []
        else if 2 ^ 32 ≤ deg then { idx := .bad, reads := ps, elem := n + 1 }
        else
          let al := e.desc e.leg.c
          let j := x / 2 ^ 32 * deg / 2 ^ 32
          let w := sampleWord e.view al (lo + j)
          let j := if w % 2 ^ 32 ≤ x % 2 ^ 32 then w / 2 ^ 32 else j
          let q := [(1, samplePiece al (lo + x / 2 ^ 32 * deg / 2 ^ 32))]
          if deg ≤ j then { idx := .bad, reads := ps ++ q, elem := lo + x / 2 ^ 32 * deg / 2 ^ 32 } else pick j q

/-- The entries of a hop, drawn from the entries of the hop before, which stand from element `at_` on; `k0` is the draw index of its first entry, `lv`
its first level of reads. -/
def sampleHop (e : Env) (draw : Nat → Nat) (k0 fan lv : Nat) (parents : List Idx) (at_ : Nat) : List Drawn :=
  (List.range (parents.length * fan)).map fun j =>
    let y := sampleEntry e (draw (k0 + j)) (nth parents (j / fan) .none) (at_ + j / fan)
    { y with reads := y.reads.map fun q => (lv + q.1, q.2) }

/-- The entries of seed `i` (R177). -/
def sampleSeed (e : Env) (draw : Nat → Nat) (i : Nat) (seed : Idx) : List Drawn :=
  let p0 := e.leg.p0
  let hops := bits p0 0 2
  let row := i * (e.desc e.leg.dst).e0
  let h1 := sampleHop e draw 0 (bits p0 2 6 + 1) 0 [seed] i
  let h2 := if hops < 2 then [] else sampleHop e draw h1.length (bits p0 8 6 + 1) 3 (h1.map (·.idx)) row
  let h3 := if hops < 3 then [] else sampleHop e draw (h1.length + h2.length) (bits p0 14 6 + 1) 6 (h2.map (·.idx)) (row + h1.length)
  h1 ++ h2 ++ h3

/-- The sampling position of the lane of seed `i` when it is drawn (R78, R179). -/
def seedPos (e : Env) (i : Nat) : Nat := (posOf e.s e.island 1 (i % 256) + i / 256) % 2 ^ 44

/-- The draw for entry `k` of seed `i` (R179). -/
def seedDraw (e : Env) (i : Nat) (seed : Idx) (k : Nat) : Nat :=
  let x := pisteOf e.s e.p
  let base := if bits x.word 10 2 = 1 then (match seed with | .val n => n | _ => 0) else seedPos e i
  drawAt x.seed 1 e.island (i % 256) (base * 2 ^ 20 + k)

/-- An index as an IX32 code (R174). -/
def idxCode : Idx → Nat
  | .none => 2 ^ 32 - 1
  | .bad => 2 ^ 32 - 2
  | .val n => n

/-- Sampling positions after `n` seeds, with a record for every lane that wraps (R78). -/
def advanceSeeds (e : Env) (n : Nat) : Prog :=
  let per := fun l => (n + 255 - l) / 256
  .seq
    (forEach ((List.range 256).filter fun l => decide (2 ^ 44 ≤ posOf e.s e.island 1 l + per l)) fun l =>
      raise Code.GEN_WRAP e.island e.run.iter e.idx l [])
    (modUnits fun u =>
      { u with genPos := (List.range 256).foldl (fun m l =>
          if per l = 0 then m else smSet zeroDefault m (posKey e.island 1 l) ((smGet zeroDefault m (posKey e.island 1 l) + per l) % 2 ^ 44)) u.genPos })

/-- The path record of a SAMPLE, row by row, with the places its entries are drawn from. -/
def sampleRows (e : Env) : List (List Drawn) :=
  let a := e.desc e.leg.a
  ((List.range a.e0).map (idxLin e.view a)).zipIdx.map fun x => sampleSeed e (seedDraw e x.2 x.1) x.2 x.1

/-- What SAMPLE reads at a level of its hops. -/
def sampleReads (k : Nat) (e : Env) : List Span :=
  if 3 * bits e.leg.p0 0 2 ≤ k then []
  else (sampleRows e).flatMap fun r => r.flatMap fun y => (y.reads.filter fun q => q.1 == k).map fun q => spanOf e.s e.p q.2

/-- SAMPLE's effect. -/
def sampleBody (e : Env) : Prog :=
  let d := e.desc e.leg.dst
  let rows := sampleRows e
  let bad := rows.flatten.filterMap fun x => if x.idx = .bad then some x.elem else none
  let base := rgnBase (rgnOf e.s e.p d.region)
  progs [
    forEach rows.zipIdx fun x => emitRow e 3 d x.2 (.codes (x.1.map fun y => idxCode y.idx)),
    noteRange e bad,
    advanceSeeds e (e.desc e.leg.a).e0,
    modUnits fun u => { u with pathRec := smSet (fun _ => (0, 0)) u.pathRec e.p (base + d.offset, footEnd d - d.offset) }]

/-- SAMPLE as an operation of a leg. -/
def opSample : LegOp :=
  { uses := fun e => [{ idx := e.leg.a, use := .rd }, { idx := e.leg.b, use := .idx }, { idx := e.leg.b + 1, use := .idx }] ++
      (if named e.leg.c then [({ idx := e.leg.c, use := .idx } : OpUse)] else []) ++ [{ idx := e.leg.dst, use := .wr, locs := [2] }]
    reads := (List.range 9).map sampleReads
    status := gStatus 0, body := sampleBody }

/-- SAMPLE (R176). -/
def execSample (p : Fin 64) (ram : List SramErr) (s : State) : Host.Outcome State Fault Refusal :=
  execG p 1 ram opSample s

/-! ### Rows copied (R175, R181, R224) -/

/-- A row as bytes: codes, E8 bytes, side entries. -/
structure RawRow where
  codes : List Byte
  e8s : List Byte
  sides : List Byte
  deriving DecidableEq, Repr

/-- Bytes with the elements of width `w` that `bad` names replaced by the NaR code. -/
def nanElems (w n : Nat) (bytes : List Byte) (bad : List Nat) : List Byte :=
  if bad.isEmpty then bytes else packCodes w ((List.range n).map fun i => if elemBad bad w i then 2 ^ (w - 1) else codeAt w bytes i)

/-- An ER row of NaR or of zeros (R65, R174, R175). -/
def erRow (n : Nat) (exp : Nat) : List Byte := [0, 0, 0, 0, BitVec.ofNat 8 exp] ++ List.replicate (n - 5) 0

/-- Bytes of `n` packed codes with the bits beyond the last one 0 (R58). -/
def tidyCodes (w n : Nat) (bytes : List Byte) : List Byte := if w < 8 then packCodes w ((List.range n).map (codeAt w bytes)) else bytes

/-- A row of a tensor as a copy takes it, poison read as R224 says; bits beyond a row's last element and padding elements are 0 (R58, R59). Elements
of zero and invalid blocks, and side-list entries of these and of special ones, are not read (R60, R61), and 0 is written for them. -/
def rawRow (v : View) (d : Desc) (row : Nat) : RawRow :=
  let w := fmtBits d.fmt
  let nb := ceilDiv d.e0 32
  let n := rowBytes d.fmt d.e0
  let (bytes, bad) := descBytes v d (rowOff d row) n
  if isBlock d.fmt then
    let bw := 32 * w / 8
    let orr := rgnOf v.s v.p d.outRegion
    let raw := fun b => e8Of v d (row * nb + b)
    let e8 := fun b => if d.fmt = 0x14 ∧ (raw b ≠ -127 ∧ bad.any fun i => i / 12 == b) then -128 else raw b
    let side := if d.outEn = 1 then rgnBytes v orr (d.outOffset + 8 * row * nb) (8 * nb) else []
    let pbad := if d.outEn = 1 then poisonOffs v orr (d.outOffset + 8 * row * nb) (8 * nb) else []
    { codes := (List.range nb).flatMap fun b =>
        if e8 b = -127 ∨ e8 b = -128 then List.replicate bw 0
        else if d.fmt = 0x14 then sliceBytes bytes (12 * b) 12
        else packCodes w ((List.range 32).map fun i =>
          if d.e0 ≤ 32 * b + i then 0 else if elemBad bad w (32 * b + i) then 2 ^ (w - 1) else codeAt w bytes (32 * b + i))
      e8s := (List.range nb).map fun b => BitVec.ofInt 8 (e8 b)
      sides := if d.outEn = 1 then (List.range nb).flatMap fun b =>
          if e8 b = -127 ∨ e8 b = -128 ∨ e8 b = 127 then leBytes 8 0
          else if pbad.any (fun i => i / 8 == b) then leBytes 8 3 else sliceBytes side (8 * b) 8
        else [] }
  else if isER d.fmt then { codes := if bad.isEmpty then bytes.take 8 ++ tidyCodes w d.e0 (bytes.drop 8) else erRow n 128, e8s := [], sides := [] }
  else if isIX d.fmt then
    { codes := if bad.isEmpty then bytes else packCodes w ((List.range d.e0).map fun i => if elemBad bad w i then 2 ^ w - 2 else codeAt w bytes i), e8s := [], sides := [] }
  else { codes := tidyCodes w d.e0 (nanElems w d.e0 bytes bad), e8s := [], sides := [] }

/-- The row a gather of NONE yields (R174), or of an index out of range (R175). -/
def filledRow (d : Desc) (nan : Bool) : RawRow :=
  let w := fmtBits d.fmt
  let nb := ceilDiv d.e0 32
  let n := rowBytes d.fmt d.e0
  if isBlock d.fmt then
    { codes := List.replicate n 0, e8s := List.replicate nb (if nan then 128 else 129), sides := if d.outEn = 1 then List.replicate (8 * nb) 0 else [] }
  else if isER d.fmt then { codes := erRow n (if nan then 128 else 129), e8s := [], sides := [] }
  else if isIX d.fmt then { codes := packCodes w (List.replicate d.e0 (if nan then 2 ^ w - 2 else 0)), e8s := [], sides := [] }
  else { codes := packCodes w (List.replicate d.e0 (if nan then 2 ^ (w - 1) else 0)), e8s := [], sides := [] }

/-- The values a row as bytes holds. -/
def rawVals (d : Desc) (r : RawRow) : List SV :=
  let w := fmtBits d.fmt
  if isBlock d.fmt then
    (List.range (ceilDiv d.e0 32)).flatMap fun b =>
      let n := min 32 (d.e0 - 32 * b)
      let e8 := toSigned 8 (leAt r.e8s b 1)
      if d.fmt = 0x14 then (decode24 n e8 ((r.codes.drop (12 * b)).take 12) false).1.vals.take n
      else (decodeBlock w n e8 ((List.range n).map fun i => codeAt w r.codes (32 * b + i)) (if d.outEn = 1 then some (leAt r.sides (8 * b) 8) else none) false []).vals
  else if isER d.fmt then (decodeER w d.e0 r.codes false).1
  else if isIX d.fmt then []
  else (List.range d.e0).map fun i => codeSV w (codeAt w r.codes i)

/-- A row as bytes written to a tensor. -/
def emitRaw (e : Env) (operand : Nat) (d : Desc) (row : Nat) (r : RawRow) : Prog :=
  let nb := ceilDiv d.e0 32
  let rg := fun i => rgnOf e.s e.p i
  progs [
    emitBytes e operand (rg d.region) (rowOff d row) r.codes false,
    whenP (isBlock d.fmt) (emitBytes e operand (rg d.scaleRegion) (d.scaleOffset + row * nb) r.e8s false),
    whenP (d.outEn == 1) (emitBytes e operand (rg d.outRegion) (d.outOffset + 8 * row * nb) r.sides false)]

/-- Rows as FIFO entries: other rows packed flat; block rows as E8 bytes ahead of codes, by the row tiles of the M-gate that takes them (R203), or by
the gate's own of 32 rows. -/
def rawEntries (e : Env) (d : Desc) (rows : List RawRow) : List (List Nat) :=
  if isBlock d.fmt then tileBlocks (match matReader e with | some l => matT l | none => 32) (rows.map fun r => (r.e8s, r.codes))
  else byteEntries (rows.flatMap (·.codes))

/-- Tiles of 32 rows and 256 columns (R182). -/
def gTile (n r c : Nat) : Nat := r / 32 * ceilDiv n 256 + c / 256

/-- The indices of a GATHER. -/
def gatherIdx (e : Env) : List Idx := (List.range (elemsOf (e.desc e.leg.b))).map (idxLin e.view (e.desc e.leg.b))

/-- The row an index selects among `n`, if any. -/
def rowIn (n : Nat) : Idx → Option Nat
  | .val k => if k < n then some k else none
  | _ => none

/-- Whether an index is out of range among `n` rows (R175); NONE is not (R174). -/
def idxOut (n : Nat) : Idx → Bool
  | .none => false
  | .bad => true
  | .val k => decide (n ≤ k)

/-- The elements of a list of indices that are out of range among `n` rows. -/
def idxOuts (n : Nat) (l : List Idx) : List Nat := l.zipIdx.filterMap fun x => if idxOut n x.1 then some x.2 else none

/-- GATHER's effect. -/
def gatherBody (e : Env) : Prog :=
  let a := e.desc e.leg.a
  let l := gatherIdx e
  let rows := l.map fun i => match rowIn a.e1 i with | some n => rawRow e.view a n | none => filledRow a (idxOut a.e1 i)
  progs [
    if e.leg.dst = FIFO then putDown e (rawEntries e a rows) else forEach rows.zipIdx fun x => emitRaw e 3 (e.desc e.leg.dst) x.2 x.1,
    noteRange e (idxOuts a.e1 l),
    putFlags e.p e.g e.idx e.run.iter (ceilDiv l.length 32 * ceilDiv a.e0 256) (rowFlags (gTile a.e0) (rows.map (rawVals a)))]

/-- GATHER as an operation of a leg. -/
def opGather : LegOp :=
  { uses := fun e => [{ idx := e.leg.a, use := .idx }, { idx := e.leg.b, use := .rd }] ++
      (if named e.leg.dst then [({ idx := e.leg.dst, use := .wr } : OpUse)] else [])
    reads := [rowFirst, rowNext].map fun f e => ((gatherIdx e).filterMap (rowIn (e.desc e.leg.a).e1)).flatMap (f e (e.desc e.leg.a))
    status := gStatus 0, body := gatherBody }

/-- GATHER (R181). -/
def execGather (p : Fin 64) (ram : List SramErr) (s : State) : Host.Outcome State Fault Refusal :=
  execG p 2 ram opGather s

/-! ### The drift accumulator (R183 to R186) -/

/-- An entry that leaves the accumulator: its key, its set, the element of its first contribution, its lanes, and whether an ECC error makes them
NaR. -/
structure Leave where
  key : Nat
  set : Nat
  elem : Nat
  lanes : List SV
  ecc : Bool
  deriving DecidableEq, Repr

/-- A contribution: its key, the element of its index, its addends. -/
structure Contrib where
  key : Nat
  elem : Nat
  adds : List SV
  deriving DecidableEq, Repr

/-- The accumulator while a leg runs: its entries, the update clock, the entries that have left, in order, and the places whose next entry made is
uncorrectable (R186). -/
structure Drift where
  map : SMap DriftEntry
  age : Nat
  out : List Leave
  errs : List (Nat × Nat)
  deriving DecidableEq, Repr

/-- The set of a key (R183). -/
def driftSet (k : Nat) : Nat := k * 0x9E3779B1 % 2 ^ 32 / 2 ^ 21

/-- Way `w` of a set. -/
def driftWay (p set w : Nat) : Nat := p * 16384 + set * 8 + w

/-- An entry as it leaves. -/
def leaving (set : Nat) (x : DriftEntry) : Leave :=
  { key := x.key, set := set, elem := x.elem, lanes := if x.poison || x.ecc then List.replicate 32 .nan else x.lanes.map (codeSV 32), ecc := x.ecc }

/-- One contribution (R183); `fail` marks a second residue mismatch on it (R331). -/
def driftAdd (p : Nat) (x : Drift) (c : Contrib) (fail : Bool) : Drift :=
  let set := driftSet c.key
  let at_ := fun w => smGet (fun _ => DriftEntry.none) x.map (driftWay p set w)
  let put := fun w (en : DriftEntry) => smSet (fun _ => DriftEntry.none) x.map (driftWay p set w) en
  let fresh := fun (w : Nat) =>
    ({ key := c.key, lanes := (padTo 32 (.fin 0) c.adds).map (svCode 32), poison := fail, ecc := x.errs.contains (set, w), elem := c.elem, age := x.age + 1 } : DriftEntry)
  let ways := List.range 8
  match ways.find? fun w => at_ w != DriftEntry.none && (at_ w).key == c.key with
  | some w =>
    let en := at_ w
    let sum := (List.zipWith (fun k v => add32 (codeSV 32 k) v) en.lanes (padTo 32 (.fin 0) c.adds)).map (svCode 32)
    { x with map := put w { en with lanes := sum, poison := en.poison || fail, age := x.age + 1 }, age := x.age + 1 }
  | none => match ways.find? fun w => at_ w == DriftEntry.none with
    | some w => { x with map := put w (fresh w), age := x.age + 1, errs := x.errs.erase (set, w) }
    | none =>
      let w := ways.foldl (fun b w => if (at_ w).age < (at_ b).age then w else b) 0
      { map := put w (fresh w), age := x.age + 1, out := x.out ++ [leaving set (at_ w)], errs := x.errs.erase (set, w) }

/-- A flush (R185): sets and ways in order. -/
def driftFlush (p : Nat) (x : Drift) : Drift :=
  let mine := x.map.filter fun en => en.1 / 16384 == p
  { x with map := x.map.filter fun en => en.1 / 16384 != p, out := x.out ++ mine.map fun en => leaving (en.1 % 16384 / 8) en.2 }

/-- The records and registers of an entry that leaves with NaR lanes (R186). -/
def driftEcc (e : Env) (x : Leave) : Prog :=
  let pg := Page.gate e.p e.g
  whenP x.ecc (progs [
    wr pg Reg.GATEG.CHECK_DRIFT_ECC 1, addSat pg Reg.GATEG.DRIFT_ECC_COUNT 1, wr pg Reg.GATEG.DRIFT_ECC_SET x.set,
    raise Code.DRIFT_ECC e.island e.run.iter e.idx 0 [w32 x.set]])

/-- The places among those whose entries are uncorrectable that hold none when a leg begins: their errors meet the entries it makes there. -/
def laterErrs (e : Env) : List (Nat × Nat) :=
  e.driftErr.filter fun x => smGet (fun _ => DriftEntry.none) e.s.units.drift (driftWay e.p x.1 x.2) == DriftEntry.none

/-- The accumulator after the contributions of a drift leg and its flush, with the entries that have left. -/
def driftRun (e : Env) (chk : HwCheck) (adds : List Contrib) (lanes : Nat) : Drift :=
  let fails := fun i => match chk with | .persistent j => i == j | _ => false
  let x0 : Drift := { map := e.s.units.drift, age := e.s.units.driftAge, out := [], errs := laterErrs e }
  let x1 := adds.zipIdx.foldl (fun x a => driftAdd e.p x { a.1 with adds := a.1.adds.take lanes } (fails a.2)) x0
  let x2 := if bit e.leg.p0 31 then driftFlush e.p x1 else x1
  { x2 with out := x2.out.map fun y => { y with lanes := y.lanes.take lanes } }

/-- The contributions of a drift leg taken in, its flush, and what each leaving entry does by `send`; `ok` tells the entries that are added to the
target, lanes from column `col0` on, whose special values flag their tile (R81, R182). -/
def driftLeg (e : Env) (chk : HwCheck) (adds : List Contrib) (lanes col0 : Nat) (ok : Leave → Bool) (send : Leave → Prog) : Prog :=
  let x := driftRun e chk adds lanes
  let flags := (x.out.filter ok).flatMap fun y => (y.lanes.zipIdx.filter fun z => svSpecial z.1).map fun z =>
    ({ tile := y.set / 256, row := y.key, col := col0 + z.2, v := z.1 } : Flag)
  progs [
    (match chk with
     | .pass => .skip
     | .transient j => whenP (decide (j < adds.length)) (raise Code.ADDER_RECOMPUTE e.island e.run.iter e.idx 0 [])
     | .persistent j => whenP (decide (j < adds.length)) (progs [raise Code.ADDER_RECOMPUTE e.island e.run.iter e.idx 0 [],
       raise Code.DRIFT_RESIDUE e.island e.run.iter e.idx 0 [], fenceCause e.p 6])),
    forEach (List.range ((laterErrs e).length - x.errs.length)) fun _ => countUe,
    modUnits fun u => { u with drift := x.map, driftAge := x.age },
    forEach x.out fun y => .seq (driftEcc e y) (send y),
    wr (.gate e.p e.g) Reg.GATEG.GG_STATUS_DRIFT_BOUND (ofBool (x.map.any fun en => en.1 / 16384 == e.p)),
    putFlags e.p e.g e.idx e.run.iter (if bit e.leg.p0 31 then 8 else 0) flags]

/-- An entry sent to its target row (R185); a row at or beyond EXTENT1 is discarded. -/
def sendRow (e : Env) (x : Leave) : Prog :=
  let d := e.desc e.leg.dst
  if x.key < d.e1 then atomicAt e.p e.g e.idx e.adders (rgnOf e.s e.p d.region) (rowOff d x.key) x.lanes else noteRange e [x.elem]

/-- A leg whose leaving entries go to rows of DST. -/
def driftRows (e : Env) (chk : HwCheck) (adds : List Contrib) : Prog :=
  let d := e.desc e.leg.dst
  driftLeg e chk adds d.e0 0 (fun x => decide (x.key < d.e1)) (sendRow e)

/-- Row `i` of the addends of a scatter, `n` lanes wide. -/
def addendRow (e : Env) (n i : Nat) : List SV :=
  if e.leg.a = FIFO then ((entryVals e.fifo).drop (i * n)).take n else (rowVals e.view (e.desc e.leg.a) i).map (·.1)

/-- The contributions of a scatter over SRC_B to rows below `rows`. -/
def scatterAdds (e : Env) (rows n : Nat) : List Contrib :=
  (gatherIdx e).zipIdx.filterMap fun x => (rowIn rows x.1).map fun k => { key := k, elem := x.2, adds := addendRow e n x.2 }

/-- SCATTER_ADD's effect. -/
def scatterBody (chk : HwCheck) (e : Env) : Prog :=
  let d := e.desc e.leg.dst
  .seq (noteRange e (idxOuts d.e1 (gatherIdx e))) (driftRows e chk (scatterAdds e d.e1 d.e0))

/-- The entries a scatter takes when its addends come from the FIFO. -/
def scatterTakes (e : Env) : Nat :=
  if e.leg.a = FIFO then entriesFor (elemsOf (e.desc e.leg.b) * (e.desc e.leg.dst).e0) else 0

/-- SCATTER_ADD as an operation of a leg. -/
def opScatterAdd (chk : HwCheck) : LegOp :=
  { uses := fun e => (if named e.leg.a then [({ idx := e.leg.a, use := .rd } : OpUse)] else []) ++
      [{ idx := e.leg.b, use := .rd }, { idx := e.leg.dst, use := .at }]
    takes := scatterTakes, status := gStatus 0, body := scatterBody chk }

/-- SCATTER_ADD (R187). -/
def execScatterAdd (p : Fin 64) (chk : HwCheck) (ram : List SramErr) (s : State) : Host.Outcome State Fault Refusal :=
  execG p 3 ram (opScatterAdd chk) s

/-- The edges of an AGGREGATE: the slice row each belongs to, and its feature row. -/
def aggEdges (e : Env) : List (Option Nat × Idx) :=
  let off := e.desc e.leg.b
  let offs := (List.range off.e0).map (sampleWord e.view off)
  (List.range (e.desc e.leg.c).e0).map fun i =>
    ((List.range (off.e0 - 1)).find? fun r => decide (nth offs r 0 ≤ i) && decide (i < nth offs (r + 1) 0), idxAt e.view (e.desc e.leg.c) 0 i)

/-- The feature rows an AGGREGATE reads. -/
def aggRows (e : Env) : List Nat := (aggEdges e).filterMap fun x => x.1.bind fun _ => rowIn (e.desc e.leg.a).e1 x.2

/-- A feature row as an addend under TEXP: zeros for NONE, NaR out of range. -/
def feature (e : Env) (x : Idx) : List SV :=
  let a := e.desc e.leg.a
  match rowIn a.e1 x with
  | some n => (rowVals e.view a n).map fun v => if a.fmt = 4 then v.1 else svAlign v.1 v.2 (toSigned 16 (bits e.leg.p2 0 16))
  | none => List.replicate a.e0 (if idxOut a.e1 x then .nan else .fin 0)

/-- AGGREGATE's effect (R188). -/
def aggregateBody (chk : HwCheck) (e : Env) : Prog :=
  let edges := (aggEdges e).zipIdx
  .seq (noteRange e (edges.filterMap fun x => if x.1.1.isNone || idxOut (e.desc e.leg.a).e1 x.1.2 then some x.2 else none))
    (driftRows e chk (edges.filterMap fun x => x.1.1.map fun r => { key := (e.leg.p1 + r) % 2 ^ 32, elem := x.2, adds := feature e x.1.2 }))

/-- AGGREGATE as an operation of a leg. -/
def opAggregate (chk : HwCheck) : LegOp :=
  { uses := fun e => [{ idx := e.leg.a, use := .idx }, { idx := e.leg.b, use := .rd }, { idx := e.leg.c, use := .rd }, { idx := e.leg.dst, use := .at }]
    reads := [rowFirst, rowNext].map fun f e => (aggRows e).flatMap (f e (e.desc e.leg.a))
    status := gStatus 0, body := aggregateBody chk }

/-- AGGREGATE (R188). -/
def execAggregate (p : Fin 64) (chk : HwCheck) (ram : List SramErr) (s : State) : Host.Outcome State Fault Refusal :=
  execG p 4 ram (opAggregate chk) s

/-! ### Embedding tables (R190 to R196) -/

/-- A table record (R190). -/
structure EmbTable where
  w : List Nat
  deriving DecidableEq, Repr

/-- ROWS. -/
def EmbTable.rows (t : EmbTable) : Nat := bits (nth t.w 0 0) 0 32
/-- FORMAT. -/
def EmbTable.fmt (t : EmbTable) : Nat := bits (nth t.w 0 0) 32 8
/-- Elements per row. -/
def EmbTable.width (t : EmbTable) : Nat := bits (nth t.w 0 0) 40 12 + 1
/-- TRAINABLE. -/
def EmbTable.trainable (t : EmbTable) : Bool := bit (nth t.w 0 0) 52
/-- The region named by word `i`. -/
def EmbTable.region (t : EmbTable) (i : Nat) : Nat := bits (nth t.w i 0) 0 8
/-- The offset of word `i`. -/
def EmbTable.offset (t : EmbTable) (i : Nat) : Nat := bits (nth t.w i 0) 16 48
/-- MASTER_EXP. -/
def EmbTable.exp (t : EmbTable) : Int := toSigned 16 (bits (nth t.w 5 0) 0 16)
/-- The bytes of a working row. -/
def EmbTable.rowLen (t : EmbTable) : Nat := 8 + ceilDiv (t.width * fmtBits t.fmt) 8
/-- The stride of working slots. -/
def EmbTable.slotLen (t : EmbTable) : Nat := ceilDiv t.rowLen 32 * 32
/-- The stride of master slots. -/
def EmbTable.masterLen (t : EmbTable) : Nat := ceilDiv (t.width * 4) 64 * 64

/-- The record of a table in a tensor of table records; none where a word of it is poisoned (R224). -/
def embRecord (v : View) (d : Desc) (table : Nat) : Option EmbTable :=
  let (bytes, bad) := descBytes v d (rowOff d table) 64
  if bad.isEmpty then some { w := (List.range 8).map fun i => leAt bytes (8 * i) 8 } else none

/-- Whether the fields of a record are allowed (R190). -/
def embFields (t : EmbTable) : Bool :=
  decide (1 ≤ t.rows) && decide (t.rows ≤ 0xFFFFFFFD) && isER t.fmt && bits (nth t.w 0 0) 53 11 == 0 &&
  (List.range 5).all (fun i => bits (nth t.w (i + 1) 0) 8 8 == 0 || i == 4) && bits (nth t.w 5 0) 16 48 == 0 && nth t.w 6 0 == 0 && nth t.w 7 0 == 0 &&
  decide (-126 ≤ t.exp) && decide (t.exp ≤ 126)

/-- Whether a region is valid, at its place and has rights. -/
def embRegion (s : State) (p : Nat) (n loc : Nat) (us : List Use) : Bool :=
  let r := rgnOf s p n
  rgnValid r && rgnLoc r == loc && us.all fun u => rightsOk u r

/-- Whether a table serves a use: rights per region 1 directory, 2 hot, 3 cold, 4 master (R190). -/
def embOk (e : Env) (t : EmbTable) (dir hot cold master : List Use) : Bool :=
  embFields t && embRegion e.s e.p (t.region 1) 0 dir && embRegion e.s e.p (t.region 2) 0 hot && embRegion e.s e.p (t.region 3) 1 cold &&
  (!t.trainable || embRegion e.s e.p (t.region 4) 0 master)

/-- A leg that fails its table (R190). -/
def embFault (e : Env) : Prog := .seq (wr (.gate e.p e.g) Reg.GATEG.CHECK_EMB_TABLE 1) (faultLeg e.p e.g e.idx Code.EMB_TABLE 0 [])

/-- A leg over the record of its table: MEM_UE where the record is poisoned (R224), EMB_TABLE where it fails. -/
def withTable (e : Env) (operand : Nat) (ok : EmbTable → Bool) (k : EmbTable → Prog) : Prog :=
  match embRecord e.view (e.desc operand) (bits e.leg.p0 0 8) with
  | none => faultLeg e.p e.g e.idx Code.MEM_UE 0 []
  | some t => if ok t then k t else embFault e

/-- What the check of a leg's record finds at issue, before anything else of it (R190): the fault it ends with, if any. -/
def embCheck (e : Env) (operand : Nat) (ok : EmbTable → Bool) : Option Prog :=
  match embRecord e.view (e.desc operand) (bits e.leg.p0 0 8) with
  | none => some (faultLeg e.p e.g e.idx Code.MEM_UE 0 [])
  | some t => if ok t then none else some (embFault e)

/-- Whether `n` bytes at an offset lie in a region. -/
def inRegion (s : State) (p region off n : Nat) : Bool := decide (off + n ≤ rgnLen (rgnOf s p region))

/-- `n` bytes at an offset of a region of a table on module `node`: here, or at the same place of the owner (R192). -/
def ownerSpan (e : Env) (node region off n : Nat) : Span :=
  let r := rgnOf e.s e.p region
  if node = ownNode e.s then spanOf e.s e.p (region, off, n)
  else { loc := 3, node := node, space := if rgnLoc r = 1 then 1 else 0, addr := rgnBase r + off, len := n }

/-- The bytes of a span as a leg reads them. -/
def spanBytes (e : Env) (x : Span) : List Byte := viewBytes e.view x.loc x.node x.space x.addr x.len

/-- A level-2 entry (R191). -/
structure L2 where
  slot : Nat
  cold : Bool
  valid : Bool
  migrating : Bool
  newSlot : Nat
  newCold : Bool
  deriving DecidableEq, Repr

/-- A level-2 entry from its 16 bytes. -/
def l2Of (b : List Byte) : L2 :=
  { slot := leAt b 0 4, cold := bit (leAt b 4 4) 0, valid := bit (leAt b 4 4) 1, migrating := bit (leAt b 4 4) 2, newSlot := leAt b 8 4, newCold := bit (leAt b 12 4) 0 }

/-- The level-1 entry of a row (R191), none for a row at or beyond ROWS or an entry outside the directory's region. -/
def dirSpan (e : Env) (t : EmbTable) (row : Nat) : Option Span :=
  let o := t.offset 1 + 16 * (row / 65536)
  if t.rows ≤ row ∨ !inRegion e.s e.p (t.region 1) o 16 then none else some (spanOf e.s e.p (t.region 1, o, 16))

/-- The owner of a row and the place of its level-2 entry (R193 step 1), none where the level-1 entry is poisoned or points outside the region. -/
def shardSpan (e : Env) (t : EmbTable) (row : Nat) : Option (Nat × Span) :=
  (dirSpan e t row).bind fun x =>
    let b := spanBytes e x
    let o := leAt b 2 6 + 16 * (row % 65536)
    if spanPoison e { x with len := 8 } ∨ !inRegion e.s e.p (t.region 1) o 16 then none
    else some (leAt b 0 2, ownerSpan e (leAt b 0 2) (t.region 1) o 16)

/-- The directory resolved for a row (R193 steps 1 and 2): the owner and the level-2 entry, none for a row out of range (R191). -/
def resolve (e : Env) (t : EmbTable) (row : Nat) : Option (Nat × L2) :=
  (shardSpan e t row).bind fun x =>
    let l := l2Of (spanBytes e x.2)
    if l.valid ∧ !spanPoison e x.2 then some (x.1, l) else none

/-- The table of an embedding leg, where it serves the leg (R190). -/
def embTable (e : Env) (operand : Nat) (ok : EmbTable → Bool) : Option EmbTable := (embRecord e.view (e.desc operand) (bits e.leg.p0 0 8)).filter ok

/-- The record of a leg's table. -/
def recordSpan (e : Env) (operand : Nat) : Span := spanOf e.s e.p ((e.desc operand).region, rowOff (e.desc operand) (bits e.leg.p0 0 8), 64)

/-- What an embedding leg reads for its rows: its record, the level-1 entries, the level-2 entries, and what `next` asks for. -/
def embReadsAt (operand : Env → Nat) (ok : Env → EmbTable → Bool) (rows : Env → EmbTable → List Nat) (next : Env → EmbTable → Nat → Option Span) :
    List (Env → List Span) :=
  (fun e => [recordSpan e (operand e)]) ::
  [dirSpan, fun e t r => (shardSpan e t r).map (·.2), next].map fun f e =>
    match embTable e (operand e) (ok e) with | none => [] | some t => (rows e t).filterMap (f e t)

/-- The region and offset of a working slot. -/
def slotPlace (t : EmbTable) (cold : Bool) (slot : Nat) : Nat × Nat :=
  let i := if cold then 3 else 2
  (t.region i, t.offset i + slot * t.slotLen)

/-- The offset of a master slot. -/
def masterPlace (t : EmbTable) (slot : Nat) : Nat × Nat := (t.region 4, t.offset 4 + slot * t.masterLen)

/-- One row written by EMB_GATHER. -/
def embPut (e : Env) (t : EmbTable) (i : Nat) (row : List Byte) : Prog :=
  let d := e.desc e.leg.dst
  if bit e.leg.p0 8 then
    let (v, ex) := decodeER (fmtBits t.fmt) t.width row false
    let l := v.map fun x => svAlign x ex (toSigned 16 (bits e.leg.p2 0 16))
    emitWords e 3 d i (l.map (svCode 32))
  else emitBytes e 3 (rgnOf e.s e.p d.region) (rowOff d i) row false

/-- The values of an EMB_GATHER row. -/
def embVals (e : Env) (t : EmbTable) (row : List Byte) : List SV :=
  let (v, ex) := decodeER (fmtBits t.fmt) t.width row false
  if bit e.leg.p0 8 then v.map fun x => svAlign x ex (toSigned 16 (bits e.leg.p2 0 16)) else v

/-- Whether a table serves an EMB_GATHER (R190, R193). -/
def gatherTableOk (e : Env) (t : EmbTable) : Bool :=
  embOk e t [.rd, .at] [.rd] [.rd] [] &&
  (e.leg.dst == FIFO || ((e.desc e.leg.dst).e0 == t.width && (bit e.leg.p0 8 || (e.desc e.leg.dst).fmt == t.fmt)))

/-- The row numbers of an embedding leg. -/
def embNumbers (e : Env) : List Nat := (gatherIdx e).filterMap fun x => match x with | .val n => some n | _ => none

/-- The working row of a row number (R193 step 3), none where it is out of range. -/
def workSpan (e : Env) (t : EmbTable) (row : Nat) : Option Span :=
  (resolve e t row).bind fun x =>
    let (rg, off) := slotPlace t x.2.cold x.2.slot
    if inRegion e.s e.p rg off t.rowLen then some (ownerSpan e x.1 rg off t.rowLen) else none

/-- A row of EMB_GATHER: the bytes read, a zero row for NONE, else none. -/
def embRow (e : Env) (t : EmbTable) : Idx → Option (List Byte)
  | .none => some (erRow t.rowLen 129)
  | .bad => none
  | .val n => (workSpan e t n).map fun x =>
    let b := spanBytes e x
    if spanPoison e x then erRow t.rowLen 128 else b.take 8 ++ tidyCodes (fmtBits t.fmt) t.width (b.drop 8)

/-- EMB_GATHER's effect: lookups counted (R193 step 1), rows written, numbers out of range noted. -/
def embGatherBody (e : Env) : Prog :=
  withTable e e.leg.a (gatherTableOk e) fun t =>
    let got := (gatherIdx e).map (embRow e t)
    let rows := got.map (·.getD (erRow t.rowLen 128))
    let sent := fifoRows e (rows.map fun r => (toSigned 16 (bits e.leg.p2 0 16), embVals e t r))
    let back := if e.leg.dst = FIFO then sent.2 else rows.map (embVals e t)
    progs [
      forEach ((embNumbers e).filterMap (dirSpan e t)) fun x => atomicHbm (x.addr + 8) e.island e.adders [.fin 1],
      if e.leg.dst = FIFO then putDown e sent.1 else forEach rows.zipIdx fun x => embPut e t x.2 x.1,
      noteRange e (got.zipIdx.filterMap fun x => if x.1.isNone then some x.2 else none),
      putFlags e.p e.g e.idx e.run.iter (ceilDiv rows.length 32 * ceilDiv t.width 256) (rowFlags (gTile t.width) back)]

/-- EMB_GATHER as an operation of a leg. -/
def opEmbGather : LegOp :=
  { uses := fun e => [{ idx := e.leg.a, use := .rd, whole := false }, { idx := e.leg.b, use := .rd }] ++
      (if named e.leg.dst then [({ idx := e.leg.dst, use := .wr } : OpUse)] else [])
    reads := embReadsAt (fun e => e.leg.a) gatherTableOk (fun e _ => embNumbers e) workSpan
    status := fun e => gStatus (bits e.leg.p0 0 8) e, body := embGatherBody }

/-- EMB_GATHER (R193). -/
def execEmbGather (p : Fin 64) (ram : List SramErr) (s : State) : Host.Outcome State Fault Refusal :=
  execG p 5 ram opEmbGather s

/-- An update discarded for want of a master (R194): counted, the first since cleared kept, the first of the leg recorded. -/
def embCold (e : Env) (row : Nat) : Prog :=
  let pg := Page.gate e.p e.g
  let table := bits e.leg.p0 0 8
  .look fun s => progs [
    whenP (rd s pg Reg.GATEG.CHECK_EMB_COLD == 0) (progs [
      wr pg Reg.GATEG.CHECK_EMB_COLD 1, wr pg Reg.GATEG.COLD_TABLE table, wr pg Reg.GATEG.COLD_ROW row]),
    whenP (!(gateOf s e.island).coldSeen) (.seq (modGate e.island fun x => { x with coldSeen := true })
      (raise Code.EMB_COLD e.island e.run.iter e.idx 0 [w32 table, w32 row])),
    addSat pg Reg.GATEG.COLD_COUNT 1]

/-- The master slot that an update goes to (R194), or that a refresh reads (R196). -/
def masterSlot (x : L2) : Option Nat :=
  if !x.cold then some x.slot else if x.migrating && !x.newCold then some x.newSlot else none

/-- The slice of an EMB_SCATTER (R194). -/
def embSlice (e : Env) : Nat := bits e.leg.p0 9 7

/-- The lanes of a slice. -/
def sliceWidth (e : Env) (t : EmbTable) : Nat := min 32 (t.width - 32 * embSlice e)

/-- Where an update of a row goes (R194). -/
inductive MasterAt where
  | outside | none | at (node : Nat) (x : Span)
  deriving DecidableEq, Repr

/-- The lanes of a row's master that an EMB_SCATTER adds to: none where the row has no master; outside where the row is out of range. -/
def masterAt (e : Env) (t : EmbTable) (row : Nat) : MasterAt :=
  match resolve e t row with
  | none => .outside
  | some (owner, l2) => match masterSlot l2 with
    | none => .none
    | some m =>
      let (rg, off) := masterPlace t m
      let off := off + 128 * embSlice e
      if inRegion e.s e.p rg off (4 * sliceWidth e t) then .at owner (ownerSpan e owner rg off (4 * sliceWidth e t)) else .outside

/-- An entry of EMB_SCATTER sent to the row's master (R194). -/
def sendMaster (e : Env) (t : EmbTable) (x : Leave) : Prog :=
  match masterAt e t x.key with
  | .outside => noteRange e [x.elem]
  | .none => embCold e x.key
  | .at owner y => if y.loc = 3 then atomicPeer owner y.addr e.p e.g e.idx x.lanes else atomicHbm y.addr e.island e.adders x.lanes

/-- Whether an entry of EMB_SCATTER is added to a master. -/
def hasMaster (e : Env) (t : EmbTable) (x : Leave) : Bool := match masterAt e t x.key with | .at _ _ => true | _ => false

/-- Whether a table serves an EMB_SCATTER (R190, R194). -/
def scatterTableOk (e : Env) (t : EmbTable) : Bool :=
  embOk e t [.rd] [] [] [.at] && t.trainable && decide (32 * embSlice e < t.width) && (e.leg.a == FIFO || (e.desc e.leg.a).e0 == sliceWidth e t)

/-- EMB_SCATTER's effect. -/
def embScatterBody (chk : HwCheck) (e : Env) : Prog :=
  withTable e e.leg.c (scatterTableOk e) fun t =>
    .seq (noteRange e (idxOuts t.rows (gatherIdx e)))
      (driftLeg e chk (scatterAdds e t.rows (sliceWidth e t)) (sliceWidth e t) (32 * embSlice e) (hasMaster e t) (sendMaster e t))

/-- The entries EMB_SCATTER takes when its updates come from the FIFO: those of its slice's width. -/
def embTakes (e : Env) : Nat :=
  if e.leg.a = FIFO then
    match embRecord e.view (e.desc e.leg.c) (bits e.leg.p0 0 8) with
    | some t => entriesFor (elemsOf (e.desc e.leg.b) * sliceWidth e t)
    | none => 0
  else 0

/-- The rows whose entries leave the accumulator in an EMB_SCATTER. -/
def leavingRows (e : Env) (t : EmbTable) : List Nat :=
  ((driftRun e .pass (scatterAdds e t.rows (sliceWidth e t)) (sliceWidth e t)).out).map (·.key)

/-- EMB_SCATTER as an operation of a leg. -/
def opEmbScatter (chk : HwCheck) : LegOp :=
  { uses := fun e => (if named e.leg.a then [({ idx := e.leg.a, use := .rd } : OpUse)] else []) ++
      [{ idx := e.leg.b, use := .rd }, { idx := e.leg.c, use := .rd, whole := false }]
    takes := embTakes
    pre := fun e => [recordSpan e e.leg.c]
    check := fun e => embCheck e e.leg.c (scatterTableOk e)
    reads := embReadsAt (fun e => e.leg.c) scatterTableOk leavingRows fun _ _ _ => none
    sends := fun e => match embTable e e.leg.c (scatterTableOk e) with
      | none => []
      | some t => (leavingRows e t).filterMap fun r => match masterAt e t r with | .at _ x => some x | _ => none
    status := fun e => gStatus (bits e.leg.p0 0 8) e, body := embScatterBody chk }

/-- EMB_SCATTER (R194). -/
def execEmbScatter (p : Fin 64) (chk : HwCheck) (ram : List SramErr) (s : State) : Host.Outcome State Fault Refusal :=
  execG p 6 ram (opEmbScatter chk) s

/-- The largest code of a working row. -/
def erTop (fmt : Nat) : Int := if fmt = 0x20 then 254 else 14

/-- The floor of v / 2^s. -/
def floorShift (v : Int) (s : Nat) : Int := v / (2 ^ s : Nat)

/-- A working row refreshed from its master (R196): header bytes 0 to 4 and codes; none for the row that reads as NaR. -/
def refreshRow (fmt : Nat) (em : Int) (rnd : Nat → Rnd) (m : List SV) : Option (Nat × Nat × List Nat) :=
  let vs := m.filterMap fun v => match v with | .fin i => some i | _ => none
  if vs.length ≠ m.length then none
  else
    let lo := vs.foldl min (vs.headD 0)
    let hi := vs.foldl max (vs.headD 0)
    match (List.range (127 - em).toNat).find? fun k =>
        decide (-(floorShift (-hi) k) - floorShift lo k ≤ erTop fmt) && decide ((floorShift lo k).natAbs ≤ 32766) with
    | none => none
    | some k =>
      let off := floorShift lo k
      some (ofSigned 16 off, ofSigned 8 (em + k), vs.zipIdx.map fun x => (roundShift (rnd x.2) x.1 k - off).toNat)

/-- The bytes of a refreshed row at a tier. -/
def refreshBytes (t : EmbTable) (cold : Bool) (x : Option (Nat × Nat × List Nat)) : List Byte :=
  let hot := ofBool (!cold)
  match x with
  | none => leBytes 4 1 ++ [128, BitVec.ofNat 8 hot, 0, 0] ++ List.replicate (t.rowLen - 8) 0
  | some (off, ex, codes) => leBytes 2 1 ++ leBytes 2 off ++ leBytes 1 ex ++ [BitVec.ofNat 8 hot, 0, 0] ++ packCodes (fmtBits t.fmt) codes

/-- A row that an EMB_REFRESH may rewrite (R196): its master, and the places it is written to with whether each is cold. -/
structure Refresh where
  master : Span
  places : List (Nat × Nat × Bool)
  deriving DecidableEq, Repr

/-- What an EMB_REFRESH does with a row number. -/
inductive RefreshOf where
  | outside | leave | row (x : Refresh)
  deriving DecidableEq, Repr

/-- The owner of a row, where its level-1 entry names one. -/
def rowOwner (e : Env) (t : EmbTable) (row : Nat) : Option Nat := (shardSpan e t row).map (·.1)

/-- The decision on a row number: out of range; left, where another module owns it or it has no master; or rewritten (R196). -/
def refreshOf (e : Env) (t : EmbTable) (row : Nat) : RefreshOf :=
  match rowOwner e t row with
  | none => .outside
  | some o =>
    if o ≠ ownNode e.s then .leave
    else match resolve e t row with
      | none => .outside
      | some (_, l2) => match masterSlot l2 with
        | none => .leave
        | some m =>
          let (mr, mo) := masterPlace t m
          let places := (slotPlace t l2.cold l2.slot, l2.cold) :: (if l2.migrating then [(slotPlace t l2.newCold l2.newSlot, l2.newCold)] else [])
          if !inRegion e.s e.p mr mo (4 * t.width) || places.any fun q => !inRegion e.s e.p q.1.1 q.1.2 t.rowLen then .outside
          else .row { master := spanOf e.s e.p (mr, mo, 4 * t.width), places := places.map fun q => (q.1.1, q.1.2, q.2) }

/-- The header of a row's working copy at its present place. -/
def headerSpan (e : Env) (x : Refresh) : Span := let q := nth x.places 0 (0, 0, false); spanOf e.s e.p (q.1, q.2.1, 8)

/-- Whether the header of a row holds FROZEN (R64). -/
def rowFrozen (e : Env) (x : Refresh) : Bool := bit (leAt (spanBytes e (headerSpan e x)) 5 1) 1

/-- The rows that an EMB_REFRESH rewrites, unless they are frozen. -/
def refreshRows (e : Env) (t : EmbTable) : List Refresh :=
  (embNumbers e).filterMap fun n => match refreshOf e t n with | .row x => some x | _ => none

/-- A row's master as it is read: NaR where it is poisoned (R224). -/
def masterVals (e : Env) (t : EmbTable) (x : Span) : List SV :=
  let bytes := spanBytes e x
  let bad := (List.range x.len).filter fun i => viewPoison e.view x.loc x.node x.space (x.addr + i)
  (List.range t.width).map fun i => if elemBad bad 32 i then .nan else codeSV 32 (leAt bytes (4 * i) 4)

/-- The rows of EMB_REFRESH rewritten in turn; `n` rows have been narrowed. DESIGN CHOICE: no rule orders the codes of EMB_REFRESH within a lane; they take
positions row by row, each listing and each location in turn (log entry 113). -/
def embRefreshRows (e : Env) (t : EmbTable) : List Refresh → Nat → Prog
  | [], n => advanceLanes e.island fun c => n * laneChunks t.width c
  | x :: r, n =>
    if rowFrozen e x then embRefreshRows e t r n
    else
      let rnd := fun c => finalRnd e.s e.p e.g e.leg.round c (n * laneChunks t.width c + c / 256)
      let new := refreshRow t.fmt t.exp rnd (masterVals e t x.master)
      .seq (forEach x.places fun q => emitBytes e 7 (rgnOf e.s e.p q.1) q.2.1 (refreshBytes t q.2.2 new) false)
        (embRefreshRows e t r (if new.isSome then n + 1 else n))

/-- Whether a table serves an EMB_REFRESH (R190, R196). -/
def refreshTableOk (e : Env) (t : EmbTable) : Bool := embOk e t [.rd] [.rd, .wr] [.rd, .wr] [.rd]

/-- Whether a number of an EMB_REFRESH is out of range (R175). -/
def refreshOut (e : Env) (t : EmbTable) : Idx → Bool
  | .none => false
  | .bad => true
  | .val n => if t.trainable then (match refreshOf e t n with | .outside => true | _ => false) else decide (t.rows ≤ n)

/-- EMB_REFRESH's effect. DESIGN CHOICE: it has no output tile, and a row that it writes to read as NaR flags none (log entry 116). -/
def embRefreshBody (e : Env) : Prog :=
  withTable e e.leg.a (refreshTableOk e) fun t =>
    .seq (noteRange e ((gatherIdx e).zipIdx.filterMap fun x => if refreshOut e t x.1 then some x.2 else none))
      (whenP t.trainable (embRefreshRows e t (refreshRows e t) 0))

/-- The numbers whose directory an EMB_REFRESH reads. -/
def refreshNumbers (e : Env) (t : EmbTable) : List Nat := if t.trainable then embNumbers e else []

/-- What an EMB_REFRESH reads of its rows: headers, then the masters of rows not frozen. -/
def refreshSpans (f : Env → EmbTable → Refresh → List Span) (e : Env) : List Span :=
  match embTable e e.leg.a (refreshTableOk e) with
  | none => []
  | some t => if t.trainable then (refreshRows e t).flatMap (f e t) else []

/-- EMB_REFRESH as an operation of a leg: the level-2 entries of this module's own rows only (R196). -/
def opEmbRefresh : LegOp :=
  { uses := fun e => [{ idx := e.leg.a, use := .rd, whole := false }, { idx := e.leg.b, use := .rd }]
    reads :=
      let l := embReadsAt (fun e => e.leg.a) refreshTableOk refreshNumbers fun _ _ _ => none
      l.take 1 ++ ((l.drop 1).map fun f e => (f e).filter (·.loc != 3)) ++
      [refreshSpans fun e _ x => [headerSpan e x], refreshSpans fun e _ x => if rowFrozen e x then [] else [x.master]]
    sends := refreshSpans fun e t x => if rowFrozen e x then [] else x.places.map fun q => spanOf e.s e.p (q.1, q.2.1, t.rowLen)
    status := fun e => gStatus (bits e.leg.p0 0 8) e, body := embRefreshBody }

/-- EMB_REFRESH (R196). -/
def execEmbRefresh (p : Fin 64) (ram : List SramErr) (s : State) : Host.Outcome State Fault Refusal :=
  execG p 7 ram opEmbRefresh s

end Sys2Proof.Machine
end

