-- ==== Sys2Proof/Machine/Runs.lean ====
section
/-! DEFINITION. Runs: boundaries and what pistes do at them (R49 to R54, R328), run starts and ends (R38, R41, R50, R318, R319, R324, R326, R340),
forerunners (R232 to R239), and the limits of runs (R41, R54, R55, R239, R313, R325). -/

namespace Sys2Proof.Machine

open Sys2Proof

/-! ### What all pistes show -/

/-- Whether a piste is fenced (R336). -/
def fenced (s : State) (p : Nat) : Bool := rd s (.pst p) Reg.PST.RUN_CTRL_FENCED == 1

/-- The pistes in service. -/
def unfenced (s : State) : List Nat := (List.range 64).filter fun p => !fenced s p

/-- The mode epoch a piste's gates hold (R53). -/
def epochOn (s : State) (p : Nat) : Nat := rd s (.gate p 0) Reg.GATE.EPOCH

/-- The least of a list of numbers, with the value for an empty one. -/
def minOf (d : Nat) : List Nat → Nat
  | [] => d
  | x :: r => r.foldl min x

/-- The started MODE_CHANGE commands with their epochs, oldest first. -/
def modeChanges (s : State) : List (Nat × Nat) :=
  s.host.accepted.filterMap fun c => match c.body with | some (.modeChange e _) => if c.started then some (c.id, e) else none | _ => none

/-- EPOCH_LOW, EPOCH_HIGH (R55), both APPLIED_LOWs (R49, R328) follow the pistes in service, and keep their values where none is; a MODE_CHANGE
completes once every gate in service holds its epoch or a higher one (R55). -/
def showApplied : Prog :=
  .look fun s =>
    let ps := unfenced s
    let es := ps.map (epochOn s)
    progs [
      whenP (!ps.isEmpty) (progs [
        wr .mode Reg.MODE.EPOCH_LOW (minOf 0 es), wr .mode Reg.MODE.EPOCH_HIGH (es.foldl max 0),
        wr (.rgn 0) Reg.RGN0.APPLIED_LOW (minOf 0 (ps.map fun p => rd s (.pst p) Reg.PST.REGION_SEQ)),
        forEach ((List.range 16).filter fun w => rd s (.rgn 1) Reg.RGN1.WSET_VALID w == 1) fun w =>
          wr (.rgn 1) Reg.RGN1.APPLIED_LOW (minOf 0 (ps.map fun p => smGet zeroDefault (pisteOf s p).versions w)) w]),
      forEach ((modeChanges s).filter fun c => es.all fun e => decide (c.2 ≤ e)) fun c => finish c.1 0 0]

/-! ### Boundary actions (R51) -/

/-- The SPARE_MAP field of spare `j`. -/
def spareField (j : Nat) : Fld :=
  nth [Reg.GATEM.SPARE_MAP_COL0, Reg.GATEM.SPARE_MAP_COL1, Reg.GATEM.SPARE_MAP_COL2, Reg.GATEM.SPARE_MAP_COL3] j Reg.GATEM.SPARE_MAP_COL0

/-- A spare column mapped for good (R97, R98). -/
def mapSpare (p g arr j col : Nat) : Prog :=
  .look fun s => progs [
    wr (.gate p g) (spareField j) col arr,
    wr (.gate p g) Reg.GATEM.SPARE_VALID ((rd s (.gate p g) Reg.GATEM.SPARE_VALID).lor (2 ^ (4 * arr + j))),
    wr (.gate p g) Reg.GATEM.SPARE_TEMP (bits ((rd s (.gate p g) Reg.GATEM.SPARE_TEMP).land (2 ^ 16 - 1 - 2 ^ (4 * arr + j))) 0 16)]

/-- Action 1: spare-column repairs take effect, and go into firmware's repair log (R97, R335). -/
def takeRepairs (p : Nat) : Prog :=
  .look fun s => .seq (modPiste p fun x => { x with repairs := [] }) (forEach (pisteOf s p).repairs fun r => progs [
    mapSpare p r.gate r.arr r.spare r.col,
    modFw fun f => { f with repairLog := f.repairLog ++ [(0, (((p * 12 + r.gate) * 4 + r.arr) * 4 + r.spare) * 256 + r.col)] },
    logOwn])

/-- Action 2: the committed region table is taken up (R49). DESIGN CHOICE: COMMIT.SEQ has 16 bits and the spec does not say what follows 65,535
commits; the model lets it wrap, shows the wrapped number in REGION_SEQ and takes the least of these numbers as APPLIED_LOW (log entry 86). -/
def takeRegions (p : Nat) : Prog :=
  .look fun s => .seq (modPiste p fun x => { x with applied := s.rgn.committed })
    (wr (.pst p) Reg.PST.REGION_SEQ (rd s (.rgn 0) Reg.RGN0.COMMIT_SEQ))

/-- Whether two slot ranges meet. -/
def slotsMeet (a m b n : Nat) : Bool := decide (a < b + n) && decide (b < a + m)

/-- The slots a load covers. -/
def loadSlots (l : Load) : Nat := slotsOf (leAt l.image 8 4)

/-- The slots of the map that begins in slot `j`, none where no map begins there. -/
def residentSlots (s : State) (p j : Nat) : Nat := if rd s (.pst p) Reg.PST.SLOT_ID j = 0 then 0 else slotsOf (imgSize (residentImg s p j))

/-- An image written to a slot on (R36): maps it covers are removed first. -/
def writeMap (p slot : Nat) (image : List Byte) : Prog :=
  .look fun s =>
    let n := slotsOf (leAt image 8 4)
    progs [
      forEach ((List.range 4).filter fun j => slotsMeet j (residentSlots s p j) slot n) fun j => wr (.pst p) Reg.PST.SLOT_ID 0 j,
      .prim (.bytes .mapMem (mapKey p slot 0) image),
      wr (.pst p) Reg.PST.SLOT_ID (leAt image 12 4) slot]

/-- The pistes on which a run has still to run: those that have not reported, and all of them once it is to start again after a replay (R318). -/
def runTodo (r : RunRec) : Nat := if r.left = 0 ∨ (r.status = Code.STALE_SHARD ∧ r.replays < 3) then r.mask else r.left

/-- Whether a piste may write a pending load: no run that it accepted earlier and that uses a slot of it is left (R37). -/
def loadReady (s : State) (p : Nat) (l : Load) : Bool :=
  s.runs.runs.all fun r => !(bit (runTodo r) p && decide (r.order < l.order) && slotsMeet r.slot (max 1 (residentSlots s p r.slot)) l.slot (loadSlots l))

/-- A load command completes once every piste named holds the map (R378). -/
def loadDone (cmd : Option Nat) : Prog :=
  .look fun s => whenP ((List.range 64).all fun p => (pisteOf s p).loads.all fun l => l.cmd != cmd) (finishOpt cmd 0 (failDetail 0 noLeg))

/-- Action 3: pending map loads are written, in order, as far as they may be. -/
def takeLoads (p : Nat) : Nat → Prog
  | 0 => .skip
  | n + 1 => .look fun s =>
    match (pisteOf s p).loads with
    | [] => .skip
    | l :: r => whenP (loadReady s p l) (progs [
        writeMap p l.slot l.image, modPiste p (fun x => { x with loads := r }), loadDone l.cmd, takeLoads p n])

/-- Action 4: the published bank of every weight set is taken up (R328). -/
def takeWeights (p : Nat) : Prog :=
  .look fun s =>
    let ws := (List.range 16).filter fun w => rd s (.rgn 1) Reg.RGN1.WSET_VALID w == 1 && rd s (.rgn 1) Reg.RGN1.PUB_VERSION w != 0
    forEach ws fun w =>
      let bank := if rd s (.rgn 1) Reg.RGN1.WSET_PUB_BANK w = 0 then rd s (.rgn 1) Reg.RGN1.WSET_BANK0 w else rd s (.rgn 1) Reg.RGN1.WSET_BANK1 w
      modPiste p fun x =>
        { x with
          applied := smSet rgnDefault x.applied (rd s (.rgn 1) Reg.RGN1.WSET_FRONT w) (smGet rgnDefault x.applied bank)
          versions := smSet zeroDefault x.versions w (rd s (.rgn 1) Reg.RGN1.PUB_VERSION w) }

/-- Action 5: the highest epoch commanded is applied by the piste and its gates (R53); a new job seed sets every stream of its gates to 0
(R79). -/
def takeEpoch (p : Nat) : Prog :=
  .look fun s =>
    let reseed := s.mode.seed != (pisteOf s p).seed
    whenP (epochOn s p != s.mode.cmd || reseed || s.mode.word != (pisteOf s p).word) (progs [
      forEach (List.range 12) fun g => wr (.gate p g) Reg.GATE.EPOCH s.mode.cmd,
      modPiste p fun x => { x with word := s.mode.word, seed := s.mode.seed },
      whenP reseed (modUnits fun u => { u with genPos := smDrop (fun k => k / 512 / 12 == p) u.genPos }),
      trace 3 (768 + p)])

/-- The boundary actions of a piste, in order (R51). -/
def boundaryActions (p : Nat) : Prog :=
  progs [takeRepairs p, takeRegions p, takeLoads p 64, takeWeights p, takeEpoch p]

/-- Whether a piste is idle (R51): at its boundary, with no run started or waited for. -/
def idlePiste (s : State) (p : Nat) : Bool := (pisteOf s p).run.isNone && (pisteOf s p).waiting.isNone && !fenced s p

/-- Idle pistes perform newly requested actions at once (R51). -/
def idleActions : Prog :=
  .look fun s => .seq (forEach ((List.range 64).filter (idlePiste s)) boundaryActions) showApplied

/-! ### Waiting at the boundary (R52, R54) -/

/-- Whether a run's maps belong to the layout in force (R323); a relayout run and a replay are not judged. -/
def layoutOk (s : State) (r : RunRec) : Bool := r.relayout || r.replay || decide (r.layout ≤ s.layout.applied)

/-- A run that firmware starts ahead of the queue (R318). -/
def forcedRun (r : RunRec) : Bool := r.replay || r.replays != 0

/-- The next run of a piste: one firmware starts, the relayout run, or the first queued, if its layout is in force. -/
def nextRun (s : State) (p : Nat) : Option RunRec :=
  let q := s.runs.runs.filter fun r => bit r.left p && !r.started
  match q.find? forcedRun with
  | some r => some r
  | none => match q.find? (·.relayout) with
    | some r => some r
    | none => match q with
      | [] => none
      | r :: _ => if layoutOk s r then some r else none

/-- EPOCH_FIX (R54): once every piste of a run stands at its boundary, its epoch is fixed as the highest commanded, again while it is below the run's
own. -/
def fixEpoch (id : Nat) : Prog :=
  .look fun s =>
    match findRun s id with
    | none => .skip
    | some r =>
      whenP (!r.started && decide (r.atBoundary = r.left) && (match r.fixed with | none => true | some e => decide (e < r.epoch)))
        (modRun id fun x => { x with fixed := some s.mode.cmd })

/-- A piste waits at its boundary for the other pistes of a run. -/
def waitFor (p : Nat) (r : RunRec) : Prog :=
  progs [
    modPiste p fun x => { x with waiting := some r.id },
    wr (.pst p) Reg.PST.RUN_STATUS_STATE 1,
    modRun r.id fun x => { x with atBoundary := putBits x.atBoundary p 1 1 },
    fixEpoch r.id]

/-- A piste held while it waits stands idle again (R51, R52), unless its run's epoch is fixed and met. -/
def unwait (p : Nat) : Prog :=
  .look fun s =>
    match (pisteOf s p).waiting.bind (findRun s) with
    | none => .skip
    | some r =>
      whenP (match r.fixed with | some e => decide (e < r.epoch) | none => true) (progs [
        modPiste p fun x => { x with waiting := none },
        wr (.pst p) Reg.PST.RUN_STATUS_STATE 0,
        modRun r.id fun x => { x with atBoundary := putBits x.atBoundary p 1 0, fixed := none },
        boundaryActions p, showApplied])

/-! ### Holds by firmware (R52) -/

/-- Whether firmware holds a piste. -/
def fwHeld (s : State) (p : Nat) : Bool := s.fw.holds.any (·.1 == p)

/-- Firmware clears ARM on those of the pistes given whose ARM is 1 and which no fence has stopped (R432), and remembers them under a reason; a piste that it holds for another reason it
holds for both. -/
def holdPistes (l : List Nat) (reason : Nat) : Prog :=
  .look fun s =>
    forEach (l.filter fun p => !fenced s p && (rd s (.pst p) Reg.PST.RUN_CTRL_ARM == 1 || fwHeld s p)) fun p => progs [
      wr (.pst p) Reg.PST.RUN_CTRL_ARM 0,
      modFw (fun f => if f.holds.contains (p, reason) then f else { f with holds := f.holds ++ [(p, reason)] }), unwait p]

/-- The end of a hold: ARM is set on the pistes it cleared, but for those that firmware holds for another reason still. -/
def releaseHold (reason : Nat) : Prog :=
  .look fun s =>
    let rest := s.fw.holds.filter (·.2 != reason)
    .seq (forEach (s.fw.holds.filter fun h => h.2 == reason && rest.all (·.1 != h.1)) fun h => wr (.pst h.1) Reg.PST.RUN_CTRL_ARM 1)
      (modFw fun f => { f with holds := rest })

/-- The hold of a snapshot begins once every piste in service stands at its boundary (R342 step 2): the highest ITERATION accepted by then is kept (R356).
It is taken before a RUN raises that number, and before the items are written. -/
def latchHold : Prog :=
  .look fun s => whenP ((unfenced s).all (idlePiste s)) (modFw fun f =>
    { f with snap := f.snap.map fun x => if x.iter.isNone then { x with iter := some (s.runs.topIter.getD 0) } else x })

/-- The reasons of a hold: a fence (R336), a snapshot (R342), a pair change (R359, R362), the replays of a run (R318). -/
def holdFence : Nat := 1
/-- See `holdFence`. -/
def holdMirror : Nat := 2
/-- See `holdFence`. -/
def holdPair : Nat := 3
/-- See `holdFence`. -/
def holdReplay (id : Nat) : Nat := 4 + id

/-! ### The fence (R336) -/

/-- The queued runs of a piste, as RUN_STATUS shows them (R52). -/
def queuedOf (s : State) (p : Nat) : Nat := min 65535 (s.runs.runs.filter fun r => !r.started && bit r.left p).length

/-- FENCE_APPLY (R336 steps 2 and 3): the piste is fenced, with its registers as they stand (R432) and no hold of firmware on it; its pending loads lapse, and
firmware holds every other piste. -/
def fenceApply (p : Nat) : Prog :=
  .look fun s => progs [
    wr (.pst p) Reg.PST.RUN_STATUS_QUEUED (queuedOf s p),
    wr (.pst p) Reg.PST.RUN_CTRL_FENCED 1, wr (.pst p) Reg.PST.RUN_CTRL_FENCE_PENDING 0,
    wr (.mod 3) (if p < 32 then Reg.MOD3.FENCED_LO else Reg.MOD3.FENCED_HI)
      ((rd s (.mod 3) (if p < 32 then Reg.MOD3.FENCED_LO else Reg.MOD3.FENCED_HI)).lor (2 ^ (p % 32))),
    modPiste p fun x => { x with loads := [] },
    forEach ((pisteOf s p).loads.map (·.cmd)) loadDone,
    mirEvent,
    modFw fun f => { f with fencing := f.fencing ++ [p], holds := f.holds.filter (·.1 != p) },
    holdPistes ((List.range 64).filter (· != p)) holdFence,
    showApplied]

/-- Whether a started SNAPSHOT holds a piste at its boundary (R380). -/
def snapHeld (s : State) (p : Nat) : Bool :=
  s.host.accepted.any fun c => c.started && (match c.body with
    | some (.snapshotSave _ m _ _) => bit m p
    | some (.snapshotRestore _ m _ _) => bit m p
    | _ => false)

/-- Whether a piste may start a run (R52): with ARM 1; with ARM 0 only a run that firmware starts ahead of the queue, on a piste it holds for that
run alone (R318). -/
def mayStart (s : State) (p : Nat) (r : RunRec) : Bool :=
  rd s (.pst p) Reg.PST.RUN_CTRL_ARM == 1 ||
  (forcedRun r && fwHeld s p && s.fw.holds.all fun h => h.1 != p || h.2 == holdReplay (r.held.getD r.id))

/-- The unfenced checkers of a piste, in the order of R339. -/
def checkersOf (s : State) (t : Nat) : List Nat := ([16, 32, 48].map fun k => (t + k) % 64).filter fun p => !fenced s p

/-- Whether a piste holds at its boundary as the checker of a capture whose check is due (R340 step 5). -/
def checkHeld (s : State) (p : Nat) : Bool := s.fw.captures.any fun c => c.due && (checkersOf s c.piste).head? == some p

/-- PISTE_BOUNDARY: a piste between runs performs the boundary actions (R51); then it takes a pending fence, or, with ARM 1, waits for its next run. -/
def progPisteBoundary (p : Nat) : Prog :=
  .look fun s =>
    whenP (idlePiste s p)
      (progs [
        boundaryActions p,
        showApplied,
        if rd s (.pst p) Reg.PST.RUN_CTRL_FENCE_PENDING = 1 then fenceApply p
        else .look fun t => match nextRun t p with
          | none => .skip
          | some r => whenP (mayStart t p r && !snapHeld t p && !checkHeld t p) (waitFor p r)])

/-- PISTE_BOUNDARY (R51). -/
def execPisteBoundary (p : Fin 64) (s : State) : Host.Outcome State Fault Refusal := done (progPisteBoundary p) s

/-! ### The end of a run -/

/-- A run leaves the list. -/
def dropRun (id : Nat) : Prog := modRuns fun x => { x with runs := x.runs.filter (·.id != id) }

/-- LAYOUT_CHANGE's end (R324): LAYOUT_APPLIED takes the epoch where its relayout run, if any, ended well; the command completes unless a stall has
completed it. -/
def layoutEnd (l : LayoutChange) (status detail : Nat) (uid : Option Nat) : Prog :=
  progs [
    whenP (status == 0) (progs [.prim (.layoutApply l.epoch), wr .mode Reg.MODE.LAYOUT_STATE_STATE 0, forEach (List.range 64) fun p => trace 3 (768 + p)]),
    .prim (.layoutPend none),
    whenP (!l.reported) (finish l.cmd status detail uid)]

/-- A run that is over leaves the list (R50): a relayout run ends its LAYOUT_CHANGE (R324); after a replay run the failed run starts again from its
first leg (R318); any other completes, and the hold of its replays ends. -/
def runOver (r : RunRec) (status detail : Nat) (uid : Option Nat) : Prog :=
  .seq (dropRun r.id) (
    if r.relayout then .look fun s => match s.layout.pend with | some l => layoutEnd l status detail uid | none => .skip
    else match r.held with
      | some n => modRun n fun x =>
          { x with left := x.mask, started := false, atBoundary := 0, fixed := none, status := 0, island := 0, leg := noLeg, recUid := none }
      | none => .seq (finishOpt r.cmd status detail uid) (releaseHold (holdReplay r.id)))

/-- A run that ends with a status before it started; its pistes stand idle again. -/
def endEarly (r : RunRec) (status island : Nat) (uid : Option Nat) : Prog :=
  .seq (.look fun s => forEach ((maskList 64 r.mask).filter fun p => (pisteOf s p).waiting == some r.id) (fun p =>
      .seq (modPiste p fun x => { x with waiting := none }) (wr (.pst p) Reg.PST.RUN_STATUS_STATE 0)))
    (runOver r status (failDetail island noLeg) uid)

/-- A run whose last piste has reported (R50): one that ended with STALE_SHARD under REPLAY waits for its replay, three times at most (R318). -/
def runReport (id : Nat) : Prog :=
  .look fun s =>
    match findRun s id with
    | none => .skip
    | some r =>
      let replays := !r.relayout && r.held.isNone && r.status == Code.STALE_SHARD && rd s .gns Reg.GNS.STALE_CTRL_POLICY == 0 && decide (r.replays < 3)
      whenP (r.left == 0 && !replays) (runOver r r.status (failDetail r.island r.leg) r.recUid)

/-- Whether every gate of a piste has completed its last leg (R38), and every write has been accepted (R29, R50). -/
def gatesDone (s : State) (p : Nat) (r : RunRec) : Bool :=
  let img := runImg s p r
  (List.range 12).all (fun g => bit (imgBypass img) g || decide (imgCount img g ≤ (gateOf s (gateIsland p g)).next)) &&
  s.units.signalsDue.all (·.piste != p) && s.units.marksDue.all (·.piste != p) && s.units.outStage.all (·.piste != p) && !tagsOpen s p none none

/-- FOOT_SCRATCH and FOOT_HBM (R326). -/
def showFoot (p : Nat) : Prog :=
  .look fun s =>
    let x := pisteOf s p
    .seq (wr (.pst p) Reg.PST.FOOT_SCRATCH x.footScratch)
      (wr64 (.pst p) Reg.PST.FOOT_HBM_LO Reg.PST.FOOT_HBM_HI ((x.footHbm.map fun z => z.2.2 - z.2.1).foldl (· + ·) 0))

/-- INSPECT_MISS of a gate with misses in the run (R215). -/
def missRecord (p : Nat) (r : RunRec) (g : Nat) : Prog :=
  .look fun s =>
    let x := gateOf s (gateIsland p g)
    match x.firstMiss with
    | none => .skip
    | some (leg, tile, block) => raise Code.INSPECT_MISS (gateIsland p g) r.iter leg 0 [w32 x.misses, w32 tile, w32 block]

/-- Whether the sweep captures a unit of a leg (R340). -/
def capturable (g : Nat) (l : Leg) : Bool :=
  match gateKind g with
  | 0 => l.op == 1 || l.op == 2 || l.op == 5
  | 1 => true
  | 2 => decide (l.op ≤ 3)
  | 3 => true
  | _ => l.op == 3 && bit l.p0 0

/-- The gates of a piste that have committed a capturable unit in a run. -/
def captureGates (s : State) (p : Nat) (r : RunRec) : List Nat :=
  (List.range 12).filter fun g => ((imgLegs (runImg s p r) g).take (gateOf s (gateIsland p g)).next).any (capturable g)

/-- The present half of the sweep area. -/
def captureBase (s : State) : Nat :=
  rd64 s (.mod 3) Reg.MOD3.SWEEP_BASE_LO Reg.MOD3.SWEEP_BASE_HI + rd s (.mod 3) Reg.MOD3.SWEEP_STEP % 2 * 2 ^ 24

/-- Whether captures due at the end of a piste's run would access a stack at CRIT (R247): the end waits for them (log entry 98). -/
def captureHot (s : State) (p : Nat) (r : RunRec) : Bool :=
  s.fw.sampling == some p && (captureGates s p r).any fun g => hotRange s (captureBase s + g * 2 ^ 20) (2 ^ 20)

/-- SWEEP_CAPTURE (R340 step 1): each gate that has committed a capturable unit writes it to the present half of the sweep area, of which it takes
1 MB, the others being counted as idle; the layout of a capture is not given, so its bytes are free. -/
def sweepCapture (p : Nat) (r : RunRec) : Prog :=
  .look fun s => whenP (s.fw.sampling == some p) (
    let step := rd s (.mod 3) Reg.MOD3.SWEEP_STEP
    let base := captureBase s
    let gs := captureGates s p r
    .seq (modFw fun f => { f with sampling := none, sweepIdle := f.sweepIdle + (12 - gs.length) })
      (forEach gs fun g => progs [
        withFreeBytes (2 ^ 20) (hbmWrite (base + g * 2 ^ 20)),
        modFw (fun f => { f with captures := f.captures ++ [{ piste := p, gate := g, step := step, iter := r.iter, checked := false, due := false }] }),
        trace 6 (gateIsland p g)]))

/-- The drift accumulator and rotary tables of a piste emptied (R155, R183). -/
def clearUnits (p : Nat) : Prog :=
  progs [
    modUnits fun u => { u with drift := smDrop (fun k => k / 16384 == p) u.drift, rope := smDrop (fun k => k / 12 == p) u.rope },
    wr (.gate p 0) Reg.GATEG.GG_STATUS_DRIFT_BOUND 0,
    forEach [2, 6] fun g => .seq (wr (.gate p g) Reg.GATEA.ROPE_STATUS_LOADED 0) (wr (.gate p g) Reg.GATEA.ROPE_STATUS_FREQS 0)]

/-- RUN_END: a piste's part in its run ends, when its gates are done or a fault has ended it, and the run reports after its last piste. Captures
due at it wait for a stack at CRIT, and the end with them. -/
def progRunEnd (p : Nat) : Prog :=
  .look fun s =>
    match runOn s p with
    | none => .skip
    | some r =>
      whenP (((pisteOf s p).failed || gatesDone s p r) && !captureHot s p r) (progs [
        showFoot p, forEach (List.range 12) (missRecord p r), sweepCapture p r, clearUnits p,
        forEach (List.range 12) (fun g => wr (.gate p g) Reg.GATE.STATUS_STATE 0),
        forEach (List.range 4) (fun f => wr (.frn p) Reg.FRN.FRN_STATUS_STATE 0 f),
        modPiste p fun x => { x with run := none, failed := false },
        wr (.pst p) Reg.PST.RUN_STATUS_STATE 0,
        trace 2 (768 + p),
        modHost fun h => { h with migrations := h.migrations.map fun m => { m with busy := m.busy.filter (· != p) } },
        modRun r.id fun x => { x with left := putBits x.left p 1 0 },
        runReport r.id])

/-- RUN_END (R50). -/
def execRunEnd (p : Fin 64) (s : State) : Host.Outcome State Fault Refusal := done (progRunEnd p) s

/-! ### The start of a run -/

/-- Words of a page's special-value map that hold a flag. -/
def flagWords (s : State) (p g : Nat) : List Nat :=
  (s.regs.filter fun e => decide (fldAddr (.gate p g) Reg.GATE.SV_MAP 0 ≤ e.1) && decide (e.1 < fldAddr (.gate p g) Reg.GATE.SV_MAP 128)).map (·.1)

/-- A gate at a run start: its first leg next with nothing taken or held, tiles numbered from 0, its flags cleared (R81), its datapath running, and a
V-gate's cache without content (R137). Entries that stand in its upstream FIFO stay (R15). -/
def startGate (p : Nat) (img : Img) (g : Nat) : Prog :=
  .look fun s =>
    let i := gateIsland p g
    progs [
      modGate i fun x => 
        { dropLeg x with next := 0, waitOk := false, tiles := 0, flagged := [], misses := 0, firstMiss := none, rangeSeen := false, coldSeen := false },
      forEach (flagWords s p g) fun a => .prim (.reg a 0),
      wr (.gate p g) Reg.GATE.SV_STATUS_TILES 0,
      wr (.gate p g) Reg.GATE.STATUS_STATE (if bit (imgBypass img) g then 3 else 0),
      whenP (gateKind g == 3) (progs [
        forEach (s.mem.vcacheSet.filter fun e => e.1 / 2 ^ 18 == i) fun e => .prim (.flag .vcacheSet e.1 false),
        modGate i (fun x => { x with cacheBase := s.freeCount }), .prim (.free 32768)])]

/-- A piste at a run start (R41, R54 step 5): local events are cleared, its gates and units start afresh, and its forerunners start. -/
def startPiste (r : RunRec) (p : Nat) : Prog :=
  .look fun s =>
    let img := runImg s p r
    progs [
      modPiste p fun x => { x with run := some r.id, waiting := none, failed := false, footScratch := 0, footHbm := [] },
      modSync fun y => { y with events := smDrop (fun k => k / 256 == p) y.events },
      clearUnits p,
      modSync fun y => { y with gated := smDrop (fun k => k / 12 == p && decide (k < 768)) y.gated },
      modUnits fun u =>
        { u with
          pathRec := smErase p u.pathRec
          fetched := u.fetched.filter (·.piste != p)
          chans := u.chans.map fun e => if e.1 / 16 = p then (e.1, { e.2 with waiting := none, expired := false }) else e },
      forEach (List.range 12) (startGate p img),
      forEach (List.range 4) (fun f => .seq (wr (.frn p) Reg.FRN.FRN_STATUS_ENTRY 0 f) (wr (.frn p) Reg.FRN.FRN_STATUS_STATE 0 f)),
      wr (.pst p) Reg.PST.RUN_STATUS_STATE 2, wr (.pst p) Reg.PST.RUN_STATUS_SLOT r.slot, wr (.pst p) Reg.PST.RUN_ITER r.iter,
      trace 2 (768 + p)]

/-- RUN_START: a run whose fixed epoch meets its required one, and whose layout is in force, starts on its pistes; one whose slot has lost its map
since acceptance ends with RUN_SLOT_EMPTY (R36). -/
def progRunStart (n : Nat) : Prog :=
  .look fun s =>
    match findRun s n with
    | none => .skip
    | some r =>
      let ps := maskList 64 r.left
      whenP (!r.started && (match r.fixed with | some e => decide (r.epoch ≤ e) | none => false) && layoutOk s r &&
          ps.all fun p => (pisteOf s p).waiting == some n)
        (match ps.find? fun p => rd s (.pst p) Reg.PST.SLOT_ID r.slot == 0 with
         | some p => endEarly r Code.RUN_SLOT_EMPTY (768 + p) none
         | none => progs [
             modRun n fun x => { x with started := true }, forEach ps (startPiste r),
             forEach ((List.range 4).filter fun q => ps.any fun p => p / 16 == q) settle])

/-- RUN_START (R54). -/
def execRunStart (n : Nat) (s : State) : Host.Outcome State Fault Refusal := done (progRunStart n) s

/-- RUN_MODE_STALL: MODE.LIMIT passes while a run waits for an epoch (R54): it completes with MODE_STALL, naming the lowest gate of the run. A limit
of 0 never expires. -/
def progRunModeStall (n : Nat) : Prog :=
  .look fun s =>
    match findRun s n with
    | none => .skip
    | some r =>
      let i := 12 * minOf 0 (maskList 64 r.mask)
      whenP (!r.started && rd s .mode Reg.MODE.LIMIT != 0 && (match r.fixed with | some e => decide (e < r.epoch) | none => false))
        (raiseSev (severityOf Code.MODE_STALL) Code.MODE_STALL 852 r.iter noLeg 0 [w32 i] fun u => endEarly r Code.MODE_STALL i (some u))

/-- RUN_MODE_STALL (R54). -/
def execRunModeStall (n : Nat) (s : State) : Host.Outcome State Fault Refusal := done (progRunModeStall n) s

/-- MODE_STALL: MODE.LIMIT passes while gates in service lag the oldest MODE_CHANGE (R55). -/
def progModeStall : Prog :=
  .look fun s =>
    match modeChanges s with
    | [] => .skip
    | c :: _ =>
      let lag := (unfenced s).filter fun p => decide (epochOn s p < c.2)
      whenP (rd s .mode Reg.MODE.LIMIT != 0 && !lag.isEmpty) (progs [
        wr .mode Reg.MODE.STALL_ISLAND (12 * minOf 0 lag), wr .mode Reg.MODE.STALL_COUNT (12 * lag.length),
        raiseSev (severityOf Code.MODE_STALL) Code.MODE_STALL 852 0 noLeg 0 [w32 (12 * minOf 0 lag), w32 (12 * lag.length)]
          fun u => finish c.1 Code.MODE_STALL 0 (some u)])

/-- MODE_STALL (R55). -/
def execModeStall (s : State) : Host.Outcome State Fault Refusal := done progModeStall s

/-! ### Layout changes (R324, R325) -/

/-- A run entered in the list, behind those that are there. -/
def queueRun (r : RunRec) : Prog := modRuns fun x => { x with runs := x.runs ++ [r], nextId := x.nextId + 1 }

/-- A run record not yet begun. -/
def newRun (s : State) (cmd : Option Nat) (mask slot epoch layout iter : Nat) : RunRec :=
  { id := s.runs.nextId, cmd := cmd, order := s.runs.nextId, mask := mask, left := mask, slot := slot, epoch := epoch, layout := layout, iter := iter,
    atBoundary := 0, fixed := none, started := false, status := 0, island := 0, leg := noLeg, recUid := none, replay := false, relayout := false,
    replays := 0, held := none }

/-- The runs accepted before a change that have not ended. -/
def preFence (s : State) (l : LayoutChange) : List RunRec := s.runs.runs.filter fun r => decide (r.order < l.order)

/-- A mask without its fenced pistes (R379). -/
def serviceMask (s : State) (m : Nat) : Nat := listMask ((maskList 64 m).filter fun p => !fenced s p)

/-- The fenced pistes. -/
def fencedList (s : State) : List Nat := (List.range 64).filter (fenced s)

/-- Whether a mask names a piste whose runs end: with a failed fallback or a second fence, any fenced piste (R337). -/
def fenceStops (s : State) (m : Nat) : Bool :=
  (s.fw.fallbackFailed || decide (2 ≤ (fencedList s).length)) && (fencedList s).any (bit m)

/-- The mask of a RUN as it is queued: without fenced pistes, but for one whose fallback is still to come (R336 step 5). -/
def queuedMask (s : State) (m : Nat) : Nat := listMask ((maskList 64 m).filter fun p => !fenced s p || s.fw.fencing.contains p)

/-- RELAYOUT_START: once no run accepted before the change remains, its relayout run is queued ahead of the new layout's runs, or, with none named,
the epoch is applied. -/
def progRelayoutStart : Prog :=
  .look fun s =>
    match s.layout.pend with
    | none => .skip
    | some l =>
      whenP (l.run.isNone && (preFence s l).isEmpty)
        (match l.relayout with
         | none => layoutEnd l 0 (failDetail 0 noLeg) none
         | some (slot, mask, iter) =>
           let m := serviceMask s mask
           if m = 0 then layoutEnd l Code.PISTE_FENCED (failDetail (768 + minOf 0 (maskList 64 mask)) noLeg) none
           else match (maskList 64 m).find? fun p => rd s (.pst p) Reg.PST.SLOT_ID slot == 0 with
             | some p => layoutEnd l Code.RUN_SLOT_EMPTY (failDetail (768 + p) noLeg) none
             | none => match (maskList 64 m).find? fun p =>
                 imgChainEn (residentImg s p slot) && !bit m (imgChainTo (residentImg s p slot)) with
               | some p => layoutEnd l Code.RUN_CHAIN (failDetail (768 + p) noLeg) none
               | none => progs [
                 queueRun { newRun s none m slot 0 0 iter with relayout := true },
                 .prim (.layoutPend (some { l with run := some s.runs.nextId })),
                 wr .mode Reg.MODE.LAYOUT_STATE_STATE 2])

/-- RELAYOUT_START (R324). -/
def execRelayoutStart (s : State) : Host.Outcome State Fault Refusal := done progRelayoutStart s

/-- The pistes that hold a run of the old layout or the relayout run. -/
def layoutHolders (s : State) (l : LayoutChange) : List Nat :=
  (List.range 64).filter fun p => s.runs.runs.any fun r => bit r.left p && (decide (r.order < l.order) || l.run == some r.id)

/-- LAYOUT_STALL: LAYOUT_LIMIT passes before the layout is applied (R325). The fence stays. -/
def progLayoutStall : Prog :=
  .look fun s =>
    match s.layout.pend with
    | none => .skip
    | some l =>
      let i := 768 + minOf 0 (layoutHolders s l)
      whenP (!l.reported && rd s .mode Reg.MODE.LAYOUT_LIMIT != 0) (progs [
        wr .mode Reg.MODE.LAYOUT_STALL_ISLAND i, wr .mode Reg.MODE.LAYOUT_STATE_STATE 3,
        .prim (.layoutPend (some { l with reported := true })),
        raiseSev (severityOf Code.LAYOUT_STALL) Code.LAYOUT_STALL 852 0 noLeg 0 [w32 i] fun u =>
          finish l.cmd Code.LAYOUT_STALL (failDetail i noLeg) (some u)])

/-- LAYOUT_STALL (R325). -/
def execLayoutStall (s : State) : Host.Outcome State Fault Refusal := done progLayoutStall s

/-! ### Replay after a stale shard (R318) -/

/-- STALE_REPLAY: a run that ended with STALE_SHARD under REPLAY, with fewer than three replays made: firmware holds its pistes and starts a replay
run of the forward map that the failed leg names, with ITERATION from its version record; the failed run follows it. -/
def progStaleReplay (n : Nat) : Prog :=
  .look fun s =>
    match findRun s n with
    | none => .skip
    | some r =>
      let p := r.island / 12
      let img := residentImg s p r.slot
      let l := imgLeg img (r.island % 12) r.leg
      let d := imgDesc img (l.dst + 1)
      let v : View := { s := s, p := p, got := [] }
      let iter := leNat (rgnBytes v (rgnOf s p d.region) (rowOff d 0 + 4) 4)
      whenP (r.left == 0 && fwRuns s && r.status == Code.STALE_SHARD && decide (r.replays < 3) && !s.runs.runs.any fun x => x.held == some n) (progs [
        holdPistes (maskList 64 r.mask) (holdReplay n),
        addSat .gns Reg.GNS.REPLAY_COUNT 1,
        modRun n fun x => { x with replays := x.replays + 1 },
        modRuns fun x =>
          { x with
            runs := { newRun s none r.mask (bits l.p0 2 2) r.epoch r.layout iter with order := r.order, replay := true, held := some n } :: x.runs
            nextId := x.nextId + 1 }])

/-- STALE_REPLAY (R318). -/
def execStaleReplay (n : Nat) (s : State) : Host.Outcome State Fault Refusal := done (progStaleReplay n) s

/-! ### Signals of legs (R29, R40) -/

/-- LEG_SIGNAL: the oldest due SIGNAL of a gate takes effect once every write of its leg has been accepted. A replay run applies none to a global
counter (R319). -/
def progLegSignal (p g : Nat) : Prog :=
  .look fun s =>
    match runOn s p, s.units.signalsDue.find? fun d => d.piste == p && d.gate == g with
    | some r, some d =>
      let of_ := fun q h l => q == p && h == g && l == d.leg
      let x := imgSync (runImg s p r) d.sync
      whenP (s.units.outStage.all (fun w => !of_ w.piste w.gate w.leg) && s.units.marksDue.all (fun m => !of_ m.piste m.gate m.leg) &&
          !tagsOpen s p (some g) (some d.leg)) (progs [
        modUnits fun u => { u with signalsDue := eraseFirst d u.signalsDue },
        if x.global then whenP (!r.replay) (sendSignal
          { counter := x.counter, amount := x.amount, round := syncTarget x r.iter % 2 ^ 16, src := .die (gateIsland p g) 0, run := some r.id, cmd := none,
            leg := d.leg })
        else signalEvent p (x.counter % 256) x.amount])
    | _, _ => .skip

/-- LEG_SIGNAL (R29). -/
def execLegSignal (p : Fin 64) (g : Fin 12) (s : State) : Host.Outcome State Fault Refusal := done (progLegSignal p g) s

/-! ### Forerunners (R232 to R239) -/

/-- The entries a forerunner runs, with the numbers its status shows: A and B those for gates 1 to 11, the output forerunner all of its own, the
gather forerunner the entries of A and B for gate 0 in the order of the G-gate's legs (R233). -/
def frnList (img : Img) (f : Nat) : List (Nat × FrnEnt) :=
  if f = 3 then
    let l := (imgFrns img 0 ++ imgFrns img 1).filter (·.gate == 0)
    ((List.range (imgCount img 0)).flatMap fun i => l.filter (·.leg == i)).zipIdx.map fun x => (x.2, x.1)
  else ((imgFrns img f).zipIdx.map fun x => (x.2, x.1)).filter fun x => f == 2 || x.2.gate != 0

/-- The operation of a gate's leg, for what it reads. -/
def legOpOf (g op : Nat) (phase : Nat) : Option LegOp :=
  match gateKind g, op with
  | 0, 1 => some opSample | 0, 2 => some opGather | 0, 3 => some (opScatterAdd .pass) | 0, 4 => some (opAggregate .pass) | 0, 5 => some opEmbGather
  | 0, 6 => some (opEmbScatter .pass) | 0, 7 => some opEmbRefresh
  | 1, 1 => some (opMatmul .pass []) | 1, 2 => some (opMatmulInspect .pass [])
  | 2, 1 => some (opAttend .pass []) | 2, 2 => some (opAttendPaged .pass []) | 2, 3 => some (opAttendBwd .pass []) | 2, 4 => some opKvAppend
  | 2, 5 => some opRopeLoad | 2, 6 => some opRotate
  | 3, 1 => some (opElemwise .pass []) | 3, 2 => some (opReduceVector .pass []) | 3, 3 => some (opNorm .pass []) | 3, 4 => some (opSmNormalise .pass [])
  | 3, 5 => some (opSmMerge .pass []) | 3, 6 => some (opKl .pass []) | 3, 7 => some (opOptUpdate .pass []) | 3, 8 => some (opConvert .pass [])
  | 3, 9 => some (opCompress24 .pass []) | 3, 10 => some (opCacheFill .pass []) | 3, 11 => some (opCacheSpill .pass []) | 3, 12 => some (opSketch .pass [])
  | 4, 1 => some opStore | 4, 2 => some opAtomicAdd | 4, 3 => some (opReduce .pass) | 4, 4 => some (opNormX phase fun _ => .skip)
  | 4, 6 => some opOffload | 4, 7 => some opKvSend | 4, 8 => some opStageSend
  | _, _ => none

/-- The leg of an entry, in its place, with what has been fetched for it and the FIFO entries it has taken. -/
def frnEnv (s : State) (p : Nat) (r : RunRec) (x : FrnEnt) : Env :=
  let img := runImg s p r
  { s := s, p := p, g := x.gate, run := r, img := img, idx := x.leg, leg := imgLeg img x.gate x.leg, got := fetchedFor s p x.gate x.leg,
    fifo := if (gateOf s (gateIsland p x.gate)).next = x.leg then (gateOf s (gateIsland p x.gate)).took else [] }

/-- The descriptor index of an entry's operand. -/
def frnIdx (e : Env) (x : FrnEnt) : Nat := frnOperand e.leg x.operand

/-- What an entry's leg reads of its operand, in stages (R42, R234): a tensor read whole, its E8 codes before its elements; of another, the parts its
operation reads, once what decides them is here. The slots of a reduce channel are read when it closes, and a shard between two reads of its
version (R314, R317). -/
def frnStages (e : Env) (x : FrnEnt) : List (Env → List Span) :=
  match legOpOf e.g e.leg.op (bits e.leg.p0 0 2) with
  | none => []
  | some o =>
    let i := frnIdx e x
    let d := e.desc i
    if (legMem o e).any fun u => u.idx == i && u.use == .rd && u.whole then
      if isBlock d.fmt then [fun e => scaleSpans e d fun _ _ => true, fun e => elemSpans e d fun _ _ => true] else [fun e => descSpans e i]
    else if gateKind e.g == 4 then [] else legStages o

/-- Whether a span lies in an entry's operand. -/
def ofOperand (e : Env) (x : FrnEnt) (y : Span) : Bool :=
  (descSpans e (frnIdx e x)).any fun z => z.loc == y.loc && z.node == y.node && decide (z.addr ≤ y.addr) && decide (y.addr + y.len ≤ z.addr + z.len)

/-- The spans of an entry's operand that are still to be fetched, those of the first stage that lacks any; and where there are none, whether every fetch of
the entry is known and has been issued. A stage that lacks bytes of other operands leaves the later ones undecided; host pages that translation refuses,
or whose access the host completes with an error, are marked as not staged and left to the leg (R238). -/
def frnWants (e : Env) (x : FrnEnt) (errs : List Nat) : List (Env → List Span) → List Span × Bool
  | [] => ([], true)
  | f :: r =>
    let lacks := (f e).filter fun y => y.len != 0 && !spanHere e.got y
    let own := lacks.filter (ofOperand e x)
    let mine := own.filter fun y => (refusedIn e.s errs [y]).isNone
    if !mine.isEmpty then (mine, false) else if lacks.isEmpty then frnWants e x errs r else ([], own.length == lacks.length)

/-- Whether what an entry's leg reads of its operand is decided: the weights of a matrix leg with SRC_A = FIFO once its activity is (R203). -/
def frnDecided (e : Env) (x : FrnEnt) : Bool := gateKind e.g != 1 || frnIdx e x != e.leg.b || tilesKnown (matLeg e)

/-- The bytes of an entry's operand that are staged. -/
def frnStaged (e : Env) (x : FrnEnt) : Nat :=
  ((((frnStages e x).flatMap (· e)).eraseDups.filter fun y => ofOperand e x y && spanHere e.got y).map (·.len)).foldl (· + ·) 0

/-- The spans, from the first on, that have room. -/
def fitting (room : Nat) : List Span → List Span
  | [] => []
  | y :: r => if y.len ≤ room then y :: fitting (room - y.len) r else []

/-- FORERUNNER_FETCH: a forerunner's next entry. Past legs are passed over. An entry whose region has PF and whose descriptor passes its checks is
fetched ahead when its leg's wait allows (R236): what its ring has room for, within its STAGE_SIZE and 4 MB in all (R234), is read and kept for the
leg, from this module at once and from peers by GETs; a stack at CRIT waits (R247), and so does the forerunner where no stream tag is free (R241); host
pages that translation refuses are left to the leg (R238). Otherwise it waits for the leg's issue, as where what the leg reads of the operand depends on
bytes or FIFO entries that are not here; it goes to the next entry once every fetch of this one has been issued (R234). The ring holds its tiles in a layout the spec does not give. How far ahead of its leg a forerunner
stands, and that it stages whole spans, is a DESIGN CHOICE (log entry 85). -/
def progForerunnerFetch (p f : Nat) (ram : List SramErr) : Prog :=
  .look fun s =>
    match runOn s p with
    | none => .skip
    | some r =>
      let l := frnList (runImg s p r) f
      let k := rd s (.frn p) Reg.FRN.FRN_STATUS_ENTRY f
      let st := fun v => wr (.frn p) Reg.FRN.FRN_STATUS_STATE v f
      let issued := fun (x : FrnEnt) =>
        let g := gateOf s (gateIsland p x.gate)
        decide (x.leg < g.next) || (g.next == x.leg && g.busy)
      whenP (r.started && !(pisteOf s p).failed && f != 2)
        (match l.find? fun x => decide (k ≤ x.1) with
         | none => st 0
         | some (i, x) =>
           let e := frnEnv s p r x
           let d := e.desc (frnIdx e x)
           let y := imgSync e.img e.leg.wsync
           let free := decide (syncTarget y r.iter ≤ syncCount s p y)
           let regions := d.region :: (if d.scaleMode = 1 then [d.scaleRegion] else []) ++ (if d.outEn = 1 then [d.outRegion] else [])
           let ahead := (regions.all fun n => rgnPf (rgnOf s p n)) && descStatus s p d .rd == 0 && (!e.leg.waitEn || x.early || free)
           let next := wr (.frn p) Reg.FRN.FRN_STATUS_ENTRY (i + 1) f
           if issued x || descEmpty d then next
           else .seq (wr (.frn p) Reg.FRN.FRN_STATUS_ENTRY i f) (
             if !ahead || (frnStages e x).isEmpty then st 2
             else
               let wants := frnWants e x (hostErrors ram) (frnStages e x)
               let others := ((l.filter fun z => decide (z.1 < i) && !issued z.2).map fun z => frnStaged (frnEnv s p r z.2) z.2).foldl (· + ·) 0
               let cool := wants.1.filter fun z => !(z.loc == 0 && hotRange s z.addr z.len)
               let now := fitting (min x.stageSize (2 ^ 22 - others) - frnStaged e x) cool
               if wants.1.isEmpty then (if wants.2 && frnDecided e x then next else st 2)
               else if getsOpen s p x.gate x.leg || cool.isEmpty then st 1
               else if now.isEmpty then st 3
               else if tagless s p && streams now then st 1
               else progs [
                 forEach ram (ramError e), holdPages now, countPoison now, keepSpans e now, forEach (now.filter (·.loc == 3)) (sendGet p x.gate x.leg),
                 withFreeBytes x.stageSize (scratchWrite p x.stageOff), st 1]))

/-- FORERUNNER_FETCH (R234). -/
def execForerunnerFetch (p : Fin 64) (f : Fin 4) (s : State) (ram : List SramErr := []) : Host.Outcome State Fault Refusal := done (progForerunnerFetch p f ram) s

/-- The output forerunner's present entry: the first in program order whose results are not all written (R234). -/
def outEntry (s : State) (p : Nat) (img : Img) : Option (Nat × FrnEnt) :=
  (frnList img 2).find? fun x =>
    let g := gateOf s (gateIsland p x.2.gate)
    decide (g.next < x.2.leg) || (g.next == x.2.leg && !g.busy) ||
      s.units.outStage.any fun w => w.piste == p && w.gate == x.2.gate && w.leg == x.2.leg && w.operand == x.2.operand

/-- Whether a beat of an entry's staging ring is found uncorrectable: what is written from there is poisoned (R332, R225). -/
def ringPoison (ram : List SramErr) (x : FrnEnt) : Bool :=
  ram.any fun r => match r with | .beat b => decide (x.stageOff < 128 * (b + 1)) && decide (128 * b < x.stageOff + x.stageSize) | _ => false

/-- FORERUNNER_WRITEBACK: the output forerunner writes the oldest result of its present entry that stands in its ring (R234), once a stream tag is free
(R241) and its stack is not at CRIT (R247); a host page that translation refuses ends the run (R238). Room in the output rings takes results that wait
for it, and lets a leg all of whose results stand there complete (R239). -/
def progForerunnerWriteback (p : Nat) (ram : List SramErr) : Prog :=
  .look fun s =>
    match runOn s p with
    | none => .skip
    | some r => match outEntry s p (runImg s p r) with
      | none => .skip
      | some (k, x) =>
        .seq (wr (.frn p) Reg.FRN.FRN_STATUS_ENTRY k 2)
          (match s.units.outStage.find? fun w => w.piste == p && w.gate == x.gate && w.leg == x.leg && w.operand == x.operand && w.inRing with
           | none => .skip
           | some w =>
             if (w.loc == 0 && hotRange s w.addr w.bytes.length) || (w.loc != 2 && tagless s p) then .skip
             else progs [
               modUnits fun u => { u with outStage := enterRings (runImg s p r) p [] (eraseFirst w u.outStage) },
               forEach ram (ramError (frnEnv s p r x)),
               match refusedIn s (hostErrors ram) [{ loc := w.loc, node := 0, space := 0, addr := w.addr, len := w.bytes.length }] with
               | some a => xlateFaultAt p w.gate w.leg a
               | none => .seq (performWrite w.piste w.gate w.leg w.loc w.node w.cls w.addr w.bytes (w.poison || ringPoison ram x)) (settle (p / 16))])

/-- FORERUNNER_WRITEBACK (R234). -/
def execForerunnerWriteback (p : Fin 64) (s : State) (ram : List SramErr := []) : Host.Outcome State Fault Refusal := done (progForerunnerWriteback p ram) s

/-! ### Limits (R41, R239, R313) -/

/-- FIFO_STALL_EXPIRY: a gate's stall at its empty upstream FIFO or its full downstream FIFO reaches WAIT_LIMIT (R41); the TO registers stay as they
are (R259). -/
def progFifoStallExpiry (p g : Nat) (up : Bool) : Prog :=
  .look fun s =>
    match runOn s p with
    | none => .skip
    | some r =>
      let x := gateOf s (gateIsland p g)
      let stalled := if up then decide (0 < x.need) && x.up.isEmpty else x.busy && !x.held.isEmpty
      whenP (rd s (.pst p) Reg.PST.WAIT_LIMIT != 0 && r.started && !(pisteOf s p).failed && bit r.left p && stalled)
        (faultLeg p g x.next Code.SYNC_TIMEOUT 0 [w32 (Config.fifoCode up).toNat])

/-- FIFO_STALL_EXPIRY (R41). -/
def execFifoStallExpiry (p : Fin 64) (g : Fin 12) (upstream : Bool) (s : State) : Host.Outcome State Fault Refusal :=
  done (progFifoStallExpiry p g upstream) s

/-- STAGE_TIMEOUT: a gate's stall on staged data of a forerunner, or on space in an output ring, reaches WAIT_LIMIT (R239). -/
def progStageTimeout (p f : Nat) : Prog :=
  .look fun s =>
    match runOn s p with
    | none => .skip
    | some r =>
      let img := runImg s p r
      let stands := fun (x : FrnEnt) =>
        let g := gateOf s (gateIsland p x.gate)
        if f = 2 then g.next == x.leg && g.busy && !ringsHold s p x.gate x.leg
        else match nextLeg s p x.gate with | some e => e.idx == x.leg && waitDone e | none => false
      let waits := r.started && !(pisteOf s p).failed && (frnList img f).any fun x => stands x.2
      whenP (rd s (.pst p) Reg.PST.WAIT_LIMIT != 0 && waits) (progs [
        wr (.frn p) Reg.FRN.CHECK_STAGE_TIMEOUT 1,
        raiseSev 2 Code.SYNC_TIMEOUT (768 + p) r.iter noLeg f [] fun u => failRun p Code.SYNC_TIMEOUT (768 + p) noLeg (some u)])

/-- STAGE_TIMEOUT (R239). -/
def execStageTimeout (p : Fin 64) (f : Fin 4) (s : State) : Host.Outcome State Fault Refusal := done (progStageTimeout p f) s

/-- REDUCE_CLOSE_LIMIT: WAIT_LIMIT passes for a leg that waits to close a reduce channel (R313): with marks for its iteration and ALL 0, the channel closes
with what has arrived; else the run ends with SYNC_TIMEOUT. -/
def progReduceCloseLimit (p : Nat) : Prog :=
  .look fun s =>
    match nextLeg s p 11 with
    | none => .skip
    | some e =>
      let x := redOf e.leg
      let c := chanOf s p x.ch
      let none_ := !((List.range x.k).any (bit (arrivedOf c e.run.iter)))
      whenP (e.leg.op == 3 && x.chEn && c.waiting == some e.run.id && !closeReady c x e.run.iter && rd s (.pst p) Reg.PST.WAIT_LIMIT != 0)
        (if x.all || none_ then faultLeg p 11 e.idx Code.SYNC_TIMEOUT x.ch []
        else modChan p x.ch fun y => { y with expired := true })

/-- REDUCE_CLOSE_LIMIT (R313). -/
def execReduceCloseLimit (p : Fin 64) (s : State) : Host.Outcome State Fault Refusal := done (progReduceCloseLimit p) s

/-! ### Regions and weight sets (R49, R328, R329) -/

/-- A staged region entry. -/
def stagedRgn (s : State) (n : Nat) : BitVec 128 :=
  let a := pageBase (.rgn (n / 128)) + 0x200 + 16 * (n % 128)
  BitVec.ofNat 128 ((List.range 4).foldl (fun v i => v + (regWord s (a + 4 * i)).toNat * 2 ^ (32 * i)) 0)

/-- The FRONT regions of the valid weight sets: their staged entries are ignored at commit (R328). -/
def fronts (s : State) : List Nat :=
  ((List.range 16).filter fun w => rd s (.rgn 1) Reg.RGN1.WSET_VALID w == 1).map fun w => rd s (.rgn 1) Reg.RGN1.WSET_FRONT w

/-- An entry as commit takes it, and whether it is valid but misaligned (R49). -/
def commitRgn (e : BitVec 128) : BitVec 128 × Bool :=
  if rgnValid e && rgnBase e % 128 != 0 then (BitVec.ofNat 128 (putBits e.toNat 55 1 0), true) else (e, false)

/-- A write of COMMIT with GO 1 (R49). -/
def opCommit (v : Nat) : Prog :=
  .look fun s =>
    let ns := (List.range 256).filter fun n => !(fronts s).contains n
    whenP (bit v 0) (progs [
      .prim (.rgn { s.rgn with committed := ns.foldl (fun m n => smSet rgnDefault m n (commitRgn (stagedRgn s n)).1) s.rgn.committed }),
      wr (.rgn 0) Reg.RGN0.COMMIT_SEQ (rd s (.rgn 0) Reg.RGN0.COMMIT_SEQ + 1),
      forEach (ns.filter fun n => (commitRgn (stagedRgn s n)).2) fun n => raise Code.RGN_FIELD 852 0 noLeg 0 [w32 n],
      idleActions])

/-- REGION_COMMIT (R49). -/
def execRegionCommit (id : Ident) (v : Word) (s : State) : Host.Outcome State Fault Refusal :=
  done (writeTo id (.rgn 0) Reg.RGN0.COMMIT_GO (opCommit v.toNat)) s

/-- A write of a weight set's fields (R328): FRONT and the banks only while VALID is 0; VALID rising resets what is published and applied. -/
def opWset (w v : Nat) : Prog :=
  .look fun s =>
    let was := rd s (.rgn 1) Reg.RGN1.WSET_VALID w
    progs [
      whenP (was == 0) (progs [
        wr (.rgn 1) Reg.RGN1.WSET_FRONT (bits v 0 8) w, wr (.rgn 1) Reg.RGN1.WSET_BANK0 (bits v 8 8) w, wr (.rgn 1) Reg.RGN1.WSET_BANK1 (bits v 16 8) w]),
      wr (.rgn 1) Reg.RGN1.WSET_VALID (bits v 31 1) w,
      whenP (was == 0 && bit v 31) (progs [
        wr (.rgn 1) Reg.RGN1.PUB_VERSION 0 w, wr (.rgn 1) Reg.RGN1.WSET_PUB_BANK 0 w, wr (.rgn 1) Reg.RGN1.APPLIED_LOW 0 w,
        forEach (List.range 64) fun p => modPiste p fun x => { x with versions := smErase w x.versions }])]

/-- WSET_WRITE (R328). -/
def execWsetWrite (id : Ident) (w : Fin 16) (v : Word) (s : State) : Host.Outcome State Fault Refusal :=
  done (writeTo id (.rgn 1) Reg.RGN1.WSET_FRONT (opWset w v.toNat) w) s

/-- A write of PUBLISH (R329): a bank of a set is published under the staged version, or REFUSED is set. -/
def opPublish (v : Nat) : Prog :=
  .look fun s =>
    let w := bits v 0 4
    let ver := rd s (.rgn 1) Reg.RGN1.PUB_VERSION_STAGE
    let bank := if bit v 4 then rd s (.rgn 1) Reg.RGN1.WSET_BANK1 w else rd s (.rgn 1) Reg.RGN1.WSET_BANK0 w
    if rd s (.rgn 1) Reg.RGN1.WSET_VALID w == 1 && decide (rd s (.rgn 1) Reg.RGN1.PUB_VERSION w < ver) && rgnValid (committedRgn s bank) then
      progs [wr (.rgn 1) Reg.RGN1.PUB_VERSION ver w, wr (.rgn 1) Reg.RGN1.WSET_PUB_BANK (bits v 4 1) w, idleActions]
    else wr (.rgn 1) Reg.RGN1.REFUSED 1

/-- PUBLISH (R329). -/
def execPublish (id : Ident) (v : Word) (s : State) : Host.Outcome State Fault Refusal :=
  done (writeTo id (.rgn 1) Reg.RGN1.PUBLISH_SET (opPublish v.toNat)) s

end Sys2Proof.Machine
end

