-- ==== Sys2Proof/Machine/Link.lean ====
section
/-! DEFINITION. Baond ports: link records, bring-up, lanes, flits received, keepalive and loss (R276 to R291, R300 to R302), with what the loss of
port P does to the pair (R275, R342, R354, R355, R363). -/

namespace Sys2Proof.Machine

open Sys2Proof

/-! ### The pair as the link sees it -/

/-- The pair's state (R354): 0 SOLO, 1 PAIRED, 2 SPLIT, 3 TAKEOVER, 4 RESYNC, 5 CONFLICT, 6 START. -/
def pairState (s : State) : Nat := rd s (.mod 4) Reg.MOD4.PAIR_STATUS_STATE

/-- PAIR_MIRROR_SKIP each time the mirror tap closes after it was open (R355). -/
def tapCheck : Prog :=
  .look fun s =>
    if tapOpen s then modFw fun f => { f with tapWas := true }
    else whenP s.fw.tapWas (.seq (modFw fun f => { f with tapWas := false }) (raise Code.PAIR_MIRROR_SKIP 852 0 noLeg 0 []))

/-- A snapshot in progress is abandoned: ARM returns to 1 and the previous snapshot stands (R342). -/
def abandonSnapshot : Prog :=
  .look fun s => whenP s.fw.snap.isSome (progs [
    modFw fun f => { f with snap := none },
    modBnd fun b => { b with tagWait := b.tagWait.filter fun x => x.2.purpose != 4 },
    raise Code.PAIR_SNAP_ABANDON 852 0 noLeg 0 [],
    trace 7 852, logOwn, releaseHold holdMirror])

/-- A pair page state entered. -/
def setPairState (v : Nat) : Prog := wr (.mod 4) Reg.MOD4.PAIR_STATUS_STATE v

/-- The rejoin fails (R363): recorded; the survivor goes back to TAKEOVER, the newcomer to SPLIT. -/
def resyncFail : Prog :=
  .look fun s => progs [
    wr (.mod 4) Reg.MOD4.PAIR_CHECK_RESYNC_FAIL 1,
    raise Code.RESYNC_FAIL 852 0 noLeg 0 [],
    whenP (s.fw.pairStep == 2) (.seq (modFw fun f => { f with pairStep := 0 }) (releaseHold holdPair)),
    if inTakeover s then setPairState 3 else .seq (setPairState 2) (wr (.mod 4) Reg.MOD4.PAIR_CHECK_SPLIT 1)]

/-- Port P is down (R301 step 4): the partner's mailbox locks are released, a snapshot is abandoned, and the pair's state follows (R354, R363). -/
def pairLinkDown : Prog :=
  .look fun s => progs [
    forceLocksOf (· == 3),
    abandonSnapshot,
    (if pairState s = 1 then .seq (setPairState 2) (wr (.mod 4) Reg.MOD4.PAIR_CHECK_SPLIT 1)
     else if pairState s = 4 then resyncFail else .skip),
    tapCheck]

/-! ### Link records -/

/-- The sizes of the receive pools, by pool (R283). -/
def poolSizes : List Nat :=
  [32, 16, 32, 16, 192, 16, 192, 16, 192, 16, 192, 16, 192, 96, 192, 96, 64, 32, 64, 32, 48, 16, 48, 16, 96, 16, 96, 16]

/-- Whether the module is in core reset (R302, R395): from the reset until firmware reports ready. -/
def inCoreReset (s : State) : Bool :=
  match s.sec.phase with | .held _ => true | .booting => s.sec.everReady | .halted => s.sec.everReady | _ => false

/-- The STATE a link record carries (R280): CORE_RESET in core reset, READY once NODE_ID is locked, else INIT. -/
def ownLinkState (s : State) : Nat := if inCoreReset s then 2 else if rd s (.bnd 7) Reg.BND7.FAB_CTRL_LOCK = 1 then 1 else 0

/-- The link record of this module for port `p` (R280). -/
def linkRecord (s : State) (p : Nat) : List Byte :=
  leBytes 2 (ownNode s) ++ leBytes 1 p ++ leBytes 1 (ownLinkState s) ++ leBytes 1 (rd s (.mod 4) Reg.MOD4.PAIR_STATUS_ROLE) ++
  leBytes 1 (rd s (.bnd p) Reg.BND.PORT_STATUS_RATE) ++ [0, 0] ++ poolSizes.flatMap (leBytes 2)

/-- A link record read from a payload (R280). -/
def parseRecord (b : List Byte) : LinkRec :=
  { node := leAt b 0 2, port := leAt b 2 1, state := leAt b 3 1 % 16, role := leAt b 4 1, rate := leAt b 5 1,
    pools := (List.range 28).map fun i => leAt b (8 + 2 * i) 2 }

/-- A STATUS flit with this module's link record. -/
def sendStatus (p : Nat) : Prog := .look fun s => emitFlit p 4 (linkRecord s p) false

/-- PEER as a link record gives it. -/
def showPeer (p : Nat) (r : LinkRec) : Prog :=
  progs [wr (.bnd p) Reg.BND.PEER_NODE r.node, wr (.bnd p) Reg.BND.PEER_PORT r.port, wr (.bnd p) Reg.BND.PEER_ROLE r.role,
    wr (.bnd p) Reg.BND.PEER_VALID 1]

/-- Credits as a link record advertises them. -/
def creditsOf (r : LinkRec) : SMap Nat := smSetList zeroDefault [] 0 (padTo 28 0 r.pools)

/-- A port state with its LINK trace (R349). -/
def setPort (p v : Nat) : Prog := .seq (wr (.bnd p) Reg.BND.PORT_STATUS_STATE v) (trace 4 (844 + p))

/-- Whether a port is up: UP, or with its peer in core reset. -/
def portUp (s : State) (p : Nat) : Bool := rd s (.bnd p) Reg.BND.PORT_STATUS_STATE == 2 || rd s (.bnd p) Reg.BND.PORT_STATUS_STATE == 3

/-! ### Loss (R301) -/

/-- A port declared down, for a cause that has a CHECK bit of its own or none: DOWN, ROUTE_EN cleared, buffers emptied and their messages lost,
recorded with the last peer node. -/
def linkDown (p : Nat) (cause : Option Fld) : Prog :=
  .look fun s => whenP (portUp s p) (progs [
    setPort p 0,
    wr (.bnd p) Reg.BND.PORT_STATUS_WIDTH 0, wr (.bnd p) Reg.BND.PORT_STATUS_SPARE_USED 0, wr (.bnd p) Reg.BND.PORT_CTRL_ROUTE_EN 0,
    wr (.bnd p) Reg.BND.PEER_VALID 0,
    modLink p fun _ => LinkSt.down,
    modBnd fun b => { b with msgOut := b.msgOut.filter (·.1 != p), inbox := b.inbox.filter (·.port != p) },
    wr (.bnd p) Reg.BND.CHECK_DOWN 1,
    (match cause with | some f => wr (.bnd p) f 1 | none => .skip),
    addSat (.bnd p) Reg.BND.DOWN_COUNT 1,
    raise Code.BND_LINK_DOWN (844 + p) 0 noLeg p [w32 (rd s (.bnd p) Reg.BND.PEER_NODE)],
    setEvent (.bnd p) 0,
    whenP (p == 6) pairLinkDown])

/-- LINK_SILENT (R300). -/
def execLinkSilent (port : Fin 7) (s : State) : Host.Outcome State Fault Refusal :=
  done (linkDown port (some Reg.BND.CHECK_SILENT)) s

/-- LOSS_OF_SIGNAL (R300). -/
def execLossOfSignal (port : Fin 7) (s : State) : Host.Outcome State Fault Refusal :=
  done (linkDown port (some Reg.BND.CHECK_LOS)) s

/-! ### The peer's core reset (R302) -/

/-- The peer is in core reset. -/
def peerReset (p : Nat) : Prog :=
  .look fun s => whenP (rd s (.bnd p) Reg.BND.PORT_STATUS_STATE == 2) (progs [
    setPort p 3, wr (.bnd p) Reg.BND.CHECK_PEER_CORE_RESET 1, modLink p fun l => { l with peerReady := false },
    whenP (p == 6) (.seq abandonSnapshot tapCheck)])

/-- The peer is READY: credits take the advertised sizes after its core reset, and the port may carry messages. -/
def peerReadyNow (p : Nat) (r : LinkRec) : Prog :=
  .look fun s => whenP (portUp s p) (progs [
    whenP (rd s (.bnd p) Reg.BND.PORT_STATUS_STATE == 3) (.seq (setPort p 2) (modLink p fun l => { l with credits := creditsOf r })),
    modLink p fun l => { l with peerReady := true },
    whenP (p == 6) tapCheck, pumpPort p])

/-- A link record received in a KEEPALIVE or STATUS flit. -/
def recordIn (p : Nat) (r : LinkRec) : Prog :=
  .look fun s => whenP (portUp s p) (.seq (showPeer p r)
    (if r.state = 2 then peerReset p else if r.state = 1 then peerReadyNow p r else .skip))

/-- PEER_CORE_RESET (R302). -/
def execPeerCoreReset (port : Fin 7) (s : State) : Host.Outcome State Fault Refusal := done (peerReset port) s

/-! ### Bring-up (R276, R279) -/

/-- The code of a converter reading of 256 × ratio (R399). -/
def strapCode (raw : Nat) : Nat := min 15 (raw / 16)

/-- The code as it acts, once the fuses are known: codes 1 and 2 act as 3 where MFG_CLOSED or DEBUG_DISABLE is set (R400). -/
def actingCode (s : State) : Nat :=
  let c := rd s .rst Reg.RST.STRAP_CODE
  if (c = 1 ∧ s.fuses.mfgClosed = true) ∨ (c = 2 ∧ s.fuses.debugDisable = true) then 3 else c

/-- Whether a port stays in electrical idle: every port from a system reset until boot step 7 trains the links (R302, R401), P of a solo module (R276),
and with codes 0 and 3 also Z−, Y− and X− (R400). -/
def idlePort (s : State) (p : Nat) : Bool :=
  decide (rd s .rst Reg.RST.BOOT_STATUS_STEP < 6) || (p == 6 && rd s (.mod 4) Reg.MOD4.PAIR_STATUS_ROLE == 0) ||
  ((actingCode s == 0 || actingCode s == 3) && (p == 1 || p == 3 || p == 5 || p == 6))

/-- The opposite of a port (R279). -/
def oppositePort (p : Nat) : Nat := if p = 6 then 6 else if p % 2 = 0 then p + 1 else p - 1

/-- Bring-up of a port that is not up, against a peer's record: on differing rates it stays in training, else it is UP on 8 lanes with the advertised
credits, after a retry with ROUTE_EN 0 (R301). A port in electrical idle is never trained. -/
def bringUp (p : Nat) (r : LinkRec) (retry : Bool) : Prog :=
  .look fun s =>
    whenP (!portUp s p && s.pins.pwrOk && !idlePort s p) (progs [
      modLink p fun _ => LinkSt.down,
      sendStatus p,
      (if r.rate ≠ rd s (.bnd p) Reg.BND.PORT_STATUS_RATE then
        .seq (wr (.bnd p) Reg.BND.CHECK_RATE_MISMATCH 1) (setPort p 1)
      else progs [
        setPort p 2,
        wr (.bnd p) Reg.BND.PORT_STATUS_WIDTH 8, wr (.bnd p) Reg.BND.PORT_STATUS_SPARE_USED 0,
        wr (.bnd p) Reg.BND.LANE_MAP_SPARED 0, wr (.bnd p) Reg.BND.LANE_MAP_IN_USE 0, wr (.bnd p) Reg.BND.LANE_MAP_FAILED 0,
        whenP retry (wr (.bnd p) Reg.BND.PORT_CTRL_ROUTE_EN 0),
        modLink p fun l => { l with credits := creditsOf r },
        whenP (r.port != oppositePort p) (wr (.bnd p) Reg.BND.CHECK_WIRING 1),
        recordIn p r])])

/-- PORT_BRINGUP (R279). -/
def execPortBringup (port : Fin 7) (peer : LinkRec) (s : State) : Host.Outcome State Fault Refusal := done (bringUp port peer false) s

/-- RETRAIN_RETRY (R301 step 5): a down port with RETRAIN_EN tries bring-up again; it comes UP with ROUTE_EN 0. -/
def execRetrainRetry (port : Fin 7) (peer : LinkRec) (s : State) : Host.Outcome State Fault Refusal :=
  done (whenP (rd s (.bnd port) Reg.BND.PORT_CTRL_RETRAIN_EN == 1) (bringUp port peer true)) s

/-- RETRAIN (register table of chapter 12): the link is taken down and bring-up starts, but of a port in electrical idle. -/
def retrainPort (p : Nat) : Prog := .seq (linkDown p none) (.look fun s => whenP (!idlePort s p) (setPort p 1))

/-! ### Keepalive (R282, R300) -/

/-- A LANE flit, whose layout is not given. -/
def laneFlit (p : Nat) : Prog := withFreeBytes 240 fun b => emitFlit p 5 b false

/-- IDLE_ACK: after 64 cycles an IDLE flit goes out with ACK and the next credit count, and a sparing request that has not been confirmed goes out
again (R282, R287). -/
def progIdleAck (p : Nat) : Prog :=
  .look fun s => whenP (portUp s p) (.seq (emitFlit p 0 [] false) (whenP (linkOf s p).pendingLane.isSome (laneFlit p)))

/-- IDLE_ACK (R282). -/
def execIdleAck (port : Fin 7) (s : State) : Host.Outcome State Fault Refusal := done (progIdleAck port) s

/-- KEEPALIVE (R300): a flit with this module's link record. -/
def execKeepalive (port : Fin 7) (s : State) : Host.Outcome State Fault Refusal :=
  done (whenP (portUp s port) (emitFlit port 3 (linkRecord s port) false)) s

/-! ### Lanes (R286 to R288) -/

/-- A substitution in LANE_MAP, recorded (R287 step 4). LANE_MAP has one entry for the two directions of a port: it shows the latest (DESIGN CHOICE,
log entry 93). -/
def laneSpared (p l : Nat) : Prog :=
  progs [wr (.bnd p) Reg.BND.LANE_MAP_SPARED l, wr (.bnd p) Reg.BND.LANE_MAP_IN_USE 1, wr (.bnd p) Reg.BND.PORT_STATUS_SPARE_USED 1,
    wr (.bnd p) Reg.BND.CHECK_LANE_SPARED 1, raise Code.BND_LANE_SPARED (844 + p) 0 noLeg p [w32 l], logOwn]

/-- The failed lanes of a group of four. -/
def groupFailed (s : State) (p g : Nat) : List Nat :=
  (List.range 4).filterMap fun i => if bit (rd s (.bnd p) Reg.BND.LANE_MAP_FAILED) (4 * g + i) then some (4 * g + i) else none

/-- The first group of four lanes that can be made whole, with the lane the spare then carries. -/
def wholeGroup (s : State) (p : Nat) (spare : Bool) : Option (Option Nat) :=
  (List.range 2).findSome? fun g => match groupFailed s p g with
    | [] => some none
    | [l] => if spare then some (some l) else none
    | _ => none

/-- The port narrowed to four lanes, or down where no group can be made whole (R288). -/
def narrowPort (p : Nat) : Prog :=
  .look fun s =>
    match wholeGroup s p (rd s (.bnd p) Reg.BND.PORT_CTRL_SPARE_EN == 1 && !(linkOf s p).spareBad) with
    | none => linkDown p none
    | some l => progs [
        modLink p fun x => { x with pendingLane := none, rxSpare := l },
        wr (.bnd p) Reg.BND.PORT_STATUS_WIDTH 4,
        wr (.bnd p) Reg.BND.LANE_MAP_SPARED (l.getD 0), wr (.bnd p) Reg.BND.LANE_MAP_IN_USE (ofBool l.isSome),
        wr (.bnd p) Reg.BND.PORT_STATUS_SPARE_USED (ofBool l.isSome),
        wr (.bnd p) Reg.BND.CHECK_DEGRADED 1, raise Code.BND_DEGRADED (844 + p) 0 noLeg p [], logOwn]

/-- The lanes that have failed and that the spare does not carry. -/
def bareLanes (s : State) (p : Nat) : List Nat :=
  (List.range 8).filter fun l => bit (rd s (.bnd p) Reg.BND.LANE_MAP_FAILED) l &&
    !((linkOf s p).rxSpare == some l && !(linkOf s p).spareBad)

/-- A lane of an up port fails: the lane (8 is the spare) is marked; a free spare is asked for with a LANE flit; any other bare lane narrows the
port. -/
def laneFails (p l : Nat) : Prog :=
  .look fun s => whenP (portUp s p) (progs [
    (if l = 8 then modLink p fun x => { x with spareBad := true }
     else wr (.bnd p) Reg.BND.LANE_MAP_FAILED (putBits (rd s (.bnd p) Reg.BND.LANE_MAP_FAILED) l 1 1)),
    .look fun t =>
      let free := rd t (.bnd p) Reg.BND.PORT_CTRL_SPARE_EN == 1 && (linkOf t p).rxSpare.isNone && !(linkOf t p).spareBad
      if rd t (.bnd p) Reg.BND.PORT_STATUS_WIDTH = 4 then
        whenP (decide (l < 8) || (linkOf t p).rxSpare.isSome) (narrowPort p)
      else match bareLanes t p with
        | [] => .skip
        | [x] => if free then .seq (modLink p fun k => { k with pendingLane := some x }) (laneFlit p)
          else narrowPort p
        | _ => narrowPort p])

/-- LANE_FAILURE: the lane has lost lock, or corrected too many symbols since the last flit; those are counted with an unknown number. -/
def progLaneFailure (p l : Nat) : Prog :=
  .look fun s => whenP (portUp s p) (.seq (withFree fun n => addSat (.bnd p) Reg.BND.SYM_ERR (n % 2 ^ 32) l) (laneFails p l))

/-- The symbols corrected in a lane since the last flit, fewer than 1,024 (log entry 40), are counted; how many of those corrected before are still within
the last 2^20 codewords is open. -/
def countLane (p l corrected left : Nat) : Prog :=
  .seq (addSat (.bnd p) Reg.BND.SYM_ERR corrected l)
    (modLink p fun k => { k with symWin := smSet zeroDefault k.symWin l (min left (smGet zeroDefault k.symWin l) + corrected) })

/-- A lane that has corrected more than 2^16 symbols within 2^20 codewords fails, once (R286). -/
def lanePasses (p l : Nat) : Prog :=
  .look fun s => whenP (decide (2 ^ 16 < smGet zeroDefault (linkOf s p).symWin l))
    (.seq (modLink p fun k => { k with symWin := smErase l k.symWin }) (laneFails p l))

/-- Symbols that FEC corrected in the nine lanes with a flit received, as many as the spec leaves open, and the lanes that then fail (R286). -/
def countSymbols (p : Nat) : Prog :=
  withFreeBytes 54 fun b =>
    .seq (forEach (List.range 9) fun l => countLane p l (leAt b (6 * l) 2 % 1024) (leAt b (6 * l + 2) 4)) (forEach (List.range 9) (lanePasses p))

/-- LANE_FAILURE (R286, R288). -/
def execLaneFailure (port : Fin 7) (lane : Fin 9) (s : State) : Host.Outcome State Fault Refusal := done (progLaneFailure port lane) s

/-- LANE: a request of the peer is answered with the SEQ of the switch, and this transmitter copies the lane onto its spare, shown once; a confirmation
of this port's own request shows the substitution, in force from its SEQ on (R287). -/
def progLane (p : Nat) (confirm : Bool) (l seq : Nat) : Prog :=
  .look fun s => whenP (portUp s p)
    (if confirm then whenP ((linkOf s p).pendingLane == some l)
      (.seq (modLink p fun x => { x with pendingLane := none, rxSpare := some l, switchSeq := some seq }) (laneSpared p l))
    else
      let free := (linkOf s p).txSpare.isNone
      whenP (free || (linkOf s p).txSpare == some l)
        (.seq (laneFlit p) (whenP free (.seq (modLink p fun x => { x with txSpare := some l }) (laneSpared p l)))))

/-- LANE (R287). -/
def execLane (port : Fin 7) (confirm : Bool) (lane : Fin 8) (seq : Nat) (s : State) : Host.Outcome State Fault Refusal :=
  done (progLane port confirm lane seq) s

/-! ### Flits received (R281 to R284, R290, R291) -/

/-- The longest data of an operation, and whether the combination is defined (R290). -/
def msgLimit (m : Msg) : Option Nat :=
  match m.cls, m.resp, m.op with
  | 0, false, 0 => some 8
  | 0, true, 31 => some 16
  | 1, false, 0 => some 4096 | 1, true, 1 => some 4096 | 1, true, 31 => some 4096
  | 2, false, 0 => some 4096 | 2, false, 1 => some 4096 | 2, true, 2 => some 4096 | 2, true, 31 => some 4096
  | 3, false, 0 => some 4096 | 3, false, 1 => some 8 | 3, true, 2 => some 4096 | 3, true, 3 => some 4096 | 3, true, 31 => some 4096
  | 4, false, 0 => some 72 | 4, true, 1 => some 72 | 4, true, 31 => some 72
  | 5, false, 0 => some 64 | 5, false, 1 => some 64 | 5, false, 2 => some 64 | 5, true, 3 => some 64 | 5, true, 4 => some 64 | 5, true, 31 => some 64
  | 6, false, 0 => some 4096 | 6, true, 1 => some 4096 | 6, true, 31 => some 4096
  | _, _, _ => none

/-- Whether R290 lets a message in on a port. -/
def msgOk (p : Nat) (m : Msg) : Bool :=
  (match msgLimit m with | some n => decide (m.len ≤ n) | none => false) && (p == 6 || (m.cls != 5 && m.cls != 6))

/-- A flit or message discarded under R280 or R290. -/
def protoDrop (p : Nat) : Prog := .seq (wr (.bnd p) Reg.BND.CHECK_PROTO 1) (addSat (.bnd p) Reg.BND.PROTO_COUNT 1)

/-- Flits that leave a receive pool (R280). -/
def freePool (p pool n : Nat) : Prog :=
  modLink p fun l => { l with freed := smSet zeroDefault l.freed pool ((smGet zeroDefault l.freed pool + n) % 256) }

/-- A whole message received on a port, with the flits its pool holds for it: one that R290 rejects is discarded, as is every message that reaches a
module in core reset (R302); a module in takeover records its partner's identity as source on a torus port (R361); else it waits to be served. -/
def arrive (p flits : Nat) (m : Msg) : Prog :=
  .look fun s =>
    if !msgOk p m then .seq (protoDrop p) (freePool p (msgPool m) flits)
    else if inCoreReset s then freePool p (msgPool m) flits
    else .seq
      (whenP (inTakeover s && p != 6 && m.src == partnerNode s && rd s (.mod 4) Reg.MOD4.PAIR_CHECK_DUAL == 0)
        (.seq (wr (.mod 4) Reg.MOD4.PAIR_CHECK_DUAL 1) (raise Code.PAIR_DUAL 852 0 noLeg 0 [])))
      (deliver p flits m)

/-- The messages of a MSG payload from offset `o` (R291), at most `n`: whole ones, and at the end one that goes on in CONT flits. -/
def parseMsgs (b : List Byte) : Nat → Nat → List Msg × Option Msg
  | 0, _ => ([], none)
  | n + 1, o =>
    if 240 < o + 16 then ([], none)
    else
      let m := msgOfWords (leAt b o 8) (leAt b (o + 8) 8)
      if m.len = 8191 then ([], none)
      else if o + 16 + m.len ≤ 240 then
        let rest := parseMsgs b n (o + 16 + ceilDiv m.len 16 * 16)
        ({ m with data := sliceBytes b (o + 16) m.len } :: rest.1, rest.2)
      else ([], some { m with data := b.drop (o + 16) })

/-- The messages of one flit arrive; the flit's credit goes with the last of them. -/
def arriveAll (p : Nat) : List Msg → Prog
  | [] => .skip
  | [m] => arrive p 1 m
  | m :: r => .seq (arrive p 0 m) (arriveAll p r)

/-- The payload of a MSG or CONT flit accepted in order. -/
def payloadIn (p ftype : Nat) (b : List Byte) : Prog :=
  .look fun s =>
    let l := linkOf s p
    if ftype = 1 then
      let (ms, part) := parseMsgs b 15 0
      match part with
      | none => .seq (modLink p fun k => { k with partialMsg := none, partialFlits := 0 }) (arriveAll p ms)
      | some m => .seq (forEach ms (arrive p 0)) (modLink p fun k => { k with partialMsg := some m, partialFlits := 1 })
    else match l.partialMsg with
      | none => protoDrop p
      | some m =>
        let d := m.data ++ b.take (m.len - m.data.length)
        if m.len ≤ d.length then
          .seq (modLink p fun k => { k with partialMsg := none, partialFlits := 0 }) (arrive p (l.partialFlits + 1) { m with data := d })
        else modLink p fun k => { k with partialMsg := some { m with data := d }, partialFlits := l.partialFlits + 1 }

/-- A sequenced flit out of order: NAK is due, once for each gap (R281). -/
def gapMark (p : Nat) : Prog := modLink p fun l => if l.gap then l else { l with gap := true, nakDue := true }

/-- A flit that fails its CRC opens a gap of its own: it may be the first flit of a replay, and nothing else would ask for it again (R281). DEDUCED
(log entry 90). -/
def crcGap (p : Nat) : Prog := modLink p fun l => { l with gap := true, nakDue := true }

/-- The flits a replay buffer still holds after an acknowledgement, and whether it advanced (R280, R282). -/
def ackFlits (l : List TxFlit) (ack : Nat) : List TxFlit × Bool :=
  if l.any (·.seq == ack) then ((l.dropWhile (·.seq != ack)).drop 1, true) else (l, false)

/-- ACK and credits of a good header (R280, R282, R284). -/
def headerIn (p h : Nat) : Prog :=
  modLink p fun l =>
    let (rest, moved) := ackFlits l.replay (bits h 16 12)
    let pool := bits h 28 5
    let n := bits h 33 8
    let l := { l with replay := rest, replays := if moved then 0 else l.replays }
    if pool < 28 then
      let d := (n + 256 - smGet zeroDefault l.seen pool) % 256
      { l with credits := smSet zeroDefault l.credits pool (smGet zeroDefault l.credits pool + d), seen := smSet zeroDefault l.seen pool n }
    else l

/-- A NAK: every flit not acknowledged is replayed; the sixteenth replay in a row without ACK advancing takes the link down (R281, R282). -/
def nakIn (p : Nat) : Prog :=
  .look fun s =>
    let l := linkOf s p
    if 15 ≤ l.replays then .seq (addSat (.bnd p) Reg.BND.REPLAY_COUNT 1) (linkDown p (some Reg.BND.CHECK_REPLAY_FAIL))
    else progs [
      addSat (.bnd p) Reg.BND.REPLAY_COUNT 1, modLink p fun k => { k with replays := k.replays + 1 },
      forEach l.replay fun f => putFlit p f.ftype f.seq f.payload]

/-- FLIT_RECEIVE: CRC, then ACK, credit and NAK, then the flit's type; a reserved type counts as a CRC failure too (R280). -/
def progFlitReceive (p : Nat) (f : List Byte) : Prog :=
  .look fun s => whenP (portUp s p) (
    let h := leAt f 0 8
    let bad := f.length != 256 || crc64 (f.take 248) != leAt f 248 8
    let ftype := bits h 0 4
    .seq (countSymbols p) (.look fun s => whenP (portUp s p) (
    if bad then .seq (addSat (.bnd p) Reg.BND.CRC_COUNT 1) (crcGap p)
    else if 6 ≤ ftype then progs [protoDrop p, addSat (.bnd p) Reg.BND.CRC_COUNT 1, crcGap p]
    else progs [
      headerIn p h,
      whenP (bit h 41) (nakIn p),
      (if ftype = 3 ∨ ftype = 4 then recordIn p (parseRecord (sliceBytes f 8 64))
       else if ftype = 1 ∨ ftype = 2 then .look fun t => whenP (portUp t p)
        (if bits h 4 12 = ((linkOf t p).rxSeq + 1) % 4096 then
          .seq (modLink p fun l => { l with rxSeq := bits h 4 12, gap := false }) (payloadIn p ftype (sliceBytes f 8 240))
        else gapMark p)
       else .skip),
      pumpPort p])))

end Sys2Proof.Machine
end

