-- ==== Sys2Proof/Machine/RingCmds.lean ====
section
/-! DEFINITION. Command rings (R370 to R375) and the commands their descriptors name (R376 to R381): acceptance, start, effect and completion. -/

namespace Sys2Proof.Machine

open Sys2Proof

/-! ### Operands in HBM or host memory -/

/-- `n` bytes at an address of HBM (space 0) or host memory (space 1). -/
def spaceBytes (s : State) (space a n : Nat) : List Byte := if space = 0 then hbmRead s a n else smList byteDefault s.mem.host a n

/-- Whether the word of an address reads as poisoned. -/
def spacePoison (s : State) (space a : Nat) : Bool := if space = 0 then hbmPoisoned s a else smGet flagDefault s.mem.hostPoison (a / 64)

/-- The 64 B words of a range, by address. -/
def wordsOf (a n : Nat) : List Nat := if n = 0 then [] else (List.range ((a + n - 1) / 64 - a / 64 + 1)).map fun i => (a / 64 + i) * 64

/-- Whether a range holds a poisoned word. -/
def spaceBad (s : State) (space a n : Nat) : Bool := (wordsOf a n).any (spacePoison s space)

/-- An HBM range outside the capacity in use (R379). -/
def outside (s : State) (space a n : Nat) : Bool := space == 0 && decide (hbmBytes s < a + n)

/-- The first host page of a range whose translation is refused (R379), as an address. -/
def refusedPage (s : State) (space a n : Nat) : Option Nat :=
  if space = 0 then none else ((pagesOf a n).find? fun p => hostRefuses s (p * 4096)).map (· * 4096)

/-- A range in HBM that lies in part on a stack at CRIT: what would access it waits (R247). -/
def spaceHot (s : State) (space a n : Nat) : Bool := space == 0 && hotRange s a n

/-- What a read of a range leaves behind: poisoned words delivered, or translations held. -/
def noteRead (space a n : Nat) : Prog := if space = 0 then deliverPoison a n else cacheTranslation a n

/-- Bytes written with poison by destination word (R223, R225): a word that takes any poisoned byte is poisoned, a whole clean word is not. -/
def spaceWrite (space a : Nat) (l : List Byte) (bad : Nat → Nat → Bool) : Prog :=
  forEach (cut 64 a l) fun w =>
    let poison := bad w.1 w.2.length
    if space = 0 then hbmWordWrite w.1 w.2 poison
    else progs [.prim (.bytes .host w.1 w.2), whenP (poison || w.2.length == 64) (.prim (.flag .hostPoison (w.1 / 64) poison))]

/-- Clean bytes written. -/
def spacePut (space a : Nat) (l : List Byte) : Prog := spaceWrite space a l fun _ _ => false

/-! ### Start of commands (R373) -/

/-- The next command of a ring that may start: the first not started, and with ORDERED only when it is the ring's first uncompleted. -/
def startable (s : State) (r : Nat) : Option Cmd :=
  match (ringAccepted s r).find? fun c => !c.started with
  | none => none
  | some c => if c.ordered && (ringAccepted s r).head?.map (·.id) != some c.id then none else some c

/-- Whether firmware carries a command out or holds its registration, and so makes no progress while a core is halted (R383, R437). -/
def byFirmware : CmdBody → Bool
  | .loadMap _ _ _ _ => true | .snapshotSave _ _ _ _ => true | .snapshotRestore _ _ _ _ => true | .tableMigrate _ _ _ _ _ _ => true
  | .wait _ _ _ => true
  | _ => false

/-- A command of a ring started: nothing where the next startable one is not of this body. -/
def startCmd (r : Nat) (b : CmdBody) (k : Cmd → Prog) : Prog :=
  .look fun s => match startable s r with
    | none => .skip
    | some c => whenP (c.body == some b && (fwRuns s || !byFirmware b)) (.seq (markStarted c.id) (k c))

/-- A ring's command of this body that has steps to come: of the started ones the first, but for a load whose image has been checked. -/
def underWay (s : State) (r : Nat) (b : CmdBody) : Option Cmd :=
  (ringAccepted s r).find? fun c => c.started && c.body == some b && (match b with | .loadMap _ _ _ _ => !c.part.image.isEmpty | _ => true)

/-- A long command (R383): what has been started of this body goes on, else the next startable one begins. The order of the steps of several long commands
is that in which their commands come (log entry 120). -/
def inSteps (r : Nat) (b : CmdBody) (first next : Cmd → Prog) : Prog :=
  .look fun s => match underWay s r b with | some c => next c | none => startCmd r b first

/-- How far a long command has come. -/
def stepAt (s : State) (r : Nat) (b : CmdBody) : Nat := match underWay s r b with | some c => c.part.moved | none => 0

/-! ### LOAD_MAP (R35 to R37, R379) -/

/-- A map image in plain bytes. -/
def imageOf (l : List Byte) : Img := fun off n => sliceBytes l off n

/-- A failed LOAD_MAP names the control-processor complex, which checks images (R383), and no leg. -/
def loadFail (c : Cmd) (status : Nat) : Prog := finish c.id status (failDetail 852 noLeg)

/-- The bytes that an image's SIZE asks to read: those of its header where SIZE is out of range. -/
def imageExtent (s : State) (space addr : Nat) : Nat :=
  let n := leNat (spaceBytes s space (addr + 8) 4)
  if 128 ≤ n ∧ n ≤ 262144 then n else 128

/-- A step of a LOAD_MAP (R383): the image is checked for the piste of place `i` in the mask; after the last of them it is queued at each piste in service for
writing at its boundary, and idle pistes write it at once. DESIGN CHOICE: R35 does not say which status wins where pistes fail different checks; the
pistes are checked in ascending order, and the first that fails one ends the command (log entry 87). -/
def loadStep (c : Cmd) (slot m : Nat) (image : List Byte) (i : Nat) : Prog :=
  .look fun s =>
    let st := match (maskList 64 m)[i]? with | some p => imageStatus (imageOf image) p slot | none => 0
    let ps := maskList 64 (serviceMask s m)
    if st ≠ 0 then loadFail c st
    else if i + 1 < (maskList 64 m).length then modCmd c.id fun x => { x with part := { x.part with moved := i + 1, mask := m, image := image } }
    else if ps.isEmpty then loadFail c Code.PISTE_FENCED
    else progs [
      modCmd c.id fun x => { x with part := {} },
      forEach ps fun p => modPiste p fun x =>
        { x with loads := x.loads ++ [{ cmd := some c.id, order := s.runs.nextId, slot := slot, image := image }] },
      idleActions]

/-- LOAD_MAP: the image is read, then checked for every named piste, one a step, before any writes it. The read waits while the image lies on a stack at
CRIT (R247). -/
def progLoadMap (r addr space slot mask : Nat) : Prog :=
  .look fun s => whenP ((underWay s r (.loadMap addr space slot mask)).isSome || !spaceHot s space addr (imageExtent s space addr)) <|
    inSteps r (.loadMap addr space slot mask)
    (fun c => .look fun s =>
      let m := serviceMask s mask
      let n := imageExtent s space addr
      if m = 0 then loadFail c Code.PISTE_FENCED
      else if outside s space addr 128 || outside s space addr n then loadFail c Code.CMD_RANGE
      else if (refusedPage s space addr n).isSome then loadFail c Code.HOST_XLATE
      else .seq (noteRead space addr n)
        (if spaceBad s space addr n then loadFail c Code.MEM_UE else loadStep c slot m (spaceBytes s space addr n) 0))
    fun c => .look fun s => whenP (fwRuns s) (loadStep c slot c.part.mask c.part.image c.part.moved)

/-- LOAD_MAP (R35). -/
def execLoadMap (r : Fin 64) (addr space slot mask : Nat) (s : State) : Host.Outcome State Fault Refusal :=
  done (progLoadMap r addr space slot mask) s

/-! ### RUN (R27, R36, R50, R323, R336) -/

/-- The map that a run accepted now would find in a slot of a piste: of the last pending load that covers it, else the resident one (R37). -/
def comingMap (s : State) (p j : Nat) : Option Img :=
  (pisteOf s p).loads.foldl (fun m l =>
      if l.slot = j then some (imageOf l.image)
      else if l.slot ≤ j ∧ j < l.slot + loadSlots l then none
      else match m with
        | some g => if slotsMeet j (slotsOf (imgSize g)) l.slot (loadSlots l) then none else some g
        | none => none)
    (if rd s (.pst p) Reg.PST.SLOT_ID j = 0 then none else some (residentImg s p j))

/-- The status of a RUN at acceptance on its unfenced pistes, with the piste that shows it: an empty slot, a chain that leaves the mask, a layout
epoch that is not the commanded one. -/
def runStatus (s : State) (ps : List Nat) (slot : Nat) : Option (Nat × Nat) :=
  let maps := ps.map fun p => (p, comingMap s p slot)
  match maps.find? fun x => x.2.isNone with
  | some x => some (Code.RUN_SLOT_EMPTY, x.1)
  | none => match maps.find? fun x => match x.2 with | some g => imgChainEn g && !ps.contains (imgChainTo g) | none => false with
    | some x => some (Code.RUN_CHAIN, x.1)
    | none =>
      maps.findSome? fun x => match x.2 with
        | none => none
        | some g =>
          if imgLayout g < s.layout.cmd then some (Code.LAYOUT_EPOCH_OLD, x.1)
          else if s.layout.cmd < imgLayout g then some (Code.LAYOUT_EPOCH_AHEAD, x.1)
          else none

/-- RUN: judged on its unfenced pistes and queued behind the runs that are there. -/
def progRun (r mask slot epoch iter : Nat) (ram : List SramErr) : Prog :=
  startCmd r (.run mask slot epoch iter) fun c => .seq (forEach ram ramFound) (.look fun s =>
    let m := serviceMask s mask
    if m = 0 ∨ fenceStops s mask = true then
      finish c.id Code.PISTE_FENCED (failDetail (768 + minOf 0 ((fencedList s).filter (bit mask))) noLeg)
    else match runStatus s (maskList 64 m) slot with
      | some (st, p) => finish c.id st (failDetail (768 + p) noLeg)
      | none => queueRun (newRun s (some c.id) (queuedMask s mask) slot epoch s.layout.cmd iter))

/-- RUN (R378). -/
def execRun (r : Fin 64) (mask slot epoch iter : Nat) (ram : List SramErr) (s : State) : Host.Outcome State Fault Refusal :=
  done (progRun r mask slot epoch iter ram) s

/-! ### COPY and FILL (R225, R379, R383) -/

/-- The bytes of the step of a move of `n` bytes that begins at byte `o`: 64 KB, or the rest (R383). -/
def stepLen (n o : Nat) : Nat := min 65536 (n - o)

/-- How many of the first bytes of a move lie before the first refused page of its source or destination. -/
def bytesBefore (s : State) (space a n : Nat) : Nat :=
  match refusedPage s space a n with
  | some p => p - a
  | none => n

/-- A step of a move of `n` bytes that began at byte `o` ends after `k` of its bytes: the command goes on with the next step, or completes, with the bytes
written as DETAIL. -/
def moveEnd (c : Cmd) (n o k : Nat) : Prog :=
  if k < stepLen n o then finish c.id Code.HOST_XLATE ((o + k) % 2 ^ 48)
  else if o + k < n then modCmd c.id fun x => { x with part := { x.part with moved := o + k } }
  else finish c.id 0 (n % 2 ^ 48)

/-- The bytes that a step of a move writes: all, or, where translation refuses a page, a number up to that page which the spec leaves open. -/
def moved (n limit : Nat) (k : Nat → Prog) : Prog := if n ≤ limit then k n else withFree fun v => k (v % (limit + 1))

/-- Whether a source and destination overlap within one space. -/
def overlaps (src dst n sp dp : Nat) : Bool := sp == dp && decide (src < dst + n) && decide (dst < src + n)

/-- The first `k` bytes copied; poison passes with every byte of a poisoned word. An overlapping copy leaves bytes the spec leaves undefined. -/
def copyBytes (src dst n k sp dp : Nat) : Prog :=
  .look fun s =>
    .seq (noteRead sp src k) (.seq (whenP (dp == 1) (cacheTranslation dst k))
      (if overlaps src dst n sp dp then withFreeBytes k (spacePut dp dst)
      else spaceWrite dp dst (spaceBytes s sp src k) fun a l => spacePoison s sp (src + (a - dst)) || spacePoison s sp (src + (a - dst) + l - 1)))

/-- A step of a COPY from byte `o` on. -/
def copyStep (c : Cmd) (src dst n sp dp o : Nat) : Prog :=
  .look fun s =>
    let m := stepLen n o
    moved m (min (bytesBefore s sp (src + o) m) (bytesBefore s dp (dst + o) m)) fun k =>
      .seq (copyBytes (src + o) (dst + o) n k sp dp) (moveEnd c n o k)

/-- COPY: bytes moved between HBM and host memory, 64 KB a step (R383), so that a run may see old and new beats mixed (R379); a step waits while either of its
ranges lies on a stack at CRIT (R247). -/
def progCopy (r src dst n sp dp : Nat) : Prog :=
  .look fun s =>
    let b := CmdBody.copy src dst n sp dp
    let o := stepAt s r b
    whenP (!spaceHot s sp (src + o) (stepLen n o) && !spaceHot s dp (dst + o) (stepLen n o)) <| inSteps r b
      (fun c => .look fun s =>
        if n = 0 then finish c.id 0 0
        else if outside s sp src n || outside s dp dst n then finish c.id Code.CMD_RANGE 0
        else copyStep c src dst n sp dp 0)
      fun c => copyStep c src dst n sp dp c.part.moved

/-- COPY (R379). -/
def execCopy (r : Fin 64) (src dst len srcSpace dstSpace : Nat) (s : State) : Host.Outcome State Fault Refusal :=
  done (progCopy r src dst len srcSpace dstSpace) s

/-- `n` bytes of an 8-byte pattern. -/
def patternBytes (pattern n : Nat) : List Byte := (List.range n).map fun i => nth (leBytes 8 pattern) (i % 8) 0

/-- A step of a FILL from byte `o` on: a multiple of 8, as every step but the last has 64 KB. -/
def fillStep (c : Cmd) (dst n space : Nat) (pattern : DWord) (o : Nat) : Prog :=
  .look fun s => moved (stepLen n o) (bytesBefore s space (dst + o) (stepLen n o)) fun k =>
    progs [whenP (space == 1) (cacheTranslation (dst + o) k), spacePut space (dst + o) (patternBytes pattern.toNat k), moveEnd c n o k]

/-- FILL: a pattern written over a range, 64 KB a step (R383); whole words lose their poison. A step waits while its range lies on a stack at CRIT
(R247). -/
def progFill (r dst n space : Nat) (pattern : DWord) : Prog :=
  .look fun s =>
    let b := CmdBody.fill dst n space pattern
    let o := stepAt s r b
    whenP (!spaceHot s space (dst + o) (stepLen n o)) <| inSteps r b
      (fun c => .look fun s =>
        if n = 0 then finish c.id 0 0
        else if outside s space dst n then finish c.id Code.CMD_RANGE 0
        else fillStep c dst n space pattern 0)
      fun c => fillStep c dst n space pattern c.part.moved

/-- FILL (R379). -/
def execFill (r : Fin 64) (dst len space : Nat) (pattern : DWord) (s : State) : Host.Outcome State Fault Refusal :=
  done (progFill r dst len space pattern) s

/-! ### MODE_CHANGE (R53, R54, R79) -/

/-- A mode word with a reserved encoding or a reserved bit (R53, R179, R205). -/
def modeWordBad (w : Nat) : Bool := bits w 8 2 == 3 || decide (2 ≤ bits w 10 2) || w / 2 ^ 12 != 0

/-- Whether a piste stands at its boundary with no epoch fixed that its run can start under. -/
def standing (s : State) (p : Nat) : Bool :=
  !fenced s p && (pisteOf s p).run.isNone && (match (pisteOf s p).waiting.bind (findRun s) with
    | none => true
    | some r => match r.fixed with | none => true | some e => decide (e < r.epoch))

/-- MODE_CHANGE: judged by epoch, then by word; taken with the staged seed, applied by the pistes that stand at their boundary, and by the fixing
of runs that wait for it. -/
def progModeChange (r epoch word : Nat) : Prog :=
  startCmd r (.modeChange epoch word) fun c => .look fun s =>
    if epoch ≤ s.mode.cmd then finish c.id Code.MODE_EPOCH_ORDER 0
    else if modeWordBad word then finish c.id Code.MODE_FIELD 0
    else progs [
      .prim (.modeCmd epoch word (rd64 s .mode Reg.MODE.SEED_LO Reg.MODE.SEED_HI)),
      forEach ((List.range 64).filter (standing s)) takeEpoch,
      forEach (s.runs.runs.map (·.id)) fixEpoch,
      showApplied]

/-- MODE_CHANGE (R53). -/
def execModeChange (r : Fin 64) (epoch word : Nat) (s : State) : Host.Outcome State Fault Refusal :=
  done (progModeChange r epoch word) s

/-! ### LAYOUT_CHANGE (R323, R324) -/

/-- LAYOUT_CHANGE: judged by epoch and by the change in progress; taken as the commanded layout, with its relayout run to follow. Runs left
queued for a layout that was never applied end with LAYOUT_EPOCH_OLD. -/
def progLayoutChange (r epoch : Nat) (relayout : Bool) (slot mask iter : Nat) : Prog :=
  startCmd r (.layoutChange epoch relayout slot mask iter) fun c => .look fun s =>
    if epoch ≤ s.layout.cmd then finish c.id Code.LAYOUT_ORDER (failDetail 852 noLeg)
    else if s.layout.pend.isSome then finish c.id Code.LAYOUT_BUSY (failDetail 852 noLeg)
    else progs [
      .prim (.layoutCmd epoch
        { cmd := c.id, epoch := epoch, order := s.runs.nextId, relayout := if relayout then some (slot, mask, iter) else none, run := none,
          reported := false }),
      wr .mode Reg.MODE.LAYOUT_STATE_STATE 1,
      forEach (s.runs.runs.filter fun x => !x.started && !layoutOk s x) fun x =>
        endEarly x Code.LAYOUT_EPOCH_OLD (768 + minOf 0 (maskList 64 x.mask)) none]

/-- LAYOUT_CHANGE (R323). -/
def execLayoutChange (r : Fin 64) (epoch : Nat) (relayout : Bool) (slot mask iter : Nat) (s : State) : Host.Outcome State Fault Refusal :=
  done (progLayoutChange r epoch relayout slot mask iter) s

/-! ### SNAPSHOT (R80, R380) -/

/-- The bytes a snapshot of a mask needs. -/
def snapSize (m : Nat) : Nat := 64 + 53248 * (maskList 64 m).length

/-- The streams of a piste in record order: island, stream, lane. -/
def snapStreams (p : Nat) : List (Nat × Nat × Nat) :=
  (List.range 12).flatMap fun g => (if g = 0 then [0, 1] else [0]).flatMap fun k => (List.range 256).map fun l => (gateIsland p g, k, l)

/-- The streams of a mask in record order. -/
def maskStreams (m : Nat) : List (Nat × Nat × Nat) := (maskList 64 m).flatMap snapStreams

/-- The counter of a position: position x stride (R78). -/
def streamCounter (stream pos : Nat) : Nat := pos * (if stream = 0 then 1 else 2 ^ 20) % 2 ^ 64

/-- The applied job seed of the pistes of a mask (R80). DESIGN CHOICE: where the pistes hold different seeds, the lowest piste's (log entry 119). -/
def snapSeed (s : State) (m : Nat) : Nat := (pisteOf s (minOf 0 (maskList 64 m))).seed

/-- The header of a snapshot. -/
def snapHeader (s : State) (m : Nat) : List Byte :=
  leBytes 4 0x504E5347 ++ leBytes 4 1 ++ leBytes 8 (snapSeed s m) ++ leBytes 8 m ++ leBytes 8 (maskStreams m).length ++ List.replicate 32 0

/-- The records of a piste. -/
def snapRecords (s : State) (p : Nat) : List Byte :=
  (snapStreams p).flatMap fun x =>
    let pos := posOf s x.1 x.2.1 x.2.2
    leBytes 8 pos ++ leBytes 8 (streamCounter x.2.1 pos)

/-- A snapshot as SAVE writes it. -/
def snapBytes (s : State) (m : Nat) : List Byte := snapHeader s m ++ (maskList 64 m).flatMap (snapRecords s)

/-- The offset in a buffer of the records of the piste of place `i` in a mask. -/
def recordsAt (i : Nat) : Nat := 64 + 53248 * i

/-- The part of a buffer that a step reads or writes: the records of the piste of place `i`, the first with the header. -/
def snapPart (i : Nat) : Nat × Nat := if i = 0 then (0, recordsAt 1) else (recordsAt i, 53248)

/-- A failed SNAPSHOT names the host interface, which judges it, and no leg. -/
def snapFail (c : Cmd) (status : Nat) : Prog := finish c.id status (failDetail 851 noLeg)

/-- What holds a SNAPSHOT back in either direction: no piste left, a short buffer, a range outside the capacity, a refused page. -/
def snapRefusal (s : State) (space m addr len : Nat) : Nat :=
  if m = 0 then Code.PISTE_FENCED
  else if len < snapSize m then Code.SNAP_SIZE
  else if outside s space addr len then Code.CMD_RANGE
  else if (refusedPage s space addr (snapSize m)).isSome then Code.HOST_XLATE
  else 0

/-- Position and counter of record `i` of a buffer. -/
def snapRecord (b : List Byte) (i : Nat) : Nat × Nat := (leAt b (64 + 16 * i) 8, leAt b (72 + 16 * i) 8)

/-- What rejects the content of a buffer under RESTORE: a poisoned word, a wrong MAGIC, VERSION or MASK, a sampling position out of range, another
seed. -/
def restoreRefusal (s : State) (space m addr : Nat) : Nat :=
  let b := spaceBytes s space addr (snapSize m)
  if spaceBad s space addr (snapSize m) then Code.MEM_UE
  else if leAt b 0 4 != 0x504E5347 || leAt b 4 4 != 1 || leAt b 16 8 != m ||
      (maskStreams m).zipIdx.any fun x => x.1.2.1 == 1 && decide (2 ^ 44 ≤ (snapRecord b x.2).1) then Code.SNAP_FORMAT
  else if leAt b 8 8 != snapSeed s m then Code.GEN_SEED
  else 0

/-- Whether every piste of a mask stands at its boundary. -/
def allHeld (s : State) (m : Nat) : Bool := (maskList 64 m).all (idlePiste s)

/-- A SNAPSHOT in steps (R380, R383): at its start it is judged and its pistes are held at their boundaries; once all of them stand there it is judged
again, and `k` does its next piste `p` of place `i` in the mask; `last` follows the last of them. A step waits while its part of the buffer lies on a
stack at CRIT (R247). Pistes fenced meanwhile keep their places. -/
def snapCmd (r space addr : Nat) (b : CmdBody) (mask : Nat) (refusal : State → Nat → Bool → Nat) (k : Cmd → Nat → Nat → Nat → Prog) (last : Cmd → Prog) : Prog :=
  let act := fun (c : Cmd) => Prog.look fun t =>
    let i := c.part.moved
    let m := if i = 0 then serviceMask t mask else c.part.mask
    let st := refusal t m (i == 0)
    if st = 0 then
      whenP (allHeld t (serviceMask t m) && !spaceHot t space (addr + (snapPart i).1) (snapPart i).2) (
        match (maskList 64 m)[i]? with
        | none => .skip
        | some p => .seq (k c m p i)
          (if i + 1 = (maskList 64 m).length then .look fun u => match findCmd u c.id with | none => .skip | some d => last d
           else modCmd c.id fun x => { x with part := { x.part with moved := i + 1, mask := m } }))
    else snapFail c st
  inSteps r b
    (fun c => .look fun s =>
      let m := serviceMask s mask
      let st := refusal s m true
      if st = 0 then .seq (forEach (maskList 64 m) unwait) (act c) else snapFail c st)
    fun c => .look fun s => whenP (fwRuns s) (act c)

/-- SNAPSHOT_SAVE: the seed, and the position and counter of every stream written to the buffer, the records of one piste a step. -/
def progSnapshotSave (r space mask addr len : Nat) : Prog :=
  snapCmd r space addr (.snapshotSave space mask addr len) mask (fun s m _ => snapRefusal s space m addr len)
    (fun _ m p i => .look fun s =>
      progs [
        whenP (space == 1) (cacheTranslation (addr + (snapPart i).1) (snapPart i).2),
        spacePut space (addr + (snapPart i).1) ((if i = 0 then snapHeader s m else []) ++ snapRecords s p)])
    fun c => finish c.id 0 (failDetail 0 noLeg)

/-- SNAPSHOT_SAVE (R380). -/
def execSnapshotSave (r : Fin 64) (space mask addr len : Nat) (s : State) : Host.Outcome State Fault Refusal :=
  done (progSnapshotSave r space mask addr len) s

/-- The streams, of those whose records a buffer holds in order, whose saved counter is not the one their position gives: island, stream, lane, saved and
recomputed counter. -/
def realigned (b : List Byte) (l : List (Nat × Nat × Nat)) : List (List Nat) :=
  l.zipIdx.filterMap fun x =>
    let (pos, ctr) := snapRecord b x.2
    let new := streamCounter x.1.2.1 pos
    if ctr = new then none else some [x.1.1, x.1.2.1, x.1.2.2, ctr, new]

/-- Streams set to their saved positions. -/
def restorePositions (b : List Byte) (l : List (Nat × Nat × Nat)) : Prog :=
  modUnits fun u =>
    { u with genPos := l.zipIdx.foldl (fun g x => smSet zeroDefault g (posKey x.1.1 x.1.2.1 x.1.2.2) (snapRecord b x.2).1) u.genPos }

/-- SNAPSHOT_RESTORE: the streams of one piste a step, each set from its saved position, its counter recomputed; those whose saved counter differs are
counted, and recorded at the end (R80). -/
def progSnapshotRestore (r space mask addr len : Nat) : Prog :=
  snapCmd r space addr (.snapshotRestore space mask addr len) mask
    (fun s m first =>
      let st := snapRefusal s space m addr len
      if st ≠ 0 then st
      else if first then restoreRefusal s space m addr
      else if spaceBad s space addr (snapSize m) then Code.MEM_UE
      else 0)
    (fun c _ p i => .look fun s =>
      let b := List.replicate 64 0 ++ spaceBytes s space (addr + recordsAt i) 53248
      let l := realigned b (snapStreams p)
      progs [
        noteRead space (addr + (snapPart i).1) (snapPart i).2,
        restorePositions b (snapStreams p),
        modCmd c.id fun x => { x with part := { x.part with
          bad := (if i = 0 then 0 else x.part.bad) + l.length
          first := if i = 0 ∨ x.part.bad = 0 then l.headD [] else x.part.first } }])
    fun c => progs [
      wr .mode Reg.MODE.REALIGN c.part.bad,
      whenP (c.part.bad != 0) (
        let x := fun i => nth c.part.first i 0
        raise Code.GEN_REALIGN 852 0 noLeg (x 2) [w32 c.part.bad, w32 (x 0), w32 (x 1), w64 (x 3), w64 (x 4)]),
      finish c.id 0 (failDetail 0 noLeg)]

/-- SNAPSHOT_RESTORE (R80). -/
def execSnapshotRestore (r : Fin 64) (space mask addr len : Nat) (s : State) : Host.Outcome State Fault Refusal :=
  done (progSnapshotRestore r space mask addr len) s

/-! ### TABLE_MIGRATE (R197) -/

/-- The committed region table, by which firmware reaches a table, in the place of a piste's (the piste number 64 names no piste). -/
def firmwareView (s : State) : State := { s with pistes := smSet (fun _ => PisteSt.idle) s.pistes 64 { PisteSt.idle with applied := s.rgn.committed } }

/-- A row under migration: its table, the address of its level-2 entry, and the entry. -/
structure MigRow where
  t : EmbTable
  l2 : L2
  at_ : Nat

/-- `n` bytes at an offset of a region lie in it. -/
def fits (v : State) (rg : Nat × Nat) (n : Nat) : Bool := rgnValid (rgnOf v 64 rg.1) && inRegion v 64 rg.1 rg.2 n

/-- Whether the record a migration names is poisoned (R224). -/
def migRecordBad (s : State) (m : Migration) : Bool :=
  let v := firmwareView s
  let view : View := { s := v, p := 64, got := [] }
  let r := rgnOf v 64 m.region
  fits v (m.region, m.offset + 64 * m.table) 64 && decide (rgnLoc r ≤ 1) && !(poisonOffs view r (m.offset + 64 * m.table) 64).isEmpty

/-- The row a migration names: none unless the record and the directory hold it here, valid. -/
def migRow (s : State) (m : Migration) : Option MigRow :=
  let v := firmwareView s
  let view : View := { s := v, p := 64, got := [] }
  let r := rgnOf v 64 m.region
  if !fits v (m.region, m.offset + 64 * m.table) 64 || decide (1 < rgnLoc r) then none
  else
    let b := rgnBytes view r (m.offset + 64 * m.table) 64
    let t : EmbTable := { w := (List.range 8).map fun i => leAt b (8 * i) 8 }
    let dir := t.region 1
    let o1 := t.offset 1 + 16 * (m.row / 65536)
    let ok := embFields t && embRegion v 64 dir 0 [] && embRegion v 64 (t.region 2) 0 [] && embRegion v 64 (t.region 3) 1 [] &&
      (!t.trainable || embRegion v 64 (t.region 4) 0 []) && decide (m.row < t.rows) && fits v (dir, o1) 16
    let e1 := rgnBytes view (rgnOf v 64 dir) o1 16
    let o2 := leAt e1 2 6 + 16 * (m.row % 65536)
    if !ok || !(poisonOffs view (rgnOf v 64 dir) o1 16).isEmpty || leAt e1 0 2 != ownNode s || !fits v (dir, o2) 16 ||
        !(poisonOffs view (rgnOf v 64 dir) o2 16).isEmpty then none
    else
      let l2 := l2Of (rgnBytes view (rgnOf v 64 dir) o2 16)
      if l2.valid then some { t := t, l2 := l2, at_ := rgnBase (rgnOf v 64 dir) + o2 } else none

/-- The 16 bytes of a level-2 entry (R191). -/
def l2Bytes (x : L2) : List Byte :=
  leBytes 4 x.slot ++ leBytes 4 (ofBool x.cold + 2 * ofBool x.valid + 4 * ofBool x.migrating) ++ leBytes 4 x.newSlot ++ leBytes 4 (ofBool x.newCold)

/-- Where the row lies now. -/
def oldPlace (x : MigRow) : Nat × Nat := slotPlace x.t x.l2.cold x.l2.slot
/-- Where it goes. -/
def newPlace (x : MigRow) (m : Migration) : Nat × Nat := slotPlace x.t (m.tier == 1) m.newSlot

/-- The host page of a place whose translation is refused. -/
def placeRefused (v : State) (x : MigRow) (rg : Nat × Nat) : Bool := (refusedIn v [] [spanOf v 64 (rg.1, rg.2, x.t.rowLen)]).isSome

/-- The checks of R197 step 1. -/
def migOk (s : State) (x : MigRow) (m : Migration) : Bool :=
  let v := firmwareView s
  !x.l2.migrating && x.l2.cold != (m.tier == 1) && fits v (oldPlace x) x.t.rowLen && fits v (newPlace x m) x.t.rowLen &&
  (!x.t.trainable || fits v (masterPlace x.t (if m.tier = 0 then m.newSlot else x.l2.slot)) (4 * x.t.width))

/-- A row written at a place of its table. -/
def placeWrite (s : State) (rg : Nat × Nat) (l : List Byte) (bad : Nat → Nat → Bool) : Prog :=
  let r := rgnOf (firmwareView s) 64 rg.1
  spaceWrite (rgnLoc r) (rgnBase r + rg.2) l bad

/-- R197 step 2: promotion widens the cold row into the new master; demotion rewrites the hot row from its master. A table without masters has
neither. -/
def migPrepare (s : State) (x : MigRow) (m : Migration) : Prog :=
  let v : View := { s := firmwareView s, p := 64, got := [] }
  let old := rgnOf v.s 64 (oldPlace x).1
  let row := rgnBytes v old (oldPlace x).2 x.t.rowLen
  let bad := !(poisonOffs v old (oldPlace x).2 x.t.rowLen).isEmpty
  if !x.t.trainable then .skip
  else if m.tier = 0 then
    let (vals, ex) := decodeER (fmtBits x.t.fmt) x.t.width row bad
    placeWrite s (masterPlace x.t m.newSlot) (lanesBytes (vals.map fun y => svAlign y ex x.t.exp)) fun _ _ => false
  else if bit (leNat ((row.drop 5).take 1)) 1 then .skip
  else
    let mp := masterPlace x.t x.l2.slot
    let rg := rgnOf v.s 64 mp.1
    let bytes := rgnBytes v rg mp.2 (4 * x.t.width)
    let pbad := poisonOffs v rg mp.2 (4 * x.t.width)
    let vals := (List.range x.t.width).map fun i => if elemBad pbad 32 i then .nan else codeSV 32 (leAt bytes (4 * i) 4)
    placeWrite s (oldPlace x) (refreshBytes x.t false (refreshRow x.t.fmt x.t.exp (fun _ => .nearest) vals)) fun _ _ => false

/-- Whether a place of a table lies on a stack at CRIT. -/
def placeHot (s : State) (rg : Nat × Nat) (n : Nat) : Bool :=
  let r := rgnOf (firmwareView s) 64 rg.1
  spaceHot s (rgnLoc r) (rgnBase r + rg.2) n

/-- Whether a migration would access a stack at CRIT, and so waits (R247). -/
def migHot (s : State) (m : Migration) : Bool :=
  placeHot s (m.region, m.offset + 64 * m.table) 64 ||
  match migRow s m with
  | none => false
  | some x => spaceHot s 0 x.at_ 16 || placeHot s (oldPlace x) x.t.rowLen || placeHot s (newPlace x m) x.t.rowLen ||
      (x.t.trainable && placeHot s (masterPlace x.t (if m.tier = 0 then m.newSlot else x.l2.slot)) (4 * x.t.width))

/-- TABLE_MIGRATE: the command is checked, the destination's master or the source row is prepared, and the level-2 entry opens the window; the
copy follows once every piste has passed a boundary. -/
def progTableMigrate (r region table tier row offset newSlot : Nat) : Prog :=
  let named := fun id busy => ({ cmd := id, region := region, offset := offset, table := table, row := row, tier := tier, newSlot := newSlot, busy := busy } : Migration)
  .look fun s => whenP (!migHot s (named 0 [])) <| startCmd r (.tableMigrate region table tier row offset newSlot) fun c => .look fun s =>
    let m := named c.id ((unfenced s).filter fun p => (pisteOf s p).run.isSome)
    if migRecordBad s m then finish c.id Code.MEM_UE 0
    else match migRow s m with
    | none => finish c.id Code.EMB_MIGRATE 0
    | some x =>
      if !migOk s x m then finish c.id Code.EMB_MIGRATE 0
      else if placeRefused (firmwareView s) x (oldPlace x) || placeRefused (firmwareView s) x (newPlace x m) then finish c.id Code.HOST_XLATE 0
      else progs [
        migPrepare s x m,
        hbmWrite x.at_ (l2Bytes { x.l2 with migrating := true, newSlot := newSlot, newCold := tier == 1 }),
        modHost fun h => { h with migrations := h.migrations ++ [m] }]

/-- TABLE_MIGRATE (R197). -/
def execTableMigrate (r : Fin 64) (region table tier row offset newSlot : Nat) (s : State) : Host.Outcome State Fault Refusal :=
  done (progTableMigrate r region table tier row offset newSlot) s

/-- R197 steps 5 and 6: the old row copied to the new place with the HOT bit of its tier, poison with it (R225), and the window closed; with
copies that still differ, the entry goes back and the command ends with EMB_MIGRATE_BUSY. -/
def migCopy (m : Migration) (x : MigRow) (differs : Bool) : Prog :=
  .look fun s =>
    let v : View := { s := firmwareView s, p := 64, got := [] }
    let o := oldPlace x
    let old := rgnOf v.s 64 o.1
    let row := rgnBytes v old o.2 x.t.rowLen
    let hot := BitVec.ofNat 8 (putBits (leNat ((row.drop 5).take 1)) 0 1 (ofBool (m.tier == 0)))
    let dst := newPlace x m
    let base := rgnBase (rgnOf v.s 64 dst.1) + dst.2
    progs [placeWrite s dst (patch row 5 [hot]) fun a l => !(poisonOffs v old (o.2 + (a - base)) l).isEmpty,
      logOwn,
      (if differs then .seq (hbmWrite x.at_ (l2Bytes { x.l2 with migrating := false })) (finish m.cmd Code.EMB_MIGRATE_BUSY 0)
      else .seq (hbmWrite x.at_ (l2Bytes { x.l2 with slot := m.newSlot, cold := m.tier == 1, migrating := false })) (finish m.cmd 0 0))]

/-- TABLE_MIGRATE_COPY: the oldest migration whose pistes have all passed a boundary is copied. A row that has gone from its table since, or whose
page is refused, ends the command. -/
def progTableMigrateCopy (differs : Bool) : Prog :=
  .look fun s =>
    match s.host.migrations with
    | [] => .skip
    | m :: rest =>
      whenP (m.busy.isEmpty && fwRuns s && !migHot s m) (.seq (modHost fun h => { h with migrations := rest }) (match migRow s m with
        | none => finish m.cmd Code.EMB_MIGRATE 0
        | some x =>
          if placeRefused (firmwareView s) x (oldPlace x) || placeRefused (firmwareView s) x (newPlace x m) then finish m.cmd Code.HOST_XLATE 0
          else migCopy m x differs))

/-- TABLE_MIGRATE_COPY (R197). -/
def execTableMigrateCopy (differs : Bool) (s : State) : Host.Outcome State Fault Refusal := done (progTableMigrateCopy differs) s

/-! ### FENCE, SIGNAL, WAIT, FLUSH -/

/-- FENCE: it starts, and completes as soon as nothing before it is left (R373). -/
def progFence (r scope : Nat) : Prog := startCmd r (.fence scope) fun _ => modHost fun h => settleFences 64 h

/-- FENCE (R373). -/
def execFence (r : Fin 64) (scope : Nat) (s : State) : Host.Outcome State Fault Refusal := done (progFence r scope) s

/-- SIGNAL: sent to the counter block in the name of island 851 and the ring (R379). -/
def progSignal (r counter round amount : Nat) : Prog :=
  startCmd r (.signal counter round amount) fun c =>
    sendSignal { counter := counter, amount := amount, round := round, src := .die 851 r, run := none, cmd := some c.id, leg := noLeg }

/-- SIGNAL (R378). -/
def execSignal (r : Fin 64) (counter : Fin 4096) (round amount : Nat) (s : State) : Host.Outcome State Fault Refusal :=
  done (progSignal r counter round amount) s

/-- WAIT: registered with the counter block, which compares it at once (R255). -/
def progWait (r counter target limit : Nat) : Prog :=
  startCmd r (.wait counter target limit) fun c => .look fun s =>
    if target ≤ countOf s counter then finish c.id 0 (countOf s counter)
    else modSync fun y => { y with waits := y.waits ++
      [{ localOf := none, counter := counter, target := target, island := 851, queue := r, cmd := some c.id }] }

/-- The wait of a firmware core (R256): registered at its queue with the limit that firmware sets, unless one is registered there, and compared at once
(R255); the core receives status 0 when it is satisfied. -/
def progCoreWait (core counter target limit : Nat) : Prog :=
  .look fun s =>
    let w : WaitRec := { localOf := none, counter := counter, target := target, island := 852, queue := core, cmd := none, limit := limit }
    whenP (s.sec.phase == .ready && fwRuns s && (waitAt s 852 core).isNone)
      (if target ≤ countOf s counter then fwStatus w 0
      else .seq (modFw fun f => { f with waitStatus := smErase core f.waitStatus }) (modSync fun y => { y with waits := y.waits ++ [w] }))

/-- WAIT (R255): a ring's command, or with `core` the wait that a firmware core begins (R256, log entry 107). -/
def execWait (r : Fin 64) (counter : Fin 4096) (target : DWord) (limit : Nat) (s : State) (core : Option (Fin 4) := none) : Host.Outcome State Fault Refusal :=
  done (match core with | some k => progCoreWait k counter target.toNat limit | none => progWait r counter target.toNat limit) s

/-- The base of the HDM window (R368). -/
def windowBase (s : State) : Nat := rd64 s .hif Reg.HIF.HDM_HBM_BASE_LO Reg.HIF.HDM_HBM_BASE_HI
/-- The size of the HDM window in bytes (R368). -/
def windowSize (s : State) : Nat := rd s .hif Reg.HIF.HDM_UNITS * 2 ^ 28
/-- Whether a range lies wholly inside the window. -/
def inWindow (s : State) (a n : Nat) : Bool := decide (windowBase s ≤ a) && decide (a + n ≤ windowBase s + windowSize s)

/-- The open granules that meet a range. -/
def granulesIn (s : State) (a n : Nat) : List Granule := s.stk.granules.filter fun g => decide (g.addr < a + n) && decide (a < g.addr + 64)

/-- The range of the window a FLUSH names: all of it where the length is 0 (R378). -/
def flushRange (s : State) (off len : Nat) : Nat × Nat := if len = 0 then (0, windowSize s) else (off, len)

/-- The open granules a FLUSH writes back. -/
def flushed (s : State) (off len : Nat) : List Granule := granulesIn s (windowBase s + (flushRange s off len).1) (flushRange s off len).2

/-- FLUSH: the open granules of a range of the window written back (R230, R378), once none of them belongs to a stack at CRIT (R247). -/
def progFlush (r off len : Nat) : Prog :=
  .look fun s => whenP ((flushed s off len).all fun g => !hotRange s g.addr 64) <| startCmd r (.flush off len) fun c =>
    if windowSize s < (flushRange s off len).1 + (flushRange s off len).2 then finish c.id Code.CMD_RANGE 0
    else .seq (forEach (flushed s off len) evict) (finish c.id 0 0)

/-- FLUSH (R378). -/
def execFlush (r : Fin 64) (off len : Nat) (s : State) : Host.Outcome State Fault Refusal := done (progFlush r off len) s

/-! ### Rings (R370 to R374) -/

/-- The page of a ring. -/
def ringPg (r : Nat) : Page := .ring r
/-- Descriptors a submission ring holds. -/
def sqSize (s : State) (r : Nat) : Nat := 2 ^ rd s (.ring r) Reg.RING.CFG_SQ_LOG2
/-- Records a completion ring holds. -/
def cqSize (s : State) (r : Nat) : Nat := 2 ^ rd s (.ring r) Reg.RING.CFG_CQ_LOG2
/-- Records written and not released. -/
def unreleased (s : State) (r : Nat) : Nat := smGet zeroDefault s.host.unreleased r

/-- The identity of a code (R269). -/
def identOf (c : Nat) : Ident :=
  match c with
  | 1 => .host | 2 => .mgmt | 3 => .pair | 8 => .debug
  | n => .cp ⟨(n - 4) % 4, Nat.mod_lt _ (by decide)⟩

/-- The descriptors that a doorbell makes visible: the indices from the old tail up to the new. -/
def newIndices (old new size : Nat) : List Nat := (List.range ((new + size - old % size) % size)).map fun i => (old + i) % size

/-- A write of SQ_TAIL (R371): it makes descriptors visible under the writer's identity, or is refused. -/
def opSqTail (id : Ident) (r v : Nat) : Prog :=
  .look fun s =>
    let t := v % 65536
    if sqSize s r ≤ t then wr (.ring r) Reg.RING.CHECK_TAIL_REFUSED 1
    else
      let mark := fun m i => smSet zeroDefault m (r * 65536 + i) (identCode id)
      .seq (modHost fun h => { h with doorbell := (newIndices (rd s (.ring r) Reg.RING.SQ_TAIL) t (sqSize s r)).foldl mark h.doorbell })
        (wr (.ring r) Reg.RING.SQ_TAIL t)

/-- SQ_TAIL_DOORBELL (R371). -/
def execSqTailDoorbell (id : Ident) (r : Fin 64) (tail : Word) (s : State) : Host.Outcome State Fault Refusal :=
  done (writeTo id (.ring r) Reg.RING.SQ_TAIL (opSqTail id r tail.toNat)) s

/-- A write of CQ_HEAD (R372): it releases records that have been written, or is refused. -/
def opCqHead (r v : Nat) : Prog :=
  .look fun s =>
    let h := v % 65536
    let n := (h + cqSize s r - rd s (.ring r) Reg.RING.CQ_HEAD % cqSize s r) % cqSize s r
    if cqSize s r ≤ h ∨ unreleased s r < n then wr (.ring r) Reg.RING.CHECK_HEAD_REFUSED 1
    else .seq (wr (.ring r) Reg.RING.CQ_HEAD h) (modHost fun x => { x with unreleased := smSet zeroDefault x.unreleased r (unreleased s r - n) })

/-- CQ_HEAD_WRITE (R372). -/
def execCqHeadWrite (id : Ident) (r : Fin 64) (head : Word) (s : State) : Host.Outcome State Fault Refusal :=
  done (writeTo id (.ring r) Reg.RING.CQ_HEAD (opCqHead r head.toNat)) s

/-- A configuration that an enable refuses (R370). -/
def ringCfgBad (s : State) (r : Nat) : Bool :=
  let sq := rd s (.ring r) Reg.RING.CFG_SQ_LOG2
  let cq := rd s (.ring r) Reg.RING.CFG_CQ_LOG2
  let sb := rd64 s (.ring r) Reg.RING.SQ_BASE_LO Reg.RING.SQ_BASE_HI
  let cb := rd64 s (.ring r) Reg.RING.CQ_BASE_LO Reg.RING.CQ_BASE_HI
  decide (sq < 4) || decide (16 < sq) || decide (cq < 4) || decide (16 < cq) || decide (rd s (.ring r) Reg.RING.CFG_VECTOR < 4) ||
  sb % 64 != 0 || cb % 32 != 0 || (rd s (.ring r) Reg.RING.CFG_SQ_SPACE == 1 && !inWindow s sb (64 * 2 ^ sq)) ||
  (rd s (.ring r) Reg.RING.CFG_CQ_SPACE == 1 && !inWindow s cb (32 * 2 ^ cq))

/-- Whether a ring is idle: no command accepted and uncompleted, and no completion held. -/
def ringIdle (s : State) (r : Nat) : Bool := (ringAccepted s r).isEmpty && (ringFinished s r).isEmpty

/-- The DETAIL of a command that ends before it is carried out (R381): no leg for those that name one, and the host interface, which ends them, as
their island (DESIGN CHOICE, log entry 88); the count for SIGNAL and WAIT; no byte written for COPY and FILL. -/
def opcodeDetail (s : State) (op counter : Nat) : Nat :=
  if op == 1 || op == 2 || op == 6 || op == 7 then failDetail 851 noLeg else if op == 10 || op == 11 then countOf s (counter % 4096) else 0

/-- As `opcodeDetail`, of an accepted command. -/
def earlyDetail (s : State) (c : Cmd) : Nat :=
  match c.body with
  | some (.loadMap _ _ _ _) | some (.run _ _ _ _) | some (.layoutChange _ _ _ _ _) | some (.snapshotSave _ _ _ _) | some (.snapshotRestore _ _ _ _) =>
    failDetail 851 noLeg
  | some (.signal k _ _) | some (.wait k _ _) => countOf s (k % 4096)
  | _ => 0

/-- ABORT (R374): descriptors not accepted are dropped, and commands not started complete with CMD_ABORTED. -/
def ringAbortNow (r : Nat) : Prog :=
  .look fun s => .seq (wr (.ring r) Reg.RING.SQ_HEAD (rd s (.ring r) Reg.RING.SQ_TAIL))
    (forEach ((ringAccepted s r).filter fun c => !c.started) fun c => finish c.id Code.CMD_ABORTED (earlyDetail s c))

/-- EN written as 1 (R370): refused, or the ring enabled, from IDLE with its indices and PHASE afresh. -/
def ringEnableNow (r : Nat) : Prog :=
  .look fun s =>
    if rd s (.ring r) Reg.RING.CTRL_EN = 1 then .skip
    else if ringCfgBad s r then wr (.ring r) Reg.RING.CHECK_CFG_REFUSED 1
    else .seq (whenP (ringIdle s r) (progs [
        wr (.ring r) Reg.RING.SQ_HEAD 0, wr (.ring r) Reg.RING.SQ_TAIL 0, wr (.ring r) Reg.RING.CQ_TAIL 0, wr (.ring r) Reg.RING.CQ_HEAD 0,
        modHost fun h => { h with unreleased := smErase r h.unreleased, phaseZero := smErase r h.phaseZero }]))
      (wr (.ring r) Reg.RING.CTRL_EN 1)

/-- A write of CTRL: its ABORT, then its EN. -/
def opRingCtrl (r v : Nat) : Prog :=
  .seq (whenP (bit v 1) (ringAbortNow r)) (if bit v 0 then ringEnableNow r else wr (.ring r) Reg.RING.CTRL_EN 0)

/-- RING_ENABLE (R370). -/
def execRingEnable (id : Ident) (r : Fin 64) (v : Word) (s : State) : Host.Outcome State Fault Refusal :=
  done (writeTo id (.ring r) Reg.RING.CTRL_EN (opRingCtrl r v.toNat)) s

/-- RING_ABORT (R374). -/
def execRingAbort (id : Ident) (r : Fin 64) (v : Word) (s : State) : Host.Outcome State Fault Refusal :=
  done (writeTo id (.ring r) Reg.RING.CTRL_ABORT (opRingCtrl r v.toNat)) s

/-! ### Descriptors (R371, R376 to R379) -/

/-- The operand bytes of an opcode beyond the header, as (first, last); none for a reserved opcode (R378). -/
def operandBytes (op : Nat) : Option (List (Nat × Nat)) :=
  match op with
  | 1 => some [(8, 17), (24, 31)]
  | 2 => some [(8, 16), (20, 27)]
  | 3 => some [(8, 33)]
  | 4 => some [(8, 24), (32, 39)]
  | 5 => some [(8, 15)]
  | 6 => some [(8, 13), (16, 27)]
  | 7 => some [(8, 9), (16, 39)]
  | 8 => some [(8, 10), (12, 27)]
  | 9 => some [(8, 8)]
  | 10 => some [(8, 15)]
  | 11 => some [(8, 9), (16, 27)]
  | 12 => some [(8, 23)]
  | _ => none

/-- Whether every byte that the opcode does not use is 0 (R376). -/
def reservedClear (b : List Byte) (used : List (Nat × Nat)) : Bool :=
  (List.range 64).all fun i =>
    decide (i < 2) || (decide (4 ≤ i) && decide (i < 8)) || used.any (fun u => decide (u.1 ≤ i) && decide (i ≤ u.2)) || nth b i 0 == 0

/-- The body of a descriptor; none where a field holds a reserved encoding (R373, R378, R379). -/
def bodyOf (b : List Byte) : Option CmdBody :=
  let n := fun off k => leAt b off k
  let mask := fun off => n off 8 != 0
  match n 0 1 with
  | 1 => if n 16 1 ≤ 1 ∧ n 17 1 ≤ 3 ∧ mask 24 then some (.loadMap (n 8 8) (n 16 1) (n 17 1) (n 24 8)) else none
  | 2 => if n 16 1 ≤ 3 ∧ mask 8 then some (.run (n 8 8) (n 16 1) (n 20 4) (n 24 4)) else none
  | 3 => if n 32 1 ≤ 1 ∧ n 33 1 ≤ 1 then some (.copy (n 8 8) (n 16 8) (n 24 8) (n 32 1) (n 33 1)) else none
  | 4 => if n 24 1 ≤ 1 ∧ n 8 8 % 8 = 0 ∧ n 16 8 % 8 = 0 then some (.fill (n 8 8) (n 16 8) (n 24 1) (BitVec.ofNat 64 (n 32 8))) else none
  | 5 => some (.modeChange (n 8 4) (n 12 4))
  | 6 =>
    if n 12 1 ≤ 1 ∧ n 13 1 ≤ 3 ∧ mask 16 then some (.layoutChange (n 8 4) (bit (n 12 1) 0) (n 13 1) (n 16 8) (n 24 4)) else none
  | 7 =>
    if n 8 1 ≤ 1 ∧ n 9 1 ≤ 1 ∧ mask 16 then
      some (if n 8 1 = 0 then .snapshotSave (n 9 1) (n 16 8) (n 24 8) (n 32 8) else .snapshotRestore (n 9 1) (n 16 8) (n 24 8) (n 32 8))
    else none
  | 8 => if n 10 1 ≤ 1 then some (.tableMigrate (n 8 1) (n 9 1) (n 10 1) (n 12 4) (n 16 8) (n 24 4)) else none
  | 9 => if n 8 1 ≤ 1 then some (.fence (n 8 1)) else none
  | 10 => if n 8 2 < 4096 ∧ n 12 4 ≠ 0 then some (.signal (n 8 2) (n 10 2) (n 12 4)) else none
  | 11 => if n 8 2 < 4096 then some (.wait (n 8 2) (n 16 8) (n 24 4)) else none
  | 12 => some (.flush (n 8 8) (n 16 8))
  | _ => none

/-- What a descriptor names: its command, or the status with which it completes at acceptance (R377). -/
def parseDescriptor (b : List Byte) : Nat × Option CmdBody :=
  match operandBytes (leAt b 0 1) with
  | none => (Code.CMD_OPCODE, none)
  | some used =>
    if bits (leAt b 1 1) 2 6 != 0 || !reservedClear b used then (Code.CMD_FIELD, none)
    else match bodyOf b with
      | none => (Code.CMD_FIELD, none)
      | some x => (0, some x)

/-- Whether a ring accepts its next descriptor (R371, R372, R373, R375). -/
def eligible (s : State) (r : Nat) : Bool :=
  s.sec.phase == .ready && rd s (.ring r) Reg.RING.CTRL_EN == 1 && rd s (.ring r) Reg.RING.SQ_HEAD != rd s (.ring r) Reg.RING.SQ_TAIL &&
  (ringAccepted s r).all (fun c => match c.body with | some (.wait _ _ _) => false | some (.fence _) => false | _ => true) &&
  decide ((ringAccepted s r).length + (ringFinished s r).length + unreleased s r < cqSize s r)

/-- The ring whose turn it is (R371). -/
def turnRing (s : State) : Option Nat := ((List.range 64).map fun i => (s.host.turn + i) % 64).find? (eligible s)

/-- A descriptor read that fails or is poisoned. DEDUCED: R374 governs the read of a ring's entry, which R224's table gives MEM_UE; with no entry
read there is no TAG to complete (log entry 89). -/
def ringReadError (r index : Nat) : Prog :=
  progs [wr (.ring r) Reg.RING.CTRL_EN 0, wr (.ring r) Reg.RING.CHECK_READ_ERR 1, raise Code.RING_READ 851 0 noLeg r [w32 index]]

/-- Step 5 of the sweep as step `n` begins (R340): captures whose check has not completed by the end of the step behind theirs are counted as deferred,
once, and those of the piste sampled now fall due, for which their checker holds at its run boundary. -/
def sweepDeferred (n : Nat) (sampled : Option Nat) : Prog :=
  .look fun s =>
    let late := fun (c : Capture) => !c.checked && decide (c.step + 2 ≤ n)
    progs [
      addSat (.mod 3) Reg.MOD3.SWEEP_DEFERRED (s.fw.captures.filter late).length,
      modFw fun f => { f with captures := f.captures.map fun c =>
        let d := if late c then { c with checked := true } else c
        if d.checked && sampled == some d.piste then { d with due := true } else d },
      .look fun t => forEach ((List.range 64).filter (checkHeld t)) unwait]

/-- A sweep step counted at the acceptance of a RUN whose ITERATION is above every earlier one's (R339): step n samples piste n mod 64. -/
def countSweep (iter : Nat) : Prog :=
  .look fun s => whenP (match s.runs.topIter with | none => true | some t => decide (t < iter))
    (let n := (rd s (.mod 3) Reg.MOD3.SWEEP_STEP + 1) % 2 ^ 32
     let t := if rd s (.mod 3) Reg.MOD3.SWEEP_CTRL_EN = 1 ∧ !fenced s (n % 64) then some (n % 64) else none
     progs [
      latchHold,
      modRuns fun x => { x with topIter := some iter },
      wr (.mod 3) Reg.MOD3.SWEEP_STEP n,
      sweepDeferred n t,
      modFw fun f => { f with sampling := t }])

/-- A descriptor accepted from index `i` of ring `r`. -/
def acceptDescriptor (r i : Nat) (b : List Byte) : Prog :=
  .look fun s =>
    let (st, body) := parseDescriptor b
    let status := if s.host.sramFatal then Code.SRAM_UE else st
    let c : Cmd :=
      { id := s.host.nextCmd, ring := r, index := i, tag := leAt b 4 4, ordered := bit (leAt b 1 1) 0, irq := bit (leAt b 1 1) 1,
        ident := identOf (smGet zeroDefault s.host.doorbell (r * 65536 + i)), body := body, started := false }
    progs [
      wr (.ring r) Reg.RING.SQ_HEAD ((i + 1) % sqSize s r),
      modHost fun h =>
        { h with
          nextCmd := h.nextCmd + 1
          turn := (r + 1) % 64
          accepted := if status = 0 then h.accepted ++ [c] else h.accepted
          finished := if status = 0 then h.finished else h.finished ++ [{ cmd := c, status := status, recUid := none, detail := opcodeDetail s (leAt b 0 1) (leAt b 8 2) }] },
      (match status, body with
       | 0, some (.run _ _ _ iter) => countSweep iter
       | _, _ => .skip),
      trace 1 851]

/-- DESCRIPTOR_ACCEPT: the ring whose turn it is has its next descriptor read and accepted, or is stopped by a failed read. -/
def progDescriptorAccept (r : Nat) (readFails : Bool) : Prog :=
  .look fun s => whenP (turnRing s == some r)
    (let i := rd s (.ring r) Reg.RING.SQ_HEAD
     let space := if rd s (.ring r) Reg.RING.CFG_SQ_SPACE = 1 then 0 else 1
     let a := rd64 s (.ring r) Reg.RING.SQ_BASE_LO Reg.RING.SQ_BASE_HI + 64 * i
     if spaceHot s space a 64 then .skip
     else if readFails || (refusedPage s space a 64).isSome then ringReadError r i
     else .seq (noteRead space a 64)
      (if spaceBad s space a 64 then ringReadError r i else acceptDescriptor r i (spaceBytes s space a 64)))

/-- DESCRIPTOR_ACCEPT (R371). -/
def execDescriptorAccept (r : Fin 64) (readFails : Bool) (s : State) : Host.Outcome State Fault Refusal :=
  done (progDescriptorAccept r readFails) s

/-! ### Completion records (R372, R374, R381) -/

/-- The SEQ of the fault record of a number, where the ring holds it (log entry 15). -/
def seqOf (s : State) (uid : Option Nat) : Option Nat := uid.bind fun u => (s.fr.held.find? fun e => e.frec.uid == u).map (·.seq)

/-- A completion record. -/
def completionBytes (s : State) (r : Nat) (d : Done) (elapsed : Nat) : List Byte :=
  let q := seqOf s d.recUid
  leBytes 4 d.cmd.tag ++ leBytes 2 d.status ++
  leBytes 1 (ofBool (!smGet flagDefault s.host.phaseZero r) + 2 * ofBool q.isSome) ++ leBytes 1 0 ++ leBytes 2 d.cmd.index ++ leBytes 1 r ++ leBytes 1 0 ++
  leBytes 4 (q.getD 0) ++ leBytes 8 elapsed ++ leBytes 8 d.detail

/-- A completion write that fails (R374): the record and every later one are held. -/
def ringWriteError (r : Nat) : Prog :=
  progs [wr (.ring r) Reg.RING.CTRL_EN 0, wr (.ring r) Reg.RING.CHECK_WRITE_ERR 1, wr (.ring r) Reg.RING.STATUS_HELD 1,
    raise Code.RING_WRITE 851 0 noLeg 0 []]

/-- A completion record written at CQ_TAIL, and its message sent. -/
def writeCompletion (r : Nat) (d : Done) (space a elapsed : Nat) : Prog :=
  .look fun s =>
    let t := (rd s (.ring r) Reg.RING.CQ_TAIL + 1) % cqSize s r
    progs [
      whenP (space == 1) (cacheTranslation a 32),
      spacePut space a (completionBytes s r d elapsed),
      wr (.ring r) Reg.RING.CQ_TAIL t,
      modHost fun h =>
        { h with
          finished := eraseFirst d h.finished
          unreleased := smSet zeroDefault h.unreleased r (unreleased s r + 1)
          phaseZero := if t = 0 then smSet flagDefault h.phaseZero r (!smGet flagDefault h.phaseZero r) else h.phaseZero },
      .look fun x => whenP (ringFinished x r).isEmpty (wr (.ring r) Reg.RING.STATUS_HELD 0),
      whenP (d.cmd.irq || d.status != 0) (sendMsix (rd s (.ring r) Reg.RING.CFG_VECTOR)),
      trace 1 851]

/-- COMMAND_COMPLETION: the oldest finished command of a ring has its record written, unless completions are held. -/
def progCommandCompletion (r elapsed : Nat) (writeFails : Bool) : Prog :=
  .look fun s =>
    match ringFinished s r with
    | [] => .skip
    | d :: _ =>
      let space := if rd s (.ring r) Reg.RING.CFG_CQ_SPACE = 1 then 0 else 1
      let a := rd64 s (.ring r) Reg.RING.CQ_BASE_LO Reg.RING.CQ_BASE_HI + 32 * rd s (.ring r) Reg.RING.CQ_TAIL
      whenP (!(rd s (.ring r) Reg.RING.STATUS_HELD == 1 && rd s (.ring r) Reg.RING.CTRL_EN == 0) && !spaceHot s space a 32)
        (if writeFails || (refusedPage s space a 32).isSome then ringWriteError r else writeCompletion r d space a elapsed)

/-- COMMAND_COMPLETION (R372). -/
def execCommandCompletion (r : Fin 64) (elapsedNs : DWord) (writeFails : Bool) (s : State) : Host.Outcome State Fault Refusal :=
  done (progCommandCompletion r elapsedNs.toNat writeFails) s

end Sys2Proof.Machine
end

