-- ==== Sys2Proof/Machine/Pair.lean ====
section
/-! DEFINITION. Pair operation (R350 to R363) and the snapshots mirrored to the partner (R342, R343, R356 to R358). -/

namespace Sys2Proof.Machine

open Sys2Proof

/-! ### Pairing (R351, R353, R355) -/

/-- PAIR_SENSE_CHANGE: the level that has held for 1,000 ns is reported (R353). -/
def execPairSenseChange (level : Bool) (s : State) : Host.Outcome State Fault Refusal :=
  done (.seq (modPins fun p => { p with pairSense := level }) (wr (.mod 4) Reg.MOD4.PAIR_STATUS_SENSE (ofBool level))) s

/-- Whether a peer's record makes a valid pairing: one A and one B, of the same x, y and z (R351). -/
def pairingValid (s : State) (r : LinkRec) : Bool :=
  let own := rd s (.mod 4) Reg.MOD4.PAIR_STATUS_ROLE
  ((own == 1 && r.role == 2) || (own == 2 && r.role == 1)) && r.node % 2 ^ 15 == ownNode s % 2 ^ 15

/-- PAIR_BRINGUP: port P has come UP; the peer's record is checked, and MGMT reads give the partner's TAKEOVER, its mirror area, and the SEQs its header
holds for the two halves (R357, log entry 96). A takeover of the partner's that is learned so counts for the mirror interval (R343). Nothing happens while
the state is PAIRED or RESYNC already, before boot step 9, or while a takeover is holding its pistes. -/
def progPairBringup (r : LinkRec) (partnerTakeover : Bool) (base size seq0 seq1 : Nat) : Prog :=
  .look fun s =>
    let st := pairState s
    whenP (portUp s 6 && (st == 2 || st == 3 || st == 5 || st == 6) && s.fw.pairStep == 0)
      (if pairingValid s r then progs [
        modFw fun f => { f with partnerTakeover := partnerTakeover, partnerBase := base, partnerSize := size, mirSeq0 := seq0, mirSeq1 := seq1 },
        whenP (partnerTakeover && !s.fw.partnerTakeover) mirEvent,
        (if inTakeover s || partnerTakeover then setPairState 4 else setPairState 1),
        whenP (!inTakeover s && !partnerTakeover) (wr (.mod 4) Reg.MOD4.PAIR_STATUS_JOINED 1),
        tapCheck]
      else whenP (st != 5) (progs [
        setPairState 5, wr (.mod 4) Reg.MOD4.PAIR_CHECK_CONFLICT 1, raise Code.PAIR_CONFLICT 852 0 noLeg 0 []]))

/-- PAIR_BRINGUP (R351, R355). -/
def execPairBringup (peer : LinkRec) (partnerTakeover : Bool) (mirBase mirSize : Nat) (s : State) (seq0 seq1 : Nat := 0) : Host.Outcome State Fault Refusal :=
  done (progPairBringup peer partnerTakeover mirBase mirSize seq0 seq1) s

/-! ### The mirror area (R356, R357) -/

/-- The size of a half of a mirror area. -/
def halfSize (size : Nat) : Nat := (size - 65536) / 2

/-- Where a half begins within its area. -/
def halfOffset (size h : Nat) : Nat := 65536 + h * halfSize size

/-- This module's own mirror area: base and size. -/
def ownArea (s : State) : Nat × Nat :=
  (rd64 s (.mod 4) Reg.MOD4.MIR_BASE_LO Reg.MOD4.MIR_BASE_HI, rd64 s (.mod 4) Reg.MOD4.MIR_SIZE_LO Reg.MOD4.MIR_SIZE_HI)

/-- The SEQ and ITER of a half as the header in this module's area gives them; an area of size 0, a header without MAGIC and a poisoned header
hold no complete half. -/
def halfSeq (s : State) (h : Nat) : Nat × Nat :=
  let (b, n) := ownArea s
  if n ≤ 65536 || hbmPoisoned s b || leNat (hbmRead s b 4) != 0x52494D50 then (0, 0)
  else (leNat (hbmRead s (b + 8 + 8 * h) 8), leNat (hbmRead s (b + 0x18 + 4 * h) 4))

/-- The complete half: the one of the higher SEQ that is not 0. -/
def completeHalf (s : State) : Option Nat :=
  let a := (halfSeq s 0).1
  let b := (halfSeq s 1).1
  if a = 0 ∧ b = 0 then none else if a < b then some 1 else some 0

/-- The items of a half from table entry `i`, at most `n`: kind, source address, length, offset; a kind of 0 or above 6 ends the table. -/
def itemsFrom (s : State) (base : Nat) : Nat → Nat → List (Nat × Nat × Nat × Nat)
  | 0, _ => []
  | n + 1, i =>
    let e := hbmRead s (base + 32 * i) 32
    let k := leAt e 0 1
    if k = 0 ∨ 7 ≤ k then [] else (k, leAt e 8 8, leAt e 16 8, leAt e 24 8) :: itemsFrom s base n (i + 1)

/-- The address of the copy of `n` bytes at an address of the lost partner: within one item of kind 1, 2 or 3 of the live half (R360). -/
def liveCopy (s : State) (a n : Nat) : Option Nat :=
  match s.fw.liveHalf with
  | none => none
  | some h =>
    let (b, size) := ownArea s
    let base := b + halfOffset size h
    ((itemsFrom s base 128 0).find? fun x => decide (x.1 ≤ 3) && decide (x.2.1 ≤ a) && decide (a + n ≤ x.2.1 + x.2.2.1)).map fun x =>
      base + x.2.2.2 + (a - x.2.1)

/-! ### Snapshots (R342, R343, R357, R358) -/

/-- What one item of a snapshot holds: kind, source address, and bytes by pieces of a message each, with their poison. -/
structure SnapItem where
  kind : Nat
  src : Nat
  len : Nat
  parts : List (Nat × List Byte × Bool)

/-- Pieces of an HBM range: words of a piece with a poisoned word stand alone (R295). -/
def hbmParts (s : State) (a n : Nat) : List (Nat × List Byte × Bool) :=
  (cut 4096 a (hbmRead s a n)).flatMap fun x =>
    if (cut 64 x.1 x.2).any (fun w => hbmPoisoned s w.1) then (cut 64 x.1 x.2).map fun w => (w.1 - a, w.2, hbmPoisoned s w.1)
    else [(x.1 - a, x.2, false)]

/-- Pieces of a scratchpad range. -/
def scratchParts (s : State) (k n : Nat) : List (Nat × List Byte × Bool) :=
  (cut 4096 0 (smList byteDefault s.mem.scratch k n)).map fun x => (x.1, x.2, false)

/-- Pieces of bytes firmware has made. -/
def byteParts (l : List Byte) : List (Nat × List Byte × Bool) := (cut 4096 0 l).map fun x => (x.1, x.2, false)

/-- Entry `i` of the mirror list (R358): kind, address, length. -/
def listEntry (s : State) (i : Nat) : Nat × Nat × Nat :=
  let e := hbmRead s (rd64 s (.mod 4) Reg.MOD4.LIST_BASE_LO Reg.MOD4.LIST_BASE_HI + 16 * i) 16
  (leAt e 0 1, leAt e 2 6, leAt e 8 8)

/-- Whether an entry of the mirror list is taken: a kind from 1 to 3, and a range of HBM. -/
def listEntryOk (s : State) (i : Nat) : Bool :=
  let (k, a, n) := listEntry s i
  let at_ := rd64 s (.mod 4) Reg.MOD4.LIST_BASE_LO Reg.MOD4.LIST_BASE_HI + 16 * i
  decide (1 ≤ k) && decide (k ≤ 3) && decide (a + n ≤ hbmBytes s) && decide (at_ + 16 ≤ hbmBytes s) && !hbmPoisoned s at_

/-- The entries of the mirror list, taken and skipped. -/
def listTaken (s : State) : List Nat × List Nat :=
  (List.range (rd s (.mod 4) Reg.MOD4.LIST_COUNT)).partition (listEntryOk s)

/-- The items of kinds 1 to 5 (R357), of the entries that the snapshot's start found in the list. -/
def snapItems (s : State) (listed : List (List Nat)) : List SnapItem :=
  (listed.map fun l => { kind := nth l 0 0, src := nth l 1 0, len := nth l 2 0, parts := hbmParts s (nth l 1 0) (nth l 2 0) }) ++
  (s.units.pathRec.map fun e =>
    { kind := 4, src := scratchKey e.1 e.2.1, len := e.2.2, parts := scratchParts s (scratchKey e.1 e.2.1) e.2.2 }) ++
  [let g := snapBytes s (2 ^ 64 - 1); { kind := 5, src := 0, len := g.length, parts := byteParts g }]

/-- Items with their offsets within the half, one after another from 4,096 at multiples of 64 (log entry 30). -/
def placeAll : Nat → List SnapItem → List (SnapItem × Nat)
  | _, [] => []
  | o, x :: r => (x, o) :: placeAll (o + ceilDiv x.len 64 * 64) r

/-- The item table of a half (R357): an entry of KIND 0 ends it unless it is full. -/
def itemTable (l : List (SnapItem × Nat)) : List Byte :=
  (l.flatMap fun x => leBytes 8 x.1.kind ++ leBytes 8 x.1.src ++ leBytes 8 x.1.len ++ leBytes 8 x.2) ++
  (if l.length < 128 then List.replicate 32 0 else [])

/-- A write into the partner's mirror area (R290, R356). -/
def mirrorPut (off : Nat) (l : List Byte) (poison : Bool) : Prog :=
  .look fun s => request (mkMsg 6 0 (partnerNode s) 0 (s.fw.partnerBase + off) l poison) none 0 noLeg 4

/-- The SEQ of a half kept as written to the partner's header. -/
def keepSeq (h q : Nat) : Prog := modFw fun f => if h = 0 then { f with mirSeq0 := q } else { f with mirSeq1 := q }

/-- The snapshot is given up because its items do not fit the half (R358). -/
def snapFull : Prog :=
  progs [modFw fun f => { f with snap := none }, wr (.mod 4) Reg.MOD4.PAIR_CHECK_MIR_FULL 1, raise Code.PAIR_MIR_FULL 852 0 noLeg 0 [],
    trace 7 852, logOwn, releaseHold holdMirror]

/-- The snapshot's items written to a half (R342 step 3, R357): SEQ 0 first. -/
def writeItems (x : SnapSt) (items : List SnapItem) : Prog :=
  .look fun s =>
    let size := s.fw.partnerSize
    let placed := placeAll 4096 items
    let used := placed.foldl (fun m y => max m (y.2 + y.1.len)) 4096
    let base := halfOffset size x.half
    if size ≤ 65536 ∨ halfSize size < used ∨ 128 < items.length then snapFull
    else progs [
      keepSeq x.half 0,
      mirrorPut (8 + 8 * x.half) (leBytes 8 0) false,
      mirrorPut 0 (leBytes 4 0x52494D50 ++ leBytes 2 (ownNode s) ++ leBytes 2 0) false,
      mirrorPut (0x18 + 4 * x.half) (leBytes 4 (x.iter.getD 0)) false,
      forEach (byteParts (itemTable placed)) fun p => mirrorPut (base + p.1) p.2.1 p.2.2,
      forEach placed fun y => forEach y.1.parts fun p => mirrorPut (base + y.2 + p.1) p.2.1 p.2.2,
      modFw fun f => { f with snap := some { x with written := true } }]

/-- A snapshot goes on: once every piste stands at its boundary, and no stack of the listed ranges at CRIT (R247), its items are written, with the content
of TABLES, which the spec does not lay out, free; once every write is acknowledged the sequence goes to the header, and the hold ends (R342 steps 2 to 5). -/
def snapshotGoOn (holdUs : Nat) : Prog :=
  .look fun s =>
    match s.fw.snap with
    | none => .skip
    | some x =>
      if !x.written then
        whenP ((unfenced s).all (idlePiste s) && x.listed.all fun l => !hotRange s (nth l 1 0) (nth l 2 0))
          (withFree fun n => withFreeBytes (n % 2 ^ 24) fun tables => withFree fun src =>
            writeItems x (snapItems s x.listed ++ [{ kind := 6, src := src, len := tables.length, parts := byteParts tables }]))
      else
        whenP (!(s.bnd.tags.any (·.purpose == 4)) && !(s.bnd.tagWait.any fun y => y.2.purpose == 4)) (progs [
          mirrorPut (8 + 8 * x.half) (leBytes 8 x.seq) false,
          keepSeq x.half x.seq,
          modFw fun f => { f with snap := none },
          wr (.mod 3) Reg.MOD3.MIR_SNAP_SEQ x.seq,
          wr (.mod 3) Reg.MOD3.MIR_COST (satBits 32 holdUs),
          releaseHold holdMirror, mirInterval, trace 7 852, logOwn])

/-- Whether the mirror list lies in a stack at CRIT (R247). -/
def listHot (s : State) : Bool :=
  hotRange s (rd64 s (.mod 4) Reg.MOD4.LIST_BASE_LO Reg.MOD4.LIST_BASE_HI) (16 * rd s (.mod 4) Reg.MOD4.LIST_COUNT)

/-- A snapshot begins (R342 step 2), in PAIRED or on a survivor in RESYNC (R362 step 3): the mirror list is read (R358), the half of the lower SEQ is
taken, or half 0 (R357), and the unfenced pistes are held. One that falls due while the partner is in core reset waits
(R355), and so does one whose list lies in a stack at CRIT (R247), until its command comes again. -/
def snapshotStart : Prog :=
  .look fun s =>
    let listed := (listTaken s).1.map fun i => let (k, a, n) := listEntry s i; [k, a, n]
    let ready := (pairState s == 1 || (pairState s == 4 && inTakeover s)) && s.sec.phase == .ready && fwRuns s && s.fw.snap.isNone && rd s (.mod 3) Reg.MOD3.MIR_CTRL_EN == 1
    if ready && (rd s (.bnd 6) Reg.BND.PORT_STATUS_STATE == 3 || (portUp s 6 && listHot s)) then modFw fun f => { f with snapshotDue := true }
    else whenP (ready && portUp s 6) (progs [
      forEach (listTaken s).2 fun i => raise Code.PAIR_LIST 852 0 noLeg 0 [w32 i],
      modFw fun f =>
        { f with
          snapshotDue := false
          snap := some { half := if f.mirSeq1 < f.mirSeq0 then 1 else 0, seq := max f.mirSeq0 f.mirSeq1 + 1, iter := none, listed := listed, written := false } },
      trace 7 852, holdPistes (unfenced s) holdMirror])

/-- A snapshot that waits for the partner starts once its STATUS READY has come (R355). -/
def dueSnapshot : Prog :=
  .look fun s => whenP (s.fw.snapshotDue && rd s (.bnd 6) Reg.BND.PORT_STATUS_STATE == 2) snapshotStart

/-- STATUS_READY (R302): a STATUS flit whose record carries READY. -/
def execStatusReady (port : Fin 7) (peer : LinkRec) (s : State) : Host.Outcome State Fault Refusal :=
  done (.seq (recordIn port { peer with state := 1 }) dueSnapshot) s

/-- FLIT_RECEIVE (R281). -/
def execFlitReceive (port : Fin 7) (flit : List Byte) (s : State) : Host.Outcome State Fault Refusal :=
  done (.seq (progFlitReceive port flit) dueSnapshot) s

/-- MIRROR_SNAPSHOT: the interval has elapsed, or a snapshot in progress goes on; `holdUs` is the hold's time. -/
def progMirrorSnapshot (holdUs : Nat) : Prog :=
  .look fun s => progs [whenP s.fw.snap.isNone snapshotStart, latchHold, whenP (fwRuns s) (snapshotGoOn holdUs)]

/-- MIRROR_SNAPSHOT (R342). -/
def execMirrorSnapshot (holdUs : Nat) (s : State) : Host.Outcome State Fault Refusal := done (progMirrorSnapshot holdUs) s

/-! ### Takeover (R359) -/

/-- Whether the condition of R359 holds. -/
def takeoverDue (s : State) : Bool :=
  (pairState s == 1 || pairState s == 2) && !portUp s 6 && rd s (.mod 4) Reg.MOD4.PAIR_STATUS_SENSE == 1 && s.fw.pairStep == 0

/-- Steps 3 to 5, once every piste stands at its boundary. -/
def takeoverGoOn : Prog :=
  .look fun s => whenP (s.fw.pairStep == 1 && fwRuns s && (unfenced s).all (idlePiste s)) (
    let h := completeHalf s
    let q := match h with | some i => halfSeq s i | none => (0, 0)
    progs [
      wr64 (.mod 4) Reg.MOD4.TAKE_SNAP_SEQ_LO Reg.MOD4.TAKE_SNAP_SEQ_HI q.1, wr (.mod 4) Reg.MOD4.TAKE_ITER q.2,
      modFw fun f => { f with liveHalf := h, pairStep := 0 },
      wr (.bnd 7) Reg.BND7.FAB_CTRL_TAKEOVER 1, setPairState 3,
      wr (.mod 4) Reg.MOD4.PAIR_STATUS_JOINED 1,
      releaseHold holdPair, sendMsix 2])

/-- PAIR_TAKEOVER: steps 1 and 2 when the condition has held for TAKE_HOLD, then the rest when the pistes stand still. -/
def progPairTakeover : Prog :=
  .seq (.look fun s => whenP (takeoverDue s) (progs [
      wr (.mod 4) Reg.MOD4.PAIR_CHECK_TAKEOVER 1, addSat (.mod 4) Reg.MOD4.TAKE_COUNT 1,
      raise Code.PAIR_TAKEOVER 853 0 noLeg 0 [], mirEvent,
      modFw fun f => { f with pairStep := 1 },
      holdPistes (unfenced s) holdPair]))
    takeoverGoOn

/-- PAIR_TAKEOVER (R359). -/
def execPairTakeover (s : State) : Host.Outcome State Fault Refusal := done progPairTakeover s

/-! ### PAIR_CTRL (R352, R355, R362) -/

/-- ALIVE_RELEASE: 1 releases PAIR_ALIVE; with 0 it is low once firmware has reported ready (R352). -/
def opAliveRelease (b : Nat) : Prog :=
  .look fun s => .seq (wr (.mod 4) Reg.MOD4.PAIR_CTRL_ALIVE_RELEASE b)
    (modPins fun p => { p with aliveLow := s.sec.everReady && b == 0 })

/-- ALIVE_RELEASE (R352). -/
def execAliveRelease (id : Ident) (v : Word) (s : State) : Host.Outcome State Fault Refusal :=
  done (writeTo id (.mod 4) Reg.MOD4.PAIR_CTRL_ALIVE_RELEASE (whenP (id != .pair) (opAliveRelease (bits v.toNat 0 1)))) s

/-- SNAP_NOW starts a snapshot at once; one in progress goes on as it was. -/
def opSnapNow : Prog := .look fun s => whenP s.fw.snap.isNone snapshotStart

/-- SNAP_NOW (register table of chapter 15). -/
def execSnapNow (id : Ident) (s : State) : Host.Outcome State Fault Refusal :=
  done (writeTo id (.mod 4) Reg.MOD4.PAIR_CTRL_SNAP_NOW (whenP (id != .pair) opSnapNow)) s

/-- The write of JOIN that the survivor sends to the newcomer (R362 step 6). -/
def joinMsg (s : State) : Msg := mkMsg 5 1 (partnerNode s) 0 (fldAddr (.mod 4) Reg.MOD4.PAIR_CTRL_JOIN 0) (leBytes 4 8) false

/-- END_TAKEOVER (R362 step 6) on a survivor in RESYNC: every piste in service is held; at the held boundary JOIN is written to the newcomer, and on REG_ACK
(`ack`) TAKEOVER becomes 0, the pair is PAIRED, and ARM returns to 1. -/
def opEndTakeover (ack : Bool) : Prog :=
  .seq (.look fun s => whenP (pairState s == 4 && inTakeover s && s.fw.pairStep == 0)
      (.seq (modFw fun f => { f with pairStep := 2 }) (holdPistes (unfenced s) holdPair)))
    (.look fun s => whenP (pairState s == 4 && s.fw.pairStep == 2 && fwRuns s && (unfenced s).all (idlePiste s)) (.seq (request (joinMsg s) none 0 noLeg 5)
      (whenP ack (progs [
        modBnd fun b => { b with tags := b.tags.filter (·.purpose != 5) },
        wr (.bnd 7) Reg.BND7.FAB_CTRL_TAKEOVER 0,
        whenP (!s.fw.partnerTakeover) (setPairState 1),
        modFw fun f => { f with liveHalf := none, pairStep := 0 },
        releaseHold holdPair, tapCheck]))))

/-- END_TAKEOVER (R362). -/
def execEndTakeover (id : Ident) (regAck : Bool) (s : State) : Host.Outcome State Fault Refusal :=
  done (writeTo id (.mod 4) Reg.MOD4.PAIR_CTRL_END_TAKEOVER (whenP (id != .pair) (opEndTakeover regAck))) s

/-- JOIN, accepted from identity PAIR only: JOINED becomes 1, and in RESYNC the newcomer is PAIRED (R362 step 6). -/
def opJoin (id : Ident) : Prog :=
  whenP (id == .pair) (.look fun s => progs [
    wr (.mod 4) Reg.MOD4.PAIR_STATUS_JOINED 1,
    whenP (pairState s == 4 && !inTakeover s) (progs [modFw fun f => { f with partnerTakeover := false }, setPairState 1, tapCheck])])

/-- JOIN (R362). -/
def execJoin (id : Ident) (s : State) : Host.Outcome State Fault Refusal := done (writeTo id (.mod 4) Reg.MOD4.PAIR_CTRL_JOIN (opJoin id)) s

/-- START_ALONE sets JOINED while STATE is START (R355). -/
def opStartAlone : Prog := .look fun s => whenP (pairState s == 6) (wr (.mod 4) Reg.MOD4.PAIR_STATUS_JOINED 1)

/-- START_ALONE (R355). -/
def execStartAlone (id : Ident) (s : State) : Host.Outcome State Fault Refusal :=
  done (writeTo id (.mod 4) Reg.MOD4.PAIR_CTRL_START_ALONE (whenP (id != .pair) opStartAlone)) s

/-- A write of the whole PAIR_CTRL word: of identity PAIR it changes JOIN alone (R434). -/
def opPairCtrl (id : Ident) (v : Nat) : Prog :=
  if id = .pair then whenP (bit v 3) (opJoin id)
  else progs [opAliveRelease (bits v 0 1), whenP (bit v 1) opSnapNow, whenP (bit v 2) (opEndTakeover false), whenP (bit v 4) opStartAlone]

end Sys2Proof.Machine
end

