-- ==== Sys2Proof/Machine/Records.lean ====
section
/-! DEFINITION. Fault records, alarms, traces, the firmware log, and the common registers of pages (R344 to R349, R384 to R387). -/

namespace Sys2Proof.Machine

open Sys2Proof

/-- FAULT_FIRST of a page takes the SEQ of the block's first record since it was last read (R384). -/
def faultFirst (pg : Page) (seq : Nat) : Prog :=
  .look fun s => whenP (rdRaw s pg Reg.COMMON.FAULT_FIRST_VALID == 0)
    (.seq (wr pg Reg.COMMON.FAULT_FIRST_SEQ seq) (wr pg Reg.COMMON.FAULT_FIRST_VALID 1))

/-- What the collector does with a record (R347): SEQ, then its place in the ring or its drop into a summary, whose first writing raises the
RECORDS alarm; every record is copied to the firmware log (R348), one dropped from the ring too (log entry 94); a FATAL one counts for the mirror
interval (R343). -/
def collect (r : FaultRec) (dropped : Nat) : Prog :=
  .look fun s =>
    let fresh := s.fr.full && !s.fr.held.any (isSummary r.cls)
    progs [
      .prim (.ringIn r dropped),
      faultFirst (recordPage r) s.fr.seq,
      whenP s.fr.full (addSat (.mod 2) Reg.MOD2.DROP_COUNT 1 r.cls),
      whenP fresh (.seq (wr (.mod 2) Reg.MOD2.FR_STATUS_SUMMARY 1) (alarm 853 13)),
      modRecs fun x => { x with
        logQ := x.logQ ++ [.copy { frec := r, seq := s.fr.seq, dropped := dropped, live := false, first := 0, last := 0, count := 0, lastCode := 0 }] },
      whenP (r.sev == 3) mirEvent]

/-- FAULT_RECORD_ARRIVAL: the oldest record a source holds reaches the collector. -/
def progFaultRecordArrival (island : Nat) : Prog :=
  .look fun s =>
    let q := smGet (fun _ => SrcQueue.empty) s.recs.srcQ island
    match q.recs with
    | [] => .skip
    | (r, d) :: rest =>
      .seq (modRecs fun x => { x with srcQ := smSet (fun _ => SrcQueue.empty) x.srcQ island { q with recs := rest } }) (collect r d)

/-- FAULT_RECORD_ARRIVAL (R347). -/
def execFaultRecordArrival (island : Nat) (s : State) : Host.Outcome State Fault Refusal := done (progFaultRecordArrival island) s

/-- ALARM_INCREMENT: one increment a source keeps reaches the always-on block: it sets the class's bit, counts it and drives SMB_ALERT_N. -/
def progAlarmIncrement (island cls : Nat) : Prog :=
  .look fun s =>
    let k := island * 16 + cls
    let n := smGet zeroDefault s.recs.alarmPend k
    whenP (n != 0 && decide (cls < 16)) (progs [
      modRecs fun x => { x with alarmPend := smSet zeroDefault x.alarmPend k (n - 1) },
      setEvent (.mod 1) cls, driveAlert])

/-- ALARM_INCREMENT (R345). -/
def execAlarmIncrement (island cls : Nat) (s : State) : Host.Outcome State Fault Refusal := done (progAlarmIncrement island cls) s

/-- A trace of 32 bytes placed in the trace ring of 2^21 entries, with its detail (R349). -/
def putTrace (t : Trace) (detail : List Byte) : Prog :=
  .look fun s =>
    let base := rd64 s (.mod 3) Reg.MOD3.TRACE_BASE_LO Reg.MOD3.TRACE_BASE_HI
    let h := rd s (.mod 3) Reg.MOD3.TRACE_HEAD
    .seq (hbmWrite (base + 32 * h) (leBytes 4 (t.kind % 256 + t.island % 1024 * 256) ++ leBytes 4 t.seq ++ padTo 24 0 detail))
      (wr (.mod 3) Reg.MOD3.TRACE_HEAD ((h + 1) % 2 ^ 21))

/-- Where the log entry of a sequence stands (R348). -/
def logPlace (s : State) (c : Nat) : Nat :=
  rd64 s (.mod 3) Reg.MOD3.LOG_BASE_LO Reg.MOD3.LOG_BASE_HI + 64 * (c % (rd s (.mod 3) Reg.MOD3.LOG_SIZE / 64))

/-- Whether a log entry, or a fault record that will have one, waits for a stack (R349). -/
def logWaits (s : State) (st : Nat) : Bool :=
  let n := s.recs.logQ.length + (s.recs.srcQ.map fun q => q.2.recs.length).sum
  (List.range n).any fun i => stackOf s (logPlace s (rd64 s (.mod 3) Reg.MOD3.LOG_COUNT_LO Reg.MOD3.LOG_COUNT_HI + i)) == st

/-- TRACE_WRITE: while no fault record or log write waits for the stack it would write, the trace unit writes a GAP trace if traces have been lost, else
its oldest trace; with the ring full the trace is dropped. -/
def progTraceWrite : Prog :=
  .look fun s =>
    let room := (rd s (.mod 3) Reg.MOD3.TRACE_HEAD + 1) % 2 ^ 21 != rd s (.mod 3) Reg.MOD3.TRACE_TAIL
    let place := rd64 s (.mod 3) Reg.MOD3.TRACE_BASE_LO Reg.MOD3.TRACE_BASE_HI + 32 * rd s (.mod 3) Reg.MOD3.TRACE_HEAD
    whenP (!logWaits s (stackOf s place) && !hotRange s place 32)
      (if room && s.recs.lost != 0 then
        .seq (putTrace { kind := 0, island := 852, seq := s.recs.traceSeq } (leBytes 4 s.recs.lost ++ leBytes 4 s.recs.firstLost))
          (modRecs fun x => { x with traceSeq := x.traceSeq + 1, lost := 0, firstLost := 0 })
      else match s.recs.traceQ with
        | [] => .skip
        | t :: r =>
          .seq (modRecs fun x => { x with traceQ := r })
            (if room then withFreeBytes 24 (putTrace t)
            else .seq (modRecs fun x => { x with lost := x.lost + 1, firstLost := if x.lost = 0 then t.seq else x.firstLost })
              (addSat (.mod 3) Reg.MOD3.TRACE_GAPS 1)))

/-- TRACE_WRITE (R349). -/
def execTraceWrite (s : State) : Host.Outcome State Fault Refusal := done progTraceWrite s

/-- The bytes of a log entry that copies a record, after its sequence (R348): the record and the items its detail could not hold. -/
def logBody (e : Entry) : List Byte :=
  (entryWords e).flatMap (leBytes 4) ++ (padTo 6 0 (placeItems 6 (placeItems 4 e.frec.items).2).1).flatMap (leBytes 4)

/-- A log entry written at the place of its sequence, and LOG_COUNT raised (R348). -/
def putLog (body : List Byte) : Prog :=
  .look fun s =>
    let c := rd64 s (.mod 3) Reg.MOD3.LOG_COUNT_LO Reg.MOD3.LOG_COUNT_HI
    .seq (hbmWrite (logPlace s c) (leBytes 8 c ++ padTo 56 0 body))
      (wr64 (.mod 3) Reg.MOD3.LOG_COUNT_LO Reg.MOD3.LOG_COUNT_HI ((c + 1) % 2 ^ 64))

/-- LOG_WRITE: firmware writes its oldest waiting log entry; what one of its own holds is firmware's, and free here. -/
def progLogWrite : Prog :=
  .look fun s =>
    match s.recs.logQ with
    | [] => .skip
    | i :: r =>
      whenP (fwRuns s && s.sec.phase == .ready && !hotRange s (logPlace s (rd64 s (.mod 3) Reg.MOD3.LOG_COUNT_LO Reg.MOD3.LOG_COUNT_HI)) 64) (.seq (modRecs fun x => { x with logQ := r })
        (match i with
         | .copy e => putLog (logBody e)
         | .own => withFreeBytes 56 putLog))

/-- LOG_WRITE (R348). -/
def execLogWrite (s : State) : Host.Outcome State Fault Refusal := done progLogWrite s

/-- A write of FR_TAIL (R347): it releases entries up to the index written, or is refused beyond FR_HEAD. Summaries that stand as ordinary entries once
FULL clears are copied to the firmware log with their final counts (R348). -/
def opFrTail (v : Nat) : Prog :=
  .look fun s =>
    let k := (v % 4096 + 4096 - s.fr.tail % 4096) % 4096
    if k ≤ s.fr.held.length then .seq (.prim (.ringOut k)) (.look fun t => whenP (!t.fr.full)
      (modRecs fun x => { x with logQ := x.logQ ++ (s.fr.held.filter (·.live)).map fun e => .copy { e with live := false } }))
    else wr (.mod 2) Reg.MOD2.FR_STATUS_TAIL_REFUSED 1

/-- FR_TAIL_WRITE (R347). -/
def execFrTailWrite (id : Ident) (v : Word) (s : State) : Host.Outcome State Fault Refusal :=
  done (writeTo id (.mod 2) Reg.MOD2.FR_TAIL (opFrTail v.toNat)) s

/-- Words shown in the window. -/
def showWindow (ws : List Nat) : Prog :=
  forEach (List.range 8) fun i => wr (.mod 2) Reg.MOD2.FR_WINDOW (nth ws i 0) i

/-- Free words shown in the window. -/
def showFree : Nat → List Nat → Prog
  | 0, l => showWindow l
  | n + 1, l => withFree fun v => showFree n (l ++ [v % 2 ^ 32])

/-- A write of FR_SELECT latches the selected entry into the window (R347). For an index where no entry is held the spec gives no words:
they are free (log entry 4). An entry found uncorrectable (`ecc`) reads with CODE RECORD_ECC, the code its record then has (R332). -/
def opFrSelect (v : Nat) (ecc : Bool) : Prog :=
  .look fun s =>
    let k := (v % 4096 + 4096 - s.fr.tail % 4096) % 4096
    .seq (wr (.mod 2) Reg.MOD2.FR_SELECT v)
      (match s.fr.held[k]? with
       | some e => if ecc then
            .seq (withFree fun x => showFree 7 [x / 2 ^ 16 * 2 ^ 16 % 2 ^ 32 + Code.RECORD_ECC])
              (.seq countUe (raise Code.RECORD_ECC 853 0 noLeg 0 [w32 (Config.storageCode 3).toNat]))
          else showWindow (entryWords e)
       | none => showFree 8 [])

/-- FR_SELECT_WRITE (R347). -/
def execFrSelectWrite (id : Ident) (v : Word) (ecc : Bool) (s : State) : Host.Outcome State Fault Refusal :=
  done (writeTo id (.mod 2) Reg.MOD2.FR_SELECT (opFrSelect v.toNat ecc)) s

/-- A write of 1 to DROP_CLEAR sets every DROP_COUNT to 0 (R347). -/
def opDropClear (v : Nat) : Prog :=
  whenP (bit v 0) (forEach (List.range 16) fun c => wr (.mod 2) Reg.MOD2.DROP_COUNT 0 c)

/-- DROP_CLEAR (R347). -/
def execDropClear (id : Ident) (v : Word) (s : State) : Host.Outcome State Fault Refusal :=
  done (writeTo id (.mod 2) Reg.MOD2.DROP_CLEAR (opDropClear v.toNat)) s

/-- FAULT_FIRST as it reads (R384). -/
def faultFirstWord (s : State) (pg : Page) : Nat := rdRaw s pg Reg.COMMON.FAULT_FIRST_SEQ + 2 ^ 31 * rdRaw s pg Reg.COMMON.FAULT_FIRST_VALID

/-- A full 32-bit read of FAULT_FIRST returns it and clears it (R8, R384). -/
def opFaultFirst (id : Ident) (pg : Page) : Prog :=
  .look fun s => progs [
    respond id (faultFirstWord s pg), wr pg Reg.COMMON.FAULT_FIRST_SEQ 0, wr pg Reg.COMMON.FAULT_FIRST_VALID 0]

/-- An unaligned or narrow access is marked (R367). -/
def markNarrow : Prog := wr .hif Reg.HIF.HIF_CHECK_NARROW 1

/-- A read of `size` bytes from byte `off` of FAULT_FIRST (R367, R384): whole, alone or with the word behind it, it clears; narrower, it returns its bytes
and clears nothing; unaligned, it reads nothing and is marked. -/
def opFaultFirstSized (id : Ident) (pg : Page) (off size : Nat) : Prog :=
  if off % size ≠ 0 then .seq (respond id 0) markNarrow
  else if 4 ≤ size then opFaultFirst id pg
  else .look fun s => respond id (faultFirstWord s pg / 2 ^ (8 * off) % 2 ^ (8 * size))

/-- COUNT_CLEAR sets the selected event counts to 0 (R385). -/
def opCountClear (pg : Page) (v : Nat) : Prog :=
  forEach (maskList 16 v) fun e => wr pg Reg.COMMON.EVENT_COUNT 0 e

/-- COUNT_CLEAR (R385). -/
def execCountClear (id : Ident) (page : Nat) (v : Word) (s : State) : Host.Outcome State Fault Refusal :=
  done (access id (page * 4096 + 0x64) true true (onPage page fun pg => whenP (!pairReadOnly id pg) (opCountClear pg v.toNat))) s

/-- A write of EVENT_ENABLE sends the page's message when EVENT AND EVENT_ENABLE leaves 0 (R386). -/
def opEventEnable (pg : Page) (v : Nat) : Prog :=
  .look fun s => progs [
    .prim (.reg (pageBase pg + 0x14) (BitVec.ofNat 32 (v % eventMask pg))),
    .look fun t => whenP (eventLive s pg == 0 && eventLive t pg != 0) (sendMsix (pageVector pg))]

/-- EVENT_ENABLE_WRITE (R386). -/
def execEventEnableWrite (id : Ident) (page : Nat) (v : Word) (s : State) : Host.Outcome State Fault Refusal :=
  done (access id (page * 4096 + 0x14) true true (onPage page fun pg => whenP (!pairReadOnly id pg) (opEventEnable pg v.toNat))) s

/-- PORT_ACCESS takes writes from CP identities alone; RIGHTS is locked by its LOCK, and its bits [9:8] read as 1 (R384, R387). -/
def opPortAccess (id : Ident) (pg : Page) (v : Nat) : Prog :=
  .look fun s =>
    whenP (isCp id) (progs [
      whenP (rdRaw s pg Reg.COMMON.PORT_ACCESS_LOCK == 0) (wr pg Reg.COMMON.PORT_ACCESS_RIGHTS (putBits v 8 2 3)),
      whenP (bit v 31) (wr pg Reg.COMMON.PORT_ACCESS_LOCK 1)])

/-- PORT_ACCESS_WRITE (R387). -/
def execPortAccessWrite (id : Ident) (page : Nat) (v : Word) (s : State) : Host.Outcome State Fault Refusal :=
  done (access id (page * 4096 + 0x8) true true (onPage page fun pg => opPortAccess id pg v.toNat)) s

end Sys2Proof.Machine
end

