-- ==== Sys2Proof/Machine/Registers.lean ====
section
/-! DEFINITION. Register writes of single blocks, and the general register access: a write or read of any word of BAR0 under R8, R367, R387, R428
and R430 to R437, by BAR0, SMBus (R388), or the pair port (R290). -/

namespace Sys2Proof.Machine

open Sys2Proof

/-! ### Gate pages -/

/-- The column a spare of an array carries under a gate's map words. -/
def spareCol (ws : List Nat) (arr j : Nat) : Nat := bits (nth ws arr 0) (8 * j) 8

/-- Whether two spares of one array would carry the same column (R98). -/
def spareClash (ws : List Nat) (valid : Nat) : Bool :=
  (List.range 4).any fun arr => (List.range 4).any fun j => (List.range j).any fun i =>
    bit valid (4 * arr + i) && bit valid (4 * arr + j) && spareCol ws arr i == spareCol ws arr j

/-- A write of SPARE_MAP[reg], or with `reg` 4 of SPARE_VALID (R98): ignored once locked; one that maps a column twice is ignored and recorded. -/
def opSpare (p g reg v : Nat) : Prog :=
  .look fun s =>
    let pg := Page.gate p g
    let ws := (List.range 4).map fun a => (regWord s (pageBase pg + 0x220 + 4 * a)).toNat
    let valid := rd s pg Reg.GATEM.SPARE_VALID
    let ws' := if reg < 4 then ws.set reg (v % 2 ^ 32) else ws
    let valid' := if reg < 4 then valid else v % 65536
    whenP (rd s pg Reg.GATEM.SPARE_LOCK_LOCK == 0)
      (if spareClash ws' valid' then
        .seq (wr pg Reg.GATEM.CHECK_SPARE_WRITE 1) (raise Code.MG_SPARE_WRITE (gateIsland p g) (iterOn s p) noLeg 0 [])
      else if reg < 4 then .prim (.reg (pageBase pg + 0x220 + 4 * reg) (BitVec.ofNat 32 v))
      else wr pg Reg.GATEM.SPARE_VALID (v % 65536))

/-- SPARE_MAP_WRITE (R98): registers 0 to 3 are SPARE_MAP, 4 is SPARE_VALID. -/
def execSpareMapWrite (id : Ident) (p : Fin 64) (m : Fin 5) (reg : Fin 5) (v : Word) (s : State) : Host.Outcome State Fault Refusal :=
  done (access id (pageBase (.gate p (mGate m)) + (if reg.val < 4 then 0x220 + 4 * reg.val else 0x230)) true false
    (opSpare p (mGate m) reg v.toNat)) s

/-- DROP_CTRL.CLEAR sets DROP_COUNT and the first-drop fields to 0 (R219). -/
def opDropCtrl (p g v : Nat) : Prog :=
  let pg := Page.gate p g
  whenP (bit v 0) (progs [wr pg Reg.GATEV.DROP_COUNT 0, wr pg Reg.GATEV.DROP_LEG 0, wr pg Reg.GATEV.DROP_ROW 0, wr pg Reg.GATEV.DROP_COL 0])

/-- DROP_CTRL_CLEAR (R219). -/
def execDropCtrlClear (id : Ident) (p : Fin 64) (v : Fin 3) (x : Word) (s : State) : Host.Outcome State Fault Refusal :=
  done (writeTo id (.gate p (vGate v)) Reg.GATEV.DROP_CTRL_CLEAR (opDropCtrl p (vGate v) x.toNat)) s

/-- CHAN_RESET clears the state of a reduce channel, unless a leg waits on it (R312). -/
def opChanReset (p v : Nat) : Prog :=
  .look fun s =>
    let c := v % 16
    let pg := Page.gate p 11
    whenP ((smGet (fun _ => ChanSt.free) s.units.chans (p * 16 + c)).waiting.isNone) (progs [
      modUnits fun u => { u with chans := smErase (p * 16 + c) u.chans },
      wr pg Reg.GATEX.CLOSED 0 c, wr pg Reg.GATEX.USED 0 c, wr pg Reg.GATEX.CARRIED 0 c, wr pg Reg.GATEX.DROPPED 0 c,
      wr pg Reg.GATEX.CLOSED_VALID 0 c, wr pg Reg.GATEX.LATE_MASK_LO 0 c, wr pg Reg.GATEX.LATE_MASK_HI 0 c,
      wr pg Reg.GATEX.PENDING_LO 0 c, wr pg Reg.GATEX.PENDING_HI 0 c])

/-- CHAN_RESET (R312). -/
def execChanReset (id : Ident) (p : Fin 64) (v : Word) (s : State) : Host.Outcome State Fault Refusal :=
  done (writeTo id (.gate p 11) Reg.GATEX.CHAN_RESET (opChanReset p v.toNat)) s

/-- A write of RUN_CTRL changes ARM (R52): with 0 a piste that waits for a run stands idle again. What firmware has cleared, it sets at the end of its
hold all the same. -/
def opRunCtrl (p v : Nat) : Prog :=
  if bit v 0 then wr (.pst p) Reg.PST.RUN_CTRL_ARM 1
  else progs [wr (.pst p) Reg.PST.RUN_CTRL_ARM 0, unwait p]

/-! ### Stacks and sensors -/

/-- MAX_CLEAR sets TEMP.MAX to TEMP.NOW (R247). -/
def opMaxClear (st v : Nat) : Prog :=
  .look fun s => whenP (bit v 0) (wr (.stk st) Reg.STK.TEMP_MAX (rd s (.stk st) Reg.STK.TEMP_NOW))

/-- MAX_CLEAR (R247). -/
def execMaxClear (id : Ident) (st : Fin 12) (v : Word) (s : State) : Host.Outcome State Fault Refusal :=
  done (writeTo id (.stk st) Reg.STK.MAX_CLEAR (opMaxClear st v.toNat)) s

/-- A write of GROOM_CTRL.PAUSE holds the groomer at its next step, or resumes it (R229). -/
def opGroomPause (st v : Nat) : Prog := wr (.stk st) Reg.STK.GROOM_CTRL_PAUSE (bits v 0 1)

/-- GROOM_PAUSE (R229). -/
def execGroomPause (id : Ident) (st : Fin 12) (v : Word) (s : State) : Host.Outcome State Fault Refusal :=
  done (writeTo id (.stk st) Reg.STK.GROOM_CTRL_PAUSE (opGroomPause st v.toNat)) s

/-- DIE_MAX_CLEAR sets DIE_MAX to the highest present reading (R424). -/
def opDieMaxClear (v : Nat) : Prog :=
  .look fun s => whenP (bit v 0)
    (wr .tlm Reg.TLM.DIE_MAX (((List.range 96).map fun i => bits (rd s .tlm Reg.TLM.DIE_TEMP (i / 4)) (8 * (i % 4)) 8).foldl max 0))

/-- DIE_MAX_CLEAR (R424). -/
def execDieMaxClear (id : Ident) (v : Word) (s : State) : Host.Outcome State Fault Refusal :=
  done (writeTo id .tlm Reg.TLM.DIE_MAX_CLEAR (opDieMaxClear v.toNat)) s

/-- The page offsets of the readings of TLM. -/
def tlmReadings : List Nat :=
  (List.range 3).map (0x104 + 4 * ·) ++ (List.range 27).map (0x110 + 4 * ·) ++ [0x180] ++ (List.range 48).map (0x200 + 4 * ·)

/-- The key of an identity's latched TLM word. -/
def tlmKey (id : Ident) (o : Nat) : Nat := identCode id * 4096 + o

/-- SNAP latches every reading for later reads of the same identity (R430). -/
def opTlmSnap (id : Ident) (v : Nat) : Prog :=
  .look fun s => whenP (bit v 0) (modPorts fun p =>
    { p with
      snapLatch := tlmReadings.foldl (fun m o => smSet (fun _ => (0 : Word)) m (tlmKey id o) (wordAt s (pageBase .tlm + o))) p.snapLatch
      snapped := smSet flagDefault p.snapped (identCode id) true })

/-- TLM_SNAP (R430). -/
def execTlmSnap (id : Ident) (v : Word) (s : State) : Host.Outcome State Fault Refusal := done (writeTo id .tlm Reg.TLM.SNAP (opTlmSnap id v.toNat)) s

/-- SOFT_CAP takes 1,000 to 2,400 W; any other write is ignored and marked (R423). -/
def opSoftCap (v : Nat) : Prog :=
  let w := bits v 0 12
  if 1000 ≤ w ∧ w ≤ 2400 then wr .pwr Reg.PWR.SOFT_CAP w else wr .pwr Reg.PWR.PWR_CHECK_CAP_REFUSED 1

/-- SOFT_CAP_WRITE (R423). -/
def execSoftCapWrite (id : Ident) (v : Word) (s : State) : Host.Outcome State Fault Refusal :=
  done (writeTo id .pwr Reg.PWR.SOFT_CAP (opSoftCap v.toNat)) s

/-! ### Baond ports -/

/-- Whether a write of ROUTE_EN to port `p` is ignored: on P in CONFLICT (R351), on the torus ports of a role A or B module while JOINED is 0
(R362). -/
def routeHeld (s : State) (p : Nat) : Bool :=
  if p = 6 then pairState s == 5
  else rd s (.mod 4) Reg.MOD4.PAIR_STATUS_ROLE != 0 && rd s (.mod 4) Reg.MOD4.PAIR_STATUS_JOINED == 0

/-- A write of PORT_CTRL; RETRAIN takes the link down and starts bring-up. -/
def opPortCtrl (p v : Nat) : Prog :=
  .look fun s => progs [
    whenP (!routeHeld s p) (wr (.bnd p) Reg.BND.PORT_CTRL_ROUTE_EN (bits v 0 1)),
    wr (.bnd p) Reg.BND.PORT_CTRL_RETRAIN_EN (bits v 1 1), wr (.bnd p) Reg.BND.PORT_CTRL_SPARE_EN (bits v 3 1),
    whenP (bit v 2) (retrainPort p), pumpPort p]

/-- RETRAIN (R301): a write of PORT_CTRL. -/
def execRetrain (id : Ident) (port : Fin 7) (v : Word) (s : State) : Host.Outcome State Fault Refusal :=
  done (access id (fldAddr (.bnd port) Reg.BND.PORT_CTRL_ROUTE_EN 0) true true (opPortCtrl port v.toNat)) s

/-! ### Security and debug -/

/-- ROLLBACK_COMMIT, of CP identities while the booted slot is CONFIRMED: fuses are blown up to the booted image's ROLLBACK (R407). -/
def opRollback (id : Ident) (v : Nat) : Prog :=
  .look fun s => whenP (isCp id && bit v 0 && s.sec.confirmed)
    (.seq (.prim (.rollback s.sec.bootRollback)) (.look fun t => wr (.sec 0) Reg.SEC0.FUSE_STATE_ROLLBACK t.fuses.rollback))

/-- ROLLBACK_COMMIT (R407). -/
def execRollbackCommit (id : Ident) (v : Word) (s : State) : Host.Outcome State Fault Refusal :=
  done (writeTo id (.sec 0) Reg.SEC0.ROLLBACK_COMMIT (opRollback id v.toNat)) s

/-- HOST_IMG_CTRL: ERR is W1C; GO, while the ROM waits for an image, reads it from host memory (R402). -/
def opHostImg (v : Nat) (fails : Bool) : Prog :=
  .look fun s =>
    let a := rd64 s (.sec 0) Reg.SEC0.HOST_IMG_ADDR_LO Reg.SEC0.HOST_IMG_ADDR_HI
    let n := rd s (.sec 0) Reg.SEC0.HOST_IMG_SIZE
    .seq (whenP (bit v 2) (wr (.sec 0) Reg.SEC0.HOST_IMG_CTRL_ERR 0))
      (whenP (bit v 0 && s.sec.phase == .waitHost)
        (if 7340032 < n ∨ fails = true then wr (.sec 0) Reg.SEC0.HOST_IMG_CTRL_ERR 1
        else .seq (modSec fun x => { x with hostImage := smList byteDefault s.mem.host a n }) (wr (.sec 0) Reg.SEC0.HOST_IMG_CTRL_DONE 1)))

/-- HOST_IMG_GO (R402). -/
def execHostImgGo (id : Ident) (readFails : Bool) (s : State) : Host.Outcome State Fault Refusal :=
  done (writeTo id (.sec 0) Reg.SEC0.HOST_IMG_CTRL_GO (opHostImg 1 readFails)) s

/-- A fresh challenge of 16 free bytes (R412). -/
def freshChallenge : Prog :=
  withFreeBytes 16 fun b => forEach (List.range 4) fun i => wr (.sec 0) Reg.SEC0.DBG_CHALLENGE (leAt b (4 * i) 4) i

/-- The token written (R412). -/
def tokenBytes (s : State) : List Byte := (List.range 328).flatMap fun i => leBytes 4 (smGet (fun _ => (0 : Word)) s.sec.tokenWords i).toNat

/-- The challenge in force. -/
def challengeBytes (s : State) : List Byte := (List.range 4).flatMap fun i => leBytes 4 (rd s (.sec 0) Reg.SEC0.DBG_CHALLENGE i)

/-- Whether a token is valid (R412): MAGIC, SERIAL, challenge, a scope without reserved bits, and the signature. -/
def tokenValid (s : State) (t : List Byte) : Bool :=
  leAt t 0 4 == 0x4B544244 && leAt t 4 8 == s.fuses.serial && sliceBytes t 12 16 == challengeBytes s && decide (leAt t 28 4 < 8) &&
  Config.falconVerify (Config.keyOfHash (if s.fuses.ownerEn then s.fuses.ownerKeyHash else s.fuses.vendorKeyHash)) (t.take 32) (t.drop 32)

/-- A word of the token, from the debug port alone; the last one has the token checked (R412, R413). A refused token changes nothing. -/
def opToken (j v : Nat) : Prog :=
  .seq (modSec fun x => { x with tokenWords := smSet (fun _ => (0 : Word)) x.tokenWords j (BitVec.ofNat 32 v) })
    (whenP (j == 327) (.look fun s =>
      let t := tokenBytes s
      let fails := rd s (.sec 0) Reg.SEC0.DBG_STATUS_FAILS
      if s.fuses.debugDisable || decide (8 ≤ fails) then .skip
      else if tokenValid s t then progs [
        wr (.sec 0) Reg.SEC0.DBG_STATUS_UNLOCKED 1, wr (.sec 0) Reg.SEC0.DBG_STATUS_SCOPE (leAt t 28 4), extendMeas 4 t, freshChallenge]
      else progs [raise Code.SEC_TOKEN 853 0 noLeg 0 [], freshChallenge, wr (.sec 0) Reg.SEC0.DBG_STATUS_FAILS (fails + 1)]))

/-- Whether the debug port is powered and out of reset. -/
def debugAnswers (s : State) : Bool := s.pins.pwrOk && (match s.sec.phase with | .off => false | _ => true)

/-- DBG_TOKEN (R413): the last word. -/
def execDbgToken (last : Word) (s : State) : Host.Outcome State Fault Refusal := done (whenP (debugAnswers s) (opToken 327 last.toNat)) s

/-- DBG_RELOCK ends the unlock (R413). -/
def opRelock (v : Nat) : Prog :=
  whenP (bit v 0) (.seq (wr (.sec 0) Reg.SEC0.DBG_STATUS_UNLOCKED 0) (wr (.sec 0) Reg.SEC0.DBG_STATUS_SCOPE 0))

/-- DBG_RELOCK (R413). -/
def execDbgRelock (id : Ident) (v : Word) (s : State) : Host.Outcome State Fault Refusal :=
  done (writeTo id (.sec 0) Reg.SEC0.DBG_RELOCK (opRelock v.toNat)) s

/-- HOLD_CONTINUE: a boot held by strap code 2 goes on (R400); ignored while HELD is 0 (R437). -/
def opHoldContinue : Prog :=
  .look fun s => whenP (rd s .dbg Reg.DBG.HOLD_HELD == 1) (progs [
    wr .dbg Reg.DBG.HOLD_HELD 0, wr .dbg Reg.DBG.CP_STATE_HALTED (putBits (rd s .dbg Reg.DBG.CP_STATE_HALTED) 0 1 (rd s .dbg Reg.DBG.CP_HALT_HALT)),
    modSec fun x => { x with phase := .booting }])

/-- HOLD_CONTINUE (R400). -/
def execHoldContinue (id : Ident) (s : State) : Host.Outcome State Fault Refusal :=
  done (writeTo id .dbg Reg.DBG.HOLD_HOLD_CONTINUE opHoldContinue) s

/-- The program counter a core shows when it halts, or after a step: firmware's, and free. -/
def showPc (k : Nat) : Prog :=
  withFree fun v => .seq (wr .dbg Reg.DBG.CP_PC_LO (v % 2 ^ 32) k) (wr .dbg Reg.DBG.CP_PC_HI (v / 2 ^ 32) k)

/-- CP_HALT halts and resumes cores (R437). -/
def opCpHalt (v : Nat) : Prog :=
  .look fun s =>
    let was := rd s .dbg Reg.DBG.CP_STATE_HALTED
    let now := (bits v 0 4).lor (rd s .dbg Reg.DBG.HOLD_HELD)
    progs [wr .dbg Reg.DBG.CP_HALT_HALT (bits v 0 4), wr .dbg Reg.DBG.CP_STATE_HALTED now,
      forEach ((List.range 4).filter fun k => bit now k && !bit was k) showPc]

/-- CP_HALT (R437). -/
def execCpHalt (id : Ident) (v : Word) (s : State) : Host.Outcome State Fault Refusal :=
  done (writeTo id .dbg Reg.DBG.CP_HALT_HALT (opCpHalt v.toNat)) s

/-- CP_STEP runs one instruction on each halted core named (R437): firmware's instructions are not given, so its program counter alone changes here. -/
def opCpStep (v : Nat) : Prog :=
  .look fun s => forEach ((List.range 4).filter fun k => bit v k && bit (rd s .dbg Reg.DBG.CP_STATE_HALTED) k) showPc

/-- CP_STEP (R437). -/
def execCpStep (id : Ident) (v : Word) (s : State) : Host.Outcome State Fault Refusal :=
  done (writeTo id .dbg Reg.DBG.CP_STEP_STEP (opCpStep v.toNat)) s

/-! ### Any register -/

/-- A write of a ring's configuration: ignored and marked unless the ring is disabled and idle (R370). -/
def opRingCfg (r o v : Nat) : Prog :=
  .look fun s => if rd s (.ring r) Reg.RING.CTRL_EN = 0 ∧ ringIdle s r = true then plainWrite (.ring r) o v
    else wr (.ring r) Reg.RING.CHECK_CFG_REFUSED 1

/-- A write of a mailbox channel's word at offset `k`. -/
def opMbx (id : Ident) (c k v : Nat) : Prog :=
  if k = 0 then opLockWrite id c v else if k = 4 then opDoorbell id c v else if k = 8 then opStatusWrite c v
  else if 0x20 ≤ k then opDataWrite id c ((k - 0x20) / 4) v
  else plainWrite (.mbx 0) (0x100 + 64 * c + k) v

/-- Port `p` and its messages tried again after a change of the fabric page. -/
def pumpAll : Prog := forEach (List.range 7) pumpPort

/-- Writes of the common layout that have a rule of their own (R384 to R387). -/
def commonWrite (id : Ident) (pg : Page) (o v : Nat) : Option Prog :=
  if o = 0x8 then some (opPortAccess id pg v)
  else if o = 0x14 then some (opEventEnable pg v)
  else if o = 0x64 then some (opCountClear pg v)
  else none

/-- Writes of block registers that have a rule of their own, with whether a stopped unit still takes them (R432). -/
def blockWrite (id : Ident) (pg : Page) (o v : Nat) : Option (Bool × Prog) :=
  match pg with
  | .mod 1 => if o = 0x100 then some (true, .seq (plainWrite pg o v) driveAlert) else none
  | .mod 2 => if o = 0x104 then some (false, opFrTail v) else if o = 0x114 then some (false, opFrSelect v false)
    else if o = 0x180 then some (false, opDropClear v) else none
  | .mod 4 => if o = 0x104 then some (false, opPairCtrl id v) else none
  | .pwr => if o = 0x128 then some (false, opSoftCap v) else none
  | .sec 0 => if o = 0x10C then some (false, opRollback id v) else if o = 0x12C then some (false, opHostImg v false)
    else if o = 0x414 then some (false, opRelock v) else none
  | .mbx 0 => if 0x100 ≤ o ∧ o < 0x900 then some (false, opMbx id ((o - 0x100) / 64) ((o - 0x100) % 64) v) else none
  | .mbx 1 => if o < 0x180 then some (false, opBind ((o - 0x100) / 4) v) else if o = 0x184 then some (false, opForce id v) else none
  | .syn k =>
    if k < 16 then if 0x900 ≤ o ∧ o < 0xD00 then some (false, opCounterCfg (256 * k + (o - 0x900) / 4) v) else none
    else if k = 16 then
      if o = 0x100 then some (false, modPorts fun p => { p with sigSel := smSet zeroDefault p.sigSel (identCode id) (bits v 0 12 + bits v 16 16 * 2 ^ 16) })
      else if o = 0x104 then some (false, opSigGo id v) else none
    else if k = 17 then if 0x100 ≤ o ∧ o < 0x900 then some (false, opPairEntry ((o - 0x100) / 8) (o % 8 == 4) v) else none
    else none
  | .bar k => if 0x100 ≤ o ∧ o < 0x900 ∧ o % 16 = 0 then some (false, opParticipants (128 * k + (o - 0x100) / 16) v)
    else if k = 0 ∧ o = 0x900 then some (false, opBarrierReset v) else none
  | .ring r => if o = 0x100 then some (false, opRingCtrl r v)
    else if o = 0x108 ∨ (0x110 ≤ o ∧ o < 0x120) then some (false, opRingCfg r o v)
    else if o = 0x120 then some (false, opSqTail id r v) else if o = 0x12C then some (false, opCqHead r v) else none
  | .stk st => if o = 0x108 then some (false, opMaxClear st v) else if o = 0x10C then some (false, whenP (bits v 0 2 != 3) (plainWrite pg o v))
    else if o = 0x14C then some (false, opGroomPause st v) else none
  | .bnd p => if p < 7 then if o = 0x108 then some (true, opPortCtrl p v) else none else some (true, .seq (plainWrite pg o v) pumpAll)
  | .tlm => if o = 0x100 then some (false, opTlmSnap id v) else if o = 0x184 then some (false, opDieMaxClear v) else none
  | .rgn k => if k = 0 then if o = 0x100 then some (false, opCommit v) else none
    else if 0x100 ≤ o ∧ o < 0x200 ∧ o % 16 = 0 then some (false, opWset ((o - 0x100) / 16) v)
    else if o = 0xA00 then some (false, opPublish v) else none
  | .pst p => if o = 0x100 then some (false, opRunCtrl p v)
    else if o = 0x140 then some (false, modPorts fun x => { x with mapWindow := smSet zeroDefault x.mapWindow (identCode id * 64 + p) (bits v 0 2) })
    else none
  | .gate p g =>
    if gateKind g = 1 then if 0x220 ≤ o ∧ o < 0x230 then some (false, opSpare p g ((o - 0x220) / 4) v)
      else if o = 0x230 then some (false, opSpare p g 4 v) else none
    else if gateKind g = 3 then if o = 0x230 then some (false, opDropCtrl p g v) else none
    else if g = 11 then if o = 0x600 then some (false, opChanReset p v) else none
    else none
  | .dbg => if o = 0x100 then some (false, whenP (bit v 1) opHoldContinue) else if o = 0x104 then some (false, opCpHalt v)
    else if o = 0x108 then some (false, opCpStep v) else none
  | _ => none

/-- What a 32-bit write of an aligned word does, once it is let through (R8). -/
def wordWrite (id : Ident) (pg : Page) (o v : Nat) : Bool × Prog :=
  if pairReadOnly id pg = true ∧ o ≠ 0x104 then (true, .skip)
  else if o < 0x100 then
    match commonWrite id pg o v with
    | some p => (true, p)
    | none => (true, .seq (plainWrite pg o v) (whenP (pg == .mod 1) driveAlert))
  else match blockWrite id pg o v with
    | some x => x
    | none => (true, plainWrite pg o v)

/-- A 32-bit write of BAR0 by an identity, but for ZERO. The token registers answer a locked debug port (R412). -/
def writeWord (id : Ident) (a v : Nat) : Prog :=
  if a % 4 ≠ 0 then markNarrow
  else if id = .debug ∧ 0x20800 ≤ a ∧ a < 0x20D20 then .look fun s => whenP (debugAnswers s) (opToken ((a - 0x20800) / 4) v)
  else match pageAt a with
    | none => .skip
    | some pg =>
      let x := wordWrite id pg (a % 4096) v
      access id a true x.1 x.2

/-- A 32-bit write of BAR0 as it changes the state. -/
def writeStep (id : Ident) (a v : Nat) (s : State) : State := if a = zeroAddr then zeroWrite id v s else (writeWord id a v).run s

/-- Whether any register answers an identity at all. -/
def portAnswers (s : State) (id : Ident) : Bool := answers s id (.sec 0)

/-- Whether a 64-bit register begins at offset `o` of a page. -/
def wide64 (pg : Page) (o : Nat) : Bool :=
  o % 8 == 0 && (match pg with
    | .mod k => if k = 3 then [0x100, 0x110, 0x120, 0x140, 0x160].contains o else k == 4 && [0x110, 0x118, 0x120, 0x138].contains o
    | .syn k => k != 16 && k != 18 && decide (0x100 ≤ o) && decide (o < 0x900)
    | .bar _ => decide (0x100 ≤ o) && decide (o < 0x900)
    | .rgn _ => decide (0x200 ≤ o) && decide (o < 0xA00)
    | .bnd p => p == 7 && decide (0x200 ≤ o) && decide (o < 0x300)
    | .hif => o == 0x120
    | .ring _ => o == 0x110 || o == 0x118
    | .sec k => k == 0 && (o == 0x110 || o == 0x120)
    | .gate _ g => g == 11 && decide (0x400 ≤ o) && decide (o < 0x600) && decide (8 ≤ o % 32) && decide (o % 32 < 24)
    | .dbg => decide (0x110 ≤ o) && decide (o < 0x130)
    | _ => false)

/-- A 64-bit write of one 64-bit register is one access, so a pair entry is checked once, with its DEPTH (R263, R367); any other is two accesses in
ascending order. -/
def wideWrite (id : Ident) (a v : Nat) (s : State) : State :=
  let lo := v % 2 ^ 32
  let hi := v / 2 ^ 32
  let two := writeStep id (a + 4) hi (writeStep id a lo s)
  match pageAt a with
  | none => two
  | some pg =>
    let o := a % 4096
    if wide64 pg o then
      let x := wordWrite id pg o lo
      let y := wordWrite id pg (o + 4) hi
      (access id a true (x.1 && y.1) (if pg = .syn 17 then .seq (plainWrite pg (o + 4) hi) x.2 else .seq x.2 y.2)).run s
    else two

/-- REGISTER_WRITE: 32-bit and 64-bit aligned accesses; any other is ignored and marked (R367). -/
def registerWriteStep (id : Ident) (a size v : Nat) (s : State) : State :=
  if !portAnswers s id then s
  else if size = 4 ∧ a % 4 = 0 then writeStep id a (v % 2 ^ 32) s
  else if size = 8 ∧ a % 8 = 0 then wideWrite id a v s
  else markNarrow.run s

/-- The size of a base address register (R366): BAR0 with BAR1, BAR2 with BAR3; BAR4 and BAR5 are not implemented. -/
def barSize (bar : Nat) : Nat := if bar = 0 then 2 ^ 26 else if bar = 2 then 2 ^ 17 else 0

/-- The number under which accesses of the configuration space go. -/
def configSpace : Nat := 8

/-- The first words of the HDM decoder's and the RAS capability's registers in BAR2 (log entry 99). -/
def hdmWords : Nat := 0x11200 / 4
/-- See `hdmWords`. -/
def rasWords : Nat := 0x11300 / 4

/-- The bits of a word of the configuration space that a write sets, and those that it clears by 1: the command register, the base address registers above
their sizes, MSI-X message control, AER masks and severity, AER status, and ATS control. -/
def configBits (i : Nat) : Nat × Nat :=
  match i with
  | 1 => (0x0546, 0xF9000000)
  | 4 => (0xFC000000, 0)
  | 5 => (0xFFFFFFFF, 0)
  | 6 => (0xFFFE0000, 0)
  | 7 => (0xFFFFFFFF, 0)
  | 16 => (0xC0000000, 0)
  | 65 => (0, 0xFFFFFFFF)
  | 66 => (0xFFFFFFFF, 0)
  | 67 => (0xFFFFFFFF, 0)
  | 68 => (0, 0xFFFFFFFF)
  | 69 => (0xFFFFFFFF, 0)
  | 85 => (0x801F0000, 0)
  | _ => (0, 0)

/-- As `configBits`, of BAR2: the MSI-X table, the HDM decoder's control, base and size, and the RAS status, masks and severity. -/
def bar2Bits (k : Nat) : Nat × Nat :=
  if k < 256 then (if k % 4 = 3 then (1, 0) else if k % 4 = 0 then (0xFFFFFFFC, 0) else (0xFFFFFFFF, 0))
  else if k = hdmWords + 1 then (3, 0)
  else if k = hdmWords + 4 ∨ k = hdmWords + 6 then (0xF0000000, 0)
  else if k = hdmWords + 5 ∨ k = hdmWords + 7 then (0xFFFFFFFF, 0)
  else if k = hdmWords + 8 then (0x300, 0)
  else if k = rasWords ∨ k = rasWords + 3 then (0, 0xFFFFFFFF)
  else if k = rasWords + 1 ∨ k = rasWords + 2 ∨ k = rasWords + 4 then (0xFFFFFFFF, 0)
  else (0, 0)

/-- A word after a write `v` of the bits that `mask` names. -/
def maskedWrite (b : Nat × Nat) (mask old v : Word) : Word :=
  let set := BitVec.ofNat 32 b.1 &&& mask
  ((old &&& ~~~set) ||| (v &&& set)) &&& ~~~(v &&& mask &&& BitVec.ofNat 32 b.2)

/-- A word of the configuration space as it reads: the CXL device capability's range registers report the window's size (R368). -/
def configWordAt (s : State) (i : Nat) : Nat :=
  if i = 134 then s.host.dvsecSize / 2 ^ 32
  else if i = 135 then s.host.dvsecSize % 2 ^ 32 / 2 ^ 28 * 2 ^ 28 + (if s.host.dvsecSize = 0 then 0 else 3)
  else (smGet configReset s.host.config i).toNat

/-- A word of BAR2 as it reads: the pending bits, and in the decoder's control what became of the last commit (R366, R368). -/
def bar2WordAt (s : State) (k : Nat) : Nat :=
  let w := (smGet bar2Reset s.host.bar2 k).toNat
  if k = 0x2000 ∨ k = 0x2001 then ((List.range 32).map fun i => ofBool (smGet flagDefault s.host.msixPend (32 * (k - 0x2000) + i)) * 2 ^ i).sum
  else if k = hdmWords + 8 then putBits (putBits w 10 1 (ofBool (s.host.hdmCommit == 1))) 11 1 (ofBool (s.host.hdmCommit == 2))
  else w

/-- A host write of one word of the configuration space, of the bits that `mask` names; vectors that it unmasks send what they held. -/
def configWrite (i mask v : Nat) : Prog :=
  modHost fun h =>
    let w := maskedWrite (configBits i) (BitVec.ofNat 32 mask) (smGet configReset h.config i) (BitVec.ofNat 32 v)
    msixRelease { h with config := smSet configReset h.config i w }

/-- The units of 256 MB that the decoder's size registers give. -/
def decoderUnits (h : HostSt) : Nat :=
  (smGet bar2Reset h.bar2 (hdmWords + 6)).toNat / 2 ^ 28 + (smGet bar2Reset h.bar2 (hdmWords + 7)).toNat * 2 ^ 4

/-- A host write of one word of BAR2; a vector that it unmasks sends what it held, and a write of the decoder's COMMIT bit commits it (R368). -/
def bar2Write (k v : Nat) : Prog :=
  .seq (modHost fun h =>
      let w := maskedWrite (bar2Bits k) (BitVec.allOnes 32) (smGet bar2Reset h.bar2 k) (BitVec.ofNat 32 v)
      msixRelease { h with bar2 := smSet bar2Reset h.bar2 k w })
    (.look fun s => whenP (k == hdmWords + 8) (if bit v 9 then commitDecoder (decoderUnits s.host) else modHost fun h => { h with hdmCommit := 0 }))

/-- A host write to the configuration space or to BAR2 of 4 or 8 bytes, and to the former of 1 or 2 as well, aligned to its size. -/
def hostSpaceWrite (bar a size v : Nat) : Prog :=
  let word (i : Nat) : Nat := v / 2 ^ (32 * i) % 2 ^ 32
  if bar = configSpace then
    if size < 4 then configWrite (a / 4) ((2 ^ (8 * size) - 1) * 2 ^ (8 * (a % 4))) (v % 2 ^ (8 * size) * 2 ^ (8 * (a % 4)))
    else forEach (List.range (size / 4)) fun i => configWrite (a / 4 + i) (2 ^ 32 - 1) (word i)
  else forEach (List.range (size / 4)) fun i => bar2Write (a / 4 + i) (word i)

/-- Whether an access beside BAR0 is one that reaches the module: the host's, with the link up, aligned and within the space. -/
def hostSpaceOk (s : State) (id : Ident) (bar a size : Nat) : Bool :=
  id == .host && rd s .hif Reg.HIF.LINK_STATUS_UP == 1 && a % size == 0 &&
  decide (a + size ≤ if bar = configSpace then 4096 else barSize bar) && (decide (4 ≤ size) || bar == configSpace)

/-- REGISTER_WRITE (R8): to BAR0, or by the host to BAR2 (R366) or the configuration space (R364). -/
def execRegisterWrite (id : Ident) (addr size : Nat) (v : DWord) (s : State) (bar : Nat := 0) : Host.Outcome State Fault Refusal :=
  .next (if bar = 0 then registerWriteStep id addr size v.toNat s
    else if hostSpaceOk s id bar addr size then (hostSpaceWrite bar addr size v.toNat).run s else s)

/-- A read of the high word of a count: the value this port latched with its read of the low word, once (R430), else the present one. -/
def opCountHigh (id : Ident) (i : Nat) : Prog :=
  .look fun s =>
    let l := smGet zeroDefault s.ports.countLatch (identCode id)
    if l / 2 ^ 32 = i + 1 then
      .seq (respond id (l % 2 ^ 32)) (modPorts fun p => { p with countLatch := smErase (identCode id) p.countLatch })
    else respond id (countOf s i / 2 ^ 32)

/-- A read of one word of a page, once it is let through; `ecc` tells that the storage behind it is found uncorrectable (R332). -/
def wordRead (id : Ident) (pg : Page) (o : Nat) (ecc : Bool) : Prog :=
  .look fun s =>
    let plain := respond id (wordAt s (pageBase pg + o)).toNat
    if o = 0x60 then opFaultFirst id pg
    else match pg with
      | .mbx 0 =>
        if 0x100 ≤ o ∧ o < 0x900 then
          let c := (o - 0x100) / 64
          let k := (o - 0x100) % 64
          if k = 0 then opLockRead id c else if k = 4 then opDoorbellRead id c else if k = 8 then opStatusRead id c
          else if 0x20 ≤ k then opDataRead id c ((k - 0x20) / 4) ecc else plain
        else plain
      | .syn k =>
        if k < 16 ∧ 0x100 ≤ o ∧ o < 0x900 then
          let i := 256 * k + (o - 0x100) / 8
          if o % 8 = 0 then opCountRead id i else opCountHigh id i
        else if k = 16 ∧ o = 0x100 then respond id (smGet zeroDefault s.ports.sigSel (identCode id)) else plain
      | .pst p => if o = 0x140 then respond id (smGet zeroDefault s.ports.mapWindow (identCode id * 64 + p)) else plain
      | .tlm => if smGet flagDefault s.ports.snapped (identCode id) && tlmReadings.contains o then
          respond id (smGet (fun _ => (0 : Word)) s.ports.snapLatch (tlmKey id o)).toNat
        else plain
      | _ => plain

/-- An uncorrectable error in a piste's map memory at a slot (R332, R436): counted, a run that uses the map there ends with MAP_ECC, and the map is
removed; with no such run MAP_ECC is recorded. -/
def mapUe (p slot : Nat) : Prog :=
  .look fun s =>
    let first := ((List.range 4).find? fun j => rd s (.pst p) Reg.PST.SLOT_ID j != 0 && (mapSlots s p j).contains slot).getD slot
    let items := [w32 first]
    progs [
      countUe,
      raiseSev 2 Code.MAP_ECC (768 + p) (iterOn s p) noLeg 0 items fun u =>
        whenP (match runOn s p with | some r => r.slot == first && r.started | none => false) (failRun p Code.MAP_ECC (768 + p) noLeg (some u)),
      removeMap p first]

/-- A read of the map window of a piste, under the rights of its PST page (R436). -/
def windowRead (id : Ident) (a p off : Nat) (ecc : Bool) : Prog :=
  .look fun s =>
    let slot := smGet zeroDefault s.ports.mapWindow (identCode id * 64 + p)
    if !answers s id (.pst p) then .skip
    else if !allowed s id (.pst p) 0 false then .seq (respond id 0) (denied id a false)
    else if ecc then .seq (respond id 0) (mapUe p slot)
    else respond id (leNat (mapRead s p slot off 4))

/-- A 32-bit read of BAR0 by an identity. The debug challenge answers a locked debug port (R412). -/
def readWord (id : Ident) (a : Nat) (ecc : Bool) : Prog :=
  if a % 4 ≠ 0 then .seq (respond id 0) markNarrow
  else if id = .debug ∧ 0x20400 ≤ a ∧ a < 0x20410 then .look fun s => whenP (debugAnswers s) (respond id (wordAt s a).toNat)
  else match mapWindowAt a with
    | some (p, off) => windowRead id a p off ecc
    | none => readAccess id a fun pg => wordRead id pg (a % 4096) ecc

/-- The 7-bit address at which the module answers on SMBus, and the only one (R445). -/
def smbusAddress : Nat := 0x6C

/-- SMBUS_TRANSACTION: at the module's address, with a good packet error code, a write or a read of one register by MGMT, whose offset the port keeps
(R388, R445). -/
def execSmbusTransaction (pecOk isWrite : Bool) (off v : Word) (s : State) (ecc : Bool := false) (dev : Nat := 0x6C) : Host.Outcome State Fault Refusal :=
  .next (
    if dev ≠ smbusAddress || !pecOk || !portAnswers s .mgmt then s
    else if isWrite then writeStep .mgmt off.toNat v.toNat s
    else (Prog.seq (modPorts fun p => { p with smbOffset := off.toNat }) (readWord .mgmt off.toNat ecc)).run s)

/-! ### Reads of a size (R367) -/

/-- What an identity's port has been answered last. -/
def answered (s : State) (id : Ident) : Nat := smGet zeroDefault s.ports.response (identCode id)

/-- A read of 1 or 2 bytes: what the word's read does but for clearing and latching, with the bytes asked for as the answer (log entry 105). -/
def narrowRead (id : Ident) (a size : Nat) (ecc : Bool) : Prog :=
  let word := a / 4 * 4
  let slice := fun n => n / 2 ^ (8 * (a % 4)) % 2 ^ (8 * size)
  let through := Prog.seq (readWord id word ecc) (.look fun s => respond id (slice (answered s id)))
  match pageAt a, mapWindowAt a with
  | some pg, none =>
    if a % 4096 / 4 * 4 = 0x60 then readAccess id word fun pg => .look fun s => respond id (slice (faultFirstWord s pg))
    else match pg with
      | .syn k => if k < 16 ∧ 0x100 ≤ a % 4096 ∧ a % 4096 < 0x900 then
          readAccess id word fun _ => .look fun s => respond id (slice (wordAt s word).toNat) else through
      | _ => .look fun s => if answers s id pg then through else .skip
  | _, _ => .look fun s => if portAnswers s id then through else .skip

/-- A read of 8 bytes: one indivisible read of a count (R430), else two reads in ascending order. -/
def wideRead (id : Ident) (a : Nat) (ecc : Bool) : Prog :=
  let two := Prog.seq (readWord id a ecc) (.look fun s =>
    .seq (readWord id (a + 4) false) (.look fun t => whenP (portAnswers t id) (respond id (answered s id + 2 ^ 32 * answered t id))))
  match pageAt a with
  | some (.syn k) => if k < 16 ∧ 0x100 ≤ a % 4096 ∧ a % 4096 < 0x900 then
      readAccess id a fun _ => .look fun s => respond id (countOf s (256 * k + (a % 4096 - 0x100) / 8)) else two
  | _ => two

/-- A read of `size` bytes at an address of BAR0: one not aligned to its size reads nothing, answers 0 and is marked. -/
def sizedRead (id : Ident) (a size : Nat) (ecc : Bool) : Prog :=
  .look fun s => whenP (portAnswers s id) (
    if a % size ≠ 0 then .seq (respond id 0) markNarrow
    else if size = 4 then readWord id a ecc
    else if size = 8 then wideRead id a ecc
    else narrowRead id a size ecc)

/-- A host read of the configuration space or of a base address register other than BAR0; one that reaches nothing answers 0. -/
def hostSpaceRead (id : Ident) (bar a size : Nat) : Prog :=
  .look fun s =>
    let word := fun i => if bar = configSpace then configWordAt s i else if bar = 2 then bar2WordAt s i else 0
    let two := word (a / 4) + 2 ^ 32 * word (a / 4 + 1)
    whenP (id == .host && rd s .hif Reg.HIF.LINK_STATUS_UP == 1)
      (respond id (if a % size ≠ 0 then 0 else two / 2 ^ (8 * (a % 4)) % 2 ^ (8 * size)))

/-- FAULT_FIRST_READ (R384): a read of `size` bytes from byte `off` of FAULT_FIRST of a page, given by its frame number in BAR0. With another register's
offset for `reg`, or another space for `bar`, it stands for the reads that have no row of their own (R364, R366, R367, log entry 105). -/
def execFaultFirstRead (id : Ident) (page : Nat) (s : State) (off : Nat := 0) (size : Nat := 4) (reg : Nat := 0x60) (bar : Nat := 0) :
    Host.Outcome State Fault Refusal :=
  done (if bar ≠ 0 then hostSpaceRead id bar (page * 4096 + reg + off) size
    else if reg = 0x60 then readAccess id (page * 4096 + 0x60) fun pg => opFaultFirstSized id pg off size
    else sizedRead id (page * 4096 + reg + off) size false) s

/-- MBX_LOCK_READ (R271): of the whole register, or of `size` bytes from byte `off` of it (R367). -/
def execMbxLockRead (id : Ident) (c : Fin 32) (s : State) (off : Nat := 0) (size : Nat := 4) : Host.Outcome State Fault Refusal :=
  done (if off = 0 ∧ size = 4 then readAccess id (fldAddr mb Reg.MBX0.LOCK c) fun _ => opLockRead id c
    else sizedRead id (fldAddr mb Reg.MBX0.LOCK c + off) size false) s

/-- MBX_DATA_READ (R273): of the whole word, or of `size` bytes from byte `off` of it (R367). -/
def execMbxDataRead (id : Ident) (c : Fin 32) (j : Fin 8) (ecc : Bool) (s : State) (off : Nat := 0) (size : Nat := 4) : Host.Outcome State Fault Refusal :=
  done (if off = 0 ∧ size = 4 then readAccess id (dataAddr c j) fun _ => opDataRead id c j ecc else sizedRead id (dataAddr c j + off) size ecc) s

/-- MBX_STATUS_READ (R274): of the whole register, or of `size` bytes from byte `off` of it (R367). -/
def execMbxStatusRead (id : Ident) (c : Fin 32) (s : State) (off : Nat := 0) (size : Nat := 4) : Host.Outcome State Fault Refusal :=
  done (if off = 0 ∧ size = 4 then readAccess id (fldAddr mb Reg.MBX0.STATUS_FULL c) fun _ => opStatusRead id c
    else sizedRead id (fldAddr mb Reg.MBX0.STATUS_FULL c + off) size false) s

end Sys2Proof.Machine
end

