-- ==== Sys2Proof/Machine/BaondRx.lean ====
section
/-! DEFINITION. Messages served: routing onward (R297, R298), memory requests against the inbound windows (R292, R295), reductions (R311, R312),
accesses of the pair port (R290), takeover (R360), responses, NAKs and expired requests (R293, R294). -/

namespace Sys2Proof.Machine

open Sys2Proof

/-! ### Taking a message -/

/-- A message waiting to be served that came by port `p`, or from this node itself. -/
def waitingMsg (s : State) (p : Nat) (m : Msg) : Option Arrived := s.bnd.inbox.find? fun a => (a.port == p || a.port == 7) && a.msg == m

/-- The port a message came by: 7 for this node itself. -/
def cameBy (s : State) (p : Nat) (m : Msg) : Nat := match waitingMsg s p m with | some a => a.port | none => p

/-- A message leaves its port's pool. -/
def takeMsg (p : Nat) (m : Msg) : Prog :=
  .look fun s =>
    match waitingMsg s p m with
    | none => .skip
    | some a => .seq (modBnd fun b => { b with inbox := eraseFirst a b.inbox }) (whenP (decide (a.port < 7)) (freePool a.port (msgPool m) a.flits))

/-- A response sent back to the source of a request (R290). -/
def answer (m : Msg) (op : Nat) (data : List Byte) (poison : Bool) (addr : Nat) : Prog :=
  sendMsg { cls := m.cls, op := op, dst := m.src, src := 0, len := data.length, vl := 0, resp := true, poison := poison, space := 0, detoured := false,
            hops := 0, addr := addr, tag := m.tag, data := data }

/-- A request that fails the check of R292: counted, and answered NAK REFUSED. -/
def refuseMsg (m : Msg) : Prog :=
  .look fun s => progs [
    wr (.bnd 7) Reg.BND7.FAB_CHECK_REFUSED_IN 1, addSat (.bnd 7) Reg.BND7.REFUSED_COUNT 1, routeMsg 8 (nakOf s m 1)]

/-- Whether messages of its kind wait before a message (R299). -/
def overtakes (s : State) (m : Msg) : Bool :=
  let l := s.bnd.inbox.map (·.msg)
  l.any (sameKind m) && !firstOfKind l m

/-- The bytes of this module's HBM that a request would access: in takeover those of the copy that serves it (R360). -/
def msgRange (s : State) (m : Msg) : Option (Nat × Nat) :=
  let n := if m.cls == 3 && m.op == 1 then bits (leAt m.data 0 8) 0 13 else if m.cls == 4 then 64 else m.data.length
  let a := if m.cls == 2 then m.addr % 2 ^ 40 else m.addr
  if m.resp || m.space != 0 || !(List.contains [1, 2, 3, 4, 6] m.cls) then none
  else if m.dst == ownNode s then some (a, n) else (liveCopy s a n).map fun c => (c, n)

/-- Whether a request waits for a stack at CRIT (R247). -/
def msgHot (s : State) (m : Msg) : Bool := match msgRange s m with | some x => hotRange s x.1 x.2 | none => false

/-- A message of the given class, operation and direction served on arrival, in the order of its kind and not while its memory is too hot: for this node by `own`, for a lost partner's identity by
`partner` (R360). A module in core reset discards it (R302), one not yet joined answers its torus ports NAK UNREACHABLE (R362). -/
def serveMsg (p : Nat) (m : Msg) (cls op : Nat) (resp : Bool) (own partner : Prog) : Prog :=
  .look fun s =>
    whenP (m.cls == cls && m.op == op && m.resp == resp && (m.dst == ownNode s || (inTakeover s && m.dst == partnerNode s)) &&
        !overtakes s m && !msgHot s m)
      (.seq (takeMsg p m)
        (if !msgOk p m && decide (cameBy s p m < 7) then protoDrop p
        else if inCoreReset s then .skip
        else if m.dst != ownNode s then partner
        else if decide (cameBy s p m < 6) && rd s (.mod 4) Reg.MOD4.PAIR_STATUS_JOINED == 0 then unreachable m 2 (routeMsg 8)
        else own))

/-- What a takeover answers to every message it has no copy for (R360). -/
def notServed (m : Msg) : Prog := unreachable m 2 (routeMsg 8)

/-- The copy of a lost partner's bytes serves a request for SPACE 0, or it is answered NAK UNREACHABLE (R360). -/
def fromCopy (m : Msg) (a n : Nat) (k : Nat → Prog) : Prog :=
  .look fun s => match liveCopy s a n with
    | some c => if m.space = 0 then k c else notServed m
    | none => notServed m

/-! ### Routing onward -/

/-- MESSAGE_ROUTE: a message for another node goes on by R297 and R298, in the order of its kind (R299). -/
def progMessageRoute (m : Msg) : Prog :=
  .look fun s => whenP (m.dst != ownNode s && !(inTakeover s && m.dst == partnerNode s) && !overtakes s m)
    (match s.bnd.inbox.find? fun a => a.msg == m with
      | none => whenP (!inCoreReset s) (routeMsg 8 m)
      | some a => .seq (takeMsg a.port m) (whenP (!inCoreReset s) (routeMsg 8 m)))

/-- MESSAGE_ROUTE (R297). -/
def execMessageRoute (msg : Msg) (s : State) : Host.Outcome State Fault Refusal := done (progMessageRoute msg) s

/-! ### Windows (R292) -/

/-- The rights of an inbound window. -/
inductive WinRight where
  | rd | wr | at_
  deriving DecidableEq, Repr

/-- Whether inbound window `w` lets an access in (R292). A BASE that is not 4 KB aligned makes it not VALID. -/
def windowOk (s : State) (right : WinRight) (space a n w : Nat) : Bool :=
  let pg := Page.bnd 7
  let base := rd64 s pg Reg.BND7.WINDOW_BASE_LO Reg.BND7.WINDOW_BASE_HI w
  let len := rd64 s pg Reg.BND7.WINDOW_LENGTH_M1_LO Reg.BND7.WINDOW_LENGTH_M1_HI w + 1
  rd s pg Reg.BND7.WINDOW_VALID w == 1 && base % 4096 == 0 && rd s pg Reg.BND7.WINDOW_SPACE w == space &&
  (n == 0 || (decide (base ≤ a) && decide (a + n ≤ base + len))) &&
  (match right with
   | .rd => rd s pg Reg.BND7.WINDOW_RD w == 1 | .wr => rd s pg Reg.BND7.WINDOW_WR w == 1 | .at_ => rd s pg Reg.BND7.WINDOW_AT w == 1)

/-- Whether the inbound windows let an access in, and the host's translation every page of it where it goes to host memory (log entry 31). -/
def inboundOk (s : State) (right : WinRight) (space a n : Nat) : Bool :=
  (List.range 16).any (windowOk s right space a n) && (space == 0 || (pagesOf a n).all fun p => !hostRefuses s (p * 4096))

/-- Bytes written for a request: to HBM or host memory, a poisoned word with its poison (R295). -/
def remoteWrite (space a : Nat) (l : List Byte) (poison : Bool) : Prog :=
  if space = 0 then forEach (cut 64 a l) fun w => hbmWordWrite w.1 w.2 poison
  else progs [cacheTranslation a l.length, hostWrite a l,
    whenP poison (forEach (cut 64 a l) fun w => .prim (.flag .hostPoison (w.1 / 64) true))]

/-- An arriving write checked, performed and acknowledged (R292, R294). -/
def writeRequest (m : Msg) (a ack : Nat) : Prog :=
  .look fun s =>
    if inboundOk s .wr m.space a m.data.length then .seq (remoteWrite m.space a m.data m.poison) (answer m ack [] false 0) else refuseMsg m

/-- KV_WRITE (R292). -/
def execKvWrite (port : Fin 7) (msg : Msg) (s : State) : Host.Outcome State Fault Refusal :=
  done (serveMsg port msg 1 0 false (writeRequest msg msg.addr 1) (notServed msg)) s

/-- PUT (R292); in takeover a copy takes it in place (R360). -/
def execPut (port : Fin 7) (msg : Msg) (s : State) : Host.Outcome State Fault Refusal :=
  done (serveMsg port msg 3 0 false (writeRequest msg msg.addr 2)
    (fromCopy msg msg.addr msg.data.length fun c => .seq (remoteWrite 0 c msg.data msg.poison) (answer msg 2 [] false 0))) s

/-- GET_DATA for `n` bytes: in one message, or with a poisoned word among them in words, each of which says its address (R295). -/
def sendData (m : Msg) (space a n : Nat) : Prog :=
  .look fun s =>
    let bytes := if space = 0 then hbmRead s a n else smList byteDefault s.mem.host a n
    let bad := fun x => if space = 0 then hbmPoisoned s x else smGet flagDefault s.mem.hostPoison (x / 64)
    .seq (if space = 0 then deliverPoison a n else cacheTranslation a n)
      (if (cut 64 a bytes).any fun w => bad w.1 then forEach (cut 64 a bytes) fun w => answer m 3 w.2 (bad w.1) (m.addr + (w.1 - a))
      else answer m 3 bytes false m.addr)

/-- The byte count of a GET (R290). -/
def getCount (m : Msg) : Nat := bits (leAt m.data 0 8) 0 13

/-- GET (R292): a count outside 1 to 4,096 is refused. -/
def progGet (m : Msg) : Prog :=
  .look fun s =>
    let n := getCount m
    if decide (1 ≤ n) && decide (n ≤ 4096) && inboundOk s .rd m.space m.addr n then sendData m m.space m.addr n else refuseMsg m

/-- GET (R292); in takeover from the copy (R360). -/
def execGet (port : Fin 7) (msg : Msg) (s : State) : Host.Outcome State Fault Refusal :=
  done (serveMsg port msg 3 1 false (progGet msg)
    (if 1 ≤ getCount msg ∧ getCount msg ≤ 4096 then fromCopy msg msg.addr (getCount msg) fun c => sendData msg 0 c (getCount msg) else refuseMsg msg)) s

/-- The addends of an ATOMIC ADD in the lanes of its mask (R290). -/
def atomicLanes (m : Msg) : List (Nat × SV) :=
  (maskList 16 (leAt m.data 64 8)).map fun i => (i, codeSV 32 (leAt m.data (4 * i) 4))

/-- ATOMIC_ADD_MESSAGE: refused off a 64-byte boundary or for host memory (R118, R292); else applied to its granule, by an adder whose residue may not match (R331). -/
def progAtomicAddMessage (p : Nat) (m : Msg) (adders : List (Nat × Bool)) : Prog :=
  .look fun s =>
    if m.addr % 64 == 0 && m.space == 0 && inboundOk s .at_ m.space m.addr 64 then
      .seq (atomicRequest m.addr (844 + p) (atomicLanes m) 0 (adderChk adders m.addr)) (answer m 1 [] false 0)
    else refuseMsg m

/-- ATOMIC_ADD_MESSAGE (R292); in takeover the copy changes in place (R360). -/
def execAtomicAddMessage (port : Fin 7) (msg : Msg) (s : State) (adders : List (Nat × Bool) := []) : Host.Outcome State Fault Refusal :=
  done (serveMsg port msg 4 0 false (progAtomicAddMessage port msg adders)
    (if msg.addr % 64 = 0 then fromCopy msg msg.addr 64 fun c =>
        .seq (forEach (atomicLanes msg) fun x => atomicHbm (c + 4 * x.1) (844 + port) adders [x.2]) (answer msg 1 [] false 0)
      else refuseMsg msg)) s

/-! ### Reductions (R311, R312) -/

/-- REDUCE_PARTIAL (R311): data written at its landing slot's address. -/
def execReducePartial (port : Fin 7) (msg : Msg) (s : State) : Host.Outcome State Fault Refusal :=
  done (whenP (msg.len != 0) (serveMsg port msg 2 0 false (writeRequest msg (msg.addr % 2 ^ 40) 2) (notServed msg))) s

/-- FINAL_ADD: refused off a 4-byte boundary or length, or for host memory; else added in order of arrival (R120, R311). -/
def progFinalAdd (p : Nat) (m : Msg) (adders : List (Nat × Bool)) : Prog :=
  .look fun s =>
    let a := m.addr % 2 ^ 40
    if a % 4 == 0 && m.data.length % 4 == 0 && m.space == 0 && inboundOk s .at_ m.space a m.data.length then
      .seq (atomicHbm a (844 + p) adders ((List.range (m.data.length / 4)).map fun i => codeSV 32 (leAt m.data (4 * i) 4))) (answer m 2 [] false 0)
    else refuseMsg m

/-- FINAL_ADD (R311). -/
def execFinalAdd (port : Fin 7) (msg : Msg) (s : State) (adders : List (Nat × Bool) := []) : Host.Outcome State Fault Refusal :=
  done (serveMsg port msg 2 1 false (progFinalAdd port msg adders) (notServed msg)) s

/-- REDUCE_OVERRUN (R312). -/
def reduceOverrun (p c j src : Nat) : Prog :=
  .look fun s =>
    let pg := Page.gate p 11
    progs [wr pg Reg.GATEX.CHECK_OVERRUN 1, addSat pg Reg.GATEX.OVERRUN_COUNT 1,
      raise Code.REDUCE_OVERRUN (gateIsland p 11) 0 noLeg c [w32 j, w32 (rd s pg Reg.GATEX.CLOSED c), w32 src]]

/-- A mark of iteration `j` from contributor `k` in a channel (R312). -/
def markArrives (p c k j src : Nat) : Prog :=
  .look fun s =>
    let pg := Page.gate p 11
    let closed := rd s pg Reg.GATEX.CLOSED c
    let valid := rd s pg Reg.GATEX.CLOSED_VALID c == 1
    let tag := nth (chanOf s p c).tags (j % 3) none
    if valid && j == closed then
      (if k < 32 then wr pg Reg.GATEX.PENDING_LO ((rd s pg Reg.GATEX.PENDING_LO c).lor (2 ^ k)) c
      else wr pg Reg.GATEX.PENDING_HI ((rd s pg Reg.GATEX.PENDING_HI c).lor (2 ^ (k - 32))) c)
    else if valid && (decide (j < closed) || decide (closed + 3 ≤ j)) then reduceOverrun p c j src
    else if tag == none || tag == some j then .seq
      (modChan p c fun x => { x with tags := x.tags.set (j % 3) (some j), marks := modAt x.marks (j % 3) fun m => if tag = none then 2 ^ k else m.lor (2 ^ k) })
      (whenP (chanOf s p c).waiting.isSome (modSync fun y => { y with gated := smSet flagDefault y.gated (gateIsland p 11) false }))
    else reduceOverrun p c j src

/-- ARRIVAL_MARK (R312): a PARTIAL of LEN 0, recorded in channel DCH of piste DPISTE and acknowledged. -/
def execArrivalMark (port : Fin 7) (msg : Msg) (s : State) : Host.Outcome State Fault Refusal :=
  done (whenP (msg.len == 0) (serveMsg port msg 2 0 false
    (.seq (markArrives (bits msg.addr 44 6) (bits msg.addr 40 4) (bits msg.addr 0 6) (bits msg.addr 6 32) msg.src) (answer msg 2 [] false 0))
    (notServed msg))) s

/-! ### SYNC, MGMT and MIRROR -/

/-- SYNC_SIGNAL_MESSAGE: the SIGNAL goes to the counter block (R254, R290). -/
def signalIn (m : Msg) : Prog :=
  let w1 := m.addr + m.tag * 2 ^ 50
  sendSignal { counter := bits w1 0 12, amount := bits w1 32 32, round := bits w1 12 16, src := .remote m.src, run := none, cmd := none, leg := noLeg }

/-- SYNC_SIGNAL_MESSAGE (R254). -/
def execSyncSignalMessage (port : Fin 7) (msg : Msg) (s : State) : Host.Outcome State Fault Refusal :=
  done (serveMsg port msg 0 0 false (signalIn msg) (notServed msg)) s

/-- REG_READ (R290): a read as identity PAIR, answered with REG_DATA. -/
def execRegRead (port : Fin 7) (msg : Msg) (s : State) (ecc : Bool := false) : Host.Outcome State Fault Refusal :=
  done (serveMsg port msg 5 0 false
    (progs [respond .pair 0, readWord .pair msg.addr ecc, .look fun t => answer msg 3 (leBytes 4 (smGet zeroDefault t.ports.response 3)) false 0])
    (notServed msg)) s

/-- What REG_WRITE does before and after its write (R290): it is answered with REG_ACK. -/
def regWriteStep (p : Nat) (m : Msg) (s : State) : State :=
  let ok := m.cls == 5 && m.op == 1 && !m.resp && m.dst == ownNode s && msgOk p m && !inCoreReset s && !overtakes s m
  if ok then (answer m 4 [] false 0).run (writeStep .pair m.addr (leAt m.data 0 4) ((takeMsg p m).run s))
  else (serveMsg p m 5 1 false .skip (notServed m)).run s

/-- REG_WRITE (R290): a write as identity PAIR. -/
def execRegWrite (port : Fin 7) (msg : Msg) (s : State) : Host.Outcome State Fault Refusal := .next (regWriteStep port msg s)

/-- MAIL_WAKE (R274): the message names a channel of the partner's; no rule gives it an effect of its own here. It is acknowledged (log entry 32). -/
def execMailWake (port : Fin 7) (msg : Msg) (s : State) : Host.Outcome State Fault Refusal :=
  done (serveMsg port msg 5 2 false (answer msg 4 [] false 0) (notServed msg)) s

/-- MIRROR_WRITE (R356): checked as a WRITE; a MIR_SIZE of 0 refuses every one. -/
def execMirrorWrite (port : Fin 7) (msg : Msg) (s : State) : Host.Outcome State Fault Refusal :=
  done (serveMsg port msg 6 0 false
    (.look fun t => if (ownArea t).2 = 0 then refuseMsg msg else writeRequest msg msg.addr 1) (notServed msg)) s

/-! ### Responses -/

/-- The request of a tag. -/
def findTag (s : State) (t : Nat) : Option TagRec := s.bnd.tags.find? (·.tag == t)

/-- A request's failure ends its leg's run, if that run is still in progress, or a snapshot (R50, R293, R294, R355). -/
def requestFails (r : TagRec) (code : Nat) : Prog :=
  .look fun s =>
    match r.piste with
    | some p => whenP (r.run.isSome && (pisteOf s p).run == r.run && !(pisteOf s p).failed) (faultLeg p r.gate r.leg code 0 [])
    | none => whenP (r.purpose == 4) abandonSnapshot

/-- The bytes of a GET_DATA kept for the leg that asked for them, if its run is still in progress (R294): a message whose ADDR lies in the range asked
for says where its bytes belong (R295), else they follow those that have come. -/
def fileData (r : TagRec) (m : Msg) : Prog :=
  .look fun s =>
    let here := decide (r.addr ≤ m.addr) && decide (m.addr + m.data.length ≤ r.addr + r.len)
    match r.piste with
    | none => .skip
    | some p => whenP (r.run.isSome && (pisteOf s p).run == r.run && !(pisteOf s p).failed) (
        let f : Fetched :=
          { piste := p, gate := r.gate, leg := r.leg, loc := 3, node := r.node, space := r.space,
            addr := if here then m.addr else r.addr + r.came, bytes := m.data, poison := m.poison }
        modUnits fun u => { u with fetched := u.fetched ++ [f] })

/-- REMOTE_RESPONSE: the tag is freed, of a GET once all of its bytes have come; a response whose tag is free is discarded (R294). -/
def responseIn (m : Msg) : Prog :=
  .look fun s => match findTag s m.tag with
    | none => .skip
    | some r => whenP (r.cls == m.cls) (
        if r.purpose = 1 && m.op == 3 then
          let came := r.came + m.data.length
          .seq (fileData r m)
            (if r.len ≤ came then freeTagOf m.tag
            else modBnd fun b => { b with tags := b.tags.map fun x => if x.tag = m.tag then { x with came := came } else x })
        else .seq (freeTagOf m.tag) sendMarks)

/-- REMOTE_RESPONSE (R294). -/
def execRemoteResponse (port : Fin 7) (msg : Msg) (s : State) : Host.Outcome State Fault Refusal :=
  done (whenP (msg.op != 31) (serveMsg port msg msg.cls msg.op true (responseIn msg) (notServed msg))) s

/-- The reason of a NAK: reserved codes read as UNREACHABLE (R293). -/
def nakReason (m : Msg) : Nat :=
  let r := bits m.addr 0 8
  if r = 1 ∨ r = 3 then r else 2

/-- The status a NAK gives a run (R293). -/
def nakStatus (r : Nat) : Nat := if r = 1 then Code.PEER_REFUSED else if r = 3 then Code.PEER_CORE_RESET else Code.PEER_UNREACHABLE

/-- NAK: of a SIGNAL, SYNC_UNDELIVERED naming counter, target node and reason; of any other request, its tag is freed and its run ends (R293). -/
def nakIn_ (m : Msg) : Prog :=
  let h := msgOfWords (leAt m.data 0 8) (leAt m.data 8 8)
  let reason := nakReason m
  .seq (whenP (reason == 2) (.seq (fabFirst h.dst h.cls) (wr (.bnd 7) Reg.BND7.FAB_CHECK_UNREACHABLE 1)))
    (if m.cls = 0 then raise Code.SYNC_UNDELIVERED 852 0 noLeg 0 [w32 (h.addr % 4096), w32 h.dst, w32 reason]
    else .look fun s => match findTag s m.tag with
      | none => .skip
      | some r => .seq (freeTagOf m.tag) (requestFails r (nakStatus reason)))

/-- NAK (R293). -/
def execNak (port : Fin 7) (msg : Msg) (s : State) : Host.Outcome State Fault Refusal :=
  done (serveMsg port msg msg.cls 31 true (nakIn_ msg) (notServed msg)) s

/-- PEER_TIMEOUT: RESP_LIMIT, unless 0, has expired for a tag (R294). -/
def progPeerTimeout (t : Nat) : Prog :=
  .look fun s => match findTag s t with
    | none => .skip
    | some r => whenP (rd s (.bnd 7) Reg.BND7.RESP_LIMIT != 0) (progs [
        freeTagOf t,
        addSat (.bnd 7) Reg.BND7.TIMEOUT_COUNT 1, fabFirst r.node r.cls, wr (.bnd 7) Reg.BND7.FAB_CHECK_PEER_TIMEOUT 1,
        requestFails r Code.PEER_TIMEOUT])

/-- PEER_TIMEOUT (R294). -/
def execPeerTimeout (tag : Nat) (s : State) : Host.Outcome State Fault Refusal := done (progPeerTimeout tag) s

end Sys2Proof.Machine
end

