-- ==== Sys2Proof/Machine/Integrity.lean ====
section
/-! DEFINITION. The sweep's checks (R339, R340) and the fallback after a fence (R336, R337). -/

namespace Sys2Proof.Machine

open Sys2Proof

/-! ### The sweep -/

/-- A capture that is done with. -/
def dropCapture (c : Capture) : Prog := modFw fun f => { f with captures := f.captures.erase c }

/-- A check that found a difference, counted (R340). -/
def sweepDiffers (c : Capture) (p : Prog) : Prog :=
  progs [dropCapture c, addSat (.mod 3) Reg.MOD3.SWEEP_CHECKS 1, addSat (.mod 3) Reg.MOD3.SWEEP_MISMATCHES 1, p]

/-- SWEEP_MISMATCH, naming both pistes and the gate by their islands (R13) with the capture's ITERATION, and the fence of the piste in the minority (R340 step 4). -/
def sweepFence (c : Capture) (checker loser : Nat) : Prog :=
  sweepDiffers c (.seq (raise Code.SWEEP_MISMATCH 852 c.iter noLeg 0 [w32 (768 + c.piste), w32 (768 + checker), w32 (gateIsland c.piste c.gate)]) (fenceCause loser 8))

/-- Whether a capture may be checked (R340): in the step behind its own, or once it is due. -/
def checkOpen (s : State) (c : Capture) : Bool := c.due || (rd s (.mod 3) Reg.MOD3.SWEEP_STEP == (c.step + 1) % 2 ^ 32)

/-- SWEEP_CHECK: the oldest capture of a gate of the target is checked. A difference is settled by a third piste; without one the spec gives no
verdict, and it is unresolved. A check that is not completed changes nothing; the end of its step counts it (`sweepDeferred`). -/
def progSweepCheck (p g : Nat) (result : SweepResult) : Prog :=
  .look fun s =>
    match s.fw.captures.find? (fun c => c.piste == p && c.gate == g && checkOpen s c), checkersOf s p with
    | some c, k :: more =>
      let lone := sweepDiffers c (raise Code.SWEEP_UNRESOLVED 852 c.iter noLeg 0 [])
      whenP (result != .deferred) (.seq (trace 6 (gateIsland k g))
        (match result with
         | .agree => .seq (dropCapture c) (addSat (.mod 3) Reg.MOD3.SWEEP_CHECKS 1)
         | .targetMinority => if more.isEmpty then lone else sweepFence c k p
         | .checkerMinority => if more.isEmpty then lone else sweepFence c k k
         | .unresolved => lone
         | .deferred => .skip))
    | _, _ => .skip

/-- SWEEP_CHECK (R340). -/
def execSweepCheck (p : Fin 64) (g : Fin 12) (result : SweepResult) (s : State) : Host.Outcome State Fault Refusal := done (progSweepCheck p g result) s

/-! ### The fallback -/

/-- An item of a fallback list (R337): piste, slot and image; none where the item or its image fails a check. -/
def fallbackItem (s : State) (f base a : Nat) : Option (Nat × Nat × List Byte) :=
  let n (o k : Nat) : Nat := leNat (hbmRead s (a + o) k)
  let at_ := base + n 8 8
  let size := n 4 4
  if spaceBad s 0 a 16 = true ∨ outside s 0 a 16 = true ∨ n 0 1 = f ∨ 64 ≤ n 0 1 ∨ 4 ≤ n 1 1 ∨ n 2 2 ≠ 0 ∨ n 8 8 % 64 ≠ 0 ∨ size < 128 ∨ 262144 < size then none
  else if outside s 0 at_ size || spaceBad s 0 at_ size then none
  else
    let image := hbmRead s at_ size
    if imgSize (imageOf image) = size ∧ imageStatus (imageOf image) (n 0 1) (n 1 1) = 0 then some (n 0 1, n 1 1, image) else none

/-- The items of entry `f` of the fallback set; none where any fails. -/
def fallbackItems (s : State) (f : Nat) : Option (List (Nat × Nat × List Byte)) :=
  let base := rd64 s (.mod 3) Reg.MOD3.FALLBACK_BASE_LO Reg.MOD3.FALLBACK_BASE_HI
  let e := base + 16 * f
  let count := leNat (hbmRead s (e + 6) 2)
  let list := base + leNat (hbmRead s e 6)
  if outside s 0 e 16 || spaceBad s 0 e 16 || decide (252 < count) then none
  else ((List.range count).map fun i => fallbackItem s f base (list + 16 * i)).foldr (fun x l => match x, l with
    | some y, some r => some (y :: r)
    | _, _ => none) (some [])

/-- Step 4 (R336): the fallback of `f` is loaded where a set is present and no other piste is fenced; all of it, or none with FALLBACK_FAIL. -/
def loadFallback (f : Nat) : Prog :=
  .look fun s => whenP (rd s (.mod 3) Reg.MOD3.FALLBACK_CTRL_VALID == 1 && decide ((fencedList s).length = 1))
    (match fallbackItems s f with
     | some l => progs [
        forEach l fun (x : Nat × Nat × List Byte) => writeMap x.1 x.2.1 x.2.2,
        raise Code.FALLBACK 852 0 noLeg 0 [w32 f], logOwn]
     | none => .seq (modFw fun x => { x with fallbackFailed := true }) (raise Code.FALLBACK_FAIL 852 0 noLeg 0 [w32 f]))

/-- Step 5: `f` leaves the mask of every queued run, one that waits for its replays among them; a run that named it alone, or whose runs R337 ends, completes with PISTE_FENCED. -/
def clearQueued (f : Nat) : Prog :=
  .look fun s => forEach (s.runs.runs.filter fun r => (!r.started || r.left == 0) && bit r.mask f) fun r =>
    if r.mask = 2 ^ f ∨ fenceStops s r.mask = true then endEarly r Code.PISTE_FENCED (768 + f) none
    else .seq (modRun r.id fun x => { x with mask := putBits x.mask f 1 0, left := putBits x.left f 1 0, atBoundary := putBits x.atBoundary f 1 0 })
      (fixEpoch r.id)

/-- FALLBACK: once the last other piste stands at its boundary, steps 4 to 6 for the piste fenced first; the hold ends when no fence waits. -/
def progFallback : Prog :=
  .look fun s =>
    match s.fw.fencing with
    | [] => .skip
    | f :: rest => whenP (fwRuns s && s.sec.phase == .ready && (unfenced s).all (idlePiste s)) (progs [
        loadFallback f,
        clearQueued f,
        modFw fun x => { x with
          fencing := rest
          repairLog := x.repairLog ++ [(1, f * 256 + rd s (.pst f) Reg.PST.RUN_CTRL_FENCE_CAUSE)] },
        logOwn,
        whenP rest.isEmpty (releaseHold holdFence)])

/-- FALLBACK (R336, R337). -/
def execFallback (s : State) : Host.Outcome State Fault Refusal := done progFallback s

end Sys2Proof.Machine
end

