-- ==== Sys2Proof/Machine/Stack.lean ====
section
/-! DEFINITION. Memory stacks: accesses of 64 B words, requests at the adders, the groomer, row repair and stack temperature (R120, R222 to R231,
R247, R248, R419). -/

namespace Sys2Proof.Machine

open Sys2Proof

/-- Whether a stack admits accesses: trained, in no self refresh, not retired, and below CRIT (R247). -/
def admits (s : State) (st : Nat) : Bool :=
  rd s (.stk st) Reg.STK.STK_STATUS_STATE == 1 && rd s (.stk st) Reg.STK.STK_STATUS_THERM != 3

/-- What the decoder makes of a codeword with `err` wrong bytes (R222): up to 6 it takes them for what they are; of more the spec promises nothing,
and the number it takes is free. -/
def withWrong (err : ErrBytes) (k : ErrBytes → Prog) : Prog := if err ≤ 6 then k err else withFree fun v => k (v % 7)

/-- A read of the DRAM's word with its correction (R222, R223): none for an open granule, which is served from its copy (R230), or for a
word already poisoned. The continuation learns whether the word is bad. -/
def readWordEcc (a source island : Nat) (err : ErrBytes) (pass : Option Nat) : Prog :=
  .look fun s =>
    let st := stackOf s a
    whenP ((openAt s a).isNone && !hbmPoisoned s a) (withWrong err fun e =>
      if e = 0 then .skip
      else if e ≤ 2 then correctedWord st a pass
      else uncorrectableWord st a source island)

/-- HBM_ACCESS: a read delivers the word, poisoned or not; a write of all 64 bytes replaces it; a narrower one is a read, merge and write. -/
def progHbmAccess (addr : Nat) (isWrite : Bool) (data : List Byte) (island source : Nat) (err : ErrBytes) : Prog :=
  .look fun s =>
    let full := addr % 64 == 0 && data.length == 64
    whenP (decide (addr < hbmBytes s) && admits s (stackOf s addr))
      (if isWrite then
        whenP (decide (addr % 64 + data.length ≤ 64) && !data.isEmpty)
          (.seq (whenP (!full) (readWordEcc addr 3 island err none)) (hbmWordWrite addr data false))
      else .seq (readWordEcc addr (source % 2) island err none) (deliverPoison addr 1))

/-- HBM_ACCESS (R222): `source` is 0 for a stream read and 1 for a narrow one. -/
def execHbmAccess (addr : Nat) (isWrite : Bool) (data : List Byte) (island source : Nat) (err : ErrBytes) (s : State) :
    Host.Outcome State Fault Refusal :=
  done (progHbmAccess addr isWrite data island source err) s

/-- The addends of a request: a lane for every bit of its mask. -/
def maskedLanes (mask : Nat) (lanes : List Word) : List (Nat × SV) :=
  (maskList 16 mask).map fun i => (i, codeSV 32 (nth lanes i 0).toNat)

/-- ATOMIC_ADD_REQUEST: at the atomic-add unit of the stack, or with a piste at the adder of its control block, on its scratchpad (R118). -/
def progAtomicAddRequest (piste : Option (Fin 64)) (addr mask : Nat) (lanes : List Word) (island : Nat) (err : ErrBytes) (chk : HwCheck) : Prog :=
  .look fun s =>
    let ga := addr / 64 * 64
    match piste with
    | some p => whenP (decide (ga < scratchSize p)) (forEach (maskedLanes mask lanes) fun x => atomicScratch p (ga + 4 * x.1) [x.2])
    | none => whenP (decide (addr < hbmBytes s) && admits s (stackOf s addr))
        (withWrong err fun e => atomicRequest addr island (maskedLanes mask lanes) e chk)

/-- ATOMIC_ADD_REQUEST (R120). -/
def execAtomicAddRequest (piste : Option (Fin 64)) (addr mask : Nat) (lanes : List Word) (island : Nat) (err : ErrBytes) (chk : HwCheck) (s : State) :
    Host.Outcome State Fault Refusal :=
  done (progAtomicAddRequest piste addr mask lanes island err chk) s

/-- The 4 KB granules of a stack. -/
def stackGranules (s : State) : Nat := hbmBytes s / (activeStacks s).length / 4096

/-- The erroneous words of a range of `n` words at address `a`, in ascending order. -/
def errorWords (a n : Nat) (errs : List (Nat × ErrBytes)) : List (Nat × ErrBytes) :=
  (List.range n).filterMap fun i => (errs.find? (·.1 == i)).map fun x => (a + 64 * i, x.2)

/-- GROOM_STEP: every word of the granule is checked; then the position moves on, and at the end of the stack a pass and its count of
uncorrectable words end. -/
def progGroomStep (st : Nat) (errs : List (Nat × ErrBytes)) : Prog :=
  .look fun s =>
    let h := rd s (.stk st) Reg.STK.GROOM_POS
    let pass := rd s (.stk st) Reg.STK.GROOM_PASSES
    whenP (admits s st && rd s (.stk st) Reg.STK.GROOM_CTRL_PAUSE == 0) (.seq
      (forEach (errorWords (granuleAddr s st h) 64 errs) fun w => readWordEcc w.1 4 (832 + st) w.2 (some pass))
      (if h + 1 < stackGranules s then wr (.stk st) Reg.STK.GROOM_POS (h + 1)
      else progs [
        wr (.stk st) Reg.STK.GROOM_POS 0, addSat (.stk st) Reg.STK.GROOM_PASSES 1,
        modStk fun k => { k with periodUes := smErase st k.periodUes }]))

/-- GROOM_STEP (R228): `errs` gives erroneous words of the granule by number with their wrong bytes. -/
def execGroomStep (st : Fin 12) (errs : List (Nat × ErrBytes)) (s : State) : Host.Outcome State Fault Refusal := done (progGroomStep st errs) s

/-- Spare rows left in a bank (R227). -/
def sparesLeft (s : State) (bank : Nat) : Nat := Config.spareRowsPerBank - smGet zeroDefault s.stk.spareRows bank

/-- The fewest spare rows left in any bank of a stack. -/
def fewestSpares (s : State) (st : Nat) : Nat := ((List.range 4096).map fun b => sparesLeft s (st * 4096 + b)).foldl min Config.spareRowsPerBank

/-- SPARES_LOW as the banks have it. -/
def showSpares (st : Nat) : Prog := .look fun s => wr (.stk st) Reg.STK.SPARES_LOW (satBits 8 (fewestSpares s st))

/-- A row leaves the repair list, and its errors are no longer remembered. -/
def unlistRow (row : Nat) : Prog :=
  modStk fun k => { k with repairList := k.repairList.filter (·.2 != row), rowSeen := k.rowSeen.filter (·.1 != row) }

/-- ROW_REPAIR: the oldest listed row of the stack is read with correction and mapped to a spare row of its bank (R226); a bank without a spare
leaves it in service, recorded (R227). -/
def progRowRepair (st : Nat) (errs : List (Nat × ErrBytes)) : Prog :=
  .look fun s =>
    match s.stk.repairList.find? (·.1 == st) with
    | none => .skip
    | some (_, row) =>
      let a := row * 1024
      let bank := bankOf s a
      whenP (admits s st)
        (if sparesLeft s bank = 0 then progs [
          unlistRow row,
          modStk fun k => { k with noSpare := smSet flagDefault k.noSpare st true },
          wr (.stk st) Reg.STK.ECC_STATUS_NO_SPARE_ROW 1,
          raise Code.STK_NO_SPARE_ROW (832 + st) 0 noLeg st [w64 a]]
        else progs [
          withFree fun v => forEach (errorWords a 16 errs) fun w => readWordEcc w.1 (v % 5) (832 + st) w.2 none,
          modStk fun k => { k with spareRows := smSet zeroDefault k.spareRows bank (smGet zeroDefault k.spareRows bank + 1) },
          addSat (.stk st) Reg.STK.ROWS_REPAIRED 1, showSpares st, unlistRow row,
          modFw fun f => { f with repairLog := f.repairLog ++ [(2, bank)] },
          trace 5 (832 + st), logOwn])

/-- ROW_REPAIR (R226): `errs` gives erroneous words of the row, of which row repair has no source code of its own in R223's table: the one it
records is free. -/
def execRowRepair (st : Fin 12) (errs : List (Nat × ErrBytes)) (s : State) : Host.Outcome State Fault Refusal := done (progRowRepair st errs) s

/-! ### Temperature -/

/-- A level with hysteresis: thresholds entered at and left below, ascending. A level is entered at its threshold and left below its exit. -/
def nextLevel : List (Nat × Nat) → Nat → Nat → Nat
  | [], _, _ => 0
  | (enter, leave) :: r, cur, t => (if enter ≤ t ∨ (0 < cur ∧ leave ≤ t) then 1 else 0) + nextLevel r (cur - 1) t

/-- THERM_N is low while any die sensor or any stack is at CRIT (R424). -/
def driveTherm : Prog :=
  .look fun s =>
    let die := (List.range 96).any fun i => bit (smGet zeroDefault s.pwr.dieLevel i) 2
    let stk := (activeStacks s).any fun st => rd s (.stk st) Reg.STK.STK_STATUS_THERM == 3
    modPins fun p => { p with thermN := !(die || stk) }

/-- The codes of the levels a stack enters (R247). -/
def stackCode : Nat → Nat
  | 1 => Code.STK_WARN
  | 2 => Code.STK_THROTTLE
  | _ => Code.STK_CRIT

/-- Whether the stack controllers stand in a core reset: from its start until firmware reports ready (R394, R431). -/
def stacksReset (s : State) : Bool := s.sec.everReady && s.sec.phase != .ready

/-- STACK_TEMP_READ: readings, the thermal level with its events, the snowplough contribution (R419) and the admission (R248) of the stack. A controller in core
reset takes no reading, and its page shows reset values (R431). -/
def progStackTempRead (st t : Nat) : Prog :=
  .look fun s =>
    let cur := rd s (.stk st) Reg.STK.STK_STATUS_THERM
    let lvl := nextLevel [(85, 82), (95, 92), (105, 102)] cur t
    let step := nextLevel [(95, 92), (98, 95), (101, 98)] (smGet zeroDefault s.pwr.stackContrib st / 4) t
    let contrib := if lvl = 3 then 15 else 4 * step
    let mode := rd s (.stk st) Reg.STK.THERM_CTRL_THERM_MODE
    whenP (!(s.stk.retired == some st) && s.pins.pwrOk && !stacksReset s) (progs [
      wr (.stk st) Reg.STK.TEMP_NOW (min 255 t), wr (.stk st) Reg.STK.TEMP_MAX (max (min 255 t) (rd s (.stk st) Reg.STK.TEMP_MAX)),
      wr .tlm Reg.TLM.STACK_TEMP (putBits (rd s .tlm Reg.TLM.STACK_TEMP (st / 4)) (8 * (st % 4)) 8 (min 255 t)) (st / 4),
      wr (.stk st) Reg.STK.STK_STATUS_THERM lvl,
      modPwr fun p => { p with stackContrib := smSet zeroDefault p.stackContrib st contrib },
      wr (.stk st) Reg.STK.STK_STATUS_ADMIT (if mode = 1 then 0 else step),
      forEach ((List.range 4).filter fun l => decide (cur < l) && decide (l ≤ lvl)) fun l => raise (stackCode l) (832 + st) 0 noLeg st [],
      driveTherm])

/-- STACK_TEMP_READ (R247). -/
def execStackTempRead (st : Fin 12) (t : Nat) (s : State) : Host.Outcome State Fault Refusal := done (progStackTempRead st t) s

end Sys2Proof.Machine
end

