-- ==== Sys2Proof/Machine/Reset.lean ====
section
/-! DEFINITION. The three reset levels, the exit of a core reset, and boot (R227, R275, R338, R375, R390 to R409, R431, R433). The resets change the
whole state directly; boot and the exit are programs. -/

namespace Sys2Proof.Machine

open Sys2Proof

/-! ### The register file at a reset (R431) -/

/-- The reset value of a word with some fields of its old value kept. -/
def keepFields (fs : List Fld) (a : Nat) (w : Word) : Word :=
  BitVec.ofNat 32 (fs.foldl (fun v f => putBits v f.lo f.w (bits w.toNat f.lo f.w)) (regReset a).toNat)

/-- The register file with every word recomputed. -/
def mapRegs (f : Nat → Word → Word) (m : SMap Word) : SMap Word :=
  m.filterMap fun e => if f e.1 e.2 = regReset e.1 then none else some (e.1, f e.1 e.2)

/-- Fields that a core reset keeps on a page it clears: the fences, the spare maps with their lock, and those counted since power-on. -/
def coreKept (pg : Page) (o : Nat) : List Fld :=
  (wordFields pg o).filter fun f => f.sincePowerOn || (match pg with
    | .mod 3 => f == Reg.MOD3.FENCED_LO || f == Reg.MOD3.FENCED_HI
    | .pst _ => f == Reg.PST.RUN_CTRL_FENCED || f == Reg.PST.RUN_CTRL_FENCE_PENDING || f == Reg.PST.RUN_CTRL_FENCE_CAUSE
    | .gate _ g => gateKind g == 1 && ((decide (0x220 ≤ o) && decide (o ≤ 0x230)) || f == Reg.GATEM.SPARE_LOCK_LOCK)
    | _ => false)

/-- A word after a core reset. -/
def coreWord (a : Nat) (w : Word) : Word :=
  match pageAt a with
  | none => w
  | some pg => if coreCleared pg then keepFields (coreKept pg (a % 4096)) a w else w

/-- Fields that a system reset keeps: DBG, RESET_CAUSE, those counted since power-on, and the unlock with its challenge and failures. -/
def systemKept (pg : Page) (o : Nat) : List Fld :=
  (wordFields pg o).filter fun f => f.sincePowerOn || (match pg with
    | .dbg => true
    | .rst => o == 0x100
    | .sec 0 => decide (0x400 ≤ o) && decide (o < 0x414)
    | _ => false)

/-- A word after a system reset. -/
def systemWord (a : Nat) (w : Word) : Word :=
  match pageAt a with
  | none => w
  | some pg => keepFields (systemKept pg (a % 4096)) a w

/-! ### Core reset -/

/-- Whether firmware restores a word after a core reset: the configuration of counters, pairs, proxies and barriers (R275). -/
def savedWord (a : Nat) : Bool :=
  match pageAt a with
  | some (.syn k) =>
    let o := a % 4096
    if k < 16 then decide (0x900 ≤ o) && decide (o < 0xD00) else if k = 16 then false else decide (0x100 ≤ o)
  | some (.bar _) => decide (0x100 ≤ a % 4096) && decide (a % 4096 < 0x900)
  | _ => false

/-- The RW fields of a saved word. -/
def configWord (a : Nat) (w : Word) : Word :=
  match pageAt a with
  | none => w
  | some pg => keepFields ((wordFields pg (a % 4096)).filter (·.acc == .rw)) a w

/-- The configuration saved from the register file. -/
def savedConfig (m : SMap Word) : SMap Word :=
  (m.filter fun e => savedWord e.1).filterMap fun e => if configWord e.1 e.2 = 0 then none else some (e.1, configWord e.1 e.2)

/-- The open granules written back (R230). -/
def closeGranules : List Granule → Mem → Mem
  | [], m => m
  | g :: r, m => closeGranules r
      { m with hbm := smSetList byteDefault m.hbm g.addr g.bytes, hbmPoison := smSet flagDefault m.hbmPoison (g.addr / 64) g.poison }

/-- Memories after a core reset: HBM as the stacks hold it, host memory and flash as they are, on-die data undefined, map slots empty (R394). -/
def coreMem (s : State) : Mem :=
  { closeGranules s.stk.granules s.mem with scratch := [], vcache := [], mapMem := [], scratchPoison := [], vcachePoison := [], vcacheSet := [] }

/-- Records and alarms kept by a core reset: those of the host interface, the Baond ports and the always-on block, which keep their state. -/
def coreRecs (r : RecSt) : RecSt :=
  let kept (i : Nat) : Bool := decide (844 ≤ i) && i != 852
  { srcQ := r.srcQ.filter fun e => kept e.1, alarmPend := r.alarmPend.filter fun e => kept (e.1 / 16), nextUid := r.nextUid, logQ := [],
    traceQ := [], traceSeq := 0, lost := 0, firstLost := 0 }

/-- Stacks after a core reset: nothing open or listed; spare rows, retirement and its marks stay. -/
def coreStk (k : StkSt) : StkSt :=
  { StkSt.empty with spareRows := k.spareRows, retireMark := k.retireMark, retired := k.retired, noSpare := k.noSpare }

/-- The host interface after a core reset: every accepted and uncompleted command completes with CMD_CORE_RESET (R375); the counters that a DETAIL shows
are 0 by then (R381). -/
def coreHost (s : State) : HostSt :=
  { s.host with
    accepted := []
    finished := s.host.finished ++ s.host.accepted.map fun c =>
      { cmd := c, status := Code.CMD_CORE_RESET, recUid := none, detail := earlyDetail { s with counts := [] } c }
    migrations := []
    sramFatal := false }

/-- The fabric after a core reset: links stay up; messages and requests are lost (R302). -/
def coreBnd (b : BndSt) : BndSt := { b with msgOut := [], inbox := [], tags := [], tagWait := [] }

/-- Firmware after a core reset: it keeps its repair log, what it knows of the pair, and the configuration it will restore (R275, R355). -/
def coreFw (s : State) : FwSt :=
  { FwSt.empty with
    mirSeq0 := s.fw.mirSeq0, mirSeq1 := s.fw.mirSeq1, partnerBase := s.fw.partnerBase, partnerSize := s.fw.partnerSize, liveHalf := s.fw.liveHalf
    tapWas := s.fw.tapWas, partnerTakeover := s.fw.partnerTakeover, opTime := s.fw.opTime, repairLog := s.fw.repairLog
    saved := if s.sec.phase = .ready then savedConfig s.regs else s.fw.saved }

/-- The copies of identities on pages a core reset clears (R430). -/
def corePorts (p : PortSt) : PortSt := { p with sigSel := [], countLatch := [], mapWindow := [] }

/-- The state that a core reset leaves, before its own registers are set (R394, R431). -/
def coreCleared' (s : State) : State :=
  { s with
    regs := mapRegs coreWord s.regs, mem := coreMem s, counts := [], sync := SyncSt.empty, recs := coreRecs s.recs, pistes := [], gates := []
    units := UnitSt.empty, runs := RunSt.empty, rgn := RgnSt.empty, mode := ModeSt.zero, layout := LayoutSt.zero, stk := coreStk s.stk
    host := coreHost s, bnd := coreBnd s.bnd, fw := coreFw s, ports := corePorts s.ports, pins := { s.pins with rstN := false }
    sec := { s.sec with phase := .held 2 } }

/-- Registers that a reset from RST_N sets (R397), with its count. -/
def resetMarks (level : Nat) (count : Fld) : Prog :=
  progs [wr .rst Reg.RST.RESET_CAUSE_PIN 1, wr .rst Reg.RST.RESET_CAUSE_LAST_LEVEL level, addSat .rst count 1, wr .rst Reg.RST.BOOT_STATUS_READY 0]

/-- What the reset does beside clearing: the cores' mailbox locks are released, and three STATUS flits with CORE_RESET go out on every UP port (R275,
R302, R394). The active stacks stand in self refresh until the exit; their pages show reset values the while (R431). -/
def coreMarks : Prog :=
  .look fun s => progs [
    resetMarks 2 Reg.RST.CORE_COUNT,
    forceLocksOf fun o => decide (4 ≤ o) && decide (o ≤ 7),
    forEach ((List.range 7).filter (portUp s)) fun p => repeatP 3 (sendStatus p)]

/-- A core reset (R391, R394). -/
def coreResetState (s : State) : State := coreMarks.run (coreCleared' s)

/-! ### System reset and power-on reset -/

/-- What every level of reset below power-on's keeps of the memories: host memory, its marks and the flash (R394). -/
def systemMem (m : Mem) : Mem := { Mem.empty with host := m.host, flash := m.flash, hostPoison := m.hostPoison, hostRefused := m.hostRefused }

/-- Firmware's repair log and operating time, in flash (R227, R335, R343, R403). -/
def flashFw (f : FwSt) : FwSt := { FwSt.empty with opTime := f.opTime, repairLog := f.repairLog }

/-- Stacks at a system reset: soft repairs and the marks of the repair log stay; which stack is retired is found at boot (R338). -/
def systemStk (k : StkSt) : StkSt := { StkSt.empty with spareRows := k.spareRows, retireMark := k.retireMark, noSpare := k.noSpare }

/-- The state that a system reset leaves, before its own registers are set (R394, R431). -/
def systemCleared (s : State) : State :=
  { State.reset with
    regs := mapRegs systemWord s.regs, mem := systemMem s.mem, stk := systemStk s.stk
    host := { HostSt.empty with msix := s.host.msix, snooped := s.host.snooped }
    bnd := { BndSt.empty with flitOut := s.bnd.flitOut }
    pins := { s.pins with rstN := false, aliveLow := false, thermN := true, smbAlertN := true }
    fuses := s.fuses, sec := { SecSt.cleared with phase := .held 1, bootLevel := 1, tokenWords := s.sec.tokenWords }
    fw := flashFw s.fw, freeCount := s.freeCount, pending := s.pending }

/-- A system reset (R391, R394). -/
def systemResetState (s : State) : State := (resetMarks 1 Reg.RST.SYSTEM_COUNT).run (systemCleared s)

/-- Power-on reset (R392, R394): everything but fuses, flash and host memory is cleared; PWR_OK is low. -/
def powerOnState (s : State) : State :=
  { State.reset with
    mem := systemMem s.mem, stk := { StkSt.empty with retireMark := s.stk.retireMark, noSpare := s.stk.noSpare }
    host := { HostSt.empty with msix := s.host.msix, snooped := s.host.snooped }
    bnd := { BndSt.empty with flitOut := s.bnd.flitOut }
    pins := { s.pins with pwrOk := false, aliveLow := false, thermN := true, smbAlertN := true }
    fuses := s.fuses, sec := { SecSt.cleared with phase := .off }
    fw := flashFw s.fw, freeCount := s.freeCount, pending := s.pending }

/-- POWER_ON_RESET (R392). -/
def execPowerOnReset (s : State) : Host.Outcome State Fault Refusal := .next (powerOnState s)

/-- Whether a low pulse of RST_N resets: not while PWR_OK is low, nor while boot still waits for the rising edge of a low that began before PWR_OK
rose (R449). -/
def resettable (s : State) : Bool := s.pins.pwrOk && !(s.sec.phase == .held 0 && !s.pins.rstN)

/-- Whether a boot after power-on is in progress: a pulse then restarts it at its own level (R393). -/
def powerOnBoot (s : State) : Bool :=
  s.sec.bootLevel == 0 && !s.sec.everReady &&
  (match s.sec.phase with | .held 0 => true | .booting => true | .hold => true | .waitHost => true | _ => false)

/-- A boot after power-on that a pulse restarts (R393): all that power-on clears is cleared again, and PIN is set with it; LAST_LEVEL records SYSTEM (log
entry 97). -/
def powerOnRestart (s : State) : State :=
  let t := powerOnState s
  (Prog.seq freshChallenge (resetMarks 1 Reg.RST.SYSTEM_COUNT)).run { t with
    pins := { t.pins with pwrOk := true, rstN := false }
    sec := { t.sec with phase := .held 0 } }

/-- A pulse of RST_N as long as a system reset, or one that acts as such (R391, R393). -/
def systemPulse (s : State) : State := if powerOnBoot s then powerOnRestart s else systemResetState s

/-- CORE_RESET: before firmware has first reported ready it acts as a system reset (R393). A ROM that has halted the exit of an earlier one waits for a
system reset, and stays halted (R396). -/
def execCoreReset (s : State) : Host.Outcome State Fault Refusal :=
  .next (
    if !resettable s then { s with pins := { s.pins with rstN := false } }
    else if !s.sec.everReady then systemPulse s
    else
      let t := coreResetState s
      if s.sec.phase = .halted then { t with sec := { t.sec with phase := .halted } } else t)

/-- SYSTEM_RESET (R391). -/
def execSystemReset (s : State) : Host.Outcome State Fault Refusal :=
  .next (if !resettable s then { s with pins := { s.pins with rstN := false } } else systemPulse s)

/-! ### What firmware does before it reports ready (R396, R401, R433) -/

/-- Every page of BAR0 (R426, R427). -/
def allPages : List Page :=
  ((List.range 5).map .mod) ++ [.rst, .pwr] ++ ((List.range 3).map .sec) ++ ((List.range 2).map .mbx) ++ ((List.range 19).map .syn) ++
  ((List.range 2).map .bar) ++ [.hif] ++ ((List.range 64).map .ring) ++ ((List.range 12).map .stk) ++ ((List.range 8).map .bnd) ++
  [.tlm, .mode, .gns] ++ ((List.range 2).map .rgn) ++
  ((List.range 64).flatMap fun p => .pst p :: .frn p :: (List.range 12).map (Page.gate p)) ++ [.dbg]

/-- The rights firmware sets (R433). -/
def firmwareRights : Page → Nat
  | .mod 0 => 0x3D5 | .mod 1 => 0x3DF | .mod 2 => 0x3DF | .mod 4 => 0x3F7 | .pwr => 0x3CF | .tlm => 0x3CF
  | .mbx 0 => 0x3FF | .mbx 1 => 0x3C5 | .sec 1 => 0x301 | .sec 2 => 0x304 | .ring _ => 0x3C3 | .dbg => 0x3C0 | _ => 0x3C7

/-- Firmware sets and locks PORT_ACCESS of every page (R433). -/
def setRights : Prog :=
  forEach allPages fun pg => .seq (wr pg Reg.COMMON.PORT_ACCESS_RIGHTS (firmwareRights pg)) (wr pg Reg.COMMON.PORT_ACCESS_LOCK 1)

/-- A binding set and valid. -/
def bindChan (c sender receiver : Nat) : Prog :=
  progs [wr (.mbx 1) Reg.MBX1.BIND_SENDER sender c, wr (.mbx 1) Reg.MBX1.BIND_RECEIVER receiver c, wr (.mbx 1) Reg.MBX1.BIND_VALID 1 c]

/-- The attestation channels (R410). -/
def setBindings : Prog := progs [bindChan 0 1 4, bindChan 1 4 1, bindChan 2 2 4, bindChan 3 4 2, wr (.mbx 1) Reg.MBX1.BIND_LOCK_LOCK 1]

/-- What firmware chooses, aligned down to a multiple of `u`, as an address of 48 bits. -/
def chosen (i u : Nat) : Nat := bits (Config.firmwareChoice i).toNat 0 48 / u * u

/-- The log, trace and sweep areas, locked (R348, R349, R340). -/
def setAreas : Prog :=
  progs [
    wr64 (.mod 3) Reg.MOD3.LOG_BASE_LO Reg.MOD3.LOG_BASE_HI (chosen 0 65536), wr64 (.mod 3) Reg.MOD3.TRACE_BASE_LO Reg.MOD3.TRACE_BASE_HI (chosen 1 65536),
    wr64 (.mod 3) Reg.MOD3.SWEEP_BASE_LO Reg.MOD3.SWEEP_BASE_HI (chosen 2 (2 ^ 20)), wr (.mod 3) Reg.MOD3.CFG_LOCK_LOCK 1]

/-- The HDM window, wholly within the capacity, locked, and its size in the CXL DVSEC range registers (R368). -/
def setHdm : Prog :=
  .look fun s =>
    let cap := hbmBytes s / 2 ^ 28
    let units := (Config.firmwareChoice 6).toNat % (min 1024 cap + 1)
    let base := (Config.firmwareChoice 5).toNat % (cap - units + 1) * 2 ^ 28
    progs [wr .hif Reg.HIF.HDM_HBM_BASE_LO (base / 2 ^ 28), wr .hif Reg.HIF.HDM_HBM_BASE_HI (base / 2 ^ 32), wr .hif Reg.HIF.HDM_UNITS units,
      wr .hif Reg.HIF.HDM_LOCK_LOCK 1, modHost fun h => { h with dvsecSize := units * 2 ^ 28 }]

/-- The node identity and torus size, locked; role B sets the pair bit (R296). -/
def setNode : Prog :=
  .look fun s =>
    let b := ofBool (rd s (.mod 4) Reg.MOD4.PAIR_STATUS_ROLE == 2)
    let d := (Config.firmwareChoice 8).toNat
    progs [wr (.bnd 7) Reg.BND7.NODE_ID (putBits (Config.firmwareChoice 7).toNat 15 1 b),
      wr (.bnd 7) Reg.BND7.DIMS_DX_M1 (bits d 0 5), wr (.bnd 7) Reg.BND7.DIMS_DY_M1 (bits d 5 5), wr (.bnd 7) Reg.BND7.DIMS_DZ_M1 (bits d 10 5),
      wr (.bnd 7) Reg.BND7.FAB_CTRL_LOCK 1]

/-- In a pair, the mirror area with its lock and a window over it; the state is START, and JOINED stays 0 (R355, R356, R362). -/
def setPair : Prog :=
  .look fun s => whenP (rd s (.mod 4) Reg.MOD4.PAIR_STATUS_ROLE != 0) (
    let base := chosen 3 65536
    let size := chosen 4 65536
    let w := (Config.firmwareChoice 9).toNat % 16
    progs [
      wr64 (.mod 4) Reg.MOD4.MIR_BASE_LO Reg.MOD4.MIR_BASE_HI base, wr64 (.mod 4) Reg.MOD4.MIR_SIZE_LO Reg.MOD4.MIR_SIZE_HI size,
      wr (.mod 4) Reg.MOD4.MIR_LOCK_LOCK 1,
      wr (.bnd 7) Reg.BND7.WINDOW_BASE_LO (base % 2 ^ 32) w, wr (.bnd 7) Reg.BND7.WINDOW_BASE_HI (base / 2 ^ 32) w,
      wr (.bnd 7) Reg.BND7.WINDOW_LENGTH_M1_LO ((size - 1) % 2 ^ 32) w, wr (.bnd 7) Reg.BND7.WINDOW_LENGTH_M1_HI ((size - 1) / 2 ^ 32) w,
      wr (.bnd 7) Reg.BND7.WINDOW_WR 1 w, wr (.bnd 7) Reg.BND7.WINDOW_VALID 1 w,
      setPairState 6])

/-- One entry of the repair log applied (R335, R336): a spare mapping (0), or a fence with its cause (1). -/
def restoreEntry (e : Nat × Nat) : Prog :=
  if e.1 = 0 then
    let col := e.2 % 256
    let spare := e.2 / 256 % 4
    let arr := e.2 / 1024 % 4
    let g := e.2 / 4096 % 12
    mapSpare (e.2 / 49152) g arr spare col
  else if e.1 = 1 then
    let p := e.2 / 256
    let f := if p < 32 then Reg.MOD3.FENCED_LO else Reg.MOD3.FENCED_HI
    progs [wr (.pst p) Reg.PST.RUN_CTRL_FENCED 1, wr (.pst p) Reg.PST.RUN_CTRL_FENCE_CAUSE (e.2 % 256),
      .look fun s => wr (.mod 3) f ((rd s (.mod 3) f).lor (2 ^ (p % 32)))]
  else .skip

/-- Firmware reports ready: READY, PAIR_ALIVE low unless software has released it, and the rings accept (R352, R375, R401). -/
def reportReady : Prog :=
  .look fun s => progs [
    modSec fun x => { x with phase := .ready, everReady := true },
    wr .rst Reg.RST.BOOT_STATUS_READY 1,
    modPins fun p => { p with aliveLow := rd s (.mod 4) Reg.MOD4.PAIR_CTRL_ALIVE_RELEASE == 0 },
    mirInterval, trace 8 852]

/-- STATUS with READY on every UP port; the port's own messages may go again (R302, R396). -/
def sendReady : Prog := .look fun s => forEach ((List.range 7).filter (portUp s)) fun p => .seq (sendStatus p) (pumpPort p)

/-! ### The strap (R398 to R400) -/

/-- The role of a code: 0 solo, 1 A, 2 B (R399). -/
def codeRole (c : Nat) : Nat := if 4 ≤ c ∧ c < 8 then 2 else if 8 ≤ c ∧ c < 12 then 1 else 0

/-- Whether a code boots from the host (R399, R400). -/
def codeHost (c : Nat) : Bool := c == 0 || c == 3 || (decide (4 ≤ c) && !bit c 1)

/-- Whether a code's rate is 106.25 Gb/s (R399). -/
def codeSlow (c : Nat) : Bool := decide (4 ≤ c) && !bit c 0

/-! ### Images (R404 to R407) -/

/-- The fixed rules of a header (R404). -/
def romHeaderOk (h : List Byte) : Bool :=
  leAt h 0 4 == 0x4E574954 && leAt h 4 4 == 1 && decide (0 < leAt h 8 4) && decide (leAt h 12 1 ≤ 64) && decide (8192 + leAt h 16 4 ≤ 7340032) &&
  (sliceBytes h 13 3).all (· == 0) && (sliceBytes h 0x185A 0x7A6).all (· == 0)

/-- The signed bytes of a header. -/
def signedBytes (h : List Byte) : List Byte := h.take 0x0E5A

/-- A public key against its fuse, and its signature (R406). -/
def keyOk (h : List Byte) (pub sig : Nat) (hash : List Byte) : Bool × Bool :=
  let k := sliceBytes h pub 1793
  (shake256 k 32 == hash, Config.falconVerify k (signedBytes h) (sliceBytes h sig 1280))

/-- The first check an image fails: 0 to 4 in the order of R406, 5 for R407; none where it passes. The fuses are those last read (R401 step 3, R396). -/
def romFails (s : State) (h body : List Byte) : Option Nat :=
  let f := s.sec.shadow
  let v := keyOk h 0x58 0x0E5A f.vendorKeyHash
  let o := keyOk h 0x0759 0x135A f.ownerKeyHash
  if !romHeaderOk h then some 0
  else if !v.1 then some 1
  else if !v.2 then some 2
  else if f.ownerEn && !(o.1 && o.2) then some 3
  else if shake256 body 64 != sliceBytes h 0x18 64 then some 4
  else if leAt h 12 1 < f.rollback then some 5
  else none

/-- The header of a flash slot (R403). -/
def slotHeader (s : State) (i : Nat) : List Byte := smList byteDefault s.mem.flash (i * 2 ^ 24) 8192

/-- The body of a flash slot, where its header's size is in range. -/
def slotBody (s : State) (i : Nat) : List Byte :=
  let n := leAt (slotHeader s i) 16 4
  if 8192 + n ≤ 7340032 then smList byteDefault s.mem.flash (i * 2 ^ 24 + 8192) n else []

/-- The slot state record's byte of a slot: bit 0 CONFIRMED, bits 2 and 1 TRIES (R405; the record's layout is the model's, log entry 29). -/
def slotState (s : State) (i : Nat) : Nat := (smGet byteDefault s.mem.flash (0x02000000 + i)).toNat

/-- A slot's state written. -/
def putSlotState (i v : Nat) : Prog := .prim (.bytes .flash (0x02000000 + i) [BitVec.ofNat 8 v])

/-- The slots the ROM tries, in order (R405). -/
def slotOrder (s : State) : List Nat :=
  (if leAt (slotHeader s 0) 8 4 < leAt (slotHeader s 1) 8 4 then [1, 0] else [0, 1]).filter fun i =>
    bit (slotState s i) 0 || bits (slotState s i) 1 2 != 3

/-- A failed check recorded, with the slot and the check (R406, R407); an image of the host has no slot, and the slot's item is free. -/
def imageFault (slot : Option Nat) (check : Nat) : Prog :=
  let code := if check = 5 then Code.SEC_ROLLBACK else Code.SEC_IMAGE
  match slot with
  | some i => raise code 852 0 noLeg 0 [w32 i, w32 (Config.imageCheck check).toNat]
  | none => withFree fun v => raise code 852 0 noLeg 0 [w32 v, w32 (Config.imageCheck check).toNat]

/-- An image accepted (R405, R408, R409): its registers, measurements 1 and 2, the alias key's seed, and a try of an unconfirmed slot. -/
def acceptImage (slot : Option Nat) (h body : List Byte) : Prog :=
  .look fun s =>
    let st := match slot with | some i => slotState s i | none => 0
    progs [
      wr (.sec 0) Reg.SEC0.IMAGE_VERSION (leAt h 8 4), wr (.sec 0) Reg.SEC0.IMAGE_ROLLBACK (leAt h 12 1),
      wr .rst Reg.RST.BOOT_STATUS_SLOT (slot.getD 0),
      (match slot with | some i => whenP (!bit st 0) (putSlotState i (putBits st 1 2 (min 3 (bits st 1 2 + 1)))) | none => .skip),
      extendMeas 1 h, extendMeas 2 body,
      modSec fun x => { x with
        digest := shake256 h 64, bootRollback := leAt h 12 1, fromHost := slot.isNone, confirmed := slot.isSome && bit st 0
        aliasSeed := shake256 (s.fuses.deviceSecret ++ nth x.meas 1 [] ++ nth x.meas 2 []) 48 }]

/-- The ROM waits for an image of the host, with SEC[0] open to it (R402). -/
def awaitHost : Prog :=
  .seq (wr (.sec 0) Reg.COMMON.PORT_ACCESS_RIGHTS 0x3C7) (modSec fun x => { x with phase := .waitHost, fromHost := true, hostImage := [] })

/-- No image passes: the ROM writes SEC_IMAGE, unless a check that failed has written it already (`told`), and waits for the host (R401 step 5). -/
def noImage (told : Bool) : Prog :=
  .seq (whenP (!told) (withFree fun v => raise Code.SEC_IMAGE 852 0 noLeg 0 [w32 v, w32 (Config.imageCheck 5).toNat])) awaitHost

/-- The slots in turn (R405); `told` tells that SEC_IMAGE has been written. -/
def trySlots : Bool → Bool → List Nat → Prog
  | _, told, [] => noImage told
  | again, told, i :: r => .look fun s =>
      .seq (whenP again (wr .rst Reg.RST.BOOT_STATUS_FALLBACK 1))
        (match romFails s (slotHeader s i) (slotBody s i) with
         | none => acceptImage (some i) (slotHeader s i) (slotBody s i)
         | some c => .seq (imageFault (some i) c) (trySlots true (told || c != 5) r))

/-- The image of the host, or the wait for it. -/
def tryHost : Prog :=
  .look fun s =>
    let img := s.sec.hostImage
    let h := padTo 8192 0 (img.take 8192)
    let body := (img.drop 8192).take (leAt h 16 4)
    if img.isEmpty then awaitHost
    else match romFails s h body with
      | none => acceptImage none h body
      | some c => progs [imageFault none c, wr (.sec 0) Reg.SEC0.HOST_IMG_CTRL_DONE 0, noImage (c != 5)]

/-! ### The boot steps (R401) -/

/-- Step 2: the strap, SMBus, and the mailboxes open (R398, R350, R433). -/
def bootStrap (samples : List Nat) : Prog :=
  let raw := padTo 8 255 samples
  let codes := raw.map strapCode
  let same := codes.all (· == nth codes 0 15)
  let code := if same then nth codes 0 15 else 15
  progs [
    wr .rst Reg.RST.STRAP_CODE code, wr .rst Reg.RST.STRAP_UNSTABLE (ofBool !same), wr .rst Reg.RST.STRAP_RAW (nth raw 7 255),
    wr (.mod 4) Reg.MOD4.PAIR_STATUS_ROLE (codeRole code), wr (.mod 4) Reg.MOD4.PAIR_STATUS_JOINED (ofBool (codeRole code == 0)),
    .look fun s => wr (.mod 4) Reg.MOD4.PAIR_STATUS_SENSE (ofBool s.pins.pairSense),
    wr (.mbx 0) Reg.COMMON.PORT_ACCESS_RIGHTS 0x3FF]

/-- The fuse shadow less DEVICE_SECRET, as bytes in the order of R407. -/
def fuseShadow (f : Fuses) : List Byte :=
  f.vendorKeyHash ++ f.ownerKeyHash ++ leBytes 1 (ofBool f.ownerEn) ++ leBytes 1 f.rollback ++ leBytes 8 f.serial ++ leBytes 1 (ofBool f.mfgClosed) ++
  leBytes 1 (ofBool f.debugDisable) ++ leBytes 1 (ofBool f.ordering)

/-- Step 3: the fuses and the identity page (R401, R435); a WF-T12-384 is solo (R3); the acting code is known. -/
def bootFuses : Prog :=
  .look fun s =>
    let f := s.fuses
    let c := actingCode s
    progs [
      modSec fun x => { x with shadow := f },
      wr (.sec 0) Reg.SEC0.FUSE_STATE_OWNER_EN (ofBool f.ownerEn), wr (.sec 0) Reg.SEC0.FUSE_STATE_MFG_CLOSED (ofBool f.mfgClosed),
      wr (.sec 0) Reg.SEC0.FUSE_STATE_DEBUG_DISABLE (ofBool f.debugDisable), wr (.sec 0) Reg.SEC0.FUSE_STATE_ORDERING (ofBool f.ordering),
      wr (.sec 0) Reg.SEC0.FUSE_STATE_ROLLBACK f.rollback,
      wr (.sec 0) Reg.SEC0.SERIAL_LO (f.serial % 2 ^ 32), wr (.sec 0) Reg.SEC0.SERIAL_HI (f.serial / 2 ^ 32),
      wr (.mod 0) Reg.MOD0.PART 0x12, wr (.mod 0) Reg.MOD0.STEPPING_MAJOR 2, wr (.mod 0) Reg.MOD0.STEPPING_MINOR 1,
      wr (.mod 0) Reg.MOD0.CONFIG_ORDERING (ofBool f.ordering), wr (.mod 0) Reg.MOD0.PISTES 64, wr (.mod 0) Reg.MOD0.ISLANDS 854,
      whenP (f.ordering && codeRole c != 0) (progs [
        wr (.mod 4) Reg.MOD4.PAIR_STATUS_ROLE 0, wr (.mod 4) Reg.MOD4.PAIR_STATUS_JOINED 1,
        raise Code.PAIR_ROLE_KIND 853 0 noLeg 0 []]),
      whenP (c == 0 || c == 3) (wr .rst Reg.RST.BOOT_STATUS_RECOVERY 1),
      whenP (c == 3) (wr .rst Reg.RST.STRAP_RESERVED_CODE 1)]

/-- Step 4: measurement 0; codes 1 and 2 hold here, with step 4 completed (R400). -/
def bootRom : Prog :=
  .look fun s =>
    let c := actingCode s
    progs [
      extendMeas 0 (Config.measure0 (rd s .rst Reg.RST.STRAP_CODE) (fuseShadow s.fuses)),
      whenP (c == 1 || c == 2) (progs [
        wr .rst Reg.RST.BOOT_STATUS_STEP 4,
        whenP (c == 2) (progs [wr .dbg Reg.DBG.HOLD_HELD 1, wr .dbg Reg.DBG.CP_STATE_HALTED ((rd s .dbg Reg.DBG.CP_STATE_HALTED).lor 1), showPc 0]),
        modSec fun x => { x with phase := .hold }])]

/-- Step 5: the image (R401, R402, R405). -/
def bootImage : Prog :=
  .look fun s =>
    if codeHost (actingCode s) || s.sec.fromHost then tryHost
    else trySlots false false (slotOrder s)

/-- Step 6: HBM is trained: a stack that fails or is marked is retired, two stop the boot (R338); stored row repairs are applied (R227). -/
def bootStacks (badStacks : List Nat) : Prog :=
  .look fun s =>
    let bad := (List.range 12).filter fun i => badStacks.contains i || smGet flagDefault s.stk.retireMark i
    match bad with
    | _ :: _ :: _ => .seq (raise Code.HBM_FATAL 852 0 noLeg 0 []) (modSec fun x => { x with phase := .halted })
    | _ => progs [
        modStk fun k => { k with
          retired := bad.head?
          spareRows := s.fw.repairLog.foldl (fun m e => if e.1 = 2 then smSet zeroDefault m e.2 (smGet zeroDefault m e.2 + 1) else m) [] },
        wr (.mod 0) Reg.MOD0.CONFIG_ACTIVE_STACKS (12 - bad.length), wr (.mod 0) Reg.MOD0.CONFIG_RETIRED_STACK (bad.head?.getD 0xFF),
        wr (.mod 0) Reg.MOD0.CONFIG_HBM_GB ((12 - bad.length) * (if s.fuses.ordering then 32 else 64)),
        forEach (List.range 12) fun st => .seq (wr (.stk st) Reg.STK.STK_STATUS_STATE (if bad.contains st then 3 else 1)) (showSpares st)]

/-- Step 7: links are trained at the strapped rate; a port without a peer stays in training. -/
def bootLinks (links : List (Option LinkRec)) : Prog :=
  .look fun s => forEach (List.range 7) fun p =>
    .seq (wr (.bnd p) Reg.BND.PORT_STATUS_RATE (ofBool (codeSlow (actingCode s))))
      (whenP (!idlePort s p) (match nth links p none with
        | some r => bringUp p r false
        | none => setPort p 1))

/-- Step 9: firmware restores its repair log, sets and locks what R401 and R433 name, extends measurement 3, confirms the slot (R405) and reports
ready. -/
def bootFirmware : Prog :=
  .look fun s => progs [
    forEach s.fw.repairLog restoreEntry,
    setRights, setBindings, setAreas, setHdm, setNode, setPair,
    .look fun t => extendMeas 3 (Config.measure3 (allPages.map firmwareRights ++
      ((List.range 32).map fun c => (regWord t (fldAddr (.mbx 1) Reg.MBX1.BIND_SENDER c)).toNat) ++ [ownNode t, (hdmWindow t).1, (hdmWindow t).2])),
    whenP (!s.sec.fromHost) (
      let i := rd s .rst Reg.RST.BOOT_STATUS_SLOT
      .seq (putSlotState i (putBits (slotState s i) 0 1 1)) (putSlotState (1 - i) (putBits (slotState s (1 - i)) 0 3 0))),
    modSec fun x => { x with confirmed := !x.fromHost },
    wr .rst Reg.RST.BOOT_STATUS_STEP 9,
    reportReady, sendReady]

/-- The boot steps that the ROM or firmware takes part in (R401). -/
def coreSteps : List Nat := [4, 5, 6, 9]

/-- A boot step taken once its predecessor is complete, while the boot goes on; one of the ROM or of firmware waits while a core is halted through the
debug port (R437). -/
def bootStep (n : Nat) (p : Prog) : Prog :=
  .look fun s => whenP (s.sec.phase == .booting && rd s .rst Reg.RST.BOOT_STATUS_STEP == n - 1 && (fwRuns s || !coreSteps.contains n))
    (.seq p (.look fun t => whenP (t.sec.phase == .booting) (wr .rst Reg.RST.BOOT_STATUS_STEP n)))

/-- Whether BOOT goes on: from the rising edge of RST_N after power-on or system reset, or once what it waited for has come. -/
def bootable (s : State) : Bool :=
  s.pins.pwrOk && s.pins.refclk && !s.sec.everReady &&
  (match s.sec.phase with | .held l => decide (l < 2) | .booting => true | .waitHost => !s.sec.hostImage.isEmpty | _ => false)

/-- BOOT: the steps that are not complete yet, up to ready or to the step that stops. `samples` are the strap readings, `fuseError` what step 3 finds,
`badStacks` the stacks that fail training, `links` the peers found at step 7, `lanes` and `speed` what the CXL link trains at. -/
def progBoot (samples : List Nat) (fuseError : Bool) (badStacks : List Nat) (links : List (Option LinkRec)) (lanes speed : Nat) : Prog :=
  .seq (modPins fun p => { p with rstN := true }) (.look fun s => whenP (bootable s) (progs [
    modSec fun x => { x with phase := .booting },
    bootStep 1 .skip,
    bootStep 2 (bootStrap samples),
    bootStep 3 (if fuseError then .seq (alarm 853 11) (modSec fun x => { x with phase := .halted }) else bootFuses),
    bootStep 4 bootRom,
    bootStep 5 bootImage,
    bootStep 6 (bootStacks badStacks),
    bootStep 7 (bootLinks links),
    bootStep 8 (hostLinkTrain lanes speed),
    bootStep 9 bootFirmware]))

/-- BOOT (R401). -/
def execBoot (samples : List Nat) (fuseError : Bool) (badStacks : List Nat) (links : List (Option LinkRec)) (lanes speed : Nat) (s : State) :
    Host.Outcome State Fault Refusal :=
  done (progBoot samples fuseError badStacks links lanes speed) s

/-! ### The exit of a core reset (R396) -/

/-- The check that the image reloaded fails: that of the slot booted, under R406 (0 to 4) or against the digest kept (6); none where it passes. An image the
host gave is not read again (log entry 12). -/
def reloadFails (s : State) : Option Nat :=
  let i := rd s .rst Reg.RST.BOOT_STATUS_SLOT
  let own := if shake256 (slotHeader s i) 64 == s.sec.digest then none else some 6
  if s.sec.fromHost then none
  else match romFails s (slotHeader s i) (slotBody s i) with
    | none => own
    | some c => if c = 5 then own else some c

/-- The check that the exit of a core reset fails on, where the flash does not read (`imageOk` false) that of the digest. -/
def exitFails (imageOk : Bool) (s : State) : Option Nat := if imageOk then reloadFails s else some 6

/-- CORE_RESET_EXIT: the image, self refresh left, what firmware restores, ready, and STATUS READY. A core halted through the debug port runs none of it
(R437). -/
def progCoreResetExit (imageOk : Bool) : Prog :=
  .seq (modPins fun p => { p with rstN := true }) (.look fun s =>
    whenP (s.pins.pwrOk && s.sec.everReady && fwRuns s && (s.sec.phase == .held 2 || s.sec.phase == .booting))
      (match exitFails imageOk s with
      | none => progs [
        forEach (List.range 12) fun st => .seq (wr (.stk st) Reg.STK.STK_STATUS_STATE (if s.stk.retired = some st then 3 else 1)) (showSpares st),
        setRights,
        forEach s.fw.saved fun e => .prim (.reg e.1 e.2),
        setAreas,
        reportReady, sendReady]
      | some c => .seq (raise Code.SEC_IMAGE 852 0 noLeg 0 [w32 (rd s .rst Reg.RST.BOOT_STATUS_SLOT), w32 (Config.imageCheck c).toNat])
        (modSec fun x => { x with phase := .halted })))

/-- CORE_RESET_EXIT (R396). -/
def execCoreResetExit (imageOk : Bool) (s : State) : Host.Outcome State Fault Refusal := done (progCoreResetExit imageOk) s

end Sys2Proof.Machine
end

