-- ==== Sys2Proof/Machine/Power.lean ====
section
/-! DEFINITION. Power sequencing, the reference clock, die sensors, rails and the power manager (R414 to R425, R446 to R450). -/

namespace Sys2Proof.Machine

open Sys2Proof

/-! ### Sequencing (R447 to R450) -/

/-- The module powered down: power-on reset, and every regulator off. -/
def offState (s : State) : State :=
  let t := powerOnState s
  { t with pins := { t.pins with regsOn := false } }

/-- PWR_EN_RISE: with standby present the rails ramp; once every rail has held its window (`railsHold`) PWR_OK rises and power-on reset ends, with a
fresh debug challenge (R412, R447); boot waits for RST_N if it is low (R449). A PWR_EN that is high already does not rise. -/
def progPwrEnRise (railsHold : Bool) : Prog :=
  .look fun s => whenP (s.pins.vsb && !s.pins.pwrEn) (progs [
    modPins fun p => { p with vin := true, pwrEn := true, regsOn := true },
    whenP railsHold (progs [
      modPins fun p => { p with pwrOk := true },
      modSec fun x => { x with phase := if s.pins.rstN then .booting else .held 0 },
      freshChallenge])])

/-- PWR_EN_RISE (R447). -/
def execPwrEnRise (railsHold : Bool) (s : State) : Host.Outcome State Fault Refusal := done (progPwrEnRise railsHold) s

/-- POWER_UP_TIMEOUT (R448): PWR_OK has not risen; every regulator is turned off. -/
def execPowerUpTimeout (s : State) : Host.Outcome State Fault Refusal :=
  done (whenP (s.pins.pwrEn && !s.pins.pwrOk) (modPins fun p => { p with regsOn := false })) s

/-- Power-down (R450). -/
def powerDownState (cause : DownCause) (s : State) : State :=
  let t := offState s
  match cause with
  | .pwrEn => { t with pins := { t.pins with pwrEn := false } }
  | .vinLimit => { t with pins := { t.pins with vin := false } }
  | .shutdown => t

/-- Whether VIN, in 10 mV, stands at a limit at which PWR_OK falls: below 38 V or above 60 V (R446). -/
def vinOut (v : Nat) : Bool := decide (v < 3800) || decide (6000 < v)

/-- POWER_DOWN (R450): `vin` is the voltage, in 10 mV, of a VIN that meets a limit of R446; one within them brings no power-down. -/
def execPowerDown (cause : DownCause) (s : State) (vin : Nat := 0) : Host.Outcome State Fault Refusal :=
  .next (if cause = .vinLimit ∧ vinOut vin = false then s else powerDownState cause s)

/-- VSB_APPLY (R447 step 1): the always-on block runs and watches PWR_EN; power-on reset stays held. -/
def execVsbApply (s : State) : Host.Outcome State Fault Refusal := done (modPins fun p => { p with vsb := true }) s

/-- VSB_LOSS (R446, R450): standby power, now at `mv` mV, has fallen below 10.8 V, so that every regulator stops and all state is lost. -/
def execVsbLoss (s : State) (mv : Nat := 0) : Host.Outcome State Fault Refusal :=
  let t := offState s
  .next (if mv < 10800 then { t with pins := { t.pins with vsb := false } } else s)

/-! ### The reference clock (R414, R416) -/

/-- A RAIL_FAULT record (R425). -/
def railRecord (item : Nat) : Prog :=
  progs [wr .pwr Reg.PWR.PWR_CHECK_RAIL 1, addSat .pwr Reg.PWR.RAIL_COUNT 1, raise Code.RAIL_FAULT 853 0 noLeg 0 [w32 item]]

/-- REFCLK_LOSS (R416). -/
def execRefclkLoss (s : State) : Host.Outcome State Fault Refusal :=
  done (whenP s.pins.refclk (.seq (modPins fun p => { p with refclk := false })
    (whenP s.pins.pwrOk (.seq (wr .pwr Reg.PWR.PWR_CHECK_REFCLK 1) (railRecord Config.refclkDetail.toNat))))) s

/-- REFCLK_RETURN (R416): the mark of the loss is cleared. -/
def execRefclkReturn (s : State) : Host.Outcome State Fault Refusal :=
  done (whenP (!s.pins.refclk) (.seq (modPins fun p => { p with refclk := true }) (wr .pwr Reg.PWR.PWR_CHECK_REFCLK 0))) s

/-- The frequency in kHz of a gate or piste-control island at a level (R415). -/
def levelKhz (l : Nat) : Nat := (600 - 30 * min 15 l) * 1000

/-- The piste whose snowplough level an island carries (R14, R417); none for the islands that keep their nominal clocks. -/
def leveledPiste (island : Nat) : Option Nat := if island < 768 then some (island / 12) else if island < 832 then some (island - 768) else none

/-- Whether an island's oscillator, locked to REFCLK, may measure so: within 0.5 % of the frequency of its level, as measured to within 0.05 % (R414); an
island of a fenced piste is stopped (R336). What the islands without levels run at the rules give as nominal alone, and nothing is asked of them. -/
def mayMeasure (s : State) (island khz : Nat) : Bool :=
  match leveledPiste island with
  | some p => !fenced s p &&
      (let f := levelKhz (smGet zeroDefault s.pwr.level p)
       decide (f * 99450 ≤ khz * 100000) && decide (khz * 100000 ≤ f * 100550))
  | none => true

/-- FREQUENCY_MEASURE (R414): the measurement that the island's duration counters use from then on. It takes 256 cycles of a running reference. -/
def execFrequencyMeasure (island khz : Nat) (s : State) : Host.Outcome State Fault Refusal :=
  done (whenP (decide (island < 854) && s.pins.pwrOk && s.pins.refclk && mayMeasure s island khz)
    (modPwr fun p => { p with freq := smSet zeroDefault p.freq island khz })) s

/-! ### Rails (R425) -/

/-- A rail's window, in its resolution. -/
def railWindow (r : Nat) : Nat × Nat :=
  if r = 0 then (4000, 5800) else if r ≤ 4 then (700, 850) else if r ≤ 8 then (800, 900) else if r ≤ 20 then (1000, 1100)
  else if r ≤ 22 then (750, 850) else (1710, 1890)

/-- A rail's reading shown. -/
def showRail (r v i : Nat) : Prog := .seq (wr .tlm Reg.TLM.RAIL_V (min 65535 v) r) (wr .tlm Reg.TLM.RAIL_I (min 65535 i) r)

/-- RAIL_FAULT: a rail that has stood at a voltage long enough: outside its window it is recorded once; inside, it may be recorded again. -/
def progRailFault (r v i : Nat) : Prog :=
  .look fun s =>
    let w := railWindow r
    let out := decide (v < w.1) || decide (w.2 < v)
    whenP s.pins.pwrOk (progs [
      showRail r v i,
      modPwr fun p => { p with railOut := smSet flagDefault p.railOut r out },
      whenP (out && !smGet flagDefault s.pwr.railOut r) (railRecord r)])

/-- RAIL_FAULT (R425): an input rail that has stood at a limit of R446 lets PWR_OK fall. -/
def execRailFault (rail : Fin 24) (v i : Nat) (s : State) : Host.Outcome State Fault Refusal :=
  .next (
    let t := (progRailFault rail v i).run s
    if s.pins.pwrOk && rail.val == 0 && vinOut v then powerDownState .vinLimit t else t)

/-! ### Policy (R418) -/

/-- The quarter of a piste or of a die sensor. -/
def quarterOf (i : Nat) : Nat := if i < 64 then i / 16 else (i - 64) / 8

/-- The throttle policy of a piste's applied epoch, bits [7:4] of its mode word. -/
def powerPolicy (s : State) (p : Nat) : Nat := bits (pisteOf s p).word 4 4

/-- The value most pistes of a quarter hold, of `n` values; ties go to the lower. -/
def votedValue (s : State) (q lo w : Nat) : Nat :=
  let held := (List.range 16).map fun i => bits (powerPolicy s (16 * q + i)) lo w
  ((List.range (2 ^ w)).foldl (fun (b : Nat × Nat) v => if b.2 < held.count v then (v, held.count v) else b) (0, 0)).1

/-- The throttle temperature of a quarter. -/
def dieTarget (s : State) (q : Nat) : Nat := nth [95, 90, 85, 100] (votedValue s q 2 2) 95

/-- The input cap in watts: the policy of the highest epoch applied by any unfenced piste. -/
def inputCap (s : State) : Nat :=
  let best := (unfenced s).foldl (fun (b : Option Nat) p => match b with
    | none => some p
    | some x => if epochOn s x < epochOn s p then some p else b) none
  match best with
  | some p => if bit (powerPolicy s p) 1 then rd s .pwr Reg.PWR.SOFT_CAP else 2400
  | none => 2400

/-! ### Die sensors (R424) -/

/-- What a reading does to a sensor: its levels and its contribution. -/
def dieReading (i t : Nat) : Prog :=
  .look fun s =>
    let was := smGet zeroDefault s.pwr.dieLevel i
    let target := dieTarget s (quarterOf i)
    let warn := decide (90 ≤ t) || (bit was 0 && decide (87 ≤ t))
    let thr := decide (target ≤ t) || (bit was 1 && decide (target ≤ t + 3))
    let crit := decide (110 ≤ t) || (bit was 2 && decide (105 ≤ t))
    let c := smGet zeroDefault s.pwr.dieContrib i
    let n := if t + 3 < target then smGet zeroDefault s.pwr.dieBelow i + 1 else 0
    let c' := if target < t then min 15 (c + 1) else if 10 ≤ n then c - 1 else c
    progs [
      wr .tlm Reg.TLM.DIE_TEMP (putBits (rd s .tlm Reg.TLM.DIE_TEMP (i / 4)) (8 * (i % 4)) 8 (min 255 t)) (i / 4),
      wr .tlm Reg.TLM.DIE_MAX (max (min 255 t) (rd s .tlm Reg.TLM.DIE_MAX)),
      modPwr fun p => { p with
        dieLevel := smSet zeroDefault p.dieLevel i (ofBool warn + 2 * ofBool thr + 4 * ofBool crit)
        dieContrib := smSet zeroDefault p.dieContrib i c'
        dieBelow := smSet zeroDefault p.dieBelow i (if 10 ≤ n then 0 else n) },
      whenP (warn && !bit was 0) (.seq (wr .pwr Reg.PWR.PWR_CHECK_DIE_WARN 1) (raiseSev 0 Code.DIE_THERMAL 853 0 noLeg 0 [] fun _ => .skip)),
      whenP (crit && !bit was 2) (.seq (wr .pwr Reg.PWR.PWR_CHECK_DIE_CRIT 1) (raiseSev 1 Code.DIE_THERMAL 853 0 noLeg 0 [] fun _ => .skip))]

/-- The readings of the 96 sensors, in order. -/
def progDieSensorRead (temps : List Nat) : Prog :=
  .look fun s => whenP s.pins.pwrOk (.seq (forEach ((temps.take 96).zipIdx) fun (x : Nat × Nat) => dieReading x.2 x.1) driveTherm)

/-- DIE_SENSOR_READ (R424): a sensor at SHUTDOWN powers the module down. -/
def execDieSensorRead (temps : List Nat) (s : State) : Host.Outcome State Fault Refusal :=
  .next (
    let t := (progDieSensorRead temps).run s
    if s.pins.pwrOk && (temps.take 96).any fun x => decide (125 ≤ x) then powerDownState .shutdown t else t)

/-! ### The power manager (R417, R421, R422) -/

/-- A meter's power in units of 0.1 mW: rail 0 reads 10 mV and 100 mA, the others 1 mV and 100 mA. -/
def railPower (rails : List (Nat × Nat)) (r : Nat) : Nat :=
  let x := nth rails r (0, 0)
  x.1 * x.2 * (if r = 0 then 10 else 1)

/-- The sum over rails. -/
def powerOf (rails : List (Nat × Nat)) (lo n : Nat) : Nat := ((List.range n).map fun i => railPower rails (lo + i)).sum

/-- One meter's evaluation: its bucket, its raise, and the evaluations since its last raise; powers in 0.1 mW, buckets in 10^-10 J. -/
def meter (bucket since p cap size fast : Nat) : Nat × Nat × Nat :=
  let b := bucket + p - cap
  if fast < p then (size, 2, 0)
  else if size ≤ b ∧ cap < p then (if 20 ≤ since + 1 then (b, 1, 0) else (b, 0, since + 1))
  else (b, 0, min 20 (since + 1))

/-- A piste's contributions of its own (R417). -/
def pisteLevel (s : State) (c p : Nat) : Nat :=
  let q := p / 16
  let edge := ((List.range 8).map fun k => smGet zeroDefault s.pwr.dieContrib (64 + 8 * q + k)).foldl max 0
  let stk := ((List.range 3).map fun k => if rd s (.stk (3 * q + k)) Reg.STK.THERM_CTRL_THERM_MODE = 0 then 0
    else smGet zeroDefault s.pwr.stackContrib (3 * q + k)).foldl max 0
  let crit := (List.range 96).any fun i => bit (smGet zeroDefault s.pwr.dieLevel i) 2
  if crit then 15
  else max (max (bits (rd s .pwr Reg.PWR.FLOOR) (4 * q) 4) c) (max (max (smGet zeroDefault s.pwr.dieContrib p) edge) stk)

/-- The levels computed for the unfenced pistes of a quarter, ascending; under GRAIN QUARTER all take the highest. -/
def quarterLevels (s : State) (c q : Nat) : List (Nat × Nat) :=
  let l := ((List.range 16).map (16 * q + ·)).filter (fun p => !fenced s p) |>.map fun p => (p, pisteLevel s c p)
  if votedValue s q 0 1 = 1 then
    let m := (l.map (·.2)).foldl max 0
    l.map fun x => (x.1, m)
  else l

/-- The levels of a quarter move: up one at once; down, a rise in frequency, one at a time every 20 evaluations and at most four pistes in 20. -/
def moveLevels : List (Nat × Nat) → Nat → PwrSt → PwrSt
  | [], _, w => w
  | (p, t) :: r, risen, w =>
    let cur := smGet zeroDefault w.level p
    if cur < t then moveLevels r risen { w with level := smSet zeroDefault w.level p (cur + 1) }
    else if t < cur ∧ smGet zeroDefault w.rise p = 0 ∧ risen < 4 then
      moveLevels r (risen + 1) { w with level := smSet zeroDefault w.level p (cur - 1), rise := smSet zeroDefault w.rise p 20 }
    else moveLevels r risen w

/-- The pistes of a quarter that rose in the last 20 evaluations. -/
def risenIn (w : PwrSt) (q : Nat) : Nat := ((List.range 16).filter fun i => smGet zeroDefault w.rise (16 * q + i) != 0).length

/-- An evaluation nearer to the next rise. -/
def coolRises (w : PwrSt) : PwrSt := { w with rise := w.rise.filterMap fun e => if e.2 ≤ 1 then none else some (e.1, e.2 - 1) }

/-- LEVEL as the levels stand. -/
def showLevels : Prog :=
  .look fun s => forEach (List.range 8) fun k =>
    wr .pwr Reg.PWR.LEVEL (((List.range 8).map fun i => smGet zeroDefault s.pwr.level (8 * k + i) * 2 ^ (4 * i)).sum) k

/-- POWER_EVALUATION: readings, buckets, the cap level with its record, and the levels of the pistes. While REFCLK is stopped every oscillator holds its last
control word, and no level moves (R416). -/
def progPowerEvaluation (rails : List (Nat × Nat)) : Prog :=
  .look fun s =>
    let pin := powerOf rails 0 1
    let pdie := powerOf rails 1 8
    let cap := inputCap s * 10000
    let a := meter s.pwr.bucketIn s.pwr.sinceIn pin cap 50000000000 29000000
    let d := meter s.pwr.bucketDie s.pwr.sinceDie pdie 13500000 10000000000 16000000
    let up := max a.2.1 d.2.1
    let c := rd s .pwr Reg.PWR.CAP_C
    let calm := decide (100 * pin < 95 * cap) && decide (100 * pdie < 95 * 13500000)
    let under := if calm then min 1000 (s.pwr.under + 1) else 0
    let fall := up == 0 && decide (0 < c) && decide (1000 ≤ under) && decide (1000 ≤ s.pwr.sinceFall + 1)
    let c' := if 0 < up then min 15 (c + up) else if fall then c - 1 else c
    let fast := if a.2.1 = 2 ∨ d.2.1 = 2 then 0 else min 1000 (s.pwr.sinceFast + 1)
    whenP s.pins.pwrOk (progs [
      forEach (List.range 24) fun r => showRail r (nth rails r (0, 0)).1 (nth rails r (0, 0)).2,
      wr .tlm Reg.TLM.P_IN (min 65535 (pin / 10000)), wr .tlm Reg.TLM.P_DIE (min 65535 (pdie / 10000)),
      wr .tlm Reg.TLM.P_HBM (min 65535 (powerOf rails 9 12 / 10000)),
      modPwr fun w => { w with
        bucketIn := a.1, bucketDie := d.1, sinceIn := a.2.2, sinceDie := d.2.2, under := under, sinceFast := fast
        sinceFall := if fall then 0 else min 1000 (w.sinceFall + 1) },
      wr .pwr Reg.PWR.BUCKET_IN (min 65535 (a.1 / 10000000)), wr .pwr Reg.PWR.BUCKET_DIE (min 65535 (d.1 / 10000000)),
      wr .pwr Reg.PWR.CAP_C c', wr .pwr Reg.PWR.CAP_FAST (ofBool (decide (fast < 1000))),
      whenP (c == 0 && c' != 0) (progs [
        wr .pwr Reg.PWR.PWR_CHECK_CAP_ACTIVE 1, addSat .pwr Reg.PWR.CAP_COUNT 1,
        raise Code.POWER_CAP 853 0 noLeg 0 [w32 (pin / 10000), w32 (pdie / 10000)]]),
      modPwr fun w => if s.pins.refclk then (List.range 4).foldl (fun x q => moveLevels (quarterLevels s c' q) (risenIn x q) x) (coolRises w) else coolRises w,
      showLevels])

/-- POWER_EVALUATION (R422): `rails` gives each rail's voltage and current in its resolution. -/
def execPowerEvaluation (rails : List (Nat × Nat)) (s : State) : Host.Outcome State Fault Refusal := done (progPowerEvaluation rails) s

end Sys2Proof.Machine
end

