-- ==== Sys2Proof/Machine/Dispatch.lean ====
section
/-! DEFINITION. The effect of each command on everything but the queue: one arm a constructor. -/

namespace Sys2Proof.Machine

open Sys2Proof

/-- The effect of a command. -/
def exec (i : Instr) (s : State) : Host.Outcome State Fault Refusal :=
  match i with
  | .loadMap r addr space slot mask => Sys2Proof.Machine.execLoadMap r addr space slot mask s
  | .run r mask slot epoch iter ram => Sys2Proof.Machine.execRun r mask slot epoch iter ram s
  | .copy r src dst len srcSpace dstSpace => Sys2Proof.Machine.execCopy r src dst len srcSpace dstSpace s
  | .fill r dst len space pattern => Sys2Proof.Machine.execFill r dst len space pattern s
  | .modeChange r epoch word => Sys2Proof.Machine.execModeChange r epoch word s
  | .layoutChange r epoch relayout slot mask iter => Sys2Proof.Machine.execLayoutChange r epoch relayout slot mask iter s
  | .snapshotSave r space mask addr len => Sys2Proof.Machine.execSnapshotSave r space mask addr len s
  | .snapshotRestore r space mask addr len => Sys2Proof.Machine.execSnapshotRestore r space mask addr len s
  | .tableMigrate r region table tier row offset newSlot => Sys2Proof.Machine.execTableMigrate r region table tier row offset newSlot s
  | .fence r scope => Sys2Proof.Machine.execFence r scope s
  | .signal r counter round amount => Sys2Proof.Machine.execSignal r counter round amount s
  | .wait r counter target limit core => Sys2Proof.Machine.execWait r counter target limit s core
  | .flush r off len => Sys2Proof.Machine.execFlush r off len s
  | .sqTailDoorbell id r tail => Sys2Proof.Machine.execSqTailDoorbell id r tail s
  | .descriptorAccept r readFails => Sys2Proof.Machine.execDescriptorAccept r readFails s
  | .commandCompletion r elapsedNs writeFails => Sys2Proof.Machine.execCommandCompletion r elapsedNs writeFails s
  | .cqHeadWrite id r head => Sys2Proof.Machine.execCqHeadWrite id r head s
  | .ringEnable id r v => Sys2Proof.Machine.execRingEnable id r v s
  | .ringAbort id r v => Sys2Proof.Machine.execRingAbort id r v s
  | .matmul p m chk ram => Sys2Proof.Machine.execMatmul p m chk ram s
  | .matmulInspect p m chk ram => Sys2Proof.Machine.execMatmulInspect p m chk ram s
  | .attend p a chk ram => Sys2Proof.Machine.execAttend p a chk ram s
  | .attendPaged p a chk ram => Sys2Proof.Machine.execAttendPaged p a chk ram s
  | .attendBwd p a chk ram => Sys2Proof.Machine.execAttendBwd p a chk ram s
  | .kvAppend p a ram => Sys2Proof.Machine.execKvAppend p a ram s
  | .ropeLoad p a ram => Sys2Proof.Machine.execRopeLoad p a ram s
  | .rotate p a ram => Sys2Proof.Machine.execRotate p a ram s
  | .elemwise p v chk ram => Sys2Proof.Machine.execElemwise p v chk ram s
  | .reduceVector p v chk ram => Sys2Proof.Machine.execReduceVector p v chk ram s
  | .norm p v chk ram => Sys2Proof.Machine.execNorm p v chk ram s
  | .smNormalise p v chk ram => Sys2Proof.Machine.execSmNormalise p v chk ram s
  | .smMerge p v chk ram => Sys2Proof.Machine.execSmMerge p v chk ram s
  | .kl p v chk ram => Sys2Proof.Machine.execKl p v chk ram s
  | .optUpdate p v chk ram => Sys2Proof.Machine.execOptUpdate p v chk ram s
  | .convert p v chk ram => Sys2Proof.Machine.execConvert p v chk ram s
  | .compress24 p v chk ram => Sys2Proof.Machine.execCompress24 p v chk ram s
  | .cacheFill p v chk ram => Sys2Proof.Machine.execCacheFill p v chk ram s
  | .cacheSpill p v chk ram => Sys2Proof.Machine.execCacheSpill p v chk ram s
  | .sketch p v chk ram => Sys2Proof.Machine.execSketch p v chk ram s
  | .sample p ram => Sys2Proof.Machine.execSample p ram s
  | .gather p ram => Sys2Proof.Machine.execGather p ram s
  | .scatterAdd p chk ram => Sys2Proof.Machine.execScatterAdd p chk ram s
  | .aggregate p chk ram => Sys2Proof.Machine.execAggregate p chk ram s
  | .embGather p ram => Sys2Proof.Machine.execEmbGather p ram s
  | .embScatter p chk ram => Sys2Proof.Machine.execEmbScatter p chk ram s
  | .embRefresh p ram => Sys2Proof.Machine.execEmbRefresh p ram s
  | .store p ram => Sys2Proof.Machine.execStore p ram s
  | .atomicAdd p ram => Sys2Proof.Machine.execAtomicAdd p ram s
  | .reduce p chk ram => Sys2Proof.Machine.execReduce p chk ram s
  | .normPack p ram => Sys2Proof.Machine.execNormPack p ram s
  | .normUnpack p ram => Sys2Proof.Machine.execNormUnpack p ram s
  | .normReturn p ram => Sys2Proof.Machine.execNormReturn p ram s
  | .gatherShard p ram => Sys2Proof.Machine.execGatherShard p ram s
  | .offload p ram => Sys2Proof.Machine.execOffload p ram s
  | .kvSend p ram => Sys2Proof.Machine.execKvSend p ram s
  | .stageSend p ram => Sys2Proof.Machine.execStageSend p ram s
  | .legSignal p g => Sys2Proof.Machine.execLegSignal p g s
  | .pisteBoundary p => Sys2Proof.Machine.execPisteBoundary p s
  | .runStart n => Sys2Proof.Machine.execRunStart n s
  | .runEnd p => Sys2Proof.Machine.execRunEnd p s
  | .runModeStall n => Sys2Proof.Machine.execRunModeStall n s
  | .modeStall => Sys2Proof.Machine.execModeStall s
  | .relayoutStart => Sys2Proof.Machine.execRelayoutStart s
  | .layoutStall => Sys2Proof.Machine.execLayoutStall s
  | .staleReplay n => Sys2Proof.Machine.execStaleReplay n s
  | .forerunnerFetch p f ram => Sys2Proof.Machine.execForerunnerFetch p f s ram
  | .forerunnerWriteback p ram => Sys2Proof.Machine.execForerunnerWriteback p s ram
  | .waitExpiry island queue => Sys2Proof.Machine.execWaitExpiry island queue s
  | .fifoStallExpiry p g upstream => Sys2Proof.Machine.execFifoStallExpiry p g upstream s
  | .stageTimeout p f => Sys2Proof.Machine.execStageTimeout p f s
  | .reduceCloseLimit p => Sys2Proof.Machine.execReduceCloseLimit p s
  | .datapathGate p g => Sys2Proof.Machine.execDatapathGate p g s
  | .signalApply ram => Sys2Proof.Machine.execSignalApply s ram
  | .sigGo id amount => Sys2Proof.Machine.execSigGo id amount s
  | .zero id v => Sys2Proof.Machine.execZero id v s
  | .counterCfgWrite id counter v => Sys2Proof.Machine.execCounterCfgWrite id counter v s
  | .pairEntryWrite id e high v => Sys2Proof.Machine.execPairEntryWrite id e high v s
  | .participantsWrite id b v => Sys2Proof.Machine.execParticipantsWrite id b v s
  | .barrierReset id v => Sys2Proof.Machine.execBarrierReset id v s
  | .synCountRead id counter size => Sys2Proof.Machine.execSynCountRead id counter s size
  | .regionCommit id v => Sys2Proof.Machine.execRegionCommit id v s
  | .wsetWrite id w v => Sys2Proof.Machine.execWsetWrite id w v s
  | .publish id v => Sys2Proof.Machine.execPublish id v s
  | .mbxLockRead id c off size => Sys2Proof.Machine.execMbxLockRead id c s off size
  | .mbxLockRelease id c v => Sys2Proof.Machine.execMbxLockRelease id c v s
  | .mbxDoorbell id c v => Sys2Proof.Machine.execMbxDoorbell id c v s
  | .mbxDataRead id c j ecc off size => Sys2Proof.Machine.execMbxDataRead id c j ecc s off size
  | .mbxStatusRead id c off size => Sys2Proof.Machine.execMbxStatusRead id c s off size
  | .mbxForce id v => Sys2Proof.Machine.execMbxForce id v s
  | .bindWrite id c v => Sys2Proof.Machine.execBindWrite id c v s
  | .report q how => Sys2Proof.Machine.execReport q s how
  | .aliasCert q how => Sys2Proof.Machine.execAliasCert q s how
  | .deviceCert q how => Sys2Proof.Machine.execDeviceCert q s how
  | .extend q how => Sys2Proof.Machine.execExtend q s how
  | .ownerKey q how => Sys2Proof.Machine.execOwnerKey q s how
  | .frTailWrite id v => Sys2Proof.Machine.execFrTailWrite id v s
  | .frSelectWrite id v ecc => Sys2Proof.Machine.execFrSelectWrite id v ecc s
  | .dropClear id v => Sys2Proof.Machine.execDropClear id v s
  | .faultFirstRead id page off size reg bar => Sys2Proof.Machine.execFaultFirstRead id page s off size reg bar
  | .countClear id page v => Sys2Proof.Machine.execCountClear id page v s
  | .eventEnableWrite id page v => Sys2Proof.Machine.execEventEnableWrite id page v s
  | .portAccessWrite id page v => Sys2Proof.Machine.execPortAccessWrite id page v s
  | .spareMapWrite id p m reg v => Sys2Proof.Machine.execSpareMapWrite id p m reg v s
  | .dropCtrlClear id p v x => Sys2Proof.Machine.execDropCtrlClear id p v x s
  | .chanReset id p v => Sys2Proof.Machine.execChanReset id p v s
  | .groomPause id st v => Sys2Proof.Machine.execGroomPause id st v s
  | .maxClear id st v => Sys2Proof.Machine.execMaxClear id st v s
  | .dieMaxClear id v => Sys2Proof.Machine.execDieMaxClear id v s
  | .tlmSnap id v => Sys2Proof.Machine.execTlmSnap id v s
  | .softCapWrite id v => Sys2Proof.Machine.execSoftCapWrite id v s
  | .retrain id port v => Sys2Proof.Machine.execRetrain id port v s
  | .aliveRelease id v => Sys2Proof.Machine.execAliveRelease id v s
  | .snapNow id => Sys2Proof.Machine.execSnapNow id s
  | .endTakeover id regAck => Sys2Proof.Machine.execEndTakeover id regAck s
  | .join id => Sys2Proof.Machine.execJoin id s
  | .startAlone id => Sys2Proof.Machine.execStartAlone id s
  | .rollbackCommit id v => Sys2Proof.Machine.execRollbackCommit id v s
  | .hostImgGo id readFails => Sys2Proof.Machine.execHostImgGo id readFails s
  | .dbgToken last => Sys2Proof.Machine.execDbgToken last s
  | .dbgRelock id v => Sys2Proof.Machine.execDbgRelock id v s
  | .holdContinue id => Sys2Proof.Machine.execHoldContinue id s
  | .cpHalt id v => Sys2Proof.Machine.execCpHalt id v s
  | .cpStep id v => Sys2Proof.Machine.execCpStep id v s
  | .registerWrite id addr size v bar => Sys2Proof.Machine.execRegisterWrite id addr size v s bar
  | .smbusTransaction pecOk isWrite off v ecc dev => Sys2Proof.Machine.execSmbusTransaction pecOk isWrite off v s ecc dev
  | .flitReceive port flit => Sys2Proof.Machine.execFlitReceive port flit s
  | .idleAck port => Sys2Proof.Machine.execIdleAck port s
  | .keepalive port => Sys2Proof.Machine.execKeepalive port s
  | .linkSilent port => Sys2Proof.Machine.execLinkSilent port s
  | .lossOfSignal port => Sys2Proof.Machine.execLossOfSignal port s
  | .retrainRetry port peer => Sys2Proof.Machine.execRetrainRetry port peer s
  | .portBringup port peer => Sys2Proof.Machine.execPortBringup port peer s
  | .laneFailure port lane => Sys2Proof.Machine.execLaneFailure port lane s
  | .lane port confirm lane seq => Sys2Proof.Machine.execLane port confirm lane seq s
  | .peerCoreReset port => Sys2Proof.Machine.execPeerCoreReset port s
  | .statusReady port peer => Sys2Proof.Machine.execStatusReady port peer s
  | .messageRoute msg => Sys2Proof.Machine.execMessageRoute msg s
  | .syncSignalMessage port msg => Sys2Proof.Machine.execSyncSignalMessage port msg s
  | .kvWrite port msg => Sys2Proof.Machine.execKvWrite port msg s
  | .reducePartial port msg => Sys2Proof.Machine.execReducePartial port msg s
  | .arrivalMark port msg => Sys2Proof.Machine.execArrivalMark port msg s
  | .finalAdd port msg adders => Sys2Proof.Machine.execFinalAdd port msg s adders
  | .put port msg => Sys2Proof.Machine.execPut port msg s
  | .get port msg => Sys2Proof.Machine.execGet port msg s
  | .atomicAddMessage port msg adders => Sys2Proof.Machine.execAtomicAddMessage port msg s adders
  | .regRead port msg ecc => Sys2Proof.Machine.execRegRead port msg s ecc
  | .regWrite port msg => Sys2Proof.Machine.execRegWrite port msg s
  | .mailWake port msg => Sys2Proof.Machine.execMailWake port msg s
  | .mirrorWrite port msg => Sys2Proof.Machine.execMirrorWrite port msg s
  | .remoteResponse port msg => Sys2Proof.Machine.execRemoteResponse port msg s
  | .nak port msg => Sys2Proof.Machine.execNak port msg s
  | .peerTimeout tag => Sys2Proof.Machine.execPeerTimeout tag s
  | .hbmAccess addr isWrite data island source err => Sys2Proof.Machine.execHbmAccess addr isWrite data island source err s
  | .atomicAddRequest piste addr mask lanes island err chk => Sys2Proof.Machine.execAtomicAddRequest piste addr mask lanes island err chk s
  | .groomStep st errs => Sys2Proof.Machine.execGroomStep st errs s
  | .rowRepair st errs => Sys2Proof.Machine.execRowRepair st errs s
  | .stackTempRead st t => Sys2Proof.Machine.execStackTempRead st t s
  | .dieSensorRead temps => Sys2Proof.Machine.execDieSensorRead temps s
  | .powerEvaluation rails => Sys2Proof.Machine.execPowerEvaluation rails s
  | .frequencyMeasure island khz => Sys2Proof.Machine.execFrequencyMeasure island khz s
  | .railFault rail volts amps => Sys2Proof.Machine.execRailFault rail volts amps s
  | .refclkLoss => Sys2Proof.Machine.execRefclkLoss s
  | .pwrEnRise railsHold => Sys2Proof.Machine.execPwrEnRise railsHold s
  | .powerUpTimeout => Sys2Proof.Machine.execPowerUpTimeout s
  | .powerDown cause vin => Sys2Proof.Machine.execPowerDown cause s vin
  | .powerOnReset => Sys2Proof.Machine.execPowerOnReset s
  | .coreReset => Sys2Proof.Machine.execCoreReset s
  | .systemReset => Sys2Proof.Machine.execSystemReset s
  | .coreResetExit imageOk => Sys2Proof.Machine.execCoreResetExit imageOk s
  | .boot samples fuseError badStacks links lanes speed => Sys2Proof.Machine.execBoot samples fuseError badStacks links lanes speed s
  | .cxlLinkTrain lanes speed => Sys2Proof.Machine.execCxlLinkTrain lanes speed s
  | .cxlLinkDown => Sys2Proof.Machine.execCxlLinkDown s
  | .cxlMemRequest isWrite off data => Sys2Proof.Machine.execCxlMemRequest isWrite off data s
  | .h2dSnoop addr => Sys2Proof.Machine.execH2dSnoop addr s
  | .hdmCommit units => Sys2Proof.Machine.execHdmCommit units s
  | .faultRecordArrival island => Sys2Proof.Machine.execFaultRecordArrival island s
  | .alarmIncrement island cls => Sys2Proof.Machine.execAlarmIncrement island cls s
  | .traceWrite => Sys2Proof.Machine.execTraceWrite s
  | .logWrite => Sys2Proof.Machine.execLogWrite s
  | .sweepCheck p g result => Sys2Proof.Machine.execSweepCheck p g result s
  | .fallback => Sys2Proof.Machine.execFallback s
  | .mirrorSnapshot holdUs => Sys2Proof.Machine.execMirrorSnapshot holdUs s
  | .pairSenseChange level => Sys2Proof.Machine.execPairSenseChange level s
  | .pairBringup peer partnerTakeover mirBase mirSize seq0 seq1 => Sys2Proof.Machine.execPairBringup peer partnerTakeover mirBase mirSize s seq0 seq1
  | .pairTakeover => Sys2Proof.Machine.execPairTakeover s
  | .tableMigrateCopy differs => Sys2Proof.Machine.execTableMigrateCopy differs s
  | .refclkReturn => Sys2Proof.Machine.execRefclkReturn s
  | .vsbApply => Sys2Proof.Machine.execVsbApply s
  | .vsbLoss mv => Sys2Proof.Machine.execVsbLoss s mv
  | .atsInvalidation page count refuse => Sys2Proof.Machine.execAtsInvalidation page count refuse s

end Sys2Proof.Machine
end

