-- ==== Sys2Proof/Safety.lean ====
section
/-! DEFINITION. What a safe run is, and the terms the statements use: accesses that are let in, commands that stand first in their ring, messages
that reach this node, what has finished, and what a change leaves alone. -/

namespace Sys2Proof.Machine

open Sys2Proof

/-- A step that neither faults nor refuses. -/
def Safe (s : State) : Prop := ∃ t, step s = .next t

/-! ### Accesses -/

/-- A write of a register word that the port, the rights, the reset state and the unit's state all let in (R387, R431, R432); a `live` register
is taken by a stopped unit too. -/
def LetIn (s : State) (id : Ident) (a : Nat) (live : Bool) : Prop :=
  ∃ pg, pageAt a = some pg ∧ answers s id pg = true ∧ allowed s id pg (a % 4096) true = true ∧ closed s id pg = false ∧
    (live = true ∨ a % 4096 < 0x100 ∨ offline s pg = false)

/-- A read of a register word that the port and the rights let in (R387). -/
def LetRead (s : State) (id : Ident) (a : Nat) : Prop := ∃ pg, pageAt a = some pg ∧ answers s id pg = true ∧ allowed s id pg (a % 4096) false = true

/-- An access that the port takes and the rights refuse (R387). -/
def Refused (s : State) (id : Ident) (a : Nat) (write : Bool) : Prop :=
  ∃ pg, pageAt a = some pg ∧ answers s id pg = true ∧ allowed s id pg (a % 4096) write = false

/-- What an identity's port has returned to its last read. -/
def returned (t : State) (id : Ident) : Nat := smGet zeroDefault t.ports.response (identCode id)

/-- Only words of the register file at the addresses of a list have changed, and nothing beside the register file. -/
def OnlyRegs (s t : State) (l : List Nat) : Prop := t = { s with regs := t.regs } ∧ ∀ a, a ∉ l → regWord t a = regWord s a

/-- Only words of the register file at the addresses of a list have changed; what else has, the statement says. -/
def RegsKept (s t : State) (l : List Nat) : Prop := ∀ a, a ∉ l → regWord t a = regWord s a

/-! ### Memories -/

/-- The byte of HBM (space 0) or of host memory (space 1) at an address. -/
def byteAt (s : State) (space a : Nat) : Byte := if space = 0 then hbmByte s a else hostByte s a

/-- No granule of a range stands open in an atomic-add unit (R230). -/
def NoneOpen (s : State) (a n : Nat) : Prop := ∀ i, i < n → openAt s (a + i) = none

/-! ### Commands of the rings -/

/-- The command that a ring starts next has the body given, and firmware is there to carry it out where it must (R373, R437). -/
def Awaits (s : State) (r : Nat) (b : CmdBody) (c : Cmd) : Prop := startable s r = some c ∧ c.body = some b ∧ (fwRuns s || !byFirmware b) = true

/-- The state once a command has been handed to the block that carries it out. -/
def begun (s : State) (c : Cmd) : State := (markStarted c.id).run s

/-- A ring's long command of a body begins (place 0), or goes on from place `o`: the bytes moved, or the pistes done (R383). -/
def Steps (s : State) (r : Nat) (b : CmdBody) (c : Cmd) (o : Nat) : Prop :=
  (underWay s r b = none ∧ Awaits s r b c ∧ o = 0) ∨ (underWay s r b = some c ∧ o = c.part.moved)

/-- A long command has come so far and waits for its next step. -/
def GoesOn (t : State) (c : Cmd) (part : CmdPart) : Prop := { c with started := true, part := part } ∈ t.host.accepted

/-- A command has finished with a status and a detail, and its completion record waits to be written. -/
def HasFinished (t : State) (c : Cmd) (status detail : Nat) : Prop := ∃ d ∈ t.host.finished, d.cmd.id = c.id ∧ d.status = status ∧ d.detail = detail

/-! ### Fault records -/

/-- A record of a code waits at its island for the collector, or was dropped there because two records were waiting. -/
def HasRecord (t : State) (island code : Nat) : Prop :=
  let q := smGet (fun _ => SrcQueue.empty) t.recs.srcQ island
  (∃ x ∈ q.recs, x.1.code = code) ∨ 0 < q.dropped

/-! ### Legs -/

/-- Translation refuses no host page (R238). -/
def NoRefusal (s : State) : Prop := ∀ a, hostRefuses s a = false

/-- The state in which a leg that takes entries has waited for them. -/
def waited (o : LegOp) (e : Env) : State := (progs [wantEntries o e, stallLeg e, settle (e.p / 16)]).run e.s

/-- The leg as it is carried out: with its entries, where it takes any. -/
def entered (o : LegOp) (e : Env) : Env := if o.takes e = 0 then e else legInputs { e with s := waited o e }

/-- The next leg of a gate is `e`, of the operation asked for, and it executes (R24, R38, R40, R44 to R46, R238, R247): its run has started and not
failed, its wait is satisfied, its descriptors pass, none is empty, its operation holds and rejects nothing, the entries it takes are in its upstream
FIFO or taken, what it reads from peers is here, and translation, its stacks and the stream tags let its accesses in (R238, R247, R241). -/
def Issues (s : State) (p g op : Nat) (o : LegOp) (e : Env) : Prop :=
  legReady s p g op = some e ∧ waitDone e = true ∧ firstBad e (o.uses e) = none ∧
  ((o.uses e).any fun u => descEmpty (e.desc u.idx)) = false ∧ o.hold e = none ∧ missingOf e.got (o.pre e) = [] ∧ o.check e = none ∧
  (o.takes e = 0 ∨ (gateOf (waited o e) e.island).took.length = o.takes e) ∧
  legMissing o (entered o e) = [] ∧ legWaits o (entered o e) = false ∧ NoRefusal s

/-- The state after a leg's effect, its status and measures shown, before its entries move downstream. -/
def effected (o : LegOp) (e : Env) : State :=
  let f := entered o e
  (stallLeg f).run ((o.body f).run ((beginLeg o f).run f.s))

/-- The state a leg that executes leaves: its effect, its entries moved as far as the FIFOs have room, and its completion. -/
def legResult (o : LegOp) (e : Env) : State := (settle (e.p / 16)).run (effected o e)

/-- A leg carried out stands in its place because entries of it have found no place downstream (R15) or results of it none in their rings (R234). -/
def StandsBack (t : State) (e : Env) : Prop :=
  (gateOf t e.island).next = e.idx ∧ (gateOf t e.island).busy = true ∧
  ((gateOf t e.island).held ≠ [] ∨ ringsHold t e.p e.g e.idx = false)

/-- What a leg's completion leaves (R29, R38): the gate's next leg is the following one, and the SIGNAL it asks for is due. -/
def LegOver (t : State) (e : Env) : Prop :=
  (gateOf t e.island).next = e.idx + 1 ∧ (gateOf t e.island).busy = false ∧ (gateOf t e.island).waitOk = false ∧
  (e.leg.sigEn = true → { piste := e.p, gate := e.g, leg := e.idx, sync := e.leg.ssync } ∈ t.units.signalsDue)

/-- What no leg changes that has not failed: pistes but for the measures of R326, runs, waits and events, counts, epochs, region tables, commands,
the record ring, and the rest of the module beside its datapath. -/
def LegFrame (s t : State) : Prop :=
  (∀ q, pisteOf t q = { pisteOf s q with footScratch := (pisteOf t q).footScratch, footHbm := (pisteOf t q).footHbm }) ∧
  t.runs = s.runs ∧ t.sync = s.sync ∧ t.counts = s.counts ∧ t.mode = s.mode ∧ t.layout = s.layout ∧ t.rgn = s.rgn ∧ t.host = s.host ∧
  t.fr = s.fr ∧ t.pins = s.pins ∧ t.pwr = s.pwr ∧ t.fuses = s.fuses ∧ t.sec = s.sec ∧ t.ports = s.ports ∧
  t.mem.mapMem = s.mem.mapMem ∧ t.mem.flash = s.mem.flash

/-- A leg command carries its leg out: it completes it, or the leg stands back until its entries and results have found their places. -/
def Completes (s : State) (c : Instr) (o : LegOp) (e : Env) : Prop :=
  exec c s = .next (legResult o e) ∧ (LegOver (legResult o e) e ∨ StandsBack (legResult o e) e) ∧ LegFrame s (legResult o e)

/-! ### Attestation -/

/-- A requester's message of eight words, with its code in word 0, waits for firmware that is ready, and the last reply has been taken (R410). -/
def Asked (s : State) (q : Requester) (code : Nat) : Prop :=
  s.sec.phase = .ready ∧ fwRuns s = true ∧ rd s mb Reg.MBX0.STATUS_FULL (reqChan q) = 1 ∧ rd s mb Reg.MBX0.STATUS_LEN (reqChan q) = 8 ∧
  rd s mb Reg.MBX0.STATUS_FULL (reqChan q + 1) = 0 ∧ dataWord s (reqChan q) 0 = code

/-- The request has been taken, and a reply with a status and a length waits in the reply channel (R410). -/
def Replied (t : State) (q : Requester) (status len : Nat) : Prop :=
  rd t mb Reg.MBX0.STATUS_FULL (reqChan q) = 0 ∧ rd t mb Reg.MBX0.STATUS_FULL (reqChan q + 1) = 1 ∧ rd t mb Reg.MBX0.STATUS_LEN (reqChan q + 1) = 2 ∧
  dataWord t (reqChan q + 1) 0 = status ∧ dataWord t (reqChan q + 1) 1 = len

/-! ### Messages -/

/-- A message for this node that its port lets in and the module serves, in its turn and with its memory below CRIT (R247, R290, R299, R302, R362). -/
def Serves (s : State) (p : Nat) (m : Msg) : Prop :=
  m.dst = ownNode s ∧ msgOk p m = true ∧ inCoreReset s = false ∧ overtakes s m = false ∧ msgHot s m = false ∧ (6 ≤ cameBy s p m ∨ rd s (.mod 4) Reg.MOD4.PAIR_STATUS_JOINED = 1)

/-- A message has been taken and answered with a response (R290, R294): the fabric stands as the answer leaves it, sent after the message had left its
port's pool. -/
def Answered (s t : State) (p : Nat) (m : Msg) (op : Nat) (data : List Byte) (addr : Nat) : Prop :=
  ∃ u, u.regs = s.regs ∧ u.bnd = ((takeMsg p m).run s).bnd ∧ t.bnd = ((answer m op data false addr).run u).bnd

/-- The registers that a message that cannot be routed changes (R298). -/
def fabricWords : List Nat :=
  [fldAddr (.bnd 7) Reg.BND7.UNREACH_COUNT 0, fldAddr (.bnd 7) Reg.BND7.FIRST_NODE 0, fldAddr (.bnd 7) Reg.BND7.FIRST_CLASS 0,
   fldAddr (.bnd 7) Reg.BND7.FAB_CHECK_UNREACHABLE 0]

/-- Only fabric state has changed, and what a message that cannot be routed changes. -/
def OnlyFabric (s t : State) : Prop := t = { s with regs := t.regs, bnd := t.bnd } ∧ RegsKept s t fabricWords

/-! ### What holds in every state -/

/-- Every memory and every set of marks is in canonical form. -/
abbrev Memory.wf (m : Mem) : Prop :=
  SMapCanon byteDefault m.hbm ∧ SMapCanon byteDefault m.host ∧ SMapCanon byteDefault m.scratch ∧ SMapCanon byteDefault m.vcache ∧
  SMapCanon byteDefault m.mapMem ∧ SMapCanon byteDefault m.flash ∧ SMapCanon flagDefault m.hbmPoison ∧ SMapCanon flagDefault m.hostPoison ∧
  SMapCanon flagDefault m.scratchPoison ∧ SMapCanon flagDefault m.vcachePoison ∧ SMapCanon flagDefault m.vcacheSet ∧
  SMapCanon flagDefault m.hostRefused ∧ SMapCanon flagDefault m.atc

/-- What every step keeps: memories, registers, counts, pistes and gates in canonical form; no count above 2^64 - 1 (R251); LAYOUT_APPLIED at or below
LAYOUT_CMD (R323); a record ring of at most 4,096 entries, below 4,080 while FULL is clear (R347); at most 64 rollback fuses (R407). -/
structure Inv (s : State) : Prop where
  mem : Memory.wf s.mem
  regs : SMapCanon regReset s.regs
  countsForm : SMapCanon zeroDefault s.counts
  pistes : SMapCanon (fun _ => PisteSt.idle) s.pistes
  gates : SMapCanon (fun _ => GateSt.idle) s.gates
  counts : ∀ i, countOf s i ≤ 2 ^ 64 - 1
  layout : s.layout.applied ≤ s.layout.cmd
  ring : s.fr.held.length ≤ 4096 ∧ (s.fr.full = false → s.fr.held.length < 4080)
  fuses : s.fuses.rollback ≤ 64

/-- The commands that reset or power down the module. -/
def isReset : Instr → Bool
  | .powerOnReset => true | .coreReset => true | .systemReset => true | .powerDown _ => true | .vsbLoss => true | .dieSensorRead _ => true
  | _ => false

end Sys2Proof.Machine
end

