-- ==== Sys2Proof/WellFormed.lean ====
section
/-! DEFINITION. Well-formed commands: operands in the ranges that their descriptors, registers, messages and units give them (R378, R289, R280,
R366, R398, R424, R425). The meanings do not assume it. -/

namespace Sys2Proof

/-- A mask of at least one piste (R378). -/
def maskOk (m : Nat) : Bool := decide (0 < m) && decide (m < 2 ^ 64)

/-- A 4 KB frame of BAR0 (R366). -/
def pageOk (p : Nat) : Bool := decide (p < 16384)

/-- The size of an access in bytes (R367). -/
def sizeOk (n : Nat) : Bool := n == 1 || n == 2 || n == 4 || n == 8

/-- A message header's fields in their widths (R289), with as many data bytes as LENGTH says. -/
def Msg.wf (m : Msg) : Bool :=
  decide (m.cls < 8) && decide (m.op < 32) && decide (m.dst < 2 ^ 16) && decide (m.src < 2 ^ 16) && decide (m.vl ≤ 1) && decide (m.space ≤ 1) &&
  decide (m.hops ≤ 63) && decide (m.addr < 2 ^ 50) && decide (m.tag < 2 ^ 14) && decide (m.data.length = m.len) && decide (m.len ≤ 4096)

/-- A link record's fields in their widths (R280). -/
def LinkRec.wf (r : LinkRec) : Bool :=
  decide (r.node < 2 ^ 16) && decide (r.port < 7) && decide (r.state ≤ 2) && decide (r.role ≤ 2) && decide (r.rate ≤ 1) &&
  decide (r.pools.length = 28) && r.pools.all fun x => decide (x < 2 ^ 16)

/-- An SRAM error's place (R13, R332). -/
def SramErr.wf : SramErr → Bool
  | .corrected i => decide (i < 854)
  | .beat b => decide (b < 196608)
  | .line k => decide (k < 2048)
  | .drift set way => decide (set < 2048) && decide (way < 8)
  | .plane _ _ => true
  | .map => true
  | .control i => decide (i < 854)
  | .host k => decide (k < 2 ^ 52)
  | .adder a _ => decide (a < 2 ^ 48)

/-- A well-formed command. -/
def Instr.wf : Instr → Bool
  | .loadMap _ addr space slot mask => decide (addr < 2 ^ 64) && decide (space ≤ 1) && decide (slot ≤ 3) && maskOk mask
  | .run _ mask slot epoch iter ram => maskOk mask && decide (slot ≤ 3) && decide (epoch < 2 ^ 32) && decide (iter < 2 ^ 32) && ram.all SramErr.wf
  | .copy _ src dst len srcSpace dstSpace =>
    decide (src < 2 ^ 64) && decide (dst < 2 ^ 64) && decide (len < 2 ^ 64) && decide (srcSpace ≤ 1) && decide (dstSpace ≤ 1)
  | .fill _ dst len space _ => decide (dst < 2 ^ 64) && decide (len < 2 ^ 64) && decide (space ≤ 1)
  | .modeChange _ epoch word => decide (epoch < 2 ^ 32) && decide (word < 2 ^ 32)
  | .layoutChange _ epoch _ slot mask iter => decide (epoch < 2 ^ 32) && decide (slot ≤ 3) && maskOk mask && decide (iter < 2 ^ 32)
  | .snapshotSave _ space mask addr len => decide (space ≤ 1) && maskOk mask && decide (addr < 2 ^ 64) && decide (len < 2 ^ 64)
  | .snapshotRestore _ space mask addr len => decide (space ≤ 1) && maskOk mask && decide (addr < 2 ^ 64) && decide (len < 2 ^ 64)
  | .tableMigrate _ region table tier row offset newSlot =>
    decide (region < 256) && decide (table < 256) && decide (tier ≤ 1) && decide (row < 2 ^ 32) && decide (offset < 2 ^ 64) && decide (newSlot < 2 ^ 32)
  | .fence _ scope => decide (scope ≤ 1)
  | .signal _ _ round amount => decide (round < 2 ^ 16) && decide (0 < amount) && decide (amount < 2 ^ 32)
  | .wait _ _ _ limit _ => decide (limit < 2 ^ 32)
  | .flush _ off len => decide (off < 2 ^ 64) && decide (len < 2 ^ 64)
  | .sqTailDoorbell _ _ _ => true
  | .descriptorAccept _ _ => true
  | .commandCompletion _ _ _ => true
  | .cqHeadWrite _ _ _ => true
  | .ringEnable _ _ _ => true
  | .ringAbort _ _ _ => true
  | .matmul _ _ _ ram => ram.all SramErr.wf
  | .matmulInspect _ _ _ ram => ram.all SramErr.wf
  | .attend _ _ _ ram => ram.all SramErr.wf
  | .attendPaged _ _ _ ram => ram.all SramErr.wf
  | .attendBwd _ _ _ ram => ram.all SramErr.wf
  | .kvAppend _ _ ram => ram.all SramErr.wf
  | .ropeLoad _ _ ram => ram.all SramErr.wf
  | .rotate _ _ ram => ram.all SramErr.wf
  | .elemwise _ _ _ ram => ram.all SramErr.wf
  | .reduceVector _ _ _ ram => ram.all SramErr.wf
  | .norm _ _ _ ram => ram.all SramErr.wf
  | .smNormalise _ _ _ ram => ram.all SramErr.wf
  | .smMerge _ _ _ ram => ram.all SramErr.wf
  | .kl _ _ _ ram => ram.all SramErr.wf
  | .optUpdate _ _ _ ram => ram.all SramErr.wf
  | .convert _ _ _ ram => ram.all SramErr.wf
  | .compress24 _ _ _ ram => ram.all SramErr.wf
  | .cacheFill _ _ _ ram => ram.all SramErr.wf
  | .cacheSpill _ _ _ ram => ram.all SramErr.wf
  | .sketch _ _ _ ram => ram.all SramErr.wf
  | .sample _ ram => ram.all SramErr.wf
  | .gather _ ram => ram.all SramErr.wf
  | .scatterAdd _ _ ram => ram.all SramErr.wf
  | .aggregate _ _ ram => ram.all SramErr.wf
  | .embGather _ ram => ram.all SramErr.wf
  | .embScatter _ _ ram => ram.all SramErr.wf
  | .embRefresh _ ram => ram.all SramErr.wf
  | .store _ ram => ram.all SramErr.wf
  | .atomicAdd _ ram => ram.all SramErr.wf
  | .reduce _ _ ram => ram.all SramErr.wf
  | .normPack _ ram => ram.all SramErr.wf
  | .normUnpack _ ram => ram.all SramErr.wf
  | .normReturn _ ram => ram.all SramErr.wf
  | .gatherShard _ ram => ram.all SramErr.wf
  | .offload _ ram => ram.all SramErr.wf
  | .kvSend _ ram => ram.all SramErr.wf
  | .stageSend _ ram => ram.all SramErr.wf
  | .legSignal _ _ => true
  | .pisteBoundary _ => true
  | .runStart _ => true
  | .runEnd _ => true
  | .runModeStall _ => true
  | .modeStall => true
  | .relayoutStart => true
  | .layoutStall => true
  | .staleReplay _ => true
  | .forerunnerFetch _ _ ram => ram.all SramErr.wf
  | .forerunnerWriteback _ ram => ram.all SramErr.wf
  | .waitExpiry island queue => decide (island < 854) && decide (queue < 64)
  | .fifoStallExpiry _ _ _ => true
  | .stageTimeout _ _ => true
  | .reduceCloseLimit _ => true
  | .datapathGate _ _ => true
  | .signalApply ram => ram.all SramErr.wf
  | .sigGo _ _ => true
  | .zero _ _ => true
  | .counterCfgWrite _ _ _ => true
  | .pairEntryWrite _ _ _ _ => true
  | .participantsWrite _ _ _ => true
  | .barrierReset _ _ => true
  | .synCountRead _ _ size => sizeOk size
  | .regionCommit _ _ => true
  | .wsetWrite _ _ _ => true
  | .publish _ _ => true
  | .mbxLockRead _ _ off size => decide (off < 4) && sizeOk size
  | .mbxLockRelease _ _ _ => true
  | .mbxDoorbell _ _ _ => true
  | .mbxDataRead _ _ _ _ off size => decide (off < 4) && sizeOk size
  | .mbxStatusRead _ _ off size => decide (off < 4) && sizeOk size
  | .mbxForce _ _ => true
  | .bindWrite _ _ _ => true
  | .report _ _ => true
  | .aliasCert _ _ => true
  | .deviceCert _ _ => true
  | .extend _ _ => true
  | .ownerKey _ _ => true
  | .frTailWrite _ _ => true
  | .frSelectWrite _ _ _ => true
  | .dropClear _ _ => true
  | .faultFirstRead _ page off size reg bar => pageOk page && decide (off < 4) && sizeOk size && decide (reg < 4096) && (decide (bar ≤ 5) || bar == 8)
  | .countClear _ page _ => pageOk page
  | .eventEnableWrite _ page _ => pageOk page
  | .portAccessWrite _ page _ => pageOk page
  | .spareMapWrite _ _ _ _ _ => true
  | .dropCtrlClear _ _ _ _ => true
  | .chanReset _ _ _ => true
  | .groomPause _ _ _ => true
  | .maxClear _ _ _ => true
  | .dieMaxClear _ _ => true
  | .tlmSnap _ _ => true
  | .softCapWrite _ _ => true
  | .retrain _ _ _ => true
  | .aliveRelease _ _ => true
  | .snapNow _ => true
  | .endTakeover _ _ => true
  | .join _ => true
  | .startAlone _ => true
  | .rollbackCommit _ _ => true
  | .hostImgGo _ _ => true
  | .dbgToken _ => true
  | .dbgRelock _ _ => true
  | .holdContinue _ => true
  | .cpHalt _ _ => true
  | .cpStep _ _ => true
  | .registerWrite _ addr size _ bar => decide (addr < 2 ^ 26) && sizeOk size && (decide (bar ≤ 5) || bar == 8)
  | .smbusTransaction _ _ _ _ _ dev => decide (dev < 128)
  | .flitReceive _ flit => decide (flit.length = 256)
  | .idleAck _ => true
  | .keepalive _ => true
  | .linkSilent _ => true
  | .lossOfSignal _ => true
  | .retrainRetry _ peer => peer.wf
  | .portBringup _ peer => peer.wf
  | .laneFailure _ _ => true
  | .lane _ _ _ seq => decide (seq < 4096)
  | .peerCoreReset _ => true
  | .statusReady _ peer => peer.wf
  | .messageRoute msg => msg.wf
  | .syncSignalMessage _ msg => msg.wf
  | .kvWrite _ msg => msg.wf
  | .reducePartial _ msg => msg.wf
  | .arrivalMark _ msg => msg.wf
  | .finalAdd _ msg adders => msg.wf && adders.all fun x => decide (x.1 < 2 ^ 48)
  | .put _ msg => msg.wf
  | .get _ msg => msg.wf
  | .atomicAddMessage _ msg adders => msg.wf && adders.all fun x => decide (x.1 < 2 ^ 48)
  | .regRead _ msg _ => msg.wf
  | .regWrite _ msg => msg.wf
  | .mailWake _ msg => msg.wf
  | .mirrorWrite _ msg => msg.wf
  | .remoteResponse _ msg => msg.wf
  | .nak _ msg => msg.wf
  | .peerTimeout tag => decide (tag < 16384)
  | .hbmAccess addr _ data island source err =>
    decide (addr < 2 ^ 48) && decide (data.length ≤ 64) && decide (island < 854) && decide (source ≤ 1) && decide (err ≤ 72)
  | .atomicAddRequest _ addr mask lanes island err _ =>
    decide (addr < 2 ^ 48) && decide (mask < 2 ^ 16) && decide (lanes.length = 16) && decide (island < 854) && decide (err ≤ 72)
  | .groomStep _ errs => errs.all fun e => decide (e.1 < 64) && decide (e.2 ≤ 72)
  | .rowRepair _ errs => errs.all fun e => decide (e.1 < 16) && decide (e.2 ≤ 72)
  | .stackTempRead _ t => decide (t < 256)
  | .dieSensorRead temps => decide (temps.length = 96) && temps.all fun x => decide (x < 256)
  | .powerEvaluation rails => decide (rails.length = 24) && rails.all fun x => decide (x.1 < 65536) && decide (x.2 < 65536)
  | .frequencyMeasure island khz => decide (island < 854) && decide (khz < 2 ^ 32)
  | .railFault _ volts amps => decide (volts < 65536) && decide (amps < 65536)
  | .refclkLoss => true
  | .pwrEnRise _ => true
  | .powerUpTimeout => true
  | .powerDown _ vin => decide (vin < 65536)
  | .powerOnReset => true
  | .coreReset => true
  | .systemReset => true
  | .coreResetExit _ => true
  | .boot samples _ badStacks links lanes speed =>
    decide (samples.length = 8) && (samples.all fun x => decide (x < 256)) && (badStacks.all fun x => decide (x < 12)) && decide (links.length = 7) && (links.all fun x => x.all LinkRec.wf) && decide (lanes < 65536) && decide (speed ≤ 2)
  | .cxlLinkTrain lanes speed => decide (lanes < 65536) && decide (speed ≤ 2)
  | .cxlLinkDown => true
  | .cxlMemRequest _ off data => decide (off < 2 ^ 38) && decide (data.length ≤ 64)
  | .h2dSnoop addr => decide (addr < 2 ^ 64)
  | .hdmCommit units => decide (units ≤ 1024)
  | .faultRecordArrival island => decide (island < 854)
  | .alarmIncrement island cls => decide (island < 854) && decide (cls < 14)
  | .traceWrite => true
  | .logWrite => true
  | .sweepCheck _ _ _ => true
  | .fallback => true
  | .mirrorSnapshot holdUs => decide (holdUs < 2 ^ 32)
  | .pairSenseChange _ => true
  | .pairBringup peer _ mirBase mirSize seq0 seq1 =>
    peer.wf && decide (mirBase < 2 ^ 48) && decide (mirSize < 2 ^ 48) && decide (seq0 < 2 ^ 64) && decide (seq1 < 2 ^ 64)
  | .pairTakeover => true
  | .tableMigrateCopy _ => true
  | .refclkReturn => true
  | .vsbApply => true
  | .vsbLoss mv => decide (mv < 65536)
  | .atsInvalidation page count _ => decide (page < 2 ^ 52) && decide (count ≤ 2 ^ 52)

end Sys2Proof
end

