-- ==== Sys2Proof/Certificates/Slice0/Obligations.lean ====
section
/-! DEFINITION. What the model states for the provers. -/

open Sys2Proof Sys2Proof.Machine

/-- O1. For every command c, queue rest and state s, the step of s with c before rest is exec of c on s with the queue rest. -/
def Obligations.StepRunsFront : Prop :=
  ∀ (c : Instr) (rest : List Instr) (s : State), step { s with pending := c :: rest } = exec c { s with pending := rest }

/-- O2. Whatever its operands and whatever the state, no command faults or is refused: exec answers a next state whose queue is the queue it was
given. On an empty queue a step answers the state as it is (the model's choice: log entry 2). -/
def Obligations.EveryCommandSteps : Prop :=
  (∀ (c : Instr) (s : State), ∃ t, exec c s = .next t ∧ t.pending = s.pending) ∧ ∀ s : State, s.pending = [] → step s = .next s

/-- O3. From any state with memories, registers, counts, pistes and gates in canonical form, no count above 2^64 - 1, LAYOUT_APPLIED at or below
LAYOUT_CMD, a record ring of at most 4,096 entries and below 4,080 while FULL is clear, and at most 64 rollback fuses, a step answers a state of
which all of this holds. -/
def Obligations.StepKeepsInv : Prop :=
  ∀ s t : State, Inv s → step s = .next t → Inv t

/-- O4. All that StepKeepsInv says every step keeps holds of the state after reset, whose memories list nothing and read as 0 (log entry 1). -/
def Obligations.ResetHasInv : Prop :=
  Inv State.reset ∧ Safe State.reset

/-- O5. Whatever command runs, rollback fuses never go back, and a blown owner key stays as it is; and no command but a reset or a loss of power
lowers EPOCH_CMD, LAYOUT_CMD, or a count, but for ZERO and the register writes that may write ZERO (R260). -/
def Obligations.EpochsRiseFusesStay : Prop :=
  ∀ (c : Instr) (s t : State), exec c s = .next t → s.fuses.rollback ≤ t.fuses.rollback ∧
    (s.fuses.ownerEn = true → t.fuses.ownerEn = true ∧ t.fuses.ownerKeyHash = s.fuses.ownerKeyHash) ∧
    (isReset c = false → s.mode.cmd ≤ t.mode.cmd ∧ s.layout.cmd ≤ t.layout.cmd ∧
      ((match c with | .zero _ _ => False | .registerWrite _ _ _ _ _ => False | .smbusTransaction _ _ _ _ _ => False | .regWrite _ _ => False | _ => True) →
        (∀ i, countOf s i ≤ 2 ^ 64 - 1) → ∀ i, countOf s i ≤ countOf t i))

/-- O6. On every M-gate, a MATMUL leg that executes (R24, R38, R40, R44 to R46), whose compares agree (R96) and whose arrays show no fault or one
that a replay clears (R97), and a MATMUL_INSPECT leg that executes, whose arrays do so, are carried out: the command answers the state in which the
leg's effect has been done and its entries moved as far as the FIFOs have room; there the leg is complete, the gate's next leg the following one and
the SIGNAL asked for due, unless entries or staged results of it still wait for a place (R15, R234); its run goes on, and runs, waits, events,
counts, epochs, region tables, commands, records held, pins, fuses, map memory and flash are as before. The errors that log entry 17 makes operands
are none. -/
def Obligations.MatrixLegsComplete : Prop :=
  ∀ (s : State) (p : Fin 64) (m : Fin 5) (chk : MgCheck) (e : Env), (chk = .pass ∨ ∃ t, chk = .transient t) →
    (Issues s p (mGate m) 1 (opMatmul chk []) e →
      (let f := entered (opMatmul chk []) e
       (compares (matLeg f) (some (checkWords f)) (placesFor (matLeg f) (allBlocks (matLeg f)))).2 = []) →
      Completes s (.matmul p m chk []) (opMatmul chk []) e) ∧
    (Issues s p (mGate m) 2 (opMatmulInspect chk []) e → Completes s (.matmulInspect p m chk []) (opMatmulInspect chk []) e)

/-- O7. On every A-gate, a leg that executes is carried out and completes, as in MatrixLegsComplete: ATTEND and ATTEND_BWD where the rotary table it
needs is loaded (R155) and no residue mismatches twice (R149); ATTEND_PAGED where besides no tag it reads ends the run (R163); KV_APPEND where the
table it needs is loaded and no block's tag ends the run (R164); ROPE_LOAD where every step code lies within 16,384 in magnitude (R155); ROTATE
where the table is loaded. -/
def Obligations.AttentionLegsComplete : Prop :=
  ∀ (s : State) (p : Fin 64) (a : Fin 2) (chk : HwCheck) (e : Env), isPersistent chk = false →
    (Issues s p (aGate a) 1 (opAttend chk []) e →
      (let f := entered (opAttend chk []) e; ((bit f.leg.p0 10 || bit f.leg.p0 11) && !ropeReady f.s f.island (f.desc f.leg.a).e0) = false) →
      Completes s (.attend p a chk []) (opAttend chk []) e) ∧
    (Issues s p (aGate a) 2 (opAttendPaged chk []) e →
      (let f := entered (opAttendPaged chk []) e
       (bit f.leg.p0 10 && !ropeReady f.s f.island (f.desc f.leg.a).e0) = false ∧ (pagedScan f (pagedGood f)).2 = []) →
      Completes s (.attendPaged p a chk []) (opAttendPaged chk []) e) ∧
    (Issues s p (aGate a) 3 (opAttendBwd chk []) e →
      (let f := entered (opAttendBwd chk []) e; ((bit f.leg.p0 10 || bit f.leg.p0 11) && !ropeReady f.s f.island (f.desc f.leg.a).e0) = false) →
      Completes s (.attendBwd p a chk []) (opAttendBwd chk []) e) ∧
    (Issues s p (aGate a) 4 opKvAppend e →
      (let f := entered opKvAppend e; (bit f.leg.p0 11 && decide ((ropeOf f.s f.island).pairs < 16)) = false ∧ appendFault f = none) →
      Completes s (.kvAppend p a []) opKvAppend e) ∧
    (Issues s p (aGate a) 5 opRopeLoad e → ((ropeVals (entered opRopeLoad e)).any fun v => (ropeStep v).isNone) = false →
      Completes s (.ropeLoad p a []) opRopeLoad e) ∧
    (Issues s p (aGate a) 6 opRotate e → (let f := entered opRotate e; ropeReady f.s f.island (f.desc f.leg.a).e0 = true) →
      Completes s (.rotate p a []) opRotate e)

/-- O8. On every V-gate, a leg of any operation that executes and whose residues do not mismatch twice (R145) is carried out and completes, as in
MatrixLegsComplete; OPT_UPDATE executes where its scalar record passes (R143). -/
def Obligations.VectorLegsComplete : Prop :=
  ∀ (s : State) (p : Fin 64) (v : Fin 3) (chk : HwCheck) (e : Env), isPersistent chk = false →
    (Issues s p (vGate v) 1 (opElemwise chk []) e → Completes s (.elemwise p v chk []) (opElemwise chk []) e) ∧
    (Issues s p (vGate v) 2 (opReduceVector chk []) e → Completes s (.reduceVector p v chk []) (opReduceVector chk []) e) ∧
    (Issues s p (vGate v) 3 (opNorm chk []) e → Completes s (.norm p v chk []) (opNorm chk []) e) ∧
    (Issues s p (vGate v) 4 (opSmNormalise chk []) e → Completes s (.smNormalise p v chk []) (opSmNormalise chk []) e) ∧
    (Issues s p (vGate v) 5 (opSmMerge chk []) e → Completes s (.smMerge p v chk []) (opSmMerge chk []) e) ∧
    (Issues s p (vGate v) 6 (opKl chk []) e → Completes s (.kl p v chk []) (opKl chk []) e) ∧
    (Issues s p (vGate v) 7 (opOptUpdate chk []) e → Completes s (.optUpdate p v chk []) (opOptUpdate chk []) e) ∧
    (Issues s p (vGate v) 8 (opConvert chk []) e → Completes s (.convert p v chk []) (opConvert chk []) e) ∧
    (Issues s p (vGate v) 9 (opCompress24 chk []) e → Completes s (.compress24 p v chk []) (opCompress24 chk []) e) ∧
    (Issues s p (vGate v) 10 (opCacheFill chk []) e → Completes s (.cacheFill p v chk []) (opCacheFill chk []) e) ∧
    (Issues s p (vGate v) 11 (opCacheSpill chk []) e → Completes s (.cacheSpill p v chk []) (opCacheSpill chk []) e) ∧
    (Issues s p (vGate v) 12 (opSketch chk []) e → Completes s (.sketch p v chk []) (opSketch chk []) e)

/-- O9. A G-gate leg that executes, with no residue that mismatches twice (R331), is carried out and completes, as in MatrixLegsComplete; the three
embedding legs where the record of their table is not poisoned and the table serves the use (R190). -/
def Obligations.GraphLegsComplete : Prop :=
  ∀ (s : State) (p : Fin 64) (chk : HwCheck) (e : Env), isPersistent chk = false →
    (Issues s p 0 1 opSample e → Completes s (.sample p []) opSample e) ∧
    (Issues s p 0 2 opGather e → Completes s (.gather p []) opGather e) ∧
    (Issues s p 0 3 (opScatterAdd chk) e → Completes s (.scatterAdd p chk []) (opScatterAdd chk) e) ∧
    (Issues s p 0 4 (opAggregate chk) e → Completes s (.aggregate p chk []) (opAggregate chk) e) ∧
    (∀ t, Issues s p 0 5 opEmbGather e →
      (let f := entered opEmbGather e; embRecord f.view (f.desc f.leg.a) (bits f.leg.p0 0 8) = some t ∧ gatherTableOk f t = true) →
      Completes s (.embGather p []) opEmbGather e) ∧
    (∀ t, Issues s p 0 6 (opEmbScatter chk) e →
      (let f := entered (opEmbScatter chk) e; embRecord f.view (f.desc f.leg.c) (bits f.leg.p0 0 8) = some t ∧ scatterTableOk f t = true) →
      Completes s (.embScatter p chk []) (opEmbScatter chk) e) ∧
    (∀ t, Issues s p 0 7 opEmbRefresh e →
      (let f := entered opEmbRefresh e; embRecord f.view (f.desc f.leg.a) (bits f.leg.p0 0 8) = some t ∧ refreshTableOk f t = true) →
      Completes s (.embRefresh p []) opEmbRefresh e)

/-- O10. An X-gate leg that executes, with no residue that mismatches twice (R331), is carried out and completes, as in MatrixLegsComplete: STORE,
ATOMIC_ADD, REDUCE where its channel is ready (R310, R313), OFFLOAD, KV_SEND, STAGE_SEND where its peer differs in y alone (R305), and NORM in each
phase where the leg's PHASE is the command's. -/
def Obligations.ExchangeLegsComplete : Prop :=
  ∀ (s : State) (p : Fin 64) (chk : HwCheck) (e : Env), isPersistent chk = false →
    (Issues s p 11 1 opStore e → Completes s (.store p []) opStore e) ∧
    (Issues s p 11 2 opAtomicAdd e → Completes s (.atomicAdd p []) opAtomicAdd e) ∧
    (Issues s p 11 3 (opReduce chk) e → Completes s (.reduce p chk []) (opReduce chk) e) ∧
    (Issues s p 11 4 (opNormX 0 packBody) e → bits e.leg.p0 0 2 = 0 → Completes s (.normPack p []) (opNormX 0 packBody) e) ∧
    (Issues s p 11 4 (opNormX 1 unpackBody) e → bits e.leg.p0 0 2 = 1 → Completes s (.normUnpack p []) (opNormX 1 unpackBody) e) ∧
    (Issues s p 11 4 (opNormX 2 returnBody) e → bits e.leg.p0 0 2 = 2 → Completes s (.normReturn p []) (opNormX 2 returnBody) e) ∧
    (Issues s p 11 6 opOffload e → Completes s (.offload p []) opOffload e) ∧
    (Issues s p 11 7 opKvSend e → Completes s (.kvSend p []) opKvSend e) ∧
    (Issues s p 11 8 opStageSend e → Completes s (.stageSend p []) opStageSend e)

/-- O11. FAULT_RECORD_ARRIVAL with FULL clear: the oldest record of the source takes the next SEQ and is placed at FR_HEAD with its DROPPED_BEFORE,
SEQ advances, FULL is set at 4,080 entries held, the log takes a copy of the entry, the page of the block takes the SEQ in FAULT_FIRST where it held
none (which page that is: log entry 14), and a FATAL record counts for the mirror interval, whose operating time is free. Nothing else changes.
FAULT_RECORD_ARRIVAL with FULL set, below 16 summaries and for a record that is not FATAL: DROP_COUNT of its class rises, the record takes a SEQ;
the first drop of the class in the FULL period writes a summary at FR_HEAD (CODE RECORD_DROP, ISLAND 853, LEG 0x3FFF, its SEQ as first and last,
count 1, its code), sets SUMMARY and raises one alarm of class 13; a later one raises the summary's severity, last SEQ, count and last code, and
nothing more. No other entry of the ring changes. The log takes a copy of the record dropped (the model's reading: log entry 94). -/
def Obligations.RecordPlacedOrDropped : Prop :=
  (
  ∀ (s : State) (island : Nat) (r : FaultRec) (d : Nat) (rest : List (FaultRec × Nat)),
    (smGet (fun _ => SrcQueue.empty) s.recs.srcQ island).recs = (r, d) :: rest → s.fr.full = false →
    let e : Entry := { frec := r, seq := s.fr.seq, dropped := d, live := false, first := 0, last := 0, count := 0, lastCode := 0 }
    ∃ t, exec (.faultRecordArrival island) s = .next t ∧
      t.fr.held = s.fr.held ++ [e] ∧ t.fr.tail = s.fr.tail ∧ t.fr.seq = (s.fr.seq + 1) % 2 ^ 32 ∧ (t.fr.full = true ↔ 4080 ≤ t.fr.held.length) ∧
      t.recs = { s.recs with
        srcQ := smSet (fun _ => SrcQueue.empty) s.recs.srcQ island { recs := rest, dropped := (smGet (fun _ => SrcQueue.empty) s.recs.srcQ island).dropped }
        logQ := s.recs.logQ ++ [.copy e] } ∧
      (rdRaw s (recordPage r) Reg.COMMON.FAULT_FIRST_VALID = 0 →
        rdRaw t (recordPage r) Reg.COMMON.FAULT_FIRST_VALID = 1 ∧ rdRaw t (recordPage r) Reg.COMMON.FAULT_FIRST_SEQ = s.fr.seq % 2 ^ 31) ∧
      (rdRaw s (recordPage r) Reg.COMMON.FAULT_FIRST_VALID = 1 →
        regWord t (fldAddr (recordPage r) Reg.COMMON.FAULT_FIRST_SEQ 0) = regWord s (fldAddr (recordPage r) Reg.COMMON.FAULT_FIRST_SEQ 0)) ∧
      (r.sev = 3 → rd t (.mod 3) Reg.MOD3.MIR_EVENTS = min (2 ^ 32 - 1) (rd s (.mod 3) Reg.MOD3.MIR_EVENTS + 1)) ∧
      (r.sev ≠ 3 → t.fw = s.fw ∧ t.freeCount = s.freeCount ∧ RegsKept s t [fldAddr (recordPage r) Reg.COMMON.FAULT_FIRST_SEQ 0]) ∧
      t = { s with regs := t.regs, fr := t.fr, recs := t.recs, fw := { s.fw with opTime := t.fw.opTime }, freeCount := t.freeCount } ∧
      RegsKept s t [fldAddr (recordPage r) Reg.COMMON.FAULT_FIRST_SEQ 0, fldAddr (.mod 3) Reg.MOD3.MIR_EVENTS 0, fldAddr (.mod 3) Reg.MOD3.MIR_INTERVAL 0]) ∧ (
  ∀ (s : State) (island : Nat) (r : FaultRec) (d : Nat) (rest : List (FaultRec × Nat)),
    (smGet (fun _ => SrcQueue.empty) s.recs.srcQ island).recs = (r, d) :: rest → s.fr.full = true → s.fr.held.length < 4096 → r.sev ≠ 3 → r.cls < 16 →
    ∃ t, exec (.faultRecordArrival island) s = .next t ∧
      t.fr.seq = (s.fr.seq + 1) % 2 ^ 32 ∧ t.fr.tail = s.fr.tail ∧ t.fr.full = true ∧
      rd t (.mod 2) Reg.MOD2.DROP_COUNT r.cls = min (2 ^ 32 - 1) (rd s (.mod 2) Reg.MOD2.DROP_COUNT r.cls + 1) ∧
      ((∀ e ∈ s.fr.held, ¬ (e.live = true ∧ e.frec.cls = r.cls)) →
        t.fr.held = s.fr.held ++ [{ frec := { r with code := 0x0D01, island := 853, iter := 0, leg := 0x3FFF, unit := 0, items := [] }, seq := s.fr.seq,
                                    dropped := 0, live := true, first := s.fr.seq, last := s.fr.seq, count := 1, lastCode := r.code }] ∧
        rd t (.mod 2) Reg.MOD2.FR_STATUS_SUMMARY = 1 ∧
        smGet zeroDefault t.recs.alarmPend (853 * 16 + 13) = min 255 (smGet zeroDefault s.recs.alarmPend (853 * 16 + 13) + 1)) ∧
      ((∃ e ∈ s.fr.held, e.live = true ∧ e.frec.cls = r.cls) →
        t.recs.alarmPend = s.recs.alarmPend ∧ rd t (.mod 2) Reg.MOD2.FR_STATUS_SUMMARY = rd s (.mod 2) Reg.MOD2.FR_STATUS_SUMMARY ∧
        t.fr.held.length = s.fr.held.length ∧
        ∀ (i : Nat) (e : Entry), s.fr.held[i]? = some e → t.fr.held[i]? = some
          (if e.live = true ∧ e.frec.cls = r.cls then
            { e with frec := { e.frec with sev := max e.frec.sev r.sev }, last := s.fr.seq, count := e.count + 1, lastCode := r.code }
          else e)) ∧
      t.recs.logQ = s.recs.logQ ++ [.copy { frec := r, seq := s.fr.seq, dropped := d, live := false, first := 0, last := 0, count := 0, lastCode := 0 }] ∧
      t = { s with regs := t.regs, fr := t.fr, recs := { s.recs with srcQ := t.recs.srcQ, alarmPend := t.recs.alarmPend, logQ := t.recs.logQ } } ∧
      RegsKept s t [fldAddr (recordPage r) Reg.COMMON.FAULT_FIRST_SEQ 0, fldAddr (.mod 2) Reg.MOD2.DROP_COUNT r.cls,
        fldAddr (.mod 2) Reg.MOD2.FR_STATUS_SUMMARY 0])

/-- O12. ALARM_INCREMENT with an increment pending at the source: it is taken, EVENT bit c of MOD[1] is 1, EVENT_COUNT[c] adds 1 and stops at its
largest value, vector 2 is sent when EVENT AND EVENT_ENABLE changes from 0 to non-zero, and where that vector is masked its pending bit is set
(R366; the places of the masks are log entry 99); SMB_ALERT_N follows its two causes. Nothing else changes. With none pending the state stays as it
is. -/
def Obligations.AlarmTaken : Prop :=
  ∀ (s : State) (island cls : Nat), cls < 16 →
    (smGet zeroDefault s.recs.alarmPend (island * 16 + cls) = 0 → exec (.alarmIncrement island cls) s = .next s) ∧
    (0 < smGet zeroDefault s.recs.alarmPend (island * 16 + cls) →
      ∃ t, exec (.alarmIncrement island cls) s = .next t ∧
        smGet zeroDefault t.recs.alarmPend (island * 16 + cls) = smGet zeroDefault s.recs.alarmPend (island * 16 + cls) - 1 ∧
        (∀ k, k ≠ island * 16 + cls → smGet zeroDefault t.recs.alarmPend k = smGet zeroDefault s.recs.alarmPend k) ∧
        regWord t (pageBase (.mod 1) + 0x10) = regWord s (pageBase (.mod 1) + 0x10) ||| BitVec.ofNat 32 (2 ^ cls) ∧
        rd t (.mod 1) Reg.COMMON.EVENT_COUNT cls = min (2 ^ 32 - 1) (rd s (.mod 1) Reg.COMMON.EVENT_COUNT cls + 1) ∧
        t.host.msix = s.host.msix ++ (if eventLive s (.mod 1) = 0 ∧ eventLive t (.mod 1) ≠ 0 then [2] else []) ∧
        (∀ v, smGet flagDefault t.host.msixPend v =
          (smGet flagDefault s.host.msixPend v || (v == 2 && msixHeld s.host 2 && t.host.msix != s.host.msix))) ∧
        (t.pins.smbAlertN = false ↔
          ((wordAt t (pageBase (.mod 1) + 0x10)).toNat % 2 ^ 16).land (rd t (.mod 1) Reg.MOD1.ALARM_SMB) ≠ 0 ∨ t.ports.mgmtAlert ≠ []) ∧
        t = { s with
          regs := t.regs, recs := { s.recs with alarmPend := t.recs.alarmPend }, host := { s.host with msix := t.host.msix, msixPend := t.host.msixPend }
          pins := { s.pins with smbAlertN := t.pins.smbAlertN } } ∧
        RegsKept s t [pageBase (.mod 1) + 0x10, fldAddr (.mod 1) Reg.COMMON.EVENT_COUNT cls])

/-- O13. With no fault record or log entry waiting for the stack, the stack below CRIT (R247), room in the ring, a granule of the ring not open and
no trace lost, the oldest trace of the unit is written at TRACE_HEAD with KIND, ISLAND and its sequence in words 0 and 1 (its detail is free: log
entry 4) and TRACE_HEAD advances; with traces lost, a GAP trace is written instead with the number lost and the first lost sequence. With no room
the trace is dropped and counted; that a ring with one place left has no room is the model's choice (log entry 61). Nothing else changes, and no
byte of HBM outside the 32 written. With firmware running and ready, no stack of the entry's place at CRIT (R247) and no granule of it open, the
oldest waiting log entry is written at the place of its sequence, 64 bytes with the sequence first; a copy of a record holds the record in bytes 8
to 39 and in bytes 40 to 63 the items its DETAIL could not place; what an entry of firmware's own holds after byte 7 is free (log entry 4).
LOG_COUNT rises by 1. Nothing else changes, and no byte of HBM outside the 64. -/
def Obligations.TracesAndLogWritten : Prop :=
  (
  ∀ (s : State),
    let h := rd s (.mod 3) Reg.MOD3.TRACE_HEAD
    let a := rd64 s (.mod 3) Reg.MOD3.TRACE_BASE_LO Reg.MOD3.TRACE_BASE_HI + 32 * h
    logWaits s (stackOf s a) = false → hotRange s a 32 = false →
    ((h + 1) % 2 ^ 21 ≠ rd s (.mod 3) Reg.MOD3.TRACE_TAIL → NoneOpen s a 32 → s.recs.lost = 0 →
      ∀ (x : Trace) (r : List Trace), s.recs.traceQ = x :: r →
      ∃ t, exec .traceWrite s = .next t ∧
        smList byteDefault t.mem.hbm a 8 = leBytes 4 (x.kind % 256 + x.island % 1024 * 256) ++ leBytes 4 x.seq ∧
        rd t (.mod 3) Reg.MOD3.TRACE_HEAD = (h + 1) % 2 ^ 21 ∧ (∀ b, b < a ∨ a + 32 ≤ b → hbmByte t b = hbmByte s b) ∧
        t = { s with
          regs := t.regs, recs := { s.recs with traceQ := r }, freeCount := t.freeCount
          mem := { s.mem with hbm := t.mem.hbm, hbmPoison := t.mem.hbmPoison } } ∧
        RegsKept s t [fldAddr (.mod 3) Reg.MOD3.TRACE_HEAD 0]) ∧
    ((h + 1) % 2 ^ 21 ≠ rd s (.mod 3) Reg.MOD3.TRACE_TAIL → NoneOpen s a 32 → s.recs.lost ≠ 0 →
      ∃ t, exec .traceWrite s = .next t ∧
        smList byteDefault t.mem.hbm a 32 = leBytes 4 (852 * 256) ++ leBytes 4 s.recs.traceSeq ++ leBytes 4 s.recs.lost ++ leBytes 4 s.recs.firstLost ++
          List.replicate 16 0 ∧
        rd t (.mod 3) Reg.MOD3.TRACE_HEAD = (h + 1) % 2 ^ 21 ∧ (∀ b, b < a ∨ a + 32 ≤ b → hbmByte t b = hbmByte s b) ∧
        t = { s with
          regs := t.regs, recs := { s.recs with traceSeq := s.recs.traceSeq + 1, lost := 0, firstLost := 0 }
          mem := { s.mem with hbm := t.mem.hbm, hbmPoison := t.mem.hbmPoison } } ∧
        RegsKept s t [fldAddr (.mod 3) Reg.MOD3.TRACE_HEAD 0]) ∧
    ((h + 1) % 2 ^ 21 = rd s (.mod 3) Reg.MOD3.TRACE_TAIL → ∀ (x : Trace) (r : List Trace), s.recs.traceQ = x :: r →
      ∃ t, exec .traceWrite s = .next t ∧
        rd t (.mod 3) Reg.MOD3.TRACE_GAPS = min (2 ^ 32 - 1) (rd s (.mod 3) Reg.MOD3.TRACE_GAPS + 1) ∧
        t = { s with
          regs := t.regs
          recs := { s.recs with
            traceQ := r, lost := s.recs.lost + 1, firstLost := if s.recs.lost = 0 then x.seq else s.recs.firstLost } } ∧
        RegsKept s t [fldAddr (.mod 3) Reg.MOD3.TRACE_GAPS 0])) ∧ (
  ∀ (s : State) (i : LogItem) (r : List LogItem),
    let c := rd64 s (.mod 3) Reg.MOD3.LOG_COUNT_LO Reg.MOD3.LOG_COUNT_HI
    let a := rd64 s (.mod 3) Reg.MOD3.LOG_BASE_LO Reg.MOD3.LOG_BASE_HI + 64 * (c % (rd s (.mod 3) Reg.MOD3.LOG_SIZE / 64))
    s.recs.logQ = i :: r → fwRuns s = true → s.sec.phase = .ready → hotRange s a 64 = false → NoneOpen s a 64 →
    ∃ t, exec .logWrite s = .next t ∧
      smList byteDefault t.mem.hbm a 8 = leBytes 8 c ∧
      (∀ e, i = .copy e → smList byteDefault t.mem.hbm (a + 8) 32 = (entryWords e).flatMap (leBytes 4) ∧
        smList byteDefault t.mem.hbm (a + 40) 24 = (padTo 6 0 (placeItems 6 (placeItems 4 e.frec.items).2).1).flatMap (leBytes 4)) ∧
      rd64 t (.mod 3) Reg.MOD3.LOG_COUNT_LO Reg.MOD3.LOG_COUNT_HI = (c + 1) % 2 ^ 64 ∧
      (∀ b, b < a ∨ a + 64 ≤ b → hbmByte t b = hbmByte s b) ∧
      t = { s with
        regs := t.regs, recs := { s.recs with logQ := r }, freeCount := t.freeCount
        mem := { s.mem with hbm := t.mem.hbm, hbmPoison := t.mem.hbmPoison } } ∧
      RegsKept s t [fldAddr (.mod 3) Reg.MOD3.LOG_COUNT_LO 0, fldAddr (.mod 3) Reg.MOD3.LOG_COUNT_HI 0])

/-- O14. A write of FR_TAIL that is let in and not beyond FR_HEAD releases the entries before the index written: FR_TAIL is that index, FULL stays
only where 4,080 entries or more remain, and where it clears the summaries stand as ordinary entries, copied to the log with their final counts (the
model's reading: log entry 94). One beyond FR_HEAD changes nothing but TAIL_REFUSED, which is 1. DROP_CLEAR sets every DROP_COUNT to 0; COUNT_CLEAR
sets the chosen EVENT_COUNTs of its page to 0; a whole read of FAULT_FIRST, of 32 bits or with the word behind it, returns SEQ and VALID and clears
both, a narrower one returns its bytes and clears nothing, and an unaligned one is marked and clears nothing; EVENT_ENABLE takes the value and the
page's message is sent when EVENT AND EVENT_ENABLE leaves 0; neither of the two changes anything when PAIR writes it on MOD[4] (R434); PORT_ACCESS
takes a core's write of RIGHTS, bits [9:8] as 1, while its LOCK is 0, and sets LOCK with bit 31. Nothing else changes. -/
def Obligations.RingReleasedRegistersWritten : Prop :=
  (
  ∀ (s : State) (id : Ident) (v : Word), LetIn s id (fldAddr (.mod 2) Reg.MOD2.FR_TAIL 0) false →
    let k := (v.toNat % 4096 + 4096 - s.fr.tail % 4096) % 4096
    (k ≤ s.fr.held.length → ∃ t, exec (.frTailWrite id v) s = .next t ∧ t.fr.tail = v.toNat % 4096 ∧ t.fr.seq = s.fr.seq ∧
      (t.fr.full = true ↔ s.fr.full = true ∧ 4080 ≤ s.fr.held.length - k) ∧
      t.fr.held = (s.fr.held.drop k).map (fun e => { e with live := e.live && t.fr.full }) ∧
      t.recs.logQ = s.recs.logQ ++ (if t.fr.full then [] else (s.fr.held.filter (·.live)).map fun e => .copy { e with live := false }) ∧
      t = { s with fr := t.fr, recs := { s.recs with logQ := t.recs.logQ } }) ∧
    (s.fr.held.length < k → ∃ t, exec (.frTailWrite id v) s = .next t ∧ rd t (.mod 2) Reg.MOD2.FR_STATUS_TAIL_REFUSED = 1 ∧
      OnlyRegs s t [fldAddr (.mod 2) Reg.MOD2.FR_STATUS_TAIL_REFUSED 0])) ∧ (
  ∀ (s : State) (id : Ident) (v : Word) (page : Nat) (pg : Page), pageAt (page * 4096) = some pg →
    (LetIn s id (fldAddr (.mod 2) Reg.MOD2.DROP_CLEAR 0) false → bit v.toNat 0 = true → ∃ t, exec (.dropClear id v) s = .next t ∧
      (∀ c, c < 16 → rd t (.mod 2) Reg.MOD2.DROP_COUNT c = 0) ∧ OnlyRegs s t ((List.range 16).map fun c => fldAddr (.mod 2) Reg.MOD2.DROP_COUNT c)) ∧
    (LetIn s id (page * 4096 + 0x64) true → ¬ (id = .pair ∧ pg = .mod 4) → ∃ t, exec (.countClear id page v) s = .next t ∧
      (∀ e, e < 16 → rd t pg Reg.COMMON.EVENT_COUNT e = if bit v.toNat e then 0 else rd s pg Reg.COMMON.EVENT_COUNT e) ∧
      OnlyRegs s t ((List.range 16).map fun e => fldAddr pg Reg.COMMON.EVENT_COUNT e)) ∧
    (LetRead s id (page * 4096 + 0x60) →
      (∀ size, size = 4 ∨ size = 8 → ∃ t, exec (.faultFirstRead id page 0 size) s = .next t ∧
        returned t id = rdRaw s pg Reg.COMMON.FAULT_FIRST_SEQ + 2 ^ 31 * rdRaw s pg Reg.COMMON.FAULT_FIRST_VALID ∧
        rdRaw t pg Reg.COMMON.FAULT_FIRST_SEQ = 0 ∧ rdRaw t pg Reg.COMMON.FAULT_FIRST_VALID = 0 ∧
        t = { s with regs := t.regs, ports := { s.ports with response := t.ports.response } } ∧ RegsKept s t [page * 4096 + 0x60]) ∧
      (∀ size off, size = 1 ∨ size = 2 → off + size ≤ 4 → off % size = 0 → ∃ t, exec (.faultFirstRead id page off size) s = .next t ∧
        returned t id = (rdRaw s pg Reg.COMMON.FAULT_FIRST_SEQ + 2 ^ 31 * rdRaw s pg Reg.COMMON.FAULT_FIRST_VALID) / 2 ^ (8 * off) % 2 ^ (8 * size) ∧
        t = { s with ports := { s.ports with response := t.ports.response } }) ∧
      (∀ size off, off % size ≠ 0 → ∃ t, exec (.faultFirstRead id page off size) s = .next t ∧ rd t .hif Reg.HIF.HIF_CHECK_NARROW = 1 ∧
        t = { s with regs := t.regs, ports := { s.ports with response := t.ports.response } } ∧ RegsKept s t [fldAddr .hif Reg.HIF.HIF_CHECK_NARROW 0])) ∧
    (id = .pair → pg = .mod 4 → LetIn s id (page * 4096 + 0x14) true → LetIn s id (page * 4096 + 0x64) true →
      exec (.countClear id page v) s = .next s ∧ exec (.eventEnableWrite id page v) s = .next s) ∧
    (LetIn s id (page * 4096 + 0x14) true → ¬ (id = .pair ∧ pg = .mod 4) → ∃ t, exec (.eventEnableWrite id page v) s = .next t ∧
      (regWord t (page * 4096 + 0x14)).toNat = v.toNat % eventMask pg ∧
      t.host.msix = s.host.msix ++ (if eventLive s pg = 0 ∧ eventLive t pg ≠ 0 then [pageVector pg] else []) ∧
      t = { s with regs := t.regs, host := { s.host with msix := t.host.msix, msixPend := t.host.msixPend } } ∧ RegsKept s t [page * 4096 + 0x14]) ∧
    (LetIn s id (page * 4096 + 0x8) true → isCp id = true → ∃ t, exec (.portAccessWrite id page v) s = .next t ∧
      rd t pg Reg.COMMON.PORT_ACCESS_RIGHTS =
        (if rdRaw s pg Reg.COMMON.PORT_ACCESS_LOCK = 0 then v.toNat % 2 ^ 8 + 3 * 2 ^ 8 else rd s pg Reg.COMMON.PORT_ACCESS_RIGHTS) ∧
      (bit v.toNat 31 = true → rdRaw t pg Reg.COMMON.PORT_ACCESS_LOCK = 1) ∧ OnlyRegs s t [page * 4096 + 0x8]))

/-- O15. FR_SELECT takes the index, and the eight words of the window show the held entry of that index. An index where no entry is held shows free
words (log entry 4). An entry found uncorrectable reads with CODE RECORD_ECC, and counts (R332) and makes a record, whose code RECORD_ECC is the
model's reading (log entry 102). Nothing else changes. -/
def Obligations.WindowLatched : Prop :=
  ∀ (s : State) (id : Ident) (v : Word), LetIn s id (fldAddr (.mod 2) Reg.MOD2.FR_SELECT 0) false →
    let k := (v.toNat % 4096 + 4096 - s.fr.tail % 4096) % 4096
    let words := fldAddr (.mod 2) Reg.MOD2.FR_SELECT 0 :: (List.range 8).map fun i => fldAddr (.mod 2) Reg.MOD2.FR_WINDOW i
    (∀ e, s.fr.held[k]? = some e → ∃ t, exec (.frSelectWrite id v false) s = .next t ∧ rd t (.mod 2) Reg.MOD2.FR_SELECT = v.toNat % 4096 ∧
      (∀ i, i < 8 → rd t (.mod 2) Reg.MOD2.FR_WINDOW i = nth (entryWords e) i 0 % 2 ^ 32) ∧ OnlyRegs s t words) ∧
    (∀ ecc, s.fr.held[k]? = none → ∃ t, exec (.frSelectWrite id v ecc) s = .next t ∧ rd t (.mod 2) Reg.MOD2.FR_SELECT = v.toNat % 4096 ∧
      t = { s with regs := t.regs, freeCount := t.freeCount } ∧ RegsKept s t words) ∧
    (∀ e, s.fr.held[k]? = some e → ∃ t, exec (.frSelectWrite id v true) s = .next t ∧ rd t (.mod 2) Reg.MOD2.FR_WINDOW 0 % 2 ^ 16 = Code.RECORD_ECC ∧
      rd t (.mod 1) Reg.MOD1.SRAM_UE_COUNT = min (2 ^ 32 - 1) (rd s (.mod 1) Reg.MOD1.SRAM_UE_COUNT + 1) ∧ HasRecord t 853 Code.RECORD_ECC ∧ t.fr = s.fr)

/-- O16. SIGNAL_APPLY takes the oldest SIGNAL that has reached the counter block. To a counter whose mode is PLAIN, or a PROXY counter when it came
over Baond, and that no enabled pair names: the count rises by the amount, no other count changes, and past 2^64 - 1 it stops there with
SYNC_SATURATE recorded; exactly the waits on the counter whose targets are reached are removed and their gates' legs may issue; a SIGNAL command
that named the counter completes with OK and the count; a firmware core whose wait is satisfied receives its status. Nothing else changes. -/
def Obligations.SignalAppliedPlain : Prop :=
  ∀ (s : State) (x : SigRec) (r : List SigRec), s.sync.sigQ = x :: r →
    (counterMode s x.counter = 0 ∨ (counterMode s x.counter = 1 ∧ ∃ n, x.src = .remote n)) → inPair s x.counter = false →
    let n := min (2 ^ 64 - 1) (countOf s x.counter + x.amount)
    let met := fun (w : WaitRec) => w.localOf == none && w.counter == x.counter && decide (w.target ≤ n)
    ∃ t, exec (.signalApply []) s = .next t ∧ countOf t x.counter = n ∧ (∀ i, i ≠ x.counter → countOf t i = countOf s i) ∧
      t.sync.sigQ = r ∧ t.sync.waits = s.sync.waits.filter (fun w => !met w) ∧
      (∀ w ∈ s.sync.waits, met w = true → w.island < 768 → (gateOf t w.island).waitOk = true) ∧
      (∀ i, (∀ w ∈ s.sync.waits, met w = true → w.island ≠ i) → gateOf t i = gateOf s i) ∧
      (∀ id c, x.cmd = some id → findCmd s id = some c → (∀ i k a, c.body = some (.signal i k a) → i = x.counter) →
        (∀ w ∈ s.sync.waits, met w = true → w.cmd = none) → HasFinished t c 0 n) ∧
      (∀ w ∈ s.sync.waits, met w = true → w.island = 852 → smGet zeroDefault t.fw.waitStatus w.queue = 1) ∧
      ((∀ w ∈ s.sync.waits, met w = true → w.island ≠ 852) → t.fw = s.fw) ∧
      (2 ^ 64 - 1 < countOf s x.counter + x.amount → HasRecord t 852 Code.SYNC_SATURATE) ∧
      (countOf s x.counter + x.amount ≤ 2 ^ 64 - 1 → t.regs = s.regs ∧ t.recs = s.recs) ∧
      t = { s with
        counts := t.counts, regs := t.regs, recs := t.recs, gates := t.gates
        sync := { s.sync with sigQ := r, waits := t.sync.waits, gated := t.sync.gated }, fw := { s.fw with waitStatus := t.fw.waitStatus }
        host := { s.host with accepted := t.host.accepted, finished := t.host.finished } }

/-- O17. A SIGNAL applied to a PLAIN counter that an enabled pair entry names is counted, and with the counts after it: a consumer ahead of the
producer latches UNDERFLOW, a lead over DEPTH latches OVERFLOW; each fault adds 1 to PAIR_FAULT_COUNT, and the first since the bit was cleared makes
a record; without a fault no register of the pair page changes. -/
def Obligations.PairChecked : Prop :=
  ∀ (s : State) (x : SigRec) (r : List SigRec) (e : Nat), s.sync.sigQ = x :: r → counterMode s x.counter = 0 → pairOf s x.counter = some e →
    ∃ t, exec (.signalApply []) s = .next t ∧ countOf t x.counter = min (2 ^ 64 - 1) (countOf s x.counter + x.amount) ∧
      (∀ i, i ≠ x.counter → countOf t i = countOf s i) ∧ t.sync.sigQ = r ∧
      let p := countOf t (rd s (.syn 17) Reg.SYN17.PAIR_PRODUCER e)
      let c := countOf t (rd s (.syn 17) Reg.SYN17.PAIR_CONSUMER e)
      let faults := rd s (.syn 16) Reg.SYN16.PAIR_FAULT_COUNT
      (p < c → rd t (.syn 16) Reg.SYN16.PAIR_STATUS_UNDERFLOW = 1 ∧ rd t (.syn 16) Reg.SYN16.PAIR_FAULT_COUNT = min (2 ^ 32 - 1) (faults + 1) ∧
        (rd s (.syn 16) Reg.SYN16.PAIR_STATUS_UNDERFLOW = 0 → HasRecord t 852 Code.SYNC_UNDERFLOW)) ∧
      (c ≤ p → rd s (.syn 17) Reg.SYN17.PAIR_DEPTH e < p - c →
        rd t (.syn 16) Reg.SYN16.PAIR_STATUS_OVERFLOW = 1 ∧ rd t (.syn 16) Reg.SYN16.PAIR_FAULT_COUNT = min (2 ^ 32 - 1) (faults + 1) ∧
        (rd s (.syn 16) Reg.SYN16.PAIR_STATUS_OVERFLOW = 0 → HasRecord t 852 Code.SYNC_OVERFLOW)) ∧
      (c ≤ p → p - c ≤ rd s (.syn 17) Reg.SYN17.PAIR_DEPTH e → ∀ a, pageAt a = some (.syn 16) → regWord t a = regWord s a)

/-- O18. A SIGNAL to an ARRIVAL counter, of round r, with d = (r - ROUND) mod 65,536 and N participants: with d = 0 CUR rises by the amount, and
where it reaches N and NEXT is below N the round is released once: ROUND advances, CUR takes NEXT, NEXT is 0, and the count of every ARRIVAL counter
naming the barrier rises by 1; with d = 1 NEXT rises by the amount (a sum of 2^13 or more is free: log entry 24); for larger d, and with N = 0, the
arrival is ignored, and recorded as BARRIER_OVERRUN for d from 2 to 32,767 and N not 0, else as BARRIER_STALE. -/
def Obligations.ArrivalCounted : Prop :=
  ∀ (s : State) (x : SigRec) (r : List SigRec), s.sync.sigQ = x :: r → counterMode s x.counter = 2 →
    let b := counterIndex s x.counter
    let pg := barPage b
    let j := b % 128
    let n := rd s pg Reg.BAR.BARRIER_W0_PARTICIPANTS j
    let cur := rd s pg Reg.BAR.BARRIER_W1_CUR j
    let next := rd s pg Reg.BAR.BARRIER_W1_NEXT j
    let round := rd s pg Reg.BAR.BARRIER_W0_ROUND j
    let d := (x.round + 65536 - round) % 65536
    ∃ t, exec (.signalApply []) s = .next t ∧ t.sync.sigQ = r ∧ rd t pg Reg.BAR.BARRIER_W0_PARTICIPANTS j = n ∧
      (n ≠ 0 → d = 0 → cur + x.amount < n →
        rd t pg Reg.BAR.BARRIER_W1_CUR j = cur + x.amount ∧ rd t pg Reg.BAR.BARRIER_W1_NEXT j = next ∧ rd t pg Reg.BAR.BARRIER_W0_ROUND j = round ∧
        t.counts = s.counts) ∧
      (n ≠ 0 → d = 0 → n ≤ cur + x.amount → next < n →
        rd t pg Reg.BAR.BARRIER_W0_ROUND j = (round + 1) % 65536 ∧ rd t pg Reg.BAR.BARRIER_W1_CUR j = next ∧ rd t pg Reg.BAR.BARRIER_W1_NEXT j = 0 ∧
        (∀ i, i ∉ arrivalCounters s b → countOf t i = countOf s i) ∧ 
        ((arrivalCounters s b).Nodup → ∀ i ∈ arrivalCounters s b, countOf t i = min (2 ^ 64 - 1) (countOf s i + 1))) ∧
      (n ≠ 0 → d = 1 → rd t pg Reg.BAR.BARRIER_W1_CUR j = cur ∧ rd t pg Reg.BAR.BARRIER_W0_ROUND j = round ∧ t.counts = s.counts ∧
        (next + x.amount < 2 ^ 13 → rd t pg Reg.BAR.BARRIER_W1_NEXT j = next + x.amount)) ∧
      (n = 0 ∨ 2 ≤ d →
        rd t pg Reg.BAR.BARRIER_W1_CUR j = cur ∧ rd t pg Reg.BAR.BARRIER_W1_NEXT j = next ∧ rd t pg Reg.BAR.BARRIER_W0_ROUND j = round ∧
        t.counts = s.counts ∧ HasRecord t 852 (if n ≠ 0 ∧ d < 32768 then Code.BARRIER_OVERRUN else Code.BARRIER_STALE))

/-- O19. A SIGNAL of this module to a PROXY counter is counted; where the proxy entry is not VALID a record SYNC_PROXY is made; where it names the
own node the SIGNAL, with the command that waits for it, is applied next to the entry's counter; otherwise a SIGNAL message with the counter, round,
amount and source goes to the entry's node. -/
def Obligations.ProxyForwards : Prop :=
  ∀ (s : State) (x : SigRec) (r : List SigRec), s.sync.sigQ = x :: r → counterMode s x.counter = 1 → (∀ n, x.src ≠ .remote n) →
    countOf s x.counter + x.amount < 2 ^ 64 →
    let e := counterIndex s x.counter
    let node := rd s (.syn 18) Reg.SYN18.PROXY_NODE e
    let c := rd s (.syn 18) Reg.SYN18.PROXY_COUNTER e
    ∃ t, exec (.signalApply []) s = .next t ∧ countOf t x.counter = countOf s x.counter + x.amount ∧ (∀ i, i ≠ x.counter → countOf t i = countOf s i) ∧
      (rd s (.syn 18) Reg.SYN18.PROXY_VALID e = 0 → HasRecord t 852 Code.SYNC_PROXY ∧ t.bnd = s.bnd ∧ t.sync.sigQ = r) ∧
      (rd s (.syn 18) Reg.SYN18.PROXY_VALID e ≠ 0 → node = ownNode s → t.sync.sigQ = { x with counter := c } :: r ∧ t.bnd = s.bnd) ∧
      (rd s (.syn 18) Reg.SYN18.PROXY_VALID e ≠ 0 → node ≠ ownNode s → t.sync.sigQ = r ∧
        ∃ u, u.regs = s.regs ∧ u.bnd = s.bnd ∧
          t.bnd = ((sendMsg (signalMsg node c x.round x.amount (sourceIsland x.src).1 (sourceIsland x.src).2)).run u).bnd)

/-- O20. A write of SIG_GO sends a SIGNAL of the amount written (not 0) to the counter of the identity's own SIG_SEL; a counter's CFG takes MODE (3
keeps it) and INDEX unless it holds a wait or an enabled pair names it, when CFG_BUSY is set; a pair entry that R263 does not allow, whichever of
its words is written, is left disabled with PAIR_REFUSED; a 32-bit read of COUNT returns the low word and latches the high one for the identity; a
64-bit one returns the whole count, and a narrower one its bytes, and neither latches. Nothing else changes. -/
def Obligations.CounterRegisters : Prop :=
  ∀ (s : State) (id : Ident) (v : Word),
    (LetIn s id (fldAddr (.syn 16) Reg.SYN16.SIG_GO 0) false → v ≠ 0 →
      let sel := smGet zeroDefault s.ports.sigSel (identCode id)
      exec (.sigGo id v) s = .next { s with sync := { s.sync with sigQ := s.sync.sigQ ++
        [{ counter := bits sel 0 12, amount := v.toNat, round := bits sel 16 16, src := .sigGo id, run := none, cmd := none, leg := 0x3FFF }] } }) ∧
    (∀ i : Fin 4096, LetIn s id (fldAddr (.syn (i / 256)) Reg.SYN.CFG_MODE (i % 256)) false →
      (registered s i = true ∨ inPair s i = true → ∃ t, exec (.counterCfgWrite id i v) s = .next t ∧
        rd t (.syn 16) Reg.SYN16.SYN_STATUS_CFG_BUSY = 1 ∧ OnlyRegs s t [fldAddr (.syn 16) Reg.SYN16.SYN_STATUS_CFG_BUSY 0]) ∧
      (registered s i = false → inPair s i = false → ∃ t, exec (.counterCfgWrite id i v) s = .next t ∧
        counterMode t i = (if v.toNat % 4 = 3 then counterMode s i else v.toNat % 4) ∧ counterIndex t i = bits v.toNat 8 8 ∧
        OnlyRegs s t [fldAddr (.syn (i / 256)) Reg.SYN.CFG_MODE (i % 256)])) ∧
    (∀ (e : Fin 256) (high : Bool), LetIn s id (fldAddr (.syn 17) Reg.SYN17.PAIR_PRODUCER e) false → ∃ t, exec (.pairEntryWrite id e high v) s = .next t ∧
      (rd t (.syn 17) Reg.SYN17.PAIR_EN e = 1 → pairAllowed t e = true) ∧
      ((if high then rd s (.syn 17) Reg.SYN17.PAIR_EN e = 1 else bit v.toNat 31 = true) → rd t (.syn 17) Reg.SYN17.PAIR_EN e = 0 →
        rd t (.syn 16) Reg.SYN16.SYN_STATUS_PAIR_REFUSED = 1) ∧
      ((if high then rd s (.syn 17) Reg.SYN17.PAIR_EN e = 0 else bit v.toNat 31 = false) →
        rd t (.syn 17) Reg.SYN17.PAIR_EN e = 0 ∧ OnlyRegs s t [0x91100 + 8 * e, 0x91104 + 8 * e]) ∧
      (high = true → rd t (.syn 17) Reg.SYN17.PAIR_DEPTH e = v.toNat) ∧
      (high = false → rd t (.syn 17) Reg.SYN17.PAIR_PRODUCER e = bits v.toNat 0 12) ∧
      OnlyRegs s t [0x91100 + 8 * e, 0x91104 + 8 * e, fldAddr (.syn 16) Reg.SYN16.SYN_STATUS_PAIR_REFUSED 0]) ∧
    (∀ i : Fin 4096, LetRead s id (fldAddr (.syn (i / 256)) Reg.SYN.COUNT_LO (i % 256)) →
      (∃ t, exec (.synCountRead id i 4) s = .next t ∧
        returned t id = countOf s i % 2 ^ 32 ∧ smGet zeroDefault t.ports.countLatch (identCode id) = (i + 1) * 2 ^ 32 + countOf s i / 2 ^ 32 ∧
        (∀ k, k ≠ identCode id → smGet zeroDefault t.ports.countLatch k = smGet zeroDefault s.ports.countLatch k) ∧
        t = { s with ports := { s.ports with response := t.ports.response, countLatch := t.ports.countLatch } }) ∧
      ∀ size, size = 1 ∨ size = 2 ∨ size = 8 → ∃ t, exec (.synCountRead id i size) s = .next t ∧ returned t id = countOf s i % 2 ^ (8 * size) ∧
        t = { s with ports := { s.ports with response := t.ports.response } })

/-- O21. WAIT_EXPIRY of a waiter that still holds a registration and has a limit other than 0: the registration is withdrawn, SYNC_TIMEOUT is
recorded, TO_COUNT rises, the first since SEEN was cleared is kept in the TO registers; of a gate, the run in progress on its piste ends with
SYNC_TIMEOUT; a WAIT command completes with SYNC_TIMEOUT and the count, and a firmware core receives the status. DATAPATH_GATE of a gate stalled on
a registered wait with no earlier leg in progress marks its datapath gated, and changes nothing else. -/
def Obligations.WaitExpires : Prop :=
  ∀ (s : State) (w : WaitRec),
    (∀ island queue, waitAt s island queue = some w → waitLimit s w ≠ 0 → ∃ t, exec (.waitExpiry island queue) s = .next t ∧
      (∀ u ∈ t.sync.waits, u ∈ eraseFirst w s.sync.waits) ∧ HasRecord t island Code.SYNC_TIMEOUT ∧
      rd t (.syn 16) Reg.SYN16.TO_COUNT = min (2 ^ 32 - 1) (rd s (.syn 16) Reg.SYN16.TO_COUNT + 1) ∧
      (rd s (.syn 16) Reg.SYN16.TO_STATUS_SEEN = 0 → rd t (.syn 16) Reg.SYN16.TO_STATUS_SEEN = 1 ∧
        rd t (.syn 16) Reg.SYN16.TO_COUNTER_INDEX = w.counter % 2 ^ 12 ∧ rd t (.syn 16) Reg.SYN16.TO_WAITER_ISLAND = w.island % 2 ^ 10) ∧
      (island < 768 → (pisteOf s (island / 12)).run ≠ none → (pisteOf t (island / 12)).failed = true) ∧
      (∀ id c, 768 ≤ island → w.cmd = some id → findCmd s id = some c → HasFinished t c Code.SYNC_TIMEOUT (countOf s w.counter)) ∧
      (w.island = 852 → smGet zeroDefault t.fw.waitStatus w.queue = Code.SYNC_TIMEOUT + 1) ∧
      t.counts = s.counts ∧ t.mem = s.mem) ∧
    (∀ (p : Fin 64) (g : Fin 12), waitAt s (12 * p + g) 0 = some w → (gateOf s (12 * p + g)).busy = false → (gateOf s (12 * p + g)).held = [] →
      (∀ d ∈ s.units.signalsDue, ¬ (d.piste = p ∧ d.gate = g)) → (∀ d ∈ s.units.outStage, ¬ (d.piste = p ∧ d.gate = g)) →
      (∀ d ∈ s.units.marksDue, ¬ (d.piste = p ∧ d.gate = g)) → tagsOpen s p (some g.val) none = false →
      exec (.datapathGate p g) s = .next { s with sync := { s.sync with gated := smSet flagDefault s.sync.gated (12 * p + g) true } })

/-- O22. A write of a counter's index to ZERO that is let in sets its count to 0 where the counter holds no registration, is PLAIN and belongs to no
enabled pair, and changes nothing else; otherwise it changes nothing but ZERO_REFUSED, which is 1. -/
def Obligations.ZeroGuarded : Prop :=
  ∀ (s : State) (id : Ident) (v : Word),
    (LetIn s id 0x90108 false →
      let i := v.toNat % 4096
      let may := (s.sync.waits.all fun w => !(w.localOf == none && w.counter == i)) && counterMode s i == 0 && !inPair s i
      (may = true → ∃ t, exec (.zero id v) s = .next t ∧ countOf t i = 0 ∧ (∀ k, k ≠ i → countOf t k = countOf s k) ∧ t = { s with counts := t.counts }) ∧
      (may = false → ∃ t, exec (.zero id v) s = .next t ∧ rd t (.syn 16) Reg.SYN16.SYN_STATUS_ZERO_REFUSED = 1 ∧
        OnlyRegs s t [fldAddr (.syn 16) Reg.SYN16.SYN_STATUS_ZERO_REFUSED 0]))

/-- O23. A write of PARTICIPANTS that is let in takes effect only while CUR and NEXT are both 0, and otherwise sets CFG_REFUSED and changes nothing
else; a write of a barrier's number to RESET sets ROUND, CUR and NEXT to 0; an arrival at a barrier whose PARTICIPANTS is 0 is ignored and recorded
as BARRIER_STALE. -/
def Obligations.BarrierSetUp : Prop :=
  ∀ (s : State) (id : Ident) (v : Word),
    (∀ b : Fin 256, LetIn s id (fldAddr (barPage b) Reg.BAR.BARRIER_W0_PARTICIPANTS (b % 128)) false →
      let free := rd s (barPage b) Reg.BAR.BARRIER_W1_CUR (b % 128) = 0 ∧ rd s (barPage b) Reg.BAR.BARRIER_W1_NEXT (b % 128) = 0
      (free → ∃ t, exec (.participantsWrite id b v) s = .next t ∧
        rd t (barPage b) Reg.BAR.BARRIER_W0_PARTICIPANTS (b % 128) = v.toNat % 2 ^ 13 ∧
        rd t (barPage b) Reg.BAR.BARRIER_W0_ROUND (b % 128) = rd s (barPage b) Reg.BAR.BARRIER_W0_ROUND (b % 128) ∧
        OnlyRegs s t [fldAddr (barPage b) Reg.BAR.BARRIER_W0_PARTICIPANTS (b % 128)]) ∧
      (¬ free → ∃ t, exec (.participantsWrite id b v) s = .next t ∧ rd t (barPage b) Reg.BAR.BARRIER_W1_CFG_REFUSED (b % 128) = 1 ∧
        rd t (barPage b) Reg.BAR.BARRIER_W1_CUR (b % 128) = rd s (barPage b) Reg.BAR.BARRIER_W1_CUR (b % 128) ∧
        OnlyRegs s t [fldAddr (barPage b) Reg.BAR.BARRIER_W1_CFG_REFUSED (b % 128)])) ∧
    (LetIn s id (fldAddr (.bar 0) Reg.BAR.RESET 0) false →
      let b := v.toNat % 256
      ∃ t, exec (.barrierReset id v) s = .next t ∧ rd t (barPage b) Reg.BAR.BARRIER_W0_ROUND (b % 128) = 0 ∧
        rd t (barPage b) Reg.BAR.BARRIER_W1_CUR (b % 128) = 0 ∧ rd t (barPage b) Reg.BAR.BARRIER_W1_NEXT (b % 128) = 0 ∧
        rd t (barPage b) Reg.BAR.BARRIER_W0_PARTICIPANTS (b % 128) = rd s (barPage b) Reg.BAR.BARRIER_W0_PARTICIPANTS (b % 128) ∧
        OnlyRegs s t [fldAddr (barPage b) Reg.BAR.BARRIER_W0_ROUND (b % 128), fldAddr (barPage b) Reg.BAR.BARRIER_W1_CUR (b % 128)]) ∧
    (∀ (x : SigRec) (r : List SigRec), s.sync.sigQ = x :: r → counterMode s x.counter = 2 →
      let b := counterIndex s x.counter
      rd s (barPage b) Reg.BAR.BARRIER_W0_PARTICIPANTS (b % 128) = 0 → ∃ t, exec (.signalApply []) s = .next t ∧ t.counts = s.counts ∧
        HasRecord t 852 Code.BARRIER_STALE ∧ ∀ f ∈ [Reg.BAR.BARRIER_W0_ROUND, Reg.BAR.BARRIER_W1_CUR, Reg.BAR.BARRIER_W1_NEXT],
          rd t (barPage b) f (b % 128) = rd s (barPage b) f (b % 128))

/-- O24. A read of LOCK by the sender of a valid channel returns 0 and takes a free lock, or returns the owner of a taken one; by any other identity
it returns 15 and changes nothing but the response; on a channel that is not valid it returns 0 and sets REFUSED. The owner's write of 0 releases
the lock; every other write on a valid channel changes nothing. A core's write of FORCE releases any lock of the channel and sets REFUSED. Nothing
else changes. -/
def Obligations.MailboxLocks : Prop :=
  ∀ (s : State) (id : Ident) (c : Fin 32) (v : Word),
    (LetRead s id (fldAddr mb Reg.MBX0.LOCK c) →
      ∃ t, exec (.mbxLockRead id c) s = .next t ∧ t = { s with regs := t.regs, ports := { s.ports with response := t.ports.response } } ∧
        RegsKept s t [fldAddr mb Reg.MBX0.STATUS_FULL c] ∧
        (chanValid s c = true → chanSender s c = identCode id → rd s mb Reg.MBX0.STATUS_LOCKED c = 0 →
          returned t id = 0 ∧ rd t mb Reg.MBX0.STATUS_LOCKED c = 1 ∧ lockOwner t c = identCode id ∧
          rd t mb Reg.MBX0.STATUS_FULL c = rd s mb Reg.MBX0.STATUS_FULL c) ∧
        (chanValid s c = true → chanSender s c = identCode id → rd s mb Reg.MBX0.STATUS_LOCKED c = 1 → returned t id = lockOwner s c ∧ t.regs = s.regs) ∧
        (chanValid s c = true → chanSender s c ≠ identCode id → returned t id = 15 ∧ t.regs = s.regs) ∧
        (chanValid s c = false → returned t id = 0 ∧ rd t mb Reg.MBX0.STATUS_REFUSED c = 1)) ∧
    (LetIn s id (fldAddr mb Reg.MBX0.LOCK c) false → chanValid s c = true →
      let owns := rd s mb Reg.MBX0.STATUS_LOCKED c = 1 ∧ lockOwner s c = identCode id
      (owns → v.toNat % 16 = 0 → ∃ t, exec (.mbxLockRelease id c v) s = .next t ∧ rd t mb Reg.MBX0.STATUS_LOCKED c = 0 ∧ lockOwner t c = 0 ∧
        rd t mb Reg.MBX0.STATUS_FULL c = rd s mb Reg.MBX0.STATUS_FULL c ∧ OnlyRegs s t [fldAddr mb Reg.MBX0.STATUS_FULL c]) ∧
      (¬ (owns ∧ v.toNat % 16 = 0) → exec (.mbxLockRelease id c v) s = .next s)) ∧
    (LetIn s id (fldAddr (.mbx 1) Reg.MBX1.FORCE 0) false → isCp id = true →
      let k := v.toNat % 32
      (rd s mb Reg.MBX0.STATUS_LOCKED k = 1 → ∃ t, exec (.mbxForce id v) s = .next t ∧ rd t mb Reg.MBX0.STATUS_LOCKED k = 0 ∧ lockOwner t k = 0 ∧
        rd t mb Reg.MBX0.STATUS_REFUSED k = 1 ∧ OnlyRegs s t [fldAddr mb Reg.MBX0.STATUS_FULL k]) ∧
      (rd s mb Reg.MBX0.STATUS_LOCKED k = 0 → exec (.mbxForce id v) s = .next s))

/-- O25. A write of DOORBELL from the lock's owner with FULL 0 and LENGTH 1 to 8 on a valid channel sets FULL and LEN, releases the lock with
RELEASE, and wakes the receiver: EVENT bit c for HOST and DEBUG, the channel's hold on SMB_ALERT_N for MGMT, a MAIL_WAKE message naming the channel
to the partner for PAIR, and for a core its interrupt (that no core is in a low-power state is log entry 106). Every other write of it changes
nothing but REFUSED, which is 1. -/
def Obligations.MailSent : Prop :=
  ∀ (s : State) (id : Ident) (c : Fin 32) (v : Word), LetIn s id (fldAddr mb Reg.MBX0.DOORBELL_LENGTH c) false →
    let len := bits v.toNat 0 4
    let may := chanValid s c = true ∧ rd s mb Reg.MBX0.STATUS_LOCKED c = 1 ∧ lockOwner s c = identCode id ∧ rd s mb Reg.MBX0.STATUS_FULL c = 0 ∧
      1 ≤ len ∧ len ≤ 8
    (may → ∃ t, exec (.mbxDoorbell id c v) s = .next t ∧ rd t mb Reg.MBX0.STATUS_FULL c = 1 ∧ rd t mb Reg.MBX0.STATUS_LEN c = len ∧
      rd t mb Reg.MBX0.STATUS_LOCKED c = (if bit v.toNat 8 then 0 else 1) ∧ (∀ j, j < 8 → dataWord t c j = dataWord s c j) ∧
      (chanReceiver s c = 1 ∨ chanReceiver s c = 8 → bit (regWord t (pageBase mb + 0x10)).toNat c = true ∧
        t = { s with regs := t.regs, host := { s.host with msix := t.host.msix, msixPend := t.host.msixPend } } ∧
        RegsKept s t [fldAddr mb Reg.MBX0.STATUS_FULL c, pageBase mb + 0x10, fldAddr mb Reg.COMMON.EVENT_COUNT (c % 16)]) ∧
      (chanReceiver s c = 2 → smGet flagDefault t.ports.mgmtAlert c = true ∧ t.pins.smbAlertN = false ∧
        t = { s with regs := t.regs, ports := { s.ports with mgmtAlert := t.ports.mgmtAlert }, pins := { s.pins with smbAlertN := false } } ∧
        RegsKept s t [fldAddr mb Reg.MBX0.STATUS_FULL c]) ∧
      (chanReceiver s c = 3 → (∃ u, OnlyRegs s u [fldAddr mb Reg.MBX0.STATUS_FULL c] ∧
          t.bnd = ((request (mkMsg 5 2 (putBits (ownNode s) 15 1 (1 - bits (ownNode s) 15 1)) 0 c [] false) none 0 noLeg 3).run u).bnd) ∧
        t = { s with regs := t.regs, bnd := t.bnd } ∧ RegsKept s t (fldAddr mb Reg.MBX0.STATUS_FULL c :: fabricWords)) ∧
      (4 ≤ chanReceiver s c → chanReceiver s c ≤ 7 → t.fw.coreIrq = s.fw.coreIrq ++ [(chanReceiver s c - 4, (c : Nat))] ∧
        t = { s with regs := t.regs, fw := { s.fw with coreIrq := t.fw.coreIrq } } ∧ RegsKept s t [fldAddr mb Reg.MBX0.STATUS_FULL c])) ∧
    (¬ may → ∃ t, exec (.mbxDoorbell id c v) s = .next t ∧ rd t mb Reg.MBX0.STATUS_REFUSED c = 1 ∧ rd t mb Reg.MBX0.STATUS_FULL c = rd s mb Reg.MBX0.STATUS_FULL c ∧
      lockOwner t c = lockOwner s c ∧ OnlyRegs s t [fldAddr mb Reg.MBX0.STATUS_FULL c])

/-- O26. The receiver of a valid channel with FULL 1 reads a data word, and with the word LEN - 1 FULL clears and EMPTY is set; a word found
uncorrectable reads as 0, counted and recorded (R332). Every other identity, and the receiver with FULL 0 (DESIGN CHOICE of log entry 46), reads 0
and changes nothing but its response. A read of STATUS returns it, and MGMT's ends the channel's hold on SMB_ALERT_N. A binding is taken while
BIND_LOCK is 0, where it names no reserved identity and not one identity twice, else it changes nothing. -/
def Obligations.MailTaken : Prop :=
  ∀ (s : State) (id : Ident) (c : Fin 32) (j : Fin 8) (v : Word),
    (LetRead s id (fldAddr mb Reg.MBX0.DATA0 c + 4 * j) → chanValid s c = true →
      (chanReceiver s c = identCode id → rd s mb Reg.MBX0.STATUS_FULL c = 1 →
        (∃ t, exec (.mbxDataRead id c j false) s = .next t ∧ returned t id = dataWord s c j ∧
          rd t mb Reg.MBX0.STATUS_FULL c = (if rd s mb Reg.MBX0.STATUS_LEN c = j + 1 then 0 else 1) ∧
          (rd s mb Reg.MBX0.STATUS_LEN c = j + 1 → rd t mb Reg.MBX0.STATUS_EMPTY c = 1) ∧
          t = { s with regs := t.regs, ports := { s.ports with response := t.ports.response } } ∧ RegsKept s t [fldAddr mb Reg.MBX0.STATUS_FULL c]) ∧
        (∃ t, exec (.mbxDataRead id c j true) s = .next t ∧ returned t id = 0 ∧ HasRecord t 853 Code.SRAM_UE ∧
          rd t (.mod 1) Reg.MOD1.SRAM_UE_COUNT = min (2 ^ 32 - 1) (rd s (.mod 1) Reg.MOD1.SRAM_UE_COUNT + 1))) ∧
      (∀ ecc, chanReceiver s c ≠ identCode id ∨ rd s mb Reg.MBX0.STATUS_FULL c = 0 → ∃ t, exec (.mbxDataRead id c j ecc) s = .next t ∧ returned t id = 0 ∧
        t = { s with ports := { s.ports with response := t.ports.response } })) ∧
    (LetRead s id (fldAddr mb Reg.MBX0.STATUS_FULL c) → ∃ t, exec (.mbxStatusRead id c) s = .next t ∧
      returned t id = (regWord s (fldAddr mb Reg.MBX0.STATUS_FULL c)).toNat ∧
      (id = .mgmt → smGet flagDefault t.ports.mgmtAlert c = false ∧ (t.pins.smbAlertN = false ↔ alertCause t = true)) ∧
      (id ≠ .mgmt → t.ports.mgmtAlert = s.ports.mgmtAlert ∧ t.pins = s.pins) ∧
      t = { s with
        ports := { s.ports with response := t.ports.response, mgmtAlert := t.ports.mgmtAlert }, pins := { s.pins with smbAlertN := t.pins.smbAlertN } }) ∧
    (LetIn s id (fldAddr (.mbx 1) Reg.MBX1.BIND_SENDER c) false →
      let good := rd s (.mbx 1) Reg.MBX1.BIND_LOCK_LOCK = 0 ∧ bits v.toNat 0 4 ≤ 8 ∧ bits v.toNat 4 4 ≤ 8 ∧ bits v.toNat 0 4 ≠ bits v.toNat 4 4
      (good → ∃ t, exec (.bindWrite id c v) s = .next t ∧ chanSender t c = bits v.toNat 0 4 ∧ chanReceiver t c = bits v.toNat 4 4 ∧
        OnlyRegs s t [fldAddr (.mbx 1) Reg.MBX1.BIND_SENDER c]) ∧
      (¬ good → exec (.bindWrite id c v) s = .next s))

/-- O27. With firmware ready, a request of eight words waiting and the reply channel empty: REPORT places the signed report with the request's nonce
and replies 0 and 1,856 (with measurement registers of 64 bytes each); ALIAS_CERT places the alias key with its signature under the identity key;
DEVICE_CERT places the certificate of flash; EXTEND extends register 5, 6 or 7 by the window's 64 bytes, and refuses a choice of 3; OWNER_KEY blows
the owner key hash and OWNER_EN once, and refuses a second time with SEC_ATTEST. A request that finds firmware busy is answered with status 2, and
REPORT, ALIAS_CERT or OWNER_KEY whose key operation fails with status 1 and SEC_ATTEST (which of them a request meets is its operand: log entry
104). The hashes and keys are the model's (log entries 7 and 8), and the length 3,840 of DEVICE_CERT's reply is its reading (log entry 62). -/
def Obligations.AttestationServed : Prop :=
  ∀ (s : State) (q : Requester),
    (Asked s q 1 → s.sec.meas.flatten.length = 512 → ∃ t, exec (.report q) s = .next t ∧ Replied t q 0 1856 ∧
      getWindow t q 1856 = reportBytes s ((List.range 6).flatMap fun j => leBytes 4 (dataWord s (reqChan q) (j + 2))) ∧
      t.sec = s.sec ∧ t.fuses = s.fuses ∧ t.mem = s.mem) ∧
    (Asked s q 2 → ∃ t, exec (.aliasCert q) s = .next t ∧ Replied t q 0 3073 ∧
      getWindow t q 3073 = falconKey s.sec.aliasSeed ++ falconSig (identitySeed s) (falconKey s.sec.aliasSeed) ∧ t.sec = s.sec ∧ t.fuses = s.fuses ∧ t.mem = s.mem) ∧
    (Asked s q 3 → ∃ t, exec (.deviceCert q) s = .next t ∧ Replied t q 0 3840 ∧
      getWindow t q 3840 = smList byteDefault s.mem.flash 0x02101000 3840 ∧ t.sec = s.sec ∧ t.fuses = s.fuses ∧ t.mem = s.mem) ∧
    (Asked s q 4 → dataWord s (reqChan q) 1 % 4 ≠ 3 → ∃ t, exec (.extend q) s = .next t ∧ Replied t q 0 0 ∧
      t.sec = { s.sec with meas := modAt s.sec.meas (5 + dataWord s (reqChan q) 1 % 4) fun m => shake256 (m ++ shake256 (getWindow s q 64) 64) 64 } ∧
      t.fuses = s.fuses ∧ t.mem = s.mem) ∧
    (Asked s q 4 → dataWord s (reqChan q) 1 % 4 = 3 → ∃ t, exec (.extend q) s = .next t ∧ Replied t q 1 0 ∧ HasRecord t 852 Code.SEC_ATTEST ∧
      t.sec = s.sec ∧ t.fuses = s.fuses ∧ t.mem = s.mem) ∧
    (Asked s q 5 → s.fuses.ownerEn = false → ∃ t, exec (.ownerKey q) s = .next t ∧ Replied t q 0 0 ∧
      t.fuses = { s.fuses with ownerKeyHash := getWindow s q 32, ownerEn := true } ∧ rd t (.sec 0) Reg.SEC0.FUSE_STATE_OWNER_EN = 1 ∧
      t.sec = s.sec ∧ t.mem = s.mem) ∧
    (Asked s q 5 → s.fuses.ownerEn = true → ∃ t, exec (.ownerKey q) s = .next t ∧ Replied t q 1 0 ∧ HasRecord t 852 Code.SEC_ATTEST ∧
      t.fuses = s.fuses ∧ t.sec = s.sec ∧ t.mem = s.mem) ∧
    (∀ c ∈ [(1, Instr.report q .busy), (2, .aliasCert q .busy), (3, .deviceCert q .busy), (4, .extend q .busy), (5, .ownerKey q .busy)],
      Asked s q c.1 → ∃ t, exec c.2 s = .next t ∧ Replied t q 2 0 ∧ t.sec = s.sec ∧ t.fuses = s.fuses ∧ t.mem = s.mem) ∧
    (∀ c ∈ [(1, Instr.report q .keyFails), (2, .aliasCert q .keyFails), (5, .ownerKey q .keyFails)],
      Asked s q c.1 → ∃ t, exec c.2 s = .next t ∧ Replied t q 1 0 ∧ HasRecord t 852 Code.SEC_ATTEST ∧ t.sec = s.sec ∧ t.fuses = s.fuses ∧ t.mem = s.mem)

/-- O28. An access within HBM that its stack admits, to a granule that is not open and with no wrong bytes: a write leaves its bytes, changes no
other byte, and clears the poison of the word only when it writes all of it. A read of a word with 1 or 2 wrong bytes counts a corrected word and
leaves memory as it is; with 3 to 6 it leaves the word poisoned, counts it, records MEM_UE, lists its row for repair and delivers poison. What a
decoder takes more wrong bytes for is free (log entry 47). -/
def Obligations.StackWordsAccessed : Prop :=
  ∀ (s : State) (addr island source : Nat) (data : List Byte), addr < hbmBytes s → admits s (stackOf s addr) = true → openAt s addr = none →
    let st := stackOf s addr
    (data ≠ [] → addr % 64 + data.length ≤ 64 → ∃ t, exec (.hbmAccess addr true data island source 0) s = .next t ∧
      (∀ i, i < data.length → hbmByte t (addr + i) = nth data i 0) ∧ (∀ a, a < addr ∨ addr + data.length ≤ a → hbmByte t a = hbmByte s a) ∧
      hbmPoisoned t addr = (if data.length = 64 then false else hbmPoisoned s addr) ∧
      t = { s with mem := { s.mem with hbm := t.mem.hbm, hbmPoison := t.mem.hbmPoison } }) ∧
    (∀ err, hbmPoisoned s addr = false → 1 ≤ err → err ≤ 2 → ∃ t, exec (.hbmAccess addr false data island source err) s = .next t ∧
      rd t (.stk st) Reg.STK.ECC_STATUS_CE = 1 ∧ rd t (.stk st) Reg.STK.CE_COUNT = min (2 ^ 32 - 1) (rd s (.stk st) Reg.STK.CE_COUNT + 1) ∧
      t = { s with regs := t.regs, stk := { s.stk with repairList := t.stk.repairList, rowSeen := t.stk.rowSeen } } ∧
      RegsKept s t [fldAddr (.stk st) Reg.STK.ECC_STATUS_CE 0, fldAddr (.stk st) Reg.STK.CE_COUNT 0]) ∧
    (∀ err, hbmPoisoned s addr = false → 3 ≤ err → err ≤ 6 → ∃ t, exec (.hbmAccess addr false data island source err) s = .next t ∧
      hbmPoisoned t addr = true ∧ rd t (.stk st) Reg.STK.UE_COUNT = min (2 ^ 32 - 1) (rd s (.stk st) Reg.STK.UE_COUNT + 1) ∧
      HasRecord t (832 + st) Code.MEM_UE ∧ (∃ x ∈ t.stk.repairList, x.2 = addr / 1024) ∧ rd t (.stk st) Reg.STK.ECC_STATUS_POISON_READ = 1 ∧
      t.mem.hbm = s.mem.hbm ∧ t.stk.granules = s.stk.granules)

/-- O29. A request at an admitting stack, to a word that is not poisoned, with no wrong bytes and a residue that agrees, or agrees once the addition
is done again (recorded as ADDER_RECOMPUTE): the granule is open, each masked lane is the saturating I32 sum of its old value and its addend and
every other lane is its old value; every byte outside the granule reads as before; where 256 granules of the stack were open and the granule was
not, the least recently used is written back and no longer open. A request to a poisoned word, or one whose residue does not agree a second time
(ATOMIC_RESIDUE), leaves NaR in all 16 lanes and the granule not poisoned. With a piste, the masked lanes of its scratchpad take their sums, and
nothing else changes. -/
def Obligations.AtomicAddApplied : Prop :=
  ∀ (s : State) (addr mask island : Nat) (lanes : List Word), mask < 2 ^ 16 →
    let ga := addr / 64 * 64
    let st := stackOf s ga
    (∀ chk, addr < hbmBytes s → admits s (stackOf s addr) = true → isPersistent chk = false →
      ∃ t g, exec (.atomicAddRequest none addr mask lanes island 0 chk) s = .next t ∧ openAt t addr = some g ∧ g.poison = false ∧
        (hbmPoisoned s addr = false → g.bytes = lanesBytes ((List.range 16).map fun i =>
          if bit mask i then add32 (codeSV 32 (leNat ((List.range 4).map fun k => hbmByte s (ga + 4 * i + k)))) (codeSV 32 (nth lanes i 0).toNat)
          else codeSV 32 (leNat ((List.range 4).map fun k => hbmByte s (ga + 4 * i + k))))) ∧
        (hbmPoisoned s addr = true → g.bytes = lanesBytes (List.replicate 16 .nan)) ∧
        ((openOf s st).length < 256 → ∀ a, a / 64 ≠ addr / 64 → hbmByte t a = hbmByte s a) ∧
        (∀ x r, openAt s addr = none → openOf s st = x :: r → 256 ≤ (openOf s st).length → (∀ y ∈ t.stk.granules, y.addr ≠ x.addr) ∧
          ∀ i, i < x.bytes.length → smGet byteDefault t.mem.hbm (x.addr + i) = nth x.bytes i 0) ∧
        (chk ≠ .pass → HasRecord t (832 + st) Code.ADDER_RECOMPUTE) ∧ (chk = .pass → t.regs = s.regs ∧ t.recs = s.recs) ∧
        t = { s with
          regs := t.regs, recs := t.recs, stk := { s.stk with granules := t.stk.granules }
          mem := { s.mem with hbm := t.mem.hbm, hbmPoison := t.mem.hbmPoison } }) ∧
    (∀ n, addr < hbmBytes s → admits s (stackOf s addr) = true →
      ∃ t g, exec (.atomicAddRequest none addr mask lanes island 0 (.persistent n)) s = .next t ∧ openAt t addr = some g ∧ g.poison = false ∧
        g.bytes = lanesBytes (List.replicate 16 .nan) ∧ HasRecord t (832 + st) Code.ADDER_RECOMPUTE ∧ HasRecord t (832 + st) Code.ATOMIC_RESIDUE) ∧
    (∀ p : Fin 64, ga < scratchSize p → (∀ i, i < 16 → smGet flagDefault s.mem.scratchPoison ((scratchKey p ga + 4 * i) / 128) = false) →
      ∃ t, exec (.atomicAddRequest (some p) addr mask lanes island 0 .pass) s = .next t ∧
        (∀ i, i < 16 → bit mask i = true → smList byteDefault t.mem.scratch (scratchKey p ga + 4 * i) 4 =
          leBytes 4 (svCode 32 (add32 (codeSV 32 (leNat (smList byteDefault s.mem.scratch (scratchKey p ga + 4 * i) 4))) (codeSV 32 (nth lanes i 0).toNat)))) ∧
        (∀ a, ¬ (scratchKey p ga ≤ a ∧ a < scratchKey p ga + 64 ∧ bit mask ((a - scratchKey p ga) / 4) = true) →
          smGet byteDefault t.mem.scratch a = smGet byteDefault s.mem.scratch a) ∧
        t = { s with mem := { s.mem with scratch := t.mem.scratch } })

/-- O30. A step of a groomer that is not paused, on an admitting stack, moves to the next granule, and past the last one starts the next pass; with
every word of the granule good it changes nothing else. ROW_REPAIR, at an admitting stack, takes the oldest listed row of its stack: with a spare
left in the row's bank and every word good it uses one, counts the repair and keeps it in firmware's log; with none left the row stays in service
and STK_NO_SPARE_ROW is recorded. Either way the row is no longer listed. That a new pass begins a new period of the row counts, and what the repair
log keeps, is log entry 35. STACK_TEMP_READ of a stack in service with power and outside a core reset: TEMP_NOW takes the reading and TEMP_MAX the
highest, and the level is at least WARN, THROTTLE or CRIT exactly where the reading has reached 85, 95 or 105 degrees, or the level was held before
and the reading is not below 82, 92 or 102. Each level newly entered is recorded (one record a level: log entry 36); THERM_N is low while the stack
is at CRIT; no pin but THERM_N and no byte of memory changes. In a core reset no reading is taken (R431; log entry 121). -/
def Obligations.StacksGroomedRepairedRead : Prop :=
  (
  ∀ (s : State) (st : Fin 12),
    (admits s st = true → rd s (.stk st) Reg.STK.GROOM_CTRL_PAUSE = 0 → stackGranules s ≤ 2 ^ 24 → ∃ t, exec (.groomStep st []) s = .next t ∧
      (rd s (.stk st) Reg.STK.GROOM_POS + 1 < stackGranules s →
        rd t (.stk st) Reg.STK.GROOM_POS = rd s (.stk st) Reg.STK.GROOM_POS + 1 ∧ OnlyRegs s t [fldAddr (.stk st) Reg.STK.GROOM_POS 0]) ∧
      (stackGranules s ≤ rd s (.stk st) Reg.STK.GROOM_POS + 1 →
        rd t (.stk st) Reg.STK.GROOM_POS = 0 ∧ rd t (.stk st) Reg.STK.GROOM_PASSES = min (2 ^ 32 - 1) (rd s (.stk st) Reg.STK.GROOM_PASSES + 1) ∧
        t = { s with regs := t.regs, stk := { s.stk with periodUes := smErase st s.stk.periodUes } } ∧
        RegsKept s t [fldAddr (.stk st) Reg.STK.GROOM_POS 0, fldAddr (.stk st) Reg.STK.GROOM_PASSES 0])) ∧
    (∀ k row, s.stk.repairList.find? (fun x => x.1 == (st : Nat)) = some (k, row) → admits s st = true →
      let bank := bankOf s (row * 1024)
      ∃ t, exec (.rowRepair st []) s = .next t ∧ (∀ x ∈ t.stk.repairList, x.2 ≠ row) ∧ (∀ x ∈ s.stk.repairList, x.2 ≠ row → x ∈ t.stk.repairList) ∧
        t.mem = s.mem ∧
        (sparesLeft s bank ≠ 0 → smGet zeroDefault t.stk.spareRows bank = smGet zeroDefault s.stk.spareRows bank + 1 ∧
          rd t (.stk st) Reg.STK.ROWS_REPAIRED = min (2 ^ 32 - 1) (rd s (.stk st) Reg.STK.ROWS_REPAIRED + 1) ∧
          t.fw.repairLog = s.fw.repairLog ++ [(2, bank)]) ∧
        (sparesLeft s bank = 0 → t.stk.spareRows = s.stk.spareRows ∧ rd t (.stk st) Reg.STK.ECC_STATUS_NO_SPARE_ROW = 1 ∧
          HasRecord t (832 + st) Code.STK_NO_SPARE_ROW))) ∧ (
  ∀ (s : State) (st : Fin 12) (x : Nat), s.stk.retired ≠ some (st : Nat) → s.pins.pwrOk = true →
    (stacksReset s = true → exec (.stackTempRead st x) s = .next s) ∧ (stacksReset s = false →
    let cur := rd s (.stk st) Reg.STK.STK_STATUS_THERM
    ∃ t, exec (.stackTempRead st x) s = .next t ∧ rd t (.stk st) Reg.STK.TEMP_NOW = min 255 x ∧
      rd t (.stk st) Reg.STK.TEMP_MAX = max (min 255 x) (rd s (.stk st) Reg.STK.TEMP_MAX) ∧
      (let l := rd t (.stk st) Reg.STK.STK_STATUS_THERM
       (1 ≤ l ↔ 85 ≤ x ∨ (1 ≤ cur ∧ 82 ≤ x)) ∧ (2 ≤ l ↔ 95 ≤ x ∨ (2 ≤ cur ∧ 92 ≤ x)) ∧ (3 ≤ l ↔ 105 ≤ x ∨ (3 ≤ cur ∧ 102 ≤ x)) ∧
       (l = 3 → t.pins.thermN = false) ∧ (cur < 1 → 1 ≤ l → HasRecord t (832 + st) Code.STK_WARN) ∧
       (cur < 2 → 2 ≤ l → HasRecord t (832 + st) Code.STK_THROTTLE) ∧ (cur < 3 → 3 ≤ l → HasRecord t (832 + st) Code.STK_CRIT)) ∧
      t = { s with regs := t.regs, recs := t.recs, pwr := { s.pwr with stackContrib := t.pwr.stackContrib }, pins := { s.pins with thermN := t.pins.thermN } }))

/-- O31. VSB_APPLY marks standby present. A rise of PWR_EN with standby present turns the regulators on, and where the rails hold their windows
raises PWR_OK and ends power-on reset (boot waits while RST_N is low). POWER_UP_TIMEOUT with PWR_EN high and PWR_OK low turns the regulators off.
POWER_DOWN, by VIN where it is below 38 V or above 60 V (R446), drops PWR_OK, turns the regulators off, releases PAIR_ALIVE and begins power-on
reset: the register file is at its reset values, counts and rings are cleared, and fuses, flash and host memory stay. VSB_LOSS, with standby below
10.8 V, does the same and standby is absent. At a VIN or a standby voltage within its limits both change nothing. That HBM and map memory are empty
after a power-down is log entry 1. A loss of REFCLK with power good sets REFCLK and RAIL in PWR_CHECK, counts and records RAIL_FAULT; its return
clears REFCLK. With REFCLK running, a measurement is kept for its island, which on the islands of a piste in service lies within 0.55 % of the
frequency that the piste's level gives (R414, R415; what is asked of a measurement is log entry 122); with REFCLK stopped nothing is measured. An
input rail read below 38 V or above 60 V powers the module down (R446). A rail reading outside its window is recorded once until the rail has
returned to its window, and its reading is shown; inside the window nothing is recorded, and one reading inside it clears the mark (log entry 36).
-/
def Obligations.PowerClockAndRails : Prop :=
  (
  ∀ (s : State) (cause : DownCause) (vin mv : Nat),
    exec .vsbApply s = .next { s with pins := { s.pins with vsb := true } } ∧
    (s.pins.vsb = true → s.pins.pwrEn = false →
      exec (.pwrEnRise false) s = .next { s with pins := { s.pins with vin := true, pwrEn := true, regsOn := true } } ∧
      ∃ t, exec (.pwrEnRise true) s = .next t ∧ t.pins = { s.pins with vin := true, pwrEn := true, regsOn := true, pwrOk := true } ∧
        t.sec.phase = (if s.pins.rstN then .booting else .held 0) ∧ t.mem = s.mem ∧ t.counts = s.counts ∧ t.fuses = s.fuses) ∧
    (s.pins.pwrEn = true → s.pins.pwrOk = false → exec .powerUpTimeout s = .next { s with pins := { s.pins with regsOn := false } }) ∧
    (cause = .vinLimit → 3800 ≤ vin → vin ≤ 6000 → exec (.powerDown cause vin) s = .next s) ∧ (10800 ≤ mv → exec (.vsbLoss mv) s = .next s) ∧
    ((cause = .vinLimit → vin < 3800 ∨ 6000 < vin) → ∃ t, exec (.powerDown cause vin) s = .next t ∧ t.pins.pwrOk = false ∧ t.pins.regsOn = false ∧ t.pins.aliveLow = false ∧ t.sec.phase = .off ∧
      (cause = .pwrEn → t.pins.pwrEn = false) ∧ (∀ a, regWord t a = regReset a) ∧ t.counts = [] ∧ t.fr.held = [] ∧ t.host.accepted = [] ∧
      t.fuses = s.fuses ∧ t.mem.flash = s.mem.flash ∧ t.mem.host = s.mem.host ∧ t.mem.hbm = [] ∧ t.mem.mapMem = []) ∧
    (mv < 10800 → ∃ t, exec (.vsbLoss mv) s = .next t ∧ t.pins.vsb = false ∧ t.pins.pwrOk = false ∧ t.pins.regsOn = false ∧ (∀ a, regWord t a = regReset a) ∧
      t.counts = [] ∧ t.fuses = s.fuses)) ∧ (
  ∀ (s : State),
    (s.pins.refclk = true → s.pins.pwrOk = true → ∃ t, exec .refclkLoss s = .next t ∧ t.pins = { s.pins with refclk := false } ∧
      rd t .pwr Reg.PWR.PWR_CHECK_REFCLK = 1 ∧ rd t .pwr Reg.PWR.PWR_CHECK_RAIL = 1 ∧
      rd t .pwr Reg.PWR.RAIL_COUNT = min (2 ^ 32 - 1) (rd s .pwr Reg.PWR.RAIL_COUNT + 1) ∧ HasRecord t 853 Code.RAIL_FAULT ∧
      t = { s with regs := t.regs, recs := t.recs, pins := t.pins }) ∧
    (s.pins.refclk = false → ∃ t, exec .refclkReturn s = .next t ∧ t.pins = { s.pins with refclk := true } ∧ rd t .pwr Reg.PWR.PWR_CHECK_REFCLK = 0 ∧
      t = { s with regs := t.regs, pins := t.pins } ∧ RegsKept s t [fldAddr .pwr Reg.PWR.PWR_CHECK_REFCLK 0]) ∧
    (∀ island khz, s.pins.refclk = false → exec (.frequencyMeasure island khz) s = .next s) ∧
    (∀ island khz, island < 854 → s.pins.pwrOk = true → s.pins.refclk = true →
      (∀ p, leveledPiste island = some p → fenced s p = false ∧
        (let f := (600 - 30 * min 15 (smGet zeroDefault s.pwr.level p)) * 1000
         f * 99450 ≤ khz * 100000 ∧ khz * 100000 ≤ f * 100550)) →
      exec (.frequencyMeasure island khz) s = .next { s with pwr := { s.pwr with freq := smSet zeroDefault s.pwr.freq island khz } }) ∧
    (∀ v i, s.pins.pwrOk = true → v < 3800 ∨ 6000 < v → ∃ t, exec (.railFault 0 v i) s = .next t ∧ t.pins.pwrOk = false ∧ t.pins.regsOn = false ∧
      t.sec.phase = .off ∧ t.counts = [] ∧ t.fuses = s.fuses) ∧
    (∀ (r : Fin 24) (v i : Nat), s.pins.pwrOk = true → (r.val = 0 → 3800 ≤ v ∧ v ≤ 6000) →
      let out := v < (railWindow r).1 ∨ (railWindow r).2 < v
      ∃ t, exec (.railFault r v i) s = .next t ∧ rd t .tlm Reg.TLM.RAIL_V r = min 65535 v ∧ rd t .tlm Reg.TLM.RAIL_I r = min 65535 i ∧
        (smGet flagDefault t.pwr.railOut r = true ↔ out) ∧
        (out → smGet flagDefault s.pwr.railOut r = false → HasRecord t 853 Code.RAIL_FAULT ∧
          rd t .pwr Reg.PWR.RAIL_COUNT = min (2 ^ 32 - 1) (rd s .pwr Reg.PWR.RAIL_COUNT + 1)) ∧
        (¬ (out ∧ smGet flagDefault s.pwr.railOut r = false) → t.recs = s.recs ∧ rd t .pwr Reg.PWR.RAIL_COUNT = rd s .pwr Reg.PWR.RAIL_COUNT) ∧
        t = { s with regs := t.regs, recs := t.recs, pwr := { s.pwr with railOut := t.pwr.railOut } }))

/-- O32. A reading of all 96 sensors, each below 125 degrees, with power good: each sensor's reading is shown; its CRIT bit is set exactly where it
reads 110 or more, or was at CRIT and reads 105 or more, and its WARN bit likewise with 90 and 87; DIE_MAX is at least every reading; THERM_N is low
where any sensor is at CRIT. A reading of 125 or more powers the module down. POWER_EVALUATION with power good: with the input power over 2,900 W
the input bucket is full and C rises by 2, to at most 15; with both powers at or below their caps C does not rise; each time C leaves 0 a record
POWER_CAP is made; P_IN shows the input power in watts; no piste's level moves by more than one (the model's choice: log entry 36), and none while
REFCLK is stopped (R416). Nothing but power state, registers and records changes. -/
def Obligations.SensorsReadPowerCapped : Prop :=
  (
  ∀ (s : State) (temps : List Nat), s.pins.pwrOk = true → temps.length = 96 →
    ((∀ x ∈ temps, x < 125) → ∃ t, exec (.dieSensorRead temps) s = .next t ∧
      (∀ i, i < 96 → bits (rd t .tlm Reg.TLM.DIE_TEMP (i / 4)) (8 * (i % 4)) 8 = nth temps i 0 ∧ nth temps i 0 ≤ rd t .tlm Reg.TLM.DIE_MAX ∧
        (let was := smGet zeroDefault s.pwr.dieLevel i
         (bit (smGet zeroDefault t.pwr.dieLevel i) 0 = true ↔ 90 ≤ nth temps i 0 ∨ (bit was 0 = true ∧ 87 ≤ nth temps i 0)) ∧
         (bit (smGet zeroDefault t.pwr.dieLevel i) 2 = true ↔ 110 ≤ nth temps i 0 ∨ (bit was 2 = true ∧ 105 ≤ nth temps i 0)))) ∧
      ((∃ i, i < 96 ∧ bit (smGet zeroDefault t.pwr.dieLevel i) 2 = true) → t.pins.thermN = false) ∧
      t = { s with regs := t.regs, recs := t.recs, pwr := t.pwr, pins := { s.pins with thermN := t.pins.thermN } }) ∧
    ((∃ x ∈ temps, 125 ≤ x) → ∃ t, exec (.dieSensorRead temps) s = .next t ∧ t.pins.pwrOk = false ∧ t.pins.regsOn = false ∧ t.sec.phase = .off ∧
      (∀ a, regWord t a = regReset a) ∧ t.fuses = s.fuses)) ∧ (
  ∀ (s : State) (rails : List (Nat × Nat)), s.pins.pwrOk = true →
    let pin := powerOf rails 0 1
    let pdie := powerOf rails 1 8
    let c := rd s .pwr Reg.PWR.CAP_C
    ∃ t, exec (.powerEvaluation rails) s = .next t ∧ rd t .tlm Reg.TLM.P_IN = min 65535 (pin / 10000) ∧
      (29000000 < pin → t.pwr.bucketIn = 50000000000 ∧ rd t .pwr Reg.PWR.CAP_C = min 15 (c + 2)) ∧
      (pin ≤ inputCap s * 10000 → pin ≤ 29000000 → pdie ≤ 13500000 → rd t .pwr Reg.PWR.CAP_C ≤ c) ∧
      (c = 0 → rd t .pwr Reg.PWR.CAP_C ≠ 0 → HasRecord t 853 Code.POWER_CAP) ∧
      (∀ p, p < 64 → smGet zeroDefault t.pwr.level p ≤ smGet zeroDefault s.pwr.level p + 1 ∧
        smGet zeroDefault s.pwr.level p ≤ smGet zeroDefault t.pwr.level p + 1 ∧
        (s.pins.refclk = false → smGet zeroDefault t.pwr.level p = smGet zeroDefault s.pwr.level p)) ∧
      t = { s with regs := t.regs, recs := t.recs, pwr := t.pwr })

/-- O33. Power-on reset leaves every register at its reset value with PWR_OK low, and keeps fuses, flash, host memory and firmware's repair log. A
system reset, while RST_N is looked at and outside a boot after power-on, keeps besides the debug page and the counts since power-on, sets PIN and
LAST_LEVEL 1 and counts itself; every other register is at its reset value, and counts, the record ring, runs, rings and stored fabric state are
cleared. A core reset after firmware has been ready clears counts, runs, pistes, gates, regions, epochs and the pages of R431, completes every
accepted command with CMD_CORE_RESET (what its DETAIL shows is log entry 88), keeps the record ring, the measurement registers, the configuration
space and the host and Baond pages, sets PIN and LAST_LEVEL 2 and counts itself. Every word of a cleared page with no field that R431 keeps reads
its reset value, those of the stack pages too, whose stacks stand in self refresh until the exit (log entry 37). A ROM that a failed exit has halted
stays halted. Before firmware has been ready it acts as a system reset. A pulse during a boot after power-on restarts that boot at its own level:
every register but of the RST page and the debug challenge is at its reset value, PIN is set, and LAST_LEVEL reads 1 (log entry 97). -/
def Obligations.ResetsClear : Prop :=
  ∀ s : State, SMapCanon regReset s.regs →
    (∃ t, exec .powerOnReset s = .next t ∧ (∀ a, regWord t a = regReset a) ∧ t.pins.pwrOk = false ∧ t.pins.aliveLow = false ∧ t.sec.phase = .off ∧
      t.counts = [] ∧ t.fr.held = [] ∧ t.fuses = s.fuses ∧ t.mem.flash = s.mem.flash ∧ t.mem.host = s.mem.host ∧ t.fw.repairLog = s.fw.repairLog) ∧
    (resettable s = true → powerOnBoot s = false → ∃ t, exec .systemReset s = .next t ∧ rd t .rst Reg.RST.RESET_CAUSE_PIN = 1 ∧ rd t .rst Reg.RST.RESET_CAUSE_LAST_LEVEL = 1 ∧
      rd t .rst Reg.RST.SYSTEM_COUNT = min (2 ^ 32 - 1) (rd s .rst Reg.RST.SYSTEM_COUNT + 1) ∧
      rd t .dbg Reg.DBG.CP_STATE_HALTED = rd s .dbg Reg.DBG.CP_STATE_HALTED ∧
      (∀ a pg, pageAt a = some pg → pg ≠ .dbg → pg ≠ .rst → pg ≠ .sec 0 → (∀ f ∈ wordFields pg (a % 4096), f.sincePowerOn = false) →
        regWord t a = regReset a) ∧
      t.counts = [] ∧ t.fr.held = [] ∧ t.runs.runs = [] ∧ t.host.accepted = [] ∧ t.bnd.inbox = [] ∧ t.rgn.committed = [] ∧ t.mode = ModeSt.zero ∧
      t.layout = LayoutSt.zero ∧ t.stk.spareRows = s.stk.spareRows ∧ t.sec.phase = .held 1 ∧ t.pins.aliveLow = false ∧ t.fuses = s.fuses ∧
      t.mem.flash = s.mem.flash ∧ t.mem.host = s.mem.host) ∧
    (resettable s = true → s.sec.everReady = true → ∃ t, exec .coreReset s = .next t ∧ rd t .rst Reg.RST.RESET_CAUSE_PIN = 1 ∧
      rd t .rst Reg.RST.RESET_CAUSE_LAST_LEVEL = 2 ∧ rd t .rst Reg.RST.CORE_COUNT = min (2 ^ 32 - 1) (rd s .rst Reg.RST.CORE_COUNT + 1) ∧
      t.counts = [] ∧ t.runs.runs = [] ∧ t.pistes = [] ∧ t.gates = [] ∧ t.rgn.committed = [] ∧ t.mode = ModeSt.zero ∧ t.layout = LayoutSt.zero ∧
      t.units = UnitSt.empty ∧ t.mem.mapMem = [] ∧ t.mem.host = s.mem.host ∧ t.mem.flash = s.mem.flash ∧
      (s.stk.granules = [] → t.mem.hbm = s.mem.hbm ∧ t.mem.hbmPoison = s.mem.hbmPoison) ∧ t.stk.granules = [] ∧ t.stk.spareRows = s.stk.spareRows ∧
      t.host.accepted = [] ∧ (∀ c ∈ s.host.accepted, HasFinished t c Code.CMD_CORE_RESET (earlyDetail { s with counts := [] } c)) ∧ t.fr = s.fr ∧ t.sec.meas = s.sec.meas ∧
      t.sec.phase = (if s.sec.phase = .halted then .halted else .held 2) ∧ t.fuses = s.fuses ∧ t.pins.aliveLow = s.pins.aliveLow ∧
      t.host.config = s.host.config ∧ t.host.bar2 = s.host.bar2 ∧
      (∀ a pg, pageAt a = some pg → coreCleared pg = true → coreKept pg (a % 4096) = [] → pg ≠ .rst → regWord t a = regReset a) ∧
      (∀ p, p < 64 → rdRaw t (.pst p) Reg.PST.RUN_CTRL_FENCED = rdRaw s (.pst p) Reg.PST.RUN_CTRL_FENCED) ∧
      (∀ a pg, pageAt a = some pg → coreCleared pg = false → pg ≠ .rst → pg ≠ .mbx 0 → regWord t a = regWord s a)) ∧
    (resettable s = true → powerOnBoot s = true → ∃ t, exec .systemReset s = .next t ∧ t.pins.pwrOk = true ∧ t.pins.rstN = false ∧
      t.sec.phase = .held 0 ∧ rd t .rst Reg.RST.RESET_CAUSE_PIN = 1 ∧ rd t .rst Reg.RST.RESET_CAUSE_LAST_LEVEL = 1 ∧
      (∀ a pg, pageAt a = some pg → pg ≠ .rst → pg ≠ .sec 0 → regWord t a = regReset a) ∧ t.counts = [] ∧ t.fr.held = [] ∧
      t.fuses = s.fuses ∧ t.mem.flash = s.mem.flash ∧ t.mem.host = s.mem.host) ∧
    (resettable s = true → s.sec.everReady = false → exec .coreReset s = exec .systemReset s)

/-- O34. While PWR_OK is low a pulse of RST_N of either length changes nothing but the pin's level. Where RST_N is low when PWR_OK rises, the boot
waits: it begins with BOOT, which comes with the rising edge of RST_N, and whatever boot meets PIN and LAST_LEVEL stay as power-on reset leaves
them, PIN 0 and LAST_LEVEL 0 (power-on). -/
def Obligations.RstNIgnored : Prop :=
  ∀ (s : State),
    (s.pins.pwrOk = false → exec .coreReset s = .next { s with pins := { s.pins with rstN := false } } ∧
      exec .systemReset s = .next { s with pins := { s.pins with rstN := false } }) ∧
    (∃ t, exec .powerOnReset s = .next t ∧ rd t .rst Reg.RST.RESET_CAUSE_PIN = 0 ∧ rd t .rst Reg.RST.RESET_CAUSE_LAST_LEVEL = 0) ∧
    (s.pins.vsb = true → s.pins.pwrEn = false → s.pins.rstN = false → ∃ t, exec (.pwrEnRise true) s = .next t ∧ t.pins.pwrOk = true ∧
      t.sec.phase = .held 0 ∧ (∀ a, pageAt a = some .rst → regWord t a = regWord s a)) ∧
    (s.pins.pwrOk = true → s.sec.phase = .held 0 → s.pins.rstN = false → exec .coreReset s = .next s ∧ exec .systemReset s = .next s ∧
      (s.pins.refclk = true → s.sec.everReady = false → rd s .rst Reg.RST.BOOT_STATUS_STEP = 0 →
        ∀ samples fuseError bad links lanes speed, ∃ t, exec (.boot samples fuseError bad links lanes speed) s = .next t ∧ t.pins.rstN = true ∧
          2 ≤ rd t .rst Reg.RST.BOOT_STATUS_STEP ∧ (fuseError = true → rd t .rst Reg.RST.BOOT_STATUS_STEP = 2 ∧ t.sec.phase = .halted) ∧
          rd t .rst Reg.RST.RESET_CAUSE_PIN = rd s .rst Reg.RST.RESET_CAUSE_PIN ∧
          rd t .rst Reg.RST.RESET_CAUSE_LAST_LEVEL = rd s .rst Reg.RST.RESET_CAUSE_LAST_LEVEL))

/-- O35. From a core reset with the image good and no core halted: the active stacks leave self refresh, firmware reports ready, PAIR_ALIVE is low
unless released, counts and the record ring are as before. Where a check of the image fails, or the flash does not read, the ROM halts with
SEC_IMAGE. A core halted through the debug port leaves the exit waiting (R437). -/
def Obligations.CoreResetExits : Prop :=
  ∀ s : State, s.pins.pwrOk = true → s.sec.everReady = true → s.sec.phase = .held 2 →
    (∀ ok, fwRuns s = false → exec (.coreResetExit ok) s = .next { s with pins := { s.pins with rstN := true } }) ∧
    (∀ ok, fwRuns s = true → exitFails ok s = none → ∃ t, exec (.coreResetExit ok) s = .next t ∧ t.sec.phase = .ready ∧ rd t .rst Reg.RST.BOOT_STATUS_READY = 1 ∧
      t.pins.rstN = true ∧ (t.pins.aliveLow = true ↔ rd t (.mod 4) Reg.MOD4.PAIR_CTRL_ALIVE_RELEASE = 0) ∧ t.counts = s.counts ∧ t.fr = s.fr ∧
      (∀ st, st < 12 → rd t (.stk st) Reg.STK.STK_STATUS_STATE = if s.stk.retired = some st then 3 else 1) ∧
      t.mem = s.mem ∧ t.host = s.host ∧ t.fuses = s.fuses) ∧
    (∀ ok c, fwRuns s = true → exitFails ok s = some c → ∃ t, exec (.coreResetExit ok) s = .next t ∧ t.sec.phase = .halted ∧ HasRecord t 852 Code.SEC_IMAGE ∧ t.pins.rstN = true ∧ t.counts = s.counts ∧
      t.mem = s.mem)

/-- O36. With no core halted through the debug port, from step 5 with at most one bad stack and none marked for retirement, the boot trains the
stacks in use, sets their number, goes through its remaining steps, and firmware reports ready at step 9. Two bad stacks halt it with HBM_FATAL at
step 5. A fuse error at step 3 halts it with an alarm. A strap of one code from 4 to 15 sampled at step 2 is shown as it was read; eight samples
that do not agree give code 15 and UNSTABLE. A flash boot with no slot to try waits for the host with a record SEC_IMAGE (the record with no slot
tried is the model's choice, log entry 48). -/
def Obligations.BootRuns : Prop :=
  ∀ (s : State) (samples : List Nat) (links : List (Option LinkRec)) (lanes speed : Nat), s.pins.pwrOk = true → s.pins.refclk = true →
    s.sec.everReady = false → s.sec.phase = .booting →
    (∀ bad : List Nat, rd s .rst Reg.RST.BOOT_STATUS_STEP = 5 → fwRuns s = true → (∀ i, smGet flagDefault s.stk.retireMark i = false) →
      (((List.range 12).filter fun i => bad.contains i).length ≤ 1 → ∃ t, exec (.boot samples false bad links lanes speed) s = .next t ∧
        t.sec.phase = .ready ∧ t.sec.everReady = true ∧ rd t .rst Reg.RST.BOOT_STATUS_STEP = 9 ∧ rd t .rst Reg.RST.BOOT_STATUS_READY = 1 ∧
        rd t (.mod 0) Reg.MOD0.CONFIG_ACTIVE_STACKS = 12 - ((List.range 12).filter fun i => bad.contains i).length ∧
        (∀ st, st < 12 → bad.contains st = false → rd t (.stk st) Reg.STK.STK_STATUS_STATE = 1) ∧ rd t (.mod 2) Reg.COMMON.PORT_ACCESS_LOCK = 1 ∧
        t.fuses = s.fuses ∧ t.counts = s.counts) ∧
      (2 ≤ ((List.range 12).filter fun i => bad.contains i).length → ∃ t, exec (.boot samples false bad links lanes speed) s = .next t ∧
        t.sec.phase = .halted ∧ rd t .rst Reg.RST.BOOT_STATUS_STEP = 5 ∧ HasRecord t 852 Code.HBM_FATAL)) ∧
    (rd s .rst Reg.RST.BOOT_STATUS_STEP = 0 → ∃ t, exec (.boot samples true [] links lanes speed) s = .next t ∧ t.sec.phase = .halted ∧
      rd t .rst Reg.RST.BOOT_STATUS_STEP = 2 ∧ 0 < smGet zeroDefault t.recs.alarmPend (853 * 16 + 11) ∧
      (∀ c, samples.length = 8 → (∀ x ∈ samples, min 15 (x / 16) = c) → rd t .rst Reg.RST.STRAP_CODE = c ∧ rd t .rst Reg.RST.STRAP_UNSTABLE = 0) ∧
      ((∃ x ∈ samples, ∃ y ∈ samples, min 15 (x / 16) ≠ min 15 (y / 16)) → samples.length = 8 →
        rd t .rst Reg.RST.STRAP_CODE = 15 ∧ rd t .rst Reg.RST.STRAP_UNSTABLE = 1)) ∧
    (rd s .rst Reg.RST.BOOT_STATUS_STEP = 4 → fwRuns s = true → codeHost (actingCode s) = false → s.sec.fromHost = false → slotOrder s = [] →
      ∃ t, exec (.boot samples false [] links lanes speed) s = .next t ∧ t.sec.phase = .waitHost ∧ rd t .rst Reg.RST.BOOT_STATUS_STEP = 4 ∧
        HasRecord t 852 Code.SEC_IMAGE ∧ t.fuses = s.fuses)

/-- O37. Training of a link that is down, from boot step 8 or while the ROM waits for a host image, leaves it UP at width 16 (code 2) where all 16
lanes train, at width 8 (code 1) with DEGRADED recorded where lanes 0 to 7 do and not all 16, else down (the mask of lanes is log entry 49); a link
that goes down is recorded, and the mailbox locks of HOST are released. On the full link, from boot step 8, a snoop is answered without a line held,
and a decoder commit of the window's size commits it, any other fails. An invalidation drops the translations of its pages. With the full link up,
the decoder committed and the address inside the window and the capacity, a write within one 64 B word leaves its bytes in the DRAM and no other
byte changes; a whole word clears its poison. A read returns the 64 B word, marked poisoned exactly where it is; of a poisoned word it counts a
poisoned read, and of a good one it changes nothing else. Open granules are not consulted (log entry 50). -/
def Obligations.HostLinkAndWindow : Prop :=
  (
  ∀ (s : State),
    (∀ lanes speed, s.pins.pwrOk = true → rd s .hif Reg.HIF.LINK_STATUS_UP = 0 → (8 ≤ rd s .rst Reg.RST.BOOT_STATUS_STEP ∨ s.sec.phase = .waitHost) →
      ∃ t, exec (.cxlLinkTrain lanes speed) s = .next t ∧ t.mem = s.mem ∧ t.counts = s.counts ∧ t.fr = s.fr ∧
        (bits lanes 0 16 = 65535 → rd t .hif Reg.HIF.LINK_STATUS_UP = 1 ∧ rd t .hif Reg.HIF.LINK_STATUS_WIDTH = 2 ∧ rd t .hif Reg.HIF.LINK_STATUS_SPEED = min 2 speed ∧
          (speed < 2 → rd t .hif Reg.HIF.HIF_CHECK_SLOW = 1 ∧ HasRecord t 851 Code.CXL_LINK_SLOW) ∧ (2 ≤ speed → t.recs = s.recs)) ∧
        (bits lanes 0 8 = 255 → bits lanes 0 16 ≠ 65535 → rd t .hif Reg.HIF.LINK_STATUS_UP = 1 ∧ rd t .hif Reg.HIF.LINK_STATUS_WIDTH = 1 ∧ rd t .hif Reg.HIF.HIF_CHECK_DEGRADED = 1 ∧
          HasRecord t 851 Code.CXL_LINK_DEGRADED) ∧
        (bits lanes 0 8 ≠ 255 → rd t .hif Reg.HIF.LINK_STATUS_UP = 0)) ∧
    (rd s .hif Reg.HIF.LINK_STATUS_UP = 1 → ∃ t, exec .cxlLinkDown s = .next t ∧ rd t .hif Reg.HIF.LINK_STATUS_UP = 0 ∧
      rd t .hif Reg.HIF.HIF_CHECK_LINK_DOWN = 1 ∧ HasRecord t 851 Code.CXL_LINK_DOWN ∧
      (∀ c, c < 32 → rd s mb Reg.MBX0.STATUS_LOCKED c = 1 → lockOwner s c = 1 → rd t mb Reg.MBX0.STATUS_LOCKED c = 0 ∧ rd t mb Reg.MBX0.STATUS_REFUSED c = 1) ∧
      (∀ c, c < 32 → lockOwner s c ≠ 1 → regWord t (fldAddr mb Reg.MBX0.STATUS_FULL c) = regWord s (fldAddr mb Reg.MBX0.STATUS_FULL c)) ∧
      t = { s with regs := t.regs, recs := t.recs }) ∧
    (cxlFull s = true →
      (∀ addr, exec (.h2dSnoop addr) s = .next { s with host := { s.host with snooped := s.host.snooped ++ [addr / 64 * 64] } }) ∧
      (∀ units, exec (.hdmCommit units) s =
        .next { s with host := { s.host with hdmCommit := if units = rd s .hif Reg.HIF.HDM_UNITS then 1 else 2 } })) ∧
    (rd s .hif Reg.HIF.LINK_STATUS_UP = 1 → ∀ page count refuse, ∃ t, exec (.atsInvalidation page count refuse) s = .next t ∧
        (∀ q, page ≤ q → q < page + count → smGet flagDefault t.mem.atc q = false ∧ smGet flagDefault t.mem.hostRefused q = refuse) ∧
        (∀ q, q < page ∨ page + count ≤ q → smGet flagDefault t.mem.atc q = smGet flagDefault s.mem.atc q ∧
          smGet flagDefault t.mem.hostRefused q = smGet flagDefault s.mem.hostRefused q) ∧
        t = { s with mem := { s.mem with atc := t.mem.atc, hostRefused := t.mem.hostRefused } })) ∧ (
  ∀ (s : State) (off : Nat) (data : List Byte),
    let a := (hdmWindow s).1 + off
    let st := stackOf s a
    cxlFull s = true → s.host.hdmCommit = 1 → off < (hdmWindow s).2 → a < hbmBytes s → admits s st = true →
      (data ≠ [] → a % 64 + data.length ≤ 64 → ∃ t, exec (.cxlMemRequest true off data) s = .next t ∧
        (∀ i, i < data.length → smGet byteDefault t.mem.hbm (a + i) = nth data i 0) ∧
        (∀ b, b < a ∨ a + data.length ≤ b → smGet byteDefault t.mem.hbm b = smGet byteDefault s.mem.hbm b) ∧
        smGet flagDefault t.mem.hbmPoison (a / 64) = (if data.length = 64 then false else smGet flagDefault s.mem.hbmPoison (a / 64)) ∧
        t = { s with mem := { s.mem with hbm := t.mem.hbm, hbmPoison := t.mem.hbmPoison } }) ∧
      (let got := fun (bad : Bool) => { s.host with memData := (List.range 64).map fun i => smGet byteDefault s.mem.hbm (a / 64 * 64 + i), memPoison := bad }
       (smGet flagDefault s.mem.hbmPoison (a / 64) = false → exec (.cxlMemRequest false off data) s = .next { s with host := got false }) ∧
       (smGet flagDefault s.mem.hbmPoison (a / 64) = true → ∃ t, exec (.cxlMemRequest false off data) s = .next t ∧ t.host = got true ∧
         rd t (.stk st) Reg.STK.ECC_STATUS_POISON_READ = 1 ∧
         rd t (.stk st) Reg.STK.POISON_COUNT = min (2 ^ 32 - 1) (rd s (.stk st) Reg.STK.POISON_COUNT + 1) ∧
         OnlyRegs { s with host := got true } t [fldAddr (.stk st) Reg.STK.ECC_STATUS_POISON_READ 0, fldAddr (.stk st) Reg.STK.POISON_COUNT 0])))

/-- O38. On a port that is up, IDLE_ACK sends an IDLE flit and KEEPALIVE a KEEPALIVE flit with the module's link record; each carries the last SEQ
accepted as ACK, the freed count of the pool whose turn it is and a NAK that is due, then the next pool has its turn and no NAK is due; a sparing
request that waits for its confirmation goes out again behind the IDLE flit (the model's choice: log entry 93). Nothing else changes. -/
def Obligations.PortsSend : Prop :=
  ∀ (s : State) (p : Fin 7), portUp s p = true →
    let l := linkOf s p
    let sent := fun (ftype : Nat) (payload : List Byte) => { s with bnd := { s.bnd with
      links := smSet (fun _ => LinkSt.down) s.bnd.links p { l with poolTurn := (l.poolTurn + 1) % 28, nakDue := false }
      flitOut := s.bnd.flitOut ++ [((p : Nat), flitBytes ftype 0 l.rxSeq l.poolTurn (smGet zeroDefault l.freed l.poolTurn) l.nakDue payload)] } }
    ((linkOf s p).pendingLane = none → exec (.idleAck p) s = .next (sent 0 [])) ∧
    ((linkOf s p).pendingLane ≠ none → ∃ t, exec (.idleAck p) s = .next t ∧ t = { s with bnd := t.bnd, freeCount := t.freeCount } ∧
      t.bnd.flitOut.length = s.bnd.flitOut.length + 2 ∧ t.bnd.flitOut.take (s.bnd.flitOut.length + 1) = (sent 0 []).bnd.flitOut ∧
      (linkOf t p).pendingLane = (linkOf s p).pendingLane) ∧
    exec (.keepalive p) s = .next (sent 3 (linkRecord s p))

/-- O39. LINK_SILENT and LOSS_OF_SIGNAL on a port that is up leave it DOWN with ROUTE_EN 0, PEER not valid and its own CHECK bit, count it, record
BND_LINK_DOWN and set EVENT bit 0 (R301 gives the event no bit number: log entry 16); on a torus port its buffers are emptied and the messages of
its queues are lost, and on port P a pair that was PAIRED is SPLIT. Sync counts, runs, memories and pins stay. -/
def Obligations.LinkLost : Prop :=
  ∀ (s : State) (p : Fin 7), portUp s p = true →
    let lost := fun (t : State) (cause : Fld) =>
      rd t (.bnd p) Reg.BND.PORT_STATUS_STATE = 0 ∧ rd t (.bnd p) Reg.BND.PORT_CTRL_ROUTE_EN = 0 ∧ rd t (.bnd p) Reg.BND.PEER_VALID = 0 ∧
      rd t (.bnd p) Reg.BND.CHECK_DOWN = 1 ∧ rd t (.bnd p) cause = 1 ∧
      rd t (.bnd p) Reg.BND.DOWN_COUNT = satBits Reg.BND.DOWN_COUNT.w (rd s (.bnd p) Reg.BND.DOWN_COUNT + 1) ∧
      HasRecord t (844 + p) Code.BND_LINK_DOWN ∧ bit (regWord t (pageBase (.bnd p) + 0x10)).toNat 0 = true ∧
      (p.val < 6 → linkOf t p = LinkSt.down ∧ t.bnd.msgOut = s.bnd.msgOut.filter (fun x => x.1 != (p : Nat)) ∧
        t.bnd.inbox = s.bnd.inbox.filter (fun x => x.port != (p : Nat)) ∧
        t = { s with regs := t.regs, recs := t.recs, bnd := t.bnd, host := { s.host with msix := t.host.msix, msixPend := t.host.msixPend } }) ∧
      (p.val = 6 → pairState s = 1 → pairState t = 2 ∧ rd t (.mod 4) Reg.MOD4.PAIR_CHECK_SPLIT = 1) ∧
      t.counts = s.counts ∧ t.mem = s.mem ∧ t.pins = s.pins ∧ t.fuses = s.fuses
    (∃ t, exec (.linkSilent p) s = .next t ∧ lost t Reg.BND.CHECK_SILENT) ∧ (∃ t, exec (.lossOfSignal p) s = .next t ∧ lost t Reg.BND.CHECK_LOS)

/-- O40. Bring-up of a port that is not up, with power good, out of system reset, and not one of those that R276, R302 and R400 keep in electrical
idle, against a peer of the same rate that is not in core reset leaves the port UP on 8 lanes with the peer shown; against a peer of another rate it
stays in training with RATE_MISMATCH. RETRAIN_RETRY does the same where RETRAIN_EN is 1, a port it brings UP having ROUTE_EN 0, and nothing where it
is 0. Of a port in electrical idle both change nothing. PEER_CORE_RESET of an UP port marks it and its peer not ready. STATUS READY from the peer of
an UP port marks it ready, and of one whose peer was in core reset makes it UP again. On an up port whose receiver's spare is free, of 8 lanes with
no lane failed before: with SPARE_EN and a good spare, a lane's failure marks it and asks the peer for the spare with one LANE flit (its layout is
free, log entry 51); with SPARE_EN 0 the port is narrowed to 4 lanes with DEGRADED recorded. A LANE message that confirms the substitution asked for
shows it and records BND_LANE_SPARED; a request of the peer with the transmitter's spare free is answered with one flit and shown, and one for the
lane it carries already is answered again. That LANE_MAP shows the latest substitution of either direction, and a request is repeated, is the
model's choice (log entry 93). -/
def Obligations.LinksComeUpLanesSpared : Prop :=
  (
  ∀ (s : State) (p : Fin 7) (r : LinkRec),
    (idlePort s p = true → exec (.portBringup p r) s = .next s ∧ exec (.retrainRetry p r) s = .next s) ∧
    (portUp s p = false → s.pins.pwrOk = true → s.pins.rstN = true → idlePort s p = false →
      let up := fun (t : State) =>
        (r.rate = rd s (.bnd p) Reg.BND.PORT_STATUS_RATE → r.state ≠ 2 → rd t (.bnd p) Reg.BND.PORT_STATUS_STATE = 2 ∧
          rd t (.bnd p) Reg.BND.PORT_STATUS_WIDTH = 8 ∧ rd t (.bnd p) Reg.BND.PEER_NODE = r.node % 2 ^ 16 ∧ rd t (.bnd p) Reg.BND.PEER_VALID = 1 ∧
          (r.port ≠ oppositePort p → rd t (.bnd p) Reg.BND.CHECK_WIRING = 1)) ∧
        (r.rate ≠ rd s (.bnd p) Reg.BND.PORT_STATUS_RATE → rd t (.bnd p) Reg.BND.PORT_STATUS_STATE = 1 ∧ rd t (.bnd p) Reg.BND.CHECK_RATE_MISMATCH = 1) ∧
        t.counts = s.counts ∧ t.mem = s.mem
      (∃ t, exec (.portBringup p r) s = .next t ∧ up t) ∧
      (rd s (.bnd p) Reg.BND.PORT_CTRL_RETRAIN_EN = 1 → ∃ t, exec (.retrainRetry p r) s = .next t ∧ up t ∧
        (r.rate = rd s (.bnd p) Reg.BND.PORT_STATUS_RATE → rd t (.bnd p) Reg.BND.PORT_CTRL_ROUTE_EN = 0))) ∧
    (rd s (.bnd p) Reg.BND.PORT_CTRL_RETRAIN_EN = 0 → exec (.retrainRetry p r) s = .next s) ∧
    (rd s (.bnd p) Reg.BND.PORT_STATUS_STATE = 2 → ∃ t, exec (.peerCoreReset p) s = .next t ∧ rd t (.bnd p) Reg.BND.PORT_STATUS_STATE = 3 ∧
      rd t (.bnd p) Reg.BND.CHECK_PEER_CORE_RESET = 1 ∧ (linkOf t p).peerReady = false ∧ t.counts = s.counts ∧ t.mem = s.mem) ∧
    (portUp s p = true → ∃ t, exec (.statusReady p r) s = .next t ∧ rd t (.bnd p) Reg.BND.PORT_STATUS_STATE = 2 ∧
      (linkOf t p).peerReady = true ∧ rd t (.bnd p) Reg.BND.PEER_NODE = r.node % 2 ^ 16 ∧ t.counts = s.counts ∧ t.mem = s.mem)) ∧ (
  ∀ (s : State) (p : Fin 7) (l : Fin 8) (q : Nat), portUp s p = true →
    (∀ k : Fin 9, k.val = l.val → (linkOf s p).rxSpare = none → rd s (.bnd p) Reg.BND.PORT_STATUS_WIDTH = 8 → rd s (.bnd p) Reg.BND.LANE_MAP_FAILED = 0 →
      (rd s (.bnd p) Reg.BND.PORT_CTRL_SPARE_EN = 1 → (linkOf s p).spareBad = false → ∃ t, exec (.laneFailure p k) s = .next t ∧
        rd t (.bnd p) Reg.BND.LANE_MAP_FAILED = 2 ^ l.val ∧ (linkOf t p).pendingLane = some l.val ∧ t.bnd.flitOut.length = s.bnd.flitOut.length + 1 ∧
        rd t (.bnd p) Reg.BND.PORT_STATUS_WIDTH = 8 ∧ t = { s with regs := t.regs, bnd := t.bnd, freeCount := t.freeCount }) ∧
      (rd s (.bnd p) Reg.BND.PORT_CTRL_SPARE_EN = 0 → ∃ t, exec (.laneFailure p k) s = .next t ∧ rd t (.bnd p) Reg.BND.LANE_MAP_FAILED = 2 ^ l.val ∧
        rd t (.bnd p) Reg.BND.PORT_STATUS_WIDTH = 4 ∧ rd t (.bnd p) Reg.BND.CHECK_DEGRADED = 1 ∧ HasRecord t (844 + p) Code.BND_DEGRADED ∧
        t.bnd.flitOut = s.bnd.flitOut)) ∧
    ((linkOf s p).pendingLane = some l.val → ∃ t, exec (.lane p true l q) s = .next t ∧ rd t (.bnd p) Reg.BND.LANE_MAP_SPARED = l ∧
      rd t (.bnd p) Reg.BND.LANE_MAP_IN_USE = 1 ∧ rd t (.bnd p) Reg.BND.PORT_STATUS_SPARE_USED = 1 ∧ (linkOf t p).pendingLane = none ∧
      (linkOf t p).rxSpare = some l.val ∧ (linkOf t p).switchSeq = some q ∧
      HasRecord t (844 + p) Code.BND_LANE_SPARED ∧ t.bnd.flitOut = s.bnd.flitOut) ∧
    ((linkOf s p).txSpare = none → ∃ t, exec (.lane p false l q) s = .next t ∧ rd t (.bnd p) Reg.BND.LANE_MAP_SPARED = l ∧ rd t (.bnd p) Reg.BND.LANE_MAP_IN_USE = 1 ∧
      t.bnd.flitOut.length = s.bnd.flitOut.length + 1 ∧ (linkOf t p).txSpare = some l.val ∧ HasRecord t (844 + p) Code.BND_LANE_SPARED) ∧
    ((linkOf s p).txSpare = some l.val → ∃ t, exec (.lane p false l q) s = .next t ∧ t = { s with bnd := t.bnd, freeCount := t.freeCount } ∧
      t.bnd.flitOut.length = s.bnd.flitOut.length + 1))

/-- O41. On an up port whose lanes have corrected fewer than 2^15 symbols within their last codewords, with no message of its own waiting, and no
snapshot waiting for its partner: a flit of another length or with a wrong CRC is counted and a NAK falls due (of each such flit: log entry 90), and
nothing else changes but the counts of corrected symbols, which each flit may raise (by fewer than 1,024 a lane: log entry 40); an IDLE flit changes
nothing else but the link, where its ACK releases the replay buffer and its count gives credit; a sequenced flit out of order delivers nothing and
makes a NAK due; one in order that holds one whole message R290 allows advances the last SEQ accepted and puts the message where it waits to be
served, unless the module is in core reset. -/
def Obligations.FlitsReceived : Prop :=
  ∀ (s : State) (p : Fin 7), portUp s p = true → (∀ x ∈ s.bnd.msgOut, x.1 ≠ (p : Nat)) → s.fw.snapshotDue = false →
    (∀ l, l < 9 → smGet zeroDefault (linkOf s p).symWin l < 2 ^ 15) →
    let symbols := (List.range 9).map (fldAddr (.bnd p) Reg.BND.SYM_ERR)
    (∀ f : List Byte, f.length ≠ 256 ∨ crc64 (f.take 248) ≠ leAt f 248 8 →
      ∃ t, exec (.flitReceive p f) s = .next t ∧ (linkOf t p) = { linkOf s p with gap := true, nakDue := true, symWin := (linkOf t p).symWin } ∧
        rd t (.bnd p) Reg.BND.CRC_COUNT = satBits Reg.BND.CRC_COUNT.w (rd s (.bnd p) Reg.BND.CRC_COUNT + 1) ∧
        t = { s with regs := t.regs, bnd := { s.bnd with links := t.bnd.links }, freeCount := t.freeCount } ∧
        RegsKept s t (fldAddr (.bnd p) Reg.BND.CRC_COUNT 0 :: symbols)) ∧
    (∀ ack pool count, ack < 4096 → pool < 28 → count < 256 → ∃ t, exec (.flitReceive p (flitBytes 0 0 ack pool count false [])) s = .next t ∧
      (linkOf t p).replay = (ackFlits (linkOf s p).replay ack).1 ∧
      smGet zeroDefault (linkOf t p).credits pool =
        smGet zeroDefault (linkOf s p).credits pool + (count + 256 - smGet zeroDefault (linkOf s p).seen pool) % 256 ∧
      (linkOf t p).rxSeq = (linkOf s p).rxSeq ∧
      t = { s with regs := t.regs, bnd := { s.bnd with links := t.bnd.links }, freeCount := t.freeCount } ∧ RegsKept s t symbols) ∧
    (∀ seq ack pool count payload, seq < 4096 → ack < 4096 → pool < 28 → count < 256 → payload.length = 240 → (linkOf s p).gap = false →
      (seq ≠ ((linkOf s p).rxSeq + 1) % 4096 → ∃ t, exec (.flitReceive p (flitBytes 1 seq ack pool count false payload)) s = .next t ∧
        (linkOf t p).rxSeq = (linkOf s p).rxSeq ∧ (linkOf t p).nakDue = true ∧ t.bnd.inbox = s.bnd.inbox ∧
        t = { s with regs := t.regs, bnd := { s.bnd with links := t.bnd.links }, freeCount := t.freeCount } ∧ RegsKept s t symbols) ∧
      (∀ m, seq = ((linkOf s p).rxSeq + 1) % 4096 → parseMsgs payload 15 0 = ([m], none) → msgOk p m = true → inTakeover s = false →
        ∃ t, exec (.flitReceive p (flitBytes 1 seq ack pool count false payload)) s = .next t ∧ (linkOf t p).rxSeq = seq ∧
          t.bnd.inbox = (if inCoreReset s then s.bnd.inbox else s.bnd.inbox ++ [{ port := p, flits := 1, msg := m }]) ∧
          t = { s with regs := t.regs, bnd := { s.bnd with links := t.bnd.links, inbox := t.bnd.inbox }, freeCount := t.freeCount } ∧
          RegsKept s t symbols))

/-- O42. A KV WRITE, PUT or REDUCE PARTIAL served at this node, and a MIRROR WRITE with a mirror area of size not 0, whose bytes an inbound window
lets in (R292): HBM, with no granule of the range open, or host memory takes the bytes and no other byte changes, and the write is answered
(WRITE_ACK, PUT_ACK or ACK). One that no window lets in touches no memory, sets REFUSED_IN and counts. The host's translation refusing a page counts
as not let in (log entry 31). -/
def Obligations.RemoteWritesServed : Prop :=
  ∀ (s : State) (p : Fin 7) (m : Msg), Serves s p m → m.resp = false → m.poison = false →
    let served := fun (c : Instr) (a ack : Nat) =>
      (inboundOk s .wr m.space a m.data.length = true → (m.space = 0 → NoneOpen s a m.data.length) →
        ∃ t, exec c s = .next t ∧ (∀ i, i < m.data.length → byteAt t m.space (a + i) = nth m.data i 0) ∧
          (∀ b, b < a ∨ a + m.data.length ≤ b → byteAt t m.space b = byteAt s m.space b) ∧ Answered s t p m ack [] 0 ∧
          t = { s with
            regs := t.regs, bnd := t.bnd
            mem := { s.mem with
              hbm := if m.space = 0 then t.mem.hbm else s.mem.hbm, hbmPoison := t.mem.hbmPoison
              host := if m.space = 0 then s.mem.host else t.mem.host, hostPoison := t.mem.hostPoison, atc := t.mem.atc } } ∧
          RegsKept s t fabricWords) ∧
      (inboundOk s .wr m.space a m.data.length = false → ∃ t, exec c s = .next t ∧ t.mem = s.mem ∧
        rd t (.bnd 7) Reg.BND7.FAB_CHECK_REFUSED_IN = 1 ∧
        rd t (.bnd 7) Reg.BND7.REFUSED_COUNT = satBits Reg.BND7.REFUSED_COUNT.w (rd s (.bnd 7) Reg.BND7.REFUSED_COUNT + 1) ∧
        t = { s with regs := t.regs, bnd := t.bnd })
    (m.cls = 1 → m.op = 0 → served (.kvWrite p m) m.addr 1) ∧
    (m.cls = 3 → m.op = 0 → served (.put p m) m.addr 2) ∧
    (m.cls = 2 → m.op = 0 → m.len ≠ 0 → served (.reducePartial p m) (m.addr % 2 ^ 40) 2) ∧
    (m.cls = 6 → m.op = 0 → (ownArea s).2 ≠ 0 → served (.mirrorWrite p m) m.addr 1)

/-- O43. A GET of 1 to 4,096 bytes of HBM that a window lets in, with no poisoned word, is answered with the bytes and changes no memory. Where the
adder's residue agrees, an ATOMIC ADD at a 64-byte boundary that a window lets in, to a word that is not poisoned, leaves in each masked lane the
saturating sum, and is acknowledged; a FINAL_ADD of 4-byte aligned data within one 64 B granule likewise. Every other byte reads as before (with
fewer than 256 granules of the stack open). One off its alignment is refused and touches nothing. -/
def Obligations.RemoteReadsAndAddsServed : Prop :=
  ∀ (s : State) (p : Fin 7) (m : Msg), Serves s p m → m.resp = false → m.space = 0 →
    let lane := fun (u : State) a => codeSV 32 (leNat ((List.range 4).map fun k => hbmByte u (a + k)))
    (m.cls = 3 → m.op = 1 → 1 ≤ getCount m → getCount m ≤ 4096 → inboundOk s .rd 0 m.addr (getCount m) = true →
      (∀ i, i < getCount m → hbmPoisoned s (m.addr + i) = false) → ∃ t, exec (.get p m) s = .next t ∧
        Answered s t p m 3 ((List.range (getCount m)).map fun i => hbmByte s (m.addr + i)) m.addr ∧ OnlyFabric s t) ∧
    (m.cls = 4 → m.op = 0 → m.addr % 64 = 0 → inboundOk s .at_ 0 m.addr 64 = true → hbmPoisoned s m.addr = false →
      (openOf s (stackOf s m.addr)).length < 256 → ∀ adders, adderChk adders m.addr = .pass → ∃ t, exec (.atomicAddMessage p m adders) s = .next t ∧
        (∀ i, i < 16 → lane t (m.addr + 4 * i) =
          if bit (leAt m.data 64 8) i then codeSV 32 (svCode 32 (add32 (lane s (m.addr + 4 * i)) (codeSV 32 (leAt m.data (4 * i) 4)))) else
            codeSV 32 (svCode 32 (lane s (m.addr + 4 * i)))) ∧
        (∀ a, a / 64 ≠ m.addr / 64 → hbmByte t a = hbmByte s a) ∧ Answered s t p m 1 [] 0) ∧
    (m.cls = 2 → m.op = 1 →
      let a := m.addr % 2 ^ 40
      let n := m.data.length
      (a % 4 = 0 → n % 4 = 0 → 0 < n → a % 64 + n ≤ 64 → inboundOk s .at_ 0 a n = true → hbmPoisoned s a = false → (openOf s (stackOf s a)).length < 256 →
        ∀ adders, adderChk adders a = .pass → ∃ t, exec (.finalAdd p m adders) s = .next t ∧
          (∀ i, i < n / 4 → lane t (a + 4 * i) = codeSV 32 (svCode 32 (add32 (lane s (a + 4 * i)) (codeSV 32 (leAt m.data (4 * i) 4))))) ∧
          (∀ b, b / 64 ≠ a / 64 → hbmByte t b = hbmByte s b) ∧ Answered s t p m 2 [] 0) ∧
      (a % 4 ≠ 0 ∨ n % 4 ≠ 0 → ∀ adders, ∃ t, exec (.finalAdd p m adders) s = .next t ∧ t.mem = s.mem ∧ t.stk = s.stk ∧
        rd t (.bnd 7) Reg.BND7.REFUSED_COUNT = satBits Reg.BND7.REFUSED_COUNT.w (rd s (.bnd 7) Reg.BND7.REFUSED_COUNT + 1))) ∧
    (m.cls = 4 → m.op = 0 → m.addr % 64 ≠ 0 → ∀ adders, ∃ t, exec (.atomicAddMessage p m adders) s = .next t ∧ t.mem = s.mem ∧ t.stk = s.stk ∧
      rd t (.bnd 7) Reg.BND7.REFUSED_COUNT = satBits Reg.BND7.REFUSED_COUNT.w (rd s (.bnd 7) Reg.BND7.REFUSED_COUNT + 1))

/-- O44. A SIGNAL message served here joins the SIGNALs on their way with the counter, round and amount of its word 1 and its sender as source. An
arrival mark (a PARTIAL of LEN 0) of iteration j from contributor k, in a channel that has not closed, or last closed one of the two iterations
before j, and whose set for j is free or holds j, is marked there and acknowledged; where that set holds another iteration, it is an overrun,
counted and recorded; of the iteration last closed, it sets the contributor's PENDING bit; of an older one, or one three or more ahead, it is an
overrun too. -/
def Obligations.MarksAndSignalsServed : Prop :=
  ∀ (s : State) (p : Fin 7) (m : Msg), Serves s p m → m.resp = false → m.op = 0 →
    (m.cls = 0 → let w := m.addr + m.tag * 2 ^ 50
      ∃ t, exec (.syncSignalMessage p m) s = .next t ∧
        t.sync = { s.sync with sigQ := s.sync.sigQ ++
          [{ counter := w % 2 ^ 12, amount := bits w 32 32, round := bits w 12 16, src := .remote m.src, run := none, cmd := none, leg := 0x3FFF }] } ∧
        t = { s with sync := t.sync, bnd := t.bnd }) ∧
    (m.cls = 2 → m.len = 0 →
      let q := bits m.addr 44 6
      let c := bits m.addr 40 4
      let k := bits m.addr 0 6
      let j := bits m.addr 6 32
      let pg := Page.gate q 11
      let closed := rd s pg Reg.GATEX.CLOSED c
      let tag := nth (chanOf s q c).tags (j % 3) none
      let open_ := rd s pg Reg.GATEX.CLOSED_VALID c = 0 ∨ (closed < j ∧ j < closed + 3)
      let pend := if k < 32 then Reg.GATEX.PENDING_LO else Reg.GATEX.PENDING_HI
      (open_ → (chanOf s q c).tags.length = 3 → (chanOf s q c).marks.length = 3 → tag = none ∨ tag = some j →
        ∃ t, exec (.arrivalMark p m) s = .next t ∧ nth (chanOf t q c).tags (j % 3) none = some j ∧
          nth (chanOf t q c).marks (j % 3) 0 = (if tag = none then 2 ^ k else (nth (chanOf s q c).marks (j % 3) 0).lor (2 ^ k)) ∧
          Answered s t p m 2 [] 0 ∧ t.mem = s.mem ∧ t.counts = s.counts) ∧
      (rd s pg Reg.GATEX.CLOSED_VALID c = 1 → j = closed → ∃ t, exec (.arrivalMark p m) s = .next t ∧
        rd t pg pend c = (rd s pg pend c).lor (2 ^ (k % 32)) ∧ t.units = s.units ∧
        ∃ u, OnlyRegs s { u with bnd := s.bnd } [fldAddr pg pend c] ∧ u.bnd = ((takeMsg p m).run s).bnd ∧
          t = (answer m 2 [] false 0).run u) ∧
      ((rd s pg Reg.GATEX.CLOSED_VALID c = 1 ∧ (j < closed ∨ closed + 3 ≤ j)) ∨ (open_ ∧ tag ≠ none ∧ tag ≠ some j) → ∃ t, exec (.arrivalMark p m) s = .next t ∧
        rd t pg Reg.GATEX.OVERRUN_COUNT = satBits Reg.GATEX.OVERRUN_COUNT.w (rd s pg Reg.GATEX.OVERRUN_COUNT + 1) ∧
        HasRecord t (12 * q + 11) Code.REDUCE_OVERRUN ∧ t.units = s.units))

/-- O45. A REG_READ served on port P is answered with REG_DATA and the four bytes a read as identity PAIR returns: in the fabric page those of the
word where identity PAIR may read a word of the fabric page, and zeros where the page's rights deny it, which is counted. A REG_WRITE is a write as
identity PAIR, answered with REG_ACK; shown for FLOOR of the power page: one that is let in writes it, and one that is denied changes nothing there
and is counted, and both are answered with REG_ACK. MAIL_WAKE changes nothing but the fabric, and is acknowledged (log entry 32). A message for
another node, outside core reset and takeover, that waits here in its turn or nowhere: with the port of its route usable and 62 hops or fewer behind
it, it leaves the pool it came by and joins the messages of that port, with one more hop and the virtual lane of the hop; with no credit there it
waits; with 63 hops it is unreachable, counted and marked. Nothing beside the fabric changes. -/
def Obligations.PairPortServedMessagesRouted : Prop :=
  (
  ∀ (s : State) (p : Fin 7) (m : Msg), Serves s p m → m.resp = false → m.cls = 5 →
    let denied4 := [fldAddr .hif Reg.HIF.DENIED_COUNT 0, fldAddr .hif Reg.HIF.DENIED_ADDR 0, fldAddr .hif Reg.HIF.DENIED_PORT_IDENTITY 0,
      fldAddr .hif Reg.HIF.HIF_CHECK_DENIED 0]
    let answered := fun (t : State) (op : Nat) (data : List Byte) (words : List Nat) =>
      ∃ u, RegsKept s u words ∧ u.bnd = ((takeMsg p m).run s).bnd ∧ t.bnd = ((answer m op data false 0).run u).bnd
    (m.op = 0 → ∀ ecc, ∃ t u, exec (.regRead p m ecc) s = .next t ∧
      u = (readWord .pair m.addr ecc).run ((respond .pair 0).run ((takeMsg p m).run s)) ∧
      t = (answer m 3 (leBytes 4 (returned u .pair)) false 0).run u) ∧
    (m.op = 0 → ∀ ecc o, 0x100 ≤ o → o < 0x1000 → o % 4 = 0 → m.addr = pageBase (.bnd 7) + o →
      (LetRead s .pair m.addr → ∃ t, exec (.regRead p m ecc) s = .next t ∧ Answered s t p m 3 (leBytes 4 (wordAt s m.addr).toNat) 0 ∧
        t.mem = s.mem ∧ t.counts = s.counts) ∧
      (Refused s .pair m.addr false → ∃ t, exec (.regRead p m ecc) s = .next t ∧ answered t 3 [0, 0, 0, 0] denied4 ∧
        rd t .hif Reg.HIF.DENIED_COUNT = min (2 ^ 32 - 1) (rd s .hif Reg.HIF.DENIED_COUNT + 1) ∧ t.mem = s.mem ∧ t.counts = s.counts)) ∧
    (m.op = 1 → exec (.regWrite p m) s =
      .next ((answer m 4 [] false 0).run (writeStep .pair m.addr (leAt m.data 0 4) ((takeMsg p m).run s)))) ∧
    (m.op = 1 → m.addr = fldAddr .pwr Reg.PWR.FLOOR 0 →
      (LetIn s .pair m.addr false → ∃ t, exec (.regWrite p m) s = .next t ∧ rd t .pwr Reg.PWR.FLOOR = leAt m.data 0 4 % 2 ^ 16 ∧ answered t 4 [] [m.addr] ∧ t.mem = s.mem ∧
        t.counts = s.counts) ∧
      (Refused s .pair m.addr true → ∃ t, exec (.regWrite p m) s = .next t ∧ rd t .pwr Reg.PWR.FLOOR = rd s .pwr Reg.PWR.FLOOR ∧ answered t 4 [] denied4 ∧
        rd t .hif Reg.HIF.DENIED_COUNT = min (2 ^ 32 - 1) (rd s .hif Reg.HIF.DENIED_COUNT + 1))) ∧
    (m.op = 2 → ∃ t, exec (.mailWake p m) s = .next t ∧ Answered s t p m 4 [] 0 ∧ OnlyFabric s t)) ∧ (
  ∀ (s : State) (m : Msg) (q : Nat), m.dst ≠ ownNode s → inTakeover s = false → inCoreReset s = false → overtakes s m = false →
    routePort s m.dst = some (some q) →
    let next := { m with hops := m.hops + 1, vl := hopLane s m q }
    (∀ a, m.hops ≤ 62 → usable s q = true → s.bnd.inbox.find? (fun a => a.msg == m) = some a →
      ∃ u, exec (.messageRoute m) s = .next ((queueOn q next).run u) ∧ u = (takeMsg a.port m).run s ∧ u.bnd.inbox = eraseFirst a s.bnd.inbox ∧
        u.bnd.msgOut = s.bnd.msgOut ∧ OnlyFabric s u) ∧
    (m.hops ≤ 62 → usable s q = true → (∀ a ∈ s.bnd.inbox, a.msg ≠ m) → exec (.messageRoute m) s = .next ((queueOn q next).run s)) ∧
    (m.hops ≤ 62 → usable s q = true → (linkOf s q).credits = [] → (∀ a ∈ s.bnd.inbox, a.msg ≠ m) →
      exec (.messageRoute m) s = .next { s with bnd := { s.bnd with msgOut := s.bnd.msgOut ++ [(q, next)] } }) ∧
    (63 ≤ m.hops → (∀ a ∈ s.bnd.inbox, a.msg ≠ m) → ∃ t, exec (.messageRoute m) s = .next t ∧ rd t (.bnd 7) Reg.BND7.FAB_CHECK_UNREACHABLE = 1 ∧
      rd t (.bnd 7) Reg.BND7.UNREACH_COUNT = satBits Reg.BND7.UNREACH_COUNT.w (rd s (.bnd 7) Reg.BND7.UNREACH_COUNT + 1) ∧
      (m.resp = true → t.bnd = s.bnd) ∧ t = { s with regs := t.regs, bnd := t.bnd }))

/-- O46. With no request waiting for a tag and no mark due: a response of the tag's class frees the tag, a GET_DATA once all bytes of its GET have
come, which wait for the leg that asked. A NAK of a SIGNAL is recorded as SYNC_UNDELIVERED; a NAK of any other request frees its tag, and the run of
the leg that sent it, if still in progress, ends with the status of its reason. PEER_TIMEOUT of a tag with RESP_LIMIT not 0 frees it, counts it and
ends that run with PEER_TIMEOUT. -/
def Obligations.ResponsesEndRequests : Prop :=
  ∀ (s : State) (p : Fin 7) (m : Msg) (r : TagRec), s.bnd.tagWait = [] → s.units.marksDue = [] → findTag s m.tag = some r →
    let ends := fun (t : State) (code : Nat) => findTag t m.tag = none ∧
      ∀ q n, r.piste = some q → r.run = some n → (pisteOf s q).run = some n → (pisteOf s q).failed = false →
        (pisteOf t q).failed = true ∧ ∀ x ∈ s.runs.runs, x.id = n → x.status = 0 → ∃ y ∈ t.runs.runs, y.id = n ∧ y.status = code
    (Serves s p m → m.resp = true →
      (m.op ≠ 31 → r.cls = m.cls → ∃ t, exec (.remoteResponse p m) s = .next t ∧ t.mem = s.mem ∧ t.runs = s.runs ∧ t.counts = s.counts ∧
        (¬ (r.purpose = 1 ∧ m.op = 3) ∨ r.len ≤ r.came + m.data.length → findTag t m.tag = none) ∧
        (r.purpose = 1 → m.op = 3 → r.came + m.data.length < r.len → findTag t m.tag = some { r with came := r.came + m.data.length }) ∧
        (∀ q, r.purpose = 1 → m.op = 3 → r.piste = some q → r.run.isSome = true → (pisteOf s q).run = r.run → (pisteOf s q).failed = false →
          ∃ f, t.units.fetched = s.units.fetched ++ [f] ∧ f.piste = q ∧ f.gate = r.gate ∧ f.leg = r.leg ∧ f.bytes = m.data ∧ f.poison = m.poison)) ∧
      (m.op = 31 → m.cls = 0 → ∃ t, exec (.nak p m) s = .next t ∧ HasRecord t 852 Code.SYNC_UNDELIVERED ∧ t.runs = s.runs ∧ t.mem = s.mem) ∧
      (m.op = 31 → m.cls ≠ 0 → ∃ t, exec (.nak p m) s = .next t ∧ ends t (nakStatus (nakReason m)) ∧ t.counts = s.counts ∧ t.mem = s.mem)) ∧
    (rd s (.bnd 7) Reg.BND7.RESP_LIMIT ≠ 0 → ∃ t, exec (.peerTimeout m.tag) s = .next t ∧ ends t Code.PEER_TIMEOUT ∧
      rd t (.bnd 7) Reg.BND7.FAB_CHECK_PEER_TIMEOUT = 1 ∧
      rd t (.bnd 7) Reg.BND7.TIMEOUT_COUNT = satBits Reg.BND7.TIMEOUT_COUNT.w (rd s (.bnd 7) Reg.BND7.TIMEOUT_COUNT + 1) ∧
      t.counts = s.counts ∧ t.mem = s.mem)

/-- O47. A COPY moves 64 KB a step (R383; the order of steps is log entry 120), the last one what is left. With a stack at CRIT in the step's ranges
it waits whole (the model's choice: log entry 98). A step of a COPY whose ranges lie in the capacity, with no page of the step refused and no
overlap, leaves at its destination the bytes of its source and no other byte changed; the last one completes the command with OK and the bytes
written as detail, and after any other it goes on from the byte reached; FILL likewise its pattern. Where source and destination overlap the bytes
of the step's destination are open, and no byte outside changes. With a page refused, a number of the step's bytes up to that page is written and
the command completes with HOST_XLATE and the number written in all. A range outside the capacity completes with CMD_RANGE, a length of 0 with OK,
and nothing else changes. FLUSH leaves no granule of its range open, and every byte reads as before; a range outside the window completes with
CMD_RANGE. -/
def Obligations.DataCommandsMove : Prop :=
  ∀ (s : State) (r : Fin 64) (c : Cmd) (src dst n sp dp : Nat) (pattern : DWord), sp ≤ 1 → dp ≤ 1 →
    let ends := fun (i : Instr) (status detail : Nat) => ∃ t, exec i s = .next t ∧ HasFinished t c status detail ∧ t = { s with host := t.host }
    let kept := fun (t : State) (a k : Nat) => (∀ b, b < a ∨ a + k ≤ b → byteAt t dp b = byteAt s dp b) ∧ (∀ b, byteAt t (1 - dp) b = byteAt s (1 - dp) b) ∧
      t = { s with regs := t.regs, host := t.host, mem := { s.mem with
        hbm := t.mem.hbm, host := t.mem.host, hbmPoison := t.mem.hbmPoison, hostPoison := t.mem.hostPoison, atc := t.mem.atc } }
    let after := fun (t : State) (o k : Nat) => if o + k < n then GoesOn t c { c.part with moved := o + k } else HasFinished t c 0 (n % 2 ^ 48)
    let copy := CmdBody.copy src dst n sp dp
    let fill := CmdBody.fill dst n dp pattern
    ((let o := stepAt s r copy
      (spaceHot s sp (src + o) (stepLen n o) || spaceHot s dp (dst + o) (stepLen n o)) = true) → exec (.copy r src dst n sp dp) s = .next s) ∧
    (underWay s r copy = none → Awaits s r copy c → spaceHot s sp src (stepLen n 0) = false → spaceHot s dp dst (stepLen n 0) = false →
      (n = 0 → ends (.copy r src dst n sp dp) 0 0) ∧
      (n ≠ 0 → (outside s sp src n || outside s dp dst n) = true → ends (.copy r src dst n sp dp) Code.CMD_RANGE 0)) ∧
    (∀ o, Steps s r copy c o → o < n → outside s sp src n = false → outside s dp dst n = false →
      let k := min 65536 (n - o)
      let before := min (bytesBefore s sp (src + o) k) (bytesBefore s dp (dst + o) k)
      spaceHot s sp (src + o) k = false → spaceHot s dp (dst + o) k = false → (dp = 0 → NoneOpen s (dst + o) k) →
        (overlaps src dst n sp dp = false →
          (refusedPage s sp (src + o) k = none → refusedPage s dp (dst + o) k = none → ∃ t, exec (.copy r src dst n sp dp) s = .next t ∧
            (∀ i, i < k → byteAt t dp (dst + o + i) = byteAt s sp (src + o + i)) ∧ kept t (dst + o) k ∧ after t o k) ∧
          (before < k → ∃ t j, exec (.copy r src dst n sp dp) s = .next t ∧ j ≤ before ∧
            (∀ i, i < j → byteAt t dp (dst + o + i) = byteAt s sp (src + o + i)) ∧ HasFinished t c Code.HOST_XLATE ((o + j) % 2 ^ 48))) ∧
        (overlaps src dst n sp dp = true → refusedPage s sp (src + o) k = none → refusedPage s dp (dst + o) k = none →
          ∃ t, exec (.copy r src dst n sp dp) s = .next t ∧ (∀ b, b < dst + o ∨ dst + o + k ≤ b → byteAt t dp b = byteAt s dp b) ∧ after t o k)) ∧
    (underWay s r fill = none → Awaits s r fill c → spaceHot s dp dst (stepLen n 0) = false →
      (n = 0 → ends (.fill r dst n dp pattern) 0 0) ∧
      (n ≠ 0 → outside s dp dst n = true → ends (.fill r dst n dp pattern) Code.CMD_RANGE 0)) ∧
    (∀ o, Steps s r fill c o → o < n → outside s dp dst n = false →
      let k := min 65536 (n - o)
      spaceHot s dp (dst + o) k = false → (dp = 0 → NoneOpen s (dst + o) k) →
        (refusedPage s dp (dst + o) k = none → ∃ t, exec (.fill r dst n dp pattern) s = .next t ∧
          (∀ i, i < k → byteAt t dp (dst + o + i) = nth (leBytes 8 pattern.toNat) (i % 8) 0) ∧ kept t (dst + o) k ∧ after t o k) ∧
        (bytesBefore s dp (dst + o) k < k → ∃ t j, exec (.fill r dst n dp pattern) s = .next t ∧ j ≤ bytesBefore s dp (dst + o) k ∧
          (∀ i, i < j → byteAt t dp (dst + o + i) = nth (leBytes 8 pattern.toNat) (i % 8) 0) ∧
          HasFinished t c Code.HOST_XLATE ((o + j) % 2 ^ 48))) ∧
    (Awaits s r (.flush dst n) c → (∀ g ∈ flushed s dst n, hotRange s g.addr 64 = false) →
      let m := if n = 0 then windowSize s else dst + n
      (windowSize s < m → ends (.flush r dst n) Code.CMD_RANGE 0) ∧
      (m ≤ windowSize s → (∀ g ∈ s.stk.granules, g.addr % 64 = 0 ∧ g.bytes.length = 64) → (s.stk.granules.map (·.addr)).Nodup →
        ∃ t, exec (.flush r dst n) s = .next t ∧ (∀ a, hbmByte t a = hbmByte s a) ∧ (∀ a, hbmPoisoned t a = hbmPoisoned s a) ∧
          (∀ i, (if n = 0 then 0 else dst) ≤ i → i < m → openAt t (windowBase s + i) = none) ∧ HasFinished t c 0 0 ∧
          t = { s with host := t.host, stk := { s.stk with granules := t.stk.granules },
                       mem := { s.mem with hbm := t.mem.hbm, hbmPoison := t.mem.hbmPoison } }))

/-- O48. A MODE_CHANGE with a higher epoch and no reserved bit becomes the commanded epoch and mode word, taken at once by the pistes that stand at
their boundary, and completes at once where every piste in service stands there; an older epoch completes with MODE_EPOCH_ORDER, a reserved word
with MODE_FIELD. A LAYOUT_CHANGE with a higher epoch, with none in progress, becomes the commanded layout and is in progress; else it completes with
LAYOUT_ORDER or LAYOUT_BUSY, whose DETAIL names island 852 and no leg (log entry 43). A FENCE with nothing before it completes, else it waits. A
SIGNAL is sent in the name of island 851 and its ring. A WAIT whose target is reached completes with the count, else it is registered. The wait of a
firmware core (the row's form for it is log entry 107) gives the core status 0 where its target is reached, else it is registered at the core's
queue with firmware's limit. -/
def Obligations.ControlCommandsTaken : Prop :=
  ∀ (s : State) (r : Fin 64) (c : Cmd),
    let ends := fun (i : Instr) (status detail : Nat) => ∃ t, exec i s = .next t ∧ HasFinished t c status detail ∧ t = { s with host := t.host }
    (∀ epoch word, epoch < 2 ^ 32 → Awaits s r (.modeChange epoch word) c →
      (epoch ≤ s.mode.cmd → ends (.modeChange r epoch word) Code.MODE_EPOCH_ORDER 0) ∧
      (s.mode.cmd < epoch → modeWordBad word = true → ends (.modeChange r epoch word) Code.MODE_FIELD 0) ∧
      (s.mode.cmd < epoch → modeWordBad word = false → ∃ t, exec (.modeChange r epoch word) s = .next t ∧ t.mode.cmd = epoch ∧ t.mode.word = word ∧
        (∀ p, p < 64 → standing s p = true → epochOn t p = epoch ∧ (pisteOf t p).word = word) ∧
        (∀ p, p < 64 → standing s p = false → epochOn t p = epochOn s p ∧ pisteOf t p = pisteOf s p) ∧
        ((∀ p, p < 64 → fenced s p = false → standing s p = true) → HasFinished t c 0 0) ∧ t.counts = s.counts ∧ t.mem = s.mem ∧ t.layout = s.layout)) ∧
    (∀ epoch relayout slot mask iter, Awaits s r (.layoutChange epoch relayout slot mask iter) c →
      (epoch ≤ s.layout.cmd → ends (.layoutChange r epoch relayout slot mask iter) Code.LAYOUT_ORDER (failDetail 852 noLeg)) ∧
      (s.layout.cmd < epoch → s.layout.pend ≠ none → ends (.layoutChange r epoch relayout slot mask iter) Code.LAYOUT_BUSY (failDetail 852 noLeg)) ∧
      (s.layout.cmd < epoch → s.layout.pend = none → ∃ t l, exec (.layoutChange r epoch relayout slot mask iter) s = .next t ∧
        t.layout = { s.layout with cmd := epoch, pend := some l } ∧ l.cmd = c.id ∧ l.epoch = epoch ∧ l.order = s.runs.nextId ∧ l.run = none ∧
        l.reported = false ∧ l.relayout = (if relayout then some (slot, mask, iter) else none) ∧ rd t .mode Reg.MODE.LAYOUT_STATE_STATE = 1 ∧
        (∀ x ∈ s.runs.runs, x.started = true → (∀ y ∈ s.runs.runs, (y.id = x.id → y = x) ∧ y.held ≠ some x.id) → x ∈ t.runs.runs) ∧
        t.counts = s.counts ∧ t.mem = s.mem ∧ t.mode = s.mode)) ∧
    (∀ scope, Awaits s r (.fence scope) c → (∀ d ∈ s.host.accepted, d ≠ c → ∀ k, d.body ≠ some (.fence k)) →
      ((∀ d ∈ s.host.accepted, c.id ≤ d.id ∨ (scope = 0 ∧ d.ring ≠ c.ring)) → ends (.fence r scope) 0 0) ∧
      ((∃ d ∈ s.host.accepted, d.id < c.id ∧ (scope ≠ 0 ∨ d.ring = c.ring)) → exec (.fence r scope) s = .next (begun s c))) ∧
    (∀ (k : Fin 4096) (round amount : Nat), Awaits s r (.signal k round amount) c → exec (.signal r k round amount) s =
      .next { begun s c with sync := { s.sync with sigQ := s.sync.sigQ ++
        [{ counter := k, amount := amount, round := round, src := .die 851 r, run := none, cmd := some c.id, leg := 0x3FFF }] } }) ∧
    (∀ (k : Fin 4096) (target : DWord) (limit : Nat), Awaits s r (.wait k target.toNat limit) c →
      (target.toNat ≤ countOf s k → ends (.wait r k target limit) 0 (countOf s k)) ∧
      (countOf s k < target.toNat → exec (.wait r k target limit) s =
        .next { begun s c with sync := { s.sync with waits := s.sync.waits ++
          [{ localOf := none, counter := k, target := target.toNat, island := 851, queue := r, cmd := some c.id }] } })) ∧
    (∀ (k : Fin 4096) (target : DWord) (limit : Nat) (core : Fin 4), s.sec.phase = .ready → fwRuns s = true → waitAt s 852 core = none →
      ∃ t, exec (.wait r k target limit (some core)) s = .next t ∧
        (target.toNat ≤ countOf s k → smGet zeroDefault t.fw.waitStatus core = 1 ∧ t.sync = s.sync) ∧
        (countOf s k < target.toNat → smGet zeroDefault t.fw.waitStatus core = 0 ∧ t.sync = { s.sync with waits := s.sync.waits ++
          [{ localOf := none, counter := k, target := target.toNat, island := 852, queue := core, cmd := none, limit := limit }] }) ∧
        (∀ i, i ≠ (core : Nat) → smGet zeroDefault t.fw.waitStatus i = smGet zeroDefault s.fw.waitStatus i) ∧
        t = { s with sync := t.sync, fw := { s.fw with waitStatus := t.fw.waitStatus } })

/-- O49. A RUN that names only fenced pistes, or one whose runs are ended by a fence, completes with PISTE_FENCED; one that a piste's coming map
rejects (an empty slot, a chain outside the mask, a layout epoch that is not the commanded one) completes with that status, naming the piste (the
islands named are log entry 43, and that the lowest piste's is reported log entry 87); any other is queued behind the runs that are there. An error
in control storage is recorded with severity 3, and every command accepted later completes with SRAM_UE. With no stack of its image at CRIT, a
LOAD_MAP whose image lies outside the capacity, is refused or poisoned completes with that status, naming island 852 (log entry 43). Otherwise it
checks the image it has read for its pistes, one a step in ascending order (R383; log entries 87 and 120): a failed check completes it with that
check's status; after the last one the load joins the pending loads of every busy piste it names, and is written at once on an idle one. -/
def Obligations.RunsAndMapsAccepted : Prop :=
  ∀ (s : State) (r : Fin 64) (c : Cmd),
    let ends := fun (i : Instr) (status detail : Nat) => ∃ t, exec i s = .next t ∧ HasFinished t c status detail ∧ t = { s with host := t.host }
    (∀ mask slot epoch iter, Awaits s r (.run mask slot epoch iter) c →
      let m := serviceMask s mask
      (m = 0 ∨ fenceStops s mask = true → ∃ d, ends (.run r mask slot epoch iter []) Code.PISTE_FENCED d) ∧
      (m ≠ 0 → fenceStops s mask = false →
        (∀ st p, runStatus s (maskList 64 m) slot = some (st, p) → ends (.run r mask slot epoch iter []) st (failDetail (768 + p) noLeg)) ∧
        (runStatus s (maskList 64 m) slot = none → exec (.run r mask slot epoch iter []) s =
          .next { begun s c with runs := { s.runs with
            nextId := s.runs.nextId + 1
            runs := s.runs.runs ++ [newRun s (some c.id) (queuedMask s mask) slot epoch s.layout.cmd iter] } })) ∧
      (∀ i, ∃ t, exec (.run r mask slot epoch iter [.control i]) s = .next t ∧ t.host.sramFatal = true ∧ HasRecord t i Code.SRAM_UE ∧
        t.counts = s.counts ∧ t.mem = s.mem) ∧
      (∀ i, ∃ t, exec (.run r mask slot epoch iter [.corrected i]) s = .next t ∧ t.host.sramFatal = s.host.sramFatal ∧
        rd t (.mod 1) Reg.MOD1.SRAM_CE_COUNT = satBits Reg.MOD1.SRAM_CE_COUNT.w (rd s (.mod 1) Reg.MOD1.SRAM_CE_COUNT + 1) ∧
        t.counts = s.counts ∧ t.mem = s.mem)) ∧
    (∀ addr space slot mask, space ≤ 1 → slot < 4 →
      let load := CmdBody.loadMap addr space slot mask
      let n := imageExtent s space addr
      let checks := fun (i m : Nat) (image : List Byte) =>
        let ps := maskList 64 (serviceMask s m)
        ∀ p, (maskList 64 m)[i]? = some p →
          (imageStatus (imageOf image) p slot ≠ 0 → ∃ t, exec (.loadMap r addr space slot mask) s = .next t ∧
            HasFinished t c (imageStatus (imageOf image) p slot) (failDetail 852 noLeg) ∧ t.pistes = s.pistes) ∧
          (imageStatus (imageOf image) p slot = 0 → i + 1 < (maskList 64 m).length → ∃ t, exec (.loadMap r addr space slot mask) s = .next t ∧
            GoesOn t c { c.part with moved := i + 1, mask := m, image := image } ∧ t.pistes = s.pistes) ∧
          (imageStatus (imageOf image) p slot = 0 → i + 1 = (maskList 64 m).length → ps ≠ [] → ∃ t, exec (.loadMap r addr space slot mask) s = .next t ∧
            (∀ p ∈ ps, idlePiste s p = false → (pisteOf t p).loads = (pisteOf s p).loads ++
              [{ cmd := some c.id, order := s.runs.nextId, slot := slot, image := image }]) ∧
            (∀ p ∈ ps, idlePiste s p = true → (pisteOf s p).loads = [] → s.runs.runs = [] →
              rd t (.pst p) Reg.PST.SLOT_ID slot = leAt image 12 4 ∧ (pisteOf t p).loads = []) ∧
            t.counts = s.counts ∧ t.runs = s.runs) ∧
          (imageStatus (imageOf image) p slot = 0 → i + 1 = (maskList 64 m).length → ps = [] → ∃ t, exec (.loadMap r addr space slot mask) s = .next t ∧
            HasFinished t c Code.PISTE_FENCED (failDetail 852 noLeg) ∧ t.pistes = s.pistes)
      (underWay s r load = some c → fwRuns s = true → checks c.part.moved c.part.mask c.part.image) ∧
      (underWay s r load = none → Awaits s r load c → spaceHot s space addr n = false →
        let m := serviceMask s mask
        (m = 0 → ends (.loadMap r addr space slot mask) Code.PISTE_FENCED (failDetail 852 noLeg)) ∧
        (m ≠ 0 → (outside s space addr 128 || outside s space addr n) = true →
          ends (.loadMap r addr space slot mask) Code.CMD_RANGE (failDetail 852 noLeg)) ∧
        (m ≠ 0 → outside s space addr 128 = false → outside s space addr n = false → refusedPage s space addr n ≠ none →
          ends (.loadMap r addr space slot mask) Code.HOST_XLATE (failDetail 852 noLeg)) ∧
        (m ≠ 0 → outside s space addr 128 = false → outside s space addr n = false → refusedPage s space addr n = none →
          (spaceBad s space addr n = true → ∃ t, exec (.loadMap r addr space slot mask) s = .next t ∧
            HasFinished t c Code.MEM_UE (failDetail 852 noLeg) ∧ t.pistes = s.pistes) ∧
          (spaceBad s space addr n = false → checks 0 m (spaceBytes s space addr n)))))

/-- O50. With no stack that they access at CRIT: a SNAPSHOT of pistes that stand at their boundary goes on by the records of one piste a step (R383;
log entry 120); a step of SAVE leaves the piste's positions and counters in its buffer, the first one the header before them; one of RESTORE sets
every stream of the piste to its saved position, and the last one counts and records the streams of all pistes whose saved counter differs; after
the last one the command completes with OK, its DETAIL naming island 0 and no leg; a refused one completes with its status, naming island 851 (log
entry 43). TABLE_MIGRATE of a row that passes its checks leaves the level-2 entry MIGRATING with the new place, and the migration waits; one that
fails completes with EMB_MIGRATE. The copy, once every piste has passed a boundary, leaves the row at its new place and the entry closed, at the old
place with EMB_MIGRATE_BUSY where copies differ. -/
def Obligations.SnapshotsAndMigrations : Prop :=
  ∀ (s : State) (r : Fin 64) (c : Cmd),
    (∀ space mask addr len i, space ≤ 1 → i = c.part.moved → fwRuns s = true →
      let m := if i = 0 then serviceMask s mask else c.part.mask
      let refused := snapRefusal s space m addr len
      let a := addr + (if i = 0 then 0 else recordsAt i)
      let size := if i = 0 then recordsAt 1 else 53248
      let ends := fun (x : Instr) (st : Nat) => ∃ t, exec x s = .next t ∧ HasFinished t c st (failDetail 851 noLeg) ∧ t = { s with host := t.host }
      (Steps s r (.snapshotSave space mask addr len) c i →
        (refused ≠ 0 → ends (.snapshotSave r space mask addr len) refused) ∧
        (∀ p, refused = 0 → allHeld s (serviceMask s m) = true → spaceHot s space a size = false → (maskList 64 m)[i]? = some p →
          let part := (if i = 0 then snapHeader s m else []) ++ snapRecords s p
          (space = 0 → NoneOpen s a part.length) → ∃ t, exec (.snapshotSave r space mask addr len) s = .next t ∧
            (∀ k, k < part.length → byteAt t space (a + k) = nth part k 0) ∧ (∀ b, b < a ∨ a + part.length ≤ b → byteAt t space b = byteAt s space b) ∧
            (if i + 1 = (maskList 64 m).length then HasFinished t c 0 (failDetail 0 noLeg) else GoesOn t c { c.part with moved := i + 1, mask := m }) ∧
            t.counts = s.counts ∧ t.regs = s.regs ∧ t.units = s.units)) ∧
      (Steps s r (.snapshotRestore space mask addr len) c i → (s.host.accepted.map (·.id)).Nodup →
        let st := if refused ≠ 0 then refused else if i = 0 then restoreRefusal s space m addr
          else if spaceBad s space addr (snapSize m) then Code.MEM_UE else 0
        (st ≠ 0 → ends (.snapshotRestore r space mask addr len) st) ∧
        (∀ p, st = 0 → allHeld s (serviceMask s m) = true → spaceHot s space a size = false → (maskList 64 m)[i]? = some p →
          let b := List.replicate 64 0 ++ spaceBytes s space (addr + recordsAt i) 53248
          let l := realigned b (snapStreams p)
          let bad := (if i = 0 then 0 else c.part.bad) + l.length
          ∃ t, exec (.snapshotRestore r space mask addr len) s = .next t ∧
            (∀ k x, (snapStreams p)[k]? = some x → posOf t x.1 x.2.1 x.2.2 = (snapRecord b k).1) ∧
            (if i + 1 = (maskList 64 m).length then HasFinished t c 0 (failDetail 0 noLeg) ∧
                rd t .mode Reg.MODE.REALIGN = bad % 2 ^ Reg.MODE.REALIGN.w ∧ (bad ≠ 0 → HasRecord t 852 Code.GEN_REALIGN)
              else GoesOn t c { c.part with
                moved := i + 1, mask := m, bad := bad, first := if i = 0 ∨ c.part.bad = 0 then l.headD [] else c.part.first }) ∧
            t.counts = s.counts ∧ t.mode = s.mode ∧ t.units = { s.units with genPos := t.units.genPos }))) ∧
    (∀ region table tier row offset newSlot, Awaits s r (.tableMigrate region table tier row offset newSlot) c →
      let m : Migration :=
        { cmd := c.id, region := region, offset := offset, table := table, row := row, tier := tier, newSlot := newSlot,
          busy := (unfenced s).filter fun p => (pisteOf s p).run.isSome }
      migHot s m = false → migRecordBad s m = false →
        (migRow s m = none → ∃ t, exec (.tableMigrate r region table tier row offset newSlot) s = .next t ∧ HasFinished t c Code.EMB_MIGRATE 0 ∧
          t = { s with host := t.host }) ∧
        (∀ x, migRow s m = some x → migOk s x m = true → placeRefused (firmwareView s) x (oldPlace x) = false →
          placeRefused (firmwareView s) x (newPlace x m) = false → NoneOpen s x.at_ 16 →
          ∃ t, exec (.tableMigrate r region table tier row offset newSlot) s = .next t ∧ t.host.migrations = s.host.migrations ++ [m] ∧
            (∀ i, i < 16 → hbmByte t (x.at_ + i) = nth (l2Bytes { x.l2 with migrating := true, newSlot := newSlot, newCold := tier == 1 }) i 0) ∧
            t.counts = s.counts ∧ t.regs = s.regs)) ∧
    (∀ (m : Migration) (rest : List Migration) (x : MigRow) (d : Cmd) (differs : Bool), s.host.migrations = m :: rest → m.busy = [] → fwRuns s = true → migHot s m = false →
      migRow s m = some x → placeRefused (firmwareView s) x (oldPlace x) = false → placeRefused (firmwareView s) x (newPlace x m) = false →
      NoneOpen s x.at_ 16 → findCmd s m.cmd = some d → 6 ≤ x.t.rowLen →
      let v : View := { s := firmwareView s, p := 64, got := [] }
      let new := rgnOf v.s 64 (newPlace x m).1
      let a := rgnBase new + (newPlace x m).2
      let row := rgnBytes v (rgnOf v.s 64 (oldPlace x).1) (oldPlace x).2 x.t.rowLen
      ∃ t, exec (.tableMigrateCopy differs) s = .next t ∧ t.host.migrations = rest ∧
        HasFinished t d (if differs then Code.EMB_MIGRATE_BUSY else 0) 0 ∧
        (∀ i, i < 16 → hbmByte t (x.at_ + i) = nth (l2Bytes (if differs then { x.l2 with migrating := false } else
          { x.l2 with slot := m.newSlot, cold := m.tier == 1, migrating := false })) i 0) ∧
        (rgnLoc new ≤ 1 → (rgnLoc new = 0 → NoneOpen s a x.t.rowLen ∧ (x.at_ + 16 ≤ a ∨ a + x.t.rowLen ≤ x.at_)) →
          ∀ i, i < x.t.rowLen → i ≠ 5 → byteAt t (rgnLoc new) (a + i) = nth row i 0) ∧
        t.counts = s.counts ∧ t.regs = s.regs)

/-- O51. A doorbell below the ring's size makes its descriptors visible under the writer's identity, a larger one sets TAIL_REFUSED; CQ_HEAD
releases records that have been written, else, and at or above the ring's size (log entry 43), HEAD_REFUSED is set. EN written as 1 on a disabled
ring with a legal configuration enables it, from IDLE with its indices at 0; an illegal one sets CFG_REFUSED; EN written as 0 disables it. ABORT
drops what is not accepted and completes what is not started with CMD_ABORTED (what the DETAIL of a command that ends early shows is log entry 88).
The descriptor of the ring whose turn it is joins the accepted commands, or completes with the status of its first failed check, or with SRAM_UE
after an error in control storage; a failed read stops the ring with RING_READ. The oldest finished command has its 32-byte record written at
CQ_TAIL, and its message sent where it asks or failed; a failed write stops the ring with RING_WRITE. -/
def Obligations.RingsServed : Prop :=
  ∀ (s : State) (id : Ident) (r : Fin 64) (v : Word),
    let pg := Page.ring r
    (LetIn s id (fldAddr pg Reg.RING.SQ_TAIL 0) false →
      let x := v.toNat % 65536
      (x < sqSize s r → ∃ t, exec (.sqTailDoorbell id r v) s = .next t ∧ rd t pg Reg.RING.SQ_TAIL = x ∧
        (∀ i ∈ newIndices (rd s pg Reg.RING.SQ_TAIL) x (sqSize s r), smGet zeroDefault t.host.doorbell (r * 65536 + i) = identCode id) ∧
        RegsKept s t [fldAddr pg Reg.RING.SQ_TAIL 0] ∧ t = { s with regs := t.regs, host := { s.host with doorbell := t.host.doorbell } }) ∧
      (sqSize s r ≤ x → ∃ t, exec (.sqTailDoorbell id r v) s = .next t ∧ rd t pg Reg.RING.CHECK_TAIL_REFUSED = 1 ∧
        OnlyRegs s t [fldAddr pg Reg.RING.CHECK_TAIL_REFUSED 0])) ∧
    (LetIn s id (fldAddr pg Reg.RING.CQ_HEAD 0) false →
      let h := v.toNat % 65536
      let n := (h + cqSize s r - rd s pg Reg.RING.CQ_HEAD % cqSize s r) % cqSize s r
      (h < cqSize s r → n ≤ unreleased s r → ∃ t, exec (.cqHeadWrite id r v) s = .next t ∧ rd t pg Reg.RING.CQ_HEAD = h ∧
        unreleased t r = unreleased s r - n ∧ (∀ q, q ≠ r.val → unreleased t q = unreleased s q) ∧
        RegsKept s t [fldAddr pg Reg.RING.CQ_HEAD 0] ∧ t = { s with regs := t.regs, host := { s.host with unreleased := t.host.unreleased } }) ∧
      (cqSize s r ≤ h ∨ unreleased s r < n → ∃ t, exec (.cqHeadWrite id r v) s = .next t ∧ rd t pg Reg.RING.CHECK_HEAD_REFUSED = 1 ∧
        OnlyRegs s t [fldAddr pg Reg.RING.CHECK_HEAD_REFUSED 0])) ∧
    (LetIn s id (fldAddr pg Reg.RING.CTRL_EN 0) false → bit v.toNat 1 = false →
      (bit v.toNat 0 = false → ∃ t, exec (.ringEnable id r v) s = .next t ∧ rd t pg Reg.RING.CTRL_EN = 0 ∧
        OnlyRegs s t [fldAddr pg Reg.RING.CTRL_EN 0]) ∧
      (bit v.toNat 0 = true → rd s pg Reg.RING.CTRL_EN = 0 → ringCfgBad s r = true → ∃ t, exec (.ringEnable id r v) s = .next t ∧
        rd t pg Reg.RING.CHECK_CFG_REFUSED = 1 ∧ rd t pg Reg.RING.CTRL_EN = 0 ∧ OnlyRegs s t [fldAddr pg Reg.RING.CHECK_CFG_REFUSED 0]) ∧
      (bit v.toNat 0 = true → rd s pg Reg.RING.CTRL_EN = 0 → ringCfgBad s r = false → ringIdle s r = true → ∃ t, exec (.ringEnable id r v) s = .next t ∧
        rd t pg Reg.RING.CTRL_EN = 1 ∧ rd t pg Reg.RING.SQ_HEAD = 0 ∧ rd t pg Reg.RING.SQ_TAIL = 0 ∧ rd t pg Reg.RING.CQ_HEAD = 0 ∧
        rd t pg Reg.RING.CQ_TAIL = 0 ∧ unreleased t r = 0 ∧ t.host.accepted = s.host.accepted ∧ t.mem = s.mem ∧ t.counts = s.counts)) ∧
    (LetIn s id (fldAddr pg Reg.RING.CTRL_ABORT 0) false → bit v.toNat 1 = true → bit v.toNat 0 = false → (s.host.accepted.map (·.id)).Nodup →
      ∃ t, exec (.ringAbort id r v) s = .next t ∧ rd t pg Reg.RING.CTRL_EN = 0 ∧ rd t pg Reg.RING.SQ_HEAD = rd s pg Reg.RING.SQ_TAIL ∧
        (∀ c ∈ s.host.accepted, c.ring = r.val → c.started = false → HasFinished t c Code.CMD_ABORTED (earlyDetail s c) ∧ c ∉ t.host.accepted) ∧
        (∀ c ∈ s.host.accepted, c.ring ≠ r.val ∨ c.started = true → (∀ k, c.body ≠ some (.fence k)) → c ∈ t.host.accepted) ∧
        t = { s with regs := t.regs, host := { s.host with accepted := t.host.accepted, finished := t.host.finished } }) ∧
    (turnRing s = some r.val →
      let i := rd s pg Reg.RING.SQ_HEAD
      let space := if rd s pg Reg.RING.CFG_SQ_SPACE = 1 then 0 else 1
      let a := rd64 s pg Reg.RING.SQ_BASE_LO Reg.RING.SQ_BASE_HI + 64 * i
      let b := spaceBytes s space a 64
      spaceHot s space a 64 = false →
      (∃ t, exec (.descriptorAccept r true) s = .next t ∧ rd t pg Reg.RING.CTRL_EN = 0 ∧ rd t pg Reg.RING.CHECK_READ_ERR = 1 ∧
        HasRecord t 851 Code.RING_READ ∧ t.host = s.host ∧ t.mem = s.mem) ∧
      (refusedPage s space a 64 = none → spaceBad s space a 64 = false → s.host.sramFatal = false → ∃ t c, exec (.descriptorAccept r false) s = .next t ∧
        rd t pg Reg.RING.SQ_HEAD = (i + 1) % sqSize s r % 65536 ∧ c.id = s.host.nextCmd ∧ c.ring = r.val ∧ c.index = i ∧ c.tag = leAt b 4 4 ∧
        c.ordered = bit (leAt b 1 1) 0 ∧ c.irq = bit (leAt b 1 1) 1 ∧ c.body = (parseDescriptor b).2 ∧ c.started = false ∧
        ((parseDescriptor b).1 = 0 → t.host.accepted = s.host.accepted ++ [c] ∧ t.host.finished = s.host.finished) ∧
        ((parseDescriptor b).1 ≠ 0 → t.host.accepted = s.host.accepted ∧ HasFinished t c (parseDescriptor b).1 (opcodeDetail s (leAt b 0 1) (leAt b 8 2))) ∧
        t.counts = s.counts ∧ (s.fw.captures = [] → t.runs.runs = s.runs.runs)) ∧
      (refusedPage s space a 64 = none → spaceBad s space a 64 = false → s.host.sramFatal = true → ∃ t c, exec (.descriptorAccept r false) s = .next t ∧
        c.tag = leAt b 4 4 ∧ t.host.accepted = s.host.accepted ∧ HasFinished t c Code.SRAM_UE (opcodeDetail s (leAt b 0 1) (leAt b 8 2)))) ∧
    (∀ (d : Done) (rest : List Done) (ns : DWord), ringFinished s r = d :: rest →
      (rd s pg Reg.RING.STATUS_HELD = 0 ∨ rd s pg Reg.RING.CTRL_EN = 1) →
      let space := if rd s pg Reg.RING.CFG_CQ_SPACE = 1 then 0 else 1
      let a := rd64 s pg Reg.RING.CQ_BASE_LO Reg.RING.CQ_BASE_HI + 32 * rd s pg Reg.RING.CQ_TAIL
      spaceHot s space a 32 = false →
      (∃ t, exec (.commandCompletion r ns true) s = .next t ∧ rd t pg Reg.RING.CTRL_EN = 0 ∧ rd t pg Reg.RING.CHECK_WRITE_ERR = 1 ∧
        rd t pg Reg.RING.STATUS_HELD = 1 ∧ HasRecord t 851 Code.RING_WRITE ∧ t.host = s.host ∧ t.mem = s.mem) ∧
      (refusedPage s space a 32 = none → (space = 0 → NoneOpen s a 32) → ∃ t, exec (.commandCompletion r ns false) s = .next t ∧
        (∀ i, i < 32 → byteAt t space (a + i) = nth (completionBytes s r d ns.toNat) i 0) ∧
        (∀ b, b < a ∨ a + 32 ≤ b → byteAt t space b = byteAt s space b) ∧
        rd t pg Reg.RING.CQ_TAIL = (rd s pg Reg.RING.CQ_TAIL + 1) % cqSize s r % 65536 ∧ unreleased t r = unreleased s r + 1 ∧
        t.host.finished = eraseFirst d s.host.finished ∧
        t.host.msix = (if d.cmd.irq || d.status != 0 then s.host.msix ++ [rd s pg Reg.RING.CFG_VECTOR] else s.host.msix) ∧
        t.host.accepted = s.host.accepted ∧ t.counts = s.counts))

/-- O52. At its boundary an idle piste takes up the committed regions and the commanded epoch and mode. One marked for a fence is then fenced (that
the boundary actions come first is log entry 121), its own ARM stands as it was, its pending loads lapse and the ARM of every other piste that no
fence has stopped is 0; any other waits for its next run where R52 lets it start one: with ARM 1, or for a run firmware starts on a piste it holds
for that run. A run whose fixed epoch meets its own starts on all its pistes: RUN_STATUS 2, ITERATION shown, every gate at its first leg, local
events 0; one whose slot has lost its map completes with RUN_SLOT_EMPTY (judged at its start: log entry 55), or, a replay, lets the run it was made
for start again. A piste whose gates are done, or whose run has failed, leaves the run, which completes after its last piste with its status; the
other pistes of a failed run go on until they end (log entry 57). The end of a piste whose captures are due waits while a stack they write to is at
CRIT (the model's choice: log entry 98). The oldest due SIGNAL of a gate whose leg's writes have been accepted counts at its local event, or is sent
to its global counter, but for a replay. -/
def Obligations.RunsBeginAndEnd : Prop :=
  ∀ (s : State),
    (∀ p : Fin 64, idlePiste s p = true →
      (rd s (.pst p) Reg.PST.RUN_CTRL_FENCE_PENDING = 1 → ∃ t, exec (.pisteBoundary p) s = .next t ∧ rd t (.pst p) Reg.PST.RUN_CTRL_FENCED = 1 ∧
        rd t (.pst p) Reg.PST.RUN_CTRL_FENCE_PENDING = 0 ∧ rd t (.pst p) Reg.PST.RUN_CTRL_ARM = rd s (.pst p) Reg.PST.RUN_CTRL_ARM ∧
        rd t (.pst p) Reg.PST.REGION_SEQ = rd s (.rgn 0) Reg.RGN0.COMMIT_SEQ ∧ epochOn t p = s.mode.cmd % 2 ^ 32 ∧ (pisteOf t p).word = s.mode.word ∧
        bit (rd t (.mod 3) (if p.val < 32 then Reg.MOD3.FENCED_LO else Reg.MOD3.FENCED_HI)) (p % 32) = true ∧ (pisteOf t p).loads = [] ∧
        p.val ∈ t.fw.fencing ∧ (∀ q, q < 64 → q ≠ p.val → fenced s q = false → rd t (.pst q) Reg.PST.RUN_CTRL_ARM = 0) ∧ t.counts = s.counts) ∧
      (rd s (.pst p) Reg.PST.RUN_CTRL_FENCE_PENDING ≠ 1 → ∃ t, exec (.pisteBoundary p) s = .next t ∧
        rd t (.pst p) Reg.PST.REGION_SEQ = rd s (.rgn 0) Reg.RGN0.COMMIT_SEQ ∧ epochOn t p = s.mode.cmd % 2 ^ 32 ∧ (pisteOf t p).word = s.mode.word ∧
        ((∀ x ∈ s.runs.runs, bit x.left p = false ∨ x.started = true) → (pisteOf t p).waiting = none) ∧
        (∀ r, nextRun s p = some r → mayStart s p r = true → snapHeld s p = false → checkHeld s p = false →
          (pisteOf t p).waiting = some r.id ∧ rd t (.pst p) Reg.PST.RUN_STATUS_STATE = 1) ∧ t.counts = s.counts)) ∧
    (∀ n r e, findRun s n = some r → r.started = false → r.fixed = some e → r.epoch ≤ e → layoutOk s r = true →
      (∀ p ∈ maskList 64 r.left, (pisteOf s p).waiting = some n) →
      ((∀ p ∈ maskList 64 r.left, rd s (.pst p) Reg.PST.SLOT_ID r.slot ≠ 0) → ∃ t, exec (.runStart n) s = .next t ∧
        (∃ y ∈ t.runs.runs, y.id = n ∧ y.started = true) ∧
        (∀ p ∈ maskList 64 r.left, (pisteOf t p).run = some n ∧ (pisteOf t p).waiting = none ∧ (pisteOf t p).failed = false ∧
          rd t (.pst p) Reg.PST.RUN_STATUS_STATE = 2 ∧ rd t (.pst p) Reg.PST.RUN_ITER = r.iter % 2 ^ 32 ∧
          (∀ g, g < 12 → (gateOf t (gateIsland p g)).next = 0 ∧ (gateOf t (gateIsland p g)).waitOk = false) ∧ ∀ k, k < 256 → eventOf t p k = 0) ∧
        t.counts = s.counts ∧ t.mem = { s.mem with vcacheSet := t.mem.vcacheSet } ∧ t.host = s.host) ∧
      (∀ p ∈ maskList 64 r.left, rd s (.pst p) Reg.PST.SLOT_ID r.slot = 0 → ∃ t, exec (.runStart n) s = .next t ∧ (∀ y ∈ t.runs.runs, y.id ≠ n) ∧
        (∀ m y, r.relayout = false → r.held = some m → m ≠ n → y ∈ s.runs.runs → y.id = m → ∃ z ∈ t.runs.runs, z.id = m ∧ z.started = false ∧
          z.left = y.mask ∧ z.status = 0) ∧
        (∀ id c, r.relayout = false → r.held = none → r.cmd = some id → findCmd s id = some c → ∃ d, HasFinished t c Code.RUN_SLOT_EMPTY d) ∧ t.counts = s.counts ∧ t.mem = s.mem)) ∧
    (∀ (p : Fin 64) (r : RunRec), runOn s p = some r → ((pisteOf s p).failed || gatesDone s p r) = true → s.fw.sampling ≠ some p.val →
      ∃ t, exec (.runEnd p) s = .next t ∧ (pisteOf t p).run = none ∧ rd t (.pst p) Reg.PST.RUN_STATUS_STATE = 0 ∧
        (∀ g, g < 12 → rd t (.gate p g) Reg.GATE.STATUS_STATE = 0) ∧
        (∀ id c, r.left = 2 ^ p.val → r.relayout = false → r.held = none → r.status ≠ Code.STALE_SHARD → r.cmd = some id → findCmd s id = some c →
          HasFinished t c r.status (failDetail r.island r.leg) ∧ ∀ y ∈ t.runs.runs, y.id ≠ r.id) ∧
        t.counts = s.counts ∧ t.mem = s.mem) ∧
    (∀ (p : Fin 64) (r : RunRec), runOn s p = some r → captureHot s p r = true → exec (.runEnd p) s = .next s) ∧
    (∀ (p : Fin 64) (g : Fin 12) (r : RunRec) (d : SignalDue), runOn s p = some r →
      s.units.signalsDue.find? (fun x => x.piste == p.val && x.gate == g.val) = some d →
      (∀ w ∈ s.units.outStage, ¬ (w.piste = p ∧ w.gate = g ∧ w.leg = d.leg)) → (∀ m ∈ s.units.marksDue, ¬ (m.piste = p ∧ m.gate = g ∧ m.leg = d.leg)) →
      tagsOpen s p (some g) (some d.leg) = false →
      let x := imgSync (runImg s p r) d.sync
      let due := eraseFirst d s.units.signalsDue
      (x.global = false → ∃ t, exec (.legSignal p g) s = .next t ∧
        eventOf t p (x.counter % 256) = min (2 ^ 64 - 1) (eventOf s p (x.counter % 256) + x.amount) ∧
        (∀ k, k < 256 → k ≠ x.counter % 256 → eventOf t p k = eventOf s p k) ∧ t.units = { s.units with signalsDue := due } ∧
        t.counts = s.counts ∧ t.mem = s.mem ∧ t.regs = s.regs) ∧
      (x.global = true → r.replay = true → exec (.legSignal p g) s = .next { s with units := { s.units with signalsDue := due } }) ∧
      (x.global = true → r.replay = false → exec (.legSignal p g) s = .next { s with
        units := { s.units with signalsDue := due }
        sync := { s.sync with sigQ := s.sync.sigQ ++
          [{ counter := x.counter, amount := x.amount, round := syncTarget x r.iter % 2 ^ 16, src := .die (gateIsland p g) 0, run := some r.id,
             cmd := none, leg := d.leg }] } }))

/-- O53. With MODE.LIMIT not 0, a run that waits for its epoch is dropped, MODE_STALL is recorded in the name of island 852 (log entry 45) and its
command completes with it; a MODE_CHANGE that pistes in service lag shows the lowest lagging gate and their number, is recorded and completes with
MODE_STALL. With no run of the old layout left, a layout change without a relayout run is applied and completes with detail island 0 and no leg (log
entry 43); one with a run of resident maps queues it. With LAYOUT_LIMIT not 0 a change in progress shows STATE 3 and its lowest holder, is recorded
and completes with LAYOUT_STALL, and the fence stays. A run that ended with STALE_SHARD and has made fewer than three replays is preceded by a
replay run of the map its failed leg names, with the ITERATION of its version record, and its pistes are held. -/
def Obligations.ChangesEndOrStall : Prop :=
  ∀ (s : State),
    (∀ n r e, findRun s n = some r → r.started = false → rd s .mode Reg.MODE.LIMIT ≠ 0 → r.fixed = some e → e < r.epoch →
      let i := 12 * minOf 0 (maskList 64 r.mask)
      ∃ t, exec (.runModeStall n) s = .next t ∧ (∀ y ∈ t.runs.runs, y.id ≠ n) ∧ HasRecord t 852 Code.MODE_STALL ∧
        (∀ id c, r.relayout = false → r.held = none → r.cmd = some id → findCmd s id = some c → HasFinished t c Code.MODE_STALL (failDetail i noLeg)) ∧ t.counts = s.counts ∧ t.mem = s.mem) ∧
    (∀ x l c, modeChanges s = x :: l → findCmd s x.1 = some c → rd s .mode Reg.MODE.LIMIT ≠ 0 →
      let lag := (unfenced s).filter fun p => decide (epochOn s p < x.2)
      lag ≠ [] → ∃ t, exec .modeStall s = .next t ∧ rd t .mode Reg.MODE.STALL_ISLAND = 12 * minOf 0 lag ∧
        rd t .mode Reg.MODE.STALL_COUNT = 12 * lag.length ∧ HasRecord t 852 Code.MODE_STALL ∧ HasFinished t c Code.MODE_STALL 0 ∧
        t = { s with regs := t.regs, recs := t.recs, host := t.host } ∧
        RegsKept s t [fldAddr .mode Reg.MODE.STALL_ISLAND 0, fldAddr (.mod 2) Reg.MOD2.DROP_COUNT (codeClass Code.MODE_STALL)]) ∧
    (∀ l, s.layout.pend = some l → l.run = none → preFence s l = [] →
      (l.relayout = none → s.layout.applied ≤ l.epoch → l.epoch ≤ s.layout.cmd → ∃ t, exec .relayoutStart s = .next t ∧
        t.layout = { s.layout with applied := l.epoch, pend := none } ∧ rd t .mode Reg.MODE.LAYOUT_STATE_STATE = 0 ∧
        (∀ c, l.reported = false → findCmd s l.cmd = some c → HasFinished t c 0 (failDetail 0 noLeg)) ∧
        t.counts = s.counts ∧ t.mem = s.mem ∧ t.runs = s.runs) ∧
      (∀ slot mask iter, l.relayout = some (slot, mask, iter) →
        let m := serviceMask s mask
        m ≠ 0 → (∀ p ∈ maskList 64 m, rd s (.pst p) Reg.PST.SLOT_ID slot ≠ 0 ∧
          (imgChainEn (residentImg s p slot) = true → bit m (imgChainTo (residentImg s p slot)) = true)) →
        ∃ t, exec .relayoutStart s = .next t ∧ t.runs.runs = s.runs.runs ++ [{ newRun s none m slot 0 0 iter with relayout := true }] ∧
          t.layout = { s.layout with pend := some { l with run := some s.runs.nextId } } ∧ rd t .mode Reg.MODE.LAYOUT_STATE_STATE = 2 ∧
          RegsKept s t [fldAddr .mode Reg.MODE.LAYOUT_STATE_STATE 0] ∧ t = { s with regs := t.regs, runs := t.runs, layout := t.layout })) ∧
    (∀ l c, s.layout.pend = some l → l.reported = false → rd s .mode Reg.MODE.LAYOUT_LIMIT ≠ 0 → findCmd s l.cmd = some c →
      let i := 768 + minOf 0 (layoutHolders s l)
      ∃ t, exec .layoutStall s = .next t ∧ rd t .mode Reg.MODE.LAYOUT_STATE_STATE = 3 ∧ rd t .mode Reg.MODE.LAYOUT_STALL_ISLAND = i ∧
        t.layout = { s.layout with pend := some { l with reported := true } } ∧ HasRecord t 852 Code.LAYOUT_STALL ∧
        HasFinished t c Code.LAYOUT_STALL (failDetail i noLeg) ∧ t = { s with regs := t.regs, recs := t.recs, host := t.host, layout := t.layout }) ∧
    (∀ n r, findRun s n = some r → r.left = 0 → fwRuns s = true → r.status = Code.STALE_SHARD → r.replays < 3 →
      (∀ x ∈ s.runs.runs, x.held ≠ some n) →
      let p := r.island / 12
      let img := residentImg s p r.slot
      let l := imgLeg img (r.island % 12) r.leg
      let d := imgDesc img (l.dst + 1)
      ∃ t, exec (.staleReplay n) s = .next t ∧
        rd t .gns Reg.GNS.REPLAY_COUNT = satBits Reg.GNS.REPLAY_COUNT.w (rd s .gns Reg.GNS.REPLAY_COUNT + 1) ∧
        (∃ y ∈ t.runs.runs, y.replay = true ∧ y.held = some n ∧ y.mask = r.mask ∧ y.slot = bits l.p0 2 2 ∧
          y.iter = leNat (rgnBytes { s := s, p := p, got := [] } (rgnOf s p d.region) (rowOff d 0 + 4) 4)) ∧
        (∃ y ∈ t.runs.runs, y.id = n ∧ y.replays = r.replays + 1) ∧ (∀ q ∈ maskList 64 r.mask, rd t (.pst q) Reg.PST.RUN_CTRL_ARM = 0) ∧
        t.counts = s.counts)

/-- O54. A forerunner passes over an entry whose leg has issued or has no such operand; reads ahead for one that may be fetched what its ring has
room for (how far it runs ahead is log entry 85), keeps it for the leg, and shows the next entry once every fetch of it is known and issued; and
waits for the issue of any other. The output forerunner writes the oldest result of its present entry that stands in its ring, and results that
waited for room enter it. With WAIT_LIMIT not 0, a gate stalled on its upstream or downstream FIFO, or a leg on staged data or on room in an output
ring, ends its piste's run with SYNC_TIMEOUT, and of the legs that wait to close a reduce channel one with marks and ALL 0 closes with what has
arrived and any other ends the run with SYNC_TIMEOUT. COMMIT with GO 1 takes every staged region that is no FRONT of a weight set, and raises
COMMIT_SEQ (past 65,535 from 0: log entry 86). A weight set's FRONT and banks change only while it is not VALID; PUBLISH of a VALID set with a
higher staged version and a valid bank region publishes it, else REFUSED is set. -/
def Obligations.LimitsForerunnersRegions : Prop :=
  ∀ (s : State),
    (∀ (p : Fin 64) (f : Fin 4) (r : RunRec) (i : Nat) (x : FrnEnt), runOn s p = some r → r.started = true → (pisteOf s p).failed = false → f.val ≠ 2 →
      let e := frnEnv s p r x
      let d := e.desc (frnIdx e x)
      let regions := d.region :: (if d.scaleMode = 1 then [d.scaleRegion] else []) ++ (if d.outEn = 1 then [d.outRegion] else [])
      let waits := imgSync e.img e.leg.wsync
      let wants := frnWants e x [] (frnStages e x)
      let issued := fun (z : FrnEnt) =>
        let g := gateOf s (gateIsland p z.gate)
        z.leg < g.next ∨ (g.next = z.leg ∧ g.busy = true)
      let waits_ := ∃ t, exec (.forerunnerFetch p f []) s = .next t ∧ rd t (.frn p) Reg.FRN.FRN_STATUS_ENTRY f = i ∧
        rd t (.frn p) Reg.FRN.FRN_STATUS_STATE f = 2 ∧ OnlyRegs s t [fldAddr (.frn p) Reg.FRN.FRN_STATUS_ENTRY f]
      (frnList e.img f).find? (fun z => decide (rd s (.frn p) Reg.FRN.FRN_STATUS_ENTRY f ≤ z.1)) = some (i, x) → i + 1 < 2 ^ Reg.FRN.FRN_STATUS_ENTRY.w →
      (issued x ∨ descEmpty d = true → ∀ ram, ∃ t, exec (.forerunnerFetch p f ram) s = .next t ∧
        rd t (.frn p) Reg.FRN.FRN_STATUS_ENTRY f = i + 1 ∧ OnlyRegs s t [fldAddr (.frn p) Reg.FRN.FRN_STATUS_ENTRY f]) ∧
      (¬ issued x → descEmpty d = false →
        (regions.any (fun n => !rgnPf (rgnOf s p n)) = true ∨ frnStages e x = [] → ∀ ram, ∃ t, exec (.forerunnerFetch p f ram) s = .next t ∧
          rd t (.frn p) Reg.FRN.FRN_STATUS_ENTRY f = i ∧ rd t (.frn p) Reg.FRN.FRN_STATUS_STATE f = 2 ∧
          OnlyRegs s t [fldAddr (.frn p) Reg.FRN.FRN_STATUS_ENTRY f]) ∧
        (regions.all (fun n => rgnPf (rgnOf s p n)) = true → descStatus s p d .rd = 0 → frnStages e x ≠ [] →
          (e.leg.waitEn = false ∨ x.early = true ∨ syncTarget waits r.iter ≤ syncCount s p waits) →
          (wants.1 = [] → wants.2 = true → frnDecided e x = true → ∃ t, exec (.forerunnerFetch p f []) s = .next t ∧ rd t (.frn p) Reg.FRN.FRN_STATUS_ENTRY f = i + 1 ∧
            OnlyRegs s t [fldAddr (.frn p) Reg.FRN.FRN_STATUS_ENTRY f]) ∧
          (wants.1 = [] → wants.2 = false ∨ frnDecided e x = false → waits_) ∧
          (wants.1 ≠ [] → (∀ z ∈ wants.1, z.loc = 0 → hotRange s z.addr z.len = false) → getsOpen s p x.gate x.leg = false → tagless s p = false →
            (∀ z ∈ frnList e.img f, z.1 < i → issued z.2) →
            fitting (min x.stageSize (2 ^ 22) - frnStaged e x) wants.1 = wants.1 →
            ∃ t, exec (.forerunnerFetch p f []) s = .next t ∧ rd t (.frn p) Reg.FRN.FRN_STATUS_ENTRY f = i ∧
              rd t (.frn p) Reg.FRN.FRN_STATUS_STATE f = 1 ∧ (∀ y ∈ wants.1, y.loc ≠ 3 → spanHere (fetchedFor t p x.gate x.leg) y = true) ∧
              (∀ a, ¬ (scratchKey p x.stageOff ≤ a ∧ a < scratchKey p x.stageOff + x.stageSize) →
                smGet byteDefault t.mem.scratch a = smGet byteDefault s.mem.scratch a) ∧
              t.mem.hbm = s.mem.hbm ∧ t.mem.host = s.mem.host ∧ t.counts = s.counts ∧ t.runs = s.runs ∧ t.gates = s.gates)))) ∧
    (∀ (p : Fin 64) (w : StagedWrite) (r : RunRec) (k : Nat) (x : FrnEnt), runOn s p = some r → outEntry s p (runImg s p r) = some (k, x) →
      s.units.outStage.find? (fun y => y.piste == p.val && y.gate == x.gate && y.leg == x.leg && y.operand == x.operand && y.inRing) = some w →
      w.poison = false → tagless s p = false →
      (w.loc = 0 → hotRange s w.addr w.bytes.length = false) →
      refusedIn s [] [{ loc := w.loc, node := 0, space := 0, addr := w.addr, len := w.bytes.length }] = none →
      (∀ loc, w.loc = loc → loc ≤ 1 → (loc = 0 → NoneOpen s w.addr w.bytes.length) → ∃ t, exec (.forerunnerWriteback p []) s = .next t ∧
        (∀ i, i < w.bytes.length → byteAt t loc (w.addr + i) = nth w.bytes i 0) ∧
        (∀ b, b < w.addr ∨ w.addr + w.bytes.length ≤ b → byteAt t loc b = byteAt s loc b) ∧
        t.units.outStage = enterRings (runImg s p r) p [] (eraseFirst w s.units.outStage) ∧ rd t (.frn p) Reg.FRN.FRN_STATUS_ENTRY 2 = k % 2 ^ Reg.FRN.FRN_STATUS_ENTRY.w ∧
        t.counts = s.counts ∧ t.runs = s.runs)) ∧
    (∀ (p : Fin 64) (r : RunRec), runOn s p = some r → rd s (.pst p) Reg.PST.WAIT_LIMIT ≠ 0 →
      (∀ (g : Fin 12) (up : Bool), r.started = true → (pisteOf s p).failed = false → bit r.left p = true →
        (let x := gateOf s (gateIsland p g)
         if up = true then 0 < x.need ∧ x.up = [] else x.busy = true ∧ x.held ≠ []) →
        ∃ t, exec (.fifoStallExpiry p g up) s = .next t ∧ HasRecord t (gateIsland p g) Code.SYNC_TIMEOUT ∧ (pisteOf t p).failed = true ∧
          rd t (.pst p) Reg.PST.RUN_STATUS_STATE = 3 ∧ t.counts = s.counts ∧ t.mem = s.mem) ∧
      (∀ (f : Fin 4) (x : Nat × FrnEnt), x ∈ frnList (runImg s p r) f → r.started = true → (pisteOf s p).failed = false →
        (let g := gateOf s (gateIsland p x.2.gate)
         if f.val = 2 then g.next = x.2.leg ∧ g.busy = true ∧ ringsHold s p x.2.gate x.2.leg = false
         else ∃ e, nextLeg s p x.2.gate = some e ∧ e.idx = x.2.leg ∧ waitDone e = true) →
        ∃ t, exec (.stageTimeout p f) s = .next t ∧ rd t (.frn p) Reg.FRN.CHECK_STAGE_TIMEOUT = 1 ∧ HasRecord t (768 + p) Code.SYNC_TIMEOUT ∧
          (pisteOf t p).failed = true ∧ rd t (.pst p) Reg.PST.RUN_STATUS_STATE = 3 ∧ t.counts = s.counts ∧ t.mem = s.mem) ∧
      (∀ e : Env, nextLeg s p 11 = some e → e.leg.op = 3 → (redOf e.leg).chEn = true → (chanOf s p (redOf e.leg).ch).waiting = some e.run.id →
        closeReady (chanOf s p (redOf e.leg).ch) (redOf e.leg) e.run.iter = false →
        let some_ := (List.range (redOf e.leg).k).any (bit (arrivedOf (chanOf s p (redOf e.leg).ch) e.run.iter))
        ((redOf e.leg).all = false → some_ = true →
          ∃ t, exec (.reduceCloseLimit p) s = .next t ∧ (chanOf t p (redOf e.leg).ch).expired = true ∧ t = { s with units := t.units }) ∧
        ((redOf e.leg).all = true ∨ some_ = false → ∃ t, exec (.reduceCloseLimit p) s = .next t ∧ HasRecord t (gateIsland p 11) Code.SYNC_TIMEOUT ∧
          (pisteOf t p).failed = true ∧ t.counts = s.counts ∧ t.mem = s.mem))) ∧
    (∀ (id : Ident) (v : Word),
      (LetIn s id (fldAddr (.rgn 0) Reg.RGN0.COMMIT_GO 0) false → bit v.toNat 0 = true → ∃ t, exec (.regionCommit id v) s = .next t ∧
        rd t (.rgn 0) Reg.RGN0.COMMIT_SEQ = (rd s (.rgn 0) Reg.RGN0.COMMIT_SEQ + 1) % 2 ^ 16 ∧
        (∀ n, n < 256 → n ∉ fronts s → committedRgn t n = (commitRgn (stagedRgn s n)).1 ∧
          ((commitRgn (stagedRgn s n)).2 = true → HasRecord t 852 Code.RGN_FIELD)) ∧
        (∀ n, n < 256 → n ∈ fronts s → committedRgn t n = committedRgn s n) ∧ t.counts = s.counts ∧ t.runs = s.runs) ∧
      (∀ w : Fin 16, LetIn s id (fldAddr (.rgn 1) Reg.RGN1.WSET_FRONT w) false → ∃ t, exec (.wsetWrite id w v) s = .next t ∧
        rd t (.rgn 1) Reg.RGN1.WSET_VALID w = bits v.toNat 31 1 ∧
        (rd s (.rgn 1) Reg.RGN1.WSET_VALID w = 0 → rd t (.rgn 1) Reg.RGN1.WSET_FRONT w = bits v.toNat 0 8 ∧
          rd t (.rgn 1) Reg.RGN1.WSET_BANK0 w = bits v.toNat 8 8 ∧ rd t (.rgn 1) Reg.RGN1.WSET_BANK1 w = bits v.toNat 16 8) ∧
        (rd s (.rgn 1) Reg.RGN1.WSET_VALID w = 1 → rd t (.rgn 1) Reg.RGN1.WSET_FRONT w = rd s (.rgn 1) Reg.RGN1.WSET_FRONT w ∧
          rd t (.rgn 1) Reg.RGN1.WSET_BANK0 w = rd s (.rgn 1) Reg.RGN1.WSET_BANK0 w ∧ t.pistes = s.pistes) ∧
        t = { s with regs := t.regs, pistes := t.pistes }) ∧
      (LetIn s id (fldAddr (.rgn 1) Reg.RGN1.PUBLISH_SET 0) false →
        let w := bits v.toNat 0 4
        let ver := rd s (.rgn 1) Reg.RGN1.PUB_VERSION_STAGE
        let bank := if bit v.toNat 4 then rd s (.rgn 1) Reg.RGN1.WSET_BANK1 w else rd s (.rgn 1) Reg.RGN1.WSET_BANK0 w
        let may := rd s (.rgn 1) Reg.RGN1.WSET_VALID w = 1 ∧ rd s (.rgn 1) Reg.RGN1.PUB_VERSION w < ver ∧ rgnValid (committedRgn s bank) = true
        (may → ∃ t, exec (.publish id v) s = .next t ∧ rd t (.rgn 1) Reg.RGN1.PUB_VERSION w = ver ∧
          rd t (.rgn 1) Reg.RGN1.WSET_PUB_BANK w = bits v.toNat 4 1 ∧ t.counts = s.counts ∧ t.runs = s.runs ∧ t.rgn = s.rgn) ∧
        (¬ may → ∃ t, exec (.publish id v) s = .next t ∧ rd t (.rgn 1) Reg.RGN1.REFUSED = 1 ∧
          OnlyRegs s t [fldAddr (.rgn 1) Reg.RGN1.REFUSED 0])))

/-- O55. A GATHER_SHARD that executes, of a shard whose version, read first, is even, the held one under BWD, and the same in the second reading, is
carried out and completes; an odd version, or under BWD another, ends the run with STALE_SHARD, nothing copied. A sweep check, of the oldest capture
of its gate that may be checked, that agrees takes its capture off and counts; one that is not completed changes nothing; a difference counts in
MISMATCHES (each one: log entry 44); with a third piste it is recorded, and the piste in the minority is marked for a fence with cause 8 (the number
is log entry 56); without a third piste, or with no verdict, it is recorded as unresolved (log entry 44). The fallback of the piste fenced first
loads its listed images, or none with FALLBACK_FAIL, ends the queued runs that named it alone with PISTE_FENCED and a detail that names the piste
and no leg (log entry 43), and with no other fence waiting ends the hold on the pistes that firmware holds for nothing else. -/
def Obligations.ShardsSweepsFallbacks : Prop :=
  ∀ (s : State),
    (∀ (p : Fin 64) (e : Env), Issues s p 11 5 opGatherShard e →
      (shardFresh e = true → versionOf e true = versionOf e false → Completes s (.gatherShard p []) opGatherShard e) ∧
      (versionOf e false % 2 = 1 ∨ (bit e.leg.p0 0 = true ∧ versionOf e false ≠ versionHeld e) → ∃ t, exec (.gatherShard p []) s = .next t ∧
        HasRecord t (gateIsland p 11) Code.STALE_SHARD ∧ (pisteOf t p).failed = true ∧ rd t (.gate p 11) Reg.GATEX.CHECK_STALE = 1 ∧
        rd t .gns Reg.GNS.STALE_COUNT = satBits Reg.GNS.STALE_COUNT.w (rd s .gns Reg.GNS.STALE_COUNT + 1) ∧ t.counts = s.counts ∧
        t.mem.hbm = s.mem.hbm)) ∧
    (∀ (p : Fin 64) (g : Fin 12),
      exec (.sweepCheck p g .deferred) s = .next s ∧
      ∀ (c : Capture) (k : Nat) (more : List Nat),
      s.fw.captures.find? (fun c => c.piste == p.val && c.gate == g.val && checkOpen s c) = some c → checkersOf s p = k :: more →
      let marked := fun (t : State) (q : Nat) => rd s (.pst q) Reg.PST.RUN_CTRL_FENCE_PENDING = 0 → rd s (.pst q) Reg.PST.RUN_CTRL_FENCED = 0 →
        rd t (.pst q) Reg.PST.RUN_CTRL_FENCE_PENDING = 1 ∧ rd t (.pst q) Reg.PST.RUN_CTRL_FENCE_CAUSE = 8
      let differs := fun (t : State) => t.fw = { s.fw with captures := s.fw.captures.erase c } ∧
        rd t (.mod 3) Reg.MOD3.SWEEP_CHECKS = satBits 32 (rd s (.mod 3) Reg.MOD3.SWEEP_CHECKS + 1) ∧
        rd t (.mod 3) Reg.MOD3.SWEEP_MISMATCHES = satBits 32 (rd s (.mod 3) Reg.MOD3.SWEEP_MISMATCHES + 1) ∧
        t = { s with regs := t.regs, recs := t.recs, fw := t.fw }
      let open_ := fun (r : SweepResult) => ∃ t, exec (.sweepCheck p g r) s = .next t ∧ differs t ∧ HasRecord t 852 Code.SWEEP_UNRESOLVED
      (∃ t, exec (.sweepCheck p g .agree) s = .next t ∧ t.fw = { s.fw with captures := s.fw.captures.erase c } ∧
        rd t (.mod 3) Reg.MOD3.SWEEP_CHECKS = satBits 32 (rd s (.mod 3) Reg.MOD3.SWEEP_CHECKS + 1) ∧
        rd t (.mod 3) Reg.MOD3.SWEEP_MISMATCHES = rd s (.mod 3) Reg.MOD3.SWEEP_MISMATCHES ∧ t = { s with regs := t.regs, recs := t.recs, fw := t.fw }) ∧
      (more ≠ [] → (∃ t, exec (.sweepCheck p g .targetMinority) s = .next t ∧ differs t ∧ HasRecord t 852 Code.SWEEP_MISMATCH ∧ marked t p) ∧
        ∃ t, exec (.sweepCheck p g .checkerMinority) s = .next t ∧ differs t ∧ HasRecord t 852 Code.SWEEP_MISMATCH ∧ marked t k) ∧
      (more = [] → open_ .targetMinority ∧ open_ .checkerMinority) ∧ open_ .unresolved) ∧
    (∀ f rest, s.fw.fencing = f :: rest → fwRuns s = true → s.sec.phase = .ready → (unfenced s).all (idlePiste s) = true → ∃ t, exec .fallback s = .next t ∧
      t.fw.fencing = rest ∧ (1, f * 256 + rd s (.pst f) Reg.PST.RUN_CTRL_FENCE_CAUSE) ∈ t.fw.repairLog ∧
      (rd s (.mod 3) Reg.MOD3.FALLBACK_CTRL_VALID = 1 → (fencedList s).length = 1 →
        (fallbackItems s f = none → HasRecord t 852 Code.FALLBACK_FAIL ∧ t.fw.fallbackFailed = true) ∧
        (fallbackItems s f ≠ none → HasRecord t 852 Code.FALLBACK) ∧
        ∀ l x, fallbackItems s f = some (l ++ [x]) → rd t (.pst x.1) Reg.PST.SLOT_ID x.2.1 = leAt x.2.2 12 4) ∧
      ((s.host.accepted.map (·.id)).Nodup → ∀ r ∈ s.runs.runs, r.started = false → r.mask = 2 ^ f → f < 64 → r.relayout = false → r.held = none →
        ∀ id c, r.cmd = some id → findCmd s id = some c →
        (∀ k, c.body ≠ some (.fence k)) → HasFinished t c Code.PISTE_FENCED (failDetail (768 + f) noLeg)) ∧
      (rest = [] → ∀ h ∈ s.fw.holds, h.1 < 64 → h.2 = 1 → (∀ k ∈ s.fw.holds, k.1 = h.1 → k.2 = 1) → rd t (.pst h.1) Reg.PST.RUN_CTRL_ARM = 1) ∧
      t.counts = s.counts)

/-- O56. A spare-map write is taken while the map is not locked, and one that maps a column twice is ignored and recorded; CLEAR zeroes the first-
drop fields; CHAN_RESET frees a channel on which no leg waits; PAUSE holds or resumes the groomer; MAX_CLEAR sets MAX to NOW and DIE_MAX_CLEAR to
the highest present reading; SNAP latches every reading for its identity; SOFT_CAP takes 1,000 to 2,400 W; PORT_CTRL takes its fields, and RETRAIN
of a port that R276, R302 and R400 do not keep in electrical idle puts it in training (that it stays so until its bring-up is log entry 40). Nothing
else changes. -/
def Obligations.SmallRegistersWritten : Prop :=
  ∀ (s : State) (id : Ident) (v : Word),
    (∀ (p : Fin 64) (m : Fin 5) (reg : Fin 5),
      let pg := Page.gate p (mGate m)
      let a := pageBase pg + (if reg.val < 4 then 0x220 + 4 * reg.val else 0x230)
      let ws := (List.range 4).map fun i => (regWord s (pageBase pg + 0x220 + 4 * i)).toNat
      let clash := spareClash (if reg.val < 4 then ws.set reg v.toNat else ws) (if reg.val < 4 then rd s pg Reg.GATEM.SPARE_VALID else v.toNat % 65536)
      LetIn s id a false →
        (rd s pg Reg.GATEM.SPARE_LOCK_LOCK = 1 → exec (.spareMapWrite id p m reg v) s = .next s) ∧
        (rd s pg Reg.GATEM.SPARE_LOCK_LOCK = 0 → clash = false → ∃ t, exec (.spareMapWrite id p m reg v) s = .next t ∧
          (reg.val < 4 → regWord t a = v) ∧ (reg.val = 4 → rd t pg Reg.GATEM.SPARE_VALID = v.toNat % 65536) ∧ OnlyRegs s t [a]) ∧
        (rd s pg Reg.GATEM.SPARE_LOCK_LOCK = 0 → clash = true → ∃ t, exec (.spareMapWrite id p m reg v) s = .next t ∧
          rd t pg Reg.GATEM.CHECK_SPARE_WRITE = 1 ∧ HasRecord t (gateIsland p (mGate m)) Code.MG_SPARE_WRITE ∧ regWord t a = regWord s a ∧
          t = { s with regs := t.regs, recs := t.recs })) ∧
    (∀ (p : Fin 64) (k : Fin 3), LetIn s id (fldAddr (.gate p (vGate k)) Reg.GATEV.DROP_CTRL_CLEAR 0) false → bit v.toNat 0 = true →
      let fs := [Reg.GATEV.DROP_COUNT, Reg.GATEV.DROP_LEG, Reg.GATEV.DROP_ROW, Reg.GATEV.DROP_COL]
      ∃ t, exec (.dropCtrlClear id p k v) s = .next t ∧ (∀ f ∈ fs, rd t (.gate p (vGate k)) f = 0) ∧
        OnlyRegs s t (fs.map fun f => fldAddr (.gate p (vGate k)) f 0)) ∧
    (∀ p : Fin 64, LetIn s id (fldAddr (.gate p 11) Reg.GATEX.CHAN_RESET 0) false →
      let c := v.toNat % 16
      ((chanOf s p c).waiting = none → ∃ t, exec (.chanReset id p v) s = .next t ∧ chanOf t p c = ChanSt.free ∧
        (∀ q k, (q ≠ p.val ∨ k ≠ c) → k < 16 → chanOf t q k = chanOf s q k) ∧ rd t (.gate p 11) Reg.GATEX.CLOSED_VALID c = 0 ∧
        rd t (.gate p 11) Reg.GATEX.PENDING_LO c = 0 ∧ rd t (.gate p 11) Reg.GATEX.PENDING_HI c = 0 ∧
        t = { s with regs := t.regs, units := { s.units with chans := t.units.chans } }) ∧
      ((chanOf s p c).waiting ≠ none → exec (.chanReset id p v) s = .next s)) ∧
    (∀ st : Fin 12,
      (LetIn s id (fldAddr (.stk st) Reg.STK.GROOM_CTRL_PAUSE 0) false → ∃ t, exec (.groomPause id st v) s = .next t ∧
        rd t (.stk st) Reg.STK.GROOM_CTRL_PAUSE = bits v.toNat 0 1 ∧ OnlyRegs s t [fldAddr (.stk st) Reg.STK.GROOM_CTRL_PAUSE 0]) ∧
      (LetIn s id (fldAddr (.stk st) Reg.STK.MAX_CLEAR 0) false → bit v.toNat 0 = true → ∃ t, exec (.maxClear id st v) s = .next t ∧
        rd t (.stk st) Reg.STK.TEMP_MAX = rd s (.stk st) Reg.STK.TEMP_NOW ∧ rd t (.stk st) Reg.STK.TEMP_NOW = rd s (.stk st) Reg.STK.TEMP_NOW ∧
        OnlyRegs s t [fldAddr (.stk st) Reg.STK.TEMP_MAX 0])) ∧
    (LetIn s id (fldAddr .tlm Reg.TLM.DIE_MAX_CLEAR 0) false → bit v.toNat 0 = true → ∃ t, exec (.dieMaxClear id v) s = .next t ∧
      (∀ i, i < 96 → bits (rd s .tlm Reg.TLM.DIE_TEMP (i / 4)) (8 * (i % 4)) 8 ≤ rd t .tlm Reg.TLM.DIE_MAX) ∧
      (∃ i, i < 96 ∧ rd t .tlm Reg.TLM.DIE_MAX = bits (rd s .tlm Reg.TLM.DIE_TEMP (i / 4)) (8 * (i % 4)) 8) ∧
      OnlyRegs s t [fldAddr .tlm Reg.TLM.DIE_MAX 0]) ∧
    (LetIn s id (fldAddr .tlm Reg.TLM.SNAP 0) false → bit v.toNat 0 = true → ∃ t, exec (.tlmSnap id v) s = .next t ∧
      (∀ o ∈ tlmReadings, smGet (fun _ => (0 : Word)) t.ports.snapLatch (tlmKey id o) = wordAt s (pageBase .tlm + o)) ∧
      smGet flagDefault t.ports.snapped (identCode id) = true ∧
      (∀ k, k / 4096 ≠ identCode id → smGet (fun _ => (0 : Word)) t.ports.snapLatch k = smGet (fun _ => (0 : Word)) s.ports.snapLatch k) ∧
      t = { s with ports := { s.ports with snapLatch := t.ports.snapLatch, snapped := t.ports.snapped } }) ∧
    (LetIn s id (fldAddr .pwr Reg.PWR.SOFT_CAP 0) false →
      let w := bits v.toNat 0 12
      (1000 ≤ w → w ≤ 2400 → ∃ t, exec (.softCapWrite id v) s = .next t ∧ rd t .pwr Reg.PWR.SOFT_CAP = w ∧
        OnlyRegs s t [fldAddr .pwr Reg.PWR.SOFT_CAP 0]) ∧
      (w < 1000 ∨ 2400 < w → ∃ t, exec (.softCapWrite id v) s = .next t ∧ rd t .pwr Reg.PWR.SOFT_CAP = rd s .pwr Reg.PWR.SOFT_CAP ∧
        rd t .pwr Reg.PWR.PWR_CHECK_CAP_REFUSED = 1 ∧ OnlyRegs s t [fldAddr .pwr Reg.PWR.PWR_CHECK_CAP_REFUSED 0])) ∧
    (∀ port : Fin 7, LetIn s id (fldAddr (.bnd port) Reg.BND.PORT_CTRL_ROUTE_EN 0) true →
      (bit v.toNat 2 = false → ∃ t, exec (.retrain id port v) s = .next t ∧
        rd t (.bnd port) Reg.BND.PORT_CTRL_ROUTE_EN = (if routeHeld s port then rd s (.bnd port) Reg.BND.PORT_CTRL_ROUTE_EN else bits v.toNat 0 1) ∧
        rd t (.bnd port) Reg.BND.PORT_CTRL_RETRAIN_EN = bits v.toNat 1 1 ∧ rd t (.bnd port) Reg.BND.PORT_CTRL_SPARE_EN = bits v.toNat 3 1 ∧
        t = { s with regs := t.regs, bnd := t.bnd } ∧ RegsKept s t [fldAddr (.bnd port) Reg.BND.PORT_CTRL_ROUTE_EN 0]) ∧
      (bit v.toNat 2 = true → s.pins.rstN = true → idlePort s port = false → ∃ t, exec (.retrain id port v) s = .next t ∧
        rd t (.bnd port) Reg.BND.PORT_STATUS_STATE = 1 ∧ rd t (.bnd port) Reg.BND.PORT_CTRL_RETRAIN_EN = bits v.toNat 1 1 ∧
        (portUp s port = true → rd t (.bnd port) Reg.BND.PORT_CTRL_ROUTE_EN = 0 ∧ rd t (.bnd port) Reg.BND.PEER_VALID = 0 ∧
          HasRecord t (844 + port) Code.BND_LINK_DOWN) ∧ t.mem = s.mem ∧ t.counts = s.counts))

/-- O57. ROLLBACK_COMMIT of a core, while the booted slot is confirmed, blows rollback fuses up to the booted image's ROLLBACK, at most 64; of
another identity, or unconfirmed, it does nothing. HOST_IMG GO reads an image of at most 7,340,032 bytes, else sets ERR. The last token word ends in
an unlock with the token's scope where the token is valid, else in SEC_TOKEN with FAILS one higher; with debug disabled or eight failures it changes
nothing but the token. DBG_RELOCK locks. HOLD_CONTINUE lets a held boot go on. CP_HALT halts the cores it names, and CP_STEP changes the program
counters of halted cores it names alone. -/
def Obligations.SecurityRegistersWritten : Prop :=
  ∀ (s : State) (id : Ident) (v : Word),
    (LetIn s id (fldAddr (.sec 0) Reg.SEC0.ROLLBACK_COMMIT 0) false →
      (isCp id = true → bit v.toNat 0 = true → s.sec.confirmed = true → ∃ t, exec (.rollbackCommit id v) s = .next t ∧
        t.fuses = { s.fuses with rollback := max s.fuses.rollback (min s.sec.bootRollback 64) } ∧
        (s.fuses.rollback ≤ 64 → rd t (.sec 0) Reg.SEC0.FUSE_STATE_ROLLBACK = t.fuses.rollback) ∧
        t = { s with regs := t.regs, fuses := t.fuses } ∧ RegsKept s t [fldAddr (.sec 0) Reg.SEC0.FUSE_STATE_ROLLBACK 0]) ∧
      (isCp id = false ∨ s.sec.confirmed = false → exec (.rollbackCommit id v) s = .next s)) ∧
    (LetIn s id (fldAddr (.sec 0) Reg.SEC0.HOST_IMG_CTRL_GO 0) false → s.sec.phase = .waitHost →
      let n := rd s (.sec 0) Reg.SEC0.HOST_IMG_SIZE
      let image := smList byteDefault s.mem.host (rd64 s (.sec 0) Reg.SEC0.HOST_IMG_ADDR_LO Reg.SEC0.HOST_IMG_ADDR_HI) n
      (n ≤ 7340032 → ∃ t, exec (.hostImgGo id false) s = .next t ∧ t.sec = { s.sec with hostImage := image } ∧
        rd t (.sec 0) Reg.SEC0.HOST_IMG_CTRL_DONE = 1 ∧ t = { s with regs := t.regs, sec := t.sec }) ∧
      (∃ t, exec (.hostImgGo id true) s = .next t ∧ rd t (.sec 0) Reg.SEC0.HOST_IMG_CTRL_ERR = 1 ∧
        OnlyRegs s t [fldAddr (.sec 0) Reg.SEC0.HOST_IMG_CTRL_ERR 0]) ∧
      (7340032 < n → ∃ t, exec (.hostImgGo id false) s = .next t ∧ rd t (.sec 0) Reg.SEC0.HOST_IMG_CTRL_ERR = 1 ∧ t.sec = s.sec)) ∧
    (debugAnswers s = true →
      let u := { s with sec := { s.sec with tokenWords := smSet (fun _ => (0 : Word)) s.sec.tokenWords 327 v } }
      let fails := rd s (.sec 0) Reg.SEC0.DBG_STATUS_FAILS
      (s.fuses.debugDisable = true ∨ 8 ≤ fails → exec (.dbgToken v) s = .next u) ∧
      (s.fuses.debugDisable = false → fails < 8 → ∃ t, exec (.dbgToken v) s = .next t ∧
        (if tokenValid u (tokenBytes u) then rd t (.sec 0) Reg.SEC0.DBG_STATUS_UNLOCKED = 1 ∧
            rd t (.sec 0) Reg.SEC0.DBG_STATUS_SCOPE = leAt (tokenBytes u) 28 4 ∧ rd t (.sec 0) Reg.SEC0.DBG_STATUS_FAILS = fails
          else rd t (.sec 0) Reg.SEC0.DBG_STATUS_UNLOCKED = rd s (.sec 0) Reg.SEC0.DBG_STATUS_UNLOCKED ∧
            rd t (.sec 0) Reg.SEC0.DBG_STATUS_FAILS = fails + 1 ∧ HasRecord t 853 Code.SEC_TOKEN) ∧ t.mem = s.mem ∧ t.fuses = s.fuses)) ∧
    (LetIn s id (fldAddr (.sec 0) Reg.SEC0.DBG_RELOCK 0) false → bit v.toNat 0 = true → ∃ t, exec (.dbgRelock id v) s = .next t ∧
      rd t (.sec 0) Reg.SEC0.DBG_STATUS_UNLOCKED = 0 ∧ rd t (.sec 0) Reg.SEC0.DBG_STATUS_SCOPE = 0 ∧
      OnlyRegs s t [fldAddr (.sec 0) Reg.SEC0.DBG_STATUS_UNLOCKED 0]) ∧
    (LetIn s id (fldAddr .dbg Reg.DBG.HOLD_HOLD_CONTINUE 0) false →
      (rd s .dbg Reg.DBG.HOLD_HELD = 1 → ∃ t, exec (.holdContinue id) s = .next t ∧ rd t .dbg Reg.DBG.HOLD_HELD = 0 ∧
        t.sec = { s.sec with phase := .booting } ∧ t = { s with regs := t.regs, sec := t.sec }) ∧
      (rd s .dbg Reg.DBG.HOLD_HELD = 0 → exec (.holdContinue id) s = .next s)) ∧
    (LetIn s id (fldAddr .dbg Reg.DBG.CP_HALT_HALT 0) false → ∃ t, exec (.cpHalt id v) s = .next t ∧ rd t .dbg Reg.DBG.CP_HALT_HALT = bits v.toNat 0 4 ∧
      rd t .dbg Reg.DBG.CP_STATE_HALTED = (bits v.toNat 0 4).lor (rd s .dbg Reg.DBG.HOLD_HELD) ∧ t = { s with regs := t.regs, freeCount := t.freeCount }) ∧
    (LetIn s id (fldAddr .dbg Reg.DBG.CP_STEP_STEP 0) false → ∃ t, exec (.cpStep id v) s = .next t ∧ t = { s with regs := t.regs, freeCount := t.freeCount } ∧
      RegsKept s t ((List.range 4).flatMap fun k => if bit v.toNat k && bit (rd s .dbg Reg.DBG.CP_STATE_HALTED) k then
        [fldAddr .dbg Reg.DBG.CP_PC_LO k, fldAddr .dbg Reg.DBG.CP_PC_HI k] else []))

/-- O58. An aligned 32-bit write that is let in, of a word whose register has no rule of its own, sets RW fields, clears W1C bits, sets W1S bits,
sets RWL fields while they are not locked, and leaves RO fields; in a stopped unit only W1C bits change. No other word changes. A write that the
rights refuse is counted in DENIED_COUNT and changes nothing outside HIF; an access of another size or alignment sets NARROW alone. A 64-bit write
of two 32-bit registers is the two writes in ascending order. A host write that reaches the configuration space or BAR2 (their layout is log entry
99) sets or clears by 1 the bits of its bytes that are so writable, a vector it unmasks is no longer pending, and a write of the decoder's control
commits it; a write elsewhere, or of another identity, changes nothing. A read of 1, 2, 4 or 8 bytes aligned to its size (the operands are log entry
105) returns its bytes, and of a mailbox register does what the word's read does; one not aligned to its size returns 0 and sets NARROW alone. An
SMBus transaction at the module's address with a good PEC is the register access of MGMT; at any other address, or with a bad PEC, it does nothing.
-/
def Obligations.RegistersAccessed : Prop :=
  ∀ (s : State) (id : Ident) (a : Nat) (v : DWord),
    let w := v.toNat % 2 ^ 32
    (portAnswers s id = true → a % 4 = 0 → a ≠ zeroAddr → ¬ (id = .debug ∧ 0x20800 ≤ a ∧ a < 0x20D20) →
      (∀ pg, pageAt a = some pg → 0x100 ≤ a % 4096 → blockWrite id pg (a % 4096) w = none → ¬ (id = .pair ∧ pg = .mod 4) → LetIn s id a true →
        ∃ t, exec (.registerWrite id a 4 v) s = .next t ∧ OnlyRegs s t [a] ∧
          ((wordFields pg (a % 4096)).Nodup → ∀ f ∈ wordFields pg (a % 4096), f.lo + f.w ≤ 32 →
            (∀ g ∈ wordFields pg (a % 4096), g ≠ f → g.lo + g.w ≤ f.lo ∨ f.lo + f.w ≤ g.lo) →
            let old := bits (regWord s a).toNat f.lo f.w
            let x := bits w f.lo f.w
            bits (regWord t a).toNat f.lo f.w = (match f.acc with
              | .rw => if offline s pg then old else x
              | .w1c => old - old.land x
              | .w1s => if offline s pg then old else old.lor x
              | .rwl => if pageLocked s pg || offline s pg then old else x
              | _ => old))) ∧
      (Refused s id a true → ∃ t, exec (.registerWrite id a 4 v) s = .next t ∧
        rd t .hif Reg.HIF.DENIED_COUNT = min (2 ^ 32 - 1) (rd s .hif Reg.HIF.DENIED_COUNT + 1) ∧
        OnlyRegs s t [fldAddr .hif Reg.HIF.DENIED_COUNT 0, fldAddr .hif Reg.HIF.DENIED_ADDR 0, fldAddr .hif Reg.HIF.DENIED_PORT_IDENTITY 0,
          fldAddr .hif Reg.HIF.HIF_CHECK_DENIED 0])) ∧
    (portAnswers s id = true →
      (∀ size, ¬ (size = 4 ∧ a % 4 = 0) → ¬ (size = 8 ∧ a % 8 = 0) → ∃ t, exec (.registerWrite id a size v) s = .next t ∧
        rd t .hif Reg.HIF.HIF_CHECK_NARROW = 1 ∧ OnlyRegs s t [fldAddr .hif Reg.HIF.HIF_CHECK_NARROW 0]) ∧
      (a % 8 = 0 → (∀ pg, pageAt a = some pg → wide64 pg (a % 4096) = false) → ∃ t u, exec (.registerWrite id a 8 v) s = .next t ∧
        exec (.registerWrite id a 4 v) s = .next u ∧ t = writeStep id (a + 4) (v.toNat / 2 ^ 32) u)) ∧
    (∀ bar size,
      (bar ≠ 0 → (bar ≠ 2 ∧ bar ≠ configSpace) ∨ hostSpaceOk s id bar a size = false → exec (.registerWrite id a size v bar) s = .next s) ∧
      (bar = 2 ∨ bar = configSpace → hostSpaceOk s id bar a size = true → size = 1 ∨ size = 2 ∨ size = 4 ∨ size = 8 →
        let stored := fun (u : State) (k : Nat) => if bar = configSpace then smGet configReset u.host.config k else smGet bar2Reset u.host.bar2 k
        let able := fun (k : Nat) => if bar = configSpace then configBits k else bar2Bits k
        ∃ t, exec (.registerWrite id a size v bar) s = .next t ∧
          (∀ k j, j < 32 → bit (stored t k).toNat j =
            (let c := 4 * k + j / 8
             let x := bit v.toNat (8 * (c - a) + j % 8)
             let old := bit (stored s k).toNat j
             if a ≤ c ∧ c < a + size then (if bit (able k).1 j then x else old && !(bit (able k).2 j && x)) else old)) ∧
          (size ≤ 4 → ∀ n, smGet flagDefault t.host.msixPend n = (smGet flagDefault s.host.msixPend n && msixHeld t.host n)) ∧
          (let k := hdmWords + 8
           if bar = 2 ∧ a ≤ 4 * k ∧ 4 * k < a + size then
             (bit (stored t k).toNat 9 = false → t.host.hdmCommit = 0) ∧
             (bit (stored t k).toNat 9 = true → cxlFull s = true → t.host.hdmCommit = if decoderUnits t.host = rd s .hif Reg.HIF.HDM_UNITS then 1 else 2)
           else t.host.hdmCommit = s.host.hdmCommit) ∧
          t = { s with host := { s.host with config := t.host.config, bar2 := t.host.bar2, msixPend := t.host.msixPend, hdmCommit := t.host.hdmCommit } })) ∧
    (∀ page off size reg bar, size = 1 ∨ size = 2 ∨ size = 4 ∨ size = 8 →
      let b := page * 4096 + reg + off
      let w := b / 4 * 4
      let answers_ := fun (n : Nat) => ∃ t, exec (.faultFirstRead id page off size reg bar) s = .next t ∧ returned t id = n ∧
        t = { s with ports := { s.ports with response := t.ports.response } }
      let word := fun (k : Nat) => if bar = configSpace then configWordAt s k else if bar = 2 then bar2WordAt s k else 0
      (bar ≠ 0 → id = .host → rd s .hif Reg.HIF.LINK_STATUS_UP = 1 →
        (b % size = 0 → answers_ ((word (b / 4) + 2 ^ 32 * word (b / 4 + 1)) / 2 ^ (8 * (b % 4)) % 2 ^ (8 * size))) ∧
        (b % size ≠ 0 → answers_ 0)) ∧
      (bar ≠ 0 → id ≠ .host ∨ rd s .hif Reg.HIF.LINK_STATUS_UP = 0 → exec (.faultFirstRead id page off size reg bar) s = .next s) ∧
      (bar = 0 → reg ≠ 0x60 → portAnswers s id = true →
        (b % size = 0 → (∀ x, x = b ∨ x = w ∨ (size = 8 ∧ x = w + 4) → mapWindowAt x = none) → LetRead s id w → (size = 8 → LetRead s id (w + 4)) →
          (∀ x, x = w ∨ (size = 8 ∧ x = w + 4) → x % 4096 ≠ 0x60 ∧ ¬ (id = .debug ∧ 0x20400 ≤ x ∧ x < 0x20410)) →
          (∀ pg, pageAt b = some pg → (∀ k, pg ≠ .mbx k) ∧ (∀ k, pg ≠ .syn k) ∧ (∀ k, pg ≠ .pst k) ∧ pg ≠ .tlm) →
          answers_ (((wordAt s w).toNat + if size = 8 then 2 ^ 32 * (wordAt s (w + 4)).toNat else 0) / 2 ^ (8 * (b % 4)) % 2 ^ (8 * size))) ∧
        (b % size ≠ 0 → ∃ t, exec (.faultFirstRead id page off size reg bar) s = .next t ∧ returned t id = 0 ∧ rd t .hif Reg.HIF.HIF_CHECK_NARROW = 1 ∧
          t = { s with regs := t.regs, ports := { s.ports with response := t.ports.response } } ∧
          RegsKept s t [fldAddr .hif Reg.HIF.HIF_CHECK_NARROW 0]))) ∧
    (∀ (c : Fin 32) (off size : Nat), portAnswers s id = true →
      let reads := fun (b : Nat) (i : Nat → Nat → Instr) =>
        (size = 1 ∨ size = 2 → off % size = 0 → off + size ≤ 4 → LetRead s id b → ∃ u t, exec (i 0 4) s = .next u ∧ exec (i off size) s = .next t ∧
          returned t id = returned u id / 2 ^ (8 * off) % 2 ^ (8 * size) ∧ t = { u with ports := { u.ports with response := t.ports.response } }) ∧
        (size = 2 ∨ size = 4 → off % size ≠ 0 → ∃ t, exec (i off size) s = .next t ∧ returned t id = 0 ∧ rd t .hif Reg.HIF.HIF_CHECK_NARROW = 1 ∧
          t = { s with regs := t.regs, ports := { s.ports with response := t.ports.response } } ∧
          RegsKept s t [fldAddr .hif Reg.HIF.HIF_CHECK_NARROW 0])
      reads (fldAddr mb Reg.MBX0.LOCK c) (fun o n => .mbxLockRead id c o n) ∧
      reads (fldAddr mb Reg.MBX0.STATUS_FULL c) (fun o n => .mbxStatusRead id c o n) ∧
      ∀ (j : Fin 8) (ecc : Bool), reads (dataAddr c j) (fun o n => .mbxDataRead id c j ecc o n)) ∧
    (∀ off x : Word,
      (∀ pec isWrite ecc dev, pec = false ∨ dev ≠ 0x6C → exec (.smbusTransaction pec isWrite off x ecc dev) s = .next s) ∧
      (off.toNat % 4 = 0 → ∀ ecc, exec (.smbusTransaction true true off x ecc) s = exec (.registerWrite .mgmt off.toNat 4 (x.setWidth 64)) s) ∧
      (off.toNat % 4 = 0 → portAnswers s .mgmt = true → mapWindowAt off.toNat = none → off.toNat % 4096 ≠ 0x60 → LetRead s .mgmt off.toNat →
        (∀ pg, pageAt off.toNat = some pg → (∀ k, pg ≠ .mbx k) ∧ (∀ k, pg ≠ .syn k) ∧ (∀ k, pg ≠ .pst k) ∧ pg ≠ .tlm) →
        ∀ ecc, ∃ t, exec (.smbusTransaction true false off x ecc) s = .next t ∧ returned t .mgmt = (wordAt s off.toNat).toNat ∧ t.ports.smbOffset = off.toNat ∧
          t = { s with ports := { s.ports with response := t.ports.response, smbOffset := t.ports.smbOffset } }))

/-- O59. SENSE shows the level that has held. Bring-up of port P against a valid peer takes the two sequences from the partner's header (log entry
96) and pairs and joins the module, or with a takeover on either side enters RESYNC, and a takeover of the partner learned so is an event of the
mirror interval; against an invalid peer it enters CONFLICT, recorded. A takeover that is due is counted and recorded; with a piste still running it
holds the unfenced pistes; with every piste at its boundary, at once or later (the parts of takeovers and snapshots, and the state between them, are
log entry 41), it enters TAKEOVER with the complete half as the live one, JOINED and FAB_CTRL.TAKEOVER set. The interval begins a snapshot in
PAIRED, or on the survivor in RESYNC: the half of the lower SEQ is taken, the list read, and the unfenced pistes held; while the partner is in core
reset, or the list lies in a stack at CRIT (the model's choice: log entry 98), it is remembered as due. One that does not fit is given up with
MIR_FULL, else its items are written under SEQ 0; one whose writes are all acknowledged stands under its sequence. -/
def Obligations.PairFollows : Prop :=
  ∀ (s : State),
    let m4 := Page.mod 4
    let still := fun (l : List Nat) (t : State) => ∀ p, p < 64 →
      rd t (.pst p) Reg.PST.RUN_CTRL_ARM = (if l.contains p then 0 else rd s (.pst p) Reg.PST.RUN_CTRL_ARM)
    (∀ level, ∃ t, exec (.pairSenseChange level) s = .next t ∧ rd t m4 Reg.MOD4.PAIR_STATUS_SENSE = (if level then 1 else 0) ∧
      RegsKept s t [fldAddr m4 Reg.MOD4.PAIR_STATUS_SENSE 0] ∧ t = { s with regs := t.regs, pins := { s.pins with pairSense := level } }) ∧
    (∀ r taken base size q0 q1, portUp s 6 = true → pairState s = 2 ∨ pairState s = 3 ∨ pairState s = 5 ∨ pairState s = 6 → s.fw.pairStep = 0 →
      (pairingValid s r = true → ∃ t, exec (.pairBringup r taken base size q0 q1) s = .next t ∧ t.fw.partnerTakeover = taken ∧
        t.fw.partnerBase = base ∧ t.fw.partnerSize = size ∧ t.fw.mirSeq0 = q0 ∧ t.fw.mirSeq1 = q1 ∧
        (inTakeover s = false → taken = false → pairState t = 1 ∧ rd t m4 Reg.MOD4.PAIR_STATUS_JOINED = 1) ∧
        (inTakeover s = true ∨ taken = true → pairState t = 4 ∧ rd t m4 Reg.MOD4.PAIR_STATUS_JOINED = rd s m4 Reg.MOD4.PAIR_STATUS_JOINED) ∧
        rd t (.mod 3) Reg.MOD3.MIR_EVENTS = (if taken && !s.fw.partnerTakeover then satBits 32 (rd s (.mod 3) Reg.MOD3.MIR_EVENTS + 1)
          else rd s (.mod 3) Reg.MOD3.MIR_EVENTS) ∧
        t = { s with regs := t.regs, recs := t.recs, fw := t.fw, freeCount := t.freeCount }) ∧
      (pairingValid s r = false → pairState s ≠ 5 → ∃ t, exec (.pairBringup r taken base size q0 q1) s = .next t ∧ pairState t = 5 ∧
        rd t m4 Reg.MOD4.PAIR_CHECK_CONFLICT = 1 ∧ HasRecord t 852 Code.PAIR_CONFLICT ∧ t = { s with regs := t.regs, recs := t.recs })) ∧
    (let done_ := fun (t : State) => pairState t = 3 ∧ rd t m4 Reg.MOD4.PAIR_STATUS_JOINED = 1 ∧ inTakeover t = true ∧
       t.fw.liveHalf = completeHalf s ∧ t.fw.pairStep = 0 ∧ t.host.msix = s.host.msix ++ [2]
     let quiet := fwRuns s = true ∧ (unfenced s).all (idlePiste s) = true
     (takeoverDue s = true → ∃ t, exec .pairTakeover s = .next t ∧ rd t m4 Reg.MOD4.PAIR_CHECK_TAKEOVER = 1 ∧
       rd t m4 Reg.MOD4.TAKE_COUNT = satBits 32 (rd s m4 Reg.MOD4.TAKE_COUNT + 1) ∧
       rd t (.mod 3) Reg.MOD3.MIR_EVENTS = satBits 32 (rd s (.mod 3) Reg.MOD3.MIR_EVENTS + 1) ∧ HasRecord t 853 Code.PAIR_TAKEOVER ∧
       (quiet → done_ t) ∧ ((∃ p, p < 64 ∧ fenced s p = false ∧ (pisteOf s p).run ≠ none) → t.fw.pairStep = 1 ∧ still (unfenced s) t) ∧
       t.counts = s.counts) ∧
     (s.fw.pairStep = 1 → quiet → ∃ t, exec .pairTakeover s = .next t ∧ done_ t ∧ t.counts = s.counts ∧ t.mem = s.mem)) ∧
    (∀ holdUs,
      (pairState s = 1 ∨ (pairState s = 4 ∧ inTakeover s = true) → s.sec.phase = .ready → fwRuns s = true → s.fw.snap = none →
        rd s (.mod 3) Reg.MOD3.MIR_CTRL_EN = 1 →
        (rd s (.bnd 6) Reg.BND.PORT_STATUS_STATE = 2 → listHot s = false → (∃ p, p < 64 ∧ fenced s p = false ∧ (pisteOf s p).run ≠ none) →
          let begun_ : SnapSt :=
            { half := if s.fw.mirSeq1 < s.fw.mirSeq0 then 1 else 0, seq := max s.fw.mirSeq0 s.fw.mirSeq1 + 1, iter := none
              listed := (listTaken s).1.map fun i => [(listEntry s i).1, (listEntry s i).2.1, (listEntry s i).2.2], written := false }
          ∃ t, exec (.mirrorSnapshot holdUs) s = .next t ∧ t.fw.snap = some begun_ ∧ still (unfenced s) t ∧
            ((listTaken s).2 ≠ [] → HasRecord t 852 Code.PAIR_LIST) ∧ t.bnd = s.bnd ∧ t.counts = s.counts) ∧
        (rd s (.bnd 6) Reg.BND.PORT_STATUS_STATE = 3 ∨ (rd s (.bnd 6) Reg.BND.PORT_STATUS_STATE = 2 ∧ listHot s = true) → exec (.mirrorSnapshot holdUs) s = .next { s with fw := { s.fw with snapshotDue := true } }) ∧
        (rd s (.bnd 6) Reg.BND.PORT_STATUS_STATE < 2 → exec (.mirrorSnapshot holdUs) s = .next s)) ∧
      (∀ x, s.fw.snap = some x → fwRuns s = true →
        (x.written = false → (unfenced s).all (idlePiste s) = true → (x.listed.all fun l => !hotRange s (nth l 1 0) (nth l 2 0)) = true →
          ∃ t, exec (.mirrorSnapshot holdUs) s = .next t ∧ t.counts = s.counts ∧
            ((t.fw.snap = none ∧ rd t m4 Reg.MOD4.PAIR_CHECK_MIR_FULL = 1 ∧ HasRecord t 852 Code.PAIR_MIR_FULL ∧ t.bnd = s.bnd) ∨
              (65536 < s.fw.partnerSize ∧ t.fw.snap = some { x with iter := some (x.iter.getD (s.runs.topIter.getD 0)), written := true } ∧
                (x.half = 0 → t.fw.mirSeq0 = 0) ∧ (x.half ≠ 0 → t.fw.mirSeq1 = 0)))) ∧
        (x.written = true → (∀ r ∈ s.bnd.tags, r.purpose ≠ 4) → (∀ y ∈ s.bnd.tagWait, y.2.purpose ≠ 4) → ∃ t, exec (.mirrorSnapshot holdUs) s = .next t ∧
          t.fw.snap = none ∧ rd t (.mod 3) Reg.MOD3.MIR_SNAP_SEQ = x.seq % 2 ^ 32 ∧ rd t (.mod 3) Reg.MOD3.MIR_COST = satBits 32 holdUs ∧
          (x.half = 0 → t.fw.mirSeq0 = x.seq) ∧ (x.half ≠ 0 → t.fw.mirSeq1 = x.seq) ∧
          (∀ h ∈ s.fw.holds, h.1 < 64 → h.2 = 2 → (∀ k ∈ s.fw.holds, k.1 = h.1 → k.2 = 2) → rd t (.pst h.1) Reg.PST.RUN_CTRL_ARM = 1) ∧
          t.counts = s.counts ∧ t.mem = s.mem)))

/-- O60. ALIVE_RELEASE drives PAIR_ALIVE: low once firmware has reported ready, unless it is released. SNAP_NOW begins a snapshot at once where one
may begin (with MIR_CTRL.EN 1: log entry 41), remembers it while the partner is in core reset or the list lies in a stack at CRIT (log entry 98),
and else changes nothing. END_TAKEOVER on a survivor in RESYNC holds every piste in service; with every piste at its boundary it writes JOIN to the
newcomer, and on the newcomer's acknowledgement, an operand of the command, ends the takeover (that operand and the state between the parts are log
entry 41). JOIN sets JOINED, and pairs a newcomer in RESYNC, for identity PAIR alone; START_ALONE sets JOINED in START. Written by an identity that
may not, each changes nothing. -/
def Obligations.PairControlWritten : Prop :=
  ∀ (s : State) (id : Ident),
    let m4 := Page.mod 4
    let still := fun (l : List Nat) (t : State) => ∀ p, p < 64 →
      rd t (.pst p) Reg.PST.RUN_CTRL_ARM = (if l.contains p then 0 else rd s (.pst p) Reg.PST.RUN_CTRL_ARM)
    (∀ v : Word, LetIn s id (fldAddr m4 Reg.MOD4.PAIR_CTRL_ALIVE_RELEASE 0) false →
      (id ≠ .pair → ∃ t, exec (.aliveRelease id v) s = .next t ∧
        rd t m4 Reg.MOD4.PAIR_CTRL_ALIVE_RELEASE = bits v.toNat 0 1 ∧ t.pins = { s.pins with aliveLow := s.sec.everReady && bits v.toNat 0 1 == 0 } ∧
        RegsKept s t [fldAddr m4 Reg.MOD4.PAIR_CTRL_ALIVE_RELEASE 0] ∧ t = { s with regs := t.regs, pins := t.pins }) ∧
      (id = .pair → exec (.aliveRelease id v) s = .next s)) ∧
    (LetIn s id (fldAddr m4 Reg.MOD4.PAIR_CTRL_SNAP_NOW 0) false →
      let may := (pairState s = 1 ∨ (pairState s = 4 ∧ inTakeover s = true)) ∧ s.sec.phase = .ready ∧ fwRuns s = true ∧ s.fw.snap = none ∧
        rd s (.mod 3) Reg.MOD3.MIR_CTRL_EN = 1
      (id ≠ .pair → may → rd s (.bnd 6) Reg.BND.PORT_STATUS_STATE = 2 → listHot s = false →
        let begun_ : SnapSt :=
          { half := if s.fw.mirSeq1 < s.fw.mirSeq0 then 1 else 0, seq := max s.fw.mirSeq0 s.fw.mirSeq1 + 1, iter := none
            listed := (listTaken s).1.map fun i => [(listEntry s i).1, (listEntry s i).2.1, (listEntry s i).2.2], written := false }
        ∃ t, exec (.snapNow id) s = .next t ∧ t.fw.snap = some begun_ ∧ still (unfenced s) t ∧
          ((listTaken s).2 ≠ [] → HasRecord t 852 Code.PAIR_LIST) ∧ t.bnd = s.bnd ∧ t.counts = s.counts) ∧
      (id ≠ .pair → may → rd s (.bnd 6) Reg.BND.PORT_STATUS_STATE = 3 ∨ (rd s (.bnd 6) Reg.BND.PORT_STATUS_STATE = 2 ∧ listHot s = true) →
        exec (.snapNow id) s = .next { s with fw := { s.fw with snapshotDue := true } }) ∧
      (id = .pair ∨ ¬ may ∨ rd s (.bnd 6) Reg.BND.PORT_STATUS_STATE < 2 → exec (.snapNow id) s = .next s)) ∧
    (∀ ack, LetIn s id (fldAddr m4 Reg.MOD4.PAIR_CTRL_END_TAKEOVER 0) false →
      (id ≠ .pair → pairState s = 4 → inTakeover s = true → s.fw.pairStep = 0 →
        ((∃ p, p < 64 ∧ fenced s p = false ∧ (pisteOf s p).run ≠ none) → ∃ t, exec (.endTakeover id ack) s = .next t ∧ t.fw.pairStep = 2 ∧
          still (unfenced s) t ∧ t.bnd = s.bnd ∧ t.counts = s.counts) ∧
        (fwRuns s = true → (unfenced s).all (idlePiste s) = true → ∃ t, exec (.endTakeover id ack) s = .next t ∧ t.counts = s.counts ∧ t.mem = s.mem ∧
          (ack = true → inTakeover t = false ∧ (s.fw.partnerTakeover = false → pairState t = 1) ∧ t.fw.liveHalf = none ∧ t.fw.pairStep = 0) ∧
          (ack = false → inTakeover t = true ∧ pairState t = 4 ∧ t.fw.pairStep = 2 ∧ still (unfenced s) t ∧
            ((∃ r ∈ t.bnd.tags, r.purpose = 5) ∨ ∃ y ∈ t.bnd.tagWait, y.2.purpose = 5)))) ∧
      (id = .pair ∨ pairState s ≠ 4 → exec (.endTakeover id ack) s = .next s)) ∧
    (LetIn s id (fldAddr m4 Reg.MOD4.PAIR_CTRL_JOIN 0) false →
      (id = .pair → ∃ t, exec (.join id) s = .next t ∧ rd t m4 Reg.MOD4.PAIR_STATUS_JOINED = 1 ∧
        (pairState s = 4 → inTakeover s = false → pairState t = 1 ∧ t.fw.partnerTakeover = false) ∧
        (pairState s ≠ 4 → OnlyRegs s t [fldAddr m4 Reg.MOD4.PAIR_STATUS_JOINED 0]) ∧ t = { s with regs := t.regs, recs := t.recs, fw := t.fw }) ∧
      (id ≠ .pair → exec (.join id) s = .next s)) ∧
    (LetIn s id (fldAddr m4 Reg.MOD4.PAIR_CTRL_START_ALONE 0) false →
      (id ≠ .pair → pairState s = 6 → ∃ t, exec (.startAlone id) s = .next t ∧ rd t m4 Reg.MOD4.PAIR_STATUS_JOINED = 1 ∧
        OnlyRegs s t [fldAddr m4 Reg.MOD4.PAIR_STATUS_JOINED 0]) ∧
      (id = .pair ∨ pairState s ≠ 6 → exec (.startAlone id) s = .next s))
end

