-- ==== Sys2Proof/Laws/SMap.lean ====
section
/-! SUPPORT. Laws of sparse maps: a read after a write, and the canonical form kept. -/

namespace Sys2Proof.Machine

variable {α : Type}

theorem smGet_erase_same (d : Nat → α) (m : SMap α) (k : Nat) : smGet d (smErase k m) k = d k := by
  induction m with
  | nil => rfl
  | cons e r ih =>
    obtain ⟨j, v⟩ := e
    by_cases h : j = k
    · simpa [smErase, h] using ih
    · simpa [smErase, h, smGet] using ih

theorem smGet_erase_ne (d : Nat → α) (m : SMap α) (k i : Nat) (h : i ≠ k) :
    smGet d (smErase k m) i = smGet d m i := by
  induction m with
  | nil => rfl
  | cons e r ih =>
    obtain ⟨j, v⟩ := e
    by_cases hj : j = k
    · subst hj
      have : ¬ j = i := fun c => h c.symm
      simpa [smErase, smGet, this] using ih
    · by_cases hi : j = i
      · simp [smErase, smGet, hi]
        simp [hi ▸ hj, smGet]
      · have ih' := ih
        simp only [smErase] at ih'
        simp [smErase, hj, smGet, hi, ih']

theorem smGet_insert_same (d : Nat → α) (m : SMap α) (k : Nat) (v : α) (h : ∀ e ∈ m, e.1 ≠ k) :
    smGet d (smInsert k v m) k = v := by
  induction m with
  | nil => simp [smInsert, smGet]
  | cons e r ih =>
    obtain ⟨j, w⟩ := e
    have hj : j ≠ k := h (j, w) (by simp)
    have hr := ih (fun e he => h e (by simp [he]))
    by_cases hk : k < j
    · simp [smInsert, hk, smGet]
    · simp [smInsert, hk, smGet, hj, hr]

theorem smGet_insert_ne (d : Nat → α) (m : SMap α) (k i : Nat) (v : α) (h : i ≠ k) :
    smGet d (smInsert k v m) i = smGet d m i := by
  have h' : ¬ k = i := fun c => h c.symm
  induction m with
  | nil => simp [smInsert, smGet, h']
  | cons e r ih =>
    obtain ⟨j, w⟩ := e
    by_cases hk : k < j
    · simp [smInsert, hk, smGet, h']
    · simp [smInsert, hk, smGet, ih]

theorem smErase_ne (m : SMap α) (k : Nat) : ∀ e ∈ smErase k m, e.1 ≠ k := by
  intro e he
  simpa using (List.mem_filter.mp he).2

theorem smGet_set_same [DecidableEq α] (d : Nat → α) (m : SMap α) (k : Nat) (v : α) :
    smGet d (smSet d m k v) k = v := by
  unfold smSet
  split
  · next h => rw [smGet_erase_same, h]
  · exact smGet_insert_same d _ k v (smErase_ne m k)

theorem smGet_set_ne [DecidableEq α] (d : Nat → α) (m : SMap α) (k i : Nat) (v : α) (h : i ≠ k) :
    smGet d (smSet d m k v) i = smGet d m i := by
  unfold smSet
  split
  · exact smGet_erase_ne d m k i h
  · rw [smGet_insert_ne d _ k i v h, smGet_erase_ne d m k i h]

theorem smGet_set [DecidableEq α] (d : Nat → α) (m : SMap α) (k i : Nat) (v : α) :
    smGet d (smSet d m k v) i = if i = k then v else smGet d m i := by
  split
  · next h => subst h; exact smGet_set_same d m i v
  · next h => exact smGet_set_ne d m k i v h

theorem smCanon_nil (d : Nat → α) : SMapCanon d ([] : SMap α) := ⟨List.Pairwise.nil, by simp⟩

theorem smCanon_filter (d : Nat → α) (m : SMap α) (p : Nat × α → Bool) (h : SMapCanon d m) :
    SMapCanon d (m.filter p) :=
  ⟨h.1.filter p, fun e he => h.2 e (List.mem_filter.mp he).1⟩

theorem smCanon_erase (d : Nat → α) (m : SMap α) (k : Nat) (h : SMapCanon d m) :
    SMapCanon d (smErase k m) := smCanon_filter d m _ h

theorem smCanon_drop (d : Nat → α) (m : SMap α) (p : Nat → Bool) (h : SMapCanon d m) :
    SMapCanon d (smDrop p m) := smCanon_filter d m _ h

theorem smInsert_mem (k : Nat) (v : α) (m : SMap α) : ∀ e ∈ smInsert k v m, e = (k, v) ∨ e ∈ m := by
  induction m with
  | nil => intro e he; simpa [smInsert] using he
  | cons x r ih =>
    intro e he
    unfold smInsert at he
    split at he
    · simpa using he
    · rcases List.mem_cons.mp he with h | h
      · exact .inr (by simp [h])
      · rcases ih e h with h | h
        · exact .inl h
        · exact .inr (by simp [h])

theorem smCanon_insert (d : Nat → α) (m : SMap α) (k : Nat) (v : α) (hv : v ≠ d k)
    (hk : ∀ e ∈ m, e.1 ≠ k) (h : SMapCanon d m) : SMapCanon d (smInsert k v m) := by
  obtain ⟨hp, hd⟩ := h
  refine ⟨?_, ?_⟩
  · induction m with
    | nil => simp [smInsert]
    | cons x r ih =>
      obtain ⟨hx, hr⟩ := List.pairwise_cons.mp hp
      unfold smInsert
      split
      · next hlt =>
        refine List.pairwise_cons.mpr ⟨?_, hp⟩
        intro e he
        rcases List.mem_cons.mp he with rfl | he
        · exact hlt
        · exact lt_trans hlt (hx e he)
      · next hge =>
        refine List.pairwise_cons.mpr ⟨?_, ih (fun e he => hk e (by simp [he])) hr
          (fun e he => hd e (by simp [he]))⟩
        intro e he
        rcases smInsert_mem k v r e he with rfl | he
        · have := hk x (by simp)
          dsimp only at *; omega
        · exact hx e he
  · intro e he
    rcases smInsert_mem k v m e he with rfl | he
    · exact hv
    · exact hd e he

theorem smCanon_set [DecidableEq α] (d : Nat → α) (m : SMap α) (k : Nat) (v : α) (h : SMapCanon d m) :
    SMapCanon d (smSet d m k v) := by
  unfold smSet
  split
  · exact smCanon_erase d m k h
  · next hv => exact smCanon_insert d _ k v hv (smErase_ne m k) (smCanon_erase d m k h)

theorem smCanon_setList [DecidableEq α] (d : Nat → α) (vs : List α) :
    ∀ (m : SMap α) (k : Nat), SMapCanon d m → SMapCanon d (smSetList d m k vs) := by
  induction vs with
  | nil => intro m k h; exact h
  | cons v r ih => intro m k h; exact ih _ _ (smCanon_set d m k v h)

theorem smGet_setList_out [DecidableEq α] (d : Nat → α) (vs : List α) :
    ∀ (m : SMap α) (k i : Nat), (i < k ∨ k + vs.length ≤ i) → smGet d (smSetList d m k vs) i = smGet d m i := by
  induction vs with
  | nil => intro m k i _; rfl
  | cons v r ih =>
    intro m k i h
    simp only [List.length_cons] at h
    rw [smSetList, ih _ _ _ (by omega), smGet_set_ne d m k i v (by omega)]

theorem smGet_setList_in [DecidableEq α] (d : Nat → α) (vs : List α) :
    ∀ (m : SMap α) (k i : Nat) (h : i < vs.length), smGet d (smSetList d m k vs) (k + i) = vs[i] := by
  induction vs with
  | nil => intro m k i h; simp at h
  | cons v r ih =>
    intro m k i h
    cases i with
    | zero => rw [smSetList, smGet_setList_out _ _ _ _ _ (by omega)]; simp [smGet_set_same]
    | succ j =>
      have := ih (smSet d m k v) (k + 1) j (by simpa using h)
      rw [smSetList, show k + (j + 1) = k + 1 + j by omega, this]; rfl

/-- Canonical maps that read alike are equal data. -/
theorem smCanon_ext (d : Nat → α) (m n : SMap α) (hm : SMapCanon d m) (hn : SMapCanon d n)
    (h : ∀ k, smGet d m k = smGet d n k) : m = n := by
  have below : ∀ (l : SMap α) (k : Nat), (∀ e ∈ l, k < e.1) → smGet d l k = d k := by
    intro l k hl
    induction l with
    | nil => rfl
    | cons e r ih =>
      have : e.1 ≠ k := by have := hl e (by simp); omega
      obtain ⟨j, v⟩ := e
      simp only [smGet]
      rw [if_neg this]
      exact ih (fun e he => hl e (by simp [he]))
  induction m generalizing n with
  | nil =>
    cases n with
    | nil => rfl
    | cons e r =>
      exfalso
      have := h e.1
      simp only [smGet, if_pos] at this
      exact hn.2 e (by simp) this.symm
  | cons e r ih =>
    cases n with
    | nil =>
      exfalso
      have := h e.1
      simp only [smGet, if_pos] at this
      exact hm.2 e (by simp) this
    | cons f t =>
      obtain ⟨hme, hmr⟩ := List.pairwise_cons.mp hm.1
      obtain ⟨hnf, hnt⟩ := List.pairwise_cons.mp hn.1
      have keys : e.1 = f.1 := by
        rcases lt_trichotomy e.1 f.1 with c | c | c
        · exfalso
          have h1 := h e.1
          rw [below (f :: t) e.1 (by
            intro x hx
            rcases List.mem_cons.mp hx with rfl | hx
            · exact c
            · exact lt_trans c (hnf x hx))] at h1
          simp only [smGet, if_pos] at h1
          exact hm.2 e (by simp) h1
        · exact c
        · exfalso
          have h1 := h f.1
          rw [below (e :: r) f.1 (by
            intro x hx
            rcases List.mem_cons.mp hx with rfl | hx
            · exact c
            · exact lt_trans c (hme x hx))] at h1
          simp only [smGet, if_pos] at h1
          exact hn.2 f (by simp) h1.symm
      have vals : e.2 = f.2 := by
        have h1 := h e.1
        simp only [smGet, if_pos] at h1
        rw [if_pos keys.symm] at h1
        exact h1
      have tails : r = t := by
        apply ih t ⟨hmr, fun x hx => hm.2 x (by simp [hx])⟩ ⟨hnt, fun x hx => hn.2 x (by simp [hx])⟩
        intro k
        by_cases hk : e.1 = k
        · rw [below r k (by intro x hx; have := hme x hx; omega),
            below t k (by intro x hx; have := hnf x hx; omega)]
        · have h1 := h k
          simp only [smGet] at h1
          rwa [if_neg hk, if_neg (keys ▸ hk)] at h1
      rw [show e = f from Prod.ext keys vals, tails]

end Sys2Proof.Machine
end

