-- ==== Sys2Proof/Laws/Prog.lean ====
section
/-! SUPPORT. Laws of effect programs: how they run, when they keep a part of the state, and what no program can do. -/

namespace Sys2Proof.Machine

open Sys2Proof

variable {β γ : Type}

/-! ### Running -/

@[simp] theorem run_skip (s : State) : Prog.skip.run s = s := rfl
@[simp] theorem run_prim (a : Act) (s : State) : (Prog.prim a).run s = a.apply s := rfl
@[simp] theorem run_seq (p q : Prog) (s : State) : (Prog.seq p q).run s = q.run (p.run s) := rfl
@[simp] theorem run_look (f : State → Prog) (s : State) : (Prog.look f).run s = (f s).run s := rfl
@[simp] theorem run_progs_nil (s : State) : (progs []).run s = s := rfl
@[simp] theorem run_progs_cons (p : Prog) (r : List Prog) (s : State) : (progs (p :: r)).run s = (progs r).run (p.run s) := rfl
@[simp] theorem run_forEach_nil (f : β → Prog) (s : State) : (forEach [] f).run s = s := rfl
@[simp] theorem run_forEach_cons (x : β) (r : List β) (f : β → Prog) (s : State) : (forEach (x :: r) f).run s = (forEach r f).run ((f x).run s) := rfl
@[simp] theorem run_whenP_true (p : Prog) (s : State) : (whenP true p).run s = p.run s := rfl
@[simp] theorem run_whenP_false (p : Prog) (s : State) : (whenP false p).run s = s := rfl

theorem run_whenP (b : Bool) (p : Prog) (s : State) : (whenP b p).run s = if b then p.run s else s := by cases b <;> rfl

theorem run_ite (c : Prop) [Decidable c] (p q : Prog) (s : State) : (if c then p else q).run s = if c then p.run s else q.run s := by
  split <;> rfl

theorem run_progs_append (l m : List Prog) (s : State) : (progs (l ++ m)).run s = (progs m).run ((progs l).run s) := by
  induction l generalizing s with
  | nil => rfl
  | cons p r ih => exact ih (p.run s)

theorem done_eq (p : Prog) (s : State) : done p s = .next (p.run s) := rfl

/-! ### What a program keeps -/

/-- A program leaves a part of every state as it was. -/
def Keeps (π : State → γ) (p : Prog) : Prop := ∀ s, π (p.run s) = π s

theorem keeps_skip (π : State → γ) : Keeps π .skip := fun _ => rfl

theorem keeps_prim (π : State → γ) (a : Act) (h : ∀ s, π (a.apply s) = π s) : Keeps π (.prim a) := h

theorem keeps_seq (π : State → γ) {p q : Prog} (hp : Keeps π p) (hq : Keeps π q) : Keeps π (.seq p q) :=
  fun s => (hq _).trans (hp s)

theorem keeps_look (π : State → γ) {f : State → Prog} (h : ∀ s, Keeps π (f s)) : Keeps π (.look f) := fun s => h s s

theorem keeps_progs (π : State → γ) (l : List Prog) (h : ∀ p ∈ l, Keeps π p) : Keeps π (progs l) := by
  induction l with
  | nil => exact keeps_skip π
  | cons p r ih => exact keeps_seq π (h p (by simp)) (ih fun q hq => h q (by simp [hq]))

theorem keeps_forEach (π : State → γ) (l : List β) (f : β → Prog) (h : ∀ x ∈ l, Keeps π (f x)) : Keeps π (forEach l f) := by
  refine keeps_progs π _ fun p hp => ?_
  obtain ⟨x, hx, rfl⟩ := List.mem_map.mp hp
  exact h x hx

theorem keeps_whenP (π : State → γ) (b : Bool) {p : Prog} (h : Keeps π p) : Keeps π (whenP b p) := by
  cases b
  · exact keeps_skip π
  · exact h

theorem keeps_ite (π : State → γ) (c : Prop) [Decidable c] {p q : Prog} (hp : Keeps π p) (hq : Keeps π q) : Keeps π (if c then p else q) := by
  split
  · exact hp
  · exact hq

theorem keeps_repeatP (π : State → γ) (n : Nat) {p : Prog} (h : Keeps π p) : Keeps π (repeatP n p) := by
  induction n with
  | zero => exact keeps_skip π
  | succ n ih => exact keeps_seq π h ih

/-! ### What no program can do -/

/-- A relation between states that every primitive change respects is respected by every program. -/
theorem run_induct (R : State → State → Prop) (refl_ : ∀ s, R s s) (trans_ : ∀ s t u, R s t → R t u → R s u)
    (act : ∀ (a : Act) s, R s (a.apply s)) (p : Prog) : ∀ s, R s (p.run s) := by
  induction p with
  | skip => exact refl_
  | prim a => exact act a
  | seq p q hp hq => exact fun s => trans_ _ _ _ (hp s) (hq _)
  | look f ih => exact fun s => ih s s

/-- An invariant that every primitive change keeps is kept by every program. -/
theorem run_keeps_inv (I : State → Prop) (act : ∀ (a : Act) s, I s → I (a.apply s)) (p : Prog) (s : State) (h : I s) : I (p.run s) :=
  run_induct (fun s t => I s → I t) (fun _ h => h) (fun _ _ _ f g h => g (f h)) act p s h

@[simp] theorem apply_pending (a : Act) (s : State) : (a.apply s).pending = s.pending := by
  cases a <;> first | rfl | (simp only [Act.apply]; split <;> rfl)

/-- No program touches the queue of waiting commands. -/
@[simp] theorem run_pending (p : Prog) (s : State) : (p.run s).pending = s.pending :=
  run_induct (fun s t => t.pending = s.pending) (fun _ => rfl) (fun _ _ _ h g => g.trans h) (fun a s => apply_pending a s) p s

end Sys2Proof.Machine
end

