-- ==== Sys2Proof/Laws/State.lean ====
section
/-! SUPPORT. What each update of the state does to each field: one lemma for each field, saying of every update what it leaves there. -/

namespace Sys2Proof.Machine

open Sys2Proof

/-! ### The updates as primitive changes -/

@[simp] theorem run_modSync (f : SyncSt → SyncSt) (s : State) : (modSync f).run s = (Act.sync (f s.sync)).apply s := rfl
@[simp] theorem run_modRecs (f : RecSt → RecSt) (s : State) : (modRecs f).run s = (Act.recs (f s.recs)).apply s := rfl
@[simp] theorem run_modUnits (f : UnitSt → UnitSt) (s : State) : (modUnits f).run s = (Act.units (f s.units)).apply s := rfl
@[simp] theorem run_modRuns (f : RunSt → RunSt) (s : State) : (modRuns f).run s = (Act.runs (f s.runs)).apply s := rfl
@[simp] theorem run_modStk (f : StkSt → StkSt) (s : State) : (modStk f).run s = (Act.stk (f s.stk)).apply s := rfl
@[simp] theorem run_modHost (f : HostSt → HostSt) (s : State) : (modHost f).run s = (Act.host (f s.host)).apply s := rfl
@[simp] theorem run_modBnd (f : BndSt → BndSt) (s : State) : (modBnd f).run s = (Act.bnd (f s.bnd)).apply s := rfl
@[simp] theorem run_modPins (f : Pins → Pins) (s : State) : (modPins f).run s = (Act.pins (f s.pins)).apply s := rfl
@[simp] theorem run_modPwr (f : PwrSt → PwrSt) (s : State) : (modPwr f).run s = (Act.pwr (f s.pwr)).apply s := rfl
@[simp] theorem run_modSec (f : SecSt → SecSt) (s : State) : (modSec f).run s = (Act.sec (f s.sec)).apply s := rfl
@[simp] theorem run_modFw (f : FwSt → FwSt) (s : State) : (modFw f).run s = (Act.fw (f s.fw)).apply s := rfl
@[simp] theorem run_modPorts (f : PortSt → PortSt) (s : State) : (modPorts f).run s = (Act.ports (f s.ports)).apply s := rfl
@[simp] theorem run_modPiste (p : Nat) (f : PisteSt → PisteSt) (s : State) : (modPiste p f).run s = (Act.piste p (f (pisteOf s p))).apply s := rfl
@[simp] theorem run_modGate (i : Nat) (f : GateSt → GateSt) (s : State) : (modGate i f).run s = (Act.gate i (f (gateOf s i))).apply s := rfl

/-- A field written is one word of the register file changed. -/
theorem run_wr (pg : Page) (f : Fld) (v i : Nat) (s : State) :
    (wr pg f v i).run s = (Act.reg (fldAddr pg f i) (BitVec.ofNat 32 (putBits (regWord s (fldAddr pg f i)).toNat f.lo f.w v))).apply s := rfl

/-! ### Each field after each update -/

@[simp] theorem apply_regs (a : Act) (s : State) : (a.apply s).regs = match a with
    | .reg a v => smSet regReset s.regs a v
    | _ => s.regs := by
  cases a <;> first | rfl | (simp only [Act.apply]; split <;> rfl)

@[simp] theorem apply_mem (a : Act) (s : State) : (a.apply s).mem = match a with
    | .bytes m a l => memPut s.mem m (smSetList byteDefault (memOf s.mem m) a l)
    | .flag f k b => flagPut s.mem f (smSet flagDefault (flagOf s.mem f) k b)
    | _ => s.mem := by
  cases a <;> first | rfl | (simp only [Act.apply]; split <;> rfl)

@[simp] theorem apply_counts (a : Act) (s : State) : (a.apply s).counts = match a with
    | .count i n => smSet zeroDefault s.counts i (min countMax (smGet zeroDefault s.counts i + n))
    | _ => s.counts := by
  cases a <;> first | rfl | (simp only [Act.apply]; split <;> rfl)

@[simp] theorem apply_sync (a : Act) (s : State) : (a.apply s).sync = match a with
    | .sync x => x
    | _ => s.sync := by
  cases a <;> first | rfl | (simp only [Act.apply]; split <;> rfl)

@[simp] theorem apply_fr (a : Act) (s : State) : (a.apply s).fr = match a with
    | .ringIn r d => ringArrive s.fr r d
    | .ringOut k => ringRelease s.fr k
    | _ => s.fr := by
  cases a <;> first | rfl | (simp only [Act.apply]; split <;> rfl)

@[simp] theorem apply_recs (a : Act) (s : State) : (a.apply s).recs = match a with
    | .recs x => x
    | _ => s.recs := by
  cases a <;> first | rfl | (simp only [Act.apply]; split <;> rfl)

@[simp] theorem apply_pistes (a : Act) (s : State) : (a.apply s).pistes = match a with
    | .piste p x => smSet (fun _ => PisteSt.idle) s.pistes p x
    | _ => s.pistes := by
  cases a <;> first | rfl | (simp only [Act.apply]; split <;> rfl)

@[simp] theorem apply_gates (a : Act) (s : State) : (a.apply s).gates = match a with
    | .gate i x => smSet (fun _ => GateSt.idle) s.gates i x
    | _ => s.gates := by
  cases a <;> first | rfl | (simp only [Act.apply]; split <;> rfl)

@[simp] theorem apply_units (a : Act) (s : State) : (a.apply s).units = match a with
    | .units x => x
    | _ => s.units := by
  cases a <;> first | rfl | (simp only [Act.apply]; split <;> rfl)

@[simp] theorem apply_runs (a : Act) (s : State) : (a.apply s).runs = match a with
    | .runs x => x
    | _ => s.runs := by
  cases a <;> first | rfl | (simp only [Act.apply]; split <;> rfl)

@[simp] theorem apply_rgn (a : Act) (s : State) : (a.apply s).rgn = match a with
    | .rgn x => x
    | _ => s.rgn := by
  cases a <;> first | rfl | (simp only [Act.apply]; split <;> rfl)

@[simp] theorem apply_mode (a : Act) (s : State) : (a.apply s).mode = match a with
    | .modeCmd e w d => if s.mode.cmd < e then { cmd := e, word := w, seed := d } else s.mode
    | _ => s.mode := by
  cases a <;> first | rfl | (simp only [Act.apply]; split <;> rfl)

@[simp] theorem apply_layout (a : Act) (s : State) : (a.apply s).layout = match a with
    | .layoutCmd e p => if s.layout.cmd < e then { s.layout with cmd := e, pend := some p } else s.layout
    | .layoutApply e => if s.layout.applied ≤ e ∧ e ≤ s.layout.cmd then { s.layout with applied := e } else s.layout
    | .layoutPend p => { s.layout with pend := p }
    | _ => s.layout := by
  cases a <;> first | rfl | (simp only [Act.apply]; split <;> rfl)

@[simp] theorem apply_stk (a : Act) (s : State) : (a.apply s).stk = match a with
    | .stk x => x
    | _ => s.stk := by
  cases a <;> first | rfl | (simp only [Act.apply]; split <;> rfl)

@[simp] theorem apply_host (a : Act) (s : State) : (a.apply s).host = match a with
    | .host x => x
    | _ => s.host := by
  cases a <;> first | rfl | (simp only [Act.apply]; split <;> rfl)

@[simp] theorem apply_bnd (a : Act) (s : State) : (a.apply s).bnd = match a with
    | .bnd x => x
    | _ => s.bnd := by
  cases a <;> first | rfl | (simp only [Act.apply]; split <;> rfl)

@[simp] theorem apply_pins (a : Act) (s : State) : (a.apply s).pins = match a with
    | .pins x => x
    | _ => s.pins := by
  cases a <;> first | rfl | (simp only [Act.apply]; split <;> rfl)

@[simp] theorem apply_pwr (a : Act) (s : State) : (a.apply s).pwr = match a with
    | .pwr x => x
    | _ => s.pwr := by
  cases a <;> first | rfl | (simp only [Act.apply]; split <;> rfl)

@[simp] theorem apply_fuses (a : Act) (s : State) : (a.apply s).fuses = match a with
    | .rollback n => { s.fuses with rollback := max s.fuses.rollback (min n 64) }
    | .ownerKey h => if s.fuses.ownerEn then s.fuses else { s.fuses with ownerKeyHash := h, ownerEn := true }
    | _ => s.fuses := by
  cases a <;> first | rfl | (simp only [Act.apply]; split <;> rfl)

@[simp] theorem apply_sec (a : Act) (s : State) : (a.apply s).sec = match a with
    | .sec x => x
    | _ => s.sec := by
  cases a <;> first | rfl | (simp only [Act.apply]; split <;> rfl)

@[simp] theorem apply_fw (a : Act) (s : State) : (a.apply s).fw = match a with
    | .fw x => x
    | _ => s.fw := by
  cases a <;> first | rfl | (simp only [Act.apply]; split <;> rfl)

@[simp] theorem apply_ports (a : Act) (s : State) : (a.apply s).ports = match a with
    | .ports x => x
    | _ => s.ports := by
  cases a <;> first | rfl | (simp only [Act.apply]; split <;> rfl)

@[simp] theorem apply_freeCount (a : Act) (s : State) : (a.apply s).freeCount = match a with
    | .free n => s.freeCount + n
    | _ => s.freeCount := by
  cases a <;> first | rfl | (simp only [Act.apply]; split <;> rfl)

end Sys2Proof.Machine
end

