-- ==== Sys2Proof/Laws/Only.lean ====
section
/-! SUPPORT. Which kinds of primitive change a program makes, and what it therefore leaves alone: the frame of every effect, said once for each
shared operation. -/

namespace Sys2Proof.Machine

open Sys2Proof

set_option Elab.async false

/-- The kinds of primitive change. -/
inductive Kind where
  | reg | bytes (m : MemId) | flag (f : FlagId) | count | mode | layout | ring | fuse | sync | recs | piste | gate | units | runs | rgn | stk | host
  | bnd | pins | pwr | sec | fw | ports | free
  deriving DecidableEq, Repr

/-- The kind of a primitive change. -/
def Act.kind : Act → Kind
  | .reg _ _ => .reg | .bytes m _ _ => .bytes m | .flag f _ _ => .flag f | .count _ _ => .count | .modeCmd _ _ _ => .mode
  | .layoutCmd _ _ => .layout | .layoutApply _ => .layout | .layoutPend _ => .layout | .ringIn _ _ => .ring | .ringOut _ => .ring
  | .rollback _ => .fuse | .ownerKey _ => .fuse | .sync _ => .sync | .recs _ => .recs | .piste _ _ => .piste | .gate _ _ => .gate
  | .units _ => .units | .runs _ => .runs | .rgn _ => .rgn | .stk _ => .stk | .host _ => .host | .bnd _ => .bnd | .pins _ => .pins
  | .pwr _ => .pwr | .sec _ => .sec | .fw _ => .fw | .ports _ => .ports | .free _ => .free

/-- A program makes changes of the listed kinds alone. -/
def Only (K : List Kind) : Prog → Prop
  | .skip => True
  | .prim a => a.kind ∈ K
  | .seq p q => Only K p ∧ Only K q
  | .look f => ∀ s, Only K (f s)

variable {K L : List Kind} {β : Type}

theorem Only.mono {p : Prog} (h : Only K p) (hl : K ⊆ L) : Only L p := by
  induction p with
  | skip => trivial
  | prim a => exact hl h
  | seq p q hp hq => exact ⟨hp h.1, hq h.2⟩
  | look f ih => exact fun s => ih s (h s)

theorem only_skip : Only K .skip := trivial
theorem only_prim {a : Act} (h : a.kind ∈ K) : Only K (.prim a) := h
theorem only_seq {p q : Prog} (hp : Only K p) (hq : Only K q) : Only K (.seq p q) := ⟨hp, hq⟩
theorem only_look {f : State → Prog} (h : ∀ s, Only K (f s)) : Only K (.look f) := h
theorem only_nil : Only K (progs []) := trivial
theorem only_cons {p : Prog} {r : List Prog} (hp : Only K p) (hr : Only K (progs r)) : Only K (progs (p :: r)) := ⟨hp, hr⟩

theorem only_progs {l : List Prog} (h : ∀ p ∈ l, Only K p) : Only K (progs l) := by
  induction l with
  | nil => trivial
  | cons p r ih => exact ⟨h p (by simp), ih fun q hq => h q (by simp [hq])⟩

theorem only_forEach {l : List β} {f : β → Prog} (h : ∀ x, Only K (f x)) : Only K (forEach l f) := by
  refine only_progs fun p hp => ?_
  obtain ⟨x, _, rfl⟩ := List.mem_map.mp hp
  exact h x

theorem only_whenP {b : Bool} {p : Prog} (h : Only K p) : Only K (whenP b p) := by
  cases b
  · trivial
  · exact h

theorem only_ite {c : Prop} [Decidable c] {p q : Prog} (hp : Only K p) (hq : Only K q) : Only K (if c then p else q) := by
  split
  · exact hp
  · exact hq

theorem only_repeatP {n : Nat} {p : Prog} (h : Only K p) : Only K (repeatP n p) := by
  induction n with
  | zero => trivial
  | succ n ih => exact ⟨h, ih⟩

/-! ### What is left alone -/

/-- A part of the state that no listed kind of change touches is kept. -/
theorem Only.keeps {γ : Type} {p : Prog} (h : Only K p) (π : State → γ) (hπ : ∀ (a : Act) s, a.kind ∈ K → π (a.apply s) = π s) (s : State) :
    π (p.run s) = π s := by
  induction p generalizing s with
  | skip => rfl
  | prim a => exact hπ a s h
  | seq p q hp hq => exact (hq h.2 _).trans (hp h.1 s)
  | look f ih => exact ih s (h s) s

section Fields
variable {p : Prog} {s : State}

theorem Only.regs (h : Only K p) (hk : Kind.reg ∉ K := by decide) : (p.run s).regs = s.regs :=
  h.keeps (·.regs) (fun a s ha => by cases a <;> first | (simp; done) | exact absurd ha hk) s

theorem Only.counts (h : Only K p) (hk : Kind.count ∉ K := by decide) : (p.run s).counts = s.counts :=
  h.keeps (·.counts) (fun a s ha => by cases a <;> first | (simp; done) | exact absurd ha hk) s

theorem Only.sync (h : Only K p) (hk : Kind.sync ∉ K := by decide) : (p.run s).sync = s.sync :=
  h.keeps (·.sync) (fun a s ha => by cases a <;> first | (simp; done) | exact absurd ha hk) s

theorem Only.fr (h : Only K p) (hk : Kind.ring ∉ K := by decide) : (p.run s).fr = s.fr :=
  h.keeps (·.fr) (fun a s ha => by cases a <;> first | (simp; done) | exact absurd ha hk) s

theorem Only.recs (h : Only K p) (hk : Kind.recs ∉ K := by decide) : (p.run s).recs = s.recs :=
  h.keeps (·.recs) (fun a s ha => by cases a <;> first | (simp; done) | exact absurd ha hk) s

theorem Only.pistes (h : Only K p) (hk : Kind.piste ∉ K := by decide) : (p.run s).pistes = s.pistes :=
  h.keeps (·.pistes) (fun a s ha => by cases a <;> first | (simp; done) | exact absurd ha hk) s

theorem Only.gates (h : Only K p) (hk : Kind.gate ∉ K := by decide) : (p.run s).gates = s.gates :=
  h.keeps (·.gates) (fun a s ha => by cases a <;> first | (simp; done) | exact absurd ha hk) s

theorem Only.units (h : Only K p) (hk : Kind.units ∉ K := by decide) : (p.run s).units = s.units :=
  h.keeps (·.units) (fun a s ha => by cases a <;> first | (simp; done) | exact absurd ha hk) s

theorem Only.runs (h : Only K p) (hk : Kind.runs ∉ K := by decide) : (p.run s).runs = s.runs :=
  h.keeps (·.runs) (fun a s ha => by cases a <;> first | (simp; done) | exact absurd ha hk) s

theorem Only.rgn (h : Only K p) (hk : Kind.rgn ∉ K := by decide) : (p.run s).rgn = s.rgn :=
  h.keeps (·.rgn) (fun a s ha => by cases a <;> first | (simp; done) | exact absurd ha hk) s

theorem Only.mode (h : Only K p) (hk : Kind.mode ∉ K := by decide) : (p.run s).mode = s.mode :=
  h.keeps (·.mode) (fun a s ha => by cases a <;> first | (simp; done) | exact absurd ha hk) s

theorem Only.layout (h : Only K p) (hk : Kind.layout ∉ K := by decide) : (p.run s).layout = s.layout :=
  h.keeps (·.layout) (fun a s ha => by cases a <;> first | (simp; done) | exact absurd ha hk) s

theorem Only.stk (h : Only K p) (hk : Kind.stk ∉ K := by decide) : (p.run s).stk = s.stk :=
  h.keeps (·.stk) (fun a s ha => by cases a <;> first | (simp; done) | exact absurd ha hk) s

theorem Only.host (h : Only K p) (hk : Kind.host ∉ K := by decide) : (p.run s).host = s.host :=
  h.keeps (·.host) (fun a s ha => by cases a <;> first | (simp; done) | exact absurd ha hk) s

theorem Only.bnd (h : Only K p) (hk : Kind.bnd ∉ K := by decide) : (p.run s).bnd = s.bnd :=
  h.keeps (·.bnd) (fun a s ha => by cases a <;> first | (simp; done) | exact absurd ha hk) s

theorem Only.pins (h : Only K p) (hk : Kind.pins ∉ K := by decide) : (p.run s).pins = s.pins :=
  h.keeps (·.pins) (fun a s ha => by cases a <;> first | (simp; done) | exact absurd ha hk) s

theorem Only.pwr (h : Only K p) (hk : Kind.pwr ∉ K := by decide) : (p.run s).pwr = s.pwr :=
  h.keeps (·.pwr) (fun a s ha => by cases a <;> first | (simp; done) | exact absurd ha hk) s

theorem Only.fuses (h : Only K p) (hk : Kind.fuse ∉ K := by decide) : (p.run s).fuses = s.fuses :=
  h.keeps (·.fuses) (fun a s ha => by cases a <;> first | (simp; done) | exact absurd ha hk) s

theorem Only.sec (h : Only K p) (hk : Kind.sec ∉ K := by decide) : (p.run s).sec = s.sec :=
  h.keeps (·.sec) (fun a s ha => by cases a <;> first | (simp; done) | exact absurd ha hk) s

theorem Only.fw (h : Only K p) (hk : Kind.fw ∉ K := by decide) : (p.run s).fw = s.fw :=
  h.keeps (·.fw) (fun a s ha => by cases a <;> first | (simp; done) | exact absurd ha hk) s

theorem Only.ports (h : Only K p) (hk : Kind.ports ∉ K := by decide) : (p.run s).ports = s.ports :=
  h.keeps (·.ports) (fun a s ha => by cases a <;> first | (simp; done) | exact absurd ha hk) s

theorem Only.freeCount (h : Only K p) (hk : Kind.free ∉ K := by decide) : (p.run s).freeCount = s.freeCount :=
  h.keeps (·.freeCount) (fun a s ha => by cases a <;> first | (simp; done) | exact absurd ha hk) s

theorem Only.memOf {m : MemId} (h : Only K p) (hk : Kind.bytes m ∉ K := by decide) : memOf (p.run s).mem m = memOf s.mem m :=
  h.keeps (fun s => Machine.memOf s.mem m) (fun a s ha => by
    cases a with
    | bytes n x l =>
      have : n ≠ m := fun e => hk (e ▸ ha)
      cases n <;> cases m <;> first | rfl | exact absurd rfl this
    | flag f k b => cases f <;> cases m <;> rfl
    | _ => simp) s

theorem Only.flagOf {f : FlagId} (h : Only K p) (hk : Kind.flag f ∉ K := by decide) : flagOf (p.run s).mem f = flagOf s.mem f :=
  h.keeps (fun s => Machine.flagOf s.mem f) (fun a s ha => by
    cases a with
    | flag n x l =>
      have : n ≠ f := fun e => hk (e ▸ ha)
      cases n <;> cases f <;> first | rfl | exact absurd rfl this
    | bytes n k b => cases n <;> cases f <;> rfl
    | _ => simp) s

end Fields

/-! ### Registers, sub-states, records -/

theorem only_wr {pg : Page} {f : Fld} {v i : Nat} (h : Kind.reg ∈ K := by decide) : Only K (wr pg f v i) := fun _ => h
theorem only_addSat {pg : Page} {f : Fld} {n i : Nat} (h : Kind.reg ∈ K := by decide) : Only K (addSat pg f n i) := fun _ => only_wr h
theorem only_wr64 {pg : Page} {lo hi : Fld} {v : Nat} (h : Kind.reg ∈ K := by decide) : Only K (wr64 pg lo hi v) := ⟨only_wr h, only_wr h⟩
theorem only_modSync {f : SyncSt → SyncSt} (h : Kind.sync ∈ K := by decide) : Only K (modSync f) := fun _ => h
theorem only_modRecs {f : RecSt → RecSt} (h : Kind.recs ∈ K := by decide) : Only K (modRecs f) := fun _ => h
theorem only_modUnits {f : UnitSt → UnitSt} (h : Kind.units ∈ K := by decide) : Only K (modUnits f) := fun _ => h
theorem only_modRuns {f : RunSt → RunSt} (h : Kind.runs ∈ K := by decide) : Only K (modRuns f) := fun _ => h
theorem only_modStk {f : StkSt → StkSt} (h : Kind.stk ∈ K := by decide) : Only K (modStk f) := fun _ => h
theorem only_modHost {f : HostSt → HostSt} (h : Kind.host ∈ K := by decide) : Only K (modHost f) := fun _ => h
theorem only_modBnd {f : BndSt → BndSt} (h : Kind.bnd ∈ K := by decide) : Only K (modBnd f) := fun _ => h
theorem only_modPins {f : Pins → Pins} (h : Kind.pins ∈ K := by decide) : Only K (modPins f) := fun _ => h
theorem only_modPwr {f : PwrSt → PwrSt} (h : Kind.pwr ∈ K := by decide) : Only K (modPwr f) := fun _ => h
theorem only_modSec {f : SecSt → SecSt} (h : Kind.sec ∈ K := by decide) : Only K (modSec f) := fun _ => h
theorem only_modFw {f : FwSt → FwSt} (h : Kind.fw ∈ K := by decide) : Only K (modFw f) := fun _ => h
theorem only_modPorts {f : PortSt → PortSt} (h : Kind.ports ∈ K := by decide) : Only K (modPorts f) := fun _ => h
theorem only_modPiste {p : Nat} {f : PisteSt → PisteSt} (h : Kind.piste ∈ K := by decide) : Only K (modPiste p f) := fun _ => h
theorem only_modGate {i : Nat} {f : GateSt → GateSt} (h : Kind.gate ∈ K := by decide) : Only K (modGate i f) := fun _ => h

theorem only_withFree {k : Nat → Prog} (hk : ∀ v, Only K (k v)) (h : Kind.free ∈ K := by decide) : Only K (withFree k) := fun _ => ⟨h, hk _⟩
theorem only_withFreeBytes {n : Nat} {k : List Byte → Prog} (hk : ∀ v, Only K (k v)) (h : Kind.free ∈ K := by decide) : Only K (withFreeBytes n k) :=
  fun _ => ⟨h, hk _⟩

theorem only_sendMsix {v : Nat} (h : Kind.host ∈ K := by decide) : Only K (sendMsix v) := fun _ => h

theorem only_setEvent {pg : Page} {e : Nat} (h : Kind.reg ∈ K := by decide) (h' : Kind.host ∈ K := by decide) : Only K (setEvent pg e) :=
  fun _ => ⟨h, only_addSat h, fun _ => only_whenP (only_sendMsix h'), trivial⟩

theorem only_alarm {i c : Nat} (h : Kind.recs ∈ K := by decide) : Only K (alarm i c) := fun _ => h

theorem only_enqueueRecord {r : FaultRec} (h : Kind.reg ∈ K := by decide) (h' : Kind.recs ∈ K := by decide) : Only K (enqueueRecord r) := by
  refine only_look fun s => ?_
  dsimp only
  split
  · exact only_modRecs h'
  · exact ⟨only_modRecs h', only_addSat h⟩

theorem only_trace {k i : Nat} (h : Kind.reg ∈ K := by decide) (h' : Kind.recs ∈ K := by decide) : Only K (trace k i) := by
  refine only_look fun s => only_whenP ?_
  split
  · exact only_modRecs h'
  · exact ⟨only_modRecs h', only_addSat h⟩

/-- A fault record changes registers, the incident paths, and what its continuation changes. -/
theorem only_raiseSev {sev code island iter leg unit : Nat} {items : List Item} {k : Nat → Prog} (hk : ∀ u, Only K (k u))
    (h : Kind.reg ∈ K := by decide) (h' : Kind.recs ∈ K := by decide) : Only K (raiseSev sev code island iter leg unit items k) :=
  fun _ => ⟨only_modRecs h', only_enqueueRecord h h', only_alarm h', only_whenP (only_trace h h'), hk _, trivial⟩

theorem only_raise {code island iter leg unit : Nat} {items : List Item}
    (h : Kind.reg ∈ K := by decide) (h' : Kind.recs ∈ K := by decide) : Only K (raise code island iter leg unit items) :=
  only_raiseSev (fun _ => trivial) h h'

theorem only_mirInterval (h : Kind.reg ∈ K := by decide) (h' : Kind.fw ∈ K := by decide) (h'' : Kind.free ∈ K := by decide) :
    Only K mirInterval :=
  only_withFree (fun _ => only_look fun _ => ⟨only_modFw h', only_wr h⟩) h''

theorem only_mirEvent (h : Kind.reg ∈ K := by decide) (h' : Kind.fw ∈ K := by decide) (h'' : Kind.free ∈ K := by decide) :
    Only K mirEvent := ⟨only_addSat h, only_mirInterval h h' h''⟩

theorem only_logOwn (h : Kind.recs ∈ K := by decide) : Only K logOwn := fun _ => h

theorem only_finish {id st d : Nat} {u : Option Nat} (h : Kind.host ∈ K := by decide) : Only K (finish id st d u) := by
  refine only_look fun s => ?_
  split
  · trivial
  · exact only_modHost h

theorem only_finishOpt {id : Option Nat} {st d : Nat} {u : Option Nat} (h : Kind.host ∈ K := by decide) : Only K (finishOpt id st d u) := by
  unfold finishOpt
  split
  · trivial
  · exact only_finish h

theorem only_markStarted {id : Nat} (h : Kind.host ∈ K := by decide) : Only K (markStarted id) := fun _ => h

/-! ### Memories -/

theorem only_hbmWordWrite {a : Nat} {l : List Byte} {b : Bool} (h : Kind.bytes .hbm ∈ K := by decide) (h' : Kind.flag .hbmPoison ∈ K := by decide)
    (h'' : Kind.stk ∈ K := by decide) : Only K (hbmWordWrite a l b) := by
  refine only_look fun s => ?_
  dsimp only
  split
  · exact only_modStk h''
  · exact ⟨h, only_whenP h'⟩

theorem only_hbmWrite {a : Nat} {l : List Byte} (h : Kind.bytes .hbm ∈ K := by decide) (h' : Kind.flag .hbmPoison ∈ K := by decide)
    (h'' : Kind.stk ∈ K := by decide) : Only K (hbmWrite a l) := only_forEach fun _ => only_hbmWordWrite h h' h''

theorem only_hostWrite {a : Nat} {l : List Byte} (h : Kind.bytes .host ∈ K := by decide) (h' : Kind.flag .hostPoison ∈ K := by decide) :
    Only K (hostWrite a l) := only_forEach fun _ => ⟨h, only_whenP h'⟩

theorem only_scratchWrite {p o : Nat} {l : List Byte} (h : Kind.bytes .scratch ∈ K := by decide) (h' : Kind.flag .scratchPoison ∈ K := by decide) :
    Only K (scratchWrite p o l) := only_forEach fun _ => ⟨h, only_whenP h'⟩

theorem only_cacheWrite {i o : Nat} {l : List Byte} (h : Kind.bytes .vcache ∈ K := by decide) (h' : Kind.flag .vcachePoison ∈ K := by decide)
    (h'' : Kind.flag .vcacheSet ∈ K := by decide) : Only K (cacheWrite i o l) :=
  only_forEach fun _ => ⟨h, only_forEach fun _ => h'', only_whenP h', trivial⟩

theorem only_cacheTranslation {a n : Nat} (h : Kind.flag .atc ∈ K := by decide) : Only K (cacheTranslation a n) := only_forEach fun _ => h

theorem only_deliverPoison {a n : Nat} (h : Kind.reg ∈ K := by decide) : Only K (deliverPoison a n) := by
  refine only_look fun s => ?_
  dsimp only
  exact only_whenP (only_forEach fun _ => ⟨only_wr h, only_addSat h⟩)

end Sys2Proof.Machine
end

