-- ==== Sys2Proof/Laws/Legs.lean ====
section
/-! SUPPORT. What the effect of a leg leaves alone: pistes, runs, waits, counts, epochs, region tables, commands and the rest change only where
a leg fails, and no effect moves a gate to another leg. -/

namespace Sys2Proof.Machine

open Sys2Proof

set_option Elab.async false
set_option linter.unusedTactic false
set_option linter.unreachableTactic false
set_option linter.unusedVariables false

/-! ### What is kept -/

/-- The parts of the state that no leg changes unless it fails; pistes, gates and SIGNALs due stand beside them. -/
def coreView (s : State) :=
  (s.runs, s.sync, s.counts, s.mode, s.layout, s.rgn, s.host, s.fr, s.pins, s.pwr, s.fuses, s.sec, s.ports, s.mem.mapMem, s.mem.flash,
    s.mem.hostRefused)

/-- The leg a gate stands at, and whether it has been carried out. -/
def standsAt (s : State) (i : Nat) : Nat × Bool := ((gateOf s i).next, (gateOf s i).busy)

/-- What the effect of a leg leaves as it was. -/
structure LegKeeps (s t : State) : Prop where
  core : coreView t = coreView s
  pistes : t.pistes = s.pistes
  gates : standsAt t = standsAt s
  signals : t.units.signalsDue = s.units.signalsDue

theorem LegKeeps.refl (s : State) : LegKeeps s s := ⟨rfl, rfl, rfl, rfl⟩

theorem LegKeeps.trans {s t u : State} (h : LegKeeps s t) (g : LegKeeps t u) : LegKeeps s u :=
  ⟨g.core.trans h.core, g.pistes.trans h.pistes, g.gates.trans h.gates, g.signals.trans h.signals⟩

theorem coreView_refused {s t : State} (h : coreView t = coreView s) : t.mem.hostRefused = s.mem.hostRefused := by
  simp only [coreView, Prod.mk.injEq] at h
  exact h.2.2.2.2.2.2.2.2.2.2.2.2.2.2.2

/-- Translation refuses no page after a change that keeps the refusals. -/
theorem NoRefusal.of_core {s t : State} (hs : NoRefusal s) (h : coreView t = coreView s) : NoRefusal t := by
  intro a
  have := hs a
  unfold hostRefuses at this ⊢
  rw [coreView_refused h]
  exact this

/-- No access is refused where translation refuses none and the host answers every access. -/
theorem refusedIn_none {s : State} {l : List Span} (h : NoRefusal s) : refusedIn s [] l = none := by
  unfold refusedIn
  have (a : Nat) : hostRefuses s a = false := h a
  simp [this]

/-! ### Programs that keep it -/

/-- A program leaves what a leg's effect leaves, where translation refuses nothing. -/
def Pres (p : Prog) : Prop := ∀ s, NoRefusal s → LegKeeps s (p.run s)

variable {β : Type}

theorem pres_skip : Pres .skip := fun s _ => LegKeeps.refl s
theorem pres_seq {p q : Prog} (hp : Pres p) (hq : Pres q) : Pres (.seq p q) :=
  fun s hs => (hp s hs).trans (hq _ (hs.of_core (hp s hs).core))
theorem pres_look {f : State → Prog} (h : ∀ s, NoRefusal s → Pres (f s)) : Pres (.look f) := fun s hs => h s hs s hs
theorem pres_nil : Pres (progs []) := pres_skip
theorem pres_cons {p : Prog} {r : List Prog} (hp : Pres p) (hr : Pres (progs r)) : Pres (progs (p :: r)) := pres_seq hp hr

theorem pres_progs {l : List Prog} (h : ∀ p ∈ l, Pres p) : Pres (progs l) := by
  induction l with
  | nil => exact pres_skip
  | cons p r ih => exact pres_seq (h p (by simp)) (ih fun q hq => h q (by simp [hq]))

theorem pres_forEach {l : List β} {f : β → Prog} (h : ∀ x, Pres (f x)) : Pres (forEach l f) := by
  refine pres_progs fun p hp => ?_
  obtain ⟨x, _, rfl⟩ := List.mem_map.mp hp
  exact h x

theorem pres_forEach_nil {f : β → Prog} : Pres (forEach [] f) := pres_skip

theorem pres_whenP {b : Bool} {p : Prog} (h : Pres p) : Pres (whenP b p) := by
  cases b
  · exact pres_skip
  · exact h

/-- The kinds of change that touch nothing a leg keeps. -/
abbrev legK : List Kind :=
  [.reg, .bytes .hbm, .bytes .host, .bytes .scratch, .bytes .vcache, .flag .hbmPoison, .flag .hostPoison, .flag .scratchPoison, .flag .vcachePoison,
   .flag .vcacheSet, .flag .atc, .recs, .stk, .bnd, .free, .fw]

theorem pres_of_only {p : Prog} (h : Only legK p) : Pres p := by
  intro s _
  have hg : (p.run s).gates = s.gates := h.gates
  have hm : (p.run s).mem.mapMem = s.mem.mapMem := h.memOf (m := .mapMem)
  have hf : (p.run s).mem.flash = s.mem.flash := h.memOf (m := .flash)
  have hr : (p.run s).mem.hostRefused = s.mem.hostRefused := h.flagOf (f := .hostRefused)
  refine ⟨?_, h.pistes, ?_, congrArg (·.signalsDue) h.units⟩
  · unfold coreView
    rw [h.runs, h.sync, h.counts, h.mode, h.layout, h.rgn, h.host, h.fr, h.pins, h.pwr, h.fuses, h.sec, h.ports, hm, hf, hr]
  · unfold standsAt gateOf
    rw [hg]

theorem pres_prim {a : Act} (h : a.kind ∈ legK) : Pres (.prim a) := pres_of_only (only_prim h)

theorem pres_modUnits {f : UnitSt → UnitSt} (h : ∀ u, (f u).signalsDue = u.signalsDue) : Pres (modUnits f) :=
  fun s _ => ⟨rfl, rfl, rfl, h s.units⟩

theorem gateOf_apply_gate (s : State) (i j : Nat) (x : GateSt) : gateOf ((Act.gate i x).apply s) j = if j = i then x else gateOf s j := by
  unfold gateOf
  simp only [apply_gates]
  rw [smGet_set]

theorem run_modGate_gate (s : State) (i j : Nat) (f : GateSt → GateSt) :
    gateOf ((modGate i f).run s) j = if j = i then f (gateOf s i) else gateOf s j := gateOf_apply_gate s i j _

theorem pres_modGate {i : Nat} {f : GateSt → GateSt} (h : ∀ x, (f x).next = x.next ∧ (f x).busy = x.busy) : Pres (modGate i f) := by
  refine fun s _ => ⟨rfl, rfl, ?_, rfl⟩
  funext j
  unfold standsAt
  rw [run_modGate_gate]
  split
  · next hj => subst hj; rw [(h _).1, (h _).2]
  · rfl

theorem pres_wr {pg : Page} {f : Fld} {v i : Nat} : Pres (wr pg f v i) := pres_of_only only_wr
theorem pres_addSat {pg : Page} {f : Fld} {n i : Nat} : Pres (addSat pg f n i) := pres_of_only only_addSat
theorem pres_raise {code island iter leg unit : Nat} {items : List Item} : Pres (raise code island iter leg unit items) := pres_of_only only_raise
theorem pres_alarm {i c : Nat} : Pres (alarm i c) := pres_of_only only_alarm
theorem pres_enqueueRecord {r : FaultRec} : Pres (enqueueRecord r) := pres_of_only only_enqueueRecord
theorem pres_trace {k i : Nat} : Pres (trace k i) := pres_of_only only_trace
theorem pres_mirEvent : Pres mirEvent := pres_of_only only_mirEvent
theorem pres_logOwn : Pres logOwn := pres_of_only only_logOwn
theorem pres_modRecs {f : RecSt → RecSt} : Pres (modRecs f) := pres_of_only only_modRecs
theorem pres_modStk {f : StkSt → StkSt} : Pres (modStk f) := pres_of_only only_modStk
theorem pres_modBnd {f : BndSt → BndSt} : Pres (modBnd f) := pres_of_only only_modBnd
theorem pres_hbmWordWrite {a : Nat} {l : List Byte} {b : Bool} : Pres (hbmWordWrite a l b) := pres_of_only only_hbmWordWrite
theorem pres_hostWrite {a : Nat} {l : List Byte} : Pres (hostWrite a l) := pres_of_only only_hostWrite
theorem pres_scratchWrite {p o : Nat} {l : List Byte} : Pres (scratchWrite p o l) := pres_of_only only_scratchWrite
theorem pres_cacheWrite {i o : Nat} {l : List Byte} : Pres (cacheWrite i o l) := pres_of_only only_cacheWrite
theorem pres_cacheTranslation {a n : Nat} : Pres (cacheTranslation a n) := pres_of_only only_cacheTranslation
theorem pres_deliverPoison {a n : Nat} : Pres (deliverPoison a n) := pres_of_only only_deliverPoison
theorem pres_withFree {k : Nat → Prog} (hk : ∀ v, Pres (k v)) : Pres (withFree k) :=
  pres_look fun _ _ => pres_seq (pres_prim (by simp [Act.kind])) (hk _)
theorem pres_withFreeBytes {n : Nat} {k : List Byte → Prog} (hk : ∀ v, Pres (k v)) : Pres (withFreeBytes n k) :=
  pres_look fun _ _ => pres_seq (pres_prim (by simp [Act.kind])) (hk _)
theorem pres_raiseSev {sev code island iter leg unit : Nat} {items : List Item} {k : Nat → Prog} (hk : ∀ u, Pres (k u)) :
    Pres (raiseSev sev code island iter leg unit items k) :=
  pres_look fun _ _ => pres_cons pres_modRecs (pres_cons pres_enqueueRecord (pres_cons pres_alarm (pres_cons (pres_whenP pres_trace) (pres_cons (hk _) pres_nil))))
theorem pres_unlessFailed {p : Nat} {q : Prog} (h : Pres q) : Pres (unlessFailed p q) := pres_look fun _ _ => pres_whenP h

/-! ### Registers and records -/

theorem pres_cacheWrites {island : Nat} {l : List (Nat × List Byte)} : Pres (cacheWrites island l) := by
  unfold cacheWrites
  repeat' first
    | with_reducible exact pres_skip | with_reducible exact pres_nil | assumption | with_reducible exact pres_cacheWrite
    | exact pres_prim (by simp [Act.kind]) | with_reducible refine pres_whenP ?_ | with_reducible refine pres_forEach fun _ => ?_
    | with_reducible refine pres_cons ?_ ?_ | with_reducible refine pres_seq ?_ ?_ | with_reducible refine pres_look fun _ _ => ?_ | split
    | dsimp only

/-! ### Sending -/

theorem pres_modLink {p : Nat} {f : LinkSt → LinkSt} : Pres (modLink p f) := by
  unfold modLink
  repeat' first
    | with_reducible exact pres_skip | with_reducible exact pres_nil | assumption | with_reducible exact pres_modBnd
    | with_reducible refine pres_whenP ?_ | with_reducible refine pres_forEach fun _ => ?_ | with_reducible refine pres_cons ?_ ?_
    | with_reducible refine pres_seq ?_ ?_ | with_reducible refine pres_look fun _ _ => ?_ | split | dsimp only

theorem pres_putFlit {p ftype seq : Nat} {payload : List Byte} : Pres (putFlit p ftype seq payload) := by
  unfold putFlit
  repeat' first
    | with_reducible exact pres_skip | with_reducible exact pres_nil | assumption | with_reducible exact pres_modBnd
    | with_reducible exact pres_modLink | with_reducible refine pres_whenP ?_ | with_reducible refine pres_forEach fun _ => ?_
    | with_reducible refine pres_cons ?_ ?_ | with_reducible refine pres_seq ?_ ?_ | with_reducible refine pres_look fun _ _ => ?_ | split
    | dsimp only

theorem pres_emitFlit {p ftype : Nat} {payload : List Byte} {sequenced : Bool} : Pres (emitFlit p ftype payload sequenced) := by
  unfold emitFlit
  repeat' first
    | with_reducible exact pres_skip | with_reducible exact pres_nil | assumption | with_reducible exact pres_modLink
    | with_reducible exact pres_putFlit | with_reducible refine pres_whenP ?_ | with_reducible refine pres_forEach fun _ => ?_
    | with_reducible refine pres_cons ?_ ?_ | with_reducible refine pres_seq ?_ ?_ | with_reducible refine pres_look fun _ _ => ?_ | split
    | dsimp only

theorem pres_sendOne {p : Nat} {m : Msg} : Pres (sendOne p m) := by
  unfold sendOne
  repeat' first
    | with_reducible exact pres_skip | with_reducible exact pres_nil | assumption | with_reducible exact pres_modBnd
    | with_reducible exact pres_modLink | with_reducible exact pres_emitFlit | with_reducible refine pres_whenP ?_
    | with_reducible refine pres_forEach fun _ => ?_ | with_reducible refine pres_cons ?_ ?_ | with_reducible refine pres_seq ?_ ?_
    | with_reducible refine pres_look fun _ _ => ?_ | split | dsimp only

theorem pres_pump {p n : Nat} : Pres (pump p n) := by
  induction n with
  | zero => exact pres_skip
  | succ n ih =>
    refine pres_look fun s _ => pres_whenP ?_
    split
    · exact pres_skip
    · exact pres_seq pres_sendOne ih

theorem pres_pumpPort {p : Nat} : Pres (pumpPort p) := by
  unfold pumpPort
  repeat' first
    | with_reducible exact pres_skip | with_reducible exact pres_nil | assumption | with_reducible exact pres_pump
    | with_reducible refine pres_whenP ?_ | with_reducible refine pres_forEach fun _ => ?_ | with_reducible refine pres_cons ?_ ?_
    | with_reducible refine pres_seq ?_ ?_ | with_reducible refine pres_look fun _ _ => ?_ | split | dsimp only

theorem pres_queueOn {p : Nat} {m : Msg} : Pres (queueOn p m) := by
  unfold queueOn
  repeat' first
    | with_reducible exact pres_skip | with_reducible exact pres_nil | assumption | with_reducible exact pres_modBnd
    | with_reducible exact pres_pumpPort | with_reducible refine pres_whenP ?_ | with_reducible refine pres_forEach fun _ => ?_
    | with_reducible refine pres_cons ?_ ?_ | with_reducible refine pres_seq ?_ ?_ | with_reducible refine pres_look fun _ _ => ?_ | split
    | dsimp only

theorem pres_deliver {p flits : Nat} {m : Msg} : Pres (deliver p flits m) := by
  unfold deliver
  repeat' first
    | with_reducible exact pres_skip | with_reducible exact pres_nil | assumption | with_reducible exact pres_modBnd
    | with_reducible refine pres_whenP ?_ | with_reducible refine pres_forEach fun _ => ?_ | with_reducible refine pres_cons ?_ ?_
    | with_reducible refine pres_seq ?_ ?_ | with_reducible refine pres_look fun _ _ => ?_ | split | dsimp only

theorem pres_fabFirst {node cls : Nat} : Pres (fabFirst node cls) := by
  unfold fabFirst
  repeat' first
    | with_reducible exact pres_skip | with_reducible exact pres_nil | assumption | with_reducible exact pres_wr
    | with_reducible refine pres_whenP ?_ | with_reducible refine pres_forEach fun _ => ?_ | with_reducible refine pres_cons ?_ ?_
    | with_reducible refine pres_seq ?_ ?_ | with_reducible refine pres_look fun _ _ => ?_ | split | dsimp only

theorem pres_unreachable {m : Msg} {r : Nat} {back : Msg → Prog} (h : ∀ m, Pres (back m)) : Pres (unreachable m r back) := by
  unfold unreachable
  repeat' first
    | with_reducible exact pres_skip | with_reducible exact pres_nil | assumption | exact h _ | with_reducible exact pres_wr
    | with_reducible exact pres_addSat | with_reducible exact pres_fabFirst | with_reducible refine pres_whenP ?_
    | with_reducible refine pres_forEach fun _ => ?_ | with_reducible refine pres_cons ?_ ?_ | with_reducible refine pres_seq ?_ ?_
    | with_reducible refine pres_look fun _ _ => ?_ | split | dsimp only

theorem pres_routeMsg {n : Nat} : ∀ m, Pres (routeMsg n m) := by
  induction n with
  | zero => exact fun _ => pres_skip
  | succ n ih =>
    intro m
    unfold routeMsg
    refine pres_look fun s _ => ?_
    repeat' first
      | exact pres_deliver | exact pres_queueOn | exact pres_unreachable ih | exact ih _ | exact pres_skip | split | dsimp only

theorem pres_sendMsg {m : Msg} : Pres (sendMsg m) := by
  unfold sendMsg
  repeat' first
    | with_reducible exact pres_skip | with_reducible exact pres_nil | assumption | exact pres_routeMsg _ | with_reducible exact pres_routeMsg
    | with_reducible refine pres_whenP ?_ | with_reducible refine pres_forEach fun _ => ?_ | with_reducible refine pres_cons ?_ ?_
    | with_reducible refine pres_seq ?_ ?_ | with_reducible refine pres_look fun _ _ => ?_ | split | dsimp only

theorem pres_sendTagged {m : Msg} {r : TagRec} : Pres (sendTagged m r) := by
  unfold sendTagged
  repeat' first
    | with_reducible exact pres_skip | with_reducible exact pres_nil | assumption | with_reducible exact pres_modBnd
    | with_reducible exact pres_sendMsg | with_reducible refine pres_whenP ?_ | with_reducible refine pres_forEach fun _ => ?_
    | with_reducible refine pres_cons ?_ ?_ | with_reducible refine pres_seq ?_ ?_ | with_reducible refine pres_look fun _ _ => ?_ | split
    | dsimp only

theorem pres_advanceLanes {island : Nat} {n : Nat → Nat} : Pres (advanceLanes island n) := by
  unfold advanceLanes
  repeat' first
    | with_reducible exact pres_skip | with_reducible exact pres_nil | assumption | exact pres_modUnits fun _ => rfl
    | with_reducible refine pres_whenP ?_ | with_reducible refine pres_forEach fun _ => ?_ | with_reducible refine pres_cons ?_ ?_
    | with_reducible refine pres_seq ?_ ?_ | with_reducible refine pres_look fun _ _ => ?_ | split | dsimp only

/-! ### Stacks and writes -/

/-- A request changes the fabric and the registers of chapter 12. -/
theorem pres_request {m : Msg} {p : Option Nat} {g l q n k : Nat} : Pres (request m p g l q n k) := by
  unfold request
  repeat' first
    | with_reducible exact pres_skip | with_reducible exact pres_nil | assumption | with_reducible exact pres_modBnd
    | with_reducible exact pres_sendTagged | with_reducible refine pres_whenP ?_ | with_reducible refine pres_forEach fun _ => ?_
    | with_reducible refine pres_cons ?_ ?_ | with_reducible refine pres_seq ?_ ?_ | with_reducible refine pres_look fun _ _ => ?_ | split
    | dsimp only

theorem pres_markRetire {st : Nat} : Pres (markRetire st) := by
  unfold markRetire
  repeat' first
    | with_reducible exact pres_skip | with_reducible exact pres_nil | assumption | with_reducible exact pres_raise
    | with_reducible exact pres_modStk | with_reducible exact pres_mirEvent | with_reducible exact pres_logOwn | with_reducible refine pres_whenP ?_
    | with_reducible refine pres_forEach fun _ => ?_ | with_reducible refine pres_cons ?_ ?_ | with_reducible refine pres_seq ?_ ?_
    | with_reducible refine pres_look fun _ _ => ?_ | split | dsimp only

theorem pres_listRow {st a : Nat} : Pres (listRow st a) := by
  unfold listRow
  repeat' first
    | with_reducible exact pres_skip | with_reducible exact pres_nil | assumption | with_reducible exact pres_modStk
    | with_reducible refine pres_whenP ?_ | with_reducible refine pres_forEach fun _ => ?_ | with_reducible refine pres_cons ?_ ?_
    | with_reducible refine pres_seq ?_ ?_ | with_reducible refine pres_look fun _ _ => ?_ | split | dsimp only

theorem pres_correctedWord {st a : Nat} {pass : Option Nat} : Pres (correctedWord st a pass) := by
  unfold correctedWord
  repeat' first
    | with_reducible exact pres_skip | with_reducible exact pres_nil | assumption | with_reducible exact pres_wr | with_reducible exact pres_addSat
    | with_reducible exact pres_modStk | with_reducible exact pres_listRow | with_reducible refine pres_whenP ?_
    | with_reducible refine pres_forEach fun _ => ?_ | with_reducible refine pres_cons ?_ ?_ | with_reducible refine pres_seq ?_ ?_
    | with_reducible refine pres_look fun _ _ => ?_ | split | dsimp only

theorem pres_uncorrectableWord {st a source island : Nat} : Pres (uncorrectableWord st a source island) := by
  unfold uncorrectableWord
  repeat' first
    | with_reducible exact pres_skip | with_reducible exact pres_nil | assumption | with_reducible exact pres_wr | with_reducible exact pres_addSat
    | with_reducible exact pres_raise | with_reducible exact pres_modStk | with_reducible exact pres_markRetire | with_reducible exact pres_listRow
    | exact pres_prim (by simp [Act.kind]) | with_reducible refine pres_whenP ?_ | with_reducible refine pres_forEach fun _ => ?_
    | with_reducible refine pres_cons ?_ ?_ | with_reducible refine pres_seq ?_ ?_ | with_reducible refine pres_look fun _ _ => ?_ | split
    | dsimp only

theorem pres_writeBack {g : Granule} : Pres (writeBack g) := by
  unfold writeBack
  repeat' first
    | with_reducible exact pres_skip | with_reducible exact pres_nil | assumption | exact pres_prim (by simp [Act.kind])
    | with_reducible refine pres_whenP ?_ | with_reducible refine pres_forEach fun _ => ?_ | with_reducible refine pres_cons ?_ ?_
    | with_reducible refine pres_seq ?_ ?_ | with_reducible refine pres_look fun _ _ => ?_ | split | dsimp only

theorem pres_evict {g : Granule} : Pres (evict g) := by
  unfold evict
  repeat' first
    | with_reducible exact pres_skip | with_reducible exact pres_nil | assumption | with_reducible exact pres_modStk
    | with_reducible exact pres_writeBack | with_reducible refine pres_whenP ?_ | with_reducible refine pres_forEach fun _ => ?_
    | with_reducible refine pres_cons ?_ ?_ | with_reducible refine pres_seq ?_ ?_ | with_reducible refine pres_look fun _ _ => ?_ | split
    | dsimp only

theorem pres_atomicRequest {a island : Nat} {adds : List (Nat × SV)} {err : ErrBytes} {chk : HwCheck} : Pres (atomicRequest a island adds err chk) := by
  unfold atomicRequest
  repeat' first
    | with_reducible exact pres_skip | with_reducible exact pres_nil | assumption | with_reducible exact pres_raise
    | with_reducible exact pres_modStk | with_reducible exact pres_markRetire | with_reducible exact pres_correctedWord
    | with_reducible exact pres_uncorrectableWord | with_reducible exact pres_evict | with_reducible refine pres_whenP ?_
    | with_reducible refine pres_forEach fun _ => ?_ | with_reducible refine pres_cons ?_ ?_ | with_reducible refine pres_seq ?_ ?_
    | with_reducible refine pres_look fun _ _ => ?_ | split | dsimp only

theorem pres_atomicHbm {a island : Nat} {bad : List (Nat × Bool)} {l : List SV} : Pres (atomicHbm a island bad l) := by
  unfold atomicHbm
  repeat' first
    | with_reducible exact pres_skip | with_reducible exact pres_nil | assumption | with_reducible exact pres_atomicRequest
    | with_reducible refine pres_whenP ?_ | with_reducible refine pres_forEach fun _ => ?_ | with_reducible refine pres_cons ?_ ?_
    | with_reducible refine pres_seq ?_ ?_ | with_reducible refine pres_look fun _ _ => ?_ | split | dsimp only

theorem pres_atomicScratch {p off : Nat} {l : List SV} : Pres (atomicScratch p off l) := by
  unfold atomicScratch
  repeat' first
    | with_reducible exact pres_skip | with_reducible exact pres_nil | assumption | with_reducible exact pres_scratchWrite
    | with_reducible refine pres_whenP ?_ | with_reducible refine pres_forEach fun _ => ?_ | with_reducible refine pres_cons ?_ ?_
    | with_reducible refine pres_seq ?_ ?_ | with_reducible refine pres_look fun _ _ => ?_ | split | dsimp only

theorem pres_atomicPeer {node a p g leg : Nat} {l : List SV} : Pres (atomicPeer node a p g leg l) := by
  unfold atomicPeer
  repeat' first
    | with_reducible exact pres_skip | with_reducible exact pres_nil | assumption | with_reducible exact pres_request
    | with_reducible refine pres_whenP ?_ | with_reducible refine pres_forEach fun _ => ?_ | with_reducible refine pres_cons ?_ ?_
    | with_reducible refine pres_seq ?_ ?_ | with_reducible refine pres_look fun _ _ => ?_ | split | dsimp only

theorem pres_atomicAt {p g leg : Nat} {bad : List (Nat × Bool)} {r : BitVec 128} {off : Nat} {l : List SV} : Pres (atomicAt p g leg bad r off l) := by
  unfold atomicAt
  repeat' first
    | with_reducible exact pres_skip | with_reducible exact pres_nil | assumption | with_reducible exact pres_atomicHbm
    | with_reducible exact pres_atomicScratch | with_reducible exact pres_atomicPeer | with_reducible refine pres_whenP ?_
    | with_reducible refine pres_forEach fun _ => ?_ | with_reducible refine pres_cons ?_ ?_ | with_reducible refine pres_seq ?_ ?_
    | with_reducible refine pres_look fun _ _ => ?_ | split | dsimp only

theorem pres_performWrite {p g leg loc node cls a : Nat} {l : List Byte} {poison : Bool} : Pres (performWrite p g leg loc node cls a l poison) := by
  unfold performWrite
  repeat' first
    | with_reducible exact pres_skip | with_reducible exact pres_nil | assumption | with_reducible exact pres_hbmWordWrite
    | with_reducible exact pres_hostWrite | with_reducible exact pres_scratchWrite | with_reducible exact pres_request
    | exact pres_prim (by simp [Act.kind]) | with_reducible refine pres_whenP ?_ | with_reducible refine pres_forEach fun _ => ?_
    | with_reducible refine pres_cons ?_ ?_ | with_reducible refine pres_seq ?_ ?_ | with_reducible refine pres_look fun _ _ => ?_ | split
    | dsimp only

/-! ### Legs -/

theorem pres_holdPages {l : List Span} : Pres (holdPages l) := by
  unfold holdPages
  repeat' first
    | with_reducible exact pres_skip | with_reducible exact pres_nil | assumption | with_reducible exact pres_cacheTranslation
    | with_reducible refine pres_whenP ?_ | with_reducible refine pres_forEach fun _ => ?_ | with_reducible refine pres_cons ?_ ?_
    | with_reducible refine pres_seq ?_ ?_ | with_reducible refine pres_look fun _ _ => ?_ | split | dsimp only

theorem pres_countPoison {l : List Span} : Pres (countPoison l) := by
  unfold countPoison
  repeat' first
    | with_reducible exact pres_skip | with_reducible exact pres_nil | assumption | with_reducible exact pres_deliverPoison
    | with_reducible refine pres_whenP ?_ | with_reducible refine pres_forEach fun _ => ?_ | with_reducible refine pres_cons ?_ ?_
    | with_reducible refine pres_seq ?_ ?_ | with_reducible refine pres_look fun _ _ => ?_ | split | dsimp only

theorem pres_sendGet {p g leg : Nat} {x : Span} : Pres (sendGet p g leg x) := by
  unfold sendGet
  repeat' first
    | with_reducible exact pres_skip | with_reducible exact pres_nil | assumption | with_reducible exact pres_request
    | with_reducible refine pres_whenP ?_ | with_reducible refine pres_forEach fun _ => ?_ | with_reducible refine pres_cons ?_ ?_
    | with_reducible refine pres_seq ?_ ?_ | with_reducible refine pres_look fun _ _ => ?_ | split | dsimp only

/-- A write of a leg ends no run where no page is refused. -/
theorem pres_emitAs {e : Env} {c o : Nat} {r : BitVec 128} {f : Nat} {l : List Byte} {b : Bool} (he : e.hostErr = []) : Pres (emitAs e c o r f l b) := by
  unfold emitAs
  dsimp only
  refine pres_look fun s hs => ?_
  rw [he, refusedIn_none hs]
  dsimp only
  split
  · exact pres_skip
  · split
    · exact pres_modUnits fun _ => rfl
    · exact pres_performWrite

theorem pres_emitBytes {e : Env} {operand : Nat} {r : BitVec 128} {off : Nat} {l : List Byte} {poison : Bool} (he : e.hostErr = []) : Pres (emitBytes e operand r off l poison) := by
  unfold emitBytes
  repeat' first
    | with_reducible exact pres_skip | with_reducible exact pres_nil | assumption | with_reducible exact pres_emitAs ‹_›
    | with_reducible refine pres_whenP ?_ | with_reducible refine pres_forEach fun _ => ?_ | with_reducible refine pres_cons ?_ ?_
    | with_reducible refine pres_seq ?_ ?_ | with_reducible refine pres_look fun _ _ => ?_ | split | dsimp only

theorem pres_putDown {e : Env} {l : List (List Nat)} : Pres (putDown e l) := by
  unfold putDown
  repeat' first
    | with_reducible exact pres_skip | with_reducible exact pres_nil | assumption | exact pres_modGate fun _ => ⟨rfl, rfl⟩
    | with_reducible refine pres_whenP ?_ | with_reducible refine pres_forEach fun _ => ?_ | with_reducible refine pres_cons ?_ ?_
    | with_reducible refine pres_seq ?_ ?_ | with_reducible refine pres_look fun _ _ => ?_ | split | dsimp only

theorem pres_emitRow {e : Env} {operand : Nat} {d : Desc} {row : Nat} {o : RowOut} (he : e.hostErr = []) : Pres (emitRow e operand d row o) := by
  unfold emitRow
  repeat' first
    | with_reducible exact pres_skip | with_reducible exact pres_nil | assumption | with_reducible exact pres_emitBytes ‹_›
    | with_reducible refine pres_whenP ?_ | with_reducible refine pres_forEach fun _ => ?_ | with_reducible refine pres_cons ?_ ?_
    | with_reducible refine pres_seq ?_ ?_ | with_reducible refine pres_look fun _ _ => ?_ | split | dsimp only

theorem pres_emitWords {e : Env} {operand : Nat} {d : Desc} {row : Nat} {l : List Nat} (he : e.hostErr = []) : Pres (emitWords e operand d row l) := by
  unfold emitWords
  repeat' first
    | with_reducible exact pres_skip | with_reducible exact pres_nil | assumption | with_reducible exact pres_emitRow ‹_›
    | with_reducible refine pres_whenP ?_ | with_reducible refine pres_forEach fun _ => ?_ | with_reducible refine pres_cons ?_ ?_
    | with_reducible refine pres_seq ?_ ?_ | with_reducible refine pres_look fun _ _ => ?_ | split | dsimp only

theorem pres_sendMarks : Pres (sendMarks) := by
  unfold sendMarks
  repeat' first
    | with_reducible exact pres_skip | with_reducible exact pres_nil | assumption | exact pres_modUnits fun _ => rfl
    | with_reducible exact pres_request | with_reducible refine pres_whenP ?_ | with_reducible refine pres_forEach fun _ => ?_
    | with_reducible refine pres_cons ?_ ?_ | with_reducible refine pres_seq ?_ ?_ | with_reducible refine pres_look fun _ _ => ?_ | split
    | dsimp only

theorem pres_useRings {e : Env} : Pres (useRings e) := by
  unfold useRings
  repeat' first
    | with_reducible exact pres_skip | with_reducible exact pres_nil | assumption | with_reducible exact pres_scratchWrite
    | with_reducible refine pres_withFreeBytes fun _ => ?_ | with_reducible refine pres_whenP ?_ | with_reducible refine pres_forEach fun _ => ?_
    | with_reducible refine pres_cons ?_ ?_ | with_reducible refine pres_seq ?_ ?_ | with_reducible refine pres_look fun _ _ => ?_ | split
    | dsimp only

theorem pres_stallLeg {e : Env} : Pres (stallLeg e) := by
  unfold stallLeg
  repeat' first
    | with_reducible exact pres_skip | with_reducible exact pres_nil | assumption | with_reducible exact pres_wr
    | with_reducible refine pres_whenP ?_ | with_reducible refine pres_forEach fun _ => ?_ | with_reducible refine pres_cons ?_ ?_
    | with_reducible refine pres_seq ?_ ?_ | with_reducible refine pres_look fun _ _ => ?_ | split | dsimp only

theorem pres_putFlags {p g i t n : Nat} {l : List Flag} {a : List Nat} : Pres (putFlags p g i t n l a) := by
  unfold putFlags
  repeat' first
    | with_reducible exact pres_skip | with_reducible exact pres_nil | assumption | with_reducible exact pres_wr | with_reducible exact pres_addSat
    | exact pres_modGate fun _ => ⟨rfl, rfl⟩ | with_reducible refine pres_whenP ?_ | with_reducible refine pres_forEach fun _ => ?_
    | with_reducible refine pres_cons ?_ ?_ | with_reducible refine pres_seq ?_ ?_ | with_reducible refine pres_look fun _ _ => ?_ | split
    | dsimp only

theorem pres_putStats {e : Env} {rows : List (List SV × Bool)} (he : e.hostErr = []) : Pres (putStats e rows) := by
  unfold putStats
  repeat' first
    | with_reducible exact pres_skip | with_reducible exact pres_nil | assumption | with_reducible exact pres_emitWords ‹_›
    | with_reducible refine pres_whenP ?_ | with_reducible refine pres_forEach fun _ => ?_ | with_reducible refine pres_cons ?_ ?_
    | with_reducible refine pres_seq ?_ ?_ | with_reducible refine pres_look fun _ _ => ?_ | split | dsimp only

theorem pres_countUe : Pres countUe := pres_addSat

/-! ### Storage -/

theorem pres_putStore {e : Env} {k : Nat} {v : List (List Nat)} : Pres (putStore e k v) := pres_modGate fun _ => ⟨rfl, rfl⟩

theorem pres_loadPlanes {e : Env} {a : Nat} {l : List (List (List Nat))} : Pres (loadPlanes e a l) :=
  pres_modGate fun _ => by dsimp only; split <;> exact ⟨rfl, rfl⟩

theorem pres_leaveArray {m : MatLeg} {l : List Place} {a : Nat} : Pres (leaveArray m l a) := by
  unfold leaveArray
  repeat' first
    | with_reducible exact pres_skip | with_reducible exact pres_putStore | with_reducible exact pres_loadPlanes
    | with_reducible refine pres_seq ?_ ?_ | split | dsimp only

theorem pres_leaveArrays {e : Env} {d : Nat} {t : List (List Nat)} {ks : List KeyBlock} {l : List (List Nat)} : Pres (leaveArrays e d t ks l) :=
  pres_cons pres_loadPlanes (pres_cons pres_loadPlanes (pres_cons pres_putStore pres_nil))

theorem pres_leaveBackward {e : Env} {d : Nat} {l : List BwdIn} {ks : List KeyBlock} : Pres (leaveBackward e d l ks) :=
  pres_seq pres_loadPlanes pres_loadPlanes

/-! ### V-gates -/

theorem pres_resultTile {e : Env} {n : Nat} {l : List VRow} : Pres (resultTile e n l) := pres_putStore

theorem pres_sourceTile {e : Env} {k : Nat} : Pres (sourceTile e k) := pres_whenP pres_putStore

theorem pres_vStatus {e : Env} : Pres (vStatus e) := by
  unfold vStatus
  repeat' first
    | with_reducible exact pres_skip | with_reducible exact pres_nil | assumption | with_reducible exact pres_wr
    | with_reducible refine pres_whenP ?_ | with_reducible refine pres_forEach fun _ => ?_ | with_reducible refine pres_cons ?_ ?_
    | with_reducible refine pres_seq ?_ ?_ | with_reducible refine pres_look fun _ _ => ?_ | split | dsimp only

/-- Residues that do not mismatch twice end no run. -/
theorem pres_vChecks {e : Env} {chk : HwCheck} (hc : isPersistent chk = false) : Pres (vChecks e chk []) := by
  unfold vChecks
  rw [show planeAgain [] = [] from rfl]
  rcases chk with _ | t | t
  case persistent => exact absurd hc (by simp [isPersistent])
  all_goals dsimp only
  all_goals
    repeat' first
      | with_reducible exact pres_skip | with_reducible exact pres_nil | assumption | with_reducible exact pres_wr | with_reducible exact pres_addSat
      | with_reducible exact pres_raise | with_reducible refine pres_whenP ?_ | with_reducible refine pres_forEach fun _ => ?_
      | with_reducible refine pres_cons ?_ ?_ | with_reducible refine pres_seq ?_ ?_ | with_reducible refine pres_look fun _ _ => ?_ | split
      | dsimp only

theorem pres_vOut {e : Env} {o i : Nat} {c d : Bool} {b : Nat → Nat} {l : List VRow} {k : Nat → Nat → Option Nat} (he : e.hostErr = []) :
    Pres (vOut e o i c d b l k).prog := by
  unfold vOut
  split
  · exact pres_seq pres_resultTile pres_putDown
  · dsimp only
    refine pres_seq (pres_whenP pres_resultTile) ?_
    split
    · exact pres_cacheWrites
    · exact pres_forEach fun _ => pres_emitRow he

theorem pres_vEnd {e : Env} {f : Nat → Nat} {d : Desc} {b : List (List SV)} {m : List Flag} : Pres (vEnd e f d b m) := by
  unfold vEnd
  repeat' first
    | with_reducible exact pres_skip | with_reducible exact pres_nil | assumption | with_reducible exact pres_advanceLanes
    | with_reducible exact pres_putFlags | with_reducible refine pres_whenP ?_ | with_reducible refine pres_forEach fun _ => ?_
    | with_reducible refine pres_cons ?_ ?_ | with_reducible refine pres_seq ?_ ?_ | with_reducible refine pres_look fun _ _ => ?_ | split
    | dsimp only

theorem pres_vSimple {e : Env} {draws : Bool} {rows : List VRow} (he : e.hostErr = []) : Pres (vSimple e draws rows) := by
  unfold vSimple
  repeat' first
    | with_reducible exact pres_skip | with_reducible exact pres_nil | assumption | with_reducible exact pres_vOut ‹_›
    | with_reducible exact pres_vEnd | with_reducible refine pres_whenP ?_ | with_reducible refine pres_forEach fun _ => ?_
    | with_reducible refine pres_cons ?_ ?_ | with_reducible refine pres_seq ?_ ?_ | with_reducible refine pres_look fun _ _ => ?_ | split
    | dsimp only

theorem pres_note24 {e : Env} : Pres (note24 e) := by
  unfold note24
  repeat' first
    | with_reducible exact pres_skip | with_reducible exact pres_nil | assumption | with_reducible refine pres_raiseSev fun _ => ?_
    | with_reducible refine pres_whenP ?_ | with_reducible refine pres_forEach fun _ => ?_ | with_reducible refine pres_cons ?_ ?_
    | with_reducible refine pres_seq ?_ ?_ | with_reducible refine pres_look fun _ _ => ?_ | split | dsimp only

/-- A V-gate leg ends no run where its residues agree. -/
theorem pres_vBody {c : Env → Bool} {chk : HwCheck} {f : Env → Prog} {e : Env} (hc : isPersistent chk = false) (h : Pres (f e)) :
    Pres (vBody c chk [] f e) := by
  unfold vBody
  exact pres_seq (pres_seq (pres_forEach fun _ => pres_sourceTile) (pres_vChecks (by split; exact hc; rfl))) (pres_unlessFailed (pres_seq pres_note24 h))

theorem pres_elemwiseBody {e : Env} (he : e.hostErr = []) : Pres (elemwiseBody e) := by
  unfold elemwiseBody
  repeat' first
    | with_reducible exact pres_skip | with_reducible exact pres_nil | assumption | with_reducible exact pres_vSimple ‹_›
    | with_reducible refine pres_whenP ?_ | with_reducible refine pres_forEach fun _ => ?_ | with_reducible refine pres_cons ?_ ?_
    | with_reducible refine pres_seq ?_ ?_ | with_reducible refine pres_look fun _ _ => ?_ | split | dsimp only

theorem pres_reduceBody {e : Env} (he : e.hostErr = []) : Pres (reduceBody e) := by
  unfold reduceBody
  repeat' first
    | with_reducible exact pres_skip | with_reducible exact pres_nil | assumption | with_reducible exact pres_vSimple ‹_›
    | with_reducible refine pres_whenP ?_ | with_reducible refine pres_forEach fun _ => ?_ | with_reducible refine pres_cons ?_ ?_
    | with_reducible refine pres_seq ?_ ?_ | with_reducible refine pres_look fun _ _ => ?_ | split | dsimp only

theorem pres_normBody {e : Env} (he : e.hostErr = []) : Pres (normBody e) := by
  unfold normBody
  repeat' first
    | with_reducible exact pres_skip | with_reducible exact pres_nil | assumption | with_reducible exact pres_vSimple ‹_›
    | with_reducible refine pres_whenP ?_ | with_reducible refine pres_forEach fun _ => ?_ | with_reducible refine pres_cons ?_ ?_
    | with_reducible refine pres_seq ?_ ?_ | with_reducible refine pres_look fun _ _ => ?_ | split | dsimp only

theorem pres_smNormaliseBody {e : Env} (he : e.hostErr = []) : Pres (smNormaliseBody e) := by
  unfold smNormaliseBody
  repeat' first
    | with_reducible exact pres_skip | with_reducible exact pres_nil | assumption | with_reducible exact pres_vSimple ‹_›
    | with_reducible refine pres_whenP ?_ | with_reducible refine pres_forEach fun _ => ?_ | with_reducible refine pres_cons ?_ ?_
    | with_reducible refine pres_seq ?_ ?_ | with_reducible refine pres_look fun _ _ => ?_ | split | dsimp only

theorem pres_smMergeBody {e : Env} (he : e.hostErr = []) : Pres (smMergeBody e) := by
  unfold smMergeBody
  repeat' first
    | with_reducible exact pres_skip | with_reducible exact pres_nil | assumption | with_reducible exact pres_emitWords ‹_›
    | with_reducible exact pres_vSimple ‹_› | with_reducible refine pres_whenP ?_ | with_reducible refine pres_forEach fun _ => ?_
    | with_reducible refine pres_cons ?_ ?_ | with_reducible refine pres_seq ?_ ?_ | with_reducible refine pres_look fun _ _ => ?_ | split
    | dsimp only

theorem pres_klBody {e : Env} (he : e.hostErr = []) : Pres (klBody e) := by
  unfold klBody
  repeat' first
    | with_reducible exact pres_skip | with_reducible exact pres_nil | assumption | with_reducible exact pres_vOut ‹_›
    | with_reducible exact pres_vEnd | with_reducible refine pres_whenP ?_ | with_reducible refine pres_forEach fun _ => ?_
    | with_reducible refine pres_cons ?_ ?_ | with_reducible refine pres_seq ?_ ?_ | with_reducible refine pres_look fun _ _ => ?_ | split
    | dsimp only

theorem pres_emitChecksum {e : Env} {operand idx k : Nat} {cols : List (List Int)} (he : e.hostErr = []) : Pres (emitChecksum e operand idx k cols) := by
  unfold emitChecksum
  repeat' first
    | with_reducible exact pres_skip | with_reducible exact pres_nil | assumption | with_reducible exact pres_emitWords ‹_›
    | with_reducible refine pres_whenP ?_ | with_reducible refine pres_forEach fun _ => ?_ | with_reducible refine pres_cons ?_ ?_
    | with_reducible refine pres_seq ?_ ?_ | with_reducible refine pres_look fun _ _ => ?_ | split | dsimp only

theorem pres_optUpdateBody {e : Env} (he : e.hostErr = []) : Pres (optUpdateBody e) := by
  unfold optUpdateBody
  repeat' first
    | with_reducible exact pres_skip | with_reducible exact pres_nil | assumption | with_reducible exact pres_vOut ‹_›
    | with_reducible exact pres_vEnd | with_reducible exact pres_emitChecksum ‹_› | with_reducible refine pres_whenP ?_
    | with_reducible refine pres_forEach fun _ => ?_ | with_reducible refine pres_cons ?_ ?_ | with_reducible refine pres_seq ?_ ?_
    | with_reducible refine pres_look fun _ _ => ?_ | split | dsimp only

theorem pres_convertBody {e : Env} (he : e.hostErr = []) : Pres (convertBody e) := by
  unfold convertBody
  repeat' first
    | with_reducible exact pres_skip | with_reducible exact pres_nil | assumption | with_reducible exact pres_vOut ‹_›
    | with_reducible exact pres_vEnd | with_reducible exact pres_emitChecksum ‹_› | with_reducible refine pres_whenP ?_
    | with_reducible refine pres_forEach fun _ => ?_ | with_reducible refine pres_cons ?_ ?_ | with_reducible refine pres_seq ?_ ?_
    | with_reducible refine pres_look fun _ _ => ?_ | split | dsimp only

theorem pres_spillBody {e : Env} (he : e.hostErr = []) : Pres (spillBody e) := by
  unfold spillBody
  repeat' first
    | with_reducible exact pres_skip | with_reducible exact pres_nil | assumption | with_reducible exact pres_vSimple ‹_›
    | with_reducible refine pres_whenP ?_ | with_reducible refine pres_forEach fun _ => ?_ | with_reducible refine pres_cons ?_ ?_
    | with_reducible refine pres_seq ?_ ?_ | with_reducible refine pres_look fun _ _ => ?_ | split | dsimp only

theorem pres_compress24Body {e : Env} (he : e.hostErr = []) : Pres (compress24Body e) := by
  unfold compress24Body
  repeat' first
    | with_reducible exact pres_skip | with_reducible exact pres_nil | assumption | with_reducible exact pres_vEnd | with_reducible exact pres_wr
    | with_reducible exact pres_addSat | with_reducible exact pres_raise | with_reducible exact pres_emitBytes ‹_›
    | with_reducible exact pres_emitChecksum ‹_› | with_reducible refine pres_whenP ?_ | with_reducible refine pres_forEach fun _ => ?_
    | with_reducible refine pres_cons ?_ ?_ | with_reducible refine pres_seq ?_ ?_ | with_reducible refine pres_look fun _ _ => ?_ | split
    | dsimp only

theorem pres_sketchBody {e : Env} (he : e.hostErr = []) : Pres (sketchBody e) := by
  unfold sketchBody
  repeat' first
    | with_reducible exact pres_skip | with_reducible exact pres_nil | assumption | with_reducible exact pres_vEnd
    | with_reducible exact pres_emitRow ‹_› | with_reducible refine pres_whenP ?_ | with_reducible refine pres_forEach fun _ => ?_
    | with_reducible refine pres_cons ?_ ?_ | with_reducible refine pres_seq ?_ ?_ | with_reducible refine pres_look fun _ _ => ?_ | split
    | dsimp only

/-! ### X-gates -/

theorem pres_xStatus {e : Env} : Pres (xStatus e) := by
  unfold xStatus
  repeat' first
    | with_reducible exact pres_skip | with_reducible exact pres_nil | assumption | with_reducible exact pres_wr
    | with_reducible refine pres_whenP ?_ | with_reducible refine pres_forEach fun _ => ?_ | with_reducible refine pres_cons ?_ ?_
    | with_reducible refine pres_seq ?_ ?_ | with_reducible refine pres_look fun _ _ => ?_ | split | dsimp only

theorem pres_xFlags {e : Env} {d : Desc} {rows : List (List SV)} : Pres (xFlags e d rows) := by
  unfold xFlags
  repeat' first
    | with_reducible exact pres_skip | with_reducible exact pres_nil | assumption | with_reducible exact pres_putFlags
    | with_reducible refine pres_whenP ?_ | with_reducible refine pres_forEach fun _ => ?_ | with_reducible refine pres_cons ?_ ?_
    | with_reducible refine pres_seq ?_ ?_ | with_reducible refine pres_look fun _ _ => ?_ | split | dsimp only

theorem pres_storeBody {e : Env} (he : e.hostErr = []) : Pres (storeBody e) := by
  unfold storeBody
  repeat' first
    | with_reducible exact pres_skip | with_reducible exact pres_nil | assumption | with_reducible exact pres_vOut ‹_›
    | with_reducible exact pres_vEnd | with_reducible exact pres_putStats ‹_› | with_reducible refine pres_whenP ?_
    | with_reducible refine pres_forEach fun _ => ?_ | with_reducible refine pres_cons ?_ ?_ | with_reducible refine pres_seq ?_ ?_
    | with_reducible refine pres_look fun _ _ => ?_ | split | dsimp only

theorem pres_atomicBody {e : Env} : Pres (atomicBody e) := by
  unfold atomicBody
  repeat' first
    | with_reducible exact pres_skip | with_reducible exact pres_nil | assumption | with_reducible exact pres_atomicAt
    | with_reducible exact pres_xFlags | with_reducible refine pres_whenP ?_ | with_reducible refine pres_forEach fun _ => ?_
    | with_reducible refine pres_cons ?_ ?_ | with_reducible refine pres_seq ?_ ?_ | with_reducible refine pres_look fun _ _ => ?_ | split
    | dsimp only

theorem pres_gnsWrite {val kind : Fld} {v : SV} : Pres (gnsWrite val kind v) := by
  unfold gnsWrite
  repeat' first
    | with_reducible exact pres_skip | with_reducible exact pres_nil | assumption | with_reducible exact pres_wr
    | with_reducible refine pres_whenP ?_ | with_reducible refine pres_forEach fun _ => ?_ | with_reducible refine pres_cons ?_ ?_
    | with_reducible refine pres_seq ?_ ?_ | with_reducible refine pres_look fun _ _ => ?_ | split | dsimp only

theorem pres_gnsAdd {e : Env} {g sq : Option SV} : Pres (gnsAdd e g sq) := by
  unfold gnsAdd
  repeat' first
    | with_reducible exact pres_skip | with_reducible exact pres_nil | assumption | with_reducible exact pres_wr | with_reducible exact pres_raise
    | with_reducible exact pres_gnsWrite | with_reducible refine pres_whenP ?_ | with_reducible refine pres_forEach fun _ => ?_
    | with_reducible refine pres_cons ?_ ?_ | with_reducible refine pres_seq ?_ ?_ | with_reducible refine pres_look fun _ _ => ?_ | split
    | dsimp only

theorem pres_modChan {p c : Nat} {f : ChanSt → ChanSt} : Pres (modChan p c f) := by
  unfold modChan
  exact pres_modUnits fun _ => rfl

theorem pres_closeChannel {e : Env} {x : RedLeg} : Pres (closeChannel e x) := by
  unfold closeChannel
  repeat' first
    | with_reducible exact pres_skip | with_reducible exact pres_nil | assumption | with_reducible exact pres_wr | with_reducible exact pres_addSat
    | with_reducible exact pres_raise | with_reducible exact pres_modChan | with_reducible refine pres_whenP ?_
    | with_reducible refine pres_forEach fun _ => ?_ | with_reducible refine pres_cons ?_ ?_ | with_reducible refine pres_seq ?_ ?_
    | with_reducible refine pres_look fun _ _ => ?_ | split | dsimp only

theorem pres_sendPartials {e : Env} {x : RedLeg} {rows : List (List SV)} : Pres (sendPartials e x rows) := by
  unfold sendPartials
  repeat' first
    | with_reducible exact pres_skip | with_reducible exact pres_nil | assumption | exact pres_modUnits fun _ => rfl
    | with_reducible exact pres_sendMarks | with_reducible exact pres_request | with_reducible refine pres_withFreeBytes fun _ => ?_
    | with_reducible refine pres_forEach fun _ => ?_ | with_reducible refine pres_cons ?_ ?_ | with_reducible refine pres_seq ?_ ?_
    | with_reducible refine pres_look fun _ _ => ?_ | split | dsimp only

theorem pres_sendFinals {e : Env} {rows : List (List SV)} : Pres (sendFinals e rows) := by
  unfold sendFinals
  repeat' first
    | with_reducible exact pres_skip | with_reducible exact pres_nil | assumption | with_reducible exact pres_request
    | with_reducible refine pres_whenP ?_ | with_reducible refine pres_forEach fun _ => ?_ | with_reducible refine pres_cons ?_ ?_
    | with_reducible refine pres_seq ?_ ?_ | with_reducible refine pres_look fun _ _ => ?_ | split | dsimp only

/-- REDUCE ends no run where its residues do not mismatch twice. -/
theorem pres_reduceXBody {chk : HwCheck} {e : Env} (he : e.hostErr = []) (hc : isPersistent chk = false) : Pres (reduceXBody chk e) := by
  unfold reduceXBody
  dsimp only
  split
  · exact pres_skip
  · refine pres_seq ?_ (pres_unlessFailed ?_)
    · unfold xChecks
      rcases chk with _ | t | t
      · exact pres_skip
      · exact pres_raise
      · exact absurd hc (by simp [isPersistent])
    · repeat' first
        | with_reducible exact pres_skip | with_reducible exact pres_nil | assumption | with_reducible exact pres_atomicAt
        | with_reducible exact pres_emitWords ‹_› | with_reducible exact pres_xFlags | with_reducible exact pres_gnsAdd
        | with_reducible exact pres_closeChannel | with_reducible exact pres_sendPartials | with_reducible exact pres_sendFinals
        | with_reducible refine pres_unlessFailed ?_ | with_reducible refine pres_whenP ?_ | with_reducible refine pres_forEach fun _ => ?_
        | with_reducible refine pres_cons ?_ ?_ | with_reducible refine pres_seq ?_ ?_ | with_reducible refine pres_look fun _ _ => ?_ | split
        | dsimp only

theorem pres_packBody {e : Env} (he : e.hostErr = []) : Pres (packBody e) := by
  unfold packBody
  repeat' first
    | with_reducible exact pres_skip | with_reducible exact pres_nil | assumption | with_reducible exact pres_emitWords ‹_›
    | with_reducible refine pres_whenP ?_ | with_reducible refine pres_forEach fun _ => ?_ | with_reducible refine pres_cons ?_ ?_
    | with_reducible refine pres_seq ?_ ?_ | with_reducible refine pres_look fun _ _ => ?_ | split | dsimp only

theorem pres_unpackBody {e : Env} (he : e.hostErr = []) : Pres (unpackBody e) := by
  unfold unpackBody
  repeat' first
    | with_reducible exact pres_skip | with_reducible exact pres_nil | assumption | with_reducible exact pres_wr | with_reducible exact pres_gnsWrite
    | with_reducible refine pres_whenP ?_ | with_reducible refine pres_forEach fun _ => ?_ | with_reducible refine pres_cons ?_ ?_
    | with_reducible refine pres_seq ?_ ?_ | with_reducible refine pres_look fun _ _ => ?_ | split | dsimp only

theorem pres_returnBody {e : Env} (he : e.hostErr = []) : Pres (returnBody e) := by
  unfold returnBody
  repeat' first
    | with_reducible exact pres_skip | with_reducible exact pres_nil | assumption | with_reducible exact pres_unpackBody ‹_›
    | with_reducible exact pres_emitWords ‹_› | with_reducible exact pres_wr | with_reducible exact pres_scratchWrite
    | with_reducible refine pres_whenP ?_ | with_reducible refine pres_forEach fun _ => ?_ | with_reducible refine pres_cons ?_ ?_
    | with_reducible refine pres_seq ?_ ?_ | with_reducible refine pres_look fun _ _ => ?_ | split | dsimp only

theorem pres_copyPiece {e : Env} {cls operand : Nat} {src : BitVec 128} {off : Nat} {dst : BitVec 128} {to_ n : Nat} (he : e.hostErr = []) : Pres (copyPiece e cls operand src off dst to_ n) := by
  unfold copyPiece
  repeat' first
    | with_reducible exact pres_skip | with_reducible exact pres_nil | assumption | with_reducible exact pres_emitAs ‹_›
    | with_reducible refine pres_whenP ?_ | with_reducible refine pres_forEach fun _ => ?_ | with_reducible refine pres_cons ?_ ?_
    | with_reducible refine pres_seq ?_ ?_ | with_reducible refine pres_look fun _ _ => ?_ | split | dsimp only

theorem pres_copyTensor {e : Env} {cls : Nat} (he : e.hostErr = []) : Pres (copyTensor e cls) := by
  unfold copyTensor
  repeat' first
    | with_reducible exact pres_skip | with_reducible exact pres_nil | assumption | with_reducible exact pres_emitAs ‹_›
    | with_reducible exact pres_copyPiece ‹_› | with_reducible refine pres_whenP ?_ | with_reducible refine pres_forEach fun _ => ?_
    | with_reducible refine pres_cons ?_ ?_ | with_reducible refine pres_seq ?_ ?_ | with_reducible refine pres_look fun _ _ => ?_ | split
    | dsimp only

theorem pres_mirrorTap {e : Env} (he : e.hostErr = []) : Pres (mirrorTap e) := by
  unfold mirrorTap
  repeat' first
    | with_reducible exact pres_skip | with_reducible exact pres_nil | assumption | with_reducible exact pres_copyPiece ‹_›
    | with_reducible refine pres_whenP ?_ | with_reducible refine pres_forEach fun _ => ?_ | with_reducible refine pres_cons ?_ ?_
    | with_reducible refine pres_seq ?_ ?_ | with_reducible refine pres_look fun _ _ => ?_ | split | dsimp only

/-- GATHER_SHARD ends no run where its version passes and stays (R317). -/
theorem pres_gatherShardBody {e : Env} (he : e.hostErr = []) (h : shardFresh e = true) (h2 : versionOf e true = versionOf e false) :
    Pres (gatherShardBody e) := by
  unfold gatherShardBody
  dsimp only
  rw [h, h2]
  simp only [Bool.not_true, Bool.false_eq_true, if_false, ne_eq, not_true_eq_false]
  repeat' first
    | with_reducible exact pres_skip | with_reducible exact pres_nil | assumption | with_reducible exact pres_emitBytes ‹_›
    | with_reducible exact pres_copyTensor ‹_› | with_reducible exact pres_mirrorTap ‹_› | with_reducible refine pres_unlessFailed ?_
    | with_reducible refine pres_whenP ?_ | with_reducible refine pres_forEach fun _ => ?_ | with_reducible refine pres_cons ?_ ?_
    | with_reducible refine pres_seq ?_ ?_ | with_reducible refine pres_look fun _ _ => ?_ | split | dsimp only

/-! ### M-gates -/

theorem pres_mismatch {e : Env} {tile n : Nat} : Pres (mismatch e tile n) := by
  unfold mismatch
  repeat' first
    | with_reducible exact pres_skip | with_reducible exact pres_nil | assumption | with_reducible exact pres_wr | with_reducible exact pres_addSat
    | with_reducible refine pres_whenP ?_ | with_reducible refine pres_forEach fun _ => ?_ | with_reducible refine pres_cons ?_ ?_
    | with_reducible refine pres_seq ?_ ?_ | with_reducible refine pres_look fun _ _ => ?_ | split | dsimp only

theorem pres_replayed {e : Env} {tile : Nat} : Pres (replayed e tile) := by
  unfold replayed
  repeat' first
    | with_reducible exact pres_skip | with_reducible exact pres_nil | assumption | with_reducible exact pres_addSat
    | with_reducible exact pres_raise | with_reducible exact pres_mismatch | with_reducible refine pres_whenP ?_
    | with_reducible refine pres_forEach fun _ => ?_ | with_reducible refine pres_cons ?_ ?_ | with_reducible refine pres_seq ?_ ?_
    | with_reducible refine pres_look fun _ _ => ?_ | split | dsimp only

theorem pres_matChecks {m : MatLeg} {chk : MgCheck} {l : List Place} (hc : chk = .pass ∨ ∃ t, chk = .transient t) :
    Pres (matChecks m chk [] l []) := by
  unfold matChecks
  rcases hc with rfl | ⟨t, rfl⟩
  all_goals dsimp only
  all_goals
    repeat' first
      | with_reducible exact pres_skip | with_reducible exact pres_nil | assumption | exact pres_forEach_nil | with_reducible exact pres_replayed
      | with_reducible refine pres_unlessFailed ?_ | with_reducible refine pres_whenP ?_ | with_reducible refine pres_forEach fun _ => ?_
      | with_reducible refine pres_cons ?_ ?_ | with_reducible refine pres_seq ?_ ?_ | with_reducible refine pres_look fun _ _ => ?_ | split
      | dsimp only

theorem pres_matOut {m : MatLeg} {ex : List (List Nat × Nat)} {act : Nat → Nat → Bool} {vals : List (List SV)} (he : m.e.hostErr = []) : Pres (matOut m ex act vals) := by
  unfold matOut
  repeat' first
    | with_reducible exact pres_skip | with_reducible exact pres_nil | assumption | with_reducible exact pres_advanceLanes
    | with_reducible exact pres_putDown | with_reducible exact pres_emitRow ‹_› | with_reducible exact pres_putStats ‹_›
    | with_reducible exact pres_putFlags | with_reducible refine pres_whenP ?_ | with_reducible refine pres_forEach fun _ => ?_
    | with_reducible refine pres_cons ?_ ?_ | with_reducible refine pres_seq ?_ ?_ | with_reducible refine pres_look fun _ _ => ?_ | split
    | dsimp only

theorem pres_matFree {m : MatLeg} : Pres (matFree m) := by
  unfold matFree
  repeat' first
    | with_reducible exact pres_skip | with_reducible exact pres_nil | assumption | with_reducible exact pres_scratchWrite
    | with_reducible refine pres_withFreeBytes fun _ => ?_ | with_reducible refine pres_whenP ?_ | with_reducible refine pres_forEach fun _ => ?_
    | with_reducible refine pres_cons ?_ ?_ | with_reducible refine pres_seq ?_ ?_ | with_reducible refine pres_look fun _ _ => ?_ | split
    | dsimp only

theorem pres_beyond {m : MatLeg} {blocks : Nat → List Nat} : Pres (beyond m blocks) := by
  unfold beyond
  repeat' first
    | with_reducible exact pres_skip | with_reducible exact pres_nil | assumption | with_reducible exact pres_wr
    | with_reducible refine pres_raiseSev fun _ => ?_ | with_reducible refine pres_whenP ?_ | with_reducible refine pres_forEach fun _ => ?_
    | with_reducible refine pres_cons ?_ ?_ | with_reducible refine pres_seq ?_ ?_ | with_reducible refine pres_look fun _ _ => ?_ | split
    | dsimp only

theorem pres_matStatus {e : Env} : Pres (matStatus e) := by
  unfold matStatus
  repeat' first
    | with_reducible exact pres_skip | with_reducible exact pres_nil | assumption | with_reducible exact pres_wr
    | with_reducible refine pres_whenP ?_ | with_reducible refine pres_forEach fun _ => ?_ | with_reducible refine pres_cons ?_ ?_
    | with_reducible refine pres_seq ?_ ?_ | with_reducible refine pres_look fun _ _ => ?_ | split | dsimp only

theorem pres_matDense {m : MatLeg} {ex : List (List Nat × Nat)} (he : m.e.hostErr = []) : Pres (matDense m ex) := by
  unfold matDense
  repeat' first
    | with_reducible exact pres_skip | with_reducible exact pres_nil | assumption | with_reducible exact pres_matOut ‹_›
    | with_reducible exact pres_beyond | with_reducible refine pres_whenP ?_ | with_reducible refine pres_forEach fun _ => ?_
    | with_reducible refine pres_cons ?_ ?_ | with_reducible refine pres_seq ?_ ?_ | with_reducible refine pres_look fun _ _ => ?_ | split
    | dsimp only

/-- MATMUL ends no run where its compares agree. -/
theorem pres_matBody {chk : MgCheck} {e : Env} (he : e.hostErr = []) (hc : chk = .pass ∨ ∃ t, chk = .transient t)
    (h : (compares (matLeg e) (some (checkWords e)) (placesFor (matLeg e) (allBlocks (matLeg e)))).2 = []) : Pres (matBody chk [] e) := by
  unfold matBody
  dsimp only
  rw [h]
  have he' : (matLeg e).e.hostErr = [] := he
  repeat' first
    | with_reducible exact pres_skip | with_reducible exact pres_nil | assumption | exact pres_matChecks hc | with_reducible exact pres_addSat
    | with_reducible exact pres_leaveArray
    | with_reducible exact pres_matChecks | with_reducible exact pres_matFree | with_reducible exact pres_matDense ‹_›
    | with_reducible refine pres_unlessFailed ?_ | with_reducible refine pres_whenP ?_ | with_reducible refine pres_forEach fun _ => ?_
    | with_reducible refine pres_cons ?_ ?_ | with_reducible refine pres_seq ?_ ?_ | with_reducible refine pres_look fun _ _ => ?_ | split
    | dsimp only

theorem pres_noteMisses {m : MatLeg} {checked : Nat} {ms : List (Nat × Nat)} : Pres (noteMisses m checked ms) := by
  unfold noteMisses
  repeat' first
    | with_reducible exact pres_skip | with_reducible exact pres_nil | assumption | with_reducible exact pres_wr | with_reducible exact pres_addSat
    | exact pres_modGate fun _ => ⟨rfl, rfl⟩ | with_reducible refine pres_whenP ?_ | with_reducible refine pres_forEach fun _ => ?_
    | with_reducible refine pres_cons ?_ ?_ | with_reducible refine pres_seq ?_ ?_ | with_reducible refine pres_look fun _ _ => ?_ | split
    | dsimp only

theorem pres_inspectOn {m : MatLeg} {ex : List (List Nat × Nat)} {policy : Nat} (he : m.e.hostErr = []) : Pres (inspectOn m ex policy) := by
  unfold inspectOn
  repeat' first
    | with_reducible exact pres_skip | with_reducible exact pres_nil | assumption | with_reducible exact pres_matOut ‹_›
    | with_reducible exact pres_beyond | with_reducible exact pres_noteMisses | with_reducible refine pres_whenP ?_
    | with_reducible refine pres_forEach fun _ => ?_ | with_reducible refine pres_cons ?_ ?_ | with_reducible refine pres_seq ?_ ?_
    | with_reducible refine pres_look fun _ _ => ?_ | split | dsimp only

/-- MATMUL_INSPECT ends no run where the arrays work. -/
theorem pres_inspectBody {chk : MgCheck} {e : Env} (he : e.hostErr = []) (hc : chk = .pass ∨ ∃ t, chk = .transient t) : Pres (inspectBody chk [] e) := by
  unfold inspectBody
  dsimp only
  have he' : (matLeg e).e.hostErr = [] := he
  repeat' first
    | with_reducible exact pres_skip | with_reducible exact pres_nil | assumption | exact pres_matChecks hc | with_reducible exact pres_addSat
    | with_reducible exact pres_leaveArray
    | with_reducible exact pres_matChecks | with_reducible exact pres_matFree | with_reducible exact pres_matDense ‹_›
    | with_reducible exact pres_inspectOn ‹_› | with_reducible refine pres_unlessFailed ?_ | with_reducible refine pres_whenP ?_
    | with_reducible refine pres_forEach fun _ => ?_ | with_reducible refine pres_cons ?_ ?_ | with_reducible refine pres_seq ?_ ?_
    | with_reducible refine pres_look fun _ _ => ?_ | split | dsimp only

/-! ### A-gates -/

theorem pres_whenP_false {p : Prog} : Pres (whenP false p) := pres_skip

theorem pres_elim {α : Type} {o : Option α} {f : α → Prog} (h : ∀ x, Pres (f x)) : Pres (o.elim .skip f) := by
  cases o
  · exact pres_skip
  · exact h _

theorem pres_attnChecks {e : Env} {chk : HwCheck} (hc : isPersistent chk = false) : Pres (attnChecks e chk []) := by
  unfold attnChecks
  rw [show planeAgain [] = [] from rfl]
  simp only [List.isEmpty_nil, Bool.not_true]
  rcases chk with _ | t | t
  case persistent => exact absurd hc (by simp [isPersistent])
  all_goals
    repeat' first
      | with_reducible exact pres_skip | with_reducible exact pres_whenP_false | with_reducible exact pres_nil | assumption | with_reducible exact pres_wr | with_reducible exact pres_addSat
      | with_reducible exact pres_raise | with_reducible refine pres_whenP ?_ | with_reducible refine pres_forEach fun _ => ?_
      | with_reducible refine pres_cons ?_ ?_ | with_reducible refine pres_seq ?_ ?_ | with_reducible refine pres_look fun _ _ => ?_ | split
      | dsimp only

theorem pres_attnStatus {rope : Bool} {e : Env} : Pres (attnStatus rope e) := by
  unfold attnStatus
  repeat' first
    | with_reducible exact pres_skip | with_reducible exact pres_nil | assumption | with_reducible exact pres_wr
    | with_reducible refine pres_whenP ?_ | with_reducible refine pres_forEach fun _ => ?_ | with_reducible refine pres_cons ?_ ?_
    | with_reducible refine pres_seq ?_ ?_ | with_reducible refine pres_look fun _ _ => ?_ | split | dsimp only

theorem pres_riseOver {e : Env} {rows : List Nat} : Pres (riseOver e rows) := by
  unfold riseOver
  repeat' first
    | with_reducible exact pres_skip | with_reducible exact pres_nil | assumption | with_reducible exact pres_wr | with_reducible exact pres_addSat
    | with_reducible exact pres_raise | with_reducible refine pres_whenP ?_ | with_reducible refine pres_forEach fun _ => ?_
    | with_reducible refine pres_cons ?_ ?_ | with_reducible refine pres_seq ?_ ?_ | with_reducible refine pres_look fun _ _ => ?_ | split
    | dsimp only

theorem pres_partialRows {e : Env} {tiles : List (List Nat)} {rows : List (RowState × Option RowExp)} : Pres (partialRows e tiles rows) := by
  unfold partialRows
  repeat' first
    | with_reducible exact pres_skip | with_reducible exact pres_nil | assumption | with_reducible exact pres_scratchWrite
    | with_reducible refine pres_whenP ?_ | with_reducible refine pres_forEach fun _ => ?_ | with_reducible refine pres_cons ?_ ?_
    | with_reducible refine pres_seq ?_ ?_ | with_reducible refine pres_look fun _ _ => ?_ | split | dsimp only

theorem pres_attnOut {e : Env} {tiles : List (List Nat)} {rows : List (RowState × Option RowExp)} {ex : List Nat} (he : e.hostErr = []) : Pres (attnOut e tiles rows ex) := by
  unfold attnOut
  repeat' first
    | with_reducible exact pres_skip | with_reducible exact pres_nil | assumption | with_reducible exact pres_wr | with_reducible exact pres_addSat
    | with_reducible exact pres_advanceLanes | with_reducible exact pres_putDown | with_reducible exact pres_emitRow ‹_›
    | with_reducible exact pres_emitWords ‹_› | with_reducible exact pres_putStats ‹_› | with_reducible exact pres_riseOver
    | with_reducible exact pres_partialRows | with_reducible exact pres_putFlags | with_reducible refine pres_whenP ?_
    | with_reducible refine pres_forEach fun _ => ?_ | with_reducible refine pres_cons ?_ ?_ | with_reducible refine pres_seq ?_ ?_
    | with_reducible refine pres_look fun _ _ => ?_ | split | dsimp only

theorem pres_areaFree {p off n : Nat} : Pres (areaFree p off n) := by
  unfold areaFree
  repeat' first
    | with_reducible exact pres_skip | with_reducible exact pres_nil | assumption | with_reducible exact pres_scratchWrite
    | with_reducible refine pres_withFreeBytes fun _ => ?_ | with_reducible refine pres_whenP ?_ | with_reducible refine pres_forEach fun _ => ?_
    | with_reducible refine pres_cons ?_ ?_ | with_reducible refine pres_seq ?_ ?_ | with_reducible refine pres_look fun _ _ => ?_ | split
    | dsimp only

/-- ATTEND ends no run where the arrays work and its rotary table is there. -/
theorem pres_attendBody {chk : HwCheck} {e : Env} (he : e.hostErr = []) (hc : isPersistent chk = false)
    (h : ((bit e.leg.p0 10 || bit e.leg.p0 11) && !ropeReady e.s e.island (e.desc e.leg.a).e0) = false) : Pres (attendBody chk [] e) := by
  unfold attendBody
  dsimp only
  rw [h, if_neg (by simp)]
  repeat' first
    | with_reducible exact pres_skip | with_reducible exact pres_nil | assumption | exact pres_attnChecks hc | with_reducible exact pres_attnChecks
    | with_reducible exact pres_attnOut ‹_› | with_reducible exact pres_leaveArrays | with_reducible exact pres_areaFree | with_reducible refine pres_unlessFailed ?_
    | with_reducible refine pres_whenP ?_ | with_reducible refine pres_forEach fun _ => ?_ | with_reducible refine pres_cons ?_ ?_
    | with_reducible refine pres_seq ?_ ?_ | with_reducible refine pres_look fun _ _ => ?_ | split | dsimp only

theorem pres_kvRegs {e : Env} {x : KvEvent} : Pres (kvRegs e x) := by
  unfold kvRegs
  repeat' first
    | with_reducible exact pres_skip | with_reducible exact pres_nil | assumption | with_reducible exact pres_wr
    | with_reducible refine pres_whenP ?_ | with_reducible refine pres_forEach fun _ => ?_ | with_reducible refine pres_cons ?_ ?_
    | with_reducible refine pres_seq ?_ ?_ | with_reducible refine pres_look fun _ _ => ?_ | split | dsimp only

theorem pres_kvRange {e : Env} {xs : List KvEvent} : Pres (kvRange e xs) := by
  unfold kvRange
  repeat' first
    | with_reducible exact pres_skip | with_reducible exact pres_nil | assumption | with_reducible exact pres_wr | with_reducible exact pres_raise
    | with_reducible exact pres_kvRegs | with_reducible refine pres_whenP ?_ | with_reducible refine pres_forEach fun _ => ?_
    | with_reducible refine pres_cons ?_ ?_ | with_reducible refine pres_seq ?_ ?_ | with_reducible refine pres_look fun _ _ => ?_ | split
    | dsimp only

theorem pres_badLengths {e : Env} {seqs : List Nat} : Pres (badLengths e seqs) := by
  unfold badLengths
  repeat' first
    | with_reducible exact pres_skip | with_reducible exact pres_nil | assumption | with_reducible exact pres_wr | with_reducible exact pres_raise
    | with_reducible refine pres_whenP ?_ | with_reducible refine pres_forEach fun _ => ?_ | with_reducible refine pres_cons ?_ ?_
    | with_reducible refine pres_seq ?_ ?_ | with_reducible refine pres_look fun _ _ => ?_ | split | dsimp only

/-- ATTEND_PAGED ends no run where no tag it reads faults besides. -/
theorem pres_attendPagedBody {chk : HwCheck} {e : Env} (he : e.hostErr = []) (hc : isPersistent chk = false)
    (h : (bit e.leg.p0 10 && !ropeReady e.s e.island (e.desc e.leg.a).e0) = false)
    (h2 : (pagedScan e (pagedGood e)).2 = []) : Pres (attendPagedBody chk [] e) := by
  unfold attendPagedBody
  dsimp only
  rw [h, if_neg (by simp), h2]
  dsimp only
  repeat' first
    | with_reducible exact pres_skip | with_reducible exact pres_nil | assumption | exact pres_attnChecks hc | with_reducible exact pres_attnChecks
    | with_reducible exact pres_attnOut ‹_› | with_reducible exact pres_leaveArrays | with_reducible exact pres_areaFree | with_reducible exact pres_kvRange
    | with_reducible exact pres_badLengths | with_reducible refine pres_unlessFailed ?_ | with_reducible refine pres_whenP ?_
    | with_reducible refine pres_forEach fun _ => ?_ | with_reducible refine pres_cons ?_ ?_ | with_reducible refine pres_seq ?_ ?_
    | with_reducible refine pres_look fun _ _ => ?_ | split | dsimp only

theorem pres_writeToken {e : Env} {n : Nat} {t : Token} (he : e.hostErr = []) : Pres (writeToken e n t) := by
  unfold writeToken
  repeat' first
    | with_reducible exact pres_skip | with_reducible exact pres_nil | assumption | with_reducible exact pres_emitBytes ‹_›
    | with_reducible refine pres_whenP ?_ | with_reducible refine pres_forEach fun _ => ?_ | with_reducible refine pres_cons ?_ ?_
    | with_reducible refine pres_seq ?_ ?_ | with_reducible refine pres_look fun _ _ => ?_ | split | dsimp only

/-- KV_APPEND ends no run where its rotary table is there and no tag faults. -/
theorem pres_kvAppendBody {e : Env} (he : e.hostErr = []) (h : (bit e.leg.p0 11 && decide ((ropeOf e.s e.island).pairs < 16)) = false) (h2 : appendFault e = none) : Pres (kvAppendBody e) := by
  unfold kvAppendBody
  dsimp only
  rw [h, if_neg (by simp), h2]
  dsimp only
  repeat' first
    | with_reducible exact pres_skip | with_reducible exact pres_nil | assumption | with_reducible exact pres_advanceLanes
    | with_reducible exact pres_kvRange | with_reducible exact pres_badLengths | with_reducible exact pres_writeToken ‹_›
    | with_reducible exact pres_putFlags | with_reducible refine pres_whenP ?_ | with_reducible refine pres_forEach fun _ => ?_
    | with_reducible refine pres_cons ?_ ?_ | with_reducible refine pres_seq ?_ ?_ | with_reducible refine pres_look fun _ _ => ?_ | split
    | dsimp only

/-- ROPE_LOAD ends no run where every step code passes. -/
theorem pres_ropeLoadBody {e : Env} (h : ((ropeVals e).any fun v => (ropeStep v).isNone) = false) : Pres (ropeLoadBody e) := by
  unfold ropeLoadBody
  dsimp only
  rw [h, if_neg (by simp)]
  repeat' first
    | with_reducible exact pres_skip | with_reducible exact pres_nil | assumption | with_reducible exact pres_wr | exact pres_modUnits fun _ => rfl
    | with_reducible refine pres_whenP ?_ | with_reducible refine pres_forEach fun _ => ?_ | with_reducible refine pres_cons ?_ ?_
    | with_reducible refine pres_seq ?_ ?_ | with_reducible refine pres_look fun _ _ => ?_ | split | dsimp only

/-- ROTATE ends no run where its table is there. -/
theorem pres_rotateBody {e : Env} (he : e.hostErr = []) (h : ropeReady e.s e.island (e.desc e.leg.a).e0 = true) : Pres (rotateBody e) := by
  unfold rotateBody
  dsimp only
  rw [h, if_neg (by simp)]
  repeat' first
    | with_reducible exact pres_skip | with_reducible exact pres_nil | assumption | with_reducible exact pres_advanceLanes
    | with_reducible exact pres_putDown | with_reducible exact pres_emitRow ‹_› | with_reducible exact pres_putFlags
    | with_reducible refine pres_whenP ?_ | with_reducible refine pres_forEach fun _ => ?_ | with_reducible refine pres_cons ?_ ?_
    | with_reducible refine pres_seq ?_ ?_ | with_reducible refine pres_look fun _ _ => ?_ | split | dsimp only

theorem pres_bwdPartials {e : Env} {l : List (List BwdIn)} : Pres (bwdPartials e l) := by
  unfold bwdPartials
  repeat' first
    | with_reducible exact pres_skip | with_reducible exact pres_nil | assumption | with_reducible exact pres_scratchWrite
    | with_reducible refine pres_whenP ?_ | with_reducible refine pres_forEach fun _ => ?_ | with_reducible refine pres_cons ?_ ?_
    | with_reducible refine pres_seq ?_ ?_ | with_reducible refine pres_look fun _ _ => ?_ | split | dsimp only

/-- ATTEND_BWD ends no run where the arrays work and its rotary table is there. -/
theorem pres_attendBwdWith {chk : HwCheck} {e : Env} {ld : Int} (he : e.hostErr = []) (hc : isPersistent chk = false)
    (h : ((bit e.leg.p0 10 || bit e.leg.p0 11) && !ropeReady e.s e.island (e.desc e.leg.a).e0) = false) : Pres (attendBwdWith chk [] e ld) := by
  unfold attendBwdWith
  dsimp only
  rw [h, if_neg (by simp)]
  repeat' first
    | with_reducible exact pres_skip | with_reducible exact pres_nil | assumption | exact pres_attnChecks hc | with_reducible exact pres_addSat
    | with_reducible exact pres_attnChecks | with_reducible exact pres_areaFree | with_reducible exact pres_emitWords ‹_›
    | with_reducible exact pres_putFlags | with_reducible refine pres_unlessFailed ?_ | with_reducible refine pres_whenP ?_
    | with_reducible refine pres_forEach fun _ => ?_ | with_reducible refine pres_cons ?_ ?_ | with_reducible refine pres_seq ?_ ?_
    | with_reducible refine pres_look fun _ _ => ?_
    | with_reducible exact pres_bwdPartials | with_reducible exact pres_leaveBackward | with_reducible refine pres_elim fun _ => ?_ | split | dsimp only

theorem pres_attendBwdBody {chk : HwCheck} {e : Env} (he : e.hostErr = []) (hc : isPersistent chk = false)
    (h : ((bit e.leg.p0 10 || bit e.leg.p0 11) && !ropeReady e.s e.island (e.desc e.leg.a).e0) = false) : Pres (attendBwdBody chk [] e) :=
  pres_withFree fun _ => pres_attendBwdWith he hc h

/-! ### The G-gate -/

theorem pres_noteRange {e : Env} {els : List Nat} : Pres (noteRange e els) := by
  unfold noteRange
  repeat' first
    | with_reducible exact pres_skip | with_reducible exact pres_nil | assumption | with_reducible exact pres_wr | with_reducible exact pres_addSat
    | with_reducible exact pres_raise | exact pres_modGate fun _ => ⟨rfl, rfl⟩ | with_reducible refine pres_whenP ?_
    | with_reducible refine pres_forEach fun _ => ?_ | with_reducible refine pres_cons ?_ ?_ | with_reducible refine pres_seq ?_ ?_
    | with_reducible refine pres_look fun _ _ => ?_ | split | dsimp only

theorem pres_gStatus {table : Nat} {e : Env} : Pres (gStatus table e) := by
  unfold gStatus
  repeat' first
    | with_reducible exact pres_skip | with_reducible exact pres_nil | assumption | with_reducible exact pres_wr
    | with_reducible refine pres_whenP ?_ | with_reducible refine pres_forEach fun _ => ?_ | with_reducible refine pres_cons ?_ ?_
    | with_reducible refine pres_seq ?_ ?_ | with_reducible refine pres_look fun _ _ => ?_ | split | dsimp only

theorem pres_advanceSeeds {e : Env} {n : Nat} : Pres (advanceSeeds e n) := by
  unfold advanceSeeds
  repeat' first
    | with_reducible exact pres_skip | with_reducible exact pres_nil | assumption | with_reducible exact pres_raise
    | exact pres_modUnits fun _ => rfl | with_reducible refine pres_whenP ?_ | with_reducible refine pres_forEach fun _ => ?_
    | with_reducible refine pres_cons ?_ ?_ | with_reducible refine pres_seq ?_ ?_ | with_reducible refine pres_look fun _ _ => ?_ | split
    | dsimp only

theorem pres_sampleBody {e : Env} (he : e.hostErr = []) : Pres (sampleBody e) := by
  unfold sampleBody
  repeat' first
    | with_reducible exact pres_skip | with_reducible exact pres_nil | assumption | exact pres_modUnits fun _ => rfl
    | with_reducible exact pres_emitRow ‹_› | with_reducible exact pres_noteRange | with_reducible exact pres_advanceSeeds
    | with_reducible refine pres_whenP ?_ | with_reducible refine pres_forEach fun _ => ?_ | with_reducible refine pres_cons ?_ ?_
    | with_reducible refine pres_seq ?_ ?_ | with_reducible refine pres_look fun _ _ => ?_ | split | dsimp only

theorem pres_emitRaw {e : Env} {operand : Nat} {d : Desc} {row : Nat} {r : RawRow} (he : e.hostErr = []) : Pres (emitRaw e operand d row r) := by
  unfold emitRaw
  repeat' first
    | with_reducible exact pres_skip | with_reducible exact pres_nil | assumption | with_reducible exact pres_emitBytes ‹_›
    | with_reducible refine pres_whenP ?_ | with_reducible refine pres_forEach fun _ => ?_ | with_reducible refine pres_cons ?_ ?_
    | with_reducible refine pres_seq ?_ ?_ | with_reducible refine pres_look fun _ _ => ?_ | split | dsimp only

theorem pres_gatherBody {e : Env} (he : e.hostErr = []) : Pres (gatherBody e) := by
  unfold gatherBody
  repeat' first
    | with_reducible exact pres_skip | with_reducible exact pres_nil | assumption | with_reducible exact pres_putDown
    | with_reducible exact pres_noteRange | with_reducible exact pres_emitRaw ‹_› | with_reducible exact pres_putFlags
    | with_reducible refine pres_whenP ?_ | with_reducible refine pres_forEach fun _ => ?_ | with_reducible refine pres_cons ?_ ?_
    | with_reducible refine pres_seq ?_ ?_ | with_reducible refine pres_look fun _ _ => ?_ | split | dsimp only

theorem pres_driftEcc {e : Env} {x : Leave} : Pres (driftEcc e x) := by
  unfold driftEcc
  repeat' first
    | with_reducible exact pres_skip | with_reducible exact pres_nil | assumption | with_reducible exact pres_wr | with_reducible exact pres_addSat
    | with_reducible exact pres_raise | with_reducible refine pres_whenP ?_ | with_reducible refine pres_forEach fun _ => ?_
    | with_reducible refine pres_cons ?_ ?_ | with_reducible refine pres_seq ?_ ?_ | with_reducible refine pres_look fun _ _ => ?_ | split
    | dsimp only

/-- A drift leg ends no run; a residue that mismatches twice is not among these. -/
theorem pres_driftLeg {e : Env} {chk : HwCheck} {a : List Contrib} {n c : Nat} {ok : Leave → Bool} {f : Leave → Prog} (hc : isPersistent chk = false)
    (h : ∀ x, Pres (f x)) : Pres (driftLeg e chk a n c ok f) := by
  unfold driftLeg
  rcases chk with _ | t | t
  case persistent => exact absurd hc (by simp [isPersistent])
  all_goals
    repeat' first
      | with_reducible exact pres_skip | with_reducible exact pres_nil | assumption | exact h _ | with_reducible exact pres_wr
      | with_reducible exact pres_raise | exact pres_modUnits fun _ => rfl | with_reducible exact pres_driftEcc
      | with_reducible exact pres_countUe | with_reducible exact pres_putFlags
      | with_reducible refine pres_whenP ?_ | with_reducible refine pres_forEach fun _ => ?_ | with_reducible refine pres_cons ?_ ?_
      | with_reducible refine pres_seq ?_ ?_ | with_reducible refine pres_look fun _ _ => ?_ | split | dsimp only

theorem pres_sendRow {e : Env} {x : Leave} : Pres (sendRow e x) := by
  unfold sendRow
  repeat' first
    | with_reducible exact pres_skip | with_reducible exact pres_nil | assumption | with_reducible exact pres_atomicAt
    | with_reducible exact pres_noteRange | with_reducible refine pres_whenP ?_ | with_reducible refine pres_forEach fun _ => ?_
    | with_reducible refine pres_cons ?_ ?_ | with_reducible refine pres_seq ?_ ?_ | with_reducible refine pres_look fun _ _ => ?_ | split
    | dsimp only

theorem pres_driftRows {e : Env} {chk : HwCheck} {a : List Contrib} (hc : isPersistent chk = false) : Pres (driftRows e chk a) :=
  pres_driftLeg hc fun _ => pres_sendRow

theorem pres_scatterBody {chk : HwCheck} {e : Env} (hc : isPersistent chk = false) : Pres (scatterBody chk e) :=
  pres_seq pres_noteRange (pres_driftRows hc)

theorem pres_aggregateBody {chk : HwCheck} {e : Env} (hc : isPersistent chk = false) : Pres (aggregateBody chk e) :=
  pres_seq pres_noteRange (pres_driftRows hc)

theorem pres_embPut {e : Env} {t : EmbTable} {i : Nat} {row : List Byte} (he : e.hostErr = []) : Pres (embPut e t i row) := by
  unfold embPut
  repeat' first
    | with_reducible exact pres_skip | with_reducible exact pres_nil | assumption | with_reducible exact pres_emitBytes ‹_›
    | with_reducible exact pres_emitWords ‹_› | with_reducible refine pres_whenP ?_ | with_reducible refine pres_forEach fun _ => ?_
    | with_reducible refine pres_cons ?_ ?_ | with_reducible refine pres_seq ?_ ?_ | with_reducible refine pres_look fun _ _ => ?_ | split
    | dsimp only

theorem pres_embGatherBody {e : Env} {t : EmbTable} (he : e.hostErr = [])
    (h2 : embRecord e.view (e.desc e.leg.a) (bits e.leg.p0 0 8) = some t) (h3 : gatherTableOk e t = true) : Pres (embGatherBody e) := by
  unfold embGatherBody withTable
  rw [h2]
  dsimp only
  rw [if_pos h3]
  repeat' first
    | with_reducible exact pres_skip | with_reducible exact pres_nil | assumption | with_reducible exact pres_atomicHbm
    | with_reducible exact pres_putDown | with_reducible exact pres_noteRange | with_reducible exact pres_embPut ‹_›
    | with_reducible exact pres_putFlags | with_reducible refine pres_whenP ?_ | with_reducible refine pres_forEach fun _ => ?_
    | with_reducible refine pres_cons ?_ ?_ | with_reducible refine pres_seq ?_ ?_ | with_reducible refine pres_look fun _ _ => ?_ | split
    | dsimp only

theorem pres_embCold {e : Env} {row : Nat} : Pres (embCold e row) := by
  unfold embCold
  repeat' first
    | with_reducible exact pres_skip | with_reducible exact pres_nil | assumption | with_reducible exact pres_wr | with_reducible exact pres_addSat
    | with_reducible exact pres_raise | exact pres_modGate fun _ => ⟨rfl, rfl⟩ | with_reducible refine pres_whenP ?_
    | with_reducible refine pres_forEach fun _ => ?_ | with_reducible refine pres_cons ?_ ?_ | with_reducible refine pres_seq ?_ ?_
    | with_reducible refine pres_look fun _ _ => ?_ | split | dsimp only

theorem pres_sendMaster {e : Env} {t : EmbTable} {x : Leave} : Pres (sendMaster e t x) := by
  unfold sendMaster
  repeat' first
    | with_reducible exact pres_skip | with_reducible exact pres_nil | assumption | with_reducible exact pres_atomicHbm
    | with_reducible exact pres_atomicPeer | with_reducible exact pres_noteRange | with_reducible exact pres_embCold
    | with_reducible refine pres_whenP ?_ | with_reducible refine pres_forEach fun _ => ?_ | with_reducible refine pres_cons ?_ ?_
    | with_reducible refine pres_seq ?_ ?_ | with_reducible refine pres_look fun _ _ => ?_ | split | dsimp only

theorem pres_embScatterBody {chk : HwCheck} {e : Env} {t : EmbTable} (hc : isPersistent chk = false)
    (h2 : embRecord e.view (e.desc e.leg.c) (bits e.leg.p0 0 8) = some t) (h3 : scatterTableOk e t = true) : Pres (embScatterBody chk e) := by
  unfold embScatterBody withTable
  rw [h2]
  dsimp only
  rw [if_pos h3]
  exact pres_seq pres_noteRange (pres_driftLeg hc fun _ => pres_sendMaster)

theorem pres_embRefreshRows {e : Env} {t : EmbTable} (he : e.hostErr = []) : ∀ (l : List Refresh) n, Pres (embRefreshRows e t l n) := by
  intro l
  induction l with
  | nil => exact fun _ => pres_advanceLanes
  | cons x r ih =>
    intro n
    unfold embRefreshRows
    dsimp only
    split
    · exact ih _
    · exact pres_seq (pres_forEach fun _ => pres_emitBytes he) (ih _)

theorem pres_embRefreshBody {e : Env} {t : EmbTable} (he : e.hostErr = [])
    (h2 : embRecord e.view (e.desc e.leg.a) (bits e.leg.p0 0 8) = some t) (h3 : refreshTableOk e t = true) : Pres (embRefreshBody e) := by
  unfold embRefreshBody withTable
  rw [h2]
  dsimp only
  rw [if_pos h3]
  exact pres_seq pres_noteRange (pres_whenP (pres_embRefreshRows he _ _))


end Sys2Proof.Machine
end

