-- ==== Sys2Proof/Laws/LegDone.lean ====
section
/-! SUPPORT. A leg that executes is carried out: the one law through which the completion of every leg is read. -/

namespace Sys2Proof.Machine

open Sys2Proof

set_option Elab.async false

/-! ### The leg at issue -/

/-- What is known of a leg that a gate may issue. -/
structure IsNext (s : State) (p g : Nat) (e : Env) : Prop where
  state : e.s = s
  piste : e.p = p
  gate : e.g = g
  hostErr : e.hostErr = []
  adders : e.adders = []
  driftErr : e.driftErr = []
  run : runOn s p = some e.run
  started : e.run.started = true
  failed : (pisteOf s p).failed = false
  img : e.img = runImg s p e.run
  next : standsAt s (gateIsland p g) = (e.idx, false)
  leg : e.leg = imgLeg e.img g e.idx

theorem legReady_next {s : State} {p g op : Nat} {e : Env} (h : legReady s p g op = some e) : IsNext s p g e := by
  unfold legReady at h
  split at h
  · exact absurd h (by simp)
  · next r hr =>
    dsimp only at h
    split at h
    · next hc =>
      cases h
      simp only [Bool.and_eq_true, Bool.not_eq_true', decide_eq_true_eq] at hc
      exact ⟨rfl, rfl, rfl, rfl, rfl, rfl, hr, hc.1.1.1.1.1.1.1, hc.1.1.1.1.1.1.2, rfl, congrArg (Prod.mk _) hc.1.2, rfl⟩
    · exact absurd h (by simp)

/-! ### Pistes but for their measures -/

/-- Pistes as they were but for the measures of R326. -/
def PistesKept (s t : State) : Prop :=
  ∀ q, pisteOf t q = { pisteOf s q with footScratch := (pisteOf t q).footScratch, footHbm := (pisteOf t q).footHbm }

theorem PistesKept.of_eq {s t : State} (h : t.pistes = s.pistes) : PistesKept s t := by
  intro q
  unfold pisteOf
  rw [h]

theorem PistesKept.trans {s t u : State} (h : PistesKept s t) (g : PistesKept t u) : PistesKept s u := by
  intro q
  rw [g q, h q]

theorem pisteOf_apply_piste (s : State) (i j : Nat) (x : PisteSt) : pisteOf ((Act.piste i x).apply s) j = if j = i then x else pisteOf s j := by
  unfold pisteOf
  simp only [apply_pistes]
  rw [smGet_set]

/-- The measures of R326 change nothing else of a piste. -/
theorem footOf_only (s : State) (p : Nat) (d : Desc) (n : Nat) (x : PisteSt) :
    footOf s p x d n = { x with footScratch := (footOf s p x d n).footScratch, footHbm := (footOf s p x d n).footHbm } := by
  unfold footOf
  split
  · rfl
  · dsimp only
    generalize [(d.region, d.offset, if n ≤ 1 then footEnd d else d.offset + n * (ceilDiv (footEnd d - d.offset) 4096 * 4096))] ++
      (if d.scaleMode = 1 then [(d.scaleRegion, d.scaleOffset, d.scaleOffset + blocksOf d)] else []) ++
      (if d.outEn = 1 then [(d.outRegion, d.outOffset, d.outOffset + 8 * blocksOf d)] else []) = l
    induction l generalizing x with
    | nil => rfl
    | cons z r ih =>
      simp only [List.foldl_cons]
      rw [ih]
      split
      · rfl
      · split <;> rfl

theorem foldFoot_only (s : State) (p : Nat) (f : OpUse → Desc) (k : OpUse → Nat) (l : List OpUse) (x : PisteSt) :
    ∃ a b, l.foldl (fun y u => footOf s p y (f u) (k u)) x = { x with footScratch := a, footHbm := b } := by
  induction l generalizing x with
  | nil => exact ⟨_, _, rfl⟩
  | cons u r ih =>
    obtain ⟨a, b, h⟩ := ih (footOf s p x (f u) (k u))
    refine ⟨a, b, ?_⟩
    rw [List.foldl_cons, h, footOf_only]

/-- Measuring a leg changes the measures of its piste alone. -/
theorem run_measure (e : Env) (us : List OpUse) (area : Nat) (s : State) :
    ∃ a b, (measure e us area).run s = (Act.piste e.p { pisteOf s e.p with footScratch := a, footHbm := b }).apply s := by
  unfold measure
  simp only [run_modPiste]
  obtain ⟨a, b, h⟩ := foldFoot_only e.s e.p (fun u => e.desc u.idx) (fun u => u.slots) (us.filter fun u => !u.cached) (pisteOf s e.p)
  rw [h]
  exact ⟨_, _, rfl⟩

/-! ### What a leg's start and effect leave -/

/-- A gate stands at a leg, the rest of the machine beside its datapath as it was. -/
structure AtLeg (s t : State) (i : Nat) (x : Nat × Bool) : Prop where
  core : coreView t = coreView s
  pistes : PistesKept s t
  at_ : standsAt t i = x

theorem AtLeg.pres {s t : State} {i : Nat} {x : Nat × Bool} {p : Prog} (h : AtLeg s t i x) (hp : Pres p) (hs : NoRefusal s) : AtLeg s (p.run t) i x := by
  have k := hp t (hs.of_core h.core)
  exact ⟨k.core.trans h.core, h.pistes.trans (PistesKept.of_eq k.pistes), (congrFun k.gates i).trans h.at_⟩

theorem AtLeg.measure {s t : State} {i : Nat} {x : Nat × Bool} (h : AtLeg s t i x) (e : Env) (us : List OpUse) (area : Nat) :
    AtLeg s ((measure e us area).run t) i x := by
  obtain ⟨a, b, hm⟩ := run_measure e us area t
  rw [hm]
  refine ⟨h.core, h.pistes.trans fun q => ?_, h.at_⟩
  rw [pisteOf_apply_piste]
  split
  · next hq => subst hq; rfl
  · rfl

theorem AtLeg.modGate {s t : State} {i n : Nat} {b : Bool} (h : AtLeg s t i (n, b)) (f : GateSt → GateSt) (c : Bool)
    (hf : ∀ x, (f x).next = x.next ∧ (f x).busy = c) : AtLeg s ((modGate i f).run t) i (n, c) := by
  refine ⟨h.core, h.pistes, ?_⟩
  unfold standsAt
  rw [run_modGate_gate, if_pos rfl, (hf _).1, (hf _).2]
  exact congrArg (fun x : Nat × Bool => (x.1, c)) h.at_

/-- A leg's start leaves the gate busy at the leg, and everything beside the datapath as it was. -/
theorem AtLeg.beginLeg {s t : State} {o : LegOp} {f : Env} {n : Nat} {b : Bool} (h : AtLeg s t f.island (n, b)) (hs : NoRefusal s)
    (hst : Pres (o.status f)) : AtLeg s ((beginLeg o f).run t) f.island (n, true) := by
  unfold Machine.beginLeg showLeg
  simp only [run_progs_cons, run_progs_nil]
  have h0 : AtLeg s ((o.status f).run ((wr (.gate f.p f.g) Reg.GATE.STATUS_LEG f.idx).run ((wr (.gate f.p f.g) Reg.GATE.STATUS_STATE 2).run t)))
      f.island (n, b) := ((h.pres pres_wr hs).pres pres_wr hs).pres hst hs
  have h1 := h0.measure f (o.uses f) (o.area f)
  have h2 := ((h1.pres (pres_holdPages (l := legAccess o f)) hs).pres (pres_countPoison (l := legDemand o f)) hs).pres (pres_useRings (e := f)) hs
  have h3 := h2.modGate (fun x => { x with took := [], need := 0, busy := true, rangeSeen := false, coldSeen := false }) true fun _ => ⟨rfl, rfl⟩
  exact h3

/-! ### Settling -/

/-- Changes of gates and units beside those of `legK`. -/
abbrev softK : List Kind := .gate :: .units :: legK

theorem soft_core {p : Prog} (h : Only softK p) (s : State) : coreView (p.run s) = coreView s := by
  have hm : (p.run s).mem.mapMem = s.mem.mapMem := h.memOf (m := .mapMem)
  have hf : (p.run s).mem.flash = s.mem.flash := h.memOf (m := .flash)
  have hr : (p.run s).mem.hostRefused = s.mem.hostRefused := h.flagOf (f := .hostRefused)
  unfold coreView
  rw [h.runs, h.sync, h.counts, h.mode, h.layout, h.rgn, h.host, h.fr, h.pins, h.pwr, h.fuses, h.sec, h.ports, hm, hf, hr]

theorem only_moveGate {p : Nat} {img : Img} {g : Nat} : Only softK (moveGate p img g) := by
  unfold moveGate
  dsimp only
  repeat' first
    | with_reducible exact only_skip | with_reducible exact only_modGate | with_reducible refine only_look fun _ => ?_
    | with_reducible refine only_whenP ?_ | with_reducible refine only_seq ?_ ?_ | split

theorem only_moveAll (q : Nat) : ∀ n, Only softK (moveAll q n)
  | 0 => only_skip
  | n + 1 => only_look fun _ => only_whenP (only_seq (only_forEach fun _ => only_moveGate) (only_moveAll q n))

theorem only_finishLeg {e : Env} : Only softK (finishLeg e) :=
  only_cons only_modGate (only_cons only_wr (only_cons only_modUnits (only_cons (only_whenP only_modUnits) only_nil)))

theorem only_settleLeg {p g : Nat} : Only softK (settleLeg p g) := by
  unfold settleLeg
  refine only_look fun _ => ?_
  split
  · exact only_skip
  · exact only_finishLeg

theorem only_settle {q : Nat} : Only softK (settle q) := only_look fun _ => only_seq (only_moveAll q _) (only_forEach fun _ => only_settleLeg)

theorem pres_moveGate {p : Nat} {img : Img} {g : Nat} : Pres (moveGate p img g) := by
  unfold moveGate
  dsimp only
  repeat' first
    | with_reducible exact pres_skip | exact pres_modGate fun _ => ⟨rfl, rfl⟩ | with_reducible refine pres_look fun _ _ => ?_
    | with_reducible refine pres_whenP ?_ | with_reducible refine pres_seq ?_ ?_ | split

theorem pres_moveAll (q : Nat) : ∀ n, Pres (moveAll q n)
  | 0 => pres_skip
  | n + 1 => pres_look fun _ _ => pres_whenP (pres_seq (pres_forEach fun _ => pres_moveGate) (pres_moveAll q n))

/-- A gate once its leg is complete; the others stand as they stood. -/
theorem gateOf_finishLeg (f : Env) (u : State) (j : Nat) :
    gateOf ((finishLeg f).run u) j = if j = f.island then { gateOf u f.island with
      next := f.idx + 1, waitOk := false, busy := false, took := [], need := 0, rangeSeen := false, coldSeen := false } else gateOf u j := by
  unfold finishLeg
  rw [run_progs_cons]
  have h : Only [.reg, .units] (progs [wr (.gate f.p f.g) Reg.GATE.STATUS_STATE 0, dropFetched f.p f.g f.idx,
      whenP f.leg.sigEn (modUnits fun u => { u with signalsDue := u.signalsDue ++ [{ piste := f.p, gate := f.g, leg := f.idx, sync := f.leg.ssync }] })]) :=
    only_cons only_wr (only_cons only_modUnits (only_cons (only_whenP only_modUnits) only_nil))
  have hg : ∀ v, gateOf ((progs [wr (.gate f.p f.g) Reg.GATE.STATUS_STATE 0, dropFetched f.p f.g f.idx,
      whenP f.leg.sigEn (modUnits fun u => { u with signalsDue := u.signalsDue ++ [{ piste := f.p, gate := f.g, leg := f.idx, sync := f.leg.ssync }] })]).run v) j =
      gateOf v j := by
    intro v
    unfold gateOf
    rw [h.gates]
  rw [hg, run_modGate_gate]

/-- The SIGNALs due once a leg is complete; results staged for rings stay. -/
theorem units_finishLeg (f : Env) (u : State) :
    ((finishLeg f).run u).units.signalsDue =
      u.units.signalsDue ++ (if f.leg.sigEn then [{ piste := f.p, gate := f.g, leg := f.idx, sync := f.leg.ssync }] else []) ∧
    ((finishLeg f).run u).units.outStage = u.units.outStage := by
  have hw : ∀ v : State, ((wr (.gate f.p f.g) Reg.GATE.STATUS_STATE 0).run v).units = v.units := fun v => (only_wr (K := [.reg])).units (s := v)
  unfold finishLeg dropFetched
  rw [run_progs_cons, run_progs_cons, run_progs_cons, run_progs_cons, run_progs_nil]
  cases f.leg.sigEn
  · rw [run_whenP_false, run_modUnits, apply_units, hw, run_modGate, apply_units]
    exact ⟨(List.append_nil _).symm, rfl⟩
  · rw [run_whenP_true, run_modUnits, apply_units, run_modUnits, apply_units, hw, run_modGate, apply_units]
    exact ⟨rfl, rfl⟩

section Settle

variable {e : Env}

/-- A leg carried out, before it is seen whether it is complete. -/
structure Stands (v : State) (e : Env) : Prop where
  at_ : standsAt v e.island = (e.idx, true)
  run : runOn v e.p = some e.run
  started : e.run.started = true
  failed : (pisteOf v e.p).failed = false
  img : e.img = runImg v e.p e.run
  leg : e.leg = imgLeg e.img e.g e.idx

theorem gateIsland_inj {p g q h : Nat} (hg : g < 12) (hh : h < 12) (e : gateIsland p g = gateIsland q h) : p = q ∧ g = h := by
  unfold gateIsland at e
  omega

theorem ringsHold_congr {s t : State} (h : t.units.outStage = s.units.outStage) (p g i : Nat) : ringsHold t p g i = ringsHold s p g i := by
  unfold ringsHold
  rw [h]

theorem Stands.congr {v w : State} (h : Stands v e) (hc : coreView w = coreView v) (hp : w.pistes = v.pistes) (ha : standsAt w e.island = standsAt v e.island) :
    Stands w e := by
  have hpi : ∀ q, pisteOf w q = pisteOf v q := fun q => by unfold pisteOf; rw [hp]
  simp only [coreView, Prod.mk.injEq] at hc
  have hr : runOn w e.p = runOn v e.p := by unfold runOn findRun; rw [hpi, hc.1]
  have hi : runImg w e.p e.run = runImg v e.p e.run := by
    unfold runImg residentImg mapRead
    rw [hc.2.2.2.2.2.2.2.2.2.2.2.2.2.1]
  exact ⟨ha.trans h.at_, hr.trans h.run, h.started, (congrArg (·.failed) (hpi _)).trans h.failed, h.img.trans hi.symm, h.leg⟩

/-- Another gate's completion leaves a gate as it was. -/
theorem settleLeg_other {v : State} {p g : Nat} (hg : g < 12) (he : e.g < 12) (hne : ¬(p = e.p ∧ g = e.g)) :
    gateOf ((settleLeg p g).run v) e.island = gateOf v e.island ∧
    (∀ x ∈ v.units.signalsDue, x ∈ ((settleLeg p g).run v).units.signalsDue) ∧
    ((settleLeg p g).run v).units.outStage = v.units.outStage := by
  unfold settleLeg
  rw [run_look]
  split
  · exact ⟨rfl, fun _ h => h, rfl⟩
  · next f hf =>
    have hfp : f.p = p ∧ f.g = g := by
      unfold carriedOut at hf
      cases hr : runOn v p with
      | none => rw [hr] at hf; simp at hf
      | some r =>
        rw [hr] at hf
        simp only [Option.bind_some] at hf
        split at hf
        · cases hf; exact ⟨rfl, rfl⟩
        · exact absurd hf (by simp)
    refine ⟨?_, fun x hx => ?_, (units_finishLeg f v).2⟩
    · rw [gateOf_finishLeg, if_neg]
      intro hi
      unfold Env.island at hi
      rw [hfp.1, hfp.2] at hi
      obtain ⟨a, b⟩ := gateIsland_inj he hg hi
      exact hne ⟨a.symm, b.symm⟩
    · rw [(units_finishLeg f v).1]
      exact List.mem_append_left _ hx

/-- A gate that is not busy with a leg completes none. -/
theorem settleLeg_idle {v : State} (h : (gateOf v e.island).busy = false) : (settleLeg e.p e.g).run v = v := by
  unfold settleLeg
  rw [run_look]
  have : carriedOut v e.p e.g = none := by
    unfold carriedOut
    cases runOn v e.p with
    | none => rfl
    | some r =>
      have h' : (gateOf v (gateIsland e.p e.g)).busy = false := h
      simp [h']
  rw [this]
  rfl

/-- The gate's own leg is complete, or stands back. -/
theorem settleLeg_own {v : State} (h : Stands v e) :
    LegOver ((settleLeg e.p e.g).run v) e ∨ (StandsBack v e ∧ (settleLeg e.p e.g).run v = v) := by
  have hx := h.at_
  unfold standsAt at hx
  simp only [Prod.mk.injEq] at hx
  unfold settleLeg
  rw [run_look]
  have hco : carriedOut v e.p e.g = if (gateOf v e.island).held.isEmpty && ringsHold v e.p e.g e.idx then
      some { s := v, p := e.p, g := e.g, run := e.run, img := e.img, idx := e.idx, leg := e.leg, got := [], fifo := [] } else none := by
    unfold carriedOut
    rw [h.run]
    simp only [Option.bind_some]
    rw [show gateIsland e.p e.g = e.island from rfl, hx.1, hx.2, h.started, h.failed, ← h.img, ← h.leg]
    simp
  rw [hco]
  split
  · next hn =>
    split at hn
    · exact absurd hn (by simp)
    · next hb =>
      refine Or.inr ⟨⟨hx.1, hx.2, ?_⟩, rfl⟩
      rw [Bool.and_eq_true, not_and_or] at hb
      rcases hb with hb | hb
      · exact Or.inl fun hh => hb (by rw [hh]; rfl)
      · exact Or.inr (by simpa using hb)
  · next f hf =>
    split at hf
    · cases hf
      have hgt := (gateOf_finishLeg { s := v, p := e.p, g := e.g, run := e.run, img := e.img, idx := e.idx, leg := e.leg, got := [], fifo := [] } v
        e.island).trans (if_pos rfl)
      refine Or.inl ⟨congrArg (·.next) hgt, congrArg (·.busy) hgt, congrArg (·.waitOk) hgt, fun hs => ?_⟩
      · rw [(units_finishLeg _ v).1]
        dsimp only
        rw [if_pos hs]
        exact List.mem_append_right _ (List.mem_singleton.mpr rfl)
    · exact absurd hf (by simp)

/-- What has become of a leg: it is complete, or it stands back in its place. -/
def Settled (v : State) (e : Env) : Prop := LegOver v e ∨ (StandsBack v e ∧ Stands v e)

/-- What has become of a leg stays so while others complete. -/
theorem Settled.next {v : State} {p g : Nat} (hg : g < 12) (he : e.g < 12) (h : Settled v e) : Settled ((settleLeg p g).run v) e := by
  by_cases hne : p = e.p ∧ g = e.g
  · obtain ⟨rfl, rfl⟩ := hne
    rcases h with h | h
    · rw [settleLeg_idle h.2.1]
      exact Or.inl h
    · rcases settleLeg_own h.2 with h' | h'
      · exact Or.inl h'
      · rw [h'.2]
        exact Or.inr h
  · obtain ⟨h1, h2, h3⟩ := settleLeg_other (e := e) (v := v) hg he hne
    rcases h with h | h
    · refine Or.inl ⟨?_, ?_, ?_, fun hs => h2 _ (h.2.2.2 hs)⟩
      · rw [h1]; exact h.1
      · rw [h1]; exact h.2.1
      · rw [h1]; exact h.2.2.1
    · refine Or.inr ⟨?_, h.2.congr (soft_core only_settleLeg v) (only_settleLeg.pistes (s := v)) ?_⟩
      · unfold StandsBack
        rw [h1, ringsHold_congr h3]
        exact h.1
      · unfold standsAt
        rw [h1]

/-- A gate whose leg has been carried out, among those that settle, has it complete or standing back. -/
theorem settled_list {l : List (Nat × Img × Nat)} (hl : ∀ x ∈ l, x.2.2 < 12) (he : e.g < 12) :
    ∀ {v : State}, Settled v e ∨ (Stands v e ∧ ∃ x ∈ l, x.1 = e.p ∧ x.2.2 = e.g) → Settled ((forEach l fun x => settleLeg x.1 x.2.2).run v) e := by
  induction l with
  | nil =>
    intro v h
    rcases h with h | ⟨-, x, hx, -⟩
    · exact h
    · exact absurd hx (by simp)
  | cons y r ih =>
    intro v h
    rw [run_forEach_cons]
    have hy := hl y (by simp)
    refine ih (fun x hx => hl x (by simp [hx])) ?_
    rcases h with h | ⟨hs, x, hx, h1, h2⟩
    · exact Or.inl (h.next hy he)
    · by_cases hne : y.1 = e.p ∧ y.2.2 = e.g
      · left
        rw [hne.1, hne.2]
        rcases settleLeg_own hs with h' | h'
        · exact Or.inl h'
        · rw [h'.2]
          exact Or.inr ⟨h'.1, hs⟩
      · right
        refine ⟨hs.congr (soft_core only_settleLeg v) (only_settleLeg.pistes (s := v)) ?_, x, ?_, h1, h2⟩
        · unfold standsAt
          rw [(settleLeg_other (e := e) (v := v) hy he hne).1]
        · rcases List.mem_cons.mp hx with rfl | hx
          · exact absurd ⟨h1, h2⟩ hne
          · exact hx

theorem movers_gate {s : State} {q : Nat} : ∀ x ∈ movers s q, x.2.2 < 12 := by
  intro x hx
  unfold movers at hx
  obtain ⟨k, -, hk⟩ := List.mem_flatMap.mp hx
  split at hk
  · exact absurd hk (by simp)
  · obtain ⟨g, hg, rfl⟩ := List.mem_map.mp hk
    exact List.mem_range.mp (List.mem_reverse.mp hg)

theorem Stands.mover {v : State} (h : Stands v e) (he : e.g < 12) : ∃ x ∈ movers v (e.p / 16), x.1 = e.p ∧ x.2.2 = e.g := by
  have hi : imgOn v e.p = some (runImg v e.p e.run) := by
    unfold imgOn
    rw [h.run]
    simp only [Option.bind_some, h.started, if_true]
  refine ⟨(e.p, runImg v e.p e.run, e.g), ?_, rfl, rfl⟩
  unfold movers
  refine List.mem_flatMap.mpr ⟨e.p % 16, List.mem_range.mpr (Nat.mod_lt _ (by decide)), ?_⟩
  have hp : 16 * (e.p / 16) + e.p % 16 = e.p := by omega
  rw [hp, hi]
  exact List.mem_map.mpr ⟨e.g, List.mem_reverse.mpr (List.mem_range.mpr he), rfl⟩

/-- Once entries have moved, a leg carried out is complete or stands back. -/
theorem Stands.settle {v : State} (h : Stands v e) (he : e.g < 12) (hn : NoRefusal v) : Settled ((settle (e.p / 16)).run v) e := by
  unfold Machine.settle
  rw [run_look, run_seq]
  have hm := pres_moveAll (e.p / 16) (moveRounds v) v hn
  exact settled_list movers_gate he (Or.inr ⟨h.congr hm.core hm.pistes (congrFun hm.gates _), h.mover he⟩)

end Settle

/-! ### Waiting for entries -/

/-- A gate that has carried out no leg stands at its next one while entries move. -/
theorem settle_waits {v : State} {e : Env} (h : standsAt v e.island = (e.idx, false)) (he : e.g < 12) (hn : NoRefusal v) :
    standsAt ((settle (e.p / 16)).run v) e.island = (e.idx, false) := by
  have hlist : ∀ (l : List (Nat × Img × Nat)), (∀ x ∈ l, x.2.2 < 12) → ∀ w, standsAt w e.island = (e.idx, false) →
      standsAt ((forEach l fun x => settleLeg x.1 x.2.2).run w) e.island = (e.idx, false) := by
    intro l
    induction l with
    | nil => exact fun _ w hw => hw
    | cons y r ih =>
      intro hl w hw
      rw [run_forEach_cons]
      refine ih (fun x hx => hl x (by simp [hx])) _ ?_
      by_cases hne : y.1 = e.p ∧ y.2.2 = e.g
      · rw [hne.1, hne.2, settleLeg_idle (congrArg Prod.snd hw)]
        exact hw
      · unfold standsAt
        rw [(settleLeg_other (e := e) (v := w) (hl y (by simp)) he hne).1]
        exact hw
  unfold settle
  rw [run_look, run_seq]
  have hm := pres_moveAll (e.p / 16) (moveRounds v) v hn
  exact hlist _ movers_gate _ ((congrFun hm.gates _).trans h)

/-- The leg as it is carried out, in the state it is carried out in. -/
theorem entered_at {s : State} {p g : Nat} {o : LegOp} {e : Env} (h : IsNext s p g e) (hg : g < 12) (hs : NoRefusal s) :
    AtLeg s (entered o e).s e.island (e.idx, false) ∧ (entered o e).p = e.p ∧ (entered o e).g = e.g ∧ (entered o e).idx = e.idx ∧
    (entered o e).hostErr = [] := by
  obtain ⟨rfl, rfl, rfl⟩ := (⟨h.state, h.piste, h.gate⟩ : e.s = s ∧ e.p = p ∧ e.g = g)
  have h0 : AtLeg e.s e.s e.island (e.idx, false) := ⟨rfl, PistesKept.of_eq rfl, h.next⟩
  unfold entered
  split
  · exact ⟨h0, rfl, rfl, rfl, h.hostErr⟩
  · refine ⟨?_, rfl, rfl, rfl, h.hostErr⟩
    show AtLeg e.s (waited o e) e.island (e.idx, false)
    unfold waited
    rw [run_progs_cons, run_progs_cons, run_progs_cons, run_progs_nil]
    have h1 := h0.pres (p := wantEntries o e) (pres_modGate fun _ => ⟨rfl, rfl⟩) hs
    have h2 := h1.pres (p := stallLeg e) pres_stallLeg hs
    refine ⟨(soft_core only_settle _).trans h2.core, h2.pistes.trans (PistesKept.of_eq only_settle.pistes), ?_⟩
    exact settle_waits h2.at_ hg (hs.of_core h2.core)

/-! ### A leg that executes -/

/-- A leg that executes, with an effect that ends no run, is carried out, and complete unless it stands back. -/
theorem leg_completes {s : State} {p g op : Nat} {o : LegOp} {e : Env} (h : Issues s p g op o e) (hg : g < 12) (hs : Pres (o.status (entered o e)))
    (hb : Pres (o.body (entered o e))) :
    (runLeg p g op [] o).run s = legResult o e ∧ (LegOver (legResult o e) e ∨ StandsBack (legResult o e) e) ∧ LegFrame s (legResult o e) := by
  obtain ⟨h1, h2, h3, h4, h5, h6, hk, ht0, h7, h8, hn⟩ := h
  have hx := legReady_next h1
  obtain ⟨ha, hfp, hfg, hfi, hfh⟩ := entered_at (o := o) hx hg hn
  obtain ⟨rfl, rfl, rfl⟩ := (⟨hx.state, hx.piste, hx.gate⟩ : e.s = s ∧ e.p = p ∧ e.g = g)
  have hisl : (entered o e).island = e.island := by unfold Env.island; rw [hfp, hfg]
  have hnf := hn.of_core ha.core
  -- the state in which the effect has been carried out
  have hbeg : AtLeg e.s ((beginLeg o (entered o e)).run (entered o e).s) e.island (e.idx, true) := by
    have := AtLeg.beginLeg (o := o) (f := entered o e) (s := e.s) (t := (entered o e).s) (n := e.idx) (b := false) (by rw [hisl]; exact ha) hn hs
    rwa [hisl] at this
  have hbody := hbeg.pres hb hn
  have hu : AtLeg e.s (effected o e) e.island (e.idx, true) := hbody.pres (p := stallLeg (entered o e)) pres_stallLeg hn
  have hnu := hn.of_core hu.core
  have hpi : ∀ {v : State}, PistesKept e.s v → (pisteOf v e.p).failed = false ∧ (pisteOf v e.p).run = (pisteOf e.s e.p).run := fun hv => by
    rw [hv e.p]; exact ⟨hx.failed, rfl⟩
  have hst : Stands (effected o e) e := by
    have hc := hu.core
    simp only [coreView, Prod.mk.injEq] at hc
    refine ⟨hu.at_, ?_, hx.started, (hpi hu.pistes).1, ?_, hx.leg⟩
    · have := hx.run
      unfold runOn findRun at this ⊢
      rw [(hpi hu.pistes).2, hc.1]
      exact this
    · rw [hx.img]
      unfold runImg residentImg mapRead
      rw [hc.2.2.2.2.2.2.2.2.2.2.2.2.2.1]
  -- the run of the command
  have hcarry : (carryOut o (entered o e)).run (entered o e).s = legResult o e := by
    unfold carryOut
    rw [h7, hfh, refusedIn_none hnf, if_neg (by simp)]
    dsimp only
    rw [h8, if_neg (by simp), run_progs_cons, run_progs_cons, run_progs_cons, run_progs_nil]
    unfold unlessFailed
    rw [run_look, hfp, (hpi hbody.pistes).1, Bool.not_false, run_whenP_true, run_seq]
    unfold legResult effected
    rfl
  have hrun : (runLeg e.p e.g op [] o).run e.s = legResult o e := by
    have hee : ({ e with s := e.s, hostErr := [], adders := [], driftErr := [] } : Env) = e := by
      have h1 := hx.hostErr
      have h2 := hx.adders
      have h3 := hx.driftErr
      cases e
      simp_all
    unfold runLeg
    rw [run_look, h1]
    dsimp only
    rw [h2, if_pos rfl, run_seq, run_forEach_nil]
    unfold unlessFailed
    rw [run_look, hx.failed, Bool.not_false, run_whenP_true, run_look, show hostErrors [] = [] from rfl, show adderErrors [] = [] from rfl,
      show driftErrors [] = [] from rfl, hee]
    unfold issueLeg
    rw [h3]
    dsimp only
    rw [h4, if_neg (by simp), h5]
    dsimp only
    rw [h6, if_neg (by simp), hk]
    dsimp only
    by_cases ht : o.takes e = 0
    · rw [if_pos ht, ← hcarry]
      unfold entered
      rw [if_pos ht]
    · have hw : (gateOf (waited o e) e.island).took.length = o.takes e := ht0.resolve_left ht
      have he : entered o e = legInputs { e with s := waited o e } := by unfold entered; rw [if_neg ht]
      rw [if_neg ht, run_progs_cons, run_progs_cons, run_progs_cons, run_progs_cons, run_progs_nil, run_look]
      have hwd : (settle (e.p / 16)).run ((stallLeg e).run ((wantEntries o e).run e.s)) = waited o e := by
        unfold waited
        rw [run_progs_cons, run_progs_cons, run_progs_cons, run_progs_nil]
      rw [hwd, hw, decide_eq_true rfl, run_whenP_true, ← he, ← hcarry]
      have hes : (entered o e).s = waited o e := by rw [he]; rfl
      rw [hes]
  refine ⟨hrun, ?_, ?_⟩
  · rcases hst.settle hg hnu with h | h
    · exact Or.inl h
    · exact Or.inr h.1
  · have hc : coreView (legResult o e) = coreView e.s := (soft_core only_settle _).trans hu.core
    have hp : PistesKept e.s (legResult o e) := hu.pistes.trans (PistesKept.of_eq only_settle.pistes)
    simp only [coreView, Prod.mk.injEq] at hc
    exact ⟨hp, hc.1, hc.2.1, hc.2.2.1, hc.2.2.2.1, hc.2.2.2.2.1, hc.2.2.2.2.2.1, hc.2.2.2.2.2.2.1, hc.2.2.2.2.2.2.2.1, hc.2.2.2.2.2.2.2.2.1,
      hc.2.2.2.2.2.2.2.2.2.1, hc.2.2.2.2.2.2.2.2.2.2.1, hc.2.2.2.2.2.2.2.2.2.2.2.1, hc.2.2.2.2.2.2.2.2.2.2.2.2.1, hc.2.2.2.2.2.2.2.2.2.2.2.2.2.1,
      hc.2.2.2.2.2.2.2.2.2.2.2.2.2.2.1⟩

end Sys2Proof.Machine
end

