-- ==== Sys2Proof/Laws/Memory.lean ====
section
/-! SUPPORT. Laws of the memories: what a write leaves at every byte. -/

namespace Sys2Proof.Machine

open Sys2Proof

set_option Elab.async false

/-! ### Lists of pieces -/

theorem smSetList_append {α : Type} [DecidableEq α] (d : Nat → α) (x y : List α) :
    ∀ (m : SMap α) (k : Nat), smSetList d m k (x ++ y) = smSetList d (smSetList d m k x) (k + x.length) y := by
  induction x with
  | nil => intro m k; rfl
  | cons v r ih =>
    intro m k
    simp only [List.cons_append, smSetList, List.length_cons]
    rw [ih, show k + (r.length + 1) = k + 1 + r.length by omega]

/-- Pieces of a run of bytes, one after the other, each within one unit. -/
inductive Pieces (u : Nat) : Nat → List Byte → List (Nat × List Byte) → Prop
  | nil (a : Nat) : Pieces u a [] []
  | cons (a : Nat) (x y : List Byte) (r : List (Nat × List Byte)) (hn : x ≠ []) (hx : a % u + x.length ≤ u) (hr : Pieces u (a + x.length) y r) :
      Pieces u a (x ++ y) ((a, x) :: r)

theorem cutAt_pieces (u : Nat) (hu : 0 < u) : ∀ (f a : Nat) (l : List Byte), a % u + l.length ≤ u * f → Pieces u a l (cutAt u f a l) := by
  intro f
  induction f with
  | zero =>
    intro a l h
    have : l = [] := List.eq_nil_of_length_eq_zero (by omega)
    subst this
    exact .nil a
  | succ f ih =>
    intro a l h
    cases l with
    | nil => exact .nil a
    | cons v r =>
      have hm := Nat.mod_lt a hu
      have hne : v :: r ≠ [] := by simp
      generalize hl : v :: r = l at *
      have hc : cutAt u (f + 1) a l = (a, l.take (u - a % u)) :: cutAt u f (a + (u - a % u)) (l.drop (u - a % u)) := by
        subst hl; rfl
      rw [hc]
      by_cases hs : l.length ≤ u - a % u
      · rw [List.take_of_length_le hs, List.drop_eq_nil_of_le hs]
        have hn : cutAt u f (a + (u - a % u)) [] = [] := by cases f <;> rfl
        rw [hn]
        have := Pieces.cons (u := u) a l [] [] hne (by omega) (.nil _)
        rwa [List.append_nil] at this
      · have hlen : (l.take (u - a % u)).length = u - a % u := by rw [List.length_take]; omega
        have hmod : (a + (u - a % u)) % u = 0 := by
          have : a + (u - a % u) = u * (a / u + 1) := by
            have := Nat.div_add_mod a u
            rw [Nat.mul_add]; omega
          rw [this, Nat.mul_mod_right]
        have := Pieces.cons (u := u) a (l.take (u - a % u)) (l.drop (u - a % u)) (cutAt u f (a + (u - a % u)) (l.drop (u - a % u)))
          (by intro h0; rw [h0] at hlen; simp at hlen; omega) (by omega) (by
            rw [hlen]
            refine ih _ _ ?_
            rw [hmod, List.length_drop]
            have : u * (f + 1) = u * f + u := by ring
            omega)
        rwa [List.take_append_drop] at this

theorem cut_pieces (u : Nat) (hu : 0 < u) (a : Nat) (l : List Byte) : Pieces u a l (cut u a l) := by
  unfold cut
  refine cutAt_pieces u hu _ _ _ ?_
  have h1 := Nat.mod_lt a hu
  have h2 := Nat.div_add_mod l.length u
  have h3 := Nat.mod_lt l.length hu
  have : u * (l.length / u + 2) = u * (l.length / u) + u + u := by ring
  omega

/-! ### HBM -/

theorem openAt_congr {s t : State} (h : t.stk.granules = s.stk.granules) (a : Nat) : openAt t a = openAt s a := by unfold openAt; rw [h]

/-- A write to HBM where no granule is open: the DRAM takes the bytes, and no more of the state changes but marks of poison. -/
theorem run_hbmPieces (poison : Bool) {a : Nat} {l : List Byte} {ps : List (Nat × List Byte)} (h : Pieces 64 a l ps) :
    ∀ s : State, (∀ i, i < l.length → openAt s (a + i) = none) →
      (forEach ps fun w => hbmWordWrite w.1 w.2 poison).run s =
        { s with
          mem := { s.mem with
            hbm := smSetList byteDefault s.mem.hbm a l
            hbmPoison := ((forEach ps fun w => hbmWordWrite w.1 w.2 poison).run s).mem.hbmPoison } } := by
  induction h with
  | nil a => intro s _; rfl
  | cons a x y r hn hx hr ih =>
    intro s ho
    obtain ⟨m, hstep⟩ : ∃ m, (hbmWordWrite a x poison).run s =
        { s with mem := { s.mem with hbm := smSetList byteDefault s.mem.hbm a x, hbmPoison := m } } := by
      have h0 : openAt s a = none := by
        have := ho 0 (by have := List.length_pos_of_ne_nil hn; simp; omega)
        simpa using this
      unfold hbmWordWrite
      rw [run_look]
      simp only [h0, run_seq, run_prim, run_whenP]
      by_cases hc : (x.length == 64 || poison) = true
      · rw [if_pos hc]; exact ⟨_, rfl⟩
      · rw [if_neg hc]; exact ⟨s.mem.hbmPoison, rfl⟩
    rw [run_forEach_cons, hstep, ih _ (fun i hi => ?_)]
    · rw [smSetList_append]
    · have := ho (x.length + i) (by simp; omega)
      rw [← Nat.add_assoc] at this
      exact this

/-- A write of HBM where no granule is open leaves its bytes in the DRAM and changes nothing else but marks of poison. -/
theorem run_hbmWrite (s : State) (a : Nat) (l : List Byte) (h : ∀ i, i < l.length → openAt s (a + i) = none) :
    (hbmWrite a l).run s =
      { s with mem := { s.mem with hbm := smSetList byteDefault s.mem.hbm a l, hbmPoison := ((hbmWrite a l).run s).mem.hbmPoison } } :=
  run_hbmPieces false (cut_pieces 64 (by omega) a l) s h

/-- A write of host memory leaves its bytes there and changes nothing else but marks of poison. -/
theorem run_hostWrite (s : State) (a : Nat) (l : List Byte) :
    (hostWrite a l).run s =
      { s with mem := { s.mem with host := smSetList byteDefault s.mem.host a l, hostPoison := ((hostWrite a l).run s).mem.hostPoison } } := by
  suffices h : ∀ {a : Nat} {l : List Byte} {ps : List (Nat × List Byte)}, Pieces 64 a l ps → ∀ s : State, ∃ m,
      (forEach ps fun w => Prog.seq (.prim (.bytes .host w.1 w.2)) (whenP (w.2.length == 64) (.prim (.flag .hostPoison (w.1 / 64) false)))).run s =
        { s with mem := { s.mem with host := smSetList byteDefault s.mem.host a l, hostPoison := m } } by
    obtain ⟨m, hm⟩ := h (cut_pieces 64 (by omega) a l) s
    unfold hostWrite
    rw [hm]
  intro a l ps h
  induction h with
  | nil a => intro s; exact ⟨_, rfl⟩
  | cons a x y r hn hx hr ih =>
    intro s
    rw [run_forEach_cons, run_seq, run_prim, run_whenP]
    split
    · obtain ⟨m, hm⟩ := ih (((Act.flag .hostPoison (a / 64) false).apply ((Act.bytes .host a x).apply s)))
      exact ⟨m, by rw [run_prim, hm, smSetList_append]; rfl⟩
    · obtain ⟨m, hm⟩ := ih ((Act.bytes .host a x).apply s)
      exact ⟨m, by rw [hm, smSetList_append]; rfl⟩

/-- A write of a scratchpad leaves its bytes there and changes nothing else but marks of poison. -/
theorem run_scratchWrite (s : State) (p off : Nat) (l : List Byte) :
    (scratchWrite p off l).run s =
      { s with mem := { s.mem with scratch := smSetList byteDefault s.mem.scratch (scratchKey p off) l, scratchPoison := ((scratchWrite p off l).run s).mem.scratchPoison } } := by
  suffices h : ∀ {a : Nat} {l : List Byte} {ps : List (Nat × List Byte)}, Pieces 128 a l ps → ∀ s : State, ∃ m,
      (forEach ps fun w => Prog.seq (.prim (.bytes .scratch w.1 w.2)) (whenP (w.2.length == 128) (.prim (.flag .scratchPoison (w.1 / 128) false)))).run s =
        { s with mem := { s.mem with scratch := smSetList byteDefault s.mem.scratch a l, scratchPoison := m } } by
    obtain ⟨m, hm⟩ := h (cut_pieces 128 (by omega) (scratchKey p off) l) s
    unfold scratchWrite
    rw [hm]
  intro a l ps h
  induction h with
  | nil a => intro s; exact ⟨_, rfl⟩
  | cons a x y r hn hx hr ih =>
    intro s
    rw [run_forEach_cons, run_seq, run_prim, run_whenP]
    split
    · obtain ⟨m, hm⟩ := ih (((Act.flag .scratchPoison (a / 128) false).apply ((Act.bytes .scratch a x).apply s)))
      exact ⟨m, by rw [run_prim, hm, smSetList_append]; rfl⟩
    · obtain ⟨m, hm⟩ := ih ((Act.bytes .scratch a x).apply s)
      exact ⟨m, by rw [hm, smSetList_append]; rfl⟩

end Sys2Proof.Machine
end

