-- ==== Sys2Proof/Laws/MemoryForm.lean ====
section
/-! SUPPORT. Laws of the memories' form: every change a program makes keeps the canonical form, and the state after reset has it. -/

namespace Sys2Proof.Machine

open Sys2Proof

set_option Elab.async false

theorem memPut_wf (m : Mem) (i : MemId) (x : SMap Byte) (h : Memory.wf m) (hx : SMapCanon byteDefault x) : Memory.wf (memPut m i x) := by
  obtain ⟨h1, h2, h3, h4, h5, h6, hr⟩ := h
  cases i
  · exact ⟨hx, h2, h3, h4, h5, h6, hr⟩
  · exact ⟨h1, hx, h3, h4, h5, h6, hr⟩
  · exact ⟨h1, h2, hx, h4, h5, h6, hr⟩
  · exact ⟨h1, h2, h3, hx, h5, h6, hr⟩
  · exact ⟨h1, h2, h3, h4, hx, h6, hr⟩
  · exact ⟨h1, h2, h3, h4, h5, hx, hr⟩

theorem flagPut_wf (m : Mem) (i : FlagId) (x : SMap Bool) (h : Memory.wf m) (hx : SMapCanon flagDefault x) : Memory.wf (flagPut m i x) := by
  obtain ⟨h1, h2, h3, h4, h5, h6, f1, f2, f3, f4, f5, f6, f7⟩ := h
  cases i
  · exact ⟨h1, h2, h3, h4, h5, h6, hx, f2, f3, f4, f5, f6, f7⟩
  · exact ⟨h1, h2, h3, h4, h5, h6, f1, hx, f3, f4, f5, f6, f7⟩
  · exact ⟨h1, h2, h3, h4, h5, h6, f1, f2, hx, f4, f5, f6, f7⟩
  · exact ⟨h1, h2, h3, h4, h5, h6, f1, f2, f3, hx, f5, f6, f7⟩
  · exact ⟨h1, h2, h3, h4, h5, h6, f1, f2, f3, f4, hx, f6, f7⟩
  · exact ⟨h1, h2, h3, h4, h5, h6, f1, f2, f3, f4, f5, hx, f7⟩
  · exact ⟨h1, h2, h3, h4, h5, h6, f1, f2, f3, f4, f5, f6, hx⟩

theorem memOf_wf (m : Mem) (i : MemId) (h : Memory.wf m) : SMapCanon byteDefault (memOf m i) := by
  obtain ⟨h1, h2, h3, h4, h5, h6, _⟩ := h
  cases i <;> assumption

theorem flagOf_wf (m : Mem) (i : FlagId) (h : Memory.wf m) : SMapCanon flagDefault (flagOf m i) := by
  obtain ⟨_, _, _, _, _, _, f1, f2, f3, f4, f5, f6, f7⟩ := h
  cases i <;> assumption

/-- Every primitive change keeps the memories in canonical form. -/
theorem apply_wf (a : Act) (s : State) (h : Memory.wf s.mem) : Memory.wf (a.apply s).mem := by
  cases a
  case bytes m a l => exact memPut_wf _ _ _ h (smCanon_setList byteDefault l _ _ (memOf_wf _ _ h))
  case flag f k b => exact flagPut_wf _ _ _ h (smCanon_set flagDefault _ _ _ (flagOf_wf _ _ h))
  all_goals (simp only [Act.apply]; first | exact h | (split <;> exact h))

/-- Every program keeps the memories in canonical form. -/
theorem run_wf (p : Prog) (s : State) (h : Memory.wf s.mem) : Memory.wf (p.run s).mem :=
  run_keeps_inv (fun s => Memory.wf s.mem) apply_wf p s h

/-- Memories with nothing written are in canonical form. -/
theorem empty_wf : Memory.wf Mem.empty := by decide

/-- The memories after reset are in canonical form. -/
theorem reset_wf : Memory.wf State.reset.mem := empty_wf

/-- A system reset keeps the memories in canonical form. -/
theorem systemMem_wf (m : Mem) (h : Memory.wf m) : Memory.wf (systemMem m) := by
  obtain ⟨-, hh, -, -, -, hf, -, hp, -, -, -, hr, -⟩ := h
  exact ⟨smCanon_nil _, hh, smCanon_nil _, smCanon_nil _, smCanon_nil _, hf, smCanon_nil _, hp, smCanon_nil _, smCanon_nil _, smCanon_nil _, hr,
    smCanon_nil _⟩

theorem closeGranules_wf (gs : List Granule) : ∀ m : Mem, Memory.wf m → Memory.wf (closeGranules gs m) := by
  induction gs with
  | nil => intro m h; exact h
  | cons g r ih =>
    intro m h
    refine ih _ ?_
    obtain ⟨h1, h2, h3, h4, h5, h6, f1, fr⟩ := h
    exact ⟨smCanon_setList _ _ _ _ h1, h2, h3, h4, h5, h6, smCanon_set _ _ _ _ f1, fr⟩

/-- A core reset keeps the memories in canonical form. -/
theorem coreMem_wf (s : State) (h : Memory.wf s.mem) : Memory.wf (coreMem s) := by
  obtain ⟨h1, h2, -, -, -, h6, f1, f2, -, -, -, f6, f7⟩ := closeGranules_wf s.stk.granules s.mem h
  exact ⟨h1, h2, smCanon_nil _, smCanon_nil _, smCanon_nil _, h6, f1, f2, smCanon_nil _, smCanon_nil _, smCanon_nil _, f6, f7⟩

end Sys2Proof.Machine
end

