-- ==== Sys2Proof/Laws/Registers.lean ====
section
/-! SUPPORT. Laws of the register file: pages and their addresses, fields of a word, and a field read after a write. -/

namespace Sys2Proof.Machine

open Sys2Proof

set_option Elab.async false

/-! ### Fields of a word -/

theorem putBits_lt (v lo w x n : Nat) (h : lo + w ≤ n) (hv : v < 2 ^ n) : putBits v lo w x < 2 ^ n := by
  obtain ⟨k, rfl⟩ := Nat.exists_eq_add_of_le h
  have h1 : v % 2 ^ lo < 2 ^ lo := Nat.mod_lt _ (by positivity)
  have h2 : x % 2 ^ w < 2 ^ w := Nat.mod_lt _ (by positivity)
  have h3 : v / 2 ^ (lo + w) < 2 ^ k := by
    rw [Nat.div_lt_iff_lt_mul (by positivity), ← pow_add, Nat.add_comm]; exact hv
  unfold putBits
  rw [pow_add 2 (lo + w) k]
  generalize v % 2 ^ lo = a at *
  generalize x % 2 ^ w = b at *
  generalize v / (2 ^ (lo + w)) = c at *
  rw [pow_add 2 lo w]
  generalize 2 ^ lo = A at *
  generalize 2 ^ w = B at *
  generalize 2 ^ k = C at *
  have : (b + 1) * A ≤ B * A := Nat.mul_le_mul_right _ h2
  rw [Nat.add_mul, Nat.one_mul, Nat.mul_comm B] at this
  have h5 : (c + 1) * (A * B) ≤ C * (A * B) := Nat.mul_le_mul_right _ h3
  rw [Nat.add_mul, Nat.one_mul, Nat.mul_comm C] at h5
  omega

theorem bits_putBits_same (v lo w x : Nat) : bits (putBits v lo w x) lo w = x % 2 ^ w := by
  unfold bits putBits
  have h1 : v % 2 ^ lo < 2 ^ lo := Nat.mod_lt _ (by positivity)
  have : v % 2 ^ lo + x % 2 ^ w * 2 ^ lo + v / 2 ^ (lo + w) * 2 ^ (lo + w) = v % 2 ^ lo + (x % 2 ^ w + v / 2 ^ (lo + w) * 2 ^ w) * 2 ^ lo := by
    rw [pow_add]; ring
  rw [this, Nat.add_mul_div_right _ _ (by positivity), Nat.div_eq_of_lt h1, Nat.zero_add, Nat.add_mul_mod_self_right, Nat.mod_mod]

theorem putBits_div_high (v lo w x k : Nat) (h : lo + w ≤ k) : putBits v lo w x / 2 ^ k = v / 2 ^ k := by
  obtain ⟨j, rfl⟩ := Nat.exists_eq_add_of_le h
  have hl : v % 2 ^ lo + x % 2 ^ w * 2 ^ lo < 2 ^ (lo + w) := by
    have h1 : v % 2 ^ lo < 2 ^ lo := Nat.mod_lt _ (by positivity)
    have h2 : x % 2 ^ w < 2 ^ w := Nat.mod_lt _ (by positivity)
    rw [pow_add]
    have h3 : (x % 2 ^ w + 1) * 2 ^ lo ≤ 2 ^ w * 2 ^ lo := Nat.mul_le_mul_right _ h2
    rw [Nat.add_mul, Nat.one_mul, Nat.mul_comm (2 ^ w)] at h3
    omega
  rw [pow_add, ← Nat.div_div_eq_div_mul, ← Nat.div_div_eq_div_mul]
  congr 1
  unfold putBits
  rw [Nat.add_mul_div_right _ _ (by positivity), Nat.div_eq_of_lt hl, Nat.zero_add]

theorem putBits_mod_low (v lo w x k : Nat) (h : k ≤ lo) : putBits v lo w x % 2 ^ k = v % 2 ^ k := by
  obtain ⟨j, rfl⟩ := Nat.exists_eq_add_of_le h
  unfold putBits
  have : v % 2 ^ (k + j) + x % 2 ^ w * 2 ^ (k + j) + v / 2 ^ (k + j + w) * 2 ^ (k + j + w)
      = v % 2 ^ (k + j) + (x % 2 ^ w * 2 ^ j + v / 2 ^ (k + j + w) * 2 ^ (j + w)) * 2 ^ k := by
    rw [pow_add, pow_add, pow_add, pow_add]; ring
  rw [this, Nat.add_mul_mod_self_right, Nat.mod_mod_of_dvd _ (pow_dvd_pow 2 (by omega))]

theorem bits_eq_mod_div (v lo w : Nat) : bits v lo w = v % 2 ^ (lo + w) / 2 ^ lo := by
  unfold bits
  rw [pow_add, Nat.mod_mul_right_div_self]

/-- Another field of the word is as before. -/
theorem bits_putBits_ne (v lo w x lo' w' : Nat) (h : lo + w ≤ lo' ∨ lo' + w' ≤ lo) : bits (putBits v lo w x) lo' w' = bits v lo' w' := by
  rcases h with h | h
  · unfold bits; rw [putBits_div_high _ _ _ _ _ h]
  · rw [bits_eq_mod_div, bits_eq_mod_div, putBits_mod_low _ _ _ _ _ h]

/-! ### Pages -/

/-- The instances a page has (R426, R427). -/
def pageOk : Page → Bool
  | .mod k => k < 5 | .rst => true | .pwr => true | .sec k => k < 3 | .mbx k => k < 2 | .syn k => k < 19 | .bar k => k < 2 | .hif => true
  | .ring r => r < 64 | .stk s => s < 12 | .bnd p => p < 8 | .tlm => true | .mode => true | .gns => true | .rgn k => k < 2
  | .pst p => p < 64 | .gate p g => p < 64 && g < 12 | .frn p => p < 64 | .dbg => true

theorem pageBase_frame (pg : Page) : pageBase pg = 4096 * (pageBase pg / 4096) := by
  cases pg <;> simp only [pageBase] <;> omega

theorem pageBase_add_mod (pg : Page) (o : Nat) (ho : o < 4096) : (pageBase pg + o) % 4096 = o := by
  have := pageBase_frame pg
  omega

theorem pageBase_add_div (pg : Page) (o : Nat) (ho : o < 4096) : (pageBase pg + o) / 4096 = pageBase pg / 4096 := by
  have := pageBase_frame pg
  omega

theorem pageRow_some (f base stride n i : Nat) (mk : Nat → Page) (hs : 0 < stride) (hi : i < n) (hf : f = base + stride * i) :
    pageRow f base stride n mk = some (mk i) := by
  subst hf
  unfold pageRow
  have h1 : base + stride * i - base = stride * i := by omega
  have h2 : stride * i < stride * n := (Nat.mul_lt_mul_left hs).mpr hi
  rw [h1, Nat.mul_mod_right, Nat.mul_div_cancel_left _ hs, if_pos ⟨by omega, by omega, rfl⟩]

theorem pageRow_none (f base stride n : Nat) (mk : Nat → Page) (h : f < base ∨ base + stride * n ≤ f) : pageRow f base stride n mk = none := by
  unfold pageRow
  rw [if_neg (by omega)]

/-- A page's addresses lie in that page. -/
theorem pageAt_base (pg : Page) (h : pageOk pg = true) (o : Nat) (ho : o < 4096) : pageAt (pageBase pg + o) = some pg := by
  have hd := pageBase_add_div pg o ho
  unfold pageAt
  simp only [hd]
  cases pg <;> simp only [pageOk, Bool.and_eq_true, decide_eq_true_eq] at h
  case mod k => interval_cases k <;> rfl
  case rst => rfl
  case pwr => rfl
  case sec k => interval_cases k <;> rfl
  case mbx k => interval_cases k <;> rfl
  case syn k => interval_cases k <;> rfl
  case bar k => interval_cases k <;> rfl
  case hif => rfl
  case ring r =>
    generalize hf : pageBase (.ring r) / 4096 = fr
    simp only [pageBase] at hf
    rw [if_neg (by omega), if_neg (by omega), if_neg (by omega), pageRow_none _ _ _ _ _ (by omega),
      pageRow_some fr 0x101 1 64 r _ (by omega) h (by omega)]
    rfl
  case stk k => interval_cases k <;> rfl
  case bnd k => interval_cases k <;> rfl
  case tlm => rfl
  case mode => rfl
  case gns => rfl
  case rgn k => interval_cases k <;> rfl
  case pst p =>
    generalize hf : pageBase (.pst p) / 4096 = fr
    simp only [pageBase] at hf
    have e1 : (fr - 0x1000) / 64 = p := by omega
    have e2 : (fr - 0x1000) % 64 = 0 := by omega
    rw [if_pos (by omega), e1, e2]
    rfl
  case gate p g =>
    obtain ⟨hp, hg⟩ := h
    generalize hf : pageBase (.gate p g) / 4096 = fr
    simp only [pageBase] at hf
    have e1 : (fr - 0x1000) / 64 = p := by omega
    have e2 : (fr - 0x1000) % 64 = g + 1 := by omega
    rw [if_pos (by omega), e1, e2]
    unfold pisteFrame
    rw [if_neg (by omega), if_pos (by omega)]
    rfl
  case frn p =>
    generalize hf : pageBase (.frn p) / 4096 = fr
    simp only [pageBase] at hf
    have e1 : (fr - 0x1000) / 64 = p := by omega
    have e2 : (fr - 0x1000) % 64 = 13 := by omega
    rw [if_pos (by omega), e1, e2]
    rfl
  case dbg => rfl

theorem fldAddr_eq (pg : Page) (f : Fld) (i : Nat) : fldAddr pg f i = pageBase pg + (f.off + f.stride * i) := by
  unfold fldAddr; omega

/-- Words of different pages have different addresses. -/
theorem fldAddr_ne_page (pg pg' : Page) (f f' : Fld) (i i' : Nat) (h : pageOk pg = true) (h' : pageOk pg' = true) (ho : f.off + f.stride * i < 4096)
    (ho' : f'.off + f'.stride * i' < 4096) (hne : pg ≠ pg') : fldAddr pg f i ≠ fldAddr pg' f' i' := by
  intro e
  rw [fldAddr_eq, fldAddr_eq] at e
  have a := pageAt_base pg h _ ho
  have b := pageAt_base pg' h' _ ho'
  rw [e, b] at a
  exact hne (Option.some.inj a).symm

/-- Words of different offsets have different addresses. -/
theorem fldAddr_ne_off (pg pg' : Page) (f f' : Fld) (i i' : Nat) (ho : f.off + f.stride * i < 4096)
    (ho' : f'.off + f'.stride * i' < 4096) (hne : f.off + f.stride * i ≠ f'.off + f'.stride * i') : fldAddr pg f i ≠ fldAddr pg' f' i' := by
  intro e
  rw [fldAddr_eq, fldAddr_eq] at e
  have a := pageBase_add_mod pg _ ho
  have b := pageBase_add_mod pg' _ ho'
  rw [e] at a
  omega

/-! ### Reading -/

/-- Whether a field of a page's word at offset `o` reads as the register file holds it: it is no field that another part of the state shows. -/
def plainField (pg : Page) (o : Nat) (f : Fld) : Bool :=
  pageOk pg && decide (o < 4096) && decide (f.lo + f.w ≤ 32) &&
  (if o < 0x100 then o != 0x8 && o != 0xC
   else match pg with
     | .mode => o != 0x100 && o != 0x120 && o != 0x150 && o != 0x154
     | .mod 2 => o != 0x100 && o != 0x104 && o != 0x108 && (o != 0x10C || decide (1 ≤ f.lo)) && o != 0x110
     | .syn k => decide (16 ≤ k) || decide (0x900 ≤ o)
     | .sec 0 => decide (o < 0x200) || decide (0x400 ≤ o)
     | .bnd p => decide (7 ≤ p) || o != 0x100 || decide (f.lo + f.w ≤ 9) || decide (10 ≤ f.lo)
     | .pst _ => o != 0x104 || decide (f.lo + f.w ≤ 16)
     | .ring _ => (o != 0x104 || decide (2 ≤ f.lo)) && o != 0x134
     | _ => true)

/-- Whether a field's instance is plain. -/
def plain (pg : Page) (f : Fld) (i : Nat := 0) : Bool := plainField pg (f.off + f.stride * i) f

theorem toNat_ofNat_putBits (w : Word) (lo n x : Nat) (h : lo + n ≤ 32) :
    (BitVec.ofNat 32 (putBits w.toNat lo n x)).toNat = putBits w.toNat lo n x := by
  rw [BitVec.toNat_ofNat, Nat.mod_eq_of_lt (putBits_lt _ _ _ _ _ h w.isLt)]

/-- A plain field reads as the register file holds it. -/
theorem rd_plain (s : State) (pg : Page) (f : Fld) (i : Nat) (h : plain pg f i = true) : rd s pg f i = rdRaw s pg f i := by
  unfold plain plainField at h
  simp only [Bool.and_eq_true, decide_eq_true_eq] at h
  obtain ⟨⟨⟨hok, ho⟩, _⟩, hv⟩ := h
  unfold rd rdRaw
  rw [fldAddr_eq]
  generalize f.off + f.stride * i = o at *
  unfold wordAt
  simp only [pageAt_base pg hok o ho, pageBase_add_mod pg o ho]
  by_cases hlo : o < 0x100
  · rw [if_pos hlo] at hv ⊢
    simp only [Bool.and_eq_true, bne_iff_ne, ne_eq] at hv
    unfold viewCommon
    rw [if_neg hv.1, if_neg hv.2]
  · rw [if_neg hlo] at hv ⊢
    unfold viewWord
    simp only [pageAt_base pg hok o ho, pageBase_add_mod pg o ho]
    split
    · next e =>
      obtain rfl := Option.some.inj e
      simp only [Bool.and_eq_true, bne_iff_ne, ne_eq] at hv
      obtain ⟨⟨⟨h1, h2⟩, h3⟩, h4⟩ := hv
      rw [if_neg h1, if_neg h2, if_neg h3, if_neg h4]
    · next e =>
      obtain rfl := Option.some.inj e
      simp only [Bool.and_eq_true, bne_iff_ne, ne_eq, Bool.or_eq_true, decide_eq_true_eq] at hv
      obtain ⟨⟨⟨⟨h1, h2⟩, h3⟩, h4⟩, h5⟩ := hv
      rw [if_neg h1, if_neg h2, if_neg h3, if_neg h5]
      split
      · rw [toNat_ofNat_putBits _ _ _ _ (by omega), bits_putBits_ne _ _ _ _ _ _ (by omega)]
      · rfl
    · next e =>
      obtain rfl := Option.some.inj e
      simp only [Bool.or_eq_true, decide_eq_true_eq] at hv
      rw [if_neg (by omega)]
    · next e =>
      obtain rfl := Option.some.inj e
      simp only [Bool.or_eq_true, decide_eq_true_eq] at hv
      rw [if_neg (by omega)]
    · next e =>
      obtain rfl := Option.some.inj e
      simp only [Bool.or_eq_true, decide_eq_true_eq, bne_iff_ne, ne_eq] at hv
      split
      · rw [toNat_ofNat_putBits _ _ _ _ (by omega), bits_putBits_ne _ _ _ _ _ _ (by omega)]
      · rfl
    · next e =>
      obtain rfl := Option.some.inj e
      simp only [Bool.or_eq_true, decide_eq_true_eq, bne_iff_ne, ne_eq] at hv
      split
      · rw [toNat_ofNat_putBits _ _ _ _ (by omega), bits_putBits_ne _ _ _ _ _ _ (by omega)]
      · rfl
    · next e =>
      obtain rfl := Option.some.inj e
      simp only [Bool.and_eq_true, bne_iff_ne, ne_eq, Bool.or_eq_true, decide_eq_true_eq] at hv
      obtain ⟨h1, h2⟩ := hv
      rw [if_neg h2]
      split
      · rw [BitVec.toNat_ofNat, Nat.mod_eq_of_lt (putBits_lt _ _ _ _ _ (by omega) (putBits_lt _ _ _ _ _ (by omega) (BitVec.isLt _))),
          bits_putBits_ne _ _ _ _ _ _ (by omega), bits_putBits_ne _ _ _ _ _ _ (by omega)]
      · rfl
    · rfl

/-! ### A field after a write -/

theorem regWord_wr (s : State) (pg : Page) (f : Fld) (v i a : Nat) :
    regWord ((wr pg f v i).run s) a =
      if a = fldAddr pg f i then BitVec.ofNat 32 (putBits (regWord s a).toNat f.lo f.w v) else regWord s a := by
  unfold regWord wr
  simp only [run_look, run_prim, Act.apply]
  rw [smGet_set]
  split
  · next h => subst h; rfl
  · rfl

/-- A field read back after its own write. -/
theorem rdRaw_wr_same (s : State) (pg : Page) (f : Fld) (v i : Nat) (h : f.lo + f.w ≤ 32) :
    rdRaw ((wr pg f v i).run s) pg f i = v % 2 ^ f.w := by
  unfold rdRaw
  rw [regWord_wr, if_pos rfl, toNat_ofNat_putBits _ _ _ _ h, bits_putBits_same]

/-- A field after the write of a field of another word. -/
theorem rdRaw_wr_word (s : State) (pg pg' : Page) (f f' : Fld) (v i i' : Nat) (h : fldAddr pg' f' i' ≠ fldAddr pg f i) :
    rdRaw ((wr pg f v i).run s) pg' f' i' = rdRaw s pg' f' i' := by
  unfold rdRaw
  rw [regWord_wr, if_neg h]

/-- A field after the write of another field of its word, or of another word. -/
theorem rdRaw_wr_field (s : State) (pg pg' : Page) (f f' : Fld) (v i i' : Nat) (hw : f.lo + f.w ≤ 32) (h : f.lo + f.w ≤ f'.lo ∨ f'.lo + f'.w ≤ f.lo) :
    rdRaw ((wr pg f v i).run s) pg' f' i' = rdRaw s pg' f' i' := by
  unfold rdRaw
  rw [regWord_wr]
  split
  · next e => rw [toNat_ofNat_putBits _ _ _ _ hw, bits_putBits_ne _ _ _ _ _ _ h]
  · rfl

/-- A field of the register file depends on the register file alone. -/
theorem rdRaw_congr {s t : State} (h : t.regs = s.regs) (pg : Page) (f : Fld) (i : Nat) : rdRaw t pg f i = rdRaw s pg f i := by
  unfold rdRaw regWord; rw [h]

/-- A plain field of a state with the same register file. -/
theorem rd_congr {s t : State} (h : t.regs = s.regs) (pg : Page) (f : Fld) (i : Nat) (hp : plain pg f i = true) : rd t pg f i = rd s pg f i := by
  rw [rd_plain _ _ _ _ hp, rd_plain _ _ _ _ hp, rdRaw_congr h]

/-- A plain field read back after its own write. -/
theorem rd_wr_same (s : State) (pg : Page) (f : Fld) (v i : Nat) (h : plain pg f i = true) : rd ((wr pg f v i).run s) pg f i = v % 2 ^ f.w := by
  rw [rd_plain _ _ _ _ h]
  refine rdRaw_wr_same s pg f v i ?_
  unfold plain plainField at h
  simp only [Bool.and_eq_true, decide_eq_true_eq] at h
  exact h.1.2

/-- A plain field after a write elsewhere: on another page, at another offset, or in other bits of the word. -/
theorem rd_wr_other (s : State) (pg pg' : Page) (f f' : Fld) (v i i' : Nat) (h : plain pg f i = true) (h' : plain pg' f' i' = true)
    (hne : pg ≠ pg' ∨ f.off + f.stride * i ≠ f'.off + f'.stride * i' ∨ f.lo + f.w ≤ f'.lo ∨ f'.lo + f'.w ≤ f.lo) :
    rd ((wr pg f v i).run s) pg' f' i' = rd s pg' f' i' := by
  rw [rd_plain _ _ _ _ h', rd_plain _ _ _ _ h']
  unfold plain plainField at h h'
  simp only [Bool.and_eq_true, decide_eq_true_eq] at h h'
  rcases hne with e | e | e
  · exact rdRaw_wr_word _ _ _ _ _ _ _ _ (fldAddr_ne_page _ _ _ _ _ _ h'.1.1.1 h.1.1.1 h'.1.1.2 h.1.1.2 (fun c => e c.symm))
  · exact rdRaw_wr_word _ _ _ _ _ _ _ _ (fldAddr_ne_off _ _ _ _ _ _ h'.1.1.2 h.1.1.2 (fun c => e c.symm))
  · exact rdRaw_wr_field _ _ _ _ _ _ _ _ h.1.2 e

end Sys2Proof.Machine
end

