-- ==== Sys2Proof/Tests/Slice0.lean ====
section
/-! SUPPORT. The model's own tests: ill-formed commands refused, single commands on small states, and, for each statement of the certificate that
has hypotheses, a theorem `meets_<statement>` that shows states and operands meeting them, clause by clause. -/

namespace Sys2Proof.Tests

open Sys2Proof Sys2Proof.Machine

set_option Elab.async false

/-! ### Small states -/

/-- The module once firmware reports ready. -/
def readyState : State := { State.reset with sec := { SecSt.cleared with phase := .ready } }

/-- The ready module after a few register fields have been set. -/
def withRegs (l : List Prog) : State := (progs l).run readyState

/-- `LetIn` as a test. -/
def letInB (s : State) (id : Ident) (a : Nat) (live : Bool) : Bool :=
  match pageAt a with
  | none => false
  | some pg => answers s id pg && allowed s id pg (a % 4096) true && !closed s id pg && (live || decide (a % 4096 < 0x100) || !offline s pg)

theorem letIn_of {s : State} {id : Ident} {a : Nat} {live : Bool} (h : letInB s id a live = true) : LetIn s id a live := by
  unfold letInB at h
  cases hp : pageAt a with
  | none => rw [hp] at h; simp at h
  | some pg =>
    rw [hp] at h
    simp only [Bool.and_eq_true, Bool.or_eq_true, Bool.not_eq_true', decide_eq_true_eq, or_assoc] at h
    obtain ⟨⟨⟨h1, h2⟩, h3⟩, h4⟩ := h
    exact ⟨pg, hp, h1, h2, h3, h4⟩

theorem letIn_all {s : State} {id : Ident} {live : Bool} {l : List Nat} (h : (l.all fun a => letInB s id a live) = true) :
    ∀ a ∈ l, LetIn s id a live := fun a ha => letIn_of (List.all_eq_true.mp h a ha)

/-- `LetRead` as a test. -/
def letReadB (s : State) (id : Ident) (a : Nat) : Bool :=
  match pageAt a with
  | none => false
  | some pg => answers s id pg && allowed s id pg (a % 4096) false

theorem letRead_of {s : State} {id : Ident} {a : Nat} (h : letReadB s id a = true) : LetRead s id a := by
  unfold letReadB at h
  cases hp : pageAt a with
  | none => rw [hp] at h; simp at h
  | some pg =>
    rw [hp] at h
    simp only [Bool.and_eq_true] at h
    exact ⟨pg, hp, h.1, h.2⟩

/-- `Refused` as a test. -/
def refusedB (s : State) (id : Ident) (a : Nat) (write : Bool) : Bool :=
  match pageAt a with
  | none => false
  | some pg => answers s id pg && !allowed s id pg (a % 4096) write

theorem refused_of {s : State} {id : Ident} {a : Nat} {write : Bool} (h : refusedB s id a write = true) : Refused s id a write := by
  unfold refusedB at h
  cases hp : pageAt a with
  | none => rw [hp] at h; simp at h
  | some pg =>
    rw [hp] at h
    simp only [Bool.and_eq_true, Bool.not_eq_true'] at h
    exact ⟨pg, hp, h.1, h.2⟩

/-! ### Legs -/

/-- A region entry valid with every right: base, location, node, 2^20 bytes. -/
def rgnAll (base loc node : Nat) : BitVec 128 := BitVec.ofNat 128 (base + loc * 2 ^ 48 + 7 * 2 ^ 50 + 2 ^ 55 + (2 ^ 20 - 1) * 2 ^ 64 + node * 2 ^ 112)

/-- A tensor of one I32 element in a region. -/
def oneWord (region offset : Nat) : List Byte := [BitVec.ofNat 8 region, 4] ++ leBytes 6 offset ++ List.replicate 8 0 ++ leBytes 8 1 ++ leBytes 8 1 ++ leBytes 8 1 ++ leBytes 8 1

/-- The bytes of a list that are not 0, at their addresses. -/
def sparse (a : Nat) (l : List Byte) : SMap Byte := (l.zipIdx.filter fun x => x.1 != 0).map fun x => (a + x.2, x.1)

/-- A map with one leg on gate `g`; descriptors 0 and 1 lie in HBM, 2 in the scratchpad, 3 on node 32. -/
def legMap (g : Nat) (leg : List Byte) : SMap Byte :=
  sparse (0x20 + 4 * g) (leBytes 4 (0x80 + 2 ^ 18)) ++ sparse 0x5C (leBytes 4 0x100) ++ sparse 0x80 leg ++
  [(0, 0), (0, 1024), (1, 1024), (2, 0)].zipIdx.flatMap fun x => sparse (0x100 + 64 * x.2) (oneWord x.1.1 x.1.2)

/-- A leg descriptor without wait and signal. -/
def legBytes (op a b c dst expd p0 p1 p2 : Nat) : List Byte :=
  leBytes 2 op ++ [0, 0] ++ leBytes 2 a ++ leBytes 2 b ++ leBytes 2 c ++ leBytes 2 dst ++ [0, 0, 0, 0] ++ leBytes 2 expd ++ [0, 0] ++ leBytes 4 p0 ++ leBytes 4 p1 ++ leBytes 4 p2

/-- A run that has started on a piste. -/
def oneRun (p : Nat) : RunRec :=
  { id := 0, cmd := none, order := 0, mask := 2 ^ p, left := 2 ^ p, slot := 0, epoch := 0, layout := 0, iter := 0, atBoundary := 2 ^ p, fixed := some 0,
    started := true, status := 0, island := 0, leg := 0, recUid := none, replay := false, relayout := false, replays := 0, held := none }

/-- Piste 0 in its run, whose gate `g` stands at a leg. -/
def legState (g : Nat) (leg : List Byte) : State :=
  { readyState with
    mem := { Mem.empty with
      mapMem := legMap g leg
      hbm := smSetList byteDefault [] 0 (leBytes 8 (1 + 0x20 * 2 ^ 32 + 2 ^ 52) ++ leBytes 8 0 ++ leBytes 8 0 ++ leBytes 8 3)
      scratch := [(12, 1), (13, 1)] }
    units := { UnitSt.empty with rope := [(gateIsland 0 (aGate 0), { pairs := 1, data := [0] })] }
    pistes := [(0, { PisteSt.idle with run := some 0, applied := [(0, rgnAll 0 0 0), (1, rgnAll 0 2 0), (2, rgnAll 0 3 32), (3, rgnAll 0 1 0)] })]
    runs := { runs := [oneRun 0], nextId := 1, topIter := none } }

/-- The gate's next leg issues, and more holds of it as it is carried out. -/
def issuesB (s : State) (p g op : Nat) (o : LegOp) (x : Env → Bool) : Bool :=
  match legReady s p g op with
  | none => false
  | some e =>
    waitDone e && (firstBad e (o.uses e)).isNone && !((o.uses e).any fun u => descEmpty (e.desc u.idx)) && (o.hold e).isNone &&
    (missingOf e.got (o.pre e)).isEmpty && (o.check e).isNone && (o.takes e == 0 || (gateOf (waited o e) e.island).took.length == o.takes e) &&
    (legMissing o (entered o e)).isEmpty && !legWaits o (entered o e) && s.mem.hostRefused.isEmpty && x (entered o e)

theorem issues_of {s : State} {p g op : Nat} {o : LegOp} {x : Env → Bool} (h : issuesB s p g op o x = true) :
    ∃ e, Issues s p g op o e ∧ x (entered o e) = true := by
  unfold issuesB at h
  cases hl : legReady s p g op with
  | none => rw [hl] at h; simp at h
  | some e =>
    rw [hl] at h
    simp only [Bool.and_eq_true, Option.isNone_iff_eq_none, Bool.not_eq_true', Bool.or_eq_true, beq_iff_eq, List.isEmpty_iff] at h
    obtain ⟨⟨⟨⟨⟨⟨⟨⟨⟨⟨h1, h2⟩, h3⟩, h4⟩, h5⟩, h6⟩, h7⟩, h8⟩, h9⟩, h10⟩, hx⟩ := h
    exact ⟨e, ⟨hl, h1, h2, h3, h4, h5, h6, h7, h8, h9, fun a => by unfold hostRefuses; rw [h10]; rfl⟩, hx⟩

theorem any_of {α : Type} {o : Option α} {p : α → Bool} (h : o.any p = true) : ∃ t, o = some t ∧ p t = true := by
  cases o with
  | none => simp at h
  | some t => exact ⟨t, rfl, h⟩

/-! Legs that meet the hypotheses of MatrixLegsComplete. -/

theorem matmul_issues : ∃ s e, Issues s 0 (mGate 0) 1 (opMatmul .pass []) e ∧ (let f := entered (opMatmul .pass []) e; (compares (matLeg f) (some (checkWords f)) (placesFor (matLeg f) (allBlocks (matLeg f)))).2 = []) :=
  have ⟨e, h, x⟩ := issues_of (s := legState (mGate 0) (legBytes 1 0 1 2 0 1 0 0 0)) (o := (opMatmul .pass [])) (x := fun f => decide ((compares (matLeg f) (some (checkWords f)) (placesFor (matLeg f) (allBlocks (matLeg f)))).2 = [])) (by decide +kernel)
  ⟨_, e, h, of_decide_eq_true x⟩

theorem matmul_transient_issues : ∃ s e, Issues s 0 (mGate 0) 1 (opMatmul (.transient 7) []) e ∧ (let f := entered (opMatmul (.transient 7) []) e; (compares (matLeg f) (some (checkWords f)) (placesFor (matLeg f) (allBlocks (matLeg f)))).2 = []) :=
  have ⟨e, h, x⟩ := issues_of (s := legState (mGate 0) (legBytes 1 0 1 2 0 1 0 0 0)) (o := (opMatmul (.transient 7) [])) (x := fun f => decide ((compares (matLeg f) (some (checkWords f)) (placesFor (matLeg f) (allBlocks (matLeg f)))).2 = [])) (by decide +kernel)
  ⟨_, e, h, of_decide_eq_true x⟩

theorem matmulInspect_issues : ∃ s e, Issues s 0 (mGate 0) 2 (opMatmulInspect .pass []) e :=
  have ⟨e, h, _⟩ := issues_of (s := legState (mGate 0) (legBytes 2 0 1 NONE 0 1 0 0 0)) (o := (opMatmulInspect .pass [])) (x := fun _ => true) (by decide +kernel)
  ⟨_, e, h⟩

/-! Legs that meet the hypotheses of AttentionLegsComplete. -/

theorem attend_issues : ∃ s e, Issues s 0 (aGate 0) 1 (opAttend .pass []) e ∧ (let f := entered (opAttend .pass []) e; ((bit f.leg.p0 10 || bit f.leg.p0 11) && !ropeReady f.s f.island (f.desc f.leg.a).e0) = false) :=
  have ⟨e, h, x⟩ := issues_of (s := legState (aGate 0) (legBytes 1 0 1 NONE 0 0 0 0 0)) (o := (opAttend .pass [])) (x := fun f => decide (((bit f.leg.p0 10 || bit f.leg.p0 11) && !ropeReady f.s f.island (f.desc f.leg.a).e0) = false)) (by decide +kernel)
  ⟨_, e, h, of_decide_eq_true x⟩

theorem attendPaged_issues : ∃ s e, Issues s 0 (aGate 0) 2 (opAttendPaged .pass []) e ∧ (let f := entered (opAttendPaged .pass []) e; (bit f.leg.p0 10 && !ropeReady f.s f.island (f.desc f.leg.a).e0) = false ∧ (pagedScan f (pagedGood f)).2 = []) :=
  have ⟨e, h, x⟩ := issues_of (s := legState (aGate 0) (legBytes 2 0 1 0 0 0 0 0 0)) (o := (opAttendPaged .pass [])) (x := fun f => decide ((bit f.leg.p0 10 && !ropeReady f.s f.island (f.desc f.leg.a).e0) = false ∧ (pagedScan f (pagedGood f)).2 = [])) (by decide +kernel)
  ⟨_, e, h, of_decide_eq_true x⟩

theorem attendBwd_issues : ∃ s e, Issues s 0 (aGate 1) 3 (opAttendBwd .pass []) e ∧ (let f := entered (opAttendBwd .pass []) e; ((bit f.leg.p0 10 || bit f.leg.p0 11) && !ropeReady f.s f.island (f.desc f.leg.a).e0) = false) :=
  have ⟨e, h, x⟩ := issues_of (s := legState (aGate 1) (legBytes 3 0 1 0 0 0 0 0 0)) (o := (opAttendBwd .pass [])) (x := fun f => decide (((bit f.leg.p0 10 || bit f.leg.p0 11) && !ropeReady f.s f.island (f.desc f.leg.a).e0) = false)) (by decide +kernel)
  ⟨_, e, h, of_decide_eq_true x⟩

theorem kvAppend_issues : ∃ s e, Issues s 0 (aGate 0) 4 opKvAppend e ∧ (let f := entered opKvAppend e; (bit f.leg.p0 11 && decide ((ropeOf f.s f.island).pairs < 16)) = false ∧ appendFault f = none) :=
  have ⟨e, h, x⟩ := issues_of (s := legState (aGate 0) (legBytes 4 0 1 0 2 NONE 0 0 0)) (o := opKvAppend) (x := fun f => decide ((bit f.leg.p0 11 && decide ((ropeOf f.s f.island).pairs < 16)) = false ∧ appendFault f = none)) (by decide +kernel)
  ⟨_, e, h, of_decide_eq_true x⟩

theorem ropeLoad_issues : ∃ s e, Issues s 0 (aGate 0) 5 opRopeLoad e ∧ (let f := entered opRopeLoad e; ((ropeVals f).any fun v => (ropeStep v).isNone) = false) :=
  have ⟨e, h, x⟩ := issues_of (s := legState (aGate 0) (legBytes 5 0 NONE NONE NONE NONE 0 0 0)) (o := opRopeLoad) (x := fun f => decide (((ropeVals f).any fun v => (ropeStep v).isNone) = false)) (by decide +kernel)
  ⟨_, e, h, of_decide_eq_true x⟩

theorem rotate_issues : ∃ s e, Issues s 0 (aGate 0) 6 opRotate e ∧ (let f := entered opRotate e; ropeReady f.s f.island (f.desc f.leg.a).e0 = true) :=
  have ⟨e, h, x⟩ := issues_of (s := legState (aGate 0) (legBytes 6 0 NONE NONE 1 NONE 0 0 0)) (o := opRotate) (x := fun f => decide (ropeReady f.s f.island (f.desc f.leg.a).e0 = true)) (by decide +kernel)
  ⟨_, e, h, of_decide_eq_true x⟩

/-! Legs that meet the hypotheses of VectorLegsComplete. -/

theorem elemwise_issues : ∃ s e, Issues s 0 (vGate 0) 1 (opElemwise .pass []) e :=
  have ⟨e, h, _⟩ := issues_of (s := legState (vGate 0) (legBytes 1 0 1 NONE 2 NONE 0 0 0)) (o := (opElemwise .pass [])) (x := fun _ => true) (by decide +kernel)
  ⟨_, e, h⟩

theorem reduceVector_issues : ∃ s e, Issues s 0 (vGate 1) 2 (opReduceVector .pass []) e :=
  have ⟨e, h, _⟩ := issues_of (s := legState (vGate 1) (legBytes 2 0 NONE NONE 1 NONE 0 0 0)) (o := (opReduceVector .pass [])) (x := fun _ => true) (by decide +kernel)
  ⟨_, e, h⟩

theorem norm_issues : ∃ s e, Issues s 0 (vGate 2) 3 (opNorm .pass []) e :=
  have ⟨e, h, _⟩ := issues_of (s := legState (vGate 2) (legBytes 3 0 NONE NONE 1 NONE 0 0 0)) (o := (opNorm .pass [])) (x := fun _ => true) (by decide +kernel)
  ⟨_, e, h⟩

theorem smNormalise_issues : ∃ s e, Issues s 0 (vGate 0) 4 (opSmNormalise .pass []) e :=
  have ⟨e, h, _⟩ := issues_of (s := legState (vGate 0) (legBytes 4 0 1 NONE 2 NONE 0 0 0)) (o := (opSmNormalise .pass [])) (x := fun _ => true) (by decide +kernel)
  ⟨_, e, h⟩

theorem smMerge_issues : ∃ s e, Issues s 0 (vGate 0) 5 (opSmMerge .pass []) e :=
  have ⟨e, h, _⟩ := issues_of (s := legState (vGate 0) (legBytes 5 0 1 2 0 NONE 0 0 0)) (o := (opSmMerge .pass [])) (x := fun _ => true) (by decide +kernel)
  ⟨_, e, h⟩

theorem kl_issues : ∃ s e, Issues s 0 (vGate 0) 6 (opKl .pass []) e :=
  have ⟨e, h, _⟩ := issues_of (s := legState (vGate 0) (legBytes 6 0 1 NONE 2 NONE 0 0 0)) (o := (opKl .pass [])) (x := fun _ => true) (by decide +kernel)
  ⟨_, e, h⟩

theorem optUpdate_issues : ∃ s e, Issues s 0 (vGate 0) 7 (opOptUpdate .pass []) e :=
  have ⟨e, h, _⟩ := issues_of (s := legState (vGate 0) (legBytes 7 0 1 NONE 1 NONE 0 0 0)) (o := (opOptUpdate .pass [])) (x := fun _ => true) (by decide +kernel)
  ⟨_, e, h⟩

theorem convert_issues : ∃ s e, Issues s 0 (vGate 0) 8 (opConvert .pass []) e :=
  have ⟨e, h, _⟩ := issues_of (s := legState (vGate 0) (legBytes 8 0 NONE NONE 1 NONE 0 0 0)) (o := (opConvert .pass [])) (x := fun _ => true) (by decide +kernel)
  ⟨_, e, h⟩

theorem compress24_issues : ∃ s e, Issues s 0 (vGate 0) 9 (opCompress24 .pass []) e :=
  have ⟨e, h, _⟩ := issues_of (s := legState (vGate 0) (legBytes 9 0 NONE NONE 1 NONE 0 0 0)) (o := (opCompress24 .pass [])) (x := fun _ => true) (by decide +kernel)
  ⟨_, e, h⟩

theorem cacheFill_issues : ∃ s e, Issues s 0 (vGate 0) 10 (opCacheFill .pass []) e :=
  have ⟨e, h, _⟩ := issues_of (s := legState (vGate 0) (legBytes 10 0 NONE NONE 1 NONE 0 0 8)) (o := (opCacheFill .pass [])) (x := fun _ => true) (by decide +kernel)
  ⟨_, e, h⟩

theorem cacheSpill_issues : ∃ s e, Issues s 0 (vGate 0) 11 (opCacheSpill .pass []) e :=
  have ⟨e, h, _⟩ := issues_of (s := legState (vGate 0) (legBytes 11 0 NONE NONE 1 NONE 0 0 1)) (o := (opCacheSpill .pass [])) (x := fun _ => true) (by decide +kernel)
  ⟨_, e, h⟩

theorem sketch_issues : ∃ s e, Issues s 0 (vGate 0) 12 (opSketch .pass []) e :=
  have ⟨e, h, _⟩ := issues_of (s := legState (vGate 0) (legBytes 12 0 NONE NONE 1 NONE 0 0 0)) (o := (opSketch .pass [])) (x := fun _ => true) (by decide +kernel)
  ⟨_, e, h⟩

/-! Legs that meet the hypotheses of GraphLegsComplete. -/

theorem sample_issues : ∃ s e, Issues s 0 0 1 opSample e :=
  have ⟨e, h, _⟩ := issues_of (s := legState 0 (legBytes 1 0 1 NONE 2 NONE 0 0 0)) (o := opSample) (x := fun _ => true) (by decide +kernel)
  ⟨_, e, h⟩

theorem gather_issues : ∃ s e, Issues s 0 0 2 opGather e :=
  have ⟨e, h, _⟩ := issues_of (s := legState 0 (legBytes 2 0 1 NONE 2 NONE 0 0 0)) (o := opGather) (x := fun _ => true) (by decide +kernel)
  ⟨_, e, h⟩

theorem scatterAdd_issues : ∃ s e, Issues s 0 0 3 (opScatterAdd .pass) e :=
  have ⟨e, h, _⟩ := issues_of (s := legState 0 (legBytes 3 0 1 NONE 2 NONE 0 0 0)) (o := (opScatterAdd .pass)) (x := fun _ => true) (by decide +kernel)
  ⟨_, e, h⟩

theorem aggregate_issues : ∃ s e, Issues s 0 0 4 (opAggregate .pass) e :=
  have ⟨e, h, _⟩ := issues_of (s := legState 0 (legBytes 4 0 1 2 0 NONE 0 0 0)) (o := (opAggregate .pass)) (x := fun _ => true) (by decide +kernel)
  ⟨_, e, h⟩

theorem embGather_issues : ∃ s e t, Issues s 0 0 5 opEmbGather e ∧
    (let f := entered opEmbGather e; embRecord f.view (f.desc f.leg.a) (bits f.leg.p0 0 8) = some t ∧ gatherTableOk f t = true) :=
  have ⟨e, h, x⟩ := issues_of (s := legState 0 (legBytes 5 0 1 NONE 2 NONE 256 0 0)) (o := opEmbGather)
    (x := fun f => (embRecord f.view (f.desc f.leg.a) (bits f.leg.p0 0 8)).any (gatherTableOk f)) (by decide +kernel)
  have ⟨t, y, z⟩ := any_of x
  ⟨_, e, t, h, y, z⟩

theorem embScatter_issues : ∃ s e t, Issues s 0 0 6 (opEmbScatter .pass) e ∧
    (let f := entered (opEmbScatter .pass) e; embRecord f.view (f.desc f.leg.c) (bits f.leg.p0 0 8) = some t ∧ scatterTableOk f t = true) :=
  have ⟨e, h, x⟩ := issues_of (s := legState 0 (legBytes 6 1 1 0 NONE NONE 0 0 0)) (o := (opEmbScatter .pass))
    (x := fun f => (embRecord f.view (f.desc f.leg.c) (bits f.leg.p0 0 8)).any (scatterTableOk f)) (by decide +kernel)
  have ⟨t, y, z⟩ := any_of x
  ⟨_, e, t, h, y, z⟩

theorem embRefresh_issues : ∃ s e t, Issues s 0 0 7 opEmbRefresh e ∧
    (let f := entered opEmbRefresh e; embRecord f.view (f.desc f.leg.a) (bits f.leg.p0 0 8) = some t ∧ refreshTableOk f t = true) :=
  have ⟨e, h, x⟩ := issues_of (s := legState 0 (legBytes 7 0 1 NONE NONE NONE 0 0 0)) (o := opEmbRefresh)
    (x := fun f => (embRecord f.view (f.desc f.leg.a) (bits f.leg.p0 0 8)).any (refreshTableOk f)) (by decide +kernel)
  have ⟨t, y, z⟩ := any_of x
  ⟨_, e, t, h, y, z⟩

/-! Legs that meet the hypotheses of ExchangeLegsComplete. -/

theorem store_issues : ∃ s e, Issues s 0 11 1 opStore e :=
  have ⟨e, h, _⟩ := issues_of (s := legState 11 (legBytes 1 0 NONE NONE 1 NONE 0 0 0)) (o := opStore) (x := fun _ => true) (by decide +kernel)
  ⟨_, e, h⟩

theorem atomicAdd_issues : ∃ s e, Issues s 0 11 2 opAtomicAdd e :=
  have ⟨e, h, _⟩ := issues_of (s := legState 11 (legBytes 2 0 NONE NONE 1 NONE 0 0 0)) (o := opAtomicAdd) (x := fun _ => true) (by decide +kernel)
  ⟨_, e, h⟩

theorem reduce_issues : ∃ s e, Issues s 0 11 3 (opReduce .pass) e :=
  have ⟨e, h, _⟩ := issues_of (s := legState 11 (legBytes 3 0 1 NONE 1 NONE 0 0 0)) (o := (opReduce .pass)) (x := fun _ => true) (by decide +kernel)
  ⟨_, e, h⟩

theorem normPack_issues : ∃ s e, Issues s 0 11 4 (opNormX 0 packBody) e ∧ (let f := entered (opNormX 0 packBody) e; bits f.leg.p0 0 2 = 0) :=
  have ⟨e, h, x⟩ := issues_of (s := legState 11 (legBytes 4 NONE NONE NONE 0 NONE 0 0 0)) (o := (opNormX 0 packBody)) (x := fun f => decide (bits f.leg.p0 0 2 = 0)) (by decide +kernel)
  ⟨_, e, h, of_decide_eq_true x⟩

theorem normUnpack_issues : ∃ s e, Issues s 0 11 4 (opNormX 1 unpackBody) e ∧ (let f := entered (opNormX 1 unpackBody) e; bits f.leg.p0 0 2 = 1) :=
  have ⟨e, h, x⟩ := issues_of (s := legState 11 (legBytes 4 0 NONE NONE NONE NONE 1 0 0)) (o := (opNormX 1 unpackBody)) (x := fun f => decide (bits f.leg.p0 0 2 = 1)) (by decide +kernel)
  ⟨_, e, h, of_decide_eq_true x⟩

theorem normReturn_issues : ∃ s e, Issues s 0 11 4 (opNormX 2 returnBody) e ∧ (let f := entered (opNormX 2 returnBody) e; bits f.leg.p0 0 2 = 2) :=
  have ⟨e, h, x⟩ := issues_of (s := legState 11 (legBytes 4 0 NONE NONE NONE NONE 2 0 0)) (o := (opNormX 2 returnBody)) (x := fun f => decide (bits f.leg.p0 0 2 = 2)) (by decide +kernel)
  ⟨_, e, h, of_decide_eq_true x⟩

theorem offload_issues : ∃ s e, Issues s 0 11 6 opOffload e :=
  have ⟨e, h, _⟩ := issues_of (s := legState 11 (legBytes 6 0 NONE NONE 1 NONE 0 0 0)) (o := opOffload) (x := fun _ => true) (by decide +kernel)
  ⟨_, e, h⟩

theorem kvSend_issues : ∃ s e, Issues s 0 11 7 opKvSend e :=
  have ⟨e, h, _⟩ := issues_of (s := legState 11 (legBytes 7 0 NONE NONE 3 NONE 0 0 0)) (o := opKvSend) (x := fun _ => true) (by decide +kernel)
  ⟨_, e, h⟩

theorem stageSend_issues : ∃ s e, Issues s 0 11 8 opStageSend e :=
  have ⟨e, h, _⟩ := issues_of (s := legState 11 (legBytes 8 0 NONE NONE 3 NONE 0 0 0)) (o := opStageSend) (x := fun _ => true) (by decide +kernel)
  ⟨_, e, h⟩

/-! Legs that meet the hypotheses of ShardsSweepsFallbacks. -/


/-! ### The machine and its records -/

/-- A fault record. -/
def someRec (sev cls : Nat) : FaultRec :=
  { code := Code.SYNC_TIMEOUT, cls := cls, sev := sev, island := 852, iter := 0, leg := 0x3FFF, unit := 0, items := [], uid := 0 }

/-- An entry of the record ring. -/
def someEntry (live : Bool) (cls seq : Nat) : Entry :=
  { frec := someRec 1 cls, seq := seq, dropped := 0, live := live, first := 0, last := 0, count := 0, lastCode := 0 }

/-- The ready module with a record at a source and entries in the ring. -/
def recState (sev : Nat) (full : Bool) (held : List Entry) : State :=
  { readyState with
    fr := { held := held, tail := 4095, seq := 2 ^ 32 - 1, full := full }
    recs := { RecSt.empty with srcQ := [(852, { recs := [(someRec sev 15, 2)], dropped := 1 })] } }

theorem meets_StepKeepsInv :
    let s := { readyState with
      counts := [(4095, 2 ^ 64 - 1)], fuses := { Fuses.unblown with rollback := 64 }, layout := { cmd := 7, applied := 7, pend := none }
      fr := { held := List.replicate 4096 (someEntry false 0 0), tail := 0, seq := 0, full := true }, pending := [.signalApply []] }
    Inv s ∧ ∃ t, step s = .next t :=
  ⟨⟨by decide +kernel, by decide +kernel, by decide +kernel, by decide +kernel, by decide +kernel,
    fun i => by unfold countOf; simp only [smGet]; split <;> simp [zeroDefault], by decide +kernel, by decide +kernel, by decide +kernel⟩, _, rfl⟩

theorem meets_EpochsRiseFusesStay :
    let s := { readyState with fuses := { Fuses.unblown with ownerEn := true } }
    (∃ t, exec (.signalApply []) s = .next t) ∧ s.fuses.ownerEn = true ∧ isReset (.signalApply []) = false ∧ ∀ i, countOf s i ≤ 2 ^ 64 - 1 :=
  ⟨⟨_, rfl⟩, rfl, rfl, fun _ => Nat.zero_le _⟩

theorem meets_RecordPlacedOrDropped :
    (∀ s ∈ [recState 2 false [], recState 3 false (List.replicate 4079 (someEntry false 15 0))],
      (smGet (fun _ => SrcQueue.empty) s.recs.srcQ 852).recs = [(someRec (if s.fr.held = [] then 2 else 3) 15, 2)] ∧ s.fr.full = false) ∧
    (∀ s ∈ [recState 2 true [someEntry false 15 0], recState 2 true (someEntry true 15 0 :: List.replicate 4094 (someEntry false 15 0))],
      (smGet (fun _ => SrcQueue.empty) s.recs.srcQ 852).recs = [(someRec 2 15, 2)] ∧ s.fr.full = true ∧ s.fr.held.length < 4096) := by decide +kernel

theorem meets_RecordPlacedOrDropped_first :
    rdRaw (recState 2 false []) (recordPage (someRec 2 15)) Reg.COMMON.FAULT_FIRST_VALID = 0 ∧
    rdRaw ((wr (recordPage (someRec 2 15)) Reg.COMMON.FAULT_FIRST_VALID 1).run (recState 2 false [])) (recordPage (someRec 2 15))
      Reg.COMMON.FAULT_FIRST_VALID = 1 := by decide +kernel

theorem meets_AlarmTaken :
    let s := { readyState with recs := { RecSt.empty with alarmPend := [(853 * 16 + 15, 255)] } }
    smGet zeroDefault s.recs.alarmPend (853 * 16 + 14) = 0 ∧ 0 < smGet zeroDefault s.recs.alarmPend (853 * 16 + 15) := by decide +kernel

/-- The ready module with a trace waiting, its ring full or not. -/
def traceState (tail lost : Nat) : State :=
  { withRegs [wr (.mod 3) Reg.MOD3.TRACE_HEAD (2 ^ 21 - 1), wr (.mod 3) Reg.MOD3.TRACE_TAIL tail] with
    recs := { RecSt.empty with traceQ := [{ kind := 1, island := 3, seq := 0 }], lost := lost, firstLost := 4 } }

theorem meets_TracesAndLogWritten :
    (∀ lost ∈ [0, 3],
      let s := traceState 1 lost
      let h := rd s (.mod 3) Reg.MOD3.TRACE_HEAD
      logWaits s (stackOf s (rd64 s (.mod 3) Reg.MOD3.TRACE_BASE_LO Reg.MOD3.TRACE_BASE_HI + 32 * h)) = false ∧
      hotRange s (rd64 s (.mod 3) Reg.MOD3.TRACE_BASE_LO Reg.MOD3.TRACE_BASE_HI + 32 * h) 32 = false ∧ s.recs.traceQ ≠ [] ∧ s.recs.lost = lost ∧ (h + 1) % 2 ^ 21 ≠ rd s (.mod 3) Reg.MOD3.TRACE_TAIL ∧
      ∀ i, i < 32 → openAt s (rd64 s (.mod 3) Reg.MOD3.TRACE_BASE_LO Reg.MOD3.TRACE_BASE_HI + 32 * h + i) = none) ∧
    (let s := traceState 0 0
     logWaits s (stackOf s (32 * (2 ^ 21 - 1))) = false ∧ hotRange s (32 * (2 ^ 21 - 1)) 32 = false ∧ s.recs.traceQ ≠ [] ∧ (rd s (.mod 3) Reg.MOD3.TRACE_HEAD + 1) % 2 ^ 21 = rd s (.mod 3) Reg.MOD3.TRACE_TAIL) ∧
    (∀ i ∈ [LogItem.copy (someEntry false 3 9), LogItem.own],
      let s := { withRegs [wr (.mod 3) Reg.MOD3.LOG_SIZE 4096] with recs := { RecSt.empty with logQ := [i] } }
      s.recs.logQ = [i] ∧ fwRuns s = true ∧ s.sec.phase = .ready ∧ hotRange s 0 64 = false ∧ ∀ j, j < 64 → openAt s j = none) := by decide +kernel

theorem meets_RingReleasedRegistersWritten :
    (∀ a ∈ [fldAddr (.mod 2) Reg.MOD2.FR_TAIL 0, fldAddr (.mod 2) Reg.MOD2.DROP_CLEAR 0], LetIn (recState 2 false [someEntry false 15 0]) (.cp 3) a false) ∧
    (∀ a ∈ [0x90000 + 0x64, 0x90000 + 0x14, 0x90000 + 0x8], LetIn readyState (.cp 3) a true) ∧ LetRead readyState (.cp 3) (0x90000 + 0x60) ∧
    pageAt (0x90 * 4096) = some (.syn 16) ∧ isCp (.cp 3) = true ∧ bit (1#32).toNat 0 = true :=
  ⟨letIn_all (by decide +kernel), letIn_all (by decide +kernel), letRead_of (by decide +kernel), by decide +kernel, rfl, rfl⟩

theorem meets_RingReleasedRegistersWritten_pair :
    let s := (wr (.mod 4) Reg.COMMON.PORT_ACCESS_RIGHTS 0x3F7).run readyState
    pageAt (4 * 4096) = some (.mod 4) ∧ letInB s .pair (4 * 4096 + 0x14) true = true ∧ letInB s .pair (4 * 4096 + 0x64) true = true := by decide +kernel

theorem meets_WindowLatched :
    let s := recState 2 false [someEntry false 15 0]
    LetIn s (.cp 0) (fldAddr (.mod 2) Reg.MOD2.FR_SELECT 0) false ∧
    s.fr.held[((4095#32).toNat % 4096 + 4096 - s.fr.tail % 4096) % 4096]? = some (someEntry false 15 0) ∧
    s.fr.held[((0#32).toNat % 4096 + 4096 - s.fr.tail % 4096) % 4096]? = none :=
  ⟨letIn_of (by decide +kernel), by decide +kernel, by decide +kernel⟩


/-! ### Counters, pairs, barriers -/

/-- A SIGNAL to a counter. -/
def someSig (counter amount round : Nat) (src : Source) (cmd : Option Nat) : SigRec :=
  { counter := counter, amount := amount, round := round, src := src, run := none, cmd := cmd, leg := 0x3FFF }

/-- A wait registered by a gate or by ring 0. -/
def someWait (counter target island : Nat) (cmd : Option Nat) : WaitRec :=
  { localOf := none, counter := counter, target := target, island := island, queue := 0, cmd := cmd }

/-- An accepted command of ring 0. -/
def someCmd (id : Nat) (body : CmdBody) (started : Bool) : Cmd :=
  { id := id, ring := 0, index := 0, tag := 0, ordered := false, irq := false, ident := .host, body := some body, started := started }

/-- The ready module with register fields set, a SIGNAL that has arrived, and waits. -/
def sigState (l : List Prog) (x : SigRec) (waits : List WaitRec) (cmds : List Cmd) : State :=
  { withRegs l with
    sync := { SyncSt.empty with sigQ := [x], waits := waits }, host := { HostSt.empty with accepted := cmds }
    pistes := [(63, { PisteSt.idle with run := some 0 })] }

/-- Counter 4095 in a mode, with an INDEX. -/
def mode4095 (m i : Nat) : List Prog := [wr (.syn 15) Reg.SYN.CFG_MODE m 255, wr (.syn 15) Reg.SYN.CFG_INDEX i 255]

/-- An enabled pair entry 255 over counters 4095 and 1. -/
def pair255 (depth : Nat) : List Prog :=
  [wr (.syn 17) Reg.SYN17.PAIR_PRODUCER 4095 255, wr (.syn 17) Reg.SYN17.PAIR_CONSUMER 1 255, wr (.syn 17) Reg.SYN17.PAIR_DEPTH depth 255,
   wr (.syn 17) Reg.SYN17.PAIR_EN 1 255]

theorem meets_SignalAppliedPlain :
    (let s := sigState [] (someSig 4095 (2 ^ 64 - 1) 0 (.die 851 0) (some 3)) [someWait 4095 1 767 none, someWait 4095 0 852 none]
        [someCmd 3 (.signal 4095 0 1) true]
     s.sync.sigQ ≠ [] ∧ counterMode s 4095 = 0 ∧ inPair s 4095 = false ∧ findCmd s 3 ≠ none ∧ countOf s 4095 + (2 ^ 64 - 1) ≤ 2 ^ 64 - 1) ∧
    (let s := { sigState (mode4095 1 0) (someSig 4095 1 0 (.remote 65535) none) [] [] with counts := [(4095, 2 ^ 64 - 1)] }
     s.sync.sigQ ≠ [] ∧ counterMode s 4095 = 1 ∧ inPair s 4095 = false ∧ 2 ^ 64 - 1 < countOf s 4095 + 1) := by decide +kernel

/-- The count a SIGNAL to counter 4095 leaves. -/
def after4095 (s : State) : Nat := match exec (.signalApply []) s with | .next t => countOf t 4095 | _ => 0

theorem meets_PairChecked :
    (∀ x ∈ [(0, 9), (1, 4), (4, 0)],
      let s := { sigState (pair255 3) (someSig 4095 x.1 0 (.sigGo .host) none) [] [] with counts := [(1, x.2)] }
      s.sync.sigQ ≠ [] ∧ counterMode s 4095 = 0 ∧ pairOf s 4095 = some 255 ∧ rd s (.syn 17) Reg.SYN17.PAIR_PRODUCER 255 = 4095 ∧
      rd s (.syn 17) Reg.SYN17.PAIR_CONSUMER 255 = 1 ∧ rd s (.syn 16) Reg.SYN16.PAIR_STATUS_UNDERFLOW = 0 ∧
      rd s (.syn 16) Reg.SYN16.PAIR_STATUS_OVERFLOW = 0) ∧
    (let s := { sigState (pair255 3) (someSig 4095 4 0 (.sigGo .host) none) [] [] with counts := [(1, 1)] }
     pairOf s 4095 = some 255 ∧ after4095 s - countOf s 1 ≤ rd s (.syn 17) Reg.SYN17.PAIR_DEPTH 255) := by decide +kernel

/-- Barrier 255 named by counter 4095. -/
def bar255 (n round cur next : Nat) : List Prog :=
  mode4095 2 255 ++ [wr (.bar 1) Reg.BAR.BARRIER_W0_PARTICIPANTS n 127, wr (.bar 1) Reg.BAR.BARRIER_W0_ROUND round 127,
    wr (.bar 1) Reg.BAR.BARRIER_W1_CUR cur 127, wr (.bar 1) Reg.BAR.BARRIER_W1_NEXT next 127]

theorem meets_ArrivalCounted :
    (∀ q ∈ [(8191, 65535, 8189, 8190, 1, 65535), (8191, 65535, 8190, 8190, 1, 65535), (4, 65535, 0, 8190, 1, 0), (4, 0, 0, 0, 1, 2), (4, 0, 0, 0, 1, 32768), (0, 0, 0, 0, 1, 0)],
      let s := sigState (bar255 q.1 q.2.1 q.2.2.1 q.2.2.2.1) (someSig 4095 q.2.2.2.2.1 q.2.2.2.2.2 (.die 851 0) none) [] []
      s.sync.sigQ ≠ [] ∧ counterMode s 4095 = 2 ∧ counterIndex s 4095 = 255 ∧ rd s (.bar 1) Reg.BAR.BARRIER_W0_PARTICIPANTS 127 = q.1 ∧
      rd s (.bar 1) Reg.BAR.BARRIER_W1_CUR 127 = q.2.2.1 ∧ rd s (.bar 1) Reg.BAR.BARRIER_W1_NEXT 127 = q.2.2.2.1 ∧
      rd s (.bar 1) Reg.BAR.BARRIER_W0_ROUND 127 = q.2.1) ∧
    arrivalCounters (sigState (bar255 4 0 0 0) (someSig 4095 1 0 (.die 851 0) none) [] []) 255 = [4095] := by decide +kernel

theorem meets_ProxyForwards :
    let at_ := fun valid node =>
      sigState (mode4095 1 255 ++ [wr (.syn 18) Reg.SYN18.PROXY_VALID valid 255, wr (.syn 18) Reg.SYN18.PROXY_NODE node 255])
        (someSig 4095 1 0 (.sigGo .mgmt) none) [] []
    (∀ s ∈ [at_ 0 0, at_ 1 0, at_ 1 65535], s.sync.sigQ ≠ [] ∧ counterMode s 4095 = 1 ∧ countOf s 4095 + 1 < 2 ^ 64 ∧ counterIndex s 4095 = 255) ∧
    rd (at_ 0 0) (.syn 18) Reg.SYN18.PROXY_VALID 255 = 0 ∧ rd (at_ 1 0) (.syn 18) Reg.SYN18.PROXY_VALID 255 ≠ 0 ∧
    rd (at_ 1 0) (.syn 18) Reg.SYN18.PROXY_NODE 255 = ownNode (at_ 1 0) ∧ rd (at_ 1 65535) (.syn 18) Reg.SYN18.PROXY_NODE 255 ≠ ownNode (at_ 1 65535) := by
  decide +kernel

theorem meets_ProxyForwards_source : ∀ n, (someSig 4095 1 0 (.sigGo .mgmt) none).src ≠ .remote n := by intro n; simp [someSig]

theorem meets_CounterRegisters :
    (∀ a ∈ [fldAddr (.syn 16) Reg.SYN16.SIG_GO 0, fldAddr (.syn 15) Reg.SYN.CFG_MODE 255, fldAddr (.syn 17) Reg.SYN17.PAIR_PRODUCER 255],
      LetIn readyState (.cp 0) a false) ∧
    LetRead readyState (.cp 0) (fldAddr (.syn 15) Reg.SYN.COUNT_LO 255) ∧ registered readyState 4095 = false ∧ inPair readyState 4095 = false ∧
    registered (sigState [] (someSig 0 0 0 (.sigGo .host) none) [someWait 4095 1 0 none] []) 4095 = true ∧
    inPair (withRegs (pair255 1)) 4095 = true ∧ rd (withRegs (pair255 1)) (.syn 17) Reg.SYN17.PAIR_EN 255 = 1 ∧ rd readyState (.syn 17) Reg.SYN17.PAIR_EN 255 = 0 ∧ bit (2147483648#32).toNat 31 = true :=
  ⟨letIn_all (by decide +kernel), letRead_of (by decide +kernel), by decide +kernel, by decide +kernel, by decide +kernel, by decide +kernel,
    by decide +kernel, by decide +kernel, by decide +kernel⟩

theorem meets_CounterRegisters_busy :
    LetIn (sigState [] (someSig 0 0 0 (.sigGo .host) none) [someWait 4095 1 0 none] []) (.cp 0) (fldAddr (.syn 15) Reg.SYN.CFG_MODE 255) false ∧
    LetIn (withRegs (pair255 1)) (.cp 0) (fldAddr (.syn 15) Reg.SYN.CFG_MODE 255) false ∧
    LetIn (withRegs (pair255 1)) (.cp 0) (fldAddr (.syn 17) Reg.SYN17.PAIR_PRODUCER 255) false :=
  ⟨letIn_of (by decide +kernel), letIn_of (by decide +kernel), letIn_of (by decide +kernel)⟩

/-- R263: a high-word write, too, leaves an entry that is not allowed disabled, with PAIR_REFUSED: counter 4095 here is of another mode. -/
theorem test_pair_high_refused :
    (let s := withRegs (pair255 1 ++ mode4095 1 0)
     (match exec (.pairEntryWrite (.cp 0) 255 true 9) s with
      | .next t => rd t (.syn 17) Reg.SYN17.PAIR_EN 255 == 0 && rd t (.syn 16) Reg.SYN16.SYN_STATUS_PAIR_REFUSED == 1
      | _ => false)) = true := by decide +kernel

theorem meets_WaitExpires :
    (let w := someWait 4095 1 767 none
     let s := sigState [wr (.pst 63) Reg.PST.WAIT_LIMIT 1] (someSig 0 0 0 (.sigGo .host) none) [w] []
     waitAt s 767 0 = some w ∧ waitLimit s w ≠ 0 ∧ rd s (.syn 16) Reg.SYN16.TO_STATUS_SEEN = 0 ∧ (pisteOf s (767 / 12)).run ≠ none ∧
     (gateOf s 767).busy = false ∧ (gateOf s 767).held = [] ∧
     s.units.signalsDue = [] ∧ s.units.outStage = [] ∧ s.units.marksDue = [] ∧ tagsOpen s 63 (some 11) none = false) ∧
    (let w := { someWait 4095 9 852 none with queue := 3, limit := 7 }
     let s := sigState [] (someSig 0 0 0 (.sigGo .host) none) [w] []
     waitAt s 852 3 = some w ∧ waitLimit s w ≠ 0) ∧
    (let w := someWait 4095 9 851 (some 3)
     let s := sigState [] (someSig 0 0 0 (.sigGo .host) none) [w] [someCmd 3 (.wait 4095 9 5) true]
     waitAt s 851 0 = some w ∧ waitLimit s w ≠ 0 ∧ findCmd s 3 ≠ none) := by decide +kernel

theorem meets_ZeroGuarded :
    LetIn readyState (.cp 0) 0x90108 false ∧ LetIn (withRegs (mode4095 1 0)) (.cp 0) 0x90108 false ∧
    counterMode readyState 4095 = 0 ∧ inPair readyState 4095 = false ∧ counterMode (withRegs (mode4095 1 0)) 4095 ≠ 0 :=
  ⟨letIn_of (by decide +kernel), letIn_of (by decide +kernel), by decide +kernel, by decide +kernel, by decide +kernel⟩

theorem meets_BarrierSetUp :
    LetIn readyState (.cp 0) (fldAddr (barPage 255) Reg.BAR.BARRIER_W0_PARTICIPANTS (255 % 128)) false ∧
    LetIn (withRegs (bar255 1 0 0 1)) (.cp 0) (fldAddr (barPage 255) Reg.BAR.BARRIER_W0_PARTICIPANTS (255 % 128)) false ∧
    rd readyState (barPage 255) Reg.BAR.BARRIER_W1_NEXT (255 % 128) = 0 ∧ rd readyState (barPage 255) Reg.BAR.BARRIER_W1_CUR (255 % 128) = 0 ∧
    rd (withRegs (bar255 1 0 0 1)) (barPage 255) Reg.BAR.BARRIER_W1_NEXT (255 % 128) ≠ 0 ∧
    LetIn readyState (.cp 0) (fldAddr (.bar 0) Reg.BAR.RESET 0) false :=
  ⟨letIn_of (by decide +kernel), letIn_of (by decide +kernel), by decide +kernel, by decide +kernel, by decide +kernel, letIn_of (by decide +kernel)⟩

theorem meets_BarrierSetUp_stale :
    let s := sigState (bar255 0 0 0 0) (someSig 4095 1 0 (.die 851 0) none) [] []
    s.sync.sigQ ≠ [] ∧ counterMode s 4095 = 2 ∧ rd s (barPage (counterIndex s 4095)) Reg.BAR.BARRIER_W0_PARTICIPANTS (counterIndex s 4095 % 128) = 0 := by
  decide +kernel


/-! ### Mailboxes and attestation -/

/-- Channel 31 bound from core 0 to a receiver, its lock held by core 0 or not, full or not, with a message of eight words. -/
def chan31 (receiver locked full : Nat) : State :=
  withRegs [wr (.mbx 1) Reg.MBX1.BIND_SENDER 4 31, wr (.mbx 1) Reg.MBX1.BIND_RECEIVER receiver 31, wr (.mbx 1) Reg.MBX1.BIND_VALID 1 31,
    wr mb Reg.MBX0.STATUS_LOCKED locked 31, wr mb Reg.MBX0.STATUS_OWNER (4 * locked) 31, wr mb Reg.MBX0.STATUS_FULL full 31,
    wr mb Reg.MBX0.STATUS_LEN 8 31]

theorem meets_MailboxLocks :
    (∀ s ∈ [chan31 1 0 0, chan31 1 1 0], LetRead s (.cp 0) (fldAddr mb Reg.MBX0.LOCK 31) ∧ LetIn s (.cp 0) (fldAddr mb Reg.MBX0.LOCK 31) false ∧
      LetIn s (.cp 0) (fldAddr (.mbx 1) Reg.MBX1.FORCE 0) false ∧ LetRead s (.cp 1) (fldAddr mb Reg.MBX0.LOCK 31)) ∧
    LetRead readyState (.cp 0) (fldAddr mb Reg.MBX0.LOCK 31) := by
  refine ⟨fun s hs => ⟨?_, ?_, ?_, ?_⟩, letRead_of (by decide +kernel)⟩ <;>
    (simp only [List.mem_cons, List.not_mem_nil, or_false] at hs; rcases hs with rfl | rfl <;> first | exact letRead_of (by decide +kernel) | exact letIn_of (by decide +kernel))

theorem meets_MailboxLocks_clauses :
    identCode (.cp 0) = 4 ∧ isCp (.cp 0) = true ∧
    (∀ l ∈ [0, 1], chanValid (chan31 1 l 0) 31 = true ∧ chanSender (chan31 1 l 0) 31 = 4 ∧ rd (chan31 1 l 0) mb Reg.MBX0.STATUS_LOCKED 31 = l) ∧
    chanSender (chan31 1 0 0) 31 ≠ identCode (.cp 1) ∧ lockOwner (chan31 1 1 0) 31 = 4 ∧ chanValid readyState 31 = false := by decide +kernel

theorem meets_MailSent :
    (∀ r ∈ [1, 2, 3, 4, 7, 8], letInB (chan31 r 1 0) (.cp 0) (fldAddr mb Reg.MBX0.DOORBELL_LENGTH 31) false = true ∧ chanReceiver (chan31 r 1 0) 31 = r ∧
      chanValid (chan31 r 1 0) 31 = true ∧ rd (chan31 r 1 0) mb Reg.MBX0.STATUS_LOCKED 31 = 1 ∧ lockOwner (chan31 r 1 0) 31 = identCode (.cp 0) ∧
      rd (chan31 r 1 0) mb Reg.MBX0.STATUS_FULL 31 = 0) ∧
    bits (0x108#32).toNat 0 4 = 8 ∧ bits (0x109#32).toNat 0 4 = 9 := by decide +kernel

theorem meets_MailTaken :
    let s := chan31 5 0 1
    LetRead s (.cp 1) (fldAddr mb Reg.MBX0.DATA0 31 + 4 * 7) ∧ LetRead s (.cp 1) (fldAddr mb Reg.MBX0.STATUS_FULL 31) ∧
    LetIn s (.cp 1) (fldAddr (.mbx 1) Reg.MBX1.BIND_SENDER 31) false ∧ chanValid s 31 = true ∧ chanReceiver s 31 = identCode (.cp 1) ∧
    rd s mb Reg.MBX0.STATUS_FULL 31 = 1 ∧ rd s mb Reg.MBX0.STATUS_LEN 31 = 7 + 1 ∧ rd (chan31 5 0 0) mb Reg.MBX0.STATUS_FULL 31 = 0 ∧
    rd s (.mbx 1) Reg.MBX1.BIND_LOCK_LOCK = 0 ∧ bits (0x180#32).toNat 0 4 ≤ 8 ∧ bits (0x180#32).toNat 4 4 ≤ 8 ∧
    bits (0x180#32).toNat 0 4 ≠ bits (0x180#32).toNat 4 4 :=
  ⟨letRead_of (by decide +kernel), letRead_of (by decide +kernel), letIn_of (by decide +kernel), by decide +kernel, by decide +kernel, by decide +kernel,
    by decide +kernel, by decide +kernel, by decide +kernel, by decide, by decide, by decide⟩

theorem meets_MailTaken_mgmt :
    let s := (wr .rst Reg.RST.BOOT_STATUS_STEP 9).run (chan31 2 0 1)
    LetRead s .mgmt (fldAddr mb Reg.MBX0.STATUS_FULL 31) := letRead_of (by decide +kernel)

/-- A request of a code, with word 1, in a requester's channel. -/
def asked (q : Requester) (code word1 : Nat) (ownerEn : Bool) : State :=
  { withRegs [wr mb Reg.MBX0.STATUS_FULL 1 (reqChan q), wr mb Reg.MBX0.STATUS_LEN 8 (reqChan q),
      .prim (.reg (dataAddr (reqChan q) 0) (BitVec.ofNat 32 code)), .prim (.reg (dataAddr (reqChan q) 1) (BitVec.ofNat 32 word1))] with
    fuses := { Fuses.unblown with ownerEn := ownerEn } }

theorem meets_AttestationServed :
    (∀ q ∈ [Requester.host, Requester.mgmt], ∀ c ∈ [(1, 0, false), (2, 0, false), (3, 0, false), (4, 2, false), (4, 3, false), (5, 0, false), (5, 0, true)],
      let s := asked q c.1 c.2.1 c.2.2
      s.sec.phase = .ready ∧ fwRuns s = true ∧ rd s mb Reg.MBX0.STATUS_FULL (reqChan q) = 1 ∧ rd s mb Reg.MBX0.STATUS_LEN (reqChan q) = 8 ∧
      rd s mb Reg.MBX0.STATUS_FULL (reqChan q + 1) = 0 ∧ dataWord s (reqChan q) 0 = c.1 ∧ dataWord s (reqChan q) 1 = c.2.1 ∧ s.fuses.ownerEn = c.2.2) ∧
    (asked .host 1 0 false).sec.meas.flatten.length = 512 := by decide +kernel

/-! ### Stacks -/

/-- The ready module with 384 GB of HBM, every stack admitting. -/
def hbmState : State :=
  withRegs (wr (.mod 0) Reg.MOD0.CONFIG_HBM_GB 384 :: (List.range 12).map fun i => wr (.stk i) Reg.STK.STK_STATUS_STATE 1)

/-- The last 64 B word of HBM. -/
def lastWord : Nat := 384 * 2 ^ 30 - 64

theorem meets_StackWordsAccessed :
    lastWord + 63 < hbmBytes hbmState ∧ admits hbmState (stackOf hbmState (lastWord + 63)) = true ∧ openAt hbmState (lastWord + 63) = none ∧
    hbmPoisoned hbmState (lastWord + 63) = false ∧ (lastWord + 63) % 64 + [(7 : Byte)].length ≤ 64 ∧ admits hbmState (stackOf hbmState lastWord) = true ∧
    lastWord % 64 + (List.replicate 64 (7 : Byte)).length ≤ 64 := by decide +kernel

/-- 256 open granules of one stack. -/
def fullAdder : List Granule := (List.range 256).map fun i => { addr := 12 * 4096 * i, bytes := List.replicate 64 1, poison := false }

theorem meets_AtomicAddApplied :
    (65535 < 2 ^ 16 ∧ lastWord < hbmBytes hbmState ∧ admits hbmState (stackOf hbmState lastWord) = true ∧ hbmPoisoned hbmState lastWord = false ∧
      (openOf hbmState (stackOf hbmState (lastWord / 64 * 64))).length < 256) ∧
    (let s := { hbmState with stk := { StkSt.empty with granules := fullAdder } }
     openAt s 64 = none ∧ openOf s (stackOf s (64 / 64 * 64)) ≠ [] ∧ 256 ≤ (openOf s (stackOf s (64 / 64 * 64))).length ∧ admits s (stackOf s 64) = true) ∧
    (let s := { hbmState with mem := { Mem.empty with hbmPoison := [(lastWord / 64, true)] } }
     hbmPoisoned s lastWord = true) ∧
    (scratchSize 63 - 64) / 64 * 64 < scratchSize 63 := by decide +kernel

theorem meets_StacksGroomedRepairedRead :
    (let last := wr (.stk 11) Reg.STK.GROOM_POS (stackGranules hbmState - 1)
     admits hbmState 11 = true ∧ rd hbmState (.stk 11) Reg.STK.GROOM_CTRL_PAUSE = 0 ∧ stackGranules hbmState ≤ 2 ^ 24 ∧
     rd hbmState (.stk 11) Reg.STK.GROOM_POS + 1 < stackGranules hbmState ∧
     stackGranules (last.run hbmState) ≤ rd (last.run hbmState) (.stk 11) Reg.STK.GROOM_POS + 1 ∧ admits (last.run hbmState) 11 = true) := by decide +kernel

theorem meets_StacksGroomedRepairedRead_rows :
    (let s := { hbmState with stk := { StkSt.empty with repairList := [(11, 5)] } }
     s.stk.repairList.find? (fun x => x.1 == 11) = some (11, 5) ∧ admits s 11 = true ∧ sparesLeft s (bankOf s (5 * 1024)) ≠ 0) ∧
    (let s := { hbmState with stk := { StkSt.empty with repairList := [(11, 5)], spareRows := [(bankOf hbmState (5 * 1024), Config.spareRowsPerBank)] } }
     s.stk.repairList.find? (fun x => x.1 == 11) = some (11, 5) ∧ admits s 11 = true ∧ sparesLeft s (bankOf s (5 * 1024)) = 0) := by
  refine ⟨⟨by decide +kernel, by decide +kernel, ?_⟩, by decide +kernel, by decide +kernel, ?_⟩
  · show Config.moreSpareRows + 1 - 0 ≠ 0
    omega
  · show Config.spareRowsPerBank - (if bankOf hbmState (5 * 1024) = _ then Config.spareRowsPerBank else _) = 0
    rw [if_pos (by decide +kernel), Nat.sub_self]

theorem meets_StacksGroomedRepairedRead_temperature :
    hbmState.stk.retired ≠ some 11 ∧ hbmState.pins.pwrOk = true ∧ rd hbmState (.stk 11) Reg.STK.STK_STATUS_THERM < 1 ∧ stacksReset hbmState = false ∧
    (let s := { hbmState with sec := { SecSt.cleared with phase := .held 2, everReady := true } }
     s.stk.retired ≠ some 11 ∧ s.pins.pwrOk = true ∧ stacksReset s = true) := by decide +kernel

/-! ### Power, resets, boot -/

theorem meets_PowerClockAndRails :
    (let s := { readyState with pins := { readyState.pins with pwrEn := false, pwrOk := false } }
     s.pins.vsb = true ∧ s.pins.pwrEn = false) ∧
    (let s := { readyState with pins := { readyState.pins with pwrOk := false } }
     s.pins.pwrEn = true ∧ s.pins.pwrOk = false) ∧
    readyState.pins.refclk = true ∧ readyState.pins.pwrOk = true ∧ ({ readyState.pins with refclk := false } : Pins).refclk = false ∧ 853 < 854 ∧ leveledPiste 853 = none ∧
    (∀ i ∈ [767, 831], leveledPiste i = some 63 ∧ fenced readyState 63 = false ∧ smGet zeroDefault readyState.pwr.level 63 = 0 ∧
      600000 * 99450 ≤ 600000 * 100000 ∧ 600000 * 100000 ≤ 600000 * 100550) ∧
    (0 < (railWindow 23).1 ∨ (railWindow 23).2 < 0) ∧ ¬ ((railWindow 23).1 < (railWindow 23).1 ∨ (railWindow 23).2 < (railWindow 23).1) ∧
    smGet flagDefault readyState.pwr.railOut 23 = false := by decide +kernel

theorem meets_SensorsReadPowerCapped :
    readyState.pins.pwrOk = true ∧ (List.replicate 96 124).length = 96 ∧ (∀ x ∈ List.replicate 96 124, x < 125) ∧
    (List.replicate 95 0 ++ [125]).length = 96 ∧ ∃ x ∈ List.replicate 95 0 ++ [125], 125 ≤ x := by decide +kernel

theorem meets_SensorsReadPowerCapped_power :
    (let hot := (65535, 65535) :: List.replicate 23 (0, 0)
     readyState.pins.pwrOk = true ∧ 29000000 < powerOf hot 0 1 ∧ rd readyState .pwr Reg.PWR.CAP_C = 0) ∧
    (let cold := List.replicate 24 (0, 0)
     powerOf cold 0 1 ≤ inputCap readyState * 10000 ∧ powerOf cold 0 1 ≤ 29000000 ∧ powerOf cold 1 8 ≤ 13500000) := by decide +kernel

/-- The ready module, firmware having been ready before. -/
def everReady : State := { readyState with sec := { SecSt.cleared with phase := .ready, everReady := true } }

theorem meets_ResetsClear :
    SMapCanon regReset everReady.regs ∧ resettable everReady = true ∧ everReady.sec.everReady = true ∧ everReady.stk.granules = [] ∧
    powerOnBoot everReady = false ∧ resettable readyState = true ∧ readyState.sec.everReady = false ∧
    (let s := { State.reset with sec := { SecSt.cleared with phase := .booting } }
     SMapCanon regReset s.regs ∧ resettable s = true ∧ powerOnBoot s = true) := by decide +kernel

theorem meets_RstNIgnored :
    (let s := { readyState with pins := { readyState.pins with pwrEn := false, pwrOk := false, rstN := false } }
     s.pins.pwrOk = false ∧ s.pins.vsb = true ∧ s.pins.pwrEn = false ∧ s.pins.rstN = false) ∧
    (let s := { State.reset with pins := { readyState.pins with rstN := false }, sec := { SecSt.cleared with phase := .held 0 } }
     s.pins.pwrOk = true ∧ s.sec.phase = .held 0 ∧ s.pins.rstN = false ∧ s.pins.refclk = true ∧ s.sec.everReady = false ∧
     rd s .rst Reg.RST.BOOT_STATUS_STEP = 0) := by decide +kernel

theorem meets_CoreResetExits :
    let s := { readyState with sec := { SecSt.cleared with phase := .held 2, everReady := true, fromHost := true } }
    s.pins.pwrOk = true ∧ s.sec.everReady = true ∧ s.sec.phase = .held 2 ∧ exitFails true s = none ∧ exitFails false s = some 6 ∧ fwRuns s = true ∧
    fwRuns ((wr .dbg Reg.DBG.CP_STATE_HALTED 8).run s) = false :=
  ⟨rfl, rfl, rfl, by unfold exitFails reloadFails; rfl, rfl, by decide +kernel, by decide +kernel⟩

/-- A module whose boot has reached a step. -/
def bootAt (step code : Nat) : State :=
  { (progs [wr .rst Reg.RST.BOOT_STATUS_STEP step, wr .rst Reg.RST.STRAP_CODE code]).run State.reset with
    mem := { Mem.empty with flash := [(0x02000000, 6), (0x02000001, 6)] } }

theorem meets_BootRuns :
    (∀ step ∈ [5, 0, 4], let s := bootAt step 2
      s.pins.pwrOk = true ∧ s.pins.refclk = true ∧ s.sec.everReady = false ∧ s.sec.phase = .booting ∧ rd s .rst Reg.RST.BOOT_STATUS_STEP = step ∧
      s.stk.retireMark = [] ∧ fwRuns s = true) ∧
    codeHost (actingCode (bootAt 4 2)) = false ∧ (bootAt 4 2).sec.fromHost = false ∧ slotOrder (bootAt 4 2) = [] ∧
    ((List.range 12).filter fun i => [11].contains i).length ≤ 1 ∧ 2 ≤ ((List.range 12).filter fun i => [0, 11].contains i).length ∧
    (∀ x ∈ List.replicate 8 255, min 15 (x / 16) = 15) ∧
    (∃ x ∈ 0 :: List.replicate 7 16, ∃ y ∈ 0 :: List.replicate 7 16, min 15 (x / 16) ≠ min 15 (y / 16)) := by decide +kernel

theorem meets_HostLinkAndWindow :
    (let s := withRegs [wr .rst Reg.RST.BOOT_STATUS_STEP 8]
     s.pins.pwrOk = true ∧ rd s .hif Reg.HIF.LINK_STATUS_UP = 0 ∧ 8 ≤ rd s .rst Reg.RST.BOOT_STATUS_STEP) ∧
    (let s := { readyState with sec := { SecSt.cleared with phase := .waitHost } }
     s.pins.pwrOk = true ∧ rd s .hif Reg.HIF.LINK_STATUS_UP = 0 ∧ s.sec.phase = .waitHost) ∧
    bits 65535 0 16 = 65535 ∧ (bits 0x7FFF 0 8 = 255 ∧ bits 0x7FFF 0 16 ≠ 65535) ∧ bits 0xFFFE 0 8 ≠ 255 ∧
    (let s := (progs [wr .hif Reg.HIF.LINK_STATUS_UP 1, wr .rst Reg.RST.BOOT_STATUS_STEP 8, wr mb Reg.MBX0.STATUS_LOCKED 1 31, wr mb Reg.MBX0.STATUS_OWNER 1 31, wr .hif Reg.HIF.HDM_UNITS 1024]).run hbmState
     let t := { s with host := { HostSt.empty with hdmCommit := 1 } }
     rd s .hif Reg.HIF.LINK_STATUS_UP = 1 ∧ cxlFull s = true ∧ cxlFull t = true ∧ rd s mb Reg.MBX0.STATUS_LOCKED 31 = 1 ∧ lockOwner s 31 = 1 ∧ lockOwner s 0 ≠ 1 ∧ t.host.hdmCommit = 1 ∧
     2 ^ 38 - 64 < (hdmWindow t).2 ∧ (hdmWindow t).1 + (2 ^ 38 - 64) < hbmBytes t ∧ admits t (stackOf t ((hdmWindow t).1 + (2 ^ 38 - 64))) = true ∧
     smGet flagDefault t.mem.hbmPoison (((hdmWindow t).1 + (2 ^ 38 - 64)) / 64) = false ∧ ((hdmWindow t).1 + (2 ^ 38 - 64)) % 64 + 64 ≤ 64 ∧
     smGet flagDefault ([(((hdmWindow t).1 + (2 ^ 38 - 64)) / 64, true)] : SMap Bool) (((hdmWindow t).1 + (2 ^ 38 - 64)) / 64) = true) := by decide +kernel


/-! ### Baond -/

/-- Port P up at full width, a message window over all of HBM (space 0) or host memory (space 1), and more. -/
def meshState (space : Nat) (l : List Prog) : State :=
  withRegs ([wr (.bnd 6) Reg.BND.PORT_STATUS_STATE 2, wr (.bnd 6) Reg.BND.PORT_STATUS_WIDTH 8, wr (.mod 4) Reg.MOD4.PAIR_STATUS_ROLE 1,
    wr (.bnd 7) Reg.BND7.WINDOW_RD 1 15, wr (.bnd 7) Reg.BND7.WINDOW_WR 1 15, wr (.bnd 7) Reg.BND7.WINDOW_AT 1 15, wr (.bnd 7) Reg.BND7.WINDOW_SPACE space 15,
    wr (.bnd 7) Reg.BND7.WINDOW_VALID 1 15, wr (.bnd 7) Reg.BND7.WINDOW_LENGTH_M1_LO 0xFFFFF 15, wr (.mod 4) Reg.MOD4.MIR_SIZE_LO 0x100000] ++ l)

/-- A message for this node. -/
def someMsg (cls op space addr tag : Nat) (resp : Bool) (data : List Byte) : Msg :=
  { cls := cls, op := op, dst := 0, src := 32768, len := data.length, vl := 0, resp := resp, poison := false, space := space, detoured := false, hops := 0,
    addr := addr, tag := tag, data := data }

/-- A peer's link record. -/
def somePeer (state rate : Nat) : LinkRec := { node := 65535, port := 6, state := state, role := 2, rate := rate, pools := List.replicate 28 65535 }

theorem meets_PortsSend : ∀ p : Fin 7, portUp ((wr (.bnd p) Reg.BND.PORT_STATUS_STATE (2 + p.val % 2)).run readyState) p = true := by
  decide +kernel

theorem meets_PortsSend_lane :
    let s := { withRegs [wr (.bnd 6) Reg.BND.PORT_STATUS_STATE 2] with bnd := { BndSt.empty with links := [(6, { LinkSt.down with pendingLane := some 0 })] } }
    portUp s 6 = true ∧ (linkOf s 6).pendingLane ≠ none := by decide +kernel

theorem meets_LinkLost :
    portUp (meshState 0 [wr (.mod 4) Reg.MOD4.PAIR_STATUS_STATE 1]) 6 = true ∧ pairState (meshState 0 [wr (.mod 4) Reg.MOD4.PAIR_STATUS_STATE 1]) = 1 ∧
    portUp (withRegs [wr (.bnd 0) Reg.BND.PORT_STATUS_STATE 3]) 0 = true := by decide +kernel

theorem meets_LinksComeUpLanesSpared :
    (let s := withRegs [wr (.mod 4) Reg.MOD4.PAIR_STATUS_ROLE 2, wr (.bnd 6) Reg.BND.PORT_CTRL_RETRAIN_EN 1, wr .rst Reg.RST.BOOT_STATUS_STEP 6, wr .rst Reg.RST.STRAP_CODE 4]
     portUp s 6 = false ∧ s.pins.pwrOk = true ∧ s.pins.rstN = true ∧ idlePort s 6 = false ∧ rd s (.mod 4) Reg.MOD4.PAIR_STATUS_ROLE ≠ 0 ∧ rd s (.bnd 6) Reg.BND.PORT_CTRL_RETRAIN_EN = 1 ∧
     (somePeer 1 0).rate = rd s (.bnd 6) Reg.BND.PORT_STATUS_RATE ∧ (somePeer 1 0).state ≠ 2 ∧ (somePeer 1 1).rate ≠ rd s (.bnd 6) Reg.BND.PORT_STATUS_RATE) ∧
    (∀ p ∈ [1, 3, 5, 6], ∀ c ∈ [0, 3], idlePort (withRegs [wr (.mod 4) Reg.MOD4.PAIR_STATUS_ROLE 2, wr .rst Reg.RST.BOOT_STATUS_STEP 9, wr .rst Reg.RST.STRAP_CODE c]) p = true) ∧
    (∀ p ∈ [0, 2, 4], idlePort (withRegs [wr .rst Reg.RST.BOOT_STATUS_STEP 9, wr .rst Reg.RST.STRAP_CODE 0]) p = false) ∧
    rd (withRegs [wr (.bnd 6) Reg.BND.PORT_CTRL_RETRAIN_EN 0]) (.bnd 6) Reg.BND.PORT_CTRL_RETRAIN_EN = 0 ∧
    rd (meshState 0 []) (.bnd 6) Reg.BND.PORT_STATUS_STATE = 2 ∧ portUp (meshState 0 []) 6 = true ∧
    ({ somePeer 1 0 with port := 5 } : LinkRec).port ≠ oppositePort 6 := by decide +kernel

theorem meets_LinksComeUpLanesSpared_lanes :
    let s := meshState 0 [wr (.bnd 6) Reg.BND.PORT_CTRL_SPARE_EN 1]
    let t := { s with bnd := { BndSt.empty with links := [(6, { LinkSt.down with pendingLane := some 7 })] } }
    let u := { s with bnd := { BndSt.empty with links := [(6, { LinkSt.down with txSpare := some 7 })] } }
    portUp s 6 = true ∧ (linkOf s 6).rxSpare = none ∧ (linkOf s 6).txSpare = none ∧ (linkOf u 6).txSpare = some 7 ∧ rd s (.bnd 6) Reg.BND.PORT_STATUS_WIDTH = 8 ∧ rd s (.bnd 6) Reg.BND.LANE_MAP_FAILED = 0 ∧
    rd s (.bnd 6) Reg.BND.PORT_CTRL_SPARE_EN = 1 ∧ (linkOf s 6).spareBad = false ∧ (linkOf t 6).pendingLane = some 7 ∧
    rd (meshState 0 [wr (.bnd 6) Reg.BND.PORT_CTRL_SPARE_EN 0]) (.bnd 6) Reg.BND.PORT_CTRL_SPARE_EN = 0 := by decide +kernel

/-- A payload that holds one empty SIGNAL message and no more. -/
def onePayload : List Byte := List.replicate 16 0 ++ leBytes 8 (8191 * 2 ^ 40) ++ List.replicate 216 0

theorem meets_FlitsReceived_symbols : ∀ l, l < 9 → smGet zeroDefault (linkOf (meshState 0 []) 6).symWin l < 2 ^ 15 := by decide +kernel

theorem meets_FlitsReceived :
    let s := meshState 0 []
    portUp s 6 = true ∧ s.bnd.msgOut = [] ∧ s.fw.snapshotDue = false ∧ ([] : List Byte).length ≠ 256 ∧
    crc64 ((List.replicate 256 (1 : Byte)).take 248) ≠ leAt (List.replicate 256 (1 : Byte)) 248 8 ∧ (linkOf s 6).gap = false ∧
    onePayload.length = 240 ∧ 4095 ≠ ((linkOf s 6).rxSeq + 1) % 4096 ∧ (((linkOf s 6).rxSeq + 1) % 4096 = 0) ∧
    (∃ m, parseMsgs onePayload 15 0 = ([m], none) ∧ msgOk 6 m = true) ∧ inTakeover s = false :=
  ⟨by decide +kernel, rfl, rfl, by decide, by decide +kernel, by decide +kernel, by decide +kernel, by decide +kernel, by decide +kernel,
    ⟨someMsg 0 0 0 0 0 false [] |> fun m => { m with src := 0 }, by decide +kernel, by decide +kernel⟩, by decide +kernel⟩

/-- `Serves` on port P. -/
def servesP (s : State) (m : Msg) : Bool :=
  decide (m.dst = ownNode s) && msgOk 6 m && !inCoreReset s && !overtakes s m && !msgHot s m && decide (6 ≤ cameBy s 6 m)

theorem serves_of {s : State} {m : Msg} (h : servesP s m = true) : Serves s 6 m := by
  simp only [servesP, Bool.and_eq_true, decide_eq_true_eq, Bool.not_eq_true'] at h
  obtain ⟨⟨⟨⟨⟨h1, h2⟩, h3⟩, h4⟩, h5⟩, h6⟩ := h
  exact ⟨h1, h2, h3, h4, h5, .inl h6⟩

theorem meets_RemoteWritesServed :
    (∀ x ∈ [(1, 0, 0), (1, 0, 1), (3, 0, 0), (2, 0, 0), (6, 0, 0)],
      let s := meshState x.2.2 []
      let m := someMsg x.1 x.2.1 x.2.2 0xFFF00 0 false (List.replicate 256 9)
      servesP s m = true ∧ inboundOk s .wr m.space m.addr m.data.length = true ∧ (∀ i, i < 256 → openAt s (m.addr + i) = none) ∧ m.len ≠ 0 ∧
      m.addr % 2 ^ 40 = m.addr ∧ (ownArea s).2 ≠ 0 ∧ inboundOk s .wr m.space (m.addr + 1) m.data.length = false) := by decide +kernel

theorem meets_RemoteReadsAndAddsServed :
    let s := meshState 0 []
    (let m := someMsg 3 1 0 0xFF000 0 false (leBytes 8 4096)
     servesP s m = true ∧ getCount m = 4096 ∧ inboundOk s .rd 0 m.addr 4096 = true ∧ s.mem.hbmPoison = [] ∧ s.stk.granules = []) ∧
    (let m := someMsg 4 0 0 0xFFFC0 0 false (List.replicate 72 255)
     servesP s m = true ∧ m.addr % 64 = 0 ∧ inboundOk s .at_ 0 m.addr 64 = true ∧ hbmPoisoned s m.addr = false ∧ openOf s (stackOf s m.addr) = []) ∧
    (let m := someMsg 2 1 0 0xFFFFC 0 false [1, 2, 3, 4]
     servesP s m = true ∧ m.addr % 2 ^ 40 % 4 = 0 ∧ m.data.length % 4 = 0 ∧ m.addr % 2 ^ 40 % 64 + m.data.length ≤ 64 ∧
     inboundOk s .at_ 0 (m.addr % 2 ^ 40) m.data.length = true ∧ hbmPoisoned s (m.addr % 2 ^ 40) = false) ∧
    servesP s (someMsg 2 1 0 3 0 false [1, 2, 3, 4]) = true ∧ servesP s (someMsg 4 0 0 32 0 false (List.replicate 72 255)) = true := by decide +kernel

theorem meets_MarksAndSignalsServed :
    servesP (meshState 0 []) (someMsg 0 0 0 4095 0 false []) = true ∧
    (∀ x ∈ [(0, 0), (1, 0), (1, 1), (1, 4), (1, 2)],
      let s := meshState 0 [wr (.gate 63 11) Reg.GATEX.CLOSED_VALID x.1 15, wr (.gate 63 11) Reg.GATEX.CLOSED 1 15]
      let m := someMsg 2 0 0 (31 + x.2 * 2 ^ 6 + 15 * 2 ^ 40 + 63 * 2 ^ 44) 0 false []
      servesP s m = true ∧ bits m.addr 44 6 = 63 ∧ bits m.addr 40 4 = 15 ∧ bits m.addr 0 6 = 31 ∧ bits m.addr 6 32 = x.2 ∧
      rd s (.gate 63 11) Reg.GATEX.CLOSED_VALID 15 = x.1 ∧ rd s (.gate 63 11) Reg.GATEX.CLOSED 15 = 1 ∧ (chanOf s 63 15).tags.length = 3 ∧
      (chanOf s 63 15).marks.length = 3 ∧ nth (chanOf s 63 15).tags (x.2 % 3) none = none) := by decide +kernel

theorem meets_MarksAndSignalsServed_high :
    let m := fun j => someMsg 2 0 0 (63 + j * 2 ^ 6 + 15 * 2 ^ 40 + 63 * 2 ^ 44) 0 false []
    (let s := meshState 0 [wr (.gate 63 11) Reg.GATEX.CLOSED_VALID 1 15, wr (.gate 63 11) Reg.GATEX.CLOSED 1 15]
     servesP s (m 1) = true ∧ bits (m 1).addr 0 6 = 63 ∧ bits (m 1).addr 6 32 = 1) ∧
    (let s := { meshState 0 [] with units := { UnitSt.empty with chans := [(63 * 16 + 15, { tags := [none, some 1, none], marks := [0, 1, 0], waiting := none, expired := false })] } }
     servesP s (m 4) = true ∧ rd s (.gate 63 11) Reg.GATEX.CLOSED_VALID 15 = 0 ∧ nth (chanOf s 63 15).tags (4 % 3) none = some 1) := by decide +kernel

theorem meets_PairPortServedMessagesRouted :
    (let m := someMsg 5 0 0 (pageBase (.bnd 7) + 0xFFC) 0 false []
     Serves (meshState 0 [wr (.bnd 7) Reg.COMMON.PORT_ACCESS_RIGHTS 0x3FF]) 6 m ∧ LetRead (meshState 0 [wr (.bnd 7) Reg.COMMON.PORT_ACCESS_RIGHTS 0x3FF]) .pair m.addr ∧
     Refused (meshState 0 [wr (.bnd 7) Reg.COMMON.PORT_ACCESS_RIGHTS 0]) .pair m.addr false ∧
     Serves (meshState 0 [wr (.bnd 7) Reg.COMMON.PORT_ACCESS_RIGHTS 0]) 6 m) ∧
    (let m := someMsg 5 1 0 (fldAddr .pwr Reg.PWR.FLOOR 0) 0 false [0, 0, 0, 0]
     Serves (meshState 0 [wr .pwr Reg.COMMON.PORT_ACCESS_RIGHTS 0x3FF]) 6 m ∧ LetIn (meshState 0 [wr .pwr Reg.COMMON.PORT_ACCESS_RIGHTS 0x3FF]) .pair m.addr false ∧
     Refused (meshState 0 [wr .pwr Reg.COMMON.PORT_ACCESS_RIGHTS 0]) .pair m.addr true ∧ Serves (meshState 0 [wr .pwr Reg.COMMON.PORT_ACCESS_RIGHTS 0]) 6 m) ∧
    Serves (meshState 0 []) 6 (someMsg 5 2 0 0 0 false []) :=
  ⟨⟨serves_of (by decide +kernel), letRead_of (by decide +kernel), refused_of (by decide +kernel), serves_of (by decide +kernel)⟩,
    ⟨serves_of (by decide +kernel), letIn_of (by decide +kernel), refused_of (by decide +kernel), serves_of (by decide +kernel)⟩, serves_of (by decide +kernel)⟩

theorem meets_PairPortServedMessagesRouted_routed :
    let s := { withRegs [wr (.bnd 0) Reg.BND.PORT_STATUS_STATE 2, wr (.bnd 0) Reg.BND.PORT_CTRL_ROUTE_EN 1, wr (.bnd 7) Reg.BND7.FAB_CTRL_LOCK 1,
        wr (.bnd 7) Reg.BND7.DIMS_DX_M1 1] with bnd := { BndSt.empty with links := [(0, { LinkSt.down with peerReady := true })] } }
    let m := { someMsg 3 0 0 0 0 false [] with dst := 1 }
    let t := { s with bnd := { s.bnd with inbox := [{ port := 6, flits := 1, msg := m }] } }
    overtakes s m = false ∧ overtakes t m = false ∧ t.bnd.inbox.find? (fun a => a.msg == m) = some { port := 6, flits := 1, msg := m } ∧
    1 ≠ ownNode s ∧ inTakeover s = false ∧ inCoreReset s = false ∧ s.bnd.inbox = [] ∧ routePort s 1 = some (some 0) ∧ usable s 0 = true ∧
    (linkOf s 0).credits = [] := by decide +kernel

/-- A tag outstanding for a leg of piste 63's run. -/
def tagState (cls purpose : Nat) : State :=
  { meshState 0 [wr (.bnd 7) Reg.BND7.RESP_LIMIT 1] with
    bnd := { BndSt.empty with tags := [{ tag := 16383, node := 32768, cls := cls, piste := some 63, run := some 0, gate := 11, leg := 0, purpose := purpose, space := 0, addr := 0, len := 512, came := 256 }] }
    pistes := [(63, { PisteSt.idle with run := some 0 })]
    runs := { runs := [{ id := 0, cmd := none, order := 0, mask := 2 ^ 63, left := 2 ^ 63, slot := 0, epoch := 0, layout := 0, iter := 0, atBoundary := 0,
                         fixed := some 0, started := true, status := 0, island := 0, leg := 0, recUid := none, replay := false, relayout := false, replays := 0,
                         held := none }], nextId := 1, topIter := none } }

theorem meets_ResponsesEndRequests :
    let s := tagState 3 0
    s.bnd.tagWait = [] ∧ s.units.marksDue = [] ∧ findTag s 16383 ≠ none ∧ servesP s (someMsg 3 2 0 0 16383 true []) = true ∧
    servesP s (someMsg 0 31 0 1 16383 true []) = true ∧ servesP s (someMsg 3 31 0 3 16383 true []) = true ∧ rd s (.bnd 7) Reg.BND7.RESP_LIMIT ≠ 0 ∧
    (pisteOf s 63).run = some 0 ∧ (pisteOf s 63).failed = false ∧ s.runs.runs.map (·.status) = [0] ∧
    (∀ n ∈ [255, 256], let m := someMsg 3 3 0 0 16383 true (List.replicate n 9); servesP (tagState 3 1) m = true ∧ (256 + m.data.length < 512 ↔ n = 255)) := by
  decide +kernel


/-! ### Commands of the rings -/

/-- A command of ring 63. -/
def cmd63 (id : Nat) (body : CmdBody) (started : Bool) : Cmd := { someCmd id body started with ring := 63 }

/-- The ready module with HBM in use, all stacks admitting, an HDM window of 256 MB, and one command waiting in ring 63 behind another of ring 0. -/
def cmdState (body : CmdBody) : State :=
  { (wr .hif Reg.HIF.HDM_UNITS 1).run hbmState with
    host := { HostSt.empty with accepted := [someCmd 3 (.signal 0 0 1) true, cmd63 9 body false], nextCmd := 10 }
    mem := { Mem.empty with hostRefused := [(5, true)] } }

theorem meets_DataCommandsMove_copy :
    (∀ x ∈ [(0, 0, 0, 0, 0), (hbmBytes hbmState - 1, 0, 2, 0, 1), (64, 4096, 4032, 0, 0), (0x4FFF, 0, 2, 1, 0), (0, 0x4FFF, 2, 0, 1)],
      let b := CmdBody.copy x.1 x.2.1 x.2.2.1 x.2.2.2.1 x.2.2.2.2
      let s := cmdState b
      underWay s 63 b = none ∧ startable s 63 = some (cmd63 9 b false) ∧ (fwRuns s || !byFirmware b) = true) ∧
    (outside (cmdState (.copy (hbmBytes hbmState - 1) 0 2 0 1)) 0 (hbmBytes hbmState - 1) 2 = true) ∧
    (let s := cmdState (.copy 64 4096 4032 0 0)
     outside s 0 64 4032 = false ∧ outside s 0 4096 4032 = false ∧ overlaps 64 4096 4032 0 0 = false ∧ s.stk.granules = [] ∧
     spaceHot s 0 64 4032 = false ∧ spaceHot s 0 4096 4032 = false ∧
     refusedPage s 0 64 4032 = none ∧ refusedPage s 0 4096 4032 = none) ∧
    (let s := cmdState (.copy 0 1 2 0 0)
     startable s 63 = some (cmd63 9 (.copy 0 1 2 0 0) false) ∧ overlaps 0 1 2 0 0 = true ∧ outside s 0 0 2 = false ∧ outside s 0 1 2 = false ∧
     spaceHot s 0 0 2 = false ∧ spaceHot s 0 1 2 = false) ∧
    spaceHot ((wr (.stk 0) Reg.STK.STK_STATUS_THERM 3).run (cmdState (.copy 0 1 2 0 0))) 0 0 2 = true ∧
    (let s := cmdState (.copy 0x4FFF 0 2 1 0)
     spaceHot s 1 0x4FFF 2 = false ∧ spaceHot s 0 0 2 = false ∧ min (bytesBefore s 1 0x4FFF 2) (bytesBefore s 0 0 2) < 2) := by decide +kernel

/-- As `cmdState`, with the command under way. -/
def stepState (body : CmdBody) (part : CmdPart) : State :=
  { cmdState body with host := { HostSt.empty with accepted := [{ cmd63 9 body true with part := part }], nextCmd := 10 } }

theorem meets_DataCommandsMove_steps :
    (∀ sp ∈ [0, 1], ∀ o ∈ [65536, 131072],
      let b := CmdBody.copy 0 (2 ^ 20) 131073 sp 0
      let s := stepState b { moved := o }
      underWay s 63 b = some { cmd63 9 b true with part := { moved := o } } ∧ o < 131073 ∧ outside s sp 0 131073 = false ∧ outside s 0 (2 ^ 20) 131073 = false ∧
      overlaps 0 (2 ^ 20) 131073 sp 0 = false ∧ spaceHot s sp o (min 65536 (131073 - o)) = false ∧ spaceHot s 0 (2 ^ 20 + o) (min 65536 (131073 - o)) = false ∧
      refusedPage s 0 (2 ^ 20 + o) (min 65536 (131073 - o)) = none ∧ refusedPage s sp o (min 65536 (131073 - o)) = none ∧ s.stk.granules = []) ∧
    (let b := CmdBody.copy 0 1 131072 0 0
     let s := stepState b { moved := 65536 }
     underWay s 63 b ≠ none ∧ overlaps 0 1 131072 0 0 = true ∧ refusedPage s 0 65536 65536 = none ∧ refusedPage s 0 65537 65536 = none) ∧
    (let b := CmdBody.fill 0 65537 1 7
     let s := stepState b { moved := 65536 }
     underWay s 63 b = some { cmd63 9 b true with part := { moved := 65536 } } ∧ outside s 1 0 65537 = false ∧ spaceHot s 1 65536 1 = false ∧
     refusedPage s 1 65536 1 = none ∧ bytesBefore s 1 0 65536 < 65536) := by decide +kernel

theorem meets_DataCommandsMove :
    (∀ b ∈ [CmdBody.fill 0 0 0 7, .fill (hbmBytes hbmState) 1 0 7, .fill 4095 2 1 7, .flush 0 0, .flush (2 ^ 28) 1],
      underWay (cmdState b) 63 b = none ∧ startable (cmdState b) 63 = some (cmd63 9 b false) ∧ (fwRuns (cmdState b) || !byFirmware b) = true) ∧
    outside (cmdState (.fill (hbmBytes hbmState) 1 0 7)) 0 (hbmBytes hbmState) 1 = true ∧ outside (cmdState (.fill 4095 2 1 7)) 1 4095 2 = false ∧
    refusedPage (cmdState (.fill 4095 2 1 7)) 1 4095 2 = none ∧ windowSize (cmdState (.flush 0 0)) ≤ windowSize (cmdState (.flush 0 0)) ∧
    windowSize (cmdState (.flush (2 ^ 28) 1)) < 2 ^ 28 + 1 ∧
    spaceHot (cmdState (.fill 4095 2 1 7)) 1 4095 2 = false ∧
    (∀ g ∈ flushed { cmdState (.flush 0 0) with stk := { StkSt.empty with granules := fullAdder } } 0 0, hotRange (cmdState (.flush 0 0)) g.addr 64 = false) ∧
    (∀ g ∈ fullAdder, g.addr % 64 = 0 ∧ g.bytes.length = 64) ∧ (fullAdder.map (·.addr)).Nodup := by decide +kernel

theorem meets_ControlCommandsTaken :
    (∀ b ∈ [CmdBody.modeChange 0 1, .modeChange (2 ^ 32 - 1) 1, .modeChange 1 0x300, .layoutChange 0 true 3 1 0, .layoutChange (2 ^ 32 - 1) false 0 0 0, .fence 0,
        .fence 1, .signal 4095 65535 1, .wait 4095 (0#64).toNat 0, .wait 4095 (1#64).toNat 0],
      startable (cmdState b) 63 = some (cmd63 9 b false) ∧ (fwRuns (cmdState b) || !byFirmware b) = true) ∧
    (cmdState (.fence 0)).mode.cmd = 0 ∧ (cmdState (.fence 0)).layout.cmd = 0 ∧ (cmdState (.fence 0)).layout.pend = none ∧ modeWordBad 0x300 = true ∧
    modeWordBad 1 = false ∧ standing (cmdState (.fence 0)) 63 = true ∧ countOf (cmdState (.fence 0)) 4095 = 0 := by decide +kernel

theorem meets_ControlCommandsTaken_core :
    readyState.sec.phase = .ready ∧ fwRuns readyState = true ∧ waitAt readyState 852 3 = none ∧ (0#64).toNat ≤ countOf readyState 4095 ∧
    countOf readyState 4095 < (1#64).toNat := by decide +kernel

theorem meets_ControlCommandsTaken_fence :
    (∀ d ∈ (cmdState (.fence 0)).host.accepted, d ≠ cmd63 9 (.fence 0) false → ∀ k, d.body ≠ some (.fence k)) ∧
    (∀ d ∈ (cmdState (.fence 0)).host.accepted, 9 ≤ d.id ∨ ((0 : Nat) = 0 ∧ d.ring ≠ 63)) ∧
    (∃ d ∈ (cmdState (.fence 1)).host.accepted, d.id < 9 ∧ ((1 : Nat) ≠ 0 ∨ d.ring = 63)) := by
  refine ⟨?_, by decide +kernel, by decide +kernel⟩
  intro d hd hn k
  have : d = someCmd 3 (.signal 0 0 1) true ∨ d = cmd63 9 (.fence 0) false := by simpa [cmdState] using hd
  rcases this with rfl | rfl
  · simp [someCmd]
  · exact absurd rfl hn

theorem meets_ControlCommandsTaken_busy :
    let s := { cmdState (.layoutChange 1 false 0 0 0) with
      layout := { cmd := 0, applied := 0, pend := some { cmd := 3, epoch := 0, order := 0, relayout := none, run := none, reported := false } } }
    startable s 63 = some (cmd63 9 (.layoutChange 1 false 0 0 0) false) ∧ s.layout.cmd < 1 ∧ s.layout.pend ≠ none := by decide +kernel

/-- A map of 128 bytes without legs. -/
def emptyMap : List Byte :=
  let b := fun x => leBytes 4 0x50414D50 ++ leBytes 2 1 ++ [0, 0] ++ leBytes 4 128 ++ leBytes 4 7 ++ List.replicate 84 0 ++ x ++ List.replicate 24 0
  b (leBytes 4 (crc32c (b [0, 0, 0, 0])))

/-- Piste 63 with a resident map in slot 3, and pistes 0 and 1 fenced. -/
def mapRegs3 : List Prog :=
  [wr (.pst 63) Reg.PST.SLOT_ID 7 3, wr (.pst 0) Reg.PST.RUN_CTRL_FENCED 1, wr (.pst 1) Reg.PST.RUN_CTRL_FENCED 1]

theorem meets_RunsAndMapsAccepted :
    let at_ := fun b => (progs mapRegs3).run (cmdState b)
    (∀ b ∈ [CmdBody.run 3 3 0 0, .run (2 ^ 63 + 1) 3 0 0, .run (2 ^ 63) 2 0 0, .run (2 ^ 63) 3 0 0],
      startable (at_ b) 63 = some (cmd63 9 b false) ∧ (fwRuns (at_ b) || !byFirmware b) = true) ∧
    serviceMask (at_ (.run 3 3 0 0)) 3 = 0 ∧ fenceStops (at_ (.run (2 ^ 63 + 1) 3 0 0)) (2 ^ 63 + 1) = true ∧
    serviceMask (at_ (.run (2 ^ 63) 3 0 0)) (2 ^ 63) ≠ 0 ∧ fenceStops (at_ (.run (2 ^ 63) 3 0 0)) (2 ^ 63) = false ∧
    runStatus (at_ (.run (2 ^ 63) 2 0 0)) [63] 2 ≠ none ∧ runStatus (at_ (.run (2 ^ 63) 3 0 0)) [63] 3 = none := by decide +kernel

/-- The ready module with the map at the start of HBM and of host memory, waiting to be loaded. -/
def loadState (b : CmdBody) (poison : Bool) : State :=
  let s := (progs mapRegs3).run (cmdState b)
  { s with mem := { s.mem with hbm := sparse 0 emptyMap, host := sparse 0x4FC0 emptyMap, hbmPoison := if poison then [(0, true)] else [] } }

theorem meets_RunsAndMapsAccepted_maps :
    (∀ b ∈ [CmdBody.loadMap 0 0 3 3, .loadMap (hbmBytes hbmState) 0 3 (2 ^ 63), .loadMap 0x4FC0 1 3 (2 ^ 63), .loadMap 0 0 3 (2 ^ 63), .loadMap 0 0 3 (3 * 2 ^ 62), .loadMap 64 0 3 (2 ^ 63)],
      underWay (loadState b false) 63 b = none ∧ startable (loadState b false) 63 = some (cmd63 9 b false) ∧
      (fwRuns (loadState b false) || !byFirmware b) = true) ∧
    serviceMask (loadState (.loadMap 0 0 3 3) false) 3 = 0 ∧
    (let s := loadState (.loadMap (hbmBytes hbmState) 0 3 (2 ^ 63)) false
     serviceMask s (2 ^ 63) = 2 ^ 63 ∧ maskList 64 (2 ^ 63) = [63] ∧ outside s 0 (hbmBytes hbmState) 128 = true) ∧
    (let s := loadState (.loadMap 0x4FC0 1 3 (2 ^ 63)) false
     imageExtent s 1 0x4FC0 = 128 ∧ spaceHot s 1 0x4FC0 128 = false ∧ outside s 1 0x4FC0 128 = false ∧ refusedPage s 1 0x4FC0 128 ≠ none) ∧
    (let s := loadState (.loadMap 0 0 3 (2 ^ 63)) true
     refusedPage s 0 0 128 = none ∧ spaceBad s 0 0 128 = true) ∧
    (∀ m ∈ [2 ^ 63, 3 * 2 ^ 62],
     let s := loadState (.loadMap 0 0 3 m) false
     imageExtent s 0 0 = 128 ∧ spaceHot s 0 0 128 = false ∧ outside s 0 0 128 = false ∧ spaceBad s 0 0 128 = false ∧ serviceMask s m = m ∧
     (∀ p ∈ maskList 64 m, imageStatus (imageOf (spaceBytes s 0 0 128)) p 3 = 0) ∧
     idlePiste s 63 = true ∧ (pisteOf s 63).loads = [] ∧ s.runs.runs = []) ∧
    (let s := loadState (.loadMap 64 0 3 (2 ^ 63)) false
     spaceBad s 0 64 128 = false ∧ imageStatus (imageOf (spaceBytes s 0 64 (imageExtent s 0 64))) 63 3 ≠ 0) ∧
    idlePiste (legState 0 []) 0 = false := by decide +kernel

theorem meets_RunsAndMapsAccepted_steps :
    let b := CmdBody.loadMap 0 0 3 (3 * 2 ^ 62)
    let part : CmdPart := { moved := 1, mask := 3 * 2 ^ 62, image := emptyMap }
    let s := stepState b part
    let u := (progs [wr (.pst 62) Reg.PST.RUN_CTRL_FENCED 1, wr (.pst 63) Reg.PST.RUN_CTRL_FENCED 1]).run s
    underWay s 63 b = some { cmd63 9 b true with part := part } ∧ fwRuns s = true ∧ maskList 64 (3 * 2 ^ 62) = [62, 63] ∧
    maskList 64 (serviceMask s (3 * 2 ^ 62)) ≠ [] ∧ imageStatus (imageOf emptyMap) 63 3 = 0 ∧
    underWay u 63 b = some { cmd63 9 b true with part := part } ∧ fwRuns u = true ∧ maskList 64 (serviceMask u (3 * 2 ^ 62)) = [] := by decide +kernel

/-- A snapshot buffer of one piste at the start of HBM. -/
def snapState (b : CmdBody) (magic : Nat) : State :=
  let s := cmdState b
  { s with mem := { s.mem with hbm := sparse 0 (leBytes 4 magic ++ leBytes 4 1 ++ leBytes 8 0 ++ leBytes 8 (2 ^ 63)) } }

theorem meets_SnapshotsAndMigrations :
    (∀ b ∈ [CmdBody.snapshotSave 0 (2 ^ 63) 0 53311, .snapshotSave 0 (2 ^ 63) 0 53312, .snapshotRestore 0 (2 ^ 63) 0 53312],
      underWay (snapState b 0x504E5347) 63 b = none ∧ startable (snapState b 0x504E5347) 63 = some (cmd63 9 b false) ∧ (fwRuns (snapState b 0x504E5347) || !byFirmware b) = true ∧
      ∀ d ∈ ringAccepted (snapState b 0x504E5347) 63, d.started = false) ∧
    (let s := snapState (.snapshotSave 0 (2 ^ 63) 0 53311) 0
     serviceMask s (2 ^ 63) = 2 ^ 63 ∧ snapRefusal s 0 (2 ^ 63) 0 53311 ≠ 0) ∧
    (let s := snapState (.snapshotSave 0 (2 ^ 63) 0 53312) 0
     snapRefusal s 0 (2 ^ 63) 0 53312 = 0 ∧ allHeld s (2 ^ 63) = true ∧ spaceHot s 0 0 (recordsAt 1) = false ∧ maskList 64 (2 ^ 63) = [63] ∧
     s.stk.granules = []) := by decide +kernel

theorem meets_SnapshotsAndMigrations_steps :
    (∀ b ∈ [CmdBody.snapshotSave 0 (3 * 2 ^ 62) 0 106560, .snapshotRestore 0 (3 * 2 ^ 62) 0 106560],
      let part : CmdPart := { moved := 1, mask := 3 * 2 ^ 62 }
      let s := stepState b part
      underWay s 63 b = some { cmd63 9 b true with part := part } ∧ fwRuns s = true ∧ snapRefusal s 0 (3 * 2 ^ 62) 0 106560 = 0 ∧
      allHeld s (serviceMask s (3 * 2 ^ 62)) = true ∧ spaceHot s 0 (recordsAt 1) 53248 = false ∧ (maskList 64 (3 * 2 ^ 62))[1]? = some 63 ∧
      spaceBad s 0 0 (snapSize (3 * 2 ^ 62)) = false ∧ (s.host.accepted.map (·.id)).Nodup ∧ s.stk.granules = []) := by decide +kernel

/-- A table of one row, hot, with its directory, in committed regions; a migration of the row to the cold region. -/
def migState (b : CmdBody) (valid : Nat) : State :=
  let s := cmdState b
  { s with
    rgn := { committed := [(0, rgnAll 0 0 0), (1, rgnAll 0 1 0)] }
    mem := { s.mem with
      hbm := sparse 0 (leBytes 8 (1 + 0x20 * 2 ^ 32) ++ leBytes 8 (0x1000 * 2 ^ 16) ++ leBytes 8 (0x2000 * 2 ^ 16) ++ leBytes 8 1) ++
        sparse 0x1000 (leBytes 2 0 ++ leBytes 6 0x1100) ++ sparse 0x1100 (leBytes 4 0 ++ leBytes 4 valid) } }

/-- The migration. -/
def someMig : Migration := { cmd := 9, region := 0, offset := 0, table := 0, row := 0, tier := 1, newSlot := 0, busy := [] }

theorem meets_SnapshotsAndMigrations_migrate :
    let b := CmdBody.tableMigrate 0 0 1 0 0 0
    let s := migState b 2
    Awaits s 63 b (cmd63 9 b false) ∧ ((unfenced s).filter fun p => (pisteOf s p).run.isSome) = [] ∧ migHot s someMig = false ∧ migRecordBad s someMig = false ∧
    ∃ x, migRow s someMig = some x ∧ migOk s x someMig = true ∧ placeRefused (firmwareView s) x (oldPlace x) = false ∧
      placeRefused (firmwareView s) x (newPlace x someMig) = false ∧ NoneOpen s x.at_ 16 ∧ 6 ≤ x.t.rowLen := by
  refine ⟨by unfold Awaits; decide +kernel, by decide +kernel, by decide +kernel, by decide +kernel, ?_⟩
  have ⟨x, h, y⟩ := any_of (o := migRow (migState (.tableMigrate 0 0 1 0 0 0) 2) someMig)
    (p := fun x => decide (migOk (migState (.tableMigrate 0 0 1 0 0 0) 2) x someMig = true ∧
      placeRefused (firmwareView (migState (.tableMigrate 0 0 1 0 0 0) 2)) x (oldPlace x) = false ∧
      placeRefused (firmwareView (migState (.tableMigrate 0 0 1 0 0 0) 2)) x (newPlace x someMig) = false ∧
      6 ≤ x.t.rowLen)) (by decide +kernel)
  have ⟨a, b, c, d⟩ := of_decide_eq_true y
  exact ⟨x, h, a, b, c, fun _ _ => rfl, d⟩

theorem meets_SnapshotsAndMigrations_migrate_failed :
    let b := CmdBody.tableMigrate 0 0 1 0 0 0
    startable (migState b 0) 63 = some (cmd63 9 b false) ∧ migRecordBad (migState b 0) someMig = false ∧ (migRow (migState b 0) someMig).isNone = true := by
  decide +kernel

theorem meets_SnapshotsAndMigrations_migrate_copy :
    let s := { migState (.tableMigrate 0 0 1 0 0 0) 6 with
      host := { HostSt.empty with accepted := [cmd63 9 (.tableMigrate 0 0 1 0 0 0) true], migrations := [someMig] } }
    s.host.migrations = [someMig] ∧ someMig.busy = [] ∧ fwRuns s = true ∧ migHot s someMig = false ∧ findCmd s someMig.cmd ≠ none ∧ (migRow s someMig).isSome = true ∧
    rgnLoc (rgnOf (firmwareView s) 64 1) ≤ 1 := by decide +kernel

/-- Ring 63 configured with 16 entries, enabled or not, with the indices given. -/
def ring63 (en tail head vector : Nat) : List Prog :=
  let pg := Page.ring 63
  [wr pg Reg.RING.CFG_SQ_LOG2 4, wr pg Reg.RING.CFG_CQ_LOG2 4, wr pg Reg.RING.CFG_VECTOR vector, wr pg Reg.RING.SQ_BASE_LO 0x10000, wr pg Reg.RING.CQ_BASE_LO 0x20000,
   wr pg Reg.RING.CTRL_EN en, wr pg Reg.RING.SQ_TAIL tail, wr pg Reg.RING.SQ_HEAD head]

theorem meets_RingsServed :
    let s := { withRegs (ring63 1 15 0 4) with host := { HostSt.empty with unreleased := [(63, 15)] } }
    (∀ a ∈ [fldAddr (.ring 63) Reg.RING.SQ_TAIL 0, fldAddr (.ring 63) Reg.RING.CQ_HEAD 0, fldAddr (.ring 63) Reg.RING.CTRL_EN 0],
      LetIn s (.cp 0) a false) ∧
    sqSize s 63 = 16 ∧ cqSize s 63 = 16 ∧ (15#32).toNat % 65536 < sqSize s 63 ∧ sqSize s 63 ≤ (16#32).toNat % 65536 ∧
    ((15#32).toNat % 65536 + cqSize s 63 - rd s (.ring 63) Reg.RING.CQ_HEAD % cqSize s 63) % cqSize s 63 ≤ unreleased s 63 ∧
    turnRing s = some 63 ∧ refusedPage s 1 0x10000 64 = none ∧ spaceBad s 1 0x10000 64 = false ∧ spaceHot s 1 0x10000 64 = false ∧ s.host.sramFatal = false ∧
    s.host.accepted = [] ∧ s.fw.captures = [] :=
  ⟨letIn_all (by decide +kernel), by decide +kernel, by decide +kernel, by decide +kernel, by decide +kernel, by decide +kernel, by decide +kernel,
    by decide +kernel, by decide +kernel, by decide +kernel, rfl, rfl, rfl⟩

theorem meets_RingsServed_fatal :
    let s := { withRegs (ring63 1 15 0 4) with host := { HostSt.empty with sramFatal := true } }
    turnRing s = some 63 ∧ refusedPage s 1 0x10000 64 = none ∧ spaceBad s 1 0x10000 64 = false ∧ spaceHot s 1 0x10000 64 = false ∧
    s.host.sramFatal = true := by decide +kernel

theorem meets_RingsServed_enable :
    (∀ x ∈ [(4, false), (3, true)],
      let s := withRegs (ring63 0 0 0 x.1)
      letInB s (.cp 0) (fldAddr (.ring 63) Reg.RING.CTRL_EN 0) false = true ∧ rd s (.ring 63) Reg.RING.CTRL_EN = 0 ∧ ringCfgBad s 63 = x.2 ∧ ringIdle s 63 = true) ∧
    bit (1#32).toNat 0 = true ∧ bit (1#32).toNat 1 = false ∧ bit (2#32).toNat 1 = true ∧ bit (2#32).toNat 0 = false ∧
    (let s := { withRegs (ring63 1 0 0 4) with host := { HostSt.empty with unreleased := [(63, 14)] } }
     unreleased s 63 < ((15#32).toNat % 65536 + cqSize s 63 - rd s (.ring 63) Reg.RING.CQ_HEAD % cqSize s 63) % cqSize s 63) := by decide +kernel

theorem meets_RingsServed_complete :
    let d : Done := { cmd := cmd63 9 (.fence 0) true, status := 0, recUid := none, detail := 0 }
    let s := { withRegs (ring63 1 0 0 4) with host := { HostSt.empty with finished := [d] } }
    ringFinished s 63 = [d] ∧ rd s (.ring 63) Reg.RING.CTRL_EN = 1 ∧ refusedPage s 1 0x20000 32 = none ∧ spaceHot s 1 0x20000 32 = false ∧ (s.host.accepted.map (·.id)).Nodup := by decide +kernel


theorem smGet_above {α : Type} (d : Nat → α) (m : SMap α) (k : Nat) (h : ∀ e ∈ m, e.1 < k) : smGet d m k = d k := by
  induction m with
  | nil => rfl
  | cons x r ih =>
    have := h x (by simp)
    simp only [smGet, if_neg (show x.1 ≠ k by omega)]
    exact ih fun e he => h e (by simp [he])

theorem leNat_zero (l : List Byte) (h : ∀ x ∈ l, x = 0) : leNat l = 0 := by
  induction l with
  | nil => rfl
  | cons x r ih =>
    have : x = 0 := h x (by simp)
    subst this
    simp [leNat, ih fun y hy => h y (by simp [hy])]

/-- The numbers of a list of bytes that a map lists nothing of from `k` on are 0 there. -/
theorem leAt_above (m : SMap Byte) (n k off w : Nat) (h : ∀ e ∈ m, e.1 < k) (ho : k ≤ off) : leAt (smList byteDefault m 0 n) off w = 0 := by
  refine leNat_zero _ fun x hx => ?_
  obtain ⟨i, hi⟩ := List.mem_iff_getElem?.mp (List.mem_of_mem_take hx)
  rw [List.getElem?_drop] at hi
  simp only [smList, List.getElem?_map] at hi
  obtain ⟨j, hj, rfl⟩ := Option.map_eq_some_iff.mp hi
  have hj : off + i = j := by
    rw [List.getElem?_eq_some_iff] at hj
    obtain ⟨_, h2⟩ := hj
    simpa using h2
  rw [smGet_above _ _ _ (fun e he => by have := h e he; omega)]
  rfl

theorem leAt_take (m : SMap Byte) (n off w : Nat) (h : off + w ≤ n) : leAt (smList byteDefault m 0 n) off w = leNat (smList byteDefault m off w) := by
  unfold leAt
  congr 1
  apply List.ext_getElem?
  intro i
  simp only [smList, List.getElem?_take, List.getElem?_drop, List.getElem?_map, Nat.zero_add]
  by_cases hi : i < w
  · rw [if_pos hi, List.getElem?_range (by omega), List.getElem?_range hi]; rfl
  · rw [if_neg hi, List.getElem?_eq_none (by simpa using hi)]; rfl

theorem meets_SnapshotsAndMigrations_restore :
    (let s := snapState (.snapshotRestore 0 (2 ^ 63) 0 53312) 0x504E5347
     snapRefusal s 0 (2 ^ 63) 0 53312 = 0 ∧ allHeld s (2 ^ 63) = true ∧ restoreRefusal s 0 (2 ^ 63) 0 = 0) ∧
    (let s := snapState (.snapshotRestore 0 (2 ^ 63) 0 53312) 0
     snapRefusal s 0 (2 ^ 63) 0 53312 = 0 ∧ restoreRefusal s 0 (2 ^ 63) 0 ≠ 0) := by
  refine ⟨⟨by decide +kernel, by decide +kernel, ?_⟩, by decide +kernel, ?_⟩
  · have hb : spaceBytes (snapState (.snapshotRestore 0 (2 ^ 63) 0 53312) 0x504E5347) 0 0 (snapSize (2 ^ 63)) =
        smList byteDefault (sparse 0 (leBytes 4 0x504E5347 ++ leBytes 4 1 ++ leBytes 8 0 ++ leBytes 8 (2 ^ 63))) 0 53312 := by
      rw [show snapSize (2 ^ 63) = 53312 by decide +kernel]; rfl
    have hp : spaceBad (snapState (.snapshotRestore 0 (2 ^ 63) 0 53312) 0x504E5347) 0 0 (snapSize (2 ^ 63)) = false := by decide +kernel
    have hs : snapSeed (snapState (.snapshotRestore 0 (2 ^ 63) 0 53312) 0x504E5347) (2 ^ 63) = 0 := by decide +kernel
    unfold restoreRefusal
    simp only [hb, hp, hs]
    have hany : ((maskStreams (2 ^ 63)).zipIdx.any fun x => x.1.2.1 == 1 && decide (2 ^ 44 ≤ (snapRecord
        (smList byteDefault (sparse 0 (leBytes 4 0x504E5347 ++ leBytes 4 1 ++ leBytes 8 0 ++ leBytes 8 (2 ^ 63))) 0 53312) x.2).1)) = false := by
      rw [List.any_eq_false]
      intro x _
      have h0 : (snapRecord (smList byteDefault (sparse 0 (leBytes 4 0x504E5347 ++ leBytes 4 1 ++ leBytes 8 0 ++ leBytes 8 (2 ^ 63))) 0 53312) x.2).1 = 0 :=
        leAt_above _ _ 24 _ _ (by decide +kernel) (by omega)
      rw [h0]
      simp
    rw [leAt_take _ _ _ _ (by decide), leAt_take _ _ _ _ (by decide), leAt_take _ _ _ _ (by decide), leAt_take _ _ _ _ (by decide), hany]
    decide +kernel
  · have hb : spaceBytes (snapState (.snapshotRestore 0 (2 ^ 63) 0 53312) 0) 0 0 (snapSize (2 ^ 63)) =
        smList byteDefault (sparse 0 (leBytes 4 0 ++ leBytes 4 1 ++ leBytes 8 0 ++ leBytes 8 (2 ^ 63))) 0 53312 := by
      rw [show snapSize (2 ^ 63) = 53312 by decide +kernel]; rfl
    have hp : spaceBad (snapState (.snapshotRestore 0 (2 ^ 63) 0 53312) 0) 0 0 (snapSize (2 ^ 63)) = false := by decide +kernel
    unfold restoreRefusal
    simp only [hb, hp]
    rw [leAt_take _ _ _ _ (by decide)]
    simp only [show (leNat (smList byteDefault (sparse 0 (leBytes 4 0 ++ leBytes 4 1 ++ leBytes 8 0 ++ leBytes 8 (2 ^ 63))) 0 4) != 0x504E5347) = true by
      decide +kernel, Bool.true_or, if_true]
    decide


/-! ### Runs -/

/-- A run that stands on a piste, started or not. -/
def runAt (p : Nat) (started : Bool) : RunRec := { oneRun p with started := started, cmd := some 9 }

/-- The ready module with register fields set and one run, whose command waits in the command queue. -/
def runState (l : List Prog) (r : RunRec) (cmd : CmdBody) (x : PisteSt) : State :=
  { withRegs l with
    host := { HostSt.empty with accepted := [someCmd 9 cmd true] }
    pistes := [(63, x)]
    runs := { runs := [r], nextId := 1, topIter := none } }

/-- A RUN of piste 63. -/
def runBody : CmdBody := .run (2 ^ 63) 0 0 0

theorem meets_RunsBeginAndEnd_boundary :
    (let s := withRegs [wr (.pst 63) Reg.PST.RUN_CTRL_FENCE_PENDING 1]
     idlePiste s 63 = true ∧ fenced s 0 = false ∧ rd s (.pst 63) Reg.PST.RUN_CTRL_FENCE_PENDING = 1) ∧
    (let s := runState [wr (.pst 63) Reg.PST.RUN_CTRL_ARM 1] (runAt 63 true) runBody PisteSt.idle
     idlePiste s 63 = true ∧ rd s (.pst 63) Reg.PST.RUN_CTRL_FENCE_PENDING ≠ 1 ∧ ∀ x ∈ s.runs.runs, bit x.left 63 = false ∨ x.started = true) ∧
    (let s := runState [wr (.pst 63) Reg.PST.RUN_CTRL_ARM 1] (runAt 63 false) runBody PisteSt.idle
     idlePiste s 63 = true ∧ rd s (.pst 63) Reg.PST.RUN_CTRL_FENCE_PENDING ≠ 1 ∧ nextRun s 63 = some (runAt 63 false) ∧
     mayStart s 63 (runAt 63 false) = true ∧ snapHeld s 63 = false ∧ checkHeld s 63 = false) := by decide +kernel

theorem meets_RunsBeginAndEnd_start :
    ∀ x ∈ [(0, true), (1, false)],
      let s := runState [wr (.pst 63) Reg.PST.SLOT_ID x.1] (runAt 63 false) runBody { PisteSt.idle with waiting := some 0 }
      let r := runAt 63 false
      findRun s 0 = some r ∧ r.started = false ∧ r.fixed = some 0 ∧ r.epoch ≤ 0 ∧ layoutOk s r = true ∧
      (∀ p ∈ maskList 64 r.left, (pisteOf s p).waiting = some 0) ∧ ((∀ p ∈ maskList 64 r.left, rd s (.pst p) Reg.PST.SLOT_ID r.slot ≠ 0) ↔ x.2 = false) ∧
      63 ∈ maskList 64 r.left ∧ findCmd s 9 = some (someCmd 9 runBody true) := by decide +kernel

theorem meets_RunsBeginAndEnd_replay :
    let r := { runAt 63 false with id := 1, held := some 0, replay := true }
    let s := { runState [] r runBody { PisteSt.idle with waiting := some 1 } with runs := { runs := [r, runAt 63 false], nextId := 2, topIter := none } }
    findRun s 1 = some r ∧ layoutOk s r = true ∧ (∀ p ∈ maskList 64 r.left, (pisteOf s p).waiting = some 1) ∧
    rd s (.pst 63) Reg.PST.SLOT_ID r.slot = 0 ∧ r.held = some 0 ∧ runAt 63 false ∈ s.runs.runs := by decide +kernel

theorem meets_RunsBeginAndEnd_end :
    ∀ failed ∈ [true, false],
      let r := runAt 63 true
      let s := runState [] r runBody { PisteSt.idle with run := some 0, failed := failed }
      runOn s 63 = some r ∧ ((pisteOf s 63).failed || gatesDone s 63 r) = true ∧ s.fw.sampling ≠ some 63 ∧ r.left = 2 ^ 63 ∧ r.relayout = false ∧
      r.held = none ∧ r.status ≠ Code.STALE_SHARD ∧ r.cmd = some 9 ∧ findCmd s 9 = some (someCmd 9 runBody true) := by decide +kernel

theorem meets_RunsBeginAndEnd_hot :
    let s := { legState 0 (legBytes 1 0 1 2 0 1 0 0 0) with fw := { readyState.fw with sampling := some 0 }, gates := [(gateIsland 0 0, { GateSt.idle with next := 1 })] }
    let u := (progs [wr (.mod 0) Reg.MOD0.CONFIG_HBM_GB 384, wr (.stk 0) Reg.STK.STK_STATUS_THERM 3]).run s
    runOn u 0 = some (oneRun 0) ∧ captureHot u 0 (oneRun 0) = true := by decide +kernel

theorem meets_RunsBeginAndEnd_signal :
    ∀ x ∈ [(false, false), (true, false), (true, true)],
      let r := { oneRun 0 with replay := x.2 }
      let s : State := { readyState with
        mem := { Mem.empty with mapMem := if x.1 then [(15, 0x80)] else [(14, 0xFF)] }
        units := { UnitSt.empty with signalsDue := [{ piste := 0, gate := 11, leg := 0, sync := 0 }] }
        pistes := [(0, { PisteSt.idle with run := some 0 })]
        runs := { runs := [r], nextId := 1, topIter := none } }
      let d : SignalDue := { piste := 0, gate := 11, leg := 0, sync := 0 }
      runOn s 0 = some r ∧ s.units.signalsDue.find? (fun x => x.piste == 0 && x.gate == 11) = some d ∧ s.units.outStage = [] ∧ s.units.marksDue = [] ∧
      tagsOpen s 0 (some 11) (some d.leg) = false ∧ (imgSync (runImg s 0 r) d.sync).global = x.1 ∧ r.replay = x.2 := by
  decide +kernel

/-- A layout change, with a relayout run of slot 3 of piste 63 or none. -/
def someLayout (relayout : Bool) : LayoutChange :=
  { cmd := 9, epoch := 1, order := 0, relayout := if relayout then some (3, 2 ^ 63, 0) else none, run := none, reported := false }

theorem meets_ChangesEndOrStall_mode :
    (let r := { runAt 63 false with epoch := 1 }
     let s := runState [wr .mode Reg.MODE.LIMIT 1] r runBody PisteSt.idle
     findRun s 0 = some r ∧ r.started = false ∧ rd s .mode Reg.MODE.LIMIT ≠ 0 ∧ r.fixed = some 0 ∧ 0 < r.epoch ∧ r.cmd = some 9 ∧
     findCmd s 9 = some (someCmd 9 runBody true)) ∧
    (let s := runState [wr .mode Reg.MODE.LIMIT 1] (runAt 63 true) (.modeChange 1 0) PisteSt.idle
     modeChanges s = [(9, 1)] ∧ findCmd s 9 = some (someCmd 9 (.modeChange 1 0) true) ∧ rd s .mode Reg.MODE.LIMIT ≠ 0 ∧
     ((unfenced s).filter fun p => decide (epochOn s p < 1)) ≠ []) := by decide +kernel

theorem meets_ChangesEndOrStall_layout :
    ∀ relayout ∈ [false, true],
      let l := someLayout relayout
      let c := CmdBody.layoutChange 1 relayout 3 (2 ^ 63) 0
      let s := { runState [wr (.pst 63) Reg.PST.SLOT_ID 7 3, wr .mode Reg.MODE.LAYOUT_LIMIT 1] (runAt 63 true) c PisteSt.idle with
        layout := { cmd := 1, applied := 0, pend := some l } }
      s.layout.pend = some l ∧ l.run = none ∧ preFence s l = [] ∧ s.layout.applied ≤ l.epoch ∧ l.epoch ≤ s.layout.cmd ∧ l.reported = false ∧
      findCmd s l.cmd = some (someCmd 9 c true) ∧ rd s .mode Reg.MODE.LAYOUT_LIMIT ≠ 0 ∧ l.relayout = (if relayout then some (3, 2 ^ 63, 0) else none) ∧
      serviceMask s (2 ^ 63) ≠ 0 ∧ (∀ p ∈ maskList 64 (serviceMask s (2 ^ 63)), rd s (.pst p) Reg.PST.SLOT_ID 3 ≠ 0 ∧
        (imgChainEn (residentImg s p 3) = true → bit (serviceMask s (2 ^ 63)) (imgChainTo (residentImg s p 3)) = true)) := by decide +kernel

theorem meets_ChangesEndOrStall_replay :
    let r := { runAt 63 true with left := 0, status := Code.STALE_SHARD, replays := 2, island := 767 }
    let s := runState [] r runBody PisteSt.idle
    findRun s 0 = some r ∧ r.left = 0 ∧ fwRuns s = true ∧ r.status = Code.STALE_SHARD ∧ r.replays < 3 ∧ ∀ x ∈ s.runs.runs, x.held ≠ some 0 := by decide +kernel

/-- Piste 0 in its run with a forerunner program of one entry, for operand A of leg `leg` of gate `g`; region 0 has PF or not, gate `g` stands at `next`. -/
def frnState (f g leg next : Nat) (pf : Bool) : State :=
  let s := legState g (legBytes 1 0 1 NONE 2 NONE 0 0 0)
  { s with
    mem := { s.mem with mapMem := s.mem.mapMem ++ (sparse (0x20 + 4 * (12 + f)) (leBytes 4 (0x60 + 2 ^ 18)) ++
      sparse 0x60 (leBytes 4 (g + 256 * leg) ++ leBytes 4 0 ++ leBytes 4 64 ++ leBytes 4 0)) }
    gates := [(gateIsland 0 g, { GateSt.idle with next := next })]
    pistes := [(0, { PisteSt.idle with run := some 0, applied := [(0, if pf then rgnAll 0 0 0 ||| BitVec.ofNat 128 (2 ^ 54) else rgnAll 0 0 0)] })] }

theorem meets_LimitsForerunnersRegions_forerunner :
    ∀ x ∈ [(1, false), (0, false), (0, true)],
      let s := frnState 0 11 0 x.1 x.2
      let r := oneRun 0
      let y := imgFrn (runImg s 0 r) 0 0
      let e := frnEnv s 0 r y
      let d := e.desc (frnIdx e y)
      runOn s 0 = some r ∧ r.started = true ∧ (pisteOf s 0).failed = false ∧
      (frnList e.img 0).find? (fun z => decide (rd s (.frn 0) Reg.FRN.FRN_STATUS_ENTRY 0 ≤ z.1)) = some (0, y) ∧ 0 + 1 < 2 ^ Reg.FRN.FRN_STATUS_ENTRY.w ∧
      (x.1 = 1 → y.leg < (gateOf s (gateIsland 0 y.gate)).next) ∧
      (x.1 = 0 → (gateOf s (gateIsland 0 y.gate)).next ≤ y.leg ∧ (gateOf s (gateIsland 0 y.gate)).busy = false ∧ tagless s 0 = false ∧ descEmpty d = false ∧ rgnPf (rgnOf s 0 d.region) = x.2 ∧ d.scaleMode ≠ 1 ∧ d.outEn ≠ 1 ∧
        descStatus s 0 d .rd = 0 ∧ frnStages e y ≠ [] ∧ e.leg.waitEn = false ∧ (frnWants e y [] (frnStages e y)).1 ≠ [] ∧
        (∀ z ∈ (frnWants e y [] (frnStages e y)).1, hotRange s z.addr z.len = false) ∧ getsOpen s 0 y.gate y.leg = false ∧ (frnList e.img 0).length = 1 ∧
        fitting (min y.stageSize (2 ^ 22) - frnStaged e y) (frnWants e y [] (frnStages e y)).1 = (frnWants e y [] (frnStages e y)).1) := by decide +kernel

/-- As `frnState`, with the bytes of the operand fetched. -/
def frnHere : State :=
  let s := frnState 0 11 0 0 true
  { s with units := { s.units with fetched := [{ piste := 0, gate := 11, leg := 0, loc := 0, node := 0, space := 0, addr := 0, bytes := [1, 2, 3, 4], poison := false }] } }

theorem meets_LimitsForerunnersRegions_forerunner_here :
    let e := frnEnv frnHere 0 (oneRun 0) (imgFrn (runImg frnHere 0 (oneRun 0)) 0 0)
    frnWants e (imgFrn e.img 0 0) [] (frnStages e (imgFrn e.img 0 0)) = ([], true) ∧ frnDecided e (imgFrn e.img 0 0) = true := by decide +kernel

/-- Piste 0 in its run with an output forerunner program of one entry of leg 0 of the X-gate, and a staged result. -/
def outState (loc : Nat) : State :=
  let s := legState 11 (legBytes 1 0 NONE NONE 1 NONE 0 0 0)
  { hbmState with
    mem := { s.mem with mapMem := s.mem.mapMem ++ (sparse 0x58 (leBytes 4 (0x60 + 2 ^ 18)) ++ sparse 0x60 (leBytes 4 11 ++ leBytes 4 0 ++ leBytes 4 64 ++ leBytes 4 0)) }
    pistes := s.pistes, runs := s.runs
    units := { UnitSt.empty with
      outStage := [{ piste := 0, gate := 11, leg := 0, operand := 0, loc := loc, node := 0, cls := 1, addr := lastWord, bytes := List.replicate 64 1, poison := false, inRing := true }] } }

theorem meets_LimitsForerunnersRegions_writeback :
    ∀ loc ∈ [0, 1],
      let s := outState loc
      let x := imgFrn (runImg s 0 (oneRun 0)) 2 0
      runOn s 0 = some (oneRun 0) ∧ outEntry s 0 (runImg s 0 (oneRun 0)) = some (0, x) ∧
      (s.units.outStage.find? fun y => y.piste == 0 && y.gate == x.gate && y.leg == x.leg && y.operand == x.operand && y.inRing) = s.units.outStage.head? ∧ tagless s 0 = false ∧
      hotRange s lastWord 64 = false ∧ s.stk.granules = [] ∧
      refusedIn s [] [{ loc := loc, node := 0, space := 0, addr := lastWord, len := 64 }] = none := by decide +kernel

/-- A state on whose piste 0 time limits run. -/
def limited (s : State) (l : List Prog) : State := (progs (wr (.pst 0) Reg.PST.WAIT_LIMIT 1 :: l)).run s

theorem meets_LimitsForerunnersRegions_fifo :
    ∀ up ∈ [true, false],
      let s := { limited (legState 11 (legBytes 1 FIFO NONE NONE 1 NONE 0 0 0)) [] with
        gates := [(gateIsland 0 11, { GateSt.idle with need := if up then 1 else 0, busy := !up, held := if up then [] else [[1]] })] }
      let x := gateOf s (gateIsland 0 11)
      runOn s 0 = some (oneRun 0) ∧ rd s (.pst 0) Reg.PST.WAIT_LIMIT ≠ 0 ∧ (pisteOf s 0).failed = false ∧ bit (oneRun 0).left 0 = true ∧
      (if up = true then 0 < x.need ∧ x.up = [] else x.busy = true ∧ x.held ≠ []) := by decide +kernel

theorem meets_LimitsForerunnersRegions_stage :
    (let s := limited (frnState 0 11 0 0 true) []
     runOn s 0 = some (oneRun 0) ∧ rd s (.pst 0) Reg.PST.WAIT_LIMIT ≠ 0 ∧
     (frnList (runImg s 0 (oneRun 0)) 0).any (fun x => (nextLeg s 0 x.2.gate).any fun e => waitDone e && e.idx == x.2.leg) = true) ∧
    (let u := limited (outState 0) []
     let s := { u with
       gates := [(gateIsland 0 11, { GateSt.idle with busy := true })]
       units := { u.units with outStage := u.units.outStage.map fun w => { w with inRing := false } } }
     runOn s 0 = some (oneRun 0) ∧ rd s (.pst 0) Reg.PST.WAIT_LIMIT ≠ 0 ∧ (frnList (runImg s 0 (oneRun 0)) 2).length = 1 ∧
     (frnList (runImg s 0 (oneRun 0)) 2).all (fun x => let g := gateOf s (gateIsland 0 x.2.gate)
       g.next == x.2.leg && g.busy && !ringsHold s 0 x.2.gate x.2.leg) = true) := by decide +kernel

/-- Piste 0 at a REDUCE that closes channel 15 of two contributors, one of whose marks has arrived, with ALL or without. -/
def closeState (all : Nat) : State :=
  let s := limited (legState 11 (legBytes 3 0 1 NONE 1 NONE (1 + 2 * 15 + 32 + 2 ^ 14 * all) 0 0)) []
  { s with units := { s.units with chans := [(15, { tags := [some 0, none, none], marks := [2, 0, 0], waiting := some 0, expired := false })] } }

theorem meets_LimitsForerunnersRegions_close :
    ∀ all ∈ [0, 1],
      let s := closeState all
      runOn s 0 = some (oneRun 0) ∧ rd s (.pst 0) Reg.PST.WAIT_LIMIT ≠ 0 ∧
      (nextLeg s 0 11).any (fun e => e.leg.op == 3 && (redOf e.leg).chEn && (redOf e.leg).ch == 15 && (chanOf s 0 (redOf e.leg).ch).waiting == some e.run.id &&
        (redOf e.leg).all == (all == 1) && !closeReady (chanOf s 0 (redOf e.leg).ch) (redOf e.leg) e.run.iter && (List.range (redOf e.leg).k).any (bit (arrivedOf (chanOf s 0 (redOf e.leg).ch) e.run.iter))) = true := by decide +kernel

theorem meets_LimitsForerunnersRegions_regions :
    (LetIn readyState (.cp 0) (fldAddr (.rgn 0) Reg.RGN0.COMMIT_GO 0) false ∧ bit (1#32).toNat 0 = true) ∧
    (∀ w : Fin 16, LetIn readyState (.cp 3) (fldAddr (.rgn 1) Reg.RGN1.WSET_FRONT w) false ∧
      LetIn (withRegs [wr (.rgn 1) Reg.RGN1.WSET_VALID 1 w]) (.cp 3) (fldAddr (.rgn 1) Reg.RGN1.WSET_FRONT w) false) :=
  ⟨⟨letIn_of (by decide +kernel), by decide⟩, fun w => ⟨letIn_of (by revert w; decide +kernel), letIn_of (by revert w; decide +kernel)⟩⟩

theorem meets_LimitsForerunnersRegions_fronts :
    let s := withRegs [wr (.rgn 1) Reg.RGN1.WSET_VALID 1 15, wr (.rgn 1) Reg.RGN1.WSET_FRONT 255 15]
    255 ∈ fronts s ∧ 254 ∉ fronts s ∧ rd s (.rgn 1) Reg.RGN1.WSET_VALID 15 = 1 ∧ rd s (.rgn 1) Reg.RGN1.WSET_VALID 14 = 0 := by decide +kernel

/-- Weight set 15 valid, with a staged version; bank region 0 committed. -/
def pubState (stage : Nat) : State :=
  { withRegs [wr (.rgn 1) Reg.RGN1.WSET_VALID 1 15, wr (.rgn 1) Reg.RGN1.PUB_VERSION_STAGE stage] with
    rgn := { committed := [(0, rgnAll 0 0 0)] } }

theorem meets_LimitsForerunnersRegions_publish :
    (LetIn (pubState 1) (.cp 0) (fldAddr (.rgn 1) Reg.RGN1.PUBLISH_SET 0) false ∧ LetIn (pubState 0) (.cp 0) (fldAddr (.rgn 1) Reg.RGN1.PUBLISH_SET 0) false) ∧
    ∀ x ∈ [(1, true), (0, false)],
      let s := pubState x.1
      (rd s (.rgn 1) Reg.RGN1.WSET_VALID 15 = 1 ∧ rd s (.rgn 1) Reg.RGN1.PUB_VERSION 15 < rd s (.rgn 1) Reg.RGN1.PUB_VERSION_STAGE ∧
        rgnValid (committedRgn s (rd s (.rgn 1) Reg.RGN1.WSET_BANK0 15)) = true) ↔ x.2 = true :=
  ⟨⟨letIn_of (by decide +kernel), letIn_of (by decide +kernel)⟩, by decide +kernel⟩

/-- Piste 0 at a GATHER_SHARD, with BWD or without, whose shard has a version. -/
def shardState (version bwd : Nat) : State :=
  let s := legState 11 (legBytes 5 0 0 NONE 1 NONE bwd 0 0)
  { s with mem := { s.mem with hbm := sparse 0 (leBytes 4 version) } }

theorem meets_ShardsSweepsFallbacks_gather :
    (∀ x ∈ [(0, 0), (0, 1)], issuesB (shardState x.1 x.2) 0 11 5 opGatherShard
      (fun e => shardFresh e && versionOf e true == versionOf e false) = true) ∧
    (∀ x ∈ [(1, 0), (1, 1), (2, 1)], issuesB (shardState x.1 x.2) 0 11 5 opGatherShard
      (fun e => versionOf e false % 2 == 1 || (bit e.leg.p0 0 && versionOf e false != versionHeld e)) = true) := by decide +kernel

/-- A capture of gate 11 of a piste, that has fallen due. -/
def someCapture (p : Nat) : Capture := { piste := p, gate := 11, step := 0, iter := 0, checked := false, due := true }

theorem meets_ShardsSweepsFallbacks_sweep :
    (let s := { readyState with fw := { readyState.fw with captures := [someCapture 63] } }
     s.fw.captures.find? (fun c => c.piste == 63 && c.gate == 11 && checkOpen s c) = some (someCapture 63) ∧ checkersOf s 63 = 15 :: [31, 47] ∧
     rd s (.pst 63) Reg.PST.RUN_CTRL_FENCE_PENDING = 0 ∧ rd s (.pst 63) Reg.PST.RUN_CTRL_FENCED = 0) ∧
    (let s := { withRegs [wr (.pst 15) Reg.PST.RUN_CTRL_FENCED 1, wr (.pst 31) Reg.PST.RUN_CTRL_FENCED 1] with
       fw := { readyState.fw with captures := [someCapture 63] } }
     checkersOf s 63 = 47 :: []) := by decide +kernel

/-- Piste 63 fenced, its fallback still to come: the set at the start of HBM holds one image for piste 1, slot 3, or none that can be read. -/
def fallState (count : Nat) : State :=
  { (progs [wr (.pst 63) Reg.PST.RUN_CTRL_FENCED 1, wr (.mod 3) Reg.MOD3.FALLBACK_CTRL_VALID 1]).run hbmState with
    host := { HostSt.empty with accepted := [someCmd 9 (.run (2 ^ 63) 0 0 0) true] }
    runs := { runs := [runAt 63 false], nextId := 1, topIter := none }
    mem := { Mem.empty with
      hbm := sparse (16 * 63) (leBytes 6 0x1000 ++ leBytes 2 count) ++ sparse 0x1000 ([1, 3] ++ leBytes 2 0 ++ leBytes 4 128 ++ leBytes 8 0x2000) ++
        sparse 0x2000 emptyMap }
    fw := { readyState.fw with fencing := [63], holds := [(0, 1)] } }

theorem meets_ShardsSweepsFallbacks_fallback :
    (∀ count ∈ [1, 253],
      let s := fallState count
      s.fw.fencing = [63] ∧ fwRuns s = true ∧ s.sec.phase = .ready ∧ (unfenced s).all (idlePiste s) = true ∧
      rd s (.mod 3) Reg.MOD3.FALLBACK_CTRL_VALID = 1 ∧ (fencedList s).length = 1 ∧ (s.host.accepted.map (·.id)).Nodup ∧
      (∃ r ∈ s.runs.runs, r.started = false ∧ r.mask = 2 ^ 63 ∧ r.relayout = false ∧ r.held = none ∧ r.cmd = some 9) ∧ (findCmd s 9).isSome = true) ∧
    (fallbackItems (fallState 253) 63).isNone = true ∧ (fallbackItems (fallState 1) 63).any (fun l => l.map (fun x => (x.1, x.2.1)) == [(1, 3)]) = true := by
  decide +kernel


/-! ### Register writes -/

/-- The M-gate of the last M island of piste 63. -/
def m3 : Page := .gate 63 (mGate 4)

theorem meets_SmallRegistersWritten_spare :
    (∀ reg : Fin 5, ∀ lock ∈ [0, 1], letInB (withRegs [wr m3 Reg.GATEM.SPARE_LOCK_LOCK lock]) (.cp 0) (pageBase m3 + (if reg.val < 4 then 0x220 + 4 * reg.val else 0x230)) false = true) ∧
    (let s := withRegs []
     rd s m3 Reg.GATEM.SPARE_LOCK_LOCK = 0 ∧ spareClash ((List.range 4).map fun i => (regWord s (pageBase m3 + 0x220 + 4 * i)).toNat) ((1#32).toNat % 65536) = false ∧
     spareClash ((List.range 4).map fun i => (regWord s (pageBase m3 + 0x220 + 4 * i)).toNat) ((0xC000#32).toNat % 65536) = true) ∧
    rd (withRegs [wr m3 Reg.GATEM.SPARE_LOCK_LOCK 1]) m3 Reg.GATEM.SPARE_LOCK_LOCK = 1 := by decide +kernel

theorem meets_SmallRegistersWritten_clear :
    (∀ k : Fin 3, LetIn readyState (.cp 0) (fldAddr (.gate 63 (vGate k)) Reg.GATEV.DROP_CTRL_CLEAR 0) false) ∧ bit (1#32).toNat 0 = true :=
  ⟨fun k => letIn_of (by revert k; decide +kernel), by decide⟩

theorem meets_SmallRegistersWritten_chan :
    let s := { readyState with units := { UnitSt.empty with chans := [(63 * 16 + 15, { ChanSt.free with waiting := some 0 })] } }
    LetIn s (.cp 0) (fldAddr (.gate 63 11) Reg.GATEX.CHAN_RESET 0) false ∧ (chanOf s 63 ((14#32).toNat % 16)).waiting = none ∧
    (chanOf s 63 ((15#32).toNat % 16)).waiting ≠ none :=
  ⟨letIn_of (by decide +kernel), by decide +kernel, by decide +kernel⟩

theorem meets_SmallRegistersWritten_stack :
    ∀ st : Fin 12, LetIn readyState (.cp 0) (fldAddr (.stk st) Reg.STK.GROOM_CTRL_PAUSE 0) false ∧
      LetIn readyState (.cp 0) (fldAddr (.stk st) Reg.STK.MAX_CLEAR 0) false :=
  fun st => ⟨letIn_of (by revert st; decide +kernel), letIn_of (by revert st; decide +kernel)⟩

theorem meets_SmallRegistersWritten_module :
    ∀ a ∈ [fldAddr .tlm Reg.TLM.DIE_MAX_CLEAR 0, fldAddr .tlm Reg.TLM.SNAP 0, fldAddr .pwr Reg.PWR.SOFT_CAP 0], LetIn readyState (.cp 3) a false :=
  letIn_all (by decide +kernel)

theorem meets_SmallRegistersWritten_cap :
    bits (1000#32).toNat 0 12 = 1000 ∧ bits (2400#32).toNat 0 12 = 2400 ∧ bits (999#32).toNat 0 12 < 1000 ∧ 2400 < bits (2401#32).toNat 0 12 := by decide

/-- The ready module with port P up, in a pair or alone. -/
def portState (role : Nat) : State := withRegs [wr (.bnd 6) Reg.BND.PORT_STATUS_STATE 2, wr (.mod 4) Reg.MOD4.PAIR_STATUS_ROLE role]

theorem meets_SmallRegistersWritten_port :
    (∀ port : Fin 7, LetIn (portState 1) (.cp 0) (fldAddr (.bnd port) Reg.BND.PORT_CTRL_ROUTE_EN 0) true) ∧
    bit (3#32).toNat 2 = false ∧ bit (4#32).toNat 2 = true ∧ rd (portState 1) (.mod 4) Reg.MOD4.PAIR_STATUS_ROLE ≠ 0 ∧ portUp (portState 1) 6 = true ∧
    ((portState 1).pins.rstN = true ∧ idlePort ((progs [wr .rst Reg.RST.BOOT_STATUS_STEP 9, wr .rst Reg.RST.STRAP_CODE 4]).run (portState 1)) 6 = false) ∧
    routeHeld (portState 1) 0 = true ∧ routeHeld (portState 1) 6 = false :=
  ⟨fun p => letIn_of (by revert p; decide +kernel), by decide +kernel, by decide +kernel, by decide +kernel, by decide +kernel, by decide +kernel, by decide +kernel⟩

theorem meets_SecurityRegistersWritten_rollback :
    let s : State := { readyState with sec := { SecSt.cleared with phase := .ready, confirmed := true, bootRollback := 65 } }
    LetIn s (.cp 0) (fldAddr (.sec 0) Reg.SEC0.ROLLBACK_COMMIT 0) false ∧ bit (1#32).toNat 0 = true ∧ s.sec.confirmed = true ∧ s.fuses.rollback ≤ 64 ∧
    LetIn readyState (.cp 0) (fldAddr (.sec 0) Reg.SEC0.ROLLBACK_COMMIT 0) false ∧ readyState.sec.confirmed = false :=
  ⟨letIn_of (by decide +kernel), by decide, rfl, by decide, letIn_of (by decide +kernel), rfl⟩

/-- A module that waits for the host's image, of the size given. -/
def waitingHost (n : Nat) : State :=
  { withRegs [wr (.sec 0) Reg.SEC0.HOST_IMG_SIZE n] with sec := { SecSt.cleared with phase := .waitHost } }

theorem meets_SecurityRegistersWritten_image :
    ∀ x ∈ [(7340032, true), (7340033, false)],
      letInB (waitingHost x.1) (.cp 0) (fldAddr (.sec 0) Reg.SEC0.HOST_IMG_CTRL_GO 0) false = true ∧ (waitingHost x.1).sec.phase = .waitHost ∧
      (rd (waitingHost x.1) (.sec 0) Reg.SEC0.HOST_IMG_SIZE ≤ 7340032 ↔ x.2 = true) := by decide +kernel

theorem meets_SecurityRegistersWritten_token :
    (∀ fails ∈ [7, 8], debugAnswers (withRegs [wr (.sec 0) Reg.SEC0.DBG_STATUS_FAILS fails]) = true) ∧
    (let s := withRegs [wr (.sec 0) Reg.SEC0.DBG_STATUS_FAILS 7]
     s.fuses.debugDisable = false ∧ rd s (.sec 0) Reg.SEC0.DBG_STATUS_FAILS < 8) ∧
    (let s := withRegs [wr (.sec 0) Reg.SEC0.DBG_STATUS_FAILS 8]
     8 ≤ rd s (.sec 0) Reg.SEC0.DBG_STATUS_FAILS) ∧
    LetIn readyState (.cp 0) (fldAddr (.sec 0) Reg.SEC0.DBG_RELOCK 0) false ∧ bit (1#32).toNat 0 = true :=
  ⟨by decide +kernel, by decide +kernel, by decide +kernel, letIn_of (by decide +kernel), by decide⟩

/-- The hold of manufacturing test. -/
def holdState (held : Nat) : State :=
  let s := (progs [wr .rst Reg.RST.STRAP_CODE 1, wr .dbg Reg.DBG.HOLD_HELD held]).run State.reset
  { s with sec := { SecSt.cleared with phase := .hold }, pins := { s.pins with pwrOk := true } }

theorem meets_SecurityRegistersWritten_debug :
    ∀ held ∈ [0, 1], (∀ a ∈ [fldAddr .dbg Reg.DBG.HOLD_HOLD_CONTINUE 0, fldAddr .dbg Reg.DBG.CP_HALT_HALT 0, fldAddr .dbg Reg.DBG.CP_STEP_STEP 0],
      letInB (holdState held) .debug a false = true) ∧ rd (holdState held) .dbg Reg.DBG.HOLD_HELD = held := by decide +kernel

theorem meets_RegistersAccessed :
    (portAnswers readyState (.cp 0) = true ∧ portAnswers readyState .mgmt = false) ∧
    (∀ x ∈ [(Page.mod 3, 0x100), (.mod 3, 0x10C), (.mbx 1, 0x180), (.mode, 0x100), (.pwr, 0x12C), (.mod 4, 0xFFC)],
      let a := pageBase x.1 + x.2
      a % 4 = 0 ∧ a ≠ zeroAddr ∧ pageAt a = some x.1 ∧ 0x100 ≤ a % 4096 ∧ (blockWrite (.cp 0) x.1 (a % 4096) 1).isNone = true ∧
      letInB readyState (.cp 0) a true = true ∧ (wordFields x.1 (a % 4096)).Nodup ∧
      ∀ f ∈ wordFields x.1 (a % 4096), f.lo + f.w ≤ 32 ∧ ∀ g ∈ wordFields x.1 (a % 4096), g ≠ f → g.lo + g.w ≤ f.lo ∨ f.lo + f.w ≤ g.lo) := by
  decide +kernel

theorem meets_RegistersAccessed_refused :
    Refused readyState (.cp 0) (pageBase .dbg + 0x100) true ∧ (pageBase .dbg + 0x100) % 4 = 0 ∧ pageBase .dbg + 0x100 ≠ zeroAddr :=
  ⟨refused_of (by decide +kernel), by decide, by decide⟩

theorem meets_RegistersAccessed_size :
    ¬ (8 = 4 ∧ 4 % 4 = 0) ∧ ¬ (8 = 8 ∧ 4 % 8 = 0) ∧ (∀ pg, pageAt (pageBase .mode + 0x100) = some pg → wide64 pg ((pageBase .mode + 0x100) % 4096) = false) ∧
    (pageBase .mode + 0x100) % 8 = 0 := by
  refine ⟨by decide, by decide, fun pg h => ?_, by decide +kernel⟩
  have : pageAt (pageBase .mode + 0x100) = some .mode := by decide +kernel
  cases (this.symm.trans h)
  decide +kernel

/-- The ready module past boot step 2. -/
def smbState : State := withRegs [wr .rst Reg.RST.BOOT_STATUS_STEP 2]

theorem meets_RegistersAccessed_smbus :
    let off := BitVec.ofNat 32 (pageBase .mode + 0x100)
    off.toNat % 4 = 0 ∧ portAnswers smbState .mgmt = true ∧ mapWindowAt off.toNat = none ∧ off.toNat % 4096 ≠ 0x60 ∧ LetRead smbState .mgmt off.toNat ∧
    pageAt off.toNat = some .mode :=
  ⟨by decide +kernel, by decide +kernel, by decide +kernel, by decide +kernel, letRead_of (by decide +kernel), by decide +kernel⟩

/-- The ready module with the host's link up and boot done. -/
def hostState : State := withRegs [wr .hif Reg.HIF.LINK_STATUS_UP 1, wr .rst Reg.RST.BOOT_STATUS_STEP 9]

theorem meets_RegistersAccessed_spaces :
    (∀ x ∈ [(2, 1016, 8), (2, 0x1FFFC, 4), (2, 4 * (hdmWords + 8), 4), (configSpace, 7, 1), (configSpace, 0x42, 2), (configSpace, 4, 4), (configSpace, 4088, 8)],
      hostSpaceOk hostState .host x.1 x.2.1 x.2.2 = true) ∧
    (∀ x ∈ [(2, 2, 2), (2, 2 ^ 17, 4), (configSpace, 4096, 1), (configSpace, 2, 4)], hostSpaceOk hostState .host x.1 x.2.1 x.2.2 = false) ∧
    hostSpaceOk hostState .mgmt 2 0 4 = false ∧ (4 ≠ 0 ∧ 4 ≠ 2 ∧ 4 ≠ configSpace) ∧ rd hostState .hif Reg.HIF.LINK_STATUS_UP = 1 ∧
    rd readyState .hif Reg.HIF.LINK_STATUS_UP = 0 := by decide +kernel

/-- The same with the host let into the MODE page and the mailboxes. -/
def openState : State :=
  (wr .mode Reg.COMMON.PORT_ACCESS_RIGHTS 0x3FF).run ((wr mb Reg.COMMON.PORT_ACCESS_RIGHTS 0x3FF).run hostState)

/-- The read of a row is of a MODE register, let in, in each size. -/
theorem meets_RegistersAccessed_reads :
    let page := pageBase .mode / 4096
    portAnswers openState .host = true ∧
    (∀ x ∈ [(0x100, 0, 4), (0x100, 3, 1), (0x100, 2, 2), (0x100, 0, 8)],
      let b := page * 4096 + x.1 + x.2.1
      let w := b / 4 * 4
      b % x.2.2 = 0 ∧ mapWindowAt b = none ∧ mapWindowAt w = none ∧ mapWindowAt (w + 4) = none ∧ letReadB openState .host w = true ∧
      letReadB openState .host (w + 4) = true ∧ w % 4096 ≠ 0x60 ∧ (w + 4) % 4096 ≠ 0x60 ∧ pageAt b = some .mode) ∧
    (∀ x ∈ [(0x101, 2), (0x102, 4), (0x104, 8)], (page * 4096 + x.1) % x.2 ≠ 0) ∧
    (∀ a ∈ [fldAddr mb Reg.MBX0.LOCK 31, fldAddr mb Reg.MBX0.STATUS_FULL 31, dataAddr 31 7], letReadB openState .host a = true) ∧
    (3 % 1 = 0 ∧ 3 + 1 ≤ 4) ∧ (2 % 2 = 0 ∧ 2 + 2 ≤ 4) ∧ 1 % 2 ≠ 0 ∧ 3 % 4 ≠ 0 := by decide +kernel

/-! ### The pair -/

/-- The ready module with port P up or down, its pairing in a state, with TAKEOVER or without. -/
def pairWith (up pair take : Nat) : State :=
  withRegs [wr (.bnd 6) Reg.BND.PORT_STATUS_STATE (2 * up), wr (.mod 4) Reg.MOD4.PAIR_STATUS_STATE pair, wr (.mod 4) Reg.MOD4.PAIR_STATUS_ROLE 1,
    wr (.mod 4) Reg.MOD4.PAIR_STATUS_SENSE 1, wr (.bnd 7) Reg.BND7.FAB_CTRL_TAKEOVER take, wr (.mod 3) Reg.MOD3.MIR_CTRL_EN 1]

/-- The record of a module that is our partner, of node 0, or is not. -/
def partnerRec (role : Nat) : LinkRec := { node := 32768, port := 6, state := 2, role := role, rate := 0, pools := List.replicate 28 1 }

theorem meets_PairFollows_bringup :
    (∀ x ∈ [(2, 0), (3, 1), (5, 0), (6, 0)],
      let s := pairWith 1 x.1 x.2
      portUp s 6 = true ∧ (pairState s = 2 ∨ pairState s = 3 ∨ pairState s = 5 ∨ pairState s = 6) ∧ s.fw.pairStep = 0 ∧ inTakeover s = (x.2 == 1) ∧
      pairingValid s (partnerRec 2) = true ∧ pairingValid s (partnerRec 1) = false) ∧
    pairState (pairWith 1 2 0) ≠ 5 := by decide +kernel

theorem meets_PairFollows_takeover :
    takeoverDue (pairWith 0 1 0) = true ∧ takeoverDue (pairWith 0 2 0) = true ∧ fwRuns (pairWith 0 1 0) = true ∧
    (unfenced (pairWith 0 1 0)).all (idlePiste (pairWith 0 1 0)) = true := by decide +kernel

theorem meets_PairFollows_takeover_running :
    (let s := { pairWith 0 1 0 with pistes := [(63, { PisteSt.idle with run := some 0 })] }
     takeoverDue s = true ∧ fenced s 63 = false ∧ (pisteOf s 63).run ≠ none) ∧
    (let s := { pairWith 0 1 0 with fw := { (pairWith 0 1 0).fw with pairStep := 1 } }
     s.fw.pairStep = 1 ∧ fwRuns s = true ∧ (unfenced s).all (idlePiste s) = true) := by decide +kernel

/-- A module in a pair, its pairing and port P in the states given, piste 63 in a run or idle, with a snapshot in progress or none. -/
def mirState (pair take port : Nat) (run : Option Nat) (x : Option SnapSt) : State :=
  let s := (wr (.bnd 6) Reg.BND.PORT_STATUS_STATE port).run (pairWith 1 pair take)
  { s with
    bnd := { BndSt.empty with links := [(6, { LinkSt.down with peerReady := true })] }
    pistes := [(63, { PisteSt.idle with run := run })], fw := { s.fw with snap := x } }

theorem meets_PairFollows_snapshot_start :
    ∀ x ∈ [(1, 0), (4, 1)], ∀ port ∈ [0, 2, 3],
      let s := mirState x.1 x.2 port (some 0) none
      (pairState s = 1 ∨ (pairState s = 4 ∧ inTakeover s = true)) ∧ s.sec.phase = .ready ∧ fwRuns s = true ∧ s.fw.snap = none ∧
      rd s (.mod 3) Reg.MOD3.MIR_CTRL_EN = 1 ∧ rd s (.bnd 6) Reg.BND.PORT_STATUS_STATE = port ∧ listHot s = false ∧ fenced s 63 = false ∧ (pisteOf s 63).run ≠ none := by
  decide +kernel

theorem meets_PairFollows_snapshot_end :
    (let x : SnapSt := { half := 1, seq := 1, iter := some 7, listed := [[0, 0, 64]], written := false }
     let s := mirState 1 0 2 none (some x)
     s.fw.snap = some x ∧ fwRuns s = true ∧ (unfenced s).all (idlePiste s) = true ∧
     (x.listed.all fun l => !hotRange s (nth l 1 0) (nth l 2 0)) = true) ∧
    (let x : SnapSt := { half := 1, seq := 1, iter := none, listed := [], written := true }
     let s := { mirState 1 0 2 none (some x) with fw := { (mirState 1 0 2 none (some x)).fw with holds := [(63, 2)] } }
     s.fw.snap = some x ∧ fwRuns s = true ∧ (∀ r ∈ s.bnd.tags, r.purpose ≠ 4) ∧ (∀ y ∈ s.bnd.tagWait, y.2.purpose ≠ 4) ∧
     ∃ h ∈ s.fw.holds, h.1 < 64 ∧ h.2 = 2 ∧ ∀ k ∈ s.fw.holds, k.1 = h.1 → k.2 = 2) := by decide +kernel

theorem meets_PairControlWritten :
    (∀ a ∈ [fldAddr (.mod 4) Reg.MOD4.PAIR_CTRL_ALIVE_RELEASE 0, fldAddr (.mod 4) Reg.MOD4.PAIR_CTRL_SNAP_NOW 0,
      fldAddr (.mod 4) Reg.MOD4.PAIR_CTRL_END_TAKEOVER 0, fldAddr (.mod 4) Reg.MOD4.PAIR_CTRL_JOIN 0, fldAddr (.mod 4) Reg.MOD4.PAIR_CTRL_START_ALONE 0],
      (∀ s ∈ [readyState, mirState 1 0 2 (some 0) none, mirState 1 0 3 none none, mirState 1 0 1 none none, pairWith 1 4 1, pairWith 0 6 0], letInB s (.cp 0) a false = true) ∧
      ∀ st ∈ [0, 1, 4, 6], letInB ((wr (.mod 4) Reg.COMMON.PORT_ACCESS_RIGHTS 0x3F7).run (pairWith 1 st 0)) .pair a false = true) ∧
    (∀ st ∈ [0, 4], pairState ((wr (.mod 4) Reg.COMMON.PORT_ACCESS_RIGHTS 0x3F7).run (pairWith 1 st 0)) = st ∧
      inTakeover ((wr (.mod 4) Reg.COMMON.PORT_ACCESS_RIGHTS 0x3F7).run (pairWith 1 st 0)) = false) ∧ pairState (pairWith 0 6 0) = 6 ∧ pairState readyState ≠ 6 ∧
    pairState readyState ≠ 4 := by decide +kernel

theorem meets_PairControlWritten_snapshot :
    (∀ port ∈ [1, 2, 3], let s := mirState 1 0 port (some 0) none
      (pairState s = 1 ∨ (pairState s = 4 ∧ inTakeover s = true)) ∧ s.sec.phase = .ready ∧ fwRuns s = true ∧ s.fw.snap = none ∧
        rd s (.mod 3) Reg.MOD3.MIR_CTRL_EN = 1 ∧ rd s (.bnd 6) Reg.BND.PORT_STATUS_STATE = port ∧ listHot s = false) ∧
    (let s := (progs [wr (.mod 0) Reg.MOD0.CONFIG_HBM_GB 384, wr (.mod 4) Reg.MOD4.LIST_COUNT 1, wr (.stk 0) Reg.STK.STK_STATUS_THERM 3]).run (mirState 1 0 2 (some 0) none)
     rd s (.bnd 6) Reg.BND.PORT_STATUS_STATE = 2 ∧ pairState s = 1 ∧ listHot s = true) ∧
    ¬ (pairState readyState = 1 ∨ (pairState readyState = 4 ∧ inTakeover readyState = true)) := by decide +kernel

theorem meets_PairControlWritten_end :
    (let s := pairWith 1 4 1
     pairState s = 4 ∧ inTakeover s = true ∧ s.fw.pairStep = 0 ∧ fwRuns s = true ∧ (unfenced s).all (idlePiste s) = true ∧ s.fw.partnerTakeover = false) ∧
    (let s := { pairWith 1 4 1 with pistes := [(63, { PisteSt.idle with run := some 0 })] }
     letInB s (.cp 0) (fldAddr (.mod 4) Reg.MOD4.PAIR_CTRL_END_TAKEOVER 0) false = true ∧ pairState s = 4 ∧ inTakeover s = true ∧ s.fw.pairStep = 0 ∧
     fenced s 63 = false ∧ (pisteOf s 63).run ≠ none) := by decide +kernel

/-! ### Ill-formed commands: one for each check of WellFormed.lean -/

/-- A well-formed message and link record. -/
def okMsg : Msg := someMsg 1 0 0 0 0 false (List.replicate 16 0)
def okRec : LinkRec := partnerRec 2

theorem test_wf_message :
    okMsg.wf = true ∧
    ([{ okMsg with cls := 8 }, { okMsg with op := 32 }, { okMsg with dst := 65536 }, { okMsg with src := 65536 }, { okMsg with vl := 2 },
      { okMsg with space := 2 }, { okMsg with hops := 64 }, { okMsg with addr := 2 ^ 50 }, { okMsg with tag := 2 ^ 14 }, { okMsg with len := 17 },
      { okMsg with len := 4097, data := List.replicate 4097 0 }].all fun m => (Instr.put 0 m).wf == false) = true := by decide +kernel

theorem test_wf_messageRows :
    let m := { okMsg with cls := 8 }
    ([Instr.messageRoute m, .syncSignalMessage 0 m, .kvWrite 0 m, .reducePartial 0 m, .arrivalMark 0 m, .finalAdd 0 m [], .put 0 m, .get 0 m,
      .atomicAddMessage 0 m [], .regRead 0 m false, .regWrite 0 m, .mailWake 0 m, .mirrorWrite 0 m, .remoteResponse 0 m, .nak 0 m, .peerTimeout 16384,
      .finalAdd 0 okMsg [(2 ^ 48, false)], .atomicAddMessage 0 okMsg [(2 ^ 48, false)], .flitReceive 0 (List.replicate 255 0), .lane 0 false 0 4096].all fun i => i.wf == false) = true := by decide +kernel

theorem test_wf_linkRecord :
    okRec.wf = true ∧
    ([{ okRec with node := 65536 }, { okRec with port := 7 }, { okRec with state := 3 }, { okRec with role := 3 }, { okRec with rate := 2 },
      { okRec with pools := [] }, { okRec with pools := List.replicate 28 65536 }].all fun r =>
        (Instr.portBringup 0 r).wf == false && (Instr.retrainRetry 0 r).wf == false && (Instr.statusReady 0 r).wf == false &&
        (Instr.pairBringup r false 0 0 0 0).wf == false) = true := by decide +kernel

theorem test_wf_ram :
    ([SramErr.corrected 854, .beat 196608, .line 2048, .drift 2048 0, .drift 0 8, .control 854, .host (2 ^ 52), .adder (2 ^ 48) false].all fun e =>
      [Instr.run 0 1 0 0 0 [e], .matmul 0 0 .pass [e], .matmulInspect 0 0 .pass [e], .attend 0 0 .pass [e], .attendPaged 0 0 .pass [e],
       .attendBwd 0 0 .pass [e], .kvAppend 0 0 [e], .ropeLoad 0 0 [e], .rotate 0 0 [e], .elemwise 0 0 .pass [e], .reduceVector 0 0 .pass [e],
       .norm 0 0 .pass [e], .smNormalise 0 0 .pass [e], .smMerge 0 0 .pass [e], .kl 0 0 .pass [e], .optUpdate 0 0 .pass [e], .convert 0 0 .pass [e],
       .compress24 0 0 .pass [e], .cacheFill 0 0 .pass [e], .cacheSpill 0 0 .pass [e], .sketch 0 0 .pass [e], .sample 0 [e], .gather 0 [e],
       .scatterAdd 0 .pass [e], .aggregate 0 .pass [e], .embGather 0 [e], .embScatter 0 .pass [e], .embRefresh 0 [e], .store 0 [e], .atomicAdd 0 [e], .forerunnerFetch 0 0 [e],
       .forerunnerWriteback 0 [e], .signalApply [e],
       .reduce 0 .pass [e], .normPack 0 [e], .normUnpack 0 [e], .normReturn 0 [e], .gatherShard 0 [e], .offload 0 [e], .kvSend 0 [e],
       .stageSend 0 [e]].all fun i => i.wf == false) = true := by decide +kernel

theorem test_wf_commands :
    ([Instr.loadMap 0 (2 ^ 64) 0 0 1, .loadMap 0 0 2 0 1, .loadMap 0 0 0 4 1, .loadMap 0 0 0 0 0, .loadMap 0 0 0 0 (2 ^ 64), .run 0 0 0 0 0 [],
      .run 0 (2 ^ 64) 0 0 0 [], .run 0 1 4 0 0 [], .run 0 1 0 (2 ^ 32) 0 [], .run 0 1 0 0 (2 ^ 32) [], .copy 0 (2 ^ 64) 0 1 0 0, .copy 0 0 (2 ^ 64) 1 0 0,
      .copy 0 0 0 (2 ^ 64) 0 0, .copy 0 0 0 1 2 0, .copy 0 0 0 1 0 2, .fill 0 (2 ^ 64) 1 0 0, .fill 0 0 (2 ^ 64) 0 0, .fill 0 0 1 2 0,
      .modeChange 0 (2 ^ 32) 0, .modeChange 0 0 (2 ^ 32), .layoutChange 0 (2 ^ 32) false 0 1 0, .layoutChange 0 0 false 4 1 0,
      .layoutChange 0 0 false 0 (2 ^ 64) 0, .layoutChange 0 0 false 0 1 (2 ^ 32), .snapshotSave 0 2 1 0 0, .snapshotSave 0 0 0 0 0,
      .snapshotSave 0 0 1 (2 ^ 64) 0, .snapshotSave 0 0 1 0 (2 ^ 64), .snapshotRestore 0 2 1 0 0, .snapshotRestore 0 0 0 0 0,
      .snapshotRestore 0 0 1 (2 ^ 64) 0, .snapshotRestore 0 0 1 0 (2 ^ 64)].all fun i => i.wf == false) = true := by decide +kernel

theorem test_wf_commands_more :
    ([Instr.tableMigrate 0 256 0 0 0 0 0, .tableMigrate 0 0 256 0 0 0 0, .tableMigrate 0 0 0 2 0 0 0, .tableMigrate 0 0 0 0 (2 ^ 32) 0 0,
      .tableMigrate 0 0 0 0 0 (2 ^ 64) 0, .tableMigrate 0 0 0 0 0 0 (2 ^ 32), .fence 0 2, .signal 0 0 65536 1, .signal 0 0 0 0, .signal 0 0 0 (2 ^ 32),
      .wait 0 0 0 (2 ^ 32), .flush 0 (2 ^ 64) 0, .flush 0 0 (2 ^ 64), .waitExpiry 854 0, .waitExpiry 0 64, .faultFirstRead .host 16384 0 4, .faultFirstRead .host 0 4 4,
      .faultFirstRead .host 0 0 3, .faultFirstRead .host 0 0 4 4096, .faultFirstRead .host 0 0 4 0x60 6, .faultFirstRead .host 16384 0 4 0 8, .synCountRead .host 0 3,
      .mbxLockRead .host 0 4 4, .mbxLockRead .host 0 0 3, .mbxDataRead .host 0 0 false 4 4, .mbxDataRead .host 0 0 false 0 3, .mbxStatusRead .host 0 4 4,
      .mbxStatusRead .host 0 0 3, .smbusTransaction true true 0 0 false 128,
      .countClear .host 16384 0, .eventEnableWrite .host 16384 0, .portAccessWrite .host 16384 0, .registerWrite .host (2 ^ 26) 4 0,
      .registerWrite .host 0 3 0, .registerWrite .host 0 4 0 6, .registerWrite .host 0 3 0 8].all fun i => i.wf == false) = true := by decide +kernel

theorem test_wf_units :
    ([Instr.hbmAccess (2 ^ 48) false [] 0 0 0, .hbmAccess 0 true (List.replicate 65 0) 0 0 0, .hbmAccess 0 false [] 854 0 0, .hbmAccess 0 false [] 0 2 0,
      .hbmAccess 0 false [] 0 0 73, .atomicAddRequest none (2 ^ 48) 0 (List.replicate 16 0) 0 0 .pass,
      .atomicAddRequest none 0 65536 (List.replicate 16 0) 0 0 .pass, .atomicAddRequest none 0 0 [] 0 0 .pass,
      .atomicAddRequest none 0 0 (List.replicate 16 0) 854 0 .pass, .atomicAddRequest none 0 0 (List.replicate 16 0) 0 73 .pass,
      .groomStep 0 [(64, 0)], .groomStep 0 [(0, 73)], .rowRepair 0 [(16, 0)], .rowRepair 0 [(0, 73)], .stackTempRead 0 256,
      .dieSensorRead [], .dieSensorRead (List.replicate 96 256), .powerEvaluation [], .powerEvaluation (List.replicate 24 (65536, 0)),
      .powerEvaluation (List.replicate 24 (0, 65536)), .frequencyMeasure 854 0, .frequencyMeasure 0 (2 ^ 32), .railFault 0 65536 0,
      .railFault 0 0 65536].all fun i => i.wf == false) = true := by decide +kernel

theorem test_wf_module :
    let s8 := List.replicate 8 0
    let l7 := List.replicate 7 none
    (Instr.boot s8 false [] l7 16 2).wf = true ∧
    ([Instr.boot [] false [] l7 16 2, .boot (List.replicate 8 256) false [] l7 16 2, .boot s8 false [12] l7 16 2, .boot s8 false [] [] 16 2,
      .boot s8 false [] (List.replicate 7 (some { okRec with port := 7 })) 16 2, .boot s8 false [] l7 65536 2, .boot s8 false [] l7 16 3,
      .cxlLinkTrain 65536 0, .cxlLinkTrain 0 3, .cxlMemRequest false (2 ^ 38) [], .cxlMemRequest true 0 (List.replicate 65 0), .h2dSnoop (2 ^ 64),
      .hdmCommit 1025, .faultRecordArrival 854, .alarmIncrement 854 0, .alarmIncrement 0 14, .mirrorSnapshot (2 ^ 32), .pairBringup okRec false (2 ^ 48) 0 0 0,
      .pairBringup okRec false 0 (2 ^ 48) 0 0, .pairBringup okRec false 0 0 (2 ^ 64) 0, .pairBringup okRec false 0 0 0 (2 ^ 64), .powerDown .vinLimit 65536, .vsbLoss 65536, .atsInvalidation (2 ^ 52) 0 false, .atsInvalidation 0 (2 ^ 52 + 1) false].all fun i => i.wf == false) = true := by
  decide +kernel

/-- No row of the opcode table has bits, so that no word spells a command and none is put in front of the queue. -/
theorem test_decode : decodeTableWord 32 1 = none ∧ (State.reset.withFetchWord 32 1).pending = [] := by decide +kernel


/-! ### The spec's worked examples, and single commands -/

/-- Chapter 3: 23 ÷ 16 in two steps of 4 to odd gives 1; to nearest at each step it would give 2. -/
theorem test_round_to_odd :
    roundShift .nearest (roundShift .odd 23 2) 2 = 1 ∧ roundShift .nearest (roundShift .nearest 23 2) 2 = 2 := by decide

/-- Chapter 3: a BI4 block from 300, -45, 17 under exponent -6 with draws 0x9C, 0x21, 0xF0, and with outliers to nearest even. -/
theorem test_narrow_block :
    let vals := [SV.fin 300, .fin (-45), .fin 17] ++ List.replicate 29 (SV.fin 0)
    let a := narrowBlock 4 (-6) false false (fun i => .stoch 8 (nth [0x9C, 0x21, 0xF0] i 0)) vals
    let b := narrowBlock 4 (-6) true false (fun _ => .nearest) vals
    (a.e8 = 0 ∧ packCodes 4 a.codes = [0xF5, 0x01] ++ List.replicate 14 0) ∧
    (b.e8 = -4 ∧ packCodes 4 b.codes = [0x00, 0x04] ++ List.replicate 14 0 ∧
      leBytes 8 b.side = [0x02, 0x00, 0x01, 0x00, 0x4B, 0x00, 0xF5, 0xFF]) := by decide +kernel

/-- Chapter 4: the fixed tree of a step makes +INF of a sum that another order would leave finite. -/
theorem test_step_tree :
    stepTree [.fin 40, .fin 2147483610, .fin 100, .fin (-300)] = .pinf ∧
    add32 (add32 (.fin 2147483610) (.fin (-300))) (add32 (.fin 40) (.fin 100)) = .fin 2147483450 := by decide

/-- Chapter 5: a SUM of 5,000,000,003 is narrowed to 1,250,000,001 under SUM_X 2. -/
theorem test_sum_narrowed : narrowSum (.fin 5000000003) = (1250000001, 2) := by decide +kernel

/-- Chapter 5: the order of two contributions decides between +INF and 1,900,000,000. -/
theorem test_order_of_adds :
    add32 (add32 (.fin 2000000000) (.fin 200000000)) (.fin (-300000000)) = .pinf ∧
    add32 (add32 (.fin 2000000000) (.fin (-300000000))) (.fin 200000000) = .fin 1900000000 := by decide

/-- Chapter 7: the rotation of 0.25 rad at position 5, composed of two table entries. -/
theorem test_rotation :
    rotation { pairs := 1, data := [15875, 4053, 0, 0, 8852, 13787] ++ List.replicate 42 0 } 0 5 false = (.fin 5167, .fin 15549) := by decide +kernel

/-- Chapter 8: key 7 falls in set 668 of the drift table. -/
theorem test_drift_set : driftSet 7 = 668 := by decide

/-- Chapter 9: the two groups of the 2:4 example keep -5 and 5, and 2 and -2, the later 2 dropped on the tie. -/
theorem test_keep24 :
    keep24 [(0, .fin 3), (1, .fin (-5)), (2, .fin 0), (3, .fin 5)] = ([1, 3], [0]) ∧
    keep24 [(0, .fin 2), (1, .fin (-2)), (2, .fin 2), (3, .fin 0)] = ([0, 1], [2]) := by decide

/-- Chapter 12: from (6, 1, 0, A) in a torus of 8 by 4 by 4, a message for (1, 3, 2, B) leaves at X+; from (1, 1, 0) at Y+, from (1, 3, 0) at Z+. -/
theorem test_route :
    (∀ x ∈ [((6 : Nat), (1 : Nat), (0 : Nat), (0 : Nat)), (1, 1, 0, 2), (1, 3, 0, 4), (1, 3, 2, 6)],
      routePort (withRegs [wr (.bnd 7) Reg.BND7.NODE_ID (x.1 + 32 * x.2.1 + 1024 * x.2.2.1), wr (.bnd 7) Reg.BND7.DIMS_DX_M1 7,
        wr (.bnd 7) Reg.BND7.DIMS_DY_M1 3, wr (.bnd 7) Reg.BND7.DIMS_DZ_M1 3]) (1 + 32 * 3 + 1024 * 2 + 32768) = some (some x.2.2.2)) := by decide +kernel

/-- The check values of the CRC-32C of "123456789" and of the empty message under SHAKE256, from outside the spec. -/
theorem test_checksums :
    crc32c ((List.range 9).map fun i => BitVec.ofNat 8 (0x31 + i)) = 0xE3069283 ∧
    shake256 [] 8 = [0x46, 0xB9, 0xDD, 0x2B, 0x0B, 0xA8, 0x8D, 0x13] := by decide +kernel

/-- Chapter 11: barrier 9 of three participants in ROUND 7: the third arrival releases it, one arrival for round 8 taken over. -/
theorem test_barrier :
    let s := sigState (mode4095 2 255 ++ [wr (.bar 1) Reg.BAR.BARRIER_W0_PARTICIPANTS 3 127, wr (.bar 1) Reg.BAR.BARRIER_W0_ROUND 7 127,
      wr (.bar 1) Reg.BAR.BARRIER_W1_CUR 2 127, wr (.bar 1) Reg.BAR.BARRIER_W1_NEXT 1 127]) (someSig 4095 1 7 (.die 5 0) none) [] []
    (match exec (.signalApply []) s with
     | .next t => some (rd t (.bar 1) Reg.BAR.BARRIER_W0_ROUND 127, rd t (.bar 1) Reg.BAR.BARRIER_W1_CUR 127, rd t (.bar 1) Reg.BAR.BARRIER_W1_NEXT 127, countOf t 4095)
     | _ => none) = some (8, 1, 0, 1) := by decide +kernel

/-- What holds of the state a command leaves. -/
def leaves (o : Host.Outcome State Fault Refusal) (p : State → Bool) : Bool := match o with | .next t => p t | _ => false

/-- SOFT_CAP takes 2,400 W and refuses 2,401 W (R423). -/
theorem test_soft_cap :
    leaves (exec (.softCapWrite (.cp 0) 1000) readyState) (fun t => rd t .pwr Reg.PWR.SOFT_CAP == 1000) = true ∧
    leaves (exec (.softCapWrite (.cp 0) 2401) readyState) (fun t => rd t .pwr Reg.PWR.SOFT_CAP == 2400 && rd t .pwr Reg.PWR.PWR_CHECK_CAP_REFUSED == 1) = true := by
  decide +kernel

/-- The front of the queue is taken first, and an empty queue idles. -/
theorem test_queue :
    leaves (step { State.reset with pending := [.modeStall, .signalApply []] }) (fun t => t.pending == [.signalApply []]) = true ∧
    step State.reset = .next State.reset := ⟨by decide +kernel, rfl⟩

end Sys2Proof.Tests
end

section
/-! SUPPORT. Where an address lies, what a write leaves in the fields of its word (R8), and the accesses of BAR0: let in, refused, of another size (R367,
R387). -/

namespace Sys2Proof.Machine

open Sys2Proof

/-! ### Bits of a number -/

theorem bit_eq_testBit (v i : Nat) : bit v i = v.testBit i := by
  rw [Nat.testBit_eq_decide_div_mod_eq]; rfl

theorem bit_toNat (w : Word) (j : Nat) : bit w.toNat j = w.getLsbD j := bit_eq_testBit _ _

/-- A field within 32 bits is the same of a number and of the word it makes. -/
theorem bits_toNat_ofNat (n lo w : Nat) (h : lo + w ≤ 32) : bits (BitVec.ofNat 32 n).toNat lo w = bits n lo w := by
  rw [bits_eq_mod_div, bits_eq_mod_div, BitVec.toNat_ofNat, Nat.mod_mod_of_dvd _ (pow_dvd_pow 2 h)]

/-! ### Addresses -/

theorem pageAt_congr {a b : Nat} (h : a / 4096 = b / 4096) : pageAt a = pageAt b := by
  unfold pageAt; rw [h]

/-- The address of a page found in a row of pages is that of its frame. -/
theorem pageRow_base {f base stride n : Nat} {mk : Nat → Page} (hb : ∀ i < n, pageBase (mk i) = 4096 * (base + stride * i)) (pg : Page)
    (h : pageRow f base stride n mk = some pg) : pageBase pg = 4096 * f := by
  unfold pageRow at h
  split at h
  · next c =>
    obtain ⟨h1, h2, h3⟩ := c
    have := Nat.div_add_mod (f - base) stride
    rw [← Option.some.inj h, hb _ (Nat.div_lt_of_lt_mul (by omega))]
    omega
  · cases h

/-- What holds of the pages of both searches holds of the page either finds. -/
theorem orElse_base {b : Nat} {x : Option Page} {y : Unit → Option Page} (hx : ∀ pg, x = some pg → pageBase pg = b)
    (hy : ∀ pg, y () = some pg → pageBase pg = b) (pg : Page) (h : x.orElse y = some pg) : pageBase pg = b := by
  cases x with
  | none => exact hy pg h
  | some _ => exact hx pg h

/-- A page of a piste block lies at its frame there. -/
theorem pisteFrame_base {p f : Nat} {pg : Page} (h : pisteFrame p f = some pg) : pageBase pg = 0x1000000 + 0x40000 * p + 0x1000 * f := by
  unfold pisteFrame at h
  split at h
  · cases h; simp only [pageBase]; omega
  split at h
  · cases h; simp only [pageBase]; omega
  split at h
  · cases h; simp only [pageBase]; omega
  · cases h

/-- An address lies at its offset in the page that holds it. -/
theorem pageBase_of_pageAt {a : Nat} {pg : Page} (h : pageAt a = some pg) : pageBase pg + a % 4096 = a := by
  suffices hb : pageBase pg = 4096 * (a / 4096) by omega
  unfold pageAt at h
  dsimp only at h
  split at h
  · rw [pisteFrame_base h]; omega
  split at h
  · next hf => rw [← Option.some.inj h, hf]; rfl
  split at h
  · refine orElse_base ?_ (orElse_base ?_ (orElse_base ?_ (orElse_base ?_ (orElse_base ?_ (orElse_base ?_ ?_))))) pg h
    all_goals exact pageRow_base fun i hi => by simp only [pageBase]; omega
  · refine orElse_base ?_ (orElse_base ?_ (orElse_base ?_ (orElse_base ?_ (orElse_base ?_ (orElse_base ?_ (orElse_base ?_ ?_)))))) pg h
    all_goals exact pageRow_base fun i hi => by simp only [pageBase]; omega

/-! ### Fields after a write (R8) -/

/-- What a field holding `old` holds once `x` is written to it under its access code: `locked` for RWL, `stopped` in a unit where only W1C bits still
accept writes (R432). -/
def fieldAfter (locked stopped : Bool) (f : Fld) (old x : Nat) : Nat :=
  match f.acc with
  | .rw => if stopped then old else x
  | .w1c => old - old.land x
  | .w1s => if stopped then old else old.lor x
  | .rwl => if locked || stopped then old else x
  | _ => old

theorem bits_lt (v lo w : Nat) : bits v lo w < 2 ^ w := Nat.mod_lt _ (by positivity)

theorem bits_writeField_same (locked stopped : Bool) (old v : Nat) (f : Fld) :
    bits (writeField locked stopped old v f) f.lo f.w = fieldAfter locked stopped f (bits old f.lo f.w) (bits v f.lo f.w) := by
  have hx := bits_lt v f.lo f.w
  have ho := bits_lt old f.lo f.w
  have hand : bits old f.lo f.w - (bits old f.lo f.w).land (bits v f.lo f.w) < 2 ^ f.w := lt_of_le_of_lt (Nat.sub_le _ _) ho
  have hor : (bits old f.lo f.w).lor (bits v f.lo f.w) < 2 ^ f.w := Nat.or_lt_two_pow ho hx
  unfold writeField fieldAfter
  cases f.acc
  case rw => dsimp only; split <;> simp only [bits_putBits_same, Nat.mod_eq_of_lt hx]
  case w1c => simp only [bits_putBits_same, Nat.mod_eq_of_lt hand]
  case w1s => dsimp only; split <;> simp only [bits_putBits_same, Nat.mod_eq_of_lt hor]
  case rwl => dsimp only; split <;> simp only [bits_putBits_same, Nat.mod_eq_of_lt hx]
  all_goals rfl

theorem bits_writeField_ne (locked stopped : Bool) (old v : Nat) (f g : Fld) (h : g.lo + g.w ≤ f.lo ∨ f.lo + f.w ≤ g.lo) :
    bits (writeField locked stopped old v g) f.lo f.w = bits old f.lo f.w := by
  have hput (x : Nat) : bits (putBits old g.lo g.w x) f.lo f.w = bits old f.lo f.w := bits_putBits_ne _ _ _ _ _ _ h
  unfold writeField
  cases g.acc
  case w1c => exact hput _
  case rw | w1s | rwl =>
    dsimp only
    split
    · rfl
    · exact hput _
  all_goals rfl

/-- Fields apart from one leave it as it was. -/
theorem bits_writeWordFields_ne (locked stopped : Bool) (v : Nat) (f : Fld) (fs : List Fld)
    (h : ∀ g ∈ fs, g.lo + g.w ≤ f.lo ∨ f.lo + f.w ≤ g.lo) (old : Nat) :
    bits (writeWordFields fs locked stopped old v) f.lo f.w = bits old f.lo f.w := by
  induction fs generalizing old with
  | nil => rfl
  | cons g r ih =>
    exact (ih (fun g' hg => h g' (List.mem_cons_of_mem _ hg)) _).trans (bits_writeField_ne _ _ _ _ _ _ (h g List.mem_cons_self))

/-- A field of a word whose fields do not overlap, after a write of the word. -/
theorem bits_writeWordFields (locked stopped : Bool) (v : Nat) (f : Fld) (fs : List Fld) (hn : fs.Nodup) (hf : f ∈ fs)
    (h : ∀ g ∈ fs, g ≠ f → g.lo + g.w ≤ f.lo ∨ f.lo + f.w ≤ g.lo) (old : Nat) :
    bits (writeWordFields fs locked stopped old v) f.lo f.w = fieldAfter locked stopped f (bits old f.lo f.w) (bits v f.lo f.w) := by
  induction fs generalizing old with
  | nil => cases hf
  | cons g r ih =>
    obtain ⟨hg, hr⟩ := List.nodup_cons.mp hn
    have hrest : ∀ g' ∈ r, g' ≠ f → g'.lo + g'.w ≤ f.lo ∨ f.lo + f.w ≤ g'.lo := fun g' h' => h g' (List.mem_cons_of_mem _ h')
    show bits (writeWordFields r locked stopped (writeField locked stopped old v g) v) f.lo f.w = _
    by_cases e : g = f
    · subst e
      rw [bits_writeWordFields_ne _ _ _ _ _ fun g' h' => hrest g' h' fun c => hg (c ▸ h'), bits_writeField_same]
    · have hfr : f ∈ r := (List.mem_cons.mp hf).resolve_left fun c => e c.symm
      rw [ih hr hfr hrest, bits_writeField_ne _ _ _ _ _ _ (h g List.mem_cons_self e)]

/-! ### Changes of the register file alone -/

theorem onlyRegs_refl (s : State) (l : List Nat) : OnlyRegs s s l := ⟨rfl, fun _ _ => rfl⟩

theorem onlyRegs_trans {s t u : State} {l : List Nat} (h : OnlyRegs s t l) (h' : OnlyRegs t u l) : OnlyRegs s u l := by
  obtain ⟨ht, hk⟩ := h
  obtain ⟨hu, hk'⟩ := h'
  exact ⟨hu.trans (by rw [ht]), fun a ha => (hk' a ha).trans (hk a ha)⟩

theorem regWord_reg (s : State) (a b : Nat) (v : Word) : regWord ((Act.reg a v).apply s) b = if b = a then v else regWord s b := by
  unfold regWord
  rw [apply_regs, smGet_set]

theorem onlyRegs_reg (s : State) (a : Nat) (v : Word) {l : List Nat} (h : a ∈ l) : OnlyRegs s ((Act.reg a v).apply s) l :=
  ⟨rfl, fun b hb => by rw [regWord_reg, if_neg fun c : b = a => hb (c ▸ h)]⟩

theorem onlyRegs_wr (s : State) (pg : Page) (f : Fld) (v i : Nat) {l : List Nat} (h : fldAddr pg f i ∈ l) : OnlyRegs s ((wr pg f v i).run s) l :=
  onlyRegs_reg s _ _ h

theorem onlyRegs_whenP (b : Bool) {p : Prog} {s : State} {l : List Nat} (h : OnlyRegs s (p.run s) l) : OnlyRegs s ((whenP b p).run s) l := by
  cases b
  · exact onlyRegs_refl s l
  · exact h

/-! ### Accesses -/

/-- A write that is let in runs its effect. -/
theorem run_access_letIn {s : State} {id : Ident} {a : Nat} {live : Bool} (p : Prog) (h : LetIn s id a live) : (access id a true live p).run s = p.run s := by
  obtain ⟨pg, hp, hans, hall, hcl, hlive⟩ := h
  have hoff : ¬ (true && !live && decide (0x100 ≤ a % 4096) && offline s pg) = true := by
    rcases hlive with h | h | h
    · simp [h]
    · simp [Nat.not_le.mpr h]
    · simp [h]
  unfold access
  simp only [run_look, hp, hans, hall, hcl]
  rw [if_neg (by decide), if_neg (by decide), if_neg (by decide), if_neg hoff]

/-- An access that the rights refuse is counted and does nothing else. -/
theorem run_access_refused {s : State} {id : Ident} {a : Nat} {write live : Bool} (p : Prog) (h : Refused s id a write) :
    (access id a write live p).run s = (denied id a write).run s := by
  obtain ⟨pg, hp, hans, hall⟩ := h
  unfold access
  simp [hp, hans, hall]

/-- A read that is let in runs its effect. -/
theorem run_readAccess {s : State} {id : Ident} {a : Nat} {pg : Page} (p : Page → Prog) (hp : pageAt a = some pg) (h : LetRead s id a) :
    (readAccess id a p).run s = (p pg).run s := by
  obtain ⟨pg', hp', hans, hall⟩ := h
  obtain rfl := Option.some.inj (hp.symm.trans hp')
  unfold readAccess
  simp [hp, hans, hall]

/-- A denied access raises DENIED_COUNT, then keeps what was denied if it is the first. -/
theorem run_denied (s : State) (id : Ident) (a : Nat) (write : Bool) : (denied id a write).run s =
    (whenP (rd s .hif Reg.HIF.HIF_CHECK_DENIED == 0) (progs [
      wr .hif Reg.HIF.DENIED_ADDR a, wr .hif Reg.HIF.DENIED_PORT_IDENTITY (identCode id),
      wr .hif Reg.HIF.DENIED_PORT_WRITE (ofBool write), wr .hif Reg.HIF.HIF_CHECK_DENIED 1])).run ((addSat .hif Reg.HIF.DENIED_COUNT 1).run s) := by
  unfold denied
  rw [run_look, run_progs_cons, run_progs_cons, run_progs_nil]

/-- What a denied access writes. -/
theorem onlyRegs_denied (s : State) (id : Ident) (a : Nat) (write : Bool) :
    OnlyRegs s ((denied id a write).run s) [fldAddr .hif Reg.HIF.DENIED_COUNT 0, fldAddr .hif Reg.HIF.DENIED_ADDR 0,
      fldAddr .hif Reg.HIF.DENIED_PORT_IDENTITY 0, fldAddr .hif Reg.HIF.HIF_CHECK_DENIED 0] := by
  have hword : fldAddr .hif Reg.HIF.DENIED_PORT_WRITE 0 = fldAddr .hif Reg.HIF.DENIED_PORT_IDENTITY 0 := by
    simp [fldAddr, Reg.HIF.DENIED_PORT_WRITE, Reg.HIF.DENIED_PORT_IDENTITY]
  rw [run_denied]
  refine onlyRegs_trans (onlyRegs_wr _ _ _ _ _ (by simp)) (onlyRegs_whenP _ ?_)
  rw [run_progs_cons, run_progs_cons, run_progs_cons, run_progs_cons, run_progs_nil]
  exact onlyRegs_trans (onlyRegs_wr _ _ _ _ _ (by simp)) (onlyRegs_trans (onlyRegs_wr _ _ _ _ _ (by simp))
    (onlyRegs_trans (onlyRegs_wr _ _ _ _ _ (by simp [hword])) (onlyRegs_wr _ _ _ _ _ (by simp))))

/-- A denied access raises DENIED_COUNT, which stops at its largest value (R387). -/
theorem rd_denied_count (s : State) (id : Ident) (a : Nat) (write : Bool) :
    rd ((denied id a write).run s) .hif Reg.HIF.DENIED_COUNT = min (2 ^ 32 - 1) (rd s .hif Reg.HIF.DENIED_COUNT + 1) := by
  have hsat (n : Nat) : satBits 32 (n + 1) % 2 ^ 32 = min (2 ^ 32 - 1) (n + 1) := by
    unfold satBits; split <;> omega
  have hcount : rd ((addSat .hif Reg.HIF.DENIED_COUNT 1).run s) .hif Reg.HIF.DENIED_COUNT = min (2 ^ 32 - 1) (rd s .hif Reg.HIF.DENIED_COUNT + 1) :=
    (rd_wr_same s .hif Reg.HIF.DENIED_COUNT _ 0 (by decide)).trans (hsat _)
  have hkeep (t : State) (f : Fld) (v : Nat) (hp : plain .hif f = true) (hne : f.off + f.stride * 0 ≠ 0x108) :
      rd ((wr .hif f v).run t) .hif Reg.HIF.DENIED_COUNT = rd t .hif Reg.HIF.DENIED_COUNT :=
    rd_wr_other t .hif .hif f Reg.HIF.DENIED_COUNT v 0 0 hp (by decide) (.inr (.inl hne))
  rw [run_denied, run_whenP]
  split
  · rw [run_progs_cons, run_progs_cons, run_progs_cons, run_progs_cons, run_progs_nil]
    rw [hkeep _ _ _ (by decide) (by decide), hkeep _ _ _ (by decide) (by decide), hkeep _ _ _ (by decide) (by decide),
      hkeep _ _ _ (by decide) (by decide), hcount]
  · exact hcount

theorem markNarrow_sets (s : State) : rd (markNarrow.run s) .hif Reg.HIF.HIF_CHECK_NARROW = 1 :=
  rd_wr_same s .hif Reg.HIF.HIF_CHECK_NARROW 1 0 (by decide)

theorem onlyRegs_markNarrow (s : State) : OnlyRegs s (markNarrow.run s) [fldAddr .hif Reg.HIF.HIF_CHECK_NARROW 0] :=
  onlyRegs_wr s _ _ _ _ (List.mem_singleton.mpr rfl)

/-! ### 32-bit writes of BAR0 -/

/-- The plain write of a word changes that word alone. -/
theorem run_plainWrite (pg : Page) (o v : Nat) (s : State) : (plainWrite pg o v).run s =
    (Act.reg (pageBase pg + o) (BitVec.ofNat 32 (writeWordFields (wordFields pg o) (pageLocked s pg) (decide (0x100 ≤ o) && offline s pg)
      (regWord s (pageBase pg + o)).toNat v))).apply s := rfl

theorem exec_registerWrite_word {s : State} {id : Ident} {a : Nat} (v : DWord) (hp : portAnswers s id = true) (ha : a % 4 = 0) :
    exec (.registerWrite id a 4 v) s = .next (writeStep id a (v.toNat % 2 ^ 32) s) := by
  show Host.Outcome.next (registerWriteStep id a 4 v.toNat s) = _
  simp [registerWriteStep, hp, ha]

/-- A write that is neither of ZERO nor of the token registers is one access of its page. -/
theorem writeStep_access {s : State} {id : Ident} {a : Nat} {pg : Page} (v : Nat) (ha : a % 4 = 0) (hz : a ≠ zeroAddr)
    (hd : ¬ (id = .debug ∧ 0x20800 ≤ a ∧ a < 0x20D20)) (hp : pageAt a = some pg) :
    writeStep id a v s = (access id a true (wordWrite id pg (a % 4096) v).1 (wordWrite id pg (a % 4096) v).2).run s := by
  unfold writeStep writeWord
  rw [if_neg hz, if_neg (not_not.mpr ha), if_neg hd]
  simp only [hp]

/-- A block register without a rule of its own takes a plain write. -/
theorem wordWrite_plain {id : Ident} {pg : Page} {o v : Nat} (ho : 0x100 ≤ o) (hb : blockWrite id pg o v = none) (hr : ¬ (id = .pair ∧ pg = .mod 4)) :
    wordWrite id pg o v = (true, plainWrite pg o v) := by
  have hro : pairReadOnly id pg = false := by
    unfold pairReadOnly
    simpa using hr
  unfold wordWrite
  rw [hro, if_neg (by simp), if_neg (Nat.not_lt.mpr ho), hb]

/-- A plain register after a write that is let in: its word alone has changed, field by field. -/
theorem registerWrite_plain {s : State} {id : Ident} {a : Nat} {pg : Page} (v : DWord) (hans : portAnswers s id = true) (ha : a % 4 = 0)
    (hz : a ≠ zeroAddr) (hd : ¬ (id = .debug ∧ 0x20800 ≤ a ∧ a < 0x20D20)) (hp : pageAt a = some pg) (ho : 0x100 ≤ a % 4096)
    (hb : blockWrite id pg (a % 4096) (v.toNat % 2 ^ 32) = none) (hr : ¬ (id = .pair ∧ pg = .mod 4)) (hl : LetIn s id a true) :
    exec (.registerWrite id a 4 v) s = .next ((Act.reg a (BitVec.ofNat 32 (writeWordFields (wordFields pg (a % 4096)) (pageLocked s pg)
      (offline s pg) (regWord s a).toNat (v.toNat % 2 ^ 32)))).apply s) := by
  rw [exec_registerWrite_word v hans ha, writeStep_access _ ha hz hd hp, wordWrite_plain ho hb hr, run_access_letIn _ hl, run_plainWrite,
    pageBase_of_pageAt hp, decide_eq_true ho, Bool.true_and]

/-- A field of a plain register after a write that is let in (R8, R432). -/
theorem bits_registerWrite_plain {s : State} {a : Nat} {pg : Page} {f : Fld} (v : Nat) (hn : (wordFields pg (a % 4096)).Nodup)
    (hf : f ∈ wordFields pg (a % 4096)) (hw : f.lo + f.w ≤ 32) (h : ∀ g ∈ wordFields pg (a % 4096), g ≠ f → g.lo + g.w ≤ f.lo ∨ f.lo + f.w ≤ g.lo) :
    bits (regWord ((Act.reg a (BitVec.ofNat 32 (writeWordFields (wordFields pg (a % 4096)) (pageLocked s pg)
      (offline s pg) (regWord s a).toNat v))).apply s) a).toNat f.lo f.w =
      fieldAfter (pageLocked s pg) (offline s pg) f (bits (regWord s a).toNat f.lo f.w) (bits v f.lo f.w) := by
  rw [regWord_reg, if_pos rfl, bits_toNat_ofNat _ _ _ hw, bits_writeWordFields _ _ _ _ _ hn hf h]

/-- A write that the rights refuse is a denied access. -/
theorem registerWrite_refused {s : State} {id : Ident} {a : Nat} (v : DWord) (hans : portAnswers s id = true) (ha : a % 4 = 0)
    (hz : a ≠ zeroAddr) (hd : ¬ (id = .debug ∧ 0x20800 ≤ a ∧ a < 0x20D20)) (h : Refused s id a true) :
    exec (.registerWrite id a 4 v) s = .next ((denied id a true).run s) := by
  have ⟨pg, hp, _⟩ := h
  rw [exec_registerWrite_word v hans ha, writeStep_access _ ha hz hd hp, run_access_refused _ h]

/-- An access of another size or alignment is marked (R367). -/
theorem registerWrite_narrow {s : State} {id : Ident} {a size : Nat} (v : DWord) (hans : portAnswers s id = true)
    (h4 : ¬ (size = 4 ∧ a % 4 = 0)) (h8 : ¬ (size = 8 ∧ a % 8 = 0)) : exec (.registerWrite id a size v) s = .next (markNarrow.run s) := by
  show Host.Outcome.next (registerWriteStep id a size v.toNat s) = _
  unfold registerWriteStep
  rw [hans, if_neg (by simp), if_neg h4, if_neg h8]

/-- A 64-bit write of two 32-bit registers is the two writes in ascending order (R367). -/
theorem registerWrite_two {s : State} {id : Ident} {a : Nat} (v : DWord) (hans : portAnswers s id = true) (ha : a % 8 = 0)
    (hw : ∀ pg, pageAt a = some pg → wide64 pg (a % 4096) = false) :
    exec (.registerWrite id a 8 v) s = .next (writeStep id (a + 4) (v.toNat / 2 ^ 32) (writeStep id a (v.toNat % 2 ^ 32) s)) := by
  show Host.Outcome.next (registerWriteStep id a 8 v.toNat s) = _
  unfold registerWriteStep wideWrite
  rw [hans, if_neg (by simp), if_neg (by omega), if_pos ⟨rfl, ha⟩]
  cases hp : pageAt a with
  | none => rfl
  | some pg => simp only [hw pg hp]; rfl

end Sys2Proof.Machine
end

section
/-! SUPPORT. What a read of a register answers, of any size, and what it leaves alone (R367). -/

namespace Sys2Proof.Machine

open Sys2Proof

/-! ### Answers -/

/-- An identity's port has been answered `n`, and nothing has changed but the latch of answers (log entry 19). -/
def OnlyAnswers (s t : State) (id : Ident) (n : Nat) : Prop :=
  returned t id = n ∧ t = { s with ports := { s.ports with response := t.ports.response } }

theorem onlyAnswers_respond (s : State) (id : Ident) (n : Nat) : OnlyAnswers s ((respond id n).run s) id n :=
  ⟨smGet_set_same _ _ _ _, rfl⟩

/-- A later answer takes the place of the one before. -/
theorem onlyAnswers_respond_again {s t : State} {id : Ident} {m : Nat} (h : OnlyAnswers s t id m) (n : Nat) :
    OnlyAnswers s ((respond id n).run t) id n := by
  obtain ⟨hr, ht⟩ := onlyAnswers_respond t id n
  exact ⟨hr, ht.trans (by rw [h.2])⟩

/-! ### What the latch of answers leaves alone -/

theorem wordAt_ports (s : State) (x : PortSt) (a : Nat) : wordAt ((Act.ports x).apply s) a = wordAt s a := rfl

theorem letRead_ports (s : State) (x : PortSt) (id : Ident) (a : Nat) : LetRead ((Act.ports x).apply s) id a ↔ LetRead s id a := Iff.rfl

/-! ### Reads of a word -/

/-- A page whose words are read without a rule of their own. -/
def PlainPage (pg : Page) : Prop := (∀ k, pg ≠ .mbx k) ∧ (∀ k, pg ≠ .syn k) ∧ (∀ k, pg ≠ .pst k) ∧ pg ≠ .tlm

theorem run_wordRead_plain {pg : Page} {o : Nat} (h : PlainPage pg) (ho : o ≠ 0x60) (id : Ident) (ecc : Bool) (s : State) :
    (wordRead id pg o ecc).run s = (respond id (wordAt s (pageBase pg + o)).toNat).run s := by
  obtain ⟨hm, hs, hp, ht⟩ := h
  unfold wordRead
  rw [run_look, if_neg ho]
  cases pg
  case mbx k => exact absurd rfl (hm k)
  case syn k => exact absurd rfl (hs k)
  case pst k => exact absurd rfl (hp k)
  case tlm => exact absurd rfl ht
  all_goals rfl

/-- A word of the mailbox page is read by its place in its channel. -/
theorem run_wordRead_mail (id : Ident) (ecc : Bool) (s : State) {c k : Nat} (hc : c < 32) (hk : k < 64) :
    (wordRead id mb (0x100 + 64 * c + k) ecc).run s =
      (if k = 0 then opLockRead id c else if k = 4 then opDoorbellRead id c else if k = 8 then opStatusRead id c
        else if 0x20 ≤ k then opDataRead id c ((k - 0x20) / 4) ecc
        else respond id (wordAt s (pageBase mb + (0x100 + 64 * c + k))).toNat).run s := by
  have hchan : (0x100 + 64 * c + k - 0x100) / 64 = c := by omega
  have hplace : (0x100 + 64 * c + k - 0x100) % 64 = k := by omega
  unfold wordRead mb
  rw [run_look, if_neg (by omega)]
  simp only [hchan, hplace]
  rw [if_pos (by omega)]

/-- A read of an aligned word that is let in, outside the debug challenge and the map windows. -/
theorem run_readWord {s : State} {id : Ident} {a : Nat} {pg : Page} (ecc : Bool) (ha : a % 4 = 0) (hd : ¬ (id = .debug ∧ 0x20400 ≤ a ∧ a < 0x20410))
    (hm : mapWindowAt a = none) (hp : pageAt a = some pg) (hl : LetRead s id a) :
    (readWord id a ecc).run s = (wordRead id pg (a % 4096) ecc).run s := by
  unfold readWord
  rw [if_neg (not_not.mpr ha), if_neg hd]
  simp only [hm]
  exact run_readAccess _ hp hl

/-- A read of a plain word returns it. -/
theorem run_readWord_plain {s : State} {id : Ident} {a : Nat} {pg : Page} (ecc : Bool) (ha : a % 4 = 0)
    (hd : a % 4096 ≠ 0x60 ∧ ¬ (id = .debug ∧ 0x20400 ≤ a ∧ a < 0x20410))
    (hm : mapWindowAt a = none) (hp : pageAt a = some pg) (hl : LetRead s id a) (hpl : PlainPage pg) :
    (readWord id a ecc).run s = (respond id (wordAt s a).toNat).run s := by
  rw [run_readWord ecc ha hd.2 hm hp hl, run_wordRead_plain hpl hd.1, pageBase_of_pageAt hp]

/-! ### Reads of a size (R367) -/

/-- A read of 1 or 2 bytes is the word's read, answered with the bytes asked for. -/
theorem run_narrowRead {s : State} {id : Ident} {a : Nat} {pg : Page} (size : Nat) (ecc : Bool) (hp : pageAt a = some pg) (hm : mapWindowAt a = none)
    (ho : a % 4096 / 4 * 4 ≠ 0x60) (hs : ∀ k, pg ≠ .syn k) (hans : answers s id pg = true) :
    (narrowRead id a size ecc).run s = (respond id (returned ((readWord id (a / 4 * 4) ecc).run s) id / 2 ^ (8 * (a % 4)) % 2 ^ (8 * size))).run
      ((readWord id (a / 4 * 4) ecc).run s) := by
  unfold narrowRead
  simp only [hp, hm]
  rw [if_neg ho]
  cases pg
  case syn k => exact absurd rfl (hs k)
  all_goals
    rw [run_look, if_pos hans]
    rfl

/-- A read of 8 bytes but of a count is two reads in ascending order. -/
theorem run_wideRead {s : State} {id : Ident} {a : Nat} {pg : Page} (ecc : Bool) (hp : pageAt a = some pg) (hs : ∀ k, pg ≠ .syn k) :
    (wideRead id a ecc).run s =
      (let u := (readWord id a ecc).run s
       let t := (readWord id (a + 4) false).run u
       (whenP (portAnswers t id) (respond id (returned u id + 2 ^ 32 * returned t id))).run t) := by
  unfold wideRead
  simp only [hp]
  cases pg
  case syn k => exact absurd rfl (hs k)
  all_goals rfl

theorem run_sizedRead {s : State} {id : Ident} (a size : Nat) (ecc : Bool) (hans : portAnswers s id = true) : (sizedRead id a size ecc).run s =
    (if a % size ≠ 0 then .seq (respond id 0) markNarrow else if size = 4 then readWord id a ecc else if size = 8 then wideRead id a ecc
      else narrowRead id a size ecc).run s := by
  unfold sizedRead
  rw [run_look, hans, run_whenP_true]

/-- What a read not aligned to its size does: it answers 0 and is marked. -/
def ReadNarrow (s t : State) (id : Ident) : Prop :=
  returned t id = 0 ∧ rd t .hif Reg.HIF.HIF_CHECK_NARROW = 1 ∧ t = { s with regs := t.regs, ports := { s.ports with response := t.ports.response } } ∧
    RegsKept s t [fldAddr .hif Reg.HIF.HIF_CHECK_NARROW 0]

theorem sizedRead_unaligned {s : State} {id : Ident} {a size : Nat} (ecc : Bool) (hans : portAnswers s id = true) (ha : a % size ≠ 0) :
    ReadNarrow s ((sizedRead id a size ecc).run s) id := by
  rw [run_sizedRead _ _ _ hans, if_pos ha, run_seq]
  obtain ⟨hr, hu⟩ := onlyAnswers_respond s id 0
  obtain ⟨ht, hk⟩ := onlyRegs_markNarrow ((respond id 0).run s)
  exact ⟨hr, markNarrow_sets _, ht.trans (by rw [hu]; rfl), hk⟩

/-- Two words, the lower first, as one number of 64 bits. -/
theorem two_words_mod (x y : Word) : (x.toNat + 2 ^ 32 * y.toNat) / 2 ^ (8 * 0) % 2 ^ (8 * 8) = x.toNat + 2 ^ 32 * y.toNat := by
  have := x.isLt
  have := y.isLt
  omega

/-- A read of 4 bytes of a plain word. -/
theorem sizedRead_plain_word {s : State} {id : Ident} {a : Nat} {pg : Page} (ecc : Bool) (hans : portAnswers s id = true) (ha : a % 4 = 0)
    (hd : a % 4096 ≠ 0x60 ∧ ¬ (id = .debug ∧ 0x20400 ≤ a ∧ a < 0x20410)) (hm : mapWindowAt a = none) (hp : pageAt a = some pg) (hl : LetRead s id a)
    (hpl : PlainPage pg) : OnlyAnswers s ((sizedRead id a 4 ecc).run s) id (wordAt s a).toNat := by
  rw [run_sizedRead _ _ _ hans, if_neg (not_not.mpr ha), if_pos rfl, run_readWord_plain ecc ha hd hm hp hl hpl]
  exact onlyAnswers_respond _ _ _

/-- A read of 8 bytes of two plain words. -/
theorem sizedRead_plain_wide {s : State} {id : Ident} {a : Nat} {pg : Page} (ecc : Bool) (hans : portAnswers s id = true) (ha : a % 8 = 0)
    (hd : ∀ x, x = a ∨ x = a + 4 → x % 4096 ≠ 0x60 ∧ ¬ (id = .debug ∧ 0x20400 ≤ x ∧ x < 0x20410)) (hm : ∀ x, x = a ∨ x = a + 4 → mapWindowAt x = none)
    (hp : pageAt a = some pg) (hl : ∀ x, x = a ∨ x = a + 4 → LetRead s id x) (hpl : PlainPage pg) :
    OnlyAnswers s ((sizedRead id a 8 ecc).run s) id ((wordAt s a).toNat + 2 ^ 32 * (wordAt s (a + 4)).toNat) := by
  have hp4 : pageAt (a + 4) = some pg := (pageAt_congr (by omega)).trans hp
  have hlow := run_readWord_plain ecc (by omega) (hd _ (.inl rfl)) (hm _ (.inl rfl)) hp (hl _ (.inl rfl)) hpl
  have hl4 : LetRead ((respond id (wordAt s a).toNat).run s) id (a + 4) := (letRead_ports s _ id _).mpr (hl _ (.inr rfl))
  have hhigh := run_readWord_plain false (by omega) (hd _ (.inr rfl)) (hm _ (.inr rfl)) hp4 hl4 hpl
  have hfirst := onlyAnswers_respond s id (wordAt s a).toNat
  have hsecond := onlyAnswers_respond_again hfirst (wordAt s (a + 4)).toNat
  rw [run_sizedRead _ _ _ hans, if_neg (not_not.mpr ha), if_neg (by omega), if_pos rfl, run_wideRead ecc hp hpl.2.1]
  dsimp only
  rw [hlow, hhigh]
  have hport : portAnswers ((respond id (wordAt s (a + 4)).toNat).run ((respond id (wordAt s a).toNat).run s)) id = true := hans
  have hword : wordAt ((respond id (wordAt s a).toNat).run s) (a + 4) = wordAt s (a + 4) := wordAt_ports _ _ _
  rw [hword, hport, run_whenP_true, hfirst.1, hsecond.1]
  exact onlyAnswers_respond_again hsecond _

/-- A read of 1 or 2 bytes of a plain word. -/
theorem sizedRead_plain_narrow {s : State} {id : Ident} {a size : Nat} {pg : Page} (ecc : Bool) (hans : portAnswers s id = true)
    (hsize : size = 1 ∨ size = 2) (ha : a % size = 0)
    (hd : a / 4 * 4 % 4096 ≠ 0x60 ∧ ¬ (id = .debug ∧ 0x20400 ≤ a / 4 * 4 ∧ a / 4 * 4 < 0x20410)) (hm : mapWindowAt a = none)
    (hmw : mapWindowAt (a / 4 * 4) = none) (hp : pageAt a = some pg) (hl : LetRead s id (a / 4 * 4)) (hpl : PlainPage pg) :
    OnlyAnswers s ((sizedRead id a size ecc).run s) id ((wordAt s (a / 4 * 4)).toNat / 2 ^ (8 * (a % 4)) % 2 ^ (8 * size)) := by
  have hpw : pageAt (a / 4 * 4) = some pg := (pageAt_congr (by omega)).trans hp
  have hpage : answers s id pg = true := by
    obtain ⟨pg', hp', h, -⟩ := hl
    exact Option.some.inj (hpw.symm.trans hp') ▸ h
  have hfirst := onlyAnswers_respond s id (wordAt s (a / 4 * 4)).toNat
  rw [run_sizedRead _ _ _ hans, if_neg (not_not.mpr ha), if_neg (by omega), if_neg (by omega),
    run_narrowRead size ecc hp hm (by omega) hpl.2.1 hpage, run_readWord_plain ecc (by omega) hd hmw hpw hl hpl, hfirst.1]
  exact onlyAnswers_respond_again hfirst _

/-! ### Reads of a mailbox channel by parts -/

/-- A read of a part of the word at `b` does what the word's read does, and answers with the bytes asked for; one not aligned to its size is marked. -/
def ReadByParts (s : State) (id : Ident) (off size b : Nat) (i : Nat → Nat → Instr) : Prop :=
  (size = 1 ∨ size = 2 → off % size = 0 → off + size ≤ 4 → LetRead s id b → ∃ u t, exec (i 0 4) s = .next u ∧ exec (i off size) s = .next t ∧
    returned t id = returned u id / 2 ^ (8 * off) % 2 ^ (8 * size) ∧ t = { u with ports := { u.ports with response := t.ports.response } }) ∧
  (size = 2 ∨ size = 4 → off % size ≠ 0 → ∃ t, exec (i off size) s = .next t ∧ ReadNarrow s t id)

theorem mapWindowAt_low {a : Nat} (h : a < 0x1000000) : mapWindowAt a = none := by
  unfold mapWindowAt
  rw [if_neg (by omega)]

/-- The command that reads the word at place `k` of a channel, whole or by parts. -/
theorem readByParts_mail {s : State} {id : Ident} {b c k : Nat} {ecc : Bool} {p : Prog} {i : Nat → Nat → Instr} (off size : Nat)
    (hans : portAnswers s id = true) (hc : c < 32) (hk : k < 64) (hk4 : k % 4 = 0) (hb : b = pageBase mb + (0x100 + 64 * c + k))
    (hp : (wordRead id mb (0x100 + 64 * c + k) ecc).run s = p.run s)
    (hi : ∀ o n, exec (i o n) s = .next ((if o = 0 ∧ n = 4 then readAccess id b fun _ => p else sizedRead id (b + o) n ecc).run s)) :
    ReadByParts s id off size b i := by
  have hbase : b = 0x40100 + 64 * c + k := by rw [hb]; simp only [mb, pageBase]; omega
  refine ⟨fun hsize hoff hend hl => ?_, fun hsize hoff => ?_⟩
  · have hpage (o : Nat) (ho : o < 4) : pageAt (b + o) = some mb := by
      rw [hb, Nat.add_assoc]; exact pageAt_base mb rfl _ (by omega)
    have hpage0 : pageAt b = some mb := hpage 0 (by omega)
    have hmail : answers s id mb = true := by
      obtain ⟨pg, hpg, h, -⟩ := hl
      exact Option.some.inj (hpage0.symm.trans hpg) ▸ h
    have hword : (readWord id b ecc).run s = p.run s := by
      rw [run_readWord ecc (by omega) (by omega) (mapWindowAt_low (by omega)) hpage0 hl, ← hp]
      congr 2
      omega
    have hwhole : exec (i 0 4) s = .next ((readWord id b ecc).run s) := by
      rw [hi, if_pos ⟨rfl, rfl⟩, run_readAccess _ hpage0 hl, hword]
    have hpart : (sizedRead id (b + off) size ecc).run s =
        (respond id (returned ((readWord id b ecc).run s) id / 2 ^ (8 * off) % 2 ^ (8 * size))).run ((readWord id b ecc).run s) := by
      have hsz : size ≠ 4 ∧ size ≠ 8 := by omega
      have haligned : (b + off) % size = 0 := by rcases hsize with rfl | rfl <;> omega
      have hlow : (b + off) / 4 * 4 = b := by omega
      have hbyte : (b + off) % 4 = off := by omega
      rw [run_sizedRead _ _ _ hans, if_neg (not_not.mpr haligned), if_neg hsz.1, if_neg hsz.2,
        run_narrowRead size ecc (hpage off (by omega)) (mapWindowAt_low (by omega)) (by omega) (by intro j; exact Page.noConfusion) hmail, hlow, hbyte]
    refine ⟨_, _, hwhole, ?_, onlyAnswers_respond _ id _⟩
    rw [hi, if_neg (by omega), hpart]
  · refine ⟨_, ?_, sizedRead_unaligned ecc hans (a := b + off) (size := size) ?_⟩
    · rw [hi, if_neg]
      rintro ⟨rfl, rfl⟩
      exact hoff rfl
    · rcases hsize with rfl | rfl <;> omega

end Sys2Proof.Machine
end

section
/-! SUPPORT. What a host write of the configuration space and of BAR2 leaves (R364, R366, R368; their layout is log entry 99). -/

namespace Sys2Proof.Machine

open Sys2Proof

/-! ### The configuration space and BAR2 -/

/-- The word stored at a place of the configuration space or of BAR2. -/
def storedWord (bar : Nat) (h : HostSt) (k : Nat) : Word :=
  if bar = configSpace then smGet configReset h.config k else smGet bar2Reset h.bar2 k

/-- The bits of a word that a write sets, and those that it clears by 1. -/
def writable (bar k : Nat) : Nat × Nat := if bar = configSpace then configBits k else bar2Bits k

/-- A bit after a write of `x`: in `set` it takes `x`, in `clr` a 1 clears it. -/
def bitAfter (set clr old x : Bool) : Bool := if set then x else old && !(clr && x)

/-- A write of `size` bytes at `a` has reached its bytes in their writable bits, and no others. -/
def SpaceWritten (bar : Nat) (h h' : HostSt) (a size v : Nat) : Prop :=
  ∀ k j, j < 32 → bit (storedWord bar h' k).toNat j =
    if a ≤ 4 * k + j / 8 ∧ 4 * k + j / 8 < a + size then
      bitAfter (bit (writable bar k).1 j) (bit (writable bar k).2 j) (bit (storedWord bar h k).toNat j) (bit v (8 * (4 * k + j / 8 - a) + j % 8))
    else bit (storedWord bar h k).toNat j

/-- No bit of these spaces is both set and cleared by a write. -/
theorem writable_disjoint (bar k : Nat) : (writable bar k).1 &&& (writable bar k).2 = 0 := by
  unfold writable
  split
  · unfold configBits; split <;> rfl
  · unfold bar2Bits
    repeat' split
    all_goals rfl

/-- One bit of a masked write, where no bit is both set and cleared. -/
theorem masked_bit : ∀ m p c o x : Bool, (p && c) = false →
    (((o && !(p && m)) || (x && (p && m))) && !(x && m && c)) = if m then bitAfter p c o x else o := by decide

theorem bit_maskedWrite (b : Nat × Nat) (mask old v : Word) {j : Nat} (hj : j < 32) (hb : b.1 &&& b.2 = 0) :
    bit (maskedWrite b mask old v).toNat j =
      if mask.getLsbD j then bitAfter (bit b.1 j) (bit b.2 j) (old.getLsbD j) (v.getLsbD j) else old.getLsbD j := by
  have hdisj : (b.1.testBit j && b.2.testBit j) = false := by rw [← Nat.testBit_and, hb, Nat.zero_testBit]
  rw [bit_toNat, bit_eq_testBit, bit_eq_testBit, ← masked_bit _ _ _ _ _ hdisj]
  simp only [maskedWrite, BitVec.getLsbD_and, BitVec.getLsbD_or, BitVec.getLsbD_not, BitVec.getLsbD_ofNat, hj, decide_true, Bool.true_and]

/-- A host with a word of one space replaced has been written there in the bytes that `mask` names: those from `a` on. -/
theorem spaceWritten_word {bar : Nat} {h h' : HostSt} {a size v : Nat} (mask w : Nat) (ha : a % 4 + size ≤ 4)
    (hmask : ∀ j, j < 32 → mask.testBit j = decide (8 * (a % 4) ≤ j ∧ j < 8 * (a % 4 + size)))
    (hw : ∀ j, 8 * (a % 4) ≤ j → j < 8 * (a % 4 + size) → w.testBit j = v.testBit (j - 8 * (a % 4)))
    (hh : ∀ k, storedWord bar h' k = if k = a / 4 then maskedWrite (writable bar k) (BitVec.ofNat 32 mask) (storedWord bar h k) (BitVec.ofNat 32 w)
      else storedWord bar h k) : SpaceWritten bar h h' a size v := by
  intro k j hj
  rw [hh]
  by_cases hk : k = a / 4
  · rw [if_pos hk, bit_maskedWrite _ _ _ _ hj (writable_disjoint _ _), BitVec.getLsbD_ofNat, BitVec.getLsbD_ofNat, hmask j hj, bit_toNat]
    simp only [hj, decide_true, Bool.true_and, decide_eq_true_eq]
    by_cases hin : 8 * (a % 4) ≤ j ∧ j < 8 * (a % 4 + size)
    · have hplace : 8 * (4 * k + j / 8 - a) + j % 8 = j - 8 * (a % 4) := by omega
      rw [if_pos hin, if_pos (by omega), hw j hin.1 hin.2, hplace, bit_eq_testBit v]
    · rw [if_neg hin, if_neg (by omega)]
  · rw [if_neg hk, if_neg (by omega)]

/-- A write of 8 bytes is two writes of 4, the lower first. -/
theorem spaceWritten_two {bar : Nat} {h h' h'' : HostSt} {a v : Nat} (ha : a % 4 = 0) (h1 : SpaceWritten bar h h' a 4 v)
    (h2 : SpaceWritten bar h' h'' (a + 4) 4 (v / 2 ^ 32)) : SpaceWritten bar h h'' a 8 v := by
  intro k j hj
  rw [h2 k j hj, h1 k j hj]
  by_cases hk : k = a / 4
  · rw [if_neg (by omega), if_pos (by omega), if_pos (by omega)]
  by_cases hk1 : k = a / 4 + 1
  · have hplace : 8 * (4 * k + j / 8 - a) + j % 8 = 32 + (8 * (4 * k + j / 8 - (a + 4)) + j % 8) := by omega
    rw [if_pos (by omega), if_neg (by omega), if_pos (by omega), hplace, bit_eq_testBit v, bit_eq_testBit (v / 2 ^ 32), Nat.testBit_div_two_pow,
      Nat.add_comm 32]
  · rw [if_neg (by omega), if_neg (by omega), if_neg (by omega)]

/-- A write of one word of the configuration space, as it changes the host interface. -/
def configPut (h : HostSt) (i mask v : Nat) : HostSt :=
  let w := maskedWrite (configBits i) (BitVec.ofNat 32 mask) (smGet configReset h.config i) (BitVec.ofNat 32 v)
  msixRelease { h with config := smSet configReset h.config i w }

/-- As `configPut`, of BAR2, but for the commit of the decoder. -/
def bar2Put (h : HostSt) (k v : Nat) : HostSt :=
  let w := maskedWrite (bar2Bits k) (BitVec.allOnes 32) (smGet bar2Reset h.bar2 k) (BitVec.ofNat 32 v)
  msixRelease { h with bar2 := smSet bar2Reset h.bar2 k w }

theorem run_configWrite (i mask v : Nat) (s : State) : (configWrite i mask v).run s = (Act.host (configPut s.host i mask v)).apply s := rfl

theorem storedWord_configPut (h : HostSt) (i mask v k : Nat) : storedWord configSpace (configPut h i mask v) k =
    if k = i then maskedWrite (writable configSpace k) (BitVec.ofNat 32 mask) (storedWord configSpace h k) (BitVec.ofNat 32 v)
    else storedWord configSpace h k := by
  show smGet configReset (smSet configReset h.config i _) k = _
  rw [smGet_set]
  split
  · next e => subst e; rfl
  · rfl

theorem storedWord_bar2Put (h : HostSt) (i v k : Nat) : storedWord 2 (bar2Put h i v) k =
    if k = i then maskedWrite (writable 2 k) (BitVec.ofNat 32 (2 ^ 32 - 1)) (storedWord 2 h k) (BitVec.ofNat 32 v) else storedWord 2 h k := by
  show smGet bar2Reset (smSet bar2Reset h.bar2 i _) k = _
  rw [smGet_set]
  split
  · next e => subst e; rfl
  · rfl

/-! ### Held vectors -/

theorem smGet_drop {α : Type} (d : Nat → α) (p : Nat → Bool) (m : SMap α) (k : Nat) : smGet d (smDrop p m) k = if p k then d k else smGet d m k := by
  induction m with
  | nil => simp [smDrop, smGet]
  | cons e r ih =>
    obtain ⟨j, v⟩ := e
    unfold smDrop at ih ⊢
    by_cases hj : j = k
    · subst hj
      cases hp : p j <;> simp [hp, smGet, ih]
    · cases hp : p j <;> simp [hp, smGet, ih, hj]

/-- A vector that is held no longer is no longer pending. -/
theorem msixPend_release (h : HostSt) (n : Nat) :
    smGet flagDefault (msixRelease h).msixPend n = (smGet flagDefault h.msixPend n && msixHeld h n) := by
  show smGet flagDefault (smDrop (fun v => !msixHeld h v) h.msixPend) n = _
  rw [smGet_drop]
  cases msixHeld h n <;> simp [flagDefault]

/-- A write of a word releases the vectors it unmasks. -/
def Releases (h h' : HostSt) : Prop := ∀ n, smGet flagDefault h'.msixPend n = (smGet flagDefault h.msixPend n && msixHeld h' n)

theorem releases_configPut (h : HostSt) (i mask v : Nat) : Releases h (configPut h i mask v) := msixPend_release _
theorem releases_bar2Put (h : HostSt) (k v : Nat) : Releases h (bar2Put h k v) := msixPend_release _

/-! ### The decoder -/

/-- Only what a write of these spaces can change has changed. -/
def SpacesOnly (s t : State) : Prop :=
  t = { s with host := { s.host with config := t.host.config, bar2 := t.host.bar2, msixPend := t.host.msixPend, hdmCommit := t.host.hdmCommit } }

theorem spacesOnly_trans {s t u : State} (h : SpacesOnly s t) (h' : SpacesOnly t u) : SpacesOnly s u := by
  unfold SpacesOnly at h h' ⊢
  exact h'.trans (by rw [h])

/-- A write of a word of BAR2 stores it; the word of the decoder's control then commits it, or with its COMMIT bit clear ends the commit (R368). -/
theorem run_bar2Write (k v : Nat) (s : State) : (bar2Write k v).run s =
    (let u := (Act.host (bar2Put s.host k v)).apply s
     if k = hdmWords + 8 then (if bit v 9 then (commitDecoder (decoderUnits u.host)).run u else (Act.host { u.host with hdmCommit := 0 }).apply u)
     else u) := by
  unfold bar2Write
  rw [run_seq, run_look, run_whenP]
  by_cases hk : k = hdmWords + 8
  · rw [if_pos (beq_iff_eq.mpr hk), if_pos hk, run_ite]
    rfl
  · rw [if_neg (fun c => hk (beq_iff_eq.mp c)), if_neg hk]
    rfl

/-- A commit of the decoder changes at most what became of the last commit. -/
theorem run_commitDecoder (units : Nat) (s : State) :
    (commitDecoder units).run s = { s with host := { s.host with hdmCommit := ((commitDecoder units).run s).host.hdmCommit } } := by
  unfold commitDecoder
  rw [run_look, run_whenP]
  split <;> rfl

/-- What a write of a word of BAR2 leaves stored and pending, and that it changes no more than these spaces. -/
theorem bar2Write_stores (k v : Nat) (s : State) :
    ∃ c, (bar2Write k v).run s = (Act.host { bar2Put s.host k v with hdmCommit := c }).apply s := by
  rw [run_bar2Write]
  dsimp only
  split
  · split
    · rw [run_commitDecoder]; exact ⟨_, rfl⟩
    · exact ⟨0, rfl⟩
  · exact ⟨s.host.hdmCommit, rfl⟩

/-! ### Host writes of these spaces -/

/-- The commit of the decoder follows a write that reaches its control, and no other (R368). -/
def DecoderFollows (bar a size : Nat) (s t : State) : Prop :=
  if bar = 2 ∧ a ≤ 4 * (hdmWords + 8) ∧ 4 * (hdmWords + 8) < a + size then
    (bit (storedWord bar t.host (hdmWords + 8)).toNat 9 = false → t.host.hdmCommit = 0) ∧
    (bit (storedWord bar t.host (hdmWords + 8)).toNat 9 = true → cxlFull s = true →
      t.host.hdmCommit = if decoderUnits t.host = rd s .hif Reg.HIF.HDM_UNITS then 1 else 2)
  else t.host.hdmCommit = s.host.hdmCommit

/-- What a host write of `size` bytes at `a` of a space does. -/
def HostWritten (bar a size v : Nat) (s t : State) : Prop :=
  SpaceWritten bar s.host t.host a size v ∧ (size ≤ 4 → Releases s.host t.host) ∧ DecoderFollows bar a size s t ∧ SpacesOnly s t

theorem spaceWritten_full {bar : Nat} {h h' : HostSt} {a v : Nat} (ha : a % 4 = 0)
    (hh : ∀ k, storedWord bar h' k = if k = a / 4 then
      maskedWrite (writable bar k) (BitVec.ofNat 32 (2 ^ 32 - 1)) (storedWord bar h k) (BitVec.ofNat 32 (v % 2 ^ 32)) else storedWord bar h k) :
    SpaceWritten bar h h' a 4 v := by
  refine spaceWritten_word _ _ (by omega) (fun j hj => ?_) (fun j hl hu => ?_) hh
  · rw [Nat.testBit_two_pow_sub_one]; exact decide_eq_decide.mpr (by omega)
  · rw [Nat.testBit_mod_two_pow, decide_eq_true (by omega), Bool.true_and]; congr 1; omega

/-- The bytes of a narrow write within its word. -/
theorem spaceWritten_narrow {bar : Nat} {h h' : HostSt} {a size v : Nat} (ha : a % 4 + size ≤ 4)
    (hh : ∀ k, storedWord bar h' k = if k = a / 4 then
      maskedWrite (writable bar k) (BitVec.ofNat 32 ((2 ^ (8 * size) - 1) * 2 ^ (8 * (a % 4)))) (storedWord bar h k)
        (BitVec.ofNat 32 (v % 2 ^ (8 * size) * 2 ^ (8 * (a % 4)))) else storedWord bar h k) : SpaceWritten bar h h' a size v := by
  refine spaceWritten_word _ _ ha (fun j hj => ?_) (fun j hl hu => ?_) hh
  · rw [Nat.testBit_mul_two_pow, Nat.testBit_two_pow_sub_one, ← Bool.decide_and]
    exact decide_eq_decide.mpr (by omega)
  · rw [Nat.testBit_mul_two_pow, Nat.testBit_mod_two_pow, decide_eq_true (by omega), decide_eq_true (by omega), Bool.true_and, Bool.true_and]

theorem run_hostSpaceWrite_config_narrow (a size v : Nat) (s : State) (h : size < 4) : (hostSpaceWrite configSpace a size v).run s =
    (configWrite (a / 4) ((2 ^ (8 * size) - 1) * 2 ^ (8 * (a % 4))) (v % 2 ^ (8 * size) * 2 ^ (8 * (a % 4)))).run s := by
  unfold hostSpaceWrite
  rw [if_pos rfl, if_pos h]

theorem run_hostSpaceWrite_config_word (a v : Nat) (s : State) : (hostSpaceWrite configSpace a 4 v).run s =
    (configWrite (a / 4) (2 ^ 32 - 1) (v % 2 ^ 32)).run s := by
  unfold hostSpaceWrite
  rw [if_pos rfl, if_neg (by decide)]
  show (configWrite (a / 4) _ (v / 1 % 2 ^ 32)).run s = _
  rw [Nat.div_one]

theorem run_hostSpaceWrite_config_wide (a v : Nat) (s : State) : (hostSpaceWrite configSpace a 8 v).run s =
    (configWrite (a / 4 + 1) (2 ^ 32 - 1) (v / 2 ^ 32 % 2 ^ 32)).run ((configWrite (a / 4) (2 ^ 32 - 1) (v % 2 ^ 32)).run s) := by
  unfold hostSpaceWrite
  rw [if_pos rfl, if_neg (by decide)]
  show (configWrite (a / 4 + 1) _ (v / 2 ^ 32 % 2 ^ 32)).run ((configWrite (a / 4) _ (v / 1 % 2 ^ 32)).run s) = _
  rw [Nat.div_one]

theorem run_hostSpaceWrite_bar2_word (a v : Nat) (s : State) : (hostSpaceWrite 2 a 4 v).run s = (bar2Write (a / 4) (v % 2 ^ 32)).run s := by
  unfold hostSpaceWrite
  rw [if_neg (by decide)]
  show (bar2Write (a / 4) (v / 1 % 2 ^ 32)).run s = _
  rw [Nat.div_one]

theorem run_hostSpaceWrite_bar2_wide (a v : Nat) (s : State) : (hostSpaceWrite 2 a 8 v).run s =
    (bar2Write (a / 4 + 1) (v / 2 ^ 32 % 2 ^ 32)).run ((bar2Write (a / 4) (v % 2 ^ 32)).run s) := by
  unfold hostSpaceWrite
  rw [if_neg (by decide)]
  show (bar2Write (a / 4 + 1) (v / 2 ^ 32 % 2 ^ 32)).run ((bar2Write (a / 4) (v / 1 % 2 ^ 32)).run s) = _
  rw [Nat.div_one]

theorem configWrite_narrow_written {a size v : Nat} (s : State) (ha : a % 4 + size ≤ 4) (h : size < 4) :
    HostWritten configSpace a size v s ((hostSpaceWrite configSpace a size v).run s) := by
  rw [run_hostSpaceWrite_config_narrow a size v s h, run_configWrite]
  exact ⟨spaceWritten_narrow ha (storedWord_configPut _ _ _ _), fun _ => releases_configPut _ _ _ _, rfl, rfl⟩

theorem configWrite_word_written {a v : Nat} (s : State) (ha : a % 4 = 0) :
    HostWritten configSpace a 4 v s ((hostSpaceWrite configSpace a 4 v).run s) := by
  rw [run_hostSpaceWrite_config_word, run_configWrite]
  exact ⟨spaceWritten_full ha (storedWord_configPut _ _ _ _), fun _ => releases_configPut _ _ _ _, rfl, rfl⟩

theorem configWrite_wide_written {a v : Nat} (s : State) (ha : a % 8 = 0) :
    HostWritten configSpace a 8 v s ((hostSpaceWrite configSpace a 8 v).run s) := by
  rw [run_hostSpaceWrite_config_wide, run_configWrite, run_configWrite]
  have hlow : SpaceWritten configSpace s.host (configPut s.host (a / 4) (2 ^ 32 - 1) (v % 2 ^ 32)) a 4 v :=
    spaceWritten_full (by omega) (storedWord_configPut _ _ _ _)
  have hnext : (a + 4) / 4 = a / 4 + 1 := by omega
  refine ⟨spaceWritten_two (by omega) hlow (spaceWritten_full (by omega) fun k => ?_), fun h => absurd h (by decide), rfl, rfl⟩
  rw [hnext]
  exact storedWord_configPut _ _ _ _ k

/-! ### Writes of BAR2 -/

theorem storedWord_bar2Write (k v n : Nat) (s : State) : storedWord 2 ((bar2Write k v).run s).host n =
    if n = k then maskedWrite (writable 2 n) (BitVec.ofNat 32 (2 ^ 32 - 1)) (storedWord 2 s.host n) (BitVec.ofNat 32 v) else storedWord 2 s.host n := by
  obtain ⟨c, hc⟩ := bar2Write_stores k v s
  rw [hc, apply_host, ← storedWord_bar2Put]
  rfl

theorem releases_commit {h h' : HostSt} (hr : Releases h h') (c : Nat) : Releases h { h' with hdmCommit := c } := hr

theorem releases_bar2Write (k v : Nat) (s : State) : Releases s.host ((bar2Write k v).run s).host := by
  obtain ⟨c, hc⟩ := bar2Write_stores k v s
  rw [hc, apply_host]
  exact releases_commit (releases_bar2Put s.host k v) c

theorem spacesOnly_bar2Write (k v : Nat) (s : State) : SpacesOnly s ((bar2Write k v).run s) := by
  obtain ⟨c, hc⟩ := bar2Write_stores k v s
  rw [hc]
  rfl

/-- A write of another word leaves what became of the last commit. -/
theorem hdmCommit_bar2Write_other {k : Nat} (v : Nat) (s : State) (hk : k ≠ hdmWords + 8) : ((bar2Write k v).run s).host.hdmCommit = s.host.hdmCommit := by
  rw [run_bar2Write]
  dsimp only
  rw [if_neg hk]
  rfl

/-- A write of the decoder's control with COMMIT 0 ends the commit. -/
theorem hdmCommit_bar2Write_clear {v : Nat} (s : State) (hv : bit v 9 = false) : ((bar2Write (hdmWords + 8) v).run s).host.hdmCommit = 0 := by
  rw [run_bar2Write]
  dsimp only
  rw [if_pos rfl, hv]
  rfl

/-- The decoder's size lies in two words of BAR2. -/
theorem decoderUnits_congr {h h' : HostSt} (h6 : storedWord 2 h' (hdmWords + 6) = storedWord 2 h (hdmWords + 6))
    (h7 : storedWord 2 h' (hdmWords + 7) = storedWord 2 h (hdmWords + 7)) : decoderUnits h' = decoderUnits h := by
  show (storedWord 2 h' (hdmWords + 6)).toNat / 2 ^ 28 + (storedWord 2 h' (hdmWords + 7)).toNat * 2 ^ 4 = _
  rw [h6, h7]
  rfl

/-- A write of a word that holds no part of the decoder's size leaves it. -/
theorem decoderUnits_bar2Write {k : Nat} (v : Nat) (s : State) (h6 : k ≠ hdmWords + 6) (h7 : k ≠ hdmWords + 7) :
    decoderUnits ((bar2Write k v).run s).host = decoderUnits s.host :=
  decoderUnits_congr (by rw [storedWord_bar2Write, if_neg h6.symm]) (by rw [storedWord_bar2Write, if_neg h7.symm])

/-- A write of the decoder's control with COMMIT 1 commits a decoder of the window's size, and fails with any other (R368). -/
theorem hdmCommit_bar2Write_commit {v : Nat} (s : State) (hv : bit v 9 = true) (hc : cxlFull s = true) :
    ((bar2Write (hdmWords + 8) v).run s).host.hdmCommit = if decoderUnits s.host = rd s .hif Reg.HIF.HDM_UNITS then 1 else 2 := by
  have hfull : cxlFull ((Act.host (bar2Put s.host (hdmWords + 8) v)).apply s) = true := hc
  have hunits : decoderUnits (bar2Put s.host (hdmWords + 8) v) = decoderUnits s.host :=
    decoderUnits_congr (by rw [storedWord_bar2Put, if_neg (by omega)]) (by rw [storedWord_bar2Put, if_neg (by omega)])
  have hwindow : rd ((Act.host (bar2Put s.host (hdmWords + 8) v)).apply s) .hif Reg.HIF.HDM_UNITS = rd s .hif Reg.HIF.HDM_UNITS :=
    rd_congr rfl _ _ _ (by decide)
  rw [run_bar2Write]
  dsimp only
  rw [if_pos rfl, hv, if_pos rfl]
  unfold commitDecoder
  rw [run_look, hfull, run_whenP_true, run_modHost, apply_host, hwindow]
  show (if decoderUnits (bar2Put s.host (hdmWords + 8) v) = _ then 1 else 2) = _
  rw [hunits]

/-- The COMMIT bit of the decoder's control is stored as written. -/
theorem bit_commit_bar2Write (v : Nat) (s : State) : bit (storedWord 2 ((bar2Write (hdmWords + 8) v).run s).host (hdmWords + 8)).toNat 9 = bit v 9 := by
  rw [storedWord_bar2Write, if_pos rfl, bit_maskedWrite _ _ _ _ (by decide) (writable_disjoint _ _), if_pos (by decide), BitVec.getLsbD_ofNat,
    show bit (writable 2 (hdmWords + 8)).1 9 = true by decide, bit_eq_testBit v]
  rfl

/-- The commit follows a write of one word of BAR2. -/
theorem decoderFollows_bar2Write {a : Nat} (v : Nat) (s : State) (ha : a % 4 = 0) : DecoderFollows 2 a 4 s ((bar2Write (a / 4) v).run s) := by
  have hw : hdmWords = 0x4480 := rfl
  unfold DecoderFollows
  split
  · next h =>
    obtain ⟨-, hl, hu⟩ := h
    have hk : a / 4 = hdmWords + 8 := by omega
    rw [hk, bit_commit_bar2Write]
    refine ⟨hdmCommit_bar2Write_clear s, fun hv hc => ?_⟩
    rw [hdmCommit_bar2Write_commit s hv hc, decoderUnits_bar2Write _ _ (by omega) (by omega)]
  · next h => exact hdmCommit_bar2Write_other v s (by omega)

theorem bar2Write_word_written {a v : Nat} (s : State) (ha : a % 4 = 0) : HostWritten 2 a 4 v s ((hostSpaceWrite 2 a 4 v).run s) := by
  rw [run_hostSpaceWrite_bar2_word]
  exact ⟨spaceWritten_full ha fun k => storedWord_bar2Write _ _ _ _, fun _ => releases_bar2Write _ _ _, decoderFollows_bar2Write _ s ha,
    spacesOnly_bar2Write _ _ _⟩

/-- The upper word of a wide write is never the decoder's control, and next to the control it is no part of the decoder's size. -/
theorem decoderFollows_next {a : Nat} (v : Nat) {s u : State} (ha : a % 8 = 0) (h : DecoderFollows 2 a 4 s u) :
    DecoderFollows 2 a 8 s ((bar2Write (a / 4 + 1) v).run u) := by
  have hw : hdmWords = 0x4480 := rfl
  have hcommit := hdmCommit_bar2Write_other (k := a / 4 + 1) v u (by omega)
  unfold DecoderFollows at h ⊢
  rw [hcommit]
  by_cases hr : a = 4 * (hdmWords + 8)
  · rw [if_pos ⟨rfl, by omega, by omega⟩] at h ⊢
    rw [storedWord_bar2Write, if_neg (by omega), decoderUnits_bar2Write _ _ (by omega) (by omega)]
    exact h
  · rw [if_neg (by omega)] at h ⊢
    exact h

theorem bar2Write_wide_written {a v : Nat} (s : State) (ha : a % 8 = 0) : HostWritten 2 a 8 v s ((hostSpaceWrite 2 a 8 v).run s) := by
  rw [run_hostSpaceWrite_bar2_wide]
  have hlow : SpaceWritten 2 s.host ((bar2Write (a / 4) (v % 2 ^ 32)).run s).host a 4 v :=
    spaceWritten_full (by omega) fun k => storedWord_bar2Write _ _ _ _
  have hnext : (a + 4) / 4 = a / 4 + 1 := by omega
  refine ⟨spaceWritten_two (by omega) hlow (spaceWritten_full (by omega) fun k => ?_), fun h => absurd h (by decide),
    decoderFollows_next _ ha (decoderFollows_bar2Write _ s (by omega)), spacesOnly_trans (spacesOnly_bar2Write _ _ _) (spacesOnly_bar2Write _ _ _)⟩
  rw [hnext]
  exact storedWord_bar2Write _ _ _ _

/-- A host write that reaches the configuration space or BAR2. -/
theorem hostSpaceWrite_written {s : State} {id : Ident} {bar a size : Nat} (v : Nat) (hbar : bar = 2 ∨ bar = configSpace)
    (hok : hostSpaceOk s id bar a size = true) (hsize : size = 1 ∨ size = 2 ∨ size = 4 ∨ size = 8) :
    HostWritten bar a size v s ((hostSpaceWrite bar a size v).run s) := by
  unfold hostSpaceOk at hok
  simp only [Bool.and_eq_true, Bool.or_eq_true, beq_iff_eq, decide_eq_true_eq] at hok
  obtain ⟨⟨⟨_, halign⟩, _⟩, hnarrow⟩ := hok
  rcases hbar with rfl | rfl
  · have hwide : 4 ≤ size := hnarrow.resolve_right (by decide)
    rcases hsize with rfl | rfl | rfl | rfl
    · omega
    · omega
    · exact bar2Write_word_written s halign
    · exact bar2Write_wide_written s halign
  · rcases hsize with rfl | rfl | rfl | rfl
    · exact configWrite_narrow_written s (by omega) (by decide)
    · exact configWrite_narrow_written s (by omega) (by decide)
    · exact configWrite_word_written s halign
    · exact configWrite_wide_written s halign

/-- An access beside BAR0 reaches the configuration space and BAR2 alone. -/
theorem hostSpaceOk_elsewhere {bar : Nat} (s : State) (id : Ident) (a size : Nat) (h0 : bar ≠ 0) (h2 : bar ≠ 2) (h8 : bar ≠ configSpace) :
    hostSpaceOk s id bar a size = false := by
  unfold hostSpaceOk barSize
  rw [if_neg h8, if_neg h0, if_neg h2, beq_false_of_ne h8, Bool.or_false]
  by_cases hs : 4 ≤ size
  · rw [decide_eq_false (show ¬ a + size ≤ 0 by omega)]; simp
  · rw [decide_eq_false hs]; simp

end Sys2Proof.Machine
end

section
/-! Register accesses by command, and the obligation that gathers them: O58. -/

namespace Sys2Proof.Machine

open Sys2Proof

/-! ### Register accesses by command -/

/-- A host write of another space than BAR0 that reaches it. -/
theorem exec_registerWrite_space {s : State} {id : Ident} {bar a size : Nat} (v : DWord) (hbar : bar ≠ 0) (hok : hostSpaceOk s id bar a size = true) :
    exec (.registerWrite id a size v bar) s = .next ((hostSpaceWrite bar a size v.toNat).run s) := by
  show Host.Outcome.next (if bar = 0 then _ else if hostSpaceOk s id bar a size then _ else _) = _
  rw [if_neg hbar, if_pos hok]

/-- A write of another space that does not reach it does nothing. -/
theorem exec_registerWrite_missed {s : State} {id : Ident} {bar a size : Nat} (v : DWord) (hbar : bar ≠ 0) (hok : hostSpaceOk s id bar a size = false) :
    exec (.registerWrite id a size v bar) s = .next s := by
  show Host.Outcome.next (if bar = 0 then _ else if hostSpaceOk s id bar a size then _ else _) = _
  rw [if_neg hbar, hok, if_neg Bool.false_ne_true]

/-- The word of a space beside BAR0 as it reads. -/
def spaceWordAt (s : State) (bar k : Nat) : Nat := if bar = configSpace then configWordAt s k else if bar = 2 then bar2WordAt s k else 0

/-- A read beside BAR0, once it reaches the module. -/
theorem exec_faultFirstRead_space {s : State} {id : Ident} {bar : Nat} (page off size reg : Nat) (hbar : bar ≠ 0) (hid : id = .host)
    (hup : rd s .hif Reg.HIF.LINK_STATUS_UP = 1) : exec (.faultFirstRead id page off size reg bar) s =
      .next ((respond id (if (page * 4096 + reg + off) % size ≠ 0 then 0
        else (spaceWordAt s bar ((page * 4096 + reg + off) / 4) + 2 ^ 32 * spaceWordAt s bar ((page * 4096 + reg + off) / 4 + 1)) /
          2 ^ (8 * ((page * 4096 + reg + off) % 4)) % 2 ^ (8 * size))).run s) := by
  show Host.Outcome.next ((if bar ≠ 0 then hostSpaceRead id bar (page * 4096 + reg + off) size else _).run s) = _
  rw [if_pos hbar]
  unfold hostSpaceRead
  rw [run_look, hup, hid]
  rfl

/-- A read beside BAR0 of another identity, or with the link down, does nothing. -/
theorem exec_faultFirstRead_missed {s : State} {id : Ident} {bar : Nat} (page off size reg : Nat) (hbar : bar ≠ 0)
    (h : id ≠ .host ∨ rd s .hif Reg.HIF.LINK_STATUS_UP = 0) : exec (.faultFirstRead id page off size reg bar) s = .next s := by
  have hno : (id == Ident.host && rd s .hif Reg.HIF.LINK_STATUS_UP == 1) = false := by
    rcases h with h | h
    · rw [beq_false_of_ne h, Bool.false_and]
    · rw [h]; simp
  show Host.Outcome.next ((if bar ≠ 0 then hostSpaceRead id bar (page * 4096 + reg + off) size else _).run s) = _
  rw [if_pos hbar]
  unfold hostSpaceRead
  rw [run_look, hno]
  rfl

/-- A read of a register without a row of its own (log entry 105). -/
theorem exec_faultFirstRead_sized (s : State) (id : Ident) (page off size : Nat) {reg : Nat} (h : reg ≠ 0x60) :
    exec (.faultFirstRead id page off size reg 0) s = .next ((sizedRead id (page * 4096 + reg + off) size false).run s) := by
  show Host.Outcome.next ((if (0 : Nat) ≠ 0 then _ else if reg = 0x60 then _ else _ : Prog).run s) = _
  rw [if_neg (by decide), if_neg h]

/-- A read of any size, aligned to it, of plain registers (R367). -/
theorem sizedRead_plain {s : State} {id : Ident} {b size : Nat} (hsize : size = 1 ∨ size = 2 ∨ size = 4 ∨ size = 8) (hans : portAnswers s id = true)
    (hb : b % size = 0) (hm : ∀ x, x = b ∨ x = b / 4 * 4 ∨ (size = 8 ∧ x = b / 4 * 4 + 4) → mapWindowAt x = none) (hl : LetRead s id (b / 4 * 4))
    (hl8 : size = 8 → LetRead s id (b / 4 * 4 + 4))
    (hd : ∀ x, x = b / 4 * 4 ∨ (size = 8 ∧ x = b / 4 * 4 + 4) → x % 4096 ≠ 0x60 ∧ ¬ (id = .debug ∧ 0x20400 ≤ x ∧ x < 0x20410))
    (hpl : ∀ pg, pageAt b = some pg → PlainPage pg) :
    OnlyAnswers s ((sizedRead id b size false).run s) id
      (((wordAt s (b / 4 * 4)).toNat + if size = 8 then 2 ^ 32 * (wordAt s (b / 4 * 4 + 4)).toNat else 0) / 2 ^ (8 * (b % 4)) % 2 ^ (8 * size)) := by
  have ⟨pg, hpw, _⟩ := hl
  have hp : pageAt b = some pg := (pageAt_congr (by omega)).trans hpw
  have hd0 := hd _ (.inl rfl)
  have hm0 := hm _ (.inr (.inl rfl))
  have hplain := hpl pg hp
  rcases hsize with rfl | rfl | rfl | rfl
  · exact sizedRead_plain_narrow false hans (.inl rfl) hb hd0 (hm _ (.inl rfl)) hm0 hp hl hplain
  · exact sizedRead_plain_narrow false hans (.inr rfl) hb hd0 (hm _ (.inl rfl)) hm0 hp hl hplain
  · have hbw : b / 4 * 4 = b := by omega
    rw [hbw] at hl hd0 hm0 ⊢
    have hlt := (wordAt s b).isLt
    rw [if_neg (by decide), hb, Nat.add_zero, Nat.mul_zero, pow_zero, Nat.div_one, Nat.mod_eq_of_lt hlt]
    exact sizedRead_plain_word false hans hb hd0 hm0 hp hl hplain
  · have hbw : b / 4 * 4 = b := by omega
    have hb4 : b % 4 = 0 := by omega
    rw [hbw] at hl hl8 hd hm ⊢
    rw [if_pos rfl, hb4, two_words_mod]
    refine sizedRead_plain_wide false hans hb (fun x hx => hd x (hx.imp_right fun h => ⟨rfl, h⟩))
      (fun x hx => hm x (.inr (hx.imp_right fun h => ⟨rfl, h⟩))) hp (fun x hx => ?_) hplain
    rcases hx with rfl | rfl
    · exact hl
    · exact hl8 rfl

/-! ### Mailbox reads by parts -/

theorem mbxLockRead_parts {s : State} {id : Ident} (c : Fin 32) (off size : Nat) (hans : portAnswers s id = true) :
    ReadByParts s id off size (fldAddr mb Reg.MBX0.LOCK c) fun o n => .mbxLockRead id c o n :=
  readByParts_mail (ecc := false) (k := 0) (p := opLockRead id c) off size hans c.isLt (by decide) rfl (by rw [fldAddr_eq]; rfl)
    (run_wordRead_mail id false s c.isLt (by decide)) fun _ _ => rfl

theorem mbxStatusRead_parts {s : State} {id : Ident} (c : Fin 32) (off size : Nat) (hans : portAnswers s id = true) :
    ReadByParts s id off size (fldAddr mb Reg.MBX0.STATUS_FULL c) fun o n => .mbxStatusRead id c o n := by
  refine readByParts_mail (ecc := false) (k := 8) (p := opStatusRead id c) off size hans c.isLt (by decide) rfl ?_
    (run_wordRead_mail id false s c.isLt (by decide)) fun _ _ => rfl
  simp only [fldAddr, Reg.MBX0.STATUS_FULL]
  omega

theorem mbxDataRead_parts {s : State} {id : Ident} (c : Fin 32) (j : Fin 8) (ecc : Bool) (off size : Nat) (hans : portAnswers s id = true) :
    ReadByParts s id off size (dataAddr c j) fun o n => .mbxDataRead id c j ecc o n := by
  have hk : 0x20 + 4 * j.val < 64 := by have := j.isLt; omega
  have hj : (0x20 + 4 * j.val - 0x20) / 4 = j.val := by omega
  refine readByParts_mail (ecc := ecc) (k := 0x20 + 4 * j.val) (p := opDataRead id c j ecc) off size hans c.isLt hk (by omega) ?_ ?_ fun _ _ => rfl
  · simp only [dataAddr, fldAddr, Reg.MBX0.DATA0]
    omega
  · rw [run_wordRead_mail id ecc s c.isLt hk, if_neg (by omega), if_neg (by omega), if_neg (by omega), if_pos (by omega), hj]

/-! ### SMBus (R388, R445) -/

/-- A transaction at another address, or with a bad PEC, does nothing. -/
theorem smbus_ignored (s : State) {pec : Bool} (isWrite : Bool) (off x : Word) (ecc : Bool) {dev : Nat} (h : pec = false ∨ dev ≠ 0x6C) :
    exec (.smbusTransaction pec isWrite off x ecc dev) s = .next s := by
  have hno : (decide (dev ≠ smbusAddress) || !pec || !portAnswers s .mgmt) = true := by
    rcases h with h | h
    · simp [h]
    · simp [smbusAddress, h]
  show Host.Outcome.next (if (decide (dev ≠ smbusAddress) || !pec || !portAnswers s .mgmt) = true then s else _) = _
  rw [if_pos hno]

/-- A good write is the register write of MGMT. -/
theorem smbus_write (s : State) (off x : Word) (ecc : Bool) (ho : off.toNat % 4 = 0) :
    exec (.smbusTransaction true true off x ecc) s = exec (.registerWrite .mgmt off.toNat 4 (x.setWidth 64)) s := by
  have hx : (x.setWidth 64).toNat % 2 ^ 32 = x.toNat := by
    have := x.isLt
    rw [BitVec.toNat_setWidth]
    omega
  show Host.Outcome.next (if (decide (0x6C ≠ smbusAddress) || !true || !portAnswers s .mgmt) = true then s
    else if true then writeStep .mgmt off.toNat x.toNat s else _) = Host.Outcome.next (registerWriteStep .mgmt off.toNat 4 (x.setWidth 64).toNat s)
  unfold registerWriteStep
  cases portAnswers s .mgmt
  · rfl
  · rw [if_neg (by decide), if_pos rfl, if_neg (by decide), if_pos ⟨rfl, ho⟩, hx]

/-- A good read of a plain register returns it, and its offset is kept. -/
theorem smbus_read {s : State} {off : Word} (x : Word) (ecc : Bool) (ho : off.toNat % 4 = 0) (hans : portAnswers s .mgmt = true)
    (hm : mapWindowAt off.toNat = none) (hd : off.toNat % 4096 ≠ 0x60) (hl : LetRead s .mgmt off.toNat)
    (hpl : ∀ pg, pageAt off.toNat = some pg → PlainPage pg) :
    ∃ t, exec (.smbusTransaction true false off x ecc) s = .next t ∧ returned t .mgmt = (wordAt s off.toNat).toNat ∧ t.ports.smbOffset = off.toNat ∧
      t = { s with ports := { s.ports with response := t.ports.response, smbOffset := t.ports.smbOffset } } := by
  have ⟨pg, hp, _⟩ := hl
  have hl' : LetRead ((Act.ports { s.ports with smbOffset := off.toNat }).apply s) .mgmt off.toNat := (letRead_ports s _ _ _).mpr hl
  have hread := run_readWord_plain ecc ho ⟨hd, fun h => Ident.noConfusion h.1⟩ hm hp hl' (hpl pg hp)
  rw [wordAt_ports] at hread
  obtain ⟨hr, ht⟩ := onlyAnswers_respond ((Act.ports { s.ports with smbOffset := off.toNat }).apply s) .mgmt (wordAt s off.toNat).toNat
  refine ⟨_, ?_, hr, rfl, ht⟩
  show Host.Outcome.next (if (decide (0x6C ≠ smbusAddress) || !true || !portAnswers s .mgmt) = true then s
    else if false then _ else (Prog.seq (modPorts fun p => { p with smbOffset := off.toNat }) (readWord .mgmt off.toNat ecc)).run s) = _
  rw [hans, if_neg (by decide), if_neg (by decide), run_seq, run_modPorts, hread]

/-! ### The obligation -/

/-- Settles O58, by cases of the access: a write of BAR0 through the one rule of its page (R8), a write of the host's spaces word by word, reads by
their size, and SMBus as the accesses of MGMT. -/
theorem registersAccessed : Obligations.RegistersAccessed := by
  unfold Obligations.RegistersAccessed
  intro s id a v w
  refine ⟨fun hans ha hz hd => ⟨fun pg hp ho hb hr hl => ?_, fun href => ?_⟩, fun hans => ⟨fun size h4 h8 => ?_, fun h8 hw => ?_⟩,
    fun bar size => ⟨fun hbar hno => ?_, fun hbar hok hsize => ?_⟩, fun page off size reg bar hsize => ?_, fun c off size hans => ?_, fun off x => ?_⟩
  -- a 32-bit write that is let in, and one that is refused
  · refine ⟨_, registerWrite_plain v hans ha hz hd hp ho hb hr hl, onlyRegs_reg _ _ _ (List.mem_singleton.mpr rfl), fun hn f hf hfw hdis => ?_⟩
    exact (bits_registerWrite_plain w hn hf hfw hdis).trans (by unfold fieldAfter; cases f.acc <;> rfl)
  · exact ⟨_, registerWrite_refused v hans ha hz hd href, rd_denied_count s id a true, onlyRegs_denied s id a true⟩
  -- other sizes and alignments, and 64-bit writes of two registers
  · exact ⟨_, registerWrite_narrow v hans h4 h8, markNarrow_sets s, onlyRegs_markNarrow s⟩
  · exact ⟨_, _, registerWrite_two v hans h8 hw, exec_registerWrite_word v hans (by omega), rfl⟩
  -- writes beside BAR0
  · refine exec_registerWrite_missed v hbar ?_
    rcases hno with ⟨h2, h8⟩ | hno
    · exact hostSpaceOk_elsewhere s id a size hbar h2 h8
    · exact hno
  · have hbar0 : bar ≠ 0 := by rcases hbar with rfl | rfl <;> decide
    obtain ⟨hbits, hmsix, hdec, hframe⟩ := hostSpaceWrite_written v.toNat hbar hok hsize
    exact ⟨_, exec_registerWrite_space v hbar0 hok, hbits, hmsix, hdec, hframe⟩
  -- reads of a size, beside BAR0 and in it
  · refine ⟨fun hbar hid hup => ?_, exec_faultFirstRead_missed page off size reg, fun hbar hreg hans => ?_⟩
    · have hread := exec_faultFirstRead_space page off size reg hbar hid hup
      refine ⟨fun hb => ?_, fun hb => ?_⟩
      · rw [if_neg (not_not.mpr hb)] at hread
        exact ⟨_, hread, onlyAnswers_respond _ _ _⟩
      · rw [if_pos hb] at hread
        exact ⟨_, hread, onlyAnswers_respond _ _ _⟩
    · subst hbar
      have hread := exec_faultFirstRead_sized s id page off size hreg
      exact ⟨fun hb hm hl hl8 hd hpl => ⟨_, hread, sizedRead_plain hsize hans hb hm hl hl8 hd hpl⟩,
        fun hb => ⟨_, hread, sizedRead_unaligned false hans hb⟩⟩
  -- reads of a mailbox channel by parts
  · exact ⟨mbxLockRead_parts c off size hans, mbxStatusRead_parts c off size hans, fun j ecc => mbxDataRead_parts c j ecc off size hans⟩
  -- SMBus
  · exact ⟨fun pec isWrite ecc dev => smbus_ignored s isWrite off x ecc, fun ho ecc => smbus_write s off x ecc ho,
      fun ho hans hm hd hl hpl ecc => smbus_read x ecc ho hans hm hd hl hpl⟩

end Sys2Proof.Machine
end

section
/-! SUPPORT. A leg command whose leg executes is carried out: the law of LegDone.lean read as `Completes`; and the legs of the M-gates (R90, R208). -/

namespace Sys2Proof.Machine

open Sys2Proof

/-- No host page of a leg that executes is one whose access the host completes with an error (R238). -/
theorem Issues.entered_hostErr {s : State} {p g op : Nat} {o : LegOp} {e : Env} (h : Issues s p g op o e) (hg : g < 12) : (entered o e).hostErr = [] := by
  obtain ⟨hready, -, -, -, -, -, -, -, -, -, hnone⟩ := h
  obtain ⟨-, -, -, -, hhost⟩ := entered_at (o := o) (legReady_next hready) hg hnone
  exact hhost

/-- A command that runs the leg that issues completes it, where the leg's status and effect end no run. -/
theorem Issues.completes {s : State} {p g op : Nat} {o : LegOp} {e : Env} {c : Instr} (h : Issues s p g op o e) (hg : g < 12)
    (hc : exec c s = done (runLeg p g op [] o) s) (hs : Pres (o.status (entered o e))) (hb : Pres (o.body (entered o e))) : Completes s c o e := by
  obtain ⟨hrun, hover, hframe⟩ := leg_completes h hg hs hb
  exact ⟨by rw [hc, done_eq, hrun], hover, hframe⟩

/-- The five M-gates stand among the twelve gates of their piste (R23). -/
theorem mGate_lt : ∀ m : Fin 5, mGate m < 12 := by decide

theorem exec_matmul (p : Fin 64) (m : Fin 5) (chk : MgCheck) (ram : List SramErr) (s : State) :
    exec (.matmul p m chk ram) s = done (runLeg p (mGate m) 1 ram (opMatmul chk ram)) s := rfl

theorem exec_matmulInspect (p : Fin 64) (m : Fin 5) (chk : MgCheck) (ram : List SramErr) (s : State) :
    exec (.matmulInspect p m chk ram) s = done (runLeg p (mGate m) 2 ram (opMatmulInspect chk ram)) s := rfl

/-- Settles O6, from the law of a leg that executes: a MATMUL whose compares agree (R96), and an inspected one, end no run under a check that passes
or that a replay clears (R97). -/
theorem matrixLegsComplete : Obligations.MatrixLegsComplete := by
  unfold Obligations.MatrixLegsComplete
  intro s p m chk e hchk
  refine ⟨fun h hagree => ?_, fun h => ?_⟩
  · have hbody : Pres (matBody chk [] (entered (opMatmul chk []) e)) := pres_matBody (h.entered_hostErr (mGate_lt m)) hchk hagree
    exact h.completes (mGate_lt m) (exec_matmul p m chk [] s) pres_matStatus hbody
  · have hbody : Pres (inspectBody chk [] (entered (opMatmulInspect chk []) e)) := pres_inspectBody (h.entered_hostErr (mGate_lt m)) hchk
    exact h.completes (mGate_lt m) (exec_matmulInspect p m chk [] s) pres_matStatus hbody

end Sys2Proof.Machine
end

section
/-! Legs of the A-gates, V-gates, the G-gate and the X-gate that execute: O7, O8, O9 and O10, each from the law of a leg that executes and the law
that its effect ends no run. -/

namespace Sys2Proof.Machine

open Sys2Proof

set_option Elab.async false

/-! ### A-gates -/

/-- The two A-gates stand among the twelve gates of their piste (R23). -/
theorem aGate_lt : ∀ a : Fin 2, aGate a < 12 := by decide

theorem exec_attend (p : Fin 64) (a : Fin 2) (chk : HwCheck) (ram : List SramErr) (s : State) :
    exec (.attend p a chk ram) s = done (runLeg p (aGate a) 1 ram (opAttend chk ram)) s := rfl

theorem exec_attendPaged (p : Fin 64) (a : Fin 2) (chk : HwCheck) (ram : List SramErr) (s : State) :
    exec (.attendPaged p a chk ram) s = done (runLeg p (aGate a) 2 ram (opAttendPaged chk ram)) s := rfl

theorem exec_attendBwd (p : Fin 64) (a : Fin 2) (chk : HwCheck) (ram : List SramErr) (s : State) :
    exec (.attendBwd p a chk ram) s = done (runLeg p (aGate a) 3 ram (opAttendBwd chk ram)) s := rfl

theorem exec_kvAppend (p : Fin 64) (a : Fin 2) (ram : List SramErr) (s : State) :
    exec (.kvAppend p a ram) s = done (runLeg p (aGate a) 4 ram opKvAppend) s := rfl

theorem exec_ropeLoad (p : Fin 64) (a : Fin 2) (ram : List SramErr) (s : State) :
    exec (.ropeLoad p a ram) s = done (runLeg p (aGate a) 5 ram opRopeLoad) s := rfl

theorem exec_rotate (p : Fin 64) (a : Fin 2) (ram : List SramErr) (s : State) :
    exec (.rotate p a ram) s = done (runLeg p (aGate a) 6 ram opRotate) s := rfl

/-- Settles O7: the effect of each A-gate operation ends no run where its table is loaded, its tags pass and no residue mismatches twice. -/
theorem attentionLegsComplete : Obligations.AttentionLegsComplete := by
  unfold Obligations.AttentionLegsComplete
  intro s p a chk e hchk
  have hg := aGate_lt a
  refine ⟨fun h hrope => ?attend, fun h ⟨hrope, htags⟩ => ?paged, fun h hrope => ?bwd, fun h ⟨hrope, htags⟩ => ?append, fun h hsteps => ?load,
    fun h hrope => ?rotate⟩
  case attend => exact h.completes hg (exec_attend p a chk [] s) pres_attnStatus (pres_attendBody (h.entered_hostErr hg) hchk hrope)
  case paged => exact h.completes hg (exec_attendPaged p a chk [] s) pres_attnStatus (pres_attendPagedBody (h.entered_hostErr hg) hchk hrope htags)
  case bwd => exact h.completes hg (exec_attendBwd p a chk [] s) pres_attnStatus (pres_attendBwdBody (h.entered_hostErr hg) hchk hrope)
  case append => exact h.completes hg (exec_kvAppend p a [] s) pres_attnStatus (pres_kvAppendBody (h.entered_hostErr hg) hrope htags)
  case load => exact h.completes hg (exec_ropeLoad p a [] s) pres_attnStatus (pres_ropeLoadBody hsteps)
  case rotate => exact h.completes hg (exec_rotate p a [] s) pres_attnStatus (pres_rotateBody (h.entered_hostErr hg) hrope)

/-! ### V-gates -/

/-- The three V-gates stand among the twelve gates of their piste (R23). -/
theorem vGate_lt : ∀ v : Fin 3, vGate v < 12 := by decide

/-- A V-gate operation has the status of V-gates, and its effect comes after the check of its residues (R145) and ends no run itself. -/
structure VOperation (chk : HwCheck) (o : LegOp) : Prop where
  status : o.status = vStatus
  body : ∃ covered f, o.body = vBody covered chk [] f ∧ ∀ e : Env, e.hostErr = [] → Pres (f e)

theorem VOperation.completes {s : State} {p : Fin 64} {v : Fin 3} {op : Nat} {o : LegOp} {e : Env} {c : Instr} {chk : HwCheck}
    (ho : VOperation chk o) (hchk : isPersistent chk = false) (h : Issues s p (vGate v) op o e) (hc : exec c s = execV p v op [] o s) :
    Completes s c o e := by
  obtain ⟨hstatus, covered, f, hbody, hf⟩ := ho
  have hs : Pres (o.status (entered o e)) := hstatus ▸ pres_vStatus
  have hb : Pres (o.body (entered o e)) := hbody ▸ pres_vBody hchk (hf _ (h.entered_hostErr (vGate_lt v)))
  exact h.completes (vGate_lt v) hc hs hb

theorem vOperation_elemwise (chk : HwCheck) : VOperation chk (opElemwise chk []) := ⟨rfl, _, _, rfl, fun _ => pres_elemwiseBody⟩
theorem vOperation_reduceVector (chk : HwCheck) : VOperation chk (opReduceVector chk []) := ⟨rfl, _, _, rfl, fun _ => pres_reduceBody⟩
theorem vOperation_norm (chk : HwCheck) : VOperation chk (opNorm chk []) := ⟨rfl, _, _, rfl, fun _ => pres_normBody⟩
theorem vOperation_smNormalise (chk : HwCheck) : VOperation chk (opSmNormalise chk []) := ⟨rfl, _, _, rfl, fun _ => pres_smNormaliseBody⟩
theorem vOperation_smMerge (chk : HwCheck) : VOperation chk (opSmMerge chk []) := ⟨rfl, _, _, rfl, fun _ => pres_smMergeBody⟩
theorem vOperation_kl (chk : HwCheck) : VOperation chk (opKl chk []) := ⟨rfl, _, _, rfl, fun _ => pres_klBody⟩
theorem vOperation_optUpdate (chk : HwCheck) : VOperation chk (opOptUpdate chk []) := ⟨rfl, _, _, rfl, fun _ => pres_optUpdateBody⟩
theorem vOperation_convert (chk : HwCheck) : VOperation chk (opConvert chk []) := ⟨rfl, _, _, rfl, fun _ => pres_convertBody⟩
theorem vOperation_compress24 (chk : HwCheck) : VOperation chk (opCompress24 chk []) := ⟨rfl, _, _, rfl, fun _ => pres_compress24Body⟩
theorem vOperation_cacheFill (chk : HwCheck) : VOperation chk (opCacheFill chk []) := ⟨rfl, _, _, rfl, fun _ => pres_vSimple⟩
theorem vOperation_cacheSpill (chk : HwCheck) : VOperation chk (opCacheSpill chk []) := ⟨rfl, _, _, rfl, fun _ => pres_spillBody⟩
theorem vOperation_sketch (chk : HwCheck) : VOperation chk (opSketch chk []) := ⟨rfl, _, _, rfl, fun _ => pres_sketchBody⟩

/-- Settles O8: every V-gate operation is one of the form that completes where its residues do not mismatch twice. -/
theorem vectorLegsComplete : Obligations.VectorLegsComplete := by
  unfold Obligations.VectorLegsComplete
  intro s p v chk e hchk
  exact ⟨fun h => (vOperation_elemwise chk).completes hchk h rfl, fun h => (vOperation_reduceVector chk).completes hchk h rfl,
    fun h => (vOperation_norm chk).completes hchk h rfl, fun h => (vOperation_smNormalise chk).completes hchk h rfl,
    fun h => (vOperation_smMerge chk).completes hchk h rfl, fun h => (vOperation_kl chk).completes hchk h rfl,
    fun h => (vOperation_optUpdate chk).completes hchk h rfl, fun h => (vOperation_convert chk).completes hchk h rfl,
    fun h => (vOperation_compress24 chk).completes hchk h rfl, fun h => (vOperation_cacheFill chk).completes hchk h rfl,
    fun h => (vOperation_cacheSpill chk).completes hchk h rfl, fun h => (vOperation_sketch chk).completes hchk h rfl⟩

/-! ### The G-gate -/

theorem exec_sample (p : Fin 64) (ram : List SramErr) (s : State) : exec (.sample p ram) s = done (runLeg p 0 1 ram opSample) s := rfl
theorem exec_gather (p : Fin 64) (ram : List SramErr) (s : State) : exec (.gather p ram) s = done (runLeg p 0 2 ram opGather) s := rfl
theorem exec_scatterAdd (p : Fin 64) (chk : HwCheck) (ram : List SramErr) (s : State) :
    exec (.scatterAdd p chk ram) s = done (runLeg p 0 3 ram (opScatterAdd chk)) s := rfl
theorem exec_aggregate (p : Fin 64) (chk : HwCheck) (ram : List SramErr) (s : State) :
    exec (.aggregate p chk ram) s = done (runLeg p 0 4 ram (opAggregate chk)) s := rfl
theorem exec_embGather (p : Fin 64) (ram : List SramErr) (s : State) : exec (.embGather p ram) s = done (runLeg p 0 5 ram opEmbGather) s := rfl
theorem exec_embScatter (p : Fin 64) (chk : HwCheck) (ram : List SramErr) (s : State) :
    exec (.embScatter p chk ram) s = done (runLeg p 0 6 ram (opEmbScatter chk)) s := rfl
theorem exec_embRefresh (p : Fin 64) (ram : List SramErr) (s : State) : exec (.embRefresh p ram) s = done (runLeg p 0 7 ram opEmbRefresh) s := rfl

/-- Settles O9: the effect of each G-gate operation ends no run where no residue mismatches twice and the table, if it has one, serves the use. -/
theorem graphLegsComplete : Obligations.GraphLegsComplete := by
  unfold Obligations.GraphLegsComplete
  intro s p chk e hchk
  have hg : 0 < 12 := by decide
  refine ⟨fun h => ?sample, fun h => ?gather, fun h => ?scatter, fun h => ?aggregate, fun t h ⟨hrec, hok⟩ => ?embGather,
    fun t h ⟨hrec, hok⟩ => ?embScatter, fun t h ⟨hrec, hok⟩ => ?embRefresh⟩
  case sample => exact h.completes hg (exec_sample p [] s) pres_gStatus (pres_sampleBody (h.entered_hostErr hg))
  case gather => exact h.completes hg (exec_gather p [] s) pres_gStatus (pres_gatherBody (h.entered_hostErr hg))
  case scatter => exact h.completes hg (exec_scatterAdd p chk [] s) pres_gStatus (pres_scatterBody hchk)
  case aggregate => exact h.completes hg (exec_aggregate p chk [] s) pres_gStatus (pres_aggregateBody hchk)
  case embGather => exact h.completes hg (exec_embGather p [] s) pres_gStatus (pres_embGatherBody (h.entered_hostErr hg) hrec hok)
  case embScatter => exact h.completes hg (exec_embScatter p chk [] s) pres_gStatus (pres_embScatterBody hchk hrec hok)
  case embRefresh => exact h.completes hg (exec_embRefresh p [] s) pres_gStatus (pres_embRefreshBody (h.entered_hostErr hg) hrec hok)

/-! ### The X-gate -/

/-- An X-gate command whose leg issues completes it where the leg's effect ends no run. -/
theorem Issues.xCompletes {s : State} {p : Fin 64} {op : Nat} {o : LegOp} {e : Env} {c : Instr} (h : Issues s p 11 op o e)
    (hc : exec c s = execX p op [] o s) (hs : o.status = xStatus) (hb : ∀ f : Env, f.hostErr = [] → Pres (o.body f)) : Completes s c o e :=
  have hg : 11 < 12 := by decide
  h.completes hg hc (hs ▸ pres_xStatus) (hb _ (h.entered_hostErr hg))

/-- A NORM command of a phase runs the leg that issues where the leg's phase is the command's. -/
theorem execNormPhase_ready {s : State} {p : Fin 64} {phase : Nat} {body : Env → Prog} {e : Env} (h : Issues s p 11 4 (opNormX phase body) e)
    (hphase : bits e.leg.p0 0 2 = phase) : execNormPhase p phase [] body s = execX p 4 [] (opNormX phase body) s := by
  obtain ⟨hready, -⟩ := h
  unfold execNormPhase execX
  rw [done_eq, done_eq, run_look, hready]
  dsimp only
  rw [hphase, beq_self_eq_true, run_whenP_true]

/-- Settles O10: the effect of each of these X-gate operations ends no run where no residue mismatches twice. -/
theorem exchangeLegsComplete : Obligations.ExchangeLegsComplete := by
  unfold Obligations.ExchangeLegsComplete
  intro s p chk e hchk
  refine ⟨fun h => ?store, fun h => ?add, fun h => ?reduce, fun h hp => ?pack, fun h hp => ?unpack, fun h hp => ?ret, fun h => ?offload,
    fun h => ?kvSend, fun h => ?stageSend⟩
  case store => exact h.xCompletes rfl rfl fun _ => pres_storeBody
  case add => exact h.xCompletes rfl rfl fun _ _ => pres_atomicBody
  case reduce => exact h.xCompletes rfl rfl fun _ hf => pres_reduceXBody hf hchk
  case pack => exact h.xCompletes (execNormPhase_ready h hp) rfl fun _ => pres_packBody
  case unpack => exact h.xCompletes (execNormPhase_ready h hp) rfl fun _ => pres_unpackBody
  case ret => exact h.xCompletes (execNormPhase_ready h hp) rfl fun _ => pres_returnBody
  case offload => exact h.xCompletes rfl rfl fun _ hf => pres_copyTensor hf
  case kvSend => exact h.xCompletes rfl rfl fun _ hf => pres_whenP (pres_copyTensor hf)
  case stageSend => exact h.xCompletes rfl rfl fun _ hf => pres_whenP (pres_copyTensor hf)

end Sys2Proof.Machine
end

section
/-! Two obligations that states refute in which the model evaluates otherwise: O53 by a run that waits for its replay with a piste fenced meanwhile, and
O52 by a pending repair of a gate that no piste has. -/

namespace Sys2Proof.Machine

open Sys2Proof

set_option Elab.async false
open Sys2Proof.Tests (runState runAt runBody readyState)

/-- A run of piste 63 that has ended with STALE_SHARD and waits for its replay, after whose end the piste was fenced, with its ARM still 1 (R336, R432). -/
def staleFenced : State :=
  runState [wr (.pst 63) Reg.PST.RUN_CTRL_FENCED 1] { runAt 63 true with left := 0, status := Code.STALE_SHARD, island := 767 } runBody PisteSt.idle

theorem staleFenced_waits : findRun staleFenced 0 = some { runAt 63 true with left := 0, status := Code.STALE_SHARD, island := 767 } ∧
    fwRuns staleFenced = true ∧ (∀ x ∈ staleFenced.runs.runs, x.held ≠ some 0) ∧ 63 ∈ maskList 64 (2 ^ 63) := by decide +kernel

/-- The replay's hold passes over the fenced piste, whose ARM stays 1. -/
theorem staleReplay_leaves_fenced_armed : rd ((progStaleReplay 0).run staleFenced) (.pst 63) Reg.PST.RUN_CTRL_ARM = 1 := by decide +kernel

/-- Refutes O53: the last clause says that ARM is 0 on every piste of the run once its replay is queued, and on a piste fenced since the run ended ARM
stays as it stood, as firmware holds no fenced piste. -/
theorem not_changesEndOrStall : ¬ Obligations.ChangesEndOrStall := by
  unfold Obligations.ChangesEndOrStall
  intro h
  obtain ⟨-, -, -, -, hreplay⟩ := h staleFenced
  obtain ⟨hfind, hfw, hheld, hmem⟩ := staleFenced_waits
  obtain ⟨t, hexec, -, -, -, harm, -⟩ := hreplay 0 _ hfind rfl hfw rfl (by decide) hheld
  have ht : (progStaleReplay 0).run staleFenced = t := Host.Outcome.next.inj hexec
  have hone := staleReplay_leaves_fenced_armed
  have hzero := harm 63 hmem
  rw [ht] at hone
  omega

/-- Piste 62 at its boundary, with a fence pending and a repair that names gate 62 and array 0x3B8: no gate has these numbers, and SPARE_MAP of such
a gate would lie at RUN_CTRL of piste 63. -/
def repairBeyond : State :=
  { readyState with
    regs := [(fldAddr (.mod 3) Reg.MOD3.MIR_FIXED 0, 1), (fldAddr (.pst 62) Reg.PST.RUN_CTRL_FENCED 0, 5)]
    pistes := [(62, { PisteSt.idle with repairs := [{ gate := 62, arr := 0x3B8, col := 3, spare := 0 }] })] }

theorem repairBeyond_pending : idlePiste repairBeyond 62 = true ∧ rd repairBeyond (.pst 62) Reg.PST.RUN_CTRL_FENCE_PENDING = 1 ∧
    fenced repairBeyond 63 = false := by decide +kernel

/-- The repair, taken at the boundary before the fence, writes FENCED and ARM of piste 63, so that the fence's hold passes over it. -/
theorem pisteBoundary_leaves_armed : rd ((progPisteBoundary 62).run repairBeyond) (.pst 63) Reg.PST.RUN_CTRL_ARM = 1 := by decide +kernel

/-- Refutes O52: its first clause says that a fence at the boundary leaves ARM 0 on every other piste in service, in every state; in one whose pending
repair names a gate that no piste has, the repair marks the next piste as fenced, and its ARM stays 1. -/
theorem not_runsBeginAndEnd : ¬ Obligations.RunsBeginAndEnd := by
  unfold Obligations.RunsBeginAndEnd
  intro h
  obtain ⟨hboundary, -⟩ := h repairBeyond
  obtain ⟨hidle, hpending, hservice⟩ := repairBeyond_pending
  obtain ⟨hfence, -⟩ := hboundary 62 hidle
  obtain ⟨t, hexec, -, -, -, -, -, -, -, -, -, hothers, -⟩ := hfence hpending
  have ht : (progPisteBoundary 62).run repairBeyond = t := Host.Outcome.next.inj hexec
  have hone := pisteBoundary_leaves_armed
  have hzero := hothers 63 (by decide) (by decide) hservice
  rw [ht] at hone
  omega

end Sys2Proof.Machine
end

section
/-! The words of the register file a program writes: `Writes A p` says that `p` writes no word outside `A`. With `Only` it gives the frame of
every operation below; a register field read after such a program is the field before it where its word is not in `A`. -/

namespace Sys2Proof.Machine

open Sys2Proof

set_option Elab.async false

/-- A program writes no word of the register file but those of a set. -/
def Writes (A : Nat → Prop) (p : Prog) : Prop := ∀ a, ¬ A a → Keeps (fun s => regWord s a) p

variable {A B : Nat → Prop} {β : Type}

theorem writes_skip : Writes A .skip := fun _ _ _ => rfl

theorem Writes.mono {p : Prog} (h : Writes A p) (hab : ∀ a, A a → B a) : Writes B p := fun a ha => h a fun c => ha (hab a c)

theorem Only.writes {K : List Kind} {p : Prog} (h : Only K p) (hk : Kind.reg ∉ K := by decide) : Writes A p :=
  fun a _ s => by
    show regWord _ a = regWord s a
    unfold regWord
    rw [h.regs hk]

theorem writes_seq {p q : Prog} (hp : Writes A p) (hq : Writes A q) : Writes A (.seq p q) := fun a ha => keeps_seq _ (hp a ha) (hq a ha)
theorem writes_look {f : State → Prog} (h : ∀ s, Writes A (f s)) : Writes A (.look f) := fun a ha => keeps_look _ fun s => h s a ha
theorem writes_nil : Writes A (progs []) := writes_skip
theorem writes_cons {p : Prog} {r : List Prog} (hp : Writes A p) (hr : Writes A (progs r)) : Writes A (progs (p :: r)) := writes_seq hp hr

theorem writes_forEach {l : List β} {f : β → Prog} (h : ∀ x ∈ l, Writes A (f x)) : Writes A (forEach l f) :=
  fun a ha => keeps_forEach _ _ _ fun x hx => h x hx a ha

theorem writes_whenP {b : Bool} {p : Prog} (h : b = true → Writes A p) : Writes A (whenP b p) := by
  cases b
  · exact writes_skip
  · exact h rfl

theorem writes_ite {c : Prop} [Decidable c] {p q : Prog} (hp : c → Writes A p) (hq : ¬ c → Writes A q) : Writes A (if c then p else q) := by
  split
  · next h => exact hp h
  · next h => exact hq h

theorem writes_wr {pg : Page} {f : Fld} {v i : Nat} (h : A (fldAddr pg f i)) : Writes A (wr pg f v i) := fun a ha s => by
  show regWord _ a = regWord s a
  rw [regWord_wr]
  exact if_neg fun c : a = fldAddr pg f i => ha (c ▸ h)

theorem writes_addSat {pg : Page} {f : Fld} {n i : Nat} (h : A (fldAddr pg f i)) : Writes A (addSat pg f n i) := writes_look fun _ => writes_wr h

/-- A plain field whose word two states share. -/
theorem rd_of_regWord {s t : State} {pg : Page} {f : Fld} {i : Nat} (h : regWord t (fldAddr pg f i) = regWord s (fldAddr pg f i))
    (hp : plain pg f i = true) : rd t pg f i = rd s pg f i := by
  rw [rd_plain _ _ _ _ hp, rd_plain _ _ _ _ hp]
  unfold rdRaw
  rw [h]

/-- A plain field whose word a program does not write. -/
theorem Writes.rd {p : Prog} (h : Writes A p) {pg : Page} {f : Fld} {i : Nat} (ha : ¬ A (fldAddr pg f i)) (hp : plain pg f i = true) (s : State) :
    Machine.rd (p.run s) pg f i = Machine.rd s pg f i := rd_of_regWord (h _ ha s) hp

/-- A counting field after it has been raised. -/
theorem rd_addSat {pg : Page} {f : Fld} {i : Nat} (hp : plain pg f i = true) (n : Nat) (s : State) :
    rd ((addSat pg f n i).run s) pg f i = satBits f.w (rd s pg f i + n) := by
  unfold addSat
  rw [run_look, rd_wr_same _ _ _ _ _ hp]
  refine Nat.mod_eq_of_lt ?_
  unfold satBits
  split
  · assumption
  · exact Nat.sub_lt (by positivity) Nat.one_pos

/-! ### Fields of a piste's pages -/

theorem plain_pst {p : Nat} {f : Fld} {i : Nat} (hp : p < 64) (h : plain (.pst 0) f i = true := by decide) : plain (.pst p) f i = true := by
  unfold plain plainField pageOk at *
  simpa [hp] using h

theorem plain_gate {p g : Nat} {f : Fld} {i : Nat} (hp : p < 64) (hg : g < 12) (h : plain (.gate 0 0) f i = true := by decide) :
    plain (.gate p g) f i = true := by
  unfold plain plainField pageOk at *
  simpa [hp, hg] using h

theorem plain_frn {p : Nat} {f : Fld} {i : Nat} (hp : p < 64) (h : plain (.frn 0) f i = true := by decide) : plain (.frn p) f i = true := by
  unfold plain plainField pageOk at *
  simpa [hp] using h

/-- The words of a piste's pages (R427). -/
def pisteWords (p a : Nat) : Prop := 0x1000000 + 0x40000 * p ≤ a ∧ a < 0x1000000 + 0x40000 * (p + 1)

/-! ### Programs that change one part of the state -/

/-- Whether a change is one of a memory or of its marks. -/
def Kind.ofMemory : Kind → Bool
  | .bytes _ => true
  | .flag _ => true
  | _ => false

theorem Only.mem {K : List Kind} {p : Prog} {s : State} (h : Only K p) (hk : K.any Kind.ofMemory = false := by decide) : (p.run s).mem = s.mem :=
  h.keeps (·.mem) (fun a s ha => by
    have := List.any_eq_false.mp hk _ ha
    cases a <;> first | (simp; done) | simp [Act.kind, Kind.ofMemory] at this) s

theorem Only.host_only {p : Prog} (h : Only [.host] p) (s : State) : p.run s = { s with host := (p.run s).host } := by
  have := h.keeps (fun s => fun x => { s with host := x }) (fun a s ha => by
    cases a with
    | host x => rfl
    | _ => simp [Act.kind] at ha) s
  exact congrFun this (p.run s).host

/-! ### A program for every item of a list -/

theorem only_forEach_mem {K : List Kind} {l : List β} {f : β → Prog} (h : ∀ x ∈ l, Only K (f x)) : Only K (forEach l f) := by
  refine only_progs fun p hp => ?_
  obtain ⟨x, hx, rfl⟩ := List.mem_map.mp hp
  exact h x hx

theorem run_forEach_append (l m : List β) (f : β → Prog) (s : State) : (forEach (l ++ m) f).run s = (forEach m f).run ((forEach l f).run s) := by
  unfold forEach
  rw [List.map_append, run_progs_append]

/-- An item of a list without repetitions: what comes before it, its own turn, and what comes after it. -/
theorem run_forEach_split {l : List β} (hn : l.Nodup) {x : β} (hx : x ∈ l) (f : β → Prog) (s : State) :
    ∃ a b, (∀ y ∈ a, y ∈ l ∧ y ≠ x) ∧ (∀ y ∈ b, y ∈ l ∧ y ≠ x) ∧ (forEach l f).run s = (forEach b f).run ((f x).run ((forEach a f).run s)) := by
  obtain ⟨a, b, rfl⟩ := List.append_of_mem hx
  obtain ⟨-, hb, hd⟩ := List.nodup_append'.mp hn
  refine ⟨a, b, fun y hy => ⟨by simp [hy], ?_⟩, fun y hy => ⟨by simp [hy], ?_⟩, run_forEach_append a (x :: b) f s⟩
  · rintro rfl
    exact hd hy List.mem_cons_self
  · rintro rfl
    exact (List.nodup_cons.mp hb).1 hy

/-- What holds before a list's programs and is kept by each of them holds after them. -/
theorem run_forEach_inv {l : List β} {f : β → Prog} (I : State → Prop) (h : ∀ x ∈ l, ∀ s, I s → I ((f x).run s)) (s : State) (hs : I s) :
    I ((forEach l f).run s) := by
  induction l generalizing s with
  | nil => exact hs
  | cons x r ih => exact ih (fun y hy => h y (by simp [hy])) _ (h x (by simp) s hs)

end Sys2Proof.Machine
end

section
/-! Commands of the rings: how one starts, how it completes, and what a completion leaves of the others (R372, R373, R381). -/

namespace Sys2Proof.Machine

open Sys2Proof

set_option Elab.async false

/-! ### Start -/

theorem Awaits.mem {s : State} {r : Nat} {b : CmdBody} {c : Cmd} (h : Awaits s r b c) : c ∈ s.host.accepted := by
  obtain ⟨hs, -, -⟩ := h
  unfold startable at hs
  split at hs
  · simp at hs
  · next d hd =>
    split at hs
    · simp at hs
    · obtain rfl := Option.some.inj hs
      exact (List.mem_filter.mp (List.mem_of_find?_eq_some hd)).1

/-- The command that a ring starts next is handed to the block that carries it out, which then takes effect. -/
theorem run_startCmd {s : State} {r : Nat} {b : CmdBody} {c : Cmd} (h : Awaits s r b c) (k : Cmd → Prog) :
    (startCmd r b k).run s = (k c).run (begun s c) := by
  obtain ⟨hs, hb, hf⟩ := h
  unfold startCmd begun
  simp only [run_look, hs, hb, hf, beq_self_eq_true, Bool.and_self, run_whenP_true, run_seq]

/-- The accepted commands once one has been handed over: those that were there, and those of its number started. -/
theorem mem_begun {s : State} {c x : Cmd} :
    x ∈ (begun s c).host.accepted ↔ ∃ d ∈ s.host.accepted, { d with started := d.started || d.id == c.id } = x := by
  have hmap (d : Cmd) : (if d.id = c.id then { d with started := true } else d) = { d with started := d.started || d.id == c.id } := by
    cases h : d.id == c.id
    · rw [if_neg (by simpa using h), Bool.or_false]
    · rw [if_pos (by simpa using h), Bool.or_true]
  simp only [← hmap]
  exact List.mem_map

theorem begun_mem {s : State} {c d : Cmd} (hd : d ∈ s.host.accepted) : { d with started := d.started || d.id == c.id } ∈ (begun s c).host.accepted :=
  mem_begun.mpr ⟨d, hd, rfl⟩

/-! ### Completion -/

/-- A command of a number waits for its completion, or has completed with the status and detail given. -/
def WaitsOrFinished (h : HostSt) (id status detail : Nat) : Prop :=
  (∃ d ∈ h.accepted, d.id = id) ∨ ∃ d ∈ h.finished, d.cmd.id = id ∧ d.status = status ∧ d.detail = detail

theorem settleFences_finished (n : Nat) (h : HostSt) : h.finished ⊆ (settleFences n h).finished := by
  induction n generalizing h with
  | zero => exact fun _ hx => hx
  | succ n ih =>
    unfold settleFences
    split
    · exact fun _ hx => hx
    · exact fun x hx => ih _ (List.mem_append_left _ hx)

/-- A command that a completion takes from the accepted ones has completed with its own status; the other ones stay. -/
theorem waitsOrFinished_completeCmd {h : HostSt} {id status detail : Nat} (w : WaitsOrFinished h id status detail) (d : Done)
    (hd : d.cmd.id = id → d.status = status ∧ d.detail = detail) : WaitsOrFinished (completeCmd h d) id status detail := by
  rcases w with ⟨c, hc, rfl⟩ | ⟨x, hx, hxe⟩
  · by_cases e : d.cmd.id = c.id
    · exact .inr ⟨d, by simp [completeCmd], e, hd e⟩
    · exact .inl ⟨c, List.mem_filter.mpr ⟨hc, by simpa using fun c' => e c'.symm⟩, rfl⟩
  · exact .inr ⟨x, by simp [completeCmd, hx], hxe⟩

/-- The fences that a completion lets complete end with status 0 and detail 0. -/
theorem waitsOrFinished_settleFences (n : Nat) {h : HostSt} {id : Nat} (w : WaitsOrFinished h id 0 0) : WaitsOrFinished (settleFences n h) id 0 0 := by
  induction n generalizing h with
  | zero => exact w
  | succ n ih =>
    unfold settleFences
    split
    · exact w
    · exact ih (waitsOrFinished_completeCmd w _ fun _ => ⟨rfl, rfl⟩)

theorem findCmd_none {s : State} {id : Nat} : findCmd s id = none ↔ ∀ c ∈ s.host.accepted, c.id ≠ id := by
  unfold findCmd
  simp

theorem findCmd_id {s : State} {id : Nat} {c : Cmd} (h : findCmd s id = some c) : c ∈ s.host.accepted ∧ c.id = id :=
  ⟨List.mem_of_find?_eq_some h, by simpa using List.find?_some h⟩

theorem run_finish_none {s : State} {id : Nat} (h : findCmd s id = none) (status detail : Nat) (u : Option Nat) :
    (finish id status detail u).run s = s := by
  unfold finish
  simp only [run_look, h, run_skip]

theorem run_finish_some {s : State} {id : Nat} {c : Cmd} (h : findCmd s id = some c) (status detail : Nat) (u : Option Nat) :
    (finish id status detail u).run s =
      { s with host := settleFences 64 (completeCmd s.host { cmd := c, status := status, recUid := u, detail := detail }) } := by
  unfold finish
  simp only [run_look, h, run_modHost]
  rfl

/-- A completion takes back no earlier one. -/
theorem finish_finished (id status detail : Nat) (u : Option Nat) (s : State) : s.host.finished ⊆ ((finish id status detail u).run s).host.finished := by
  cases h : findCmd s id with
  | none =>
    rw [run_finish_none h]
    exact fun _ hx => hx
  | some c =>
    rw [run_finish_some h]
    exact fun x hx => settleFences_finished _ _ (List.mem_append_left _ hx)

theorem HasFinished.mono {s t : State} {c : Cmd} {status detail : Nat} (h : HasFinished s c status detail) (hst : s.host.finished ⊆ t.host.finished) :
    HasFinished t c status detail := by
  obtain ⟨d, hd, hc⟩ := h
  exact ⟨d, hst hd, hc⟩

/-- An accepted command completes with the status and detail it is given. -/
theorem hasFinished_finish {s : State} {c : Cmd} (h : ∃ d ∈ s.host.accepted, d.id = c.id) (status detail : Nat) (u : Option Nat) :
    HasFinished ((finish c.id status detail u).run s) c status detail := by
  cases hf : findCmd s c.id with
  | none =>
    obtain ⟨d, hd, e⟩ := h
    exact absurd e (findCmd_none.mp hf d hd)
  | some d =>
    rw [run_finish_some hf]
    exact ⟨_, settleFences_finished _ _ (List.mem_append_right _ (List.mem_singleton.mpr rfl)), (findCmd_id hf).2, rfl, rfl⟩

/-- A completion with status 0 and detail 0, of whatever command, completes no other one differently. -/
theorem waitsOrFinished_finish {s : State} {id : Nat} (w : WaitsOrFinished s.host id 0 0) (n : Nat) (u : Option Nat) :
    WaitsOrFinished ((finish n 0 0 u).run s).host id 0 0 := by
  cases h : findCmd s n with
  | none => rwa [run_finish_none h]
  | some c =>
    rw [run_finish_some h]
    exact waitsOrFinished_settleFences _ (waitsOrFinished_completeCmd w _ fun _ => ⟨rfl, rfl⟩)

/-- Commands completed in turn with status 0 and detail 0: each that waits or has completed so has completed so after its turn. -/
theorem hasFinished_finishAll {α : Type} {l : List α} (f : α → Nat) {s : State} {c : Cmd} (w : WaitsOrFinished s.host c.id 0 0) (hc : ∃ x ∈ l, f x = c.id) :
    HasFinished ((forEach l fun x => finish (f x) 0 0).run s) c 0 0 := by
  obtain ⟨x, hx, hxc⟩ := hc
  obtain ⟨a, b, rfl⟩ := List.append_of_mem hx
  rw [run_forEach_append, run_forEach_cons, hxc]
  have hb : ∀ (l : List α) (t : State), t.host.finished ⊆ ((forEach l fun x => finish (f x) 0 0).run t).host.finished := fun l t =>
    run_forEach_inv (fun u => t.host.finished ⊆ u.host.finished) (fun y _ u h x hx => finish_finished _ _ _ _ u (h hx)) t fun _ h => h
  refine HasFinished.mono ?_ (hb b _)
  rcases run_forEach_inv (fun t => WaitsOrFinished t.host c.id 0 0) (fun y _ t h => waitsOrFinished_finish h (f y) none) s w (l := a) with h | h
  · exact hasFinished_finish h 0 0 none
  · exact HasFinished.mono h (finish_finished _ _ _ _ _)

/-- A command that a ring starts next is completed at once. -/
theorem finish_begun {s : State} {r : Nat} {b : CmdBody} {c : Cmd} (h : Awaits s r b c) (status detail : Nat) :
    HasFinished ((finish c.id status detail).run (begun s c)) c status detail ∧
    (finish c.id status detail).run (begun s c) = { s with host := ((finish c.id status detail).run (begun s c)).host } :=
  ⟨hasFinished_finish ⟨_, begun_mem h.mem, rfl⟩ status detail none, (only_finish (K := [.host])).host_only (begun s c)⟩

end Sys2Proof.Machine
end

section
/-! Mode epochs, what all pistes show, and the frames of the operations that MODE_CHANGE is made of (R49, R53, R55, R328, R349). -/

namespace Sys2Proof.Machine

open Sys2Proof

set_option Elab.async false

variable {K : List Kind} {A : Nat → Prop}

/-! ### Traces, records -/

/-- A lost trace is counted in TRACE_GAPS (R349). -/
theorem writes_trace {k i : Nat} (h : A (fldAddr (.mod 3) Reg.MOD3.TRACE_GAPS 0)) : Writes A (trace k i) :=
  writes_look fun _ => writes_whenP fun _ => writes_ite (fun _ => (only_modRecs (K := [.recs])).writes) fun _ =>
    writes_seq (only_modRecs (K := [.recs])).writes (writes_addSat h)

/-! ### One piste takes up the commanded epoch -/

/-- The words that a piste taking up an epoch writes: EPOCH of its gates, and TRACE_GAPS. -/
def epochWords (p a : Nat) : Prop := a = 0x3134 ∨ (pisteWords p a ∧ a % 4096 = 0x100 ∧ 0x1000 ≤ a % 0x40000)

theorem only_takeEpoch {p : Nat} (h : Kind.reg ∈ K := by decide) (h' : Kind.piste ∈ K := by decide) (h'' : Kind.units ∈ K := by decide)
    (h''' : Kind.recs ∈ K := by decide) : Only K (takeEpoch p) :=
  only_look fun _ => only_whenP ⟨only_forEach fun _ => only_wr h, only_modPiste h', only_whenP (only_modUnits h''), only_trace h h''', trivial⟩

theorem writes_takeEpoch (p : Nat) : Writes (epochWords p) (takeEpoch p) := by
  refine writes_look fun s => writes_whenP fun _ => writes_cons (writes_forEach fun g hg => writes_wr (.inr ?_))
    (writes_cons (only_modPiste (K := [.piste])).writes (writes_cons (writes_whenP fun _ => (only_modUnits (K := [.units])).writes)
      (writes_cons (writes_trace (.inl rfl)) writes_nil)))
  have : g < 12 := List.mem_range.mp hg
  simp only [pisteWords, fldAddr, pageBase, Reg.GATE.EPOCH]
  omega

/-- A program without a change of a piste leaves every piste. -/
theorem Only.pisteOf {p : Prog} (h : Only K p) (s : State) (q : Nat) (hk : Kind.piste ∉ K := by decide) : pisteOf (p.run s) q = pisteOf s q := by
  unfold Machine.pisteOf
  rw [h.pistes hk]

theorem keeps_modPiste {p q : Nat} (h : q ≠ p) (f : PisteSt → PisteSt) : Keeps (fun s => pisteOf s q) (modPiste p f) := fun s => by
  show pisteOf ((Act.piste p (f (pisteOf s p))).apply s) q = pisteOf s q
  rw [pisteOf_apply_piste]
  exact if_neg h

theorem keeps_takeEpoch {p q : Nat} (h : q ≠ p) : Keeps (fun s => pisteOf s q) (takeEpoch p) := by
  have only_piste {x : Prog} (hx : Only [.reg, .units, .recs] x) : Keeps (fun s => pisteOf s q) x := fun s => hx.pisteOf s q
  exact keeps_look _ fun s => keeps_whenP _ _ (keeps_seq _ (only_piste (only_forEach fun _ => only_wr)) (keeps_seq _ (keeps_modPiste h _)
    (only_piste ⟨only_whenP only_modUnits, only_trace, trivial⟩)))

/-- A gate register that every gate of a piste is given reads so afterwards. -/
theorem run_writeEpochs {p : Nat} (hp : p < 64) (v : Nat) (s : State) :
    epochOn ((forEach (List.range 12) fun g => wr (.gate p g) Reg.GATE.EPOCH v).run s) p = v % 2 ^ 32 := by
  obtain ⟨a, b, -, hb, e⟩ := run_forEach_split (f := fun g => wr (.gate p g) Reg.GATE.EPOCH v) List.nodup_range (List.mem_range.mpr (show 0 < 12 by decide)) s
  rw [e]
  unfold epochOn
  have hw : Writes (fun a => a ≠ fldAddr (.gate p 0) Reg.GATE.EPOCH 0) (forEach b fun g => wr (.gate p g) Reg.GATE.EPOCH v) :=
    writes_forEach fun g hg => writes_wr (fldAddr_ne_page _ _ _ _ _ _ (by simp [pageOk, hp, List.mem_range.mp (hb g hg).1]) (by simp [pageOk, hp])
      (by decide) (by decide) (by simpa using (hb g hg).2))
  rw [hw.rd (by simp) (plain_gate hp (by decide)), rd_wr_same _ _ _ _ _ (plain_gate hp (by decide))]
  rfl

theorem run_takeEpoch {p : Nat} (hp : p < 64) (s : State) (hc : s.mode.cmd < 2 ^ 32) :
    epochOn ((takeEpoch p).run s) p = s.mode.cmd ∧ (pisteOf ((takeEpoch p).run s) p).word = s.mode.word := by
  unfold takeEpoch
  rw [run_look]
  dsimp only
  generalize hr : (s.mode.seed != (pisteOf s p).seed) = reseed
  cases hb : (epochOn s p != s.mode.cmd || reseed || s.mode.word != (pisteOf s p).word)
  · simp only [Bool.or_eq_false_iff, bne_eq_false_iff_eq] at hb
    exact ⟨hb.1.1, hb.2.symm⟩
  · rw [run_whenP_true, run_progs_cons, run_progs_cons]
    generalize hu : (forEach (List.range 12) fun g => wr (.gate p g) Reg.GATE.EPOCH s.mode.cmd).run s = u
    have hrest : Only [.units, .recs, .reg] (progs [whenP reseed (modUnits fun u => { u with genPos := smDrop (fun k => k / 512 / 12 == p) u.genPos }),
      trace 3 (768 + p)]) := ⟨only_whenP only_modUnits, only_trace, trivial⟩
    have hwrites : Writes (fun a => a = 0x3134) (progs [whenP reseed (modUnits fun u => { u with genPos := smDrop (fun k => k / 512 / 12 == p) u.genPos }),
      trace 3 (768 + p)]) := writes_cons (writes_whenP fun _ => (only_modUnits (K := [.units])).writes) (writes_cons (writes_trace rfl) writes_nil)
    constructor
    · have he := run_writeEpochs hp s.mode.cmd s
      rw [hu, Nat.mod_eq_of_lt hc] at he
      rw [← he]
      unfold epochOn
      rw [hwrites.rd (by simp only [fldAddr, pageBase, Reg.GATE.EPOCH]; omega) (plain_gate hp (by decide))]
      exact rd_congr ((only_modPiste (K := [.piste])).regs) _ _ _ (plain_gate hp (by decide))
    · rw [hrest.pisteOf, run_modPiste, pisteOf_apply_piste]
      simp

/-! ### What all pistes show -/

/-- The words that show what all pistes have applied: EPOCH_LOW and EPOCH_HIGH, and both APPLIED_LOWs. -/
def appliedWords (a : Nat) : Prop :=
  a = 0x810104 ∨ a = 0x810108 ∨ a = 0x830104 ∨ (0x831108 ≤ a ∧ a % 16 = 8 ∧ a < 0x831208)

theorem only_showApplied (h : Kind.reg ∈ K := by decide) (h' : Kind.host ∈ K := by decide) : Only K showApplied :=
  only_look fun _ => ⟨only_whenP ⟨only_wr h, only_wr h, only_wr h, only_forEach fun _ => only_wr h, trivial⟩, only_forEach fun _ => only_finish h', trivial⟩

theorem writes_showApplied : Writes appliedWords showApplied := by
  refine writes_look fun s => writes_cons (writes_whenP fun _ => writes_cons (writes_wr (.inl rfl)) (writes_cons (writes_wr (.inr (.inl rfl)))
    (writes_cons (writes_wr (.inr (.inr (.inl rfl)))) (writes_cons (writes_forEach fun w hw => writes_wr (.inr (.inr (.inr ?_)))) writes_nil))))
    (writes_cons (writes_forEach fun c _ => (only_finish (K := [.host])).writes) writes_nil)
  have : w < 16 := List.mem_range.mp (List.mem_filter.mp hw).1
  simp only [fldAddr, pageBase, Reg.RGN1.APPLIED_LOW]
  omega

end Sys2Proof.Machine
end

section
/-! MODE_CHANGE, LAYOUT_CHANGE, FENCE, SIGNAL and WAIT (R53, R55, R255, R256, R323, R373, R378): O48, from the law of a command's start, the law of
its completion, and the frames of the operations it is made of. -/

namespace Sys2Proof.Machine

open Sys2Proof

set_option Elab.async false

/-! ### MODE_CHANGE -/

theorem only_fixEpoch {K : List Kind} {id : Nat} (h : Kind.runs ∈ K := by decide) : Only K (fixEpoch id) := by
  refine only_look fun s => ?_
  split
  · exact only_skip
  · exact only_whenP (only_modRuns h)

/-- The pistes that take up a commanded epoch, and the runs whose epoch it fixes. -/
def takeEpochs (ps : List Nat) (runs : List Nat) : Prog := .seq (forEach ps takeEpoch) (forEach runs fixEpoch)

theorem only_takeEpochs (ps runs : List Nat) : Only [.reg, .piste, .units, .recs, .runs] (takeEpochs ps runs) :=
  ⟨only_forEach fun _ => only_takeEpoch, only_forEach fun _ => only_fixEpoch⟩

theorem writes_takeEpochs (ps runs : List Nat) : Writes (fun a => ∃ q ∈ ps, epochWords q a) (takeEpochs ps runs) :=
  writes_seq (writes_forEach fun q hq => (writes_takeEpoch q).mono fun _ ha => ⟨q, hq, ha⟩)
    (writes_forEach fun _ _ => (only_fixEpoch (K := [.runs])).writes)

/-- EPOCH of a piste's first gate is no word that another piste's epoch writes. -/
theorem epochOn_addr {p q : Nat} (h : p ≠ q) : ¬ epochWords q (fldAddr (.gate p 0) Reg.GATE.EPOCH 0) := by
  simp only [epochWords, pisteWords, fldAddr, pageBase, Reg.GATE.EPOCH]
  omega

theorem fenced_addr (p q : Nat) : ¬ epochWords q (fldAddr (.pst p) Reg.PST.RUN_CTRL_FENCED 0) := by
  simp only [epochWords, pisteWords, fldAddr, pageBase, Reg.PST.RUN_CTRL_FENCED]
  omega

theorem mode_takeEpoch (p : Nat) (s : State) : ((takeEpoch p).run s).mode = s.mode := (only_takeEpoch (K := [.reg, .piste, .units, .recs])).mode

/-- A piste among those that take up the commanded epoch holds it and its mode word; any other stays as it is. -/
theorem run_takeEpochs {ps runs : List Nat} (hn : ps.Nodup) {p : Nat} (hp : p < 64) (s : State) (hc : s.mode.cmd < 2 ^ 32) :
    (p ∈ ps → epochOn ((takeEpochs ps runs).run s) p = s.mode.cmd ∧ (pisteOf ((takeEpochs ps runs).run s) p).word = s.mode.word) ∧
    (p ∉ ps → epochOn ((takeEpochs ps runs).run s) p = epochOn s p ∧ pisteOf ((takeEpochs ps runs).run s) p = pisteOf s p) := by
  have hruns (u : State) : epochOn ((forEach runs fixEpoch).run u) p = epochOn u p ∧ pisteOf ((forEach runs fixEpoch).run u) p = pisteOf u p :=
    have h : Only [.runs] (forEach runs fixEpoch) := only_forEach fun _ => only_fixEpoch
    ⟨rd_congr h.regs _ _ _ (plain_gate hp (by decide)), h.pisteOf u p⟩
  have hother (l : List Nat) (hl : ∀ q ∈ l, p ≠ q) (u : State) :
      epochOn ((forEach l takeEpoch).run u) p = epochOn u p ∧ pisteOf ((forEach l takeEpoch).run u) p = pisteOf u p :=
    ⟨(writes_forEach (A := fun a => ∃ q ∈ l, epochWords q a) fun q hq => (writes_takeEpoch q).mono fun a ha => ⟨q, hq, ha⟩).rd
        (by rintro ⟨q, hq, h⟩; exact epochOn_addr (hl q hq) h) (plain_gate hp (by decide)) u,
      keeps_forEach (fun s => pisteOf s p) l takeEpoch (fun q hq => keeps_takeEpoch (hl q hq)) u⟩
  constructor
  · intro hm
    obtain ⟨a, b, -, hb, e⟩ := run_forEach_split hn hm takeEpoch s
    unfold takeEpochs
    rw [run_seq, (hruns _).1, (hruns _).2, e, (hother b (fun q hq => (hb q hq).2.symm) _).1, (hother b (fun q hq => (hb q hq).2.symm) _).2]
    have hmode : ((forEach a takeEpoch).run s).mode = s.mode := keeps_forEach (·.mode) a takeEpoch (fun q _ => mode_takeEpoch q) s
    have h := run_takeEpoch hp ((forEach a takeEpoch).run s) (by rw [hmode]; exact hc)
    rwa [hmode] at h
  · intro hm
    unfold takeEpochs
    rw [run_seq, (hruns _).1, (hruns _).2]
    exact hother ps (fun q hq c => hm (c ▸ hq)) s

theorem epochOn_showApplied {p : Nat} (hp : p < 64) (s : State) : epochOn (showApplied.run s) p = epochOn s p :=
  writes_showApplied.rd (by simp only [appliedWords, fldAddr, pageBase, Reg.GATE.EPOCH]; omega) (plain_gate hp (by decide)) s

/-- A MODE_CHANGE in progress completes once every gate in service holds its epoch (R55). -/
theorem hasFinished_showApplied {s : State} {c : Cmd} {epoch word : Nat} (hm : { c with started := true } ∈ s.host.accepted)
    (hb : c.body = some (.modeChange epoch word)) (h : ∀ p ∈ unfenced s, epoch ≤ epochOn s p) : HasFinished (showApplied.run s) c 0 0 := by
  unfold showApplied
  rw [run_look]
  dsimp only
  rw [run_progs_cons, run_progs_cons, run_progs_nil]
  refine hasFinished_finishAll (fun c => c.1) (.inl ⟨{ c with started := true }, ?_, rfl⟩) ⟨(c.id, epoch), ?_, rfl⟩
  · rw [Only.host (K := [.reg])]
    · exact hm
    · exact only_whenP ⟨only_wr, only_wr, only_wr, only_forEach fun _ => only_wr, trivial⟩
  · refine List.mem_filter.mpr ⟨List.mem_filterMap.mpr ⟨_, hm, by simp [hb]⟩, ?_⟩
    simpa using h

theorem modeChange_taken {s : State} {r : Fin 64} {c : Cmd} {epoch word : Nat} (he : epoch < 2 ^ 32) (h : Awaits s r (.modeChange epoch word) c)
    (hlt : s.mode.cmd < epoch) (hw : modeWordBad word = false) :
    ∃ t, exec (.modeChange r epoch word) s = .next t ∧ t.mode.cmd = epoch ∧ t.mode.word = word ∧
      (∀ p, p < 64 → standing s p = true → epochOn t p = epoch ∧ (pisteOf t p).word = word) ∧
      (∀ p, p < 64 → standing s p = false → epochOn t p = epochOn s p ∧ pisteOf t p = pisteOf s p) ∧
      ((∀ p, p < 64 → fenced s p = false → standing s p = true) → HasFinished t c 0 0) ∧ t.counts = s.counts ∧ t.mem = s.mem ∧ t.layout = s.layout := by
  let u := (Act.modeCmd epoch word (rd64 (begun s c) .mode Reg.MODE.SEED_LO Reg.MODE.SEED_HI)).apply (begun s c)
  let ps := (List.range 64).filter (standing (begun s c))
  let v := (takeEpochs ps ((begun s c).runs.runs.map (·.id))).run u
  have hexec : exec (.modeChange r epoch word) s = .next (showApplied.run v) := by
    show done (progModeChange r epoch word) s = _
    rw [done_eq]
    unfold progModeChange
    rw [run_startCmd h, run_look]
    rw [if_neg (show ¬ epoch ≤ (begun s c).mode.cmd from Nat.not_le.mpr hlt), if_neg (by simp [hw])]
    rfl
  have hmode : u.mode = { cmd := epoch, word := word, seed := rd64 (begun s c) .mode Reg.MODE.SEED_LO Reg.MODE.SEED_HI } := by
    show (Act.apply _ _).mode = _
    rw [apply_mode]
    exact if_pos hlt
  have hregs : u.regs = s.regs := apply_regs _ _
  have hpistes (p : Nat) : pisteOf u p = pisteOf s p := by
    unfold pisteOf
    rw [show u.pistes = s.pistes from apply_pistes _ _]
  have hfenced (p : Nat) (hp : p < 64) : fenced (begun s c) p = fenced s p := by
    unfold fenced
    rw [rd_congr (s := s) (t := begun s c) rfl _ _ _ (plain_pst hp)]
  have hstanding (p : Nat) (hp : p < 64) : p ∈ ps ↔ standing s p = true := by
    have : standing (begun s c) p = standing s p := by
      unfold standing
      rw [hfenced p hp]
      rfl
    simp [ps, this, hp]
  have htake (p : Nat) (hp : p < 64) := run_takeEpochs (ps := ps) (runs := (begun s c).runs.runs.map (·.id)) (List.nodup_range.filter _) hp u (by rw [hmode]; exact he)
  have honly := only_takeEpochs ps ((begun s c).runs.runs.map (·.id))
  have hshow : Only [.reg, .host] showApplied := only_showApplied
  have hepoch (p : Nat) (hp : p < 64) : epochOn u p = epochOn s p := rd_congr hregs _ _ _ (plain_gate hp (by decide))
  refine ⟨_, hexec, ?_, ?_, fun p hp hs => ?_, fun p hp hs => ?_, fun hall => ?_, ?_, ?_, ?_⟩
  · rw [hshow.mode, honly.mode, hmode]
  · rw [hshow.mode, honly.mode, hmode]
  · rw [epochOn_showApplied hp, hshow.pisteOf]
    have := (htake p hp).1 ((hstanding p hp).mpr hs)
    rwa [hmode] at this
  · rw [epochOn_showApplied hp, hshow.pisteOf]
    have := (htake p hp).2 (by rw [hstanding p hp, hs]; simp)
    rwa [hepoch p hp, hpistes] at this
  · refine hasFinished_showApplied (word := word) (epoch := epoch) ?_ h.2.1 fun p hp => ?_
    · rw [honly.host]
      show _ ∈ (Act.apply _ _).host.accepted
      rw [apply_host]
      simpa using begun_mem (c := c) h.mem
    · obtain ⟨hr, hf⟩ := List.mem_filter.mp hp
      have hp64 : p < 64 := List.mem_range.mp hr
      have hfs : fenced v p = fenced s p := by
        unfold fenced
        rw [(writes_takeEpochs ps _).rd (by rintro ⟨q, -, hq⟩; exact fenced_addr p q hq) (plain_pst hp64), rd_congr hregs _ _ _ (plain_pst hp64)]
      have := (htake p hp64).1 ((hstanding p hp64).mpr (hall p hp64 (by simpa [hfs] using hf)))
      rw [hmode] at this
      exact this.1.ge
  · rw [hshow.counts, honly.counts]
    exact apply_counts _ _
  · rw [hshow.mem, honly.mem]
    exact apply_mem _ _
  · rw [hshow.layout, honly.layout]
    exact apply_layout _ _

end Sys2Proof.Machine
end

section
/-! Runs that end before they start, and holds that end (R52, R318, R324); LAYOUT_CHANGE, FENCE, SIGNAL and WAIT: the rest of O48. -/

namespace Sys2Proof.Machine

open Sys2Proof

set_option Elab.async false

/-! ### Runs that end before they start -/

/-- The words that the end of a run before its start may write: RUN_CTRL and RUN_STATUS of pistes. -/
def endWords (a : Nat) : Prop := 0x1000000 ≤ a ∧ (a % 0x1000 = 0x100 ∨ a % 0x1000 = 0x104)

theorem only_modRun {K : List Kind} {id : Nat} {f : RunRec → RunRec} (h : Kind.runs ∈ K := by decide) : Only K (modRun id f) := only_modRuns h

theorem endWords_arm (p : Nat) : endWords (fldAddr (.pst p) Reg.PST.RUN_CTRL_ARM 0) := by
  simp only [endWords, fldAddr, pageBase, Reg.PST.RUN_CTRL_ARM]; omega

theorem endWords_state (p : Nat) : endWords (fldAddr (.pst p) Reg.PST.RUN_STATUS_STATE 0) := by
  simp only [endWords, fldAddr, pageBase, Reg.PST.RUN_STATUS_STATE]; omega

/-- The kinds of change that the early end of a run makes. -/
def endK : List Kind := [.piste, .reg, .runs, .host, .fw]

theorem only_releaseHold {n : Nat} : Only [.reg, .fw] (releaseHold n) := only_look fun _ => ⟨only_forEach fun _ => only_wr, only_modFw⟩

theorem writes_releaseHold (n : Nat) : Writes endWords (releaseHold n) :=
  writes_look fun _ => writes_seq (writes_forEach fun h _ => writes_wr (endWords_arm h.1)) (only_modFw (K := [.fw])).writes

/-- A relayout run that fails ends its LAYOUT_CHANGE with no other effect (R324). -/
theorem only_layoutEnd {l : LayoutChange} {status detail : Nat} {u : Option Nat} (hs : status ≠ 0) : Only [.layout, .host] (layoutEnd l status detail u) := by
  unfold layoutEnd
  rw [show (status == 0) = false by simpa using hs]
  exact ⟨only_skip, only_prim (by decide), only_whenP only_finish, trivial⟩

/-- A run over that is no relayout run changes runs, commands and holds alone. -/
theorem only_runOver {r : RunRec} (hr : r.relayout = false) {status detail : Nat} {u : Option Nat} : Only endK (runOver r status detail u) := by
  unfold runOver
  rw [hr]
  refine ⟨only_modRuns, ?_⟩
  rw [if_neg (by simp)]
  split
  · exact only_modRun
  · exact ⟨only_finishOpt, only_releaseHold.mono (by decide)⟩

/-- A run that fails changes runs, commands, holds, and the layout change it belongs to. -/
theorem only_runOver_failed {r : RunRec} {status detail : Nat} {u : Option Nat} (hs : status ≠ 0) : Only (.layout :: endK) (runOver r status detail u) := by
  cases hr : r.relayout
  · exact (only_runOver hr).mono (by decide)
  · unfold runOver
    rw [hr, if_pos rfl]
    refine ⟨only_modRuns, only_look fun s => ?_⟩
    split
    · exact (only_layoutEnd hs).mono (by decide)
    · exact only_skip

theorem only_endEarly {r : RunRec} (hr : r.relayout = false) {status island : Nat} {u : Option Nat} : Only endK (endEarly r status island u) :=
  ⟨fun _ => only_forEach fun _ => ⟨only_modPiste, only_wr⟩, only_runOver hr⟩

theorem only_endEarly_failed {r : RunRec} {status island : Nat} {u : Option Nat} (hs : status ≠ 0) : Only (.layout :: endK) (endEarly r status island u) :=
  ⟨fun _ => only_forEach fun _ => ⟨only_modPiste, only_wr⟩, only_runOver_failed hs⟩

theorem writes_runOver {r : RunRec} {status detail : Nat} {u : Option Nat} (hs : status ≠ 0) : Writes endWords (runOver r status detail u) := by
  refine writes_seq (only_modRuns (K := [.runs])).writes (writes_ite (fun _ => writes_look fun s => ?_) fun _ => ?_)
  · split
    · exact (only_layoutEnd hs).writes
    · exact writes_skip
  · split
    · exact (only_modRun (K := [.runs])).writes
    · exact writes_seq (only_finishOpt (K := [.host])).writes (writes_releaseHold _)

theorem writes_endEarly {r : RunRec} {status : Nat} (hs : status ≠ 0) (island : Nat) (u : Option Nat) : Writes endWords (endEarly r status island u) :=
  writes_seq (writes_look fun s => writes_forEach fun p _ => writes_seq (only_modPiste (K := [.piste])).writes (writes_wr (endWords_state p)))
    (writes_runOver hs)

/-- A run that another's end neither names nor lets start again stays among the runs. -/
theorem mem_runs_endEarly {r x : RunRec} (hr : r.relayout = false) (hid : x.id ≠ r.id) (hheld : r.held ≠ some x.id) (status island : Nat)
    (u : Option Nat) (s : State) (hx : x ∈ s.runs.runs) : x ∈ ((endEarly r status island u).run s).runs.runs := by
  unfold endEarly runOver
  rw [hr, if_neg (by simp), run_seq, run_seq]
  generalize hv : (Prog.look _).run s = v
  have hvr : v.runs = s.runs := by
    rw [← hv]
    exact Only.runs (K := [.piste, .reg]) (only_look fun _ => only_forEach fun _ => ⟨only_modPiste, only_wr⟩)
  have hd : x ∈ ((dropRun r.id).run v).runs.runs := by
    unfold dropRun
    rw [run_modRuns, apply_runs, hvr]
    exact List.mem_filter.mpr ⟨hx, by simpa using hid⟩
  split
  · next n hn =>
    unfold modRun
    rw [run_modRuns, apply_runs]
    refine List.mem_map.mpr ⟨x, hd, if_neg fun c => hheld ?_⟩
    rw [hn, c]
  · have : Only [.host, .reg, .fw] (.seq (finishOpt r.cmd status (failDetail island noLeg) u) (releaseHold (holdReplay r.id))) :=
      ⟨only_finishOpt, only_releaseHold.mono (by decide)⟩
    rw [this.runs]
    exact hd

/-! ### LAYOUT_CHANGE -/

theorem layoutChange_taken {s : State} {r : Fin 64} {c : Cmd} {epoch slot mask iter : Nat} {relayout : Bool}
    (h : Awaits s r (.layoutChange epoch relayout slot mask iter) c) (hlt : s.layout.cmd < epoch) (hp : s.layout.pend = none) :
    ∃ t l, exec (.layoutChange r epoch relayout slot mask iter) s = .next t ∧
      t.layout = { s.layout with cmd := epoch, pend := some l } ∧ l.cmd = c.id ∧ l.epoch = epoch ∧ l.order = s.runs.nextId ∧ l.run = none ∧
      l.reported = false ∧ l.relayout = (if relayout then some (slot, mask, iter) else none) ∧ rd t .mode Reg.MODE.LAYOUT_STATE_STATE = 1 ∧
      (∀ x ∈ s.runs.runs, x.started = true → (∀ y ∈ s.runs.runs, (y.id = x.id → y = x) ∧ y.held ≠ some x.id) → x ∈ t.runs.runs) ∧
      t.counts = s.counts ∧ t.mem = s.mem ∧ t.mode = s.mode := by
  let l : LayoutChange := 
    { cmd := c.id, epoch := epoch, order := s.runs.nextId, relayout := (if relayout then some (slot, mask, iter) else none), run := none, reported := false }
  let v := (wr .mode Reg.MODE.LAYOUT_STATE_STATE 1).run ((Act.layoutCmd epoch l).apply (begun s c))
  let old := (begun s c).runs.runs.filter fun x => !x.started && !layoutOk (begun s c) x
  let drop := forEach old fun x => endEarly x Code.LAYOUT_EPOCH_OLD (768 + minOf 0 (maskList 64 x.mask)) none
  have hexec : exec (.layoutChange r epoch relayout slot mask iter) s = .next (drop.run v) := by
    show done (progLayoutChange r epoch relayout slot mask iter) s = _
    rw [done_eq]
    unfold progLayoutChange
    rw [run_startCmd h, run_look, if_neg (show ¬ epoch ≤ (begun s c).layout.cmd from Nat.not_le.mpr hlt),
      if_neg (show ¬ (begun s c).layout.pend.isSome = true by rw [show (begun s c).layout = s.layout from rfl, hp]; simp)]
    rfl
  have hold {x : RunRec} (hx : x ∈ old) : x ∈ s.runs.runs ∧ x.started = false ∧ x.relayout = false := by
    obtain ⟨hm, hf⟩ := List.mem_filter.mp hx
    simp only [layoutOk, Bool.and_eq_true, Bool.not_eq_true', Bool.or_eq_false_iff] at hf
    exact ⟨hm, hf.1, hf.2.1.1⟩
  have hdrop : Only endK drop := only_forEach_mem fun x hx => only_endEarly (hold hx).2.2
  have hv : Only [.reg] (wr .mode Reg.MODE.LAYOUT_STATE_STATE 1) := only_wr
  refine ⟨drop.run v, l, hexec, ?_, rfl, rfl, rfl, rfl, rfl, rfl, ?_, fun x hx hstart hone => ?_, ?_, ?_, ?_⟩
  · rw [hdrop.layout, hv.layout, apply_layout]
    exact if_pos hlt
  · have hw : Writes endWords drop := writes_forEach fun x _ => writes_endEarly (by decide) _ _
    rw [hw.rd (by simp [endWords, fldAddr, pageBase, Reg.MODE.LAYOUT_STATE_STATE]) (by decide), rd_wr_same _ _ _ _ _ (by decide)]
    rfl
  · refine run_forEach_inv (fun t => x ∈ t.runs.runs) (fun y hy t ht => ?_) v ?_
    · obtain ⟨hym, hys, hyr⟩ := hold hy
      refine mem_runs_endEarly hyr (fun e => ?_) (hone y hym).2 _ _ _ t ht
      have := (hone y hym).1 e.symm
      rw [this, hstart] at hys
      exact absurd hys (by simp)
    · rw [hv.runs, apply_runs]
      exact hx
  · rw [hdrop.counts, hv.counts, apply_counts]
    rfl
  · rw [hdrop.mem, hv.mem, apply_mem]
    rfl
  · rw [hdrop.mode, hv.mode, apply_mode]
    rfl

/-! ### FENCE -/

theorem run_fence {s : State} {r : Fin 64} {c : Cmd} {scope : Nat} (h : Awaits s r (.fence scope) c) :
    exec (.fence r scope) s = .next { begun s c with host := settleFences 64 (begun s c).host } := by
  show done (progFence r scope) s = _
  rw [done_eq]
  unfold progFence
  rw [run_startCmd h]
  rfl

/-- Of accepted commands among which one alone is a FENCE, no other is a fence that may complete. -/
theorem fenceReady_begun {s : State} {c : Cmd} {scope : Nat} (hb : c.body = some (.fence scope))
    (hone : ∀ d ∈ s.host.accepted, d ≠ c → ∀ k, d.body ≠ some (.fence k)) {x : Cmd} (hx : x ∈ (begun s c).host.accepted)
    (hf : fenceReady (begun s c).host.accepted x = true) :
    x = { c with started := true } ∧ ∀ d ∈ s.host.accepted, c.id ≤ d.id ∨ (scope = 0 ∧ d.ring ≠ c.ring) := by
  obtain ⟨d, hd, rfl⟩ := mem_begun.mp hx
  obtain ⟨hstart, hready⟩ := Bool.and_eq_true_iff.mp hf
  by_cases hdc : d = c
  · subst hdc
    simp only [hb, List.all_eq_true, Bool.or_eq_true, decide_eq_true_eq, Bool.and_eq_true, beq_iff_eq, bne_iff_ne] at hready
    refine ⟨by simp, fun y hy => ?_⟩
    have := hready _ (begun_mem (c := d) hy)
    exact this
  · dsimp only at hready
    split at hready
    · next k hk => exact absurd hk (hone d hd hdc k)
    · simp at hready

theorem fence_ready {s : State} {r : Fin 64} {c : Cmd} {scope : Nat} (h : Awaits s r (.fence scope) c)
    (hone : ∀ d ∈ s.host.accepted, d ≠ c → ∀ k, d.body ≠ some (.fence k))
    (hall : ∀ d ∈ s.host.accepted, c.id ≤ d.id ∨ (scope = 0 ∧ d.ring ≠ c.ring)) :
    ∃ t, exec (.fence r scope) s = .next t ∧ HasFinished t c 0 0 ∧ t = { s with host := t.host } := by
  refine ⟨_, run_fence h, ?_, rfl⟩
  have hb := h.2.1
  cases hf : (begun s c).host.accepted.find? (fenceReady (begun s c).host.accepted) with
  | none =>
    have hm : { c with started := true } ∈ (begun s c).host.accepted := by simpa using begun_mem (c := c) h.mem
    have := List.find?_eq_none.mp hf _ hm
    simp only [fenceReady, hb, Bool.true_and, List.all_eq_true, Bool.or_eq_true, decide_eq_true_eq, Bool.and_eq_true, beq_iff_eq, bne_iff_ne] at this
    refine absurd (fun x hx => ?_) this
    obtain ⟨d, hd, rfl⟩ := mem_begun.mp hx
    exact hall d hd
  | some x =>
    have hx := (fenceReady_begun hb hone (List.mem_of_find?_eq_some hf) (List.find?_some hf)).1
    refine ⟨{ cmd := x, status := 0, recUid := none, detail := 0 }, ?_, by rw [hx], rfl, rfl⟩
    show _ ∈ (settleFences 64 (begun s c).host).finished
    unfold settleFences
    rw [hf]
    exact settleFences_finished _ _ (by simp [completeCmd])

theorem fence_waits {s : State} {r : Fin 64} {c : Cmd} {scope : Nat} (h : Awaits s r (.fence scope) c)
    (hone : ∀ d ∈ s.host.accepted, d ≠ c → ∀ k, d.body ≠ some (.fence k))
    (hex : ∃ d ∈ s.host.accepted, d.id < c.id ∧ (scope ≠ 0 ∨ d.ring = c.ring)) : exec (.fence r scope) s = .next (begun s c) := by
  rw [run_fence h]
  have hf : (begun s c).host.accepted.find? (fenceReady (begun s c).host.accepted) = none := by
    refine List.find?_eq_none.mpr fun x hx hready => ?_
    obtain ⟨d, hd, hlt, hsame⟩ := hex
    rcases (fenceReady_begun h.2.1 hone hx hready).2 d hd with hle | ⟨hz, hne⟩
    · exact absurd hlt (Nat.not_lt.mpr hle)
    · exact hsame.elim (fun c => c hz) hne
  unfold settleFences
  rw [hf]

/-! ### The wait of a firmware core -/

theorem coreWait_taken {s : State} (r : Fin 64) (k : Fin 4096) (target : DWord) (limit : Nat) (core : Fin 4) (hph : s.sec.phase = .ready)
    (hfw : fwRuns s = true) (hn : waitAt s 852 core = none) :
    ∃ t, exec (.wait r k target limit (some core)) s = .next t ∧
      (target.toNat ≤ countOf s k → smGet zeroDefault t.fw.waitStatus core = 1 ∧ t.sync = s.sync) ∧
      (countOf s k < target.toNat → smGet zeroDefault t.fw.waitStatus core = 0 ∧ t.sync = { s.sync with waits := s.sync.waits ++
        [{ localOf := none, counter := k, target := target.toNat, island := 852, queue := core, cmd := none, limit := limit }] }) ∧
      (∀ i, i ≠ (core : Nat) → smGet zeroDefault t.fw.waitStatus i = smGet zeroDefault s.fw.waitStatus i) ∧
      t = { s with sync := t.sync, fw := { s.fw with waitStatus := t.fw.waitStatus } } := by
  refine ⟨_, done_eq (progCoreWait core k target.toNat limit) s, ?_⟩
  unfold progCoreWait
  rw [run_look]
  simp only [hph, hfw, hn, beq_self_eq_true, Option.isNone_none, Bool.and_self, run_whenP_true]
  split
  · next hle =>
    simp only [fwStatus, beq_self_eq_true, run_whenP_true, run_modFw, apply_fw]
    exact ⟨fun _ => ⟨smGet_set_same _ _ _ _, rfl⟩, fun hlt => absurd hle (Nat.not_le.mpr hlt), fun i hi => smGet_set_ne _ _ _ _ _ hi, rfl⟩
  · next hlt =>
    simp only [run_seq, run_modFw, run_modSync]
    exact ⟨fun hle => absurd hle hlt, fun _ => ⟨smGet_erase_same _ _ _, rfl⟩, fun i hi => smGet_erase_ne _ _ _ _ hi, rfl⟩

/-! ### The obligation -/

/-- Settles O48: each command is handed over by the law of its start, and does what the branch of its program that the hypotheses choose does. -/
theorem controlCommandsTaken : Obligations.ControlCommandsTaken := by
  unfold Obligations.ControlCommandsTaken
  intro s r c ends
  refine ⟨fun epoch word he h => ⟨fun hle => ?_, fun hlt hw => ?_, fun hlt hw => modeChange_taken he h hlt hw⟩,
    fun epoch relayout slot mask iter h => ⟨fun hle => ?_, fun hlt hp => ?_, fun hlt hp => layoutChange_taken h hlt hp⟩,
    fun scope h hone => ⟨fence_ready h hone, fence_waits h hone⟩, fun k round amount h => ?_, fun k target limit h => ⟨fun hle => ?_, fun hlt => ?_⟩,
    fun k target limit core hph hfw hn => coreWait_taken r k target limit core hph hfw hn⟩
  · refine ⟨_, ?_, finish_begun h _ _⟩
    show done (progModeChange r epoch word) s = _
    rw [done_eq]
    unfold progModeChange
    rw [run_startCmd h, run_look, if_pos (show epoch ≤ (begun s c).mode.cmd from hle)]
  · refine ⟨_, ?_, finish_begun h _ _⟩
    show done (progModeChange r epoch word) s = _
    rw [done_eq]
    unfold progModeChange
    rw [run_startCmd h, run_look, if_neg (show ¬ epoch ≤ (begun s c).mode.cmd from Nat.not_le.mpr hlt), if_pos hw]
  · refine ⟨_, ?_, finish_begun h _ _⟩
    show done (progLayoutChange r epoch relayout slot mask iter) s = _
    rw [done_eq]
    unfold progLayoutChange
    rw [run_startCmd h, run_look, if_pos (show epoch ≤ (begun s c).layout.cmd from hle)]
  · refine ⟨_, ?_, finish_begun h _ _⟩
    show done (progLayoutChange r epoch relayout slot mask iter) s = _
    rw [done_eq]
    unfold progLayoutChange
    rw [run_startCmd h, run_look, if_neg (show ¬ epoch ≤ (begun s c).layout.cmd from Nat.not_le.mpr hlt),
      if_pos (show (begun s c).layout.pend.isSome = true from Option.isSome_iff_ne_none.mpr hp)]
  · show done (progSignal r k round amount) s = _
    rw [done_eq]
    unfold progSignal
    rw [run_startCmd h]
    rfl
  · refine ⟨_, ?_, finish_begun h _ _⟩
    show done (progWait r k target.toNat limit) s = _
    rw [done_eq]
    unfold progWait
    rw [run_startCmd h, run_look, if_pos (show target.toNat ≤ countOf (begun s c) k from hle)]
    rfl
  · show done (progWait r k target.toNat limit) s = _
    rw [done_eq]
    unfold progWait
    rw [run_startCmd h, run_look, if_neg (show ¬ target.toNat ≤ countOf (begun s c) k from Nat.not_le.mpr hlt)]
    rfl

end Sys2Proof.Machine
end

section
/-! Fault records and the runs they end (R46, R50, R345 to R347): which record waits afterwards, which words are written, and what stays. -/

namespace Sys2Proof.Machine

open Sys2Proof

set_option Elab.async false

variable {K : List Kind} {A : Nat → Prop}

theorem keeps_nil {γ : Type} (π : State → γ) : Keeps π (progs []) := keeps_skip π

theorem keeps_cons {γ : Type} (π : State → γ) {p : Prog} {r : List Prog} (hp : Keeps π p) (hr : Keeps π (progs r)) : Keeps π (progs (p :: r)) :=
  keeps_seq π hp hr

/-! ### Records -/

/-- The queue of records that an island keeps for the collector. -/
def srcQueue (s : State) (island : Nat) : SrcQueue := smGet (fun _ => SrcQueue.empty) s.recs.srcQ island

/-- The words that a fault record may write: the counts of records and traces lost. -/
def recordWords (a : Nat) : Prop := a = 0x3134 ∨ (0x2140 ≤ a ∧ a < 0x2180)

theorem Only.srcQueue {p : Prog} (h : Only K p) (island : Nat) (hk : Kind.recs ∉ K := by decide) : Keeps (fun s => srcQueue s island) p := fun s => by
  show Machine.srcQueue _ island = Machine.srcQueue s island
  unfold Machine.srcQueue
  rw [h.recs hk]

theorem keeps_srcQueue_modRecs (island : Nat) {f : RecSt → RecSt} (h : ∀ r, (f r).srcQ = r.srcQ) : Keeps (fun s => srcQueue s island) (modRecs f) :=
  fun s => congrArg (fun m => smGet (fun _ => SrcQueue.empty) m island) (h s.recs)

theorem keeps_srcQueue_trace (island k i : Nat) : Keeps (fun s => srcQueue s island) (trace k i) :=
  keeps_look _ fun _ => keeps_whenP _ _ (keeps_ite _ _ (keeps_srcQueue_modRecs island fun _ => rfl)
    (keeps_seq _ (keeps_srcQueue_modRecs island fun _ => rfl) ((only_addSat (K := [.reg])).srcQueue island)))

/-- A record that arrives waits at its island, or is counted there. -/
theorem hasRecord_enqueueRecord (r : FaultRec) (s : State) : HasRecord ((enqueueRecord r).run s) r.island r.code := by
  unfold enqueueRecord HasRecord
  rw [run_look]
  dsimp only
  split
  · rw [run_modRecs, apply_recs]
    dsimp only
    rw [smGet_set_same]
    exact .inl ⟨_, List.mem_append_right _ (List.mem_singleton.mpr rfl), rfl⟩
  · rw [run_seq, Only.recs (only_addSat (K := [.reg])), run_modRecs, apply_recs]
    dsimp only
    rw [smGet_set_same]
    exact .inr (Nat.succ_pos _)

theorem keeps_srcQueue_enqueueRecord {r : FaultRec} {island : Nat} (h : island ≠ r.island) : Keeps (fun s => srcQueue s island) (enqueueRecord r) := by
  refine keeps_look _ fun s => ?_
  dsimp only
  split
  · exact fun t => smGet_set_ne _ _ _ _ _ h
  · exact keeps_seq _ (fun t => smGet_set_ne _ _ _ _ _ h) ((only_addSat (K := [.reg])).srcQueue island)

theorem HasRecord.of_srcQueue {s t : State} {island code : Nat} (h : HasRecord s island code) (e : srcQueue t island = srcQueue s island) :
    HasRecord t island code := by
  unfold HasRecord at h ⊢
  unfold srcQueue at e
  rw [e]
  exact h

/-- The record that `raiseSev` makes, as the record of a number. -/
def madeRec (sev code island iter leg unit : Nat) (items : List Item) (uid : Nat) : FaultRec :=
  { code := code, cls := codeClass code, sev := sev, island := island, iter := iter, leg := leg, unit := unit, items := items, uid := uid }

/-- Making a record: what comes before it, its arrival, what comes after it, and what follows it. -/
theorem run_raiseSev (sev code island iter leg unit : Nat) (items : List Item) (k : Nat → Prog) (s : State) :
    (raiseSev sev code island iter leg unit items k).run s =
      (progs [alarm island (codeClass code), whenP (rungCodes.contains code) (trace 5 island), k s.recs.nextUid]).run
        ((enqueueRecord (madeRec sev code island iter leg unit items s.recs.nextUid)).run
          ((modRecs fun x => { x with nextUid := s.recs.nextUid + 1 }).run s)) := rfl

/-- A fault record waits at its island, where what follows it makes none there. -/
theorem hasRecord_raiseSev {sev code island iter leg unit : Nat} {items : List Item} {k : Nat → Prog} (hk : ∀ u, Keeps (fun s => srcQueue s island) (k u))
    (s : State) : HasRecord ((raiseSev sev code island iter leg unit items k).run s) island code := by
  rw [run_raiseSev]
  generalize (modRecs _).run s = t
  refine (hasRecord_enqueueRecord (madeRec sev code island iter leg unit items s.recs.nextUid) t).of_srcQueue ?_
  have hrest : Keeps (fun s => srcQueue s island)
      (progs [alarm island (codeClass code), whenP (rungCodes.contains code) (trace 5 island), k s.recs.nextUid]) :=
    keeps_cons _ (keeps_srcQueue_modRecs island fun _ => rfl) (keeps_cons _ (keeps_whenP _ _ (keeps_srcQueue_trace island 5 island))
      (keeps_cons _ (hk _) (keeps_nil _)))
  exact hrest _

theorem hasRecord_raise (code island iter leg unit : Nat) (items : List Item) (s : State) :
    HasRecord ((raise code island iter leg unit items).run s) island code := hasRecord_raiseSev (fun _ => keeps_skip _) s

/-- A record of one island leaves those of another. -/
theorem keeps_srcQueue_raise {code i iter leg unit : Nat} {items : List Item} {island : Nat} (h : island ≠ i) :
    Keeps (fun s => srcQueue s island) (raise code i iter leg unit items) :=
  keeps_look _ fun _ => keeps_cons _ (keeps_srcQueue_modRecs island fun _ => rfl) (keeps_cons _ (keeps_srcQueue_enqueueRecord h)
    (keeps_cons _ (keeps_srcQueue_modRecs island fun _ => rfl) (keeps_cons _ (keeps_whenP _ _ (keeps_srcQueue_trace island 5 i))
      (keeps_cons _ (keeps_skip _) (keeps_nil _)))))

theorem codeClass_lt (c : Nat) : codeClass c < 16 := Nat.mod_lt _ (by decide)

theorem writes_raiseSev {sev code island iter leg unit : Nat} {items : List Item} {k : Nat → Prog} (hk : ∀ u, Writes A (k u)) (h : ∀ a, recordWords a → A a) :
    Writes A (raiseSev sev code island iter leg unit items k) := by
  have hrecs (f : RecSt → RecSt) : Writes A (modRecs f) := (only_modRecs (K := [.recs])).writes
  refine writes_look fun s => writes_cons (hrecs _) (writes_cons (writes_look fun t => ?_) (writes_cons (hrecs _)
    (writes_cons (writes_whenP fun _ => writes_trace (h _ (.inl rfl))) (writes_cons (hk _) writes_nil))))
  dsimp only
  split
  · exact hrecs _
  · refine writes_seq (hrecs _) (writes_addSat (h _ (.inr ?_)))
    have := codeClass_lt code
    simp only [fldAddr, pageBase, Reg.MOD2.DROP_COUNT]
    omega

theorem writes_raise (code island iter leg unit : Nat) (items : List Item) : Writes recordWords (raise code island iter leg unit items) :=
  writes_raiseSev (fun _ => writes_skip) fun _ h => h

/-! ### Runs ended by faults -/

/-- The kinds of change that the end of a run by a fault makes. -/
def failK : List Kind := [.runs, .piste, .reg, .units, .gate, .sync]

theorem only_failRun {p status island leg : Nat} {u : Option Nat} : Only failK (failRun p status island leg u) := by
  refine only_look fun s => ?_
  split
  · exact only_skip
  · exact ⟨only_modRun, only_modPiste, only_wr, only_modUnits, only_forEach fun _ => only_modGate, only_modSync, trivial⟩

theorem only_faultLeg {p g leg code unit : Nat} {items : List Item} : Only (.recs :: failK) (faultLeg p g leg code unit items) :=
  only_look fun _ => only_raiseSev (fun _ => only_failRun.mono (by decide)) (by decide) (by decide)

theorem writes_failRun {p status island leg : Nat} {u : Option Nat} (h : A (fldAddr (.pst p) Reg.PST.RUN_STATUS_STATE 0)) :
    Writes A (failRun p status island leg u) := by
  refine writes_look fun s => ?_
  split
  · exact writes_skip
  · exact writes_cons (only_modRun (K := [.runs])).writes (writes_cons (only_modPiste (K := [.piste])).writes (writes_cons (writes_wr h)
      (Only.writes (K := [.units, .gate, .sync]) ⟨only_modUnits, only_forEach fun _ => only_modGate, only_modSync, trivial⟩)))

theorem writes_faultLeg {p g leg code unit : Nat} {items : List Item} (h : A (fldAddr (.pst p) Reg.PST.RUN_STATUS_STATE 0))
    (h' : ∀ a, recordWords a → A a) : Writes A (faultLeg p g leg code unit items) :=
  writes_look fun _ => writes_raiseSev (fun _ => writes_failRun h) h'

/-- The run on a piste has failed once a fault has ended it there. -/
theorem failed_failRun {p : Nat} {s : State} {id : Nat} (h : (pisteOf s p).run = some id) (status island leg : Nat) (u : Option Nat) :
    (pisteOf ((failRun p status island leg u).run s) p).failed = true := by
  unfold failRun
  rw [run_look, h]
  dsimp only
  rw [run_progs_cons, run_progs_cons]
  have hrest : Only [.reg, .units, .gate, .sync] (progs [wr (.pst p) Reg.PST.RUN_STATUS_STATE 3,
      modUnits fun u =>
        { u with
          fetched := u.fetched.filter (·.piste != p)
          outStage := u.outStage.filter (·.piste != p)
          signalsDue := u.signalsDue.filter (·.piste != p)
          marksDue := u.marksDue.filter (·.piste != p)
          chans := u.chans.map fun e => if e.1 / 16 = p then (e.1, { e.2 with waiting := none, expired := false }) else e },
      forEach (List.range 12) fun g => modGate (gateIsland p g) dropLeg,
      modSync fun y =>
        { y with
          waits := y.waits.filter fun w => !(w.island / 12 == p && decide (w.island < 768))
          gated := smDrop (fun k => k / 12 == p && decide (k < 768)) y.gated }]) :=
    ⟨only_wr, only_modUnits, only_forEach fun _ => only_modGate, only_modSync, trivial⟩
  rw [hrest.pisteOf, run_modPiste, pisteOf_apply_piste, if_pos rfl]

/-- What a fault record's continuation does on a piste, it does to the piste as it stood. -/
theorem run_raiseSev_last (sev code island iter leg unit : Nat) (items : List Item) (k : Nat → Prog) (s : State) :
    ∃ u t, Prog.run (raiseSev sev code island iter leg unit items k) s = (k u).run t ∧ t.pistes = s.pistes ∧ t.runs = s.runs := by
  have h : Only [.reg, .recs] (progs [modRecs (fun x => { x with nextUid := s.recs.nextUid + 1 }),
      enqueueRecord (madeRec sev code island iter leg unit items s.recs.nextUid), alarm island (codeClass code),
      whenP (rungCodes.contains code) (trace 5 island)]) :=
    ⟨only_modRecs, only_enqueueRecord, only_alarm, only_whenP only_trace, trivial⟩
  exact ⟨s.recs.nextUid, _, rfl, h.pistes (s := s), h.runs (s := s)⟩

theorem failed_faultLeg {p : Nat} {s : State} {id : Nat} (h : (pisteOf s p).run = some id) (g leg code unit : Nat) (items : List Item) :
    (pisteOf ((faultLeg p g leg code unit items).run s) p).failed = true := by
  unfold faultLeg
  rw [run_look]
  obtain ⟨u, t, e, hp, -⟩ := run_raiseSev_last 2 code (gateIsland p g) (iterOn s p) leg unit items
    (fun u => failRun p code (gateIsland p g) leg (some u)) s
  rw [e]
  refine failed_failRun (id := id) ?_ _ _ _ _
  unfold pisteOf at h ⊢
  rw [hp]
  exact h

theorem hasRecord_faultLeg (p g leg code unit : Nat) (items : List Item) (s : State) :
    HasRecord ((faultLeg p g leg code unit items).run s) (gateIsland p g) code := by
  unfold faultLeg
  rw [run_look]
  exact hasRecord_raiseSev (fun u => only_failRun.srcQueue _) s

end Sys2Proof.Machine
end

section
/-! GATHER_SHARD of a stale shard, and the checks of the sweep (R316, R317, R339, R340). -/

namespace Sys2Proof.Machine

open Sys2Proof

set_option Elab.async false

/-! ### A leg without entries, up to its effect -/

/-- A leg that executes and takes no entries: what it does at its start, its effect, and its completion where the effect has not ended its run. -/
theorem run_leg_begun {s : State} {p g op : Nat} {o : LegOp} {e : Env} (h : Issues s p g op o e) (ht : o.takes e = 0) :
    (runLeg p g op [] o).run s =
      (unlessFailed e.p (.seq (stallLeg e) (settle (e.p / 16)))).run ((o.body e).run ((beginLeg o e).run s)) := by
  obtain ⟨h1, h2, h3, h4, h5, h6, hk, -, h7, h8, hn⟩ := h
  have hx := legReady_next h1
  obtain ⟨rfl, rfl, rfl⟩ := (⟨hx.state, hx.piste, hx.gate⟩ : e.s = s ∧ e.p = p ∧ e.g = g)
  have hent : entered o e = e := if_pos ht
  rw [hent] at h7 h8
  have hee : ({ e with s := e.s, hostErr := [], adders := [], driftErr := [] } : Env) = e := by
    have h1 := hx.hostErr
    have h2 := hx.adders
    have h3 := hx.driftErr
    cases e
    simp_all
  unfold runLeg
  rw [run_look, h1]
  dsimp only
  rw [h2, if_pos rfl, run_seq, run_forEach_nil]
  unfold unlessFailed
  rw [run_look, hx.failed, Bool.not_false, run_whenP_true, run_look, show hostErrors [] = [] from rfl, show adderErrors [] = [] from rfl,
    show driftErrors [] = [] from rfl, hee]
  unfold issueLeg
  rw [h3]
  dsimp only
  rw [h4, if_neg (by simp), h5]
  dsimp only
  rw [h6, if_neg (by simp), hk]
  dsimp only
  rw [if_pos ht]
  unfold carryOut
  rw [h7, hx.hostErr, refusedIn_none hn, if_neg (by simp)]
  dsimp only
  rw [h8, if_neg (by simp), run_progs_cons, run_progs_cons, run_progs_cons, run_progs_nil]
  rfl

/-- The kinds of change that the start of an X-gate leg makes. -/
def beginK : List Kind := [.reg, .piste, .gate, .free, .flag .atc, .bytes .scratch, .flag .scratchPoison]

theorem only_holdPages {K : List Kind} {l : List Span} (h : Kind.flag .atc ∈ K := by decide) : Only K (holdPages l) :=
  only_forEach fun _ => only_cacheTranslation h

theorem only_countPoison {K : List Kind} {l : List Span} (h : Kind.reg ∈ K := by decide) : Only K (countPoison l) :=
  only_forEach fun _ => only_deliverPoison h

theorem only_useRings {e : Env} : Only [.free, .bytes .scratch, .flag .scratchPoison] (useRings e) :=
  only_forEach fun _ => only_withFreeBytes fun _ => only_scratchWrite

theorem only_beginLeg {o : LegOp} {e : Env} (h : Only [.reg] (o.status e)) : Only beginK (beginLeg o e) :=
  ⟨⟨only_wr, only_wr, h.mono (by decide), only_modPiste, trivial⟩, only_holdPages, only_countPoison, only_useRings.mono (by decide), only_modGate, trivial⟩

/-- The words of the stacks' pages. -/
def stackWords (a : Nat) : Prop := ∃ st, a = fldAddr (.stk st) Reg.STK.ECC_STATUS_POISON_READ 0 ∨ a = fldAddr (.stk st) Reg.STK.POISON_COUNT 0

theorem writes_deliverPoison (a n : Nat) : Writes stackWords (deliverPoison a n) :=
  writes_look fun _ => writes_whenP fun _ => writes_forEach fun _ _ => writes_seq (writes_wr ⟨_, .inl rfl⟩) (writes_addSat ⟨_, .inr rfl⟩)

/-! ### GATHER_SHARD -/

theorem exec_gatherShard (p : Fin 64) (ram : List SramErr) (s : State) : exec (.gatherShard p ram) s = done (runLeg p 11 5 ram opGatherShard) s := rfl

/-- The words that a GATHER_SHARD writes at its start: of its gate's page, and of the stacks that deliver poison. -/
def shardWords (p a : Nat) : Prop := pisteWords p a ∨ stackWords a

theorem pisteWords_gate {p g : Nat} (hg : g < 12) (f : Fld) (hf : f.off < 0x1000 := by decide) : pisteWords p (fldAddr (.gate p g) f 0) := by
  simp only [pisteWords, fldAddr, pageBase]
  omega

theorem writes_beginShard (e : Env) (hg : e.g < 12) : Writes (shardWords e.p) (beginLeg opGatherShard e) := by
  have hgate (f : Fld) (v : Nat) (hf : f.off < 0x1000) : Writes (shardWords e.p) (wr (.gate e.p e.g) f v) := writes_wr (.inl (pisteWords_gate hg f hf))
  refine writes_cons (writes_cons (hgate _ _ (by decide)) (writes_cons (hgate _ _ (by decide)) (writes_cons (hgate _ _ (by decide))
    (writes_cons (only_modPiste (K := [.piste])).writes writes_nil)))) (writes_cons (only_holdPages (K := [.flag .atc])).writes (writes_cons ?_
    (writes_cons only_useRings.writes (writes_cons (only_modGate (K := [.gate])).writes writes_nil))))
  exact writes_forEach fun x _ => (writes_deliverPoison _ _).mono fun _ => .inr

theorem only_staleShard {e : Env} {v seen held : Nat} : Only (.recs :: failK) (staleShard e v seen held) :=
  ⟨only_wr, only_wr, only_wr, only_wr, only_addSat, only_faultLeg, trivial⟩

/-- A stale shard ends its run with STALE_SHARD, marks its gate and counts (R317). -/
theorem run_staleShard {e : Env} {t : State} {id : Nat} (hp : e.p < 64) (hg : e.g < 12) (h : (pisteOf t e.p).run = some id) (v seen held : Nat) :
    HasRecord ((staleShard e v seen held).run t) (gateIsland e.p e.g) Code.STALE_SHARD ∧ (pisteOf ((staleShard e v seen held).run t) e.p).failed = true ∧
      rd ((staleShard e v seen held).run t) (.gate e.p e.g) Reg.GATEX.CHECK_STALE = 1 ∧
      rd ((staleShard e v seen held).run t) .gns Reg.GNS.STALE_COUNT = satBits Reg.GNS.STALE_COUNT.w (rd t .gns Reg.GNS.STALE_COUNT + 1) := by
  let a : Prog := wr (.gate e.p e.g) Reg.GATEX.CHECK_STALE 1
  let b : Prog := progs [wr (.gate e.p e.g) Reg.GATEX.STALE_LEG e.idx, wr (.gate e.p e.g) Reg.GATEX.STALE_SEEN seen,
    wr (.gate e.p e.g) Reg.GATEX.STALE_HELD held]
  let c : Prog := addSat .gns Reg.GNS.STALE_COUNT 1
  let d : Prog := faultLeg e.p e.g e.idx Code.STALE_SHARD 0 [w32 v, w32 held]
  have hu : (staleShard e v seen held).run t = d.run (c.run (b.run (a.run t))) := by
    unfold staleShard b
    rw [run_progs_cons, run_progs_cons, run_progs_cons, run_progs_cons, run_progs_cons, run_progs_cons, run_progs_nil, run_progs_cons, run_progs_cons,
      run_progs_cons, run_progs_nil]
  rw [hu]
  have hcheck : plain (.gate e.p e.g) Reg.GATEX.CHECK_STALE = true := plain_gate hp hg
  have hb : Writes (fun x => pisteWords e.p x ∧ x % 0x1000 ≠ 0x204) b := by
    have hw (f : Fld) (n : Nat) (hf : f.off < 0x1000 ∧ f.off ≠ 0x204) : Writes (fun x => pisteWords e.p x ∧ x % 0x1000 ≠ 0x204) (wr (.gate e.p e.g) f n) := by
      refine writes_wr ⟨pisteWords_gate hg f hf.1, ?_⟩
      rw [fldAddr_eq, Nat.mul_zero, Nat.add_zero, pageBase_add_mod _ _ hf.1]
      exact hf.2
    exact writes_cons (hw _ _ (by decide)) (writes_cons (hw _ _ (by decide)) (writes_cons (hw _ _ (by decide)) writes_nil))
  have hc : Writes (· = fldAddr .gns Reg.GNS.STALE_COUNT 0) c := writes_addSat rfl
  have hd : Writes (fun x => x = fldAddr (.pst e.p) Reg.PST.RUN_STATUS_STATE 0 ∨ recordWords x) d := writes_faultLeg (.inl rfl) fun _ => .inr
  have ha' : Only [.reg] a := only_wr
  have hb' : Only [.reg] b := ⟨only_wr, only_wr, only_wr, trivial⟩
  have hc' : Only [.reg] c := only_addSat
  have hrun : (pisteOf (c.run (b.run (a.run t))) e.p).run = some id := by rw [hc'.pisteOf, hb'.pisteOf, ha'.pisteOf, h]
  refine ⟨hasRecord_faultLeg _ _ _ _ _ _ _, failed_faultLeg hrun _ _ _ _ _, ?_, ?_⟩
  · rw [hd.rd ?_ hcheck, hc.rd ?_ hcheck, hb.rd ?_ hcheck, rd_wr_same _ _ _ _ _ hcheck]
    · rfl
    · simp only [fldAddr, pageBase, Reg.GATEX.CHECK_STALE]; omega
    · simp only [fldAddr, pageBase, Reg.GATEX.CHECK_STALE, Reg.GNS.STALE_COUNT]; omega
    · simp only [fldAddr, pageBase, Reg.GATEX.CHECK_STALE, Reg.PST.RUN_STATUS_STATE, recordWords]; omega
  · have ha : Writes (pisteWords e.p) a := writes_wr (pisteWords_gate hg _)
    have hns (p : Nat) : ¬ pisteWords p (fldAddr .gns Reg.GNS.STALE_COUNT 0) := by
      simp only [pisteWords, fldAddr, pageBase, Reg.GNS.STALE_COUNT]; omega
    rw [hd.rd ?_ (by decide)]
    · rw [rd_addSat (by decide) 1, hb.rd (fun h => hns _ h.1) (by decide), ha.rd (hns _) (by decide)]
    · simp only [fldAddr, pageBase, Reg.GNS.STALE_COUNT, Reg.PST.RUN_STATUS_STATE, recordWords]; omega

/-- A shard whose version is odd, or under BWD another than the one held, ends its run (R317). -/
theorem gatherShard_stale {s : State} {p : Fin 64} {e : Env} (h : Issues s p 11 5 opGatherShard e)
    (hv : versionOf e false % 2 = 1 ∨ (bit e.leg.p0 0 = true ∧ versionOf e false ≠ versionHeld e)) :
    ∃ t, exec (.gatherShard p []) s = .next t ∧ HasRecord t (gateIsland p 11) Code.STALE_SHARD ∧ (pisteOf t p).failed = true ∧
      rd t (.gate p 11) Reg.GATEX.CHECK_STALE = 1 ∧
      rd t .gns Reg.GNS.STALE_COUNT = satBits Reg.GNS.STALE_COUNT.w (rd s .gns Reg.GNS.STALE_COUNT + 1) ∧ t.counts = s.counts ∧ t.mem.hbm = s.mem.hbm := by
  obtain ⟨hready, -, -, -, -, -, -, -, -, -, hnone⟩ := id h
  have hx := legReady_next hready
  have hpe : e.p = p := hx.piste
  have hge : e.g = 11 := hx.gate
  have hbegin : Only beginK (beginLeg opGatherShard e) := only_beginLeg only_wr
  have hat : AtLeg s ((beginLeg opGatherShard e).run s) e.island (e.idx, true) := by
    refine AtLeg.beginLeg (b := false) ⟨rfl, PistesKept.of_eq rfl, ?_⟩ hnone pres_xStatus
    have := hx.next
    rwa [← hpe, ← hge] at this
  have hcount : rd ((beginLeg opGatherShard e).run s) .gns Reg.GNS.STALE_COUNT = rd s .gns Reg.GNS.STALE_COUNT := by
    refine (writes_beginShard e (by rw [hge]; decide)).rd ?_ (by decide) s
    rintro (hw | ⟨st, hw | hw⟩)
    · simp only [pisteWords, fldAddr, pageBase, Reg.GNS.STALE_COUNT] at hw; omega
    · simp only [fldAddr, pageBase, Reg.GNS.STALE_COUNT, Reg.STK.ECC_STATUS_POISON_READ] at hw; omega
    · simp only [fldAddr, pageBase, Reg.GNS.STALE_COUNT, Reg.STK.POISON_COUNT] at hw; omega
  have hcounts : ((beginLeg opGatherShard e).run s).counts = s.counts := hbegin.counts
  have hhbm : memOf ((beginLeg opGatherShard e).run s).mem .hbm = memOf s.mem .hbm := hbegin.memOf
  obtain ⟨id, hid⟩ : ∃ id, (pisteOf ((beginLeg opGatherShard e).run s) e.p).run = some id := by
    have := hx.run
    unfold runOn at this
    obtain ⟨id, hid, -⟩ := Option.bind_eq_some_iff.mp this
    exact ⟨id, by rw [hat.pistes e.p, hpe]; exact hid⟩
  have hbody : opGatherShard.body e = staleShard e (versionOf e false) (versionOf e false) (versionHeld e) := by
    have hstale : shardFresh e = false := by
      unfold shardFresh
      rcases hv with hodd | ⟨hb, hne⟩
      · simp [hodd]
      · simp [hb, hne]
    show gatherShardBody e = _
    unfold gatherShardBody
    dsimp only
    rw [if_pos (by rw [hstale]; rfl)]
  rw [exec_gatherShard, done_eq, run_leg_begun h rfl, hbody]
  generalize (beginLeg opGatherShard e).run s = u at *
  have hstale : Only (.recs :: failK) (staleShard e (versionOf e false) (versionOf e false) (versionHeld e)) := only_staleShard
  obtain ⟨hrec, hfail, hcheck, hstaleCount⟩ := run_staleShard (by rw [hpe]; exact p.isLt) (by rw [hge]; decide) hid (versionOf e false) (versionOf e false) (versionHeld e)
  have hv : ((staleShard e (versionOf e false) (versionOf e false) (versionHeld e)).run u).counts = u.counts ∧
      memOf ((staleShard e (versionOf e false) (versionOf e false) (versionHeld e)).run u).mem .hbm = memOf u.mem .hbm :=
    ⟨hstale.counts, hstale.memOf⟩
  generalize (staleShard e (versionOf e false) (versionOf e false) (versionHeld e)).run u = v at *
  refine ⟨v, ?_, ?_, ?_, ?_, ?_, hv.1.trans hcounts, hv.2.trans hhbm⟩
  · unfold unlessFailed
    rw [run_look, hfail]
    rfl
  · rwa [hpe, hge] at hrec
  · rwa [hpe] at hfail
  · rwa [hpe, hge] at hcheck
  · rw [hstaleCount, hcount]

theorem gatherShard_fresh {s : State} {p : Fin 64} {e : Env} (h : Issues s p 11 5 opGatherShard e) (hf : shardFresh e = true)
    (h2 : versionOf e true = versionOf e false) : Completes s (.gatherShard p []) opGatherShard e := by
  have hhost : e.hostErr = [] := h.entered_hostErr (o := opGatherShard) (by decide)
  exact h.completes (by decide) (exec_gatherShard p [] s) pres_xStatus (pres_gatherShardBody hhost hf h2)

end Sys2Proof.Machine
end

section
/-! The checks of the sweep: one that agrees, one that settles a difference with a third piste, and one that leaves it unresolved (R339, R340). -/

namespace Sys2Proof.Machine

open Sys2Proof

set_option Elab.async false

theorem Only.regs_recs_fw {p : Prog} (h : Only [.reg, .recs, .fw] p) (s : State) :
    p.run s = { s with regs := (p.run s).regs, recs := (p.run s).recs, fw := (p.run s).fw } := by
  have := h.keeps (fun s => fun x y z => { s with regs := x, recs := y, fw := z }) (fun a s ha => by
    cases a with
    | reg a v => rfl
    | recs x => rfl
    | fw x => rfl
    | _ => simp [Act.kind] at ha) s
  exact congrFun (congrFun (congrFun this (p.run s).regs) (p.run s).recs) (p.run s).fw

/-! ### A piste marked for a fence -/

/-- The word that marks a piste for a fence, beside those of its record. -/
def markWords (p a : Nat) : Prop := a = fldAddr (.pst p) Reg.PST.RUN_CTRL_FENCE_PENDING 0 ∨ recordWords a

theorem only_fenceCause {p cause : Nat} : Only [.reg, .recs] (fenceCause p cause) :=
  only_look fun _ => only_whenP ⟨only_wr, only_wr, only_raise, trivial⟩

theorem writes_fenceCause (p cause : Nat) : Writes (markWords p) (fenceCause p cause) :=
  writes_look fun _ => writes_whenP fun _ => writes_cons (writes_wr (.inl rfl)) (writes_cons (writes_wr (.inl rfl))
    (writes_cons ((writes_raise _ _ _ _ _ _).mono fun _ => .inr) writes_nil))

/-- A piste that is neither marked nor fenced is marked with the cause given (R336). -/
theorem run_fenceCause {p : Nat} (hp : p < 64) (cause : Nat) {s : State} (h0 : rd s (.pst p) Reg.PST.RUN_CTRL_FENCE_PENDING = 0)
    (h1 : rd s (.pst p) Reg.PST.RUN_CTRL_FENCED = 0) :
    rd ((fenceCause p cause).run s) (.pst p) Reg.PST.RUN_CTRL_FENCE_PENDING = 1 ∧
    rd ((fenceCause p cause).run s) (.pst p) Reg.PST.RUN_CTRL_FENCE_CAUSE = cause % 256 := by
  have hpend : plain (.pst p) Reg.PST.RUN_CTRL_FENCE_PENDING = true := plain_pst hp
  have hcause : plain (.pst p) Reg.PST.RUN_CTRL_FENCE_CAUSE = true := plain_pst hp
  have hrec (f : Fld) (hf : f.stride * 0 = 0 := by decide) : ¬ recordWords (fldAddr (.pst p) f 0) := by
    simp only [recordWords, fldAddr, pageBase]; omega
  unfold fenceCause
  rw [run_look, h0, h1]
  simp only [beq_self_eq_true, Bool.and_self, run_whenP_true]
  rw [run_progs_cons, run_progs_cons, run_progs_cons, run_progs_nil]
  refine ⟨?_, ?_⟩
  · rw [(writes_raise _ _ _ _ _ _).rd (hrec _) hpend, rd_wr_other _ _ _ _ _ _ _ _ hcause hpend (.inr (.inr (.inr (by decide)))), rd_wr_same _ _ _ _ _ hpend]
    rfl
  · rw [(writes_raise _ _ _ _ _ _).rd (hrec _) hcause, rd_wr_same _ _ _ _ _ hcause]
    rfl

/-! ### A check -/

/-- The words that follow a check's counts: none of the sweep's own. -/
def sweepFree (A : Nat → Prop) : Prop := ∀ a, A a → a ≠ 0x3150 ∧ a ≠ 0x3158

theorem sweepFree_record : sweepFree recordWords := by
  intro a h
  simp only [recordWords] at h
  omega

theorem sweepFree_mark (p : Nat) : sweepFree (markWords p) := by
  rintro a (rfl | h)
  · simp only [fldAddr, pageBase, Reg.PST.RUN_CTRL_FENCE_PENDING]; omega
  · exact sweepFree_record a h

theorem only_sweepDiffers {c : Capture} {q : Prog} (hq : Only [.reg, .recs] q) : Only [.reg, .recs, .fw] (sweepDiffers c q) :=
  ⟨only_modFw, only_addSat, only_addSat, hq.mono (by decide), trivial⟩

theorem run_sweepDiffers (c : Capture) (q : Prog) (s : State) : (sweepDiffers c q).run s =
    q.run ((addSat (.mod 3) Reg.MOD3.SWEEP_MISMATCHES 1).run ((addSat (.mod 3) Reg.MOD3.SWEEP_CHECKS 1).run ((dropCapture c).run s))) := by
  unfold sweepDiffers
  rw [run_progs_cons, run_progs_cons, run_progs_cons, run_progs_cons, run_progs_nil]

theorem rd_checks_trace {k i : Nat} (s : State) :
    rd ((trace k i).run s) (.mod 3) Reg.MOD3.SWEEP_CHECKS = rd s (.mod 3) Reg.MOD3.SWEEP_CHECKS ∧
    rd ((trace k i).run s) (.mod 3) Reg.MOD3.SWEEP_MISMATCHES = rd s (.mod 3) Reg.MOD3.SWEEP_MISMATCHES := by
  have h : Writes recordWords (trace k i) := writes_trace (.inl rfl)
  exact ⟨h.rd (by simp [recordWords, fldAddr, pageBase, Reg.MOD3.SWEEP_CHECKS]) (by decide) s,
    h.rd (by simp [recordWords, fldAddr, pageBase, Reg.MOD3.SWEEP_MISMATCHES]) (by decide) s⟩

/-- A check that finds a difference takes its capture off and is counted, whatever record follows. -/
theorem sweep_differs {A : Nat → Prop} {q : Prog} (hq : Only [.reg, .recs] q) (hw : Writes A q) (hA : sweepFree A) (c : Capture) (i : Nat) (s : State) :
    let t := (sweepDiffers c q).run ((trace 6 i).run s)
    t.fw = { s.fw with captures := s.fw.captures.erase c } ∧
      rd t (.mod 3) Reg.MOD3.SWEEP_CHECKS = satBits 32 (rd s (.mod 3) Reg.MOD3.SWEEP_CHECKS + 1) ∧
      rd t (.mod 3) Reg.MOD3.SWEEP_MISMATCHES = satBits 32 (rd s (.mod 3) Reg.MOD3.SWEEP_MISMATCHES + 1) ∧
      t = { s with regs := t.regs, recs := t.recs, fw := t.fw } := by
  intro t
  have htrace : Only [.reg, .recs] (trace 6 i) := only_trace
  have hadd (f : Fld) : Only [.reg] (addSat (.mod 3) f 1) := only_addSat
  have hdrop : Only [.fw] (dropCapture c) := only_modFw
  have hcheck : ¬ A (fldAddr (.mod 3) Reg.MOD3.SWEEP_CHECKS 0) := fun h => (hA _ h).1 rfl
  have hmis : ¬ A (fldAddr (.mod 3) Reg.MOD3.SWEEP_MISMATCHES 0) := fun h => (hA _ h).2 rfl
  have hcheck' : Writes (· = 0x3150) (addSat (.mod 3) Reg.MOD3.SWEEP_CHECKS 1) := writes_addSat rfl
  have hmis' : Writes (· = 0x3158) (addSat (.mod 3) Reg.MOD3.SWEEP_MISMATCHES 1) := writes_addSat rfl
  refine ⟨?_, ?_, ?_, Only.regs_recs_fw (p := .seq (trace 6 i) (sweepDiffers c q)) ⟨only_trace, only_sweepDiffers hq⟩ s⟩
  · show ((sweepDiffers c q).run ((trace 6 i).run s)).fw = _
    rw [run_sweepDiffers, hq.fw, (hadd _).fw, (hadd _).fw]
    unfold dropCapture
    rw [run_modFw, apply_fw, htrace.fw]
  · show rd ((sweepDiffers c q).run ((trace 6 i).run s)) (.mod 3) Reg.MOD3.SWEEP_CHECKS = _
    rw [run_sweepDiffers, hw.rd hcheck (by decide), hmis'.rd (by decide) (by decide), rd_addSat (by decide), rd_congr hdrop.regs _ _ _ (by decide),
      (rd_checks_trace s).1]
    rfl
  · show rd ((sweepDiffers c q).run ((trace 6 i).run s)) (.mod 3) Reg.MOD3.SWEEP_MISMATCHES = _
    rw [run_sweepDiffers, hw.rd hmis (by decide), rd_addSat (by decide), hcheck'.rd (by decide) (by decide), rd_congr hdrop.regs _ _ _ (by decide),
      (rd_checks_trace s).2]
    rfl

/-- A check that agrees takes its capture off and is counted. -/
theorem sweep_agrees (c : Capture) (i : Nat) (s : State) :
    let t := (addSat (.mod 3) Reg.MOD3.SWEEP_CHECKS 1).run ((dropCapture c).run ((trace 6 i).run s))
    t.fw = { s.fw with captures := s.fw.captures.erase c } ∧
      rd t (.mod 3) Reg.MOD3.SWEEP_CHECKS = satBits 32 (rd s (.mod 3) Reg.MOD3.SWEEP_CHECKS + 1) ∧
      rd t (.mod 3) Reg.MOD3.SWEEP_MISMATCHES = rd s (.mod 3) Reg.MOD3.SWEEP_MISMATCHES ∧ t = { s with regs := t.regs, recs := t.recs, fw := t.fw } := by
  intro t
  have htrace : Only [.reg, .recs] (trace 6 i) := only_trace
  have hadd : Only [.reg] (addSat (.mod 3) Reg.MOD3.SWEEP_CHECKS 1) := only_addSat
  have hdrop : Only [.fw] (dropCapture c) := only_modFw
  have hcheck' : Writes (· = 0x3150) (addSat (.mod 3) Reg.MOD3.SWEEP_CHECKS 1) := writes_addSat rfl
  refine ⟨?_, ?_, ?_, Only.regs_recs_fw (p := .seq (trace 6 i) (.seq (dropCapture c) (addSat (.mod 3) Reg.MOD3.SWEEP_CHECKS 1)))
    ⟨only_trace, only_modFw, only_addSat⟩ s⟩
  · show ((addSat (.mod 3) Reg.MOD3.SWEEP_CHECKS 1).run ((dropCapture c).run ((trace 6 i).run s))).fw = _
    rw [hadd.fw]
    unfold dropCapture
    rw [run_modFw, apply_fw, htrace.fw]
  · show rd ((addSat (.mod 3) Reg.MOD3.SWEEP_CHECKS 1).run ((dropCapture c).run ((trace 6 i).run s))) (.mod 3) Reg.MOD3.SWEEP_CHECKS = _
    rw [rd_addSat (by decide), rd_congr hdrop.regs _ _ _ (by decide), (rd_checks_trace s).1]
    rfl
  · show rd ((addSat (.mod 3) Reg.MOD3.SWEEP_CHECKS 1).run ((dropCapture c).run ((trace 6 i).run s))) (.mod 3) Reg.MOD3.SWEEP_MISMATCHES = _
    rw [hcheck'.rd (by decide) (by decide), rd_congr hdrop.regs _ _ _ (by decide), (rd_checks_trace s).2]

/-- The fence that a difference settled leads to: its record waits, and the piste in the minority is marked unless it is marked or fenced already. -/
theorem sweep_fences (c : Capture) (k i : Nat) {q : Nat} (hq : q < 64) (s : State) :
    HasRecord ((sweepFence c k q).run ((trace 6 i).run s)) 852 Code.SWEEP_MISMATCH ∧
    (rd s (.pst q) Reg.PST.RUN_CTRL_FENCE_PENDING = 0 → rd s (.pst q) Reg.PST.RUN_CTRL_FENCED = 0 →
      rd ((sweepFence c k q).run ((trace 6 i).run s)) (.pst q) Reg.PST.RUN_CTRL_FENCE_PENDING = 1 ∧
      rd ((sweepFence c k q).run ((trace 6 i).run s)) (.pst q) Reg.PST.RUN_CTRL_FENCE_CAUSE = 8) := by
  unfold sweepFence
  rw [run_sweepDiffers, run_seq]
  constructor
  · have hmark : Keeps (fun s => srcQueue s 852) (fenceCause q 8) :=
      keeps_look _ fun s => keeps_whenP _ _ (keeps_cons _ ((only_wr (K := [.reg])).srcQueue _) (keeps_cons _ ((only_wr (K := [.reg])).srcQueue _)
        (keeps_cons _ (keeps_srcQueue_raise (by omega)) (keeps_nil _))))
    generalize (addSat (.mod 3) Reg.MOD3.SWEEP_MISMATCHES 1).run _ = u
    exact (hasRecord_raise _ _ _ _ _ _ u).of_srcQueue (hmark _)
  intro h0 h1
  · have hlow : Writes (fun a => a < 0x10000) (.seq (trace 6 i) (.seq (dropCapture c) (.seq (addSat (.mod 3) Reg.MOD3.SWEEP_CHECKS 1)
        (.seq (addSat (.mod 3) Reg.MOD3.SWEEP_MISMATCHES 1)
          (raise Code.SWEEP_MISMATCH 852 c.iter noLeg 0 [w32 (768 + c.piste), w32 (768 + k), w32 (gateIsland c.piste c.gate)]))))) :=
      writes_seq (writes_trace (by decide)) (writes_seq (only_modFw (K := [.fw])).writes (writes_seq (writes_addSat (by decide))
        (writes_seq (writes_addSat (by decide)) ((writes_raise _ _ _ _ _ _).mono fun a h => by simp only [recordWords] at h; omega))))
    have hkeep (f : Fld) (hf : plain (.pst q) f = true) := hlow.rd (by simp only [fldAddr, pageBase]; omega) hf s
    have hpend := hkeep Reg.PST.RUN_CTRL_FENCE_PENDING (plain_pst hq)
    have hfen := hkeep Reg.PST.RUN_CTRL_FENCED (plain_pst hq)
    rw [run_seq, run_seq, run_seq, run_seq] at hpend hfen
    exact run_fenceCause hq 8 (hpend.trans h0) (hfen.trans h1)

/-- A difference without a verdict is recorded as unresolved. -/
theorem sweep_unresolved (c : Capture) (i : Nat) (s : State) :
    HasRecord ((sweepDiffers c (raise Code.SWEEP_UNRESOLVED 852 c.iter noLeg 0 [])).run ((trace 6 i).run s)) 852 Code.SWEEP_UNRESOLVED := by
  rw [run_sweepDiffers]
  exact hasRecord_raise _ _ _ _ _ _ _

/-- What follows the trace of a check, by its result. -/
def sweepVerdict (p : Nat) (c : Capture) (k : Nat) (more : List Nat) : SweepResult → Prog
  | .agree => .seq (dropCapture c) (addSat (.mod 3) Reg.MOD3.SWEEP_CHECKS 1)
  | .targetMinority => if more.isEmpty then sweepDiffers c (raise Code.SWEEP_UNRESOLVED 852 c.iter noLeg 0 []) else sweepFence c k p
  | .checkerMinority => if more.isEmpty then sweepDiffers c (raise Code.SWEEP_UNRESOLVED 852 c.iter noLeg 0 []) else sweepFence c k k
  | .unresolved => sweepDiffers c (raise Code.SWEEP_UNRESOLVED 852 c.iter noLeg 0 [])
  | .deferred => .skip

theorem exec_sweepCheck {s : State} {p : Fin 64} {g : Fin 12} {c : Capture} {k : Nat} {more : List Nat}
    (hc : s.fw.captures.find? (fun c => c.piste == p.val && c.gate == g.val && checkOpen s c) = some c) (hk : checkersOf s p = k :: more)
    {r : SweepResult} (hr : (r != .deferred) = true) :
    exec (.sweepCheck p g r) s = .next ((sweepVerdict p c k more r).run ((trace 6 (gateIsland k g)).run s)) := by
  show done (progSweepCheck p g r) s = _
  rw [done_eq]
  unfold progSweepCheck
  rw [run_look, hc, hk]
  dsimp only
  rw [hr, run_whenP_true, run_seq]
  cases r <;> rfl

theorem exec_sweepDeferred (p : Fin 64) (g : Fin 12) (s : State) : exec (.sweepCheck p g .deferred) s = .next s := by
  show done (progSweepCheck p g .deferred) s = _
  rw [done_eq]
  unfold progSweepCheck
  rw [run_look]
  split <;> rfl

theorem checkersOf_lt {s : State} {t k : Nat} {more : List Nat} (h : checkersOf s t = k :: more) : k < 64 := by
  have hm : k ∈ checkersOf s t := by rw [h]; exact List.mem_cons_self
  obtain ⟨hm, -⟩ := List.mem_filter.mp hm
  obtain ⟨j, -, rfl⟩ := List.mem_map.mp hm
  exact Nat.mod_lt _ (by decide)

end Sys2Proof.Machine
end

section
/-! The fallback after a fence (R336, R337), and O55. `Preserves I p` says that `p` leaves a property of the state that holds: it carries the
records, commands and holds of the fallback through the ends of the runs that it ends. -/

namespace Sys2Proof.Machine

open Sys2Proof

set_option Elab.async false

/-- A program leaves a property of the state that holds. -/
def Preserves (I : State → Prop) (p : Prog) : Prop := ∀ s, I s → I (p.run s)

section
variable {I : State → Prop} {K : List Kind} {β : Type}

theorem preserves_skip : Preserves I .skip := fun _ h => h
theorem preserves_seq {p q : Prog} (hp : Preserves I p) (hq : Preserves I q) : Preserves I (.seq p q) := fun s h => hq _ (hp s h)
theorem preserves_look {f : State → Prog} (h : ∀ s, Preserves I (f s)) : Preserves I (.look f) := fun s => h s s
theorem preserves_nil : Preserves I (progs []) := preserves_skip
theorem preserves_cons {p : Prog} {r : List Prog} (hp : Preserves I p) (hr : Preserves I (progs r)) : Preserves I (progs (p :: r)) := preserves_seq hp hr
theorem preserves_forEach {l : List β} {f : β → Prog} (h : ∀ x ∈ l, Preserves I (f x)) : Preserves I (forEach l f) :=
  fun s hs => run_forEach_inv I h s hs

theorem preserves_whenP {b : Bool} {p : Prog} (h : Preserves I p) : Preserves I (whenP b p) := by
  cases b
  · exact preserves_skip
  · exact h

/-- A property that no listed kind of change breaks is left by a program of those kinds. -/
theorem Only.preserves {p : Prog} (h : Only K p) (hI : ∀ (a : Act) s, a.kind ∈ K → I s → I (a.apply s)) : Preserves I p := by
  intro s hs
  induction p generalizing s with
  | skip => exact hs
  | prim a => exact hI a s h hs
  | seq p q hp hq => exact hq h.2 _ (hp h.1 s hs)
  | look f ih => exact ih s (h s) s hs

/-- What the ends of runs before their start leave: what neither pistes, registers, runs nor layout changes break, nor a command that completes with
the run's status, nor the end of a hold. -/
theorem preserves_endEarly {status island : Nat} {u : Option Nat} (hs : status ≠ 0)
    (hact : ∀ (a : Act) s, a.kind ∈ [Kind.piste, .reg, .runs, .layout] → I s → I (a.apply s))
    (hfin : ∀ id, Preserves I (finish id status (failDetail island noLeg) u)) (hrel : ∀ n, Preserves I (releaseHold (holdReplay n))) (r : RunRec) :
    Preserves I (endEarly r status island u) := by
  have honly {p : Prog} (hp : Only [.piste, .reg, .runs, .layout] p) : Preserves I p := hp.preserves hact
  unfold endEarly runOver
  refine preserves_seq (honly (only_look fun _ => only_forEach fun _ => ⟨only_modPiste, only_wr⟩)) (preserves_seq (honly only_modRuns) ?_)
  split
  · refine preserves_look fun s => ?_
    split
    · next l _ =>
      unfold layoutEnd
      rw [show (status == 0) = false by simpa using hs]
      exact preserves_cons preserves_skip (preserves_cons (honly (only_prim (by decide))) (preserves_cons (preserves_whenP (hfin l.cmd)) preserves_nil))
    · exact preserves_skip
  · split
    · exact honly only_modRun
    · refine preserves_seq ?_ (hrel _)
      unfold finishOpt
      split
      · exact preserves_skip
      · exact hfin _

/-- What the clearing of a fenced piste's queue leaves. -/
theorem preserves_clearQueued {f : Nat} (hact : ∀ (a : Act) s, a.kind ∈ [Kind.piste, .reg, .runs, .layout] → I s → I (a.apply s))
    (hfin : ∀ id, Preserves I (finish id Code.PISTE_FENCED (failDetail (768 + f) noLeg))) (hrel : ∀ n, Preserves I (releaseHold (holdReplay n))) :
    Preserves I (clearQueued f) := by
  refine preserves_look fun s => preserves_forEach fun r _ => ?_
  split
  · exact preserves_endEarly (by decide) hact hfin hrel r
  · exact Only.preserves (K := [.runs]) ⟨only_modRun, only_fixEpoch⟩ fun a s ha => hact a s (by simp_all)

end

/-! ### Commands of the runs ended -/

/-- An accepted command waits, or has finished with a status and a detail, among commands whose numbers differ. -/
def StillWaits (c : Cmd) (status detail : Nat) (s : State) : Prop :=
  (s.host.accepted.map (·.id)).Nodup ∧ (c ∈ s.host.accepted ∨ HasFinished s c status detail)

theorem nodup_completeCmd {h : HostSt} (hn : (h.accepted.map (·.id)).Nodup) (d : Done) : ((completeCmd h d).accepted.map (·.id)).Nodup :=
  (List.Sublist.map _ List.filter_sublist).nodup hn

theorem nodup_settleFences (n : Nat) {h : HostSt} (hn : (h.accepted.map (·.id)).Nodup) : ((settleFences n h).accepted.map (·.id)).Nodup := by
  induction n generalizing h with
  | zero => exact hn
  | succ n ih =>
    unfold settleFences
    split
    · exact hn
    · exact ih (nodup_completeCmd hn _)

/-- A command that is no fence is completed by no fence's completion. -/
theorem mem_settleFences {c : Cmd} (hc : ∀ k, c.body ≠ some (.fence k)) (n : Nat) {h : HostSt} (hn : (h.accepted.map (·.id)).Nodup)
    (hm : c ∈ h.accepted) : c ∈ (settleFences n h).accepted := by
  induction n generalizing h with
  | zero => exact hm
  | succ n ih =>
    unfold settleFences
    split
    · exact hm
    · next x hx =>
      refine ih (nodup_completeCmd hn _) (List.mem_filter.mpr ⟨hm, ?_⟩)
      have hready := List.find?_some hx
      have hne : c.id ≠ x.id := by
        intro e
        obtain rfl := List.inj_on_of_nodup_map hn hm (List.mem_of_find?_eq_some hx) e
        unfold fenceReady at hready
        split at hready
        · next k hk => exact hc k hk
        · simp at hready
      simpa using hne

theorem preserves_finish_waits {c : Cmd} (hc : ∀ k, c.body ≠ some (.fence k)) (id status detail : Nat) (u : Option Nat) :
    Preserves (StillWaits c status detail) (finish id status detail u) := by
  rintro s ⟨hn, hw⟩
  cases hf : findCmd s id with
  | none => rw [run_finish_none hf]; exact ⟨hn, hw⟩
  | some x =>
    have hfin := finish_finished id status detail u s
    rw [run_finish_some hf] at hfin ⊢
    refine ⟨nodup_settleFences _ (nodup_completeCmd hn _), ?_⟩
    rcases hw with hm | hd
    · by_cases e : c.id = x.id
      · exact .inr ⟨_, settleFences_finished _ _ (List.mem_append_right _ (List.mem_singleton.mpr rfl)), e.symm, rfl, rfl⟩
      · exact .inl (mem_settleFences hc _ (nodup_completeCmd hn _) (List.mem_filter.mpr ⟨hm, by simpa using e⟩))
    · exact .inr (hd.mono hfin)

theorem preserves_finish_finished (c : Cmd) (st d id status detail : Nat) (u : Option Nat) :
    Preserves (fun s => HasFinished s c st d) (finish id status detail u) := fun s h => h.mono (finish_finished id status detail u s)

/-! ### Holds -/

/-- A hold of one reason stays among holds that were there before. -/
def HoldStays (h : Nat × Nat) (l : List (Nat × Nat)) (s : State) : Prop := h ∈ s.fw.holds ∧ s.fw.holds ⊆ l

theorem fw_releaseHold (n : Nat) (s : State) : ((releaseHold n).run s).fw = { s.fw with holds := s.fw.holds.filter (·.2 != n) } := by
  unfold releaseHold
  rw [run_look]
  dsimp only
  rw [run_seq, run_modFw, apply_fw, Only.fw (K := [.reg]) (only_forEach fun _ => only_wr)]

theorem preserves_releaseHold_other {h : Nat × Nat} {l : List (Nat × Nat)} {n : Nat} (hn : h.2 ≠ n) : Preserves (HoldStays h l) (releaseHold n) := by
  rintro s ⟨hm, hl⟩
  unfold HoldStays
  rw [fw_releaseHold]
  exact ⟨List.mem_filter.mpr ⟨hm, by simpa using hn⟩, fun x hx => hl (List.mem_filter.mp hx).1⟩

/-- The end of a hold sets ARM on a piste that is held for no other reason (R336). -/
theorem arm_releaseHold {h : Nat × Nat} {s : State} (hm : h ∈ s.fw.holds) (hp : h.1 < 64) (hone : ∀ k ∈ s.fw.holds, k.1 = h.1 → k.2 = h.2) :
    rd ((releaseHold h.2).run s) (.pst h.1) Reg.PST.RUN_CTRL_ARM = 1 := by
  have harm : plain (.pst h.1) Reg.PST.RUN_CTRL_ARM = true := plain_pst hp
  unfold releaseHold
  rw [run_look]
  dsimp only
  rw [run_seq, rd_congr (only_modFw (K := [.fw])).regs _ _ _ harm]
  have hin : h ∈ s.fw.holds.filter fun k => k.2 == h.2 && (s.fw.holds.filter (·.2 != h.2)).all (·.1 != k.1) := by
    refine List.mem_filter.mpr ⟨hm, ?_⟩
    simp only [beq_self_eq_true, Bool.true_and, List.all_eq_true, List.mem_filter, bne_iff_ne, ne_eq, and_imp]
    exact fun k hk hne e => hne (hone k hk e)
  obtain ⟨a, b, hab⟩ := List.append_of_mem hin
  rw [hab, run_forEach_append, run_forEach_cons]
  refine run_forEach_inv (fun t => rd t (.pst h.1) Reg.PST.RUN_CTRL_ARM = 1) (fun k _ t ht => ?_) _ (rd_wr_same _ _ _ _ _ harm)
  by_cases e : k.1 = h.1
  · rw [e]
    exact rd_wr_same _ _ _ _ _ harm
  · exact ((writes_wr (A := fun a => a = fldAddr (.pst k.1) Reg.PST.RUN_CTRL_ARM 0) rfl).rd
      (by simp only [fldAddr, pageBase, Reg.PST.RUN_CTRL_ARM]; omega) harm t).trans ht

/-! ### Maps written -/

theorem only_writeMap {K : List Kind} {p slot : Nat} {image : List Byte} (h : Kind.reg ∈ K := by decide) (h' : Kind.bytes .mapMem ∈ K := by decide) :
    Only K (writeMap p slot image) := only_look fun _ => ⟨only_forEach fun _ => only_wr h, only_prim h', only_wr h, trivial⟩

theorem leNat_lt (l : List Byte) : leNat l < 2 ^ (8 * l.length) := by
  induction l with
  | nil => exact Nat.one_pos
  | cons b r ih =>
    have hb : b.toNat < 256 := b.isLt
    rw [List.length_cons, show 8 * (r.length + 1) = 8 * r.length + 8 by ring, pow_add]
    show b.toNat + 256 * leNat r < _
    omega

/-- A number of four bytes of a list has 32 bits. -/
theorem leAt_lt (l : List Byte) (off : Nat) : leAt l off 4 < 2 ^ 32 := by
  refine (leNat_lt _).trans_le (Nat.pow_le_pow_right (by decide) ?_)
  have : ((l.drop off).take 4).length ≤ 4 := List.length_take_le _ _
  omega

/-- A map written names its slot. -/
theorem rd_writeMap {p slot : Nat} (hp : p < 64) (hslot : slot < 4) (image : List Byte) (s : State) :
    rd ((writeMap p slot image).run s) (.pst p) Reg.PST.SLOT_ID slot = leAt image 12 4 := by
  have hplain : plain (.pst p) Reg.PST.SLOT_ID slot = true := plain_pst hp (by interval_cases slot <;> decide)
  unfold writeMap
  rw [run_look]
  dsimp only
  rw [run_progs_cons, run_progs_cons, run_progs_cons, run_progs_nil, rd_wr_same _ _ _ _ _ hplain]
  exact Nat.mod_eq_of_lt (leAt_lt image 12)

/-! ### The fallback -/

theorem fallbackItem_lt {s : State} {f base a : Nat} {x : Nat × Nat × List Byte} (h : fallbackItem s f base a = some x) : x.1 < 64 ∧ x.2.1 < 4 := by
  unfold fallbackItem at h
  dsimp only at h
  split at h
  · simp at h
  · next hc =>
    split at h
    · simp at h
    · split at h
      · obtain rfl := Option.some.inj h
        simp only [not_or, not_le] at hc
        exact ⟨hc.2.2.2.1, hc.2.2.2.2.1⟩
      · simp at h

/-- The items of a list of which none fails. -/
theorem foldr_items {l : List (Option (Nat × Nat × List Byte))} {m : List (Nat × Nat × List Byte)}
    (h : l.foldr (fun x l => match x, l with | some y, some r => some (y :: r) | _, _ => none) (some []) = some m) : ∀ x ∈ m, some x ∈ l := by
  induction l generalizing m with
  | nil =>
    obtain rfl := Option.some.inj h
    simp
  | cons y r ih =>
    rw [List.foldr_cons] at h
    split at h
    · next z n hz hn =>
      obtain rfl := Option.some.inj h
      intro x hx
      rcases List.mem_cons.mp hx with rfl | hx
      · simp
      · exact List.mem_cons_of_mem _ (ih hn x hx)
    · simp at h

theorem fallbackItems_lt {s : State} {f : Nat} {l : List (Nat × Nat × List Byte)} (h : fallbackItems s f = some l) : ∀ x ∈ l, x.1 < 64 ∧ x.2.1 < 4 := by
  unfold fallbackItems at h
  dsimp only at h
  split at h
  · simp at h
  · intro x hx
    obtain ⟨i, -, hi⟩ := List.mem_map.mp (foldr_items h x hx)
    exact fallbackItem_lt hi

theorem only_loadFallback {f : Nat} : Only [.reg, .bytes .mapMem, .recs, .fw] (loadFallback f) := by
  refine only_look fun s => only_whenP ?_
  split
  · exact ⟨only_forEach fun _ => only_writeMap, only_raise, only_logOwn, trivial⟩
  · exact ⟨only_modFw, only_raise⟩

theorem keeps_holds_loadFallback (f : Nat) : Keeps (fun s => s.fw.holds) (loadFallback f) := by
  have hfw {K : List Kind} {p : Prog} (h : Only K p) (hk : Kind.fw ∉ K := by decide) : Keeps (fun s => s.fw.holds) p :=
    fun s => congrArg (·.holds) (h.fw hk (s := s))
  refine keeps_look _ fun s => keeps_whenP _ _ ?_
  split
  · exact hfw (K := [.reg, .bytes .mapMem, .recs]) ⟨only_forEach fun _ => only_writeMap, only_raise, only_logOwn, trivial⟩
  · exact keeps_seq _ (fun _ => rfl) (hfw (K := [.reg, .recs]) only_raise)

/-- The fallback's images are loaded, all of them or none, and its record waits (R337). -/
theorem run_loadFallback {s : State} {f : Nat} (hv : rd s (.mod 3) Reg.MOD3.FALLBACK_CTRL_VALID = 1) (hl : (fencedList s).length = 1) :
    (fallbackItems s f = none → HasRecord ((loadFallback f).run s) 852 Code.FALLBACK_FAIL ∧ ((loadFallback f).run s).fw.fallbackFailed = true) ∧
    (fallbackItems s f ≠ none → HasRecord ((loadFallback f).run s) 852 Code.FALLBACK) ∧
    ∀ l x, fallbackItems s f = some (l ++ [x]) → rd ((loadFallback f).run s) (.pst x.1) Reg.PST.SLOT_ID x.2.1 = leAt x.2.2 12 4 := by
  have hlog : Keeps (fun s => srcQueue s 852) logOwn := keeps_srcQueue_modRecs 852 fun _ => rfl
  unfold loadFallback
  rw [run_look, hv, hl, show ((1 : Nat) == 1 && decide ((1 : Nat) = 1)) = true from rfl, run_whenP_true]
  refine ⟨fun hn => ?_, fun hn => ?_, fun l x hx => ?_⟩
  · rw [hn]
    dsimp only
    rw [run_seq]
    exact ⟨hasRecord_raise _ _ _ _ _ _ _, by rw [Only.fw (K := [.reg, .recs]) only_raise, run_modFw, apply_fw]⟩
  · obtain ⟨l, hsome⟩ := Option.ne_none_iff_exists'.mp hn
    rw [hsome]
    dsimp only
    rw [run_progs_cons, run_progs_cons, run_progs_cons, run_progs_nil]
    generalize (forEach l _).run s = u
    exact (hasRecord_raise _ _ _ _ _ _ u).of_srcQueue (hlog _)
  · obtain ⟨hp, hslot⟩ := fallbackItems_lt hx x (by simp)
    have hplain : plain (.pst x.1) Reg.PST.SLOT_ID x.2.1 = true := plain_pst hp (by interval_cases x.2.1 <;> decide)
    rw [hx]
    dsimp only
    rw [run_progs_cons, run_progs_cons, run_progs_cons, run_progs_nil, run_forEach_append, run_forEach_cons, run_forEach_nil,
      rd_congr (Only.regs (K := [.recs]) only_logOwn) _ _ _ hplain,
      (writes_raise _ _ _ _ _ _).rd (by simp only [recordWords, fldAddr, pageBase, Reg.PST.SLOT_ID]; omega) hplain, rd_writeMap hp hslot]

/-- What the clearing of a fenced piste's queue does to one run (R336 step 5). -/
def clearStep (f : Nat) (s : State) (r : RunRec) : Prog :=
  if r.mask = 2 ^ f ∨ fenceStops s r.mask = true then endEarly r Code.PISTE_FENCED (768 + f) none
  else .seq (modRun r.id fun x => { x with mask := putBits x.mask f 1 0, left := putBits x.left f 1 0, atBoundary := putBits x.atBoundary f 1 0 })
    (fixEpoch r.id)

theorem run_clearQueued (f : Nat) (s : State) : (clearQueued f).run s =
    (forEach (s.runs.runs.filter fun r => (!r.started || r.left == 0) && bit r.mask f) (clearStep f s)).run s := rfl

theorem only_clearQueued {f : Nat} : Only (.layout :: endK) (clearQueued f) :=
  only_look fun s => only_forEach fun r => only_ite (only_endEarly_failed (by decide)) ⟨only_modRun, only_fixEpoch⟩

theorem writes_clearQueued (f : Nat) : Writes endWords (clearQueued f) :=
  writes_look fun s => writes_forEach fun r _ => writes_ite (fun _ => writes_endEarly (by decide) _ _) fun _ =>
    Only.writes (K := [.runs]) ⟨only_modRun, only_fixEpoch⟩

theorem only_dropRun {K : List Kind} {id : Nat} (h : Kind.runs ∈ K := by decide) : Only K (dropRun id) := only_modRuns h

/-- A property of the commands is left by what changes none of them. -/
theorem preserves_host_act {K : List Kind} (hk : Kind.host ∉ K) (I : HostSt → Prop) (a : Act) (t : State) (ha : a.kind ∈ K) (hI : I t.host) :
    I (a.apply t).host := by
  have : (a.apply t).host = t.host := by
    rw [apply_host]
    cases a <;> first | rfl | exact absurd ha hk
  rwa [this]

/-- What completions with the status of a fence leave of the commands, the clearing of a queue leaves. -/
theorem preserves_clearStep {f : Nat} {I : HostSt → Prop}
    (hfin : ∀ id, Preserves (fun s => I s.host) (finish id Code.PISTE_FENCED (failDetail (768 + f) noLeg))) (s : State) (r : RunRec) :
    Preserves (fun s => I s.host) (clearStep f s r) := by
  unfold clearStep
  split
  · exact preserves_endEarly (by decide) (preserves_host_act (by decide) I) hfin (fun n => only_releaseHold.preserves (preserves_host_act (by decide) I)) r
  · exact Only.preserves (K := [.runs]) ⟨only_modRun, only_fixEpoch⟩ (preserves_host_act (by decide) I)

/-- A run that ends before it starts completes its command. -/
theorem hasFinished_endEarly {r : RunRec} (hrel : r.relayout = false) (hheld : r.held = none) {c : Cmd} (hcmd : r.cmd = some c.id) {status island : Nat}
    {v : State} (hw : StillWaits c status (failDetail island noLeg) v) :
    HasFinished ((endEarly r status island none).run v) c status (failDetail island noLeg) := by
  unfold endEarly runOver
  rw [hrel, if_neg (by simp), hheld, hcmd, run_seq, run_seq]
  dsimp only
  rw [run_seq]
  generalize hz : (dropRun r.id).run _ = z
  have hzh : z.host = v.host := by
    rw [← hz, Only.host (K := [.runs]) only_dropRun]
    exact Only.host (K := [.piste, .reg]) (only_look fun _ => only_forEach fun _ => ⟨only_modPiste, only_wr⟩)
  unfold finishOpt
  have hend : HasFinished ((finish c.id status (failDetail island noLeg)).run z) c status (failDetail island noLeg) := by
    rcases hw.2 with h | h
    · exact hasFinished_finish ⟨c, by rw [hzh]; exact h, rfl⟩ _ _ _
    · exact (h.mono (t := z) (by rw [hzh]; exact fun _ h => h)).mono (finish_finished _ _ _ _ z)
  dsimp only
  generalize (finish c.id status (failDetail island noLeg)).run z = y at hend
  exact hend.mono (by rw [only_releaseHold.host]; exact fun _ h => h)

/-- A queued run that names the fenced piste alone, of a command that is no fence, completes with PISTE_FENCED (R336 step 5). -/
theorem hasFinished_clearQueued {f : Nat} {s : State} {r : RunRec} (hr : r ∈ s.runs.runs) (hstart : r.started = false) (hmask : r.mask = 2 ^ f)
    (hrel : r.relayout = false) (hheld : r.held = none) {c : Cmd} (hcmd : r.cmd = some c.id) (hm : c ∈ s.host.accepted)
    (hn : (s.host.accepted.map (·.id)).Nodup) (hc : ∀ k, c.body ≠ some (.fence k)) :
    HasFinished ((clearQueued f).run s) c Code.PISTE_FENCED (failDetail (768 + f) noLeg) := by
  have hin : r ∈ s.runs.runs.filter fun r => (!r.started || r.left == 0) && bit r.mask f := by
    refine List.mem_filter.mpr ⟨hr, ?_⟩
    rw [hstart, hmask, bit_eq_testBit, Nat.testBit_two_pow_self]
    rfl
  rw [run_clearQueued]
  obtain ⟨a, b, hab⟩ := List.append_of_mem hin
  rw [hab, run_forEach_append, run_forEach_cons]
  have hlast : Preserves (fun t => HasFinished t c Code.PISTE_FENCED (failDetail (768 + f) noLeg)) (forEach b (clearStep f s)) :=
    preserves_forEach fun x _ => preserves_clearStep (I := fun h => ∃ d ∈ h.finished, d.cmd.id = c.id ∧ d.status = Code.PISTE_FENCED ∧
      d.detail = failDetail (768 + f) noLeg) (fun id => preserves_finish_finished c _ _ id _ _ none) s x
  have hfirst : Preserves (StillWaits c Code.PISTE_FENCED (failDetail (768 + f) noLeg)) (forEach a (clearStep f s)) :=
    preserves_forEach fun x _ => preserves_clearStep (I := fun h : HostSt => (h.accepted.map (fun d : Cmd => d.id)).Nodup ∧
      (c ∈ h.accepted ∨ ∃ d ∈ h.finished, d.cmd.id = c.id ∧ d.status = Code.PISTE_FENCED ∧ d.detail = failDetail (768 + f) noLeg))
      (fun id => preserves_finish_waits hc id _ _ none) s x
  have hw := hfirst s ⟨hn, .inl hm⟩
  generalize (forEach a (clearStep f s)).run s = v at hw
  refine hlast _ ?_
  unfold clearStep
  rw [if_pos (.inl hmask)]
  exact hasFinished_endEarly hrel hheld hcmd hw

end Sys2Proof.Machine
end

section
/-! The steps of the fallback in turn (R336), and the settlement of O55. -/

namespace Sys2Proof.Machine

open Sys2Proof

set_option Elab.async false

/-- Steps 5 and 6 of the fallback: the queue, firmware's log, and the end of the hold where no other fence waits. -/
def fallbackRest (f : Nat) (rest : List Nat) (cause : Nat) : Prog :=
  progs [clearQueued f, modFw (fun x => { x with fencing := rest, repairLog := x.repairLog ++ [(1, f * 256 + cause)] }), logOwn,
    whenP rest.isEmpty (releaseHold holdFence)]

theorem run_fallback {s : State} {f : Nat} {rest : List Nat} (hf : s.fw.fencing = f :: rest) (hfw : fwRuns s = true) (hph : s.sec.phase = .ready)
    (hall : (unfenced s).all (idlePiste s) = true) :
    exec .fallback s = .next ((fallbackRest f rest (rd s (.pst f) Reg.PST.RUN_CTRL_FENCE_CAUSE)).run ((loadFallback f).run s)) := by
  show done progFallback s = _
  rw [done_eq]
  unfold progFallback
  rw [run_look, hf]
  dsimp only
  rw [hfw, hph, hall, show (true && (Phase.ready == Phase.ready) && true) = true from rfl, run_whenP_true, run_progs_cons]
  rfl

theorem run_fallbackRest (f : Nat) (rest : List Nat) (cause : Nat) (s : State) : (fallbackRest f rest cause).run s =
    (whenP rest.isEmpty (releaseHold holdFence)).run (logOwn.run
      ((modFw fun x => { x with fencing := rest, repairLog := x.repairLog ++ [(1, f * 256 + cause)] }).run ((clearQueued f).run s))) := by
  unfold fallbackRest
  rw [run_progs_cons, run_progs_cons, run_progs_cons, run_progs_cons, run_progs_nil]

theorem only_fallbackRest {f : Nat} {rest : List Nat} {cause : Nat} : Only (.recs :: .layout :: endK) (fallbackRest f rest cause) :=
  ⟨only_clearQueued.mono (by decide), only_modFw, only_logOwn, only_whenP (only_releaseHold.mono (by decide)), trivial⟩

theorem writes_fallbackRest (f : Nat) (rest : List Nat) (cause : Nat) : Writes endWords (fallbackRest f rest cause) :=
  writes_cons (writes_clearQueued f) (writes_cons (only_modFw (K := [.fw])).writes (writes_cons (Only.writes (K := [.recs]) only_logOwn)
    (writes_cons (writes_whenP fun _ => writes_releaseHold _) writes_nil)))

/-- The last steps leave the records that wait. -/
theorem srcQueue_fallbackRest (f : Nat) (rest : List Nat) (cause island : Nat) : Keeps (fun s => srcQueue s island) (fallbackRest f rest cause) :=
  keeps_cons _ (only_clearQueued.srcQueue island) (keeps_cons _ ((only_modFw (K := [.fw])).srcQueue island)
    (keeps_cons _ (keeps_srcQueue_modRecs island fun _ => rfl) (keeps_cons _ (keeps_whenP _ _ (only_releaseHold.srcQueue island)) (keeps_nil _))))

theorem fw_endOfHold (b : Bool) (n : Nat) (s : State) : ((whenP b (releaseHold n)).run s).fw = { s.fw with holds := ((whenP b (releaseHold n)).run s).fw.holds } := by
  cases b
  · rfl
  · rw [run_whenP_true, fw_releaseHold]

/-- What the last steps leave of firmware's state: no fence of `f` waits, its repair is in the log, and a failed fallback stays known. -/
theorem fw_fallbackRest (f : Nat) (rest : List Nat) (cause : Nat) (s : State) :
    ((fallbackRest f rest cause).run s).fw.fencing = rest ∧ (1, f * 256 + cause) ∈ ((fallbackRest f rest cause).run s).fw.repairLog ∧
    (s.fw.fallbackFailed = true → ((fallbackRest f rest cause).run s).fw.fallbackFailed = true) := by
  have hclear : s.fw.fallbackFailed = true → ((clearQueued f).run s).fw.fallbackFailed = true := by
    refine preserves_clearQueued (I := fun s => s.fw.fallbackFailed = true) (fun a t ha h => ?_) (fun id t h => ?_) (fun n t h => ?_) s
    · have : (a.apply t).fw = t.fw := by
        rw [apply_fw]
        cases a <;> first | rfl | simp [Act.kind] at ha
      rwa [this]
    · show ((finish _ _ _ _).run t).fw.fallbackFailed = true
      rwa [(only_finish (K := [.host])).fw]
    · show ((releaseHold _).run t).fw.fallbackFailed = true
      rwa [fw_releaseHold]
  have hlog : Only [.recs] logOwn := only_logOwn
  rw [run_fallbackRest, fw_endOfHold, hlog.fw, run_modFw, apply_fw]
  exact ⟨rfl, List.mem_append_right _ (List.mem_singleton.mpr rfl), hclear⟩

/-- A command that has completed with the queue stays so. -/
theorem finished_fallbackRest {f : Nat} {rest : List Nat} {cause : Nat} {s : State} {c : Cmd} {status detail : Nat}
    (h : HasFinished ((clearQueued f).run s) c status detail) : HasFinished ((fallbackRest f rest cause).run s) c status detail := by
  have hlog : Only [.recs] logOwn := only_logOwn
  have hrel : Only [.reg, .fw] (whenP rest.isEmpty (releaseHold holdFence)) := only_whenP only_releaseHold
  rw [run_fallbackRest]
  refine h.mono ?_
  rw [hrel.host, hlog.host, (only_modFw (K := [.fw])).host]
  exact fun _ h => h

/-- The hold of the fence ends with ARM 1 on a piste that firmware holds for nothing else. -/
theorem arm_fallbackRest {f : Nat} {cause : Nat} {s : State} {h : Nat × Nat} (hm : h ∈ s.fw.holds) (hp : h.1 < 64) (h1 : h.2 = holdFence)
    (hone : ∀ k ∈ s.fw.holds, k.1 = h.1 → k.2 = holdFence) : rd ((fallbackRest f [] cause).run s) (.pst h.1) Reg.PST.RUN_CTRL_ARM = 1 := by
  have hstay : HoldStays h s.fw.holds ((clearQueued f).run s) := by
    refine preserves_clearQueued (fun a t ha hI => ?_) (fun id t hI => ?_) (fun n => preserves_releaseHold_other ?_) s ⟨hm, fun _ h => h⟩
    · have : (a.apply t).fw = t.fw := by
        rw [apply_fw]
        cases a <;> first | rfl | simp [Act.kind] at ha
      unfold HoldStays at hI ⊢
      rwa [this]
    · unfold HoldStays at hI ⊢
      rwa [(only_finish (K := [.host])).fw]
    · rw [h1]
      unfold holdFence holdReplay
      omega
  have hlog : Only [.recs] logOwn := only_logOwn
  rw [run_fallbackRest]
  generalize hu : logOwn.run _ = u
  have huh : u.fw.holds = ((clearQueued f).run s).fw.holds := by rw [← hu, hlog.fw, run_modFw, apply_fw]
  show rd ((releaseHold holdFence).run u) _ _ = 1
  rw [← h1]
  exact arm_releaseHold (by rw [huh]; exact hstay.1) hp fun k hk e => by rw [h1]; exact hone k (hstay.2 (huh ▸ hk)) e

/-- Settles O55: the shard's reads by the law of a leg that executes, the sweep by the law of its checks, and the fallback step by step. -/
theorem shardsSweepsFallbacks : Obligations.ShardsSweepsFallbacks := by
  unfold Obligations.ShardsSweepsFallbacks
  intro s
  refine ⟨fun p e h => ⟨gatherShard_fresh h, gatherShard_stale h⟩, fun p g => ⟨exec_sweepDeferred p g s, fun c k more hc hk => ?_⟩,
    fun f rest hf hfw hph hall => ?_⟩
  · intro marked differs open_
    have hrec : Only [.reg, .recs] (raise Code.SWEEP_UNRESOLVED 852 c.iter noLeg 0 []) := only_raise
    have hlone (r : SweepResult) (hr : (r != .deferred) = true)
        (hv : sweepVerdict p c k more r = sweepDiffers c (raise Code.SWEEP_UNRESOLVED 852 c.iter noLeg 0 [])) : open_ r :=
      ⟨_, exec_sweepCheck hc hk hr, by rw [hv]; exact sweep_differs hrec (writes_raise _ _ _ _ _ _) sweepFree_record c _ s,
        by rw [hv]; exact sweep_unresolved c _ s⟩
    have hfence (r : SweepResult) (q : Nat) (hq : q < 64) (hr : (r != .deferred) = true) (hv : sweepVerdict p c k more r = sweepFence c k q) :
        ∃ t, exec (.sweepCheck p g r) s = .next t ∧ differs t ∧ HasRecord t 852 Code.SWEEP_MISMATCH ∧ marked t q := by
      refine ⟨_, exec_sweepCheck hc hk hr, ?_⟩
      rw [hv]
      exact ⟨sweep_differs (A := markWords q) (only_seq only_raise only_fenceCause) (writes_seq ((writes_raise _ _ _ _ _ _).mono fun _ => .inr) (writes_fenceCause q 8))
        (sweepFree_mark q) c _ s, sweep_fences c k _ hq s⟩
    refine ⟨⟨_, exec_sweepCheck hc hk (by decide), sweep_agrees c _ s⟩, fun hm => ?_, fun hm => ?_, hlone .unresolved (by decide) rfl⟩
    · have hne : ¬ more.isEmpty = true := by simpa using hm
      exact ⟨hfence .targetMinority p p.isLt (by decide) (if_neg hne), hfence .checkerMinority k (checkersOf_lt hk) (by decide) (if_neg hne)⟩
    · exact ⟨hlone .targetMinority (by decide) (if_pos (by rw [hm]; rfl)), hlone .checkerMinority (by decide) (if_pos (by rw [hm]; rfl))⟩
  · obtain ⟨hfencing, hlogged, hfailed⟩ := fw_fallbackRest f rest (rd s (.pst f) Reg.PST.RUN_CTRL_FENCE_CAUSE) ((loadFallback f).run s)
    have hload : Only [.reg, .bytes .mapMem, .recs, .fw] (loadFallback f) := only_loadFallback
    have hholds : ((loadFallback f).run s).fw.holds = s.fw.holds := keeps_holds_loadFallback f s
    refine ⟨_, run_fallback hf hfw hph hall, hfencing, hlogged, fun hv hl => ?_, ?_, ?_, ?_⟩
    · obtain ⟨hnone, hsome, hslot⟩ := run_loadFallback (f := f) hv hl
      refine ⟨fun hn => ⟨(hnone hn).1.of_srcQueue (srcQueue_fallbackRest _ _ _ _ _), hfailed (hnone hn).2⟩,
        fun hn => (hsome hn).of_srcQueue (srcQueue_fallbackRest _ _ _ _ _), fun l x hx => ?_⟩
      obtain ⟨hp, hs⟩ := fallbackItems_lt hx x (by simp)
      refine ((writes_fallbackRest _ _ _).rd ?_ (plain_pst hp (by interval_cases x.2.1 <;> decide)) _).trans (hslot l x hx)
      simp only [endWords, fldAddr, pageBase, Reg.PST.SLOT_ID]
      omega
    · intro hn r hr hstart hmask hf64 hrel hheld id c hcmd hfind hc
      obtain ⟨hm, rfl⟩ := findCmd_id hfind
      refine finished_fallbackRest (hasFinished_clearQueued (by rw [hload.runs]; exact hr) hstart hmask hrel hheld hcmd (by rw [hload.host]; exact hm)
        (by rw [hload.host]; exact hn) hc)
    · rintro rfl h hm hp h1 hone
      exact arm_fallbackRest (by rw [hholds]; exact hm) hp h1 (by rw [hholds]; exact hone)
    · exact (only_fallbackRest.counts).trans hload.counts

end Sys2Proof.Machine
end

section
/-! What boundary actions and the actions of idle pistes leave alone (R51, R97, R328), and the pages whose words no command shows in. -/

namespace Sys2Proof.Machine

open Sys2Proof

set_option Elab.async false

/-! ### Words that do not depend on the commands -/

/-- Addresses from the pistes' pages on are no ring's. -/
theorem pageAt_high {a : Nat} (h : 0x1000000 ≤ a) (r : Nat) : pageAt a ≠ some (.ring r) := by
  unfold pageAt
  have hf : 0x1000 ≤ a / 4096 := by omega
  generalize a / 4096 = f at hf
  dsimp only
  split
  · unfold pisteFrame
    split
    · simp
    · split
      · simp
      · split <;> simp
  · split
    · simp
    · rw [if_neg (by omega), pageRow_none _ _ _ _ _ (by omega), pageRow_none _ _ _ _ _ (by omega), pageRow_none _ _ _ _ _ (by omega),
        pageRow_none _ _ _ _ _ (by omega), pageRow_none _ _ _ _ _ (by omega), pageRow_none _ _ _ _ _ (by omega), pageRow_none _ _ _ _ _ (by omega),
        pageRow_none _ _ _ _ _ (by omega)]
      simp

theorem offline_host (s : State) (h : HostSt) (pg : Page) : offline { s with host := h } pg = offline s pg := by cases pg <;> rfl

/-- Every field of a piste's page reads the same whatever the commands are. -/
theorem rd_pst_host (s : State) (h : HostSt) (p : Nat) (f : Fld) (i : Nat) : rd { s with host := h } (.pst p) f i = rd s (.pst p) f i := by
  have ha : 0x1000000 ≤ fldAddr (.pst p) f i := by
    simp only [fldAddr, pageBase]
    omega
  unfold rd wordAt
  generalize fldAddr (.pst p) f i = a at ha
  have hr := pageAt_high ha
  cases hpg : pageAt a with
  | none => rfl
  | some pg =>
    dsimp only
    split
    · unfold viewCommon
      rw [offline_host]
      rfl
    · unfold viewWord
      rw [hpg]
      cases pg with
      | ring r => exact absurd hpg (hr r)
      | pst q =>
        dsimp only
        rw [offline_host]
        rfl
      | mod k => rcases k with _ | _ | _ | k <;> rfl
      | sec k => rcases k with _ | k <;> rfl
      | _ => rfl

/-! ### Boundary actions -/

/-- The words that the boundary actions of a piste may write: of its own pages and the ones behind them (a repair may name any gate), and of the
module's own pages. -/
def boundaryWords (p a : Nat) : Prop := a < 0x10000 ∨ 0x1000000 + 0x40000 * p ≤ a

theorem boundaryWords_gate (p g : Nat) (f : Fld) (i : Nat) : boundaryWords p (fldAddr (.gate p g) f i) := by
  simp only [boundaryWords, fldAddr, pageBase]
  omega

theorem boundaryWords_pst (p : Nat) (f : Fld) (i : Nat) : boundaryWords p (fldAddr (.pst p) f i) := by
  simp only [boundaryWords, fldAddr, pageBase]
  omega

/-- The kinds of change that boundary actions make. -/
def boundaryK : List Kind := [.piste, .reg, .fw, .recs, .bytes .mapMem, .host, .units]

theorem only_mapSpare {K : List Kind} {p g arr j col : Nat} (h : Kind.reg ∈ K := by decide) : Only K (mapSpare p g arr j col) :=
  only_look fun _ => ⟨only_wr h, only_wr h, only_wr h, trivial⟩

theorem only_takeRepairs {p : Nat} : Only [.piste, .reg, .fw, .recs] (takeRepairs p) :=
  only_look fun _ => ⟨only_modPiste, only_forEach fun _ => ⟨only_mapSpare, only_modFw, only_logOwn, trivial⟩⟩

theorem only_takeRegions {p : Nat} : Only [.piste, .reg] (takeRegions p) := only_look fun _ => ⟨only_modPiste, only_wr⟩

theorem only_loadDone {K : List Kind} {cmd : Option Nat} (h : Kind.host ∈ K := by decide) : Only K (loadDone cmd) :=
  only_look fun _ => only_whenP (only_finishOpt h)

theorem only_takeLoads (p n : Nat) : Only [.piste, .reg, .bytes .mapMem, .host] (takeLoads p n) := by
  induction n with
  | zero => exact only_skip
  | succ n ih =>
    refine only_look fun s => ?_
    split
    · exact only_skip
    · exact only_whenP ⟨only_writeMap, only_modPiste, only_loadDone, ih, trivial⟩

theorem only_takeWeights {p : Nat} : Only [.piste] (takeWeights p) := only_look fun _ => only_forEach fun _ => only_modPiste

theorem only_boundaryActions {p : Nat} : Only boundaryK (boundaryActions p) :=
  ⟨only_takeRepairs.mono (by decide), only_takeRegions.mono (by decide), (only_takeLoads p 64).mono (by decide), only_takeWeights.mono (by decide),
    only_takeEpoch, trivial⟩

theorem writes_takeRepairs (p : Nat) : Writes (boundaryWords p) (takeRepairs p) :=
  writes_look fun _ => writes_seq (only_modPiste (K := [.piste])).writes (writes_forEach fun r _ => writes_cons
    (writes_look fun _ => writes_cons (writes_wr (boundaryWords_gate p _ _ _)) (writes_cons (writes_wr (boundaryWords_gate p _ _ _))
      (writes_cons (writes_wr (boundaryWords_gate p _ _ _)) writes_nil)))
    (writes_cons (only_modFw (K := [.fw])).writes (writes_cons (Only.writes (K := [.recs]) only_logOwn) writes_nil)))

theorem writes_writeMap (p slot : Nat) (image : List Byte) : Writes (boundaryWords p) (writeMap p slot image) :=
  writes_look fun _ => writes_cons (writes_forEach fun _ _ => writes_wr (boundaryWords_pst p _ _))
    (writes_cons (Only.writes (K := [.bytes .mapMem]) (only_prim (List.mem_singleton.mpr rfl))) (writes_cons (writes_wr (boundaryWords_pst p _ _)) writes_nil))

theorem writes_takeLoads (p n : Nat) : Writes (boundaryWords p) (takeLoads p n) := by
  induction n with
  | zero => exact writes_skip
  | succ n ih =>
    refine writes_look fun s => ?_
    split
    · exact writes_skip
    · exact writes_whenP fun _ => writes_cons (writes_writeMap p _ _) (writes_cons (only_modPiste (K := [.piste])).writes
        (writes_cons (only_loadDone (K := [.host])).writes (writes_cons ih writes_nil)))

theorem boundaryWords_epoch {p a : Nat} (h : epochWords p a) : boundaryWords p a := by
  simp only [epochWords, pisteWords] at h
  simp only [boundaryWords]
  omega

theorem writes_boundaryActions (p : Nat) : Writes (boundaryWords p) (boundaryActions p) :=
  writes_cons (writes_takeRepairs p) (writes_cons (writes_look fun _ => writes_seq (only_modPiste (K := [.piste])).writes (writes_wr (boundaryWords_pst p _ _)))
    (writes_cons (writes_takeLoads p 64) (writes_cons only_takeWeights.writes (writes_cons ((writes_takeEpoch p).mono fun _ => boundaryWords_epoch) writes_nil))))

/-! ### Pistes -/

theorem keeps_piste_only {K : List Kind} {p : Prog} (h : Only K p) (q : Nat) (hk : Kind.piste ∉ K := by decide) : Keeps (fun s => pisteOf s q) p :=
  fun s => h.pisteOf s q hk

theorem keeps_takeLoads {p q : Nat} (h : q ≠ p) (n : Nat) : Keeps (fun s => pisteOf s q) (takeLoads p n) := by
  induction n with
  | zero => exact keeps_skip _
  | succ n ih =>
    refine keeps_look _ fun s => ?_
    split
    · exact keeps_skip _
    · exact keeps_whenP _ _ (keeps_cons _ (keeps_piste_only (K := [.reg, .bytes .mapMem]) only_writeMap q) (keeps_cons _ (keeps_modPiste h _)
        (keeps_cons _ (keeps_piste_only (K := [.host]) only_loadDone q) (keeps_cons _ ih (keeps_nil _)))))

/-- The boundary actions of a piste leave every other piste. -/
theorem keeps_boundaryActions {p q : Nat} (h : q ≠ p) : Keeps (fun s => pisteOf s q) (boundaryActions p) :=
  keeps_cons _ (keeps_look _ fun _ => keeps_seq _ (keeps_modPiste h _) (keeps_piste_only (K := [.reg, .fw, .recs])
      (only_forEach fun _ => only_cons only_mapSpare (only_cons only_modFw (only_cons only_logOwn only_nil))) q))
    (keeps_cons _ (keeps_look _ fun _ => keeps_seq _ (keeps_modPiste h _) (keeps_piste_only (K := [.reg]) only_wr q))
      (keeps_cons _ (keeps_takeLoads h 64) (keeps_cons _ (keeps_look _ fun _ => keeps_forEach _ _ _ fun _ _ => keeps_modPiste h _)
        (keeps_cons _ (keeps_takeEpoch h) (keeps_nil _)))))

/-- A change of a piste that leaves its pending loads. -/
theorem keeps_loads_modPiste (p : Nat) {f : PisteSt → PisteSt} (hf : ∀ x, (f x).loads = x.loads) : Keeps (fun s => (pisteOf s p).loads) (modPiste p f) :=
  fun s => by
    show (pisteOf ((modPiste p f).run s) p).loads = _
    rw [run_modPiste, pisteOf_apply_piste, if_pos rfl]
    exact hf _

theorem keeps_loads_only {K : List Kind} {p : Prog} (h : Only K p) (q : Nat) (hk : Kind.piste ∉ K := by decide) :
    Keeps (fun s => (pisteOf s q).loads) p := fun s => congrArg (·.loads) (h.pisteOf s q hk)

theorem keeps_loads_takeRepairs (p : Nat) : Keeps (fun s => (pisteOf s p).loads) (takeRepairs p) :=
  keeps_look _ fun _ => keeps_seq _ (keeps_loads_modPiste p fun _ => rfl) (keeps_loads_only (K := [.reg, .fw, .recs])
    (only_forEach fun _ => only_cons only_mapSpare (only_cons only_modFw (only_cons only_logOwn only_nil))) p)

theorem keeps_loads_takeRegions (p : Nat) : Keeps (fun s => (pisteOf s p).loads) (takeRegions p) :=
  keeps_look _ fun _ => keeps_seq _ (keeps_loads_modPiste p fun _ => rfl) (keeps_loads_only (K := [.reg]) only_wr p)

theorem keeps_loads_takeWeights (p : Nat) : Keeps (fun s => (pisteOf s p).loads) (takeWeights p) :=
  keeps_look _ fun _ => keeps_forEach _ _ _ fun _ _ => keeps_loads_modPiste p fun _ => rfl

theorem keeps_loads_takeEpoch (p : Nat) : Keeps (fun s => (pisteOf s p).loads) (takeEpoch p) :=
  keeps_look _ fun _ => keeps_whenP _ _ (keeps_cons _ (keeps_loads_only (K := [.reg]) (only_forEach fun _ => only_wr) p)
    (keeps_cons _ (keeps_loads_modPiste p fun _ => rfl) (keeps_loads_only (K := [.units, .recs, .reg])
      (only_cons (only_whenP only_modUnits) (only_cons only_trace only_nil)) p)))

theorem run_takeLoads_nil {p : Nat} {s : State} (h : (pisteOf s p).loads = []) (n : Nat) : (takeLoads p n).run s = s := by
  cases n with
  | zero => rfl
  | succ n =>
    unfold takeLoads
    rw [run_look, h]
    rfl

/-- The first pending load that may be written is. -/
theorem run_takeLoads_ready {p : Nat} {s : State} {l : Load} {r : List Load} (h : (pisteOf s p).loads = l :: r) (hready : loadReady s p l = true) (n : Nat) :
    (takeLoads p (n + 1)).run s =
      (takeLoads p n).run ((loadDone l.cmd).run ((modPiste p fun x => { x with loads := r }).run ((writeMap p l.slot l.image).run s))) := by
  rw [takeLoads, run_look, h]
  dsimp only
  rw [hready, run_whenP_true, run_progs_cons, run_progs_cons, run_progs_cons, run_progs_cons, run_progs_nil]

/-- A piste with one pending load and no run writes it at its boundary. -/
theorem run_boundaryActions_load {p : Nat} (hp : p < 64) {s : State} {l : Load} (hl : (pisteOf s p).loads = [l]) (hr : s.runs.runs = []) (hslot : l.slot < 4) :
    rd ((boundaryActions p).run s) (.pst p) Reg.PST.SLOT_ID l.slot = leAt l.image 12 4 ∧ (pisteOf ((boundaryActions p).run s) p).loads = [] := by
  have hplain : plain (.pst p) Reg.PST.SLOT_ID l.slot = true := by
    generalize l.slot = k at hslot
    exact plain_pst hp (by interval_cases k <;> decide)
  unfold boundaryActions
  rw [run_progs_cons, run_progs_cons, run_progs_cons, run_progs_cons, run_progs_cons, run_progs_nil]
  generalize hu : (takeRegions p).run _ = u
  have hul : (pisteOf u p).loads = [l] := by
    rw [← hu, ← hl]
    exact (keeps_loads_takeRegions p _).trans (keeps_loads_takeRepairs p s)
  have hur : u.runs.runs = [] := by rw [← hu, only_takeRegions.runs, only_takeRepairs.runs, hr]
  have hready : loadReady u p l = true := by
    unfold loadReady
    rw [hur]
    rfl
  rw [run_takeLoads_ready (n := 63) hul hready]
  generalize hv : (loadDone l.cmd).run _ = v
  have hvl : (pisteOf v p).loads = [] := by
    rw [← hv, Only.pisteOf (K := [.host]) only_loadDone, run_modPiste, pisteOf_apply_piste, if_pos rfl]
  rw [run_takeLoads_nil hvl]
  constructor
  · rw [(writes_takeEpoch p).rd (by simp only [epochWords, pisteWords, fldAddr, pageBase, Reg.PST.SLOT_ID]; omega) hplain,
      rd_congr only_takeWeights.regs _ _ _ hplain, ← hv, rd_congr (Only.regs (K := [.host]) only_loadDone) _ _ _ hplain,
      rd_congr (Only.regs (K := [.piste]) only_modPiste) _ _ _ hplain, rd_writeMap hp hslot]
  · exact ((keeps_loads_takeEpoch p _).trans (keeps_loads_takeWeights p v)).trans hvl

/-! ### Idle pistes -/

theorem only_idleActions : Only boundaryK idleActions := only_look fun _ => ⟨only_forEach fun _ => only_boundaryActions, only_showApplied⟩

theorem run_idleActions (s : State) : idleActions.run s = showApplied.run ((forEach ((List.range 64).filter (idlePiste s)) boundaryActions).run s) := rfl

/-- A piste that is not idle is left by the actions of idle ones. -/
theorem pisteOf_idleActions {s : State} {p : Nat} (h : idlePiste s p = false) : pisteOf (idleActions.run s) p = pisteOf s p := by
  rw [run_idleActions, (only_showApplied (K := [.reg, .host])).pisteOf]
  refine keeps_forEach (fun s => pisteOf s p) _ _ (fun q hq => keeps_boundaryActions ?_) s
  rintro rfl
  rw [(List.mem_filter.mp hq).2] at h
  exact absurd h (by simp)

/-- An idle piste with one pending load and no run writes it at once. -/
theorem run_idleActions_load {s : State} {p : Nat} (hp : p < 64) (hi : idlePiste s p = true) {l : Load} (hl : (pisteOf s p).loads = [l])
    (hr : s.runs.runs = []) (hslot : l.slot < 4) :
    rd (idleActions.run s) (.pst p) Reg.PST.SLOT_ID l.slot = leAt l.image 12 4 ∧ (pisteOf (idleActions.run s) p).loads = [] := by
  have hplain : plain (.pst p) Reg.PST.SLOT_ID l.slot = true := by
    generalize l.slot = k at hslot
    exact plain_pst hp (by interval_cases k <;> decide)
  have hsorted : ((List.range 64).filter (idlePiste s)).Pairwise (· < ·) := List.pairwise_lt_range.filter _
  obtain ⟨a, b, hab⟩ := List.append_of_mem (List.mem_filter.mpr ⟨List.mem_range.mpr hp, hi⟩ : p ∈ (List.range 64).filter (idlePiste s))
  rw [hab] at hsorted
  obtain ⟨-, hb, hafter⟩ := List.pairwise_append.mp hsorted
  have hbefore : ∀ q ∈ a, p ≠ q := fun q hq => (hafter q hq p List.mem_cons_self).ne'
  have hlater : ∀ q ∈ b, p < q := (List.pairwise_cons.mp hb).1
  have hfirst : Only boundaryK (forEach a boundaryActions) := only_forEach fun _ => only_boundaryActions
  have hkept : pisteOf ((forEach a boundaryActions).run s) p = pisteOf s p :=
    keeps_forEach (fun s => pisteOf s p) _ _ (fun q hq => keeps_boundaryActions (hbefore q hq)) s
  obtain ⟨hrd, hloads⟩ := run_boundaryActions_load hp (by rw [hkept]; exact hl) (by rw [hfirst.runs]; exact hr) hslot
  have hrest : Writes (fun a => a < 0x10000 ∨ 0x1000000 + 0x40000 * (p + 1) ≤ a) (forEach b boundaryActions) :=
    writes_forEach fun q hq => (writes_boundaryActions q).mono fun a ha => by
      have := hlater q hq
      simp only [boundaryWords] at ha
      omega
  rw [run_idleActions, hab, run_forEach_append, run_forEach_cons]
  generalize (boundaryActions p).run _ = v at hrd hloads ⊢
  have hkeep : pisteOf ((forEach b boundaryActions).run v) p = pisteOf v p :=
    keeps_forEach (fun s => pisteOf s p) _ _ (fun q hq => keeps_boundaryActions (hlater q hq).ne) v
  constructor
  · rw [writes_showApplied.rd (by simp only [appliedWords, fldAddr, pageBase, Reg.PST.SLOT_ID]; omega) hplain,
      hrest.rd (by simp only [fldAddr, pageBase, Reg.PST.SLOT_ID]; omega) hplain, hrd]
  · rw [(only_showApplied (K := [.reg, .host])).pisteOf, hkeep, hloads]

end Sys2Proof.Machine
end

section
/-! RUN and LOAD_MAP at their acceptance and step by step (R35 to R37, R323, R332, R336, R379, R383): O49. -/

namespace Sys2Proof.Machine

open Sys2Proof

set_option Elab.async false

/-! ### What acceptance sees of the pistes -/

theorem rd_pst_begun (s : State) (c : Cmd) (p : Nat) (f : Fld) (i : Nat) : rd (begun s c) (.pst p) f i = rd s (.pst p) f i := rd_pst_host s _ p f i

theorem fenced_begun (s : State) (c : Cmd) : fenced (begun s c) = fenced s := by
  funext p
  unfold fenced
  rw [rd_pst_begun]

theorem serviceMask_congr {s u : State} (h : ∀ p < 64, fenced u p = fenced s p) (m : Nat) : serviceMask u m = serviceMask s m := by
  refine congrArg listMask (List.filter_congr fun p hp => ?_)
  rw [h p (List.mem_range.mp (List.mem_filter.mp hp).1)]

theorem serviceMask_begun (s : State) (c : Cmd) (m : Nat) : serviceMask (begun s c) m = serviceMask s m :=
  serviceMask_congr (fun p _ => congrFun (fenced_begun s c) p) m

theorem fenceStops_begun (s : State) (c : Cmd) (m : Nat) : fenceStops (begun s c) m = fenceStops s m := by
  unfold fenceStops fencedList
  rw [fenced_begun]
  rfl

theorem comingMap_begun (s : State) (c : Cmd) (p j : Nat) : comingMap (begun s c) p j = comingMap s p j := by
  unfold comingMap
  rw [rd_pst_begun]
  rfl

theorem runStatus_begun (s : State) (c : Cmd) (ps : List Nat) (slot : Nat) : runStatus (begun s c) ps slot = runStatus s ps slot := by
  unfold runStatus
  simp only [comingMap_begun]
  rfl

theorem newRun_begun (s : State) (c : Cmd) (cmd : Option Nat) (mask slot epoch iter : Nat) :
    newRun (begun s c) cmd (queuedMask (begun s c) mask) slot epoch (begun s c).layout.cmd iter =
      newRun s cmd (queuedMask s mask) slot epoch s.layout.cmd iter := by
  unfold queuedMask
  rw [fenced_begun]
  rfl

/-! ### RUN -/

/-- A RUN judged, once the storage it is read from has been checked: `progRun` after the errors found. -/
def judgeRun (c : Cmd) (mask slot epoch iter : Nat) : Prog :=
  .look fun s =>
    let m := serviceMask s mask
    if m = 0 ∨ fenceStops s mask = true then
      finish c.id Code.PISTE_FENCED (failDetail (768 + minOf 0 ((fencedList s).filter (bit mask))) noLeg)
    else match runStatus s (maskList 64 m) slot with
      | some (st, p) => finish c.id st (failDetail (768 + p) noLeg)
      | none => queueRun (newRun s (some c.id) (queuedMask s mask) slot epoch s.layout.cmd iter)

theorem exec_run {s : State} {r : Fin 64} {c : Cmd} {mask slot epoch iter : Nat} (h : Awaits s r (.run mask slot epoch iter) c) (ram : List SramErr) :
    exec (.run r mask slot epoch iter ram) s = .next ((judgeRun c mask slot epoch iter).run ((forEach ram ramFound).run (begun s c))) := by
  show done (progRun r mask slot epoch iter ram) s = _
  rw [done_eq]
  unfold progRun
  rw [run_startCmd h, run_seq]
  rfl

theorem only_judgeRun {c : Cmd} {mask slot epoch iter : Nat} : Only [.host, .runs] (judgeRun c mask slot epoch iter) := by
  refine only_look fun s => only_ite only_finish ?_
  split
  · exact only_finish
  · exact only_modRuns

theorem settleFences_sramFatal (n : Nat) (h : HostSt) : (settleFences n h).sramFatal = h.sramFatal := by
  induction n generalizing h with
  | zero => rfl
  | succ n ih =>
    unfold settleFences
    split
    · rfl
    · exact ih _

theorem keeps_sramFatal_finish (id status detail : Nat) (u : Option Nat) : Keeps (fun s => s.host.sramFatal) (finish id status detail u) := fun s => by
  show ((finish id status detail u).run s).host.sramFatal = s.host.sramFatal
  cases h : findCmd s id with
  | none => rw [run_finish_none h]
  | some c =>
    rw [run_finish_some h]
    exact settleFences_sramFatal _ _

theorem keeps_sramFatal_judgeRun (c : Cmd) (mask slot epoch iter : Nat) : Keeps (fun s => s.host.sramFatal) (judgeRun c mask slot epoch iter) := by
  refine keeps_look _ fun s => keeps_ite _ _ (keeps_sramFatal_finish _ _ _ _) ?_
  split
  · exact keeps_sramFatal_finish _ _ _ _
  · exact fun _ => rfl

/-- A RUN judged in the state in which it is handed over. -/
theorem run_judgeRun (s : State) (c : Cmd) (mask slot epoch iter : Nat) :
    ((serviceMask s mask = 0 ∨ fenceStops s mask = true) → ∃ d, (judgeRun c mask slot epoch iter).run (begun s c) = (finish c.id Code.PISTE_FENCED d).run (begun s c)) ∧
    (serviceMask s mask ≠ 0 → fenceStops s mask = false →
      (∀ st p, runStatus s (maskList 64 (serviceMask s mask)) slot = some (st, p) →
        (judgeRun c mask slot epoch iter).run (begun s c) = (finish c.id st (failDetail (768 + p) noLeg)).run (begun s c)) ∧
      (runStatus s (maskList 64 (serviceMask s mask)) slot = none → (judgeRun c mask slot epoch iter).run (begun s c) =
        { begun s c with runs := { s.runs with
            nextId := s.runs.nextId + 1
            runs := s.runs.runs ++ [newRun s (some c.id) (queuedMask s mask) slot epoch s.layout.cmd iter] } })) := by
  unfold judgeRun
  rw [run_look]
  dsimp only
  rw [serviceMask_begun, fenceStops_begun, runStatus_begun, newRun_begun]
  refine ⟨fun hc => ⟨_, by rw [if_pos hc]⟩, fun hm hf => ⟨fun st p hs => ?_, fun hs => ?_⟩⟩
  · rw [if_neg (by simp [hm, hf]), hs]
  · rw [if_neg (by simp [hm, hf]), hs]
    rfl

/-- An error in control storage that the start of a RUN finds (R332). -/
theorem run_control {s : State} {c : Cmd} {mask slot epoch iter : Nat} (i : Nat) :
    let t := (judgeRun c mask slot epoch iter).run ((forEach [SramErr.control i] ramFound).run (begun s c))
    t.host.sramFatal = true ∧ HasRecord t i Code.SRAM_UE ∧ t.counts = s.counts ∧ t.mem = s.mem := by
  intro t
  have hjudge : Only [.host, .runs] (judgeRun c mask slot epoch iter) := only_judgeRun
  have herr : Only [.reg, .recs, .host] (forEach [SramErr.control i] ramFound) := ⟨⟨only_addSat, only_raiseSev fun _ => only_skip, only_modHost, trivial⟩, trivial⟩
  refine ⟨?_, ?_, hjudge.counts.trans herr.counts, hjudge.mem.trans herr.mem⟩
  · exact (keeps_sramFatal_judgeRun c mask slot epoch iter _).trans rfl
  · have hkept : Keeps (fun s => srcQueue s i) (judgeRun c mask slot epoch iter) := hjudge.srcQueue i
    have hhost (f : HostSt → HostSt) : Keeps (fun s => srcQueue s i) (modHost f) := (only_modHost (K := [.host])).srcQueue i
    suffices h : HasRecord ((forEach [SramErr.control i] ramFound).run (begun s c)) i Code.SRAM_UE from h.of_srcQueue (hkept _)
    rw [run_forEach_cons, run_forEach_nil]
    unfold ramFound controlUe
    dsimp only
    rw [run_progs_cons, run_progs_cons, run_progs_cons, run_progs_nil]
    generalize countUe.run _ = u
    exact (hasRecord_raiseSev (fun _ => keeps_skip _) u).of_srcQueue (hhost _ _)

/-- An error corrected that the start of a RUN finds is counted (R332). -/
theorem run_corrected {s : State} {c : Cmd} {mask slot epoch iter : Nat} (i : Nat) :
    let t := (judgeRun c mask slot epoch iter).run ((forEach [SramErr.corrected i] ramFound).run (begun s c))
    t.host.sramFatal = s.host.sramFatal ∧
      rd t (.mod 1) Reg.MOD1.SRAM_CE_COUNT = satBits Reg.MOD1.SRAM_CE_COUNT.w (rd s (.mod 1) Reg.MOD1.SRAM_CE_COUNT + 1) ∧
      t.counts = s.counts ∧ t.mem = s.mem := by
  intro t
  have hjudge : Only [.host, .runs] (judgeRun c mask slot epoch iter) := only_judgeRun
  have herr : Only [.reg] (forEach [SramErr.corrected i] ramFound) := ⟨only_addSat, trivial⟩
  refine ⟨?_, ?_, hjudge.counts.trans herr.counts, hjudge.mem.trans herr.mem⟩
  · exact (keeps_sramFatal_judgeRun c mask slot epoch iter _).trans (congrArg (·.sramFatal) herr.host)
  · show rd ((judgeRun c mask slot epoch iter).run _) _ _ = _
    rw [rd_congr hjudge.regs _ _ _ (by decide), run_forEach_cons, run_forEach_nil]
    unfold ramFound
    dsimp only
    rw [rd_addSat (by decide), rd_congr (s := s) (t := begun s c) rfl _ _ _ (by decide)]

end Sys2Proof.Machine
end

section
/-! LOAD_MAP step by step (R35 to R37, R379, R383), and the settlement of O49. -/

namespace Sys2Proof.Machine

open Sys2Proof

set_option Elab.async false

/-- A load joins the pending loads of a piste (R37). -/
def addLoad (l : Load) (p : Nat) : Prog := modPiste p fun x => { x with loads := x.loads ++ [l] }

theorem pisteOf_addLoad (l : Load) (p q : Nat) (s : State) :
    pisteOf ((addLoad l p).run s) q = if q = p then { pisteOf s p with loads := (pisteOf s p).loads ++ [l] } else pisteOf s q := by
  unfold addLoad
  rw [run_modPiste, pisteOf_apply_piste]

/-- A load joins the pending loads of each piste of a list once, and changes nothing else of any. -/
theorem pisteOf_addLoads (l : Load) {ps : List Nat} (hn : ps.Nodup) (p : Nat) (s : State) :
    pisteOf ((forEach ps (addLoad l)).run s) p = if p ∈ ps then { pisteOf s p with loads := (pisteOf s p).loads ++ [l] } else pisteOf s p := by
  induction ps generalizing s with
  | nil => simp
  | cons q r ih =>
    obtain ⟨hq, hr⟩ := List.nodup_cons.mp hn
    rw [run_forEach_cons, ih hr, pisteOf_addLoad]
    by_cases e : p = q
    · subst e
      simp [hq]
    · simp [e]

theorem only_addLoads (l : Load) (ps : List Nat) : Only [.piste] (forEach ps (addLoad l)) := only_forEach fun _ => only_modPiste

/-- The state in which a step of a LOAD_MAP begins: its command is among the accepted ones, started, and the pistes are as acceptance saw them. -/
structure StepsFrom (s u : State) (c : Cmd) : Prop where
  mem : { c with started := true } ∈ u.host.accepted
  pistes : u.pistes = s.pistes
  runs : u.runs = s.runs
  counts : u.counts = s.counts
  fenced : ∀ p < 64, fenced u p = fenced s p

theorem maskList_lt {m p : Nat} (h : p ∈ maskList 64 m) : p < 64 := List.mem_range.mp (List.mem_filter.mp h).1

theorem maskList_nodup (m : Nat) : (maskList 64 m).Nodup := List.nodup_range.filter _

section
variable {s u : State} {c : Cmd} {slot m i : Nat} {image : List Byte} {p : Nat}

/-- A step whose check fails completes the command with that check's status. -/
theorem loadStep_fails (h : StepsFrom s u c) (hp : (maskList 64 m)[i]? = some p) (hst : imageStatus (imageOf image) p slot ≠ 0) :
    HasFinished ((loadStep c slot m image i).run u) c (imageStatus (imageOf image) p slot) (failDetail 852 noLeg) ∧
    ((loadStep c slot m image i).run u).pistes = s.pistes := by
  unfold loadStep
  rw [run_look, hp]
  dsimp only
  rw [if_pos hst]
  exact ⟨hasFinished_finish ⟨_, h.mem, rfl⟩ _ _ _, ((only_finish (K := [.host])).pistes).trans h.pistes⟩

/-- A step that is not the last leaves the place of the next. -/
theorem loadStep_next (h : StepsFrom s u c) (hp : (maskList 64 m)[i]? = some p) (hst : imageStatus (imageOf image) p slot = 0)
    (hi : i + 1 < (maskList 64 m).length) :
    GoesOn ((loadStep c slot m image i).run u) c { c.part with moved := i + 1, mask := m, image := image } ∧
    ((loadStep c slot m image i).run u).pistes = s.pistes := by
  unfold loadStep
  rw [run_look, hp]
  dsimp only
  rw [if_neg (by simp [hst]), if_pos hi]
  exact ⟨List.mem_map.mpr ⟨_, h.mem, by simp⟩, h.pistes⟩

/-- After its last check a load with no piste in service completes with PISTE_FENCED. -/
theorem loadStep_fenced (h : StepsFrom s u c) (hp : (maskList 64 m)[i]? = some p) (hst : imageStatus (imageOf image) p slot = 0)
    (hi : i + 1 = (maskList 64 m).length) (hps : maskList 64 (serviceMask s m) = []) :
    HasFinished ((loadStep c slot m image i).run u) c Code.PISTE_FENCED (failDetail 852 noLeg) ∧
    ((loadStep c slot m image i).run u).pistes = s.pistes := by
  unfold loadStep
  rw [run_look, hp, serviceMask_congr h.fenced, hps]
  dsimp only
  rw [if_neg (by simp [hst]), if_neg (by omega), if_pos (show ([] : List Nat).isEmpty = true from rfl)]
  exact ⟨hasFinished_finish ⟨_, h.mem, rfl⟩ _ _ _, ((only_finish (K := [.host])).pistes).trans h.pistes⟩

/-- After its last check a load joins the pending loads of busy pistes, and idle ones write it at once (R37, R51). -/
theorem loadStep_queued (h : StepsFrom s u c) (hslot : slot < 4) (hp : (maskList 64 m)[i]? = some p) (hst : imageStatus (imageOf image) p slot = 0)
    (hi : i + 1 = (maskList 64 m).length) (hps : maskList 64 (serviceMask s m) ≠ []) :
    let t := (loadStep c slot m image i).run u
    (∀ q ∈ maskList 64 (serviceMask s m), idlePiste s q = false → (pisteOf t q).loads = (pisteOf s q).loads ++
      [{ cmd := some c.id, order := s.runs.nextId, slot := slot, image := image }]) ∧
    (∀ q ∈ maskList 64 (serviceMask s m), idlePiste s q = true → (pisteOf s q).loads = [] → s.runs.runs = [] →
      rd t (.pst q) Reg.PST.SLOT_ID slot = leAt image 12 4 ∧ (pisteOf t q).loads = []) ∧
    t.counts = s.counts ∧ t.runs = s.runs := by
  let l : Load := { cmd := some c.id, order := s.runs.nextId, slot := slot, image := image }
  let ps := maskList 64 (serviceMask s m)
  have hrun : (loadStep c slot m image i).run u =
      idleActions.run ((forEach ps (addLoad l)).run ((modCmd c.id fun x => { x with part := {} }).run u)) := by
    unfold loadStep
    rw [run_look, hp, serviceMask_congr h.fenced]
    dsimp only
    rw [if_neg (by simp [hst]), if_neg (by omega), if_neg (by simpa using hps), run_progs_cons, run_progs_cons, run_progs_cons, run_progs_nil, h.runs]
    rfl
  rw [hrun]
  generalize hv : (modCmd c.id fun x => { x with part := {} }).run u = v
  have hcmd : Only [.host] (modCmd c.id fun x => { x with part := {} }) := only_modHost
  have hadd := only_addLoads l ps
  have hvp (q : Nat) : pisteOf v q = pisteOf s q := by
    rw [← hv, hcmd.pisteOf]
    unfold pisteOf
    rw [h.pistes]
  have hvr : v.runs = s.runs := by rw [← hv, hcmd.runs, h.runs]
  have hw (q : Nat) (hq : q ∈ ps) : pisteOf ((forEach ps (addLoad l)).run v) q = { pisteOf s q with loads := (pisteOf s q).loads ++ [l] } := by
    rw [pisteOf_addLoads l (maskList_nodup _), if_pos hq, hvp]
  have hidle (q : Nat) (hq : q ∈ ps) : idlePiste ((forEach ps (addLoad l)).run v) q = idlePiste s q := by
    have hq64 := maskList_lt hq
    have hf : fenced ((forEach ps (addLoad l)).run v) q = fenced s q := by
      rw [← h.fenced q hq64]
      unfold fenced
      rw [rd_congr hadd.regs _ _ _ (plain_pst hq64), ← hv, rd_congr hcmd.regs _ _ _ (plain_pst hq64)]
    unfold idlePiste
    rw [hw q hq, hf]
  have hwr : ((forEach ps (addLoad l)).run v).runs = s.runs := by rw [hadd.runs, hvr]
  have hwc : ((forEach ps (addLoad l)).run v).counts = s.counts := by rw [hadd.counts, ← hv, hcmd.counts, h.counts]
  have hact : Only boundaryK idleActions := only_idleActions
  refine ⟨fun q hq hb => ?_, fun q hq hi hl hr => ?_, hact.counts.trans hwc, hact.runs.trans hwr⟩
  · rw [pisteOf_idleActions (by rw [hidle q hq]; exact hb), hw q hq]
  · exact run_idleActions_load (l := l) (maskList_lt hq) (by rw [hidle q hq]; exact hi) (by rw [hw q hq, hl]; rfl) (by rw [hwr]; exact hr) hslot

end

/-! ### The states in which steps begin -/

theorem underWay_mem {s : State} {r : Nat} {b : CmdBody} {c : Cmd} (h : underWay s r b = some c) : c ∈ s.host.accepted ∧ c.started = true := by
  unfold underWay at h
  have hs := List.find?_some h
  refine ⟨(List.mem_filter.mp (List.mem_of_find?_eq_some h)).1, ?_⟩
  simp only [Bool.and_eq_true] at hs
  exact hs.1.1

theorem stepsFrom_underWay {s : State} {r : Nat} {b : CmdBody} {c : Cmd} (h : underWay s r b = some c) : StepsFrom s s c := by
  obtain ⟨hm, hs⟩ := underWay_mem h
  refine ⟨?_, rfl, rfl, rfl, fun _ _ => rfl⟩
  have : ({ c with started := true } : Cmd) = c := by rw [← hs]
  rwa [this]

theorem only_noteRead (space a n : Nat) : Only [.reg, .flag .atc] (noteRead space a n) := only_ite only_deliverPoison only_cacheTranslation

theorem writes_noteRead (space a n : Nat) : Writes stackWords (noteRead space a n) :=
  writes_ite (fun _ => writes_deliverPoison a n) fun _ => (only_cacheTranslation (K := [.flag .atc])).writes

theorem stepsFrom_noteRead {s : State} {r : Nat} {b : CmdBody} {c : Cmd} (h : Awaits s r b c) (space a n : Nat) :
    StepsFrom s ((noteRead space a n).run (begun s c)) c := by
  have hn := only_noteRead space a n
  refine ⟨?_, hn.pistes, hn.runs, hn.counts, fun p hp => ?_⟩
  · rw [hn.host]
    simpa using begun_mem (c := c) h.mem
  · rw [← fenced_begun s c]
    unfold fenced
    rw [(writes_noteRead space a n).rd ?_ (plain_pst hp)]
    rintro ⟨st, hw | hw⟩
    · simp only [fldAddr, pageBase, Reg.PST.RUN_CTRL_FENCED, Reg.STK.ECC_STATUS_POISON_READ] at hw; omega
    · simp only [fldAddr, pageBase, Reg.PST.RUN_CTRL_FENCED, Reg.STK.POISON_COUNT] at hw; omega

/-! ### LOAD_MAP -/

theorem exec_loadMap_next {s : State} {r : Fin 64} {addr space slot mask : Nat} {c : Cmd} (h : underWay s r (.loadMap addr space slot mask) = some c)
    (hfw : fwRuns s = true) :
    exec (.loadMap r addr space slot mask) s = .next ((loadStep c slot c.part.mask c.part.image c.part.moved).run s) := by
  show done (progLoadMap r addr space slot mask) s = _
  rw [done_eq]
  unfold progLoadMap inSteps
  rw [run_look, h, Option.isSome_some, Bool.true_or, run_whenP_true, run_look, h]
  dsimp only
  rw [run_look, hfw, run_whenP_true]

/-- What a LOAD_MAP does as it starts (R379): the checks of its image's place, its reading, and the first step. -/
def loadFirst (addr space slot mask : Nat) (c : Cmd) : Prog :=
  .look fun s =>
    let m := serviceMask s mask
    let n := imageExtent s space addr
    if m = 0 then loadFail c Code.PISTE_FENCED
    else if outside s space addr 128 || outside s space addr n then loadFail c Code.CMD_RANGE
    else if (refusedPage s space addr n).isSome then loadFail c Code.HOST_XLATE
    else .seq (noteRead space addr n)
      (if spaceBad s space addr n then loadFail c Code.MEM_UE else loadStep c slot m (spaceBytes s space addr n) 0)

theorem exec_loadMap_first {s : State} {r : Fin 64} {addr space slot mask : Nat} {c : Cmd} (hu : underWay s r (.loadMap addr space slot mask) = none)
    (h : Awaits s r (.loadMap addr space slot mask) c) (hc : spaceHot s space addr (imageExtent s space addr) = false) :
    exec (.loadMap r addr space slot mask) s = .next ((loadFirst addr space slot mask c).run (begun s c)) := by
  show done (progLoadMap r addr space slot mask) s = _
  rw [done_eq]
  unfold progLoadMap inSteps
  rw [run_look, hu, hc, Option.isSome_none, Bool.not_false, Bool.or_true, run_whenP_true, run_look, hu]
  dsimp only
  rw [run_startCmd h]
  rfl

theorem outside_begun (s : State) (c : Cmd) (space a n : Nat) : outside (begun s c) space a n = outside s space a n := by
  unfold outside hbmBytes
  rw [rd_congr (s := s) (t := begun s c) rfl _ _ _ (by decide)]

/-- The start of a LOAD_MAP in the state in which it is handed over, by the first check that fails. -/
theorem run_loadFirst (s : State) (addr space slot mask : Nat) (c : Cmd) :
    (loadFirst addr space slot mask c).run (begun s c) = Prog.run (
      if serviceMask s mask = 0 then loadFail c Code.PISTE_FENCED
      else if outside s space addr 128 || outside s space addr (imageExtent s space addr) then loadFail c Code.CMD_RANGE
      else if (refusedPage s space addr (imageExtent s space addr)).isSome then loadFail c Code.HOST_XLATE
      else .seq (noteRead space addr (imageExtent s space addr))
        (if spaceBad s space addr (imageExtent s space addr) then loadFail c Code.MEM_UE
        else loadStep c slot (serviceMask s mask) (spaceBytes s space addr (imageExtent s space addr)) 0)) (begun s c) := by
  unfold loadFirst
  rw [run_look]
  dsimp only
  rw [serviceMask_begun, outside_begun, outside_begun]
  rfl

/-- Settles O49: RUN by the branch of its judgement, LOAD_MAP by the first check that fails and then by the step of each piste. -/
theorem runsAndMapsAccepted : Obligations.RunsAndMapsAccepted := by
  unfold Obligations.RunsAndMapsAccepted
  intro s r c ends
  refine ⟨fun mask slot epoch iter h => ?_, fun addr space slot mask _ hslot => ?_⟩
  · intro m
    obtain ⟨hstop, hgo⟩ := run_judgeRun s c mask slot epoch iter
    have hexec := exec_run h []
    rw [run_forEach_nil] at hexec
    refine ⟨fun hm => ?_, fun hm hf => ⟨fun st p hs => ?_, fun hs => ?_⟩, fun i => ⟨_, exec_run h _, run_control i⟩, fun i => ⟨_, exec_run h _, run_corrected i⟩⟩
    · obtain ⟨d, hd⟩ := hstop hm
      exact ⟨d, _, by rw [hexec, hd], finish_begun h _ _⟩
    · exact ⟨_, by rw [hexec, (hgo hm hf).1 st p hs], finish_begun h _ _⟩
    · rw [hexec, (hgo hm hf).2 hs]
  · intro load n checks
    have hchecks {u : State} (hu : StepsFrom s u c) (i m : Nat) (image : List Byte)
        (he : exec (.loadMap r addr space slot mask) s = .next ((loadStep c slot m image i).run u)) : checks i m image :=
      fun p hp => ⟨fun hst => ⟨_, he, loadStep_fails hu hp hst⟩, fun hst hi => ⟨_, he, loadStep_next hu hp hst hi⟩,
        fun hst hi hps => ⟨_, he, loadStep_queued hu hslot hp hst hi hps⟩, fun hst hi hps => ⟨_, he, loadStep_fenced hu hp hst hi hps⟩⟩
    refine ⟨fun hu hfw => hchecks (stepsFrom_underWay hu) _ _ _ (exec_loadMap_next hu hfw), fun hu h hcool => ?_⟩
    intro m
    have hexec := exec_loadMap_first hu h hcool
    rw [run_loadFirst] at hexec
    refine ⟨fun hm => ⟨_, ?_, finish_begun h _ _⟩, fun hm hout => ⟨_, ?_, finish_begun h _ _⟩, fun hm h1 h2 href => ⟨_, ?_, finish_begun h _ _⟩,
      fun hm h1 h2 href => ⟨fun hbad => ?_, fun hbad => hchecks (stepsFrom_noteRead h space addr n) _ _ _ ?_⟩⟩
    · rw [hexec, if_pos hm]
      rfl
    · rw [hexec, if_neg hm, if_pos hout]
      rfl
    · rw [hexec, if_neg hm, if_neg (by rw [h1, h2]; simp), if_pos (Option.isSome_iff_ne_none.mpr href)]
      rfl
    · rw [if_neg hm, if_neg (by rw [h1, h2]; simp), if_neg (by rw [href]; simp), if_pos hbad, run_seq] at hexec
      have hs := stepsFrom_noteRead h space addr n
      exact ⟨_, hexec, hasFinished_finish ⟨_, hs.mem, rfl⟩ _ _ _, ((only_finish (K := [.host])).pistes).trans hs.pistes⟩
    · rw [if_neg hm, if_neg (by rw [h1, h2]; simp), if_neg (by rw [href]; simp), if_neg (by simpa using hbad), run_seq] at hexec
      exact hexec

end Sys2Proof.Machine
end

section
/-! Region commits, weight sets and PUBLISH (R49, R328, R329). -/

namespace Sys2Proof.Machine

open Sys2Proof

set_option Elab.async false

/-! ### What the actions of idle pistes leave -/

/-- The words that the actions of idle pistes may write. -/
def idleWords (a : Nat) : Prop := a < 0x10000 ∨ 0x1000000 ≤ a ∨ appliedWords a

theorem writes_idleActions : Writes idleWords idleActions :=
  writes_look fun _ => writes_seq
    (writes_forEach fun p _ => (writes_boundaryActions p).mono fun a ha => by
      simp only [boundaryWords] at ha
      simp only [idleWords]
      omega)
    (writes_showApplied.mono fun _ ha => .inr (.inr ha))

theorem keeps_srcQueue_boundaryActions (island p : Nat) : Keeps (fun s => srcQueue s island) (boundaryActions p) := by
  have other {K : List Kind} {x : Prog} (hx : Only K x) (hk : Kind.recs ∉ K := by decide) : Keeps (fun s => srcQueue s island) x := hx.srcQueue island hk
  have hrepairs : Keeps (fun s => srcQueue s island) (takeRepairs p) :=
    keeps_look _ fun _ => keeps_seq _ (other (K := [.piste]) only_modPiste) (keeps_forEach _ _ _ fun _ _ => keeps_cons _ (other (K := [.reg]) only_mapSpare)
      (keeps_cons _ (other (K := [.fw]) only_modFw) (keeps_cons _ (keeps_srcQueue_modRecs island fun _ => rfl) (keeps_nil _))))
  have hepoch : Keeps (fun s => srcQueue s island) (takeEpoch p) :=
    keeps_look _ fun _ => keeps_whenP _ _ (keeps_cons _ (other (K := [.reg]) (only_forEach fun _ => only_wr)) (keeps_cons _ (other (K := [.piste]) only_modPiste)
      (keeps_cons _ (keeps_whenP _ _ (other (K := [.units]) only_modUnits)) (keeps_cons _ (keeps_srcQueue_trace island 3 (768 + p)) (keeps_nil _)))))
  exact keeps_cons _ hrepairs (keeps_cons _ (other only_takeRegions) (keeps_cons _ (other (only_takeLoads p 64)) (keeps_cons _ (other only_takeWeights)
    (keeps_cons _ hepoch (keeps_nil _)))))

theorem keeps_srcQueue_idleActions (island : Nat) : Keeps (fun s => srcQueue s island) idleActions :=
  keeps_look _ fun _ => keeps_seq _ (keeps_forEach _ _ _ fun p _ => keeps_srcQueue_boundaryActions island p)
    (Only.srcQueue (K := [.reg, .host]) only_showApplied island)

/-! ### Region commits -/

/-- A record of the same code and island for each item of a list that has any. -/
theorem hasRecord_forEach_raise {β : Type} {l : List β} {x : β} (hx : x ∈ l) (code island : Nat) (items : β → List Item) (s : State) :
    HasRecord ((forEach l fun y => raise code island 0 noLeg 0 (items y)).run s) island code := by
  obtain ⟨a, b, rfl⟩ := List.append_of_mem hx
  rw [run_forEach_append, run_forEach_cons]
  exact run_forEach_inv (fun t => HasRecord t island code) (fun _ _ _ _ => hasRecord_raise _ _ _ _ _ _ _) _ (hasRecord_raise _ _ _ _ _ _ _)

/-- What a list of keys without repetitions is given, and what every other key keeps. -/
theorem smGet_foldl_set {α : Type} [DecidableEq α] (d : Nat → α) (g : Nat → α) (l : List Nat) (m : SMap α) (n : Nat) :
    smGet d (l.foldl (fun m k => smSet d m k (g k)) m) n = if n ∈ l then g n else smGet d m n := by
  induction l generalizing m with
  | nil => simp
  | cons k r ih =>
    rw [List.foldl_cons, ih, smGet_set]
    by_cases hn : n ∈ r <;> by_cases hk : n = k <;> simp [hn, hk]

/-- The regions that a commit takes: all but the FRONTs of valid weight sets. -/
def takenRegions (s : State) : List Nat := (List.range 256).filter fun n => !(fronts s).contains n

theorem mem_takenRegions (s : State) (n : Nat) : n ∈ takenRegions s ↔ n < 256 ∧ n ∉ fronts s := by
  simp [takenRegions]

/-- The region table after a commit. -/
def committedTable (s : State) : SMap (BitVec 128) :=
  (takenRegions s).foldl (fun m n => smSet rgnDefault m n (commitRgn (stagedRgn s n)).1) s.rgn.committed

/-- The records of a commit: one for each region that is taken misaligned. -/
def misaligned (s : State) : Prog :=
  forEach ((takenRegions s).filter fun n => (commitRgn (stagedRgn s n)).2) fun n => raise Code.RGN_FIELD 852 0 noLeg 0 [w32 n]

/-- COMMIT with GO 1: the regions, the number, the records, and the actions of idle pistes. -/
theorem run_opCommit {v : Nat} (h : bit v 0 = true) (s : State) :
    (opCommit v).run s = idleActions.run ((misaligned s).run ((wr (.rgn 0) Reg.RGN0.COMMIT_SEQ (rd s (.rgn 0) Reg.RGN0.COMMIT_SEQ + 1)).run
        { s with rgn := { s.rgn with committed := committedTable s } })) := by
  unfold opCommit
  rw [run_look, h, run_whenP_true, run_progs_cons, run_progs_cons, run_progs_cons, run_progs_cons, run_progs_nil]
  rfl

theorem only_misaligned (s : State) : Only [.recs, .reg] (misaligned s) := only_forEach fun _ => only_raise

theorem hasRecord_misaligned {s : State} {n : Nat} (hn : n ∈ takenRegions s) (hbad : (commitRgn (stagedRgn s n)).2 = true) (t : State) :
    HasRecord ((misaligned s).run t) 852 Code.RGN_FIELD := hasRecord_forEach_raise (List.mem_filter.mpr ⟨hn, hbad⟩) _ _ _ _

theorem regionCommit_taken {s : State} {id : Ident} {v : Word} (hin : LetIn s id (fldAddr (.rgn 0) Reg.RGN0.COMMIT_GO 0) false)
    (hgo : bit v.toNat 0 = true) : ∃ t, exec (.regionCommit id v) s = .next t ∧
      rd t (.rgn 0) Reg.RGN0.COMMIT_SEQ = (rd s (.rgn 0) Reg.RGN0.COMMIT_SEQ + 1) % 2 ^ 16 ∧
      (∀ n, n < 256 → n ∉ fronts s → committedRgn t n = (commitRgn (stagedRgn s n)).1 ∧
        ((commitRgn (stagedRgn s n)).2 = true → HasRecord t 852 Code.RGN_FIELD)) ∧
      (∀ n, n < 256 → n ∈ fronts s → committedRgn t n = committedRgn s n) ∧ t.counts = s.counts ∧ t.runs = s.runs := by
  refine ⟨_, done_eq (writeTo id (.rgn 0) Reg.RGN0.COMMIT_GO (opCommit v.toNat)) s, ?_⟩
  unfold writeTo
  rw [run_access_letIn _ hin, run_opCommit hgo]
  generalize hu : ({ s with rgn := { s.rgn with committed := committedTable s } } : State) = u
  have hurgn : u.rgn.committed = committedTable s := by rw [← hu]
  have hucounts : u.counts = s.counts := by rw [← hu]
  have huruns : u.runs = s.runs := by rw [← hu]
  have hrest : Only (boundaryK ++ [.recs, .reg]) (progs [wr (.rgn 0) Reg.RGN0.COMMIT_SEQ (rd s (.rgn 0) Reg.RGN0.COMMIT_SEQ + 1), misaligned s, idleActions]) :=
    only_cons only_wr (only_cons ((only_misaligned s).mono (by decide)) (only_cons (only_idleActions.mono (by decide)) only_nil))
  have htable (n : Nat) : smGet rgnDefault (committedTable s) n =
      if n ∈ takenRegions s then (commitRgn (stagedRgn s n)).1 else committedRgn s n := smGet_foldl_set _ _ _ _ _
  rw [← run_progs_nil (idleActions.run _), ← run_progs_cons, ← run_progs_cons, ← run_progs_cons]
  have hcommit (n : Nat) : committedRgn ((progs [wr (.rgn 0) Reg.RGN0.COMMIT_SEQ (rd s (.rgn 0) Reg.RGN0.COMMIT_SEQ + 1), misaligned s, idleActions]).run u) n =
      if n ∈ takenRegions s then (commitRgn (stagedRgn s n)).1 else committedRgn s n := by
    unfold committedRgn
    rw [hrest.rgn, hurgn, htable]
    rfl
  refine ⟨?_, fun n hn hf => ⟨?_, fun hbad => ?_⟩, fun n _ hf => ?_, ?_, ?_⟩
  · rw [run_progs_cons, run_progs_cons, run_progs_cons, run_progs_nil,
      writes_idleActions.rd (by simp only [idleWords, appliedWords, fldAddr, pageBase, Reg.RGN0.COMMIT_SEQ]; omega) (by decide),
      Writes.rd (p := misaligned s) (writes_forEach fun _ _ => writes_raise _ _ _ _ _ _)
        (by simp only [recordWords, fldAddr, pageBase, Reg.RGN0.COMMIT_SEQ]; omega) (by decide), rd_wr_same _ _ _ _ _ (by decide)]
    rfl
  · rw [hcommit, if_pos ((mem_takenRegions s n).mpr ⟨hn, hf⟩)]
  · rw [run_progs_cons, run_progs_cons, run_progs_cons, run_progs_nil]
    exact (hasRecord_misaligned ((mem_takenRegions s n).mpr ⟨hn, hf⟩) hbad _).of_srcQueue (keeps_srcQueue_idleActions 852 _)
  · rw [hcommit, if_neg fun c => ((mem_takenRegions s n).mp c).2 hf]
  · rw [hrest.counts, hucounts]
  · rw [hrest.runs, huruns]

/-! ### Weight sets -/

theorem Only.regs_pistes {p : Prog} (h : Only [.reg, .piste] p) (s : State) : p.run s = { s with regs := (p.run s).regs, pistes := (p.run s).pistes } := by
  have := h.keeps (fun s => fun x y => { s with regs := x, pistes := y }) (fun a s ha => by
    cases a with
    | reg _ _ => rfl
    | piste _ _ => rfl
    | _ => simp [Act.kind] at ha) s
  exact congrFun (congrFun this (p.run s).regs) (p.run s).pistes

/-- The fields of a weight set's word other than the published bank. -/
def wsetField (f : Fld) : Bool :=
  f.off == 0x100 && f.stride == 16 && (decide (f.lo + f.w ≤ 24) || decide (25 ≤ f.lo)) && (List.range 16).all (fun w => plain (.rgn 1) f w)

theorem plain_wset {f : Fld} (h : wsetField f = true) (w : Fin 16) : plain (.rgn 1) f w = true := by
  simp only [wsetField, Bool.and_eq_true] at h
  exact List.all_eq_true.mp h.2 _ (List.mem_range.mpr w.isLt)

theorem plain_rgn1 {f : Fld} (w : Fin 16) (h : (List.range 16).all (fun w => plain (.rgn 1) f w) = true := by decide) : plain (.rgn 1) f w = true :=
  List.all_eq_true.mp h _ (List.mem_range.mpr w.isLt)

/-- What VALID does when it rises: nothing of the set is published or applied. -/
def resetSet (w : Nat) : Prog :=
  progs [wr (.rgn 1) Reg.RGN1.PUB_VERSION 0 w, wr (.rgn 1) Reg.RGN1.WSET_PUB_BANK 0 w, wr (.rgn 1) Reg.RGN1.APPLIED_LOW 0 w,
    forEach (List.range 64) fun p => modPiste p fun x => { x with versions := smErase w x.versions }]

/-- The configuration of a weight set stays when what is published of it is reset. -/
theorem rd_resetSet (w : Fin 16) {f : Fld} (h : wsetField f = true) (s : State) : rd ((resetSet w).run s) (.rgn 1) f w = rd s (.rgn 1) f w := by
  have hplain := plain_wset h w
  simp only [wsetField, Bool.and_eq_true, Bool.or_eq_true, beq_iff_eq, decide_eq_true_eq] at h
  obtain ⟨⟨⟨hoff, hstride⟩, hbits⟩, -⟩ := h
  have hpistes : Only [.piste] (forEach (List.range 64) fun p => modPiste p fun x => { x with versions := smErase (w : Nat) x.versions }) :=
    only_forEach fun _ => only_modPiste
  unfold resetSet
  rw [run_progs_cons, run_progs_cons, run_progs_cons, run_progs_cons, run_progs_nil, rd_congr hpistes.regs _ _ _ hplain,
    rd_wr_other _ _ _ _ _ _ _ _ (plain_rgn1 w) hplain (.inr (.inl (by rw [hoff, hstride]; simp only [Reg.RGN1.APPLIED_LOW]; omega))),
    rd_wr_other _ _ _ _ _ _ _ _ (plain_rgn1 w) hplain (.inr (.inr (by simp only [Reg.RGN1.WSET_PUB_BANK]; omega))),
    rd_wr_other _ _ _ _ _ _ _ _ (plain_rgn1 w) hplain (.inr (.inl (by rw [hoff, hstride]; simp only [Reg.RGN1.PUB_VERSION]; omega)))]

theorem rd_whenP_resetSet (w : Fin 16) {f : Fld} (h : wsetField f = true) (b : Bool) (s : State) :
    rd ((whenP b (resetSet w)).run s) (.rgn 1) f w = rd s (.rgn 1) f w := by
  cases b
  · rfl
  · exact rd_resetSet w h s

/-- A field of a set's word after a write of another one. -/
theorem rd_wset_other (w : Fin 16) {f f' : Fld} (h : wsetField f = true) (h' : wsetField f' = true) (hne : f.lo + f.w ≤ f'.lo ∨ f'.lo + f'.w ≤ f.lo)
    (v : Nat) (s : State) : rd ((wr (.rgn 1) f v w).run s) (.rgn 1) f' w = rd s (.rgn 1) f' w :=
  rd_wr_other _ _ _ _ _ _ _ _ (plain_wset h w) (plain_wset h' w) (.inr (.inr hne))

theorem bits_mod (v lo w : Nat) : bits v lo w % 2 ^ w = bits v lo w := Nat.mod_mod _ _

/-- A write of a weight set: the configuration while VALID is 0, VALID, and what a rising VALID resets. -/
theorem run_opWset (w v : Nat) (s : State) :
    (opWset w v).run s = (whenP (rd s (.rgn 1) Reg.RGN1.WSET_VALID w == 0 && bit v 31) (resetSet w)).run ((wr (.rgn 1) Reg.RGN1.WSET_VALID (bits v 31 1) w).run
      ((whenP (rd s (.rgn 1) Reg.RGN1.WSET_VALID w == 0) (progs [wr (.rgn 1) Reg.RGN1.WSET_FRONT (bits v 0 8) w,
        wr (.rgn 1) Reg.RGN1.WSET_BANK0 (bits v 8 8) w, wr (.rgn 1) Reg.RGN1.WSET_BANK1 (bits v 16 8) w])).run s)) := by
  unfold opWset
  rw [run_look, run_progs_cons, run_progs_cons, run_progs_cons, run_progs_nil]
  rfl

theorem only_resetSet (w : Nat) : Only [.reg, .piste] (resetSet w) := only_cons only_wr (only_cons only_wr (only_cons only_wr
  (only_cons (only_forEach fun _ => only_modPiste) only_nil)))

theorem only_opWset (w v : Nat) : Only [.reg, .piste] (opWset w v) := only_look fun _ => only_cons
  (only_whenP (only_cons only_wr (only_cons only_wr (only_cons only_wr only_nil)))) (only_cons only_wr (only_cons (only_whenP (only_resetSet w)) only_nil))

theorem wsetWrite_taken {s : State} {id : Ident} {v : Word} (w : Fin 16) (hin : LetIn s id (fldAddr (.rgn 1) Reg.RGN1.WSET_FRONT w) false) :
    ∃ t, exec (.wsetWrite id w v) s = .next t ∧
      rd t (.rgn 1) Reg.RGN1.WSET_VALID w = bits v.toNat 31 1 ∧
      (rd s (.rgn 1) Reg.RGN1.WSET_VALID w = 0 → rd t (.rgn 1) Reg.RGN1.WSET_FRONT w = bits v.toNat 0 8 ∧
        rd t (.rgn 1) Reg.RGN1.WSET_BANK0 w = bits v.toNat 8 8 ∧ rd t (.rgn 1) Reg.RGN1.WSET_BANK1 w = bits v.toNat 16 8) ∧
      (rd s (.rgn 1) Reg.RGN1.WSET_VALID w = 1 → rd t (.rgn 1) Reg.RGN1.WSET_FRONT w = rd s (.rgn 1) Reg.RGN1.WSET_FRONT w ∧
        rd t (.rgn 1) Reg.RGN1.WSET_BANK0 w = rd s (.rgn 1) Reg.RGN1.WSET_BANK0 w ∧ t.pistes = s.pistes) ∧
      t = { s with regs := t.regs, pistes := t.pistes } := by
  have hsame {f : Fld} (h : wsetField f = true) (x : Nat) (u : State) : rd ((wr (.rgn 1) f x w).run u) (.rgn 1) f w = x % 2 ^ f.w :=
    rd_wr_same _ _ _ _ _ (plain_wset h w)
  refine ⟨_, done_eq (writeTo id (.rgn 1) Reg.RGN1.WSET_FRONT (opWset w v.toNat) w) s, ?_⟩
  unfold writeTo
  rw [run_access_letIn _ hin]
  refine ⟨?_, fun h0 => ?_, fun h1 => ?_, (only_opWset w _).regs_pistes s⟩
  · rw [run_opWset, rd_whenP_resetSet w (by decide), hsame (by decide)]
    exact bits_mod _ _ _
  · rw [run_opWset, h0, beq_self_eq_true, run_whenP_true, run_progs_cons, run_progs_cons, run_progs_cons, run_progs_nil]
    refine ⟨?_, ?_, ?_⟩
    · rw [rd_whenP_resetSet w (by decide), rd_wset_other w (by decide) (by decide) (by decide), rd_wset_other w (by decide) (by decide) (by decide),
        rd_wset_other w (by decide) (by decide) (by decide), hsame (by decide)]
      exact bits_mod _ _ _
    · rw [rd_whenP_resetSet w (by decide), rd_wset_other w (by decide) (by decide) (by decide), rd_wset_other w (by decide) (by decide) (by decide),
        hsame (by decide)]
      exact bits_mod _ _ _
    · rw [rd_whenP_resetSet w (by decide), rd_wset_other w (by decide) (by decide) (by decide), hsame (by decide)]
      exact bits_mod _ _ _
  · rw [run_opWset, h1, show ((1 : Nat) == 0) = false from rfl, Bool.false_and, run_whenP_false, run_whenP_false]
    exact ⟨rd_wset_other w (by decide) (by decide) (by decide) _ _, rd_wset_other w (by decide) (by decide) (by decide) _ _,
      Only.pistes (K := [.reg]) only_wr⟩

/-! ### PUBLISH -/

/-- A set's number in PUBLISH. -/
theorem bits_four_lt (v : Nat) : bits v 0 4 < 16 := Nat.mod_lt _ (by decide)

theorem rd_lt {s : State} {pg : Page} {f : Fld} {i : Nat} (h : plain pg f i = true) : rd s pg f i < 2 ^ f.w := by
  rw [rd_plain _ _ _ _ h]
  exact Nat.mod_lt _ (by positivity)

theorem publish_taken {s : State} {id : Ident} {v : Word} (hin : LetIn s id (fldAddr (.rgn 1) Reg.RGN1.PUBLISH_SET 0) false) :
    let w := bits v.toNat 0 4
    let ver := rd s (.rgn 1) Reg.RGN1.PUB_VERSION_STAGE
    let bank := if bit v.toNat 4 then rd s (.rgn 1) Reg.RGN1.WSET_BANK1 w else rd s (.rgn 1) Reg.RGN1.WSET_BANK0 w
    let may := rd s (.rgn 1) Reg.RGN1.WSET_VALID w = 1 ∧ rd s (.rgn 1) Reg.RGN1.PUB_VERSION w < ver ∧ rgnValid (committedRgn s bank) = true
    (may → ∃ t, exec (.publish id v) s = .next t ∧ rd t (.rgn 1) Reg.RGN1.PUB_VERSION w = ver ∧
      rd t (.rgn 1) Reg.RGN1.WSET_PUB_BANK w = bits v.toNat 4 1 ∧ t.counts = s.counts ∧ t.runs = s.runs ∧ t.rgn = s.rgn) ∧
    (¬ may → ∃ t, exec (.publish id v) s = .next t ∧ rd t (.rgn 1) Reg.RGN1.REFUSED = 1 ∧ OnlyRegs s t [fldAddr (.rgn 1) Reg.RGN1.REFUSED 0]) := by
  have hw := bits_four_lt v.toNat
  have hver : rd s (.rgn 1) Reg.RGN1.PUB_VERSION_STAGE < 2 ^ 32 := rd_lt (by decide)
  have hex : exec (.publish id v) s = .next ((opPublish v.toNat).run s) := by
    show done (writeTo id (.rgn 1) Reg.RGN1.PUBLISH_SET (opPublish v.toNat)) s = _
    rw [done_eq]
    unfold writeTo
    rw [run_access_letIn _ hin]
  rw [hex]
  unfold opPublish
  rw [run_look]
  dsimp only
  generalize bits v.toNat 0 4 = w at hw ⊢
  generalize (if bit v.toNat 4 then rd s (.rgn 1) Reg.RGN1.WSET_BANK1 w else rd s (.rgn 1) Reg.RGN1.WSET_BANK0 w) = bank
  have hidle {f : Fld} (hf : f.off = 0x100 ∨ f.off = 0x104) (hs : f.stride = 16) : ¬ idleWords (fldAddr (.rgn 1) f w) := by
    simp only [idleWords, appliedWords, fldAddr, pageBase, hs]
    omega
  have hpw (f : Fld) (h : (List.range 16).all (fun w => plain (.rgn 1) f w) = true) : plain (.rgn 1) f w = true := plain_rgn1 ⟨w, hw⟩ h
  constructor
  · rintro ⟨hv, hlt, hbank⟩
    refine ⟨_, rfl, ?_⟩
    rw [if_pos (by simp [hv, hlt, hbank]), run_progs_cons, run_progs_cons, run_progs_cons, run_progs_nil]
    refine ⟨?_, ?_, ?_, ?_, ?_⟩
    · rw [writes_idleActions.rd (hidle (.inr rfl) rfl) (hpw _ (by decide)),
        rd_wr_other _ _ _ _ _ _ _ _ (hpw _ (by decide)) (hpw _ (by decide)) (.inr (.inl (by simp only [Reg.RGN1.WSET_PUB_BANK, Reg.RGN1.PUB_VERSION]; omega))),
        rd_wr_same _ _ _ _ _ (hpw _ (by decide))]
      exact Nat.mod_eq_of_lt hver
    · rw [writes_idleActions.rd (hidle (.inl rfl) rfl) (hpw _ (by decide)), rd_wr_same _ _ _ _ _ (hpw _ (by decide))]
      exact bits_mod _ _ _
    · rw [only_idleActions.counts, Only.counts (K := [.reg]) only_wr, Only.counts (K := [.reg]) only_wr]
    · rw [only_idleActions.runs, Only.runs (K := [.reg]) only_wr, Only.runs (K := [.reg]) only_wr]
    · rw [only_idleActions.rgn, Only.rgn (K := [.reg]) only_wr, Only.rgn (K := [.reg]) only_wr]
  · intro hmay
    refine ⟨_, rfl, ?_⟩
    rw [if_neg (by simpa only [Bool.and_eq_true, beq_iff_eq, decide_eq_true_eq, and_assoc] using hmay)]
    exact ⟨rd_wr_same _ _ _ _ _ (by decide), onlyRegs_wr _ _ _ _ _ (List.mem_singleton.mpr rfl)⟩

end Sys2Proof.Machine
end

section
/-! The expiries of WAIT_LIMIT: FIFO stalls, staged data, and the closing of reduce channels (R41, R239, R313). -/

namespace Sys2Proof.Machine

open Sys2Proof

set_option Elab.async false

/-! ### RUN_STATUS of a failed run -/

/-- A piste whose run a fault has ended shows it. -/
theorem runStatus_failRun {p : Nat} (hp : p < 64) {s : State} {id : Nat} (h : (pisteOf s p).run = some id) (status island leg : Nat) (u : Option Nat) :
    rd ((failRun p status island leg u).run s) (.pst p) Reg.PST.RUN_STATUS_STATE = 3 := by
  have hplain : plain (.pst p) Reg.PST.RUN_STATUS_STATE = true := plain_pst hp
  unfold failRun
  rw [run_look, h]
  dsimp only
  rw [run_progs_cons, run_progs_cons, run_progs_cons]
  refine (rd_congr (Only.regs (K := [.units, .gate, .sync]) ?_) _ _ _ hplain).trans (rd_wr_same _ _ _ _ _ hplain)
  exact only_cons only_modUnits (only_cons (only_forEach fun _ => only_modGate) (only_cons only_modSync only_nil))

theorem runStatus_faultLeg {p : Nat} (hp : p < 64) {s : State} {id : Nat} (h : (pisteOf s p).run = some id) (g leg code unit : Nat) (items : List Item) :
    rd ((faultLeg p g leg code unit items).run s) (.pst p) Reg.PST.RUN_STATUS_STATE = 3 := by
  unfold faultLeg
  rw [run_look]
  obtain ⟨u, t, e, hpistes, -⟩ := run_raiseSev_last 2 code (gateIsland p g) (iterOn s p) leg unit items
    (fun u => failRun p code (gateIsland p g) leg (some u)) s
  rw [e]
  refine runStatus_failRun hp (id := id) ?_ _ _ _ _
  unfold pisteOf at h ⊢
  rw [hpistes]
  exact h

/-- The run in progress on a piste has its number there. -/
theorem run_of_runOn {s : State} {p : Nat} {r : RunRec} (h : runOn s p = some r) : ∃ id, (pisteOf s p).run = some id := by
  unfold runOn at h
  obtain ⟨id, hid, -⟩ := Option.bind_eq_some_iff.mp h
  exact ⟨id, hid⟩

/-! ### FIFO stalls -/

theorem fifoStall_ends {s : State} {p : Fin 64} {r : RunRec} (hrun : runOn s p = some r) (hlim : rd s (.pst p) Reg.PST.WAIT_LIMIT ≠ 0) (g : Fin 12) (up : Bool)
    (hst : r.started = true) (hok : (pisteOf s p).failed = false) (hleft : bit r.left p = true)
    (hstall : let x := gateOf s (gateIsland p g)
      if up = true then 0 < x.need ∧ x.up = [] else x.busy = true ∧ x.held ≠ []) :
    ∃ t, exec (.fifoStallExpiry p g up) s = .next t ∧ HasRecord t (gateIsland p g) Code.SYNC_TIMEOUT ∧ (pisteOf t p).failed = true ∧
      rd t (.pst p) Reg.PST.RUN_STATUS_STATE = 3 ∧ t.counts = s.counts ∧ t.mem = s.mem := by
  obtain ⟨id, hid⟩ := run_of_runOn hrun
  have hstalled : (if up then decide (0 < (gateOf s (gateIsland p g)).need) && (gateOf s (gateIsland p g)).up.isEmpty
      else (gateOf s (gateIsland p g)).busy && !(gateOf s (gateIsland p g)).held.isEmpty) = true := by
    cases up <;> simpa using hstall
  have hex : exec (.fifoStallExpiry p g up) s = .next ((faultLeg p g (gateOf s (gateIsland p g)).next Code.SYNC_TIMEOUT 0
      [w32 (Config.fifoCode up).toNat]).run s) := by
    show done (progFifoStallExpiry p g up) s = _
    rw [done_eq]
    unfold progFifoStallExpiry
    rw [run_look, hrun]
    dsimp only
    rw [hst, hok, hleft, hstalled, bne_iff_ne.mpr hlim]
    rfl
  exact ⟨_, hex, hasRecord_faultLeg _ _ _ _ _ _ _, failed_faultLeg hid _ _ _ _ _, runStatus_faultLeg p.isLt hid _ _ _ _ _, only_faultLeg.counts, only_faultLeg.mem⟩

/-! ### Staged data and room in the output rings -/

/-- The record of a forerunner's timeout, and the run it ends. -/
def stageFault (p f iter : Nat) : Prog :=
  raiseSev 2 Code.SYNC_TIMEOUT (768 + p) iter noLeg f [] fun u => failRun p Code.SYNC_TIMEOUT (768 + p) noLeg (some u)

theorem only_stageFault (p f iter : Nat) : Only (.recs :: failK) (stageFault p f iter) :=
  only_raiseSev (fun _ => only_failRun.mono (by decide)) (by decide) (by decide)

theorem writes_stageFault (p f iter : Nat) : Writes (fun a => recordWords a ∨ a = fldAddr (.pst p) Reg.PST.RUN_STATUS_STATE 0) (stageFault p f iter) :=
  writes_raiseSev (fun _ => writes_failRun (.inr rfl)) fun _ h => .inl h

/-- A leg that stands on a forerunner's ring (R239). -/
def standsOn (s : State) (p f : Nat) (x : FrnEnt) : Bool :=
  let g := gateOf s (gateIsland p x.gate)
  if f = 2 then g.next == x.leg && g.busy && !ringsHold s p x.gate x.leg
  else match nextLeg s p x.gate with | some e => e.idx == x.leg && waitDone e | none => false

theorem run_stageTimeout {s : State} {p f : Nat} {r : RunRec} (hrun : runOn s p = some r) :
    (progStageTimeout p f).run s = (whenP (rd s (.pst p) Reg.PST.WAIT_LIMIT != 0 && (r.started && !(pisteOf s p).failed &&
      (frnList (runImg s p r) f).any fun x => standsOn s p f x.2)) (progs [wr (.frn p) Reg.FRN.CHECK_STAGE_TIMEOUT 1, stageFault p f r.iter])).run s := by
  unfold progStageTimeout
  rw [run_look, hrun]
  rfl

theorem stageTimeout_ends {s : State} {p : Fin 64} {r : RunRec} (hrun : runOn s p = some r) (hlim : rd s (.pst p) Reg.PST.WAIT_LIMIT ≠ 0) (f : Fin 4)
    (x : Nat × FrnEnt) (hx : x ∈ frnList (runImg s p r) f) (hst : r.started = true) (hok : (pisteOf s p).failed = false) (hstands :
      let g := gateOf s (gateIsland p x.2.gate)
      if f.val = 2 then g.next = x.2.leg ∧ g.busy = true ∧ ringsHold s p x.2.gate x.2.leg = false
      else ∃ e, nextLeg s p x.2.gate = some e ∧ e.idx = x.2.leg ∧ waitDone e = true) :
    ∃ t, exec (.stageTimeout p f) s = .next t ∧ rd t (.frn p) Reg.FRN.CHECK_STAGE_TIMEOUT = 1 ∧ HasRecord t (768 + p) Code.SYNC_TIMEOUT ∧
      (pisteOf t p).failed = true ∧ rd t (.pst p) Reg.PST.RUN_STATUS_STATE = 3 ∧ t.counts = s.counts ∧ t.mem = s.mem := by
  obtain ⟨id, hid⟩ := run_of_runOn hrun
  have hstand : standsOn s p f x.2 = true := by
    unfold standsOn
    dsimp only at hstands ⊢
    split at hstands
    · next hf =>
      obtain ⟨hn, hb, hr⟩ := hstands
      rw [if_pos hf, hn, hb, hr, beq_self_eq_true]
      rfl
    · next hf =>
      obtain ⟨e, hnext, hidx, hdone⟩ := hstands
      rw [if_neg hf, hnext]
      simp [hidx, hdone]
  have hany : ((frnList (runImg s p r) f).any fun x => standsOn s p f x.2) = true := List.any_eq_true.mpr ⟨x, hx, hstand⟩
  have hplain : plain (.frn p) Reg.FRN.CHECK_STAGE_TIMEOUT = true := plain_frn p.isLt
  refine ⟨_, done_eq (progStageTimeout p f) s, ?_⟩
  rw [run_stageTimeout hrun, hst, hok, hany, bne_iff_ne.mpr hlim, show (true && (true && !false && true)) = true from rfl, run_whenP_true, run_progs_cons,
    run_progs_cons, run_progs_nil]
  have hone := rd_wr_same s (.frn p) Reg.FRN.CHECK_STAGE_TIMEOUT 1 0 hplain
  have hwr : Only [.reg] (wr (.frn p) Reg.FRN.CHECK_STAGE_TIMEOUT 1) := only_wr
  have hidu : (pisteOf ((wr (.frn p) Reg.FRN.CHECK_STAGE_TIMEOUT 1).run s) p).run = some id := by rw [hwr.pisteOf, hid]
  have hcounts := hwr.counts (s := s)
  have hmem := hwr.mem (s := s)
  generalize (wr (.frn p) Reg.FRN.CHECK_STAGE_TIMEOUT 1).run s = u at hone hidu hcounts hmem ⊢
  obtain ⟨n, v, hv, hpistes, -⟩ := run_raiseSev_last 2 Code.SYNC_TIMEOUT (768 + p) r.iter noLeg f []
    (fun u => failRun p Code.SYNC_TIMEOUT (768 + p) noLeg (some u)) u
  have hidv : (pisteOf v p).run = some id := by
    unfold pisteOf at hidu ⊢
    rw [hpistes]
    exact hidu
  refine ⟨?_, hasRecord_raiseSev (fun _ => only_failRun.srcQueue _) u, ?_, ?_, (only_stageFault _ _ _).counts.trans hcounts, (only_stageFault _ _ _).mem.trans hmem⟩
  · rw [(writes_stageFault p f r.iter).rd (by simp only [recordWords, fldAddr, pageBase, Reg.FRN.CHECK_STAGE_TIMEOUT, Reg.PST.RUN_STATUS_STATE]; omega) hplain]
    exact hone
  · unfold stageFault
    rw [hv]
    exact failed_failRun hidv _ _ _ _
  · unfold stageFault
    rw [hv]
    exact runStatus_failRun p.isLt hidv _ _ _ _

/-! ### Reduce channels -/

/-- What the limit does to a leg that waits to close a reduce channel. -/
theorem exec_reduceCloseLimit {s : State} {p : Fin 64} {e : Env} (hnext : nextLeg s p 11 = some e) (hlim : rd s (.pst p) Reg.PST.WAIT_LIMIT ≠ 0)
    (hop : e.leg.op = 3) (hch : (redOf e.leg).chEn = true) (hw : (chanOf s p (redOf e.leg).ch).waiting = some e.run.id)
    (hready : closeReady (chanOf s p (redOf e.leg).ch) (redOf e.leg) e.run.iter = false) :
    exec (.reduceCloseLimit p) s = .next ((if (redOf e.leg).all ||
        !((List.range (redOf e.leg).k).any (bit (arrivedOf (chanOf s p (redOf e.leg).ch) e.run.iter)))
      then faultLeg p 11 e.idx Code.SYNC_TIMEOUT (redOf e.leg).ch [] else modChan p (redOf e.leg).ch fun y => { y with expired := true }).run s) := by
  show done (progReduceCloseLimit p) s = _
  rw [done_eq]
  unfold progReduceCloseLimit
  rw [run_look, hnext]
  dsimp only
  rw [hop, hch, hw, hready, bne_iff_ne.mpr hlim, beq_self_eq_true, beq_self_eq_true]
  rfl

theorem chanOf_modChan (p c : Nat) (f : ChanSt → ChanSt) (s : State) : chanOf ((modChan p c f).run s) p c = f (chanOf s p c) := smGet_set_same _ _ _ _

theorem reduceClose_limit {s : State} {p : Fin 64} {r : RunRec} (hrun : runOn s p = some r) (hlim : rd s (.pst p) Reg.PST.WAIT_LIMIT ≠ 0) (e : Env)
    (hnext : nextLeg s p 11 = some e) (hop : e.leg.op = 3) (hch : (redOf e.leg).chEn = true) (hw : (chanOf s p (redOf e.leg).ch).waiting = some e.run.id)
    (hready : closeReady (chanOf s p (redOf e.leg).ch) (redOf e.leg) e.run.iter = false) :
    let some_ := (List.range (redOf e.leg).k).any (bit (arrivedOf (chanOf s p (redOf e.leg).ch) e.run.iter))
    ((redOf e.leg).all = false → some_ = true →
      ∃ t, exec (.reduceCloseLimit p) s = .next t ∧ (chanOf t p (redOf e.leg).ch).expired = true ∧ t = { s with units := t.units }) ∧
    ((redOf e.leg).all = true ∨ some_ = false → ∃ t, exec (.reduceCloseLimit p) s = .next t ∧ HasRecord t (gateIsland p 11) Code.SYNC_TIMEOUT ∧
      (pisteOf t p).failed = true ∧ t.counts = s.counts ∧ t.mem = s.mem) := by
  obtain ⟨id, hid⟩ := run_of_runOn hrun
  rw [exec_reduceCloseLimit hnext hlim hop hch hw hready]
  dsimp only
  generalize (List.range (redOf e.leg).k).any (bit (arrivedOf (chanOf s p (redOf e.leg).ch) e.run.iter)) = marked
  refine ⟨fun hall hm => ⟨_, rfl, ?_⟩, fun h => ⟨_, rfl, ?_⟩⟩
  · rw [hall, hm, show (false || !true) = false from rfl, if_neg Bool.false_ne_true, chanOf_modChan]
    exact ⟨rfl, rfl⟩
  · rw [if_pos (by rcases h with h | h <;> simp [h])]
    exact ⟨hasRecord_faultLeg _ _ _ _ _ _ _, failed_faultLeg hid _ _ _ _ _, only_faultLeg.counts, only_faultLeg.mem⟩

end Sys2Proof.Machine
end

section
/-! The output forerunner: a staged result is written to memory (R234), and what the writing and the settling of a quarter leave. -/

namespace Sys2Proof.Machine

open Sys2Proof

set_option Elab.async false

/-! ### Settling changes no memory and no register but STATUS of gates -/

/-- The kinds of change that settling makes. -/
def settleK : List Kind := [.gate, .units, .reg]

theorem moveGate_only {p : Nat} {img : Img} {g : Nat} : Only [.gate] (moveGate p img g) := by
  refine only_look fun s => only_whenP ?_
  split
  · split
    · exact only_skip
    · exact only_seq only_modGate only_modGate
  · refine only_seq only_modGate ?_
    split
    · exact only_skip
    · exact only_look fun _ => only_seq only_modGate only_modGate

theorem moveAll_only (q : Nat) : ∀ n, Only [.gate] (moveAll q n)
  | 0 => only_skip
  | n + 1 => only_look fun _ => only_whenP (only_seq (only_forEach fun _ => moveGate_only) (moveAll_only q n))

theorem finishLeg_only {e : Env} : Only settleK (finishLeg e) :=
  only_cons only_modGate (only_cons only_wr (only_cons only_modUnits (only_cons (only_whenP only_modUnits) only_nil)))

theorem settleLeg_only {p g : Nat} : Only settleK (settleLeg p g) := by
  refine only_look fun s => ?_
  split
  · exact only_skip
  · exact finishLeg_only

theorem settle_only (q : Nat) : Only settleK (settle q) :=
  only_look fun _ => only_seq ((moveAll_only q _).mono (by decide)) (only_forEach fun _ => settleLeg_only)

/-- The results that wait for an output forerunner stay where they are while legs complete. -/
theorem keeps_outStage_settle (q : Nat) : Keeps (fun s => s.units.outStage) (settle q) := by
  have hfinish (e : Env) : Keeps (fun s => s.units.outStage) (finishLeg e) :=
    keeps_cons _ (fun _ => congrArg (·.outStage) (Only.units (K := [.gate]) only_modGate))
      (keeps_cons _ (fun _ => congrArg (·.outStage) (Only.units (K := [.reg]) only_wr)) (keeps_cons _ (fun _ => rfl)
        (keeps_cons _ (keeps_whenP _ _ fun _ => rfl) (keeps_nil _))))
  refine keeps_look _ fun s => keeps_seq _ (fun _ => congrArg (·.outStage) (moveAll_only q _).units) (keeps_forEach _ _ _ fun x _ => keeps_look _ fun t => ?_)
  split
  · exact keeps_skip _
  · exact hfinish _

/-- The words at the offset of a gate's STATUS. -/
def statusWords (a : Nat) : Prop := a % 4096 = 0x104

theorem statusWords_gate (p g : Nat) : statusWords (fldAddr (.gate p g) Reg.GATE.STATUS_STATE 0) := by
  simp only [statusWords, fldAddr, pageBase, Reg.GATE.STATUS_STATE]
  omega

theorem writes_settle (q : Nat) : Writes statusWords (settle q) := by
  refine writes_look fun s => writes_seq (moveAll_only q _).writes (writes_forEach fun x _ => writes_look fun t => ?_)
  split
  · exact writes_skip
  · exact writes_cons (only_modGate (K := [.gate])).writes (writes_cons (writes_wr (statusWords_gate _ _))
      (Only.writes (K := [.units]) (only_cons only_modUnits (only_cons (only_whenP only_modUnits) only_nil))))

/-! ### Writes of a leg to this module's memory -/

theorem nth_lt {α : Type} (l : List α) (i : Nat) (d : α) (h : i < l.length) : nth l i d = l[i] := by
  unfold nth
  rw [List.getElem?_eq_getElem h]
  rfl

/-- What a write of bytes leaves at every byte of a memory. -/
def WritesBytes (s t : State) (loc a : Nat) (l : List Byte) : Prop :=
  (∀ i, i < l.length → byteAt t loc (a + i) = nth l i 0) ∧ ∀ b, b < a ∨ a + l.length ≤ b → byteAt t loc b = byteAt s loc b

theorem writesBytes_hbm {s t : State} {a : Nat} {l : List Byte} (h : NoneOpen s a l.length) (hm : t.mem.hbm = smSetList byteDefault s.mem.hbm a l)
    (hk : t.stk.granules = s.stk.granules) : WritesBytes s t 0 a l := by
  constructor
  · intro i hi
    show hbmByte t (a + i) = _
    unfold hbmByte
    rw [openAt_congr hk, h i hi, hm, nth_lt _ _ _ hi]
    exact smGet_setList_in _ _ _ _ _ hi
  · intro b hb
    show hbmByte t b = hbmByte s b
    unfold hbmByte
    rw [openAt_congr hk, hm, smGet_setList_out _ _ _ _ _ hb]

theorem writesBytes_host {s t : State} {a : Nat} {l : List Byte} (hm : t.mem.host = smSetList byteDefault s.mem.host a l) : WritesBytes s t 1 a l := by
  constructor
  · intro i hi
    show smGet byteDefault t.mem.host (a + i) = _
    rw [hm, nth_lt _ _ _ hi]
    exact smGet_setList_in _ _ _ _ _ hi
  · intro b hb
    show smGet byteDefault t.mem.host b = smGet byteDefault s.mem.host b
    rw [hm, smGet_setList_out _ _ _ _ _ hb]

/-- A write to HBM, where no granule is open, or to host memory changes the bytes written and marks of poison. -/
theorem run_performWrite {s : State} {loc a : Nat} {l : List Byte} (hloc : loc ≤ 1) (h : loc = 0 → NoneOpen s a l.length) (p g leg node cls : Nat) :
    ∃ m, (performWrite p g leg loc node cls a l false).run s = { s with mem := m } ∧ WritesBytes s { s with mem := m } loc a l := by
  match loc, hloc with
  | 0, _ => exact ⟨_, run_hbmWrite s a l (h rfl), writesBytes_hbm (h rfl) rfl rfl⟩
  | 1, _ => exact ⟨_, run_hostWrite s a l, writesBytes_host rfl⟩

/-! ### The output forerunner -/

/-- The output forerunner's step, where it writes. -/
theorem run_writeback {p : Fin 64} {s : State} {w : StagedWrite} {r : RunRec} {k : Nat} {x : FrnEnt} (hrun : runOn s p = some r)
    (hout : outEntry s p (runImg s p r) = some (k, x))
    (hw : s.units.outStage.find? (fun y => y.piste == p.val && y.gate == x.gate && y.leg == x.leg && y.operand == x.operand && y.inRing) = some w)
    (hpoison : w.poison = false) (htag : tagless s p = false) (hhot : w.loc = 0 → hotRange s w.addr w.bytes.length = false)
    (href : refusedIn s [] [{ loc := w.loc, node := 0, space := 0, addr := w.addr, len := w.bytes.length }] = none) :
    (progForerunnerWriteback p []).run s = (settle (p / 16)).run ((performWrite w.piste w.gate w.leg w.loc w.node w.cls w.addr w.bytes false).run
      ((modUnits fun u => { u with outStage := enterRings (runImg s p r) p [] (eraseFirst w u.outStage) }).run
        ((wr (.frn p) Reg.FRN.FRN_STATUS_ENTRY k 2).run s))) := by
  have hgo : ((w.loc == 0 && hotRange s w.addr w.bytes.length) || (w.loc != 2 && tagless s p)) = false := by
    rw [htag, Bool.and_false, Bool.or_false]
    by_cases h : w.loc = 0
    · rw [hhot h, Bool.and_false]
    · rw [beq_eq_false_iff_ne.mpr h, Bool.false_and]
  unfold progForerunnerWriteback
  rw [run_look, hrun]
  dsimp only
  rw [hout]
  dsimp only
  rw [hw]
  dsimp only
  rw [hgo, if_neg Bool.false_ne_true, show hostErrors [] = [] from rfl, href, hpoison,
    show ringPoison [] x = false from rfl, Bool.or_false]
  dsimp only
  rw [run_seq, run_progs_cons, run_progs_cons, run_forEach_nil, run_progs_cons, run_seq, run_progs_nil]

theorem not_statusWords_frn (p : Nat) : ¬ statusWords (fldAddr (.frn p) Reg.FRN.FRN_STATUS_ENTRY 2) := by
  simp only [statusWords, fldAddr, pageBase, Reg.FRN.FRN_STATUS_ENTRY]
  omega

theorem writeback_writes {s : State} {p : Fin 64} {w : StagedWrite} {r : RunRec} {k : Nat} {x : FrnEnt} (hrun : runOn s p = some r)
    (hout : outEntry s p (runImg s p r) = some (k, x))
    (hw : s.units.outStage.find? (fun y => y.piste == p.val && y.gate == x.gate && y.leg == x.leg && y.operand == x.operand && y.inRing) = some w)
    (hpoison : w.poison = false) (htag : tagless s p = false) (hhot : w.loc = 0 → hotRange s w.addr w.bytes.length = false)
    (href : refusedIn s [] [{ loc := w.loc, node := 0, space := 0, addr := w.addr, len := w.bytes.length }] = none) (loc : Nat) (hl : w.loc = loc)
    (hloc : loc ≤ 1) (hopen : loc = 0 → NoneOpen s w.addr w.bytes.length) :
    ∃ t, exec (.forerunnerWriteback p []) s = .next t ∧ (∀ i, i < w.bytes.length → byteAt t loc (w.addr + i) = nth w.bytes i 0) ∧
      (∀ b, b < w.addr ∨ w.addr + w.bytes.length ≤ b → byteAt t loc b = byteAt s loc b) ∧
      t.units.outStage = enterRings (runImg s p r) p [] (eraseFirst w s.units.outStage) ∧
      rd t (.frn p) Reg.FRN.FRN_STATUS_ENTRY 2 = k % 2 ^ Reg.FRN.FRN_STATUS_ENTRY.w ∧ t.counts = s.counts ∧ t.runs = s.runs := by
  refine ⟨_, done_eq (progForerunnerWriteback p []) s, ?_⟩
  rw [run_writeback hrun hout hw hpoison htag hhot href, hl]
  have hplain : plain (.frn p) Reg.FRN.FRN_STATUS_ENTRY 2 = true := plain_frn p.isLt
  have hwr : Only [.reg] (wr (.frn p) Reg.FRN.FRN_STATUS_ENTRY k 2) := only_wr
  have hshow := rd_wr_same s (.frn p) Reg.FRN.FRN_STATUS_ENTRY k 2 hplain
  generalize hu : (modUnits _).run ((wr (.frn p) Reg.FRN.FRN_STATUS_ENTRY k 2).run s) = u
  have humem : u.mem = s.mem := by rw [← hu, (only_modUnits (K := [.units])).mem, hwr.mem]
  have hustk : u.stk = s.stk := by rw [← hu, (only_modUnits (K := [.units])).stk, hwr.stk]
  have hucounts : u.counts = s.counts := by rw [← hu, (only_modUnits (K := [.units])).counts, hwr.counts]
  have huruns : u.runs = s.runs := by rw [← hu, (only_modUnits (K := [.units])).runs, hwr.runs]
  have hustage : u.units.outStage = enterRings (runImg s p r) p [] (eraseFirst w s.units.outStage) := by
    rw [← hu, run_modUnits, apply_units]
    dsimp only
    rw [hwr.units]
  have hurd : rd u (.frn p) Reg.FRN.FRN_STATUS_ENTRY 2 = k % 2 ^ Reg.FRN.FRN_STATUS_ENTRY.w := by
    rw [← hu, rd_congr (only_modUnits (K := [.units])).regs _ _ _ hplain, hshow]
  clear hu
  have hbyte (b : Nat) : byteAt u loc b = byteAt s loc b := by
    unfold byteAt hbmByte hostByte
    rw [humem, openAt_congr (congrArg (·.granules) hustk)]
  obtain ⟨m, hm, hin, hoff⟩ := run_performWrite (s := u) hloc
    (fun h i hi => (openAt_congr (congrArg (·.granules) hustk) _).trans (hopen h i hi)) w.piste w.gate w.leg w.node w.cls
  rw [hm]
  have hsettle := settle_only (p / 16)
  have hkept (b : Nat) : byteAt ((settle (p / 16)).run { u with mem := m }) loc b = byteAt { u with mem := m } loc b := by
    unfold byteAt hbmByte hostByte
    rw [hsettle.mem, openAt_congr (congrArg (·.granules) hsettle.stk)]
  refine ⟨fun i hi => (hkept _).trans (hin i hi), fun b hb => ((hkept _).trans (hoff b hb)).trans (hbyte b), ?_, ?_, ?_, ?_⟩
  · exact (keeps_outStage_settle (p / 16) _).trans hustage
  · rw [(writes_settle (p / 16)).rd (not_statusWords_frn p) hplain]
    refine (rd_congr (s := u) ?_ _ _ _ hplain).trans hurd
    rfl
  · rw [hsettle.counts]
    exact hucounts
  · rw [hsettle.runs]
    exact huruns

end Sys2Proof.Machine
end

section
/-! What a request does (R294, R297, R298): it changes the fabric, and registers of the node's own port page, alone. -/

namespace Sys2Proof.Machine

open Sys2Proof

set_option Elab.async false

/-- The kinds of change that a message makes on its way out. -/
def fabricK : List Kind := [.bnd, .reg]

/-- Words of a page beyond the first four registers of its block: all that messages and reads write. -/
def lateWords (a : Nat) : Prop := 0x110 ≤ a % 4096

theorem lateWords_bnd7 {f : Fld} (h : 0x110 ≤ f.off ∧ f.off < 4096) : lateWords (fldAddr (.bnd 7) f 0) := by
  simp only [lateWords, fldAddr, pageBase]
  omega

theorem only_modLink {K : List Kind} {p : Nat} {f : LinkSt → LinkSt} (h : Kind.bnd ∈ K := by decide) : Only K (modLink p f) := only_modBnd h

theorem only_putFlit {p t n : Nat} {l : List Byte} : Only [.bnd] (putFlit p t n l) := only_look fun _ => only_seq only_modLink only_modBnd

theorem only_emitFlit {p t : Nat} {l : List Byte} {b : Bool} : Only [.bnd] (emitFlit p t l b) := only_look fun _ => by
  cases b
  · exact only_putFlit
  · exact only_seq only_putFlit only_modLink

theorem only_sendOne {p : Nat} {m : Msg} : Only [.bnd] (sendOne p m) :=
  only_cons only_modBnd (only_cons only_modLink (only_cons (only_forEach fun _ => only_emitFlit) only_nil))

theorem only_pump (p : Nat) : ∀ n, Only [.bnd] (pump p n)
  | 0 => only_skip
  | n + 1 => only_look fun s => only_whenP (by
      split
      · exact only_skip
      · exact only_seq only_sendOne (only_pump p n))

theorem only_queueOn {p : Nat} {m : Msg} : Only [.bnd] (queueOn p m) := only_seq only_modBnd (only_look fun _ => only_pump p _)

theorem only_deliver {p flits : Nat} {m : Msg} : Only [.bnd] (deliver p flits m) := only_modBnd

theorem only_unreachable {m : Msg} {reason : Nat} {back : Msg → Prog} (h : ∀ m, Only fabricK (back m)) : Only fabricK (unreachable m reason back) :=
  only_look fun _ => only_cons (only_whenP (only_cons only_addSat (only_cons (only_look fun _ => only_whenP (only_seq only_wr only_wr)) (only_cons only_wr only_nil))))
    (only_cons (only_whenP (h _)) only_nil)

theorem writes_unreachable {m : Msg} {reason : Nat} {back : Msg → Prog} (h : ∀ m, Writes lateWords (back m)) : Writes lateWords (unreachable m reason back) :=
  writes_look fun _ => writes_cons
    (writes_whenP fun _ => writes_cons (writes_addSat (lateWords_bnd7 (by decide)))
      (writes_cons (writes_look fun _ => writes_whenP fun _ => writes_seq (writes_wr (lateWords_bnd7 (by decide))) (writes_wr (lateWords_bnd7 (by decide))))
        (writes_cons (writes_wr (lateWords_bnd7 (by decide))) writes_nil)))
    (writes_cons (writes_whenP fun _ => h _) writes_nil)

/-- The branches of a message's way: it is delivered here, put on a port, answered as unreachable, or redirected. -/
theorem routeMsg_cases {P : Prog → Prop} (hskip : P .skip) (hdeliver : ∀ m, P (deliver 7 0 m)) (hqueue : ∀ p m, P (queueOn p m))
    (hback : ∀ n m reason, (∀ m, P (routeMsg n m)) → P (unreachable m reason (routeMsg n))) (hlook : ∀ f : State → Prog, (∀ s, P (f s)) → P (.look f)) :
    ∀ n m, P (routeMsg n m) := by
  intro n
  induction n with
  | zero => exact fun _ => hskip
  | succ n ih =>
    intro m
    refine hlook _ fun s => ?_
    split
    · exact hdeliver _
    · exact hback _ _ _ ih
    · split
      · exact hback _ _ _ ih
      · split
        · exact hqueue _ _
        · split
          · exact hback _ _ _ ih
          · split
            · split
              · split
                · exact hdeliver _
                · exact hback _ _ _ ih
              · exact ih _
            · dsimp only
              split
              · exact hqueue _ _
              · exact hback _ _ _ ih

theorem only_routeMsg (n : Nat) (m : Msg) : Only fabricK (routeMsg n m) :=
  routeMsg_cases (P := Only fabricK) only_skip (fun _ => only_deliver.mono (by decide)) (fun _ _ => only_queueOn.mono (by decide))
    (fun _ _ _ h => only_unreachable h) (fun _ h => only_look h) n m

theorem writes_routeMsg (n : Nat) (m : Msg) : Writes lateWords (routeMsg n m) :=
  routeMsg_cases (P := Writes lateWords) writes_skip (fun _ => only_deliver.writes) (fun _ _ => only_queueOn.writes)
    (fun _ _ _ h => writes_unreachable h) (fun _ h => writes_look h) n m

theorem only_request {m : Msg} {p : Option Nat} {g l q n k : Nat} : Only fabricK (request m p g l q n k) := by
  refine only_look fun s => ?_
  dsimp only
  split
  · exact only_look fun _ => only_seq only_modBnd (only_look fun _ => only_routeMsg _ _)
  · exact only_modBnd

theorem writes_request (m : Msg) (p : Option Nat) (g l q n k : Nat) : Writes lateWords (request m p g l q n k) := by
  refine writes_look fun s => ?_
  dsimp only
  split
  · exact writes_look fun _ => writes_seq (only_modBnd (K := [.bnd])).writes (writes_look fun _ => writes_routeMsg _ _)
  · exact (only_modBnd (K := [.bnd])).writes

theorem only_sendGet {p g leg : Nat} {x : Span} : Only fabricK (sendGet p g leg x) := only_forEach fun _ => only_request

theorem writes_sendGet (p g leg : Nat) (x : Span) : Writes lateWords (sendGet p g leg x) := writes_forEach fun _ _ => writes_request _ _ _ _ _ _ _

/-- Poison delivered by reads shows in the later words of the stacks' pages. -/
theorem writes_countPoison (l : List Span) : Writes lateWords (countPoison l) :=
  writes_forEach fun _ _ => (writes_deliverPoison _ _).mono fun a h => by
    simp only [stackWords, fldAddr, pageBase, Reg.STK.ECC_STATUS_POISON_READ, Reg.STK.POISON_COUNT] at h
    obtain ⟨st, h | h⟩ := h <;> simp only [lateWords] <;> omega

end Sys2Proof.Machine
end

section
/-! Bytes kept for a leg (R224, R234): which spans are there once a forerunner has read them, and what stays there. -/

namespace Sys2Proof.Machine

open Sys2Proof

set_option Elab.async false

/-! ### Fetched bytes -/

/-- Whether fetched bytes hold an address of a span's place. -/
def holdsByte (f : Fetched) (y : Span) (a : Nat) : Prop :=
  f.loc = y.loc ∧ f.node = y.node ∧ f.space = y.space ∧ f.addr ≤ a ∧ a < f.addr + f.bytes.length

theorem fetchedAt_isSome (l : List Fetched) (y : Span) (a : Nat) :
    (fetchedAt l y.loc y.node y.space a).isSome = true ↔ ∃ f ∈ l, holdsByte f y a := by
  simp [fetchedAt, holdsByte, List.find?_isSome, and_assoc]

theorem spanHere_iff (l : List Fetched) (y : Span) : spanHere l y = true ↔ ∀ i, i < y.len → ∃ f ∈ l, holdsByte f y (y.addr + i) := by
  simp only [spanHere, List.all_eq_true, List.mem_range, fetchedAt_isSome]

/-- A span stays here while more bytes are fetched. -/
theorem spanHere_mono {l m : List Fetched} {y : Span} (h : spanHere l y = true) (hlm : ∀ f ∈ l, f ∈ m) : spanHere m y = true := by
  rw [spanHere_iff] at h ⊢
  intro i hi
  obtain ⟨f, hf, hb⟩ := h i hi
  exact ⟨f, hlm f hf, hb⟩

theorem viewBytes_length (v : View) (loc node space a n : Nat) : (viewBytes v loc node space a n).length = n := by
  unfold viewBytes
  split
  · split
    · unfold hbmRead
      split <;> simp [smList]
    · simp [smList]
    · simp [smList]
    · simp
  · simp

/-! ### The words of a span -/

/-- Every place of a run of bytes lies in one of its pieces. -/
theorem Pieces.covers {u a : Nat} {l : List Byte} {ps : List (Nat × List Byte)} (h : Pieces u a l ps) :
    ∀ i, i < l.length → ∃ w ∈ ps, w.1 ≤ a + i ∧ a + i < w.1 + w.2.length := by
  induction h with
  | nil a => exact fun i hi => absurd hi (Nat.not_lt_zero i)
  | cons a x y r _ _ _ ih =>
    intro i hi
    by_cases hx : i < x.length
    · exact ⟨(a, x), List.mem_cons_self, Nat.le_add_right _ _, by dsimp only; omega⟩
    · rw [List.length_append] at hi
      obtain ⟨w, hw, hlo, hhi⟩ := ih (i - x.length) (by omega)
      exact ⟨w, List.mem_cons_of_mem _ hw, by omega, by omega⟩

theorem spanWords_covers (e : Env) (y : Span) (i : Nat) (hi : i < y.len) :
    ∃ w ∈ spanWords e y, w.loc = y.loc ∧ w.node = y.node ∧ w.space = y.space ∧ w.addr ≤ y.addr + i ∧ y.addr + i < w.addr + w.len := by
  unfold spanWords
  split
  · obtain ⟨w, hw, hlo, hhi⟩ := (cut_pieces 64 (by decide) y.addr (List.replicate y.len 0)).covers i (by rwa [List.length_replicate])
    exact ⟨_, List.mem_map.mpr ⟨w, hw, rfl⟩, rfl, rfl, rfl, hlo, hhi⟩
  · exact ⟨y, List.mem_singleton.mpr rfl, rfl, rfl, rfl, Nat.le_add_right _ _, Nat.add_lt_add_left hi _⟩

/-! ### Spans kept -/

/-- A span's bytes as they are kept for a leg. -/
def keptBytes (e : Env) (x : Span) : Fetched :=
  { piste := e.p, gate := e.g, leg := e.idx, loc := x.loc, node := x.node, space := x.space, addr := x.addr,
    bytes := viewBytes e.view x.loc x.node x.space x.addr x.len
    poison := spanPoison e x }

theorem fetched_keepSpans (e : Env) (l : List Span) (s : State) :
    ((keepSpans e l).run s).units.fetched =
      s.units.fetched ++ ((l.filter fun x => x.loc != 3 && !spanHere e.got x).flatMap (spanWords e)).map (keptBytes e) := rfl

/-- Spans of this module are here for the leg once they have been kept. -/
theorem spanHere_keepSpans {e : Env} {l : List Span} {s : State} (hgot : ∀ f ∈ e.got, f ∈ fetchedFor s e.p e.g e.idx) {y : Span} (hy : y ∈ l)
    (hloc : y.loc ≠ 3) : spanHere (fetchedFor ((keepSpans e l).run s) e.p e.g e.idx) y = true := by
  unfold fetchedFor
  rw [fetched_keepSpans]
  by_cases hhere : spanHere e.got y = true
  · refine spanHere_mono hhere fun f hf => ?_
    rw [List.filter_append]
    exact List.mem_append_left _ (hgot f hf)
  · rw [spanHere_iff]
    intro i hi
    obtain ⟨w, hw, hwloc, hwnode, hwspace, hlo, hhi⟩ := spanWords_covers e y i hi
    refine ⟨keptBytes e w, ?_, hwloc, hwnode, hwspace, hlo, by rw [keptBytes, viewBytes_length]; exact hhi⟩
    rw [List.mem_filter]
    refine ⟨List.mem_append_right _ (List.mem_map.mpr ⟨w, List.mem_flatMap.mpr ⟨y, List.mem_filter.mpr ⟨hy, ?_⟩, hw⟩, rfl⟩), by simp [keptBytes]⟩
    rw [bne_iff_ne.mpr hloc, Bool.eq_false_iff.mpr hhere]
    rfl

end Sys2Proof.Machine
end

section
/-! The forerunners that read ahead (R232 to R238), and the obligation on limits, forerunners, regions and weight sets. -/

namespace Sys2Proof.Machine

open Sys2Proof

set_option Elab.async false

/-! ### FRN_STATUS -/

/-- ENTRY and STATE of a forerunner stand in one word. -/
theorem fldAddr_frnState (p f : Nat) : fldAddr (.frn p) Reg.FRN.FRN_STATUS_STATE f = fldAddr (.frn p) Reg.FRN.FRN_STATUS_ENTRY f := rfl

theorem plain_frnEntry (p : Fin 64) (f : Fin 4) : plain (.frn p) Reg.FRN.FRN_STATUS_ENTRY f = true := plain_frn p.isLt (by revert f; decide)

theorem plain_frnState (p : Fin 64) (f : Fin 4) : plain (.frn p) Reg.FRN.FRN_STATUS_STATE f = true := plain_frn p.isLt (by revert f; decide)

theorem not_lateWords_frn (p : Nat) (f : Fin 4) : ¬ lateWords (fldAddr (.frn p) Reg.FRN.FRN_STATUS_ENTRY f) := by
  simp only [lateWords, fldAddr, pageBase, Reg.FRN.FRN_STATUS_ENTRY]
  omega

/-- STATE written: it reads so, and ENTRY stays. -/
theorem rd_frnState (p : Fin 64) (f : Fin 4) (v : Nat) (s : State) :
    rd ((wr (.frn p) Reg.FRN.FRN_STATUS_STATE v f).run s) (.frn p) Reg.FRN.FRN_STATUS_STATE f = v % 4 ∧
      rd ((wr (.frn p) Reg.FRN.FRN_STATUS_STATE v f).run s) (.frn p) Reg.FRN.FRN_STATUS_ENTRY f = rd s (.frn p) Reg.FRN.FRN_STATUS_ENTRY f :=
  ⟨rd_wr_same _ _ _ _ _ (plain_frnState p f), rd_wr_other _ _ _ _ _ _ _ _ (plain_frnState p f) (plain_frnEntry p f) (.inr (.inr (by decide)))⟩

/-- A forerunner that waits shows its entry, and changes nothing else. -/
theorem frn_waits (p : Fin 64) (f : Fin 4) {i : Nat} (hi : i < 2 ^ Reg.FRN.FRN_STATUS_ENTRY.w) (v : Nat) (s : State) :
    let t := (Prog.seq (wr (.frn p) Reg.FRN.FRN_STATUS_ENTRY i f) (wr (.frn p) Reg.FRN.FRN_STATUS_STATE v f)).run s
    rd t (.frn p) Reg.FRN.FRN_STATUS_ENTRY f = i ∧ rd t (.frn p) Reg.FRN.FRN_STATUS_STATE f = v % 4 ∧
      OnlyRegs s t [fldAddr (.frn p) Reg.FRN.FRN_STATUS_ENTRY f] := by
  dsimp only
  rw [run_seq]
  obtain ⟨hstate, hentry⟩ := rd_frnState p f v ((wr (.frn p) Reg.FRN.FRN_STATUS_ENTRY i f).run s)
  refine ⟨hentry.trans ?_, hstate, onlyRegs_trans (onlyRegs_wr _ _ _ _ _ (List.mem_singleton.mpr rfl))
    (onlyRegs_wr _ _ _ _ _ (List.mem_singleton.mpr (fldAddr_frnState p f)))⟩
  rw [rd_wr_same _ _ _ _ _ (plain_frnEntry p f), Nat.mod_eq_of_lt hi]

/-- A forerunner that goes to an entry shows it, and changes nothing else. -/
theorem frn_next (p : Fin 64) (f : Fin 4) {i : Nat} (hi : i < 2 ^ Reg.FRN.FRN_STATUS_ENTRY.w) (s : State) :
    rd ((wr (.frn p) Reg.FRN.FRN_STATUS_ENTRY i f).run s) (.frn p) Reg.FRN.FRN_STATUS_ENTRY f = i ∧
      OnlyRegs s ((wr (.frn p) Reg.FRN.FRN_STATUS_ENTRY i f).run s) [fldAddr (.frn p) Reg.FRN.FRN_STATUS_ENTRY f] :=
  ⟨by rw [rd_wr_same _ _ _ _ _ (plain_frnEntry p f), Nat.mod_eq_of_lt hi], onlyRegs_wr _ _ _ _ _ (List.mem_singleton.mpr rfl)⟩

/-! ### One step of a forerunner -/

/-- Whether an entry's leg has issued. -/
def frnIssued (s : State) (p : Nat) (x : FrnEnt) : Bool :=
  let g := gateOf s (gateIsland p x.gate)
  decide (x.leg < g.next) || (g.next == x.leg && g.busy)

theorem frnIssued_iff (s : State) (p : Nat) (x : FrnEnt) : frnIssued s p x = true ↔
    x.leg < (gateOf s (gateIsland p x.gate)).next ∨ (gateOf s (gateIsland p x.gate)).next = x.leg ∧ (gateOf s (gateIsland p x.gate)).busy = true := by
  simp [frnIssued]

/-- The regions of an operand. -/
def frnRegions (d : Desc) : List Nat :=
  d.region :: (if d.scaleMode = 1 then [d.scaleRegion] else []) ++ (if d.outEn = 1 then [d.outRegion] else [])

/-- Whether an entry's operand may be fetched ahead (R236). -/
def frnAhead (s : State) (p : Nat) (r : RunRec) (x : FrnEnt) : Bool :=
  let e := frnEnv s p r x
  let d := e.desc (frnIdx e x)
  let y := imgSync e.img e.leg.wsync
  ((frnRegions d).all fun n => rgnPf (rgnOf s p n)) && descStatus s p d .rd == 0 &&
    (!e.leg.waitEn || x.early || decide (syncTarget y r.iter ≤ syncCount s p y))

/-- What a forerunner reads at once. -/
def readNow (e : Env) (f : Nat) (x : FrnEnt) (ram : List SramErr) (now : List Span) : Prog :=
  progs [
    forEach ram (ramError e), holdPages now, countPoison now, keepSpans e now, forEach (now.filter (·.loc == 3)) (sendGet e.p x.gate x.leg),
    withFreeBytes x.stageSize (scratchWrite e.p x.stageOff), wr (.frn e.p) Reg.FRN.FRN_STATUS_STATE 1 f]

/-- The bytes staged for the earlier entries whose legs have not issued. -/
def frnOthers (s : State) (p : Nat) (r : RunRec) (f i : Nat) : Nat :=
  (((frnList (runImg s p r) f).filter fun z => decide (z.1 < i) && !frnIssued s p z.2).map fun z => frnStaged (frnEnv s p r z.2) z.2).foldl (· + ·) 0

/-- The wanted spans that lie on no stack at CRIT. -/
def frnCool (s : State) (l : List Span) : List Span := l.filter fun z => !(z.loc == 0 && hotRange s z.addr z.len)

/-- An entry that may be fetched ahead: what is wanted of it is read as there is room, or the forerunner goes on or waits. -/
def frnReads (s : State) (p : Nat) (r : RunRec) (f i : Nat) (x : FrnEnt) (ram : List SramErr) : Prog :=
  let e := frnEnv s p r x
  let wants := frnWants e x (hostErrors ram) (frnStages e x)
  let cool := frnCool s wants.1
  let now := fitting (min x.stageSize (2 ^ 22 - frnOthers s p r f i) - frnStaged e x) cool
  let st := fun v => wr (.frn p) Reg.FRN.FRN_STATUS_STATE v f
  if wants.1.isEmpty then (if wants.2 && frnDecided e x then wr (.frn p) Reg.FRN.FRN_STATUS_ENTRY (i + 1) f else st 2)
  else if getsOpen s p x.gate x.leg || cool.isEmpty then st 1
  else if now.isEmpty then st 3
  else if tagless s p && streams now then st 1
  else readNow e f x ram now

/-- The step of a forerunner at one of its entries. -/
def frnStep (s : State) (p : Nat) (r : RunRec) (f i : Nat) (x : FrnEnt) (ram : List SramErr) : Prog :=
  let e := frnEnv s p r x
  if frnIssued s p x || descEmpty (e.desc (frnIdx e x)) then wr (.frn p) Reg.FRN.FRN_STATUS_ENTRY (i + 1) f
  else .seq (wr (.frn p) Reg.FRN.FRN_STATUS_ENTRY i f)
    (if !frnAhead s p r x || (frnStages e x).isEmpty then wr (.frn p) Reg.FRN.FRN_STATUS_STATE 2 f else frnReads s p r f i x ram)

theorem run_forerunner {s : State} {p f : Nat} {r : RunRec} {i : Nat} {x : FrnEnt} (hrun : runOn s p = some r) (hst : r.started = true)
    (hok : (pisteOf s p).failed = false) (hf : f ≠ 2)
    (hfind : (frnList (runImg s p r) f).find? (fun z => decide (rd s (.frn p) Reg.FRN.FRN_STATUS_ENTRY f ≤ z.1)) = some (i, x)) (ram : List SramErr) :
    (progForerunnerFetch p f ram).run s = (frnStep s p r f i x ram).run s := by
  unfold progForerunnerFetch
  rw [run_look, hrun]
  dsimp only
  rw [hst, hok, bne_iff_ne.mpr hf, show (true && !false && true) = true from rfl, run_whenP_true, hfind]
  rfl

/-! ### Reading ahead -/

/-- The kinds of change that reading ahead makes. -/
def readK : List Kind := [.flag .atc, .reg, .units, .bnd, .free, .bytes .scratch, .flag .scratchPoison]

/-- A staging ring whose bytes are free: the scratchpad beside it stays. -/
theorem scratch_ring (p off n : Nat) (s : State) {a : Nat} (h : ¬ (scratchKey p off ≤ a ∧ a < scratchKey p off + n)) :
    smGet byteDefault ((withFreeBytes n (scratchWrite p off)).run s).mem.scratch a = smGet byteDefault s.mem.scratch a := by
  unfold withFreeBytes
  rw [run_look]
  dsimp only
  rw [run_seq, run_scratchWrite]
  refine smGet_setList_out _ _ _ _ _ ?_
  rw [List.length_take]
  omega

theorem run_readNow (e : Env) (f : Nat) (x : FrnEnt) (now : List Span) (s : State) :
    (readNow e f x [] now).run s = (wr (.frn e.p) Reg.FRN.FRN_STATUS_STATE 1 f).run ((withFreeBytes x.stageSize (scratchWrite e.p x.stageOff)).run
      ((forEach (now.filter (·.loc == 3)) (sendGet e.p x.gate x.leg)).run ((keepSpans e now).run ((countPoison now).run ((holdPages now).run s))))) := by
  unfold readNow
  rw [run_progs_cons, run_forEach_nil, run_progs_cons, run_progs_cons, run_progs_cons, run_progs_cons, run_progs_cons, run_progs_cons, run_progs_nil]

theorem only_gets {e : Env} {x : FrnEnt} {l : List Span} : Only fabricK (forEach l (sendGet e.p x.gate x.leg)) := only_forEach fun _ => only_sendGet

theorem only_ring {n p off : Nat} : Only [.free, .bytes .scratch, .flag .scratchPoison] (withFreeBytes n (scratchWrite p off)) :=
  only_withFreeBytes fun _ => only_scratchWrite

theorem only_readNow (e : Env) (f : Nat) (x : FrnEnt) (now : List Span) : Only readK (readNow e f x [] now) :=
  only_cons (only_forEach_mem fun _ h => absurd h List.not_mem_nil) (only_cons only_holdPages (only_cons only_countPoison (only_cons only_modUnits
    (only_cons (only_gets.mono (by decide)) (only_cons (only_ring.mono (by decide)) (only_cons only_wr only_nil))))))

/-- What is read ahead is there for the leg, and the ring alone of the scratchpad is written. -/
theorem readNow_reads {e : Env} {p : Fin 64} (f : Fin 4) (hp : e.p = p) {x : FrnEnt} (hg : e.g = x.gate) (hi : e.idx = x.leg) {s : State}
    (hgot : e.got = fetchedFor s p x.gate x.leg) (now : List Span) :
    let t := (readNow e f x [] now).run s
    rd t (.frn p) Reg.FRN.FRN_STATUS_ENTRY f = rd s (.frn p) Reg.FRN.FRN_STATUS_ENTRY f ∧ rd t (.frn p) Reg.FRN.FRN_STATUS_STATE f = 1 ∧
      (∀ y ∈ now, y.loc ≠ 3 → spanHere (fetchedFor t p x.gate x.leg) y = true) ∧
      (∀ a, ¬ (scratchKey p x.stageOff ≤ a ∧ a < scratchKey p x.stageOff + x.stageSize) →
        smGet byteDefault t.mem.scratch a = smGet byteDefault s.mem.scratch a) := by
  dsimp only
  rw [run_readNow, hp]
  have hhold : Only [.flag .atc] (holdPages now) := only_holdPages
  have hcount : Only [.reg] (countPoison now) := only_countPoison
  have hkeep : Only [.units] (keepSpans e now) := only_modUnits
  have hgets : Only fabricK (forEach (now.filter (·.loc == 3)) (sendGet p x.gate x.leg)) := only_forEach fun _ => only_sendGet
  have hring : Only [.free, .bytes .scratch, .flag .scratchPoison] (withFreeBytes x.stageSize (scratchWrite p x.stageOff)) := only_ring
  have hshow : Only [.reg] (wr (.frn p) Reg.FRN.FRN_STATUS_STATE 1 f) := only_wr
  obtain ⟨hstate, hentry⟩ := rd_frnState p f 1 ((withFreeBytes x.stageSize (scratchWrite p x.stageOff)).run
      ((forEach (now.filter (·.loc == 3)) (sendGet p x.gate x.leg)).run ((keepSpans e now).run ((countPoison now).run ((holdPages now).run s)))))
  refine ⟨hentry.trans ?_, hstate, fun y hy hloc => ?_, fun a ha => ?_⟩
  · have hplain := plain_frnEntry p f
    have hgetsw : Writes lateWords (forEach (now.filter (·.loc == 3)) (sendGet p x.gate x.leg)) := writes_forEach fun _ _ => writes_sendGet _ _ _ _
    rw [rd_congr hring.regs _ _ _ hplain, hgetsw.rd (not_lateWords_frn p f) hplain, rd_congr hkeep.regs _ _ _ hplain,
      (writes_countPoison now).rd (not_lateWords_frn p f) hplain, rd_congr hhold.regs _ _ _ hplain]
  · have hkept := spanHere_keepSpans (e := e) (l := now) (s := (countPoison now).run ((holdPages now).run s))
      (fun g hgm => by
        rw [hgot] at hgm
        unfold fetchedFor at hgm ⊢
        rw [hcount.units, hhold.units, hp, hg, hi]
        exact hgm) hy hloc
    rw [hp, hg, hi] at hkept
    unfold fetchedFor at hkept ⊢
    rw [hshow.units, hring.units, hgets.units]
    exact hkept
  · rw [hshow.mem, scratch_ring _ _ _ _ ha, hgets.mem, hkeep.mem, hcount.mem]
    exact congrArg (smGet byteDefault · a) (hhold.memOf (m := .scratch))

/-! ### The clauses on forerunners -/

/-- The branches of a forerunner's step at an entry whose leg has not issued and whose operand is not empty. -/
theorem frnStep_shows {s : State} {p : Fin 64} {r : RunRec} {f : Fin 4} {i : Nat} {x : FrnEnt} (hissued : frnIssued s p x = false)
    (hempty : descEmpty ((frnEnv s p r x).desc (frnIdx (frnEnv s p r x) x)) = false) (ram : List SramErr) :
    frnStep s p r f i x ram = .seq (wr (.frn p) Reg.FRN.FRN_STATUS_ENTRY i f)
      (if !frnAhead s p r x || (frnStages (frnEnv s p r x) x).isEmpty then wr (.frn p) Reg.FRN.FRN_STATUS_STATE 2 f else frnReads s p r f i x ram) := by
  unfold frnStep
  dsimp only
  rw [hissued, hempty, if_neg (by decide)]

theorem frnAhead_iff (s : State) (p : Nat) (r : RunRec) (x : FrnEnt) :
    let e := frnEnv s p r x
    let d := e.desc (frnIdx e x)
    let waits := imgSync e.img e.leg.wsync
    frnAhead s p r x = true ↔ ((frnRegions d).all (fun n => rgnPf (rgnOf s p n)) = true ∧ descStatus s p d .rd = 0) ∧
      (e.leg.waitEn = false ∨ x.early = true ∨ syncTarget waits r.iter ≤ syncCount s p waits) := by
  simp only [frnAhead, Bool.and_eq_true, Bool.or_eq_true, beq_iff_eq, decide_eq_true_eq, Bool.not_eq_true', or_assoc]

/-- A region without PF keeps an entry from being fetched ahead. -/
theorem frnAhead_false {s : State} {p : Nat} {r : RunRec} {x : FrnEnt}
    (h : (frnRegions ((frnEnv s p r x).desc (frnIdx (frnEnv s p r x) x))).any (fun n => !rgnPf (rgnOf s p n)) = true) : frnAhead s p r x = false := by
  rw [Bool.eq_false_iff]
  intro hahead
  obtain ⟨⟨hall, -⟩, -⟩ := (frnAhead_iff s p r x).mp hahead
  rw [List.any_eq_true] at h
  obtain ⟨n, hn, hbad⟩ := h
  rw [List.all_eq_true.mp hall n hn] at hbad
  exact absurd hbad (by decide)

/-- No earlier entry stands in the ring once the leg of each has issued. -/
theorem frnOthers_zero {s : State} {p : Nat} {r : RunRec} {f i : Nat} (h : ∀ z ∈ frnList (runImg s p r) f, z.1 < i → frnIssued s p z.2 = true) :
    frnOthers s p r f i = 0 := by
  have hnil : ((frnList (runImg s p r) f).filter fun z => decide (z.1 < i) && !frnIssued s p z.2) = [] := by
    refine List.filter_eq_nil_iff.mpr fun z hz hcon => ?_
    simp only [Bool.and_eq_true, decide_eq_true_eq, Bool.not_eq_true'] at hcon
    rw [h z hz hcon.1] at hcon
    exact Bool.noConfusion hcon.2
  unfold frnOthers
  rw [hnil]
  rfl

theorem frnCool_self {s : State} {l : List Span} (h : ∀ z ∈ l, z.loc = 0 → hotRange s z.addr z.len = false) : frnCool s l = l := by
  refine List.filter_eq_self.mpr fun z hz => ?_
  by_cases hloc : z.loc = 0
  · rw [h z hz hloc, Bool.and_false]
    rfl
  · rw [beq_eq_false_iff_ne.mpr hloc]
    rfl

/-- The wanted spans are read where they are cool, have room and find a tag, and no GET of the leg is open. -/
theorem frnReads_now {s : State} {p : Fin 64} {r : RunRec} {f : Fin 4} {i : Nat} {x : FrnEnt}
    (hne : (frnWants (frnEnv s p r x) x [] (frnStages (frnEnv s p r x) x)).1 ≠ [])
    (hhot : ∀ z ∈ (frnWants (frnEnv s p r x) x [] (frnStages (frnEnv s p r x) x)).1, z.loc = 0 → hotRange s z.addr z.len = false)
    (hgets : getsOpen s p x.gate x.leg = false) (htag : tagless s p = false) (hothers : frnOthers s p r f i = 0)
    (hfit : fitting (min x.stageSize (2 ^ 22) - frnStaged (frnEnv s p r x) x) (frnWants (frnEnv s p r x) x [] (frnStages (frnEnv s p r x) x)).1 =
      (frnWants (frnEnv s p r x) x [] (frnStages (frnEnv s p r x) x)).1) :
    frnReads s p r f i x [] = readNow (frnEnv s p r x) f x [] (frnWants (frnEnv s p r x) x [] (frnStages (frnEnv s p r x) x)).1 := by
  unfold frnReads
  rw [show hostErrors [] = [] from rfl]
  dsimp only
  rw [frnCool_self hhot, hothers, Nat.sub_zero, hfit, hgets, htag, List.isEmpty_eq_false_iff.mpr hne]
  rfl

/-- The clause of O54 on a forerunner that reads ahead. -/
theorem forerunner_reads {s : State} {p : Fin 64} {f : Fin 4} {r : RunRec} {i : Nat} {x : FrnEnt} (hrun : runOn s p = some r) (hst : r.started = true)
    (hok : (pisteOf s p).failed = false) (hf : f.val ≠ 2)
    (hfind : (frnList (runImg s p r) f).find? (fun z => decide (rd s (.frn p) Reg.FRN.FRN_STATUS_ENTRY f ≤ z.1)) = some (i, x))
    (hi : i < 2 ^ Reg.FRN.FRN_STATUS_ENTRY.w) (hissued : frnIssued s p x = false)
    (hempty : descEmpty ((frnEnv s p r x).desc (frnIdx (frnEnv s p r x) x)) = false) (hahead : frnAhead s p r x = true)
    (hstages : frnStages (frnEnv s p r x) x ≠ []) {now : List Span} (hnow : (frnWants (frnEnv s p r x) x [] (frnStages (frnEnv s p r x) x)).1 = now)
    (hne : now ≠ []) (hhot : ∀ z ∈ now, z.loc = 0 → hotRange s z.addr z.len = false) (hgets : getsOpen s p x.gate x.leg = false)
    (htag : tagless s p = false) (hothers : frnOthers s p r f i = 0)
    (hfit : fitting (min x.stageSize (2 ^ 22) - frnStaged (frnEnv s p r x) x) now = now) :
    ∃ t, exec (.forerunnerFetch p f []) s = .next t ∧ rd t (.frn p) Reg.FRN.FRN_STATUS_ENTRY f = i ∧
      rd t (.frn p) Reg.FRN.FRN_STATUS_STATE f = 1 ∧ (∀ y ∈ now, y.loc ≠ 3 → spanHere (fetchedFor t p x.gate x.leg) y = true) ∧
      (∀ a, ¬ (scratchKey p x.stageOff ≤ a ∧ a < scratchKey p x.stageOff + x.stageSize) →
        smGet byteDefault t.mem.scratch a = smGet byteDefault s.mem.scratch a) ∧
      t.mem.hbm = s.mem.hbm ∧ t.mem.host = s.mem.host ∧ t.counts = s.counts ∧ t.runs = s.runs ∧ t.gates = s.gates := by
  subst hnow
  refine ⟨_, done_eq (progForerunnerFetch p f []) s, ?_⟩
  rw [run_forerunner hrun hst hok hf hfind, frnStep_shows hissued hempty, hahead, List.isEmpty_eq_false_iff.mpr hstages, if_neg (by decide),
    frnReads_now hne hhot hgets htag hothers hfit, run_seq]
  have hwr : Only [.reg] (wr (.frn p) Reg.FRN.FRN_STATUS_ENTRY i f) := only_wr
  obtain ⟨hentry, hstate, hhere, hscratch⟩ := readNow_reads (e := frnEnv s p r x) f rfl rfl rfl
    (s := (wr (.frn p) Reg.FRN.FRN_STATUS_ENTRY i f).run s) (show fetchedFor s p x.gate x.leg = _ by unfold fetchedFor; rw [hwr.units])
    (frnWants (frnEnv s p r x) x [] (frnStages (frnEnv s p r x) x)).1
  have hread := only_readNow (frnEnv s p r x) f x (frnWants (frnEnv s p r x) x [] (frnStages (frnEnv s p r x) x)).1
  refine ⟨hentry.trans (frn_next p f hi s).1, hstate, hhere, fun a ha => (hscratch a ha).trans ?_, ?_, ?_, ?_, ?_, ?_⟩
  · rw [hwr.mem]
  · exact (hread.memOf (m := .hbm)).trans (congrArg (·.hbm) hwr.mem)
  · exact (hread.memOf (m := .host)).trans (congrArg (·.host) hwr.mem)
  · rw [hread.counts, hwr.counts]
  · rw [hread.runs, hwr.runs]
  · rw [hread.gates, hwr.gates]

/-- A past leg's entry, or one without an operand, is passed over. -/
theorem forerunner_passes {s : State} {p : Fin 64} {f : Fin 4} {r : RunRec} {i : Nat} {x : FrnEnt} (hrun : runOn s p = some r) (hst : r.started = true)
    (hok : (pisteOf s p).failed = false) (hf : f.val ≠ 2)
    (hfind : (frnList (runImg s p r) f).find? (fun z => decide (rd s (.frn p) Reg.FRN.FRN_STATUS_ENTRY f ≤ z.1)) = some (i, x))
    (hi : i + 1 < 2 ^ Reg.FRN.FRN_STATUS_ENTRY.w)
    (h : (frnIssued s p x || descEmpty ((frnEnv s p r x).desc (frnIdx (frnEnv s p r x) x))) = true) (ram : List SramErr) :
    ∃ t, exec (.forerunnerFetch p f ram) s = .next t ∧ rd t (.frn p) Reg.FRN.FRN_STATUS_ENTRY f = i + 1 ∧
      OnlyRegs s t [fldAddr (.frn p) Reg.FRN.FRN_STATUS_ENTRY f] := by
  refine ⟨_, done_eq (progForerunnerFetch p f ram) s, ?_⟩
  rw [run_forerunner hrun hst hok hf hfind]
  unfold frnStep
  rw [if_pos h]
  exact frn_next p f hi s

/-- An entry that may not be fetched ahead waits for its leg's issue. -/
theorem forerunner_holds {s : State} {p : Fin 64} {f : Fin 4} {r : RunRec} {i : Nat} {x : FrnEnt} (hrun : runOn s p = some r) (hst : r.started = true)
    (hok : (pisteOf s p).failed = false) (hf : f.val ≠ 2)
    (hfind : (frnList (runImg s p r) f).find? (fun z => decide (rd s (.frn p) Reg.FRN.FRN_STATUS_ENTRY f ≤ z.1)) = some (i, x))
    (hi : i < 2 ^ Reg.FRN.FRN_STATUS_ENTRY.w) (hissued : frnIssued s p x = false)
    (hempty : descEmpty ((frnEnv s p r x).desc (frnIdx (frnEnv s p r x) x)) = false)
    (h : frnAhead s p r x = false ∨ frnStages (frnEnv s p r x) x = []) (ram : List SramErr) :
    ∃ t, exec (.forerunnerFetch p f ram) s = .next t ∧ rd t (.frn p) Reg.FRN.FRN_STATUS_ENTRY f = i ∧
      rd t (.frn p) Reg.FRN.FRN_STATUS_STATE f = 2 ∧ OnlyRegs s t [fldAddr (.frn p) Reg.FRN.FRN_STATUS_ENTRY f] := by
  refine ⟨_, done_eq (progForerunnerFetch p f ram) s, ?_⟩
  rw [run_forerunner hrun hst hok hf hfind, frnStep_shows hissued hempty, if_pos (by rcases h with h | h <;> simp [h])]
  exact frn_waits p f hi 2 s

/-- An entry of which nothing is wanted is left behind once every fetch of it is known, and waits until then. -/
theorem forerunner_idles {s : State} {p : Fin 64} {f : Fin 4} {r : RunRec} {i : Nat} {x : FrnEnt} (hrun : runOn s p = some r) (hst : r.started = true)
    (hok : (pisteOf s p).failed = false) (hf : f.val ≠ 2)
    (hfind : (frnList (runImg s p r) f).find? (fun z => decide (rd s (.frn p) Reg.FRN.FRN_STATUS_ENTRY f ≤ z.1)) = some (i, x))
    (hi : i + 1 < 2 ^ Reg.FRN.FRN_STATUS_ENTRY.w) (hissued : frnIssued s p x = false)
    (hempty : descEmpty ((frnEnv s p r x).desc (frnIdx (frnEnv s p r x) x)) = false) (hahead : frnAhead s p r x = true)
    (hstages : frnStages (frnEnv s p r x) x ≠ []) (hnone : (frnWants (frnEnv s p r x) x [] (frnStages (frnEnv s p r x) x)).1 = []) :
    ((frnWants (frnEnv s p r x) x [] (frnStages (frnEnv s p r x) x)).2 = true → frnDecided (frnEnv s p r x) x = true →
      ∃ t, exec (.forerunnerFetch p f []) s = .next t ∧ rd t (.frn p) Reg.FRN.FRN_STATUS_ENTRY f = i + 1 ∧
        OnlyRegs s t [fldAddr (.frn p) Reg.FRN.FRN_STATUS_ENTRY f]) ∧
    ((frnWants (frnEnv s p r x) x [] (frnStages (frnEnv s p r x) x)).2 = false ∨ frnDecided (frnEnv s p r x) x = false →
      ∃ t, exec (.forerunnerFetch p f []) s = .next t ∧ rd t (.frn p) Reg.FRN.FRN_STATUS_ENTRY f = i ∧
        rd t (.frn p) Reg.FRN.FRN_STATUS_STATE f = 2 ∧ OnlyRegs s t [fldAddr (.frn p) Reg.FRN.FRN_STATUS_ENTRY f]) := by
  have hstep : (progForerunnerFetch p f []).run s = (Prog.seq (wr (.frn p) Reg.FRN.FRN_STATUS_ENTRY i f)
      (if (frnWants (frnEnv s p r x) x [] (frnStages (frnEnv s p r x) x)).2 && frnDecided (frnEnv s p r x) x then
        wr (.frn p) Reg.FRN.FRN_STATUS_ENTRY (i + 1) f else wr (.frn p) Reg.FRN.FRN_STATUS_STATE 2 f)).run s := by
    rw [run_forerunner hrun hst hok hf hfind, frnStep_shows hissued hempty, hahead, List.isEmpty_eq_false_iff.mpr hstages, if_neg (by decide)]
    unfold frnReads
    rw [show hostErrors [] = [] from rfl]
    dsimp only
    rw [if_pos (List.isEmpty_iff.mpr hnone)]
  refine ⟨fun hall hdec => ⟨_, done_eq (progForerunnerFetch p f []) s, ?_⟩, fun h => ⟨_, done_eq (progForerunnerFetch p f []) s, ?_⟩⟩
  · rw [hstep, hall, hdec, Bool.and_self, if_pos rfl, run_seq]
    obtain ⟨hentry, hregs⟩ := frn_next p f hi ((wr (.frn p) Reg.FRN.FRN_STATUS_ENTRY i f).run s)
    exact ⟨hentry, onlyRegs_trans (onlyRegs_wr _ _ _ _ _ (List.mem_singleton.mpr rfl)) hregs⟩
  · rw [hstep, if_neg (by rcases h with h | h <;> simp [h])]
    exact frn_waits p f (Nat.lt_of_succ_lt hi) 2 s

/-! ### The obligation -/

/-- Settles O54: a forerunner's step takes the branch its entry chooses, a limit ends the run by the law of its fault, and a write of a region
register is let in and runs its effect. -/
theorem limitsForerunnersRegions : Obligations.LimitsForerunnersRegions := by
  unfold Obligations.LimitsForerunnersRegions
  intro s
  refine ⟨fun p f r i x hrun hst hok hf => ?_, fun p w r k x hrun hout hw hpoison htag hhot href loc hl hloc hopen =>
      writeback_writes hrun hout hw hpoison htag hhot href loc hl hloc hopen,
    fun p r hrun hlim => ⟨fun g up hst hok hleft hstall => fifoStall_ends hrun hlim g up hst hok hleft hstall,
      fun f x hx hst hok hstands => stageTimeout_ends hrun hlim f x hx hst hok hstands,
      fun e hnext hop hch hw hready => reduceClose_limit hrun hlim e hnext hop hch hw hready⟩,
    fun id v => ⟨regionCommit_taken, fun w hin => wsetWrite_taken w hin, publish_taken⟩⟩
  intro e d regions waits wants issued waits_ hfind hi
  have hissuedb (z : FrnEnt) : frnIssued s p z = true ↔ issued z := frnIssued_iff s p z
  refine ⟨fun h ram => forerunner_passes hrun hst hok hf hfind hi ?_ ram, fun hissued hempty => ⟨fun h ram => ?_, fun hpf hdesc hstages hwait => ?_⟩⟩
  · rw [Bool.or_eq_true, hissuedb]
    exact h
  · have hnot : frnIssued s p x = false := Bool.eq_false_iff.mpr fun c => hissued ((hissuedb x).mp c)
    exact forerunner_holds hrun hst hok hf hfind (Nat.lt_of_succ_lt hi) hnot hempty (h.imp frnAhead_false id) ram
  · have hnot : frnIssued s p x = false := Bool.eq_false_iff.mpr fun c => hissued ((hissuedb x).mp c)
    have hahead : frnAhead s p r x = true := (frnAhead_iff s p r x).mpr ⟨⟨hpf, hdesc⟩, hwait⟩
    refine ⟨fun hnone hall hdec => ?_, fun hnone h => ?_, fun hne hhot hgets htag hearlier hfit => ?_⟩
    · exact (forerunner_idles hrun hst hok hf hfind hi hnot hempty hahead hstages hnone).1 hall hdec
    · exact (forerunner_idles hrun hst hok hf hfind hi hnot hempty hahead hstages hnone).2 h
    · exact forerunner_reads hrun hst hok hf hfind (Nat.lt_of_succ_lt hi) hnot hempty hahead hstages rfl hne hhot hgets htag
        (frnOthers_zero fun z hz hlt => (hissuedb z.2).mpr (hearlier z hz hlt)) hfit

end Sys2Proof.Machine
end

section
/-! Atomic adds at an open granule (R118, R120, R124, R230): the lanes that one request leaves, and what it leaves of the other granules. -/

namespace Sys2Proof.Machine

open Sys2Proof

set_option Elab.async false

/-! ### Numbers and codes of bytes -/

/-- The number of a cut of a list of bytes, byte by byte: bytes past the end read as 0. -/
theorem leNat_take_eq_range (l : List Byte) (n : Nat) : leNat (l.take n) = leNat ((List.range n).map fun k => nth l k 0) := by
  induction n generalizing l with
  | zero => rfl
  | succ n ih =>
    rw [List.range_succ_eq_map, List.map_cons, List.map_map]
    cases l with
    | nil =>
      have := ih []
      rw [List.take_nil] at this ⊢
      exact (congrArg (256 * ·) this).trans (Nat.zero_add _).symm
    | cons b r => exact congrArg (b.toNat + 256 * ·) (ih r)

theorem leAt_eq_range (l : List Byte) (off n : Nat) : leAt l off n = leNat ((List.range n).map fun k => nth l (off + k) 0) := by
  unfold leAt
  rw [leNat_take_eq_range]
  simp only [nth, List.getElem?_drop]

theorem leNat_leBytes (n v : Nat) : leNat (leBytes n v) = v % 2 ^ (8 * n) := by
  induction n generalizing v with
  | zero => exact (Nat.mod_one v).symm
  | succ n ih =>
    show (BitVec.ofNat 8 v).toNat + 256 * leNat (leBytes n (v / 256)) = _
    rw [ih, BitVec.toNat_ofNat, show 2 ^ (8 * (n + 1)) = 256 * 2 ^ (8 * n) by rw [Nat.mul_succ, pow_add, Nat.mul_comm]; rfl, Nat.mod_mul]

/-- The code of a finite I32 value: the codes of the infinities outside the range (R56). -/
theorem svCode_fin (i : Int) :
    svCode 32 (.fin i) = if 2147483647 ≤ i then 2147483647 else if i ≤ -2147483647 then 2147483649 else (i % 4294967296).toNat := rfl

theorem svCode_lt (v : SV) : svCode 32 v < 2 ^ 32 := by
  cases v with
  | fin i =>
    rw [svCode_fin]
    split
    · decide
    · split
      · decide
      · omega
  | pinf => decide
  | ninf => decide
  | nan => decide

theorem codeSV_word (c : Nat) :
    codeSV 32 c = if toSigned 32 c = -2147483648 then .nan else if toSigned 32 c = 2147483647 then .pinf
      else if toSigned 32 c = -2147483647 then .ninf else .fin (toSigned 32 c) := by
  simp [codeSV]

theorem toSigned_word (c : Nat) : toSigned 32 c = if c % 4294967296 < 2147483648 then (c % 4294967296 : Int) else (c % 4294967296 : Int) - 4294967296 := by
  simp [toSigned]

/-- The signed reading of a code is the number coded, within the range. -/
theorem toSigned_ofSigned {i : Int} (h : -2147483648 ≤ i ∧ i < 2147483648) : toSigned 32 (i % 4294967296).toNat = i := by
  rw [toSigned_word]
  split <;> omega

/-- A value read from a code is read back from its own code (R56). -/
theorem codeSV_svCode_codeSV (c : Nat) : codeSV 32 (svCode 32 (codeSV 32 c)) = codeSV 32 c := by
  have hs : -2147483648 ≤ toSigned 32 c ∧ toSigned 32 c < 2147483648 := by
    rw [toSigned_word]
    split <;> omega
  rw [codeSV_word c]
  generalize toSigned 32 c = i at hs
  split
  · decide
  · split
    · decide
    · split
      · decide
      · next hnan hpos hneg =>
        rw [svCode_fin, if_neg (by omega), if_neg (by omega), codeSV_word, toSigned_ofSigned hs, if_neg hnan, if_neg hpos, if_neg hneg]

theorem leBytes_length (n v : Nat) : (leBytes n v).length = n := by
  induction n generalizing v with
  | zero => rfl
  | succ n ih => exact congrArg (· + 1) (ih _)

theorem lanesBytes_length (l : List SV) : (lanesBytes l).length = 4 * l.length := by
  induction l with
  | nil => rfl
  | cons x r ih =>
    show (leBytes 4 (svCode 32 x) ++ lanesBytes r).length = _
    rw [List.length_append, leBytes_length, ih, List.length_cons]
    omega

/-- A lane's code among the bytes of lanes. -/
theorem leAt_lanesBytes {l : List SV} {j : Nat} {x : SV} (h : l[j]? = some x) : leAt (lanesBytes l) (4 * j) 4 = svCode 32 x := by
  induction l generalizing j with
  | nil => simp at h
  | cons y r ih =>
    have hsplit : lanesBytes (y :: r) = leBytes 4 (svCode 32 y) ++ lanesBytes r := rfl
    cases j with
    | zero =>
      obtain rfl : y = x := by simpa using h
      unfold leAt
      rw [hsplit, Nat.mul_zero, List.drop_zero, List.take_append_of_le_length (by rw [leBytes_length]), List.take_of_length_le (by rw [leBytes_length]),
        leNat_leBytes, Nat.mod_eq_of_lt (svCode_lt y)]
    | succ j =>
      unfold leAt at ih ⊢
      rw [hsplit, Nat.mul_succ, Nat.add_comm, ← List.drop_drop, List.drop_left' (leBytes_length _ _)]
      exact ih h

/-! ### HBM as reads see it -/

theorem hbmByte_congr {s t : State} (hk : t.stk.granules = s.stk.granules) (hm : t.mem.hbm = s.mem.hbm) (a : Nat) : hbmByte t a = hbmByte s a := by
  unfold hbmByte
  rw [openAt_congr hk, hm]

theorem openAt_word {s : State} {a b : Nat} (h : a / 64 = b / 64) : openAt s a = openAt s b := by
  unfold openAt
  rw [h]

theorem hbmPoisoned_word {s : State} {a b : Nat} (h : a / 64 = b / 64) : hbmPoisoned s a = hbmPoisoned s b := by
  unfold hbmPoisoned
  rw [openAt_word h, h]

/-- The I32 lane at an address of HBM, as a read sees it. -/
def hbmLane (s : State) (a : Nat) : SV := codeSV 32 (leNat ((List.range 4).map fun k => hbmByte s (a + k)))

theorem hbmLane_congr {s t : State} (h : ∀ a, hbmByte t a = hbmByte s a) (a : Nat) : hbmLane t a = hbmLane s a := by
  unfold hbmLane
  simp only [h]

/-! ### One request at the adder -/

/-- The 64 bytes that an adder finds at a granule: the open copy, or the DRAM's. -/
def granuleBytes (s : State) (ga : Nat) : List Byte := match openAt s ga with | some g => g.bytes | none => smList byteDefault s.mem.hbm ga 64

theorem nth_granuleBytes (s : State) (n j : Nat) (hj : j < 64) : nth (granuleBytes s (64 * n)) j 0 = hbmByte s (64 * n + j) := by
  unfold granuleBytes hbmByte
  rw [openAt_word (show (64 * n + j) / 64 = 64 * n / 64 by omega)]
  cases openAt s (64 * n) with
  | some g => rw [show (64 * n + j) % 64 = j by omega]
  | none => simp [nth, smList, hj]

/-- A lane of the bytes an adder finds is the lane that a read sees. -/
theorem codeSV_granuleBytes (s : State) (n : Nat) {j : Nat} (hj : j < 16) : codeSV 32 (leAt (granuleBytes s (64 * n)) (4 * j) 4) = hbmLane s (64 * n + 4 * j) := by
  rw [leAt_eq_range]
  unfold hbmLane
  congr 2
  refine List.map_congr_left fun k hk => ?_
  have := List.mem_range.mp hk
  rw [nth_granuleBytes _ _ _ (by omega), Nat.add_assoc]

/-- A lane with the addend that a request has for it (R67). -/
def addedTo (adds : List (Nat × SV)) (j : Nat) (x : SV) : SV := (adds.find? (·.1 == j)).elim x fun a => add32 x a.2

theorem getElem_addLanes (old : List SV) (adds : List (Nat × SV)) (j : Nat) : (addLanes false old adds)[j]? = old[j]?.map (addedTo adds j) := by
  unfold addLanes addedTo
  rw [if_neg Bool.false_ne_true, List.getElem?_map, List.getElem?_zipIdx, Option.map_map]
  congr 1
  funext x
  show (match adds.find? (·.1 == 0 + j) with | some a => add32 x a.2 | none => x) = _
  rw [Nat.zero_add]
  cases adds.find? (·.1 == j) <;> rfl

/-- The granule that an add leaves open (R230). -/
def addedGranule (s : State) (ga : Nat) (adds : List (Nat × SV)) : Granule :=
  { addr := ga, bytes := lanesBytes (addLanes false (granLanes (granuleBytes s ga)) adds), poison := false }

/-- The state after an add of no error to a granule that is not poisoned, where the unit need evict none. -/
def afterAdd (s : State) (ga : Nat) (adds : List (Nat × SV)) : State :=
  { s with stk := { s.stk with granules := s.stk.granules.filter (·.addr != ga) ++ [addedGranule s ga adds] } }

theorem stackOf_granule (s : State) (a : Nat) : stackOf s (a / 64 * 64) = stackOf s a := by
  unfold stackOf
  rw [show a / 64 * 64 / 4096 = a / 4096 by omega]

theorem run_atomicRequest {s : State} {a : Nat} (hp : hbmPoisoned s a = false) (hroom : (openOf s (stackOf s a)).length < 256) (island : Nat)
    (adds : List (Nat × SV)) : (atomicRequest a island adds 0 .pass).run s = afterAdd s (a / 64 * 64) adds := by
  have hp' : hbmPoisoned s (a / 64 * 64) = false := by rw [← hp]; exact hbmPoisoned_word (by omega)
  rw [← stackOf_granule] at hroom
  unfold atomicRequest
  rw [run_look]
  dsimp only
  rw [hp', show isPersistent .pass = false from rfl, show decide (2 < 0) = false from rfl, show decide (1 ≤ 0) = false from rfl,
    show (HwCheck.pass != HwCheck.pass) = false from rfl]
  simp only [Bool.and_false, Bool.false_and, Bool.or_false, run_progs_cons, run_whenP_false, run_progs_nil]
  refine (congrArg (a₂ := s) (Prog.run _) ?_).trans rfl
  split
  · next h => rw [← h, decide_eq_false (Nat.not_le.mpr hroom), run_whenP_false]
  · rfl

/-- The granule of an add is open after it; every other one is as before. -/
theorem openAt_afterAdd (s : State) (ga : Nat) (adds : List (Nat × SV)) (b : Nat) :
    openAt (afterAdd s ga adds) b = if b / 64 * 64 = ga then some (addedGranule s ga adds) else openAt s b := by
  unfold openAt afterAdd
  dsimp only
  rw [List.find?_append, List.find?_filter]
  split
  · next h =>
    rw [h, List.find?_eq_none.mpr (by simp), Option.none_or]
    exact List.find?_cons_of_pos (by simp [addedGranule])
  · next h =>
    rw [List.find?_cons_of_neg (by simpa [addedGranule] using Ne.symm h), List.find?_nil, Option.or_none]
    congr 1
    funext g
    by_cases hg : g.addr = b / 64 * 64
    · simp [hg, h]
    · simp [hg]

theorem hbmByte_afterAdd_other (s : State) {ga b : Nat} (adds : List (Nat × SV)) (h : b / 64 * 64 ≠ ga) : hbmByte (afterAdd s ga adds) b = hbmByte s b := by
  unfold hbmByte
  rw [openAt_afterAdd, if_neg h]
  rfl

/-- Each lane of the granule after an add: with its addend, where it has one (R67, R120). -/
theorem hbmLane_afterAdd (s : State) (n : Nat) (adds : List (Nat × SV)) {j : Nat} (hj : j < 16) :
    hbmLane (afterAdd s (64 * n) adds) (64 * n + 4 * j) = codeSV 32 (svCode 32 (addedTo adds j (hbmLane s (64 * n + 4 * j)))) := by
  have hlane : (granLanes (granuleBytes s (64 * n)))[j]? = some (hbmLane s (64 * n + 4 * j)) := by
    rw [← codeSV_granuleBytes s n hj]
    simp [granLanes, hj]
  rw [← leAt_lanesBytes (l := addLanes false (granLanes (granuleBytes s (64 * n))) adds) (j := j) (by rw [getElem_addLanes, hlane]; rfl), leAt_eq_range]
  unfold hbmLane
  congr 2
  refine List.map_congr_left fun k hk => ?_
  have := List.mem_range.mp hk
  unfold hbmByte
  rw [openAt_afterAdd, if_pos (by omega)]
  dsimp only
  rw [show (64 * n + 4 * j + k) % 64 = 4 * j + k by omega]
  rfl

/-! ### The addends of a request -/

/-- The addend of a lane, of addends given by lane. -/
theorem addedTo_map {key : Nat → Nat} (hkey : Function.Injective key) (f : Nat → SV) (l : List Nat) (i : Nat) (x : SV) :
    addedTo (l.map fun i => (key i, f i)) (key i) x = if i ∈ l then add32 x (f i) else x := by
  unfold addedTo
  rw [List.find?_map]
  have hfind : l.find? ((fun y : Nat × SV => y.1 == key i) ∘ fun i => (key i, f i)) = if i ∈ l then some i else none := by
    induction l with
    | nil => rfl
    | cons y r ih =>
      rw [List.find?_cons]
      by_cases h : y = i
      · subst h
        simp
      · rw [show ((fun y : Nat × SV => y.1 == key i) ∘ fun i => (key i, f i)) y = false from beq_eq_false_iff_ne.mpr fun c => h (hkey c)]
        dsimp only
        rw [ih]
        simp [Ne.symm h]
  rw [hfind]
  split <;> rfl

/-- A run of bytes within one unit is one piece. -/
theorem cut_one {u a : Nat} {l : List Byte} (hl : l ≠ []) (h : a % u + l.length ≤ u) : cut u a l = [(a, l)] := by
  obtain ⟨b, r, rfl⟩ := List.exists_cons_of_ne_nil hl
  have hrest : ∀ f x, cutAt u f x [] = [] := fun f _ => by cases f <;> rfl
  show (a, (b :: r).take (u - a % u)) :: cutAt u _ _ ((b :: r).drop (u - a % u)) = _
  rw [List.take_of_length_le (by omega), List.drop_of_length_le (by omega), hrest]

end Sys2Proof.Machine
end

section
/-! Messages served here (R290, R292, R294): what taking one and answering or refusing it change, and the obligation on remote reads and adds. -/

namespace Sys2Proof.Machine

open Sys2Proof

set_option Elab.async false

/-! ### What leaves through the fabric -/

theorem Only.fabric_only {p : Prog} (h : Only fabricK p) (s : State) : p.run s = { s with regs := (p.run s).regs, bnd := (p.run s).bnd } := by
  have := h.keeps (fun s => fun x y => { s with regs := x, bnd := y }) (fun a s ha => by
    cases a with
    | reg a v => rfl
    | bnd x => rfl
    | _ => simp [Act.kind, fabricK] at ha) s
  exact congrFun (congrFun this (p.run s).regs) (p.run s).bnd

theorem writes_unreachable_fabric {m : Msg} {reason : Nat} {back : Msg → Prog} (h : ∀ m, Writes (· ∈ fabricWords) (back m)) :
    Writes (· ∈ fabricWords) (unreachable m reason back) :=
  writes_look fun _ => writes_cons
    (writes_whenP fun _ => writes_cons (writes_addSat (by decide))
      (writes_cons (writes_look fun _ => writes_whenP fun _ => writes_seq (writes_wr (by decide)) (writes_wr (by decide)))
        (writes_cons (writes_wr (by decide)) writes_nil)))
    (writes_cons (writes_whenP fun _ => h _) writes_nil)

/-- A message on its way writes no register but those of a message that cannot be routed (R298). -/
theorem writes_routeMsg_fabric (n : Nat) (m : Msg) : Writes (· ∈ fabricWords) (routeMsg n m) :=
  routeMsg_cases (P := Writes (· ∈ fabricWords)) writes_skip (fun _ => only_deliver.writes) (fun _ _ => only_queueOn.writes)
    (fun _ _ _ h => writes_unreachable_fabric h) (fun _ h => writes_look h) n m

theorem only_answer {m : Msg} {op : Nat} {data : List Byte} {poison : Bool} {addr : Nat} : Only fabricK (answer m op data poison addr) :=
  only_look fun _ => only_routeMsg _ _

theorem writes_answer (m : Msg) (op : Nat) (data : List Byte) (poison : Bool) (addr : Nat) :
    Writes (· ∈ fabricWords) (answer m op data poison addr) := writes_look fun _ => writes_routeMsg_fabric _ _

/-- A request refused is counted, and neither memories nor stacks change (R292). -/
theorem run_refuseMsg (m : Msg) (s : State) :
    ((refuseMsg m).run s).mem = s.mem ∧ ((refuseMsg m).run s).stk = s.stk ∧
      rd ((refuseMsg m).run s) (.bnd 7) Reg.BND7.REFUSED_COUNT = satBits Reg.BND7.REFUSED_COUNT.w (rd s (.bnd 7) Reg.BND7.REFUSED_COUNT + 1) := by
  have hall : Only fabricK (refuseMsg m) := only_look fun _ => only_cons only_wr (only_cons only_addSat (only_cons (only_routeMsg _ _) only_nil))
  refine ⟨hall.mem, hall.stk, ?_⟩
  unfold refuseMsg
  rw [run_look, run_progs_cons, run_progs_cons, run_progs_cons, run_progs_nil, (writes_routeMsg_fabric _ _).rd (by decide) (by decide),
    rd_addSat (by decide), rd_wr_other _ _ _ _ _ _ _ _ (by decide) (by decide) (.inr (.inl (by decide)))]

/-! ### A message taken -/

theorem only_takeMsg {p : Nat} {m : Msg} : Only [.bnd] (takeMsg p m) := by
  refine only_look fun s => ?_
  split
  · exact only_skip
  · exact only_seq only_modBnd (only_whenP only_modLink)

/-- The state in which a message is served: it has left its port's pool. -/
def taken (s : State) (p : Nat) (m : Msg) : State := (takeMsg p m).run s

theorem taken_eq (s : State) (p : Nat) (m : Msg) : taken s p m = { s with bnd := (taken s p m).bnd } := by
  have h := only_takeMsg (p := p) (m := m)
  have := (h.mono (L := fabricK) (by decide)).fabric_only s
  rwa [h.regs] at this

/-- A message of the class and operation that a command serves has its own effect, once it is taken. -/
theorem run_serveMsg {s : State} {p : Nat} {m : Msg} (h : Serves s p m) (hresp : m.resp = false) {cls op : Nat} (hcls : m.cls = cls) (hop : m.op = op)
    (own partner : Prog) : (serveMsg p m cls op false own partner).run s = own.run (taken s p m) := by
  obtain ⟨hdst, hok, hreset, hturn, hcool, hport⟩ := h
  have hjoined : (decide (cameBy s p m < 6) && rd s (.mod 4) Reg.MOD4.PAIR_STATUS_JOINED == 0) = false := by
    rcases hport with h6 | hj
    · rw [decide_eq_false (Nat.not_lt.mpr h6), Bool.false_and]
    · rw [hj, Bool.and_eq_false_iff]
      exact .inr rfl
  unfold serveMsg taken
  rw [run_look, hresp, hcls, hop, hdst, hturn, hcool, hok, hreset, hjoined]
  simp

/-! ### Inbound windows -/

theorem inboundOk_taken (s : State) (p : Nat) (m : Msg) (right : WinRight) (space a n : Nat) :
    inboundOk (taken s p m) right space a n = inboundOk s right space a n := by
  rw [taken_eq]
  rfl

/-! ### GET -/

/-- Each piece of a run of bytes begins at one of its places. -/
theorem Pieces.begins {u a : Nat} {l : List Byte} {ps : List (Nat × List Byte)} (h : Pieces u a l ps) : ∀ w ∈ ps, ∃ i, i < l.length ∧ w.1 = a + i := by
  induction h with
  | nil a => simp
  | cons a x y r hn _ _ ih =>
    have hx := List.length_pos_of_ne_nil hn
    intro w hw
    rw [List.length_append]
    rcases List.mem_cons.mp hw with rfl | hw
    · exact ⟨0, by omega, rfl⟩
    · obtain ⟨i, hi, e⟩ := ih w hw
      exact ⟨x.length + i, by omega, by omega⟩

theorem hbmRead_eq_range (s : State) (a n : Nat) : hbmRead s a n = (List.range n).map fun i => hbmByte s (a + i) := by
  unfold hbmRead
  split
  · next h =>
    refine List.map_congr_left fun i _ => ?_
    unfold hbmByte openAt
    rw [List.isEmpty_iff.mp h, List.find?_nil]
  · rfl

/-- A read that meets no poison marks none. -/
theorem run_deliverPoison_clean {s : State} {a n : Nat} (h : ∀ i, i < n → hbmPoisoned s (a + i) = false) : (deliverPoison a n).run s = s := by
  have hclean : ∀ w ∈ (if n = 0 then [] else (List.range ((a + n - 1) / 64 - a / 64 + 1)).map (a / 64 + ·)), ¬ hbmPoisoned s (w * 64) = true := by
    intro w hw
    split at hw
    · simp at hw
    · obtain ⟨k, hk, rfl⟩ := List.mem_map.mp hw
      have hk := List.mem_range.mp hk
      rw [hbmPoisoned_word (b := a + ((a / 64 + k) * 64 - a)) (by omega), h _ (by omega)]
      exact Bool.false_ne_true
  unfold deliverPoison
  rw [run_look]
  dsimp only
  rw [List.filter_eq_nil_iff.mpr hclean, run_whenP, run_forEach_nil, ite_self]

/-- Bytes of HBM with no poison among them go in one message (R295). -/
theorem run_sendData_clean {s : State} {a n : Nat} (h : ∀ i, i < n → hbmPoisoned s (a + i) = false) (m : Msg) :
    (sendData m 0 a n).run s = (answer m 3 ((List.range n).map fun i => hbmByte s (a + i)) false m.addr).run s := by
  unfold sendData
  rw [run_look]
  dsimp only
  rw [if_pos rfl, if_pos rfl, run_seq, run_deliverPoison_clean h, hbmRead_eq_range, if_neg]
  simp only [if_true, List.any_eq_true, not_exists, not_and]
  intro w hw
  obtain ⟨i, hi, e⟩ := (cut_pieces 64 (by decide) a _).begins w hw
  rw [List.length_map, List.length_range] at hi
  rw [e, h i hi]
  exact Bool.false_ne_true

theorem hbmByte_taken (s : State) (p : Nat) (m : Msg) (a : Nat) : hbmByte (taken s p m) a = hbmByte s a := by
  rw [taken_eq]
  rfl

theorem hbmPoisoned_taken (s : State) (p : Nat) (m : Msg) (a : Nat) : hbmPoisoned (taken s p m) a = hbmPoisoned s a := by
  rw [taken_eq]
  rfl

/-- A request refused right after its message was taken changes neither memories nor stacks, and counts. -/
theorem refused_taken (s : State) (p : Nat) (m : Msg) :
    let t := (refuseMsg m).run (taken s p m)
    t.mem = s.mem ∧ t.stk = s.stk ∧
      rd t (.bnd 7) Reg.BND7.REFUSED_COUNT = satBits Reg.BND7.REFUSED_COUNT.w (rd s (.bnd 7) Reg.BND7.REFUSED_COUNT + 1) := by
  obtain ⟨hmem, hstk, hcount⟩ := run_refuseMsg m (taken s p m)
  rw [rd_congr (s := s) (t := taken s p m) only_takeMsg.regs _ _ _ (by decide)] at hcount
  exact ⟨hmem.trans only_takeMsg.mem, hstk.trans only_takeMsg.stk, hcount⟩

/-- What is answered right after its message was taken changes the fabric alone. -/
theorem onlyFabric_answer (s : State) (p : Nat) (m : Msg) (op : Nat) (data : List Byte) (addr : Nat) :
    OnlyFabric s ((answer m op data false addr).run (taken s p m)) := by
  have htaken : Only [.bnd] (takeMsg p m) := only_takeMsg
  refine ⟨?_, fun a ha => (writes_answer m op data false addr a ha _).trans (htaken.writes (A := (· ∈ fabricWords)) (by decide) a ha s)⟩
  refine (only_answer.fabric_only (taken s p m)).trans ?_
  generalize (answer m op data false addr).run (taken s p m) = t
  rw [taken_eq]

theorem get_served {s : State} {p : Fin 7} {m : Msg} (h : Serves s p m) (hresp : m.resp = false) (hspace : m.space = 0) (hcls : m.cls = 3) (hop : m.op = 1)
    (hlo : 1 ≤ getCount m) (hhi : getCount m ≤ 4096) (hwin : inboundOk s .rd 0 m.addr (getCount m) = true)
    (hclean : ∀ i, i < getCount m → hbmPoisoned s (m.addr + i) = false) :
    exec (.get p m) s = .next ((answer m 3 ((List.range (getCount m)).map fun i => hbmByte s (m.addr + i)) false m.addr).run (taken s p m)) := by
  show done (serveMsg p m 3 1 false (progGet m) _) s = _
  rw [done_eq, run_serveMsg h hresp hcls hop]
  unfold progGet
  rw [run_look, hspace]
  dsimp only
  rw [inboundOk_taken, hwin, decide_eq_true hlo, decide_eq_true hhi, if_pos (by rfl),
    run_sendData_clean fun i hi => (hbmPoisoned_taken s p m _).trans (hclean i hi)]
  simp only [hbmByte_taken]

/-! ### Adds -/

/-- The state a request for an add leaves: the granule with its sums, and the acknowledgement on its way. -/
def addServed (s : State) (p : Nat) (m : Msg) (a : Nat) (adds : List (Nat × SV)) (op : Nat) : State :=
  (answer m op [] false 0).run (afterAdd (taken s p m) (a / 64 * 64) adds)

/-- A served add leaves its lanes with their sums, every other granule as it was, and its acknowledgement (R120, R294). -/
theorem addServed_spec (s : State) (p : Nat) (m : Msg) (a : Nat) (adds : List (Nat × SV)) (op : Nat) :
    (∀ j, j < 16 → hbmLane (addServed s p m a adds op) (a / 64 * 64 + 4 * j) =
      codeSV 32 (svCode 32 (addedTo adds j (hbmLane s (a / 64 * 64 + 4 * j))))) ∧
    (∀ b, b / 64 ≠ a / 64 → hbmByte (addServed s p m a adds op) b = hbmByte s b) ∧ Answered s (addServed s p m a adds op) p m op [] 0 := by
  have hans : Only fabricK (answer m op [] false 0) := only_answer
  have hbyte (b : Nat) : hbmByte (addServed s p m a adds op) b = hbmByte (afterAdd (taken s p m) (a / 64 * 64) adds) b :=
    hbmByte_congr (congrArg (·.granules) hans.stk) (congrArg (·.hbm) hans.mem) b
  refine ⟨fun j hj => ?_, fun b hb => ?_, afterAdd (taken s p m) (a / 64 * 64) adds, only_takeMsg.regs, rfl, rfl⟩
  · rw [hbmLane_congr hbyte, Nat.mul_comm (a / 64) 64, hbmLane_afterAdd _ _ _ hj, hbmLane_congr (hbmByte_taken s p m)]
  · rw [hbyte, hbmByte_afterAdd_other _ _ (by omega), hbmByte_taken]

/-- An add whose adder's residue agrees, for the state in which its message has been taken. -/
theorem run_add_taken {s : State} {a : Nat} (hclean : hbmPoisoned s a = false) (hroom : (openOf s (stackOf s a)).length < 256) (p : Nat) (m : Msg)
    (island op : Nat) (adds : List (Nat × SV)) :
    (Prog.seq (atomicRequest a island adds 0 .pass) (answer m op [] false 0)).run (taken s p m) = addServed s p m a adds op := by
  have hroom' : (openOf (taken s p m) (stackOf (taken s p m) a)).length < 256 := by
    rw [taken_eq]
    exact hroom
  rw [run_seq, run_atomicRequest ((hbmPoisoned_taken s p m a).trans hclean) hroom']
  rfl

theorem atomicAdd_served {s : State} {p : Fin 7} {m : Msg} (h : Serves s p m) (hresp : m.resp = false) (hspace : m.space = 0) (hcls : m.cls = 4)
    (hop : m.op = 0) (hal : m.addr % 64 = 0) (hwin : inboundOk s .at_ 0 m.addr 64 = true) (hclean : hbmPoisoned s m.addr = false)
    (hroom : (openOf s (stackOf s m.addr)).length < 256) {adders : List (Nat × Bool)} (hchk : adderChk adders m.addr = .pass) :
    exec (.atomicAddMessage p m adders) s = .next (addServed s p m m.addr (atomicLanes m) 1) := by
  show done (serveMsg p m 4 0 false (progAtomicAddMessage p m adders) _) s = _
  rw [done_eq, run_serveMsg h hresp hcls hop]
  unfold progAtomicAddMessage
  rw [run_look, hspace, inboundOk_taken, hwin, hal, if_pos (by rfl), hchk, run_add_taken hclean hroom]

theorem atomicAdd_refused {s : State} {p : Fin 7} {m : Msg} (h : Serves s p m) (hresp : m.resp = false) (hcls : m.cls = 4) (hop : m.op = 0)
    (hal : m.addr % 64 ≠ 0) (adders : List (Nat × Bool)) :
    exec (.atomicAddMessage p m adders) s = .next ((refuseMsg m).run (taken s p m)) := by
  show done (serveMsg p m 4 0 false (progAtomicAddMessage p m adders) _) s = _
  rw [done_eq, run_serveMsg h hresp hcls hop]
  unfold progAtomicAddMessage
  rw [run_look, beq_eq_false_iff_ne.mpr hal, Bool.false_and, Bool.false_and, if_neg Bool.false_ne_true]

/-- The addends of a FINAL_ADD, in the lanes of the granule that holds them. -/
def finalLanes (m : Msg) : List (Nat × SV) :=
  (List.range (m.data.length / 4)).map fun i => (m.addr % 2 ^ 40 % 64 / 4 + i, codeSV 32 (leAt m.data (4 * i) 4))

/-- Addends within one granule go in one request. -/
theorem atomicHbm_one {a : Nat} {l : List SV} (hl : l ≠ []) (h : a % 64 + 4 * l.length ≤ 64) (hcode : ∀ x ∈ l, codeSV 32 (svCode 32 x) = x) (island : Nat)
    (bad : List (Nat × Bool)) (s : State) :
    (atomicHbm a island bad l).run s =
      (atomicRequest a island (l.zipIdx.map fun x => (a % 64 / 4 + x.2, x.1)) 0 (adderChk bad a)).run s := by
  have hlen := List.length_pos_of_ne_nil hl
  unfold atomicHbm
  rw [cut_one (List.ne_nil_of_length_pos (by rw [lanesBytes_length]; omega)) (by rw [lanesBytes_length]; omega), run_forEach_cons, run_forEach_nil]
  dsimp only
  rw [lanesBytes_length, Nat.mul_div_cancel_left _ (by decide : 0 < 4)]
  congr 2
  refine List.ext_getElem (by simp) fun i hi _ => ?_
  have hi' : i < l.length := by simpa using hi
  have hx := List.getElem?_eq_getElem hi'
  simp only [List.getElem_map, List.getElem_range, List.getElem_zipIdx, Nat.zero_add]
  rw [leAt_lanesBytes hx, hcode _ (List.getElem_mem hi')]

theorem finalAdd_served {s : State} {p : Fin 7} {m : Msg} (h : Serves s p m) (hresp : m.resp = false) (hspace : m.space = 0) (hcls : m.cls = 2)
    (hop : m.op = 1) (hal : m.addr % 2 ^ 40 % 4 = 0) (hn : m.data.length % 4 = 0) (hpos : 0 < m.data.length)
    (hfit : m.addr % 2 ^ 40 % 64 + m.data.length ≤ 64) (hwin : inboundOk s .at_ 0 (m.addr % 2 ^ 40) m.data.length = true)
    (hclean : hbmPoisoned s (m.addr % 2 ^ 40) = false) (hroom : (openOf s (stackOf s (m.addr % 2 ^ 40))).length < 256) {adders : List (Nat × Bool)}
    (hchk : adderChk adders (m.addr % 2 ^ 40) = .pass) :
    exec (.finalAdd p m adders) s = .next (addServed s p m (m.addr % 2 ^ 40) (finalLanes m) 2) := by
  show done (serveMsg p m 2 1 false (progFinalAdd p m adders) _) s = _
  rw [done_eq, run_serveMsg h hresp hcls hop]
  unfold progFinalAdd
  rw [run_look, hspace]
  dsimp only
  have hlanes : (((List.range (m.data.length / 4)).map fun i => codeSV 32 (leAt m.data (4 * i) 4)).zipIdx.map
      fun x => (m.addr % 2 ^ 40 % 64 / 4 + x.2, x.1)) = finalLanes m := by
    refine List.ext_getElem (by simp [finalLanes]) fun i _ _ => ?_
    simp [finalLanes]
  rw [inboundOk_taken, hwin, hal, hn, if_pos (by rfl), run_seq, atomicHbm_one ?_ ?_ ?_, hlanes, hchk, ← run_seq, run_add_taken hclean hroom]
  · exact List.ne_nil_of_length_pos (by rw [List.length_map, List.length_range]; omega)
  · rw [List.length_map, List.length_range]
    omega
  · intro x hx
    obtain ⟨i, -, rfl⟩ := List.mem_map.mp hx
    exact codeSV_svCode_codeSV _

theorem finalAdd_refused {s : State} {p : Fin 7} {m : Msg} (h : Serves s p m) (hresp : m.resp = false) (hcls : m.cls = 2) (hop : m.op = 1)
    (hoff : m.addr % 2 ^ 40 % 4 ≠ 0 ∨ m.data.length % 4 ≠ 0) (adders : List (Nat × Bool)) :
    exec (.finalAdd p m adders) s = .next ((refuseMsg m).run (taken s p m)) := by
  have hbad : (m.addr % 2 ^ 40 % 4 == 0 && m.data.length % 4 == 0) = false := by simpa [imp_iff_not_or] using hoff
  show done (serveMsg p m 2 1 false (progFinalAdd p m adders) _) s = _
  rw [done_eq, run_serveMsg h hresp hcls hop]
  unfold progFinalAdd
  rw [run_look]
  dsimp only
  rw [hbad, Bool.false_and, Bool.false_and, if_neg Bool.false_ne_true]

/-! ### The obligation -/

/-- Settles O43: a GET by the clean read, each add by the lanes that one request at the adder leaves, and a request off its alignment by its refusal. -/
theorem remoteReadsAndAddsServed : Obligations.RemoteReadsAndAddsServed := by
  unfold Obligations.RemoteReadsAndAddsServed
  intro s p m h hresp hspace lane
  refine ⟨fun hcls hop hlo hhi hwin hclean => ?_, fun hcls hop hal hwin hclean hroom adders hchk => ?_, fun hcls hop => ?_,
    fun hcls hop hal adders => ⟨_, atomicAdd_refused h hresp hcls hop hal adders, refused_taken s p m⟩⟩
  · exact ⟨_, get_served h hresp hspace hcls hop hlo hhi hwin hclean, ⟨taken s p m, only_takeMsg.regs, rfl, rfl⟩, onlyFabric_answer _ _ _ _ _ _⟩
  · obtain ⟨hlane, hother, hans⟩ := addServed_spec s p m m.addr (atomicLanes m) 1
    refine ⟨_, atomicAdd_served h hresp hspace hcls hop hal hwin hclean hroom hchk, fun i hi => ?_, hother, hans⟩
    have hsum := hlane i hi
    rw [show m.addr / 64 * 64 = m.addr by omega] at hsum
    refine hsum.trans ?_
    unfold atomicLanes
    rw [addedTo_map (key := fun i => i) Function.injective_id, apply_ite (codeSV 32 <| svCode 32 ·)]
    exact if_congr (by simp [maskList, hi]) rfl rfl
  · intro a n
    refine ⟨fun hal hn hpos hfit hwin hclean hroom adders hchk => ?_,
      fun hoff adders => ⟨_, finalAdd_refused h hresp hcls hop hoff adders, refused_taken s p m⟩⟩
    obtain ⟨hlane, hother, hans⟩ := addServed_spec s p m a (finalLanes m) 2
    refine ⟨_, finalAdd_served h hresp hspace hcls hop hal hn hpos hfit hwin hclean hroom hchk, fun i hi => ?_, hother, hans⟩
    have hsum := hlane (a % 64 / 4 + i) (by omega)
    rw [show a / 64 * 64 + 4 * (a % 64 / 4 + i) = a + 4 * i by omega] at hsum
    refine hsum.trans ?_
    unfold finalLanes
    rw [addedTo_map (add_right_injective _), if_pos (List.mem_range.mpr hi)]
    rfl

end Sys2Proof.Machine
end

section
/-! Bytes written to HBM or host memory (R223, R225, R230), and what such a write leaves of the rest. -/

namespace Sys2Proof.Machine

open Sys2Proof

set_option Elab.async false

/-! ### Writes to HBM or host memory -/

/-- The kinds of change that a write to HBM or host memory makes. -/
def memoryK : List Kind := [.bytes .hbm, .flag .hbmPoison, .stk, .bytes .host, .flag .hostPoison]

/-- A write within one 64 B word of host memory (R225). -/
def hostWordWrite (a : Nat) (l : List Byte) (poison : Bool) : Prog :=
  progs [.prim (.bytes .host a l), whenP (poison || l.length == 64) (.prim (.flag .hostPoison (a / 64) poison))]

theorem only_hostWordWrite {a : Nat} {l : List Byte} {poison : Bool} : Only [.bytes .host, .flag .hostPoison] (hostWordWrite a l poison) :=
  only_cons (only_prim (.head _)) (only_cons (only_whenP (only_prim (.tail _ (.head _)))) only_nil)

theorem only_spaceWrite {space a : Nat} {l : List Byte} {bad : Nat → Nat → Bool} : Only memoryK (spaceWrite space a l bad) :=
  only_forEach fun _ => only_ite only_hbmWordWrite (only_hostWordWrite.mono (by decide))

theorem byteAt_congr {s t : State} (hk : t.stk.granules = s.stk.granules) (hhbm : t.mem.hbm = s.mem.hbm) (hhost : t.mem.host = s.mem.host)
    (space a : Nat) : byteAt t space a = byteAt s space a := by
  unfold byteAt hostByte
  rw [hbmByte_congr hk hhbm, hhost]

/-- A program that writes neither memory nor granules leaves their bytes. -/
theorem Only.byteAt {K : List Kind} {p : Prog} (h : Only K p) (s : State) (space a : Nat) (hstk : Kind.stk ∉ K := by decide)
    (hhbm : Kind.bytes .hbm ∉ K := by decide) (hhost : Kind.bytes .host ∉ K := by decide) : byteAt (p.run s) space a = Machine.byteAt s space a :=
  byteAt_congr (congrArg (·.granules) (h.stk hstk)) (h.memOf (m := .hbm) hhbm) (h.memOf (m := .host) hhost) space a

/-- Pieces written to HBM where no granule is open, each with its own poison. -/
theorem run_hbmPieces_bad (bad : Nat → Nat → Bool) {a : Nat} {l : List Byte} {ps : List (Nat × List Byte)} (h : Pieces 64 a l ps) :
    ∀ s : State, NoneOpen s a l.length → ∃ q, (forEach ps fun w => hbmWordWrite w.1 w.2 (bad w.1 w.2.length)).run s =
      { s with mem := { s.mem with hbm := smSetList byteDefault s.mem.hbm a l, hbmPoison := q } } := by
  induction h with
  | nil a => exact fun s _ => ⟨_, rfl⟩
  | cons a x y r hn hx _ ih =>
    intro s ho
    rw [List.length_append] at ho
    have hword := run_hbmPieces (bad a x.length) (.cons a x [] [] hn hx (.nil _)) s fun i hi => ho i (by rw [List.append_nil] at hi; omega)
    rw [run_forEach_cons, run_forEach_nil, List.append_nil] at hword
    rw [run_forEach_cons, hword, smSetList_append]
    exact ih _ fun i hi => Nat.add_assoc a _ _ ▸ ho (x.length + i) (by omega)

/-- Pieces written to host memory, each with its own poison. -/
theorem run_hostPieces_bad (bad : Nat → Nat → Bool) {a : Nat} {l : List Byte} {ps : List (Nat × List Byte)} (h : Pieces 64 a l ps) :
    ∀ s : State, ∃ q, (forEach ps fun w => hostWordWrite w.1 w.2 (bad w.1 w.2.length)).run s =
      { s with mem := { s.mem with host := smSetList byteDefault s.mem.host a l, hostPoison := q } } := by
  induction h with
  | nil a => exact fun s => ⟨_, rfl⟩
  | cons a x y r _ _ _ ih =>
    intro s
    rw [run_forEach_cons, hostWordWrite, run_progs_cons, run_progs_cons, run_progs_nil, run_whenP, smSetList_append]
    split
    · exact ih _
    · exact ih _

/-- A write to HBM, where no granule is open, or to host memory leaves its bytes there, and changes nothing else but marks of poison. -/
theorem run_spaceWrite {s : State} {space a : Nat} {l : List Byte} (hspace : space ≤ 1) (h : space = 0 → NoneOpen s a l.length) (bad : Nat → Nat → Bool) :
    ∃ m, (spaceWrite space a l bad).run s = { s with mem := m } ∧ WritesBytes s { s with mem := m } space a l := by
  have hp := cut_pieces 64 (by decide) a l
  match space, hspace with
  | 0, _ =>
    obtain ⟨q, hq⟩ := run_hbmPieces_bad bad hp s (h rfl)
    exact ⟨_, hq, writesBytes_hbm (h rfl) rfl rfl⟩
  | 1, _ =>
    obtain ⟨q, hq⟩ := run_hostPieces_bad bad hp s
    exact ⟨_, hq, writesBytes_host rfl⟩

/-! ### A granule that is not open stays so -/

theorem preserves_closed_hbmWordWrite (b a : Nat) (l : List Byte) (poison : Bool) : Preserves (fun s => openAt s b = none) (hbmWordWrite a l poison) := by
  intro s hb
  unfold hbmWordWrite
  rw [run_look]
  cases openAt s a with
  | none =>
    dsimp only
    rw [run_seq, run_whenP]
    split
    · exact hb
    · exact hb
  | some g =>
    unfold openAt at hb ⊢
    rw [List.find?_eq_none] at hb ⊢
    intro x hx
    obtain ⟨y, hy, rfl⟩ := List.mem_map.mp hx
    have := hb y hy
    split
    · exact this
    · exact this

theorem preserves_closed_spaceWrite (b space a : Nat) (l : List Byte) (bad : Nat → Nat → Bool) :
    Preserves (fun s => openAt s b = none) (spaceWrite space a l bad) :=
  preserves_forEach fun w _ => by
    dsimp only
    split
    · exact preserves_closed_hbmWordWrite b _ _ _
    · exact fun s hb => (openAt_congr (congrArg (·.granules) only_hostWordWrite.stk) b).trans hb

end Sys2Proof.Machine
end

section
/-! SNAPSHOT in steps (R80, R380, R383): the state in which a step begins, what ends it, and the records that a step saves or restores. -/

namespace Sys2Proof.Machine

open Sys2Proof

set_option Elab.async false

/-! ### What a step sees whatever the commands are -/

theorem stackOf_lt (s : State) (a : Nat) : stackOf s a < 12 := by
  unfold stackOf nth
  dsimp only
  cases h : (activeStacks s)[a / 4096 % (activeStacks s).length]? with
  | none => exact Nat.succ_pos _
  | some k => exact List.mem_range.mp (List.mem_filter.mp (List.mem_of_getElem? h)).1

theorem stackHot_host (s : State) (h : HostSt) {st : Nat} (hst : st < 12) : stackHot { s with host := h } st = stackHot s st := by
  unfold stackHot
  rw [rd_congr (s := s) (t := { s with host := h }) rfl]
  unfold plain plainField pageOk
  simp [hst, Reg.STK.STK_STATUS_THERM]

theorem hotRange_host (s : State) (h : HostSt) (a n : Nat) : hotRange { s with host := h } a n = hotRange s a n := by
  have hany : (List.range 12).any (stackHot { s with host := h }) = (List.range 12).any (stackHot s) :=
    Bool.eq_iff_iff.mpr (by
      simp only [List.any_eq_true]
      exact exists_congr fun st => and_congr_right fun hst => by rw [stackHot_host s h (List.mem_range.mp hst)])
  have hpage (k : Nat) : stackHot { s with host := h } (stackOf { s with host := h } (4096 * k)) = stackHot s (stackOf s (4096 * k)) :=
    stackHot_host s h (stackOf_lt s _)
  unfold hotRange
  rw [hany, funext hpage]

theorem spaceHot_host (s : State) (h : HostSt) (space a n : Nat) : spaceHot { s with host := h } space a n = spaceHot s space a n := by
  unfold spaceHot
  rw [hotRange_host]

theorem fenced_host (s : State) (h : HostSt) : fenced { s with host := h } = fenced s := by
  funext p
  unfold fenced
  rw [rd_pst_host]

theorem serviceMask_host (s : State) (h : HostSt) (m : Nat) : serviceMask { s with host := h } m = serviceMask s m :=
  serviceMask_congr (fun p _ => congrFun (fenced_host s h) p) m

theorem allHeld_host (s : State) (h : HostSt) (m : Nat) : allHeld { s with host := h } m = allHeld s m := by
  unfold allHeld idlePiste
  rw [fenced_host]
  rfl

theorem snapRefusal_host (s : State) (h : HostSt) (space m addr len : Nat) : snapRefusal { s with host := h } space m addr len = snapRefusal s space m addr len :=
  rfl

theorem restoreRefusal_host (s : State) (h : HostSt) (space m addr : Nat) : restoreRefusal { s with host := h } space m addr = restoreRefusal s space m addr :=
  rfl

/-! ### Masks -/

/-- A clear bit set leaves the other bits. -/
theorem bit_add_two_pow {m j : Nat} (h : bit m j = false) (i : Nat) : bit (m + 2 ^ j) i = (bit m i || i == j) := by
  have hput : m + 2 ^ j = putBits m j 1 1 := by
    have hj : m / 2 ^ j % 2 = 0 := by
      have := Nat.mod_two_eq_zero_or_one (m / 2 ^ j)
      simp only [bit, beq_eq_false_iff_ne] at h
      omega
    have h1 := Nat.div_add_mod m (2 ^ j)
    have h2 := Nat.div_add_mod (m / 2 ^ j) 2
    rw [hj, Nat.add_zero, Nat.div_div_eq_div_mul] at h2
    have h3 : m / (2 ^ j * 2) * (2 ^ j * 2) = 2 ^ j * (m / 2 ^ j) := by rw [← h2]; ring
    show m + 2 ^ j = m % 2 ^ j + 1 % 2 * 2 ^ j + m / 2 ^ (j + 1) * 2 ^ (j + 1)
    rw [pow_succ 2 j, h3]
    omega
  show (bits (m + 2 ^ j) i 1 == 1) = _
  rw [hput]
  by_cases hij : i = j
  · subst hij
    rw [bits_putBits_same]
    simp
  · rw [bits_putBits_ne _ _ _ _ _ _ (by omega), beq_eq_false_iff_ne.mpr hij, Bool.or_false]
    rfl

theorem bit_listMask (l : List Nat) (i : Nat) : bit (listMask l) i = l.contains i := by
  suffices h : ∀ m, bit (l.foldl (fun m i => if bit m i then m else m + 2 ^ i) m) i = (bit m i || l.contains i) by
    have := h 0
    rwa [show bit 0 i = false by simp [bit], Bool.false_or] at this
  induction l with
  | nil => simp
  | cons j r ih =>
    intro m
    rw [List.foldl_cons, ih]
    by_cases h : bit m j = true
    · rw [if_pos h]
      by_cases hij : i = j
      · simp [hij, h]
      · simp [hij]
    · rw [if_neg h, bit_add_two_pow (Bool.eq_false_iff.mpr h), List.contains_cons, Bool.or_assoc]

theorem mem_maskList_service {s : State} {m p : Nat} : p ∈ maskList 64 (serviceMask s m) ↔ p ∈ maskList 64 m ∧ fenced s p = false := by
  unfold serviceMask
  simp only [maskList, List.mem_filter, bit_listMask, List.contains_iff_mem, Bool.not_eq_true', List.mem_range]
  exact ⟨fun h => h.2, fun h => ⟨h.1.1, h⟩⟩

/-! ### A SNAPSHOT's step -/

/-- The state in which a step of a ring's command takes effect: the module as it stood, and the command started. -/
structure StepState (s u : State) (c : Cmd) : Prop where
  host : u = { s with host := u.host }
  mem : { c with started := true } ∈ u.host.accepted
  ids : u.host.accepted.map (·.id) = s.host.accepted.map (·.id)

theorem stepState_begun {s : State} {r : Nat} {b : CmdBody} {c : Cmd} (h : Awaits s r b c) : StepState s (begun s c) c := by
  refine ⟨rfl, by simpa using begun_mem (c := c) h.mem, ?_⟩
  show (s.host.accepted.map fun x => if x.id = c.id then { x with started := true } else x).map (·.id) = _
  rw [List.map_map]
  refine List.map_congr_left fun x _ => ?_
  dsimp only [Function.comp]
  split
  · rfl
  · rfl

theorem stepState_underWay {s : State} {r : Nat} {b : CmdBody} {c : Cmd} (h : underWay s r b = some c) : StepState s s c :=
  ⟨rfl, (stepsFrom_underWay h).mem, rfl⟩

/-- A piste that waits for no run is held at its boundary as it stands. -/
theorem run_unwait_idle {s : State} {p : Nat} (h : idlePiste s p = true) : (unwait p).run s = s := by
  simp only [idlePiste, Bool.and_eq_true] at h
  unfold unwait
  rw [run_look, Option.isNone_iff_eq_none.mp h.1.2]
  rfl

theorem run_unwait_all {s : State} {l : List Nat} (h : ∀ p ∈ l, idlePiste s p = true) : (forEach l unwait).run s = s :=
  run_forEach_inv (fun t => t = s) (fun p hp t ht => by rw [ht, run_unwait_idle (h p hp)]) s rfl

/-- What follows the records of the piste of place `i` in a mask: the command's next step, or its end. -/
def snapRest (c : Cmd) (m i : Nat) (last : Cmd → Prog) : Prog :=
  if i + 1 = (maskList 64 m).length then .look fun u => match findCmd u c.id with | none => .skip | some d => last d
  else modCmd c.id fun x => { x with part := { x.part with moved := i + 1, mask := m } }

/-- The mask whose pistes a SNAPSHOT handles: that of its start (R383). -/
def snapMask (s : State) (c : Cmd) (mask : Nat) : Nat := if c.part.moved = 0 then serviceMask s mask else c.part.mask

/-- A step of a SNAPSHOT once it is its turn, as `snapCmd` has it. -/
def snapAct (space addr mask : Nat) (refusal : State → Nat → Bool → Nat) (k : Cmd → Nat → Nat → Nat → Prog) (last : Cmd → Prog) (c : Cmd) : Prog :=
  .look fun t =>
    let i := c.part.moved
    let m := snapMask t c mask
    let st := refusal t m (i == 0)
    if st = 0 then
      whenP (allHeld t (serviceMask t m) && !spaceHot t space (addr + (snapPart i).1) (snapPart i).2) (
        match (maskList 64 m)[i]? with
        | none => .skip
        | some p => .seq (k c m p i) (snapRest c m i last))
    else snapFail c st

section
variable {s : State} {r space addr mask : Nat} {b : CmdBody} {c : Cmd} {refusal : State → Nat → Bool → Nat} {k : Cmd → Nat → Nat → Nat → Prog}
  {last : Cmd → Prog}

theorem snapMask_host (s : State) (h : HostSt) (c : Cmd) (mask : Nat) : snapMask { s with host := h } c mask = snapMask s c mask := by
  unfold snapMask
  rw [serviceMask_host]

variable (hhost : ∀ (x : HostSt) (m : Nat) (f : Bool), refusal { s with host := x } m f = refusal s m f)
include hhost

theorem run_snapAct_refused {u : State} (hu : StepState s u c) (hst : refusal s (snapMask s c mask) (c.part.moved == 0) ≠ 0) :
    (snapAct space addr mask refusal k last c).run u = (snapFail c (refusal s (snapMask s c mask) (c.part.moved == 0))).run u := by
  unfold snapAct
  rw [run_look, hu.host]
  dsimp only
  rw [snapMask_host, hhost, if_neg hst]

theorem run_snapAct_step {u : State} (hu : StepState s u c) {p : Nat} (hst : refusal s (snapMask s c mask) (c.part.moved == 0) = 0)
    (hheld : allHeld s (serviceMask s (snapMask s c mask)) = true)
    (hcool : spaceHot s space (addr + (snapPart c.part.moved).1) (snapPart c.part.moved).2 = false)
    (hp : (maskList 64 (snapMask s c mask))[c.part.moved]? = some p) :
    (snapAct space addr mask refusal k last c).run u =
      (snapRest c (snapMask s c mask) c.part.moved last).run ((k c (snapMask s c mask) p c.part.moved).run u) := by
  unfold snapAct
  rw [run_look, hu.host]
  dsimp only
  rw [snapMask_host, hhost, if_pos hst, serviceMask_host, allHeld_host, spaceHot_host, hheld, hcool, hp]
  rfl

/-- A step of a SNAPSHOT: refused, it fails the command; else, where its pistes stand at their boundary and its part of the buffer is not too hot, it
handles its piste. -/
theorem run_snapCmd (h : Steps s r b c c.part.moved) (hfw : fwRuns s = true) :
    ∃ u, StepState s u c ∧
      (refusal s (snapMask s c mask) (c.part.moved == 0) ≠ 0 → (snapCmd r space addr b mask refusal k last).run s =
        (snapFail c (refusal s (snapMask s c mask) (c.part.moved == 0))).run u) ∧
      (∀ p, refusal s (snapMask s c mask) (c.part.moved == 0) = 0 → allHeld s (serviceMask s (snapMask s c mask)) = true →
        spaceHot s space (addr + (snapPart c.part.moved).1) (snapPart c.part.moved).2 = false →
        (maskList 64 (snapMask s c mask))[c.part.moved]? = some p → (snapCmd r space addr b mask refusal k last).run s =
          (snapRest c (snapMask s c mask) c.part.moved last).run ((k c (snapMask s c mask) p c.part.moved).run u)) := by
  rcases h with ⟨hnone, h, hi⟩ | ⟨hway, -⟩
  · have hu := stepState_begun h
    have hmask : snapMask s c mask = serviceMask s mask := if_pos hi
    have hfirst : (snapCmd r space addr b mask refusal k last).run s = Prog.run
        (if refusal s (serviceMask s mask) true = 0 then
          .seq (forEach (maskList 64 (serviceMask s mask)) unwait) (snapAct space addr mask refusal k last c)
        else snapFail c (refusal s (serviceMask s mask) true)) (begun s c) := by
      unfold snapCmd inSteps
      rw [run_look, hnone]
      dsimp only
      rw [run_startCmd h, run_look, hu.host, serviceMask_host, hhost]
      rfl
    refine ⟨begun s c, hu, fun hst => ?_, fun p hst hheld hcool hp => ?_⟩
    · rw [hfirst]
      rw [hmask, hi] at hst ⊢
      exact congrArg (Prog.run · _) (if_neg hst)
    · rw [hfirst, ← run_snapAct_step hhost hu hst hheld hcool hp]
      rw [hmask, hi] at hst
      rw [if_pos (show refusal s (serviceMask s mask) true = 0 from hst), run_seq, run_unwait_all]
      intro q hq
      rw [hmask, ← allHeld_host s (begun s c).host, ← hu.host] at hheld
      exact List.all_eq_true.mp hheld q (mem_maskList_service.mpr ⟨hq, (mem_maskList_service.mp hq).2⟩)
  · have hu := stepState_underWay hway
    have hnext : (snapCmd r space addr b mask refusal k last).run s = (snapAct space addr mask refusal k last c).run s := by
      unfold snapCmd inSteps
      rw [run_look, hway]
      dsimp only
      rw [run_look, hfw]
      rfl
    exact ⟨s, hu, fun hst => hnext.trans (run_snapAct_refused hhost hu hst),
      fun p hst hheld hcool hp => hnext.trans (run_snapAct_step hhost hu hst hheld hcool hp)⟩

end

end Sys2Proof.Machine
end

section
/-! SNAPSHOT_SAVE and SNAPSHOT_RESTORE (R80, R380, R383): the bytes that a step saves, the positions that one restores, and how the command goes on. -/

namespace Sys2Proof.Machine

open Sys2Proof

set_option Elab.async false

/-! ### The end of a step -/

theorem snapPart_fst (i : Nat) : (snapPart i).1 = if i = 0 then 0 else recordsAt i := apply_ite Prod.fst _ _ _
theorem snapPart_snd (i : Nat) : (snapPart i).2 = if i = 0 then recordsAt 1 else 53248 := apply_ite Prod.snd _ _ _

theorem only_snapRest {c : Cmd} {m i : Nat} {last : Cmd → Prog} {K : List Kind} (hlast : ∀ d, Only K (last d)) (h : Kind.host ∈ K := by decide) :
    Only K (snapRest c m i last) := by
  unfold snapRest
  split
  · refine only_look fun u => ?_
    split
    · exact only_skip
    · exact hlast _
  · exact only_modHost h

/-- Before the last piste the command goes on with the next. -/
theorem goesOn_snapRest {c : Cmd} {m i : Nat} {last : Cmd → Prog} {v : State} {q : CmdPart} (hi : i + 1 ≠ (maskList 64 m).length)
    (hv : { c with started := true, part := q } ∈ v.host.accepted) :
    GoesOn ((snapRest c m i last).run v) c { q with moved := i + 1, mask := m } := by
  unfold snapRest
  rw [if_neg hi]
  exact List.mem_map.mpr ⟨_, hv, by simp⟩

/-- After the last piste the command's end follows. -/
theorem run_snapRest_last {c d : Cmd} {m i : Nat} {last : Cmd → Prog} {v : State} (hi : i + 1 = (maskList 64 m).length) (hd : findCmd v c.id = some d) :
    (snapRest c m i last).run v = (last d).run v := by
  unfold snapRest
  rw [if_pos hi, run_look, hd]

theorem findCmd_isSome {s : State} {id : Nat} {c : Cmd} (h : c ∈ s.host.accepted) (hid : c.id = id) : ∃ d, findCmd s id = some d := by
  cases hf : findCmd s id with
  | none => exact absurd hid (findCmd_none.mp hf c h)
  | some d => exact ⟨d, rfl⟩

/-- Where no two commands have one number, a command is found by its number. -/
theorem findCmd_of_nodup {s : State} {c : Cmd} (h : c ∈ s.host.accepted) (hn : (s.host.accepted.map (·.id)).Nodup) : findCmd s c.id = some c := by
  obtain ⟨d, hd⟩ := findCmd_isSome h rfl
  obtain ⟨hm, hid⟩ := findCmd_id hd
  rw [hd, List.inj_on_of_nodup_map hn hm h hid]

/-- A refused step ends the command with its status, and changes nothing beside the commands. -/
theorem snapFail_spec {s u : State} {c : Cmd} (hu : StepState s u c) (st : Nat) :
    HasFinished ((snapFail c st).run u) c st (failDetail 851 noLeg) ∧ (snapFail c st).run u = { s with host := ((snapFail c st).run u).host } := by
  have hfail : Only [.host] (snapFail c st) := only_finish
  refine ⟨hasFinished_finish ⟨_, hu.mem, rfl⟩ _ _ none, (hfail.host_only u).trans ?_⟩
  generalize (snapFail c st).run u = t
  rw [hu.host]

/-! ### SAVE -/

/-- The part of its buffer that a step of SAVE writes: the records of one piste, the first with the header before them. -/
def savedPart (s : State) (m p i : Nat) : List Byte := (if i = 0 then snapHeader s m else []) ++ snapRecords s p

/-- What a step of SAVE writes, as `progSnapshotSave` has it. -/
def savePart (space addr m p i : Nat) : Prog :=
  .look fun s => progs [whenP (space == 1) (cacheTranslation (addr + (snapPart i).1) (snapPart i).2), spacePut space (addr + (snapPart i).1) (savedPart s m p i)]

/-- A step of SAVE writes its part of the buffer, and no other byte. -/
theorem run_savePart {s u : State} {c : Cmd} (hu : StepState s u c) {space addr m p i : Nat} (hspace : space ≤ 1)
    (hopen : space = 0 → NoneOpen s (addr + (snapPart i).1) (savedPart s m p i).length) :
    WritesBytes s ((savePart space addr m p i).run u) space (addr + (snapPart i).1) (savedPart s m p i) := by
  have hcache : Only [.flag .atc] (whenP (space == 1) (cacheTranslation (addr + (snapPart i).1) (snapPart i).2)) := only_whenP only_cacheTranslation
  unfold savePart
  rw [run_look, run_progs_cons, run_progs_cons, run_progs_nil, show savedPart u m p i = savedPart s m p i by rw [hu.host]; rfl]
  generalize hv : Prog.run (whenP _ _) u = v
  have hstk : v.stk.granules = s.stk.granules := by rw [← hv, hcache.stk, hu.host]
  have hbyte (b : Nat) : byteAt v space b = byteAt s space b := by rw [← hv, hcache.byteAt, hu.host]; rfl
  obtain ⟨m', hm, hin, hout⟩ := run_spaceWrite (s := v) hspace (fun h0 j hj => (openAt_congr hstk _).trans (hopen h0 j hj)) fun _ _ => false
  show WritesBytes s ((spaceWrite space _ _ fun _ _ => false).run v) space _ _
  rw [hm]
  exact ⟨hin, fun b hb => (hout b hb).trans (hbyte b)⟩

theorem only_savePart {space addr m p i : Nat} : Only (.flag .atc :: memoryK) (savePart space addr m p i) :=
  only_look fun _ => only_cons (only_whenP only_cacheTranslation) (only_cons (only_spaceWrite.mono (by decide)) only_nil)

theorem run_snapshotSave {s : State} {r : Fin 64} {space mask addr len : Nat} {c : Cmd} (h : Steps s r (.snapshotSave space mask addr len) c c.part.moved)
    (hfw : fwRuns s = true) :
    ∃ u, StepState s u c ∧
      (snapRefusal s space (snapMask s c mask) addr len ≠ 0 → exec (.snapshotSave r space mask addr len) s =
        .next ((snapFail c (snapRefusal s space (snapMask s c mask) addr len)).run u)) ∧
      (∀ p, snapRefusal s space (snapMask s c mask) addr len = 0 → allHeld s (serviceMask s (snapMask s c mask)) = true →
        spaceHot s space (addr + (snapPart c.part.moved).1) (snapPart c.part.moved).2 = false →
        (maskList 64 (snapMask s c mask))[c.part.moved]? = some p → exec (.snapshotSave r space mask addr len) s =
          .next ((snapRest c (snapMask s c mask) c.part.moved fun d => finish d.id 0 (failDetail 0 noLeg)).run
            ((savePart space addr (snapMask s c mask) p c.part.moved).run u))) := by
  obtain ⟨u, hu, hfail, hstep⟩ := run_snapCmd (space := space) (addr := addr) (mask := mask) (refusal := fun s m _ => snapRefusal s space m addr len)
    (k := fun _ m p i => savePart space addr m p i) (last := fun d => finish d.id 0 (failDetail 0 noLeg)) (fun x m f => snapRefusal_host s x space m addr len) h hfw
  exact ⟨u, hu, fun hst => congrArg Host.Outcome.next (hfail hst), fun p hst hheld hcool hp => congrArg Host.Outcome.next (hstep p hst hheld hcool hp)⟩

/-- A step of SAVE that is not refused. -/
theorem snapshotSave_step {s u : State} {c : Cmd} (hu : StepState s u c) {space addr m p i : Nat} (hspace : space ≤ 1)
    (hopen : space = 0 → NoneOpen s (addr + (snapPart i).1) (savedPart s m p i).length) :
    let t := (snapRest c m i fun d => finish d.id 0 (failDetail 0 noLeg)).run ((savePart space addr m p i).run u)
    WritesBytes s t space (addr + (snapPart i).1) (savedPart s m p i) ∧
      (if i + 1 = (maskList 64 m).length then HasFinished t c 0 (failDetail 0 noLeg) else GoesOn t c { c.part with moved := i + 1, mask := m }) ∧
      t.counts = s.counts ∧ t.regs = s.regs ∧ t.units = s.units := by
  intro t
  have hrest : Only [.host] (snapRest c m i fun d => finish d.id 0 (failDetail 0 noLeg)) := only_snapRest fun _ => only_finish
  have hsave : Only (.flag .atc :: memoryK) (savePart space addr m p i) := only_savePart
  have hmem : { c with started := true } ∈ ((savePart space addr m p i).run u).host.accepted := by rw [hsave.host]; exact hu.mem
  obtain ⟨hin, hout⟩ := run_savePart hu hspace hopen
  refine ⟨⟨fun j hj => (hrest.byteAt _ space _).trans (hin j hj), fun b hb => (hrest.byteAt _ space _).trans (hout b hb)⟩, ?_, ?_, ?_, ?_⟩
  · split
    · next hi =>
      obtain ⟨d, hd⟩ := findCmd_isSome (id := c.id) hmem rfl
      show HasFinished ((snapRest _ _ _ _).run _) c 0 _
      rw [run_snapRest_last hi hd, (findCmd_id hd).2]
      exact hasFinished_finish ⟨_, hmem, rfl⟩ _ _ none
    · next hi => exact goesOn_snapRest (q := c.part) hi hmem
  · exact hrest.counts.trans (hsave.counts.trans (by rw [hu.host]))
  · exact hrest.regs.trans (hsave.regs.trans (by rw [hu.host]))
  · exact hrest.units.trans (hsave.units.trans (by rw [hu.host]))

/-! ### RESTORE: positions -/

/-- The key of a stream of a list of streams. -/
def streamKey (x : Nat × Nat × Nat) : Nat := posKey x.1 x.2.1 x.2.2

theorem smGet_foldl_set_out {β : Type} (key val : β → Nat) {l : List β} {k : Nat} (hk : k ∉ l.map key) (g : SMap Nat) :
    smGet zeroDefault (l.foldl (fun g y => smSet zeroDefault g (key y) (val y)) g) k = smGet zeroDefault g k := by
  induction l generalizing g with
  | nil => rfl
  | cons y r ih =>
    rw [List.map_cons, List.mem_cons, not_or] at hk
    rw [List.foldl_cons, ih hk.2, smGet_set_ne _ _ _ _ _ hk.1]

/-- Values set at the distinct keys of a list: each reads back. -/
theorem smGet_foldl_set_in {β : Type} (key val : β → Nat) {l : List β} (hn : (l.map key).Nodup) {x : β} (hx : x ∈ l) (g : SMap Nat) :
    smGet zeroDefault (l.foldl (fun g y => smSet zeroDefault g (key y) (val y)) g) (key x) = val x := by
  induction l generalizing g with
  | nil => simp at hx
  | cons y r ih =>
    obtain ⟨hy, hr⟩ := List.nodup_cons.mp hn
    rcases List.mem_cons.mp hx with rfl | hx
    · rw [List.foldl_cons, smGet_foldl_set_out key val hy, smGet_set_same]
    · exact ih hr hx _

/-- Lists whose items show which of them they belong to have no item twice. -/
theorem nodup_flatMap_of_key {l : List Nat} {f : Nat → List Nat} (key : Nat → Nat) (hl : l.Nodup) (hf : ∀ x ∈ l, (f x).Nodup)
    (hkey : ∀ x ∈ l, ∀ y ∈ f x, key y = x) : (l.flatMap f).Nodup :=
  List.nodup_flatMap.mpr ⟨hf, hl.imp_of_mem fun ha hb hne y hya hyb => hne ((hkey _ ha y hya).symm.trans (hkey _ hb y hyb))⟩

/-- The streams of a piste have keys of their own. -/
theorem nodup_streamKeys (p : Nat) : ((snapStreams p).map streamKey).Nodup := by
  unfold snapStreams
  simp only [List.map_flatMap, List.map_map]
  refine nodup_flatMap_of_key (fun y => y / 512 - 12 * p) List.nodup_range (fun g _ => ?_) fun g _ y hy => ?_
  · refine nodup_flatMap_of_key (fun y => y / 256 % 2) (by split <;> decide) (fun k _ => ?_) fun k hk y hy => ?_
    · refine List.nodup_range.map fun a b hab => ?_
      simp only [Function.comp, streamKey, posKey] at hab
      omega
    · obtain ⟨l, hl, rfl⟩ := List.mem_map.mp hy
      have hl := List.mem_range.mp hl
      have hk : k < 2 := by
        split at hk <;> simp at hk <;> omega
      simp only [Function.comp, streamKey, posKey]
      omega
  · obtain ⟨k, hk, hy⟩ := List.mem_flatMap.mp hy
    obtain ⟨l, hl, rfl⟩ := List.mem_map.mp hy
    have hl := List.mem_range.mp hl
    have hk : k < 2 := by
      split at hk <;> simp at hk <;> omega
    simp only [Function.comp, streamKey, posKey, gateIsland]
    omega

/-- Every stream whose record a buffer holds stands at its saved position once positions are restored. -/
theorem posOf_restorePositions (b : List Byte) {l : List (Nat × Nat × Nat)} (hn : (l.map streamKey).Nodup) (s : State) {k : Nat}
    {x : Nat × Nat × Nat} (hx : l[k]? = some x) : posOf ((restorePositions b l).run s) x.1 x.2.1 x.2.2 = (snapRecord b k).1 := by
  have hmem : (x, k) ∈ l.zipIdx := List.mem_zipIdx_iff_getElem?.mpr hx
  have hkeys : (l.zipIdx.map fun y => streamKey y.1).Nodup := by
    rw [show (fun y : (Nat × Nat × Nat) × Nat => streamKey y.1) = streamKey ∘ Prod.fst from rfl, ← List.map_map, List.zipIdx_map_fst]
    exact hn
  exact smGet_foldl_set_in (fun y : (Nat × Nat × Nat) × Nat => streamKey y.1) (fun y => (snapRecord b y.2).1) hkeys hmem s.units.genPos

theorem units_restorePositions (b : List Byte) (l : List (Nat × Nat × Nat)) (s : State) :
    ((restorePositions b l).run s).units = { s.units with genPos := ((restorePositions b l).run s).units.genPos } := rfl

theorem posOf_congr {s t : State} (h : t.units = s.units) (island stream lane : Nat) : posOf t island stream lane = posOf s island stream lane := by
  unfold posOf
  rw [h]

/-! ### RESTORE: a step -/

/-- What rejects a step of RESTORE of a mask, of the place given. -/
def restoreStatus (s : State) (space m addr len : Nat) (first : Bool) : Nat :=
  if snapRefusal s space m addr len ≠ 0 then snapRefusal s space m addr len
  else if first then restoreRefusal s space m addr
  else if spaceBad s space addr (snapSize m) then Code.MEM_UE
  else 0

theorem restoreStatus_eq (s : State) (space m addr len i : Nat) : restoreStatus s space m addr len (i == 0) =
    if snapRefusal s space m addr len ≠ 0 then snapRefusal s space m addr len else if i = 0 then restoreRefusal s space m addr
      else if spaceBad s space addr (snapSize m) then Code.MEM_UE else 0 := by
  unfold restoreStatus
  rcases Nat.eq_zero_or_pos i with rfl | hi
  · rfl
  · rw [beq_eq_false_iff_ne.mpr hi.ne', if_neg hi.ne', if_neg Bool.false_ne_true]

theorem restoreStatus_host (s : State) (h : HostSt) (space m addr len : Nat) (first : Bool) :
    restoreStatus { s with host := h } space m addr len first = restoreStatus s space m addr len first := by
  unfold restoreStatus
  rw [snapRefusal_host, restoreRefusal_host]
  rfl

/-- The buffer of a step of RESTORE: the records of the piste of place `i`, behind as many bytes as a header has. -/
def restoreBuffer (s : State) (space addr i : Nat) : List Byte := List.replicate 64 0 ++ spaceBytes s space (addr + recordsAt i) 53248

/-- The streams of a step of RESTORE whose saved counter is not the one of their position. -/
def restoreBad (s : State) (space addr p i : Nat) : List (List Nat) := realigned (restoreBuffer s space addr i) (snapStreams p)

/-- How far a RESTORE has come once the realigned streams of a step have been counted. -/
def countedPart (q : CmdPart) (i : Nat) (l : List (List Nat)) : CmdPart :=
  { q with bad := (if i = 0 then 0 else q.bad) + l.length, first := if i = 0 ∨ q.bad = 0 then l.headD [] else q.first }

/-- What a step of RESTORE does, as `progSnapshotRestore` has it. -/
def restorePart (space addr : Nat) (c : Cmd) (p i : Nat) : Prog :=
  .look fun s => progs [
    noteRead space (addr + (snapPart i).1) (snapPart i).2,
    restorePositions (restoreBuffer s space addr i) (snapStreams p),
    modCmd c.id fun x => { x with part := countedPart x.part i (restoreBad s space addr p i) }]

/-- The end of a RESTORE, as `progSnapshotRestore` has it: the realigned streams shown, recorded where there are any, and the completion. -/
def restoreEnd (c : Cmd) : Prog :=
  progs [
    wr .mode Reg.MODE.REALIGN c.part.bad,
    whenP (c.part.bad != 0) (
      let x := fun i => nth c.part.first i 0
      raise Code.GEN_REALIGN 852 0 noLeg (x 2) [w32 c.part.bad, w32 (x 0), w32 (x 1), w64 (x 3), w64 (x 4)]),
    finish c.id 0 (failDetail 0 noLeg)]

theorem run_snapshotRestore {s : State} {r : Fin 64} {space mask addr len : Nat} {c : Cmd}
    (h : Steps s r (.snapshotRestore space mask addr len) c c.part.moved) (hfw : fwRuns s = true) :
    ∃ u, StepState s u c ∧
      (restoreStatus s space (snapMask s c mask) addr len (c.part.moved == 0) ≠ 0 → exec (.snapshotRestore r space mask addr len) s =
        .next ((snapFail c (restoreStatus s space (snapMask s c mask) addr len (c.part.moved == 0))).run u)) ∧
      (∀ p, restoreStatus s space (snapMask s c mask) addr len (c.part.moved == 0) = 0 → allHeld s (serviceMask s (snapMask s c mask)) = true →
        spaceHot s space (addr + (snapPart c.part.moved).1) (snapPart c.part.moved).2 = false →
        (maskList 64 (snapMask s c mask))[c.part.moved]? = some p → exec (.snapshotRestore r space mask addr len) s =
          .next ((snapRest c (snapMask s c mask) c.part.moved restoreEnd).run ((restorePart space addr c p c.part.moved).run u))) := by
  obtain ⟨u, hu, hfail, hstep⟩ := run_snapCmd (space := space) (addr := addr) (mask := mask)
    (refusal := fun s m f => restoreStatus s space m addr len f) (k := fun c _ p i => restorePart space addr c p i) (last := restoreEnd)
    (fun x m f => restoreStatus_host s x space m addr len f) h hfw
  exact ⟨u, hu, fun hst => congrArg Host.Outcome.next (hfail hst), fun p hst hheld hcool hp => congrArg Host.Outcome.next (hstep p hst hheld hcool hp)⟩

/-- The kinds of change that RESTORE makes. -/
def restoreK : List Kind := [.reg, .flag .atc, .units, .host, .recs]

theorem only_restorePart {space addr : Nat} {c : Cmd} {p i : Nat} : Only restoreK (restorePart space addr c p i) :=
  only_look fun _ => only_cons ((only_noteRead _ _ _).mono (by decide)) (only_cons only_modUnits (only_cons only_modHost only_nil))

theorem only_restoreEnd {c : Cmd} : Only [.reg, .host, .recs] (restoreEnd c) :=
  only_cons only_wr (only_cons (only_whenP only_raise) (only_cons only_finish only_nil))

/-- The last step of a RESTORE shows how many streams it has realigned, records them, and completes the command. -/
theorem restoreEnd_spec {v : State} {d : Cmd} (hd : d ∈ v.host.accepted) :
    let t := (restoreEnd d).run v
    HasFinished t d 0 (failDetail 0 noLeg) ∧ rd t .mode Reg.MODE.REALIGN = d.part.bad % 2 ^ Reg.MODE.REALIGN.w ∧
      (d.part.bad ≠ 0 → HasRecord t 852 Code.GEN_REALIGN) := by
  intro t
  let record : Prog := whenP (d.part.bad != 0) (
    let x := fun i => nth d.part.first i 0
    raise Code.GEN_REALIGN 852 0 noLeg (x 2) [w32 d.part.bad, w32 (x 0), w32 (x 1), w64 (x 3), w64 (x 4)])
  have hrun : t = (finish d.id 0 (failDetail 0 noLeg)).run (record.run ((wr .mode Reg.MODE.REALIGN d.part.bad).run v)) := rfl
  have hfinish : Only [.host] (finish d.id 0 (failDetail 0 noLeg)) := only_finish
  have hrecord : Only [.reg, .recs] record := only_whenP only_raise
  have hwr : Only [.reg] (wr .mode Reg.MODE.REALIGN d.part.bad) := only_wr
  rw [hrun]
  refine ⟨hasFinished_finish ⟨d, ?_, rfl⟩ _ _ none, ?_, fun hbad => ?_⟩
  · rw [hrecord.host, hwr.host]
    exact hd
  · have hwords : Writes recordWords record := writes_whenP fun _ => writes_raise _ _ _ _ _ _
    rw [rd_congr hfinish.regs _ _ _ (by decide), hwords.rd (by unfold recordWords; decide) (by decide), rd_wr_same _ _ _ _ _ (by decide)]
  · refine HasRecord.of_srcQueue ?_ ((hfinish.srcQueue 852) _)
    show HasRecord ((whenP _ _).run _) _ _
    rw [bne_iff_ne.mpr hbad, run_whenP_true]
    exact hasRecord_raise _ _ _ _ _ _ _

/-- What a step of RESTORE has done before what follows it: positions restored, and the command counted further. -/
theorem restorePart_spec {s u : State} {c : Cmd} (hu : StepState s u c) (space addr p i : Nat) :
    let v := (restorePart space addr c p i).run u
    (∀ k x, (snapStreams p)[k]? = some x → posOf v x.1 x.2.1 x.2.2 = (snapRecord (restoreBuffer s space addr i) k).1) ∧
      v.units = { s.units with genPos := v.units.genPos } ∧
      { c with started := true, part := countedPart c.part i (restoreBad s space addr p i) } ∈ v.host.accepted ∧
      v.host.accepted.map (·.id) = s.host.accepted.map (·.id) := by
  have hbuf : restoreBuffer u space addr i = restoreBuffer s space addr i := by rw [hu.host]; rfl
  unfold restorePart restoreBad
  rw [run_look, hbuf, run_progs_cons, run_progs_cons, run_progs_cons, run_progs_nil]
  have hnote := only_noteRead space (addr + (snapPart i).1) (snapPart i).2
  have hhost : ((noteRead space (addr + (snapPart i).1) (snapPart i).2).run u).host = u.host := hnote.host
  have hunits : ((noteRead space (addr + (snapPart i).1) (snapPart i).2).run u).units = s.units := by rw [hnote.units, hu.host]
  generalize (noteRead space (addr + (snapPart i).1) (snapPart i).2).run u = w at hhost hunits
  have hcmd : Only [.host] (modCmd c.id fun x => { x with part := countedPart x.part i (realigned (restoreBuffer s space addr i) (snapStreams p)) }) :=
    only_modHost
  refine ⟨fun k x hx => (posOf_congr hcmd.units _ _ _).trans (posOf_restorePositions _ (nodup_streamKeys p) w hx), ?_, ?_, ?_⟩
  · rw [hcmd.units, ← hunits]
    exact units_restorePositions _ _ w
  · show _ ∈ w.host.accepted.map _
    rw [hhost]
    exact List.mem_map.mpr ⟨_, hu.mem, if_pos rfl⟩
  · show (w.host.accepted.map _).map _ = _
    rw [hhost, List.map_map, ← hu.ids]
    refine List.map_congr_left fun x _ => ?_
    dsimp only [Function.comp]
    split
    · rfl
    · rfl

/-- A step of RESTORE that is not refused. -/
theorem snapshotRestore_step {s u : State} {c : Cmd} (hu : StepState s u c) (hn : (s.host.accepted.map (·.id)).Nodup) (space addr m p i : Nat) :
    let t := (snapRest c m i restoreEnd).run ((restorePart space addr c p i).run u)
    let q := countedPart c.part i (restoreBad s space addr p i)
    (∀ k x, (snapStreams p)[k]? = some x → posOf t x.1 x.2.1 x.2.2 = (snapRecord (restoreBuffer s space addr i) k).1) ∧
      (if i + 1 = (maskList 64 m).length then HasFinished t c 0 (failDetail 0 noLeg) ∧
          rd t .mode Reg.MODE.REALIGN = q.bad % 2 ^ Reg.MODE.REALIGN.w ∧ (q.bad ≠ 0 → HasRecord t 852 Code.GEN_REALIGN)
        else GoesOn t c { q with moved := i + 1, mask := m }) ∧
      t.counts = s.counts ∧ t.mode = s.mode ∧ t.units = { s.units with genPos := t.units.genPos } := by
  intro t q
  have hpart : Only restoreK (restorePart space addr c p i) := only_restorePart
  have hrest : Only [.reg, .host, .recs] (snapRest c m i restoreEnd) := only_snapRest fun _ => only_restoreEnd
  obtain ⟨hpos, hunits, hmem, hids⟩ := restorePart_spec hu space addr p i
  have htunits : t.units = ((restorePart space addr c p i).run u).units := hrest.units
  refine ⟨fun k x hx => ?_, ?_, hrest.counts.trans (hpart.counts.trans (by rw [hu.host])), hrest.mode.trans (hpart.mode.trans (by rw [hu.host])), ?_⟩
  · rw [← hpos k x hx, posOf_congr htunits]
  · split
    · next hi =>
      have hd := findCmd_of_nodup hmem (hids ▸ hn)
      have ht : t = (restoreEnd { c with started := true, part := q }).run ((restorePart space addr c p i).run u) := run_snapRest_last hi hd
      rw [ht]
      exact restoreEnd_spec hmem
    · next hi => exact goesOn_snapRest hi hmem
  · rw [htunits]
    exact hunits

end Sys2Proof.Machine
end

section
/-! TABLE_MIGRATE and its copy (R191, R197), and the obligation on snapshots and migrations. -/

namespace Sys2Proof.Machine

open Sys2Proof

set_option Elab.async false

/-! ### The level-2 entry written -/

theorem l2Bytes_length (x : L2) : (l2Bytes x).length = 16 := by
  unfold l2Bytes
  simp only [List.length_append, leBytes_length]

/-- A write of HBM where no granule is open leaves its bytes, and no other changes. -/
theorem writesBytes_hbmWrite {s : State} {a : Nat} {l : List Byte} (h : NoneOpen s a l.length) : WritesBytes s ((hbmWrite a l).run s) 0 a l := by
  have hrun := run_hbmWrite s a l h
  exact writesBytes_hbm h (by rw [hrun]) (by rw [hrun])

/-! ### The start of a migration -/

theorem only_placeWrite {s : State} {rg : Nat × Nat} {l : List Byte} {bad : Nat → Nat → Bool} : Only memoryK (placeWrite s rg l bad) :=
  only_spaceWrite (space := rgnLoc (rgnOf (firmwareView s) 64 rg.1))

theorem preserves_closed_placeWrite (b : Nat) (s : State) (rg : Nat × Nat) (l : List Byte) (bad : Nat → Nat → Bool) :
    Preserves (fun s => openAt s b = none) (placeWrite s rg l bad) :=
  preserves_closed_spaceWrite b (rgnLoc (rgnOf (firmwareView s) 64 rg.1)) _ l bad

/-- What a migration prepares, by its branches: nothing, or one write to a place of the table. -/
theorem migPrepare_cases {P : Prog → Prop} {s : State} (hskip : P .skip) (hwrite : ∀ rg l bad, P (placeWrite s rg l bad)) (x : MigRow) (m : Migration) :
    P (migPrepare s x m) := by
  unfold migPrepare
  dsimp only
  split
  · exact hskip
  · split
    · exact hwrite _ _ _
    · split
      · exact hskip
      · exact hwrite _ _ _

/-- The window of a migration opened, as `progTableMigrate` has it. -/
def migOpen (s : State) (x : MigRow) (m : Migration) : Prog :=
  progs [
    migPrepare s x m,
    hbmWrite x.at_ (l2Bytes { x.l2 with migrating := true, newSlot := m.newSlot, newCold := m.tier == 1 }),
    modHost fun h => { h with migrations := h.migrations ++ [m] }]

/-- The start of a migration, as `progTableMigrate` has it. -/
def migStart (m : Migration) : Prog :=
  .look fun s =>
    if migRecordBad s m then finish m.cmd Code.MEM_UE 0
    else match migRow s m with
    | none => finish m.cmd Code.EMB_MIGRATE 0
    | some x =>
      if !migOk s x m then finish m.cmd Code.EMB_MIGRATE 0
      else if placeRefused (firmwareView s) x (oldPlace x) || placeRefused (firmwareView s) x (newPlace x m) then finish m.cmd Code.HOST_XLATE 0
      else migOpen s x m

theorem unfenced_begun (s : State) (c : Cmd) : unfenced (begun s c) = unfenced s := by
  unfold unfenced
  rw [fenced_begun]

theorem exec_tableMigrate {s : State} {r : Fin 64} {region table tier row offset newSlot : Nat} {c : Cmd} {m : Migration}
    (h : Awaits s r (.tableMigrate region table tier row offset newSlot) c)
    (hm : m = { cmd := c.id, region := region, offset := offset, table := table, row := row, tier := tier, newSlot := newSlot,
                busy := (unfenced s).filter fun p => (pisteOf s p).run.isSome })
    (hcool : migHot s m = false) :
    exec (.tableMigrate r region table tier row offset newSlot) s = .next ((migStart m).run (begun s c)) := by
  subst hm
  show done (progTableMigrate r region table tier row offset newSlot) s = _
  rw [done_eq]
  unfold progTableMigrate
  dsimp only
  rw [run_look]
  have hgo : migHot s { cmd := 0, region := region, offset := offset, table := table, row := row, tier := tier, newSlot := newSlot, busy := [] } = false := hcool
  rw [hgo, Bool.not_false, run_whenP_true, run_startCmd h, run_look, unfenced_begun]
  rfl

section
variable {s : State} {m : Migration}

theorem migRecordBad_host (s : State) (h : HostSt) (m : Migration) : migRecordBad { s with host := h } m = migRecordBad s m := rfl
theorem migRow_host (s : State) (h : HostSt) (m : Migration) : migRow { s with host := h } m = migRow s m := rfl
theorem migOk_host (s : State) (h : HostSt) (x : MigRow) (m : Migration) : migOk { s with host := h } x m = migOk s x m := rfl
theorem placeRefused_host (s : State) (h : HostSt) (x : MigRow) (rg : Nat × Nat) :
    placeRefused (firmwareView { s with host := h }) x rg = placeRefused (firmwareView s) x rg := rfl

theorem run_migStart_none (h : HostSt) (hbad : migRecordBad s m = false) (hrow : migRow s m = none) :
    (migStart m).run { s with host := h } = (finish m.cmd Code.EMB_MIGRATE 0).run { s with host := h } := by
  unfold migStart
  rw [run_look, migRecordBad_host, hbad, if_neg Bool.false_ne_true, migRow_host, hrow]

theorem run_migStart_open {x : MigRow} (h : HostSt) (hbad : migRecordBad s m = false) (hrow : migRow s m = some x) (hok : migOk s x m = true)
    (hold : placeRefused (firmwareView s) x (oldPlace x) = false) (hnew : placeRefused (firmwareView s) x (newPlace x m) = false) :
    (migStart m).run { s with host := h } = (migOpen { s with host := h } x m).run { s with host := h } := by
  unfold migStart
  rw [run_look, migRecordBad_host, hbad, if_neg Bool.false_ne_true, migRow_host, hrow]
  dsimp only
  rw [migOk_host, hok, placeRefused_host, hold, placeRefused_host, hnew]
  rfl

/-- A migration that passes its checks opens its window in the level-2 entry, and waits. -/
theorem migOpen_spec {x : MigRow} (u : State) (hopen : NoneOpen u x.at_ 16) :
    let t := (migOpen s x m).run u
    t.host.migrations = u.host.migrations ++ [m] ∧
      (∀ i, i < 16 → hbmByte t (x.at_ + i) = nth (l2Bytes { x.l2 with migrating := true, newSlot := m.newSlot, newCold := m.tier == 1 }) i 0) ∧
      t.counts = u.counts ∧ t.regs = u.regs := by
  intro t
  have hprep : Only memoryK (migPrepare s x m) := migPrepare_cases only_skip (fun _ _ _ => only_placeWrite) x m
  have hclosed (b : Nat) : Preserves (fun s => openAt s b = none) (migPrepare s x m) :=
    migPrepare_cases preserves_skip (preserves_closed_placeWrite b s) x m
  have hentry : Only memoryK (hbmWrite x.at_ (l2Bytes { x.l2 with migrating := true, newSlot := m.newSlot, newCold := m.tier == 1 })) := only_hbmWrite
  refine ⟨?_, fun i hi => ?_, hentry.counts.trans hprep.counts, hentry.regs.trans hprep.regs⟩
  · show (_ : State).host.migrations ++ [m] = _
    rw [hentry.host, hprep.host]
  · exact (writesBytes_hbmWrite (fun j hj => hclosed _ _ (hopen j (by rwa [l2Bytes_length] at hj)))).1 i (by rwa [l2Bytes_length])

end

/-! ### The copy of a migration -/

theorem settleFences_migrations (n : Nat) (h : HostSt) : (settleFences n h).migrations = h.migrations := by
  induction n generalizing h with
  | zero => rfl
  | succ n ih =>
    unfold settleFences
    split
    · rfl
    · exact ih _

theorem finish_migrations (id status detail : Nat) (s : State) : ((finish id status detail).run s).host.migrations = s.host.migrations := by
  cases h : findCmd s id with
  | none => rw [run_finish_none h]
  | some c =>
    rw [run_finish_some h]
    exact settleFences_migrations _ _

/-- The row of a table as it lies at its old place. -/
def rowThere (s : State) (x : MigRow) : List Byte :=
  rgnBytes { s := firmwareView s, p := 64, got := [] } (rgnOf (firmwareView s) 64 (oldPlace x).1) (oldPlace x).2 x.t.rowLen

/-- A row with the HOT bit of the tier it goes to. -/
def rowMoved (m : Migration) (row : List Byte) : List Byte :=
  patch row 5 [BitVec.ofNat 8 (putBits (leNat ((row.drop 5).take 1)) 0 1 (ofBool (m.tier == 0)))]

/-- The level-2 entry that a copy leaves: closed, at the new place, or at the old one where copies differ. -/
def entryClosed (m : Migration) (x : MigRow) (differs : Bool) : L2 :=
  if differs then { x.l2 with migrating := false } else { x.l2 with slot := m.newSlot, cold := m.tier == 1, migrating := false }

/-- The poison that a copied row takes with it. -/
def rowPoison (s : State) (x : MigRow) (base : Nat) (a l : Nat) : Bool :=
  !(poisonOffs { s := firmwareView s, p := 64, got := [] } (rgnOf (firmwareView s) 64 (oldPlace x).1) ((oldPlace x).2 + (a - base)) l).isEmpty

/-- Where a row goes, as an address of its region's location. -/
def newAddr (s : State) (x : MigRow) (m : Migration) : Nat := rgnBase (rgnOf (firmwareView s) 64 (newPlace x m).1) + (newPlace x m).2

/-- The copy of a row, the closed entry, and the completion. -/
theorem run_migCopy (s : State) (m : Migration) (x : MigRow) (differs : Bool) :
    (migCopy m x differs).run s =
      (finish m.cmd (if differs then Code.EMB_MIGRATE_BUSY else 0) 0).run ((hbmWrite x.at_ (l2Bytes (entryClosed m x differs))).run
        (logOwn.run ((placeWrite s (newPlace x m) (rowMoved m (rowThere s x)) (rowPoison s x (newAddr s x m))).run s))) := by
  cases differs <;> rfl

theorem patch_one_length {l : List Byte} {i : Nat} (h : i < l.length) (b : Byte) : (patch l i [b]).length = l.length := by
  unfold patch
  simp only [List.length_append, List.length_take, List.length_drop, List.length_singleton]
  omega

/-- A byte put in place leaves the others. -/
theorem nth_patch_one {l : List Byte} {i j : Nat} (h : i < l.length) (hj : j ≠ i) (b : Byte) : nth (patch l i [b]) j 0 = nth l j 0 := by
  unfold nth patch
  congr 1
  rw [List.append_assoc]
  by_cases hlt : j < i
  · rw [List.getElem?_append_left (by rw [List.length_take]; omega), List.getElem?_take_of_lt hlt]
  · rw [List.getElem?_append_right (by rw [List.length_take]; omega), List.length_take, Nat.min_eq_left h.le,
      List.getElem?_append_right (by rw [List.length_singleton]; omega), List.getElem?_drop, List.length_singleton]
    congr 1
    omega

theorem rowThere_length (s : State) (x : MigRow) : (rowThere s x).length = x.t.rowLen := by
  unfold rowThere rgnBytes
  exact viewBytes_length _ _ _ _ _ _

/-- The state before a copy's completion: the migration no longer waits, its row and its entry are written. -/
theorem migCopy_spec {s : State} {m : Migration} {x : MigRow} {d : Cmd} (differs : Bool) (hopen : NoneOpen s x.at_ 16) (hd : findCmd s m.cmd = some d)
    (hlen : 6 ≤ x.t.rowLen) :
    let t := (migCopy m x differs).run s
    let new := rgnOf (firmwareView s) 64 (newPlace x m).1
    let a := newAddr s x m
    t.host.migrations = s.host.migrations ∧ HasFinished t d (if differs then Code.EMB_MIGRATE_BUSY else 0) 0 ∧
      (∀ i, i < 16 → hbmByte t (x.at_ + i) = nth (l2Bytes (entryClosed m x differs)) i 0) ∧
      (rgnLoc new ≤ 1 → (rgnLoc new = 0 → NoneOpen s a x.t.rowLen ∧ (x.at_ + 16 ≤ a ∨ a + x.t.rowLen ≤ x.at_)) →
        ∀ i, i < x.t.rowLen → i ≠ 5 → byteAt t (rgnLoc new) (a + i) = nth (rowThere s x) i 0) ∧
      t.counts = s.counts ∧ t.regs = s.regs := by
  intro t new a
  let place : Prog := placeWrite s (newPlace x m) (rowMoved m (rowThere s x)) (rowPoison s x a)
  let entry : Prog := hbmWrite x.at_ (l2Bytes (entryClosed m x differs))
  let end_ : Prog := finish m.cmd (if differs then Code.EMB_MIGRATE_BUSY else 0) 0
  have hrun : t = end_.run (entry.run (logOwn.run (place.run s))) := run_migCopy s m x differs
  have hplace : Only memoryK place := only_placeWrite
  have hlog : Only [.recs] logOwn := only_logOwn
  have hentry : Only memoryK entry := only_hbmWrite
  have hend : Only [.host] end_ := only_finish
  have hhost : (entry.run (logOwn.run (place.run s))).host = s.host := hentry.host.trans (hlog.host.trans hplace.host)
  have hclosed : NoneOpen (logOwn.run (place.run s)) x.at_ (l2Bytes (entryClosed m x differs)).length := fun i hi =>
    (openAt_congr (congrArg (·.granules) hlog.stk) _).trans
      (preserves_closed_placeWrite _ s _ _ _ _ (hopen i (by rwa [l2Bytes_length] at hi)))
  obtain ⟨hin, hout⟩ := writesBytes_hbmWrite hclosed
  rw [l2Bytes_length] at hin hout
  rw [hrun]
  refine ⟨?_, ?_, fun i hi => (hend.byteAt _ 0 _).trans (hin i hi), fun hloc hfree i hi hi5 => ?_, ?_, ?_⟩
  · show ((finish _ _ _).run _).host.migrations = _
    rw [finish_migrations, hhost]
  · obtain ⟨hmem, hid⟩ := findCmd_id hd
    show HasFinished ((finish _ _ _).run _) d _ _
    rw [← hid]
    exact hasFinished_finish ⟨d, by rw [hhost]; exact hmem, rfl⟩ _ _ none
  · have hrow : (rowMoved m (rowThere s x)).length = x.t.rowLen := (patch_one_length (by rw [rowThere_length]; omega) _).trans (rowThere_length s x)
    obtain ⟨q, hq, hbytes, -⟩ := run_spaceWrite (s := s) (a := a) (l := rowMoved m (rowThere s x)) hloc
      (fun h0 => by rw [hrow]; exact (hfree h0).1) (rowPoison s x a)
    have hput : byteAt (logOwn.run (place.run s)) (rgnLoc new) (a + i) = nth (rowThere s x) i 0 := by
      rw [hlog.byteAt, show place.run s = _ from hq, hbytes i (by rwa [hrow])]
      exact nth_patch_one (by rw [rowThere_length]; omega) hi5 _
    rw [hend.byteAt, ← hput]
    rcases Nat.le_one_iff_eq_zero_or_eq_one.mp hloc with h0 | h1
    · rw [h0]
      obtain ⟨-, hapart⟩ := hfree h0
      exact hout _ (by omega)
    · rw [h1]
      exact congrArg (smGet byteDefault · (a + i)) ((only_hbmWrite (K := [.bytes .hbm, .flag .hbmPoison, .stk])).memOf (m := .host))
  · exact hend.counts.trans (hentry.counts.trans (hlog.counts.trans hplace.counts))
  · exact hend.regs.trans (hentry.regs.trans (hlog.regs.trans hplace.regs))

/-- The oldest migration copied, once every piste has passed a boundary. -/
theorem exec_tableMigrateCopy {s : State} {m : Migration} {rest : List Migration} {x : MigRow} (differs : Bool) (hmig : s.host.migrations = m :: rest)
    (hbusy : m.busy = []) (hfw : fwRuns s = true) (hcool : migHot s m = false) (hrow : migRow s m = some x)
    (hold : placeRefused (firmwareView s) x (oldPlace x) = false) (hnew : placeRefused (firmwareView s) x (newPlace x m) = false) :
    exec (.tableMigrateCopy differs) s = .next ((migCopy m x differs).run { s with host := { s.host with migrations := rest } }) := by
  show done (progTableMigrateCopy differs) s = _
  rw [done_eq]
  unfold progTableMigrateCopy
  rw [run_look, hmig]
  dsimp only
  rw [hbusy, hfw, hcool, hrow]
  dsimp only
  rw [hold, hnew]
  rfl

/-! ### The obligation -/

/-- Settles O50: a SNAPSHOT by its step in the state its turn leaves, a migration by its start and its copy. -/
theorem snapshotsAndMigrations : Obligations.SnapshotsAndMigrations := by
  unfold Obligations.SnapshotsAndMigrations
  intro s r c
  refine ⟨fun space mask addr len i hspace hi hfw => ?_, fun region table tier row offset newSlot h => ?_,
    fun m rest x d differs hmig hbusy hfw hcool hrow hold hnew hopen hd hlen => ?_⟩
  · subst hi
    intro m refused a size ends
    have ha : a = addr + (snapPart c.part.moved).1 := by rw [snapPart_fst]
    have hsize : size = (snapPart c.part.moved).2 := by rw [snapPart_snd]
    refine ⟨fun h => ?_, fun h hn => ?_⟩
    · obtain ⟨u, hu, hfail, hstep⟩ := run_snapshotSave h hfw
      refine ⟨fun hst => ⟨_, hfail hst, snapFail_spec hu _⟩, fun p hst hheld hcool hp => ?_⟩
      intro part hopen
      rw [ha, hsize] at hcool
      rw [ha] at hopen ⊢
      obtain ⟨⟨hin, hout⟩, hspec⟩ := snapshotSave_step hu hspace hopen
      exact ⟨_, hstep p hst hheld hcool hp, hin, hout, hspec⟩
    · obtain ⟨u, hu, hfail, hstep⟩ := run_snapshotRestore h hfw
      intro st
      have hst : restoreStatus s space m addr len (c.part.moved == 0) = st := restoreStatus_eq s space m addr len c.part.moved
      rw [← hst]
      refine ⟨fun hne => ⟨_, hfail hne, snapFail_spec hu _⟩, fun p hok hheld hcool hp => ?_⟩
      rw [ha, hsize] at hcool
      exact ⟨_, hstep p hok hheld hcool hp, snapshotRestore_step hu hn space addr m p c.part.moved⟩
  · intro m hcool hbad
    have hexec := exec_tableMigrate h rfl hcool
    refine ⟨fun hrow => ⟨_, hexec, ?_⟩, fun x hrow hok hold hnew hopen => ⟨_, hexec, ?_⟩⟩
    · rw [show (migStart m).run (begun s c) = (finish c.id Code.EMB_MIGRATE 0).run (begun s c) from run_migStart_none _ hbad hrow]
      exact finish_begun h _ _
    · rw [show (migStart m).run (begun s c) = (migOpen (begun s c) x m).run (begun s c) from run_migStart_open _ hbad hrow hok hold hnew]
      exact migOpen_spec (begun s c) hopen
  · intro v new a row
    obtain ⟨hmigs, hspec⟩ := migCopy_spec (s := { s with host := { s.host with migrations := rest } }) (m := m) differs hopen hd hlen
    exact ⟨_, exec_tableMigrateCopy differs hmig hbusy hfw hcool hrow hold hnew, hmigs, hspec⟩

end Sys2Proof.Machine
end

section
/-! Register writes of gates (R98, R219, R312): the spare map of an M-gate, the first drop of a V-gate, and the channels of an X-gate. -/

namespace Sys2Proof.Machine

open Sys2Proof

set_option Elab.async false

/-! ### Writes let in, and the frames of their effects -/

/-- A register write that is let in completes with its effect. -/
theorem done_access {s : State} {id : Ident} {a : Nat} {live : Bool} (p : Prog) (h : LetIn s id a live) : done (access id a true live p) s = .next (p.run s) := by
  rw [done_eq, run_access_letIn p h]

theorem Only.regs_recs {p : Prog} (h : Only [.reg, .recs] p) (s : State) : p.run s = { s with regs := (p.run s).regs, recs := (p.run s).recs } := by
  have := (h.mono (by decide)).regs_recs_fw s
  rwa [h.fw] at this

theorem Only.regs_only {p : Prog} (h : Only [.reg] p) (s : State) : p.run s = { s with regs := (p.run s).regs } := by
  have := (h.mono (by decide)).regs_recs s
  rwa [h.recs] at this

/-- A program that changes only words of a list. -/
theorem onlyRegs_of_writes {p : Prog} {l : List Nat} (h : Only [.reg] p) (hw : Writes (· ∈ l) p) (s : State) : OnlyRegs s (p.run s) l :=
  ⟨h.regs_only s, fun a ha => hw a ha s⟩

/-! ### The spare map of an M-gate (R98) -/

/-- Whether a write of SPARE_MAP[reg], or with `reg` 4 of SPARE_VALID, would map a column twice. -/
def spareWriteClash (s : State) (p g reg : Nat) (v : Word) : Bool :=
  let ws := (List.range 4).map fun i => (regWord s (pageBase (.gate p g) + 0x220 + 4 * i)).toNat
  spareClash (if reg < 4 then ws.set reg v.toNat else ws) (if reg < 4 then rd s (.gate p g) Reg.GATEM.SPARE_VALID else v.toNat % 65536)

/-- What a write that maps a column twice does: it is recorded. -/
def spareRefused (s : State) (p g : Nat) : Prog :=
  .seq (wr (.gate p g) Reg.GATEM.CHECK_SPARE_WRITE 1) (raise Code.MG_SPARE_WRITE (gateIsland p g) (iterOn s p) noLeg 0 [])

theorem run_opSpare_locked {s : State} {p g : Nat} (h : rd s (.gate p g) Reg.GATEM.SPARE_LOCK_LOCK = 1) (reg v : Nat) : (opSpare p g reg v).run s = s := by
  unfold opSpare
  rw [run_look]
  dsimp only
  rw [h]
  rfl

theorem run_opSpare {s : State} {p g : Nat} (h : rd s (.gate p g) Reg.GATEM.SPARE_LOCK_LOCK = 0) (reg : Nat) (v : Word) :
    (opSpare p g reg v.toNat).run s = (if spareWriteClash s p g reg v then spareRefused s p g
      else if reg < 4 then .prim (.reg (pageBase (.gate p g) + 0x220 + 4 * reg) v)
      else wr (.gate p g) Reg.GATEM.SPARE_VALID (v.toNat % 65536)).run s := by
  unfold opSpare
  rw [run_look]
  dsimp only
  rw [h, Nat.mod_eq_of_lt v.isLt, BitVec.ofNat_toNat, BitVec.setWidth_eq]
  rfl

theorem only_spareRefused {s : State} {p g : Nat} : Only [.reg, .recs] (spareRefused s p g) := only_seq only_wr only_raise

theorem writes_spareRefused (s : State) (p g : Nat) :
    Writes (fun a => a = fldAddr (.gate p g) Reg.GATEM.CHECK_SPARE_WRITE 0 ∨ recordWords a) (spareRefused s p g) :=
  writes_seq (writes_wr (.inl rfl)) ((writes_raise _ _ _ _ _ _).mono fun _ => .inr)

/-- A write that maps a column twice sets CHECK.SPARE_WRITE, leaves a record, and leaves every word of the map. -/
theorem spareRefused_spec (s : State) {p g : Nat} (hp : p < 64) (hg : g < 12) {a : Nat} (ha : pageBase (.gate p g) + 0x220 ≤ a) {t : State}
    (ht : t = (spareRefused s p g).run s) :
    rd t (.gate p g) Reg.GATEM.CHECK_SPARE_WRITE = 1 ∧ HasRecord t (gateIsland p g) Code.MG_SPARE_WRITE ∧ regWord t a = regWord s a ∧
      t = { s with regs := t.regs, recs := t.recs } := by
  have hcheck : plain (.gate p g) Reg.GATEM.CHECK_SPARE_WRITE = true := plain_gate hp hg
  have hkept : regWord t a = regWord s a := by
    refine ht ▸ writes_spareRefused s p g a ?_ s
    simp only [recordWords, fldAddr, pageBase, Reg.GATEM.CHECK_SPARE_WRITE] at ha ⊢
    omega
  have hframe : t = { s with regs := t.regs, recs := t.recs } := ht ▸ only_spareRefused.regs_recs s
  refine ⟨?_, ?_, hkept, hframe⟩
  · rw [ht, spareRefused, run_seq, (writes_raise _ _ _ _ _ _).rd (by simp only [recordWords, fldAddr, pageBase]; omega) hcheck,
      rd_wr_same _ _ _ _ _ hcheck]
    rfl
  · rw [ht, spareRefused, run_seq]
    exact hasRecord_raise _ _ _ _ _ _ _

/-- A write that the map takes puts the word, or SPARE_VALID. -/
theorem spareTaken_spec {s : State} {p g reg : Nat} (hp : p < 64) (hg : g < 12) (hreg : reg < 5) (h : rd s (.gate p g) Reg.GATEM.SPARE_LOCK_LOCK = 0)
    {v : Word} (hok : spareWriteClash s p g reg v = false) :
    let a := pageBase (.gate p g) + (if reg < 4 then 0x220 + 4 * reg else 0x230)
    let t := (opSpare p g reg v.toNat).run s
    (reg < 4 → regWord t a = v) ∧ (reg = 4 → rd t (.gate p g) Reg.GATEM.SPARE_VALID = v.toNat % 65536) ∧ OnlyRegs s t [a] := by
  intro a t
  have ht : t = _ := run_opSpare h reg v
  rw [hok, if_neg Bool.false_ne_true] at ht
  by_cases h4 : reg < 4
  · have ha : a = pageBase (.gate p g) + 0x220 + 4 * reg := by simp only [a, if_pos h4, Nat.add_assoc]
    rw [if_pos h4, run_prim, ← ha] at ht
    rw [ht]
    refine ⟨fun _ => ?_, fun h => absurd h4 (by omega), onlyRegs_reg _ _ _ (List.mem_singleton.mpr rfl)⟩
    rw [regWord_reg, if_pos rfl]
  · have ha : a = fldAddr (.gate p g) Reg.GATEM.SPARE_VALID 0 := by
      simp only [a, if_neg h4, fldAddr, Reg.GATEM.SPARE_VALID, Nat.mul_zero, Nat.add_zero]
    rw [if_neg h4] at ht
    rw [ht, ha]
    refine ⟨fun h => absurd h h4, fun _ => ?_, onlyRegs_wr _ _ _ _ _ (List.mem_singleton.mpr rfl)⟩
    rw [rd_wr_same _ _ _ _ _ (plain_gate hp hg)]
    exact Nat.mod_mod _ _

/-! ### The first drop of a V-gate (R219) -/

/-- Whether two fields share no bit: they lie in different words, or in different bits of one. -/
def fieldsApart (f g : Fld) : Bool := (f.stride == g.stride && f.off != g.off) || decide (f.lo + f.w ≤ g.lo) || decide (g.lo + g.w ≤ f.lo)

/-- Fields apart from each other that a program sets to 0 in turn all read 0 afterwards. -/
theorem rd_forEach_zero {pg : Page} {fs : List Fld} {i : Nat} (hp : ∀ f ∈ fs, plain pg f i = true) (hne : ∀ f ∈ fs, ∀ g ∈ fs, f = g ∨ fieldsApart f g = true)
    {f : Fld} (hf : f ∈ fs) (s : State) : rd ((forEach fs fun f => wr pg f 0 i).run s) pg f i = 0 := by
  have hzero (t : State) : rd ((wr pg f 0 i).run t) pg f i = 0 := (rd_wr_same _ _ _ _ _ (hp f hf)).trans (Nat.zero_mod _)
  have hkeep (g : Fld) (hg : g ∈ fs) (t : State) (ht : rd t pg f i = 0) : rd ((wr pg g 0 i).run t) pg f i = 0 := by
    rcases hne g hg f hf with rfl | hapart
    · exact hzero t
    · simp only [fieldsApart, Bool.or_eq_true, Bool.and_eq_true, beq_iff_eq, bne_iff_ne, decide_eq_true_eq] at hapart
      refine (rd_wr_other _ _ _ _ _ _ _ _ (hp g hg) (hp f hf) (.inr ?_)).trans ht
      rcases hapart with (⟨hstride, hoff⟩ | hbits) | hbits
      · exact .inl (by rw [hstride]; omega)
      · exact .inr (.inl hbits)
      · exact .inr (.inr hbits)
  obtain ⟨a, b, rfl⟩ := List.append_of_mem hf
  rw [run_forEach_append, run_forEach_cons]
  exact run_forEach_inv (fun t => rd t pg f i = 0) (fun g hg => hkeep g (List.mem_append_right _ (List.mem_cons_of_mem _ hg))) _ (hzero _)

/-- The fields that tell of the first drop. -/
def dropFields : List Fld := [Reg.GATEV.DROP_COUNT, Reg.GATEV.DROP_LEG, Reg.GATEV.DROP_ROW, Reg.GATEV.DROP_COL]

theorem run_opDropCtrl {v : Nat} (h : bit v 0 = true) (p g : Nat) (s : State) :
    (opDropCtrl p g v).run s = (forEach dropFields fun f => wr (.gate p g) f 0).run s := by
  unfold opDropCtrl
  rw [h]
  rfl

theorem dropCleared_spec (s : State) {p g : Nat} (hp : p < 64) (hg : g < 12) {v : Nat} (h : bit v 0 = true) :
    (∀ f ∈ dropFields, rd ((opDropCtrl p g v).run s) (.gate p g) f = 0) ∧
      OnlyRegs s ((opDropCtrl p g v).run s) (dropFields.map fun f => fldAddr (.gate p g) f 0) := by
  have hplain : ∀ f ∈ dropFields, plain (.gate 0 0) f = true := by decide
  have hword (f : Fld) (hf : f ∈ dropFields) : fldAddr (.gate p g) f 0 ∈ dropFields.map fun f => fldAddr (.gate p g) f 0 :=
    List.mem_map_of_mem (f := fun f => fldAddr (.gate p g) f 0) hf
  rw [run_opDropCtrl h]
  exact ⟨fun f hf => rd_forEach_zero (fun f hf => plain_gate hp hg (hplain f hf)) (by decide) hf s,
    onlyRegs_of_writes (only_forEach fun _ => only_wr) (writes_forEach fun f hf => writes_wr (hword f hf)) s⟩

/-! ### Reduce channels of an X-gate (R312) -/

/-- What a reduce channel shows. -/
def chanFields : List Fld :=
  [Reg.GATEX.CLOSED, Reg.GATEX.USED, Reg.GATEX.CARRIED, Reg.GATEX.DROPPED, Reg.GATEX.CLOSED_VALID, Reg.GATEX.LATE_MASK_LO, Reg.GATEX.LATE_MASK_HI,
   Reg.GATEX.PENDING_LO, Reg.GATEX.PENDING_HI]

theorem plain_chan {f : Fld} (hf : f ∈ chanFields) {p c : Nat} (hp : p < 64) (hc : c < 16) : plain (.gate p 11) f c = true := by
  have hall : ∀ f ∈ chanFields, ∀ c : Fin 16, plain (.gate 0 0) f c = true := by decide
  exact plain_gate hp (by decide) (hall f hf ⟨c, hc⟩)

/-- What a channel shows, set to 0. -/
def chanShownFree (p c : Nat) : Prog := forEach chanFields fun f => wr (.gate p 11) f 0 c

theorem only_chanShownFree {p c : Nat} : Only [.reg] (chanShownFree p c) := only_forEach fun _ => only_wr

theorem rd_chanShownFree {f : Fld} (hf : f ∈ chanFields) {p c : Nat} (hp : p < 64) (hc : c < 16) (s : State) :
    rd ((chanShownFree p c).run s) (.gate p 11) f c = 0 := rd_forEach_zero (fun _ hf => plain_chan hf hp hc) (by decide) hf s

theorem run_opChanReset_free {s : State} {p v : Nat} (h : (chanOf s p (v % 16)).waiting = none) :
    (opChanReset p v).run s = (chanShownFree p (v % 16)).run ((modUnits fun u => { u with chans := smErase (p * 16 + v % 16) u.chans }).run s) := by
  unfold opChanReset
  rw [run_look]
  dsimp only
  rw [show (smGet _ s.units.chans _).waiting = none from h]
  rfl

theorem run_opChanReset_waited {s : State} {p v : Nat} (h : (chanOf s p (v % 16)).waiting ≠ none) : (opChanReset p v).run s = s := by
  unfold opChanReset
  rw [run_look]
  dsimp only
  rw [show (smGet _ s.units.chans _).waiting.isNone = false from Option.isNone_eq_false_iff.mpr (Option.isSome_iff_ne_none.mpr h)]
  rfl

/-- A channel on which no leg waits is free afterwards, and shows nothing; every other channel stays. -/
theorem chanReset_spec {s : State} {p v : Nat} (hp : p < 64) (h : (chanOf s p (v % 16)).waiting = none) :
    let c := v % 16
    let t := (opChanReset p v).run s
    chanOf t p c = ChanSt.free ∧ (∀ q k, (q ≠ p ∨ k ≠ c) → k < 16 → chanOf t q k = chanOf s q k) ∧ rd t (.gate p 11) Reg.GATEX.CLOSED_VALID c = 0 ∧
      rd t (.gate p 11) Reg.GATEX.PENDING_LO c = 0 ∧ rd t (.gate p 11) Reg.GATEX.PENDING_HI c = 0 ∧
      t = { s with regs := t.regs, units := { s.units with chans := t.units.chans } } := by
  intro c t
  have hc : c < 16 := Nat.mod_lt _ (by decide)
  have ht : t = (chanShownFree p c).run { s with units := { s.units with chans := smErase (p * 16 + c) s.units.chans } } := run_opChanReset_free h
  generalize hu : ({ s with units := { s.units with chans := smErase (p * 16 + c) s.units.chans } } : State) = u at ht
  have hunits : t.units = { s.units with chans := smErase (p * 16 + c) s.units.chans } := by
    rw [ht, only_chanShownFree.units, ← hu]
  have hshown (f : Fld) (hf : f ∈ chanFields) : rd t (.gate p 11) f c = 0 := ht ▸ rd_chanShownFree hf hp hc u
  refine ⟨?_, fun q k hne hk => ?_, hshown _ (by decide), hshown _ (by decide), hshown _ (by decide), ?_⟩
  · unfold chanOf
    rw [hunits]
    exact smGet_erase_same _ _ _
  · unfold chanOf
    rw [hunits]
    exact smGet_erase_ne _ _ _ _ (by omega)
  · have hregs : t = { u with regs := t.regs } := ht ▸ only_chanShownFree.regs_only u
    rw [hunits]
    rw [← hu] at hregs
    exact hregs

end Sys2Proof.Machine
end

section
/-! Register writes of stacks, sensors and the power manager (R229, R247, R423, R424, R430). -/

namespace Sys2Proof.Machine

open Sys2Proof

set_option Elab.async false

/-! ### Stacks (R229, R247) -/

theorem plain_stk (st : Fin 12) {f : Fld} (h : (List.range 12).all (fun k => plain (.stk k) f) = true := by decide) : plain (.stk st) f = true :=
  List.all_eq_true.mp h _ (List.mem_range.mpr st.isLt)

theorem run_opMaxClear {v : Nat} (h : bit v 0 = true) (st : Nat) (s : State) :
    (opMaxClear st v).run s = (wr (.stk st) Reg.STK.TEMP_MAX (rd s (.stk st) Reg.STK.TEMP_NOW)).run s := by
  unfold opMaxClear
  rw [run_look, h]
  rfl

/-- MAX takes the value of NOW, and NOW stays. -/
theorem maxClear_spec (s : State) (st : Fin 12) {v : Nat} (h : bit v 0 = true) :
    let t := (opMaxClear st v).run s
    rd t (.stk st) Reg.STK.TEMP_MAX = rd s (.stk st) Reg.STK.TEMP_NOW ∧ rd t (.stk st) Reg.STK.TEMP_NOW = rd s (.stk st) Reg.STK.TEMP_NOW ∧
      OnlyRegs s t [fldAddr (.stk st) Reg.STK.TEMP_MAX 0] := by
  intro t
  have ht : t = _ := run_opMaxClear h st s
  rw [ht]
  refine ⟨?_, rd_wr_other _ _ _ _ _ _ _ _ (plain_stk st) (plain_stk st) (.inr (.inr (.inr (by decide)))), onlyRegs_wr _ _ _ _ _ (List.mem_singleton.mpr rfl)⟩
  rw [rd_wr_same _ _ _ _ _ (plain_stk st)]
  exact Nat.mod_eq_of_lt (bits_lt _ _ _)

theorem groomPause_spec (s : State) (st : Fin 12) (v : Nat) :
    let t := (opGroomPause st v).run s
    rd t (.stk st) Reg.STK.GROOM_CTRL_PAUSE = bits v 0 1 ∧ OnlyRegs s t [fldAddr (.stk st) Reg.STK.GROOM_CTRL_PAUSE 0] :=
  ⟨(rd_wr_same _ _ _ _ _ (plain_stk st)).trans (bits_mod v 0 1), onlyRegs_wr _ _ _ _ _ (List.mem_singleton.mpr rfl)⟩

/-! ### Die sensors (R424) -/

/-- The present reading of a die sensor. -/
def dieTempAt (s : State) (i : Nat) : Nat := bits (rd s .tlm Reg.TLM.DIE_TEMP (i / 4)) (8 * (i % 4)) 8

/-- The highest of some numbers is at least each of them, and one of them. -/
theorem foldl_max_spec {β : Type} (f : β → Nat) {l : List β} (hl : l ≠ []) :
    (∀ x ∈ l, f x ≤ (l.map f).foldl max 0) ∧ ∃ x ∈ l, (l.map f).foldl max 0 = f x := by
  obtain ⟨m, hm⟩ := Option.isSome_iff_exists.mp (List.isSome_max?_of_ne_nil (l := l.map f) (by simpa using hl))
  rw [List.foldl_max, hm, Option.getD_some, Nat.zero_max]
  obtain ⟨hmem, hle⟩ := List.max?_eq_some_iff.mp hm
  obtain ⟨x, hx, hfx⟩ := List.mem_map.mp hmem
  exact ⟨fun y hy => hle _ (List.mem_map_of_mem hy), x, hx, hfx.symm⟩

theorem run_opDieMaxClear {v : Nat} (h : bit v 0 = true) (s : State) :
    (opDieMaxClear v).run s = (wr .tlm Reg.TLM.DIE_MAX (((List.range 96).map (dieTempAt s)).foldl max 0)).run s := by
  unfold opDieMaxClear
  rw [run_look, h]
  rfl

/-- DIE_MAX takes the highest present reading. -/
theorem dieMaxClear_spec (s : State) {v : Nat} (h : bit v 0 = true) :
    let t := (opDieMaxClear v).run s
    (∀ i, i < 96 → dieTempAt s i ≤ rd t .tlm Reg.TLM.DIE_MAX) ∧ (∃ i, i < 96 ∧ rd t .tlm Reg.TLM.DIE_MAX = dieTempAt s i) ∧
      OnlyRegs s t [fldAddr .tlm Reg.TLM.DIE_MAX 0] := by
  intro t
  have ht : t = _ := run_opDieMaxClear h s
  obtain ⟨hle, i, hi, hmax⟩ := foldl_max_spec (dieTempAt s) (l := List.range 96) (by decide)
  have hshown : rd t .tlm Reg.TLM.DIE_MAX = dieTempAt s i := by
    rw [ht, rd_wr_same _ _ _ _ _ (by decide), hmax]
    exact Nat.mod_eq_of_lt (bits_lt _ _ _)
  exact ⟨fun j hj => by rw [hshown, ← hmax]; exact hle j (List.mem_range.mpr hj), ⟨i, List.mem_range.mp hi, hshown⟩,
    ht ▸ onlyRegs_wr _ _ _ _ _ (List.mem_singleton.mpr rfl)⟩

/-! ### Readings latched (R430) -/

/-- The latched words of all identities once one has latched every reading. -/
def latchReadings (s : State) (id : Ident) : SMap Word :=
  tlmReadings.foldl (fun m o => smSet (fun _ => (0 : Word)) m (tlmKey id o) (wordAt s (pageBase .tlm + o))) s.ports.snapLatch

theorem tlmKey_mod (id : Ident) {o : Nat} (h : o < 4096) : tlmKey id o % 4096 = o := by unfold tlmKey; omega
theorem tlmKey_div (id : Ident) {o : Nat} (h : o < 4096) : tlmKey id o / 4096 = identCode id := by unfold tlmKey; omega

theorem tlmReadings_lt : ∀ o ∈ tlmReadings, o < 4096 := by decide

theorem smGet_latchReadings (s : State) (id : Ident) (k : Nat) : smGet (fun _ => (0 : Word)) (latchReadings s id) k =
    if k ∈ tlmReadings.map (tlmKey id) then wordAt s (pageBase .tlm + k % 4096) else smGet (fun _ => (0 : Word)) s.ports.snapLatch k := by
  have hfold : latchReadings s id = (tlmReadings.map (tlmKey id)).foldl
      (fun m k => smSet (fun _ => (0 : Word)) m k (wordAt s (pageBase .tlm + k % 4096))) s.ports.snapLatch := by
    rw [List.foldl_map]
    exact List.foldl_ext _ _ _ fun m o ho => by rw [tlmKey_mod id (tlmReadings_lt o ho)]
  rw [hfold, smGet_foldl_set]

theorem run_opTlmSnap {v : Nat} (h : bit v 0 = true) (id : Ident) (s : State) : (opTlmSnap id v).run s = { s with
    ports := { s.ports with snapLatch := latchReadings s id, snapped := smSet flagDefault s.ports.snapped (identCode id) true } } := by
  unfold opTlmSnap
  rw [run_look, h]
  rfl

/-- Every reading is latched for the identity that writes SNAP, and what others have latched stays. -/
theorem tlmSnap_spec (s : State) (id : Ident) {v : Nat} (h : bit v 0 = true) :
    let t := (opTlmSnap id v).run s
    (∀ o ∈ tlmReadings, smGet (fun _ => (0 : Word)) t.ports.snapLatch (tlmKey id o) = wordAt s (pageBase .tlm + o)) ∧
      smGet flagDefault t.ports.snapped (identCode id) = true ∧
      (∀ k, k / 4096 ≠ identCode id → smGet (fun _ => (0 : Word)) t.ports.snapLatch k = smGet (fun _ => (0 : Word)) s.ports.snapLatch k) ∧
      t = { s with ports := { s.ports with snapLatch := t.ports.snapLatch, snapped := t.ports.snapped } } := by
  intro t
  have ht : t = _ := run_opTlmSnap h id s
  rw [ht]
  refine ⟨fun o ho => ?_, smGet_set_same flagDefault s.ports.snapped (identCode id) true, fun k hk => ?_, rfl⟩
  · rw [smGet_latchReadings, if_pos (List.mem_map_of_mem ho), tlmKey_mod id (tlmReadings_lt o ho)]
  · rw [smGet_latchReadings, if_neg]
    intro hmem
    obtain ⟨o, ho, rfl⟩ := List.mem_map.mp hmem
    exact hk (tlmKey_div id (tlmReadings_lt o ho))

/-! ### The power cap (R423) -/

theorem softCap_taken (s : State) {v : Nat} (hlo : 1000 ≤ bits v 0 12) (hhi : bits v 0 12 ≤ 2400) :
    let t := (opSoftCap v).run s
    rd t .pwr Reg.PWR.SOFT_CAP = bits v 0 12 ∧ OnlyRegs s t [fldAddr .pwr Reg.PWR.SOFT_CAP 0] := by
  intro t
  have ht : t = (wr .pwr Reg.PWR.SOFT_CAP (bits v 0 12)).run s := congrArg (Prog.run · s) (if_pos ⟨hlo, hhi⟩)
  rw [ht]
  exact ⟨(rd_wr_same _ _ _ _ _ (by decide)).trans (bits_mod v 0 12), onlyRegs_wr _ _ _ _ _ (List.mem_singleton.mpr rfl)⟩

theorem softCap_refused (s : State) {v : Nat} (h : bits v 0 12 < 1000 ∨ 2400 < bits v 0 12) :
    let t := (opSoftCap v).run s
    rd t .pwr Reg.PWR.SOFT_CAP = rd s .pwr Reg.PWR.SOFT_CAP ∧ rd t .pwr Reg.PWR.PWR_CHECK_CAP_REFUSED = 1 ∧
      OnlyRegs s t [fldAddr .pwr Reg.PWR.PWR_CHECK_CAP_REFUSED 0] := by
  intro t
  have ht : t = (wr .pwr Reg.PWR.PWR_CHECK_CAP_REFUSED 1).run s := congrArg (Prog.run · s) (if_neg (by omega))
  rw [ht]
  exact ⟨rd_wr_other _ _ _ _ _ _ _ _ (by decide) (by decide) (.inr (.inl (by decide))), rd_wr_same _ _ _ _ _ (by decide),
    onlyRegs_wr _ _ _ _ _ (List.mem_singleton.mpr rfl)⟩

end Sys2Proof.Machine
end

section
/-! PORT_CTRL (R276, R301, R302, R362, R400): its fields, and RETRAIN. Taking a link down writes the port's own page, the mailbox locks and the pair's
page, and makes records at the port's island and at the sequencer's alone; what a port's retraining depends on stays. -/

namespace Sys2Proof.Machine

open Sys2Proof

set_option Elab.async false

/-! ### The fields of PORT_CTRL -/

theorem plain_bnd {p : Nat} (hp : p < 7) {f : Fld} (h : (List.range 7).all (fun k => plain (.bnd k) f) = true := by decide) : plain (.bnd p) f = true :=
  List.all_eq_true.mp h _ (List.mem_range.mpr hp)

/-- The fields of PORT_CTRL as a write in a state sets them, before RETRAIN. -/
def setPortFields (s : State) (p v : Nat) : Prog :=
  progs [whenP (!routeHeld s p) (wr (.bnd p) Reg.BND.PORT_CTRL_ROUTE_EN (bits v 0 1)), wr (.bnd p) Reg.BND.PORT_CTRL_RETRAIN_EN (bits v 1 1),
    wr (.bnd p) Reg.BND.PORT_CTRL_SPARE_EN (bits v 3 1)]

theorem run_opPortCtrl (s : State) (p v : Nat) :
    (opPortCtrl p v).run s = (pumpPort p).run ((whenP (bit v 2) (retrainPort p)).run ((setPortFields s p v).run s)) := by
  unfold opPortCtrl setPortFields
  rw [run_look]
  simp only [run_progs_cons, run_progs_nil]

theorem only_setPortFields {s : State} {p v : Nat} : Only [.reg] (setPortFields s p v) := ⟨only_whenP only_wr, only_wr, only_wr, trivial⟩

theorem writes_setPortFields (s : State) (p v : Nat) : Writes (· ∈ [fldAddr (.bnd p) Reg.BND.PORT_CTRL_ROUTE_EN 0]) (setPortFields s p v) :=
  writes_cons (writes_whenP fun _ => writes_wr (List.mem_singleton.mpr rfl)) (writes_cons (writes_wr (List.mem_singleton.mpr rfl))
    (writes_cons (writes_wr (List.mem_singleton.mpr rfl)) writes_nil))

/-- PORT_CTRL's fields take the bits written, but for ROUTE_EN where the pair holds it. -/
theorem rd_setPortFields (s : State) {p : Nat} (hp : p < 7) (v : Nat) :
    let u := (setPortFields s p v).run s
    rd u (.bnd p) Reg.BND.PORT_CTRL_ROUTE_EN = (if routeHeld s p then rd s (.bnd p) Reg.BND.PORT_CTRL_ROUTE_EN else bits v 0 1) ∧
      rd u (.bnd p) Reg.BND.PORT_CTRL_RETRAIN_EN = bits v 1 1 ∧ rd u (.bnd p) Reg.BND.PORT_CTRL_SPARE_EN = bits v 3 1 := by
  intro u
  have hu : u = (wr (.bnd p) Reg.BND.PORT_CTRL_SPARE_EN (bits v 3 1)).run ((wr (.bnd p) Reg.BND.PORT_CTRL_RETRAIN_EN (bits v 1 1)).run
      ((whenP (!routeHeld s p) (wr (.bnd p) Reg.BND.PORT_CTRL_ROUTE_EN (bits v 0 1))).run s)) := by
    simp only [u, setPortFields, run_progs_cons, run_progs_nil]
  have hroute : plain (.bnd p) Reg.BND.PORT_CTRL_ROUTE_EN = true := plain_bnd hp
  have hretrain : plain (.bnd p) Reg.BND.PORT_CTRL_RETRAIN_EN = true := plain_bnd hp
  have hspare : plain (.bnd p) Reg.BND.PORT_CTRL_SPARE_EN = true := plain_bnd hp
  rw [hu]
  refine ⟨?_, ?_, ?_⟩
  · rw [rd_wr_other _ _ _ _ _ _ _ _ hspare hroute (.inr (.inr (.inr (by decide)))), rd_wr_other _ _ _ _ _ _ _ _ hretrain hroute (.inr (.inr (.inr (by decide))))]
    cases routeHeld s p
    · exact (rd_wr_same _ _ _ _ _ hroute).trans (bits_mod v 0 1)
    · rfl
  · rw [rd_wr_other _ _ _ _ _ _ _ _ hspare hretrain (.inr (.inr (.inr (by decide)))), rd_wr_same _ _ _ _ _ hretrain]
    exact bits_mod v 1 1
  · rw [rd_wr_same _ _ _ _ _ hspare]
    exact bits_mod v 3 1

theorem only_pumpPort {p : Nat} : Only [.bnd] (pumpPort p) := only_look fun _ => only_pump p _

/-- A write of PORT_CTRL without RETRAIN takes its fields, and the port sends what it can. -/
theorem portCtrl_spec (s : State) {p v : Nat} (hp : p < 7) (h : bit v 2 = false) :
    let t := (opPortCtrl p v).run s
    rd t (.bnd p) Reg.BND.PORT_CTRL_ROUTE_EN = (if routeHeld s p then rd s (.bnd p) Reg.BND.PORT_CTRL_ROUTE_EN else bits v 0 1) ∧
      rd t (.bnd p) Reg.BND.PORT_CTRL_RETRAIN_EN = bits v 1 1 ∧ rd t (.bnd p) Reg.BND.PORT_CTRL_SPARE_EN = bits v 3 1 ∧
      t = { s with regs := t.regs, bnd := t.bnd } ∧ RegsKept s t [fldAddr (.bnd p) Reg.BND.PORT_CTRL_ROUTE_EN 0] := by
  intro t
  have ht : t = (pumpPort p).run ((setPortFields s p v).run s) := by
    have := run_opPortCtrl s p v
    rwa [h, run_whenP_false] at this
  have honly : Only fabricK (.seq (setPortFields s p v) (pumpPort p)) := only_seq (only_setPortFields.mono (by decide)) (only_pumpPort.mono (by decide))
  have hwrites : Writes (· ∈ [fldAddr (.bnd p) Reg.BND.PORT_CTRL_ROUTE_EN 0]) (.seq (setPortFields s p v) (pumpPort p)) :=
    writes_seq (writes_setPortFields s p v) only_pumpPort.writes
  have hregs : t.regs = ((setPortFields s p v).run s).regs := ht ▸ only_pumpPort.regs
  have hfield (f : Fld) (hf : plain (.bnd p) f = true) : rd t (.bnd p) f = rd ((setPortFields s p v).run s) (.bnd p) f := rd_congr hregs _ _ _ hf
  obtain ⟨hroute, hretrain, hspare⟩ := rd_setPortFields s hp v
  refine ⟨(hfield _ (plain_bnd hp)).trans hroute, (hfield _ (plain_bnd hp)).trans hretrain, (hfield _ (plain_bnd hp)).trans hspare, ?_, fun a ha => ?_⟩
  · rw [ht, ← run_seq]
    exact honly.fabric_only s
  · rw [ht, ← run_seq]
    exact hwrites a ha s

end Sys2Proof.Machine
end

section
/-! A link taken down, and RETRAIN (R276, R301, R302, R400): taking a link down clears the port's state and ROUTE_EN and makes its record; whether the
port stays in electrical idle, and the port's first registers and its records, do not depend on what the loss does to the rest of the module. -/

namespace Sys2Proof.Machine

open Sys2Proof

set_option Elab.async false

/-! ### Electrical idle (R276, R302, R400) -/

/-- The words that no loss of a link touches but in PAIR_STATUS.STATE: the reset page and PAIR_STATUS, which decide on electrical idle. -/
def strapFree (a : Nat) : Prop := a / 4096 ≠ 0x10 ∧ a ≠ 0x4100

theorem idlePort_congr {s t : State} (hstep : rd t .rst Reg.RST.BOOT_STATUS_STEP = rd s .rst Reg.RST.BOOT_STATUS_STEP)
    (hcode : rd t .rst Reg.RST.STRAP_CODE = rd s .rst Reg.RST.STRAP_CODE)
    (hrole : rd t (.mod 4) Reg.MOD4.PAIR_STATUS_ROLE = rd s (.mod 4) Reg.MOD4.PAIR_STATUS_ROLE) (hfuses : t.fuses = s.fuses) (p : Nat) :
    idlePort t p = idlePort s p := by
  have hacting : actingCode t = actingCode s := by
    unfold actingCode
    rw [hcode, hfuses]
  unfold idlePort
  rw [hstep, hrole, hacting]

/-- The kinds of change that the loss of a link makes. -/
def lossK : List Kind := [.reg, .recs, .fw, .bnd, .host]

theorem keeps_idlePort {q : Prog} (h : Only lossK q) (hw : Writes strapFree q) (p : Nat) : Keeps (fun s => idlePort s p) q := fun s =>
  idlePort_congr (hw.rd (by simp only [strapFree, fldAddr, pageBase, Reg.RST.BOOT_STATUS_STEP]; omega) (by decide) s)
    (hw.rd (by simp only [strapFree, fldAddr, pageBase, Reg.RST.STRAP_CODE]; omega) (by decide) s)
    (hw.rd (by simp only [strapFree, fldAddr, pageBase, Reg.MOD4.PAIR_STATUS_ROLE]; omega) (by decide) s) h.fuses p

/-- The state of the pair is no part of what decides on electrical idle. -/
theorem keeps_idlePort_setPairState (v p : Nat) : Keeps (fun s => idlePort s p) (setPairState v) := fun s => by
  have hother {pg : Page} {f : Fld} (hp : plain pg f = true)
      (hne : Page.mod 4 ≠ pg ∨ Reg.MOD4.PAIR_STATUS_STATE.off + Reg.MOD4.PAIR_STATUS_STATE.stride * 0 ≠ f.off + f.stride * 0 ∨
        Reg.MOD4.PAIR_STATUS_STATE.lo + Reg.MOD4.PAIR_STATUS_STATE.w ≤ f.lo ∨ f.lo + f.w ≤ Reg.MOD4.PAIR_STATUS_STATE.lo) :
      rd ((setPairState v).run s) pg f = rd s pg f := rd_wr_other s _ _ _ _ v 0 0 (by decide) hp hne
  exact idlePort_congr (hother (by decide) (by decide)) (hother (by decide) (by decide)) (hother (by decide) (by decide))
    (only_wr (K := [.reg])).fuses p

/-! ### What the rest of a loss leaves of the port -/

/-- The words beside those that decide on electrical idle and the first registers of ports. -/
def portFree (a : Nat) : Prop := strapFree a ∧ (0x400000 ≤ a → a < 0x1000000 → a % 4096 < 0x100 ∨ 0x110 ≤ a % 4096)

/-- What a port shows of its link: whether it stays in electrical idle, its switches, and whether its peer is known. -/
def portShown (p : Nat) (s : State) : Bool × Nat × Nat × Nat :=
  (idlePort s p, rd s (.bnd p) Reg.BND.PORT_CTRL_ROUTE_EN, rd s (.bnd p) Reg.BND.PORT_CTRL_RETRAIN_EN, rd s (.bnd p) Reg.BND.PEER_VALID)

/-- What a port shows, with the records that wait at its island. -/
def portView (p : Nat) (s : State) : (Bool × Nat × Nat × Nat) × SrcQueue := (portShown p s, srcQueue s (844 + p))

variable {p : Nat} {q : Prog}

theorem not_portFree_bnd (f : Fld) (h : 0x100 ≤ f.off ∧ f.off < 0x110) (hp : p < 7) : ¬ portFree (fldAddr (.bnd p) f 0) := by
  simp only [portFree, fldAddr, pageBase, Nat.mul_zero, Nat.add_zero]
  omega

theorem keeps_portShown (hp : p < 7) (h : Only lossK q) (hw : Writes portFree q) : Keeps (portShown p) q := fun s => by
  have hrd (f : Fld) (hf : plain (.bnd p) f = true) (hoff : 0x100 ≤ f.off ∧ f.off < 0x110) : rd (q.run s) (.bnd p) f = rd s (.bnd p) f :=
    hw.rd (not_portFree_bnd f hoff hp) hf s
  have hidle : idlePort (q.run s) p = idlePort s p := keeps_idlePort h (hw.mono fun _ h => h.1) p s
  unfold portShown
  rw [hidle, hrd _ (plain_bnd hp) (by decide), hrd _ (plain_bnd hp) (by decide), hrd _ (plain_bnd hp) (by decide)]

theorem keeps_portView (hp : p < 7) (h : Only lossK q) (hw : Writes portFree q) (hq : Keeps (fun s => srcQueue s (844 + p)) q) : Keeps (portView p) q :=
  fun s => Prod.ext (keeps_portShown hp h hw s) (hq s)

/-- A change that makes no record. -/
theorem keeps_portView_quiet (hp : p < 7) (h : Only [.reg, .fw, .bnd, .host] q) (hw : Writes portFree q) : Keeps (portView p) q :=
  keeps_portView hp (h.mono (by decide)) hw (h.srcQueue _)

theorem portFree_record {a : Nat} (h : recordWords a) : portFree a := by
  simp only [recordWords, portFree, strapFree] at h ⊢
  omega

theorem keeps_portView_raise (hp : p < 7) {code iter leg unit : Nat} {items : List Item} : Keeps (portView p) (raise code 852 iter leg unit items) :=
  keeps_portView hp only_raise ((writes_raise _ _ _ _ _ _).mono fun _ => portFree_record) (keeps_srcQueue_raise (by omega))

theorem keeps_portView_trace (hp : p < 7) {k i : Nat} : Keeps (portView p) (trace k i) :=
  keeps_portView hp only_trace (writes_trace (portFree_record (.inl rfl))) (keeps_srcQueue_trace _ _ _)

theorem keeps_portView_logOwn (hp : p < 7) : Keeps (portView p) logOwn :=
  keeps_portView hp only_logOwn (only_logOwn (K := [.recs])).writes (keeps_srcQueue_modRecs _ fun _ => rfl)

theorem keeps_portView_modFw (hp : p < 7) {f : FwSt → FwSt} : Keeps (portView p) (modFw f) :=
  keeps_portView_quiet hp only_modFw (only_modFw (K := [.fw])).writes

theorem keeps_portView_modBnd (hp : p < 7) {f : BndSt → BndSt} : Keeps (portView p) (modBnd f) :=
  keeps_portView_quiet hp only_modBnd (only_modBnd (K := [.bnd])).writes

theorem keeps_portView_wr (hp : p < 7) {pg : Page} {f : Fld} {v i : Nat} (h : portFree (fldAddr pg f i)) : Keeps (portView p) (wr pg f v i) :=
  keeps_portView_quiet hp only_wr (writes_wr h)

theorem keeps_portView_setPairState (hp : p < 7) (v : Nat) : Keeps (portView p) (setPairState v) := fun s => by
  have hwrites : Writes (· = 0x4100) (setPairState v) := writes_wr rfl
  have hrd (f : Fld) (hf : plain (.bnd p) f = true) : rd ((setPairState v).run s) (.bnd p) f = rd s (.bnd p) f :=
    hwrites.rd (by simp only [fldAddr, pageBase]; omega) hf s
  have hidle : idlePort ((setPairState v).run s) p = idlePort s p := keeps_idlePort_setPairState v p s
  have hqueue : srcQueue ((setPairState v).run s) (844 + p) = srcQueue s (844 + p) := (only_wr (K := [.reg])).srcQueue _ (by decide) s
  unfold portView portShown
  rw [hidle, hrd _ (plain_bnd hp), hrd _ (plain_bnd hp), hrd _ (plain_bnd hp), hqueue]

/-! ### The pair without its link (R275, R342, R354, R355, R363) -/

theorem portFree_endWords {a : Nat} (h : endWords a) : portFree a := by
  simp only [endWords, portFree, strapFree] at h ⊢
  omega

theorem only_releaseHold_loss {n : Nat} : Only [.reg, .fw, .bnd, .host] (releaseHold n) := only_releaseHold.mono (by decide)

theorem only_forceLocksOf {K : List Kind} {owner : Nat → Bool} (h : Kind.reg ∈ K := by decide) : Only K (forceLocksOf owner) :=
  only_look fun _ => only_forEach fun _ => only_look fun _ => only_whenP (only_seq (only_seq (only_wr h) (only_wr h)) (only_wr h))

/-- Locks that are forced write STATUS of their channels (R275). -/
theorem writes_forceLocksOf (owner : Nat → Bool) : Writes portFree (forceLocksOf owner) := by
  refine writes_look fun s => writes_forEach fun c hc => ?_
  have hc : c < 32 := List.mem_range.mp (List.mem_filter.mp hc).1
  have hstatus (f : Fld) (hf : f.off = 0x108 ∧ f.stride = 64) : portFree (fldAddr mb f c) := by
    simp only [portFree, strapFree, fldAddr, mb, pageBase, hf.1, hf.2]
    omega
  exact writes_look fun _ => writes_whenP fun _ =>
    writes_seq (writes_seq (writes_wr (hstatus _ (by decide))) (writes_wr (hstatus _ (by decide)))) (writes_wr (hstatus _ (by decide)))

theorem only_abandonSnapshot : Only lossK abandonSnapshot :=
  only_look fun _ => only_whenP ⟨only_modFw, only_modBnd, only_raise, only_trace, only_logOwn, only_releaseHold.mono (by decide), trivial⟩

theorem keeps_portView_abandonSnapshot (hp : p < 7) : Keeps (portView p) abandonSnapshot :=
  keeps_look _ fun _ => keeps_whenP _ _ (keeps_cons _ (keeps_portView_modFw hp) (keeps_cons _ (keeps_portView_modBnd hp)
    (keeps_cons _ (keeps_portView_raise hp) (keeps_cons _ (keeps_portView_trace hp) (keeps_cons _ (keeps_portView_logOwn hp)
      (keeps_cons _ (keeps_portView_quiet hp only_releaseHold_loss ((writes_releaseHold _).mono fun _ => portFree_endWords)) (keeps_nil _)))))))

theorem only_resyncFail : Only lossK resyncFail :=
  only_look fun _ => ⟨only_wr, only_raise, only_whenP (only_seq only_modFw (only_releaseHold.mono (by decide))),
    only_ite only_wr (only_seq only_wr only_wr), trivial⟩

theorem portFree_pairCheck {f : Fld} (h : f.off = 0x108) : portFree (fldAddr (.mod 4) f 0) := by
  simp only [portFree, strapFree, fldAddr, pageBase, h, Nat.mul_zero]
  omega

theorem keeps_portView_split (hp : p < 7) : Keeps (portView p) (.seq (setPairState 2) (wr (.mod 4) Reg.MOD4.PAIR_CHECK_SPLIT 1)) :=
  keeps_seq _ (keeps_portView_setPairState hp 2) (keeps_portView_wr hp (portFree_pairCheck rfl))

theorem keeps_portView_resyncFail (hp : p < 7) : Keeps (portView p) resyncFail :=
  keeps_look _ fun _ => keeps_cons _ (keeps_portView_wr hp (portFree_pairCheck rfl)) (keeps_cons _ (keeps_portView_raise hp)
    (keeps_cons _ (keeps_whenP _ _ (keeps_seq _ (keeps_portView_modFw hp)
        (keeps_portView_quiet hp only_releaseHold_loss ((writes_releaseHold _).mono fun _ => portFree_endWords))))
      (keeps_cons _ (keeps_ite _ _ (keeps_portView_setPairState hp 3) (keeps_portView_split hp)) (keeps_nil _))))

theorem only_tapCheck : Only lossK tapCheck := only_look fun _ => only_ite only_modFw (only_whenP (only_seq only_modFw only_raise))

theorem keeps_portView_tapCheck (hp : p < 7) : Keeps (portView p) tapCheck :=
  keeps_look _ fun _ => keeps_ite _ _ (keeps_portView_modFw hp) (keeps_whenP _ _ (keeps_seq _ (keeps_portView_modFw hp) (keeps_portView_raise hp)))

theorem only_pairLinkDown : Only lossK pairLinkDown :=
  only_look fun _ => ⟨only_forceLocksOf, only_abandonSnapshot, only_ite (only_seq only_wr only_wr) (only_ite only_resyncFail only_skip), only_tapCheck, trivial⟩

/-- What the loss of port P does to the pair leaves what every port shows, and its records. -/
theorem keeps_portView_pairLinkDown (hp : p < 7) : Keeps (portView p) pairLinkDown :=
  keeps_look _ fun _ => keeps_cons _ (keeps_portView_quiet hp only_forceLocksOf (writes_forceLocksOf _)) (keeps_cons _ (keeps_portView_abandonSnapshot hp)
    (keeps_cons _ (keeps_ite _ _ (keeps_portView_split hp) (keeps_ite _ _ (keeps_portView_resyncFail hp) (keeps_skip _)))
      (keeps_cons _ (keeps_portView_tapCheck hp) (keeps_nil _))))

/-! ### A link taken down (R301) -/

theorem writes_setEvent {A : Nat → Prop} {pg : Page} {e : Nat} (h : A (pageBase pg + 0x10)) (hcount : A (fldAddr pg Reg.COMMON.EVENT_COUNT (e % 16))) :
    Writes A (setEvent pg e) := by
  have hbit (a : Nat) (v : Word) (ha : A a) : Writes A (.prim (.reg a v)) := fun b hb s => by
    show regWord _ b = regWord s b
    rw [run_prim, regWord_reg, if_neg fun c : b = a => hb (c ▸ ha)]
  exact writes_look fun _ => writes_cons (hbit _ _ h) (writes_cons (writes_addSat hcount)
    (writes_cons (writes_look fun _ => writes_whenP fun _ => (only_sendMsix (K := [.host])).writes) writes_nil))

/-- The registers of a port that is taken down. -/
def portCleared (p : Nat) : Prog :=
  progs [setPort p 0, wr (.bnd p) Reg.BND.PORT_STATUS_WIDTH 0, wr (.bnd p) Reg.BND.PORT_STATUS_SPARE_USED 0, wr (.bnd p) Reg.BND.PORT_CTRL_ROUTE_EN 0,
    wr (.bnd p) Reg.BND.PEER_VALID 0]

/-- The buffers of a port that is taken down, and its counts. -/
def portEmptied (p : Nat) : Prog :=
  progs [modLink p fun _ => LinkSt.down,
    modBnd fun b => { b with msgOut := b.msgOut.filter (·.1 != p), inbox := b.inbox.filter (·.port != p) },
    wr (.bnd p) Reg.BND.CHECK_DOWN 1, .skip, addSat (.bnd p) Reg.BND.DOWN_COUNT 1]

/-- What follows the record of a port that is taken down. -/
def portLost (p : Nat) : Prog := progs [setEvent (.bnd p) 0, whenP (p == 6) pairLinkDown]

theorem run_progs_around (k l m : List Prog) (q : Prog) (s : State) :
    (progs (k ++ (l ++ q :: m))).run s = (progs m).run (q.run ((progs l).run ((progs k).run s))) := by
  rw [run_progs_append, run_progs_append, run_progs_cons]

theorem run_linkDown_up {s : State} (h : portUp s p = true) : (linkDown p none).run s = (portLost p).run
    ((raise Code.BND_LINK_DOWN (844 + p) 0 noLeg p [w32 (rd s (.bnd p) Reg.BND.PEER_NODE)]).run ((portEmptied p).run ((portCleared p).run s))) := by
  unfold linkDown
  rw [run_look, h, run_whenP_true]
  exact run_progs_around [_, _, _, _, _] [_, _, _, _, _] [_, _] _ s

theorem run_linkDown_down {s : State} (h : portUp s p = false) : (linkDown p none).run s = s := by
  unfold linkDown
  rw [run_look, h]
  rfl

theorem only_setPort {K : List Kind} {v : Nat} (h : Kind.reg ∈ K := by decide) (h' : Kind.recs ∈ K := by decide) : Only K (setPort p v) :=
  only_seq (only_wr h) (only_trace h h')

theorem writes_setPort (p v : Nat) : Writes (fun a => a = fldAddr (.bnd p) Reg.BND.PORT_STATUS_STATE 0 ∨ recordWords a) (setPort p v) :=
  writes_seq (writes_wr (.inl rfl)) (writes_trace (.inr (.inl rfl)))

theorem only_linkDown : Only lossK (linkDown p none) :=
  only_look fun _ => only_whenP ⟨only_setPort, only_wr, only_wr, only_wr, only_wr, only_modLink, only_modBnd, only_wr, trivial, only_addSat, only_raise,
    only_setEvent, only_whenP only_pairLinkDown, trivial⟩

theorem keeps_portView_portLost (hp : p < 7) : Keeps (portView p) (portLost p) := by
  refine keeps_cons _ (keeps_portView_quiet hp only_setEvent (writes_setEvent ?_ ?_)) (keeps_cons _ (keeps_whenP _ _ (keeps_portView_pairLinkDown hp)) (keeps_nil _))
  · simp only [portFree, strapFree, pageBase]; omega
  · simp only [portFree, strapFree, fldAddr, pageBase, Reg.COMMON.EVENT_COUNT]; omega

theorem keeps_portView_portEmptied (hp : p < 7) : Keeps (portView p) (portEmptied p) := by
  have hlate (f : Fld) (h : 0x110 ≤ f.off ∧ f.off < 0x1000) : portFree (fldAddr (.bnd p) f 0) := by
    simp only [portFree, strapFree, fldAddr, pageBase, Nat.mul_zero, Nat.add_zero]
    omega
  exact keeps_cons _ (keeps_portView_modBnd hp) (keeps_cons _ (keeps_portView_modBnd hp) (keeps_cons _ (keeps_portView_wr hp (hlate _ (by decide)))
    (keeps_cons _ (keeps_skip _) (keeps_cons _ (keeps_portView_quiet hp only_addSat (writes_addSat (hlate _ (by decide)))) (keeps_nil _)))))

theorem portShown_of_view {s t : State} (h : portView p t = portView p s) : portShown p t = portShown p s := congrArg Prod.fst h

/-- A port that is taken down routes nothing and knows no peer; RETRAIN_EN stays. -/
theorem portShown_portCleared (hp : p < 7) (s : State) :
    portShown p ((portCleared p).run s) = (idlePort s p, 0, rd s (.bnd p) Reg.BND.PORT_CTRL_RETRAIN_EN, 0) := by
  have hroute : plain (.bnd p) Reg.BND.PORT_CTRL_ROUTE_EN = true := plain_bnd hp
  have hretrain : plain (.bnd p) Reg.BND.PORT_CTRL_RETRAIN_EN = true := plain_bnd hp
  have hpeer : plain (.bnd p) Reg.BND.PEER_VALID = true := plain_bnd hp
  have hwidth : plain (.bnd p) Reg.BND.PORT_STATUS_WIDTH = true := plain_bnd hp
  have hspare : plain (.bnd p) Reg.BND.PORT_STATUS_SPARE_USED = true := plain_bnd hp
  have hfree (f : Fld) (h : f.off < 0x1000) : strapFree (fldAddr (.bnd p) f 0) := by
    simp only [strapFree, fldAddr, pageBase, Nat.mul_zero, Nat.add_zero]
    omega
  have hset : Writes strapFree (setPort p 0) := (writes_setPort p 0).mono fun a h => by
    rcases h with rfl | h
    · exact hfree _ (by decide)
    · exact (portFree_record h).1
  have hidle : idlePort ((portCleared p).run s) p = idlePort s p :=
    keeps_idlePort (q := portCleared p) ⟨only_setPort, only_wr, only_wr, only_wr, only_wr, trivial⟩
      (writes_cons hset (writes_cons (writes_wr (hfree _ (by decide))) (writes_cons (writes_wr (hfree _ (by decide)))
        (writes_cons (writes_wr (hfree _ (by decide))) (writes_cons (writes_wr (hfree _ (by decide))) writes_nil))))) p s
  unfold portShown
  rw [hidle]
  unfold portCleared
  simp only [run_progs_cons, run_progs_nil]
  rw [rd_wr_same _ _ _ _ _ hpeer, rd_wr_other _ _ _ _ _ _ _ _ hpeer hroute (.inr (.inl (by decide))), rd_wr_same _ _ _ _ _ hroute,
    rd_wr_other _ _ _ _ _ _ _ _ hpeer hretrain (.inr (.inl (by decide))), rd_wr_other _ _ _ _ _ _ _ _ hroute hretrain (.inr (.inr (.inl (by decide)))),
    rd_wr_other _ _ _ _ _ _ _ _ hspare hretrain (.inr (.inl (by decide))), rd_wr_other _ _ _ _ _ _ _ _ hwidth hretrain (.inr (.inl (by decide))),
    (writes_setPort p 0).rd (by simp only [recordWords, fldAddr, pageBase, Reg.BND.PORT_CTRL_RETRAIN_EN, Reg.BND.PORT_STATUS_STATE]; omega) hretrain]
  rfl

/-- A link that is up and taken down: the port routes nothing, knows no peer, and its record waits. -/
theorem linkDown_up (hp : p < 7) {s : State} (h : portUp s p = true) : let t := (linkDown p none).run s
    portShown p t = (idlePort s p, 0, rd s (.bnd p) Reg.BND.PORT_CTRL_RETRAIN_EN, 0) ∧ HasRecord t (844 + p) Code.BND_LINK_DOWN := by
  intro t
  have ht : t = _ := run_linkDown_up h
  generalize hr : (raise Code.BND_LINK_DOWN (844 + p) 0 noLeg p [w32 (rd s (.bnd p) Reg.BND.PEER_NODE)]).run ((portEmptied p).run ((portCleared p).run s)) = r at ht
  have hlost : portView p t = portView p r := ht ▸ keeps_portView_portLost hp r
  have hraise : portShown p r = portShown p ((portEmptied p).run ((portCleared p).run s)) :=
    hr ▸ keeps_portShown hp only_raise ((writes_raise _ _ _ _ _ _).mono fun _ => portFree_record) _
  have hempty : portShown p ((portEmptied p).run ((portCleared p).run s)) = portShown p ((portCleared p).run s) :=
    portShown_of_view (keeps_portView_portEmptied hp _)
  have hrecord : HasRecord r (844 + p) Code.BND_LINK_DOWN := hr ▸ hasRecord_raise _ _ _ _ _ _ _
  exact ⟨(portShown_of_view hlost).trans (hraise.trans (hempty.trans (portShown_portCleared hp s))), hrecord.of_srcQueue (congrArg Prod.snd hlost)⟩

/-- Whether a port stays in electrical idle, and its RETRAIN_EN, after its link has been taken down. -/
theorem linkDown_keeps (hp : p < 7) (s : State) : let t := (linkDown p none).run s
    idlePort t p = idlePort s p ∧ rd t (.bnd p) Reg.BND.PORT_CTRL_RETRAIN_EN = rd s (.bnd p) Reg.BND.PORT_CTRL_RETRAIN_EN := by
  intro t
  cases hup : portUp s p
  · have ht : t = s := run_linkDown_down hup
    rw [ht]
    exact ⟨rfl, rfl⟩
  · obtain ⟨hshown, -⟩ := linkDown_up hp hup
    exact ⟨congrArg (·.1) hshown, congrArg (·.2.2.1) hshown⟩

/-! ### RETRAIN -/

theorem run_retrainPort {s : State} (hidle : idlePort ((linkDown p none).run s) p = false) :
    (retrainPort p).run s = (setPort p 1).run ((linkDown p none).run s) := by
  unfold retrainPort
  rw [run_seq, run_look, hidle]
  rfl

theorem only_opPortCtrl {v : Nat} : Only lossK (opPortCtrl p v) :=
  only_look fun _ => ⟨only_whenP only_wr, only_wr, only_wr, only_whenP (only_seq only_linkDown (only_look fun _ => only_whenP only_setPort)),
    only_pumpPort.mono (by decide), trivial⟩

theorem idlePort_setPortFields (s : State) (v : Nat) : idlePort ((setPortFields s p v).run s) p = idlePort s p :=
  keeps_idlePort (only_setPortFields.mono (by decide)) ((writes_setPortFields s p v).mono fun a ha => by
    rw [List.mem_singleton.mp ha]
    simp only [strapFree, fldAddr, pageBase, Reg.BND.PORT_CTRL_ROUTE_EN]
    omega) p s

theorem portUp_setPortFields (hp : p < 7) (s : State) (v : Nat) : portUp ((setPortFields s p v).run s) p = portUp s p := by
  have hstate : rd ((setPortFields s p v).run s) (.bnd p) Reg.BND.PORT_STATUS_STATE = rd s (.bnd p) Reg.BND.PORT_STATUS_STATE :=
    (writes_setPortFields s p v).rd (by simp [fldAddr, Reg.BND.PORT_STATUS_STATE, Reg.BND.PORT_CTRL_ROUTE_EN]) (plain_bnd hp) s
  unfold portUp
  rw [hstate]

/-- A port put in a state shows it. -/
theorem rd_setPort_state (hp : p < 7) (v : Nat) (s : State) : rd ((setPort p v).run s) (.bnd p) Reg.BND.PORT_STATUS_STATE = v % 8 := by
  have htrace : Writes recordWords (trace 4 (844 + p)) := writes_trace (.inl rfl)
  unfold setPort
  rw [run_seq, htrace.rd (by simp only [recordWords, fldAddr, pageBase]; omega) (plain_bnd hp), rd_wr_same _ _ _ _ _ (plain_bnd hp)]
  rfl

/-- RETRAIN of a port that does not stay in electrical idle: its link is taken down where it was up, and the port is in training. -/
theorem retrain_spec (s : State) {v : Nat} (hp : p < 7) (h : bit v 2 = true) (hidle : idlePort s p = false) :
    let t := (opPortCtrl p v).run s
    rd t (.bnd p) Reg.BND.PORT_STATUS_STATE = 1 ∧ rd t (.bnd p) Reg.BND.PORT_CTRL_RETRAIN_EN = bits v 1 1 ∧
      (portUp s p = true → rd t (.bnd p) Reg.BND.PORT_CTRL_ROUTE_EN = 0 ∧ rd t (.bnd p) Reg.BND.PEER_VALID = 0 ∧
        HasRecord t (844 + p) Code.BND_LINK_DOWN) ∧ t.mem = s.mem ∧ t.counts = s.counts := by
  intro t
  obtain ⟨-, hretrain, -⟩ := rd_setPortFields s hp v
  have hupu := portUp_setPortFields hp s v
  have hidleu := idlePort_setPortFields (p := p) s v
  have ht : t = (pumpPort p).run ((whenP (bit v 2) (retrainPort p)).run ((setPortFields s p v).run s)) := run_opPortCtrl s p v
  generalize (setPortFields s p v).run s = u at ht hretrain hupu hidleu
  obtain ⟨hidlew, hretrainw⟩ := linkDown_keeps hp u
  rw [h, run_whenP_true, run_retrainPort (hidlew.trans (hidleu.trans hidle))] at ht
  have hregs : t.regs = ((setPort p 1).run ((linkDown p none).run u)).regs := ht ▸ only_pumpPort.regs
  have hkept (f : Fld) (hf : plain (.bnd p) f = true) (hoff : f.off + f.stride * 0 ≠ 0x100) : rd t (.bnd p) f = rd ((linkDown p none).run u) (.bnd p) f := by
    refine (rd_congr hregs _ _ _ hf).trans ((writes_setPort p 1).rd ?_ hf _)
    simp only [recordWords, fldAddr, pageBase, Reg.BND.PORT_STATUS_STATE]
    omega
  refine ⟨(rd_congr hregs _ _ _ (plain_bnd hp)).trans (rd_setPort_state hp 1 _),
    (hkept _ (plain_bnd hp) (by decide)).trans (hretrainw.trans hretrain), fun hup => ?_, only_opPortCtrl.mem, only_opPortCtrl.counts⟩
  obtain ⟨hshown, hrecord⟩ := linkDown_up hp (hupu.trans hup)
  have hqueue : srcQueue t (844 + p) = srcQueue ((linkDown p none).run u) (844 + p) := by
    rw [ht]
    exact (only_pumpPort.srcQueue _ (by decide) _).trans (keeps_seq _ ((only_wr (K := [.reg])).srcQueue _) (keeps_srcQueue_trace _ _ _) _)
  exact ⟨(hkept _ (plain_bnd hp) (by decide)).trans (congrArg (·.2.1) hshown), (hkept _ (plain_bnd hp) (by decide)).trans (congrArg (·.2.2.2) hshown),
    hrecord.of_srcQueue hqueue⟩

end Sys2Proof.Machine
end

section
/-! The obligation on the register writes of gates, stacks, sensors, power and ports: O56. -/

namespace Sys2Proof.Machine

open Sys2Proof

/-- Settles O56: each write is let in and runs its effect, whose own law says what changes and what stays. -/
theorem smallRegistersWritten : Obligations.SmallRegistersWritten := by
  unfold Obligations.SmallRegistersWritten
  intro s id v
  refine ⟨fun p m reg => ?_, fun p k hin hbit => ?_, fun p hin => ?_, fun st => ⟨fun hin => ?_, fun hin hbit => ?_⟩, fun hin hbit => ?_, fun hin hbit => ?_,
    fun hin => ?_, fun port hin => ?_⟩
  -- SPARE_MAP and SPARE_VALID (R98)
  · intro pg a ws clash hin
    have hexec : exec (.spareMapWrite id p m reg v) s = .next ((opSpare p (mGate m) reg v.toNat).run s) := done_access _ hin
    have hclash : clash = spareWriteClash s p (mGate m) reg v := rfl
    rw [hexec, hclash]
    refine ⟨fun hlock => by rw [run_opSpare_locked hlock], fun hlock hok => ⟨_, rfl, spareTaken_spec p.isLt (mGate_lt m) reg.isLt hlock hok⟩,
      fun hlock hbad => ⟨_, rfl, spareRefused_spec s p.isLt (mGate_lt m) ?_ ?_⟩⟩
    · simp only [a, pg]
      split <;> omega
    · rw [run_opSpare hlock, hbad, if_pos rfl]
  -- DROP_CTRL (R219)
  · exact ⟨_, done_access _ hin, dropCleared_spec s p.isLt (vGate_lt k) hbit⟩
  -- CHAN_RESET (R312)
  · have hexec : exec (.chanReset id p v) s = .next ((opChanReset p v.toNat).run s) := done_access _ hin
    exact ⟨fun hfree => ⟨_, hexec, chanReset_spec p.isLt hfree⟩, fun hwait => by rw [hexec, run_opChanReset_waited hwait]⟩
  -- the stacks (R229, R247)
  · exact ⟨_, done_access _ hin, groomPause_spec s st v.toNat⟩
  · exact ⟨_, done_access _ hin, maxClear_spec s st hbit⟩
  -- DIE_MAX_CLEAR (R424), SNAP (R430) and SOFT_CAP (R423)
  · exact ⟨_, done_access _ hin, dieMaxClear_spec s hbit⟩
  · exact ⟨_, done_access _ hin, tlmSnap_spec s id hbit⟩
  · exact ⟨fun hlo hhi => ⟨_, done_access _ hin, softCap_taken s hlo hhi⟩, fun hout => ⟨_, done_access _ hin, softCap_refused s hout⟩⟩
  -- PORT_CTRL (R301)
  · exact ⟨fun hbit => ⟨_, done_access _ hin, portCtrl_spec s port.isLt hbit⟩, fun hbit _ hidle => ⟨_, done_access _ hin, retrain_spec s port.isLt hbit hidle⟩⟩

end Sys2Proof.Machine
end

section
/-! Messages that write here (R292, R294, R311, R356): what the write of an arriving message changes, its refusal, and the obligation on remote writes. -/

namespace Sys2Proof.Machine

open Sys2Proof

/-! ### The write itself -/

/-- The kinds of change that a message's write to host memory makes. -/
def hostWriteK : List Kind := [.bytes .host, .flag .hostPoison, .flag .atc]

theorem Only.hostMem_only {p : Prog} (h : Only hostWriteK p) (s : State) :
    p.run s = { s with mem := { s.mem with host := (p.run s).mem.host, hostPoison := (p.run s).mem.hostPoison, atc := (p.run s).mem.atc } } := by
  have := h.keeps (fun s => fun x y z => { s with mem := { s.mem with host := x, hostPoison := y, atc := z } }) (fun a s ha => by
    cases a with
    | bytes i x l =>
      cases i with
      | host => rfl
      | _ => simp [Act.kind, hostWriteK] at ha
    | flag f k b =>
      cases f with
      | hostPoison => rfl
      | atc => rfl
      | _ => simp [Act.kind, hostWriteK] at ha
    | _ => simp [Act.kind, hostWriteK] at ha) s
  exact congrFun (congrFun (congrFun this (p.run s).mem.host) (p.run s).mem.hostPoison) (p.run s).mem.atc

theorem only_remoteWrite_host {space a : Nat} {l : List Byte} {poison : Bool} (hspace : space ≠ 0) : Only hostWriteK (remoteWrite space a l poison) := by
  unfold remoteWrite
  rw [if_neg hspace]
  exact only_cons only_cacheTranslation
    (only_cons only_hostWrite (only_cons (only_whenP (only_forEach fun _ => only_prim (.tail _ (.head _)))) only_nil))

theorem host_remoteWrite {s : State} {space a : Nat} {l : List Byte} (hspace : space ≠ 0) :
    ((remoteWrite space a l false).run s).mem.host = smSetList byteDefault s.mem.host a l := by
  unfold remoteWrite
  rw [if_neg hspace, run_progs_cons, run_progs_cons, run_progs_cons, run_progs_nil, run_whenP_false, run_hostWrite]
  exact congrArg (smSetList byteDefault · a l) ((only_cacheTranslation (K := [.flag .atc])).memOf (m := .host))

theorem byteAt_host {space : Nat} (hspace : space ≠ 0) (s : State) (b : Nat) : byteAt s space b = byteAt s 1 b := by
  unfold byteAt
  rw [if_neg hspace, if_neg Nat.one_ne_zero]

/-- The memories of a state with those parts of others that a message's write to a space may change (R225, R249, R292). -/
def memWritten (s : State) (space : Nat) (m : Mem) : Mem :=
  { s.mem with
    hbm := if space = 0 then m.hbm else s.mem.hbm, hbmPoison := m.hbmPoison
    host := if space = 0 then s.mem.host else m.host, hostPoison := m.hostPoison, atc := m.atc }

/-- A clean write that a message brings leaves its bytes, and changes marks of poison and translations beside them. -/
theorem run_remoteWrite {s : State} {space a : Nat} {l : List Byte} (hclosed : space = 0 → NoneOpen s a l.length) :
    WritesBytes s ((remoteWrite space a l false).run s) space a l ∧
      (remoteWrite space a l false).run s = { s with mem := memWritten s space ((remoteWrite space a l false).run s).mem } := by
  by_cases hspace : space = 0
  · subst hspace
    have hbytes : WritesBytes s ((hbmWrite a l).run s) 0 a l := writesBytes_hbmWrite (hclosed rfl)
    refine ⟨hbytes, ?_⟩
    show (hbmWrite a l).run s = { s with mem := memWritten s 0 ((hbmWrite a l).run s).mem }
    rw [run_hbmWrite s a l (hclosed rfl)]
    rfl
  · have hhost (u : State) (b : Nat) : byteAt u space b = byteAt u 1 b := byteAt_host hspace u b
    obtain ⟨hin, hout⟩ := writesBytes_host (host_remoteWrite (s := s) (a := a) (l := l) hspace)
    have hpoison : ((remoteWrite space a l false).run s).mem.hbmPoison = s.mem.hbmPoison := (only_remoteWrite_host hspace).flagOf (f := .hbmPoison)
    refine ⟨⟨fun i hi => (hhost _ _).trans (hin i hi), fun b hb => (hhost _ _).trans ((hout b hb).trans (hhost _ _).symm)⟩, ?_⟩
    refine ((only_remoteWrite_host hspace).hostMem_only s).trans ?_
    unfold memWritten
    rw [if_neg hspace, if_neg hspace, hpoison]

/-! ### The write of a message taken -/

/-- The state that a served write leaves: its bytes written once the message was taken, and its acknowledgement on its way. -/
def writeServed (s : State) (p : Nat) (m : Msg) (a ack : Nat) : State :=
  (answer m ack [] false 0).run ((remoteWrite m.space a m.data false).run (taken s p m))

theorem run_writeRequest_taken {s : State} {m : Msg} {a : Nat} (hclean : m.poison = false) (hwin : inboundOk s .wr m.space a m.data.length = true)
    (p ack : Nat) : (writeRequest m a ack).run (taken s p m) = writeServed s p m a ack := by
  unfold writeRequest
  rw [run_look, inboundOk_taken, hwin, if_pos rfl, run_seq, hclean]
  rfl

theorem run_writeRequest_refused {s : State} {m : Msg} {a : Nat} (hwin : inboundOk s .wr m.space a m.data.length = false) (p ack : Nat) :
    (writeRequest m a ack).run (taken s p m) = (refuseMsg m).run (taken s p m) := by
  unfold writeRequest
  rw [run_look, inboundOk_taken, hwin, if_neg Bool.false_ne_true]

/-- A served write leaves its bytes and its acknowledgement, and changes nothing beside them but the fabric, marks of poison and translations. -/
theorem writeServed_spec {s : State} {m : Msg} {a : Nat} (hclosed : m.space = 0 → NoneOpen s a m.data.length) (p ack : Nat) :
    let t := writeServed s p m a ack
    WritesBytes s t m.space a m.data ∧ Answered s t p m ack [] 0 ∧
      t = { s with regs := t.regs, bnd := t.bnd, mem := memWritten s m.space t.mem } ∧ RegsKept s t fabricWords := by
  have htaken : Only [.bnd] (takeMsg p m) := only_takeMsg
  have hans : Only fabricK (answer m ack [] false 0) := only_answer
  have hclosed' : m.space = 0 → NoneOpen (taken s p m) a m.data.length := fun h0 i hi =>
    (openAt_congr (congrArg (·.granules) htaken.stk) _).trans (hclosed h0 i hi)
  obtain ⟨⟨hin, hout⟩, hframe⟩ := run_remoteWrite hclosed'
  unfold writeServed
  generalize (remoteWrite m.space a m.data false).run (taken s p m) = u at hin hout hframe ⊢
  have hregs : u.regs = s.regs := (congrArg (·.regs) hframe).trans htaken.regs
  have hmem : ((answer m ack [] false 0).run u).mem = u.mem := hans.mem
  refine ⟨⟨fun i hi => (hans.byteAt _ _ _).trans (hin i hi), fun b hb => (hans.byteAt _ _ _).trans ((hout b hb).trans (htaken.byteAt _ _ _))⟩,
    ⟨u, hregs, congrArg (·.bnd) hframe, rfl⟩, ?_, fun w hw => (writes_answer m ack [] false 0 w hw u).trans (congrArg (smGet regReset · w) hregs)⟩
  rw [taken_eq] at hframe
  refine (hans.fabric_only u).trans ?_
  rw [hmem]
  exact congrArg (fun v => { v with regs := ((answer m ack [] false 0).run u).regs, bnd := ((answer m ack [] false 0).run u).bnd }) hframe

/-- REFUSED_IN of FAB_CHECK (R292). -/
def refusedMark (s : State) : Nat := rd s (.bnd 7) Reg.BND7.FAB_CHECK_REFUSED_IN

/-- A field of the fabric page other than REFUSED_IN, in another word or in other bits, is written beside it. -/
theorem keeps_refusedMark_wr {f : Fld} {v : Nat} (hf : plain (.bnd 7) f 0 = true)
    (hne : f.off + f.stride * 0 ≠ Reg.BND7.FAB_CHECK_REFUSED_IN.off ∨ f.lo + f.w ≤ Reg.BND7.FAB_CHECK_REFUSED_IN.lo ∨
      Reg.BND7.FAB_CHECK_REFUSED_IN.lo + Reg.BND7.FAB_CHECK_REFUSED_IN.w ≤ f.lo) : Keeps refusedMark (wr (.bnd 7) f v) :=
  fun s => rd_wr_other s (.bnd 7) (.bnd 7) f Reg.BND7.FAB_CHECK_REFUSED_IN v 0 0 hf (by decide) (.inr hne)

/-- What leaves through the fabric may be marked unreachable, never as refused on its arrival (R298). -/
theorem keeps_refusedMark_routeMsg (n : Nat) (m : Msg) : Keeps refusedMark (routeMsg n m) := by
  have hbnd {p : Prog} (h : Only [.bnd] p) : Keeps refusedMark p := fun _ => rd_congr h.regs (.bnd 7) Reg.BND7.FAB_CHECK_REFUSED_IN 0 (by decide)
  refine routeMsg_cases (P := Keeps _) (keeps_skip _) (fun _ => hbnd only_deliver) (fun _ _ => hbnd only_queueOn) (fun n m reason hback => ?_)
    (fun _ h => keeps_look _ h) n m
  refine keeps_look _ fun _ => keeps_cons _ (keeps_whenP _ _ ?_) (keeps_cons _ (keeps_whenP _ _ (hback _)) (keeps_nil _))
  exact keeps_cons _ (keeps_look _ fun _ => keeps_refusedMark_wr (by decide) (by decide))
    (keeps_cons _ (keeps_look _ fun _ => keeps_whenP _ _
        (keeps_seq _ (keeps_refusedMark_wr (by decide) (by decide)) (keeps_refusedMark_wr (by decide) (by decide))))
      (keeps_cons _ (keeps_refusedMark_wr (by decide) (by decide)) (keeps_nil _)))

theorem only_refuseMsg {m : Msg} : Only fabricK (refuseMsg m) :=
  only_look fun _ => only_cons only_wr (only_cons only_addSat (only_cons (only_routeMsg _ _) only_nil))

/-- A write refused right after its message was taken sets REFUSED_IN, and changes nothing but the fabric and registers (R292). -/
theorem refused_taken_marked (s : State) (p : Nat) (m : Msg) :
    let t := (refuseMsg m).run (taken s p m)
    refusedMark t = 1 ∧ t = { s with regs := t.regs, bnd := t.bnd } := by
  have hcount : Keeps refusedMark (addSat (.bnd 7) Reg.BND7.REFUSED_COUNT 1) := keeps_look _ fun _ => keeps_refusedMark_wr (by decide) (by decide)
  constructor
  · unfold refuseMsg
    rw [run_look, run_progs_cons, run_progs_cons, run_progs_cons, run_progs_nil]
    refine (keeps_refusedMark_routeMsg 8 _ _).trans ((hcount _).trans ?_)
    exact rd_wr_same (taken s p m) (.bnd 7) Reg.BND7.FAB_CHECK_REFUSED_IN 1 0 (by decide)
  · refine (only_refuseMsg.fabric_only (taken s p m)).trans ?_
    generalize (refuseMsg m).run (taken s p m) = t
    rw [taken_eq]

/-! ### The obligation -/

/-- Settles O42: each of the four commands is a write request for the message taken, and the windows decide between its write and its refusal. -/
theorem remoteWritesServed : Obligations.RemoteWritesServed := by
  unfold Obligations.RemoteWritesServed
  intro s p m h hresp hclean served
  have hserved {c : Instr} {a ack : Nat} (hexec : exec c s = .next ((writeRequest m a ack).run (taken s p m))) : served c a ack := by
    refine ⟨fun hwin hclosed => ?_, fun hwin => ?_⟩
    · obtain ⟨⟨hin, hout⟩, hans, hframe, hkept⟩ := writeServed_spec hclosed p ack
      exact ⟨_, hexec.trans (congrArg _ (run_writeRequest_taken hclean hwin p ack)), hin, hout, hans, hframe, hkept⟩
    · obtain ⟨hmem, -, hcount⟩ := refused_taken s p m
      obtain ⟨hmark, hframe⟩ := refused_taken_marked s p m
      exact ⟨_, hexec.trans (congrArg _ (run_writeRequest_refused hwin p ack)), hmem, hmark, hcount, hframe⟩
  refine ⟨fun hcls hop => hserved ?_, fun hcls hop => hserved ?_, fun hcls hop hlen => hserved ?_, fun hcls hop harea => hserved ?_⟩
  · exact congrArg _ (run_serveMsg h hresp hcls hop _ _)
  · exact congrArg _ (run_serveMsg h hresp hcls hop _ _)
  · show done (whenP (m.len != 0) (serveMsg p m 2 0 false (writeRequest m (m.addr % 2 ^ 40) 2) (notServed m))) s = _
    rw [done_eq, bne_iff_ne.mpr hlen, run_whenP_true, run_serveMsg h hresp hcls hop]
  · show done (serveMsg p m 6 0 false (.look fun t => if (ownArea t).2 = 0 then refuseMsg m else writeRequest m m.addr 1) (notServed m)) s = _
    have harea' : (ownArea (taken s p m)).2 ≠ 0 := by
      rw [taken_eq]
      exact harea
    rw [done_eq, run_serveMsg h hresp hcls hop, run_look, if_neg harea']

end Sys2Proof.Machine
end

section
/-! Two obligations that a state refutes in which the model evaluates otherwise: O59 and O60, by a hold of the pistes under which a waiting piste takes up a
repair of a gate that no piste has. -/

namespace Sys2Proof.Machine

open Sys2Proof

set_option Elab.async false
open Sys2Proof.Tests (pairWith oneRun letInB letIn_of)

/-- A module with port P down or up, in a pair state, with TAKEOVER or without: piste 61 is in a run, and piste 62, with ARM 1, waits for one and has a
repair to take up that names gate 62 and array 0x3B8. No gate has these numbers, and SPARE_MAP of such a gate would lie at RUN_CTRL of piste 63, which is
in service with ARM 0. -/
def holdBeyond (up pair take : Nat) : State :=
  let s := (progs [wr (.pst 63) Reg.PST.RUN_CTRL_ARM 0, wr (.mod 3) Reg.MOD3.MIR_FIXED 1]).run (pairWith up pair take)
  { s with
    pistes := [(61, { PisteSt.idle with run := some 1 }),
      (62, { PisteSt.idle with waiting := some 0, repairs := [{ gate := 62, arr := 0x3B8, col := 1, spare := 0 }] })]
    runs := { runs := [{ oneRun 62 with fixed := none, started := false }], nextId := 2, topIter := none } }

theorem holdBeyond_takeoverDue : takeoverDue (holdBeyond 0 1 0) = true ∧ fenced (holdBeyond 0 1 0) 61 = false ∧
    (pisteOf (holdBeyond 0 1 0) 61).run ≠ none ∧ (unfenced (holdBeyond 0 1 0)).contains 63 = true := by decide +kernel

/-- The repair, taken up by piste 62 as it is held for the takeover, sets ARM of piste 63. -/
theorem pairTakeover_arms : rd (progPairTakeover.run (holdBeyond 0 1 0)) (.pst 63) Reg.PST.RUN_CTRL_ARM = 1 := by decide +kernel

/-- Refutes O59: its clause on a takeover that is due says that ARM is 0 on every piste in service once they are held, in every state; in one whose waiting
piste has a pending repair of a gate that no piste has, the repair, taken up as the piste is held, sets ARM of the next piste. -/
theorem not_pairFollows : ¬ Obligations.PairFollows := by
  unfold Obligations.PairFollows
  intro h
  obtain ⟨-, -, ⟨htake, -⟩, -⟩ := h (holdBeyond 0 1 0)
  obtain ⟨hdue, hservice, hrun, hmem⟩ := holdBeyond_takeoverDue
  obtain ⟨t, hexec, -, -, -, -, -, hheld, -⟩ := htake hdue
  obtain ⟨-, hstill⟩ := hheld ⟨61, by decide, hservice, hrun⟩
  have ht : progPairTakeover.run (holdBeyond 0 1 0) = t := Host.Outcome.next.inj hexec
  have hone := pairTakeover_arms
  have hzero := hstill 63 (by decide)
  rw [if_pos hmem] at hzero
  rw [ht] at hone
  omega

theorem holdBeyond_resync : letInB (holdBeyond 1 4 1) (.cp 0) (fldAddr (.mod 4) Reg.MOD4.PAIR_CTRL_END_TAKEOVER 0) false = true ∧
    pairState (holdBeyond 1 4 1) = 4 ∧ inTakeover (holdBeyond 1 4 1) = true ∧ (holdBeyond 1 4 1).fw.pairStep = 0 ∧
    fenced (holdBeyond 1 4 1) 61 = false ∧
    (pisteOf (holdBeyond 1 4 1) 61).run ≠ none ∧ (unfenced (holdBeyond 1 4 1)).contains 63 = true := by decide +kernel

/-- The same repair under the hold of END_TAKEOVER. -/
theorem endTakeover_arms : rd ((opEndTakeover false).run (holdBeyond 1 4 1)) (.pst 63) Reg.PST.RUN_CTRL_ARM = 1 := by decide +kernel

/-- Refutes O60: its clause on END_TAKEOVER with a piste still running says that ARM is 0 on every piste in service, in every state; the state that refutes
O59, as a survivor in RESYNC, refutes it in the same way. -/
theorem not_pairControlWritten : ¬ Obligations.PairControlWritten := by
  unfold Obligations.PairControlWritten
  intro h
  obtain ⟨-, -, hend, -⟩ := h (holdBeyond 1 4 1) (.cp 0)
  obtain ⟨hin, hstate, htake, hstep, hservice, hrun, hmem⟩ := holdBeyond_resync
  have hlet := letIn_of hin
  obtain ⟨hheld, -⟩ := hend false hlet
  obtain ⟨hrunning, -⟩ := hheld (by decide) hstate htake hstep
  obtain ⟨t, hexec, -, hstill, -⟩ := hrunning ⟨61, by decide, hservice, hrun⟩
  have ht : (opEndTakeover false).run (holdBeyond 1 4 1) = t := Host.Outcome.next.inj ((done_access (opEndTakeover false) hlet).symm.trans hexec)
  have hone := endTakeover_arms
  have hzero := hstill 63 (by decide)
  rw [if_pos hmem] at hzero
  rw [ht] at hone
  omega

end Sys2Proof.Machine
end

section
/-! Entries placed in HBM by the trace unit and by firmware (R348, R349): the bytes of an entry, the state that its writing leaves, and the obligation
on traces and the log. -/

namespace Sys2Proof.Machine

open Sys2Proof

set_option Elab.async false

/-! ### Bytes of an entry -/

theorem padTo_length {α : Type} (n : Nat) (x : α) (l : List α) : (padTo n x l).length = n := by
  unfold padTo
  rw [List.length_append, List.length_take, List.length_replicate]
  omega

theorem padTo_self {α : Type} {n : Nat} {l : List α} (h : l.length = n) (x : α) : padTo n x l = l := by
  unfold padTo
  rw [List.take_of_length_le (by omega), h, Nat.sub_self, List.replicate_zero, List.append_nil]

/-- A part of a run of bytes written reads back. -/
theorem smList_setList_part (m : SMap Byte) (a : Nat) (x y z : List Byte) :
    smList byteDefault (smSetList byteDefault m a (x ++ y ++ z)) (a + x.length) y.length = y := by
  unfold smList
  refine List.ext_getElem (by simp) fun i _ hi => ?_
  rw [List.getElem_map, List.getElem_range, Nat.add_assoc, smGet_setList_in _ _ _ _ _ (by simp; omega),
    List.getElem_append_left (by simpa using hi), List.getElem_append_right (Nat.le_add_right _ _)]
  congr 1
  omega

/-- The first bytes written read back. -/
theorem smList_setList_front (m : SMap Byte) (a : Nat) (y z : List Byte) : smList byteDefault (smSetList byteDefault m a (y ++ z)) a y.length = y :=
  smList_setList_part m a [] y z

theorem flatMap_leBytes_length (l : List Nat) : (l.flatMap (leBytes 4)).length = 4 * l.length := by
  induction l with
  | nil => rfl
  | cons x r ih => rw [List.flatMap_cons, List.length_append, leBytes_length, ih, List.length_cons]; omega

/-- A ring entry has eight words (R346). -/
theorem entryWords_length (e : Entry) : (entryWords e).length = 8 := by
  unfold entryWords
  dsimp only
  rw [List.length_append]
  split
  · rfl
  · rw [padTo_length]; rfl

/-- Saturation of a 32-bit counter. -/
theorem satBits_eq_min (n : Nat) : satBits 32 n = min (2 ^ 32 - 1) n := by
  unfold satBits
  split
  · omega
  · omega

/-! ### An entry written -/

/-- The state that an entry written to HBM leaves, with the marks of poison and the registers that come with it. -/
def entryPut (s : State) (a : Nat) (l : List Byte) (poison : SMap Bool) (regs : SMap Word) : State :=
  { s with regs := regs, mem := { s.mem with hbm := smSetList byteDefault s.mem.hbm a l, hbmPoison := poison } }

/-- What a written entry leaves alone. -/
theorem entryPut_eq (s : State) (a : Nat) (l : List Byte) (poison : SMap Bool) (regs : SMap Word) :
    let t := entryPut s a l poison regs
    t = { s with regs := t.regs, mem := { s.mem with hbm := t.mem.hbm, hbmPoison := t.mem.hbmPoison } } := rfl

theorem run_modRecs_entryPut (f : RecSt → RecSt) (s : State) (a : Nat) (l : List Byte) (poison : SMap Bool) (regs : SMap Word) :
    (modRecs f).run (entryPut s a l poison regs) = entryPut { s with recs := f s.recs } a l poison regs := rfl

theorem run_wr64_besideMem (pg : Page) (lo hi : Fld) (v : Nat) (s : State) (m : Mem) :
    (wr64 pg lo hi v).run { s with mem := m } = { s with mem := m, regs := ((wr64 pg lo hi v).run s).regs } := rfl

theorem hbmByte_entryPut_out {s : State} {a b : Nat} {l : List Byte} (h : b < a ∨ a + l.length ≤ b) (poison : SMap Bool) (regs : SMap Word) :
    hbmByte (entryPut s a l poison regs) b = hbmByte s b := by
  unfold hbmByte
  rw [openAt_congr (t := entryPut s a l poison regs) (s := s) rfl]
  split
  · rfl
  · exact smGet_setList_out _ _ _ _ _ h

theorem wr_regs_congr {s t : State} (h : t.regs = s.regs) (pg : Page) (f : Fld) (v i : Nat) : ((wr pg f v i).run t).regs = ((wr pg f v i).run s).regs := by
  rw [run_wr, run_wr, apply_regs, apply_regs]
  unfold regWord
  rw [h]

theorem wr64_regs_congr {s t : State} (h : t.regs = s.regs) (pg : Page) (lo hi : Fld) (v : Nat) :
    ((wr64 pg lo hi v).run t).regs = ((wr64 pg lo hi v).run s).regs := by
  unfold wr64
  rw [run_seq, run_seq]
  exact wr_regs_congr (wr_regs_congr h _ _ _ _) _ _ _ _

theorem rd64_congr {s t : State} (h : t.regs = s.regs) {pg : Page} {lo hi : Fld} (hlo : plain pg lo = true) (hhi : plain pg hi = true) :
    rd64 t pg lo hi = rd64 s pg lo hi := by
  unfold rd64
  rw [rd_congr h pg lo 0 hlo, rd_congr h pg hi 0 hhi]

/-- The next `n` free bytes (log entry 4). -/
def freshBytes (s : State) (n : Nat) : List Byte :=
  ((List.range ((n + 7) / 8)).flatMap fun i => leBytes 8 (Config.freeWord (s.freeCount + i)).toNat).take n

theorem run_withFreeBytes (n : Nat) (k : List Byte → Prog) (s : State) :
    (withFreeBytes n k).run s = (k (freshBytes s n)).run { s with freeCount := s.freeCount + (n + 7) / 8 } := rfl

/-! ### The trace ring (R349) -/

/-- Where the next trace is written. -/
def tracePlace (s : State) : Nat :=
  rd64 s (.mod 3) Reg.MOD3.TRACE_BASE_LO Reg.MOD3.TRACE_BASE_HI + 32 * rd s (.mod 3) Reg.MOD3.TRACE_HEAD

/-- The place after the next trace's. -/
def traceNext (s : State) : Nat := (rd s (.mod 3) Reg.MOD3.TRACE_HEAD + 1) % 2 ^ 21

/-- The first eight bytes of a trace: its KIND, ISLAND and sequence. -/
def traceFront (x : Trace) : List Byte := leBytes 4 (x.kind % 256 + x.island % 1024 * 256) ++ leBytes 4 x.seq

theorem tracePlace_congr {s t : State} (h : t.regs = s.regs) : tracePlace t = tracePlace s := by
  unfold tracePlace
  rw [rd64_congr h (by decide) (by decide), rd_congr h _ _ _ (by decide)]

/-- A trace placed where no granule is open: its 32 bytes are written and TRACE_HEAD advances. -/
theorem run_putTrace {s : State} (h : NoneOpen s (tracePlace s) 32) (x : Trace) (d : List Byte) :
    ∃ q, (putTrace x d).run s = entryPut s (tracePlace s) (traceFront x ++ padTo 24 0 d) q ((wr (.mod 3) Reg.MOD3.TRACE_HEAD (traceNext s)).run s).regs := by
  have hlen : (traceFront x ++ padTo 24 0 d).length = 32 := by
    simp only [traceFront, List.length_append, leBytes_length, padTo_length]
  have hwrite := run_hbmWrite s (tracePlace s) (traceFront x ++ padTo 24 0 d) fun i hi => h i (by omega)
  refine ⟨((hbmWrite (tracePlace s) (traceFront x ++ padTo 24 0 d)).run s).mem.hbmPoison, ?_⟩
  unfold putTrace
  rw [run_look]
  dsimp only
  rw [run_seq]
  unfold tracePlace traceFront at hwrite ⊢
  rw [hwrite]
  rfl

/-- What an entry of the trace ring, written with its first bytes given, leaves (R349). -/
theorem trace_placed {s u : State} {x : Trace} {d : List Byte} {q : SMap Bool} (hk : u.stk = s.stk) (hm : u.mem = s.mem) :
    let t := entryPut u (tracePlace s) (traceFront x ++ padTo 24 0 d) q ((wr (.mod 3) Reg.MOD3.TRACE_HEAD (traceNext s)).run s).regs
    smList byteDefault t.mem.hbm (tracePlace s) 8 = traceFront x ∧ smList byteDefault t.mem.hbm (tracePlace s) 32 = traceFront x ++ padTo 24 0 d ∧
      rd t (.mod 3) Reg.MOD3.TRACE_HEAD = traceNext s ∧ (∀ b, b < tracePlace s ∨ tracePlace s + 32 ≤ b → hbmByte t b = hbmByte s b) ∧
      RegsKept s t [fldAddr (.mod 3) Reg.MOD3.TRACE_HEAD 0] := by
  intro t
  have hfront : (traceFront x).length = 8 := by simp only [traceFront, List.length_append, leBytes_length]
  have hlen : (traceFront x ++ padTo 24 0 d).length = 32 := by rw [List.length_append, hfront, padTo_length]
  have hwhole := smList_setList_front u.mem.hbm (tracePlace s) (traceFront x ++ padTo 24 0 d) []
  rw [List.append_nil, hlen] at hwhole
  refine ⟨hfront ▸ smList_setList_front u.mem.hbm (tracePlace s) (traceFront x) (padTo 24 0 d), hwhole, ?_, fun b hb => ?_, fun a ha => ?_⟩
  · refine (rd_congr (s := (wr (.mod 3) Reg.MOD3.TRACE_HEAD (traceNext s)).run s) (t := t) rfl _ _ _ (by decide)).trans ?_
    rw [rd_wr_same _ _ _ _ _ (by decide)]
    exact Nat.mod_eq_of_lt (Nat.mod_lt _ (by decide))
  · rw [hbmByte_entryPut_out (by omega)]
    exact hbmByte_congr (congrArg (·.granules) hk) (congrArg (·.hbm) hm) b
  · exact (onlyRegs_wr s (.mod 3) Reg.MOD3.TRACE_HEAD (traceNext s) 0 (List.mem_singleton.mpr rfl)).2 a ha

/-- The oldest trace leaves the unit: into the ring, or with no room there counted among those lost. -/
def takeTrace (room : Bool) : List Trace → Prog
  | [] => .skip
  | t :: r => .seq (modRecs fun x => { x with traceQ := r })
    (if room then withFreeBytes 24 (putTrace t)
    else .seq (modRecs fun x => { x with lost := x.lost + 1, firstLost := if x.lost = 0 then t.seq else x.firstLost })
      (addSat (.mod 3) Reg.MOD3.TRACE_GAPS 1))

/-- What TRACE_WRITE does where nothing makes it wait. -/
theorem exec_traceWrite {s : State} (hwait : logWaits s (stackOf s (tracePlace s)) = false) (hcool : hotRange s (tracePlace s) 32 = false) :
    exec .traceWrite s = .next (Prog.run
      (if traceNext s != rd s (.mod 3) Reg.MOD3.TRACE_TAIL && s.recs.lost != 0 then
        .seq (putTrace { kind := 0, island := 852, seq := s.recs.traceSeq } (leBytes 4 s.recs.lost ++ leBytes 4 s.recs.firstLost))
          (modRecs fun x => { x with traceSeq := x.traceSeq + 1, lost := 0, firstLost := 0 })
      else takeTrace (traceNext s != rd s (.mod 3) Reg.MOD3.TRACE_TAIL) s.recs.traceQ) s) := by
  show done progTraceWrite s = _
  unfold progTraceWrite
  rw [done_eq, run_look]
  dsimp only
  unfold tracePlace at hwait hcool
  rw [hwait, hcool]
  rfl

/-- A trace placed by the trace unit once its records changed, in terms of the state before. -/
theorem run_putTrace_after {s u : State} (hregs : u.regs = s.regs) (hk : u.stk = s.stk) (h : NoneOpen s (tracePlace s) 32) (x : Trace) (d : List Byte) :
    ∃ q, (putTrace x d).run u =
      entryPut u (tracePlace s) (traceFront x ++ padTo 24 0 d) q ((wr (.mod 3) Reg.MOD3.TRACE_HEAD (traceNext s)).run s).regs := by
  have hopen : NoneOpen u (tracePlace u) 32 := fun i hi => by
    rw [tracePlace_congr hregs, openAt_congr (congrArg (·.granules) hk)]
    exact h i hi
  obtain ⟨q, hq⟩ := run_putTrace hopen x d
  have hnext : traceNext u = traceNext s := by unfold traceNext; rw [rd_congr hregs _ _ _ (by decide)]
  refine ⟨q, ?_⟩
  rw [hq, tracePlace_congr hregs, hnext, wr_regs_congr hregs]

/-- The bytes of a GAP trace: its front of KIND 0 at the trace unit, the number lost and the first lost sequence. -/
theorem gapTrace_bytes (seq lost first : Nat) :
    traceFront { kind := 0, island := 852, seq := seq } ++ padTo 24 0 (leBytes 4 lost ++ leBytes 4 first) =
      leBytes 4 (852 * 256) ++ leBytes 4 seq ++ leBytes 4 lost ++ leBytes 4 first ++ List.replicate 16 0 := by
  have hlen : (leBytes 4 lost ++ leBytes 4 first).length = 8 := by simp only [List.length_append, leBytes_length]
  unfold traceFront padTo
  rw [List.take_of_length_le (by omega), hlen]
  simp only [List.append_assoc]

theorem traceWrite_oldest {s : State} (hwait : logWaits s (stackOf s (tracePlace s)) = false) (hcool : hotRange s (tracePlace s) 32 = false)
    (hroom : traceNext s ≠ rd s (.mod 3) Reg.MOD3.TRACE_TAIL) (hopen : NoneOpen s (tracePlace s) 32) (hlost : s.recs.lost = 0) {x : Trace}
    {r : List Trace} (hq : s.recs.traceQ = x :: r) :
    ∃ n d q, exec .traceWrite s = .next (entryPut { s with recs := { s.recs with traceQ := r }, freeCount := n } (tracePlace s)
      (traceFront x ++ padTo 24 0 d) q ((wr (.mod 3) Reg.MOD3.TRACE_HEAD (traceNext s)).run s).regs) := by
  obtain ⟨q, hput⟩ := run_putTrace_after (s := s) (u := { s with recs := { s.recs with traceQ := r }, freeCount := s.freeCount + (24 + 7) / 8 }) rfl rfl
    hopen x (freshBytes s 24)
  refine ⟨s.freeCount + (24 + 7) / 8, freshBytes s 24, q, ?_⟩
  rw [exec_traceWrite hwait hcool, bne_iff_ne.mpr hroom, hlost, hq, ← hput, if_neg (by decide), takeTrace, if_pos rfl,
    run_seq, run_modRecs, run_withFreeBytes]
  rfl

theorem traceWrite_gap {s : State} (hwait : logWaits s (stackOf s (tracePlace s)) = false) (hcool : hotRange s (tracePlace s) 32 = false)
    (hroom : traceNext s ≠ rd s (.mod 3) Reg.MOD3.TRACE_TAIL) (hopen : NoneOpen s (tracePlace s) 32) (hlost : s.recs.lost ≠ 0) :
    ∃ q, exec .traceWrite s = .next (entryPut
      { s with recs := { s.recs with traceSeq := s.recs.traceSeq + 1, lost := 0, firstLost := 0 } } (tracePlace s)
      (traceFront { kind := 0, island := 852, seq := s.recs.traceSeq } ++ padTo 24 0 (leBytes 4 s.recs.lost ++ leBytes 4 s.recs.firstLost)) q
      ((wr (.mod 3) Reg.MOD3.TRACE_HEAD (traceNext s)).run s).regs) := by
  obtain ⟨q, hput⟩ := run_putTrace hopen { kind := 0, island := 852, seq := s.recs.traceSeq } (leBytes 4 s.recs.lost ++ leBytes 4 s.recs.firstLost)
  refine ⟨q, ?_⟩
  rw [exec_traceWrite hwait hcool, bne_iff_ne.mpr hroom, bne_iff_ne.mpr hlost, Bool.and_self, if_pos rfl, run_seq, hput, run_modRecs_entryPut]

theorem traceWrite_full {s : State} (hwait : logWaits s (stackOf s (tracePlace s)) = false) (hcool : hotRange s (tracePlace s) 32 = false)
    (hroom : traceNext s = rd s (.mod 3) Reg.MOD3.TRACE_TAIL) {x : Trace} {r : List Trace} (hq : s.recs.traceQ = x :: r) :
    exec .traceWrite s = .next ((addSat (.mod 3) Reg.MOD3.TRACE_GAPS 1).run { s with recs := { s.recs with
      traceQ := r, lost := s.recs.lost + 1, firstLost := if s.recs.lost = 0 then x.seq else s.recs.firstLost } }) := by
  have hfull : (traceNext s != rd s (.mod 3) Reg.MOD3.TRACE_TAIL) = false := bne_eq_false_iff_eq.mpr hroom
  rw [exec_traceWrite hwait hcool, hfull, Bool.false_and, hq]
  rfl

/-! ### The firmware log (R348) -/

/-- A sum of 64 bits written over two whole words reads back. -/
theorem rd64_wr64 {s : State} {pg : Page} {lo hi : Fld} (hlo : plain pg lo = true) (hhi : plain pg hi = true) (hne : lo.off ≠ hi.off)
    (hwl : lo.w = 32) (hwh : hi.w = 32) (hz : lo.lo = 0) {v : Nat} (hv : v < 2 ^ 64) : rd64 ((wr64 pg lo hi v).run s) pg lo hi = v := by
  unfold rd64 wr64
  rw [run_seq, rd_wr_other _ _ _ _ _ _ _ _ hhi hlo (.inr (.inl (by omega))), rd_wr_same _ _ _ _ _ hlo, rd_wr_same _ _ _ _ _ hhi, hwl, hwh, hz]
  omega

/-- LOG_COUNT, the sequence of the next entry. -/
def logCount (s : State) : Nat := rd64 s (.mod 3) Reg.MOD3.LOG_COUNT_LO Reg.MOD3.LOG_COUNT_HI

theorem logCount_congr {s t : State} (h : t.regs = s.regs) : logCount t = logCount s := rd64_congr h (by decide) (by decide)

theorem logPlace_congr {s t : State} (h : t.regs = s.regs) (c : Nat) : logPlace t c = logPlace s c := by
  unfold logPlace
  rw [rd64_congr h (by decide) (by decide), rd_congr h _ _ _ (by decide)]

/-- LOG_COUNT raised by 1. -/
def raiseLogCount (s : State) : State :=
  (wr64 (.mod 3) Reg.MOD3.LOG_COUNT_LO Reg.MOD3.LOG_COUNT_HI ((logCount s + 1) % 2 ^ 64)).run s

theorem logCount_raiseLogCount (s : State) : logCount (raiseLogCount s) = (logCount s + 1) % 2 ^ 64 := by
  have hv : (logCount s + 1) % 2 ^ 64 < 2 ^ 64 := Nat.mod_lt _ (by decide)
  unfold raiseLogCount
  generalize (logCount s + 1) % 2 ^ 64 = v at hv ⊢
  exact rd64_wr64 (by decide) (by decide) (by decide) rfl rfl rfl hv

theorem onlyRegs_raiseLogCount (s : State) :
    OnlyRegs s (raiseLogCount s) [fldAddr (.mod 3) Reg.MOD3.LOG_COUNT_LO 0, fldAddr (.mod 3) Reg.MOD3.LOG_COUNT_HI 0] := by
  unfold raiseLogCount wr64
  rw [run_seq]
  exact onlyRegs_trans (onlyRegs_wr s _ _ _ _ (.head _)) (onlyRegs_wr _ _ _ _ _ (.tail _ (.head _)))

/-- A log entry placed where no granule is open: its 64 bytes are written and LOG_COUNT rises. -/
theorem run_putLog {s : State} (h : NoneOpen s (logPlace s (logCount s)) 64) (body : List Byte) :
    ∃ q, (putLog body).run s = entryPut s (logPlace s (logCount s)) (leBytes 8 (logCount s) ++ padTo 56 0 body) q (raiseLogCount s).regs := by
  have hlen : (leBytes 8 (logCount s) ++ padTo 56 0 body).length = 64 := by simp only [List.length_append, leBytes_length, padTo_length]
  have hwrite := run_hbmWrite s (logPlace s (logCount s)) (leBytes 8 (logCount s) ++ padTo 56 0 body) fun i hi => h i (by omega)
  refine ⟨((hbmWrite (logPlace s (logCount s)) (leBytes 8 (logCount s) ++ padTo 56 0 body)).run s).mem.hbmPoison, ?_⟩
  unfold putLog
  rw [run_look]
  dsimp only
  rw [run_seq]
  unfold raiseLogCount logCount at hwrite ⊢
  rw [hwrite, run_wr64_besideMem]
  rfl

/-- The writing of a log entry: a copy of a record, or one of firmware's own of which the bytes are free. -/
def putLogItem : LogItem → Prog
  | .copy e => putLog (logBody e)
  | .own => withFreeBytes 56 putLog

theorem exec_logWrite {s : State} {i : LogItem} {r : List LogItem} (hq : s.recs.logQ = i :: r) (hruns : fwRuns s = true)
    (hready : s.sec.phase = .ready) (hcool : hotRange s (logPlace s (logCount s)) 64 = false) :
    exec .logWrite s = .next ((putLogItem i).run { s with recs := { s.recs with logQ := r } }) := by
  show done progLogWrite s = _
  unfold progLogWrite
  unfold logCount at hcool
  rw [done_eq, run_look]
  split
  · next hnil => exact absurd (hnil.symm.trans hq) (List.cons_ne_nil i r).symm
  · next j l hcons =>
    obtain ⟨rfl, rfl⟩ := List.cons.inj (hcons.symm.trans hq)
    rw [hruns, hready, hcool]
    cases j
    · rfl
    · rfl

/-- A log entry placed by firmware once its records changed, in terms of the state before. -/
theorem run_putLog_after {s u : State} (hregs : u.regs = s.regs) (hk : u.stk = s.stk) (h : NoneOpen s (logPlace s (logCount s)) 64) (body : List Byte) :
    ∃ q, (putLog body).run u = entryPut u (logPlace s (logCount s)) (leBytes 8 (logCount s) ++ padTo 56 0 body) q (raiseLogCount s).regs := by
  have hplace : logPlace u (logCount u) = logPlace s (logCount s) := by rw [logCount_congr hregs, logPlace_congr hregs]
  have hopen : NoneOpen u (logPlace u (logCount u)) 64 := fun i hi => by
    rw [hplace, openAt_congr (congrArg (·.granules) hk)]
    exact h i hi
  obtain ⟨q, hq⟩ := run_putLog hopen body
  refine ⟨q, ?_⟩
  unfold raiseLogCount at hq ⊢
  rw [hq, hplace, logCount_congr hregs, wr64_regs_congr hregs]

/-- A log item placed: the 56 bytes behind its sequence are the record's, where it is a copy of one. -/
theorem run_putLogItem {s u : State} (hregs : u.regs = s.regs) (hk : u.stk = s.stk) (h : NoneOpen s (logPlace s (logCount s)) 64) (i : LogItem) :
    ∃ n body q, (∀ e, i = .copy e → body = logBody e) ∧ (putLogItem i).run u = entryPut { u with freeCount := n } (logPlace s (logCount s))
      (leBytes 8 (logCount s) ++ padTo 56 0 body) q (raiseLogCount s).regs := by
  cases i with
  | copy e =>
    obtain ⟨q, hput⟩ := run_putLog_after hregs hk h (logBody e)
    exact ⟨u.freeCount, logBody e, q, fun e' he => by rw [LogItem.copy.inj he], hput⟩
  | own =>
    obtain ⟨q, hput⟩ := run_putLog_after (u := { u with freeCount := u.freeCount + (56 + 7) / 8 }) hregs hk h (freshBytes u 56)
    exact ⟨u.freeCount + (56 + 7) / 8, freshBytes u 56, q, (fun e' he => nomatch he), hput⟩

/-- A copied record's bytes behind the sequence: the entry, then the items beside its detail. -/
theorem logBody_length (e : Entry) : ((entryWords e).flatMap (leBytes 4)).length = 32 ∧
    ((padTo 6 0 (placeItems 6 (placeItems 4 e.frec.items).2).1).flatMap (leBytes 4)).length = 24 := by
  rw [flatMap_leBytes_length, flatMap_leBytes_length, entryWords_length, padTo_length]
  exact ⟨rfl, rfl⟩

/-- A copied record read back: the entry in bytes 8 to 39, the items beside its detail in bytes 40 to 63. -/
theorem logBody_placed (m : SMap Byte) (a c : Nat) (e : Entry) :
    let l := smSetList byteDefault m a (leBytes 8 c ++ padTo 56 0 (logBody e))
    smList byteDefault l (a + 8) 32 = (entryWords e).flatMap (leBytes 4) ∧
      smList byteDefault l (a + 40) 24 = (padTo 6 0 (placeItems 6 (placeItems 4 e.frec.items).2).1).flatMap (leBytes 4) := by
  obtain ⟨hentry, hitems⟩ := logBody_length e
  have hbody : (logBody e).length = 56 := by rw [logBody, List.length_append, hentry, hitems]
  have hfirst := smList_setList_part m a (leBytes 8 c) ((entryWords e).flatMap (leBytes 4))
    ((padTo 6 0 (placeItems 6 (placeItems 4 e.frec.items).2).1).flatMap (leBytes 4))
  have hsecond := smList_setList_part m a (leBytes 8 c ++ (entryWords e).flatMap (leBytes 4))
    ((padTo 6 0 (placeItems 6 (placeItems 4 e.frec.items).2).1).flatMap (leBytes 4)) []
  rw [hentry, leBytes_length] at hfirst
  rw [hitems, List.append_nil, List.length_append, leBytes_length, hentry] at hsecond
  rw [padTo_self hbody, logBody, ← List.append_assoc]
  exact ⟨hfirst, hsecond⟩

/-- Settles O13: each clause is the entry that the unit places, read back from HBM. -/
theorem tracesAndLogWritten : Obligations.TracesAndLogWritten := by
  unfold Obligations.TracesAndLogWritten
  refine ⟨fun s => ?_, fun s i r => ?_⟩
  · intro h a hwait hcool
    refine ⟨fun hroom hopen hlost x r hq => ?_, fun hroom hopen hlost => ?_, fun hroom x r hq => ?_⟩
    · obtain ⟨n, d, q, hexec⟩ := traceWrite_oldest hwait hcool hroom hopen hlost hq
      obtain ⟨hfront, -, hhead, hbytes, hregs⟩ := trace_placed (s := s)
        (u := { s with recs := { s.recs with traceQ := r }, freeCount := n }) (x := x) (d := d) (q := q) rfl rfl
      exact ⟨_, hexec, hfront, hhead, hbytes, entryPut_eq _ _ _ _ _, hregs⟩
    · obtain ⟨q, hexec⟩ := traceWrite_gap hwait hcool hroom hopen hlost
      obtain ⟨-, hwhole, hhead, hbytes, hregs⟩ := trace_placed (s := s)
        (u := { s with recs := { s.recs with traceSeq := s.recs.traceSeq + 1, lost := 0, firstLost := 0 } })
        (x := { kind := 0, island := 852, seq := s.recs.traceSeq }) (d := leBytes 4 s.recs.lost ++ leBytes 4 s.recs.firstLost) (q := q) rfl rfl
      exact ⟨_, hexec, hwhole.trans (gapTrace_bytes _ _ _), hhead, hbytes, entryPut_eq _ _ _ _ _, hregs⟩
    · refine ⟨_, traceWrite_full hwait hcool hroom hq, ?_, ?_, ?_⟩
      · rw [rd_addSat (by decide), rd_congr (s := s) rfl _ _ _ (by decide)]
        exact satBits_eq_min _
      · exact (only_addSat (K := [.reg])).regs_only _
      · intro b hb
        exact writes_addSat (A := (· ∈ [fldAddr (.mod 3) Reg.MOD3.TRACE_GAPS 0])) (.head _) b hb _
  · intro c a hq hruns hready hcool hopen
    obtain ⟨n, body, q, hbody, hput⟩ := run_putLogItem (u := { s with recs := { s.recs with logQ := r } }) rfl rfl hopen i
    have hlen : (leBytes 8 c ++ padTo 56 0 body).length = 64 := by simp only [List.length_append, leBytes_length, padTo_length]
    refine ⟨_, (exec_logWrite hq hruns hready hcool).trans (congrArg Host.Outcome.next hput), smList_setList_front _ _ (leBytes 8 c) _,
      fun e he => ?_, ?_, fun b hb => ?_, entryPut_eq _ _ _ _ _, (onlyRegs_raiseLogCount s).2⟩
    · rw [hbody e he]
      exact logBody_placed _ _ _ e
    · exact (logCount_congr rfl).trans (logCount_raiseLogCount s)
    · exact hbmByte_entryPut_out (hlen.symm ▸ hb) _ _

end Sys2Proof.Machine
end

section
/-! Words of a stack read and written under their code (R222, R223, R226), the records that such a read makes, and the obligation on stack words. -/

namespace Sys2Proof.Machine

open Sys2Proof

set_option Elab.async false

/-! ### Records that stay -/

/-- A record of a code waits at its island, or was dropped there behind two that wait: no later record takes either back. -/
def Recorded (island code : Nat) (s : State) : Prop :=
  (∃ x ∈ (srcQueue s island).recs, x.1.code = code) ∨ (2 ≤ (srcQueue s island).recs.length ∧ 0 < (srcQueue s island).dropped)

theorem Recorded.hasRecord {island code : Nat} {s : State} (h : Recorded island code s) : HasRecord s island code := h.imp_right And.right

theorem preserves_recorded_of_keeps {p : Prog} {island : Nat} (h : Keeps (fun s => srcQueue s island) p) (code : Nat) :
    Preserves (Recorded island code) p := fun s hs => by
  unfold Recorded
  rw [show srcQueue (p.run s) island = srcQueue s island from h s]
  exact hs

/-- The queue of an island once a record has come to it. -/
theorem srcQueue_enqueueRecord (r : FaultRec) (s : State) : srcQueue ((enqueueRecord r).run s) r.island =
    let q := srcQueue s r.island
    if q.recs.length < 2 then { recs := q.recs ++ [(r, min 255 q.dropped)], dropped := 0 } else { q with dropped := q.dropped + 1 } := by
  unfold enqueueRecord srcQueue
  rw [run_look]
  dsimp only
  split
  · exact smGet_set_same _ _ _ _
  · rw [run_seq, Only.recs (only_addSat (K := [.reg]))]
    exact smGet_set_same _ _ _ _

theorem recorded_enqueueRecord (r : FaultRec) (s : State) : Recorded r.island r.code ((enqueueRecord r).run s) := by
  unfold Recorded
  rw [srcQueue_enqueueRecord]
  dsimp only
  split
  · exact .inl ⟨_, List.mem_append_right _ (List.mem_singleton.mpr rfl), rfl⟩
  · next h => exact .inr ⟨Nat.le_of_not_lt h, Nat.succ_pos _⟩

theorem preserves_recorded_enqueueRecord (r : FaultRec) (island code : Nat) : Preserves (Recorded island code) (enqueueRecord r) := by
  by_cases hi : island = r.island
  · subst hi
    intro s hs
    unfold Recorded at hs ⊢
    rw [srcQueue_enqueueRecord]
    dsimp only
    split
    · next h =>
      obtain ⟨x, hx, hc⟩ | ⟨hl, -⟩ := hs
      · exact .inl ⟨x, List.mem_append_left _ hx, hc⟩
      · omega
    · next h => exact hs.imp_right fun _ => ⟨Nat.le_of_not_lt h, Nat.succ_pos _⟩
  · exact preserves_recorded_of_keeps (keeps_srcQueue_enqueueRecord hi) code

/-- What follows a record's arrival leaves the queues alone. -/
theorem keeps_srcQueue_raised (i code island u : Nat) : Keeps (fun s => srcQueue s island)
    (progs [alarm i (codeClass code), whenP (rungCodes.contains code) (trace 5 i), (fun _ => Prog.skip) u]) :=
  keeps_cons _ (keeps_srcQueue_modRecs island fun _ => rfl) (keeps_cons _ (keeps_whenP _ _ (keeps_srcQueue_trace island 5 i))
    (keeps_cons _ (keeps_skip _) (keeps_nil _)))

theorem recorded_raise (code island iter leg unit : Nat) (items : List Item) (s : State) :
    Recorded island code ((raise code island iter leg unit items).run s) := by
  unfold raise
  rw [run_raiseSev]
  exact preserves_recorded_of_keeps (keeps_srcQueue_raised island code island s.recs.nextUid) code _
    (recorded_enqueueRecord (madeRec (severityOf code) code island iter leg unit items s.recs.nextUid) _)

/-- A record that stands stays, whatever other records are made. -/
theorem preserves_recorded_raise (island code code' i iter leg unit : Nat) (items : List Item) :
    Preserves (Recorded island code) (raise code' i iter leg unit items) := fun s hs => by
  unfold raise
  rw [run_raiseSev]
  exact preserves_recorded_of_keeps (keeps_srcQueue_raised i code' island s.recs.nextUid) code _ (preserves_recorded_enqueueRecord _ _ _ _
    (preserves_recorded_of_keeps (keeps_srcQueue_modRecs island fun _ => rfl) code _ hs))

theorem Only.preserves_recorded {K : List Kind} {p : Prog} (h : Only K p) (island code : Nat) (hk : Kind.recs ∉ K := by decide) :
    Preserves (Recorded island code) p := preserves_recorded_of_keeps (h.srcQueue island hk) code

/-! ### Poison of a word -/

theorem hbmPoisoned_congr {s t : State} (hk : t.stk.granules = s.stk.granules) (hm : t.mem.hbmPoison = s.mem.hbmPoison) (a : Nat) :
    hbmPoisoned t a = hbmPoisoned s a := by
  unfold hbmPoisoned
  rw [openAt_congr hk, hm]

/-- Outside the open granules a word is poisoned as its mark says. -/
theorem hbmPoisoned_closed {s : State} {a : Nat} (h : openAt s a = none) : hbmPoisoned s a = smGet flagDefault s.mem.hbmPoison (a / 64) := by
  unfold hbmPoisoned
  rw [h]

/-! ### Writes of a word -/

/-- A word found as it was written needs no correction. -/
theorem run_readWordEcc_good (a source island : Nat) (pass : Option Nat) (s : State) : (readWordEcc a source island 0 pass).run s = s := by
  unfold readWordEcc
  rw [run_look, run_whenP]
  split
  · rfl
  · rfl

theorem run_hbmWordWrite_closed {s : State} {a : Nat} (h : openAt s a = none) (l : List Byte) (poison : Bool) :
    (hbmWordWrite a l poison).run s = { s with mem := { s.mem with
      hbm := smSetList byteDefault s.mem.hbm a l
      hbmPoison := if l.length == 64 || poison then smSet flagDefault s.mem.hbmPoison (a / 64) poison else s.mem.hbmPoison } } := by
  unfold hbmWordWrite
  rw [run_look, h]
  dsimp only
  rw [run_seq, run_prim, run_whenP]
  split
  · rfl
  · rfl

theorem exec_hbmAccess_write {s : State} {addr : Nat} {data : List Byte} (hin : addr < hbmBytes s) (hadm : admits s (stackOf s addr) = true)
    (hne : data ≠ []) (hfit : addr % 64 + data.length ≤ 64) (island source : Nat) :
    exec (.hbmAccess addr true data island source 0) s = .next ((hbmWordWrite addr data false).run s) := by
  have hempty : data.isEmpty = false := List.isEmpty_eq_false_iff.mpr hne
  show done (progHbmAccess addr true data island source 0) s = _
  unfold progHbmAccess
  rw [done_eq, run_look]
  dsimp only
  rw [decide_eq_true hin, hadm, decide_eq_true hfit, hempty]
  rw [Bool.and_self, run_whenP_true, if_pos rfl, Bool.not_false, Bool.and_self, run_whenP_true, run_seq, run_whenP, run_readWordEcc_good, ite_self]

/-- A write within a word that no granule holds open leaves its bytes, and clears the word's poison only when it writes all of it. -/
theorem hbmWordWrite_spec {s : State} {addr : Nat} {data : List Byte} (hclosed : openAt s addr = none) (hfit : addr % 64 + data.length ≤ 64) :
    let t := (hbmWordWrite addr data false).run s
    (∀ i, i < data.length → hbmByte t (addr + i) = nth data i 0) ∧ (∀ a, a < addr ∨ addr + data.length ≤ a → hbmByte t a = hbmByte s a) ∧
      hbmPoisoned t addr = (if data.length = 64 then false else hbmPoisoned s addr) ∧
      t = { s with mem := { s.mem with hbm := t.mem.hbm, hbmPoison := t.mem.hbmPoison } } := by
  intro t
  have ht : t = _ := run_hbmWordWrite_closed hclosed data false
  have hopen : NoneOpen s addr data.length := fun i hi => (openAt_word (by omega)).trans hclosed
  obtain ⟨hin, hout⟩ := writesBytes_hbm (s := s) (t := t) hopen (by rw [ht]) (by rw [ht])
  refine ⟨hin, hout, ?_, by rw [ht]⟩
  have hclosed' : openAt t addr = none := by rw [ht]; exact hclosed
  rw [hbmPoisoned_closed hclosed', hbmPoisoned_closed hclosed, ht]
  dsimp only
  rw [Bool.or_false]
  by_cases h : data.length = 64
  · rw [if_pos h, if_pos (beq_iff_eq.mpr h), smGet_set_same]
  · rw [if_neg h, if_neg fun c => h (beq_iff_eq.mp c)]

/-! ### Reads of a word -/

theorem exec_hbmAccess_read {s : State} {addr : Nat} (hin : addr < hbmBytes s) (hadm : admits s (stackOf s addr) = true) (data : List Byte)
    (island source err : Nat) : exec (.hbmAccess addr false data island source err) s =
      .next ((deliverPoison addr 1).run ((readWordEcc addr (source % 2) island err none).run s)) := by
  show done (progHbmAccess addr false data island source err) s = _
  unfold progHbmAccess
  rw [done_eq, run_look]
  dsimp only
  rw [decide_eq_true hin, hadm]
  rfl

section
variable {s : State} {a : Nat} (hclosed : openAt s a = none) (hclean : hbmPoisoned s a = false)
include hclosed hclean

theorem run_readWordEcc_corrected {err : Nat} (h1 : 1 ≤ err) (h2 : err ≤ 2) (source island : Nat) (pass : Option Nat) :
    (readWordEcc a source island err pass).run s = (correctedWord (stackOf s a) a pass).run s := by
  unfold readWordEcc withWrong
  rw [run_look, hclosed, hclean]
  dsimp only
  rw [if_pos (Nat.le_trans h2 (by decide)), if_neg (Nat.one_le_iff_ne_zero.mp h1), if_pos h2]
  rfl

theorem run_readWordEcc_uncorrectable {err : Nat} (h3 : 3 ≤ err) (h6 : err ≤ 6) (source island : Nat) (pass : Option Nat) :
    (readWordEcc a source island err pass).run s = (uncorrectableWord (stackOf s a) a source island).run s := by
  unfold readWordEcc withWrong
  rw [run_look, hclosed, hclean]
  dsimp only
  rw [if_pos h6, if_neg fun e : err = 0 => absurd (e ▸ h3) (by decide), if_neg (Nat.not_le.mpr h3)]
  rfl

end

/-! ### A corrected word (R222, R226) -/

/-- The state with other registers, another repair list and other errors remembered in the place of its own. -/
def besideRows (s : State) (r : SMap Word) (l : List (Nat × Nat)) (w : List (Nat × Nat × Option Nat)) : State :=
  { s with regs := r, stk := { s.stk with repairList := l, rowSeen := w } }

theorem only_listRow {K : List Kind} {st a : Nat} (h : Kind.stk ∈ K := by decide) : Only K (listRow st a) := only_modStk h

theorem keeps_besideRows_regs {p : Prog} (h : Only [.reg] p) : Keeps besideRows p := fun s => by rw [h.regs_only]; rfl

theorem keeps_besideRows_modStk {f : StkSt → StkSt} (h : ∀ k l w, { f k with repairList := l, rowSeen := w } = { k with repairList := l, rowSeen := w }) :
    Keeps besideRows (modStk f) := fun s => by
  funext r l w
  exact congrArg (fun k => ({ s with regs := r, stk := k } : State)) (h s.stk l w)

theorem keeps_besideRows_correctedWord (st a : Nat) (pass : Option Nat) : Keeps besideRows (correctedWord st a pass) := by
  refine keeps_look _ fun s => keeps_cons _ (keeps_besideRows_regs only_wr) (keeps_cons _ (keeps_besideRows_regs only_addSat)
    (keeps_cons _ (keeps_whenP _ _ (keeps_besideRows_modStk fun k l w => ?_)) (keeps_cons _ (keeps_besideRows_modStk fun k l w => ?_) (keeps_nil _))))
  · split
    · rfl
    · rfl
  · split
    · rfl
    · rfl

theorem writes_correctedWord (st a : Nat) (pass : Option Nat) :
    Writes (· ∈ [fldAddr (.stk st) Reg.STK.ECC_STATUS_CE 0, fldAddr (.stk st) Reg.STK.CE_COUNT 0]) (correctedWord st a pass) :=
  writes_look fun _ => writes_cons (writes_wr (.head _)) (writes_cons (writes_addSat (.tail _ (.head _)))
    (writes_cons (writes_whenP fun _ => (only_listRow (K := [.stk])).writes) (writes_cons (only_modStk (K := [.stk])).writes writes_nil)))

theorem regs_correctedWord (s : State) (st a : Nat) (pass : Option Nat) : ((correctedWord st a pass).run s).regs =
    ((addSat (.stk st) Reg.STK.CE_COUNT 1).run ((wr (.stk st) Reg.STK.ECC_STATUS_CE 1).run s)).regs := by
  unfold correctedWord
  rw [run_look, run_progs_cons, run_progs_cons]
  exact (only_cons (only_whenP only_listRow) (only_cons only_modStk only_nil) : Only [.stk] _).regs

/-- A corrected word is counted, and changes nothing beside its stack's marks and the rows remembered. -/
theorem correctedWord_spec (s : State) (st : Fin 12) (a : Nat) (pass : Option Nat) :
    let t := (correctedWord st a pass).run s
    rd t (.stk st) Reg.STK.ECC_STATUS_CE = 1 ∧ rd t (.stk st) Reg.STK.CE_COUNT = min (2 ^ 32 - 1) (rd s (.stk st) Reg.STK.CE_COUNT + 1) ∧
      t = { s with regs := t.regs, stk := { s.stk with repairList := t.stk.repairList, rowSeen := t.stk.rowSeen } } ∧
      RegsKept s t [fldAddr (.stk st) Reg.STK.ECC_STATUS_CE 0, fldAddr (.stk st) Reg.STK.CE_COUNT 0] := by
  intro t
  have hce : plain (.stk st) Reg.STK.ECC_STATUS_CE = true := plain_stk st
  have hcount : plain (.stk st) Reg.STK.CE_COUNT = true := plain_stk st
  have hregs : t.regs = _ := regs_correctedWord s st a pass
  refine ⟨?_, ?_, ?_, fun b hb => writes_correctedWord st a pass b hb s⟩
  · rw [rd_congr hregs _ _ _ hce]
    refine ((writes_addSat (A := (· = fldAddr (.stk st) Reg.STK.CE_COUNT 0)) rfl).rd ?_ hce _).trans (rd_wr_same _ _ _ _ _ hce)
    exact fldAddr_ne_off _ _ _ _ _ _ (by decide) (by decide) (by decide)
  · rw [rd_congr hregs _ _ _ hcount, rd_addSat hcount, rd_wr_other _ _ _ _ _ _ _ _ hce hcount (.inr (.inl (by decide)))]
    exact satBits_eq_min _
  · exact (congrFun (congrFun (congrFun (keeps_besideRows_correctedWord st a pass s) t.regs) t.stk.repairList) t.stk.rowSeen)

/-! ### An uncorrectable word (R223, R226, R338) -/

/-- The words below the pages of the stacks, among them those that records and the mirror interval write. -/
def belowStacks (a : Nat) : Prop := a < 0x4000

theorem belowStacks_of_recordWords (a : Nat) (h : recordWords a) : belowStacks a := by
  unfold belowStacks
  unfold recordWords at h
  omega

theorem not_belowStacks_stk (st : Nat) (f : Fld) (i : Nat) : ¬ belowStacks (fldAddr (.stk st) f i) := by
  unfold belowStacks
  simp only [fldAddr, pageBase]
  omega

theorem writes_mirEvent : Writes belowStacks mirEvent :=
  writes_seq (writes_addSat (show _ < _ by decide)) (writes_look fun _ => writes_seq (only_prim (List.mem_singleton.mpr rfl) : Only [.free] _).writes
    (writes_look fun _ => writes_seq (only_modFw (K := [.fw])).writes (writes_wr (show _ < _ by decide))))

theorem only_markRetire (st : Nat) : Only [.stk, .reg, .recs, .fw, .free] (markRetire st) :=
  only_look fun _ => only_whenP (only_cons only_modStk (only_cons only_raise (only_cons only_mirEvent (only_cons only_logOwn only_nil))))

theorem writes_markRetire (st : Nat) : Writes belowStacks (markRetire st) :=
  writes_look fun _ => writes_whenP fun _ => writes_cons (only_modStk (K := [.stk])).writes
    (writes_cons ((writes_raise _ _ _ _ _ _).mono belowStacks_of_recordWords) (writes_cons writes_mirEvent
      (writes_cons (only_logOwn (K := [.recs])).writes writes_nil)))

theorem preserves_recorded_markRetire (island code st : Nat) : Preserves (Recorded island code) (markRetire st) :=
  preserves_look fun _ => preserves_whenP (preserves_cons ((only_modStk (K := [.stk])).preserves_recorded _ _)
    (preserves_cons (preserves_recorded_raise _ _ _ _ _ _ _ _) (preserves_cons ((only_mirEvent (K := [.reg, .fw, .free])).preserves_recorded _ _)
      (preserves_cons (preserves_recorded_of_keeps (keeps_srcQueue_modRecs island fun _ => rfl) code) preserves_nil))))

section
variable {γ : Type} (π : StkSt → γ)

theorem Only.keeps_stk {K : List Kind} {p : Prog} (h : Only K p) (hk : Kind.stk ∉ K := by decide) : Keeps (fun s => π s.stk) p := fun _ =>
  congrArg π (h.stk hk)

theorem keeps_stk_modStk {f : StkSt → StkSt} (h : ∀ k, π (f k) = π k) : Keeps (fun s => π s.stk) (modStk f) := fun s => h s.stk

/-- A stack marked for retirement keeps what its mark is not part of. -/
theorem keeps_stk_markRetire (h : ∀ k m, π { k with retireMark := m } = π k) (st : Nat) : Keeps (fun s => π s.stk) (markRetire st) :=
  keeps_look _ fun _ => keeps_whenP _ _ (keeps_cons _ (keeps_stk_modStk π fun k => h k _) (keeps_cons _ ((only_raise (K := [.reg, .recs])).keeps_stk π)
    (keeps_cons _ ((only_mirEvent (K := [.reg, .fw, .free])).keeps_stk π) (keeps_cons _ ((only_logOwn (K := [.recs])).keeps_stk π) (keeps_nil _)))))

end

/-- A row is in the repair list. -/
def RowListed (row : Nat) (l : List (Nat × Nat)) : Prop := ∃ x ∈ l, x.2 = row

/-- A row listed is in the list, and no other part of its stack's state changes. -/
theorem run_listRow (s : State) (st a : Nat) : RowListed (a / 1024) ((listRow st a).run s).stk.repairList ∧
    ((listRow st a).run s).stk = { s.stk with repairList := ((listRow st a).run s).stk.repairList } := by
  unfold listRow RowListed rowKey
  rw [run_modStk, apply_stk]
  dsimp only
  split
  · next h =>
    obtain ⟨x, hx, he⟩ := List.any_eq_true.mp h
    exact ⟨⟨x, hx, beq_iff_eq.mp he⟩, rfl⟩
  · exact ⟨⟨_, List.mem_append_right _ (List.mem_singleton.mpr rfl), rfl⟩, rfl⟩

/-- The status words that the first uncorrectable word of a stack fills. -/
def firstUncorrectable (st a source island : Nat) : Prog := progs [
  wr (.stk st) Reg.STK.ECC_STATUS_UE 1, wr (.stk st) Reg.STK.UE_ADDR_LO (a / 64 * 64 / 64), wr (.stk st) Reg.STK.UE_ADDR_HI (a / 64 * 64 / 2 ^ 32),
  wr (.stk st) Reg.STK.UE_SOURCE_SOURCE source, wr (.stk st) Reg.STK.UE_SOURCE_ISLAND island]

/-- What follows the count of an uncorrectable word: its status where it is the stack's first, its record, its row, and a stack marked for retirement. -/
def uncorrectableRest (first retire : Bool) (n st a source island : Nat) : Prog := progs [
  whenP first (firstUncorrectable st a source island),
  raise Code.MEM_UE (832 + st) 0 noLeg st [w64 (a / 64 * 64), w32 source, w32 island],
  modStk fun k => { k with periodUes := smSet zeroDefault k.periodUes st n },
  listRow st a, whenP retire (markRetire st)]

theorem run_uncorrectableWord (st a source island : Nat) (s : State) : ∃ first retire n, (uncorrectableWord st a source island).run s =
    (uncorrectableRest first retire n st a source island).run
      ((addSat (.stk st) Reg.STK.UE_COUNT 1).run ((Act.flag .hbmPoison (a / 64) true).apply s)) := by
  refine ⟨rd s (.stk st) Reg.STK.ECC_STATUS_UE == 0,
    rd s (.stk st) Reg.STK.ECC_STATUS_NO_SPARE_ROW == 1 || smGet flagDefault s.stk.noSpare st || decide (64 < smGet zeroDefault s.stk.periodUes st + 1),
    smGet zeroDefault s.stk.periodUes st + 1, ?_⟩
  unfold uncorrectableWord uncorrectableRest firstUncorrectable
  rw [run_look, run_progs_cons, run_progs_cons, run_prim]

theorem only_firstUncorrectable (st a source island : Nat) : Only [.reg] (firstUncorrectable st a source island) :=
  only_cons only_wr (only_cons only_wr (only_cons only_wr (only_cons only_wr (only_cons only_wr only_nil))))

theorem only_uncorrectableRest (first retire : Bool) (n st a source island : Nat) :
    Only [.stk, .reg, .recs, .fw, .free] (uncorrectableRest first retire n st a source island) :=
  only_cons (only_whenP ((only_firstUncorrectable _ _ _ _).mono (by decide))) (only_cons only_raise (only_cons only_modStk
    (only_cons only_listRow (only_cons (only_whenP (only_markRetire st)) only_nil))))

/-- No part of the rest writes the count. -/
theorem writes_uncorrectableRest (first retire : Bool) (n : Nat) (st : Fin 12) (a source island : Nat) :
    Writes (· ≠ fldAddr (.stk st) Reg.STK.UE_COUNT 0) (uncorrectableRest first retire n st a source island) := by
  have hother {f : Fld} {v : Nat} (ho : f.off + f.stride * 0 < 4096) (hne : f.off + f.stride * 0 ≠ Reg.STK.UE_COUNT.off + Reg.STK.UE_COUNT.stride * 0) :
      Writes (· ≠ fldAddr (.stk st) Reg.STK.UE_COUNT 0) (wr (.stk st) f v) := writes_wr (fldAddr_ne_off _ _ _ _ _ _ ho (by decide) hne)
  have hbelow {b : Nat} (h : belowStacks b) : b ≠ fldAddr (.stk st) Reg.STK.UE_COUNT 0 := fun e => not_belowStacks_stk _ _ _ (e ▸ h)
  refine writes_cons (writes_whenP fun _ => ?_) (writes_cons ((writes_raise _ _ _ _ _ _).mono fun b hb => hbelow (belowStacks_of_recordWords b hb))
    (writes_cons (only_modStk (K := [.stk])).writes (writes_cons (only_listRow (K := [.stk])).writes
      (writes_cons (writes_whenP fun _ => (writes_markRetire st).mono fun b hb => hbelow hb) writes_nil))))
  exact writes_cons (hother (by decide) (by decide)) (writes_cons (hother (by decide) (by decide)) (writes_cons (hother (by decide) (by decide))
    (writes_cons (hother (by decide) (by decide)) (writes_cons (hother (by decide) (by decide)) writes_nil))))

/-- The rest lists the word's row, and leaves the granules and the stack retired alone. -/
theorem stk_uncorrectableRest (first retire : Bool) (n st a source island : Nat) (s : State) :
    let t := (uncorrectableRest first retire n st a source island).run s
    RowListed (a / 1024) t.stk.repairList ∧ t.stk.granules = s.stk.granules ∧ t.stk.retired = s.stk.retired := by
  intro t
  have hfront : Only [.reg, .recs] (progs [whenP first (firstUncorrectable st a source island),
      raise Code.MEM_UE (832 + st) 0 noLeg st [w64 (a / 64 * 64), w32 source, w32 island]]) :=
    only_cons (only_whenP ((only_firstUncorrectable _ _ _ _).mono (by decide))) (only_cons only_raise only_nil)
  have hstk := hfront.stk (s := s)
  generalize hu : (progs [whenP first (firstUncorrectable st a source island),
      raise Code.MEM_UE (832 + st) 0 noLeg st [w64 (a / 64 * 64), w32 source, w32 island]]).run s = u at hstk
  obtain ⟨hrow, hlist⟩ := run_listRow ((modStk fun k => { k with periodUes := smSet zeroDefault k.periodUes st n }).run u) st a
  have ht : t = (whenP retire (markRetire st)).run ((listRow st a).run
      ((modStk fun k => { k with periodUes := smSet zeroDefault k.periodUes st n }).run u)) := by
    rw [← hu]
    rfl
  have hretire {γ : Type} (π : StkSt → γ) (h : ∀ k m, π { k with retireMark := m } = π k) (v : State) :
      π ((whenP retire (markRetire st)).run v).stk = π v.stk := keeps_whenP _ retire (keeps_stk_markRetire π h st) v
  refine ⟨?_, ?_, ?_⟩
  · rw [ht, hretire (·.repairList) fun _ _ => rfl]
    exact hrow
  · rw [ht, hretire (·.granules) fun _ _ => rfl, hlist, ← hstk]
    rfl
  · rw [ht, hretire (·.retired) fun _ _ => rfl, hlist, ← hstk]
    rfl

/-- The rest leaves the word's record. -/
theorem recorded_uncorrectableRest (first retire : Bool) (n st a source island : Nat) (s : State) :
    Recorded (832 + st) Code.MEM_UE ((uncorrectableRest first retire n st a source island).run s) := by
  unfold uncorrectableRest
  rw [run_progs_cons, run_progs_cons]
  exact preserves_cons ((only_modStk (K := [.stk])).preserves_recorded _ _) (preserves_cons ((only_listRow (K := [.stk])).preserves_recorded _ _)
    (preserves_cons (preserves_whenP (preserves_recorded_markRetire _ _ st)) preserves_nil)) _ (recorded_raise _ _ _ _ _ _ _)

/-- An uncorrectable word is left poisoned, counted and recorded, and its row is listed. -/
theorem uncorrectableWord_spec (st : Fin 12) (a source island : Nat) (s : State) :
    let t := (uncorrectableWord st a source island).run s
    smGet flagDefault t.mem.hbmPoison (a / 64) = true ∧ rd t (.stk st) Reg.STK.UE_COUNT = min (2 ^ 32 - 1) (rd s (.stk st) Reg.STK.UE_COUNT + 1) ∧
      Recorded (832 + st) Code.MEM_UE t ∧ RowListed (a / 1024) t.stk.repairList ∧ t.mem.hbm = s.mem.hbm ∧ t.stk.granules = s.stk.granules ∧
        t.stk.retired = s.stk.retired := by
  intro t
  have hcount : plain (.stk st) Reg.STK.UE_COUNT = true := plain_stk st
  obtain ⟨first, retire, n, ht⟩ := run_uncorrectableWord st a source island s
  obtain ⟨hrow, hopen, hretired⟩ := stk_uncorrectableRest first retire n st a source island
    ((addSat (.stk st) Reg.STK.UE_COUNT 1).run ((Act.flag .hbmPoison (a / 64) true).apply s))
  have hadd : Only [.reg] (addSat (.stk st) Reg.STK.UE_COUNT 1) := only_addSat
  have hmem : t.mem = ((Act.flag .hbmPoison (a / 64) true).apply s).mem := by
    rw [show t = _ from ht, (only_uncorrectableRest first retire n st a source island).mem, hadd.mem]
  refine ⟨?_, ?_, ?_, ?_, ?_, ?_, ?_⟩
  · rw [hmem]
    exact smGet_set_same flagDefault s.mem.hbmPoison (a / 64) true
  · rw [show t = _ from ht, (writes_uncorrectableRest first retire n st a source island).rd (fun h => h rfl) hcount, rd_addSat hcount]
    exact satBits_eq_min _
  · rw [show t = _ from ht]
    exact recorded_uncorrectableRest first retire n st a source island _
  · rw [show t = _ from ht]
    exact hrow
  · rw [hmem]
    rfl
  · rw [show t = _ from ht, hopen, hadd.stk]
    rfl
  · rw [show t = _ from ht, hretired, hadd.stk]
    rfl

/-! ### Poison delivered -/

/-- A poisoned word read is delivered as poison: its stack's status says so. -/
theorem run_deliverPoison_one {s : State} {a : Nat} (hmark : s.mem.hbmPoison ≠ []) (h : hbmPoisoned s a = true) : (deliverPoison a 1).run s =
    (addSat (.stk (stackOf s a)) Reg.STK.POISON_COUNT 1).run ((wr (.stk (stackOf s a)) Reg.STK.ECC_STATUS_POISON_READ 1).run s) := by
  have hword : hbmPoisoned s (a / 64 * 64) = true := (hbmPoisoned_word (by omega)).trans h
  have hwords : (List.range ((a + 1 - 1) / 64 - a / 64 + 1)).map (a / 64 + ·) = [a / 64] := by
    rw [show (a + 1 - 1) / 64 - a / 64 + 1 = 1 by omega]
    rfl
  have hsome : (!(s.mem.hbmPoison.isEmpty && s.stk.granules.isEmpty)) = true := by rw [List.isEmpty_eq_false_iff.mpr hmark]; rfl
  unfold deliverPoison
  rw [run_look]
  dsimp only
  rw [if_neg Nat.one_ne_zero, hwords, hsome, run_whenP_true, List.filter_cons_of_pos (p := fun w => hbmPoisoned s (w * 64)) hword,
    List.filter_nil, run_forEach_cons, run_forEach_nil, run_seq, stackOf_granule]

/-- What the delivery of a poisoned word leaves: the stack's status, and beside it nothing but the stack's count. -/
theorem deliverPoison_one_spec {s : State} {a : Nat} (hmark : s.mem.hbmPoison ≠ []) (h : hbmPoisoned s a = true) :
    rd ((deliverPoison a 1).run s) (.stk (stackOf s a)) Reg.STK.ECC_STATUS_POISON_READ = 1 ∧
      rd ((deliverPoison a 1).run s) (.stk (stackOf s a)) Reg.STK.UE_COUNT = rd s (.stk (stackOf s a)) Reg.STK.UE_COUNT := by
  have hplain {f : Fld} (hf : (List.range 12).all (fun k => plain (.stk k) f) = true) : plain (.stk (stackOf s a)) f = true :=
    plain_stk ⟨stackOf s a, stackOf_lt s a⟩ hf
  have hread := hplain (f := Reg.STK.ECC_STATUS_POISON_READ) (by decide)
  have hue := hplain (f := Reg.STK.UE_COUNT) (by decide)
  have hcount : Writes (· = fldAddr (.stk (stackOf s a)) Reg.STK.POISON_COUNT 0) (addSat (.stk (stackOf s a)) Reg.STK.POISON_COUNT 1) := writes_addSat rfl
  rw [run_deliverPoison_one hmark h]
  constructor
  · rw [hcount.rd (fldAddr_ne_off _ _ _ _ _ _ (by decide) (by decide) (by decide)) hread, rd_wr_same _ _ _ _ _ hread]
    rfl
  · rw [hcount.rd (fldAddr_ne_off _ _ _ _ _ _ (by decide) (by decide) (by decide)) hue,
      rd_wr_other _ _ _ _ _ _ _ _ hread hue (.inr (.inl (by decide)))]

/-- A mark that reads as set is among the marks. -/
theorem ne_nil_of_marked {m : SMap Bool} {k : Nat} (h : smGet flagDefault m k = true) : m ≠ [] := fun e => by
  rw [e] at h
  exact Bool.false_ne_true h

theorem stackOf_congr {s t : State} (h : t.stk.retired = s.stk.retired) (a : Nat) : stackOf t a = stackOf s a := by
  unfold stackOf activeStacks
  rw [h]

/-- Settles O28: a write is the one of its word, a read the one of its code, and poison is delivered where the word is left poisoned. -/
theorem stackWordsAccessed : Obligations.StackWordsAccessed := by
  unfold Obligations.StackWordsAccessed
  intro s addr island source data hin hadm hclosed st
  have hst : st < 12 := stackOf_lt s addr
  refine ⟨fun hne hfit => ?_, fun err hclean h1 h2 => ?_, fun err hclean h3 h6 => ?_⟩
  · obtain ⟨hbytes, hout, hpoison, hframe⟩ := hbmWordWrite_spec (data := data) hclosed hfit
    exact ⟨_, exec_hbmAccess_write hin hadm hne hfit island source, hbytes, hout, hpoison, hframe⟩
  · obtain ⟨hce, hcount, hframe, hregs⟩ := correctedWord_spec s ⟨st, hst⟩ addr none
    refine ⟨_, ?_, hce, hcount, hframe, hregs⟩
    rw [exec_hbmAccess_read hin hadm, run_readWordEcc_corrected hclosed hclean h1 h2]
    refine congrArg _ (run_deliverPoison_clean fun i hi => ?_)
    obtain rfl : i = 0 := by omega
    exact (hbmPoisoned_congr (congrArg (·.stk.granules) hframe) (congrArg (·.mem.hbmPoison) hframe) _).trans hclean
  · obtain ⟨hmark, hcount, hrec, hrow, hbm, hopen, hretired⟩ := uncorrectableWord_spec ⟨st, hst⟩ addr (source % 2) island s
    rw [exec_hbmAccess_read hin hadm, run_readWordEcc_uncorrectable hclosed hclean h3 h6]
    generalize (uncorrectableWord st addr (source % 2) island).run s = u at hmark hcount hrec hrow hbm hopen hretired
    have hstack : stackOf u addr = st := stackOf_congr hretired addr
    have hpoison : hbmPoisoned u addr = true := (hbmPoisoned_closed ((openAt_congr hopen addr).trans hclosed)).trans hmark
    have hdeliver : Only [.reg] (deliverPoison addr 1) := only_deliverPoison
    obtain ⟨hread, hkept⟩ := deliverPoison_one_spec (ne_nil_of_marked hmark) hpoison
    rw [hstack] at hread hkept
    refine ⟨_, rfl, ?_, hkept.trans hcount, (hdeliver.preserves_recorded _ _ (by decide) _ hrec).hasRecord, ?_, hread, ?_, ?_⟩
    · exact (hbmPoisoned_congr (congrArg (·.granules) hdeliver.stk) (congrArg (·.hbmPoison) hdeliver.mem) addr).trans hpoison
    · rw [hdeliver.stk]
      exact hrow
    · rw [hdeliver.mem]
      exact hbm
    · rw [hdeliver.stk]
      exact hopen

end Sys2Proof.Machine
end

section
/-! The groomer, the repair of rows and the thermal level of a stack (R226, R227, R228, R247), and the obligation on them. -/

namespace Sys2Proof.Machine

open Sys2Proof

set_option Elab.async false

/-! ### The groomer (R228) -/

theorem errorWords_nil (a n : Nat) : errorWords a n [] = [] := by
  unfold errorWords
  exact List.filterMap_eq_nil_iff.mpr fun _ _ => rfl

/-- A groomer with every word of its granule good moves on. -/
theorem exec_groomStep_good {s : State} {st : Fin 12} (hadm : admits s st = true) (hrun : rd s (.stk st) Reg.STK.GROOM_CTRL_PAUSE = 0) :
    exec (.groomStep st []) s = .next (Prog.run
      (if rd s (.stk st) Reg.STK.GROOM_POS + 1 < stackGranules s then wr (.stk st) Reg.STK.GROOM_POS (rd s (.stk st) Reg.STK.GROOM_POS + 1)
      else progs [wr (.stk st) Reg.STK.GROOM_POS 0, addSat (.stk st) Reg.STK.GROOM_PASSES 1,
        modStk fun k => { k with periodUes := smErase st k.periodUes }]) s) := by
  show done (progGroomStep st []) s = _
  have hgo : (admits s st && rd s (.stk st) Reg.STK.GROOM_CTRL_PAUSE == 0) = true := by rw [hadm, hrun]; rfl
  unfold progGroomStep
  rw [done_eq, run_look]
  dsimp only
  rw [hgo, run_whenP_true, run_seq, errorWords_nil, run_forEach_nil]

/-- A change of the stacks' state after one of registers. -/
theorem apply_stk_of_regs {s u : State} (h : u = { s with regs := u.regs }) (k : StkSt) :
    (Act.stk k).apply u = { s with regs := ((Act.stk k).apply u).regs, stk := k } := by
  rw [h]
  rfl

/-- The registers of a groomer past its last granule: position 0, and the pass counted. -/
def passCounted (s : State) (st : Nat) : State := (addSat (.stk st) Reg.STK.GROOM_PASSES 1).run ((wr (.stk st) Reg.STK.GROOM_POS 0).run s)

theorem passCounted_spec (s : State) (st : Fin 12) :
    rd (passCounted s st) (.stk st) Reg.STK.GROOM_POS = 0 ∧
      rd (passCounted s st) (.stk st) Reg.STK.GROOM_PASSES = min (2 ^ 32 - 1) (rd s (.stk st) Reg.STK.GROOM_PASSES + 1) ∧
      OnlyRegs s (passCounted s st) [fldAddr (.stk st) Reg.STK.GROOM_POS 0, fldAddr (.stk st) Reg.STK.GROOM_PASSES 0] := by
  have hpos : plain (.stk st) Reg.STK.GROOM_POS = true := plain_stk st
  have hpasses : plain (.stk st) Reg.STK.GROOM_PASSES = true := plain_stk st
  have hcount : Writes (· = fldAddr (.stk st) Reg.STK.GROOM_PASSES 0) (addSat (.stk st) Reg.STK.GROOM_PASSES 1) := writes_addSat rfl
  unfold passCounted
  refine ⟨?_, ?_, onlyRegs_trans (onlyRegs_wr s _ _ _ _ (.head _)) (onlyRegs_of_writes only_addSat (writes_addSat (.tail _ (.head _))) _)⟩
  · exact (hcount.rd (fldAddr_ne_off _ _ _ _ _ _ (by decide) (by decide) (by decide)) hpos _).trans (rd_wr_same _ _ _ _ _ hpos)
  · rw [rd_addSat hpasses, rd_wr_other _ _ _ _ _ _ _ _ hpos hpasses (.inr (.inl (by decide)))]
    exact satBits_eq_min _

theorem run_groomPass (s : State) (st : Nat) :
    (progs [wr (.stk st) Reg.STK.GROOM_POS 0, addSat (.stk st) Reg.STK.GROOM_PASSES 1, modStk fun k => { k with periodUes := smErase st k.periodUes }]).run s =
      (Act.stk { (passCounted s st).stk with periodUes := smErase st (passCounted s st).stk.periodUes }).apply (passCounted s st) := by
  unfold passCounted
  rw [run_progs_cons, run_progs_cons, run_progs_cons, run_progs_nil, run_modStk]

/-! ### Repair of rows (R226, R227) -/

/-- ROW_REPAIR of a bank without a spare row. -/
def rowWithoutSpare (st row : Nat) : Prog := progs [
  unlistRow row, modStk fun k => { k with noSpare := smSet flagDefault k.noSpare st true },
  wr (.stk st) Reg.STK.ECC_STATUS_NO_SPARE_ROW 1, raise Code.STK_NO_SPARE_ROW (832 + st) 0 noLeg st [w64 (row * 1024)]]

/-- The row read, with no word of it in error. -/
def readGoodRow (st : Nat) : Prog :=
  withFree fun v => forEach ([] : List (Nat × ErrBytes)) fun w => readWordEcc w.1 (v % 5) (832 + st) w.2 none

/-- A spare row of a bank in use. -/
def useSpare (bank : Nat) : Prog :=
  modStk fun k => { k with spareRows := smSet zeroDefault k.spareRows bank (smGet zeroDefault k.spareRows bank + 1) }

/-- A repair kept by firmware. -/
def keepRepair (bank : Nat) : Prog := modFw fun f => { f with repairLog := f.repairLog ++ [(2, bank)] }

/-- ROW_REPAIR of a bank with a spare row, every word of the row good. -/
def rowToSpare (st row bank : Nat) : Prog := progs [
  readGoodRow st, useSpare bank, addSat (.stk st) Reg.STK.ROWS_REPAIRED 1, showSpares st, unlistRow row, keepRepair bank,
  trace 5 (832 + st), logOwn]

theorem run_rowToSpare (st row bank : Nat) (s : State) : (rowToSpare st row bank).run s =
    (progs [keepRepair bank, trace 5 (832 + st), logOwn]).run ((unlistRow row).run ((progs [addSat (.stk st) Reg.STK.ROWS_REPAIRED 1, showSpares st]).run
      ((useSpare bank).run ((readGoodRow st).run s)))) := by
  unfold rowToSpare
  rw [run_progs_cons, run_progs_cons, run_progs_cons, run_progs_cons, run_progs_cons, run_progs_cons (addSat (.stk st) Reg.STK.ROWS_REPAIRED 1),
    run_progs_cons (showSpares st), run_progs_nil]

theorem exec_rowRepair_good {s : State} {st : Fin 12} {k row : Nat} (hrow : s.stk.repairList.find? (fun x => x.1 == (st : Nat)) = some (k, row))
    (hadm : admits s st = true) : exec (.rowRepair st []) s =
      .next (Prog.run (if sparesLeft s (bankOf s (row * 1024)) = 0 then rowWithoutSpare st row else rowToSpare st row (bankOf s (row * 1024))) s) := by
  show done (progRowRepair st []) s = _
  unfold progRowRepair rowWithoutSpare rowToSpare readGoodRow useSpare keepRepair
  rw [done_eq, run_look, hrow]
  dsimp only
  rw [hadm, run_whenP_true, errorWords_nil]

/-- What both ways leave of the list: every row but the one taken. -/
theorem unlisted {l : List (Nat × Nat)} {row : Nat} :
    (∀ x ∈ l.filter (·.2 != row), x.2 ≠ row) ∧ (∀ x ∈ l, x.2 ≠ row → x ∈ l.filter (·.2 != row)) :=
  ⟨fun _ hx => bne_iff_ne.mp (List.mem_filter.mp hx).2, fun _ hx hne => List.mem_filter.mpr ⟨hx, bne_iff_ne.mpr hne⟩⟩

/-- Without a spare the row stays in service, recorded. -/
theorem rowWithoutSpare_spec (s : State) (st : Fin 12) (row : Nat) :
    let t := (rowWithoutSpare st row).run s
    t.stk.repairList = s.stk.repairList.filter (·.2 != row) ∧ t.mem = s.mem ∧ t.stk.spareRows = s.stk.spareRows ∧
      rd t (.stk st) Reg.STK.ECC_STATUS_NO_SPARE_ROW = 1 ∧ HasRecord t (832 + st) Code.STK_NO_SPARE_ROW := by
  intro t
  have hplain : plain (.stk st) Reg.STK.ECC_STATUS_NO_SPARE_ROW = true := plain_stk st
  have honly : Only [.stk, .reg, .recs] (rowWithoutSpare st row) :=
    only_cons only_modStk (only_cons only_modStk (only_cons only_wr (only_cons only_raise only_nil)))
  have hend : Only [.reg, .recs] (progs [wr (.stk st) Reg.STK.ECC_STATUS_NO_SPARE_ROW 1,
      raise Code.STK_NO_SPARE_ROW (832 + st) 0 noLeg st [w64 (row * 1024)]]) := only_cons only_wr (only_cons only_raise only_nil)
  have hstk : t.stk = { s.stk with
      repairList := s.stk.repairList.filter (·.2 != row), rowSeen := s.stk.rowSeen.filter (·.1 != row)
      noSpare := smSet flagDefault s.stk.noSpare st true } := hend.stk
  refine ⟨by rw [hstk], honly.mem, by rw [hstk], ?_, hasRecord_raise _ _ _ _ _ _ _⟩
  exact ((writes_raise _ _ _ _ _ _).rd (fun h => not_belowStacks_stk _ _ _ (belowStacks_of_recordWords _ h)) hplain _).trans (rd_wr_same _ _ _ _ _ hplain)

/-- With a spare the repair uses one, is counted and kept in firmware's log. -/
theorem rowToSpare_spec (s : State) (st : Fin 12) (row bank : Nat) :
    let t := (rowToSpare st row bank).run s
    t.stk.repairList = s.stk.repairList.filter (·.2 != row) ∧ t.mem = s.mem ∧
      smGet zeroDefault t.stk.spareRows bank = smGet zeroDefault s.stk.spareRows bank + 1 ∧
      rd t (.stk st) Reg.STK.ROWS_REPAIRED = min (2 ^ 32 - 1) (rd s (.stk st) Reg.STK.ROWS_REPAIRED + 1) ∧
      t.fw.repairLog = s.fw.repairLog ++ [(2, bank)] := by
  intro t
  have hplain : plain (.stk st) Reg.STK.ROWS_REPAIRED = true := plain_stk st
  have hshow : Only [.reg] (showSpares st) := only_look fun _ => only_wr
  have hcount : Only [.reg] (progs [addSat (.stk st) Reg.STK.ROWS_REPAIRED 1, showSpares st]) := only_cons only_addSat (only_cons hshow only_nil)
  have hfree : Only [.free] (readGoodRow st) := only_withFree fun _ => only_nil
  have hlog : Only [.reg, .recs] (progs [trace 5 (832 + st), logOwn]) := only_cons only_trace (only_cons only_logOwn only_nil)
  have hkeep : Only [.fw] (keepRepair bank) := only_modFw
  have hlogged : Only [.fw, .reg, .recs] (progs [keepRepair bank, trace 5 (832 + st), logOwn]) := only_cons (hkeep.mono (by decide)) (hlog.mono (by decide))
  have huse : Only [.stk] (useSpare bank) := only_modStk
  have hunlist : Only [.stk] (unlistRow row) := only_modStk
  have ht : t = _ := run_rowToSpare st row bank s
  have hstk : t.stk = { s.stk with
      spareRows := smSet zeroDefault s.stk.spareRows bank (smGet zeroDefault s.stk.spareRows bank + 1)
      repairList := s.stk.repairList.filter (·.2 != row), rowSeen := s.stk.rowSeen.filter (·.1 != row) } := by
    rw [ht, hlogged.stk, unlistRow, run_modStk, apply_stk, hcount.stk, useSpare, run_modStk, apply_stk, hfree.stk]
  have hused : t.stk.spareRows = smSet zeroDefault s.stk.spareRows bank (smGet zeroDefault s.stk.spareRows bank + 1) := by rw [hstk]
  refine ⟨by rw [hstk], ?_, by rw [hused, smGet_set_same], ?_, ?_⟩
  · rw [ht, hlogged.mem, hunlist.mem, hcount.mem, huse.mem, hfree.mem]
  · have hlogWords : Writes belowStacks (progs [keepRepair bank, trace 5 (832 + st), logOwn]) :=
      writes_cons hkeep.writes (writes_cons (writes_trace (show _ < _ by decide)) (writes_cons (only_logOwn (K := [.recs])).writes writes_nil))
    have hshowWords : Writes (· = fldAddr (.stk st) Reg.STK.SPARES_LOW 0) (showSpares st) := writes_look fun _ => writes_wr rfl
    rw [ht, hlogWords.rd (not_belowStacks_stk _ _ _) hplain, rd_congr hunlist.regs _ _ _ hplain, run_progs_cons, run_progs_cons, run_progs_nil,
      hshowWords.rd (fldAddr_ne_off _ _ _ _ _ _ (by decide) (by decide) (by decide)) hplain, rd_addSat hplain, rd_congr huse.regs _ _ _ hplain,
      rd_congr hfree.regs _ _ _ hplain]
    exact satBits_eq_min _
  · rw [ht, run_progs_cons, hlog.fw, keepRepair, run_modFw, apply_fw, hunlist.fw, hcount.fw, huse.fw, hfree.fw]

/-! ### The thermal level of a stack (R247) -/

theorem nextLevel_stack {cur : Nat} (hcur : cur < 4) (x : Nat) :
    let l := nextLevel [(85, 82), (95, 92), (105, 102)] cur x
    l < 4 ∧ (1 ≤ l ↔ 85 ≤ x ∨ (1 ≤ cur ∧ 82 ≤ x)) ∧ (2 ≤ l ↔ 95 ≤ x ∨ (2 ≤ cur ∧ 92 ≤ x)) ∧
      (3 ≤ l ↔ 105 ≤ x ∨ (3 ≤ cur ∧ 102 ≤ x)) := by
  simp only [nextLevel]
  split_ifs <;> omega

/-- A record of every level in a list: each stands. -/
theorem recorded_forEach_raise {β : Type} {l : List β} {x : β} (hx : x ∈ l) (code : β → Nat) (island unit : Nat) (s : State) :
    Recorded island (code x) ((forEach l fun y => raise (code y) island 0 noLeg unit []).run s) := by
  obtain ⟨a, b, rfl⟩ := List.append_of_mem hx
  rw [run_forEach_append, run_forEach_cons]
  exact preserves_forEach (fun y _ => preserves_recorded_raise _ _ _ _ _ _ _ _) _ (recorded_raise _ _ _ _ _ _ _)

/-- What a reading shows of its stack: the temperatures, the level, the contribution and the admission. -/
def stackReading (st now top island lvl contrib share : Nat) : Prog := progs [
  wr (.stk st) Reg.STK.TEMP_NOW now, wr (.stk st) Reg.STK.TEMP_MAX top, wr .tlm Reg.TLM.STACK_TEMP island (st / 4),
  wr (.stk st) Reg.STK.STK_STATUS_THERM lvl, modPwr fun p => { p with stackContrib := smSet zeroDefault p.stackContrib st contrib },
  wr (.stk st) Reg.STK.STK_STATUS_ADMIT share]

/-- A record of each level newly entered. -/
def levelRecords (st cur lvl : Nat) : Prog :=
  forEach ((List.range 4).filter fun l => decide (cur < l) && decide (l ≤ lvl)) fun l => raise (stackCode l) (832 + st) 0 noLeg st []

/-- The level that a reading gives a stack (R247). -/
def stackLevel (s : State) (st x : Nat) : Nat := nextLevel [(85, 82), (95, 92), (105, 102)] (rd s (.stk st) Reg.STK.STK_STATUS_THERM) x

theorem exec_stackTempRead_taken {s : State} {st : Fin 12} (hservice : s.stk.retired ≠ some (st : Nat)) (hpower : s.pins.pwrOk = true)
    (hreset : stacksReset s = false) (x : Nat) :
    ∃ tlm contrib share, exec (.stackTempRead st x) s = .next
      ((progs [levelRecords st (rd s (.stk st) Reg.STK.STK_STATUS_THERM) (stackLevel s st x), driveTherm]).run
        ((stackReading st (min 255 x) (max (min 255 x) (rd s (.stk st) Reg.STK.TEMP_MAX)) tlm (stackLevel s st x) contrib share).run s)) := by
  have hgo : (!(s.stk.retired == some (st : Nat)) && s.pins.pwrOk && !stacksReset s) = true := by
    rw [beq_eq_false_iff_ne.mpr hservice, hpower, hreset]
    rfl
  refine ⟨putBits (rd s .tlm Reg.TLM.STACK_TEMP (st / 4)) (8 * (st % 4)) 8 (min 255 x),
    if stackLevel s st x = 3 then 15
    else 4 * nextLevel [(95, 92), (98, 95), (101, 98)] (smGet zeroDefault s.pwr.stackContrib st / 4) x,
    if rd s (.stk st) Reg.STK.THERM_CTRL_THERM_MODE = 1 then 0
    else nextLevel [(95, 92), (98, 95), (101, 98)] (smGet zeroDefault s.pwr.stackContrib st / 4) x, ?_⟩
  show done (progStackTempRead st x) s = _
  unfold progStackTempRead stackReading levelRecords stackLevel
  rw [done_eq, run_look]
  dsimp only
  rw [hgo, run_whenP_true]
  exact congrArg Host.Outcome.next (run_progs_append [_, _, _, _, _, _] [_, _] s)

theorem exec_stackTempRead_reset {s : State} (hreset : stacksReset s = true) (st : Fin 12) (x : Nat) : exec (.stackTempRead st x) s = .next s := by
  show done (progStackTempRead st x) s = _
  unfold progStackTempRead
  rw [done_eq, run_look]
  dsimp only
  rw [hreset, Bool.not_true, Bool.and_false, run_whenP_false]

/-- The state with other registers, records, contributions of the stacks and level of THERM_N in the place of its own. -/
def besideTherm (s : State) (r : SMap Word) (q : RecSt) (c : SMap Nat) (low : Bool) : State :=
  { s with regs := r, recs := q, pwr := { s.pwr with stackContrib := c }, pins := { s.pins with thermN := low } }

theorem stk_of_besideTherm {s t : State} (h : besideTherm t = besideTherm s) : t.stk = s.stk :=
  congrArg (·.stk) (congrFun (congrFun (congrFun (congrFun h s.regs) s.recs) s.pwr.stackContrib) s.pins.thermN)

theorem keeps_besideTherm_records {p : Prog} (h : Only [.reg, .recs] p) : Keeps besideTherm p := fun s => by
  rw [h.regs_recs]
  rfl

theorem only_levelRecords (st cur lvl : Nat) : Only [.reg, .recs] (levelRecords st cur lvl) := only_forEach fun _ => only_raise

theorem keeps_besideTherm_stackReading (st now top tlm lvl contrib share : Nat) : Keeps besideTherm (stackReading st now top tlm lvl contrib share) :=
  keeps_cons _ (keeps_besideTherm_records only_wr) (keeps_cons _ (keeps_besideTherm_records only_wr) (keeps_cons _ (keeps_besideTherm_records only_wr)
    (keeps_cons _ (keeps_besideTherm_records only_wr) (keeps_cons _ (fun _ => rfl) (keeps_cons _ (keeps_besideTherm_records only_wr) (keeps_nil _))))))

theorem only_driveTherm : Only [.pins] driveTherm := only_look fun _ => only_modPins

theorem keeps_besideTherm_driveTherm : Keeps besideTherm driveTherm := keeps_look _ fun _ _ => rfl

/-- What a reading leaves in its stack's registers. -/
theorem stackReading_spec (s : State) (st : Fin 12) {now top lvl : Nat} (hnow : now < 256) (htop : top < 256) (hlvl : lvl < 4) (tlm contrib share : Nat) :
    let t := (stackReading st now top tlm lvl contrib share).run s
    rd t (.stk st) Reg.STK.TEMP_NOW = now ∧ rd t (.stk st) Reg.STK.TEMP_MAX = top ∧ rd t (.stk st) Reg.STK.STK_STATUS_THERM = lvl := by
  intro t
  have pnow : plain (.stk st) Reg.STK.TEMP_NOW = true := plain_stk st
  have pmax : plain (.stk st) Reg.STK.TEMP_MAX = true := plain_stk st
  have ptherm : plain (.stk st) Reg.STK.STK_STATUS_THERM = true := plain_stk st
  have padmit : plain (.stk st) Reg.STK.STK_STATUS_ADMIT = true := plain_stk st
  have hpwr : Only [.pwr] (modPwr fun p => { p with stackContrib := smSet zeroDefault p.stackContrib st contrib }) := only_modPwr
  have hstatus : Writes (· ∈ [fldAddr .tlm Reg.TLM.STACK_TEMP (st / 4), fldAddr (.stk st) Reg.STK.STK_STATUS_THERM 0])
      (progs [wr .tlm Reg.TLM.STACK_TEMP tlm (st / 4), wr (.stk st) Reg.STK.STK_STATUS_THERM lvl,
        modPwr fun p => { p with stackContrib := smSet zeroDefault p.stackContrib st contrib }, wr (.stk st) Reg.STK.STK_STATUS_ADMIT share]) :=
    writes_cons (writes_wr (.head _)) (writes_cons (writes_wr (.tail _ (.head _))) (writes_cons hpwr.writes
      (writes_cons (writes_wr (.tail _ (.head _))) writes_nil)))
  have htemp : fldAddr (.stk st) Reg.STK.TEMP_NOW 0 ∉ [fldAddr .tlm Reg.TLM.STACK_TEMP (st / 4), fldAddr (.stk st) Reg.STK.STK_STATUS_THERM 0] := by
    have hst : (st : Nat) < 12 := st.isLt
    simp only [fldAddr, pageBase, Reg.STK.TEMP_NOW, Reg.TLM.STACK_TEMP, Reg.STK.STK_STATUS_THERM, List.mem_cons, List.not_mem_nil, or_false]
    omega
  have ht : t = (progs [wr .tlm Reg.TLM.STACK_TEMP tlm (st / 4), wr (.stk st) Reg.STK.STK_STATUS_THERM lvl,
      modPwr fun p => { p with stackContrib := smSet zeroDefault p.stackContrib st contrib }, wr (.stk st) Reg.STK.STK_STATUS_ADMIT share]).run
      ((wr (.stk st) Reg.STK.TEMP_MAX top).run ((wr (.stk st) Reg.STK.TEMP_NOW now).run s)) := by
    unfold t stackReading
    rw [run_progs_cons, run_progs_cons]
  refine ⟨?_, ?_, ?_⟩
  · rw [ht, hstatus.rd htemp pnow, rd_wr_other _ _ _ _ _ _ _ _ pmax pnow (.inr (.inr (.inr (by decide)))), rd_wr_same _ _ _ _ _ pnow]
    exact Nat.mod_eq_of_lt hnow
  · rw [ht, hstatus.rd (f := Reg.STK.TEMP_MAX) htemp pmax, rd_wr_same _ _ _ _ _ pmax]
    exact Nat.mod_eq_of_lt htop
  · rw [ht, run_progs_cons, run_progs_cons, run_progs_cons, run_progs_cons, run_progs_nil,
      rd_wr_other _ _ _ _ _ _ _ _ padmit ptherm (.inr (.inr (.inr (by decide)))), rd_congr hpwr.regs _ _ _ ptherm, rd_wr_same _ _ _ _ _ ptherm]
    exact Nat.mod_eq_of_lt hlvl

/-- THERM_N is low where a stack in service is at CRIT. -/
theorem driveTherm_crit {s : State} {st : Fin 12} (hservice : s.stk.retired ≠ some (st : Nat)) (hcrit : rd s (.stk st) Reg.STK.STK_STATUS_THERM = 3) :
    (driveTherm.run s).pins.thermN = false := by
  have hmem : (st : Nat) ∈ activeStacks s := List.mem_filter.mpr ⟨List.mem_range.mpr st.isLt, bne_iff_ne.mpr hservice⟩
  have hany : ((activeStacks s).any fun k => rd s (.stk k) Reg.STK.STK_STATUS_THERM == 3) = true :=
    List.any_eq_true.mpr ⟨st, hmem, beq_iff_eq.mpr hcrit⟩
  unfold driveTherm
  rw [run_look]
  dsimp only
  rw [hany, Bool.or_true, run_modPins, apply_pins]
  rfl

/-- Every level newly entered leaves its record. -/
theorem recorded_levelRecords {cur lvl l : Nat} (hl : l < 4) (hcur : cur < l) (hlvl : l ≤ lvl) (st : Nat) (s : State) :
    Recorded (832 + st) (stackCode l) ((levelRecords st cur lvl).run s) := by
  have hmem : l ∈ (List.range 4).filter fun l => decide (cur < l) && decide (l ≤ lvl) :=
    List.mem_filter.mpr ⟨List.mem_range.mpr hl, by rw [decide_eq_true hcur, decide_eq_true hlvl, Bool.and_self]⟩
  unfold levelRecords
  exact recorded_forEach_raise hmem stackCode (832 + st) st s

theorem writes_levelRecords (st cur lvl : Nat) : Writes recordWords (levelRecords st cur lvl) := writes_forEach fun _ _ => writes_raise _ _ _ _ _ _

/-- Behind a reading: its stack's registers stay, the records of the levels newly entered are made, and THERM_N is low at CRIT. -/
theorem levels_spec {s : State} {st : Fin 12} {lvl : Nat} (hservice : s.stk.retired ≠ some (st : Nat))
    (htherm : rd s (.stk st) Reg.STK.STK_STATUS_THERM = lvl) (cur : Nat) :
    let t := (progs [levelRecords st cur lvl, driveTherm]).run s
    (∀ f, plain (.stk st) f = true → rd t (.stk st) f = rd s (.stk st) f) ∧ (lvl = 3 → t.pins.thermN = false) ∧
      (∀ l, l < 4 → cur < l → l ≤ lvl → HasRecord t (832 + st) (stackCode l)) ∧ besideTherm t = besideTherm s := by
  intro t
  have hrec : Only [.reg, .recs] (levelRecords st cur lvl) := only_levelRecords st cur lvl
  have ht : t = driveTherm.run ((levelRecords st cur lvl).run s) := by
    unfold t
    rw [run_progs_cons, run_progs_cons, run_progs_nil]
  have hkept (f : Fld) (hf : plain (.stk st) f = true) : rd ((levelRecords st cur lvl).run s) (.stk st) f = rd s (.stk st) f :=
    (writes_levelRecords st cur lvl).rd (fun h => not_belowStacks_stk _ _ _ (belowStacks_of_recordWords _ h)) hf s
  refine ⟨fun f hf => ?_, fun hcrit => ?_, fun l hl hcur hlvl => ?_, ?_⟩
  · rw [ht, rd_congr only_driveTherm.regs _ _ _ hf, hkept f hf]
  · rw [ht]
    exact driveTherm_crit (by rw [hrec.stk]; exact hservice) ((hkept _ (plain_stk st)).trans (htherm.trans hcrit))
  · rw [ht]
    exact (only_driveTherm.preserves_recorded _ _ (by decide) _ (recorded_levelRecords hl hcur hlvl st s)).hasRecord
  · rw [ht, keeps_besideTherm_driveTherm, keeps_besideTherm_records hrec]

/-- What a reading that is taken leaves. -/
theorem stackTempRead_taken {s : State} {st : Fin 12} (hservice : s.stk.retired ≠ some (st : Nat)) (hpower : s.pins.pwrOk = true)
    (hreset : stacksReset s = false) (x : Nat) : ∃ t, exec (.stackTempRead st x) s = .next t ∧
      rd t (.stk st) Reg.STK.TEMP_NOW = min 255 x ∧ rd t (.stk st) Reg.STK.TEMP_MAX = max (min 255 x) (rd s (.stk st) Reg.STK.TEMP_MAX) ∧
      rd t (.stk st) Reg.STK.STK_STATUS_THERM = stackLevel s st x ∧ (stackLevel s st x = 3 → t.pins.thermN = false) ∧
      (∀ l, l < 4 → rd s (.stk st) Reg.STK.STK_STATUS_THERM < l → l ≤ stackLevel s st x → HasRecord t (832 + st) (stackCode l)) ∧
      besideTherm t = besideTherm s := by
  obtain ⟨tlm, contrib, share, hexec⟩ := exec_stackTempRead_taken hservice hpower hreset x
  have hmax : rd s (.stk st) Reg.STK.TEMP_MAX < 256 := rd_lt (plain_stk st)
  have hlvl : stackLevel s st x < 4 := (nextLevel_stack (rd_lt (plain_stk st)) x).1
  obtain ⟨hnow, htop, htherm⟩ := stackReading_spec s st (now := min 255 x) (top := max (min 255 x) (rd s (.stk st) Reg.STK.TEMP_MAX))
    (by omega) (by omega) hlvl tlm contrib share
  have hframe := keeps_besideTherm_stackReading st (min 255 x) (max (min 255 x) (rd s (.stk st) Reg.STK.TEMP_MAX)) tlm (stackLevel s st x) contrib share s
  obtain ⟨hregs, hlow, hrecs, hbeside⟩ := levels_spec (by rw [stk_of_besideTherm hframe]; exact hservice) htherm
    (rd s (.stk st) Reg.STK.STK_STATUS_THERM)
  exact ⟨_, hexec, (hregs _ (plain_stk st)).trans hnow, (hregs _ (plain_stk st)).trans htop, (hregs _ (plain_stk st)).trans htherm, hlow, hrecs,
    hbeside.trans hframe⟩

/-- Settles O30: a groomer's step, a row's repair and a reading each leave what their lemmas say. -/
theorem stacksGroomedRepairedRead : Obligations.StacksGroomedRepairedRead := by
  unfold Obligations.StacksGroomedRepairedRead
  refine ⟨fun s st => ⟨fun hadm hrun hsize => ?_, fun k row hrow hadm => ?_⟩, fun s st x hservice hpower => ⟨fun hreset => ?_, fun hreset => ?_⟩⟩
  · have hpos : plain (.stk st) Reg.STK.GROOM_POS = true := plain_stk st
    refine ⟨_, exec_groomStep_good hadm hrun, fun hnext => ?_, fun hlast => ?_⟩
    · rw [if_pos hnext, rd_wr_same _ _ _ _ _ hpos]
      exact ⟨Nat.mod_eq_of_lt (Nat.lt_of_lt_of_le hnext hsize), onlyRegs_wr s _ _ _ _ (.head _)⟩
    · rw [if_neg (Nat.not_lt.mpr hlast), run_groomPass]
      obtain ⟨hzero, hpass, hframe, hkept⟩ := passCounted_spec s st
      have hword := apply_regs (Act.stk { (passCounted s st).stk with periodUes := smErase st (passCounted s st).stk.periodUes }) (passCounted s st)
      refine ⟨(rd_congr hword _ _ _ hpos).trans hzero, (rd_congr hword _ _ _ (plain_stk st)).trans hpass, ?_, fun a ha => ?_⟩
      · have hstk : (passCounted s st).stk = s.stk := by rw [hframe]
        rw [hstk]
        exact apply_stk_of_regs hframe _
      · unfold regWord
        rw [hword]
        exact hkept a ha
  · intro bank
    by_cases hspare : sparesLeft s bank = 0
    · obtain ⟨hlist, hmem, hrows, hmark, hrec⟩ := rowWithoutSpare_spec s st row
      refine ⟨_, (exec_rowRepair_good hrow hadm).trans (by rw [if_pos hspare]), ?_, ?_, hmem, fun h => absurd hspare h, fun _ => ⟨hrows, hmark, hrec⟩⟩
      · rw [hlist]
        exact unlisted.1
      · rw [hlist]
        exact unlisted.2
    · obtain ⟨hlist, hmem, hrows, hcount, hlog⟩ := rowToSpare_spec s st row bank
      refine ⟨_, (exec_rowRepair_good hrow hadm).trans (by rw [if_neg hspare]), ?_, ?_, hmem, fun _ => ⟨hrows, hcount, hlog⟩, fun h => absurd h hspare⟩
      · rw [hlist]
        exact unlisted.1
      · rw [hlist]
        exact unlisted.2
  · exact exec_stackTempRead_reset hreset st x
  · intro cur
    obtain ⟨t, hexec, hnow, htop, htherm, hlow, hrecs, hbeside⟩ := stackTempRead_taken hservice hpower hreset x
    obtain ⟨-, hwarn, hthrottle, hcrit⟩ := nextLevel_stack (rd_lt (f := Reg.STK.STK_STATUS_THERM) (s := s) (plain_stk st)) x
    refine ⟨t, hexec, hnow, htop, ?_, ?_⟩
    · rw [htherm]
      exact ⟨hwarn, hthrottle, hcrit, hlow, hrecs 1 (by decide), hrecs 2 (by decide), hrecs 3 (by decide)⟩
    · exact (congrFun (congrFun (congrFun (congrFun hbeside t.regs) t.recs) t.pwr.stackContrib) t.pins.thermN)

end Sys2Proof.Machine
end

section
/-! FLUSH (R230, R378): open granules written back, read as before and open no more. -/

namespace Sys2Proof.Machine

open Sys2Proof

set_option Elab.async false

/-- The open granules are aligned words of 64 bytes, no two of one address. -/
def GranulesWell (l : List Granule) : Prop := (∀ g ∈ l, g.addr % 64 = 0 ∧ g.bytes.length = 64) ∧ (l.map (·.addr)).Nodup

theorem GranulesWell.filter {l : List Granule} (h : GranulesWell l) (p : Granule → Bool) : GranulesWell (l.filter p) :=
  ⟨fun g hg => h.1 g (List.mem_filter.mp hg).1, h.2.sublist (List.filter_sublist.map _)⟩

theorem GranulesWell.eq {l : List Granule} (h : GranulesWell l) {g x : Granule} (hg : g ∈ l) (hx : x ∈ l) (e : x.addr = g.addr) : x = g :=
  List.inj_on_of_nodup_map h.2 hx hg e

/-- The granules but those of an address. -/
def besideGranule (l : List Granule) (g : Granule) : List Granule := l.filter (·.addr != g.addr)

theorem run_evict (g : Granule) (s : State) : (evict g).run s =
    { s with stk := { s.stk with granules := besideGranule s.stk.granules g },
             mem := { s.mem with
               hbm := smSetList byteDefault s.mem.hbm g.addr g.bytes, hbmPoison := smSet flagDefault s.mem.hbmPoison (g.addr / 64) g.poison } } := rfl

theorem openAt_evict_same {s : State} {g : Granule} {a : Nat} (ha : a / 64 * 64 = g.addr) : openAt ((evict g).run s) a = none := by
  refine List.find?_eq_none.mpr fun x hx => ?_
  rw [ha]
  exact fun e => bne_iff_ne.mp (List.mem_filter.mp hx).2 (beq_iff_eq.mp e)

theorem openAt_evict_other {s : State} {g : Granule} {a : Nat} (ha : a / 64 * 64 ≠ g.addr) : openAt ((evict g).run s) a = openAt s a := by
  show (s.stk.granules.filter _).find? _ = s.stk.granules.find? _
  rw [List.find?_filter]
  refine congrArg (fun p => s.stk.granules.find? p) (funext fun x => Bool.eq_iff_iff.mpr ?_)
  rw [decide_eq_true_eq, bne_iff_ne, beq_iff_eq]
  exact and_iff_right_of_imp fun e => e ▸ ha

section
variable {s : State} {g : Granule} (hwell : GranulesWell s.stk.granules) (hg : g ∈ s.stk.granules)
include hwell hg

theorem openAt_of_mem {a : Nat} (ha : a / 64 * 64 = g.addr) : openAt s a = some g := by
  unfold openAt
  rw [ha]
  cases hf : s.stk.granules.find? fun x => x.addr == g.addr with
  | none => exact absurd (beq_self_eq_true g.addr) (List.find?_eq_none.mp hf g hg)
  | some x =>
    have hx := List.find?_some hf
    rw [hwell.eq hg (List.mem_of_find?_eq_some hf) (beq_iff_eq.mp hx)]

/-- A byte reads the same once its granule, or another, has been written back. -/
theorem hbmByte_evict (a : Nat) : hbmByte ((evict g).run s) a = hbmByte s a := by
  obtain ⟨halign, hlen⟩ := hwell.1 g hg
  unfold hbmByte
  by_cases ha : a / 64 * 64 = g.addr
  · have hplace : a = g.addr + a % 64 := by omega
    have hlt : a % 64 < g.bytes.length := by omega
    rw [openAt_evict_same ha, openAt_of_mem hwell hg ha]
    show smGet byteDefault (smSetList byteDefault s.mem.hbm g.addr g.bytes) a = nth g.bytes (a % 64) 0
    rw [nth_lt _ _ _ hlt]
    conv_lhs => rw [hplace]
    exact smGet_setList_in _ _ _ _ _ hlt
  · rw [openAt_evict_other ha]
    cases openAt s a with
    | some x => rfl
    | none => exact smGet_setList_out _ _ _ _ _ (by omega)

/-- Poison reads the same once a granule has been written back. -/
theorem hbmPoisoned_evict (a : Nat) : hbmPoisoned ((evict g).run s) a = hbmPoisoned s a := by
  obtain ⟨halign, -⟩ := hwell.1 g hg
  unfold hbmPoisoned
  by_cases ha : a / 64 * 64 = g.addr
  · rw [openAt_evict_same ha, openAt_of_mem hwell hg ha, run_evict]
    show smGet flagDefault (smSet flagDefault s.mem.hbmPoison (g.addr / 64) g.poison) (a / 64) = g.poison
    rw [show g.addr / 64 = a / 64 by omega, smGet_set_same]
  · rw [openAt_evict_other ha]
    cases openAt s a with
    | some x => rfl
    | none => exact smGet_set_ne _ _ _ _ _ (by omega)

end

/-- The state with other open granules, bytes and marks of poison of HBM in the place of its own. -/
def besideGranules (s : State) (l : List Granule) (m : SMap Byte) (q : SMap Bool) : State :=
  { s with stk := { s.stk with granules := l }, mem := { s.mem with hbm := m, hbmPoison := q } }

theorem besideGranules_host {s t : State} (h : besideGranules t = besideGranules s) (x : HostSt) :
    besideGranules { t with host := x } = besideGranules { s with host := x } :=
  congrArg (fun f l m q => { f l m q with host := x }) h

/-- What writing granules back leaves: every byte and mark as read before, and of the granules those of other addresses. -/
theorem evicted_spec (l : List Granule) : ∀ s : State, GranulesWell s.stk.granules → (∀ g ∈ l, g ∈ s.stk.granules) → (l.map (·.addr)).Nodup →
    let t := (forEach l evict).run s
    (∀ a, hbmByte t a = hbmByte s a) ∧ (∀ a, hbmPoisoned t a = hbmPoisoned s a) ∧
      (∀ x ∈ t.stk.granules, x ∈ s.stk.granules ∧ ∀ g ∈ l, x.addr ≠ g.addr) ∧ besideGranules t = besideGranules s := by
  induction l with
  | nil => exact fun s _ _ _ => ⟨fun _ => rfl, fun _ => rfl, fun x hx => ⟨hx, fun g hg => absurd hg List.not_mem_nil⟩, rfl⟩
  | cons g r ih =>
    intro s hwell hmem hnodup
    have hg := hmem g (.head r)
    obtain ⟨hfirst, hrest⟩ := List.nodup_cons.mp hnodup
    have hleft : ∀ x ∈ r, x ∈ ((evict g).run s).stk.granules := fun x hx =>
      List.mem_filter.mpr ⟨hmem x (.tail g hx), bne_iff_ne.mpr fun e => hfirst (List.mem_map.mpr ⟨x, hx, e⟩)⟩
    obtain ⟨hbytes, hpoison, hgranules, hframe⟩ := ih ((evict g).run s) (hwell.filter _) hleft hrest
    rw [run_forEach_cons]
    refine ⟨fun a => (hbytes a).trans (hbmByte_evict hwell hg a), fun a => (hpoison a).trans (hbmPoisoned_evict hwell hg a), fun x hx => ?_, hframe⟩
    obtain ⟨hold, hother⟩ := hgranules x hx
    obtain ⟨hin, hne⟩ := List.mem_filter.mp hold
    exact ⟨hin, List.forall_mem_cons.mpr ⟨bne_iff_ne.mp hne, hother⟩⟩

theorem exec_flush_started {s : State} {r : Fin 64} {off len : Nat} {c : Cmd} (hc : Awaits s r (.flush off len) c)
    (hcool : ∀ g ∈ flushed s off len, hotRange s g.addr 64 = false) : exec (.flush r off len) s = .next (Prog.run
      (if windowSize s < (flushRange s off len).1 + (flushRange s off len).2 then finish c.id Code.CMD_RANGE 0
      else .seq (forEach (flushed s off len) evict) (finish c.id 0 0)) (begun s c)) := by
  have hgo : ((flushed s off len).all fun g => !hotRange s g.addr 64) = true :=
    List.all_eq_true.mpr fun g hg => by rw [hcool g hg]; rfl
  show done (progFlush r off len) s = _
  unfold progFlush
  rw [done_eq, run_look, hgo, run_whenP_true, run_startCmd hc]

theorem flushRange_end (s : State) (off len : Nat) :
    (flushRange s off len).1 = (if len = 0 then 0 else off) ∧
      (flushRange s off len).1 + (flushRange s off len).2 = if len = 0 then windowSize s else off + len := by
  unfold flushRange
  split
  · exact ⟨rfl, Nat.zero_add _⟩
  · exact ⟨rfl, rfl⟩

/-- A FLUSH leaves no granule of its range open, and changes no byte and no mark as they read. -/
theorem flush_spec {s : State} {r : Fin 64} {off len : Nat} {c : Cmd} (hc : Awaits s r (.flush off len) c) (hwell : GranulesWell s.stk.granules) :
    let t := (Prog.seq (forEach (flushed s off len) evict) (finish c.id 0 0)).run (begun s c)
    (∀ a, hbmByte t a = hbmByte s a) ∧ (∀ a, hbmPoisoned t a = hbmPoisoned s a) ∧
      (∀ i, (flushRange s off len).1 ≤ i → i < (flushRange s off len).1 + (flushRange s off len).2 → openAt t (windowBase s + i) = none) ∧
      HasFinished t c 0 0 ∧
      t = { s with host := t.host, stk := { s.stk with granules := t.stk.granules },
                   mem := { s.mem with hbm := t.mem.hbm, hbmPoison := t.mem.hbmPoison } } := by
  intro t
  have hfinish : Only [.host] (finish c.id 0 0) := only_finish
  obtain ⟨hbytes, hpoison, hgranules, hframe⟩ := evicted_spec (flushed s off len) (begun s c) hwell (fun g hg => (List.mem_filter.mp hg).1)
    (hwell.filter _).2
  have ht : t = (finish c.id 0 0).run ((forEach (flushed s off len) evict).run (begun s c)) := run_seq _ _ _
  generalize (forEach (flushed s off len) evict).run (begun s c) = u at *
  have hstk : t.stk = u.stk := by rw [ht, hfinish.stk]
  have hmem : t.mem = u.mem := by rw [ht, hfinish.mem]
  have hhost : u.host = (begun s c).host := congrArg (·.host) (congrFun (congrFun (congrFun hframe []) []) [])
  have hflush : besideGranules t = besideGranules { s with host := t.host } := by
    have hown := hfinish.host_only u
    rw [← ht] at hown
    exact (congrArg besideGranules hown).trans (besideGranules_host hframe t.host)
  refine ⟨fun a => ?_, fun a => ?_, fun i hlo hhi => ?_, ?_, ?_⟩
  · exact (hbmByte_congr (congrArg (·.granules) hstk) (congrArg (·.hbm) hmem) a).trans (hbytes a)
  · exact (hbmPoisoned_congr (congrArg (·.granules) hstk) (congrArg (·.hbmPoison) hmem) a).trans (hpoison a)
  · refine List.find?_eq_none.mpr fun x hx hat => ?_
    rw [hstk] at hx
    obtain ⟨hold, hother⟩ := hgranules x hx
    have hplace : x.addr = (windowBase s + i) / 64 * 64 := beq_iff_eq.mp hat
    refine hother x (List.mem_filter.mpr ⟨hold, ?_⟩) rfl
    rw [Bool.and_eq_true, decide_eq_true_eq, decide_eq_true_eq]
    omega
  · rw [ht]
    refine hasFinished_finish ?_ 0 0 none
    rw [hhost]
    exact ⟨_, begun_mem hc.mem, rfl⟩
  · exact congrFun (congrFun (congrFun hflush t.stk.granules) t.mem.hbm) t.mem.hbmPoison

end Sys2Proof.Machine
end

section
/-! COPY and FILL (R225, R379, R383): the bytes that a step moves, how a step ends, and the obligation on the commands that move data. -/

namespace Sys2Proof.Machine

open Sys2Proof

set_option Elab.async false

/-! ### Bytes moved -/

/-- The state with other registers, commands, bytes and marks of HBM and host memory and translations in the place of its own. -/
def besideMove (s : State) (r : SMap Word) (h : HostSt) (m n : SMap Byte) (p q x : SMap Bool) : State :=
  { s with regs := r, host := h, mem := { s.mem with hbm := m, host := n, hbmPoison := p, hostPoison := q, atc := x } }

/-- Bytes written to a space, the other space and all but registers, marks and translations as before. -/
structure Moves (s t : State) (space a : Nat) (l : List Byte) : Prop where
  bytes : WritesBytes s t space a l
  other : ∀ b, byteAt t (1 - space) b = byteAt s (1 - space) b
  host : t.host = s.host
  rest : besideMove t = besideMove s

theorem moves_spaceWrite {s : State} {space a : Nat} {l : List Byte} (hspace : space ≤ 1) (h : space = 0 → NoneOpen s a l.length)
    (bad : Nat → Nat → Bool) : Moves s ((spaceWrite space a l bad).run s) space a l := by
  have hp := cut_pieces 64 (by decide) a l
  match space, hspace with
  | 0, _ =>
    obtain ⟨q, hq⟩ := run_hbmPieces_bad bad hp s (h rfl)
    have hrun : (spaceWrite 0 a l bad).run s = _ := hq
    rw [hrun]
    exact ⟨writesBytes_hbm (h rfl) rfl rfl, fun _ => rfl, rfl, rfl⟩
  | 1, _ =>
    obtain ⟨q, hq⟩ := run_hostPieces_bad bad hp s
    have hrun : (spaceWrite 1 a l bad).run s = _ := hq
    rw [hrun]
    exact ⟨writesBytes_host rfl, fun _ => rfl, rfl, rfl⟩

/-- What a move writes beside its bytes: registers and translations. -/
def besideK : List Kind := [.reg, .flag .atc]

theorem keeps_besideMove {p : Prog} (h : Only besideK p) : Keeps besideMove p :=
  h.keeps besideMove fun a s ha => by
    cases a with
    | reg => rfl
    | flag f k b => cases f with
      | atc => rfl
      | _ => simp [Act.kind, besideK] at ha
    | _ => simp [Act.kind, besideK] at ha

theorem Moves.after {s t : State} {space a : Nat} {l : List Byte} {p : Prog} (hp : Only besideK p) (h : Moves (p.run s) t space a l) :
    Moves s t space a l := by
  obtain ⟨⟨hin, hout⟩, hother, hhost, hrest⟩ := h
  exact ⟨⟨hin, fun b hb => (hout b hb).trans (hp.byteAt s space b)⟩, fun b => (hother b).trans (hp.byteAt s _ b), hhost.trans hp.host,
    hrest.trans (keeps_besideMove hp s)⟩

/-- Bytes written once registers and translations changed. -/
theorem moves_after_spaceWrite {s : State} {space a : Nat} {l : List Byte} {p : Prog} (hp : Only besideK p) (hspace : space ≤ 1)
    (h : space = 0 → NoneOpen s a l.length) (bad : Nat → Nat → Bool) : Moves s ((spaceWrite space a l bad).run (p.run s)) space a l :=
  (moves_spaceWrite hspace (fun h0 i hi => (openAt_congr (congrArg (·.granules) hp.stk) _).trans (h h0 i hi)) bad).after hp

/-! ### The bytes of a source -/

theorem spaceBytes_eq_range (s : State) (space a n : Nat) : spaceBytes s space a n = (List.range n).map fun i => byteAt s space (a + i) := by
  unfold spaceBytes byteAt
  split
  · exact hbmRead_eq_range s a n
  · rfl

theorem spaceBytes_length (s : State) (space a n : Nat) : (spaceBytes s space a n).length = n := by
  rw [spaceBytes_eq_range, List.length_map, List.length_range]

theorem nth_map_range {f : Nat → Byte} {n i : Nat} (h : i < n) : nth ((List.range n).map f) i 0 = f i := by
  rw [nth_lt _ _ _ (by rw [List.length_map, List.length_range]; exact h), List.getElem_map, List.getElem_range]

theorem patternBytes_length (p n : Nat) : (patternBytes p n).length = n := by
  unfold patternBytes
  rw [List.length_map, List.length_range]

theorem freshBytes_length_le (s : State) (n : Nat) : (freshBytes s n).length ≤ n := List.length_take_le _ _

/-! ### A COPY's bytes and a FILL's -/

/-- What a COPY does beside the writing of its bytes. -/
def copyNotes (src dst k sp dp : Nat) : Prog := .seq (noteRead sp src k) (whenP (dp == 1) (cacheTranslation dst k))

theorem only_copyNotes (src dst k sp dp : Nat) : Only besideK (copyNotes src dst k sp dp) :=
  ⟨only_noteRead sp src k, only_whenP only_cacheTranslation⟩

theorem moves_copyBytes {s : State} {src dst n k sp dp : Nat} (hdp : dp ≤ 1) (hopen : dp = 0 → NoneOpen s dst k)
    (hapart : overlaps src dst n sp dp = false) :
    Moves s ((copyBytes src dst n k sp dp).run s) dp dst (spaceBytes s sp src k) := by
  have hrun : (copyBytes src dst n k sp dp).run s = (spaceWrite dp dst (spaceBytes s sp src k) fun a l =>
      spacePoison s sp (src + (a - dst)) || spacePoison s sp (src + (a - dst) + l - 1)).run ((copyNotes src dst k sp dp).run s) := by
    unfold copyBytes copyNotes
    rw [run_look, hapart, if_neg Bool.false_ne_true, run_seq, run_seq, run_seq]
  rw [hrun]
  exact moves_after_spaceWrite (only_copyNotes src dst k sp dp) hdp (fun h => by rw [spaceBytes_length]; exact hopen h) _

/-- An overlapping COPY writes no byte outside its destination. -/
theorem copyBytes_overlapping {s : State} {src dst n k sp dp : Nat} (hdp : dp ≤ 1) (hopen : dp = 0 → NoneOpen s dst k)
    (hmeet : overlaps src dst n sp dp = true) :
    let t := (copyBytes src dst n k sp dp).run s
    (∀ b, b < dst ∨ dst + k ≤ b → byteAt t dp b = byteAt s dp b) ∧ t.host = s.host := by
  intro t
  have hnotes := only_copyNotes src dst k sp dp
  have ht : t = (spacePut dp dst (freshBytes ((copyNotes src dst k sp dp).run s) k)).run
      { (copyNotes src dst k sp dp).run s with freeCount := ((copyNotes src dst k sp dp).run s).freeCount + (k + 7) / 8 } := by
    unfold t copyBytes copyNotes
    rw [run_look, hmeet, if_pos rfl, run_seq, run_seq, run_seq, run_withFreeBytes]
  have hlen := freshBytes_length_le ((copyNotes src dst k sp dp).run s) k
  generalize freshBytes ((copyNotes src dst k sp dp).run s) k = l at ht hlen
  have hclosed : dp = 0 → NoneOpen ((copyNotes src dst k sp dp).run s) dst l.length := fun h i hi =>
    (openAt_congr (congrArg (·.granules) hnotes.stk) _).trans (hopen h i (by omega))
  have hmoves := moves_spaceWrite (s := { (copyNotes src dst k sp dp).run s with freeCount := ((copyNotes src dst k sp dp).run s).freeCount + (k + 7) / 8 })
    (a := dst) (l := l) hdp hclosed fun _ _ => false
  rw [ht]
  exact ⟨fun b hb => (hmoves.bytes.2 b (by omega)).trans (hnotes.byteAt s dp b), hmoves.host.trans hnotes.host⟩

/-- What a FILL writes beside a step's end. -/
def fillBytes (dst k space pattern : Nat) : Prog :=
  .seq (whenP (space == 1) (cacheTranslation dst k)) (spacePut space dst (patternBytes pattern k))

theorem moves_fillBytes {s : State} {dst k space : Nat} (hspace : space ≤ 1) (hopen : space = 0 → NoneOpen s dst k) (pattern : Nat) :
    Moves s ((fillBytes dst k space pattern).run s) space dst (patternBytes pattern k) :=
  moves_after_spaceWrite (only_whenP only_cacheTranslation) hspace (fun h => by rw [patternBytes_length]; exact hopen h) _

/-! ### The end of a step -/

theorem only_moveEnd (c : Cmd) (n o k : Nat) : Only [.host] (moveEnd c n o k) := only_ite only_finish (only_ite only_modHost only_finish)

section
variable {v : State} {c : Cmd} (hc : { c with started := true } ∈ v.host.accepted) (n o : Nat)
include hc

/-- A step that moved all its bytes: the command goes on from the byte reached, or has finished. -/
theorem moveEnd_whole : let t := (moveEnd c n o (stepLen n o)).run v
    if o + stepLen n o < n then GoesOn t c { c.part with moved := o + stepLen n o } else HasFinished t c 0 (n % 2 ^ 48) := by
  intro t
  have ht : t = Prog.run (if o + stepLen n o < n then modCmd c.id fun x => { x with part := { x.part with moved := o + stepLen n o } }
      else finish c.id 0 (n % 2 ^ 48)) v := by
    unfold t moveEnd
    rw [if_neg (Nat.lt_irrefl _)]
  rw [ht]
  split
  · exact List.mem_map.mpr ⟨_, hc, if_pos rfl⟩
  · exact hasFinished_finish ⟨_, hc, rfl⟩ 0 _ none

/-- A step that a refused page cut short ends its command. -/
theorem moveEnd_short {k : Nat} (hk : k < stepLen n o) : HasFinished ((moveEnd c n o k).run v) c Code.HOST_XLATE ((o + k) % 2 ^ 48) := by
  unfold moveEnd
  rw [if_pos hk]
  exact hasFinished_finish ⟨_, hc, rfl⟩ _ _ none

end

/-! ### A step as a whole -/

/-- What a step leaves of all but its destination. -/
def MoveKept (s t : State) (dp a k : Nat) : Prop :=
  (∀ b, b < a ∨ a + k ≤ b → byteAt t dp b = byteAt s dp b) ∧ (∀ b, byteAt t (1 - dp) b = byteAt s (1 - dp) b) ∧
    t = { s with regs := t.regs, host := t.host, mem := { s.mem with
      hbm := t.mem.hbm, host := t.mem.host, hbmPoison := t.mem.hbmPoison, hostPoison := t.mem.hostPoison, atc := t.mem.atc } }

/-- Whether a command goes on, or has finished. -/
def MoveGoes (t : State) (c : Cmd) (n o k : Nat) : Prop :=
  if o + k < n then GoesOn t c { c.part with moved := o + k } else HasFinished t c 0 (n % 2 ^ 48)

/-- A state that differs from another in its commands reads the same bytes. -/
theorem byteAt_stepState {s u : State} {c : Cmd} (hu : StepState s u c) (space a : Nat) : byteAt u space a = byteAt s space a :=
  byteAt_congr (congrArg (·.stk.granules) hu.host) (congrArg (·.mem.hbm) hu.host) (congrArg (·.mem.host) hu.host) space a

theorem refusedPage_stepState {s u : State} {c : Cmd} (hu : StepState s u c) (space a n : Nat) : refusedPage u space a n = refusedPage s space a n := by
  unfold refusedPage hostRefuses
  rw [show u.mem = s.mem from congrArg (·.mem) hu.host]

/-- A step that moved all its bytes, from its own state to the command's end. -/
theorem move_whole {s u v : State} {c : Cmd} {n o dp a : Nat} {l : List Byte} (hu : StepState s u c) (hv : Moves u v dp a l)
    (hl : l.length = stepLen n o) :
    let t := (moveEnd c n o (stepLen n o)).run v
    (∀ i, i < stepLen n o → byteAt t dp (a + i) = nth l i 0) ∧ MoveKept s t dp a (stepLen n o) ∧ MoveGoes t c n o (stepLen n o) := by
  intro t
  have hend := only_moveEnd c n o (stepLen n o)
  obtain ⟨⟨hin, hout⟩, hother, hhost, hrest⟩ := hv
  refine ⟨fun i hi => (hend.byteAt v dp _).trans (hin i (hl.symm ▸ hi)), ⟨fun b hb => ?_, fun b => ?_, ?_⟩, moveEnd_whole (hhost.symm ▸ hu.mem) n o⟩
  · exact (hend.byteAt v dp b).trans ((hout b (hl.symm ▸ hb)).trans (byteAt_stepState hu dp b))
  · exact (hend.byteAt v _ b).trans ((hother b).trans (byteAt_stepState hu _ b))
  · have hend_own : besideMove t = besideMove v := (congrArg besideMove (hend.host_only v)).trans rfl
    have hbegin : besideMove u = besideMove s := (congrArg besideMove hu.host).trans rfl
    have hframe := hend_own.trans (hrest.trans hbegin)
    exact congrFun (congrFun (congrFun (congrFun (congrFun (congrFun (congrFun hframe t.regs) t.host) t.mem.hbm) t.mem.host) t.mem.hbmPoison)
      t.mem.hostPoison) t.mem.atc

/-- A step cut short by a refused page. -/
theorem move_short {u w v : State} {c : Cmd} {n o dp a j : Nat} {l : List Byte} (hc : { c with started := true } ∈ u.host.accepted)
    (hw : w.host = u.host) (hv : Moves w v dp a l) (hl : l.length = j) (hj : j < stepLen n o) :
    let t := (moveEnd c n o j).run v
    (∀ i, i < j → byteAt t dp (a + i) = nth l i 0) ∧ HasFinished t c Code.HOST_XLATE ((o + j) % 2 ^ 48) := by
  intro t
  exact ⟨fun i hi => ((only_moveEnd c n o j).byteAt v dp _).trans (hv.bytes.1 i (hl.symm ▸ hi)),
    moveEnd_short ((hv.host.trans hw).symm ▸ hc) n o hj⟩

/-! ### Steps of COPY -/

theorem bytesBefore_none {s : State} {space a n : Nat} (h : refusedPage s space a n = none) : bytesBefore s space a n = n := by
  unfold bytesBefore
  rw [h]

theorem bytesBefore_stepState {s u : State} {c : Cmd} (hu : StepState s u c) (space a n : Nat) : bytesBefore u space a n = bytesBefore s space a n := by
  unfold bytesBefore
  rw [refusedPage_stepState hu]

theorem moved_of_le {n limit : Nat} (h : n ≤ limit) (k : Nat → Prog) : moved n limit k = k n := if_pos h

/-- A move cut short moves a number of bytes up to the limit, with one free value used. -/
theorem run_moved_of_lt {n limit : Nat} (h : limit < n) (k : Nat → Prog) (u : State) :
    ∃ j, j ≤ limit ∧ (moved n limit k).run u = (k j).run { u with freeCount := u.freeCount + 1 } := by
  refine ⟨(Config.freeWord u.freeCount).toNat % (limit + 1), Nat.le_of_lt_succ (Nat.mod_lt _ (Nat.succ_pos _)), ?_⟩
  unfold moved
  rw [if_neg (Nat.not_le.mpr h)]
  rfl

theorem noneOpen_stepState {s u : State} {c : Cmd} (hu : StepState s u c) {a n : Nat} (h : NoneOpen s a n) : NoneOpen u a n :=
  fun i hi => (openAt_congr (congrArg (·.stk.granules) hu.host) _).trans (h i hi)

theorem overlaps_add (src dst n sp dp o : Nat) : overlaps (src + o) (dst + o) n sp dp = overlaps src dst n sp dp := by
  have hsrc : src + o < dst + o + n ↔ src < dst + n := by omega
  have hdst : dst + o < src + o + n ↔ dst < src + n := by omega
  unfold overlaps
  rw [decide_eq_decide.mpr hsrc, decide_eq_decide.mpr hdst]

theorem run_copyStep_whole {s u : State} {c : Cmd} (hu : StepState s u c) {src dst n sp dp o : Nat}
    (hsrc : refusedPage s sp (src + o) (stepLen n o) = none) (hdst : refusedPage s dp (dst + o) (stepLen n o) = none) :
    (copyStep c src dst n sp dp o).run u = (moveEnd c n o (stepLen n o)).run ((copyBytes (src + o) (dst + o) n (stepLen n o) sp dp).run u) := by
  unfold copyStep
  rw [run_look]
  dsimp only
  rw [bytesBefore_stepState hu, bytesBefore_stepState hu, bytesBefore_none hsrc, bytesBefore_none hdst, Nat.min_self,
    moved_of_le (Nat.le_refl _), run_seq]

section
variable {s u : State} {c : Cmd} (hu : StepState s u c) {src dst n sp dp o : Nat} (hdp : dp ≤ 1)
  (hopen : dp = 0 → NoneOpen s (dst + o) (stepLen n o))
include hu hdp hopen

/-- A step of a COPY with no page refused. -/
theorem copyStep_whole (hapart : overlaps src dst n sp dp = false) (hsrc : refusedPage s sp (src + o) (stepLen n o) = none)
    (hdst : refusedPage s dp (dst + o) (stepLen n o) = none) :
    let t := (copyStep c src dst n sp dp o).run u
    (∀ i, i < stepLen n o → byteAt t dp (dst + o + i) = byteAt s sp (src + o + i)) ∧ MoveKept s t dp (dst + o) (stepLen n o) ∧
      MoveGoes t c n o (stepLen n o) := by
  intro t
  have ht : t = _ := run_copyStep_whole hu hsrc hdst
  obtain ⟨hbytes, hkept, hgoes⟩ := move_whole hu (moves_copyBytes (n := n) (sp := sp) (src := src + o) hdp
    (fun h => noneOpen_stepState hu (hopen h)) ((overlaps_add src dst n sp dp o).trans hapart)) (spaceBytes_length u sp (src + o) _)
  rw [← ht] at hbytes hkept hgoes
  refine ⟨fun i hi => (hbytes i hi).trans ?_, hkept, hgoes⟩
  rw [spaceBytes_eq_range, nth_map_range hi]
  exact byteAt_stepState hu sp _

/-- A step of a COPY up to a refused page. -/
theorem copyStep_short (hapart : overlaps src dst n sp dp = false)
    (hshort : min (bytesBefore s sp (src + o) (stepLen n o)) (bytesBefore s dp (dst + o) (stepLen n o)) < stepLen n o) :
    let t := (copyStep c src dst n sp dp o).run u
    ∃ j, j ≤ min (bytesBefore s sp (src + o) (stepLen n o)) (bytesBefore s dp (dst + o) (stepLen n o)) ∧
      (∀ i, i < j → byteAt t dp (dst + o + i) = byteAt s sp (src + o + i)) ∧ HasFinished t c Code.HOST_XLATE ((o + j) % 2 ^ 48) := by
  intro t
  have hlimit : min (bytesBefore u sp (src + o) (stepLen n o)) (bytesBefore u dp (dst + o) (stepLen n o)) < stepLen n o := by
    rw [bytesBefore_stepState hu, bytesBefore_stepState hu]
    exact hshort
  obtain ⟨j, hj, hrun⟩ := run_moved_of_lt hlimit (fun k => .seq (copyBytes (src + o) (dst + o) n k sp dp) (moveEnd c n o k)) u
  have ht : t = (moveEnd c n o j).run ((copyBytes (src + o) (dst + o) n j sp dp).run { u with freeCount := u.freeCount + 1 }) := hrun
  have hbefore := bytesBefore_stepState hu
  rw [hbefore, hbefore] at hj
  obtain ⟨hbytes, hdone⟩ := move_short hu.mem (w := { u with freeCount := u.freeCount + 1 }) rfl (moves_copyBytes (n := n) (sp := sp) (src := src + o)
    (k := j) hdp (fun h i hi => noneOpen_stepState hu (hopen h) i (by omega)) ((overlaps_add src dst n sp dp o).trans hapart))
    (spaceBytes_length _ sp (src + o) _) (Nat.lt_of_le_of_lt hj hshort)
  rw [← ht] at hbytes hdone
  refine ⟨j, hj, fun i hi => (hbytes i hi).trans ?_, hdone⟩
  rw [spaceBytes_eq_range, nth_map_range hi]
  exact byteAt_stepState hu sp _

/-- A step of a COPY whose source and destination overlap. -/
theorem copyStep_overlapping (hmeet : overlaps src dst n sp dp = true) (hsrc : refusedPage s sp (src + o) (stepLen n o) = none)
    (hdst : refusedPage s dp (dst + o) (stepLen n o) = none) :
    let t := (copyStep c src dst n sp dp o).run u
    (∀ b, b < dst + o ∨ dst + o + stepLen n o ≤ b → byteAt t dp b = byteAt s dp b) ∧ MoveGoes t c n o (stepLen n o) := by
  intro t
  have ht : t = _ := run_copyStep_whole hu hsrc hdst
  obtain ⟨hout, hhost⟩ := copyBytes_overlapping (s := u) (k := stepLen n o) hdp (fun h => noneOpen_stepState hu (hopen h))
    ((overlaps_add src dst n sp dp o).trans hmeet)
  rw [ht]
  exact ⟨fun b hb => ((only_moveEnd c n o _).byteAt _ dp b).trans ((hout b hb).trans (byteAt_stepState hu dp b)), moveEnd_whole (hhost.symm ▸ hu.mem) n o⟩

end

/-! ### Steps of FILL -/

theorem nth_patternBytes {p k i : Nat} (h : i < k) : nth (patternBytes p k) i 0 = nth (leBytes 8 p) (i % 8) 0 := nth_map_range h

section
variable {s u : State} {c : Cmd} (hu : StepState s u c) {dst n dp o : Nat} (hdp : dp ≤ 1) (hopen : dp = 0 → NoneOpen s (dst + o) (stepLen n o))
  (pattern : DWord)
include hu hdp hopen

theorem fillStep_whole (hdst : refusedPage s dp (dst + o) (stepLen n o) = none) :
    let t := (fillStep c dst n dp pattern o).run u
    (∀ i, i < stepLen n o → byteAt t dp (dst + o + i) = nth (leBytes 8 pattern.toNat) (i % 8) 0) ∧ MoveKept s t dp (dst + o) (stepLen n o) ∧
      MoveGoes t c n o (stepLen n o) := by
  intro t
  have ht : t = (moveEnd c n o (stepLen n o)).run ((fillBytes (dst + o) (stepLen n o) dp pattern.toNat).run u) := by
    unfold t fillStep fillBytes
    rw [run_look, bytesBefore_stepState hu, bytesBefore_none hdst, moved_of_le (Nat.le_refl _), run_progs_cons, run_progs_cons, run_progs_cons,
      run_progs_nil, run_seq]
  obtain ⟨hbytes, hkept, hgoes⟩ := move_whole hu (moves_fillBytes hdp (fun h => noneOpen_stepState hu (hopen h)) pattern.toNat) (patternBytes_length _ _)
  rw [← ht] at hbytes hkept hgoes
  exact ⟨fun i hi => (hbytes i hi).trans (nth_patternBytes hi), hkept, hgoes⟩

theorem fillStep_short (hshort : bytesBefore s dp (dst + o) (stepLen n o) < stepLen n o) :
    let t := (fillStep c dst n dp pattern o).run u
    ∃ j, j ≤ bytesBefore s dp (dst + o) (stepLen n o) ∧ (∀ i, i < j → byteAt t dp (dst + o + i) = nth (leBytes 8 pattern.toNat) (i % 8) 0) ∧
      HasFinished t c Code.HOST_XLATE ((o + j) % 2 ^ 48) := by
  intro t
  have hlimit : bytesBefore u dp (dst + o) (stepLen n o) < stepLen n o := by
    rw [bytesBefore_stepState hu]
    exact hshort
  obtain ⟨j, hj, hrun⟩ := run_moved_of_lt hlimit (fun k => progs [whenP (dp == 1) (cacheTranslation (dst + o) k),
    spacePut dp (dst + o) (patternBytes pattern.toNat k), moveEnd c n o k]) u
  have ht : t = (moveEnd c n o j).run ((fillBytes (dst + o) j dp pattern.toNat).run { u with freeCount := u.freeCount + 1 }) := hrun
  rw [bytesBefore_stepState hu] at hj
  obtain ⟨hbytes, hdone⟩ := move_short hu.mem (w := { u with freeCount := u.freeCount + 1 }) rfl
    (moves_fillBytes (s := { u with freeCount := u.freeCount + 1 }) (k := j) hdp (fun h i hi => noneOpen_stepState hu (hopen h) i (by omega))
      pattern.toNat) (patternBytes_length _ j) (Nat.lt_of_le_of_lt hj hshort)
  rw [← ht] at hbytes hdone
  exact ⟨j, hj, fun i hi => (hbytes i hi).trans (nth_patternBytes hi), hdone⟩

end

/-! ### The commands -/

theorem stepAt_first {s : State} {r : Nat} {b : CmdBody} (h : underWay s r b = none) : stepAt s r b = 0 := by
  unfold stepAt
  rw [h]

theorem stepAt_of_steps {s : State} {r : Nat} {b : CmdBody} {c : Cmd} {o : Nat} (h : Steps s r b c o) : stepAt s r b = o := by
  obtain ⟨hfirst, -, rfl⟩ | ⟨hnext, rfl⟩ := h
  · exact stepAt_first hfirst
  · unfold stepAt
    rw [hnext]

theorem run_inSteps_first {s : State} {r : Nat} {b : CmdBody} {c : Cmd} (h : underWay s r b = none) (hc : Awaits s r b c) (first next : Cmd → Prog) :
    (inSteps r b first next).run s = (first c).run (begun s c) := by
  unfold inSteps
  rw [run_look, h]
  exact run_startCmd hc first

theorem run_inSteps_next {s : State} {r : Nat} {b : CmdBody} {c : Cmd} (h : underWay s r b = some c) (first next : Cmd → Prog) :
    (inSteps r b first next).run s = (next c).run s := by
  unfold inSteps
  rw [run_look, h]

/-- The step of a long command from byte `o`, whether it begins there or goes on. -/
theorem run_inSteps_at {s : State} {r : Nat} {b : CmdBody} {c : Cmd} {o : Nat} (h : Steps s r b c o) {first : Cmd → Prog} {act : Nat → Prog}
    (hfirst : Awaits s r b c → (first c).run (begun s c) = (act 0).run (begun s c)) {next : Cmd → Prog} (hnext : next c = act c.part.moved) :
    ∃ u, StepState s u c ∧ (inSteps r b first next).run s = (act o).run u := by
  obtain ⟨hnone, hc, rfl⟩ | ⟨hsome, rfl⟩ := h
  · exact ⟨begun s c, stepState_begun hc, (run_inSteps_first hnone hc first next).trans (hfirst hc)⟩
  · exact ⟨s, stepState_underWay hsome, (run_inSteps_next hsome first next).trans (hnext ▸ rfl)⟩

/-- A COPY handed over: without bytes or out of the capacity it ends, else its first step follows. -/
def copyFirst (src dst n sp dp : Nat) (c : Cmd) : Prog := .look fun s =>
  if n = 0 then finish c.id 0 0
  else if outside s sp src n || outside s dp dst n then finish c.id Code.CMD_RANGE 0
  else copyStep c src dst n sp dp 0

/-- As `copyFirst`, of a FILL. -/
def fillFirst (dst n space : Nat) (pattern : DWord) (c : Cmd) : Prog := .look fun s =>
  if n = 0 then finish c.id 0 0
  else if outside s space dst n then finish c.id Code.CMD_RANGE 0
  else fillStep c dst n space pattern 0

theorem run_copyFirst (s : State) (src dst n sp dp : Nat) (c : Cmd) : (copyFirst src dst n sp dp c).run (begun s c) = Prog.run
    (if n = 0 then finish c.id 0 0 else if outside s sp src n || outside s dp dst n then finish c.id Code.CMD_RANGE 0
      else copyStep c src dst n sp dp 0) (begun s c) := by
  unfold copyFirst
  rw [run_look, outside_begun, outside_begun]

theorem run_fillFirst (s : State) (dst n space : Nat) (pattern : DWord) (c : Cmd) : (fillFirst dst n space pattern c).run (begun s c) = Prog.run
    (if n = 0 then finish c.id 0 0 else if outside s space dst n then finish c.id Code.CMD_RANGE 0 else fillStep c dst n space pattern 0)
    (begun s c) := by
  unfold fillFirst
  rw [run_look, outside_begun]

theorem exec_copy (r : Fin 64) (src dst n sp dp : Nat) (s : State) : exec (.copy r src dst n sp dp) s = .next (Prog.run
    (whenP (!spaceHot s sp (src + stepAt s r (.copy src dst n sp dp)) (stepLen n (stepAt s r (.copy src dst n sp dp))) &&
        !spaceHot s dp (dst + stepAt s r (.copy src dst n sp dp)) (stepLen n (stepAt s r (.copy src dst n sp dp))))
      (inSteps r (.copy src dst n sp dp) (copyFirst src dst n sp dp) fun c => copyStep c src dst n sp dp c.part.moved)) s) := by
  show done (progCopy r src dst n sp dp) s = _
  unfold progCopy copyFirst
  rw [done_eq, run_look]

theorem exec_fill (r : Fin 64) (dst n space : Nat) (pattern : DWord) (s : State) : exec (.fill r dst n space pattern) s = .next (Prog.run
    (whenP (!spaceHot s space (dst + stepAt s r (.fill dst n space pattern)) (stepLen n (stepAt s r (.fill dst n space pattern))))
      (inSteps r (.fill dst n space pattern) (fillFirst dst n space pattern) fun c => fillStep c dst n space pattern c.part.moved)) s) := by
  show done (progFill r dst n space pattern) s = _
  unfold progFill fillFirst
  rw [done_eq, run_look]

section
variable {s : State} {r : Fin 64} {c : Cmd} {src dst n sp dp : Nat}

/-- A COPY waits whole while its step is on a stack at CRIT. -/
theorem exec_copy_hot (h : (spaceHot s sp (src + stepAt s r (.copy src dst n sp dp)) (stepLen n (stepAt s r (.copy src dst n sp dp))) ||
    spaceHot s dp (dst + stepAt s r (.copy src dst n sp dp)) (stepLen n (stepAt s r (.copy src dst n sp dp)))) = true) :
    exec (.copy r src dst n sp dp) s = .next s := by
  rw [exec_copy, ← Bool.not_or, h, Bool.not_true, run_whenP_false]

/-- A COPY that begins while its first step is on no stack at CRIT. -/
theorem exec_copy_first (hnone : underWay s r (.copy src dst n sp dp) = none) (hc : Awaits s r (.copy src dst n sp dp) c)
    (hsrc : spaceHot s sp src (stepLen n 0) = false) (hdst : spaceHot s dp dst (stepLen n 0) = false) :
    exec (.copy r src dst n sp dp) s = .next (Prog.run (if n = 0 then finish c.id 0 0
      else if outside s sp src n || outside s dp dst n then finish c.id Code.CMD_RANGE 0 else copyStep c src dst n sp dp 0) (begun s c)) := by
  rw [exec_copy, stepAt_first hnone, Nat.add_zero, Nat.add_zero, hsrc, hdst, Bool.not_false, Bool.and_self, run_whenP_true,
    run_inSteps_first hnone hc, run_copyFirst]

theorem exec_fill_first {pattern : DWord} (hnone : underWay s r (.fill dst n dp pattern) = none) (hc : Awaits s r (.fill dst n dp pattern) c)
    (hdst : spaceHot s dp dst (stepLen n 0) = false) :
    exec (.fill r dst n dp pattern) s = .next (Prog.run (if n = 0 then finish c.id 0 0
      else if outside s dp dst n then finish c.id Code.CMD_RANGE 0 else fillStep c dst n dp pattern 0) (begun s c)) := by
  rw [exec_fill, stepAt_first hnone, Nat.add_zero, hdst, Bool.not_false, run_whenP_true, run_inSteps_first hnone hc, run_fillFirst]

/-- A step of a COPY within the capacity and on no stack at CRIT. -/
theorem exec_copy_step {o : Nat} (h : Steps s r (.copy src dst n sp dp) c o) (ho : o < n) (hsrcIn : outside s sp src n = false)
    (hdstIn : outside s dp dst n = false) (hsrc : spaceHot s sp (src + o) (stepLen n o) = false) (hdst : spaceHot s dp (dst + o) (stepLen n o) = false) :
    ∃ u, StepState s u c ∧ exec (.copy r src dst n sp dp) s = .next ((copyStep c src dst n sp dp o).run u) := by
  have hfirst : Awaits s r (.copy src dst n sp dp) c →
      (copyFirst src dst n sp dp c).run (begun s c) = (copyStep c src dst n sp dp 0).run (begun s c) := fun _ => by
    rw [run_copyFirst, if_neg (by omega), hsrcIn, hdstIn, Bool.or_self, if_neg Bool.false_ne_true]
  obtain ⟨u, hu, hrun⟩ := run_inSteps_at h hfirst (next := fun c => copyStep c src dst n sp dp c.part.moved) rfl
  exact ⟨u, hu, by rw [exec_copy, stepAt_of_steps h, hsrc, hdst, Bool.not_false, Bool.and_self, run_whenP_true, hrun]⟩

theorem exec_fill_step {pattern : DWord} {o : Nat} (h : Steps s r (.fill dst n dp pattern) c o) (ho : o < n) (hdstIn : outside s dp dst n = false)
    (hdst : spaceHot s dp (dst + o) (stepLen n o) = false) :
    ∃ u, StepState s u c ∧ exec (.fill r dst n dp pattern) s = .next ((fillStep c dst n dp pattern o).run u) := by
  have hfirst : Awaits s r (.fill dst n dp pattern) c →
      (fillFirst dst n dp pattern c).run (begun s c) = (fillStep c dst n dp pattern 0).run (begun s c) := fun _ => by
    rw [run_fillFirst, if_neg (by omega), hdstIn, if_neg Bool.false_ne_true]
  obtain ⟨u, hu, hrun⟩ := run_inSteps_at h hfirst (next := fun c => fillStep c dst n dp pattern c.part.moved) rfl
  exact ⟨u, hu, by rw [exec_fill, stepAt_of_steps h, hdst, Bool.not_false, run_whenP_true, hrun]⟩

end

/-- Settles O47: a command's beginning, each of its steps, and a FLUSH each leave what their lemmas say. -/
theorem dataCommandsMove : Obligations.DataCommandsMove := by
  unfold Obligations.DataCommandsMove
  intro s r c src dst n sp dp pattern _ hdp ends kept after copy fill
  refine ⟨fun hhot => ?_, fun hnone hc hsrc hdst => ⟨fun hn => ?_, fun hn hout => ?_⟩, ?_,
    fun hnone hc hdst => ⟨fun hn => ?_, fun hn hout => ?_⟩, ?_, ?_⟩
  · exact exec_copy_hot hhot
  · refine ⟨_, exec_copy_first hnone hc hsrc hdst, ?_⟩
    rw [if_pos hn]
    exact finish_begun hc 0 0
  · refine ⟨_, exec_copy_first hnone hc hsrc hdst, ?_⟩
    rw [if_neg hn, if_pos hout]
    exact finish_begun hc Code.CMD_RANGE 0
  · intro o hsteps ho hsrcIn hdstIn k before hsrc hdst hopen
    obtain ⟨u, hu, hexec⟩ := exec_copy_step hsteps ho hsrcIn hdstIn hsrc hdst
    refine ⟨fun hapart => ⟨fun hpageS hpageD => ?_, fun hshort => ?_⟩, fun hmeet hpageS hpageD => ?_⟩
    · exact ⟨_, hexec, copyStep_whole hu hdp hopen hapart hpageS hpageD⟩
    · obtain ⟨j, hj, hbytes, hdone⟩ := copyStep_short hu hdp hopen hapart hshort
      exact ⟨_, j, hexec, hj, hbytes, hdone⟩
    · exact ⟨_, hexec, copyStep_overlapping hu hdp hopen hmeet hpageS hpageD⟩
  · refine ⟨_, exec_fill_first hnone hc hdst, ?_⟩
    rw [if_pos hn]
    exact finish_begun hc 0 0
  · refine ⟨_, exec_fill_first hnone hc hdst, ?_⟩
    rw [if_neg hn, if_pos hout]
    exact finish_begun hc Code.CMD_RANGE 0
  · intro o hsteps ho hdstIn k hdst hopen
    obtain ⟨u, hu, hexec⟩ := exec_fill_step hsteps ho hdstIn hdst
    refine ⟨fun hpage => ?_, fun hshort => ?_⟩
    · exact ⟨_, hexec, fillStep_whole hu hdp hopen pattern hpage⟩
    · obtain ⟨j, hj, hbytes, hdone⟩ := fillStep_short hu hdp hopen pattern hshort
      exact ⟨_, j, hexec, hj, hbytes, hdone⟩
  · intro hc hcool m
    obtain ⟨hlo, hhi⟩ := flushRange_end s dst n
    refine ⟨fun hout => ⟨_, exec_flush_started hc hcool, ?_⟩, fun hin hwell hnodup => ⟨_, exec_flush_started hc hcool, ?_⟩⟩
    · rw [hhi, if_pos hout]
      exact finish_begun hc Code.CMD_RANGE 0
    · obtain ⟨hbytes, hpoison, hclosed, hdone, hframe⟩ := flush_spec hc ⟨hwell, hnodup⟩
      rw [hhi, hlo] at hclosed
      rw [hhi, if_neg (Nat.not_lt.mpr hin)]
      exact ⟨hbytes, hpoison, hclosed, hdone, hframe⟩

end Sys2Proof.Machine
end

section
/-! What every step keeps (R53, R251, R323, R347, R407): each primitive change keeps it, so every program does, and so do the resets, ZERO and the
register writes that run as no program. -/

namespace Sys2Proof.Machine

open Sys2Proof

set_option Elab.async false

/-! ### Primitive changes -/

theorem ringArrive_bounds {f : FaultRing} (h : f.held.length ≤ 4096 ∧ (f.full = false → f.held.length < 4080)) (r : FaultRec) (d : Nat) :
    (ringArrive f r d).held.length ≤ 4096 ∧ ((ringArrive f r d).full = false → (ringArrive f r d).held.length < 4080) := by
  obtain ⟨hlen, hroom⟩ := h
  unfold ringArrive
  split
  · next hfull =>
    split
    · simpa [hfull] using hlen
    · split
      · next hlt => simpa [hfull] using hlt
      · simpa [hfull] using hlen
  · next hfull =>
    have := hroom (by simpa using hfull)
    simp only [List.length_append, List.length_singleton, decide_eq_false_iff_not]
    omega

theorem ringRelease_bounds {f : FaultRing} (h : f.held.length ≤ 4096 ∧ (f.full = false → f.held.length < 4080)) (k : Nat) :
    (ringRelease f k).held.length ≤ 4096 ∧ ((ringRelease f k).full = false → (ringRelease f k).held.length < 4080) := by
  obtain ⟨hlen, hroom⟩ := h
  unfold ringRelease
  split
  · have hheld : ∀ b : Bool, (if b = true then f.held.drop k else (f.held.drop k).map fun e => { e with live := false }).length = f.held.length - k := by
      intro b; cases b <;> simp
    simp only [hheld, List.length_drop, Bool.and_eq_false_iff, decide_eq_false_iff_not]
    refine ⟨by omega, ?_⟩
    rintro (hfull | hfew)
    · have := hroom hfull
      omega
    · omega
  · exact ⟨hlen, hroom⟩

theorem Inv.apply {s : State} (h : Inv s) (a : Act) : Inv (a.apply s) where
  mem := apply_wf a s h.mem
  regs := by
    rw [apply_regs]
    split
    · exact smCanon_set _ _ _ _ h.regs
    · exact h.regs
  countsForm := by
    rw [apply_counts]
    split
    · exact smCanon_set _ _ _ _ h.countsForm
    · exact h.countsForm
  pistes := by
    rw [apply_pistes]
    split
    · exact smCanon_set _ _ _ _ h.pistes
    · exact h.pistes
  gates := by
    rw [apply_gates]
    split
    · exact smCanon_set _ _ _ _ h.gates
    · exact h.gates
  counts i := by
    unfold countOf
    rw [apply_counts]
    split
    · rw [smGet_set]
      split
      · exact Nat.min_le_left _ _
      · exact h.counts i
    · exact h.counts i
  layout := by
    rw [apply_layout]
    have := h.layout
    split
    · split
      · exact this.trans (Nat.le_of_lt ‹_›)
      · exact this
    · split
      · exact (‹_ ∧ _› : _ ∧ _).2
      · exact this
    · exact this
    · exact this
  ring := by
    rw [apply_fr]
    split
    · exact ringArrive_bounds h.ring _ _
    · exact ringRelease_bounds h.ring _
    · exact h.ring
  fuses := by
    rw [apply_fuses]
    have := h.fuses
    split
    · exact Nat.max_le.mpr ⟨this, Nat.min_le_right _ _⟩
    · split <;> exact this
    · exact this

theorem Inv.run {s : State} (h : Inv s) (p : Prog) : Inv (p.run s) := run_keeps_inv Inv (fun a _ h => h.apply a) p s h

/-- The queue of commands plays no part. -/
theorem Inv.queue {s : State} (h : Inv s) (l : List Instr) : Inv { s with pending := l } :=
  ⟨h.mem, h.regs, h.countsForm, h.pistes, h.gates, h.counts, h.layout, h.ring, h.fuses⟩

theorem Inv.withPins {s : State} (h : Inv s) (x : Pins) : Inv { s with pins := x } := h.apply (.pins x)
theorem Inv.withSec {s : State} (h : Inv s) (x : SecSt) : Inv { s with sec := x } := h.apply (.sec x)

/-! ### ZERO and register writes -/

theorem Inv.zeroed {s : State} (h : Inv s) (i : Nat) : Inv { s with counts := smErase i s.counts } where
  __ := h
  countsForm := smCanon_erase _ _ _ h.countsForm
  counts k := by
    by_cases hk : k = i
    · subst hk
      exact le_of_eq_of_le (smGet_erase_same _ _ _) (Nat.zero_le _)
    · exact le_of_eq_of_le (smGet_erase_ne _ _ _ _ hk) (h.counts k)

theorem Inv.zeroWrite {s : State} (h : Inv s) (id : Ident) (v : Nat) : Inv (zeroWrite id v s) := by
  unfold Machine.zeroWrite
  split
  · split
    · exact h.zeroed _
    · exact h.run _
  · exact h.run _

theorem Inv.writeStep {s : State} (h : Inv s) (id : Ident) (a v : Nat) : Inv (writeStep id a v s) := by
  unfold Machine.writeStep
  split
  · exact h.zeroWrite _ _
  · exact h.run _

theorem Inv.wideWrite {s : State} (h : Inv s) (id : Ident) (a v : Nat) : Inv (wideWrite id a v s) := by
  have htwo := (h.writeStep id a (v % 2 ^ 32)).writeStep id (a + 4) (v / 2 ^ 32)
  unfold Machine.wideWrite
  split
  · exact htwo
  · dsimp only
    split
    · exact h.run _
    · exact htwo

theorem Inv.registerWriteStep {s : State} (h : Inv s) (id : Ident) (a size v : Nat) : Inv (registerWriteStep id a size v s) := by
  unfold Machine.registerWriteStep
  split
  · exact h
  · split
    · exact h.writeStep _ _ _
    · split
      · exact h.wideWrite _ _ _
      · exact h.run _

theorem Inv.regWriteStep {s : State} (h : Inv s) (p : Nat) (m : Msg) : Inv (regWriteStep p m s) := by
  unfold Machine.regWriteStep
  dsimp only
  split
  · exact ((h.run _).writeStep _ _ _).run _
  · exact h.run _

/-! ### Resets -/

theorem smCanon_mapRegs (f : Nat → Word → Word) {m : SMap Word} (h : SMapCanon regReset m) : SMapCanon regReset (mapRegs f m) := by
  have hkept : ∀ x y : Nat × Word, y ∈ (if f x.1 x.2 = regReset x.1 then none else some (x.1, f x.1 x.2)) → y = (x.1, f x.1 x.2) ∧ f x.1 x.2 ≠ regReset x.1 := by
    intro x y hy
    split at hy
    · cases hy
    · next hne => exact ⟨(Option.some.inj hy).symm, hne⟩
  refine ⟨List.Pairwise.filterMap _ (fun x y hxy x' hx' y' hy' => ?_) h.1, fun e he => ?_⟩
  · rw [(hkept x x' hx').1, (hkept y y' hy').1]
    exact hxy
  · obtain ⟨x, -, hx⟩ := List.mem_filterMap.mp he
    obtain ⟨rfl, hne⟩ := hkept x e hx
    exact hne

/-- A state whose counts, pistes, gates and epochs are cleared and whose ring is empty, with fuses that stood. -/
theorem Inv.cleared {s t : State} (h : Inv s) (hmem : Memory.wf t.mem) (hregs : SMapCanon regReset t.regs) (hcounts : t.counts = []) (hpistes : t.pistes = [])
    (hgates : t.gates = []) (hlayout : t.layout = LayoutSt.zero) (hring : t.fr = s.fr ∨ t.fr.held = []) (hfuses : t.fuses = s.fuses) : Inv t where
  mem := hmem
  regs := hregs
  countsForm := hcounts ▸ smCanon_nil _
  pistes := hpistes ▸ smCanon_nil _
  gates := hgates ▸ smCanon_nil _
  counts i := by unfold countOf; rw [hcounts]; exact Nat.zero_le _
  layout := by rw [hlayout]; exact Nat.le_refl _
  ring := by
    rcases hring with e | e
    · rw [e]; exact h.ring
    · rw [e]; exact ⟨Nat.zero_le _, fun _ => Nat.zero_lt_succ _⟩
  fuses := hfuses ▸ h.fuses

theorem Inv.powerOnState {s : State} (h : Inv s) : Inv (powerOnState s) :=
  h.cleared (systemMem_wf _ h.mem) (smCanon_nil _) rfl rfl rfl rfl (.inr rfl) rfl

theorem Inv.systemCleared {s : State} (h : Inv s) : Inv (systemCleared s) :=
  h.cleared (systemMem_wf _ h.mem) (smCanon_mapRegs _ h.regs) rfl rfl rfl rfl (.inr rfl) rfl

theorem Inv.coreCleared' {s : State} (h : Inv s) : Inv (coreCleared' s) :=
  h.cleared (coreMem_wf _ h.mem) (smCanon_mapRegs _ h.regs) rfl rfl rfl rfl (.inl rfl) rfl

theorem Inv.systemPulse {s : State} (h : Inv s) : Inv (systemPulse s) := by
  unfold Machine.systemPulse
  split
  · refine Inv.run ?_ (.seq freshChallenge (resetMarks 1 Reg.RST.SYSTEM_COUNT))
    exact h.cleared (systemMem_wf _ h.mem) (smCanon_nil _) rfl rfl rfl rfl (.inr rfl) rfl
  · exact h.systemCleared.run _

theorem Inv.powerDownState {s : State} (h : Inv s) (cause : DownCause) : Inv (powerDownState cause s) := by
  have hoff : Inv (offState s) := h.powerOnState.withPins _
  cases cause
  case pwrEn => exact hoff.withPins _
  case vinLimit => exact hoff.withPins _
  case shutdown => exact hoff

/-! ### Commands -/

/-- The commands that are no program of primitive changes: the resets and power-downs, ZERO, and the register writes that may write it. -/
def beyondPrograms : Instr → Bool
  | .zero .. => true | .registerWrite .. => true | .smbusTransaction .. => true | .regWrite .. => true
  | .powerOnReset => true | .coreReset => true | .systemReset => true
  | .powerDown .. => true | .vsbLoss .. => true | .dieSensorRead .. => true | .railFault .. => true
  | _ => false

theorem exec_program {c : Instr} (hc : beyondPrograms c = false) (s : State) : ∃ p, exec c s = done p s := by
  cases c
  case zero | registerWrite | smbusTransaction | regWrite | powerOnReset | coreReset | systemReset | powerDown | vsbLoss | dieSensorRead | railFault =>
    exact absurd hc Bool.true_eq_false_eq_False
  all_goals exact ⟨_, rfl⟩

theorem Inv.exec {s t : State} (h : Inv s) {c : Instr} (he : exec c s = .next t) : Inv t := by
  by_cases hc : beyondPrograms c = false
  · obtain ⟨p, hp⟩ := exec_program hc s
    rw [hp] at he
    cases he
    exact h.run p
  cases c
  case zero id v => cases he; exact h.zeroWrite _ _
  case registerWrite id addr size v bar =>
    cases he
    split
    · exact h.registerWriteStep _ _ _ _
    · split
      · exact h.run _
      · exact h
  case smbusTransaction pecOk isWrite off v ecc dev =>
    cases he
    split
    · exact h
    · split
      · exact h.writeStep _ _ _
      · exact h.run _
  case regWrite port msg => cases he; exact h.regWriteStep _ _
  case powerOnReset => cases he; exact h.powerOnState
  case coreReset =>
    cases he
    split
    · exact h.withPins _
    · split
      · exact h.systemPulse
      · have hcore : Inv (coreResetState s) := h.coreCleared'.run _
        dsimp only
        split
        · exact hcore.withSec _
        · exact hcore
  case systemReset =>
    cases he
    split
    · exact h.withPins _
    · exact h.systemPulse
  case powerDown cause vin =>
    cases he
    split
    · exact h
    · exact h.powerDownState _
  case vsbLoss mv =>
    cases he
    split
    · exact (h.powerDownState .shutdown).withPins _
    · exact h
  case dieSensorRead temps =>
    cases he
    dsimp only
    split
    · exact (h.run _).powerDownState _
    · exact h.run _
  case railFault rail volts amps =>
    cases he
    dsimp only
    split
    · exact (h.run _).powerDownState _
    · exact h.run _
  all_goals exact absurd rfl hc

/-- Settles O3: an idle step changes nothing, and a command keeps what its program, its reset or its register write keeps. -/
theorem stepKeepsInv : Obligations.StepKeepsInv := by
  unfold Obligations.StepKeepsInv
  intro s t h hstep
  unfold step at hstep
  split at hstep
  · cases hstep
    exact h
  · exact (h.queue _).exec hstep

end Sys2Proof.Machine
end

section
/-! The registers of the counter block (R253, R260, R263, R264): where their words lie, what they depend on, and ZERO. -/

namespace Sys2Proof.Machine

open Sys2Proof

set_option Elab.async false

/-! ### Fields of arrays -/

/-- Pages that show each of their block registers as the register file holds it. -/
def shownAsHeld : Page → Bool
  | .bar _ => true | .mbx _ => true | .hif => true | .stk _ => true
  | .syn k => decide (16 ≤ k)
  | _ => false

theorem plain_shownAsHeld {pg : Page} {f : Fld} {i : Nat} (hpg : shownAsHeld pg = true) (hok : pageOk pg = true) (hlo : 0x100 ≤ f.off + f.stride * i)
    (hoff : f.off + f.stride * i < 4096) (hw : f.lo + f.w ≤ 32) : plain pg f i = true := by
  unfold plain plainField
  rw [if_neg (Nat.not_lt.mpr hlo)]
  cases pg
  case syn k => simpa [hok, hoff, hw] using .inl (of_decide_eq_true hpg)
  case bar | mbx | hif | stk => simp [hok, hoff, hw]
  all_goals exact absurd hpg Bool.false_ne_true

/-- The fields of a barrier's first two words. -/
def barrierFields : List Fld :=
  [Reg.BAR.BARRIER_W0_PARTICIPANTS, Reg.BAR.BARRIER_W0_ROUND, Reg.BAR.BARRIER_W1_CUR, Reg.BAR.BARRIER_W1_NEXT, Reg.BAR.BARRIER_W1_CFG_REFUSED]

theorem plain_barrier {b : Nat} (hb : b < 256) {f : Fld} (hf : f ∈ barrierFields) : plain (barPage b) f (b % 128) = true := by
  have hall : ∀ f ∈ barrierFields, 0x100 ≤ f.off ∧ f.off < 0x108 ∧ f.stride = 16 ∧ f.lo + f.w ≤ 32 := by decide
  obtain ⟨hlo, hhi, hstride, hw⟩ := hall f hf
  refine plain_shownAsHeld rfl (decide_eq_true ?_) ?_ ?_ hw
  · omega
  all_goals rw [hstride]; omega

/-- The fields of a pair entry. -/
def pairFields : List Fld := [Reg.SYN17.PAIR_PRODUCER, Reg.SYN17.PAIR_CONSUMER, Reg.SYN17.PAIR_EN, Reg.SYN17.PAIR_DEPTH]

theorem plain_pair {e : Nat} (he : e < 256) {f : Fld} (hf : f ∈ pairFields) : plain (.syn 17) f e = true := by
  have hall : ∀ f ∈ pairFields, 0x100 ≤ f.off ∧ f.off < 0x108 ∧ f.stride = 8 ∧ f.lo + f.w ≤ 32 := by decide
  obtain ⟨hlo, hhi, hstride, hw⟩ := hall f hf
  refine plain_shownAsHeld rfl rfl ?_ ?_ hw <;> rw [hstride] <;> omega

/-- The fields of a proxy entry. -/
def proxyFields : List Fld := [Reg.SYN18.PROXY_NODE, Reg.SYN18.PROXY_COUNTER, Reg.SYN18.PROXY_VALID]

theorem plain_proxy {e : Nat} (he : e < 256) {f : Fld} (hf : f ∈ proxyFields) : plain (.syn 18) f e = true := by
  have hall : ∀ f ∈ proxyFields, f.off = 0x100 ∧ f.stride = 4 ∧ f.lo + f.w ≤ 32 := by decide
  obtain ⟨hoff, hstride, hw⟩ := hall f hf
  refine plain_shownAsHeld rfl rfl ?_ ?_ hw <;> rw [hoff, hstride] <;> omega

/-! ### A counter's CFG -/

/-- The word of a counter's CFG. -/
def cfgAddr (i : Nat) : Nat := fldAddr (.syn (i / 256)) Reg.SYN.CFG_MODE (i % 256)

theorem cfgAddr_eq (i : Nat) : cfgAddr i = 0x80000 + 4096 * (i / 256) + 0x900 + 4 * (i % 256) := rfl

/-- Words at the end of a page are shown as the register file holds them, in the pages that exist. -/
theorem wordAt_high (s : State) {a : Nat} (h : 0x900 ≤ a % 4096) : wordAt s a = if (pageAt a).isSome then regWord s a else 0 := by
  unfold wordAt
  cases hp : pageAt a with
  | none => rfl
  | some pg =>
    dsimp only
    rw [if_neg (by omega), Option.isSome_some, if_pos rfl]
    unfold viewWord
    rw [hp]
    have hne (o : Nat) (ho : o < 0x900) : a % 4096 ≠ o := by omega
    split
    · dsimp only
      rw [if_neg (hne _ (by decide)), if_neg (hne _ (by decide)), if_neg (hne _ (by decide)), if_neg (hne _ (by decide))]
    · dsimp only
      rw [if_neg (hne _ (by decide)), if_neg (hne _ (by decide)), if_neg (hne _ (by decide)), if_neg (hne _ (by decide)), if_neg (hne _ (by decide))]
    · dsimp only
      rw [if_neg (by omega)]
    · dsimp only
      rw [if_neg (by omega)]
    · rw [if_neg fun c => hne _ (by decide) c.2]
    · rw [if_neg fun c => hne _ (by decide) c.1]
    · dsimp only
      rw [if_neg (hne _ (by decide)), if_neg (hne _ (by decide))]
    · rfl

/-- The configuration of a counter depends on its word alone. -/
theorem counterCfg_congr {s t : State} {i : Nat} (h : regWord t (cfgAddr i) = regWord s (cfgAddr i)) :
    counterMode t i = counterMode s i ∧ counterIndex t i = counterIndex s i := by
  have hw : wordAt t (cfgAddr i) = wordAt s (cfgAddr i) := by
    rw [wordAt_high t (by rw [cfgAddr_eq]; omega), wordAt_high s (by rw [cfgAddr_eq]; omega), h]
  exact ⟨congrArg (fun w : Word => bits w.toNat 0 2) hw, congrArg (fun w : Word => bits w.toNat 8 8) hw⟩

theorem counterIndex_lt (s : State) (i : Nat) : counterIndex s i < 256 := bits_lt _ 8 8

/-! ### Pair entries -/

/-- The words of the enabled pair entries. -/
def pairWords (s : State) : List (Nat × Word) :=
  s.regs.filter fun e => decide (0x91100 ≤ e.1) && decide (e.1 < 0x91900) && e.1 % 8 == 0 && bit e.2.toNat 31

theorem enabledPairs_eq (s : State) : enabledPairs s = (pairWords s).map fun e => (e.1 - 0x91100) / 8 := rfl

theorem enabledPairs_lt {s : State} {e : Nat} (h : e ∈ enabledPairs s) : e < 256 := by
  obtain ⟨w, hw, rfl⟩ := List.mem_map.mp h
  have := (List.mem_filter.mp hw).2
  simp only [Bool.and_eq_true, decide_eq_true_eq] at this
  omega

/-- The words of the pair entries. -/
def pairAddrs (a : Nat) : Prop := 0x91100 ≤ a ∧ a < 0x91900

theorem pairAddrs_fld {e : Nat} (he : e < 256) {f : Fld} (hf : f ∈ pairFields) : pairAddrs (fldAddr (.syn 17) f e) := by
  have hall : ∀ f ∈ pairFields, 0x100 ≤ f.off ∧ f.off < 0x108 ∧ f.stride = 8 := by decide
  obtain ⟨hlo, hhi, hstride⟩ := hall f hf
  rw [fldAddr_eq, hstride]
  constructor <;> simp only [pageBase] <;> omega

/-- Two states hold the same pair entries. -/
def SamePairs (s t : State) : Prop := pairWords t = pairWords s ∧ ∀ a, pairAddrs a → regWord t a = regWord s a

theorem SamePairs.of_regs {s t : State} (h : t.regs = s.regs) : SamePairs s t :=
  ⟨by unfold pairWords; rw [h], fun a _ => by unfold regWord; rw [h]⟩

theorem SamePairs.trans {s t u : State} (h : SamePairs s t) (h' : SamePairs t u) : SamePairs s u :=
  ⟨h'.1.trans h.1, fun a ha => (h'.2 a ha).trans (h.2 a ha)⟩

theorem SamePairs.rd {s t : State} (h : SamePairs s t) {e : Nat} (he : e < 256) {f : Fld} (hf : f ∈ pairFields) :
    Machine.rd t (.syn 17) f e = Machine.rd s (.syn 17) f e := rd_of_regWord (h.2 _ (pairAddrs_fld he hf)) (plain_pair he hf)

theorem find?_congr_mem {α : Type} {l : List α} {p q : α → Bool} (h : ∀ x ∈ l, p x = q x) : l.find? p = l.find? q := by
  induction l with
  | nil => rfl
  | cons x r ih => rw [List.find?_cons, List.find?_cons, h x List.mem_cons_self, ih fun y hy => h y (List.mem_cons_of_mem _ hy)]

theorem SamePairs.pairOf {s t : State} (h : SamePairs s t) (i : Nat) : pairOf t i = pairOf s i := by
  unfold Machine.pairOf
  rw [enabledPairs_eq t, h.1, ← enabledPairs_eq]
  refine find?_congr_mem fun e he => ?_
  rw [h.rd (enabledPairs_lt he) (by decide), h.rd (enabledPairs_lt he) (by decide)]

theorem pairOf_lt {s : State} {i e : Nat} (h : pairOf s i = some e) : e < 256 := enabledPairs_lt (List.mem_of_find?_eq_some h)

theorem inPair_eq (s : State) (i : Nat) : inPair s i = (pairOf s i).isSome := List.isSome_find?.symm

/-! ### ZERO -/

theorem granted_of_letIn {s : State} {id : Ident} {a : Nat} (h : LetIn s id a false) : granted s id a true = true := by
  obtain ⟨pg, hp, hans, hall, hcl, hlive⟩ := h
  unfold granted
  rw [hp]
  rcases hlive with h | h | h
  · cases h
  · simp [hans, hall, hcl, Nat.not_le.mpr h]
  · simp [hans, hall, hcl, h]

theorem zeroAllowed_eq (s : State) (i : Nat) : zeroAllowed s i =
    ((s.sync.waits.all fun w => !(w.localOf == none && w.counter == i)) && counterMode s i == 0 && !inPair s i) := by
  unfold zeroAllowed registered
  rw [List.not_any_eq_all_not]

theorem zeroWrite_letIn {s : State} {id : Ident} (v : Nat) (h : LetIn s id 0x90108 false) : zeroWrite id v s =
    if zeroAllowed s (v % 4096) then { s with counts := smErase (v % 4096) s.counts }
    else (wr (.syn 16) Reg.SYN16.SYN_STATUS_ZERO_REFUSED 1).run s := if_pos (granted_of_letIn h)

/-- Settles O22: a write let in erases the count where the conditions hold, and else sets one field. -/
theorem zeroGuarded : Obligations.ZeroGuarded := by
  unfold Obligations.ZeroGuarded
  intro s id v hlet i may
  have hexec : exec (.zero id v) s = .next (if may then { s with counts := smErase i s.counts }
      else (wr (.syn 16) Reg.SYN16.SYN_STATUS_ZERO_REFUSED 1).run s) :=
    congrArg Host.Outcome.next ((zeroWrite_letIn v.toNat hlet).trans (by rw [zeroAllowed_eq]))
  refine ⟨fun hmay => ?_, fun hmay => ?_⟩ <;> rw [hexec, hmay]
  · exact ⟨_, rfl, smGet_erase_same _ _ _, fun k hk => smGet_erase_ne _ _ _ _ hk, rfl⟩
  · exact ⟨_, rfl, rd_wr_same s (.syn 16) _ 1 0 (by decide), onlyRegs_wr _ _ _ _ _ (List.mem_singleton.mpr rfl)⟩

end Sys2Proof.Machine
end

section
/-! Writes of SIG_GO, of a counter's CFG and of a pair entry, and reads of a count (R253, R263, R430): O20. -/

namespace Sys2Proof.Machine

open Sys2Proof

set_option Elab.async false

/-! ### CFG -/

theorem plain_cfg {i : Nat} (hi : i < 4096) {f : Fld} (hf : f = Reg.SYN.CFG_MODE ∨ f = Reg.SYN.CFG_INDEX) : plain (.syn (i / 256)) f (i % 256) = true := by
  have hoff : 0x900 + 4 * (i % 256) < 4096 := by omega
  have hpage : i / 256 < 19 := by omega
  have hblock : ¬ 0x900 + 4 * (i % 256) < 0x100 := by omega
  rcases hf with rfl | rfl <;>
    simp [plain, plainField, pageOk, Reg.SYN.CFG_MODE, Reg.SYN.CFG_INDEX, hoff, hpage, hblock]

theorem run_opCounterCfg_busy {s : State} {i : Nat} (v : Nat) (h : registered s i = true ∨ inPair s i = true) :
    (opCounterCfg i v).run s = (wr (.syn 16) Reg.SYN16.SYN_STATUS_CFG_BUSY 1).run s := by
  unfold opCounterCfg
  rw [run_look, if_pos (by simpa using h)]

theorem run_opCounterCfg_free {s : State} {i : Nat} (v : Nat) (hr : registered s i = false) (hp : inPair s i = false) :
    (opCounterCfg i v).run s = (wr (.syn (i / 256)) Reg.SYN.CFG_INDEX (bits v 8 8) (i % 256)).run
      ((whenP (bits v 0 2 != 3) (wr (.syn (i / 256)) Reg.SYN.CFG_MODE (bits v 0 2) (i % 256))).run s) := by
  unfold opCounterCfg
  rw [run_look, if_neg (by simp [hr, hp])]
  rfl

theorem counterMode_opCounterCfg {s : State} {i : Nat} (hi : i < 4096) (v : Nat) (hr : registered s i = false) (hp : inPair s i = false) :
    counterMode ((opCounterCfg i v).run s) i = if v % 4 = 3 then counterMode s i else v % 4 := by
  have hmode : bits v 0 2 = v % 4 := by simp [bits]
  rw [run_opCounterCfg_free v hr hp, hmode, run_whenP]
  unfold counterMode
  rw [rd_wr_other _ _ _ _ _ _ _ _ (plain_cfg hi (.inr rfl)) (plain_cfg hi (.inl rfl)) (.inr (.inr (.inr (by decide))))]
  by_cases h : v % 4 = 3
  · simp [h]
  · rw [if_pos (by simpa using h), if_neg h, rd_wr_same _ _ _ _ _ (plain_cfg hi (.inl rfl))]
    exact Nat.mod_mod _ _

theorem counterIndex_opCounterCfg {s : State} {i : Nat} (hi : i < 4096) (v : Nat) (hr : registered s i = false) (hp : inPair s i = false) :
    counterIndex ((opCounterCfg i v).run s) i = bits v 8 8 := by
  rw [run_opCounterCfg_free v hr hp]
  unfold counterIndex
  rw [rd_wr_same _ _ _ _ _ (plain_cfg hi (.inr rfl))]
  exact bits_mod v 8 8

/-! ### Pair entries -/

theorem wordFields_pairLow {e : Nat} (he : e < 256) :
    wordFields (.syn 17) (0x100 + 8 * e) = [Reg.SYN17.PAIR_PRODUCER, Reg.SYN17.PAIR_CONSUMER, Reg.SYN17.PAIR_EN] := by
  have hlow : ∀ f ∈ [Reg.SYN17.PAIR_PRODUCER, Reg.SYN17.PAIR_CONSUMER, Reg.SYN17.PAIR_EN], fldIn f (0x100 + 8 * e) = true := fun f hf => by
    have hall : ∀ f ∈ [Reg.SYN17.PAIR_PRODUCER, Reg.SYN17.PAIR_CONSUMER, Reg.SYN17.PAIR_EN], f.off = 0x100 ∧ f.stride = 8 ∧ f.cnt = 256 := by decide
    obtain ⟨hoff, hstride, hcnt⟩ := hall f hf
    simp only [fldIn, hoff, hstride, hcnt, Bool.and_eq_true, beq_iff_eq, decide_eq_true_eq]
    omega
  have hdepth : Reg.SYN17.PAIR_DEPTH.off = 0x104 ∧ Reg.SYN17.PAIR_DEPTH.stride = 8 ∧ Reg.SYN17.PAIR_DEPTH.cnt = 256 := ⟨rfl, rfl, rfl⟩
  have hhigh : fldIn Reg.SYN17.PAIR_DEPTH (0x100 + 8 * e) = false := by
    simp only [fldIn, hdepth, Bool.and_eq_false_iff, beq_eq_false_iff_ne, decide_eq_false_iff_not]
    omega
  unfold wordFields
  rw [if_neg (by omega)]
  simp only [List.forall_mem_cons] at hlow
  obtain ⟨hp, hc, hen, -⟩ := hlow
  simp [blockFields, fieldsSYN17, hp, hc, hen, hhigh]

theorem wordFields_pairHigh {e : Nat} (he : e < 256) : wordFields (.syn 17) (0x100 + 8 * e + 4) = [Reg.SYN17.PAIR_DEPTH] := by
  have hlow : ∀ f ∈ [Reg.SYN17.PAIR_PRODUCER, Reg.SYN17.PAIR_CONSUMER, Reg.SYN17.PAIR_EN], fldIn f (0x100 + 8 * e + 4) = false := fun f hf => by
    have hall : ∀ f ∈ [Reg.SYN17.PAIR_PRODUCER, Reg.SYN17.PAIR_CONSUMER, Reg.SYN17.PAIR_EN], f.off = 0x100 ∧ f.stride = 8 := by decide
    obtain ⟨hoff, hstride⟩ := hall f hf
    simp only [fldIn, hoff, hstride, Bool.and_eq_false_iff, beq_eq_false_iff_ne, decide_eq_false_iff_not]
    omega
  have hdepth : Reg.SYN17.PAIR_DEPTH.off = 0x104 ∧ Reg.SYN17.PAIR_DEPTH.stride = 8 ∧ Reg.SYN17.PAIR_DEPTH.cnt = 256 := ⟨rfl, rfl, rfl⟩
  have hhigh : fldIn Reg.SYN17.PAIR_DEPTH (0x100 + 8 * e + 4) = true := by
    simp only [fldIn, hdepth, Bool.and_eq_true, beq_iff_eq, decide_eq_true_eq]
    omega
  unfold wordFields
  rw [if_neg (by omega)]
  simp only [List.forall_mem_cons] at hlow
  obtain ⟨hp, hc, hen, -⟩ := hlow
  simp [blockFields, fieldsSYN17, hp, hc, hen, hhigh]

/-- A word of a pair entry written, before it is checked. -/
def pairWritten (s : State) (e : Nat) (high : Bool) (v : Nat) : State := (plainWrite (.syn 17) (0x100 + 8 * e + if high then 4 else 0) v).run s

theorem onlyRegs_pairWritten (s : State) (e : Nat) (high : Bool) (v : Nat) : OnlyRegs s (pairWritten s e high v) [0x91100 + 8 * e, 0x91104 + 8 * e] := by
  refine onlyRegs_reg s _ _ ?_
  cases high
  · exact List.mem_cons.mpr (.inl (by simp [pageBase]; omega))
  · exact List.mem_cons.mpr (.inr (List.mem_singleton.mpr (by simp [pageBase]; omega)))

theorem rd_pairWritten_low (s : State) {e : Nat} (he : e < 256) (v : Nat) {f : Fld} (hf : f ∈ [Reg.SYN17.PAIR_PRODUCER, Reg.SYN17.PAIR_CONSUMER, Reg.SYN17.PAIR_EN]) :
    rd (pairWritten s e false v) (.syn 17) f e = bits v f.lo f.w := by
  have hall : ∀ f ∈ [Reg.SYN17.PAIR_PRODUCER, Reg.SYN17.PAIR_CONSUMER, Reg.SYN17.PAIR_EN], f ∈ pairFields ∧ f.off = 0x100 ∧ f.stride = 8 ∧ f.lo + f.w ≤ 32 ∧
      f.acc = .rw ∧ ∀ g ∈ [Reg.SYN17.PAIR_PRODUCER, Reg.SYN17.PAIR_CONSUMER, Reg.SYN17.PAIR_EN], g ≠ f → g.lo + g.w ≤ f.lo ∨ f.lo + f.w ≤ g.lo := by decide
  obtain ⟨hpf, hoff, hstride, hw, hacc, hapart⟩ := hall f hf
  rw [rd_plain _ _ _ _ (plain_pair he hpf)]
  unfold rdRaw pairWritten
  rw [run_plainWrite, fldAddr_eq, hoff, hstride, regWord_reg, if_pos (by simp), bits_toNat_ofNat _ _ _ hw]
  simp only [Bool.false_eq_true, if_false, Nat.add_zero]
  rw [wordFields_pairLow he, bits_writeWordFields _ _ v f _ (by decide) hf hapart]
  simp [fieldAfter, hacc, offline]

theorem rd_pairWritten_high (s : State) {e : Nat} (he : e < 256) {v : Nat} (hv : v < 2 ^ 32) :
    rd (pairWritten s e true v) (.syn 17) Reg.SYN17.PAIR_DEPTH e = v := by
  rw [rd_plain _ _ _ _ (plain_pair he (by decide))]
  unfold rdRaw pairWritten
  rw [run_plainWrite, fldAddr_eq, regWord_reg, if_pos (by simp [Reg.SYN17.PAIR_DEPTH]; omega), bits_toNat_ofNat _ _ _ (by decide)]
  simp only [if_true, ← Nat.add_assoc]
  rw [wordFields_pairHigh he, bits_writeWordFields _ _ v Reg.SYN17.PAIR_DEPTH _ (by decide) (by decide) (by decide)]
  have hoff : offline s (.syn 17) = false := rfl
  rw [hoff, Bool.and_false]
  exact (Nat.mod_eq_of_lt ((Nat.div_one v).symm ▸ hv)).trans (Nat.div_one v)

/-- A write of one word of an entry leaves the fields of the other. -/
theorem rd_pairWritten_other (s : State) {e : Nat} (he : e < 256) (v : Nat) {f : Fld} (hf : f ∈ [Reg.SYN17.PAIR_PRODUCER, Reg.SYN17.PAIR_CONSUMER, Reg.SYN17.PAIR_EN]) :
    rd (pairWritten s e true v) (.syn 17) f e = rd s (.syn 17) f e := by
  have hall : ∀ f ∈ [Reg.SYN17.PAIR_PRODUCER, Reg.SYN17.PAIR_CONSUMER, Reg.SYN17.PAIR_EN], f ∈ pairFields ∧ f.off = 0x100 ∧ f.stride = 8 := by decide
  obtain ⟨hpf, hoff, hstride⟩ := hall f hf
  refine rd_of_regWord ?_ (plain_pair he hpf)
  unfold pairWritten
  rw [run_plainWrite, regWord_reg, if_neg (by rw [fldAddr_eq, hoff, hstride]; simp)]

/-- A pair entry whose word has been written stands, or it is disabled and PAIR_REFUSED is set. -/
theorem opPairEntry_cases (s : State) (e : Nat) (high : Bool) (v : Nat) :
    let u := pairWritten s e high v
    ((rd u (.syn 17) Reg.SYN17.PAIR_EN e = 1 → pairAllowed u e = true) ∧ (opPairEntry e high v).run s = u) ∨
    (rd u (.syn 17) Reg.SYN17.PAIR_EN e = 1 ∧
      (opPairEntry e high v).run s = (wr (.syn 16) Reg.SYN16.SYN_STATUS_PAIR_REFUSED 1).run ((wr (.syn 17) Reg.SYN17.PAIR_EN 0 e).run u)) := by
  unfold opPairEntry pairWritten
  rw [run_seq, run_look, run_whenP, run_seq]
  generalize (plainWrite _ _ _).run s = u
  split
  · next h => exact .inr ⟨by simpa using (Bool.and_eq_true_iff.mp h).1, rfl⟩
  · next h => exact .inl ⟨fun hen => by simpa [hen] using h, rfl⟩

theorem onlyRegs_opPairEntry (s : State) (e : Nat) (high : Bool) (v : Nat) : OnlyRegs s ((opPairEntry e high v).run s)
    [0x91100 + 8 * e, 0x91104 + 8 * e, fldAddr (.syn 16) Reg.SYN16.SYN_STATUS_PAIR_REFUSED 0] := by
  have hu : OnlyRegs s (pairWritten s e high v) [0x91100 + 8 * e, 0x91104 + 8 * e, fldAddr (.syn 16) Reg.SYN16.SYN_STATUS_PAIR_REFUSED 0] :=
    ⟨(onlyRegs_pairWritten s e high v).1, fun a ha => (onlyRegs_pairWritten s e high v).2 a fun c => ha (List.mem_append_left [_] c)⟩
  rcases opPairEntry_cases s e high v with ⟨-, h⟩ | ⟨-, h⟩ <;> rw [h]
  · exact hu
  · refine onlyRegs_trans (onlyRegs_trans hu (onlyRegs_wr _ _ _ _ _ (List.mem_cons.mpr (.inl ?_)))) (onlyRegs_wr _ _ _ _ _ (by simp))
    simp only [fldAddr_eq, pageBase, Reg.SYN17.PAIR_EN]
    omega

/-- What the check of an entry may change of its fields is EN alone. -/
theorem rd_opPairEntry (s : State) {e : Nat} (he : e < 256) (high : Bool) (v : Nat) {f : Fld} (hf : f ∈ pairFields) (hne : f ≠ Reg.SYN17.PAIR_EN) :
    rd ((opPairEntry e high v).run s) (.syn 17) f e = rd (pairWritten s e high v) (.syn 17) f e := by
  have hall : ∀ f ∈ pairFields, f ≠ Reg.SYN17.PAIR_EN → f.off ≠ 0x100 ∨ f.lo + f.w ≤ 31 := by decide
  have hstride : ∀ f ∈ pairFields, f.stride = 8 := by decide
  rcases opPairEntry_cases s e high v with ⟨-, h⟩ | ⟨-, h⟩ <;> rw [h]
  rw [rd_wr_other _ (.syn 16) (.syn 17) _ _ _ _ _ (by decide) (plain_pair he hf) (.inl (by decide)),
    rd_wr_other _ (.syn 17) (.syn 17) _ _ _ _ _ (plain_pair he (by decide)) (plain_pair he hf) (.inr ?_)]
  rcases hall f hf hne with ho | hb
  · refine .inl ?_
    rw [hstride f hf]
    simpa [Reg.SYN17.PAIR_EN] using ho.symm
  · exact .inr (.inr hb)

theorem rd_opPairEntry_en (s : State) {e : Nat} (he : e < 256) (high : Bool) (v : Nat) :
    let t := (opPairEntry e high v).run s
    (rd t (.syn 17) Reg.SYN17.PAIR_EN e = 1 → pairAllowed t e = true) ∧
    (rd (pairWritten s e high v) (.syn 17) Reg.SYN17.PAIR_EN e = 1 → rd t (.syn 17) Reg.SYN17.PAIR_EN e = 0 →
      rd t (.syn 16) Reg.SYN16.SYN_STATUS_PAIR_REFUSED = 1) ∧
    (rd (pairWritten s e high v) (.syn 17) Reg.SYN17.PAIR_EN e = 0 → t = pairWritten s e high v) := by
  intro t
  rcases opPairEntry_cases s e high v with ⟨hal, h⟩ | ⟨hen, h⟩
  · have ht : t = pairWritten s e high v := h
    rw [ht]
    exact ⟨hal, fun h1 h0 => absurd (h1.symm.trans h0) Nat.one_ne_zero, fun _ => rfl⟩
  · have ht : t = (wr (.syn 16) Reg.SYN16.SYN_STATUS_PAIR_REFUSED 1).run ((wr (.syn 17) Reg.SYN17.PAIR_EN 0 e).run (pairWritten s e high v)) := h
    have hoff : rd t (.syn 17) Reg.SYN17.PAIR_EN e = 0 := by
      rw [ht, rd_wr_other _ (.syn 16) (.syn 17) _ _ _ _ _ (by decide) (plain_pair he (by decide)) (.inl (by decide)),
        rd_wr_same _ _ _ _ _ (plain_pair he (by decide))]
      rfl
    refine ⟨fun h1 => absurd (h1.symm.trans hoff) Nat.one_ne_zero, fun _ _ => ?_, fun h0 => absurd (hen.symm.trans h0) Nat.one_ne_zero⟩
    rw [ht, rd_wr_same _ (.syn 16) _ _ _ (by decide)]
    rfl

/-! ### SIG_GO and COUNT -/

theorem run_opSigGo {v : Nat} (hv : v ≠ 0) (id : Ident) (s : State) :
    let sel := smGet zeroDefault s.ports.sigSel (identCode id)
    (opSigGo id v).run s = { s with sync := { s.sync with sigQ := s.sync.sigQ ++
      [{ counter := bits sel 0 12, amount := v, round := bits sel 16 16, src := .sigGo id, run := none, cmd := none, leg := noLeg }] } } := by
  unfold opSigGo
  rw [run_look, run_whenP, if_pos (by simpa using hv)]
  rfl

theorem exec_synCountRead {s : State} {id : Ident} {i : Fin 4096} (size : Nat) (h : LetRead s id (fldAddr (.syn (i / 256)) Reg.SYN.COUNT_LO (i % 256))) :
    exec (.synCountRead id i size) s = .next ((opCountSized id i size).run s) := by
  obtain ⟨pg, hp, hr⟩ := h
  exact congrArg Host.Outcome.next (run_readAccess _ hp ⟨pg, hp, hr⟩)

theorem run_opCountSized_of_ne {size : Nat} (h : size ≠ 4) (s : State) (id : Ident) (i : Nat) :
    (opCountSized id i size).run s = (respond id (countOf s i % 2 ^ (8 * size))).run s := by
  unfold opCountSized
  rw [if_neg h]
  rfl

theorem run_opCountRead (s : State) (id : Ident) (i : Nat) : (opCountRead id i).run s =
    (modPorts fun p => { p with countLatch := smSet zeroDefault p.countLatch (identCode id) ((i + 1) * 2 ^ 32 + countOf s i / 2 ^ 32) }).run
      ((respond id (countOf s i % 2 ^ 32)).run s) := rfl

/-! ### The obligation -/

theorem counterCfgWrite_spec (s : State) (id : Ident) (v : Word) (i : Fin 4096) (h : LetIn s id (fldAddr (.syn (i / 256)) Reg.SYN.CFG_MODE (i % 256)) false) :
    (registered s i = true ∨ inPair s i = true → ∃ t, exec (.counterCfgWrite id i v) s = .next t ∧
      rd t (.syn 16) Reg.SYN16.SYN_STATUS_CFG_BUSY = 1 ∧ OnlyRegs s t [fldAddr (.syn 16) Reg.SYN16.SYN_STATUS_CFG_BUSY 0]) ∧
    (registered s i = false → inPair s i = false → ∃ t, exec (.counterCfgWrite id i v) s = .next t ∧
      counterMode t i = (if v.toNat % 4 = 3 then counterMode s i else v.toNat % 4) ∧ counterIndex t i = bits v.toNat 8 8 ∧
      OnlyRegs s t [fldAddr (.syn (i / 256)) Reg.SYN.CFG_MODE (i % 256)]) := by
  have hexec : exec (.counterCfgWrite id i v) s = .next ((opCounterCfg i v.toNat).run s) := done_access _ h
  rw [hexec]
  refine ⟨fun hbusy => ⟨_, rfl, ?_⟩, fun hr hp => ⟨_, rfl, counterMode_opCounterCfg i.isLt _ hr hp, counterIndex_opCounterCfg i.isLt _ hr hp, ?_⟩⟩
  · rw [run_opCounterCfg_busy _ hbusy]
    exact ⟨rd_wr_same s (.syn 16) _ 1 0 (by decide), onlyRegs_wr _ _ _ _ _ (List.mem_singleton.mpr rfl)⟩
  · rw [run_opCounterCfg_free _ hr hp]
    exact onlyRegs_trans (onlyRegs_whenP _ (onlyRegs_wr _ _ _ _ _ (List.mem_singleton.mpr rfl))) (onlyRegs_wr _ _ _ _ _ (List.mem_singleton.mpr rfl))

theorem pairEntryWrite_spec (s : State) (id : Ident) (v : Word) (e : Fin 256) (high : Bool)
    (h : LetIn s id (fldAddr (.syn 17) Reg.SYN17.PAIR_PRODUCER e) false) : ∃ t, exec (.pairEntryWrite id e high v) s = .next t ∧
      (rd t (.syn 17) Reg.SYN17.PAIR_EN e = 1 → pairAllowed t e = true) ∧
      ((if high then rd s (.syn 17) Reg.SYN17.PAIR_EN e = 1 else bit v.toNat 31 = true) → rd t (.syn 17) Reg.SYN17.PAIR_EN e = 0 →
        rd t (.syn 16) Reg.SYN16.SYN_STATUS_PAIR_REFUSED = 1) ∧
      ((if high then rd s (.syn 17) Reg.SYN17.PAIR_EN e = 0 else bit v.toNat 31 = false) →
        rd t (.syn 17) Reg.SYN17.PAIR_EN e = 0 ∧ OnlyRegs s t [0x91100 + 8 * e, 0x91104 + 8 * e]) ∧
      (high = true → rd t (.syn 17) Reg.SYN17.PAIR_DEPTH e = v.toNat) ∧
      (high = false → rd t (.syn 17) Reg.SYN17.PAIR_PRODUCER e = bits v.toNat 0 12) ∧
      OnlyRegs s t [0x91100 + 8 * e, 0x91104 + 8 * e, fldAddr (.syn 16) Reg.SYN16.SYN_STATUS_PAIR_REFUSED 0] := by
  obtain ⟨hallowed, hrefused, hstands⟩ := rd_opPairEntry_en s e.isLt high v.toNat
  have hen : rd (pairWritten s e high v.toNat) (.syn 17) Reg.SYN17.PAIR_EN e =
      if high then rd s (.syn 17) Reg.SYN17.PAIR_EN e else ofBool (bit v.toNat 31) := by
    cases high
    · rw [rd_pairWritten_low s e.isLt _ (by decide)]
      simp only [bits, bit, ofBool, Reg.SYN17.PAIR_EN, Bool.false_eq_true, if_false, beq_iff_eq]
      split <;> omega
    · exact rd_pairWritten_other s e.isLt _ (by decide)
  refine ⟨_, done_access _ h, hallowed, fun hset => hrefused ?_, fun hclear => ?_, fun hh => ?_, fun hh => ?_, onlyRegs_opPairEntry _ _ _ _⟩
  · rw [hen]
    cases high
    · exact congrArg ofBool hset
    · exact hset
  · have hoff : rd (pairWritten s e high v.toNat) (.syn 17) Reg.SYN17.PAIR_EN e = 0 := by
      rw [hen]
      cases high
      · exact congrArg ofBool hclear
      · exact hclear
    rw [hstands hoff]
    exact ⟨hoff, onlyRegs_pairWritten _ _ _ _⟩
  · subst hh
    rw [rd_opPairEntry s e.isLt true _ (by decide) (by decide), rd_pairWritten_high s e.isLt v.isLt]
  · subst hh
    rw [rd_opPairEntry s e.isLt false _ (by decide) (by decide), rd_pairWritten_low s e.isLt _ (by decide)]
    rfl

theorem synCountRead_low (s : State) (id : Ident) (i : Fin 4096) (h : LetRead s id (fldAddr (.syn (i / 256)) Reg.SYN.COUNT_LO (i % 256))) :
    ∃ t, exec (.synCountRead id i 4) s = .next t ∧
      returned t id = countOf s i % 2 ^ 32 ∧ smGet zeroDefault t.ports.countLatch (identCode id) = (i + 1) * 2 ^ 32 + countOf s i / 2 ^ 32 ∧
      (∀ k, k ≠ identCode id → smGet zeroDefault t.ports.countLatch k = smGet zeroDefault s.ports.countLatch k) ∧
      t = { s with ports := { s.ports with response := t.ports.response, countLatch := t.ports.countLatch } } := by
  refine ⟨_, exec_synCountRead 4 h, ?_⟩
  unfold opCountSized
  rw [if_pos rfl, run_opCountRead]
  exact ⟨smGet_set_same _ _ _ _, smGet_set_same _ _ _ _, fun k hk => smGet_set_ne _ _ _ _ _ hk, rfl⟩

theorem sigGo_spec (s : State) (id : Ident) (v : Word) (h : LetIn s id (fldAddr (.syn 16) Reg.SYN16.SIG_GO 0) false) (hv : v ≠ 0) :
    let sel := smGet zeroDefault s.ports.sigSel (identCode id)
    exec (.sigGo id v) s = .next { s with sync := { s.sync with sigQ := s.sync.sigQ ++
      [{ counter := bits sel 0 12, amount := v.toNat, round := bits sel 16 16, src := .sigGo id, run := none, cmd := none, leg := 0x3FFF }] } } := by
  have hexec : exec (.sigGo id v) s = .next ((opSigGo id v.toNat).run s) := done_access _ h
  rw [hexec, run_opSigGo (fun c => hv (BitVec.eq_of_toNat_eq c))]
  rfl

/-- Settles O20: each access as its operation's law says. -/
theorem counterRegisters : Obligations.CounterRegisters := by
  unfold Obligations.CounterRegisters
  refine fun s id v => ⟨sigGo_spec s id v, fun i h => counterCfgWrite_spec s id v i h, fun e high h => pairEntryWrite_spec s id v e high h,
    fun i h => ⟨synCountRead_low s id i h, fun size hsize => ⟨_, exec_synCountRead size h, ?_⟩⟩⟩
  rw [run_opCountSized_of_ne (by omega)]
  exact onlyAnswers_respond _ _ _

end Sys2Proof.Machine
end

section
/-! The fields of a mailbox channel, and the wake of its receiver (R270 to R275). -/

namespace Sys2Proof.Machine

open Sys2Proof

set_option Elab.async false

/-! ### The status word of a channel -/

/-- The fields of a channel's STATUS. -/
def statusFields : List Fld :=
  [Reg.MBX0.STATUS_FULL, Reg.MBX0.STATUS_LOCKED, Reg.MBX0.STATUS_OWNER, Reg.MBX0.STATUS_LEN, Reg.MBX0.STATUS_EMPTY, Reg.MBX0.STATUS_REFUSED]

/-- The word of a channel's STATUS. -/
abbrev statusAddr (c : Nat) : Nat := fldAddr mb Reg.MBX0.STATUS_FULL c

theorem statusAddr_eq (c : Nat) : statusAddr c = 0x40108 + 64 * c := rfl

theorem statusField_at {f : Fld} (hf : f ∈ statusFields) : f.off = 0x108 ∧ f.stride = 64 ∧ f.lo + f.w ≤ 32 := by
  have hall : ∀ f ∈ statusFields, f.off = 0x108 ∧ f.stride = 64 ∧ f.lo + f.w ≤ 32 := by decide
  exact hall f hf

theorem fldAddr_status {f : Fld} (hf : f ∈ statusFields) (c : Nat) : fldAddr mb f c = statusAddr c := by
  obtain ⟨hoff, hstride, -⟩ := statusField_at hf
  rw [fldAddr_eq, hoff, hstride, statusAddr, fldAddr_eq]
  rfl

theorem plain_status {c : Nat} (hc : c < 32) {f : Fld} (hf : f ∈ statusFields) : plain mb f c = true := by
  obtain ⟨hoff, hstride, hw⟩ := statusField_at hf
  refine plain_shownAsHeld rfl rfl ?_ ?_ hw <;> rw [hoff, hstride] <;> omega

theorem onlyRegs_status (s : State) {f : Fld} (hf : f ∈ statusFields) (v c : Nat) : OnlyRegs s ((wr mb f v c).run s) [statusAddr c] :=
  onlyRegs_wr _ _ _ _ _ (List.mem_singleton.mpr (fldAddr_status hf c))

theorem rd_status_other (s : State) {c : Nat} (hc : c < 32) {f g : Fld} (hf : f ∈ statusFields) (hg : g ∈ statusFields) (hne : f ≠ g) (v : Nat) :
    rd ((wr mb f v c).run s) mb g c = rd s mb g c := by
  have hall : ∀ f ∈ statusFields, ∀ g ∈ statusFields, f ≠ g → f.lo + f.w ≤ g.lo ∨ g.lo + g.w ≤ f.lo := by decide
  exact rd_wr_other _ _ _ _ _ _ _ _ (plain_status hc hf) (plain_status hc hg) (.inr (.inr (hall f hf g hg hne)))

theorem rd_status_same (s : State) {c : Nat} (hc : c < 32) {f : Fld} (hf : f ∈ statusFields) (v : Nat) :
    rd ((wr mb f v c).run s) mb f c = v % 2 ^ f.w := rd_wr_same _ _ _ _ _ (plain_status hc hf)

theorem identCode_pos_lt (id : Ident) : 0 < identCode id ∧ identCode id < 16 := by
  cases id <;> simp only [identCode] <;> omega

/-! ### Locks -/

theorem onlyRegs_takeLock (s : State) (c owner : Nat) : OnlyRegs s ((takeLock c owner).run s) [statusAddr c] :=
  onlyRegs_trans (onlyRegs_status s (by decide) _ _) (onlyRegs_status _ (by decide) _ _)

theorem onlyRegs_dropLock (s : State) (c : Nat) : OnlyRegs s ((dropLock c).run s) [statusAddr c] :=
  onlyRegs_trans (onlyRegs_status s (by decide) _ _) (onlyRegs_status _ (by decide) _ _)

theorem onlyRegs_refuse (s : State) (c : Nat) : OnlyRegs s ((refuse c).run s) [statusAddr c] := onlyRegs_status s (by decide) _ _

theorem rd_takeLock (s : State) {c : Nat} (hc : c < 32) (id : Ident) : let t := (takeLock c (identCode id)).run s
    rd t mb Reg.MBX0.STATUS_LOCKED c = 1 ∧ lockOwner t c = identCode id ∧ rd t mb Reg.MBX0.STATUS_FULL c = rd s mb Reg.MBX0.STATUS_FULL c := by
  unfold takeLock lockOwner
  rw [run_seq]
  refine ⟨?_, (rd_status_same _ hc (by decide) _).trans (Nat.mod_eq_of_lt (identCode_pos_lt id).2), ?_⟩
  · rw [rd_status_other _ hc (by decide) (by decide) (by decide), rd_status_same _ hc (by decide)]
    rfl
  · rw [rd_status_other _ hc (by decide) (by decide) (by decide), rd_status_other _ hc (by decide) (by decide) (by decide)]

theorem rd_dropLock (s : State) {c : Nat} (hc : c < 32) : let t := (dropLock c).run s
    rd t mb Reg.MBX0.STATUS_LOCKED c = 0 ∧ lockOwner t c = 0 ∧
    (∀ f ∈ statusFields, f ≠ Reg.MBX0.STATUS_LOCKED → f ≠ Reg.MBX0.STATUS_OWNER → rd t mb f c = rd s mb f c) := by
  unfold dropLock lockOwner
  rw [run_seq]
  refine ⟨?_, rd_status_same _ hc (by decide) _, fun f hf hl ho => ?_⟩
  · rw [rd_status_other _ hc (by decide) (by decide) (by decide), rd_status_same _ hc (by decide)]
    rfl
  · rw [rd_status_other _ hc (by decide) hf (Ne.symm ho), rd_status_other _ hc (by decide) hf (Ne.symm hl)]

theorem rd_refuse (s : State) {c : Nat} (hc : c < 32) : rd ((refuse c).run s) mb Reg.MBX0.STATUS_REFUSED c = 1 ∧
    (∀ f ∈ statusFields, f ≠ Reg.MBX0.STATUS_REFUSED → rd ((refuse c).run s) mb f c = rd s mb f c) :=
  ⟨rd_status_same s hc (by decide) _, fun _ hf hne => rd_status_other s hc (by decide) hf (Ne.symm hne) _⟩

/-- A lock that is taken, forced open. -/
theorem run_forceLock (s : State) (c : Nat) : (forceLock c).run s =
    if rd s mb Reg.MBX0.STATUS_LOCKED c = 1 then (refuse c).run ((dropLock c).run s) else s := by
  unfold forceLock
  rw [run_look, run_whenP, run_seq]
  simp only [beq_iff_eq]

theorem forceLock_spec {s : State} {c : Nat} (hc : c < 32) (h : rd s mb Reg.MBX0.STATUS_LOCKED c = 1) : let t := (forceLock c).run s
    rd t mb Reg.MBX0.STATUS_LOCKED c = 0 ∧ lockOwner t c = 0 ∧ rd t mb Reg.MBX0.STATUS_REFUSED c = 1 ∧ OnlyRegs s t [statusAddr c] := by
  obtain ⟨hl, ho, -⟩ := rd_dropLock s hc
  obtain ⟨hr, hk⟩ := rd_refuse ((dropLock c).run s) hc
  rw [run_forceLock, if_pos h]
  exact ⟨(hk _ (by decide) (by decide)).trans hl, (hk _ (by decide) (by decide)).trans ho, hr,
    onlyRegs_trans (onlyRegs_dropLock s c) (onlyRegs_refuse _ c)⟩

/-! ### Answers and changes of the channel -/

/-- A change of words made before an answer or after it. -/
theorem answered_onlyRegs {s u v t : State} {id : Ident} {n : Nat} {l : List Nat} (hu : OnlyRegs s u l) (hv : OnlyAnswers u v id n) (ht : OnlyRegs v t l) :
    returned t id = n ∧ t = { s with regs := t.regs, ports := { s.ports with response := t.ports.response } } ∧ RegsKept s t l := by
  obtain ⟨hu, hku⟩ := hu
  obtain ⟨hn, hv⟩ := hv
  obtain ⟨ht, hkt⟩ := ht
  have hports : t.ports = v.ports := by rw [ht]
  have hwords (a : Nat) : regWord v a = regWord u a := by rw [hv]; rfl
  refine ⟨?_, ?_, fun a ha => (hkt a ha).trans ((hwords a).trans (hku a ha))⟩
  · unfold returned
    rw [hports]
    exact hn
  · refine ht.trans ?_
    rw [hports, hv, hu]

/-! ### Accesses of a channel -/

theorem exec_readAccess {s : State} {id : Ident} {a : Nat} (p : Prog) (h : LetRead s id a) : done (readAccess id a fun _ => p) s = .next (p.run s) := by
  obtain ⟨pg, hp, hr⟩ := h
  exact congrArg Host.Outcome.next (run_readAccess _ hp ⟨pg, hp, hr⟩)

theorem mbxLockRead_spec (s : State) (id : Ident) (c : Fin 32) (h : LetRead s id (fldAddr mb Reg.MBX0.LOCK c)) :
    ∃ t, exec (.mbxLockRead id c) s = .next t ∧ t = { s with regs := t.regs, ports := { s.ports with response := t.ports.response } } ∧
      RegsKept s t [statusAddr c] ∧
      (chanValid s c = true → chanSender s c = identCode id → rd s mb Reg.MBX0.STATUS_LOCKED c = 0 →
        returned t id = 0 ∧ rd t mb Reg.MBX0.STATUS_LOCKED c = 1 ∧ lockOwner t c = identCode id ∧
        rd t mb Reg.MBX0.STATUS_FULL c = rd s mb Reg.MBX0.STATUS_FULL c) ∧
      (chanValid s c = true → chanSender s c = identCode id → rd s mb Reg.MBX0.STATUS_LOCKED c = 1 → returned t id = lockOwner s c ∧ t.regs = s.regs) ∧
      (chanValid s c = true → chanSender s c ≠ identCode id → returned t id = 15 ∧ t.regs = s.regs) ∧
      (chanValid s c = false → returned t id = 0 ∧ rd t mb Reg.MBX0.STATUS_REFUSED c = 1) := by
  have hexec : exec (.mbxLockRead id c) s = .next ((opLockRead id c).run s) := exec_readAccess _ h
  rw [hexec]
  unfold opLockRead
  rw [run_look]
  cases hvalid : chanValid s c with
  | false =>
    obtain ⟨hret, hframe, hkept⟩ := answered_onlyRegs (onlyRegs_refl s _) (onlyAnswers_respond s id 0) (onlyRegs_refuse _ c)
    have hno {P : Prop} (h : false = true) : P := absurd h Bool.false_ne_true
    rw [if_pos (by rfl)]
    exact ⟨_, rfl, hframe, hkept, hno, hno, hno, fun _ => ⟨hret, (rd_refuse _ c.isLt).1⟩⟩
  | true =>
    have hno {P : Prop} (h : true = false) : P := absurd h.symm Bool.false_ne_true
    rw [if_neg (by simp)]
    by_cases hsender : identCode id = chanSender s c
    · rw [if_pos hsender]
      by_cases hfree : rd s mb Reg.MBX0.STATUS_LOCKED c = 0
      · rw [if_pos hfree]
        obtain ⟨hret, hframe, hkept⟩ := answered_onlyRegs (onlyRegs_takeLock s c _) (onlyAnswers_respond _ id 0) (onlyRegs_refl _ _)
        exact ⟨_, rfl, hframe, hkept, fun _ _ _ => ⟨hret, rd_takeLock s c.isLt id⟩, fun _ _ h1 => absurd (hfree.symm.trans h1) Nat.zero_ne_one,
          fun _ hne => absurd hsender.symm hne, hno⟩
      · rw [if_neg hfree]
        obtain ⟨hret, hframe, hkept⟩ := answered_onlyRegs (onlyRegs_refl s _) (onlyAnswers_respond s id (lockOwner s c)) (onlyRegs_refl _ [statusAddr c])
        exact ⟨_, rfl, hframe, hkept, fun _ _ h0 => absurd h0 hfree, fun _ _ _ => ⟨hret, rfl⟩, fun _ hne => absurd hsender.symm hne, hno⟩
    · rw [if_neg hsender]
      obtain ⟨hret, hframe, hkept⟩ := answered_onlyRegs (onlyRegs_refl s _) (onlyAnswers_respond s id 15) (onlyRegs_refl _ [statusAddr c])
      exact ⟨_, rfl, hframe, hkept, fun _ he => absurd he.symm hsender, fun _ he => absurd he.symm hsender, fun _ _ => ⟨hret, rfl⟩, hno⟩

theorem mbxLockRelease_spec (s : State) (id : Ident) (c : Fin 32) (v : Word) (h : LetIn s id (fldAddr mb Reg.MBX0.LOCK c) false)
    (hvalid : chanValid s c = true) :
    let owns := rd s mb Reg.MBX0.STATUS_LOCKED c = 1 ∧ lockOwner s c = identCode id
    (owns → v.toNat % 16 = 0 → ∃ t, exec (.mbxLockRelease id c v) s = .next t ∧ rd t mb Reg.MBX0.STATUS_LOCKED c = 0 ∧ lockOwner t c = 0 ∧
      rd t mb Reg.MBX0.STATUS_FULL c = rd s mb Reg.MBX0.STATUS_FULL c ∧ OnlyRegs s t [statusAddr c]) ∧
    (¬ (owns ∧ v.toNat % 16 = 0) → exec (.mbxLockRelease id c v) s = .next s) := by
  intro owns
  have hexec : exec (.mbxLockRelease id c v) s = .next (if owns ∧ v.toNat % 16 = 0 then (dropLock c).run s else s) := by
    have hrun : exec (.mbxLockRelease id c v) s = .next ((opLockWrite id c v.toNat).run s) := done_access _ h
    rw [hrun]
    unfold opLockWrite
    rw [run_look, hvalid, if_neg (by simp), run_whenP]
    simp only [Bool.and_eq_true, beq_iff_eq, owns]
  refine ⟨fun ho hz => ?_, fun hn => by rw [hexec, if_neg hn]⟩
  obtain ⟨hl, hown, hk⟩ := rd_dropLock s c.isLt
  rw [hexec, if_pos ⟨ho, hz⟩]
  exact ⟨_, rfl, hl, hown, hk _ (by decide) (by decide) (by decide), onlyRegs_dropLock s c⟩

theorem mbxForce_spec (s : State) (id : Ident) (v : Word) (h : LetIn s id (fldAddr (.mbx 1) Reg.MBX1.FORCE 0) false) (hcp : isCp id = true) :
    let k := v.toNat % 32
    (rd s mb Reg.MBX0.STATUS_LOCKED k = 1 → ∃ t, exec (.mbxForce id v) s = .next t ∧ rd t mb Reg.MBX0.STATUS_LOCKED k = 0 ∧ lockOwner t k = 0 ∧
      rd t mb Reg.MBX0.STATUS_REFUSED k = 1 ∧ OnlyRegs s t [statusAddr k]) ∧
    (rd s mb Reg.MBX0.STATUS_LOCKED k = 0 → exec (.mbxForce id v) s = .next s) := by
  intro k
  have hexec : exec (.mbxForce id v) s = .next ((forceLock k).run s) := by
    have hrun : exec (.mbxForce id v) s = .next ((opForce id v.toNat).run s) := done_access _ h
    rw [hrun]
    unfold opForce
    rw [hcp, run_whenP_true]
  refine ⟨fun h1 => ⟨_, hexec, forceLock_spec (Nat.mod_lt _ (by decide)) h1⟩, fun h0 => ?_⟩
  rw [hexec, run_forceLock, if_neg (by rw [h0]; exact Nat.zero_ne_one)]

/-- Settles O24: the lock is read, released and forced by the laws of each access. -/
theorem mailboxLocks : Obligations.MailboxLocks := by
  unfold Obligations.MailboxLocks
  exact fun s id c v => ⟨mbxLockRead_spec s id c, mbxLockRelease_spec s id c v, mbxForce_spec s id v⟩

end Sys2Proof.Machine
end

section
/-! Doorbells (R272, R274): what the wake of a receiver changes, and O25. -/

namespace Sys2Proof.Machine

open Sys2Proof

set_option Elab.async false

/-! ### Page events -/

/-- The EVENT word of a page with a bit set, and the bit counted. -/
def eventCounted (pg : Page) (e : Nat) (s : State) : State :=
  (addSat pg Reg.COMMON.EVENT_COUNT 1 (e % 16)).run
    ((Act.reg (pageBase pg + 0x10) (regWord s (pageBase pg + 0x10) ||| BitVec.ofNat 32 (2 ^ e))).apply s)

theorem run_setEvent (pg : Page) (e : Nat) (s : State) : (setEvent pg e).run s =
    (whenP (eventLive s pg == 0 && eventLive (eventCounted pg e s) pg != 0) (sendMsix (pageVector pg))).run (eventCounted pg e s) := by
  unfold setEvent eventCounted
  rw [run_look]
  dsimp only
  rw [run_progs_cons, run_prim, run_progs_cons, run_progs_cons, run_look, run_progs_nil]

theorem onlyRegs_eventCounted (pg : Page) (e : Nat) (s : State) :
    OnlyRegs s (eventCounted pg e s) [pageBase pg + 0x10, fldAddr pg Reg.COMMON.EVENT_COUNT (e % 16)] :=
  onlyRegs_trans (onlyRegs_reg s _ _ List.mem_cons_self) (onlyRegs_wr _ _ _ _ _ (List.mem_cons_of_mem _ List.mem_cons_self))

theorem eventBit_eventCounted (pg : Page) {e : Nat} (he : e < 32) (s : State) : bit (regWord (eventCounted pg e s) (pageBase pg + 0x10)).toNat e = true := by
  have hne : pageBase pg + 0x10 ≠ fldAddr pg Reg.COMMON.EVENT_COUNT (e % 16) := by
    rw [fldAddr_eq]
    simp only [Reg.COMMON.EVENT_COUNT]
    omega
  have hkept (v : Nat) (t : State) : regWord ((wr pg Reg.COMMON.EVENT_COUNT v (e % 16)).run t) (pageBase pg + 0x10) = regWord t (pageBase pg + 0x10) := by
    rw [regWord_wr, if_neg hne]
  unfold eventCounted addSat
  rw [run_look, hkept, regWord_reg, if_pos rfl, bit_eq_testBit, BitVec.testBit_toNat, BitVec.getLsbD_or, BitVec.getLsbD_ofNat]
  simp [he]

theorem run_sendMsix (v : Nat) (s : State) : (sendMsix v).run s = { s with host := { s.host with
    msix := s.host.msix ++ [v], msixPend := if msixHeld s.host v then smSet flagDefault s.host.msixPend v true else s.host.msixPend } } := rfl

/-- An event sets its bit, and may send its page's message. -/
theorem setEvent_spec (pg : Page) {e : Nat} (he : e < 32) (s : State) : let t := (setEvent pg e).run s
    t = { s with regs := t.regs, host := { s.host with msix := t.host.msix, msixPend := t.host.msixPend } } ∧
    bit (regWord t (pageBase pg + 0x10)).toNat e = true := by
  have hframe := (onlyRegs_eventCounted pg e s).1
  have hbit := eventBit_eventCounted pg he s
  rw [run_setEvent, run_whenP]
  generalize eventCounted pg e s = u at hframe hbit
  split
  · refine ⟨?_, ?_⟩
    · rw [hframe, run_sendMsix]
    · have hword : regWord ((sendMsix (pageVector pg)).run u) (pageBase pg + 0x10) = regWord u (pageBase pg + 0x10) :=
        (only_sendMsix (K := [.host])).writes (by decide) (A := fun _ => False) _ (fun h => h) u
      rw [hword]
      exact hbit
  · refine ⟨?_, hbit⟩
    rw [hframe]

/-! ### Wakes -/

/-- The words that the wake of a receiver may write. -/
def wakeWords (c : Nat) : List Nat := (pageBase mb + 0x10) :: fldAddr mb Reg.COMMON.EVENT_COUNT (c % 16) :: fabricWords

theorem writes_request_fabric (m : Msg) (p : Option Nat) (g l q n k : Nat) : Writes (· ∈ fabricWords) (request m p g l q n k) := by
  refine writes_look fun s => ?_
  dsimp only
  split
  · exact writes_look fun _ => writes_seq (only_modBnd (K := [.bnd])).writes (writes_look fun _ => writes_routeMsg_fabric _ _)
  · exact (only_modBnd (K := [.bnd])).writes

theorem only_driveAlert : Only [.pins] driveAlert := only_look fun _ => only_modPins

theorem writes_wakeReceiver (c : Nat) : Writes (· ∈ wakeWords c) (wakeReceiver c) := by
  refine writes_look fun s => writes_ite (fun _ => ?_) fun _ => writes_ite (fun _ => ?_) fun _ => writes_ite (fun _ => ?_) fun _ =>
    writes_ite (fun _ => ?_) fun _ => writes_skip
  · exact writes_setEvent List.mem_cons_self (List.mem_cons_of_mem _ List.mem_cons_self)
  · exact writes_seq (only_modPorts (K := [.ports])).writes only_driveAlert.writes
  · exact (writes_request_fabric _ _ _ _ _ _ _).mono fun _ ha => List.mem_cons_of_mem _ (List.mem_cons_of_mem _ ha)
  · exact (only_modFw (K := [.fw])).writes

/-- No wake writes a word of a channel. -/
theorem not_wakeWords {a c : Nat} (h : 0x40100 ≤ a) (h' : a < 0x41000) : a ∉ wakeWords c := by
  have hfab : ∀ b ∈ fabricWords, 0x41000 ≤ b := by decide
  intro ha
  rcases List.mem_cons.mp ha with e | ha
  · rw [e] at h
    exact absurd h (by decide)
  · rcases List.mem_cons.mp ha with e | ha
    · have : fldAddr mb Reg.COMMON.EVENT_COUNT (c % 16) = 0x40020 + 4 * (c % 16) := rfl
      omega
    · have := hfab a ha
      omega

/-! ### A doorbell taken -/

/-- A message of a length put in a channel, before its receiver is woken. -/
def mailPut (s : State) (c len : Nat) : State := (wr mb Reg.MBX0.STATUS_LEN len c).run ((wr mb Reg.MBX0.STATUS_FULL 1 c).run s)

theorem onlyRegs_mailPut (s : State) (c len : Nat) : OnlyRegs s (mailPut s c len) [statusAddr c] :=
  onlyRegs_trans (onlyRegs_status s (by decide) _ _) (onlyRegs_status _ (by decide) _ _)

theorem rd_mailPut (s : State) {c : Nat} (hc : c < 32) {len : Nat} (hlen : len < 16) :
    rd (mailPut s c len) mb Reg.MBX0.STATUS_FULL c = 1 ∧ rd (mailPut s c len) mb Reg.MBX0.STATUS_LEN c = len ∧
    rd (mailPut s c len) mb Reg.MBX0.STATUS_LOCKED c = rd s mb Reg.MBX0.STATUS_LOCKED c := by
  unfold mailPut
  refine ⟨?_, (rd_status_same _ hc (by decide) _).trans (Nat.mod_eq_of_lt hlen), ?_⟩
  · rw [rd_status_other _ hc (by decide) (by decide) (by decide), rd_status_same _ hc (by decide)]
    rfl
  · rw [rd_status_other _ hc (by decide) (by decide) (by decide), rd_status_other _ hc (by decide) (by decide) (by decide)]

theorem run_opDoorbell_taken {s : State} {id : Ident} {c v : Nat} (h : chanValid s c = true ∧ rd s mb Reg.MBX0.STATUS_LOCKED c = 1 ∧
    lockOwner s c = identCode id ∧ rd s mb Reg.MBX0.STATUS_FULL c = 0 ∧ 1 ≤ bits v 0 4 ∧ bits v 0 4 ≤ 8) :
    (opDoorbell id c v).run s = (whenP (bit v 8) (dropLock c)).run ((wakeReceiver c).run (mailPut s c (bits v 0 4))) := by
  obtain ⟨hvalid, hlocked, howner, hfull, hmin, hmax⟩ := h
  unfold opDoorbell
  rw [run_look]
  dsimp only
  rw [if_pos (by simp [hvalid, hlocked, howner, hfull, hmin, hmax])]
  rfl

theorem run_opDoorbell_refused {s : State} {id : Ident} {c v : Nat} (h : ¬ (chanValid s c = true ∧ rd s mb Reg.MBX0.STATUS_LOCKED c = 1 ∧
    lockOwner s c = identCode id ∧ rd s mb Reg.MBX0.STATUS_FULL c = 0 ∧ 1 ≤ bits v 0 4 ∧ bits v 0 4 ≤ 8)) :
    (opDoorbell id c v).run s = (refuse c).run s := by
  unfold opDoorbell
  rw [run_look]
  dsimp only
  rw [if_neg]
  simpa only [Bool.and_eq_true, beq_iff_eq, decide_eq_true_eq, and_assoc] using h

/-- What a doorbell leaves of its channel, whoever is woken. -/
theorem doorbell_channel (s : State) {c : Nat} (hc : c < 32) {len : Nat} (hlen : len < 16) (release : Bool) (hlocked : rd s mb Reg.MBX0.STATUS_LOCKED c = 1) :
    let t := (whenP release (dropLock c)).run ((wakeReceiver c).run (mailPut s c len))
    rd t mb Reg.MBX0.STATUS_FULL c = 1 ∧ rd t mb Reg.MBX0.STATUS_LEN c = len ∧ rd t mb Reg.MBX0.STATUS_LOCKED c = (if release then 0 else 1) ∧
    (∀ j, j < 8 → dataWord t c j = dataWord s c j) := by
  have hwoken {f : Fld} (hf : f ∈ statusFields) : rd ((wakeReceiver c).run (mailPut s c len)) mb f c = rd (mailPut s c len) mb f c := by
    refine (writes_wakeReceiver c).rd (not_wakeWords ?_ ?_) (plain_status hc hf) _ <;> rw [fldAddr_status hf, statusAddr_eq] <;> omega
  have hdata (j : Nat) (hj : j < 8) : dataAddr c j = 0x40120 + 64 * c + 4 * j := by rfl
  have hstatus (j : Nat) (hj : j < 8) : dataAddr c j ∉ [statusAddr c] := by
    rw [hdata j hj, List.mem_singleton, statusAddr_eq]
    omega
  have hword (j : Nat) (hj : j < 8) : dataWord ((wakeReceiver c).run (mailPut s c len)) c j = dataWord s c j :=
    congrArg BitVec.toNat (((writes_wakeReceiver c) _ (not_wakeWords (by rw [hdata j hj]; omega) (by rw [hdata j hj]; omega)) _).trans
      ((onlyRegs_mailPut s c len).2 _ (hstatus j hj)))
  obtain ⟨hfull, hl, hlock⟩ := rd_mailPut s hc hlen
  have hf := (hwoken (f := Reg.MBX0.STATUS_FULL) (by decide)).trans hfull
  have hl := (hwoken (f := Reg.MBX0.STATUS_LEN) (by decide)).trans hl
  have hlock := (hwoken (f := Reg.MBX0.STATUS_LOCKED) (by decide)).trans (hlock.trans hlocked)
  generalize (wakeReceiver c).run (mailPut s c len) = u at *
  cases release with
  | false => exact ⟨hf, hl, hlock, hword⟩
  | true =>
    obtain ⟨hdrop, -, hk⟩ := rd_dropLock u hc
    exact ⟨(hk _ (by decide) (by decide) (by decide)).trans hf, (hk _ (by decide) (by decide) (by decide)).trans hl, hdrop,
      fun j hj => (congrArg BitVec.toNat ((onlyRegs_dropLock u c).2 _ (hstatus j hj))).trans (hword j hj)⟩

/-! ### Who is woken -/

theorem plain_bind {c : Nat} (hc : c < 32) {f : Fld} (hf : f = Reg.MBX1.BIND_SENDER ∨ f = Reg.MBX1.BIND_RECEIVER ∨ f = Reg.MBX1.BIND_VALID) :
    plain (.mbx 1) f c = true := by
  have hall : ∀ f ∈ [Reg.MBX1.BIND_SENDER, Reg.MBX1.BIND_RECEIVER, Reg.MBX1.BIND_VALID], f.off = 0x100 ∧ f.stride = 4 ∧ f.lo + f.w ≤ 32 := by decide
  obtain ⟨hoff, hstride, hw⟩ := hall f (by simpa using hf)
  refine plain_shownAsHeld rfl rfl ?_ ?_ hw <;> rw [hoff, hstride] <;> omega

theorem chanReceiver_mailPut (s : State) {c : Nat} (hc : c < 32) (len : Nat) : chanReceiver (mailPut s c len) c = chanReceiver s c := by
  refine rd_of_regWord ((onlyRegs_mailPut s c len).2 _ ?_) (plain_bind hc (.inr (.inl rfl)))
  have : fldAddr (.mbx 1) Reg.MBX1.BIND_RECEIVER c = 0x41100 + 4 * c := rfl
  rw [List.mem_singleton, statusAddr_eq]
  omega

theorem ownNode_mailPut (s : State) {c : Nat} (hc : c < 32) (len : Nat) : ownNode (mailPut s c len) = ownNode s := by
  unfold ownNode rdRaw
  rw [(onlyRegs_mailPut s c len).2 _ ?_]
  have : fldAddr (.bnd 7) Reg.BND7.NODE_ID 0 ≥ 0x470000 := by decide
  rw [List.mem_singleton, statusAddr_eq]
  omega

/-- The message that wakes the partner for a channel (R274). -/
def mailWakeMsg (s : State) (c : Nat) : Msg := mkMsg 5 2 (putBits (ownNode s) 15 1 (1 - bits (ownNode s) 15 1)) 0 c [] false

/-- What a receiver's wake runs. -/
theorem run_wakeReceiver (s : State) (c : Nat) : (wakeReceiver c).run s =
    (if chanReceiver s c = 1 ∨ chanReceiver s c = 8 then setEvent mb c
    else if chanReceiver s c = 2 then .seq (modPorts fun p => { p with mgmtAlert := smSet flagDefault p.mgmtAlert c true }) driveAlert
    else if chanReceiver s c = 3 then request (mailWakeMsg s c) none 0 noLeg 3
    else if 4 ≤ chanReceiver s c ∧ chanReceiver s c ≤ 7 then modFw fun f => { f with coreIrq := f.coreIrq ++ [(chanReceiver s c - 4, c)] }
    else Prog.skip).run s := rfl

/-- A doorbell to MGMT pulls the pin. -/
theorem run_mgmtAlert (s : State) (c : Nat) :
    (Prog.seq (modPorts fun p => { p with mgmtAlert := smSet flagDefault p.mgmtAlert c true }) driveAlert).run s =
      { s with ports := { s.ports with mgmtAlert := smSet flagDefault s.ports.mgmtAlert c true }, pins := { s.pins with smbAlertN := false } } := by
  have hheld : (smSet flagDefault s.ports.mgmtAlert c true).isEmpty = false := by
    have hset := smGet_set_same flagDefault s.ports.mgmtAlert c true
    cases hm : smSet flagDefault s.ports.mgmtAlert c true with
    | nil => rw [hm] at hset; exact absurd hset Bool.false_ne_true
    | cons x r => rfl
  have hcause (t : State) (ht : t.ports.mgmtAlert.isEmpty = false) : alertCause t = true := by
    unfold alertCause
    rw [ht, Bool.not_false, Bool.or_true]
  unfold driveAlert
  rw [run_seq, run_look, run_modPins, hcause _ hheld]
  rfl

theorem onlyRegs_release (s : State) (c : Nat) (release : Bool) : OnlyRegs s ((whenP release (dropLock c)).run s) [statusAddr c] :=
  onlyRegs_whenP release (onlyRegs_dropLock s c)

section
variable (s : State) {c : Nat} (hc : c < 32) (len : Nat) (release : Bool)
include hc

/-- The state that a doorbell taken leaves. -/
def rung (s : State) (c len : Nat) (release : Bool) : State := (whenP release (dropLock c)).run ((wakeReceiver c).run (mailPut s c len))

theorem rung_host (h : chanReceiver s c = 1 ∨ chanReceiver s c = 8) : let t := rung s c len release
    bit (regWord t (pageBase mb + 0x10)).toNat c = true ∧
    t = { s with regs := t.regs, host := { s.host with msix := t.host.msix, msixPend := t.host.msixPend } } ∧
    RegsKept s t [statusAddr c, pageBase mb + 0x10, fldAddr mb Reg.COMMON.EVENT_COUNT (c % 16)] := by
  have hwake : (wakeReceiver c).run (mailPut s c len) = (setEvent mb c).run (mailPut s c len) := by
    rw [run_wakeReceiver, chanReceiver_mailPut s hc, if_pos h]
  obtain ⟨hput, hkput⟩ := onlyRegs_mailPut s c len
  obtain ⟨hevent, hbit⟩ := setEvent_spec mb hc (mailPut s c len)
  have hkevent : Writes (· ∈ [pageBase mb + 0x10, fldAddr mb Reg.COMMON.EVENT_COUNT (c % 16)]) (setEvent mb c) :=
    writes_setEvent List.mem_cons_self (List.mem_cons_of_mem _ List.mem_cons_self)
  unfold rung
  rw [hwake]
  have hkevent := fun a ha => hkevent a ha (mailPut s c len)
  dsimp only at hkevent
  generalize mailPut s c len = u at *
  generalize (setEvent mb c).run u = v at *
  obtain ⟨hrel, hkrel⟩ := onlyRegs_release v c release
  generalize (whenP release (dropLock c)).run v = t at *
  refine ⟨?_, ?_, fun a ha => ?_⟩
  · rw [hkrel _ (by simp only [List.mem_singleton, statusAddr_eq, mb, pageBase]; omega)]
    exact hbit
  · have hhost : t.host = v.host := by rw [hrel]
    rw [hhost]
    exact hrel.trans (by rw [hevent, hput])
  · simp only [List.mem_cons, List.not_mem_nil, or_false, not_or] at ha hkput hkevent hkrel
    exact (hkrel a ha.1).trans ((hkevent a ha.2).trans (hkput a ha.1))

theorem rung_mgmt (h : chanReceiver s c = 2) : let t := rung s c len release
    smGet flagDefault t.ports.mgmtAlert c = true ∧ t.pins.smbAlertN = false ∧
    t = { s with regs := t.regs, ports := { s.ports with mgmtAlert := t.ports.mgmtAlert }, pins := { s.pins with smbAlertN := false } } ∧
    RegsKept s t [statusAddr c] := by
  have hwake := (run_wakeReceiver (mailPut s c len) c).trans (by
    rw [chanReceiver_mailPut s hc, h, if_neg (by decide), if_pos rfl, run_mgmtAlert])
  obtain ⟨hput, hkput⟩ := onlyRegs_mailPut s c len
  unfold rung
  rw [hwake]
  generalize mailPut s c len = u at *
  obtain ⟨hrel, hkrel⟩ := onlyRegs_release { u with
    ports := { u.ports with mgmtAlert := smSet flagDefault u.ports.mgmtAlert c true }, pins := { u.pins with smbAlertN := false } } c release
  generalize (whenP release (dropLock c)).run _ = t at *
  have hports : t.ports = { u.ports with mgmtAlert := smSet flagDefault u.ports.mgmtAlert c true } := by rw [hrel]
  refine ⟨?_, by rw [hrel], ?_, fun a ha => (hkrel a ha).trans (hkput a ha)⟩
  · rw [hports]
    exact smGet_set_same flagDefault u.ports.mgmtAlert c true
  · rw [hports]
    exact hrel.trans (by rw [hput])

theorem rung_pair (h : chanReceiver s c = 3) : let t := rung s c len release
    (∃ u, OnlyRegs s u [statusAddr c] ∧ t.bnd = ((request (mailWakeMsg s c) none 0 noLeg 3).run u).bnd) ∧
    t = { s with regs := t.regs, bnd := t.bnd } ∧ RegsKept s t (statusAddr c :: fabricWords) := by
  have hmsg : mailWakeMsg (mailPut s c len) c = mailWakeMsg s c := by
    unfold mailWakeMsg
    rw [ownNode_mailPut s hc]
  have hwake : (wakeReceiver c).run (mailPut s c len) = (request (mailWakeMsg s c) none 0 noLeg 3).run (mailPut s c len) := by
    rw [run_wakeReceiver, chanReceiver_mailPut s hc, h, hmsg, if_neg (by decide), if_neg (by decide), if_pos rfl]
  obtain ⟨hput, hkput⟩ := onlyRegs_mailPut s c len
  have hsent := (only_request (m := mailWakeMsg s c) (p := none) (g := 0) (l := noLeg) (q := 3) (n := 0) (k := 0)).fabric_only (mailPut s c len)
  have hksent := fun a ha => writes_request_fabric (mailWakeMsg s c) none 0 noLeg 3 0 0 a ha (mailPut s c len)
  dsimp only at hksent
  unfold rung
  rw [hwake]
  obtain ⟨hrel, hkrel⟩ := onlyRegs_release ((request (mailWakeMsg s c) none 0 noLeg 3).run (mailPut s c len)) c release
  refine ⟨⟨mailPut s c len, ⟨hput, hkput⟩, by rw [hrel]⟩, ?_, fun a ha => ?_⟩
  · generalize mailPut s c len = u at *
    generalize (request (mailWakeMsg s c) none 0 noLeg 3).run u = v at *
    generalize (whenP release (dropLock c)).run v = t at *
    have hbnd : t.bnd = v.bnd := by rw [hrel]
    rw [hbnd]
    exact hrel.trans (by rw [hsent, hput])
  · rw [List.mem_cons, not_or] at ha
    have hs : a ∉ [statusAddr c] := fun e => ha.1 (List.mem_singleton.mp e)
    exact (hkrel a hs).trans ((hksent a ha.2).trans (hkput a hs))

theorem rung_core (h : 4 ≤ chanReceiver s c) (h' : chanReceiver s c ≤ 7) : let t := rung s c len release
    t.fw.coreIrq = s.fw.coreIrq ++ [(chanReceiver s c - 4, c)] ∧ t = { s with regs := t.regs, fw := { s.fw with coreIrq := t.fw.coreIrq } } ∧
    RegsKept s t [statusAddr c] := by
  have hwake := (run_wakeReceiver (mailPut s c len) c).trans (by
    rw [chanReceiver_mailPut s hc, if_neg (by omega), if_neg (by omega), if_neg (by omega), if_pos ⟨h, h'⟩, run_modFw])
  obtain ⟨hput, hkput⟩ := onlyRegs_mailPut s c len
  have hfw : (mailPut s c len).fw = s.fw := by rw [hput]
  unfold rung
  rw [hwake, hfw]
  generalize mailPut s c len = u at *
  obtain ⟨hrel, hkrel⟩ := onlyRegs_release ((Act.fw { s.fw with coreIrq := s.fw.coreIrq ++ [(chanReceiver s c - 4, c)] }).apply u) c release
  generalize (whenP release (dropLock c)).run _ = t at *
  have hirq : t.fw = { s.fw with coreIrq := s.fw.coreIrq ++ [(chanReceiver s c - 4, c)] } := by rw [hrel]; rfl
  refine ⟨by rw [hirq], ?_, fun a ha => (hkrel a ha).trans (hkput a ha)⟩
  rw [hirq]
  refine hrel.trans ?_
  rw [hput]
  rfl

end

theorem exec_mbxDoorbell {s : State} {id : Ident} {c : Fin 32} {v : Word} (h : LetIn s id (fldAddr mb Reg.MBX0.DOORBELL_LENGTH c) false) :
    exec (.mbxDoorbell id c v) s = .next ((opDoorbell id c v.toNat).run s) := done_access _ h

/-- Settles O25: a doorbell taken leaves its channel as `doorbell_channel` says, and wakes its receiver by the receiver's own law; another is refused. -/
theorem mailSent : Obligations.MailSent := by
  unfold Obligations.MailSent
  intro s id c v h len may
  rw [exec_mbxDoorbell h]
  refine ⟨fun hmay => ?_, fun hnot => ?_⟩
  · obtain ⟨hfull, hlen, hlocked, hdata⟩ := doorbell_channel s c.isLt (bits_lt v.toNat 0 4) (bit v.toNat 8) hmay.2.1
    rw [run_opDoorbell_taken hmay]
    exact ⟨rung s c len (bit v.toNat 8), rfl, hfull, hlen, hlocked, hdata, rung_host s c.isLt _ _, rung_mgmt s c.isLt _ _, rung_pair s c.isLt _ _,
      rung_core s c.isLt _ _⟩
  · obtain ⟨hr, hk⟩ := rd_refuse s c.isLt
    rw [run_opDoorbell_refused hnot]
    exact ⟨_, rfl, hr, hk _ (by decide) (by decide), hk _ (by decide) (by decide), onlyRegs_refuse s c⟩

end Sys2Proof.Machine
end

section
/-! Reads of a channel's data and STATUS, and bindings (R270, R273, R274, R332): O26. -/

namespace Sys2Proof.Machine

open Sys2Proof

set_option Elab.async false

/-! ### Data words -/

theorem onlyRegs_takeMail (s : State) (c : Nat) : OnlyRegs s ((takeMail c).run s) [statusAddr c] :=
  onlyRegs_trans (onlyRegs_status s (by decide) _ _) (onlyRegs_status _ (by decide) _ _)

theorem rd_takeMail (s : State) {c : Nat} (hc : c < 32) :
    rd ((takeMail c).run s) mb Reg.MBX0.STATUS_FULL c = 0 ∧ rd ((takeMail c).run s) mb Reg.MBX0.STATUS_EMPTY c = 1 := by
  unfold takeMail
  rw [run_seq]
  refine ⟨?_, rd_status_same _ hc (by decide) _⟩
  rw [rd_status_other _ hc (by decide) (by decide) (by decide), rd_status_same _ hc (by decide)]
  rfl

/-- What a data word's read does once it has been found who reads it: an answer, an error found, and the message taken with its last word. -/
theorem run_opDataRead_taken {s : State} {id : Ident} {c j : Nat} (ecc : Bool) (hvalid : chanValid s c = true) (hrec : chanReceiver s c = identCode id)
    (hfull : rd s mb Reg.MBX0.STATUS_FULL c = 1) : (opDataRead id c j ecc).run s =
    (whenP (rd s mb Reg.MBX0.STATUS_LEN c == j + 1) (takeMail c)).run ((whenP ecc alwaysOnUe).run
      ((respond id (if ecc then 0 else dataWord s c j)).run s)) := by
  unfold opDataRead
  rw [run_look, hvalid, if_neg (by simp), if_pos ⟨hrec.symm, hfull⟩, run_seq, run_seq]

theorem run_opDataRead_none {s : State} {id : Ident} {c j : Nat} (ecc : Bool) (hvalid : chanValid s c = true)
    (h : chanReceiver s c ≠ identCode id ∨ rd s mb Reg.MBX0.STATUS_FULL c = 0) : (opDataRead id c j ecc).run s = (respond id 0).run s := by
  have hno : ¬ (identCode id = chanReceiver s c ∧ rd s mb Reg.MBX0.STATUS_FULL c = 1) := by
    rintro ⟨hrec, hfull⟩
    rcases h with h | h
    · exact h hrec.symm
    · rw [h] at hfull
      exact absurd hfull Nat.zero_ne_one
  unfold opDataRead
  rw [run_look, hvalid, if_neg (by simp), if_neg hno]

theorem mbxDataRead_good {s : State} {id : Ident} {c : Fin 32} {j : Fin 8} (h : LetRead s id (dataAddr c j)) (hvalid : chanValid s c = true)
    (hrec : chanReceiver s c = identCode id) (hfull : rd s mb Reg.MBX0.STATUS_FULL c = 1) :
    ∃ t, exec (.mbxDataRead id c j false) s = .next t ∧ returned t id = dataWord s c j ∧
      rd t mb Reg.MBX0.STATUS_FULL c = (if rd s mb Reg.MBX0.STATUS_LEN c = j + 1 then 0 else 1) ∧
      (rd s mb Reg.MBX0.STATUS_LEN c = j + 1 → rd t mb Reg.MBX0.STATUS_EMPTY c = 1) ∧
      t = { s with regs := t.regs, ports := { s.ports with response := t.ports.response } } ∧ RegsKept s t [statusAddr c] := by
  refine ⟨_, exec_readAccess _ h, ?_⟩
  rw [run_opDataRead_taken false hvalid hrec hfull, run_whenP_false, if_neg Bool.false_ne_true]
  obtain ⟨hret, hframe, hkept⟩ := answered_onlyRegs (onlyRegs_refl s [statusAddr c]) (onlyAnswers_respond s id (dataWord s c j))
    (onlyRegs_whenP (rd s mb Reg.MBX0.STATUS_LEN c == j + 1) (onlyRegs_takeMail _ c))
  refine ⟨hret, ?_, fun hlast => ?_, hframe, hkept⟩
  · rw [run_whenP]
    simp only [beq_iff_eq]
    split
    · exact (rd_takeMail _ c.isLt).1
    · exact hfull
  · rw [run_whenP, if_pos (beq_iff_eq.mpr hlast)]
    exact (rd_takeMail _ c.isLt).2

theorem mbxDataRead_bad {s : State} {id : Ident} {c : Fin 32} {j : Fin 8} (h : LetRead s id (dataAddr c j)) (hvalid : chanValid s c = true)
    (hrec : chanReceiver s c = identCode id) (hfull : rd s mb Reg.MBX0.STATUS_FULL c = 1) :
    ∃ t, exec (.mbxDataRead id c j true) s = .next t ∧ returned t id = 0 ∧ HasRecord t 853 Code.SRAM_UE ∧
      rd t (.mod 1) Reg.MOD1.SRAM_UE_COUNT = min (2 ^ 32 - 1) (rd s (.mod 1) Reg.MOD1.SRAM_UE_COUNT + 1) := by
  refine ⟨_, exec_readAccess _ h, ?_⟩
  rw [run_opDataRead_taken true hvalid hrec hfull, run_whenP_true, if_pos rfl]
  unfold alwaysOnUe
  rw [run_seq]
  have htake : OnlyRegs _ _ [statusAddr c] := onlyRegs_whenP (rd s mb Reg.MBX0.STATUS_LEN c == j + 1) (onlyRegs_takeMail
    ((raise Code.SRAM_UE 853 0 noLeg 0 [w32 (Config.storageCode 3).toNat]).run (countUe.run ((respond id 0).run s))) c)
  have hrecord := hasRecord_raise Code.SRAM_UE 853 0 noLeg 0 [w32 (Config.storageCode 3).toNat] (countUe.run ((respond id 0).run s))
  have hports : ((raise Code.SRAM_UE 853 0 noLeg 0 [w32 (Config.storageCode 3).toNat]).run (countUe.run ((respond id 0).run s))).ports =
      ((respond id 0).run s).ports := (only_raise (K := [.reg, .recs]) (by decide) (by decide)).ports.trans (only_addSat (K := [.reg])).ports
  have hcount : rd ((raise Code.SRAM_UE 853 0 noLeg 0 [w32 (Config.storageCode 3).toNat]).run (countUe.run ((respond id 0).run s)))
      (.mod 1) Reg.MOD1.SRAM_UE_COUNT = min (2 ^ 32 - 1) (rd s (.mod 1) Reg.MOD1.SRAM_UE_COUNT + 1) := by
    rw [(writes_raise _ _ _ _ _ _).rd (by simp [recordWords, fldAddr, pageBase, Reg.MOD1.SRAM_UE_COUNT]) (by decide)]
    exact (rd_addSat (by decide) 1 _).trans (satBits_eq_min _)
  generalize (raise Code.SRAM_UE 853 0 noLeg 0 [w32 (Config.storageCode 3).toNat]).run (countUe.run ((respond id 0).run s)) = u at *
  obtain ⟨hframe, hkept⟩ := htake
  generalize (whenP _ (takeMail c)).run u = t at *
  refine ⟨?_, hrecord.of_srcQueue ?_, (rd_of_regWord (hkept _ ?_) (by decide)).trans hcount⟩
  · unfold returned
    rw [hframe, hports]
    exact (onlyAnswers_respond s id 0).1
  · rw [hframe]
    rfl
  · rw [List.mem_singleton, statusAddr_eq]
    have : fldAddr (.mod 1) Reg.MOD1.SRAM_UE_COUNT 0 < 0x2000 := by decide
    omega

/-! ### STATUS -/

theorem alertCause_pins (s : State) (x : Pins) : alertCause ((Act.pins x).apply s) = alertCause s := rfl

theorem mbxStatusRead_spec (s : State) (id : Ident) (c : Fin 32) (h : LetRead s id (statusAddr c)) : ∃ t, exec (.mbxStatusRead id c) s = .next t ∧
    returned t id = (regWord s (statusAddr c)).toNat ∧
    (id = .mgmt → smGet flagDefault t.ports.mgmtAlert c = false ∧ (t.pins.smbAlertN = false ↔ alertCause t = true)) ∧
    (id ≠ .mgmt → t.ports.mgmtAlert = s.ports.mgmtAlert ∧ t.pins = s.pins) ∧
    t = { s with
      ports := { s.ports with response := t.ports.response, mgmtAlert := t.ports.mgmtAlert }, pins := { s.pins with smbAlertN := t.pins.smbAlertN } } := by
  refine ⟨_, exec_readAccess _ h, ?_⟩
  unfold opStatusRead
  rw [run_look, run_seq]
  generalize (regWord s (statusAddr c)).toNat = w
  by_cases hid : id = .mgmt
  · subst hid
    rw [run_whenP, if_pos (by decide)]
    unfold driveAlert
    rw [run_seq, run_look, run_modPins]
    refine ⟨smGet_set_same zeroDefault s.ports.response _ w, fun _ => ⟨smGet_set_same flagDefault s.ports.mgmtAlert c false, ?_⟩,
      fun hne => absurd rfl hne, rfl⟩
    rw [alertCause_pins]
    exact iff_of_eq (Bool.not_eq_false' _)
  · rw [run_whenP, if_neg (by simpa using hid)]
    exact ⟨smGet_set_same _ _ _ _, fun he => absurd he hid, fun _ => ⟨rfl, rfl⟩, rfl⟩

/-! ### Bindings -/

theorem wordFields_bind {c : Nat} (hc : c < 32) : wordFields (.mbx 1) (0x100 + 4 * c) = [Reg.MBX1.BIND_SENDER, Reg.MBX1.BIND_RECEIVER, Reg.MBX1.BIND_VALID] := by
  have hin : ∀ f ∈ [Reg.MBX1.BIND_SENDER, Reg.MBX1.BIND_RECEIVER, Reg.MBX1.BIND_VALID], fldIn f (0x100 + 4 * c) = true := fun f hf => by
    have hall : ∀ f ∈ [Reg.MBX1.BIND_SENDER, Reg.MBX1.BIND_RECEIVER, Reg.MBX1.BIND_VALID], f.off = 0x100 ∧ f.stride = 4 ∧ f.cnt = 32 := by decide
    obtain ⟨hoff, hstride, hcnt⟩ := hall f hf
    simp only [fldIn, hoff, hstride, hcnt, Bool.and_eq_true, beq_iff_eq, decide_eq_true_eq]
    omega
  have hout : ∀ f ∈ [Reg.MBX1.BIND_LOCK_LOCK, Reg.MBX1.FORCE], fldIn f (0x100 + 4 * c) = false := fun f hf => by
    have hall : ∀ f ∈ [Reg.MBX1.BIND_LOCK_LOCK, Reg.MBX1.FORCE], 0x180 ≤ f.off := by decide
    have := hall f hf
    simp only [fldIn, Bool.and_eq_false_iff, decide_eq_false_iff_not]
    omega
  simp only [List.forall_mem_cons] at hin hout
  obtain ⟨hs, hr, hv, -⟩ := hin
  obtain ⟨hl, hf, -⟩ := hout
  unfold wordFields
  rw [if_neg (by omega)]
  simp [blockFields, fieldsMBX1, hs, hr, hv, hl, hf]

/-- A binding written while BIND_LOCK is 0. -/
theorem rd_bindWritten (s : State) {c : Nat} (hc : c < 32) (v : Nat) (hlock : rd s (.mbx 1) Reg.MBX1.BIND_LOCK_LOCK = 0) {f : Fld}
    (hf : f ∈ [Reg.MBX1.BIND_SENDER, Reg.MBX1.BIND_RECEIVER]) : rd ((plainWrite (.mbx 1) (0x100 + 4 * c) v).run s) (.mbx 1) f c = bits v f.lo f.w := by
  have hall : ∀ f ∈ [Reg.MBX1.BIND_SENDER, Reg.MBX1.BIND_RECEIVER], (f = Reg.MBX1.BIND_SENDER ∨ f = Reg.MBX1.BIND_RECEIVER ∨ f = Reg.MBX1.BIND_VALID) ∧
      f.off = 0x100 ∧ f.stride = 4 ∧ f.lo + f.w ≤ 32 ∧ f.acc = .rwl ∧ f ∈ [Reg.MBX1.BIND_SENDER, Reg.MBX1.BIND_RECEIVER, Reg.MBX1.BIND_VALID] ∧
      ∀ g ∈ [Reg.MBX1.BIND_SENDER, Reg.MBX1.BIND_RECEIVER, Reg.MBX1.BIND_VALID], g ≠ f → g.lo + g.w ≤ f.lo ∨ f.lo + f.w ≤ g.lo := by decide
  obtain ⟨hbind, hoff, hstride, hw, hacc, hmem, hapart⟩ := hall f hf
  have hopen : pageLocked s (.mbx 1) = false := beq_eq_false_iff_ne.mpr (by rw [hlock]; exact Nat.zero_ne_one)
  rw [rd_plain _ _ _ _ (plain_bind hc hbind)]
  unfold rdRaw
  rw [run_plainWrite, fldAddr_eq, hoff, hstride, regWord_reg, if_pos rfl, bits_toNat_ofNat _ _ _ hw, wordFields_bind hc,
    bits_writeWordFields _ _ v f _ (by decide) hmem hapart]
  simp [fieldAfter, hacc, hopen, offline]

theorem bindWrite_spec (s : State) (id : Ident) (c : Fin 32) (v : Word) (h : LetIn s id (fldAddr (.mbx 1) Reg.MBX1.BIND_SENDER c) false) :
    let good := rd s (.mbx 1) Reg.MBX1.BIND_LOCK_LOCK = 0 ∧ bits v.toNat 0 4 ≤ 8 ∧ bits v.toNat 4 4 ≤ 8 ∧ bits v.toNat 0 4 ≠ bits v.toNat 4 4
    (good → ∃ t, exec (.bindWrite id c v) s = .next t ∧ chanSender t c = bits v.toNat 0 4 ∧ chanReceiver t c = bits v.toNat 4 4 ∧
      OnlyRegs s t [fldAddr (.mbx 1) Reg.MBX1.BIND_SENDER c]) ∧
    (¬ good → exec (.bindWrite id c v) s = .next s) := by
  intro good
  have hexec : exec (.bindWrite id c v) s = .next (if good then (plainWrite (.mbx 1) (0x100 + 4 * c) v.toNat).run s else s) := by
    have hrun : exec (.bindWrite id c v) s = .next ((opBind c v.toNat).run s) := done_access _ h
    rw [hrun]
    unfold opBind
    rw [run_look, run_whenP]
    simp only [Bool.and_eq_true, beq_iff_eq, decide_eq_true_eq, bne_iff_ne, ne_eq, and_assoc, good]
  refine ⟨fun hgood => ?_, fun hbad => by rw [hexec, if_neg hbad]⟩
  rw [hexec, if_pos hgood]
  refine ⟨_, rfl, rd_bindWritten s c.isLt _ hgood.1 (by decide), rd_bindWritten s c.isLt _ hgood.1 (by decide), onlyRegs_reg s _ _ ?_⟩
  rw [List.mem_singleton, fldAddr_eq]
  rfl

/-- Settles O26: the receiver's reads, every other read, STATUS and bindings by the laws of each. -/
theorem mailTaken : Obligations.MailTaken := by
  unfold Obligations.MailTaken
  refine fun s id c j v => ⟨fun h hvalid => ⟨fun hrec hfull => ⟨mbxDataRead_good h hvalid hrec hfull, mbxDataRead_bad h hvalid hrec hfull⟩,
    fun ecc hnone => ⟨_, exec_readAccess _ h, ?_⟩⟩, mbxStatusRead_spec s id c, bindWrite_spec s id c v⟩
  rw [run_opDataRead_none ecc hvalid hnone]
  exact onlyAnswers_respond s id 0

end Sys2Proof.Machine
end

section
/-! The host's CXL link trained and lost, its snoops, decoder commits and invalidations, and its requests to the HDM window (R275, R364, R365, R368,
R369, R439): O37. -/

namespace Sys2Proof.Machine

open Sys2Proof

set_option Elab.async false

/-! ### What the link's state and marks are -/

/-- The fields of LINK_STATUS and HIF_CHECK. -/
def linkFields : List Fld :=
  [Reg.HIF.LINK_STATUS_UP, Reg.HIF.LINK_STATUS_WIDTH, Reg.HIF.LINK_STATUS_SPEED, Reg.HIF.HIF_CHECK_LINK_DOWN, Reg.HIF.HIF_CHECK_DEGRADED, Reg.HIF.HIF_CHECK_SLOW]

theorem plain_link {f : Fld} (hf : f ∈ linkFields) : plain .hif f = true := by
  have hall : ∀ f ∈ linkFields, plain .hif f = true := by decide
  exact hall f hf

/-- The words of LINK_STATUS and HIF_CHECK. -/
def linkWords (a : Nat) : Prop := a = 0x100100 ∨ a = 0x100104

theorem linkWords_fld {f : Fld} (hf : f ∈ linkFields) : linkWords (fldAddr .hif f 0) := by
  have hall : ∀ f ∈ linkFields, fldAddr .hif f 0 = 0x100100 ∨ fldAddr .hif f 0 = 0x100104 := by decide
  exact hall f hf

theorem rd_link_other (s : State) {f g : Fld} (hf : f ∈ linkFields) (hg : g ∈ linkFields) (hne : f ≠ g) (v : Nat) :
    rd ((wr .hif f v).run s) .hif g = rd s .hif g := by
  have hall : ∀ f ∈ linkFields, ∀ g ∈ linkFields, f ≠ g → f.off + f.stride * 0 ≠ g.off + g.stride * 0 ∨ f.lo + f.w ≤ g.lo ∨ g.lo + g.w ≤ f.lo := by decide
  exact rd_wr_other _ _ _ _ _ _ _ _ (plain_link hf) (plain_link hg) (.inr (hall f hf g hg hne))

theorem rd_link_same (s : State) {f : Fld} (hf : f ∈ linkFields) (v : Nat) : rd ((wr .hif f v).run s) .hif f = v % 2 ^ f.w :=
  rd_wr_same _ _ _ _ _ (plain_link hf)

/-- A mark of HIF_CHECK set, with its record. -/
def linkMark (f : Fld) (code : Nat) : Prog := .seq (wr .hif f 1) (raise code 851 0 noLeg 0 [])

theorem only_linkMark {f : Fld} {code : Nat} : Only [.reg, .recs] (linkMark f code) := only_seq only_wr (only_raise (by decide) (by decide))

theorem rd_raise_link (code : Nat) {f : Fld} (hf : f ∈ linkFields) (s : State) : rd ((raise code 851 0 noLeg 0 []).run s) .hif f = rd s .hif f := by
  refine (writes_raise _ _ _ _ _ _).rd (fun h => ?_) (plain_link hf) s
  have hw := linkWords_fld hf
  unfold linkWords at hw
  unfold recordWords at h
  omega

theorem rd_linkMark_same {f : Fld} (hf : f ∈ linkFields) (code : Nat) (s : State) : rd ((linkMark f code).run s) .hif f = 1 % 2 ^ f.w := by
  unfold linkMark
  rw [run_seq, rd_raise_link code hf, rd_link_same s hf]

theorem rd_linkMark_other {f g : Fld} (hf : f ∈ linkFields) (hg : g ∈ linkFields) (hne : f ≠ g) (code : Nat) (s : State) :
    rd ((linkMark f code).run s) .hif g = rd s .hif g := by
  unfold linkMark
  rw [run_seq, rd_raise_link code hg, rd_link_other s hf hg hne]

theorem recorded_linkMark (f : Fld) (code : Nat) (s : State) : Recorded 851 code ((linkMark f code).run s) := recorded_raise _ _ _ _ _ _ _

theorem preserves_recorded_linkMark (f : Fld) (code code' : Nat) : Preserves (Recorded 851 code) (linkMark f code') :=
  preserves_seq ((only_wr (K := [.reg])).preserves_recorded _ _ (by decide)) (preserves_recorded_raise _ _ _ _ _ _ _ _)

/-! ### A link lost -/

/-- LINK_STATUS of a link that is down, and its mark. -/
def linkLost (s : State) : State :=
  (linkMark Reg.HIF.HIF_CHECK_LINK_DOWN Code.CXL_LINK_DOWN).run ((wr .hif Reg.HIF.LINK_STATUS_SPEED 0).run
    ((wr .hif Reg.HIF.LINK_STATUS_WIDTH 0).run ((wr .hif Reg.HIF.LINK_STATUS_UP 0).run s)))

theorem run_hostLinkDown (s : State) : hostLinkDown.run s = (forceLocksOf (· == 1)).run (linkLost s) := rfl

theorem rd_linkLost (s : State) : rd (linkLost s) .hif Reg.HIF.LINK_STATUS_UP = 0 ∧ rd (linkLost s) .hif Reg.HIF.HIF_CHECK_LINK_DOWN = 1 := by
  unfold linkLost
  refine ⟨?_, rd_linkMark_same (by decide) _ _⟩
  rw [rd_linkMark_other (by decide) (by decide) (by decide), rd_link_other _ (by decide) (by decide) (by decide),
    rd_link_other _ (by decide) (by decide) (by decide), rd_link_same _ (by decide)]
  rfl

/-- What the loss of the link writes before it forces locks. -/
theorem regWord_linkLost (s : State) {a : Nat} (hl : ¬ linkWords a) (hr : ¬ recordWords a) : regWord (linkLost s) a = regWord s a := by
  have hw {f : Fld} (hf : f ∈ linkFields) (v : Nat) (t : State) : regWord ((wr .hif f v).run t) a = regWord t a := by
    rw [regWord_wr, if_neg]
    rintro rfl
    exact hl (linkWords_fld hf)
  unfold linkLost linkMark
  rw [run_seq]
  exact (writes_raise _ _ _ _ _ _ a hr _).trans ((hw (by decide) _ _).trans ((hw (by decide) _ _).trans ((hw (by decide) _ _).trans (hw (by decide) _ _))))

theorem only_hostLinkDown : Only [.reg, .recs] hostLinkDown :=
  ⟨only_wr, only_wr, only_wr, only_wr, only_raise (by decide) (by decide), only_forceLocksOf, trivial⟩

/-- The channels whose locks an identity of a code owns. -/
def lockedBy (s : State) (owner : Nat → Bool) : List Nat :=
  (List.range 32).filter fun c => rd s mb Reg.MBX0.STATUS_LOCKED c == 1 && owner (lockOwner s c)

theorem run_forceLocksOf (owner : Nat → Bool) (s : State) : (forceLocksOf owner).run s = (forEach (lockedBy s owner) forceLock).run s := rfl

theorem onlyRegs_forceLock (s : State) (c : Nat) : OnlyRegs s ((forceLock c).run s) [statusAddr c] := by
  rw [run_forceLock]
  split
  · exact onlyRegs_trans (onlyRegs_dropLock s c) (onlyRegs_refuse _ c)
  · exact onlyRegs_refl s _

/-- Locks forced write STATUS of their channels alone. -/
theorem regWord_forceLocks {l : List Nat} {a : Nat} (h : ∀ c ∈ l, a ≠ statusAddr c) (s : State) : regWord ((forEach l forceLock).run s) a = regWord s a :=
  keeps_forEach (fun s => regWord s a) l forceLock
    (fun c hc t => (onlyRegs_forceLock t c).2 a fun e => h c hc (List.mem_singleton.mp e)) s

theorem forceLocks_spec {l : List Nat} (hn : l.Nodup) {c : Nat} (hc : c ∈ l) (hlt : c < 32) {s : State} (h : rd s mb Reg.MBX0.STATUS_LOCKED c = 1) :
    let t := (forEach l forceLock).run s
    rd t mb Reg.MBX0.STATUS_LOCKED c = 0 ∧ rd t mb Reg.MBX0.STATUS_REFUSED c = 1 := by
  have hother {k : List Nat} (hk : ∀ d ∈ k, d ∈ l ∧ d ≠ c) {f : Fld} (hf : f ∈ statusFields) (u : State) :
      rd ((forEach k forceLock).run u) mb f c = rd u mb f c := by
    refine rd_of_regWord (regWord_forceLocks (fun d hd => ?_) u) (plain_status hlt hf)
    have := (hk d hd).2
    rw [fldAddr_status hf, statusAddr_eq, statusAddr_eq]
    omega
  obtain ⟨x, y, hx, hy, hrun⟩ := run_forEach_split hn hc forceLock s
  obtain ⟨hfree, -, href, -⟩ := forceLock_spec hlt ((hother hx (by decide) s).trans h)
  rw [hrun]
  exact ⟨(hother hy (by decide) _).trans hfree, (hother hy (by decide) _).trans href⟩

theorem nodup_lockedBy (s : State) (owner : Nat → Bool) : (lockedBy s owner).Nodup := List.nodup_range.filter _

theorem mem_lockedBy {s : State} {owner : Nat → Bool} {c : Nat} :
    c ∈ lockedBy s owner ↔ c < 32 ∧ rd s mb Reg.MBX0.STATUS_LOCKED c = 1 ∧ owner (lockOwner s c) = true := by
  unfold lockedBy
  rw [List.mem_filter, List.mem_range, Bool.and_eq_true, beq_iff_eq]

/-- STATUS of the channels is as it was when the link was lost. -/
theorem regWord_status_linkLost (s : State) {c : Nat} (hc : c < 32) : regWord (linkLost s) (statusAddr c) = regWord s (statusAddr c) :=
  regWord_linkLost s (by rw [statusAddr_eq]; unfold linkWords; omega) (by rw [statusAddr_eq]; unfold recordWords; omega)

theorem rd_status_linkLost (s : State) {c : Nat} (hc : c < 32) {f : Fld} (hf : f ∈ statusFields) : rd (linkLost s) mb f c = rd s mb f c :=
  rd_of_regWord (by rw [fldAddr_status hf]; exact regWord_status_linkLost s hc) (plain_status hc hf)

theorem lockOwner_linkLost (s : State) {c : Nat} (hc : c < 32) : lockOwner (linkLost s) c = lockOwner s c :=
  rd_status_linkLost s hc (f := Reg.MBX0.STATUS_OWNER) (by decide)

theorem hostLinkDown_spec (s : State) : let t := hostLinkDown.run s
    rd t .hif Reg.HIF.LINK_STATUS_UP = 0 ∧ rd t .hif Reg.HIF.HIF_CHECK_LINK_DOWN = 1 ∧ HasRecord t 851 Code.CXL_LINK_DOWN ∧
    (∀ c, c < 32 → rd s mb Reg.MBX0.STATUS_LOCKED c = 1 → lockOwner s c = 1 → rd t mb Reg.MBX0.STATUS_LOCKED c = 0 ∧ rd t mb Reg.MBX0.STATUS_REFUSED c = 1) ∧
    (∀ c, c < 32 → lockOwner s c ≠ 1 → regWord t (statusAddr c) = regWord s (statusAddr c)) ∧ t = { s with regs := t.regs, recs := t.recs } := by
  have hlink {f : Fld} (hf : f ∈ linkFields) : rd (hostLinkDown.run s) .hif f = rd (linkLost s) .hif f := by
    rw [run_hostLinkDown, run_forceLocksOf]
    refine rd_of_regWord (regWord_forceLocks (fun c hc => ?_) _) (plain_link hf)
    have hlt := (mem_lockedBy.mp hc).1
    have hw := linkWords_fld hf
    unfold linkWords at hw
    rw [statusAddr_eq]
    omega
  obtain ⟨hup, hmark⟩ := rd_linkLost s
  refine ⟨(hlink (by decide)).trans hup, (hlink (by decide)).trans hmark, ?_, fun c hc hlocked howner => ?_, fun c hc howner => ?_, only_hostLinkDown.regs_recs s⟩
  · have hrec : Recorded 851 Code.CXL_LINK_DOWN (linkLost s) := recorded_linkMark _ _ _
    rw [run_hostLinkDown]
    exact ((only_forceLocksOf (K := [.reg])).preserves_recorded 851 Code.CXL_LINK_DOWN (by decide) _ hrec).hasRecord
  · have hl : rd (linkLost s) mb Reg.MBX0.STATUS_LOCKED c = 1 := (rd_status_linkLost s hc (by decide)).trans hlocked
    have hown : lockOwner (linkLost s) c = 1 := (lockOwner_linkLost s hc).trans howner
    have hmem : c ∈ lockedBy (linkLost s) (· == 1) := mem_lockedBy.mpr ⟨hc, hl, beq_iff_eq.mpr hown⟩
    rw [run_hostLinkDown, run_forceLocksOf]
    exact forceLocks_spec (nodup_lockedBy (linkLost s) (· == 1)) hmem hc hl
  · rw [run_hostLinkDown, run_forceLocksOf, ← regWord_status_linkLost s hc]
    refine regWord_forceLocks (fun d hd => ?_) _
    obtain ⟨hd, -, hown⟩ := mem_lockedBy.mp hd
    have hne : c ≠ d := by
      rintro rfl
      exact howner ((lockOwner_linkLost s hc).symm.trans (beq_iff_eq.mp hown))
    rw [statusAddr_eq, statusAddr_eq]
    omega

/-! ### A link trained -/

/-- LINK_STATUS of a link trained on the lanes given. -/
def linkTrained (lanes speed : Nat) (s : State) : State :=
  (wr .hif Reg.HIF.LINK_STATUS_SPEED (min 2 speed)).run ((wr .hif Reg.HIF.LINK_STATUS_WIDTH (if lanes16 lanes then 2 else 1)).run
    ((wr .hif Reg.HIF.LINK_STATUS_UP 1).run s))

theorem rd_linkTrained (lanes speed : Nat) (s : State) : let t := linkTrained lanes speed s
    rd t .hif Reg.HIF.LINK_STATUS_UP = 1 ∧ rd t .hif Reg.HIF.LINK_STATUS_WIDTH = (if lanes16 lanes then 2 else 1) ∧
    rd t .hif Reg.HIF.LINK_STATUS_SPEED = min 2 speed := by
  unfold linkTrained
  refine ⟨?_, ?_, ?_⟩
  · rw [rd_link_other _ (by decide) (by decide) (by decide), rd_link_other _ (by decide) (by decide) (by decide), rd_link_same _ (by decide)]
    rfl
  · rw [rd_link_other _ (by decide) (by decide) (by decide), rd_link_same _ (by decide)]
    split <;> rfl
  · rw [rd_link_same _ (by decide)]
    exact Nat.mod_eq_of_lt (Nat.lt_of_le_of_lt (Nat.min_le_left _ _) (by decide))

theorem run_hostLinkTrain {lanes : Nat} (h : lanes8 lanes = true) (speed : Nat) (s : State) : (hostLinkTrain lanes speed).run s =
    (whenP (decide (speed < 2)) (linkMark Reg.HIF.HIF_CHECK_SLOW Code.CXL_LINK_SLOW)).run
      ((whenP (!lanes16 lanes) (linkMark Reg.HIF.HIF_CHECK_DEGRADED Code.CXL_LINK_DEGRADED)).run (linkTrained lanes speed s)) := by
  unfold hostLinkTrain
  rw [h, if_neg (by simp)]
  rfl

theorem only_hostLinkTrain (lanes speed : Nat) : Only [.reg, .recs] (hostLinkTrain lanes speed) :=
  only_ite only_hostLinkDown ⟨only_wr, only_wr, only_wr, only_whenP only_linkMark, only_whenP only_linkMark, trivial⟩

theorem rd_whenP_linkMark (b : Bool) {f g : Fld} (hf : f ∈ linkFields) (hg : g ∈ linkFields) (hne : f ≠ g) (code : Nat) (s : State) :
    rd ((whenP b (linkMark f code)).run s) .hif g = rd s .hif g := by
  cases b
  · rfl
  · exact rd_linkMark_other hf hg hne code s

theorem rd_hostLinkTrain {lanes : Nat} (h : lanes8 lanes = true) (speed : Nat) (s : State) {f : Fld}
    (hf : f ∈ [Reg.HIF.LINK_STATUS_UP, Reg.HIF.LINK_STATUS_WIDTH, Reg.HIF.LINK_STATUS_SPEED]) :
    rd ((hostLinkTrain lanes speed).run s) .hif f = rd (linkTrained lanes speed s) .hif f := by
  have hall : ∀ f ∈ [Reg.HIF.LINK_STATUS_UP, Reg.HIF.LINK_STATUS_WIDTH, Reg.HIF.LINK_STATUS_SPEED],
      f ∈ linkFields ∧ Reg.HIF.HIF_CHECK_SLOW ≠ f ∧ Reg.HIF.HIF_CHECK_DEGRADED ≠ f := by decide
  obtain ⟨hf, hslow, hdeg⟩ := hall f hf
  rw [run_hostLinkTrain h, rd_whenP_linkMark _ (by decide) hf hslow, rd_whenP_linkMark _ (by decide) hf hdeg]

theorem cxlLinkTrain_spec (s : State) (lanes speed : Nat) (hpwr : s.pins.pwrOk = true) (hdown : rd s .hif Reg.HIF.LINK_STATUS_UP = 0)
    (hstep : 8 ≤ rd s .rst Reg.RST.BOOT_STATUS_STEP ∨ s.sec.phase = .waitHost) : ∃ t, exec (.cxlLinkTrain lanes speed) s = .next t ∧
      t.mem = s.mem ∧ t.counts = s.counts ∧ t.fr = s.fr ∧
      (bits lanes 0 16 = 65535 → rd t .hif Reg.HIF.LINK_STATUS_UP = 1 ∧ rd t .hif Reg.HIF.LINK_STATUS_WIDTH = 2 ∧
        rd t .hif Reg.HIF.LINK_STATUS_SPEED = min 2 speed ∧
        (speed < 2 → rd t .hif Reg.HIF.HIF_CHECK_SLOW = 1 ∧ HasRecord t 851 Code.CXL_LINK_SLOW) ∧ (2 ≤ speed → t.recs = s.recs)) ∧
      (bits lanes 0 8 = 255 → bits lanes 0 16 ≠ 65535 → rd t .hif Reg.HIF.LINK_STATUS_UP = 1 ∧ rd t .hif Reg.HIF.LINK_STATUS_WIDTH = 1 ∧
        rd t .hif Reg.HIF.HIF_CHECK_DEGRADED = 1 ∧ HasRecord t 851 Code.CXL_LINK_DEGRADED) ∧
      (bits lanes 0 8 ≠ 255 → rd t .hif Reg.HIF.LINK_STATUS_UP = 0) := by
  have hexec : exec (.cxlLinkTrain lanes speed) s = .next ((hostLinkTrain lanes speed).run s) := by
    refine congrArg Host.Outcome.next ?_
    rw [run_whenP, if_pos]
    simpa [hpwr, hdown] using hstep
  obtain ⟨hup, hwidth, hspeed⟩ := rd_linkTrained lanes speed s
  have honly := only_hostLinkTrain lanes speed
  refine ⟨_, hexec, honly.mem (by decide), honly.counts, honly.fr, fun h16 => ?_, fun h8 h16 => ?_, fun h8 => ?_⟩
  · have hl8 : lanes8 lanes = true := beq_iff_eq.mpr (by simp only [bits] at h16 ⊢; omega)
    have hl16 : lanes16 lanes = true := beq_iff_eq.mpr h16
    have hrun := run_hostLinkTrain hl8 speed s
    rw [hl16, Bool.not_true, run_whenP_false] at hrun
    rw [rd_hostLinkTrain hl8 _ _ (by decide), rd_hostLinkTrain hl8 _ _ (by decide), rd_hostLinkTrain hl8 _ _ (by decide), hup, hwidth, hspeed, hl16]
    refine ⟨rfl, rfl, rfl, fun hslow => ?_, fun hfast => ?_⟩ <;> rw [hrun]
    · rw [decide_eq_true hslow, run_whenP_true]
      exact ⟨rd_linkMark_same (by decide) _ _, (recorded_linkMark _ _ _).hasRecord⟩
    · rw [decide_eq_false (Nat.not_lt.mpr hfast), run_whenP_false]
      rfl
  · have hl8 : lanes8 lanes = true := beq_iff_eq.mpr h8
    have hl16 : lanes16 lanes = false := beq_eq_false_iff_ne.mpr h16
    have hrun := run_hostLinkTrain hl8 speed s
    rw [hl16, Bool.not_false, run_whenP_true] at hrun
    rw [rd_hostLinkTrain hl8 _ _ (by decide), rd_hostLinkTrain hl8 _ _ (by decide), hup, hwidth, hl16, hrun]
    refine ⟨rfl, rfl, ?_, ?_⟩
    · rw [rd_whenP_linkMark _ (by decide) (by decide) (by decide)]
      exact rd_linkMark_same (by decide) _ _
    · exact (preserves_whenP (preserves_recorded_linkMark _ _ _) _ (recorded_linkMark _ _ _)).hasRecord
  · have hl8 : lanes8 lanes = false := beq_eq_false_iff_ne.mpr h8
    have hrun : (hostLinkTrain lanes speed).run s = hostLinkDown.run s := by
      unfold hostLinkTrain
      rw [hl8, if_pos (by rfl)]
    rw [hrun]
    exact (hostLinkDown_spec s).1

/-! ### Invalidations -/

/-- The translations of `n` pages dropped, and what the host answers for them kept. -/
theorem run_invalidate (page : Nat) (refuse : Bool) (s : State) : ∀ n : Nat, let t := (forEach (List.range n) fun i =>
      .seq (.prim (.flag .atc (page + i) false)) (.prim (.flag .hostRefused (page + i) refuse))).run s
    (∀ q, page ≤ q → q < page + n → smGet flagDefault t.mem.atc q = false ∧ smGet flagDefault t.mem.hostRefused q = refuse) ∧
    (∀ q, q < page ∨ page + n ≤ q → smGet flagDefault t.mem.atc q = smGet flagDefault s.mem.atc q ∧
      smGet flagDefault t.mem.hostRefused q = smGet flagDefault s.mem.hostRefused q) ∧
    t = { s with mem := { s.mem with atc := t.mem.atc, hostRefused := t.mem.hostRefused } }
  | 0 => ⟨fun q h h' => absurd h' (Nat.not_lt.mpr h), fun _ _ => ⟨rfl, rfl⟩, rfl⟩
  | n + 1 => by
    obtain ⟨hin, hout, hframe⟩ := run_invalidate page refuse s n
    rw [List.range_succ, run_forEach_append]
    generalize (forEach (List.range n) _).run s = u at *
    have hlast : (forEach [n] fun i => Prog.seq (.prim (.flag .atc (page + i) false)) (.prim (.flag .hostRefused (page + i) refuse))).run u =
        { u with mem := { u.mem with
          atc := smSet flagDefault u.mem.atc (page + n) false, hostRefused := smSet flagDefault u.mem.hostRefused (page + n) refuse } } := rfl
    rw [hlast]
    refine ⟨fun q h h' => ?_, fun q h => ?_, by rw [hframe]⟩
    · dsimp only
      rw [smGet_set, smGet_set]
      by_cases hq : q = page + n
      · rw [if_pos hq, if_pos hq]
        exact ⟨rfl, rfl⟩
      · rw [if_neg hq, if_neg hq]
        exact hin q h (by omega)
    · dsimp only
      rw [smGet_set_ne _ _ _ _ _ (by omega), smGet_set_ne _ _ _ _ _ (by omega)]
      exact hout q (by omega)

/-! ### The HDM window -/

/-- A request that reaches the window's DRAM. -/
def WindowOpen (s : State) (off : Nat) : Prop :=
  cxlFull s = true ∧ s.host.hdmCommit = 1 ∧ off < (hdmWindow s).2 ∧ (hdmWindow s).1 + off < hbmBytes s ∧ admits s (stackOf s ((hdmWindow s).1 + off)) = true

theorem exec_cxlMemWrite {s : State} {off : Nat} (h : WindowOpen s off) {data : List Byte} (hne : data ≠ []) (hfit : ((hdmWindow s).1 + off) % 64 + data.length ≤ 64) :
    let a := (hdmWindow s).1 + off
    exec (.cxlMemRequest true off data) s = .next ((whenP (data.length == 64) (.prim (.flag .hbmPoison (a / 64) false))).run ((Act.bytes .hbm a data).apply s)) := by
  obtain ⟨hfull, hcommit, hoff, hcap, hadm⟩ := h
  unfold admits at hadm
  rw [Bool.and_eq_true] at hadm
  refine congrArg Host.Outcome.next ?_
  unfold progCxlMemRequest
  rw [run_look]
  dsimp only
  rw [run_whenP, if_pos (by simp [hfull, hcommit, hoff, hcap, hadm]), if_pos rfl, run_whenP, if_pos (by simp [hfit, hne]), run_seq, run_prim]

theorem cxlMemWrite_spec {s : State} {off : Nat} (h : WindowOpen s off) {data : List Byte} (hne : data ≠ [])
    (hfit : ((hdmWindow s).1 + off) % 64 + data.length ≤ 64) : let a := (hdmWindow s).1 + off
    ∃ t, exec (.cxlMemRequest true off data) s = .next t ∧
      (∀ i, i < data.length → smGet byteDefault t.mem.hbm (a + i) = nth data i 0) ∧
      (∀ b, b < a ∨ a + data.length ≤ b → smGet byteDefault t.mem.hbm b = smGet byteDefault s.mem.hbm b) ∧
      smGet flagDefault t.mem.hbmPoison (a / 64) = (if data.length = 64 then false else smGet flagDefault s.mem.hbmPoison (a / 64)) ∧
      t = { s with mem := { s.mem with hbm := t.mem.hbm, hbmPoison := t.mem.hbmPoison } } := by
  intro a
  refine ⟨_, exec_cxlMemWrite h hne hfit, ?_⟩
  have hin (i : Nat) (hi : i < data.length) : smGet byteDefault (smSetList byteDefault s.mem.hbm a data) (a + i) = nth data i 0 := by
    rw [nth_lt data i 0 hi]
    exact smGet_setList_in _ _ _ _ _ hi
  have hout (b : Nat) (hb : b < a ∨ a + data.length ≤ b) : smGet byteDefault (smSetList byteDefault s.mem.hbm a data) b = smGet byteDefault s.mem.hbm b :=
    smGet_setList_out _ _ _ _ _ hb
  rw [run_whenP]
  by_cases hwhole : data.length = 64
  · rw [if_pos (beq_iff_eq.mpr hwhole), if_pos hwhole]
    exact ⟨hin, hout, smGet_set_same flagDefault s.mem.hbmPoison (a / 64) false, rfl⟩
  · rw [if_neg (by simpa using hwhole), if_neg hwhole]
    exact ⟨hin, hout, rfl, rfl⟩

/-- The answer to a read of the window. -/
def windowAnswer (s : State) (a : Nat) (bad : Bool) : HostSt :=
  { s.host with memData := (List.range 64).map fun i => smGet byteDefault s.mem.hbm (a / 64 * 64 + i), memPoison := bad }

theorem exec_cxlMemRead {s : State} {off : Nat} (h : WindowOpen s off) (data : List Byte) : let a := (hdmWindow s).1 + off
    let bad := smGet flagDefault s.mem.hbmPoison (a / 64)
    exec (.cxlMemRequest false off data) s = .next ((whenP bad (.seq (wr (.stk (stackOf s a)) Reg.STK.ECC_STATUS_POISON_READ 1)
      (addSat (.stk (stackOf s a)) Reg.STK.POISON_COUNT 1))).run { s with host := windowAnswer s a bad }) := by
  obtain ⟨hfull, hcommit, hoff, hcap, hadm⟩ := h
  unfold admits at hadm
  rw [Bool.and_eq_true] at hadm
  refine congrArg Host.Outcome.next ?_
  unfold progCxlMemRequest
  rw [run_look]
  dsimp only
  rw [run_whenP, if_pos (by simp [hfull, hcommit, hoff, hcap, hadm]), if_neg Bool.false_ne_true, run_seq]
  rfl

theorem cxlMemRead_poisoned {s : State} {off : Nat} (h : WindowOpen s off) (data : List Byte) : let a := (hdmWindow s).1 + off
    let st := stackOf s a
    smGet flagDefault s.mem.hbmPoison (a / 64) = true → ∃ t, exec (.cxlMemRequest false off data) s = .next t ∧ t.host = windowAnswer s a true ∧
      rd t (.stk st) Reg.STK.ECC_STATUS_POISON_READ = 1 ∧ rd t (.stk st) Reg.STK.POISON_COUNT = min (2 ^ 32 - 1) (rd s (.stk st) Reg.STK.POISON_COUNT + 1) ∧
      OnlyRegs { s with host := windowAnswer s a true } t [fldAddr (.stk st) Reg.STK.ECC_STATUS_POISON_READ 0, fldAddr (.stk st) Reg.STK.POISON_COUNT 0] := by
  intro a st hbad
  have hstatus := plain_stk ⟨st, stackOf_lt s a⟩ (f := Reg.STK.ECC_STATUS_POISON_READ)
  have hcount := plain_stk ⟨st, stackOf_lt s a⟩ (f := Reg.STK.POISON_COUNT)
  have hexec := exec_cxlMemRead h data
  dsimp only at hexec
  rw [hbad, run_whenP_true, run_seq] at hexec
  refine ⟨_, hexec, ?_, ?_, ?_, onlyRegs_trans (onlyRegs_wr _ _ _ _ _ List.mem_cons_self) (onlyRegs_wr _ _ _ _ _ (List.mem_cons_of_mem _ List.mem_cons_self))⟩
  · rw [(only_addSat (K := [.reg])).host, (only_wr (K := [.reg])).host]
  · exact (rd_wr_other _ _ _ _ _ _ _ _ hcount hstatus (.inr (.inl (by decide)))).trans (rd_wr_same _ _ _ _ _ hstatus)
  · rw [rd_addSat hcount, rd_wr_other _ _ _ _ _ _ _ _ hstatus hcount (.inr (.inl (by decide))), rd_congr rfl _ _ _ hcount]
    exact satBits_eq_min _

/-! ### The obligation -/

/-- Settles O37: training, loss, snoops, commits and invalidations by their laws, and a request to the window by that of its access. -/
theorem hostLinkAndWindow : Obligations.HostLinkAndWindow := by
  unfold Obligations.HostLinkAndWindow
  refine ⟨fun s => ⟨cxlLinkTrain_spec s, fun hup => ?_, fun hfull => ⟨fun addr => ?_, fun units => ?_⟩, fun hup page count refuse => ?_⟩,
    ?_⟩
  · refine ⟨hostLinkDown.run s, congrArg Host.Outcome.next ?_, hostLinkDown_spec s⟩
    rw [run_whenP, if_pos (beq_iff_eq.mpr hup)]
  · refine congrArg Host.Outcome.next ?_
    rw [run_whenP, if_pos hfull]
    rfl
  · refine congrArg Host.Outcome.next ?_
    unfold commitDecoder
    rw [run_look, run_whenP, if_pos hfull]
    rfl
  · refine ⟨_, congrArg Host.Outcome.next ?_, run_invalidate page refuse s count⟩
    rw [run_whenP, if_pos (beq_iff_eq.mpr hup)]
  · intro s off data a st hfull hcommit hoff hcap hadm
    have hopen : WindowOpen s off := ⟨hfull, hcommit, hoff, hcap, hadm⟩
    refine ⟨cxlMemWrite_spec hopen, fun hgood => ?_, cxlMemRead_poisoned hopen data⟩
    have hexec := exec_cxlMemRead hopen data
    dsimp only at hexec
    rw [hgood, run_whenP_false] at hexec
    exact hexec

end Sys2Proof.Machine
end

section
/-! SIGNALs at the counter block (R251, R252, R255, R258): a count raised, the waits it satisfies woken, and what that leaves alone. -/

namespace Sys2Proof.Machine

open Sys2Proof

set_option Elab.async false

/-! ### Entries of the register file that a write leaves -/

section
variable {α : Type} {P : Nat × α → Bool} {k : Nat}

theorem filter_smErase (h : ∀ v, P (k, v) = false) (m : SMap α) : (smErase k m).filter P = m.filter P := by
  unfold smErase
  rw [List.filter_filter]
  refine List.filter_congr fun e _ => ?_
  by_cases he : e.1 = k
  · rw [show e = (k, e.2) from Prod.ext he rfl, h, Bool.false_and]
  · rw [bne_iff_ne.mpr he, Bool.and_true]

theorem filter_smInsert (h : ∀ v, P (k, v) = false) (v : α) : ∀ m : SMap α, (smInsert k v m).filter P = m.filter P
  | [] => List.filter_cons_of_neg (by rw [h]; exact Bool.false_ne_true)
  | e :: r => by
    obtain ⟨j, w⟩ := e
    unfold smInsert
    split
    · exact List.filter_cons_of_neg (by rw [h]; exact Bool.false_ne_true)
    · rw [List.filter_cons, List.filter_cons, filter_smInsert h v r]

/-- A write outside a set of entries leaves their list. -/
theorem filter_smSet [DecidableEq α] (d : Nat → α) (h : ∀ v, P (k, v) = false) (m : SMap α) (v : α) : (smSet d m k v).filter P = m.filter P := by
  unfold smSet
  split
  · exact filter_smErase h m
  · exact (filter_smInsert h v _).trans (filter_smErase h m)
end

/-- The entries of the register file of a set. -/
def regEntries (P : Nat × Word → Bool) (s : State) : List (Nat × Word) := s.regs.filter P

section
variable {P : Nat × Word → Bool}

theorem keeps_entries_wr {pg : Page} {f : Fld} {v i : Nat} (h : ∀ w, P (fldAddr pg f i, w) = false) : Keeps (regEntries P) (wr pg f v i) :=
  keeps_look _ fun _ => keeps_prim _ _ fun s => filter_smSet regReset h s.regs _

theorem keeps_entries_addSat {pg : Page} {f : Fld} {n i : Nat} (h : ∀ w, P (fldAddr pg f i, w) = false) : Keeps (regEntries P) (addSat pg f n i) :=
  keeps_look _ fun _ => keeps_entries_wr h

theorem Only.entries {K : List Kind} {p : Prog} (h : Only K p) (hk : Kind.reg ∉ K := by decide) : Keeps (regEntries P) p := fun s => by
  show regEntries P _ = regEntries P s
  unfold regEntries
  rw [h.regs hk]

/-- A record leaves the entries outside the words that records write. -/
theorem keeps_entries_raiseSev {sev code island iter leg unit : Nat} {items : List Item} {k : Nat → Prog} (hk : ∀ u, Keeps (regEntries P) (k u))
    (h : ∀ a w, recordWords a → P (a, w) = false) : Keeps (regEntries P) (raiseSev sev code island iter leg unit items k) := by
  have hrecs (f : RecSt → RecSt) : Keeps (regEntries P) (modRecs f) := (only_modRecs (K := [.recs])).entries
  refine keeps_look _ fun s => keeps_cons _ (hrecs _) (keeps_cons _ (keeps_look _ fun t => ?_) (keeps_cons _ (hrecs _)
    (keeps_cons _ (keeps_whenP _ _ (keeps_look _ fun t => keeps_whenP _ _ (keeps_ite _ _ (hrecs _) (keeps_seq _ (hrecs _)
      (keeps_entries_addSat fun w => h _ w (.inl rfl)))))) (keeps_cons _ (hk _) (keeps_nil _)))))
  dsimp only
  split
  · exact hrecs _
  · refine keeps_seq _ (hrecs _) (keeps_entries_addSat fun w => h _ w (.inr ?_))
    have := codeClass_lt code
    simp only [fldAddr, pageBase, Reg.MOD2.DROP_COUNT]
    omega

theorem keeps_entries_raise {code island iter leg unit : Nat} {items : List Item} (h : ∀ a w, recordWords a → P (a, w) = false) :
    Keeps (regEntries P) (raise code island iter leg unit items) := keeps_entries_raiseSev (fun _ => keeps_skip _) h
end

/-! ### Waits withdrawn -/

theorem eraseFirst_foldl_cons {α : Type} [DecidableEq α] {x : α} : ∀ {l : List α} (r : List α), (∀ y ∈ l, y ≠ x) →
    l.foldl (fun ws y => eraseFirst y ws) (x :: r) = x :: l.foldl (fun ws y => eraseFirst y ws) r
  | [], _, _ => rfl
  | y :: l, r, h => by
    have hy : eraseFirst y (x :: r) = x :: eraseFirst y r := if_neg fun c => h y List.mem_cons_self c.symm
    rw [List.foldl_cons, List.foldl_cons, hy]
    exact eraseFirst_foldl_cons _ fun z hz => h z (List.mem_cons_of_mem _ hz)

/-- The elements that a condition chooses, erased one by one, leave the others. -/
theorem eraseFirst_foldl_filter {α : Type} [DecidableEq α] (p : α → Bool) : ∀ l : List α,
    (l.filter p).foldl (fun ws y => eraseFirst y ws) l = l.filter fun y => !p y
  | [] => rfl
  | x :: r => by
    by_cases hx : p x = true
    · rw [List.filter_cons_of_pos hx, List.filter_cons_of_neg (by simp [hx]), List.foldl_cons, show eraseFirst x (x :: r) = r from if_pos rfl]
      exact eraseFirst_foldl_filter p r
    · rw [List.filter_cons_of_neg hx, List.filter_cons_of_pos (by simpa using hx), eraseFirst_foldl_cons, eraseFirst_foldl_filter p r]
      rintro y hy rfl
      exact hx (List.mem_filter.mp hy).2

/-! ### What a SIGNAL may change -/

/-- What a SIGNAL counted leaves alone: all but counts, records, waits, the gates and cores that wait, and commands that finish. -/
def SignalFrame (s t : State) : Prop :=
  t = { s with
    counts := t.counts, regs := t.regs, recs := t.recs, gates := t.gates
    sync := { s.sync with waits := t.sync.waits, gated := t.sync.gated }, fw := { s.fw with waitStatus := t.fw.waitStatus }
    host := { s.host with accepted := t.host.accepted, finished := t.host.finished } }

theorem signalFrame_refl (s : State) : SignalFrame s s := rfl

theorem SignalFrame.trans {s t u : State} (h : SignalFrame s t) (h' : SignalFrame t u) : SignalFrame s u := by
  unfold SignalFrame at h h'
  exact h'.trans (by rw [h])

theorem signalFrame_raise (s : State) (code island iter leg unit : Nat) (items : List Item) : SignalFrame s ((raise code island iter leg unit items).run s) := by
  have h := (only_raise (K := [.reg, .recs]) (code := code) (island := island) (iter := iter) (leg := leg) (unit := unit) (items := items)
    (by decide) (by decide)).regs_recs s
  unfold SignalFrame
  exact h.trans (by rw [h])

theorem signalFrame_forEach {β : Type} {l : List β} {f : β → Prog} (h : ∀ x ∈ l, ∀ s, SignalFrame s ((f x).run s)) : ∀ s, SignalFrame s ((forEach l f).run s) := by
  induction l with
  | nil => exact signalFrame_refl
  | cons x r ih => exact fun s => (h x List.mem_cons_self s).trans (ih (fun y hy => h y (List.mem_cons_of_mem _ hy)) _)

theorem settleFences_frame : ∀ (n : Nat) (h : HostSt),
    settleFences n h = { h with accepted := (settleFences n h).accepted, finished := (settleFences n h).finished }
  | 0, _ => rfl
  | n + 1, h => by
    unfold settleFences
    split
    · rfl
    · exact settleFences_frame n _

theorem signalFrame_finish (s : State) (id status detail : Nat) (u : Option Nat) : SignalFrame s ((finish id status detail u).run s) := by
  cases h : findCmd s id with
  | none =>
    rw [run_finish_none h]
    exact signalFrame_refl s
  | some c =>
    rw [run_finish_some h]
    unfold SignalFrame
    dsimp only
    rw [settleFences_frame]
    rfl

theorem signalFrame_finishOpt (s : State) (id : Option Nat) (status detail : Nat) (u : Option Nat) : SignalFrame s ((finishOpt id status detail u).run s) := by
  cases id with
  | none => exact signalFrame_refl s
  | some i => exact signalFrame_finish s i status detail u

/-! ### Wakes -/

/-- The kinds of change that a wake makes. -/
def wakeK : List Kind := [.sync, .gate, .host, .fw]

theorem only_fwStatus {w : WaitRec} {n : Nat} : Only [.fw] (fwStatus w n) := only_whenP only_modFw

theorem only_wake {w : WaitRec} {n : Nat} : Only wakeK (wake w n) :=
  ⟨only_modSync, only_whenP only_modGate, only_finishOpt (by decide), only_fwStatus.mono (by decide), trivial⟩

theorem only_testWaits {p : Option Nat} {i n : Nat} : Only wakeK (testWaits p i n) := only_look fun _ => only_forEach fun _ => only_wake

theorem signalFrame_fwStatus (s : State) (w : WaitRec) (n : Nat) : SignalFrame s ((fwStatus w n).run s) := by
  unfold fwStatus
  rw [run_whenP]
  split <;> rfl

/-- A wait withdrawn and its gate let go. -/
def woken (w : WaitRec) (s : State) : State :=
  (whenP (decide (w.island < 768)) (modGate w.island fun g => { g with waitOk := true })).run
    ((modSync fun y => { y with waits := eraseFirst w y.waits, gated := smSet flagDefault y.gated w.island false }).run s)

theorem run_wake (w : WaitRec) (n : Nat) (s : State) : (wake w n).run s = (fwStatus w 0).run ((finishOpt w.cmd 0 n).run (woken w s)) := rfl

theorem signalFrame_woken (w : WaitRec) (s : State) : SignalFrame s (woken w s) := by
  unfold woken
  rw [run_whenP]
  split <;> rfl

theorem signalFrame_wake (w : WaitRec) (n : Nat) (s : State) : SignalFrame s ((wake w n).run s) :=
  ((signalFrame_woken w s).trans (signalFrame_finishOpt _ _ _ _ _)).trans (signalFrame_fwStatus _ _ _)

theorem waits_wake (w : WaitRec) (n : Nat) (s : State) : ((wake w n).run s).sync.waits = eraseFirst w s.sync.waits := by
  have hrest : Only [.gate, .host, .fw] (progs [whenP (decide (w.island < 768)) (modGate w.island fun g => { g with waitOk := true }),
      finishOpt w.cmd 0 n, fwStatus w 0]) :=
    ⟨only_whenP only_modGate, only_finishOpt (by decide), only_fwStatus.mono (by decide), trivial⟩
  unfold wake
  rw [run_progs_cons, hrest.sync]
  rfl

theorem gateOf_wake (w : WaitRec) (n : Nat) (s : State) (i : Nat) :
    gateOf ((wake w n).run s) i = if w.island = i ∧ i < 768 then { gateOf s i with waitOk := true } else gateOf s i := by
  have hrest : ((wake w n).run s).gates = (woken w s).gates := by
    rw [run_wake, only_fwStatus.gates, (only_finishOpt (K := [.host]) (by decide)).gates]
  have hgate : gateOf ((wake w n).run s) i = gateOf (woken w s) i := congrArg (fun g => smGet (fun _ => GateSt.idle) g i) hrest
  rw [hgate]
  unfold woken
  rw [run_whenP]
  by_cases hlt : w.island < 768
  · rw [if_pos (decide_eq_true hlt), run_modGate, gateOf_apply_gate]
    by_cases hi : i = w.island
    · subst hi
      rw [if_pos rfl, if_pos ⟨rfl, hlt⟩]
      rfl
    · have hne : ¬ (w.island = i ∧ i < 768) := fun c => hi c.1.symm
      rw [if_neg hi, if_neg hne]
      rfl
  · have hne : ¬ (w.island = i ∧ i < 768) := fun c => hlt (c.1 ▸ c.2)
    rw [if_neg (by simpa using hlt), if_neg hne]
    rfl

theorem fw_wake (w : WaitRec) (n : Nat) (s : State) :
    ((wake w n).run s).fw = if w.island = 852 then { s.fw with waitStatus := smSet zeroDefault s.fw.waitStatus w.queue 1 } else s.fw := by
  have hbefore : ((finishOpt w.cmd 0 n).run (woken w s)).fw = s.fw := by
    rw [(only_finishOpt (K := [.host]) (by decide)).fw]
    unfold woken
    rw [run_whenP]
    split <;> rfl
  rw [run_wake]
  unfold fwStatus
  rw [run_whenP]
  simp only [beq_iff_eq]
  split
  · rw [run_modFw, apply_fw]
    dsimp only
    rw [hbefore]
  · exact hbefore

theorem host_wake {w : WaitRec} (h : w.cmd = none) (n : Nat) (s : State) : ((wake w n).run s).host = s.host := by
  rw [run_wake, only_fwStatus.host, h]
  unfold woken
  rw [run_whenP]
  split <;> rfl

/-- A step of a list that makes something so, which no other step unmakes. -/
theorem forEach_makes {β : Type} {l : List β} {f : β → Prog} {I : State → Prop} {x : β} (hx : x ∈ l) (h : ∀ s, I ((f x).run s))
    (hk : ∀ y ∈ l, Preserves I (f y)) : ∀ s, I ((forEach l f).run s) := by
  induction l with
  | nil => exact absurd hx List.not_mem_nil
  | cons y r ih =>
    intro s
    rw [run_forEach_cons]
    rcases List.mem_cons.mp hx with rfl | hr
    · exact preserves_forEach (fun z hz => hk z (List.mem_cons_of_mem _ hz)) _ (h s)
    · exact ih hr (fun z hz => hk z (List.mem_cons_of_mem _ hz)) _

/-! ### The waits on a counter -/

/-- Whether a wait is on a counter and its target is reached. -/
def metBy (i n : Nat) (w : WaitRec) : Bool := w.localOf == none && w.counter == i && decide (w.target ≤ n)

theorem run_testWaits (i n : Nat) (s : State) :
    (testWaits none i n).run s = (forEach (s.sync.waits.filter (metBy i n)) fun w => wake w n).run s := rfl

section
variable (i n : Nat) (s : State)

theorem signalFrame_testWaits : SignalFrame s ((testWaits none i n).run s) := by
  rw [run_testWaits]
  exact signalFrame_forEach (fun w _ t => signalFrame_wake w n t) s

theorem waits_testWaits : ((testWaits none i n).run s).sync.waits = s.sync.waits.filter fun w => !metBy i n w := by
  have hall (l : List WaitRec) : ∀ t : State, ((forEach l fun w => wake w n).run t).sync.waits = l.foldl (fun ws w => eraseFirst w ws) t.sync.waits := by
    induction l with
    | nil => exact fun _ => rfl
    | cons w r ih => exact fun t => by rw [run_forEach_cons, ih, waits_wake, List.foldl_cons]
  rw [run_testWaits, hall, eraseFirst_foldl_filter]

theorem waitOk_testWaits {w : WaitRec} (hw : w ∈ s.sync.waits) (hmet : metBy i n w = true) (hgate : w.island < 768) :
    (gateOf ((testWaits none i n).run s) w.island).waitOk = true := by
  rw [run_testWaits]
  refine forEach_makes (I := fun t => (gateOf t w.island).waitOk = true) (List.mem_filter.mpr ⟨hw, hmet⟩) (fun t => ?_) (fun y _ t ht => ?_) s
  · rw [gateOf_wake, if_pos ⟨rfl, hgate⟩]
  · show (gateOf _ w.island).waitOk = true
    rw [gateOf_wake]
    split
    · rfl
    · exact ht

theorem gateOf_testWaits {g : Nat} (h : ∀ w ∈ s.sync.waits, metBy i n w = true → w.island ≠ g) : gateOf ((testWaits none i n).run s) g = gateOf s g := by
  rw [run_testWaits]
  refine keeps_forEach (fun t => gateOf t g) _ _ (fun w hw t => ?_) s
  obtain ⟨hmem, hmet⟩ := List.mem_filter.mp hw
  show gateOf _ g = gateOf t g
  rw [gateOf_wake, if_neg fun c => h w hmem hmet c.1]

theorem waitStatus_testWaits {w : WaitRec} (hw : w ∈ s.sync.waits) (hmet : metBy i n w = true) (hcore : w.island = 852) :
    smGet zeroDefault ((testWaits none i n).run s).fw.waitStatus w.queue = 1 := by
  rw [run_testWaits]
  refine forEach_makes (I := fun t => smGet zeroDefault t.fw.waitStatus w.queue = 1) (List.mem_filter.mpr ⟨hw, hmet⟩) (fun t => ?_) (fun y _ t ht => ?_) s
  · rw [fw_wake, if_pos hcore]
    exact smGet_set_same zeroDefault t.fw.waitStatus w.queue 1
  · show smGet zeroDefault (State.fw _).waitStatus w.queue = 1
    rw [fw_wake]
    split
    · dsimp only
      rw [smGet_set]
      split
      · rfl
      · exact ht
    · exact ht

theorem fw_testWaits (h : ∀ w ∈ s.sync.waits, metBy i n w = true → w.island ≠ 852) : ((testWaits none i n).run s).fw = s.fw := by
  rw [run_testWaits]
  refine keeps_forEach (fun t => t.fw) _ _ (fun w hw t => ?_) s
  obtain ⟨hmem, hmet⟩ := List.mem_filter.mp hw
  show State.fw _ = t.fw
  rw [fw_wake, if_neg (h w hmem hmet)]

theorem host_testWaits (h : ∀ w ∈ s.sync.waits, metBy i n w = true → w.cmd = none) : ((testWaits none i n).run s).host = s.host := by
  rw [run_testWaits]
  refine keeps_forEach (fun t => t.host) _ _ (fun w hw t => ?_) s
  obtain ⟨hmem, hmet⟩ := List.mem_filter.mp hw
  exact host_wake (h w hmem hmet) n t

end

/-! ### A count raised -/

theorem signalFrame_count (s : State) (i n : Nat) : SignalFrame s ((Act.count i n).apply s) := rfl

/-- The state in which a count has been raised, and a saturation recorded, before the waits are tested. -/
def counted (i n : Nat) (s : State) : State :=
  (Act.count i n).apply ((whenP (decide (countMax < countOf s i + n)) (raise Code.SYNC_SATURATE 852 0 noLeg 0 [w32 i])).run s)

theorem run_addCount (i n : Nat) (s : State) : (addCount i n).run s = (testWaits none i (countOf (counted i n s) i)).run (counted i n s) := rfl

section
variable (i n : Nat) (s : State)

theorem signalFrame_counted : SignalFrame s (counted i n s) := by
  have hraise : SignalFrame s ((whenP (decide (countMax < countOf s i + n)) (raise Code.SYNC_SATURATE 852 0 noLeg 0 [w32 i])).run s) := by
    rw [run_whenP]
    split
    · exact signalFrame_raise _ _ _ _ _ _ _
    · exact signalFrame_refl s
  exact hraise.trans (signalFrame_count _ i n)

theorem only_saturation : Only [.reg, .recs] (whenP (decide (countMax < countOf s i + n)) (raise Code.SYNC_SATURATE 852 0 noLeg 0 [w32 i])) :=
  only_whenP (only_raise (by decide) (by decide))

theorem counts_counted : (counted i n s).counts = smSet zeroDefault s.counts i (min countMax (countOf s i + n)) := by
  unfold counted
  rw [apply_counts]
  dsimp only
  rw [(only_saturation i n s).counts]
  rfl

theorem sync_counted : (counted i n s).sync = s.sync := by
  unfold counted
  rw [apply_sync]
  exact (only_saturation i n s).sync

theorem gates_counted : (counted i n s).gates = s.gates := by
  unfold counted
  rw [apply_gates]
  exact (only_saturation i n s).gates

theorem fw_counted : (counted i n s).fw = s.fw := by
  unfold counted
  rw [apply_fw]
  exact (only_saturation i n s).fw

theorem host_counted : (counted i n s).host = s.host := by
  unfold counted
  rw [apply_host]
  exact (only_saturation i n s).host

theorem countOf_counted : countOf (counted i n s) i = min countMax (countOf s i + n) := by
  unfold countOf
  rw [counts_counted]
  exact smGet_set_same _ _ _ _

theorem signalFrame_addCount : SignalFrame s ((addCount i n).run s) := by
  rw [run_addCount]
  exact (signalFrame_counted i n s).trans (signalFrame_testWaits _ _ _)

theorem countOf_addCount (k : Nat) : countOf ((addCount i n).run s) k = if k = i then min countMax (countOf s i + n) else countOf s k := by
  rw [run_addCount]
  show smGet zeroDefault ((testWaits none i _).run (counted i n s)).counts k = _
  rw [only_testWaits.counts, counts_counted, smGet_set]
  rfl

/-- A count raised writes no words but those of records. -/
theorem regWord_addCount {a : Nat} (ha : ¬ recordWords a) : regWord ((addCount i n).run s) a = regWord s a := by
  have hsat : Writes recordWords (whenP (decide (countMax < countOf s i + n)) (raise Code.SYNC_SATURATE 852 0 noLeg 0 [w32 i])) :=
    writes_whenP fun _ => writes_raise _ _ _ _ _ _
  rw [run_addCount]
  exact (only_testWaits.writes (by decide) a ha _).trans (hsat a ha s)

theorem regEntries_addCount {P : Nat × Word → Bool} (h : ∀ a w, recordWords a → P (a, w) = false) : regEntries P ((addCount i n).run s) = regEntries P s := by
  have hsat : Keeps (regEntries P) (whenP (decide (countMax < countOf s i + n)) (raise Code.SYNC_SATURATE 852 0 noLeg 0 [w32 i])) :=
    keeps_whenP _ _ (keeps_entries_raise h)
  rw [run_addCount]
  exact (only_testWaits.entries (by decide) _).trans (hsat s)

/-- A count that does not saturate makes no record. -/
theorem regs_recs_addCount (h : countOf s i + n ≤ countMax) : ((addCount i n).run s).regs = s.regs ∧ ((addCount i n).run s).recs = s.recs := by
  have hcounted : counted i n s = (Act.count i n).apply s := by
    unfold counted
    rw [decide_eq_false (Nat.not_lt.mpr h), run_whenP_false]
  rw [run_addCount, only_testWaits.regs, only_testWaits.recs, hcounted]
  exact ⟨rfl, rfl⟩

theorem recorded_addCount (h : countMax < countOf s i + n) : Recorded 852 Code.SYNC_SATURATE ((addCount i n).run s) := by
  rw [run_addCount]
  refine only_testWaits.preserves_recorded _ _ (by decide) _ ?_
  unfold counted
  rw [decide_eq_true h, run_whenP_true, ← run_prim]
  exact (only_prim (K := [.count]) List.mem_cons_self).preserves_recorded _ _ (by decide) _ (recorded_raise _ _ _ _ _ _ _)

end

end Sys2Proof.Machine
end

section
/-! A SIGNAL applied to a PLAIN counter (R252, R261, R262): O16. -/

namespace Sys2Proof.Machine

open Sys2Proof

set_option Elab.async false

/-! ### The SIGNAL taken -/

/-- The state in which the oldest SIGNAL has been taken. -/
def dequeued (s : State) (r : List SigRec) : State := { s with sync := { s.sync with sigQ := r } }

theorem exec_signalApply {s : State} {x : SigRec} {r : List SigRec} (h : s.sync.sigQ = x :: r) :
    exec (.signalApply []) s = .next ((applySignal x).run (dequeued s r)) := by
  refine congrArg Host.Outcome.next ?_
  unfold progSignalApply
  rw [run_look, h]
  rfl

theorem counterMode_dequeued (s : State) (r : List SigRec) (i : Nat) : counterMode (dequeued s r) i = counterMode s i := (counterCfg_congr rfl).1

theorem counterIndex_dequeued (s : State) (r : List SigRec) (i : Nat) : counterIndex (dequeued s r) i = counterIndex s i := (counterCfg_congr rfl).2

theorem samePairs_dequeued (s : State) (r : List SigRec) : SamePairs s (dequeued s r) := .of_regs rfl

theorem pairOf_dequeued (s : State) (r : List SigRec) (i : Nat) : pairOf (dequeued s r) i = pairOf s i := (samePairs_dequeued s r).pairOf i

/-! ### The end of a SIGNAL -/

theorem only_finishSignal {x : SigRec} {status : Nat} : Only [.host] (finishSignal x status) := only_look fun _ => only_finishOpt (by decide)

theorem signalFrame_finishSignal (x : SigRec) (status : Nat) (s : State) : SignalFrame s ((finishSignal x status).run s) := signalFrame_finishOpt _ _ _ _ _

/-- A SIGNAL command completes with the count of its counter. -/
theorem hasFinished_finishSignal {s : State} {x : SigRec} {id : Nat} {c : Cmd} (hcmd : x.cmd = some id) (hfind : findCmd s id = some c)
    (hbody : ∀ i k a, c.body = some (.signal i k a) → i = x.counter) (status : Nat) :
    HasFinished ((finishSignal x status).run s) c status (countOf s x.counter) := by
  obtain ⟨hmem, rfl⟩ := findCmd_id hfind
  have hrun : (finishSignal x status).run s = (finish c.id status (countOf s x.counter)).run s := by
    unfold finishSignal
    rw [run_look, hcmd]
    dsimp only [Option.bind_some]
    rw [hfind]
    dsimp only
    split
    · next i k a hb => rw [hbody i k a hb]; rfl
    · rfl
  rw [hrun]
  exact hasFinished_finish ⟨c, hmem, rfl⟩ status _ none

/-! ### A count raised leaves the configuration -/

theorem samePairs_addCount (i n : Nat) (s : State) : SamePairs s ((addCount i n).run s) := by
  refine ⟨regEntries_addCount i n s fun a w h => ?_, fun a h => regWord_addCount i n s fun c => ?_⟩
  · have : ¬ 0x91100 ≤ a := by unfold recordWords at h; omega
    simp [this]
  · unfold pairAddrs at h
    unfold recordWords at c
    omega

theorem run_signalPlain_unpaired {x : SigRec} {s : State} (h : pairOf s x.counter = none) :
    (signalPlain x).run s = (finishSignal x 0).run ((addCount x.counter x.amount).run s) := by
  unfold signalPlain
  rw [run_seq, run_look, (samePairs_addCount _ _ s).pairOf, h]

theorem run_signalPlain_paired {x : SigRec} {s : State} {e : Nat} (h : pairOf s x.counter = some e) : let u := (addCount x.counter x.amount).run s
    (signalPlain x).run s =
      if pairFault u e = 0 then (finishSignal x 0).run u else (finishSignal x (pairFault u e)).run ((pairReport x e (pairFault u e)).run u) := by
  unfold signalPlain
  rw [run_seq, run_look, (samePairs_addCount _ _ s).pairOf, h]
  dsimp only
  rw [run_ite, run_seq]

/-! ### A counter that no pair names -/

theorem run_applySignal_plain {x : SigRec} {s : State} (h : counterMode s x.counter = 0 ∨ (counterMode s x.counter = 1 ∧ ∃ n, x.src = .remote n)) :
    (applySignal x).run s = (signalPlain x).run s := by
  unfold applySignal
  rw [run_look]
  rcases h with h | ⟨h, n, hsrc⟩
  · rw [if_neg (by rw [h]; decide), if_neg (by rw [h]; decide)]
  · rw [if_pos h, hsrc, if_pos (show remoteSource (.remote n) = true from rfl)]

/-- The state that a SIGNAL to an unpaired counter leaves. -/
def plainCounted (s : State) (x : SigRec) (r : List SigRec) : State := (finishSignal x 0).run ((addCount x.counter x.amount).run (dequeued s r))

section
variable (s : State) (x : SigRec) (r : List SigRec)

theorem signalFrame_plainCounted : SignalFrame (dequeued s r) (plainCounted s x r) :=
  (signalFrame_addCount _ _ _).trans (signalFrame_finishSignal _ _ _)

theorem countOf_plainCounted (k : Nat) : countOf (plainCounted s x r) k = if k = x.counter then min countMax (countOf s x.counter + x.amount) else countOf s k := by
  have h := countOf_addCount x.counter x.amount (dequeued s r) k
  unfold countOf at h ⊢
  unfold plainCounted
  rw [only_finishSignal.counts]
  exact h

/-- The state in which the waits are tested. -/
theorem run_plainCounted : plainCounted s x r =
    (finishSignal x 0).run ((testWaits none x.counter (min countMax (countOf s x.counter + x.amount))).run (counted x.counter x.amount (dequeued s r))) := by
  unfold plainCounted
  rw [run_addCount, countOf_counted]
  rfl

end

/-- Settles O16: the count as it is raised, the waits as they are tested against it, and the rest by the frame of a SIGNAL. -/
theorem signalAppliedPlain : Obligations.SignalAppliedPlain := by
  unfold Obligations.SignalAppliedPlain
  intro s x r hq hmode hpair n met
  have hmode' : counterMode (dequeued s r) x.counter = 0 ∨ (counterMode (dequeued s r) x.counter = 1 ∧ ∃ n, x.src = .remote n) := by
    rw [counterMode_dequeued]
    exact hmode
  have hnone : pairOf (dequeued s r) x.counter = none := by
    rw [pairOf_dequeued]
    rw [inPair_eq] at hpair
    exact Option.isNone_iff_eq_none.mp (by simpa using hpair)
  have hexec : exec (.signalApply []) s = .next (plainCounted s x r) := by
    rw [exec_signalApply hq, run_applySignal_plain hmode', run_signalPlain_unpaired hnone]
    rfl
  have hframe := signalFrame_plainCounted s x r
  have hsync : (plainCounted s x r).sync = ((testWaits none x.counter n).run (counted x.counter x.amount (dequeued s r))).sync := by
    rw [run_plainCounted, only_finishSignal.sync]
    rfl
  have hgates (i : Nat) : gateOf (plainCounted s x r) i = gateOf ((testWaits none x.counter n).run (counted x.counter x.amount (dequeued s r))) i := by
    unfold gateOf
    rw [run_plainCounted, only_finishSignal.gates]
    rfl
  have hfw : (plainCounted s x r).fw = ((testWaits none x.counter n).run (counted x.counter x.amount (dequeued s r))).fw := by
    rw [run_plainCounted, only_finishSignal.fw]
    rfl
  have hwaits : (counted x.counter x.amount (dequeued s r)).sync.waits = s.sync.waits := by
    rw [sync_counted]
    rfl
  refine ⟨plainCounted s x r, hexec, ?_, fun i hi => ?_, by rw [hframe]; rfl, ?_, fun w hw hmet hgate => ?_, fun i hi => ?_, fun id c hcmd hfind hbody hno => ?_,
    fun w hw hmet hcore => ?_, fun hno => ?_, fun hsat => ?_, fun hfit => ?_, hframe⟩
  · rw [countOf_plainCounted, if_pos rfl]
    rfl
  · rw [countOf_plainCounted, if_neg hi]
  · rw [hsync, waits_testWaits, hwaits]
    rfl
  · rw [hgates]
    exact waitOk_testWaits _ _ _ (hwaits ▸ hw) hmet hgate
  · rw [hgates, gateOf_testWaits _ _ _ (hwaits ▸ hi)]
    unfold gateOf
    rw [gates_counted]
    rfl
  · have hhost : ((testWaits none x.counter n).run (counted x.counter x.amount (dequeued s r))).host = s.host := by
      rw [host_testWaits _ _ _ (hwaits ▸ hno), host_counted]
      rfl
    have hdone := hasFinished_finishSignal (s := (testWaits none x.counter n).run (counted x.counter x.amount (dequeued s r))) hcmd
      (by unfold findCmd; rw [hhost]; exact hfind) hbody 0
    have hcount : countOf ((testWaits none x.counter n).run (counted x.counter x.amount (dequeued s r))) x.counter = n := by
      unfold countOf
      rw [only_testWaits.counts]
      exact countOf_counted _ _ _
    rw [hcount] at hdone
    rw [run_plainCounted]
    exact hdone
  · rw [hfw]
    exact waitStatus_testWaits _ _ _ (hwaits ▸ hw) hmet hcore
  · rw [hfw, fw_testWaits _ _ _ (hwaits ▸ hno), fw_counted]
    rfl
  · exact (only_finishSignal.preserves_recorded _ _ (by decide) _ (recorded_addCount x.counter x.amount (dequeued s r) hsat)).hasRecord
  · obtain ⟨hregs, hrecs⟩ := regs_recs_addCount x.counter x.amount (dequeued s r) hfit
    unfold plainCounted
    rw [only_finishSignal.regs, only_finishSignal.recs]
    exact ⟨hregs, hrecs⟩

end Sys2Proof.Machine
end

section
/-! Pair entries checked after a SIGNAL (R261, R262): O17, and what a fault of a SIGNAL does to its source. -/

namespace Sys2Proof.Machine

open Sys2Proof

set_option Elab.async false

/-! ### A fault at its source -/

/-- What a fault of a SIGNAL ends: the run in progress on the piste of its leg, or nothing. -/
def sourceEnd (x : SigRec) (code : Nat) (u : Option Nat) : Prog :=
  match x.run, x.src with
  | some id, .die i _ => .look fun s => whenP ((pisteOf s (i / 12)).run == some id) (failRun (i / 12) code i x.leg u)
  | _, _ => .skip

theorem sourceFault_eq (x : SigRec) (code island unit : Nat) (items : List Item) (report : Bool) : sourceFault x code island unit items report =
    if report then raiseSev (if x.run.isSome || x.cmd.isSome then 2 else 1) code island 0 noLeg unit items fun u => sourceEnd x code (some u)
    else sourceEnd x code none := rfl

theorem sourceEnd_cases (x : SigRec) (code : Nat) (u : Option Nat) : sourceEnd x code u = .skip ∨
    ∃ i id, sourceEnd x code u = .look fun s => whenP ((pisteOf s (i / 12)).run == some id) (failRun (i / 12) code i x.leg u) := by
  unfold sourceEnd
  split
  · exact .inr ⟨_, _, rfl⟩
  · exact .inl rfl

/-- A property of programs that faults of SIGNALs have, where the end of a run and a record have it. -/
theorem sourceFault_induct {P : Prog → Prop} {x : SigRec} {code island unit : Nat} {items : List Item} {report : Bool} (hskip : P .skip)
    (hfail : ∀ i id u, P (.look fun s => whenP ((pisteOf s (i / 12)).run == some id) (failRun (i / 12) code i x.leg u)))
    (hraise : ∀ sev (k : Nat → Prog), (∀ u, P (k u)) → P (raiseSev sev code island 0 noLeg unit items k)) : P (sourceFault x code island unit items report) := by
  have hP (u : Option Nat) : P (sourceEnd x code u) := by
    rcases sourceEnd_cases x code u with h | ⟨i, id, h⟩ <;> rw [h]
    · exact hskip
    · exact hfail i id u
  rw [sourceFault_eq]
  split
  · exact hraise _ _ fun u => hP _
  · exact hP none

section
variable {x : SigRec} {code island unit : Nat} {items : List Item} {report : Bool}

theorem only_sourceFault : Only (.recs :: failK) (sourceFault x code island unit items report) :=
  sourceFault_induct (P := Only (.recs :: failK)) only_skip (fun _ _ _ => only_look fun _ => only_whenP (only_failRun.mono (by decide)))
    fun _ _ hk => only_raiseSev hk (by decide) (by decide)

/-- The words that a fault of a SIGNAL may write: those of records, and of the pistes. -/
def faultWords (a : Nat) : Prop := recordWords a ∨ 0x1000000 ≤ a

theorem writes_sourceFault : Writes faultWords (sourceFault x code island unit items report) := by
  refine sourceFault_induct (P := Writes faultWords) writes_skip (fun i _ _ => writes_look fun _ => writes_whenP fun _ => writes_failRun (.inr ?_))
    fun _ _ hk => writes_raiseSev hk fun a h => .inl h
  rw [fldAddr_eq]
  simp only [pageBase]
  omega

theorem keeps_sigQ_failRun {p status leg : Nat} {u : Option Nat} : Keeps (fun s => s.sync.sigQ) (failRun p status island leg u) := by
  refine keeps_look _ fun s => ?_
  split
  · exact keeps_skip _
  · have hother {p : Prog} (h : Only [.runs, .piste, .reg, .units, .gate] p) : Keeps (fun s => s.sync.sigQ) p := fun s => congrArg SyncSt.sigQ h.sync
    exact keeps_cons _ (hother (only_modRun (by decide))) (keeps_cons _ (hother only_modPiste) (keeps_cons _ (hother only_wr) (keeps_cons _ (hother only_modUnits)
      (keeps_cons _ (hother (only_forEach fun _ => only_modGate)) (keeps_cons _ (fun _ => rfl) (keeps_nil _))))))

theorem keeps_sigQ_sourceFault : Keeps (fun s => s.sync.sigQ) (sourceFault x code island unit items report) := by
  have hother {p : Prog} (h : Only [.recs, .reg] p) : Keeps (fun s => s.sync.sigQ) p := fun s => congrArg SyncSt.sigQ h.sync
  refine sourceFault_induct (P := Keeps fun s => s.sync.sigQ) (keeps_skip _) (fun _ _ _ => keeps_look _ fun _ => keeps_whenP _ _ keeps_sigQ_failRun)
    fun _ _ hk => keeps_look _ fun s => keeps_cons _ (hother only_modRecs) (keeps_cons _ (hother only_enqueueRecord) (keeps_cons _ (hother only_alarm)
      (keeps_cons _ (keeps_whenP _ _ (hother only_trace)) (keeps_cons _ (hk _) (keeps_nil _)))))

/-- A fault that is reported leaves its record. -/
theorem hasRecord_sourceFault (s : State) : HasRecord ((sourceFault x code island unit items true).run s) island code := by
  rw [sourceFault_eq, if_pos rfl]
  refine hasRecord_raiseSev (fun u => ?_) s
  rcases sourceEnd_cases x code (some u) with h | ⟨i, id, h⟩ <;> rw [h]
  · exact keeps_skip _
  · exact keeps_look _ fun _ => keeps_whenP _ _ (only_failRun.srcQueue _)

end

/-! ### A pair's fault -/

/-- The bit of PAIR_STATUS that a fault sets. -/
def pairBit (code : Nat) : Fld := if code == Code.SYNC_UNDERFLOW then Reg.SYN16.PAIR_STATUS_UNDERFLOW else Reg.SYN16.PAIR_STATUS_OVERFLOW

theorem pairBit_cases (code : Nat) : pairBit code = Reg.SYN16.PAIR_STATUS_UNDERFLOW ∨ pairBit code = Reg.SYN16.PAIR_STATUS_OVERFLOW := by
  unfold pairBit
  split
  · exact .inl rfl
  · exact .inr rfl

theorem plain_pairBit (code : Nat) : plain (.syn 16) (pairBit code) = true := by
  rcases pairBit_cases code with h | h <;> rw [h] <;> decide

/-- A pair's fault counted and latched. -/
def pairLatched (s : State) (e code : Nat) : State :=
  (whenP (rd s (.syn 16) Reg.SYN16.PAIR_STATUS_UNDERFLOW == 0 && rd s (.syn 16) Reg.SYN16.PAIR_STATUS_OVERFLOW == 0)
    (wr (.syn 16) Reg.SYN16.PAIR_STATUS_FIRST e)).run
    ((wr (.syn 16) (pairBit code) 1).run ((addSat (.syn 16) Reg.SYN16.PAIR_FAULT_COUNT 1).run s))

theorem run_pairReport (x : SigRec) (e code : Nat) (s : State) : ∃ items, (pairReport x e code).run s =
    (sourceFault x code 852 0 items (rd s (.syn 16) (pairBit code) == 0)).run (pairLatched s e code) := ⟨_, rfl⟩

theorem rd_pairLatched (s : State) (e code : Nat) : rd (pairLatched s e code) (.syn 16) (pairBit code) = 1 ∧
    rd (pairLatched s e code) (.syn 16) Reg.SYN16.PAIR_FAULT_COUNT = min (2 ^ 32 - 1) (rd s (.syn 16) Reg.SYN16.PAIR_FAULT_COUNT + 1) := by
  have hbits : (pairBit code).off = 0x130 ∧ (pairBit code).w = 1 ∧ (pairBit code).lo < 8 ∧ (pairBit code).stride = 4 := by
    rcases pairBit_cases code with h | h <;> rw [h] <;> decide
  obtain ⟨hoff, hw, hlo, hstride⟩ := hbits
  have hfirst (b : Bool) (u : State) {f : Fld} (hp : plain (.syn 16) f = true)
      (h : Reg.SYN16.PAIR_STATUS_FIRST.off + Reg.SYN16.PAIR_STATUS_FIRST.stride * 0 ≠ f.off + f.stride * 0 ∨ f.lo + f.w ≤ 8) :
      rd ((whenP b (wr (.syn 16) Reg.SYN16.PAIR_STATUS_FIRST e)).run u) (.syn 16) f = rd u (.syn 16) f := by
    cases b
    · rfl
    · exact rd_wr_other _ _ _ _ _ _ _ _ (by decide) hp (.inr (h.imp id .inr))
  unfold pairLatched
  refine ⟨?_, ?_⟩
  · rw [hfirst _ _ (plain_pairBit code) (.inr (by omega)), rd_wr_same _ _ _ _ _ (plain_pairBit code), hw]
    rfl
  · rw [hfirst _ _ (by decide) (.inl (by decide)), rd_wr_other _ _ _ _ _ _ _ _ (plain_pairBit code) (by decide) (.inr (.inl (by rw [hoff, hstride]; decide))),
      rd_addSat (by decide)]
    exact satBits_eq_min _

theorem only_pairReport {x : SigRec} {e code : Nat} : Only (.recs :: failK) (pairReport x e code) :=
  only_look fun _ => only_cons (only_addSat) (only_cons only_wr (only_cons (only_whenP only_wr) (only_cons only_sourceFault only_nil)))

theorem keeps_sigQ_pairReport {x : SigRec} {e code : Nat} : Keeps (fun s => s.sync.sigQ) (pairReport x e code) := by
  have hreg {p : Prog} (h : Only [.reg] p) : Keeps (fun s => s.sync.sigQ) p := fun s => congrArg SyncSt.sigQ h.sync
  exact keeps_look _ fun _ => keeps_cons _ (hreg only_addSat) (keeps_cons _ (hreg only_wr) (keeps_cons _ (hreg (only_whenP only_wr))
    (keeps_cons _ keeps_sigQ_sourceFault (keeps_nil _))))

theorem pairReport_spec (x : SigRec) (e code : Nat) (s : State) : let t := (pairReport x e code).run s
    rd t (.syn 16) (pairBit code) = 1 ∧ rd t (.syn 16) Reg.SYN16.PAIR_FAULT_COUNT = min (2 ^ 32 - 1) (rd s (.syn 16) Reg.SYN16.PAIR_FAULT_COUNT + 1) ∧
    (rd s (.syn 16) (pairBit code) = 0 → HasRecord t 852 code) := by
  obtain ⟨items, hrun⟩ := run_pairReport x e code s
  obtain ⟨hbit, hcount⟩ := rd_pairLatched s e code
  have hsyn {f : Fld} (h : f.off + f.stride * 0 < 4096) : ¬ faultWords (fldAddr (.syn 16) f 0) := by
    rw [fldAddr_eq]
    unfold faultWords recordWords
    simp only [pageBase]
    omega
  rw [hrun]
  refine ⟨(writes_sourceFault.rd (hsyn ?_) (plain_pairBit code) _).trans hbit, (writes_sourceFault.rd (hsyn (by decide)) (by decide) _).trans hcount, fun h => ?_⟩
  · rcases pairBit_cases code with h | h <;> rw [h] <;> decide
  · rw [beq_iff_eq.mpr h]
    exact hasRecord_sourceFault _

/-! ### The obligation -/

/-- The state that a SIGNAL to a paired counter leaves. -/
def pairCounted (s : State) (x : SigRec) (r : List SigRec) (e : Nat) : State :=
  let u := (addCount x.counter x.amount).run (dequeued s r)
  if pairFault u e = 0 then (finishSignal x 0).run u else (finishSignal x (pairFault u e)).run ((pairReport x e (pairFault u e)).run u)

theorem exec_signalApply_paired {s : State} {x : SigRec} {r : List SigRec} {e : Nat} (hq : s.sync.sigQ = x :: r) (hmode : counterMode s x.counter = 0)
    (hpair : pairOf s x.counter = some e) : exec (.signalApply []) s = .next (pairCounted s x r e) := by
  rw [exec_signalApply hq, run_applySignal_plain (.inl ((counterMode_dequeued s r _).trans hmode)),
    run_signalPlain_paired ((pairOf_dequeued s r _).trans hpair)]
  rfl

theorem pairCounted_cases (s : State) (x : SigRec) (r : List SigRec) (e : Nat) : let u := (addCount x.counter x.amount).run (dequeued s r)
    (pairFault u e = 0 ∧ pairCounted s x r e = (finishSignal x 0).run u) ∨
    (pairFault u e ≠ 0 ∧ pairCounted s x r e = (finishSignal x (pairFault u e)).run ((pairReport x e (pairFault u e)).run u)) := by
  intro u
  by_cases h : pairFault u e = 0
  · exact .inl ⟨h, if_pos h⟩
  · exact .inr ⟨h, if_neg h⟩

theorem sigQ_addCount (i n : Nat) (s : State) : ((addCount i n).run s).sync.sigQ = s.sync.sigQ := by rw [signalFrame_addCount i n s]

theorem counts_sigQ_pairCounted (s : State) (x : SigRec) (r : List SigRec) (e : Nat) : let u := (addCount x.counter x.amount).run (dequeued s r)
    (pairCounted s x r e).counts = u.counts ∧ (pairCounted s x r e).sync.sigQ = r := by
  intro u
  have hq : u.sync.sigQ = r := sigQ_addCount x.counter x.amount (dequeued s r)
  rcases pairCounted_cases s x r e with ⟨-, h⟩ | ⟨-, h⟩ <;> rw [h, only_finishSignal.counts, only_finishSignal.sync]
  · exact ⟨rfl, hq⟩
  · exact ⟨only_pairReport.counts, (keeps_sigQ_pairReport u).trans hq⟩

/-- The fault of a pair, by the counts of its two counters. -/
theorem pairFault_of_lt {s : State} {e : Nat}
    (h : countOf s (rd s (.syn 17) Reg.SYN17.PAIR_PRODUCER e) < countOf s (rd s (.syn 17) Reg.SYN17.PAIR_CONSUMER e)) : pairFault s e = Code.SYNC_UNDERFLOW := if_pos h

theorem pairFault_of_deep {s : State} {e : Nat}
    (h : countOf s (rd s (.syn 17) Reg.SYN17.PAIR_CONSUMER e) ≤ countOf s (rd s (.syn 17) Reg.SYN17.PAIR_PRODUCER e))
    (hd : rd s (.syn 17) Reg.SYN17.PAIR_DEPTH e < countOf s (rd s (.syn 17) Reg.SYN17.PAIR_PRODUCER e) - countOf s (rd s (.syn 17) Reg.SYN17.PAIR_CONSUMER e)) :
    pairFault s e = Code.SYNC_OVERFLOW := (if_neg (Nat.not_lt.mpr h)).trans (if_pos hd)

theorem pairFault_of_within {s : State} {e : Nat}
    (h : countOf s (rd s (.syn 17) Reg.SYN17.PAIR_CONSUMER e) ≤ countOf s (rd s (.syn 17) Reg.SYN17.PAIR_PRODUCER e))
    (hd : countOf s (rd s (.syn 17) Reg.SYN17.PAIR_PRODUCER e) - countOf s (rd s (.syn 17) Reg.SYN17.PAIR_CONSUMER e) ≤ rd s (.syn 17) Reg.SYN17.PAIR_DEPTH e) :
    pairFault s e = 0 := (if_neg (Nat.not_lt.mpr h)).trans (if_neg (Nat.not_lt.mpr hd))

/-- Settles O17: the counts after the SIGNAL decide the pair's fault, and a fault is latched, counted and recorded. -/
theorem pairChecked : Obligations.PairChecked := by
  unfold Obligations.PairChecked
  intro s x r e hq hmode hpair
  obtain ⟨hcounts, hsig⟩ := counts_sigQ_pairCounted s x r e
  have hcases := pairCounted_cases s x r e
  have hregs {a : Nat} (ha : ¬ recordWords a) : regWord ((addCount x.counter x.amount).run (dequeued s r)) a = regWord s a :=
    (regWord_addCount _ _ _ ha).trans rfl
  have hentry {f : Fld} (hf : f ∈ pairFields) : rd ((addCount x.counter x.amount).run (dequeued s r)) (.syn 17) f e = rd s (.syn 17) f e :=
    ((samePairs_dequeued s r).trans (samePairs_addCount _ _ _)).rd (pairOf_lt hpair) hf
  have hraised (i : Nat) : countOf ((addCount x.counter x.amount).run (dequeued s r)) i =
      if i = x.counter then min countMax (countOf s x.counter + x.amount) else countOf s i := countOf_addCount _ _ _ i
  refine ⟨pairCounted s x r e, exec_signalApply_paired hq hmode hpair, ?_⟩
  generalize (addCount x.counter x.amount).run (dequeued s r) = u at *
  generalize pairCounted s x r e = t at *
  have hcount (i : Nat) : countOf t i = countOf u i := congrArg (fun m => smGet zeroDefault m i) hcounts
  have hpage {f : Fld} (hlt : f.off + f.stride * 0 < 4096) (hp : plain (.syn 16) f = true) : rd u (.syn 16) f = rd s (.syn 16) f := by
    refine rd_of_regWord (hregs ?_) hp
    rw [fldAddr_eq]
    unfold recordWords
    simp only [pageBase]
    omega
  have hfault (code : Nat) (hne : code ≠ 0) (hf : pairFault u e = code) : rd t (.syn 16) (pairBit code) = 1 ∧
      rd t (.syn 16) Reg.SYN16.PAIR_FAULT_COUNT = min (2 ^ 32 - 1) (rd u (.syn 16) Reg.SYN16.PAIR_FAULT_COUNT + 1) ∧
      (rd u (.syn 16) (pairBit code) = 0 → HasRecord t 852 code) := by
    obtain ⟨h, -⟩ | ⟨-, ht⟩ := hcases
    · exact absurd (hf.symm.trans h) hne
    · obtain ⟨hbit, hc, hrec⟩ := pairReport_spec x e code u
      have hend := only_finishSignal (x := x) (status := code)
      rw [hf] at ht
      rw [ht, rd_congr hend.regs _ _ _ (plain_pairBit code), rd_congr hend.regs _ _ _ (by decide)]
      exact ⟨hbit, hc, fun h => (hrec h).of_srcQueue (hend.srcQueue 852 (by decide) _)⟩
  refine ⟨?_, fun i hi => ?_, hsig, ?_⟩
  · rw [hcount, hraised, if_pos rfl]
    rfl
  · rw [hcount, hraised, if_neg hi]
  · simp only [hcount, ← hentry (f := Reg.SYN17.PAIR_PRODUCER) (by decide), ← hentry (f := Reg.SYN17.PAIR_CONSUMER) (by decide),
      ← hentry (f := Reg.SYN17.PAIR_DEPTH) (by decide), ← hpage (f := Reg.SYN16.PAIR_FAULT_COUNT) (by decide) (by decide),
      ← hpage (f := Reg.SYN16.PAIR_STATUS_UNDERFLOW) (by decide) (by decide), ← hpage (f := Reg.SYN16.PAIR_STATUS_OVERFLOW) (by decide) (by decide)]
    refine ⟨fun hlt => hfault Code.SYNC_UNDERFLOW (by decide) (pairFault_of_lt hlt),
      fun hle hdeep => hfault Code.SYNC_OVERFLOW (by decide) (pairFault_of_deep hle hdeep), fun hle hin a ha => ?_⟩
    obtain ⟨-, ht⟩ | ⟨hne, -⟩ := hcases
    · rw [ht]
      refine (only_finishSignal.writes (A := fun _ => False) (by decide) a id _).trans (hregs fun hrec => ?_)
      have hbase := pageBase_of_pageAt ha
      unfold recordWords at hrec
      simp only [pageBase] at hbase
      omega
    · exact absurd (pairFault_of_within hle hin) hne

end Sys2Proof.Machine
end

section
/-! Arrivals at barriers (R264 to R266, R268): O18, and the set-up of a barrier: O23. -/

namespace Sys2Proof.Machine

open Sys2Proof

set_option Elab.async false

/-! ### Words of a barrier -/

/-- The words of the barriers' arrays. -/
def barrierWords (a : Nat) : Prop := 0xC0000 ≤ a ∧ a < 0xC2000 ∧ a % 4096 < 0x900

/-- A barrier's field. -/
abbrev rdBar (s : State) (b : Nat) (f : Fld) : Nat := rd s (barPage b) f (b % 128)

theorem barrierField_at {f : Fld} (hf : f ∈ barrierFields) : 0x100 ≤ f.off ∧ f.off < 0x108 ∧ f.stride = 16 ∧ f.lo + f.w ≤ 32 := by
  have hall : ∀ f ∈ barrierFields, 0x100 ≤ f.off ∧ f.off < 0x108 ∧ f.stride = 16 ∧ f.lo + f.w ≤ 32 := by decide
  exact hall f hf

section
variable {b : Nat} (hb : b < 256)
include hb

theorem barrierWords_fld {f : Fld} (hf : f ∈ barrierFields) : barrierWords (fldAddr (barPage b) f (b % 128)) := by
  obtain ⟨hlo, hhi, hstride, -⟩ := barrierField_at hf
  rw [fldAddr_eq, hstride]
  unfold barrierWords barPage
  simp only [pageBase]
  omega

theorem rdBar_other (s : State) {f g : Fld} (hf : f ∈ barrierFields) (hg : g ∈ barrierFields) (hne : f ≠ g) (v : Nat) :
    rdBar ((wr (barPage b) f v (b % 128)).run s) b g = rdBar s b g := by
  have hall : ∀ f ∈ barrierFields, ∀ g ∈ barrierFields, f ≠ g → f.off ≠ g.off ∨ f.lo + f.w ≤ g.lo ∨ g.lo + g.w ≤ f.lo := by decide
  refine rd_wr_other _ _ _ _ _ _ _ _ (plain_barrier hb hf) (plain_barrier hb hg) (.inr ?_)
  rw [(barrierField_at hf).2.2.1, (barrierField_at hg).2.2.1]
  have := hall f hf g hg hne
  omega

theorem rdBar_same (s : State) {f : Fld} (hf : f ∈ barrierFields) (v : Nat) : rdBar ((wr (barPage b) f v (b % 128)).run s) b f = v % 2 ^ f.w :=
  rd_wr_same _ _ _ _ _ (plain_barrier hb hf)

theorem rdBar_lt (s : State) {f : Fld} (hf : f ∈ barrierFields) : rdBar s b f < 2 ^ f.w := rd_lt (plain_barrier hb hf)

theorem rdBar_congr {s t : State} (h : ∀ a, barrierWords a → regWord t a = regWord s a) {f : Fld} (hf : f ∈ barrierFields) : rdBar t b f = rdBar s b f :=
  rd_of_regWord (h _ (barrierWords_fld hb hf)) (plain_barrier hb hf)

/-- A program that writes no word of a barrier. -/
theorem Writes.rdBar {A : Nat → Prop} {p : Prog} (h : Writes A p) (hA : ∀ a, barrierWords a → ¬ A a) {f : Fld} (hf : f ∈ barrierFields) (s : State) :
    Machine.rdBar (p.run s) b f = Machine.rdBar s b f := rdBar_congr hb (fun a ha => h a (hA a ha) s) hf

end

theorem not_recordWords_barrier {a : Nat} (h : barrierWords a) : ¬ recordWords a := by
  unfold barrierWords at h
  unfold recordWords
  omega

/-! ### An arrival that is ignored -/

/-- The words that an overrun or stale arrival may write. -/
def staleWords (a : Nat) : Prop := faultWords a ∨ 0x904 ≤ a % 4096

theorem not_staleWords_barrier {a : Nat} (h : barrierWords a) : ¬ staleWords a := by
  unfold barrierWords at h
  unfold staleWords faultWords recordWords
  omega

/-- The first overrun or stale arrival kept on the page. -/
def keptFirst (x : SigRec) (b : Nat) (s : State) : Prog :=
  whenP (rd s (barPage b) Reg.BAR.SEEN == 0) (progs [wr (barPage b) Reg.BAR.SEEN 1, wr (barPage b) Reg.BAR.FIRST_BARRIER b,
    wr (barPage b) Reg.BAR.FIRST_ROUND x.round, wr (barPage b) Reg.BAR.FIRST_SOURCE (sourceWord x.src)])

theorem run_arrivalFault (x : SigRec) (b code : Nat) (s : State) : ∃ items,
    (arrivalFault x b code).run s = (sourceFault x code 852 0 items true).run ((keptFirst x b s).run s) := ⟨_, rfl⟩

theorem only_keptFirst {x : SigRec} {b : Nat} {s : State} : Only [.reg] (keptFirst x b s) :=
  only_whenP ⟨only_wr, only_wr, only_wr, only_wr, trivial⟩

theorem writes_keptFirst (x : SigRec) (b : Nat) (s : State) : Writes staleWords (keptFirst x b s) := by
  have hfirst {f : Fld} (h : 0x904 ≤ f.off + f.stride * 0 ∧ f.off + f.stride * 0 < 4096) : staleWords (fldAddr (barPage b) f 0) := by
    unfold staleWords
    rw [fldAddr_eq, pageBase_add_mod _ _ h.2]
    exact .inr h.1
  exact writes_whenP fun _ => writes_cons (writes_wr (hfirst (by decide))) (writes_cons (writes_wr (hfirst (by decide)))
    (writes_cons (writes_wr (hfirst (by decide))) (writes_cons (writes_wr (hfirst (by decide))) writes_nil)))

theorem only_arrivalFault {x : SigRec} {b code : Nat} : Only (.recs :: failK) (arrivalFault x b code) :=
  only_look fun _ => only_seq (only_keptFirst.mono (by decide)) only_sourceFault

theorem writes_arrivalFault (x : SigRec) (b code : Nat) : Writes staleWords (arrivalFault x b code) :=
  writes_look fun s => writes_seq (writes_keptFirst x b s) (writes_sourceFault.mono fun _ h => .inl h)

theorem keeps_sigQ_arrivalFault {x : SigRec} {b code : Nat} : Keeps (fun s => s.sync.sigQ) (arrivalFault x b code) :=
  keeps_look _ fun _ => keeps_seq _ (fun _ => congrArg SyncSt.sigQ only_keptFirst.sync) keeps_sigQ_sourceFault

theorem hasRecord_arrivalFault (x : SigRec) (b code : Nat) (s : State) : HasRecord ((arrivalFault x b code).run s) 852 code := by
  obtain ⟨items, h⟩ := run_arrivalFault x b code s
  rw [h]
  exact hasRecord_sourceFault _

/-- The state that an arrival ignored leaves. -/
def ignored (x : SigRec) (b code : Nat) (s : State) : State := (finishSignal x code).run ((arrivalFault x b code).run s)

theorem ignored_spec (x : SigRec) {b : Nat} (hb : b < 256) (code : Nat) (s : State) :
    (∀ f ∈ barrierFields, rdBar (ignored x b code s) b f = rdBar s b f) ∧ (ignored x b code s).counts = s.counts ∧
    (ignored x b code s).sync.sigQ = s.sync.sigQ ∧ HasRecord (ignored x b code s) 852 code := by
  unfold ignored
  refine ⟨fun f hf => ?_, ?_, ?_, (hasRecord_arrivalFault x b code s).of_srcQueue (only_finishSignal.srcQueue 852 (by decide) _)⟩
  · rw [(only_finishSignal.writes (A := fun _ => False)).rdBar hb (fun _ _ => id) hf, (writes_arrivalFault x b code).rdBar hb (fun _ h => not_staleWords_barrier h) hf]
  · rw [only_finishSignal.counts, only_arrivalFault.counts]
  · rw [only_finishSignal.sync]
    exact keeps_sigQ_arrivalFault s

/-! ### An arrival counted -/

/-- An arrival count raised is written once, as the sum where it fits. -/
theorem run_addArrivals (b : Nat) (f : Fld) (amount : Nat) (s : State) : ∃ v u, (addArrivals b f amount).run s = (wr (barPage b) f v (b % 128)).run u ∧
    u = { s with freeCount := u.freeCount } ∧ (rdBar s b f + amount < 2 ^ 13 → v = rdBar s b f + amount) := by
  unfold addArrivals
  rw [run_look]
  dsimp only
  by_cases h : rdBar s b f + amount < 2 ^ 13
  · rw [if_pos h]
    exact ⟨_, s, rfl, rfl, fun _ => rfl⟩
  · rw [if_neg h]
    exact ⟨_, _, rfl, rfl, fun c => absurd c h⟩

/-- The state that an arrival counted for a round leaves. -/
def arrived (x : SigRec) (b : Nat) (f : Fld) (s : State) : State := (finishSignal x 0).run ((addArrivals b f x.amount).run s)

theorem arrived_spec (x : SigRec) {b : Nat} (hb : b < 256) {f : Fld} (hf : f = Reg.BAR.BARRIER_W1_CUR ∨ f = Reg.BAR.BARRIER_W1_NEXT) (s : State) :
    (∀ g ∈ barrierFields, g ≠ f → rdBar (arrived x b f s) b g = rdBar s b g) ∧ (arrived x b f s).counts = s.counts ∧ (arrived x b f s).sync = s.sync ∧
    (rdBar s b f + x.amount < 2 ^ 13 → rdBar (arrived x b f s) b f = rdBar s b f + x.amount) := by
  have hmem : f ∈ barrierFields ∧ f.w = 13 := by rcases hf with rfl | rfl <;> decide
  obtain ⟨v, u, hrun, hu, hv⟩ := run_addArrivals b f x.amount s
  have hregs : ∀ a, barrierWords a → regWord u a = regWord s a := fun a _ => by rw [hu]; rfl
  have hend {g : Fld} (hg : g ∈ barrierFields) (w : State) : rdBar ((finishSignal x 0).run w) b g = rdBar w b g :=
    (only_finishSignal.writes (A := fun _ => False)).rdBar hb (fun _ _ => id) hg w
  unfold arrived
  rw [hrun]
  refine ⟨fun g hg hne => ?_, ?_, ?_, fun hfit => ?_⟩
  · rw [hend hg, rdBar_other hb _ hmem.1 hg (Ne.symm hne), rdBar_congr hb hregs hg]
  · rw [only_finishSignal.counts, (only_wr (K := [.reg])).counts, hu]
  · rw [only_finishSignal.sync, (only_wr (K := [.reg])).sync, hu]
  · rw [hend hmem.1, rdBar_same hb _ hmem.1, hv hfit, hmem.2]
    exact Nat.mod_eq_of_lt hfit

/-! ### A round released -/

/-- The round advanced, and the arrivals of the next one taken over. -/
def roundMoved (b : Nat) (s : State) : State :=
  (wr (barPage b) Reg.BAR.BARRIER_W1_NEXT 0 (b % 128)).run ((wr (barPage b) Reg.BAR.BARRIER_W1_CUR (rdBar s b Reg.BAR.BARRIER_W1_NEXT) (b % 128)).run
    ((wr (barPage b) Reg.BAR.BARRIER_W0_ROUND ((rdBar s b Reg.BAR.BARRIER_W0_ROUND + 1) % 65536) (b % 128)).run s))

theorem rd_roundMoved {b : Nat} (hb : b < 256) (s : State) :
    rdBar (roundMoved b s) b Reg.BAR.BARRIER_W0_ROUND = (rdBar s b Reg.BAR.BARRIER_W0_ROUND + 1) % 65536 ∧
    rdBar (roundMoved b s) b Reg.BAR.BARRIER_W1_CUR = rdBar s b Reg.BAR.BARRIER_W1_NEXT ∧ rdBar (roundMoved b s) b Reg.BAR.BARRIER_W1_NEXT = 0 ∧
    rdBar (roundMoved b s) b Reg.BAR.BARRIER_W0_PARTICIPANTS = rdBar s b Reg.BAR.BARRIER_W0_PARTICIPANTS := by
  unfold roundMoved
  refine ⟨?_, ?_, rdBar_same hb _ (by decide) 0, ?_⟩
  · rw [rdBar_other hb _ (by decide) (by decide) (by decide), rdBar_other hb _ (by decide) (by decide) (by decide), rdBar_same hb _ (by decide)]
    exact Nat.mod_mod _ _
  · rw [rdBar_other hb _ (by decide) (by decide) (by decide), rdBar_same hb _ (by decide)]
    exact Nat.mod_eq_of_lt (rdBar_lt hb s (f := Reg.BAR.BARRIER_W1_NEXT) (by decide))
  · rw [rdBar_other hb _ (by decide) (by decide) (by decide), rdBar_other hb _ (by decide) (by decide) (by decide),
      rdBar_other hb _ (by decide) (by decide) (by decide)]

theorem roundMoved_kept (b : Nat) (s : State) : (roundMoved b s).counts = s.counts ∧ (roundMoved b s).sync = s.sync := by
  unfold roundMoved
  constructor
  · rw [(only_wr (K := [.reg])).counts, (only_wr (K := [.reg])).counts, (only_wr (K := [.reg])).counts]
  · rw [(only_wr (K := [.reg])).sync, (only_wr (K := [.reg])).sync, (only_wr (K := [.reg])).sync]

/-- The words that the rest of a release may write. -/
def releaseWords (a : Nat) : Prop := recordWords a ∨ a ∈ fabricWords

theorem not_releaseWords_barrier {a : Nat} (h : barrierWords a) : ¬ releaseWords a := by
  have hfab : ∀ a ∈ fabricWords, 0xC2000 ≤ a := by decide
  rintro (h' | h')
  · exact not_recordWords_barrier h h'
  · have := hfab a h'
    unfold barrierWords at h
    omega

theorem only_sendMsg {m : Msg} : Only fabricK (sendMsg m) := only_look fun _ => only_routeMsg _ _

theorem writes_sendMsg (m : Msg) : Writes (· ∈ fabricWords) (sendMsg m) := writes_look fun _ => writes_routeMsg_fabric _ _

/-- The record of an entry of a release list that was skipped. -/
def skippedRecord (b : Nat) : Option Nat → Prog
  | none => .skip
  | some i => raise Code.BARRIER_LIST 852 0 noLeg 0 [w32 b, w32 i]

theorem only_skippedRecord {b : Nat} {o : Option Nat} : Only [.reg, .recs] (skippedRecord b o) := by
  cases o
  · exact only_skip
  · exact only_raise (by decide) (by decide)

theorem writes_skippedRecord (b : Nat) (o : Option Nat) : Writes recordWords (skippedRecord b o) := by
  cases o
  · exact writes_skip
  · exact writes_raise _ _ _ _ _ _

/-- A release: the round moved, the counters that name the barrier raised, and then records and messages. -/
theorem run_releaseOnce (b : Nat) (s : State) : ∃ q, Only (.recs :: fabricK) q ∧ Writes releaseWords q ∧
    (releaseOnce b).run s = q.run ((forEach (arrivalCounters s b) fun i => addCount i 1).run (roundMoved b s)) := by
  unfold releaseOnce
  rw [run_look]
  dsimp only
  generalize releaseNodes s b = z
  obtain ⟨nodes, skipped⟩ := z
  refine ⟨progs [skippedRecord b skipped, forEach nodes fun n => sendMsg (signalMsg n (rd s (barPage b) Reg.BAR.BARRIER_W2_RELEASE_INDEX (b % 128))
    (rdBar s b Reg.BAR.BARRIER_W0_ROUND) 1 852 0)], ?_, ?_, ?_⟩
  · exact ⟨only_skippedRecord.mono (by decide), only_forEach fun _ => only_sendMsg.mono (by decide), trivial⟩
  · exact writes_cons ((writes_skippedRecord b skipped).mono fun _ h => .inl h)
      (writes_cons (writes_forEach fun _ _ => (writes_sendMsg _).mono fun _ h => .inr h) writes_nil)
  · dsimp only
    rw [run_progs_cons, run_progs_cons, run_progs_cons, run_progs_cons]
    unfold roundMoved skippedRecord
    cases skipped <;> rfl

/-- Counters raised by 1 each. -/
def raisedAll (l : List Nat) : Prog := forEach l fun i => addCount i 1

theorem countOf_raisedAll_out {l : List Nat} {k : Nat} (h : k ∉ l) (s : State) : countOf ((raisedAll l).run s) k = countOf s k :=
  keeps_forEach (fun t => countOf t k) l _ (fun i hi t => by
    show countOf _ k = countOf t k
    rw [countOf_addCount, if_neg]
    rintro rfl
    exact h hi) s

theorem countOf_raisedAll_in {l : List Nat} (hn : l.Nodup) {k : Nat} (h : k ∈ l) (s : State) :
    countOf ((raisedAll l).run s) k = min countMax (countOf s k + 1) := by
  obtain ⟨x, y, hx, hy, hrun⟩ := run_forEach_split hn h (fun i => addCount i 1) s
  have hout {z : List Nat} (hz : ∀ i ∈ z, i ∈ l ∧ i ≠ k) (t : State) : countOf ((forEach z fun i => addCount i 1).run t) k = countOf t k :=
    countOf_raisedAll_out (fun c => (hz k c).2 rfl) t
  unfold raisedAll
  rw [hrun, hout hy, countOf_addCount, if_pos rfl, hout hx]

theorem sigQ_raisedAll (l : List Nat) (s : State) : ((raisedAll l).run s).sync.sigQ = s.sync.sigQ :=
  keeps_forEach (fun t => t.sync.sigQ) l _ (fun i _ t => sigQ_addCount i 1 t) s

theorem rdBar_raisedAll (l : List Nat) {b : Nat} (hb : b < 256) {f : Fld} (hf : f ∈ barrierFields) (s : State) : rdBar ((raisedAll l).run s) b f = rdBar s b f :=
  rdBar_congr hb (fun a ha => keeps_forEach (fun t => regWord t a) l _ (fun i _ t => regWord_addCount i 1 t (not_recordWords_barrier ha)) s) hf

/-- What one release leaves. -/
theorem releaseOnce_spec {b : Nat} (hb : b < 256) (s : State) : let t := (releaseOnce b).run s
    rdBar t b Reg.BAR.BARRIER_W0_ROUND = (rdBar s b Reg.BAR.BARRIER_W0_ROUND + 1) % 65536 ∧
    rdBar t b Reg.BAR.BARRIER_W1_CUR = rdBar s b Reg.BAR.BARRIER_W1_NEXT ∧ rdBar t b Reg.BAR.BARRIER_W1_NEXT = 0 ∧
    rdBar t b Reg.BAR.BARRIER_W0_PARTICIPANTS = rdBar s b Reg.BAR.BARRIER_W0_PARTICIPANTS ∧
    (∀ i, i ∉ arrivalCounters s b → countOf t i = countOf s i) ∧
    ((arrivalCounters s b).Nodup → ∀ i ∈ arrivalCounters s b, countOf t i = min countMax (countOf s i + 1)) ∧ t.sync.sigQ = s.sync.sigQ := by
  obtain ⟨q, hq, hqw, hrun⟩ := run_releaseOnce b s
  obtain ⟨hround, hcur, hnext, hpart⟩ := rd_roundMoved hb s
  obtain ⟨hcounts, hsync⟩ := roundMoved_kept b s
  have hrun : (releaseOnce b).run s = q.run ((raisedAll (arrivalCounters s b)).run (roundMoved b s)) := hrun
  have hbar {f : Fld} (hf : f ∈ barrierFields) : rdBar ((releaseOnce b).run s) b f = rdBar (roundMoved b s) b f := by
    rw [hrun, hqw.rdBar hb (fun _ h => not_releaseWords_barrier h) hf, rdBar_raisedAll _ hb hf]
  have hcount (i : Nat) : countOf ((releaseOnce b).run s) i = countOf ((raisedAll (arrivalCounters s b)).run (roundMoved b s)) i := by
    unfold countOf
    rw [hrun, hq.counts]
  have hstart (i : Nat) : countOf (roundMoved b s) i = countOf s i := congrArg (fun m => smGet zeroDefault m i) hcounts
  refine ⟨(hbar (by decide)).trans hround, (hbar (by decide)).trans hcur, (hbar (by decide)).trans hnext, (hbar (by decide)).trans hpart,
    fun i hi => ?_, fun hn i hi => ?_, ?_⟩
  · rw [hcount, countOf_raisedAll_out hi, hstart]
  · rw [hcount, countOf_raisedAll_in hn hi, hstart]
  · rw [hrun, hq.sync, sigQ_raisedAll, hsync]

/-- After a release whose arrivals do not fill the next round, there is no other. -/
theorem run_releaseLoop_done {b : Nat} {s : State} (h : rdBar s b Reg.BAR.BARRIER_W1_CUR < rdBar s b Reg.BAR.BARRIER_W0_PARTICIPANTS) (n : Nat) :
    (releaseLoop b n).run s = s := by
  cases n with
  | zero => rfl
  | succ n =>
    unfold releaseLoop
    rw [run_look, run_whenP, if_neg]
    simp only [Bool.and_eq_true, decide_eq_true_eq, not_and]
    exact fun _ => Nat.not_le.mpr h

/-! ### The cases of an arrival -/

/-- How far an arrival's round is ahead of a barrier's. -/
def roundsAhead (s : State) (x : SigRec) (b : Nat) : Nat := (x.round + 65536 - rdBar s b Reg.BAR.BARRIER_W0_ROUND) % 65536

section
variable {s : State} {x : SigRec}

theorem run_applySignal_arrival (h : counterMode s x.counter = 2) : (applySignal x).run s = (signalArrival x).run s := by
  unfold applySignal
  rw [run_look, if_neg (by rw [h]; decide), if_pos h]

theorem run_signalArrival_ignored (h : rdBar s (counterIndex s x.counter) Reg.BAR.BARRIER_W0_PARTICIPANTS = 0 ∨ 2 ≤ roundsAhead s x (counterIndex s x.counter)) :
    (signalArrival x).run s = ignored x (counterIndex s x.counter)
      (if rdBar s (counterIndex s x.counter) Reg.BAR.BARRIER_W0_PARTICIPANTS ≠ 0 ∧ roundsAhead s x (counterIndex s x.counter) < 32768
        then Code.BARRIER_OVERRUN else Code.BARRIER_STALE) s := by
  unfold signalArrival
  rw [run_look]
  dsimp only
  by_cases hn : rdBar s (counterIndex s x.counter) Reg.BAR.BARRIER_W0_PARTICIPANTS = 0
  · rw [if_pos hn, if_neg fun c => c.1 hn]
    rfl
  · have hd : 2 ≤ roundsAhead s x (counterIndex s x.counter) := h.resolve_left hn
    have hd0 : ¬ roundsAhead s x (counterIndex s x.counter) = 0 := by omega
    have hd1 : ¬ roundsAhead s x (counterIndex s x.counter) = 1 := by omega
    unfold roundsAhead at hd0 hd1 ⊢
    rw [if_neg hn, if_neg hd0, if_neg hd1]
    by_cases hnear : (x.round + 65536 - rdBar s (counterIndex s x.counter) Reg.BAR.BARRIER_W0_ROUND) % 65536 < 32768
    · rw [if_pos hnear, if_pos ⟨hn, hnear⟩]
      rfl
    · rw [if_neg hnear, if_neg fun c => hnear c.2]
      rfl

theorem run_signalArrival_next (hn : rdBar s (counterIndex s x.counter) Reg.BAR.BARRIER_W0_PARTICIPANTS ≠ 0) (hd : roundsAhead s x (counterIndex s x.counter) = 1) :
    (signalArrival x).run s = arrived x (counterIndex s x.counter) Reg.BAR.BARRIER_W1_NEXT s := by
  unfold roundsAhead at hd
  unfold signalArrival
  rw [run_look]
  dsimp only
  rw [if_neg hn, if_neg (by rw [hd]; exact Nat.one_ne_zero), if_pos hd]
  rfl

theorem run_signalArrival_short (hn : rdBar s (counterIndex s x.counter) Reg.BAR.BARRIER_W0_PARTICIPANTS ≠ 0) (hd : roundsAhead s x (counterIndex s x.counter) = 0)
    (h : rdBar s (counterIndex s x.counter) Reg.BAR.BARRIER_W1_CUR + x.amount < rdBar s (counterIndex s x.counter) Reg.BAR.BARRIER_W0_PARTICIPANTS) :
    (signalArrival x).run s = arrived x (counterIndex s x.counter) Reg.BAR.BARRIER_W1_CUR s := by
  unfold roundsAhead at hd
  unfold signalArrival
  rw [run_look]
  dsimp only
  rw [if_neg hn, if_pos hd, if_neg (Nat.not_le.mpr h)]
  rfl

theorem run_signalArrival_full (hn : rdBar s (counterIndex s x.counter) Reg.BAR.BARRIER_W0_PARTICIPANTS ≠ 0) (hd : roundsAhead s x (counterIndex s x.counter) = 0)
    (h : rdBar s (counterIndex s x.counter) Reg.BAR.BARRIER_W0_PARTICIPANTS ≤ rdBar s (counterIndex s x.counter) Reg.BAR.BARRIER_W1_CUR + x.amount) :
    (signalArrival x).run s = (finishSignal x 0).run ((releaseLoop (counterIndex s x.counter) 2).run ((releaseOnce (counterIndex s x.counter)).run s)) := by
  unfold roundsAhead at hd
  unfold signalArrival
  rw [run_look]
  dsimp only
  rw [if_neg hn, if_pos hd, if_pos h]
  rfl

end

end Sys2Proof.Machine
end

section
/-! Arrivals counted, released and ignored (R265, R266, R268): O18; the set-up of barriers: O23. -/

namespace Sys2Proof.Machine

open Sys2Proof

set_option Elab.async false

/-! ### What every arrival keeps -/

/-- What a release leaves of a barrier's participants and of the SIGNALs on their way. -/
theorem keeps_releaseLoop {b : Nat} (hb : b < 256) : ∀ n, Keeps (fun s => (rdBar s b Reg.BAR.BARRIER_W0_PARTICIPANTS, s.sync.sigQ)) (releaseLoop b n)
  | 0 => keeps_skip _
  | n + 1 => keeps_look _ fun _ => keeps_whenP _ _ (keeps_seq _ (fun s => by
      obtain ⟨-, -, -, hpart, -, -, hq⟩ := releaseOnce_spec hb s
      exact Prod.ext hpart hq) (keeps_releaseLoop hb n))

theorem rdBar_dequeued (s : State) (r : List SigRec) {b : Nat} (hb : b < 256) {f : Fld} (hf : f ∈ barrierFields) : rdBar (dequeued s r) b f = rdBar s b f :=
  rd_congr rfl _ _ _ (plain_barrier hb hf)

theorem roundsAhead_dequeued (s : State) (r : List SigRec) (x : SigRec) {b : Nat} (hb : b < 256) : roundsAhead (dequeued s r) x b = roundsAhead s x b := by
  unfold roundsAhead
  rw [rdBar_dequeued s r hb (by decide)]

theorem exec_signalApply_arrival {s : State} {x : SigRec} {r : List SigRec} (hq : s.sync.sigQ = x :: r) (hmode : counterMode s x.counter = 2) :
    exec (.signalApply []) s = .next ((signalArrival x).run (dequeued s r)) := by
  rw [exec_signalApply hq, run_applySignal_arrival ((counterMode_dequeued s r _).trans hmode)]

section
variable {s : State} {x : SigRec} {b : Nat} (hindex : counterIndex s x.counter = b) (hb : b < 256)
include hindex hb

/-- An arrival never changes the participants of its barrier, nor the SIGNALs behind it. -/
theorem signalArrival_keeps : rdBar ((signalArrival x).run s) b Reg.BAR.BARRIER_W0_PARTICIPANTS = rdBar s b Reg.BAR.BARRIER_W0_PARTICIPANTS ∧
    ((signalArrival x).run s).sync.sigQ = s.sync.sigQ := by
  by_cases hign : rdBar s b Reg.BAR.BARRIER_W0_PARTICIPANTS = 0 ∨ 2 ≤ roundsAhead s x b
  · rw [run_signalArrival_ignored (hindex ▸ hign), hindex]
    obtain ⟨hf, -, hq, -⟩ := ignored_spec x hb (if rdBar s b Reg.BAR.BARRIER_W0_PARTICIPANTS ≠ 0 ∧ roundsAhead s x b < 32768
      then Code.BARRIER_OVERRUN else Code.BARRIER_STALE) s
    exact ⟨hf _ (by decide), hq⟩
  obtain ⟨hn, hd⟩ := not_or.mp hign
  have hcounted {f : Fld} (hf : f = Reg.BAR.BARRIER_W1_CUR ∨ f = Reg.BAR.BARRIER_W1_NEXT) :
      rdBar (arrived x b f s) b Reg.BAR.BARRIER_W0_PARTICIPANTS = rdBar s b Reg.BAR.BARRIER_W0_PARTICIPANTS ∧ (arrived x b f s).sync.sigQ = s.sync.sigQ := by
    obtain ⟨hg, -, hsync, -⟩ := arrived_spec x hb hf s
    exact ⟨hg _ (by decide) (by rcases hf with rfl | rfl <;> decide), congrArg SyncSt.sigQ hsync⟩
  obtain hd1 | hd0 : roundsAhead s x b = 1 ∨ roundsAhead s x b = 0 := by omega
  · rw [run_signalArrival_next (hindex ▸ hn) (hindex ▸ hd1), hindex]
    exact hcounted (.inr rfl)
  · by_cases hfull : rdBar s b Reg.BAR.BARRIER_W0_PARTICIPANTS ≤ rdBar s b Reg.BAR.BARRIER_W1_CUR + x.amount
    · rw [run_signalArrival_full (hindex ▸ hn) (hindex ▸ hd0) (hindex ▸ hfull), hindex]
      obtain ⟨-, -, -, hpart, -, -, hq⟩ := releaseOnce_spec hb s
      obtain ⟨hlp, hlq⟩ := Prod.mk.inj (keeps_releaseLoop hb 2 ((releaseOnce b).run s))
      rw [(only_finishSignal.writes (A := fun _ => False)).rdBar hb (fun _ _ => id) (by decide), only_finishSignal.sync]
      exact ⟨hlp.trans hpart, hlq.trans hq⟩
    · rw [run_signalArrival_short (hindex ▸ hn) (hindex ▸ hd0) (hindex ▸ Nat.not_le.mp hfull), hindex]
      exact hcounted (.inl rfl)

/-- An arrival that fills its round releases it once, where the next is not filled. -/
theorem signalArrival_releases (hn : rdBar s b Reg.BAR.BARRIER_W0_PARTICIPANTS ≠ 0) (hd : roundsAhead s x b = 0)
    (hfull : rdBar s b Reg.BAR.BARRIER_W0_PARTICIPANTS ≤ rdBar s b Reg.BAR.BARRIER_W1_CUR + x.amount)
    (hnext : rdBar s b Reg.BAR.BARRIER_W1_NEXT < rdBar s b Reg.BAR.BARRIER_W0_PARTICIPANTS) :
    (signalArrival x).run s = (finishSignal x 0).run ((releaseOnce b).run s) := by
  obtain ⟨-, hcur, -, hpart, -⟩ := releaseOnce_spec hb s
  rw [run_signalArrival_full (hindex ▸ hn) (hindex ▸ hd) (hindex ▸ hfull), hindex, run_releaseLoop_done (by rw [hcur, hpart]; exact hnext)]

end

/-- Settles O18: an arrival counted, released or ignored by its distance from the barrier's round. -/
theorem arrivalCounted : Obligations.ArrivalCounted := by
  unfold Obligations.ArrivalCounted
  intro s x r hq hmode b pg j n cur next round d
  have hb : b < 256 := counterIndex_lt s x.counter
  have hindex : counterIndex (dequeued s r) x.counter = b := counterIndex_dequeued s r _
  have hbar {f : Fld} (hf : f ∈ barrierFields) : rdBar (dequeued s r) b f = rdBar s b f := rdBar_dequeued s r hb hf
  have hdist : roundsAhead (dequeued s r) x b = d := roundsAhead_dequeued s r x hb
  have hpar : rdBar (dequeued s r) b Reg.BAR.BARRIER_W0_PARTICIPANTS = n := hbar (by decide)
  have hcur : rdBar (dequeued s r) b Reg.BAR.BARRIER_W1_CUR = cur := hbar (by decide)
  have hnxt : rdBar (dequeued s r) b Reg.BAR.BARRIER_W1_NEXT = next := hbar (by decide)
  have hrnd : rdBar (dequeued s r) b Reg.BAR.BARRIER_W0_ROUND = round := hbar (by decide)
  obtain ⟨hpart, hsig⟩ := signalArrival_keeps (x := x) hindex hb
  refine ⟨_, exec_signalApply_arrival hq hmode, hsig, hpart.trans hpar, fun hn hd hshort => ?_, fun hn hd hfull hnext => ?_, fun hn hd => ?_, fun hign => ?_⟩
  · obtain ⟨hg, hcounts, -, hsum⟩ := arrived_spec x hb (.inl rfl) (dequeued s r)
    have hlt : n < 2 ^ 13 := rdBar_lt hb s (f := Reg.BAR.BARRIER_W0_PARTICIPANTS) (by decide)
    rw [hcur] at hsum
    rw [run_signalArrival_short (by rw [hindex, hpar]; exact hn) (by rw [hindex, hdist]; exact hd) (by rw [hindex, hcur, hpar]; exact hshort), hindex]
    exact ⟨hsum (hshort.trans hlt), (hg _ (by decide) (by decide)).trans hnxt, (hg _ (by decide) (by decide)).trans hrnd, hcounts⟩
  · obtain ⟨hround, hc, hz, -, hout, hin, -⟩ := releaseOnce_spec hb (dequeued s r)
    have hend {f : Fld} (hf : f ∈ barrierFields) (u : State) : rdBar ((finishSignal x 0).run u) b f = rdBar u b f :=
      (only_finishSignal.writes (A := fun _ => False)).rdBar hb (fun _ _ => id) hf u
    have hcount (i : Nat) (u : State) : countOf ((finishSignal x 0).run u) i = countOf u i := by
      unfold countOf
      rw [only_finishSignal.counts]
    rw [signalArrival_releases hindex hb (by rw [hpar]; exact hn) (by rw [hdist]; exact hd) (by rw [hcur, hpar]; exact hfull) (by rw [hnxt, hpar]; exact hnext)]
    refine ⟨(hend (by decide) _).trans (hround.trans (by rw [hrnd])), (hend (by decide) _).trans (hc.trans hnxt), (hend (by decide) _).trans hz,
      fun i hi => (hcount i _).trans (hout i hi), fun hnd i hi => (hcount i _).trans (hin hnd i hi)⟩
  · obtain ⟨hg, hcounts, -, hsum⟩ := arrived_spec x hb (.inr rfl) (dequeued s r)
    rw [hnxt] at hsum
    rw [run_signalArrival_next (by rw [hindex, hpar]; exact hn) (by rw [hindex, hdist]; exact hd), hindex]
    exact ⟨(hg _ (by decide) (by decide)).trans hcur, (hg _ (by decide) (by decide)).trans hrnd, hcounts, hsum⟩
  · rw [run_signalArrival_ignored (by rw [hindex, hpar, hdist]; exact hign), hindex, hpar, hdist]
    obtain ⟨hf, hcounts, -, hrec⟩ := ignored_spec x hb (if n ≠ 0 ∧ d < 32768 then Code.BARRIER_OVERRUN else Code.BARRIER_STALE) (dequeued s r)
    exact ⟨(hf _ (by decide)).trans hcur, (hf _ (by decide)).trans hnxt, (hf _ (by decide)).trans hrnd, hcounts, hrec⟩

/-! ### The set-up of a barrier -/

theorem run_opParticipants (b v : Nat) (s : State) : (opParticipants b v).run s =
    if rdBar s b Reg.BAR.BARRIER_W1_CUR = 0 ∧ rdBar s b Reg.BAR.BARRIER_W1_NEXT = 0 then (wr (barPage b) Reg.BAR.BARRIER_W0_PARTICIPANTS v (b % 128)).run s
    else (wr (barPage b) Reg.BAR.BARRIER_W1_CFG_REFUSED 1 (b % 128)).run s := by
  unfold opParticipants
  rw [run_look, run_ite]

theorem participantsWrite_spec (s : State) (id : Ident) (v : Word) (b : Fin 256)
    (h : LetIn s id (fldAddr (barPage b) Reg.BAR.BARRIER_W0_PARTICIPANTS (b % 128)) false) :
    let free := rdBar s b Reg.BAR.BARRIER_W1_CUR = 0 ∧ rdBar s b Reg.BAR.BARRIER_W1_NEXT = 0
    (free → ∃ t, exec (.participantsWrite id b v) s = .next t ∧ rdBar t b Reg.BAR.BARRIER_W0_PARTICIPANTS = v.toNat % 2 ^ 13 ∧
      rdBar t b Reg.BAR.BARRIER_W0_ROUND = rdBar s b Reg.BAR.BARRIER_W0_ROUND ∧
      OnlyRegs s t [fldAddr (barPage b) Reg.BAR.BARRIER_W0_PARTICIPANTS (b % 128)]) ∧
    (¬ free → ∃ t, exec (.participantsWrite id b v) s = .next t ∧ rdBar t b Reg.BAR.BARRIER_W1_CFG_REFUSED = 1 ∧
      rdBar t b Reg.BAR.BARRIER_W1_CUR = rdBar s b Reg.BAR.BARRIER_W1_CUR ∧ OnlyRegs s t [fldAddr (barPage b) Reg.BAR.BARRIER_W1_CFG_REFUSED (b % 128)]) := by
  intro free
  have hexec : exec (.participantsWrite id b v) s = .next ((opParticipants b v.toNat).run s) := done_access _ h
  rw [hexec, run_opParticipants]
  refine ⟨fun hfree => ?_, fun hbusy => ?_⟩
  · rw [if_pos hfree]
    exact ⟨_, rfl, rdBar_same b.isLt _ (by decide) _, rdBar_other b.isLt _ (by decide) (by decide) (by decide) _,
      onlyRegs_wr _ _ _ _ _ (List.mem_singleton.mpr rfl)⟩
  · rw [if_neg hbusy]
    exact ⟨_, rfl, rdBar_same b.isLt _ (by decide) 1, rdBar_other b.isLt _ (by decide) (by decide) (by decide) _,
      onlyRegs_wr _ _ _ _ _ (List.mem_singleton.mpr rfl)⟩

theorem barrierReset_spec (s : State) (id : Ident) (v : Word) (h : LetIn s id (fldAddr (.bar 0) Reg.BAR.RESET 0) false) : let b := v.toNat % 256
    ∃ t, exec (.barrierReset id v) s = .next t ∧ rdBar t b Reg.BAR.BARRIER_W0_ROUND = 0 ∧ rdBar t b Reg.BAR.BARRIER_W1_CUR = 0 ∧
      rdBar t b Reg.BAR.BARRIER_W1_NEXT = 0 ∧ rdBar t b Reg.BAR.BARRIER_W0_PARTICIPANTS = rdBar s b Reg.BAR.BARRIER_W0_PARTICIPANTS ∧
      OnlyRegs s t [fldAddr (barPage b) Reg.BAR.BARRIER_W0_ROUND (b % 128), fldAddr (barPage b) Reg.BAR.BARRIER_W1_CUR (b % 128)] := by
  intro b
  have hb : b < 256 := Nat.mod_lt _ (by decide)
  have hexec : exec (.barrierReset id v) s = .next ((opBarrierReset v.toNat).run s) := done_access _ h
  refine ⟨_, hexec, ?_⟩
  unfold opBarrierReset
  rw [run_progs_cons, run_progs_cons, run_progs_cons, run_progs_nil]
  refine ⟨?_, ?_, rdBar_same hb _ (by decide) 0, ?_, ?_⟩
  · rw [rdBar_other hb _ (by decide) (by decide) (by decide), rdBar_other hb _ (by decide) (by decide) (by decide), rdBar_same hb _ (by decide)]
    rfl
  · rw [rdBar_other hb _ (by decide) (by decide) (by decide), rdBar_same hb _ (by decide)]
    rfl
  · rw [rdBar_other hb _ (by decide) (by decide) (by decide), rdBar_other hb _ (by decide) (by decide) (by decide),
      rdBar_other hb _ (by decide) (by decide) (by decide)]
  · exact onlyRegs_trans (onlyRegs_trans (onlyRegs_wr _ _ _ _ _ List.mem_cons_self) (onlyRegs_wr _ _ _ _ _ (List.mem_cons_of_mem _ List.mem_cons_self)))
      (onlyRegs_wr _ _ _ _ _ (List.mem_cons_of_mem _ List.mem_cons_self))

/-- Settles O23: the writes by their laws, and an arrival without participants as one that is ignored. -/
theorem barrierSetUp : Obligations.BarrierSetUp := by
  unfold Obligations.BarrierSetUp
  refine fun s id v => ⟨participantsWrite_spec s id v, barrierReset_spec s id v, fun x r hq hmode => ?_⟩
  intro b hn
  have hb : b < 256 := counterIndex_lt s x.counter
  have hindex : counterIndex (dequeued s r) x.counter = b := counterIndex_dequeued s r _
  have hpar : rdBar (dequeued s r) b Reg.BAR.BARRIER_W0_PARTICIPANTS = 0 := (rdBar_dequeued s r hb (by decide)).trans hn
  refine ⟨_, exec_signalApply_arrival hq hmode, ?_⟩
  rw [run_signalArrival_ignored (.inl (by rw [hindex, hpar])), hindex, if_neg fun c => c.1 hpar]
  obtain ⟨hf, hcounts, -, hrec⟩ := ignored_spec x hb Code.BARRIER_STALE (dequeued s r)
  refine ⟨hcounts, hrec, fun f hmem => ?_⟩
  have hall : ∀ f ∈ [Reg.BAR.BARRIER_W0_ROUND, Reg.BAR.BARRIER_W1_CUR, Reg.BAR.BARRIER_W1_NEXT], f ∈ barrierFields := by decide
  exact (hf f (hall f hmem)).trans (rdBar_dequeued s r hb (hall f hmem))

end Sys2Proof.Machine
end

section
/-! SIGNALs to PROXY counters (R254): O19. -/

namespace Sys2Proof.Machine

open Sys2Proof

set_option Elab.async false

theorem remoteSource_false {x : Source} (h : ∀ n, x ≠ .remote n) : remoteSource x = false := by
  cases x with
  | remote n => exact absurd rfl (h n)
  | sigGo id => rfl
  | die i q => rfl

theorem run_applySignal_proxy {x : SigRec} {s : State} (h : counterMode s x.counter = 1) (hown : ∀ n, x.src ≠ .remote n) :
    (applySignal x).run s = (signalProxy x).run s := by
  unfold applySignal
  rw [run_look, if_pos h, remoteSource_false hown, if_neg Bool.false_ne_true]

/-- What a SIGNAL counted at a PROXY counter does beside. -/
def forwarded (x : SigRec) (u : State) : State :=
  let e := counterIndex u x.counter
  let node := rd u (.syn 18) Reg.SYN18.PROXY_NODE e
  let c := rd u (.syn 18) Reg.SYN18.PROXY_COUNTER e
  if rd u (.syn 18) Reg.SYN18.PROXY_VALID e = 0 then (raise Code.SYNC_PROXY 852 0 noLeg 0 [w32 x.counter]).run ((finishSignal x 0).run u)
  else if node = ownNode u then (modSync fun y => { y with sigQ := { x with counter := c } :: y.sigQ }).run u
  else (sendMsg (signalMsg node c x.round x.amount (sourceIsland x.src).1 (sourceIsland x.src).2)).run ((finishSignal x 0).run u)

theorem run_signalProxy (x : SigRec) (s : State) : (signalProxy x).run s = forwarded x ((addCount x.counter x.amount).run s) := by
  unfold signalProxy forwarded
  rw [run_seq, run_look]
  dsimp only
  rw [run_ite, run_ite, run_seq, run_seq]

theorem counts_forwarded (x : SigRec) (u : State) : (forwarded x u).counts = u.counts := by
  unfold forwarded
  dsimp only
  split
  · rw [(only_raise (K := [.reg, .recs]) (by decide) (by decide)).counts, only_finishSignal.counts]
  · split
    · exact (only_modSync (K := [.sync])).counts
    · rw [only_sendMsg.counts, only_finishSignal.counts]

section
variable {x : SigRec} {u : State}

theorem forwarded_invalid (h : rd u (.syn 18) Reg.SYN18.PROXY_VALID (counterIndex u x.counter) = 0) :
    HasRecord (forwarded x u) 852 Code.SYNC_PROXY ∧ (forwarded x u).bnd = u.bnd ∧ (forwarded x u).sync = u.sync := by
  have hraise : Only [.reg, .recs] (raise Code.SYNC_PROXY 852 0 noLeg 0 [w32 x.counter]) := only_raise (by decide) (by decide)
  unfold forwarded
  dsimp only
  rw [if_pos h]
  exact ⟨hasRecord_raise _ _ _ _ _ _ _, hraise.bnd.trans only_finishSignal.bnd, hraise.sync.trans only_finishSignal.sync⟩

theorem forwarded_here (hv : rd u (.syn 18) Reg.SYN18.PROXY_VALID (counterIndex u x.counter) ≠ 0)
    (hn : rd u (.syn 18) Reg.SYN18.PROXY_NODE (counterIndex u x.counter) = ownNode u) : (forwarded x u).bnd = u.bnd ∧
    (forwarded x u).sync.sigQ = { x with counter := rd u (.syn 18) Reg.SYN18.PROXY_COUNTER (counterIndex u x.counter) } :: u.sync.sigQ := by
  unfold forwarded
  dsimp only
  rw [if_neg hv, if_pos hn]
  exact ⟨(only_modSync (K := [.sync])).bnd, rfl⟩

theorem forwarded_there (hv : rd u (.syn 18) Reg.SYN18.PROXY_VALID (counterIndex u x.counter) ≠ 0)
    (hn : rd u (.syn 18) Reg.SYN18.PROXY_NODE (counterIndex u x.counter) ≠ ownNode u) : (forwarded x u).sync = u.sync ∧
    ∃ v, v.regs = u.regs ∧ v.bnd = u.bnd ∧ (forwarded x u).bnd = ((sendMsg (signalMsg (rd u (.syn 18) Reg.SYN18.PROXY_NODE (counterIndex u x.counter))
      (rd u (.syn 18) Reg.SYN18.PROXY_COUNTER (counterIndex u x.counter)) x.round x.amount (sourceIsland x.src).1 (sourceIsland x.src).2)).run v).bnd := by
  unfold forwarded
  dsimp only
  rw [if_neg hv, if_neg hn]
  exact ⟨only_sendMsg.sync.trans only_finishSignal.sync, _, only_finishSignal.regs, only_finishSignal.bnd, rfl⟩

end

/-- Settles O19: the SIGNAL is counted, and then recorded, applied next or sent by its proxy entry. -/
theorem proxyForwards : Obligations.ProxyForwards := by
  unfold Obligations.ProxyForwards
  intro s x r hq hmode hown hfit e node c
  have hmax : countOf (dequeued s r) x.counter + x.amount ≤ countMax := Nat.le_sub_one_of_lt hfit
  have hexec : exec (.signalApply []) s = .next (forwarded x ((addCount x.counter x.amount).run (dequeued s r))) := by
    rw [exec_signalApply hq, run_applySignal_proxy ((counterMode_dequeued s r _).trans hmode) hown, run_signalProxy]
  have hregs : ((addCount x.counter x.amount).run (dequeued s r)).regs = s.regs := (regs_recs_addCount _ _ _ hmax).1
  have hsig : ((addCount x.counter x.amount).run (dequeued s r)).sync.sigQ = r := sigQ_addCount _ _ _
  have hbnd : ((addCount x.counter x.amount).run (dequeued s r)).bnd = s.bnd := by
    rw [signalFrame_addCount x.counter x.amount (dequeued s r)]
    rfl
  have hcount (i : Nat) : countOf ((addCount x.counter x.amount).run (dequeued s r)) i =
      if i = x.counter then min countMax (countOf s x.counter + x.amount) else countOf s i := countOf_addCount _ _ _ i
  refine ⟨_, hexec, ?_⟩
  generalize (addCount x.counter x.amount).run (dequeued s r) = u at *
  have hfor (i : Nat) : countOf (forwarded x u) i = countOf u i := congrArg (fun m => smGet zeroDefault m i) (counts_forwarded x u)
  have hindex : counterIndex u x.counter = e := (counterCfg_congr (by unfold regWord; rw [hregs])).2
  have hentry {f : Fld} (hf : f ∈ proxyFields) : rd u (.syn 18) f e = rd s (.syn 18) f e :=
    rd_congr hregs _ _ _ (plain_proxy (counterIndex_lt s x.counter) hf)
  have hnode : ownNode u = ownNode s := rdRaw_congr hregs _ _ _
  have hvalid : rd u (.syn 18) Reg.SYN18.PROXY_VALID (counterIndex u x.counter) = rd s (.syn 18) Reg.SYN18.PROXY_VALID e := by
    rw [hindex, hentry (by decide)]
  have hdst : rd u (.syn 18) Reg.SYN18.PROXY_NODE (counterIndex u x.counter) = node := by rw [hindex, hentry (by decide)]
  have hctr : rd u (.syn 18) Reg.SYN18.PROXY_COUNTER (counterIndex u x.counter) = c := by rw [hindex, hentry (by decide)]
  refine ⟨?_, fun i hi => ?_, fun h => ?_, fun hv hn => ?_, fun hv hn => ?_⟩
  · rw [hfor, hcount, if_pos rfl]
    exact Nat.min_eq_right hmax
  · rw [hfor, hcount, if_neg hi]
  · obtain ⟨hrec, hb, hs⟩ := forwarded_invalid (hvalid.trans h)
    exact ⟨hrec, hb.trans hbnd, (congrArg SyncSt.sigQ hs).trans hsig⟩
  · obtain ⟨hb, hs⟩ := forwarded_here (x := x) (u := u) (by rw [hvalid]; exact hv) (by rw [hdst, hnode]; exact hn)
    rw [hctr, hsig] at hs
    exact ⟨hs, hb.trans hbnd⟩
  · obtain ⟨hs, v, hr, hb, hsent⟩ := forwarded_there (x := x) (u := u) (by rw [hvalid]; exact hv) (by rw [hdst, hnode]; exact hn)
    rw [hdst, hctr] at hsent
    exact ⟨(congrArg SyncSt.sigQ hs).trans hsig, v, hr.trans hregs, hb.trans hbnd, hsent⟩

end Sys2Proof.Machine
end

section
/-! Waits that expire, and gates whose datapaths stop (R257, R259): O21. -/

namespace Sys2Proof.Machine

open Sys2Proof

set_option Elab.async false

/-! ### The wait withdrawn, and the first kept -/

/-- The fields of an expired wait. -/
def timeoutFields : List Fld :=
  [Reg.SYN16.TO_STATUS_SEEN, Reg.SYN16.TO_COUNTER_INDEX, Reg.SYN16.TO_COUNTER_LOCAL, Reg.SYN16.TO_WAITER_ISLAND, Reg.SYN16.TO_WAITER_QUEUE,
    Reg.SYN16.TO_TARGET_LO, Reg.SYN16.TO_TARGET_HI, Reg.SYN16.TO_COUNT]

theorem rd_timeout_other (s : State) {f g : Fld} (hf : f ∈ timeoutFields) (hg : g ∈ timeoutFields) (hne : f ≠ g) (v : Nat) :
    rd ((wr (.syn 16) f v).run s) (.syn 16) g = rd s (.syn 16) g := by
  have hall : ∀ f ∈ timeoutFields, plain (.syn 16) f = true := by decide
  have hapart : ∀ f ∈ timeoutFields, ∀ g ∈ timeoutFields, f ≠ g → f.off + f.stride * 0 ≠ g.off + g.stride * 0 ∨ f.lo + f.w ≤ g.lo ∨ g.lo + g.w ≤ f.lo := by
    decide
  exact rd_wr_other _ _ _ _ _ _ _ _ (hall f hf) (hall g hg) (.inr (hapart f hf g hg hne))

/-- The TO registers of a wait, its target given by its two words. -/
def timeoutKept (w : WaitRec) (lo hi : Nat) : Prog :=
  progs [
    wr (.syn 16) Reg.SYN16.TO_STATUS_SEEN 1, wr (.syn 16) Reg.SYN16.TO_COUNTER_INDEX w.counter,
    wr (.syn 16) Reg.SYN16.TO_COUNTER_LOCAL (ofBool w.localOf.isSome), wr (.syn 16) Reg.SYN16.TO_WAITER_ISLAND w.island,
    wr (.syn 16) Reg.SYN16.TO_WAITER_QUEUE w.queue, wr (.syn 16) Reg.SYN16.TO_TARGET_LO lo,
    wr (.syn 16) Reg.SYN16.TO_TARGET_HI hi]

theorem keepTimeout_eq (w : WaitRec) : keepTimeout w = .look fun s => .seq (addSat (.syn 16) Reg.SYN16.TO_COUNT 1)
    (whenP (rd s (.syn 16) Reg.SYN16.TO_STATUS_SEEN == 0) (timeoutKept w (w.target % 2 ^ 32) (w.target / 2 ^ 32))) := by
  unfold keepTimeout timeoutKept
  rfl

theorem run_keepTimeout (w : WaitRec) (s : State) : (keepTimeout w).run s =
    (whenP (rd s (.syn 16) Reg.SYN16.TO_STATUS_SEEN == 0) (timeoutKept w (w.target % 2 ^ 32) (w.target / 2 ^ 32))).run ((addSat (.syn 16) Reg.SYN16.TO_COUNT 1).run s) := by
  rw [keepTimeout_eq, run_look, run_seq]

theorem run_timeoutKept (w : WaitRec) (lo hi : Nat) (s : State) : (timeoutKept w lo hi).run s =
    (wr (.syn 16) Reg.SYN16.TO_TARGET_HI hi).run ((wr (.syn 16) Reg.SYN16.TO_TARGET_LO lo).run ((wr (.syn 16) Reg.SYN16.TO_WAITER_QUEUE w.queue).run
      ((wr (.syn 16) Reg.SYN16.TO_WAITER_ISLAND w.island).run ((wr (.syn 16) Reg.SYN16.TO_COUNTER_LOCAL (ofBool w.localOf.isSome)).run
        ((wr (.syn 16) Reg.SYN16.TO_COUNTER_INDEX w.counter).run ((wr (.syn 16) Reg.SYN16.TO_STATUS_SEEN 1).run s)))))) := by
  unfold timeoutKept
  rw [run_progs_cons, run_progs_cons, run_progs_cons, run_progs_cons, run_progs_cons, run_progs_cons, run_progs_cons, run_progs_nil]

theorem rd_timeoutKept (w : WaitRec) (lo hi : Nat) (s : State) :
    rd ((timeoutKept w lo hi).run s) (.syn 16) Reg.SYN16.TO_STATUS_SEEN = 1 ∧
    rd ((timeoutKept w lo hi).run s) (.syn 16) Reg.SYN16.TO_COUNTER_INDEX = w.counter % 2 ^ 12 ∧
    rd ((timeoutKept w lo hi).run s) (.syn 16) Reg.SYN16.TO_WAITER_ISLAND = w.island % 2 ^ 10 ∧
    rd ((timeoutKept w lo hi).run s) (.syn 16) Reg.SYN16.TO_COUNT = rd s (.syn 16) Reg.SYN16.TO_COUNT := by
  rw [run_timeoutKept]
  refine ⟨?_, ?_, ?_, ?_⟩
  · iterate 6 rw [rd_timeout_other _ (by decide) (by decide) (by decide)]
    exact rd_wr_same _ _ _ _ _ (by decide)
  · iterate 5 rw [rd_timeout_other _ (by decide) (by decide) (by decide)]
    exact rd_wr_same _ _ _ _ _ (by decide)
  · iterate 3 rw [rd_timeout_other _ (by decide) (by decide) (by decide)]
    exact rd_wr_same _ _ _ _ _ (by decide)
  · iterate 7 rw [rd_timeout_other _ (by decide) (by decide) (by decide)]

theorem only_keepTimeout {w : WaitRec} : Only [.reg] (keepTimeout w) :=
  only_look fun _ => only_seq only_addSat (only_whenP ⟨only_wr, only_wr, only_wr, only_wr, only_wr, only_wr, only_wr, trivial⟩)

theorem keepTimeout_spec (w : WaitRec) (s : State) : let t := (keepTimeout w).run s
    rd t (.syn 16) Reg.SYN16.TO_COUNT = min (2 ^ 32 - 1) (rd s (.syn 16) Reg.SYN16.TO_COUNT + 1) ∧
    (rd s (.syn 16) Reg.SYN16.TO_STATUS_SEEN = 0 → rd t (.syn 16) Reg.SYN16.TO_STATUS_SEEN = 1 ∧
      rd t (.syn 16) Reg.SYN16.TO_COUNTER_INDEX = w.counter % 2 ^ 12 ∧ rd t (.syn 16) Reg.SYN16.TO_WAITER_ISLAND = w.island % 2 ^ 10) := by
  obtain ⟨hseen, hindex, hisland, hcount⟩ := rd_timeoutKept w (w.target % 2 ^ 32) (w.target / 2 ^ 32) ((addSat (.syn 16) Reg.SYN16.TO_COUNT 1).run s)
  have hsum := (rd_addSat (pg := .syn 16) (f := Reg.SYN16.TO_COUNT) (i := 0) (by decide) 1 s).trans (satBits_eq_min _)
  rw [run_keepTimeout, run_whenP]
  refine ⟨?_, fun h => ?_⟩
  · split
    · exact hcount.trans hsum
    · exact hsum
  · rw [if_pos (beq_iff_eq.mpr h)]
    exact ⟨hseen, hindex, hisland⟩

/-! ### What an expired wait ends -/

/-- What follows the record of an expired wait: the run ended on a gate's piste, the status of a core, the WAIT command completed. -/
def timeoutEnds (w : WaitRec) (island leg count u : Nat) : Prog :=
  progs [whenP (decide (island < 768)) (failRun (island / 12) Code.SYNC_TIMEOUT island leg (some u)), fwStatus w Code.SYNC_TIMEOUT,
    finishOpt w.cmd Code.SYNC_TIMEOUT count (some u)]

/-- A wait withdrawn, and the first kept. -/
def withdraw (w : WaitRec) (island : Nat) : Prog :=
  .seq (modSync fun y => { y with waits := eraseFirst w y.waits, gated := smSet flagDefault y.gated island false }) (keepTimeout w)

theorem exec_waitExpiry {s : State} {w : WaitRec} {island queue : Nat} (hw : waitAt s island queue = some w) (hlimit : waitLimit s w ≠ 0) :
    ∃ iter leg items, exec (.waitExpiry island queue) s = .next ((raiseSev 2 Code.SYNC_TIMEOUT island iter leg queue items
      (timeoutEnds w island leg (countOf s w.counter))).run ((withdraw w island).run s)) := by
  refine ⟨if island < 768 then iterOn s (island / 12) else 0, if island < 768 then (gateOf s island).next else noLeg,
    [w32 (w.counter + 4096 * ofBool w.localOf.isSome), w64 w.target], congrArg Host.Outcome.next ?_⟩
  unfold progWaitExpiry
  rw [run_look, hw]
  dsimp only
  rw [run_whenP, if_pos (by simpa using hlimit), run_progs_cons, run_progs_cons, run_progs_cons, run_progs_nil]
  unfold withdraw timeoutEnds
  rw [run_seq]

theorem only_withdraw {w : WaitRec} {island : Nat} : Only [.sync, .reg] (withdraw w island) := only_seq only_modSync (only_keepTimeout.mono (by decide))

theorem waits_withdraw (w : WaitRec) (island : Nat) (s : State) : ((withdraw w island).run s).sync.waits = eraseFirst w s.sync.waits := by
  unfold withdraw
  rw [run_seq, only_keepTimeout.sync]
  rfl

theorem withdraw_spec (w : WaitRec) (island : Nat) (s : State) :
    rd ((withdraw w island).run s) (.syn 16) Reg.SYN16.TO_COUNT = min (2 ^ 32 - 1) (rd s (.syn 16) Reg.SYN16.TO_COUNT + 1) ∧
    (rd s (.syn 16) Reg.SYN16.TO_STATUS_SEEN = 0 → rd ((withdraw w island).run s) (.syn 16) Reg.SYN16.TO_STATUS_SEEN = 1 ∧
      rd ((withdraw w island).run s) (.syn 16) Reg.SYN16.TO_COUNTER_INDEX = w.counter % 2 ^ 12 ∧
      rd ((withdraw w island).run s) (.syn 16) Reg.SYN16.TO_WAITER_ISLAND = w.island % 2 ^ 10) := by
  have hregs : ((modSync fun y => { y with waits := eraseFirst w y.waits, gated := smSet flagDefault y.gated island false }).run s).regs = s.regs :=
    (only_modSync (K := [.sync])).regs
  have h := keepTimeout_spec w ((modSync fun y => { y with waits := eraseFirst w y.waits, gated := smSet flagDefault y.gated island false }).run s)
  rw [rd_congr hregs _ _ _ (by decide), rd_congr hregs _ _ _ (by decide)] at h
  unfold withdraw
  rw [run_seq]
  exact h

/-- A record as the step before what follows it. -/
theorem run_raiseSev_then (sev code island iter leg unit : Nat) (items : List Item) (k : Nat → Prog) (s : State) :
    (raiseSev sev code island iter leg unit items k).run s =
      (k s.recs.nextUid).run ((raiseSev sev code island iter leg unit items fun _ => .skip).run s) := rfl

/-- The end of a run by a fault adds no wait. -/
theorem preserves_waits_failRun {l : List WaitRec} {p status island leg : Nat} {u : Option Nat} :
    Preserves (fun s => ∀ w ∈ s.sync.waits, w ∈ l) (failRun p status island leg u) := by
  have hother {q : Prog} (h : Only [.runs, .piste, .reg, .units, .gate] q) : Preserves (fun s : State => ∀ w ∈ s.sync.waits, w ∈ l) q := fun s hs w hw =>
    hs w (by rwa [h.sync] at hw)
  refine preserves_look fun s => ?_
  split
  · exact preserves_skip
  · exact preserves_cons (hother (only_modRun (by decide))) (preserves_cons (hother only_modPiste) (preserves_cons (hother only_wr) (preserves_cons (hother only_modUnits)
      (preserves_cons (hother (only_forEach fun _ => only_modGate)) (preserves_cons (fun t ht w hw => ht w (List.mem_filter.mp hw).1) preserves_nil)))))

section
variable {w : WaitRec} {island leg count u : Nat}

theorem only_timeoutEnds : Only (.fw :: .host :: failK) (timeoutEnds w island leg count u) :=
  ⟨only_whenP (only_failRun.mono (by decide)), only_fwStatus.mono (by decide), only_finishOpt (by decide), trivial⟩

theorem writes_timeoutEnds : Writes faultWords (timeoutEnds w island leg count u) := by
  refine writes_cons (writes_whenP fun _ => writes_failRun (.inr ?_)) (writes_cons only_fwStatus.writes
    (writes_cons (only_finishOpt (K := [.host]) (by decide)).writes writes_nil))
  rw [fldAddr_eq]
  simp only [pageBase]
  omega

theorem waits_timeoutEnds (s : State) : ∀ x ∈ ((timeoutEnds w island leg count u).run s).sync.waits, x ∈ s.sync.waits := by
  have hother {q : Prog} (h : Only [.fw, .host] q) : Preserves (fun t : State => ∀ x ∈ t.sync.waits, x ∈ s.sync.waits) q := fun t ht x hx =>
    ht x (by rwa [h.sync] at hx)
  exact preserves_cons (preserves_whenP preserves_waits_failRun) (preserves_cons (hother (only_fwStatus.mono (by decide)))
    (preserves_cons (hother (only_finishOpt (by decide))) preserves_nil)) s fun _ h => h

theorem failed_timeoutEnds {s : State} (hisland : island < 768) (hrun : (pisteOf s (island / 12)).run ≠ none) :
    (pisteOf ((timeoutEnds w island leg count u).run s) (island / 12)).failed = true := by
  obtain ⟨id, hid⟩ := Option.ne_none_iff_exists'.mp hrun
  have hrest : Only [.fw, .host] (progs [fwStatus w Code.SYNC_TIMEOUT, finishOpt w.cmd Code.SYNC_TIMEOUT count (some u)]) :=
    ⟨only_fwStatus.mono (by decide), only_finishOpt (by decide), trivial⟩
  unfold timeoutEnds
  rw [run_progs_cons, decide_eq_true hisland, run_whenP_true, hrest.pisteOf]
  exact failed_failRun hid _ _ _ _

theorem finished_timeoutEnds {s : State} (hisland : 768 ≤ island) {id : Nat} {c : Cmd} (hcmd : w.cmd = some id) (hfind : findCmd s id = some c) :
    HasFinished ((timeoutEnds w island leg count u).run s) c Code.SYNC_TIMEOUT count := by
  obtain ⟨hmem, rfl⟩ := findCmd_id hfind
  have hhost : ((fwStatus w Code.SYNC_TIMEOUT).run s).host = s.host := only_fwStatus.host
  unfold timeoutEnds
  rw [run_progs_cons, decide_eq_false (Nat.not_lt.mpr hisland), run_whenP_false, run_progs_cons, run_progs_cons, run_progs_nil, hcmd]
  exact hasFinished_finish ⟨c, by rw [hhost]; exact hmem, rfl⟩ _ _ _

theorem waitStatus_timeoutEnds (s : State) (hcore : w.island = 852) :
    smGet zeroDefault ((timeoutEnds w island leg count u).run s).fw.waitStatus w.queue = Code.SYNC_TIMEOUT + 1 := by
  unfold timeoutEnds
  rw [run_progs_cons, run_progs_cons, run_progs_cons, run_progs_nil, (only_finishOpt (K := [.host]) (by decide)).fw]
  unfold fwStatus
  rw [run_whenP, if_pos (beq_iff_eq.mpr hcore), run_modFw]
  exact smGet_set_same zeroDefault _ w.queue (Code.SYNC_TIMEOUT + 1)

end

/-- What an expired wait leaves (R259). -/
theorem waitExpiry_spec {s : State} {w : WaitRec} {island queue : Nat} (hw : waitAt s island queue = some w) (hlimit : waitLimit s w ≠ 0) :
    ∃ t, exec (.waitExpiry island queue) s = .next t ∧
      (∀ x ∈ t.sync.waits, x ∈ eraseFirst w s.sync.waits) ∧ HasRecord t island Code.SYNC_TIMEOUT ∧
      rd t (.syn 16) Reg.SYN16.TO_COUNT = min (2 ^ 32 - 1) (rd s (.syn 16) Reg.SYN16.TO_COUNT + 1) ∧
      (rd s (.syn 16) Reg.SYN16.TO_STATUS_SEEN = 0 → rd t (.syn 16) Reg.SYN16.TO_STATUS_SEEN = 1 ∧
        rd t (.syn 16) Reg.SYN16.TO_COUNTER_INDEX = w.counter % 2 ^ 12 ∧ rd t (.syn 16) Reg.SYN16.TO_WAITER_ISLAND = w.island % 2 ^ 10) ∧
      (island < 768 → (pisteOf s (island / 12)).run ≠ none → (pisteOf t (island / 12)).failed = true) ∧
      (∀ id c, 768 ≤ island → w.cmd = some id → findCmd s id = some c → HasFinished t c Code.SYNC_TIMEOUT (countOf s w.counter)) ∧
      (w.island = 852 → smGet zeroDefault t.fw.waitStatus w.queue = Code.SYNC_TIMEOUT + 1) ∧ t.counts = s.counts ∧ t.mem = s.mem := by
  obtain ⟨iter, leg, items, hexec⟩ := exec_waitExpiry hw hlimit
  have hrecord := hasRecord_raiseSev (sev := 2) (code := Code.SYNC_TIMEOUT) (island := island) (iter := iter) (leg := leg) (unit := queue) (items := items)
    (k := timeoutEnds w island leg (countOf s w.counter)) (fun u => only_timeoutEnds.srcQueue island) ((withdraw w island).run s)
  have honly : Only [.reg, .recs] (raiseSev 2 Code.SYNC_TIMEOUT island iter leg queue items fun _ => .skip) :=
    only_raiseSev (fun _ => only_skip) (by decide) (by decide)
  have hwrites : Writes recordWords (raiseSev 2 Code.SYNC_TIMEOUT island iter leg queue items fun _ => .skip) :=
    writes_raiseSev (fun _ => writes_skip) fun _ h => h
  obtain ⟨hcount, hfirst⟩ := withdraw_spec w island s
  have hwithdraw := only_withdraw (w := w) (island := island)
  rw [run_raiseSev_then] at hexec hrecord
  generalize ((withdraw w island).run s).recs.nextUid = u at hexec hrecord
  have hends := only_timeoutEnds (w := w) (island := island) (leg := leg) (count := countOf s w.counter) (u := u)
  have hregs {f : Fld} (hlt : f.off + f.stride * 0 < 4096) (hp : plain (.syn 16) f = true) :
      rd ((timeoutEnds w island leg (countOf s w.counter) u).run ((raiseSev 2 Code.SYNC_TIMEOUT island iter leg queue items fun _ => .skip).run
        ((withdraw w island).run s))) (.syn 16) f = rd ((withdraw w island).run s) (.syn 16) f := by
    have hsyn : ¬ faultWords (fldAddr (.syn 16) f 0) := by
      rw [fldAddr_eq]
      unfold faultWords recordWords
      simp only [pageBase]
      omega
    exact (writes_timeoutEnds.rd hsyn hp _).trans (hwrites.rd (fun c => hsyn (.inl c)) hp _)
  refine ⟨_, hexec, fun x hx => ?_, hrecord, (hregs (by decide) (by decide)).trans hcount, fun h => ?_, fun hi hrun => ?_, fun id c hi hcmd hfind => ?_, fun hcore => ?_,
    ?_, ?_⟩
  · have hx := waits_timeoutEnds _ x hx
    rw [honly.sync, waits_withdraw] at hx
    exact hx
  · obtain ⟨hseen, hindex, hisland⟩ := hfirst h
    exact ⟨(hregs (by decide) (by decide)).trans hseen, (hregs (by decide) (by decide)).trans hindex, (hregs (by decide) (by decide)).trans hisland⟩
  · refine failed_timeoutEnds hi ?_
    rw [honly.pisteOf, hwithdraw.pisteOf]
    exact hrun
  · refine finished_timeoutEnds hi hcmd ?_
    unfold findCmd
    rw [honly.host, hwithdraw.host]
    exact hfind
  · exact waitStatus_timeoutEnds _ hcore
  · rw [hends.counts, honly.counts, hwithdraw.counts]
  · rw [hends.mem, honly.mem, hwithdraw.mem]

/-! ### A datapath stopped -/

theorem datapathGate_spec {s : State} {w : WaitRec} (p : Fin 64) (g : Fin 12) (hw : waitAt s (12 * p + g) 0 = some w)
    (hbusy : (gateOf s (12 * p + g)).busy = false) (hheld : (gateOf s (12 * p + g)).held = [])
    (hsig : ∀ d ∈ s.units.signalsDue, ¬ (d.piste = p ∧ d.gate = g)) (hout : ∀ d ∈ s.units.outStage, ¬ (d.piste = p ∧ d.gate = g))
    (hmark : ∀ d ∈ s.units.marksDue, ¬ (d.piste = p ∧ d.gate = g)) (htags : tagsOpen s p (some g.val) none = false) :
    exec (.datapathGate p g) s = .next { s with sync := { s.sync with gated := smSet flagDefault s.sync.gated (12 * p + g) true } } := by
  refine congrArg Host.Outcome.next ?_
  unfold progDatapathGate gateIsland
  rw [run_look]
  dsimp only
  rw [run_whenP, if_pos]
  · rfl
  · simp only [hw, hbusy, hheld, htags, Option.isSome_some, Bool.not_false, List.isEmpty_nil, Bool.and_true, Bool.true_and, Bool.and_eq_true, List.all_eq_true,
      Bool.not_eq_true', Bool.and_eq_false_iff, beq_eq_false_iff_ne, ← not_and_or]
    exact ⟨⟨hsig, hout⟩, hmark⟩

/-- Settles O21: a wait expires, and a datapath stops, by their laws. -/
theorem waitExpires : Obligations.WaitExpires := by
  unfold Obligations.WaitExpires
  exact fun s w => ⟨fun island queue => waitExpiry_spec, fun p g => datapathGate_spec p g⟩

end Sys2Proof.Machine
end

section
/-! SIGNAL messages and arrival marks served (R254, R290, R311, R312): O44. -/

namespace Sys2Proof.Machine

open Sys2Proof

set_option Elab.async false

/-! ### Lists changed at one place -/

theorem nth_set_same {α : Type} {l : List α} {i : Nat} (h : i < l.length) (x d : α) : nth (l.set i x) i d = x := by
  rw [nth_lt _ _ _ (by rwa [List.length_set]), List.getElem_set_self]

theorem nth_modAt_same {α : Type} (f : α → α) (d : α) {l : List α} {i : Nat} (h : i < l.length) : nth (modAt l i f) i d = f (nth l i d) := by
  induction l generalizing i with
  | nil => exact absurd h (Nat.not_lt_zero _)
  | cons x r ih =>
    cases i with
    | zero => rfl
    | succ i => exact ih (Nat.lt_of_succ_lt_succ h)

/-! ### Fields of an X-gate and the fabric's words -/

theorem gate_not_fabricWords (q : Nat) (f : Fld) (i : Nat) : fldAddr (.gate q 11) f i ∉ fabricWords := by
  have hlow : ∀ a ∈ fabricWords, a < 0x1000000 := by decide
  intro h
  have := hlow _ h
  rw [fldAddr_eq] at this
  simp only [pageBase] at this
  omega

theorem gate_not_recordWords (q : Nat) (f : Fld) (i : Nat) : ¬ recordWords (fldAddr (.gate q 11) f i) := by
  rw [fldAddr_eq]
  simp only [pageBase]
  unfold recordWords
  omega

/-- An answer leaves the fields of X-gates. -/
theorem rd_answer_gate {q : Nat} {f : Fld} {i : Nat} (hp : plain (.gate q 11) f i = true) (m : Msg) (op : Nat) (s : State) :
    rd ((answer m op [] false 0).run s) (.gate q 11) f i = rd s (.gate q 11) f i :=
  (writes_answer m op [] false 0).rd (gate_not_fabricWords _ _ _) hp s

/-! ### Marks (R312) -/

section
variable {s : State} {q c k j src : Nat}

/-- Whether the channel takes marks of an iteration: it has not closed, or last closed one of the two before it. -/
def takesMark (s : State) (q c j : Nat) : Prop :=
  rd s (.gate q 11) Reg.GATEX.CLOSED_VALID c = 0 ∨
    (rd s (.gate q 11) Reg.GATEX.CLOSED c < j ∧ j < rd s (.gate q 11) Reg.GATEX.CLOSED c + 3)

/-- The contributor's half of PENDING. -/
def pendFld (k : Nat) : Fld := if k < 32 then Reg.GATEX.PENDING_LO else Reg.GATEX.PENDING_HI

/-- A wait on the channel looks at its condition again. -/
def wakeChan (s : State) (q c : Nat) : Prog :=
  whenP (chanOf s q c).waiting.isSome (modSync fun y => { y with gated := smSet flagDefault y.gated (gateIsland q 11) false })

theorem only_wakeChan : Only [.sync] (wakeChan s q c) := only_whenP only_modSync

theorem takesMark_tests (h : takesMark s q c j) :
    (rd s (.gate q 11) Reg.GATEX.CLOSED_VALID c == 1 && j == rd s (.gate q 11) Reg.GATEX.CLOSED c) = false ∧
    (rd s (.gate q 11) Reg.GATEX.CLOSED_VALID c == 1 && (decide (j < rd s (.gate q 11) Reg.GATEX.CLOSED c) ||
      decide (rd s (.gate q 11) Reg.GATEX.CLOSED c + 3 ≤ j))) = false := by
  rcases h with hv | ⟨hlo, hhi⟩
  · rw [hv]
    exact ⟨rfl, rfl⟩
  · rw [beq_eq_false_iff_ne.mpr (Nat.ne_of_gt hlo), decide_eq_false (Nat.not_lt.mpr (Nat.le_of_lt hlo)), decide_eq_false (Nat.not_le.mpr hhi)]
    exact ⟨Bool.and_false _, Bool.and_false _⟩

theorem run_markArrives_open (h : takesMark s q c j) (htag : nth (chanOf s q c).tags (j % 3) none = none ∨ nth (chanOf s q c).tags (j % 3) none = some j) :
    (markArrives q c k j src).run s = (wakeChan s q c).run ((modChan q c fun x =>
      { x with tags := x.tags.set (j % 3) (some j),
               marks := modAt x.marks (j % 3) fun m => if nth (chanOf s q c).tags (j % 3) none = none then 2 ^ k else m.lor (2 ^ k) }).run s) := by
  have hset : (nth (chanOf s q c).tags (j % 3) none == none || nth (chanOf s q c).tags (j % 3) none == some j) = true :=
    (Bool.or_eq_true _ _).mpr (htag.imp beq_iff_eq.mpr beq_iff_eq.mpr)
  obtain ⟨hclosed, hrange⟩ := takesMark_tests h
  unfold markArrives
  rw [run_look]
  dsimp only
  rw [hclosed, if_neg Bool.false_ne_true, hrange, if_neg Bool.false_ne_true, if_pos hset]
  rfl

theorem run_markArrives_closed (hv : rd s (.gate q 11) Reg.GATEX.CLOSED_VALID c = 1) (hj : j = rd s (.gate q 11) Reg.GATEX.CLOSED c) (hk : k < 64) :
    (markArrives q c k j src).run s = (wr (.gate q 11) (pendFld k) ((rd s (.gate q 11) (pendFld k) c).lor (2 ^ (k % 32))) c).run s := by
  unfold markArrives
  rw [run_look]
  dsimp only
  rw [if_pos ((Bool.and_eq_true _ _).mpr ⟨beq_iff_eq.mpr hv, beq_iff_eq.mpr hj⟩)]
  unfold pendFld
  by_cases h : k < 32
  · rw [if_pos h, if_pos h, Nat.mod_eq_of_lt h]
  · rw [if_neg h, if_neg h, show k % 32 = k - 32 by omega]

theorem run_markArrives_outside (hv : rd s (.gate q 11) Reg.GATEX.CLOSED_VALID c = 1)
    (hj : j < rd s (.gate q 11) Reg.GATEX.CLOSED c ∨ rd s (.gate q 11) Reg.GATEX.CLOSED c + 3 ≤ j) :
    (markArrives q c k j src).run s = (reduceOverrun q c j src).run s := by
  have hne : (j == rd s (.gate q 11) Reg.GATEX.CLOSED c) = false := beq_eq_false_iff_ne.mpr (by omega)
  have hout : (decide (j < rd s (.gate q 11) Reg.GATEX.CLOSED c) || decide (rd s (.gate q 11) Reg.GATEX.CLOSED c + 3 ≤ j)) = true := by
    simpa using hj
  unfold markArrives
  rw [run_look]
  dsimp only
  rw [hne, Bool.and_false, if_neg Bool.false_ne_true, hout, Bool.and_true, if_pos (beq_iff_eq.mpr hv)]

theorem run_markArrives_otherTag (h : takesMark s q c j) (hnone : nth (chanOf s q c).tags (j % 3) none ≠ none)
    (hother : nth (chanOf s q c).tags (j % 3) none ≠ some j) : (markArrives q c k j src).run s = (reduceOverrun q c j src).run s := by
  obtain ⟨hclosed, hrange⟩ := takesMark_tests h
  unfold markArrives
  rw [run_look]
  dsimp only
  rw [hclosed, if_neg Bool.false_ne_true, hrange, if_neg Bool.false_ne_true, beq_eq_false_iff_ne.mpr hnone, beq_eq_false_iff_ne.mpr hother,
    Bool.or_false, if_neg Bool.false_ne_true]

/-! ### An overrun (R312) -/

theorem only_reduceOverrun : Only [.reg, .recs] (reduceOverrun q c j src) :=
  only_look fun _ => only_cons only_wr (only_cons only_addSat (only_cons only_raise only_nil))

/-- An overrun is counted and recorded. -/
theorem reduceOverrun_spec (hq : q < 64) :
    rd ((reduceOverrun q c j src).run s) (.gate q 11) Reg.GATEX.OVERRUN_COUNT =
      satBits Reg.GATEX.OVERRUN_COUNT.w (rd s (.gate q 11) Reg.GATEX.OVERRUN_COUNT + 1) ∧
    HasRecord ((reduceOverrun q c j src).run s) (12 * q + 11) Code.REDUCE_OVERRUN := by
  have hcount : plain (.gate q 11) Reg.GATEX.OVERRUN_COUNT 0 = true := plain_gate hq (by decide)
  have hcheck : plain (.gate q 11) Reg.GATEX.CHECK_OVERRUN 0 = true := plain_gate hq (by decide)
  unfold reduceOverrun
  rw [run_look, run_progs_cons, run_progs_cons, run_progs_cons, run_progs_nil]
  refine ⟨?_, hasRecord_raise _ _ _ _ _ _ _⟩
  rw [(writes_raise _ _ _ _ _ _).rd (gate_not_recordWords _ _ _) hcount, rd_addSat hcount,
    rd_wr_other _ _ _ _ _ _ _ _ hcheck hcount (.inr (.inl (by decide)))]

end

/-! ### Taking the message -/

theorem rd_taken {s : State} (p : Nat) (m : Msg) {pg : Page} {f : Fld} {i : Nat} (hp : plain pg f i = true) :
    rd (taken s p m) pg f i = rd s pg f i := rd_congr only_takeMsg.regs _ _ _ hp

theorem chanOf_congr {s t : State} (h : t.units = s.units) {q c : Nat} : chanOf t q c = chanOf s q c := by
  unfold chanOf
  rw [h]

theorem chanOf_taken (s : State) (p : Nat) (m : Msg) (q c : Nat) : chanOf (taken s p m) q c = chanOf s q c := chanOf_congr only_takeMsg.units

/-- An arrival mark served is recorded in its channel and acknowledged. -/
theorem exec_arrivalMark {s : State} {p : Fin 7} {m : Msg} (h : Serves s p m) (hresp : m.resp = false) (hop : m.op = 0) (hcls : m.cls = 2)
    (hlen : m.len = 0) : exec (.arrivalMark p m) s = .next ((answer m 2 [] false 0).run
      ((markArrives (bits m.addr 44 6) (bits m.addr 40 4) (bits m.addr 0 6) (bits m.addr 6 32) m.src).run (taken s p m))) := by
  show done (whenP (m.len == 0) _) s = _
  unfold done
  rw [run_whenP, if_pos (beq_iff_eq.mpr hlen), run_serveMsg h hresp hcls hop, run_seq]

section
variable {s : State} {p : Fin 7} {m : Msg}

/-- A SIGNAL message served goes to the counter block. -/
theorem exec_syncSignalMessage (h : Serves s p m) (hresp : m.resp = false) (hop : m.op = 0) (hcls : m.cls = 0) :
    exec (.syncSignalMessage p m) s = .next ((signalIn m).run (taken s p m)) := by
  show done (serveMsg p m 0 0 false _ _) s = _
  unfold done
  rw [run_serveMsg h hresp hcls hop]

theorem run_sendSignal_taken (x : SigRec) (s : State) (p : Nat) (m : Msg) : (sendSignal x).run (taken s p m) =
    { s with sync := { s.sync with sigQ := s.sync.sigQ ++ [x] }, bnd := (taken s p m).bnd } := by
  rw [taken_eq]
  rfl

theorem signalMessage_spec (h : Serves s p m) (hresp : m.resp = false) (hop : m.op = 0) (hcls : m.cls = 0) :
    let w := m.addr + m.tag * 2 ^ 50
    ∃ t, exec (.syncSignalMessage p m) s = .next t ∧
      t.sync = { s.sync with sigQ := s.sync.sigQ ++
        [{ counter := w % 2 ^ 12, amount := bits w 32 32, round := bits w 12 16, src := .remote m.src, run := none, cmd := none, leg := 0x3FFF }] } ∧
      t = { s with sync := t.sync, bnd := t.bnd } := by
  intro w
  have hcounter : bits w 0 12 = w % 2 ^ 12 := by
    unfold bits
    rw [Nat.pow_zero, Nat.div_one]
  rw [← hcounter]
  exact ⟨_, (exec_syncSignalMessage h hresp hop hcls).trans (congrArg _ (run_sendSignal_taken _ _ _ _)), rfl, rfl⟩

/-- What a channel's mark leaves, in the state in which it is acknowledged. -/
theorem markArrives_open_spec {q c j k src : Nat} (h : takesMark s q c j) (htags : (chanOf s q c).tags.length = 3)
    (hmarks : (chanOf s q c).marks.length = 3)
    (htag : nth (chanOf s q c).tags (j % 3) none = none ∨ nth (chanOf s q c).tags (j % 3) none = some j) :
    nth (chanOf ((markArrives q c k j src).run s) q c).tags (j % 3) none = some j ∧
      nth (chanOf ((markArrives q c k j src).run s) q c).marks (j % 3) 0 =
        (if nth (chanOf s q c).tags (j % 3) none = none then 2 ^ k else (nth (chanOf s q c).marks (j % 3) 0).lor (2 ^ k)) := by
  have hlt : j % 3 < 3 := Nat.mod_lt _ (by decide)
  rw [run_markArrives_open h htag]
  unfold chanOf
  rw [only_wakeChan.units]
  exact ⟨(congrArg (fun x : ChanSt => nth x.tags (j % 3) none) (chanOf_modChan q c _ s)).trans (nth_set_same (by rw [htags]; exact hlt) _ _),
    (congrArg (fun x : ChanSt => nth x.marks (j % 3) 0) (chanOf_modChan q c _ s)).trans (nth_modAt_same _ _ (by rw [hmarks]; exact hlt))⟩

theorem only_markArrives_open {q c j k src : Nat} (h : takesMark s q c j)
    (htag : nth (chanOf s q c).tags (j % 3) none = none ∨ nth (chanOf s q c).tags (j % 3) none = some j) :
    ∃ x, (markArrives q c k j src).run s = Prog.run x s ∧ Only [.units, .sync] x :=
  ⟨_, (run_markArrives_open h htag).trans (run_seq _ _ _).symm, only_seq only_modUnits (only_wakeChan.mono (by decide))⟩

end

/-! ### What each mark leaves -/

section
variable {s : State} {p : Fin 7} {m : Msg} {q c k j : Nat}

theorem takesMark_taken (hq : q < 64) (hc : c < 16) (h : takesMark s q c j) : takesMark (taken s p m) q c j := by
  unfold takesMark
  rw [rd_taken _ _ (plain_chan (by decide) hq hc), rd_taken _ _ (plain_chan (by decide) hq hc)]
  exact h

/-- The state that a mark leaves. -/
def markServed (s : State) (p : Fin 7) (m : Msg) (q c k j : Nat) : State :=
  (answer m 2 [] false 0).run ((markArrives q c k j m.src).run (taken s p m))

/-- A mark that its channel takes. -/
theorem markServed_open (hq : q < 64) (hc : c < 16) (hopen : takesMark s q c j) (htags : (chanOf s q c).tags.length = 3)
    (hmarks : (chanOf s q c).marks.length = 3)
    (htag : nth (chanOf s q c).tags (j % 3) none = none ∨ nth (chanOf s q c).tags (j % 3) none = some j) :
    let t := markServed s p m q c k j
    nth (chanOf t q c).tags (j % 3) none = some j ∧
      nth (chanOf t q c).marks (j % 3) 0 =
        (if nth (chanOf s q c).tags (j % 3) none = none then 2 ^ k else (nth (chanOf s q c).marks (j % 3) 0).lor (2 ^ k)) ∧
      Answered s t p m 2 [] 0 ∧ t.mem = s.mem ∧ t.counts = s.counts := by
  intro t
  have hchan := chanOf_taken s p m q c
  rw [← hchan] at htags hmarks htag
  have hspec := markArrives_open_spec (k := k) (src := m.src) (takesMark_taken hq hc hopen) htags hmarks htag
  obtain ⟨x, hx, honly⟩ := only_markArrives_open (k := k) (src := m.src) (takesMark_taken hq hc hopen) htag
  have htake : Only [.bnd] (takeMsg p m) := only_takeMsg
  have hkept : chanOf t q c = chanOf ((markArrives q c k j m.src).run (taken s p m)) q c := chanOf_congr only_answer.units
  rw [hkept, ← hchan]
  refine ⟨hspec.1, hspec.2, ⟨(markArrives q c k j m.src).run (taken s p m), ?_, ?_, rfl⟩, ?_, ?_⟩
  · rw [hx, honly.regs]
    exact htake.regs
  · rw [hx, honly.bnd]
    rfl
  · rw [show t.mem = _ from only_answer.mem, hx, honly.mem]
    exact htake.mem
  · rw [show t.counts = _ from only_answer.counts, hx, honly.counts]
    exact htake.counts

/-- A mark of the iteration last closed. -/
theorem markServed_closed (hq : q < 64) (hc : c < 16) (hk : k < 64) (hv : rd s (.gate q 11) Reg.GATEX.CLOSED_VALID c = 1)
    (hj : j = rd s (.gate q 11) Reg.GATEX.CLOSED c) :
    let t := markServed s p m q c k j
    rd t (.gate q 11) (pendFld k) c = (rd s (.gate q 11) (pendFld k) c).lor (2 ^ (k % 32)) ∧ t.units = s.units ∧
      ∃ u, OnlyRegs s { u with bnd := s.bnd } [fldAddr (.gate q 11) (pendFld k) c] ∧ u.bnd = ((takeMsg p m).run s).bnd ∧
        t = (answer m 2 [] false 0).run u := by
  intro t
  have hfld : pendFld k ∈ chanFields ∧ (pendFld k).w = 32 := by
    unfold pendFld
    split
    · exact ⟨by decide, rfl⟩
    · exact ⟨by decide, rfl⟩
  have hpl := plain_chan hfld.1 hq hc
  have hpend : rd (taken s p m) (.gate q 11) (pendFld k) c = rd s (.gate q 11) (pendFld k) c := rd_taken _ _ hpl
  have hlt : (rd s (.gate q 11) (pendFld k) c).lor (2 ^ (k % 32)) < 2 ^ 32 :=
    Nat.or_lt_two_pow (hfld.2 ▸ rd_lt hpl) (Nat.pow_lt_pow_right (by decide) (Nat.mod_lt _ (by decide)))
  have ht : t = (answer m 2 [] false 0).run
      ((wr (.gate q 11) (pendFld k) ((rd s (.gate q 11) (pendFld k) c).lor (2 ^ (k % 32))) c).run (taken s p m)) := by
    show markServed s p m q c k j = _
    unfold markServed
    rw [run_markArrives_closed (by rw [rd_taken _ _ (plain_chan (by decide) hq hc), hv]) (by rw [rd_taken _ _ (plain_chan (by decide) hq hc), ← hj]) hk,
      hpend]
  generalize (rd s (.gate q 11) (pendFld k) c).lor (2 ^ (k % 32)) = v at ht hlt ⊢
  have hwr : Only [.reg] (wr (.gate q 11) (pendFld k) v c) := only_wr
  refine ⟨?_, ?_, _, ?_, ?_, ht⟩
  · rw [ht, rd_answer_gate hpl, rd_wr_same _ _ _ _ _ hpl, hfld.2, Nat.mod_eq_of_lt hlt]
  · rw [ht, only_answer.units, hwr.units]
    exact only_takeMsg.units
  · have h := onlyRegs_wr s (.gate q 11) (pendFld k) v c (List.mem_singleton.mpr rfl)
    rw [taken_eq]
    exact h
  · exact hwr.bnd

/-- A mark of an iteration that its channel does not take. -/
theorem markServed_overrun (hq : q < 64) (hc : c < 16)
    (h : (rd s (.gate q 11) Reg.GATEX.CLOSED_VALID c = 1 ∧
        (j < rd s (.gate q 11) Reg.GATEX.CLOSED c ∨ rd s (.gate q 11) Reg.GATEX.CLOSED c + 3 ≤ j)) ∨
      (takesMark s q c j ∧ nth (chanOf s q c).tags (j % 3) none ≠ none ∧ nth (chanOf s q c).tags (j % 3) none ≠ some j)) :
    let t := markServed s p m q c k j
    rd t (.gate q 11) Reg.GATEX.OVERRUN_COUNT = satBits Reg.GATEX.OVERRUN_COUNT.w (rd s (.gate q 11) Reg.GATEX.OVERRUN_COUNT + 1) ∧
      HasRecord t (12 * q + 11) Code.REDUCE_OVERRUN ∧ t.units = s.units := by
  intro t
  have hcount : plain (.gate q 11) Reg.GATEX.OVERRUN_COUNT 0 = true := plain_gate hq (by decide)
  have hrun : (markArrives q c k j m.src).run (taken s p m) = (reduceOverrun q c j m.src).run (taken s p m) := by
    rcases h with ⟨hv, hout⟩ | ⟨hopen, hnone, hother⟩
    · refine run_markArrives_outside ?_ ?_
      · rw [rd_taken _ _ (plain_chan (by decide) hq hc), hv]
      · rw [rd_taken _ _ (plain_chan (by decide) hq hc)]
        exact hout
    · rw [← chanOf_taken s p m q c] at hnone hother
      exact run_markArrives_otherTag (takesMark_taken hq hc hopen) hnone hother
  have ht : t = (answer m 2 [] false 0).run ((reduceOverrun q c j m.src).run (taken s p m)) := congrArg (answer m 2 [] false 0).run hrun
  obtain ⟨hrd, hrec⟩ := reduceOverrun_spec (s := taken s p m) (c := c) (j := j) (src := m.src) hq
  rw [ht]
  refine ⟨?_, ?_, ?_⟩
  · rw [rd_answer_gate hcount, hrd, rd_taken _ _ hcount]
  · unfold HasRecord
    rw [only_answer.recs]
    exact hrec
  · rw [only_answer.units, only_reduceOverrun.units]
    exact only_takeMsg.units

end

/-- Settles O44: a message served acts on the state it has left its pool in; a mark then takes one of the branches of `markArrives`. -/
theorem marksAndSignalsServed : Obligations.MarksAndSignalsServed := by
  unfold Obligations.MarksAndSignalsServed
  intro s p m h hresp hop
  refine ⟨fun hcls => signalMessage_spec h hresp hop hcls, ?_⟩
  intro hcls hlen q c k j pg closed tag open_ pend
  have hexec : exec (.arrivalMark p m) s = .next (markServed s p m q c k j) := exec_arrivalMark h hresp hop hcls hlen
  have hq : q < 64 := bits_lt _ _ _
  have hc : c < 16 := bits_lt _ _ _
  have hk : k < 64 := bits_lt _ _ _
  exact ⟨fun hopen htags hmarks htag => ⟨_, hexec, markServed_open hq hc hopen htags hmarks htag⟩,
    fun hv hj => ⟨_, hexec, markServed_closed hq hc hk hv hj⟩, fun hover => ⟨_, hexec, markServed_overrun hq hc hover⟩⟩

end Sys2Proof.Machine
end

section
/-! A request that cannot be routed, with a source that cannot be reached (R298): O45. -/

namespace Sys2Proof.Machine

open Sys2Proof

set_option Elab.async false

/-- A GET for the partner with 63 hops behind it, from a node with x 1, which lies outside the torus of one node that DIMS gives at reset. -/
def deadEndRequest : Msg :=
  { cls := 3, op := 1, dst := 0x8000, src := 1, len := 0, vl := 0, resp := false, poison := false, space := 0, detoured := false, hops := 63, addr := 0,
    tag := 0, data := [] }

/-- The state that the request leaves in a module just reset. -/
def deadEndState : State := (progMessageRoute deadEndRequest).run State.reset

theorem exec_deadEnd : exec (.messageRoute deadEndRequest) State.reset = .next deadEndState := rfl

/-- The request waits in its turn, and its route is port P. -/
theorem deadEnd_routed : deadEndRequest.dst ≠ ownNode State.reset ∧ inTakeover State.reset = false ∧ inCoreReset State.reset = false ∧
    overtakes State.reset deadEndRequest = false ∧ routePort State.reset deadEndRequest.dst = some (some 6) := by
  decide +kernel

/-- Two are counted: the request answered NAK UNREACHABLE, and the NAK itself, which has no route to its source and is discarded. -/
theorem unreachCount_deadEnd : rd State.reset (.bnd 7) Reg.BND7.UNREACH_COUNT = 0 ∧ rd deadEndState (.bnd 7) Reg.BND7.UNREACH_COUNT = 2 := by
  decide +kernel

/-- Refutes O45: R298 counts each NAK UNREACHABLE and each discard, so a request with 63 hops raises UNREACH_COUNT by 2, not by 1, where its NAK
cannot be routed back either. -/
theorem not_pairPortServedMessagesRouted : ¬ Obligations.PairPortServedMessagesRouted := by
  unfold Obligations.PairPortServedMessagesRouted
  rintro ⟨-, hroute⟩
  obtain ⟨hdst, htakeover, hreset, hturn, hport⟩ := deadEnd_routed
  obtain ⟨-, -, -, hlast⟩ := hroute State.reset deadEndRequest 6 hdst htakeover hreset hturn hport
  obtain ⟨t, hexec, -, hcount, -⟩ := hlast (by decide) (fun a ha => absurd ha List.not_mem_nil)
  obtain rfl : deadEndState = t := Host.Outcome.next.inj (exec_deadEnd.symm.trans hexec)
  obtain ⟨hbefore, hafter⟩ := unreachCount_deadEnd
  rw [hafter, hbefore] at hcount
  exact absurd hcount (by decide)

end Sys2Proof.Machine
end
